-- ==== Sys2Proof/Word.lean ====
section
/-! DEFINITION. The words of the TB-56 and the sparse table in which the state holds numbered things. -/

namespace Sys2Proof

/-- A register or hod word (R6, R246): 16 bits. -/
abbrev Word := BitVec 16
/-- One byte of memory. -/
abbrev Byte := BitVec 8
/-- A split 32-bit quantity (R10), a pair (R249) or a virtual word address (R310). -/
abbrev W32 := BitVec 32
/-- A 64-bit tile word (R52). -/
abbrev W64 := BitVec 64
/-- A 36-bit physical byte address (R428). -/
abbrev PAddr := BitVec 36
/-- A hod register number (R246). -/
abbrev Reg := BitVec 5
/-- A pair index: pair k is registers 2k and 2k + 1 (R246). -/
abbrev PairIx := BitVec 4
/-- A logical core in the coding of R194: 0 to 7 HC, 8 to 11 HF. -/
abbrev CoreId := Fin 12
/-- A sparse table over numbers: entries in rising order of key; an absent key holds the table's default value,
which its reader names. The byte memories are `Tab Byte`, that is lists of `Host.Cell`. -/
abbrev Tab (α : Type) := List (Nat × α)

end Sys2Proof
end

