-- ==== Sys2Proof/Syntax.lean ====
section
/-! DEFINITION. The commands of the block (one constructor of Instr for each row of the table of operations and events)
and the operands they carry. A command's operand is what the outside decides: an address, a value, a reading, a frame. -/

namespace Sys2Proof

/-- The two dies (00_scope.md). -/
inductive Die where
  | c | f
  deriving DecidableEq, Repr

/-- A crossbar master: C 0 to 37 or F 0 to 13 (R61's table of masters, R65). -/
structure Master where
  die : Die
  num : Nat
  deriving DecidableEq, Repr

/-- The sources of an image (R11). -/
inductive Source where
  | slotA | slotB | net
  deriving DecidableEq, Repr

/-- A direction of the Mortar link (R367): FC from the F-die, CF from the C-die. -/
inductive Dir where
  | fc | cf
  deriving DecidableEq, Repr

/-- A physical lane of the Mortar link (R367). -/
structure LaneRef where
  dir : Dir
  lane : Fin 18
  deriving DecidableEq, Repr

/-- A physical unit as the repair record names it: KIND and UNIT (R379, R382). -/
structure UnitRef where
  kind : Byte
  unit : BitVec 9
  deriving DecidableEq, Repr

/-- What the check bits of a 64-bit word show (R56, R57). -/
inductive Ecc where
  | clean | single | double
  deriving DecidableEq, Repr

/-- A beat waiting at a tile port (R52, R65). `wr` is the data and the byte enables of a write. `waited` counts the
cycles it has waited. `stream` marks a vector stream beat (R68), `rt` one that works for a brick of class RT (R64).
`counted` says that the master's conflict counter for the tile's group has been increased in this cycle already, at another
tile of the group (R66). -/
structure Beat where
  master : Nat
  addr : PAddr
  wr : Option (W64 × Byte)
  waited : Nat
  stream : Bool
  rt : Bool
  counted : Bool
  deriving DecidableEq, Repr

/-- An input edge of a course (R180, R183): the input line that changed, the levels of the three lines and of the cam line
after it, the width of the tooth pulse in units of 20 ns (R184), the time at which the edge leaves the glitch filter in
slots of 156.25 ps since the tick count began, and for how many ticks the line has held its new level. -/
structure EdgeInfo where
  line : Fin 3
  rising : Bool
  a : Bool
  b : Bool
  c : Bool
  cam : Bool
  width : Nat
  slot : Nat
  held : Nat
  deriving DecidableEq, Repr

/-- A received SENT frame (R214, R215): the lengths in ns of its calibration pulse and of the pulses after it. -/
structure SentRx where
  calNs : Nat
  pulses : List Nat
  deriving DecidableEq, Repr

/-- The read indices that software advances (R222, R361). -/
inductive SlotReg where
  | fieldBuffer (b : Fin 8)
  | captureRing (r : Fin 8)
  | nswRing (r : Fin 4)
  | fnetRing (r : Fin 2)
  deriving DecidableEq, Repr

/-- The instruction that a REP repeats (R266); `other` is any instruction that R266 does not allow. -/
inductive RepInstr where
  | ld (rd : Reg) (p : PairIx)
  | st (rs : Reg) (p : PairIx)
  | ldp (rd : Reg) (p : PairIx)
  | stp (rs : Reg) (p : PairIx)
  | movm (d : PairIx) (p : PairIx)
  | daddm (d : PairIx) (p : PairIx)
  | dsubm (d : PairIx) (p : PairIx)
  | crcm16 (rd : Reg) (p : PairIx)
  | crcm32 (rd : Reg) (p : PairIx)
  | other
  deriving DecidableEq, Repr

/-- A receiver of TLBI requests (R324): another hod core, or the stream translator. -/
inductive Receiver where
  | core (c : CoreId)
  | stream
  deriving DecidableEq, Repr

/-- A frame as a port received it (R332): its bytes without the FCS, whether the FCS was valid, the ns that have passed since
the end of its start frame delimiter (R349), and, on a 10BASE-T1S port, the PLCA node whose transmit opportunity it used
(R356). -/
structure RxFrame where
  bytes : List Byte
  fcsOk : Bool
  age : Nat
  node : Option (BitVec 4)
  deriving DecidableEq, Repr

/-- The transmit rings of the internal ports (R361). -/
inductive TxRing where
  | ic | iv | if_
  deriving DecidableEq, Repr

/-- The three CAN frame formats (R347). -/
inductive CanFormat where
  | classical | fd | xl
  deriving DecidableEq, Repr, Inhabited

/-- A completed CAN frame (R348): identifier, data, for XL the 8 bytes of its header fields, whether it ended without error,
and its RTR, extended-identifier, BRS and ESI bits, from the highest on. -/
structure CanFrame where
  fmt : CanFormat
  ident : BitVec 29
  xlHead : List Byte
  data : List Byte
  ok : Bool
  flags : BitVec 4 := 0
  deriving DecidableEq, Repr, Inhabited

/-- A request for a transmit tap (R341). -/
inductive TapReq where
  | hold | inc | dec
  | preset (n : Fin 3)
  deriving DecidableEq, Repr

/-- The control fields of a backbone training frame (R341), whether its CRC-16 was right, and the symbol errors that the
receiver estimates over the last 10^6 symbols. -/
structure TrainFrame where
  laneNo : BitVec 3
  rate14 : Bool
  pre : TapReq
  main : TapReq
  post : TapReq
  precode : Bool
  rxReady : Bool
  crcOk : Bool
  errs : Nat
  deriving DecidableEq, Repr

/-- What a codeword slot of a superframe carries (R339): the alignment codeword with the lane number and the superframe
count, data (its number among the port's data codewords, R340), link status, or fill. -/
inductive Codeword where
  | align (lane : BitVec 3) (count : Word)
  | data (n : Nat)
  | status (health : Word) (degrade : Bool) (lanes : BitVec 2)
  | fill
  deriving DecidableEq, Repr

/-- What a backbone port sees (R342, R343). -/
inductive BpEvent where
  | signal
  | ready
  | aligned
  | lost
  deriving DecidableEq, Repr

/-- The commands of the TB-56: one constructor for each row of spec/opcode_table.json, in the table's order. -/
inductive Instr where
  /-- POWER_ON_RESET (R392). -/
  | powerOnReset (clksel : Bool)
  /-- POWER_GOOD (R389). -/
  | powerGood 
  /-- BROWN_OUT (R389). -/
  | brownOut 
  /-- RST_N_ASSERT (R392). -/
  | rstNAssert 
  /-- SYS_RST_CMD_WARM (R392). -/
  | sysRstCmdWarm 
  /-- SYS_RST_CMD_FIELD (R392). -/
  | sysRstCmdField 
  /-- SYS_RST_CMD_C_DIE (R392). -/
  | sysRstCmdCDie 
  /-- BOOT_ROM_START (R389). -/
  | bootRomStart 
  /-- IMAGE_CHECK (R30). -/
  | imageCheck (src : Source)
  /-- IMAGE_RETRY (R13). -/
  | imageRetry 
  /-- NETBOOT_REQUEST (R14). -/
  | netbootRequest 
  /-- NETBOOT_BLOCK (R14). -/
  | netbootBlock (offset : BitVec 32) (data : List Byte)
  /-- NETBOOT_TIMEOUT (R14). -/
  | netbootTimeout 
  /-- F_DIE_BIST (R378). -/
  | fDieBist (fails : List UnitRef)
  /-- F_DIE_PHASE (R31). -/
  | fDiePhase 
  /-- CPG_RISE (R386). -/
  | cpgRise (rail : Fin 4) (temps : List (Option Word))
  /-- CPG_FALL (R386). -/
  | cpgFall (rail : Fin 4)
  /-- RAIL_OFF_STEP (R386). -/
  | railOffStep 
  /-- RAIL_FAULT_TIMEOUT (R386). -/
  | railFaultTimeout 
  /-- C_DIE_BIST (R378). -/
  | cDieBist (fails : List UnitRef)
  /-- C_DIE_PHASE (R31). -/
  | cDiePhase 
  /-- RAIL_REQUEST (R391). -/
  | railRequest (v : Word)
  /-- ROLLBACK_ADVANCE (R29). -/
  | rollbackAdvance (key : Word)
  /-- FUSE_BLOW_DONE (R29). -/
  | fuseBlowDone 
  /-- RELAY_GO (R37). -/
  | relayGo (v : Word)
  /-- RELAY_APPLY (R36). -/
  | relayApply 
  /-- REPAIR_MIRROR_WRITE (R39). -/
  | repairMirrorWrite 
  /-- SPLIT_LO_READ (R10). -/
  | splitLoRead (m : Master) (addr : PAddr)
  /-- SPLIT_HI_READ (R10). -/
  | splitHiRead (m : Master) (addr : PAddr)
  /-- SPLIT_LO_WRITE (R10). -/
  | splitLoWrite (m : Master) (addr : PAddr) (v : Word)
  /-- SPLIT_HI_WRITE (R10). -/
  | splitHiWrite (m : Master) (addr : PAddr) (v : Word)
  /-- RC_READ (R8). -/
  | rcRead (m : Master) (addr : PAddr) (event : Bool)
  /-- REGISTER_WRITE (R8). -/
  | registerWrite (m : Master) (addr : PAddr) (bits : Nat) (v : Word) (events : Word := 0)
  /-- TILE_BEAT (R65). -/
  | tileBeat (die : Die) (tile : Nat) (beats : List Beat) (upset : Ecc)
  /-- ECC_WRITEBACK (R56). -/
  | eccWriteback (die : Die) (tile : Nat)
  /-- SCRUB_READ (R58). -/
  | scrubRead (die : Die) (tile : Nat) (upset : Ecc)
  /-- TILE_POWER_REQUEST (R60). -/
  | tilePowerRequest (die : Die) (tile : Nat) (v : Word)
  /-- TILE_POWER_DONE (R60). -/
  | tilePowerDone (die : Die) (tile : Nat)
  /-- TILE_IDLE_EXPIRY (R59). -/
  | tileIdleExpiry (die : Die) (tile : Nat) (idle : Nat)
  /-- XBAR_COUNTER_CLEAR (R75). -/
  | xbarCounterClear (die : Die) (v : Word)
  /-- VX (R84). -/
  | vx (c : CoreId) (rd : Reg) (p : PairIx) (q : BitVec 4)
  /-- VWAIT (R87). -/
  | vwait (c : CoreId) (rd : Reg) (rs : Reg)
  /-- VWAIT_WAKE (R87). -/
  | vwaitWake (c : CoreId)
  /-- JOINT_BRICK_SUBMISSION (R88). -/
  | jointBrickSubmission (q : BitVec 4) (line : BitVec 20)
  /-- QUEUE_FLUSH (R120). -/
  | queueFlush (q : BitVec 4)
  /-- KILN_ADMISSION (R163). -/
  | kilnAdmission 
  /-- BRICK_SETOUT (R93). -/
  | brickSetout (q : BitVec 4) (seq : Nat)
  /-- BRICK_PROBE (R101). -/
  | brickProbe (q : BitVec 4) (seq : Nat)
  /-- BRICK_BLOCK_DONE (R97). -/
  | brickBlockDone (q : BitVec 4) (seq : Nat) (mismatch : Option Nat)
  /-- BRICK_SUSPEND (R106). -/
  | brickSuspend (q : BitVec 4) (seq : Nat) (k : Nat) (metered : List Nat)
  /-- BRICK_END (R113). -/
  | brickEnd (q : BitVec 4) (seq : Nat) (metered : List Nat)
  /-- BRICK_EXPIRY (R167). -/
  | brickExpiry (q : BitVec 4) (seq : Nat)
  /-- KILN_REFILL (R154). -/
  | kilnRefill (temps : List (Option Word)) (drawn : List Nat)
  /-- VID_RECALC (R169). -/
  | vidRecalc 
  /-- VID_ACK (R388). -/
  | vidAck 
  /-- VID_TIMEOUT (R169). -/
  | vidTimeout 
  /-- THERMAL_TRIP (R171). -/
  | thermalTrip (zone : Fin 6) (sensor : Fin 4)
  /-- COOL_WAIT_EXPIRY (R172). -/
  | coolWaitExpiry 
  /-- COURSE_TICK (R190). -/
  | courseTick 
  /-- PIN_PULSE_END (R194). -/
  | pinPulseEnd (cell : Fin 64)
  /-- COURSE_EDGE (R181). -/
  | courseEdge (cs : Fin 8) (e : EdgeInfo)
  /-- COAST_TIMEOUT (R185). -/
  | coastTimeout (cs : Fin 8)
  /-- COAST_LIMIT (R185). -/
  | coastLimit (cs : Fin 8)
  /-- COURSE_RUN_REQUEST (R188). -/
  | courseRunRequest (cs : Fin 8) (v : Word)
  /-- COURSE_RESYNC (R185). -/
  | courseResync (cs : Fin 8)
  /-- COURSE_POSITION_SEND (R369). -/
  | coursePositionSend 
  /-- JOINT_ARM (R189). -/
  | jointArm (j : Fin 128) (v : Word)
  /-- JOINT_DISARM (R201). -/
  | jointDisarm (j : Fin 128)
  /-- JOINT_DISPATCH (R196). -/
  | jointDispatch 
  /-- ADC_CONVERSION_START (R204). -/
  | adcConversionStart (n : Fin 4)
  /-- ADC_CONVERSION_DONE (R203). -/
  | adcConversionDone (n : Fin 4) (microvolts : Nat)
  /-- ADC_SWCONV (R207). -/
  | adcSwconv (v : Word)
  /-- ADC_POWER_REQUEST (R206). -/
  | adcPowerRequest (n : Fin 4) (v : Word)
  /-- ADC_POWER_DONE (R206). -/
  | adcPowerDone (n : Fin 4)
  /-- SD_RESULT (R210). The data ball's levels at the rising and the falling edge of each modulator clock since the last one. -/
  | sdResult (n : Fin 8) (clocks : List (Bool × Bool))
  /-- COMPARATOR_CHANGE (R212). -/
  | comparatorChange (n : Fin 16) (microvolts : Nat) (settling : Bool)
  /-- CP_POWER_REQUEST (R211). -/
  | cpPowerRequest (n : Fin 16) (v : Word)
  /-- CP_POWER_DONE (R211). -/
  | cpPowerDone (n : Fin 16)
  /-- SENT_FRAME (R215). -/
  | sentFrame (n : Fin 12) (f : SentRx)
  /-- CAP_SWTRIG (R219). -/
  | capSwtrig (v : Word)
  /-- CAP_PERIODIC_TRIGGER (R219). -/
  | capPeriodicTrigger (d : Fin 64)
  /-- LIST_ENTRY_START (R217). -/
  | listEntryStart (d : Fin 64)
  /-- PASS_START (R218). -/
  | passStart (d : Fin 64)
  /-- FRAME_COMPLETE (R223). -/
  | frameComplete (d : Fin 64)
  /-- FRAME_MOVE (R224). -/
  | frameMove 
  /-- CAP_DEF_ENABLE (R220). -/
  | capDefEnable (d : Fin 64) (v : Word)
  /-- SLOT_RD_WRITE (R222). -/
  | slotRdWrite (r : SlotReg) (v : Word)
  /-- MOD_PERIOD_BOUNDARY (R232). -/
  | modPeriodBoundary (m : Fin 32)
  /-- MOD_ENABLE_REQUEST (R235). -/
  | modEnableRequest (m : Fin 32) (v : Word)
  /-- MOD_SYNC (R235). -/
  | modSync (v : Word)
  /-- MOD_CHECKER_MISMATCH (R241). -/
  | modCheckerMismatch (m : Fin 32)
  /-- OC_READBACK_FAULT (R241). A mismatch has lasted so many ticks, 256 (the longest that FLT_T asks for) where it is not said. -/
  | ocReadbackFault (cell : Fin 64) (lasted : Nat := 256)
  /-- OC_SAFE_EXIT (R242). -/
  | ocSafeExit (cell : Fin 64)
  /-- OC_RESUME (R240). -/
  | ocResume (v : Word)
  /-- VIO_BANK_CHANGE (R387). -/
  | vioBankChange (k : Fin 10) (mv : BitVec 12)
  /-- INTERRUPT_ENTRY (R303). -/
  | interruptEntry (c : CoreId)
  /-- LONG_OP_COMPLETE (R278). -/
  | longOpComplete (c : CoreId)
  /-- ARITHMETIC_EXCEPTION (R280). -/
  | arithmeticException (c : CoreId)
  /-- LOAD_RETURN (R273). -/
  | loadReturn (c : CoreId)
  /-- STORE_DRAIN (R284). -/
  | storeDrain (c : CoreId)
  /-- ILLEGAL_OPCODE (R254). -/
  | illegalOpcode (c : CoreId) (w1 : Word) (w2 : Word)
  /-- NOP (R256). -/
  | nop (c : CoreId)
  /-- BARRIER (R282). -/
  | barrier (c : CoreId)
  /-- ISYNC (R290). -/
  | isync (c : CoreId)
  /-- TLBSYNC (R325). -/
  | tlbsync (c : CoreId)
  /-- WFI (R305). -/
  | wfi (c : CoreId)
  /-- WOPEN (R248). -/
  | wopen (c : CoreId)
  /-- WCLOSE (R248). -/
  | wclose (c : CoreId)
  /-- RET (R260). -/
  | ret (c : CoreId)
  /-- RETL (R260). -/
  | retl (c : CoreId)
  /-- GRET (R299). -/
  | gret (c : CoreId)
  /-- RFI (R305). -/
  | rfi (c : CoreId)
  /-- REP (R266). -/
  | rep (c : CoreId) (rs : Reg) (inner : RepInstr) (stop : Option Nat)
  /-- JMPR (R260). -/
  | jmpr (c : CoreId) (p : PairIx)
  /-- CALLR (R260). -/
  | callr (c : CoreId) (p : PairIx)
  /-- ICINV (R289). -/
  | icinv (c : CoreId) (p : PairIx) (rc : Reg)
  /-- TLBI (R324). -/
  | tlbi (c : CoreId) (p : PairIx) (scope : BitVec 2)
  /-- TLBI_RECEIVE (R324). -/
  | tlbiReceive (r : Receiver)
  /-- TLBI_ACK (R325). -/
  | tlbiAck (r : Receiver)
  /-- CTXS (R269). -/
  | ctxs (c : CoreId) (p : PairIx) (h : Bool)
  /-- CTXL (R269). -/
  | ctxl (c : CoreId) (p : PairIx) (h : Bool)
  /-- GATE (R298). -/
  | gate (c : CoreId) (n : BitVec 10)
  /-- MFS (R250). -/
  | mfs (c : CoreId) (rd : Reg) (sr : BitVec 5)
  /-- MTS (R250). -/
  | mts (c : CoreId) (sr : BitVec 5) (rs : Reg)
  /-- ADD (R258). -/
  | add (c : CoreId) (rd : Reg) (rs : Reg)
  /-- ADC (R258). -/
  | adc (c : CoreId) (rd : Reg) (rs : Reg)
  /-- SUB (R258). -/
  | sub (c : CoreId) (rd : Reg) (rs : Reg)
  /-- SBC (R258). -/
  | sbc (c : CoreId) (rd : Reg) (rs : Reg)
  /-- CMP (R258). -/
  | cmp (c : CoreId) (rd : Reg) (rs : Reg)
  /-- AND (R258). -/
  | and (c : CoreId) (rd : Reg) (rs : Reg)
  /-- OR (R258). -/
  | or (c : CoreId) (rd : Reg) (rs : Reg)
  /-- XOR (R258). -/
  | xor (c : CoreId) (rd : Reg) (rs : Reg)
  /-- ANDN (R258). -/
  | andn (c : CoreId) (rd : Reg) (rs : Reg)
  /-- MOV (R255). -/
  | mov (c : CoreId) (rd : Reg) (rs : Reg)
  /-- NEG (R258). -/
  | neg (c : CoreId) (rd : Reg) (rs : Reg)
  /-- NOT (R258). -/
  | not (c : CoreId) (rd : Reg) (rs : Reg)
  /-- SHL (R258). -/
  | shl (c : CoreId) (rd : Reg) (rs : Reg)
  /-- SHR (R258). -/
  | shr (c : CoreId) (rd : Reg) (rs : Reg)
  /-- SAR (R258). -/
  | sar (c : CoreId) (rd : Reg) (rs : Reg)
  /-- ROL (R258). -/
  | rol (c : CoreId) (rd : Reg) (rs : Reg)
  /-- ADDI (R258). -/
  | addi (c : CoreId) (rd : Reg) (imm : BitVec 5)
  /-- CMPI (R258). -/
  | cmpi (c : CoreId) (rd : Reg) (imm : BitVec 5)
  /-- MOVI (R255). -/
  | movi (c : CoreId) (rd : Reg) (imm : BitVec 5)
  /-- SHLI (R258). -/
  | shli (c : CoreId) (rd : Reg) (imm : BitVec 5)
  /-- SHRI (R258). -/
  | shri (c : CoreId) (rd : Reg) (imm : BitVec 5)
  /-- SARI (R258). -/
  | sari (c : CoreId) (rd : Reg) (imm : BitVec 5)
  /-- MUL (R261). -/
  | mul (c : CoreId) (rd : Reg) (rs : Reg)
  /-- MULH (R261). -/
  | mulh (c : CoreId) (rd : Reg) (rs : Reg)
  /-- MULHU (R261). -/
  | mulhu (c : CoreId) (rd : Reg) (rs : Reg)
  /-- MULW (R255). -/
  | mulw (c : CoreId) (rd : Reg) (rs : Reg)
  /-- MULWU (R255). -/
  | mulwu (c : CoreId) (rd : Reg) (rs : Reg)
  /-- DIV (R261). -/
  | div (c : CoreId) (rd : Reg) (rs : Reg)
  /-- DIVU (R261). -/
  | divu (c : CoreId) (rd : Reg) (rs : Reg)
  /-- DIVL (R261). -/
  | divl (c : CoreId) (rd : Reg) (rs : Reg)
  /-- DIVLU (R261). -/
  | divlu (c : CoreId) (rd : Reg) (rs : Reg)
  /-- DADD (R262). -/
  | dadd (c : CoreId) (rd : Reg) (rs : Reg)
  /-- DADC (R262). -/
  | dadc (c : CoreId) (rd : Reg) (rs : Reg)
  /-- DSUB (R262). -/
  | dsub (c : CoreId) (rd : Reg) (rs : Reg)
  /-- DSBC (R262). -/
  | dsbc (c : CoreId) (rd : Reg) (rs : Reg)
  /-- DAJ (R263). -/
  | daj (c : CoreId) (rd : Reg)
  /-- CRC16 (R264). -/
  | crc16 (c : CoreId) (rd : Reg) (rs : Reg)
  /-- CRC32 (R264). -/
  | crc32 (c : CoreId) (rd : Reg) (rs : Reg)
  /-- CRC32C (R264). -/
  | crc32c (c : CoreId) (rd : Reg) (rs : Reg)
  /-- LD (R259). -/
  | ld (c : CoreId) (rd : Reg) (p : PairIx) (inc : Bool)
  /-- ST (R259). -/
  | st (c : CoreId) (rs : Reg) (p : PairIx) (inc : Bool)
  /-- LDP (R259). -/
  | ldp (c : CoreId) (rd : Reg) (p : PairIx) (inc : Bool)
  /-- STP (R259). -/
  | stp (c : CoreId) (rs : Reg) (p : PairIx) (inc : Bool)
  /-- MOVM (R259). -/
  | movm (c : CoreId) (d : PairIx) (p : PairIx)
  /-- DADDM (R262). -/
  | daddm (c : CoreId) (d : PairIx) (p : PairIx)
  /-- DSUBM (R262). -/
  | dsubm (c : CoreId) (d : PairIx) (p : PairIx)
  /-- CRCM16 (R264). -/
  | crcm16 (c : CoreId) (rd : Reg) (p : PairIx)
  /-- CRCM32 (R264). -/
  | crcm32 (c : CoreId) (rd : Reg) (p : PairIx)
  /-- LDD (R255). -/
  | ldd (c : CoreId) (rd : Reg) (p : PairIx) (disp : Word)
  /-- STD (R255). -/
  | std (c : CoreId) (rs : Reg) (p : PairIx) (disp : Word)
  /-- LDDP (R255). -/
  | lddp (c : CoreId) (rd : Reg) (p : PairIx) (disp : Word)
  /-- STDP (R255). -/
  | stdp (c : CoreId) (rs : Reg) (p : PairIx) (disp : Word)
  /-- STM (R268). -/
  | stm (c : CoreId) (p : PairIx) (half : Bool) (u : Bool) (mask : Word) (stop : Option Nat)
  /-- LDM (R268). -/
  | ldm (c : CoreId) (p : PairIx) (half : Bool) (u : Bool) (mask : Word) (stop : Option Nat)
  /-- MOVW (R256). -/
  | movw (c : CoreId) (rd : Reg) (imm : Word)
  /-- ADDW (R256). -/
  | addw (c : CoreId) (rd : Reg) (imm : Word)
  /-- CMPW (R256). -/
  | cmpw (c : CoreId) (rd : Reg) (imm : Word)
  /-- ANDW (R256). -/
  | andw (c : CoreId) (rd : Reg) (imm : Word)
  /-- ORW (R256). -/
  | orw (c : CoreId) (rd : Reg) (imm : Word)
  /-- XORW (R256). -/
  | xorw (c : CoreId) (rd : Reg) (imm : Word)
  /-- ADDPW (R256). -/
  | addpw (c : CoreId) (rd : Reg) (imm : Word)
  /-- MOVPW (R256). -/
  | movpw (c : CoreId) (rd : Reg) (imm : Word)
  /-- ADDP (R258). -/
  | addp (c : CoreId) (d : PairIx) (p : PairIx)
  /-- SUBP (R258). -/
  | subp (c : CoreId) (d : PairIx) (p : PairIx)
  /-- CMPP (R258). -/
  | cmpp (c : CoreId) (d : PairIx) (p : PairIx)
  /-- MOVP (R255). -/
  | movp (c : CoreId) (d : PairIx) (p : PairIx)
  /-- BRS (R257). -/
  | brs (c : CoreId) (cond : BitVec 4) (disp : BitVec 6)
  /-- BR (R257). -/
  | br (c : CoreId) (cond : BitVec 4) (disp : Word)
  /-- JMP (R260). -/
  | jmp (c : CoreId) (disp : BitVec 26)
  /-- CALL (R260). -/
  | call (c : CoreId) (disp : BitVec 26)
  /-- CAS (R259). -/
  | cas (c : CoreId) (rd : Reg) (rc : Reg) (p : PairIx)
  /-- SOFTWARE_INTERRUPT (R309). -/
  | softwareInterrupt (die : Die) (v : Word)
  /-- CORE_RESET_REQUEST (R306). -/
  | coreResetRequest (v : Word)
  /-- SYS_CRUN_WRITE (R394). -/
  | sysCrunWrite (v : Word)
  /-- WATCHDOG_EXPIRY (R395). -/
  | watchdogExpiry (c : CoreId)
  /-- WATCHDOG_KICK (R395). -/
  | watchdogKick (c : CoreId) (v : Word)
  /-- TLB_LOCK_LOAD (R320). -/
  | tlbLockLoad (die : Die) (v : Word)
  /-- TLB_LOCK_RELEASE (R330). -/
  | tlbLockRelease (die : Die) (v : Word)
  /-- TLB_LOCK_DONE (R330). -/
  | tlbLockDone (die : Die)
  /-- FRAME_RECEIVE (R332). -/
  | frameReceive (port : Fin 25) (f : RxFrame)
  /-- FRAME_TRANSMIT (R336). -/
  | frameTransmit (port : Fin 25)
  /-- TRANSMIT_SLOT (R361). -/
  | transmitSlot (r : TxRing)
  /-- CAN_FRAME_RECEIVE (R348). -/
  | canFrameReceive (ch : Fin 8) (f : CanFrame)
  /-- ACF_BATCH_EXPIRY (R348). -/
  | acfBatchExpiry (ch : Fin 8) (link : BitVec 11)
  /-- CAN_BUS_OFF_RECOVERY (R347). -/
  | canBusOffRecovery (ch : Fin 8)
  /-- BP_TRAINING_FRAME (R341). -/
  | bpTrainingFrame (lane : Fin 8) (f : TrainFrame)
  /-- BP_LINK_EVENT (R342). -/
  | bpLinkEvent (port : Fin 4) (e : BpEvent)
  /-- BP_TRAIN_TIMEOUT (R342). -/
  | bpTrainTimeout (port : Fin 4)
  /-- BP_ALIGN_TIMEOUT (R342). -/
  | bpAlignTimeout (port : Fin 4)
  /-- PORT_ENABLE_REQUEST (R359). -/
  | portEnableRequest (port : Fin 25) (v : Word)
  /-- PORT_START_DONE (R359). -/
  | portStartDone (port : Fin 25) (ok : Bool) (speed : BitVec 3)
  /-- PORT_STOP_DONE (R359). -/
  | portStopDone (port : Fin 25)
  /-- GPTP_STEP_APPLY (R349). -/
  | gptpStepApply (v : Word)
  /-- GPTP_TIME_CAPTURE (R366). -/
  | gptpTimeCapture 
  /-- GPTP_HOLDOVER (R349). -/
  | gptpHoldover 
  /-- GATE_CYCLE_START (R350). -/
  | gateCycleStart 
  /-- GATE_ENTRY_EXPIRY (R350). -/
  | gateEntryExpiry (port : Fin 25)
  /-- ROSTER_AGE_EXPIRY (R356). -/
  | rosterAgeExpiry (ix : BitVec 10)
  /-- FRER_RESET_EXPIRY (R353). -/
  | frerResetExpiry (g : BitVec 7)
  /-- NSW_TABLE_READ (R363). -/
  | nswTableRead (v : Word)
  /-- NSW_TABLE_WRITE (R363). -/
  | nswTableWrite (v : Word)
  /-- NSW_COUNTER_CLEAR (R363). -/
  | nswCounterClear (v : Word)
  /-- NSW_TABLE_DONE (R363). -/
  | nswTableDone 
  /-- FLIT_SEND (R369). -/
  | flitSend (dir : Dir)
  /-- CHECK_FLIT_SEND (R371). -/
  | checkFlitSend (dir : Dir)
  /-- FLIT_RECEIVE (R371). -/
  | flitReceive (dir : Dir) (raw : BitVec 288) (laneErrs : List Nat)
  /-- ML_TRAINING_STAGE_DONE (R373). -/
  | mlTrainingStageDone (failed : List LaneRef)
  /-- ML_TRAINING_TIMEOUT (R373). -/
  | mlTrainingTimeout 
  /-- ML_LANE_ERROR_WINDOW (R374). -/
  | mlLaneErrorWindow 
  /-- LANE_SHIFT (R374). -/
  | laneShift (dir : Dir) (lane : Fin 18)
  /-- ML_SHIFT_DONE (R373). -/
  | mlShiftDone 
  /-- ML_RETRAIN_DONE (R373). -/
  | mlRetrainDone 
  /-- ML_NO_FLIT_TIMEOUT (R373). -/
  | mlNoFlitTimeout 
  /-- LOSS_WAIT_EXPIRY (R375). -/
  | lossWaitExpiry 
  /-- WEAR_MEASUREMENT (R376). -/
  | wearMeasurement (slacks : List Nat) (rosc : List Word)
  /-- CE_WINDOW_EXPIRY (R377). -/
  | ceWindowExpiry 
  /-- MIGRATION_QUEUE (R380). -/
  | migrationQueue (v : Word)
  /-- MIGRATION_START (R380). -/
  | migrationStart 
  /-- MIGRATION_COPY_LINE (R380). -/
  | migrationCopyLine 
  /-- MIGRATION_SWITCH (R380). -/
  | migrationSwitch 
  /-- REPAIR_REQUEST (R382). -/
  | repairRequest (v : Word)
  /-- REPAIR_RECORD_ADD (R382). -/
  | repairRecordAdd 
  /-- CLOCK_FAILURE (R398). -/
  | clockFailure 
  /-- RTC_SECOND (R399). -/
  | rtcSecond 
  /-- RTC_SUB_CAPTURE (R399). -/
  | rtcSubCapture 
  /-- RTC_SEC_COMMIT (R399). -/
  | rtcSecCommit (v : Word)
  /-- RTC_OSC_FAIL (R399). -/
  | rtcOscFail 
  /-- PARK (R400). -/
  | park (v : Word)
  /-- PARK_COMPLETE (R400). -/
  | parkComplete 
  /-- WAKE_PIN (R401). -/
  | wakePin (pin : Fin 8) (level : Bool)
  /-- DBG_CHAIN_UPDATE (R403). -/
  | dbgChainUpdate (dr : BitVec 1608)
  /-- DBG_CHAL_READ (R403). -/
  | dbgChalRead 
  /-- DBG_RESP_UPDATE (R403). -/
  | dbgRespUpdate (sig : BitVec 768)
  /-- DEBUG_UNLOCK_CHECK (R403). -/
  | debugUnlockCheck 
  /-- DEBUG_PHYSICAL_ACCESS (R405). -/
  | debugPhysicalAccess (addr : PAddr) (wr : Bool) (data : Word)
  /-- DEBUG_CORE_ACCESS (R405). -/
  | debugCoreAccess (c : CoreId) (sel : Byte) (wr : Bool) (data : Word)
  /-- DEBUG_HALT (R405). -/
  | debugHalt (c : CoreId) (v : Word)
  /-- TRIP_REARM (R171). -/
  | tripRearm (zone : Fin 6) (sensor : Fin 4)
  /-- BANK_LOSS_THRESHOLD (R413). -/
  | bankLossThreshold (k : Fin 10) (mv : BitVec 12)
  /-- RTC_OSC_RESTART (R399). -/
  | rtcOscRestart 
  /-- C_DIE_CLOCK_LOCK (R389). -/
  | cDieClockLock 
  /-- CODEWORD_RECEIVE (R338, R339): symbol errors, the frames not handed on yet that it carries a part of, and the content. -/
  | codewordReceive (lane : Fin 8) (errors : Nat) (frames : Nat := 0) (cw : Codeword := .fill)
  /-- MT_LINK_LOSS (R359). -/
  | mtLinkLoss (m : Fin 4)
  deriving DecidableEq, Repr

end Sys2Proof
end

