-- ==== Sys2Proof/Decode.lean ====
section
/-! DEFINITION. Decoding. No row of spec/opcode_table.json gives bits, so no word spells a command by the table; which hod
instruction two words spell, R253 to R256 fix, and decodeHod reads. -/

namespace Sys2Proof

/-- The command that a word spells by the table's bits: none, since the table gives no row bits. -/
def decodeTableWord (_nbits _w : Nat) : Option Instr := none

/-! ### Hod instructions (R253 to R256, R268) -/

/-- A special-register number exists, and the register field suits its width (R250, R254, R295). -/
def specFits (n r : Reg) : Bool := n < 16 && !(((7 ≤ n && n ≤ 12) || n = 14) && r.getLsbD 0)

/-- The instruction if its fields are allowed (R254). -/
def given (ok : Bool) (i : Instr) : Option Instr := if ok then some i else none

/-- The instruction that a REP repeats, from the word behind it (R266). -/
def decodeRep (w : Word) : RepInstr :=
  let a : Reg := w.extractLsb' 5 5
  let p : PairIx := w.extractLsb' 1 4
  let inc := w.getLsbD 0
  let d : PairIx := w.extractLsb' 6 4
  let q : PairIx := w.extractLsb' 2 4
  match (w.extractLsb' 10 6).toNat with
  | 0x2B => if inc then .ld a p else .other
  | 0x2C => if inc then .st a p else .other
  | 0x2D => if inc then .ldp a p else .other
  | 0x2E => if inc then .stp a p else .other
  | 0x2F => match (w.extractLsb' 0 2).toNat with
    | 0 => .movm d q
    | 1 => .daddm d q
    | 2 => .dsubm d q
    | _ => .other
  | 0x30 => if inc then .crcm32 a p else .crcm16 a p
  | _ => .other

/-- The SYS group (R256): function, operand and second word. -/
def decodeSys (c : CoreId) (f b : Reg) (w2 : Word) : Option Instr :=
  let p : PairIx := b.extractLsb' 1 4
  let low := b.getLsbD 0
  match f.toNat with
  | 0 => given (b = 0) (.nop c)
  | 1 => given (b = 0) (.barrier c)
  | 2 => given (b = 0) (.isync c)
  | 3 => given (b = 0) (.tlbsync c)
  | 4 => given (b = 0) (.wfi c)
  | 5 => given (b = 0) (.wopen c)
  | 6 => given (b = 0) (.wclose c)
  | 7 => given (b = 0) (.ret c)
  | 8 => given (b = 0) (.retl c)
  | 9 => given (b = 0) (.gret c)
  | 10 => given (b = 0) (.rfi c)
  | 16 => some (.rep c b (decodeRep w2) none)
  | 17 => given (!low) (.jmpr c p)
  | 18 => given (!low) (.callr c p)
  | 19 => given (!low && w2 < 32) (.icinv c p (w2.extractLsb' 0 5))
  | 20 => given (!low && w2 < 4) (.tlbi c p (w2.extractLsb' 0 2))
  | 21 => given (p = 0) (.ctxs c p low)
  | 22 => given (!low || p = 0) (.ctxl c p low)
  | _ => none

/-- The IMM16 group (R256): function, register and immediate. -/
def decodeImm (c : CoreId) (f a : Reg) (imm : Word) : Option Instr :=
  match f.toNat with
  | 0 => some (.movw c a imm)
  | 1 => some (.addw c a imm)
  | 2 => some (.cmpw c a imm)
  | 3 => some (.andw c a imm)
  | 4 => some (.orw c a imm)
  | 5 => some (.xorw c a imm)
  | 8 => given (!a.getLsbD 0) (.addpw c a imm)
  | 9 => given (!a.getLsbD 0) (.movpw c a imm)
  | _ => none

/-- OP 0x04 to 0x2A (R255): formats RR and RI. -/
def decodeRegs (c : CoreId) (op : Nat) (a b : Reg) : Option Instr :=
  let even := !a.getLsbD 0
  match op with
  | 0x04 => some (.add c a b)
  | 0x05 => some (.adc c a b)
  | 0x06 => some (.sub c a b)
  | 0x07 => some (.sbc c a b)
  | 0x08 => some (.cmp c a b)
  | 0x09 => some (.and c a b)
  | 0x0A => some (.or c a b)
  | 0x0B => some (.xor c a b)
  | 0x0C => some (.andn c a b)
  | 0x0D => some (.mov c a b)
  | 0x0E => some (.neg c a b)
  | 0x0F => some (.not c a b)
  | 0x10 => some (.shl c a b)
  | 0x11 => some (.shr c a b)
  | 0x12 => some (.sar c a b)
  | 0x13 => some (.rol c a b)
  | 0x14 => some (.addi c a b)
  | 0x15 => some (.cmpi c a b)
  | 0x16 => some (.movi c a b)
  | 0x17 => some (.shli c a b)
  | 0x18 => some (.shri c a b)
  | 0x19 => some (.sari c a b)
  | 0x1A => some (.mul c a b)
  | 0x1B => some (.mulh c a b)
  | 0x1C => some (.mulhu c a b)
  | 0x1D => given even (.mulw c a b)
  | 0x1E => given even (.mulwu c a b)
  | 0x1F => given even (.div c a b)
  | 0x20 => given even (.divu c a b)
  | 0x21 => given even (.divl c a b)
  | 0x22 => given even (.divlu c a b)
  | 0x23 => some (.dadd c a b)
  | 0x24 => some (.dadc c a b)
  | 0x25 => some (.dsub c a b)
  | 0x26 => some (.dsbc c a b)
  | 0x27 => given (b = 0) (.daj c a)
  | 0x28 => some (.crc16 c a b)
  | 0x29 => given even (.crc32 c a b)
  | 0x2A => given even (.crc32c c a b)
  | _ => none

/-- OP 0x2B to 0x3E (R255): formats M, MM, B and J, the group of R268, and VWAIT. -/
def decodeMem (c : CoreId) (op : Nat) (w1 w2 : Word) : Option Instr :=
  let a : Reg := w1.extractLsb' 5 5
  let b : Reg := w1.extractLsb' 0 5
  let p : PairIx := w1.extractLsb' 1 4
  let inc := w1.getLsbD 0
  let even := !a.getLsbD 0
  let d : PairIx := w1.extractLsb' 6 4
  let q : PairIx := w1.extractLsb' 2 4
  match op with
  | 0x2B => some (.ld c a p inc)
  | 0x2C => some (.st c a p inc)
  | 0x2D => given even (.ldp c a p inc)
  | 0x2E => given even (.stp c a p inc)
  | 0x2F => match (w1.extractLsb' 0 2).toNat with
    | 0 => some (.movm c d q)
    | 1 => some (.daddm c d q)
    | 2 => some (.dsubm c d q)
    | _ => none
  | 0x30 => if inc then given even (.crcm32 c a p) else some (.crcm16 c a p)
  | 0x31 => given (!inc) (.ldd c a p w2)
  | 0x32 => given (!inc) (.std c a p w2)
  | 0x33 => given (!inc && even) (.lddp c a p w2)
  | 0x34 => given (!inc && even) (.stdp c a p w2)
  | 0x35 => given (w1.extractLsb' 0 3 = 0)
      (if w1.getLsbD 4 then .ldm c d (w1.getLsbD 5) (w1.getLsbD 3) w2 none else .stm c d (w1.getLsbD 5) (w1.getLsbD 3) w2 none)
  | 0x36 => decodeImm c b a w2
  | 0x37 => match (w1.extractLsb' 0 2).toNat with
    | 0 => some (.addp c d q)
    | 1 => some (.subp c d q)
    | 2 => some (.cmpp c d q)
    | _ => some (.movp c d q)
  | 0x38 => some (.brs c d (w1.extractLsb' 0 6))
  | 0x39 => given (w1.extractLsb' 0 6 = 0) (.br c d w2)
  | 0x3A => some (.jmp c (w1.extractLsb' 0 10 ++ w2))
  | 0x3B => some (.call c (w1.extractLsb' 0 10 ++ w2))
  | 0x3C => given (!inc && w2 < 16) (.vx c a p (w2.extractLsb' 0 4))
  | 0x3D => some (.vwait c a b)
  | 0x3E => given (!inc && w2 < 32) (.cas c a (w2.extractLsb' 0 5) p)
  | _ => none

/-- The hod instruction that two words spell on core c, by OP and the fields of its format; none for the encodings of R254.
A REP, STM or LDM is read as not broken off. The second word of a one-word instruction does not count. -/
def decodeHod (c : CoreId) (w1 w2 : Word) : Option Instr :=
  let op := (w1.extractLsb' 10 6).toNat
  let a : Reg := w1.extractLsb' 5 5
  let b : Reg := w1.extractLsb' 0 5
  if op = 0 then decodeSys c a b w2
  else if op = 1 then some (.gate c (w1.extractLsb' 0 10))
  else if op = 2 then given (specFits b a) (.mfs c a b)
  else if op = 3 then given (specFits a b) (.mts c a b)
  else if op < 0x2B then decodeRegs c op a b
  else decodeMem c op w1 w2

end Sys2Proof
end

