-- ==== Sys2Proof/Machine/RegTable.lean ====
section
/-! DEFINITION. The control registers (R430): for each kind of register its base address, stride, count, the masks of its
access codes (R8) and its reset value, transcribed from the register tables of the chapters. Bits in no mask are reserved
and read 0 (R7). Where a field is fused or computed its reset bits are 0 here and Machine/Regs.lean answers the read. -/

namespace Sys2Proof.Machine

open Sys2Proof

/-- What the register tables say of one kind of control register; an indexed register is one kind. `pair` marks a half
of a split quantity (R10): the base address of the other half and whether this is the _HI half. Each kind is a
definition of its own, named as the manual names the register. -/
structure RegKind where
  die : Die
  base : Nat
  stride : Nat
  count : Nat
  rw : Word := 0
  w1c : Word := 0
  rwl : Word := 0
  rc : Word := 0
  wo : Word := 0
  ro : Word := 0
  reset : Word := 0
  pair : Option (Bool × Nat) := none
  deriving DecidableEq, Repr

/-- R431. -/
def RegKind.DEVID_C : RegKind :=
  { die := .c, base := 0x80000000, stride := 0x2, count := 1, ro := 0xFFFF, reset := 0x4200 }
/-- R431. -/
def RegKind.CID_UID : RegKind :=
  { die := .c, base := 0x80000002, stride := 0x2, count := 4, ro := 0xFFFF }
/-- R74. -/
def RegKind.TILE_PWR : RegKind :=
  { die := .c, base := 0x80001000, stride := 0x2, count := 256, rw := 0x0003, ro := 0x8300, reset := 0x0200 }
/-- R74. -/
def RegKind.TILE_ECC : RegKind :=
  { die := .c, base := 0x80001200, stride := 0x2, count := 256, rc := 0xFFFF }
/-- R74. -/
def RegKind.TILE_CTRL : RegKind :=
  { die := .c, base := 0x80001400, stride := 0x2, count := 1, rw := 0x8FFF, reset := 0x8040 }
/-- R74. -/
def RegKind.TILE_SCRUB : RegKind :=
  { die := .c, base := 0x80001402, stride := 0x2, count := 1, rw := 0xFFFF, reset := 0x0258 }
/-- R74. -/
def RegKind.TILE_UE_CNT : RegKind :=
  { die := .c, base := 0x80001404, stride := 0x2, count := 1, rc := 0xFFFF }
/-- R74. -/
def RegKind.FTILE_PWR : RegKind :=
  { die := .f, base := 0x90004000, stride := 0x2, count := 64, rw := 0x0003, ro := 0x8300, reset := 0x0200 }
/-- R74. -/
def RegKind.FTILE_ECC : RegKind :=
  { die := .f, base := 0x90004080, stride := 0x2, count := 64, rc := 0xFFFF }
/-- R74. -/
def RegKind.FTILE_CTRL : RegKind :=
  { die := .f, base := 0x90004100, stride := 0x2, count := 1, rw := 0x8FFF, reset := 0x8040 }
/-- R74. -/
def RegKind.FTILE_SCRUB : RegKind :=
  { die := .f, base := 0x90004102, stride := 0x2, count := 1, rw := 0xFFFF, reset := 0x0258 }
/-- R74. -/
def RegKind.FTILE_UE_CNT : RegKind :=
  { die := .f, base := 0x90004104, stride := 0x2, count := 1, rc := 0xFFFF }
/-- R75. -/
def RegKind.XBAR_PRI : RegKind :=
  { die := .c, base := 0x80002000, stride := 0x2, count := 190, rwl := 0xFFFF }
/-- R75. -/
def RegKind.XBAR_AGE : RegKind :=
  { die := .c, base := 0x80002200, stride := 0x2, count := 38, rwl := 0x0FFF }
/-- R75. -/
def RegKind.XBAR_WIN_LO : RegKind :=
  { die := .c, base := 0x80002300, stride := 0x4, count := 64, rwl := 0xFF83, pair := some (false, 0x80002302) }
/-- R75. -/
def RegKind.XBAR_WIN_HI : RegKind :=
  { die := .c, base := 0x80002302, stride := 0x4, count := 64, rwl := 0xFFFF, pair := some (true, 0x80002300) }
/-- R75. -/
def RegKind.XBAR_GDEF : RegKind :=
  { die := .c, base := 0x80002400, stride := 0x2, count := 4, rwl := 0x0F03, reset := 0x0001 }
/-- R75. -/
def RegKind.XBAR_CSEL : RegKind :=
  { die := .c, base := 0x80002410, stride := 0x2, count := 1, rw := 0x3F0F }
/-- R75. -/
def RegKind.XBAR_CCNT_LO : RegKind :=
  { die := .c, base := 0x80002412, stride := 0x2, count := 1, ro := 0xFFFF, pair := some (false, 0x80002414) }
/-- R75. -/
def RegKind.XBAR_CCNT_HI : RegKind :=
  { die := .c, base := 0x80002414, stride := 0x2, count := 1, ro := 0xFFFF, pair := some (true, 0x80002412) }
/-- R75. -/
def RegKind.XBAR_CCTL : RegKind :=
  { die := .c, base := 0x80002416, stride := 0x2, count := 1, rw := 0x0002, wo := 0x0001 }
/-- R75. -/
def RegKind.XBAR_ELOG_STAT : RegKind :=
  { die := .c, base := 0x80002420, stride := 0x2, count := 1, w1c := 0xC000, ro := 0x3FFF }
/-- R75. -/
def RegKind.XBAR_ELOG_ADDR_LO : RegKind :=
  { die := .c, base := 0x80002422, stride := 0x2, count := 1, ro := 0xFFFF, pair := some (false, 0x80002424) }
/-- R75. -/
def RegKind.XBAR_ELOG_ADDR_HI : RegKind :=
  { die := .c, base := 0x80002424, stride := 0x2, count := 1, ro := 0xFFFF, pair := some (true, 0x80002422) }
/-- R75. -/
def RegKind.FXBAR_PRI : RegKind :=
  { die := .f, base := 0x90005000, stride := 0x2, count := 42, rwl := 0xFFFF }
/-- R75. -/
def RegKind.FXBAR_AGE : RegKind :=
  { die := .f, base := 0x90005200, stride := 0x2, count := 14, rwl := 0x0FFF }
/-- R75. -/
def RegKind.FXBAR_WIN_LO : RegKind :=
  { die := .f, base := 0x90005300, stride := 0x4, count := 32, rwl := 0xFF83, pair := some (false, 0x90005302) }
/-- R75. -/
def RegKind.FXBAR_WIN_HI : RegKind :=
  { die := .f, base := 0x90005302, stride := 0x4, count := 32, rwl := 0xFFFF, pair := some (true, 0x90005300) }
/-- R75. -/
def RegKind.FXBAR_GDEF : RegKind :=
  { die := .f, base := 0x90005400, stride := 0x2, count := 2, rwl := 0x0F03, reset := 0x0001 }
/-- R75. -/
def RegKind.FXBAR_CSEL : RegKind :=
  { die := .f, base := 0x90005410, stride := 0x2, count := 1, rw := 0x3F03 }
/-- R75. -/
def RegKind.FXBAR_CCNT_LO : RegKind :=
  { die := .f, base := 0x90005412, stride := 0x2, count := 1, ro := 0xFFFF, pair := some (false, 0x90005414) }
/-- R75. -/
def RegKind.FXBAR_CCNT_HI : RegKind :=
  { die := .f, base := 0x90005414, stride := 0x2, count := 1, ro := 0xFFFF, pair := some (true, 0x90005412) }
/-- R75. -/
def RegKind.FXBAR_CCTL : RegKind :=
  { die := .f, base := 0x90005416, stride := 0x2, count := 1, rw := 0x0002, wo := 0x0001 }
/-- R75. -/
def RegKind.FXBAR_ELOG_STAT : RegKind :=
  { die := .f, base := 0x90005420, stride := 0x2, count := 1, w1c := 0xC000, ro := 0x3FFF }
/-- R75. -/
def RegKind.FXBAR_ELOG_ADDR_LO : RegKind :=
  { die := .f, base := 0x90005422, stride := 0x2, count := 1, ro := 0xFFFF, pair := some (false, 0x90005424) }
/-- R75. -/
def RegKind.FXBAR_ELOG_ADDR_HI : RegKind :=
  { die := .f, base := 0x90005424, stride := 0x2, count := 1, ro := 0xFFFF, pair := some (true, 0x90005422) }
/-- R75. -/
def RegKind.ZERO_MAP : RegKind :=
  { die := .f, base := 0x90005430, stride := 0x2, count := 1, rwl := 0x0001 }
/-- R119. -/
def RegKind.VX_QCFG : RegKind :=
  { die := .c, base := 0x80003000, stride := 0x2, count := 16, rw := 0xFF00, reset := 0x2100 }
/-- R119. -/
def RegKind.VX_QSTAT : RegKind :=
  { die := .c, base := 0x80003020, stride := 0x2, count := 16, ro := 0xC07F }
/-- R119. -/
def RegKind.VX_QCTRL : RegKind :=
  { die := .c, base := 0x80003040, stride := 0x2, count := 16, wo := 0x0001 }
/-- R119. -/
def RegKind.VX_QERR : RegKind :=
  { die := .c, base := 0x80003060, stride := 0x2, count := 16, w1c := 0xC000, ro := 0x00FF }
/-- R119. -/
def RegKind.VX_QERR_TKT : RegKind :=
  { die := .c, base := 0x80003080, stride := 0x2, count := 16, ro := 0xFFFF }
/-- R119. Its _HI half is a register of its own. Log entry 7. -/
def RegKind.VX_SIG_LO : RegKind :=
  { die := .c, base := 0x800030A0, stride := 0x2, count := 1, w1c := 0xFFFE }
/-- R119. -/
def RegKind.VX_SIG_HI : RegKind :=
  { die := .c, base := 0x800030A2, stride := 0x2, count := 1, w1c := 0xFFFF }
/-- R119. -/
def RegKind.VX_TABLES : RegKind :=
  { die := .c, base := 0x800030A4, stride := 0x2, count := 1, ro := 0x00FF }
/-- R151. -/
def RegKind.BOND_SLOT : RegKind :=
  { die := .c, base := 0x80004000, stride := 0x2, count := 64, ro := 0xFE00 }
/-- R151. -/
def RegKind.BOND_ID : RegKind :=
  { die := .c, base := 0x80004080, stride := 0x2, count := 64, ro := 0xFFFF }
/-- R151. -/
def RegKind.BOND_VCSTAT : RegKind :=
  { die := .c, base := 0x80004100, stride := 0x2, count := 4, ro := 0xF3FF }
/-- R177. -/
def RegKind.KILN_CTRL : RegKind :=
  { die := .c, base := 0x80005000, stride := 0x2, count := 1, rw := 0xF7FF, reset := 0xB040 }
/-- R177. -/
def RegKind.KILN_STAT : RegKind :=
  { die := .c, base := 0x80005002, stride := 0x2, count := 1, ro := 0xE000 }
/-- R177. -/
def RegKind.KILN_INT_STAT : RegKind :=
  { die := .c, base := 0x80005004, stride := 0x2, count := 1, w1c := 0x007F }
/-- R177. -/
def RegKind.KILN_INT_EN : RegKind :=
  { die := .c, base := 0x80005006, stride := 0x2, count := 1, rw := 0x007F }
/-- R177. -/
def RegKind.KILN_VID_TGT : RegKind :=
  { die := .c, base := 0x80005008, stride := 0x2, count := 1, ro := 0x03FF, reset := 0x0352 }
/-- R177. -/
def RegKind.KILN_VID_ACT : RegKind :=
  { die := .c, base := 0x8000500A, stride := 0x2, count := 1, ro := 0x83FF, reset := 0x0352 }
/-- R177. -/
def RegKind.KILN_ZSTAT : RegKind :=
  { die := .c, base := 0x80005010, stride := 0x2, count := 5, ro := 0xF00F, reset := 0x000F }
/-- R177. -/
def RegKind.KILN_ZTEMP : RegKind :=
  { die := .c, base := 0x80005020, stride := 0x2, count := 5, ro := 0xFFFF }
/-- R177. -/
def RegKind.KILN_ZRATE : RegKind :=
  { die := .c, base := 0x80005030, stride := 0x2, count := 5, ro := 0xFFFF }
/-- R177. -/
def RegKind.KILN_ZGEN_LO : RegKind :=
  { die := .c, base := 0x80005040, stride := 0x4, count := 5, ro := 0xFFFF, pair := some (false, 0x80005042) }
/-- R177. -/
def RegKind.KILN_ZGEN_HI : RegKind :=
  { die := .c, base := 0x80005042, stride := 0x4, count := 5, ro := 0xFFFF, pair := some (true, 0x80005040) }
/-- R177. -/
def RegKind.KILN_ZRTB_LO : RegKind :=
  { die := .c, base := 0x80005060, stride := 0x4, count := 5, ro := 0xFFFF, pair := some (false, 0x80005062) }
/-- R177. -/
def RegKind.KILN_ZRTB_HI : RegKind :=
  { die := .c, base := 0x80005062, stride := 0x4, count := 5, ro := 0xFFFF, pair := some (true, 0x80005060) }
/-- R177. -/
def RegKind.KILN_STEP : RegKind :=
  { die := .c, base := 0x80005080, stride := 0x2, count := 4, rw := 0x0007, ro := 0x8300 }
/-- R177. -/
def RegKind.KILN_QREF : RegKind :=
  { die := .c, base := 0x800050A0, stride := 0x2, count := 16, rc := 0xFFFF }
/-- R177. -/
def RegKind.KILN_QEXP : RegKind :=
  { die := .c, base := 0x800050C0, stride := 0x2, count := 16, rc := 0xFFFF }
/-- R177. -/
def RegKind.KILN_QJSH : RegKind :=
  { die := .c, base := 0x800050E0, stride := 0x2, count := 16, rc := 0xFFFF }
/-- R177. -/
def RegKind.KILN_CORR : RegKind :=
  { die := .c, base := 0x80005100, stride := 0x2, count := 64, ro := 0x0FFF, reset := 0x0400 }
/-- R293. -/
def RegKind.HPIPE_CTL : RegKind :=
  { die := .c, base := 0x80006000, stride := 0x2, count := 8, rw := 0xE000, ro := 0x1000 }
/-- R309. -/
def RegKind.HINT_PEND : RegKind :=
  { die := .c, base := 0x80007000, stride := 0x2, count := 8, w1c := 0x07FF }
/-- R309. Its _HI half is a register of its own. Log entry 7. -/
def RegKind.HINT_LVL_LO : RegKind :=
  { die := .c, base := 0x80007010, stride := 0x2, count := 8, rw := 0xFFFF }
/-- R309. -/
def RegKind.HINT_LVL_HI : RegKind :=
  { die := .c, base := 0x80007020, stride := 0x2, count := 8, rw := 0x003F }
/-- R309. -/
def RegKind.HINT_DF : RegKind :=
  { die := .c, base := 0x80007030, stride := 0x2, count := 8, ro := 0xFF3F }
/-- R309. -/
def RegKind.HINT_SWI : RegKind :=
  { die := .c, base := 0x80007040, stride := 0x2, count := 1, wo := 0x800F }
/-- R330. -/
def RegKind.XLAT_ATB_LO : RegKind :=
  { die := .c, base := 0x80008000, stride := 0x2, count := 1, rw := 0xFFC0, pair := some (false, 0x80008002) }
/-- R330. -/
def RegKind.XLAT_ATB_HI : RegKind :=
  { die := .c, base := 0x80008002, stride := 0x2, count := 1, rw := 0xFFFF, pair := some (true, 0x80008000) }
/-- R330. -/
def RegKind.XLAT_CTL : RegKind :=
  { die := .c, base := 0x80008010, stride := 0x2, count := 8, rw := 0x80FF }
/-- R330. -/
def RegKind.XLAT_LKVALID : RegKind :=
  { die := .c, base := 0x80008020, stride := 0x2, count := 8, w1c := 0xFF00, ro := 0x00FF }
/-- R330. -/
def RegKind.XLAT_LK_CMD : RegKind :=
  { die := .c, base := 0x80008030, stride := 0x2, count := 1, wo := 0xC707 }
/-- R330. -/
def RegKind.XLAT_LK_VA_LO : RegKind :=
  { die := .c, base := 0x80008032, stride := 0x2, count := 1, rw := 0xFFFF, pair := some (false, 0x80008034) }
/-- R330. -/
def RegKind.XLAT_LK_VA_HI : RegKind :=
  { die := .c, base := 0x80008034, stride := 0x2, count := 1, rw := 0xFFFF, pair := some (true, 0x80008032) }
/-- R330. -/
def RegKind.XLAT_LK_ASID : RegKind :=
  { die := .c, base := 0x80008036, stride := 0x2, count := 1, rw := 0x00FF }
/-- R330. -/
def RegKind.XLAT_LK_STAT : RegKind :=
  { die := .c, base := 0x80008038, stride := 0x2, count := 1, w1c := 0x4000, ro := 0x803F }
/-- R330. -/
def RegKind.XLAT_SMISS : RegKind :=
  { die := .c, base := 0x8000803A, stride := 0x2, count := 1, rc := 0xFFFF }
/-- R330. -/
def RegKind.XLAT_CHKERR : RegKind :=
  { die := .c, base := 0x8000803C, stride := 0x2, count := 1, rc := 0xFFFF }
/-- R330. -/
def RegKind.FXLAT_ATB_LO : RegKind :=
  { die := .f, base := 0x9000A000, stride := 0x2, count := 1, rw := 0xFFC0, pair := some (false, 0x9000A002) }
/-- R330. -/
def RegKind.FXLAT_ATB_HI : RegKind :=
  { die := .f, base := 0x9000A002, stride := 0x2, count := 1, rw := 0xFFFF, pair := some (true, 0x9000A000) }
/-- R330. -/
def RegKind.FXLAT_CTL : RegKind :=
  { die := .f, base := 0x9000A010, stride := 0x2, count := 4, rw := 0x80FF }
/-- R330. -/
def RegKind.FXLAT_LKVALID : RegKind :=
  { die := .f, base := 0x9000A020, stride := 0x2, count := 4, w1c := 0xFF00, ro := 0x00FF }
/-- R330. -/
def RegKind.FXLAT_LK_CMD : RegKind :=
  { die := .f, base := 0x9000A030, stride := 0x2, count := 1, wo := 0xC707 }
/-- R330. -/
def RegKind.FXLAT_LK_VA_LO : RegKind :=
  { die := .f, base := 0x9000A032, stride := 0x2, count := 1, rw := 0xFFFF, pair := some (false, 0x9000A034) }
/-- R330. -/
def RegKind.FXLAT_LK_VA_HI : RegKind :=
  { die := .f, base := 0x9000A034, stride := 0x2, count := 1, rw := 0xFFFF, pair := some (true, 0x9000A032) }
/-- R330. -/
def RegKind.FXLAT_LK_ASID : RegKind :=
  { die := .f, base := 0x9000A036, stride := 0x2, count := 1, rw := 0x00FF }
/-- R330. -/
def RegKind.FXLAT_LK_STAT : RegKind :=
  { die := .f, base := 0x9000A038, stride := 0x2, count := 1, w1c := 0x4000, ro := 0x803F }
/-- R330. -/
def RegKind.FXLAT_CHKERR : RegKind :=
  { die := .f, base := 0x9000A03C, stride := 0x2, count := 1, rc := 0xFFFF }
/-- R431. -/
def RegKind.HMEM_CE : RegKind :=
  { die := .c, base := 0x80009000, stride := 0x2, count := 9, rc := 0xFFFF }
/-- R431. -/
def RegKind.HMEM_UE : RegKind :=
  { die := .c, base := 0x80009020, stride := 0x2, count := 9, rc := 0xFFFF }
/-- R431. -/
def RegKind.CSENS_T : RegKind :=
  { die := .c, base := 0x8000A000, stride := 0x2, count := 20, ro := 0xFFFF, reset := 0x8000 }
/-- R431. -/
def RegKind.CMBX_DATA : RegKind :=
  { die := .c, base := 0x8000B000, stride := 0x2, count := 256, rw := 0xFFFF }
/-- R364. -/
def RegKind.NSW_CTRL : RegKind :=
  { die := .c, base := 0x8000C000, stride := 0x2, count := 1, rw := 0x800F }
/-- R364. -/
def RegKind.NSW_STAT : RegKind :=
  { die := .c, base := 0x8000C002, stride := 0x2, count := 1, ro := 0x8000 }
/-- R364. -/
def RegKind.NSW_INT_STAT : RegKind :=
  { die := .c, base := 0x8000C004, stride := 0x2, count := 1, w1c := 0x007F }
/-- R364. -/
def RegKind.NSW_INT_EN : RegKind :=
  { die := .c, base := 0x8000C006, stride := 0x2, count := 1, rw := 0x007F }
/-- R364. -/
def RegKind.NSW_MAC : RegKind :=
  { die := .c, base := 0x8000C008, stride := 0x2, count := 3, rw := 0xFFFF }
/-- R364. -/
def RegKind.NSW_POOL_CELLS : RegKind :=
  { die := .c, base := 0x8000C00E, stride := 0x2, count := 1, ro := 0xFFFF }
/-- R364. -/
def RegKind.NSW_POOL_FREE : RegKind :=
  { die := .c, base := 0x8000C010, stride := 0x2, count := 1, ro := 0xFFFF }
/-- R364. -/
def RegKind.NSW_ROSTER_CNT : RegKind :=
  { die := .c, base := 0x8000C012, stride := 0x2, count := 1, ro := 0x07FF }
/-- R364. -/
def RegKind.NSW_ROSTER_EVT : RegKind :=
  { die := .c, base := 0x8000C014, stride := 0x2, count := 1, rc := 0xC3FF }
/-- R364. -/
def RegKind.NSW_TBL_CMD : RegKind :=
  { die := .c, base := 0x8000C020, stride := 0x2, count := 1, wo := 0xFFC0 }
/-- R364. -/
def RegKind.NSW_TBL_IDX : RegKind :=
  { die := .c, base := 0x8000C022, stride := 0x2, count := 1, rw := 0x0FFF }
/-- R364. -/
def RegKind.NSW_TBL_STAT : RegKind :=
  { die := .c, base := 0x8000C024, stride := 0x2, count := 1, w1c := 0x6000, ro := 0x8000 }
/-- R364. -/
def RegKind.NSW_TBL_D : RegKind :=
  { die := .c, base := 0x8000C030, stride := 0x2, count := 8, rw := 0xFFFF }
/-- R364. -/
def RegKind.NSW_PCTL : RegKind :=
  { die := .c, base := 0x8000C040, stride := 0x2, count := 25, rw := 0xF000 }
/-- R364. -/
def RegKind.NSW_PSTAT : RegKind :=
  { die := .c, base := 0x8000C080, stride := 0x2, count := 25, ro := 0xF000 }
/-- R364. -/
def RegKind.NSW_RING_CFG : RegKind :=
  { die := .c, base := 0x8000C0C0, stride := 0x2, count := 4, rw := 0xFC0F }
/-- R364. -/
def RegKind.NSW_RING_BASE : RegKind :=
  { die := .c, base := 0x8000C0C8, stride := 0x2, count := 4, rw := 0xFFFF }
/-- R364. -/
def RegKind.NSW_RING_WR : RegKind :=
  { die := .c, base := 0x8000C0D0, stride := 0x2, count := 4, rw := 0x00FF }
/-- R364. -/
def RegKind.NSW_RING_RD : RegKind :=
  { die := .c, base := 0x8000C0D8, stride := 0x2, count := 4, rw := 0x00FF }
/-- R364. -/
def RegKind.NSW_IV_BQ : RegKind :=
  { die := .c, base := 0x8000C0E0, stride := 0x2, count := 1, rw := 0x8F0F }
/-- R364. -/
def RegKind.NSW_IV_LINE : RegKind :=
  { die := .c, base := 0x8000C0E2, stride := 0x2, count := 1, rw := 0xFFFF }
/-- R365. -/
def RegKind.BPHY_PCFG : RegKind :=
  { die := .c, base := 0x8000D000, stride := 0x2, count := 4, rw := 0xF0FF, reset := 0x3010 }
/-- R365. -/
def RegKind.BPHY_PSTAT : RegKind :=
  { die := .c, base := 0x8000D008, stride := 0x2, count := 4, ro := 0xFF00 }
/-- R365. -/
def RegKind.BPHY_LCTL : RegKind :=
  { die := .c, base := 0x8000D010, stride := 0x2, count := 8, rw := 0xF000, reset := 0x1000 }
/-- R365. -/
def RegKind.BPHY_LSTAT : RegKind :=
  { die := .c, base := 0x8000D020, stride := 0x2, count := 8, ro := 0xE0FF }
/-- R384. -/
def RegKind.MIG_CMD : RegKind :=
  { die := .c, base := 0x8000E000, stride := 0x2, count := 1, wo := 0x80FF }
/-- R384. -/
def RegKind.MIG_STAT : RegKind :=
  { die := .c, base := 0x8000E002, stride := 0x2, count := 1, w1c := 0x1000, ro := 0xEFFF }
/-- R384. -/
def RegKind.MIG_PROG : RegKind :=
  { die := .c, base := 0x8000E004, stride := 0x2, count := 1, ro := 0x1FFF }
/-- R384. -/
def RegKind.MIG_RATE : RegKind :=
  { die := .c, base := 0x8000E006, stride := 0x2, count := 1, rw := 0x00FF, reset := 0x0040 }
/-- R384. -/
def RegKind.MIG_BSEL : RegKind :=
  { die := .c, base := 0x8000E008, stride := 0x2, count := 1, rw := 0x00FF }
/-- R384. -/
def RegKind.MIG_BIND : RegKind :=
  { die := .c, base := 0x8000E00A, stride := 0x2, count := 1, ro := 0x01FF }
/-- R431. -/
def RegKind.DEVID_F : RegKind :=
  { die := .f, base := 0x90000000, stride := 0x2, count := 1, ro := 0xFFFF, reset := 0x4210 }
/-- R431. -/
def RegKind.FID_UID : RegKind :=
  { die := .f, base := 0x90000002, stride := 0x2, count := 4, ro := 0xFFFF }
/-- R406. -/
def RegKind.SYS_STAT : RegKind :=
  { die := .f, base := 0x90001000, stride := 0x2, count := 1, ro := 0xF87F, reset := 0x0001 }
/-- R406. -/
def RegKind.SYS_RST_CAUSE : RegKind :=
  { die := .f, base := 0x90001002, stride := 0x2, count := 1, w1c := 0xFF00, ro := 0x00F0, reset := 0x8000 }
/-- R406. -/
def RegKind.SYS_RST_CMD : RegKind :=
  { die := .f, base := 0x90001004, stride := 0x2, count := 1, wo := 0xFF03 }
/-- R406. -/
def RegKind.SYS_RAIL : RegKind :=
  { die := .f, base := 0x90001006, stride := 0x2, count := 1, rw := 0x8000, ro := 0x6FF0, reset := 0x8000 }
/-- R406. -/
def RegKind.SYS_CRUN : RegKind :=
  { die := .f, base := 0x90001008, stride := 0x2, count := 1, rw := 0x0FFF, reset := 0x0101 }
/-- R406. -/
def RegKind.SYS_RVEC_C_LO : RegKind :=
  { die := .f, base := 0x9000100A, stride := 0x2, count := 1, rwl := 0xFFFF, pair := some (false, 0x9000100C) }
/-- R406. -/
def RegKind.SYS_RVEC_C_HI : RegKind :=
  { die := .f, base := 0x9000100C, stride := 0x2, count := 1, rwl := 0xFFFF, reset := 0x2000, pair := some (true, 0x9000100A) }
/-- R406. -/
def RegKind.SYS_RVEC_F_LO : RegKind :=
  { die := .f, base := 0x9000100E, stride := 0x2, count := 1, rwl := 0xFFFF, pair := some (false, 0x90001010) }
/-- R406. -/
def RegKind.SYS_RVEC_F_HI : RegKind :=
  { die := .f, base := 0x90001010, stride := 0x2, count := 1, rwl := 0xFFFF, pair := some (true, 0x9000100E) }
/-- R406. -/
def RegKind.SYS_VID : RegKind :=
  { die := .f, base := 0x90001012, stride := 0x2, count := 1, rwl := 0xF000 }
/-- R406. -/
def RegKind.SYS_CLK : RegKind :=
  { die := .f, base := 0x90001014, stride := 0x2, count := 1, ro := 0xE000 }
/-- R406. -/
def RegKind.SYS_PARK : RegKind :=
  { die := .f, base := 0x90001016, stride := 0x2, count := 1, wo := 0xFFFF }
/-- R406. -/
def RegKind.SYS_WAKE_CFG : RegKind :=
  { die := .f, base := 0x90001018, stride := 0x2, count := 1, rw := 0xFFFF, reset := 0x00FF }
/-- R406. -/
def RegKind.SYS_WAKE_SRC : RegKind :=
  { die := .f, base := 0x9000101A, stride := 0x2, count := 1, w1c := 0x01FF }
/-- R406. -/
def RegKind.SYS_KEYON : RegKind :=
  { die := .f, base := 0x9000101C, stride := 0x2, count := 1, ro := 0xFFFF }
/-- R406. -/
def RegKind.SYS_DBG : RegKind :=
  { die := .f, base := 0x9000101E, stride := 0x2, count := 1, ro := 0xE003 }
/-- R406. -/
def RegKind.RTC_CTL : RegKind :=
  { die := .f, base := 0x90001020, stride := 0x2, count := 1, rw := 0x8000, w1c := 0x2000, ro := 0x4000 }
/-- R406. -/
def RegKind.RTC_SUB : RegKind :=
  { die := .f, base := 0x90001022, stride := 0x2, count := 1, ro := 0x7FFF }
/-- R406. -/
def RegKind.RTC_SEC_LO : RegKind :=
  { die := .f, base := 0x90001024, stride := 0x2, count := 1, rw := 0xFFFF, pair := some (false, 0x90001026) }
/-- R406. -/
def RegKind.RTC_SEC_HI : RegKind :=
  { die := .f, base := 0x90001026, stride := 0x2, count := 1, rw := 0xFFFF, pair := some (true, 0x90001024) }
/-- R406. -/
def RegKind.RTC_ALM_LO : RegKind :=
  { die := .f, base := 0x90001028, stride := 0x2, count := 1, rw := 0xFFFF, pair := some (false, 0x9000102A) }
/-- R406. -/
def RegKind.RTC_ALM_HI : RegKind :=
  { die := .f, base := 0x9000102A, stride := 0x2, count := 1, rw := 0xFFFF, pair := some (true, 0x90001028) }
/-- R406. -/
def RegKind.SYS_WDT_CFG : RegKind :=
  { die := .f, base := 0x90001030, stride := 0x2, count := 12, rwl := 0xCFFF }
/-- R406. -/
def RegKind.SYS_WDT_KICK : RegKind :=
  { die := .f, base := 0x90001048, stride := 0x2, count := 1, wo := 0xFFFF }
/-- R43. -/
def RegKind.BIMG_STATUS : RegKind :=
  { die := .f, base := 0x90002000, stride := 0x2, count := 1, ro := 0xFF0F }
/-- R44. -/
def RegKind.BIMG_ERR_A : RegKind :=
  { die := .f, base := 0x90002002, stride := 0x2, count := 1, ro := 0xF0FF }
/-- R44. -/
def RegKind.BIMG_ERR_B : RegKind :=
  { die := .f, base := 0x90002004, stride := 0x2, count := 1, ro := 0xF0FF }
/-- R44. -/
def RegKind.BIMG_ERR_N : RegKind :=
  { die := .f, base := 0x90002006, stride := 0x2, count := 1, ro := 0xF0FF }
/-- R46. -/
def RegKind.BIMG_BOOTSEL : RegKind :=
  { die := .f, base := 0x90002008, stride := 0x2, count := 1, rw := 0x000D }
/-- R47. -/
def RegKind.BIMG_VERSION_LO : RegKind :=
  { die := .f, base := 0x9000200A, stride := 0x2, count := 1, ro := 0xFFFF, pair := some (false, 0x9000200C) }
/-- R47. -/
def RegKind.BIMG_VERSION_HI : RegKind :=
  { die := .f, base := 0x9000200C, stride := 0x2, count := 1, ro := 0xFFFF, pair := some (true, 0x9000200A) }
/-- R48. -/
def RegKind.BIMG_RB : RegKind :=
  { die := .f, base := 0x9000200E, stride := 0x2, count := 1, ro := 0x7F7F }
/-- R48. -/
def RegKind.BIMG_RB_CMD : RegKind :=
  { die := .f, base := 0x90002010, stride := 0x2, count := 1, wo := 0xFFFF }
/-- R47. -/
def RegKind.BIMG_RELAY_ADDR_LO : RegKind :=
  { die := .f, base := 0x90002012, stride := 0x2, count := 1, rw := 0xFFFF, pair := some (false, 0x90002014) }
/-- R47. -/
def RegKind.BIMG_RELAY_ADDR_HI : RegKind :=
  { die := .f, base := 0x90002014, stride := 0x2, count := 1, rw := 0xFFFF, pair := some (true, 0x90002012) }
/-- R49. -/
def RegKind.BIMG_RELAY_CTRL : RegKind :=
  { die := .f, base := 0x90002016, stride := 0x2, count := 1, wo := 0x0001 }
/-- R49. -/
def RegKind.BIMG_RELAY_STAT : RegKind :=
  { die := .f, base := 0x90002018, stride := 0x2, count := 1, w1c := 0x6000, ro := 0x9FFF }
/-- R49. -/
def RegKind.BIMG_PIDX : RegKind :=
  { die := .f, base := 0x9000201A, stride := 0x2, count := 1, rw := 0x3FFF }
/-- R49. -/
def RegKind.BIMG_PVAL_LO : RegKind :=
  { die := .f, base := 0x9000201C, stride := 0x2, count := 1, ro := 0xFFFF, pair := some (false, 0x9000201E) }
/-- R49. -/
def RegKind.BIMG_PVAL_HI : RegKind :=
  { die := .f, base := 0x9000201E, stride := 0x2, count := 1, ro := 0xFFFF, pair := some (true, 0x9000201C) }
/-- R431. -/
def RegKind.KS_STAT : RegKind :=
  { die := .f, base := 0x90003000, stride := 0x2, count := 1, ro := 0xEF03 }
/-- R431. -/
def RegKind.KS_DBG : RegKind :=
  { die := .f, base := 0x90003002, stride := 0x2, count := 1, ro := 0x0003 }
/-- R431. -/
def RegKind.KS_STEP : RegKind :=
  { die := .f, base := 0x90003004, stride := 0x2, count := 1, ro := 0xFFFF }
/-- R177. -/
def RegKind.FKILN_CTRL : RegKind :=
  { die := .f, base := 0x90006000, stride := 0x2, count := 1, rwl := 0xFF0F, reset := 0x6403 }
/-- R177. -/
def RegKind.FKILN_STAT : RegKind :=
  { die := .f, base := 0x90006002, stride := 0x2, count := 1, ro := 0xE0FF }
/-- R177. -/
def RegKind.FKILN_ZSTAT : RegKind :=
  { die := .f, base := 0x90006004, stride := 0x2, count := 1, ro := 0xF00F, reset := 0x000F }
/-- R177. -/
def RegKind.FKILN_ZTEMP : RegKind :=
  { die := .f, base := 0x90006006, stride := 0x2, count := 1, ro := 0xFFFF }
/-- R177. -/
def RegKind.FKILN_ZRATE : RegKind :=
  { die := .f, base := 0x90006008, stride := 0x2, count := 1, ro := 0xFFFF }
/-- R177. -/
def RegKind.FKILN_ZGEN_LO : RegKind :=
  { die := .f, base := 0x9000600A, stride := 0x2, count := 1, ro := 0xFFFF, pair := some (false, 0x9000600C) }
/-- R177. -/
def RegKind.FKILN_ZGEN_HI : RegKind :=
  { die := .f, base := 0x9000600C, stride := 0x2, count := 1, ro := 0xFFFF, pair := some (true, 0x9000600A) }
/-- R431. -/
def RegKind.FSENS_T : RegKind :=
  { die := .f, base := 0x90007000, stride := 0x2, count := 4, ro := 0xFFFF, reset := 0x8000 }
/-- R293. -/
def RegKind.FHPIPE_CTL : RegKind :=
  { die := .f, base := 0x90008000, stride := 0x2, count := 4, rw := 0xE000, ro := 0x1000 }
/-- R309. -/
def RegKind.FHINT_PEND : RegKind :=
  { die := .f, base := 0x90009000, stride := 0x2, count := 4, w1c := 0x0FFF }
/-- R309. Its _HI half is a register of its own. Log entry 7. -/
def RegKind.FHINT_LVL_LO : RegKind :=
  { die := .f, base := 0x90009008, stride := 0x2, count := 4, rw := 0xFFFF }
/-- R309. -/
def RegKind.FHINT_LVL_HI : RegKind :=
  { die := .f, base := 0x90009010, stride := 0x2, count := 4, rw := 0x00FF }
/-- R309. -/
def RegKind.FHINT_DF : RegKind :=
  { die := .f, base := 0x90009018, stride := 0x2, count := 4, ro := 0xFF3F }
/-- R309. -/
def RegKind.FHINT_SWI : RegKind :=
  { die := .f, base := 0x90009020, stride := 0x2, count := 1, wo := 0x800F }
/-- R309. -/
def RegKind.FHINT_LOCK : RegKind :=
  { die := .f, base := 0x90009022, stride := 0x2, count := 1, ro := 0x0FFF }
/-- R309. -/
def RegKind.FHINT_CRST : RegKind :=
  { die := .f, base := 0x90009024, stride := 0x2, count := 1, wo := 0x0FFF }
/-- R309. -/
def RegKind.FHINT_WATCH : RegKind :=
  { die := .f, base := 0x90009026, stride := 0x2, count := 1, rw := 0x000F, reset := 0x0003 }
/-- R431. -/
def RegKind.FMEM_CE : RegKind :=
  { die := .f, base := 0x9000B000, stride := 0x2, count := 5, rc := 0xFFFF }
/-- R431. -/
def RegKind.FMEM_UE : RegKind :=
  { die := .f, base := 0x9000B020, stride := 0x2, count := 5, rc := 0xFFFF }
/-- R431. -/
def RegKind.FMBX_DATA : RegKind :=
  { die := .f, base := 0x9000C000, stride := 0x2, count := 256, rw := 0xFFFF }
/-- R384. -/
def RegKind.ML_CTRL : RegKind :=
  { die := .f, base := 0x9000D000, stride := 0x2, count := 1, rw := 0xFF0F, reset := 0xA308 }
/-- R384. -/
def RegKind.ML_THR : RegKind :=
  { die := .f, base := 0x9000D002, stride := 0x2, count := 1, rw := 0xFFFF, reset := 0x100C }
/-- R384. -/
def RegKind.ML_STAT : RegKind :=
  { die := .f, base := 0x9000D004, stride := 0x2, count := 1, ro := 0xF0F8 }
/-- R384. -/
def RegKind.ML_MAP : RegKind :=
  { die := .f, base := 0x9000D006, stride := 0x2, count := 2, ro := 0xFF1F, reset := 0x1F1F }
/-- R384. -/
def RegKind.ML_LSEL : RegKind :=
  { die := .f, base := 0x9000D00A, stride := 0x2, count := 1, rw := 0x003F }
/-- R384. -/
def RegKind.ML_LSTAT : RegKind :=
  { die := .f, base := 0x9000D00C, stride := 0x2, count := 1, ro := 0xFFFF, reset := 0x1F00 }
/-- R384. -/
def RegKind.ML_LERR : RegKind :=
  { die := .f, base := 0x9000D00E, stride := 0x2, count := 1, rc := 0xFFFF }
/-- R384. -/
def RegKind.ML_CRCERR : RegKind :=
  { die := .f, base := 0x9000D010, stride := 0x2, count := 1, rc := 0xFFFF }
/-- R384. -/
def RegKind.ML_REPLAY : RegKind :=
  { die := .f, base := 0x9000D012, stride := 0x2, count := 1, rc := 0xFFFF }
/-- R384. -/
def RegKind.ML_RETRAIN : RegKind :=
  { die := .f, base := 0x9000D014, stride := 0x2, count := 1, rc := 0xFFFF }
/-- R384. -/
def RegKind.ML_INT_STAT : RegKind :=
  { die := .f, base := 0x9000D016, stride := 0x2, count := 1, w1c := 0x000F }
/-- R384. -/
def RegKind.ML_INT_EN : RegKind :=
  { die := .f, base := 0x9000D018, stride := 0x2, count := 1, rw := 0x000F }
/-- R384. -/
def RegKind.SPR_CTRL : RegKind :=
  { die := .f, base := 0x9000E000, stride := 0x2, count := 1, rw := 0x8FFF, reset := 0x8108 }
/-- R384. -/
def RegKind.SPR_STAT : RegKind :=
  { die := .f, base := 0x9000E002, stride := 0x2, count := 1, ro := 0x81FF }
/-- R384. -/
def RegKind.SPR_SPARE_C : RegKind :=
  { die := .f, base := 0x9000E004, stride := 0x2, count := 1, ro := 0xFCFF }
/-- R384. -/
def RegKind.SPR_SPARE_F : RegKind :=
  { die := .f, base := 0x9000E006, stride := 0x2, count := 1, ro := 0xF80F }
/-- R384. -/
def RegKind.SPR_ABSENT : RegKind :=
  { die := .f, base := 0x9000E008, stride := 0x2, count := 1, ro := 0xFFFF }
/-- R384. -/
def RegKind.SPR_REQ_CMD : RegKind :=
  { die := .f, base := 0x9000E00A, stride := 0x2, count := 1, wo := 0x800F }
/-- R384. -/
def RegKind.SPR_REQ_UNIT : RegKind :=
  { die := .f, base := 0x9000E00C, stride := 0x2, count := 1, rw := 0x01FF }
/-- R384. -/
def RegKind.SPR_REC_IDX : RegKind :=
  { die := .f, base := 0x9000E00E, stride := 0x2, count := 1, rw := 0x00FF }
/-- R384. -/
def RegKind.SPR_REC_D : RegKind :=
  { die := .f, base := 0x9000E010, stride := 0x2, count := 4, ro := 0xFFFF }
/-- R384. -/
def RegKind.SPR_INT_STAT : RegKind :=
  { die := .f, base := 0x9000E018, stride := 0x2, count := 1, w1c := 0x000F }
/-- R384. -/
def RegKind.SPR_INT_EN : RegKind :=
  { die := .f, base := 0x9000E01A, stride := 0x2, count := 1, rw := 0x000F }
/-- R384. -/
def RegKind.WEAR_ZSTAT : RegKind :=
  { die := .f, base := 0x9000E020, stride := 0x2, count := 6, ro := 0xFBFF }
/-- R384. -/
def RegKind.WEAR_ROSC : RegKind :=
  { die := .f, base := 0x9000E030, stride := 0x2, count := 6, ro := 0xFFFF }
/-- R200. -/
def RegKind.CRS_CTRL : RegKind :=
  { die := .f, base := 0x9000F000, stride := 0x20, count := 8, rw := 0x81FF, wo := 0x4000 }
/-- R200. -/
def RegKind.CRS_STAT : RegKind :=
  { die := .f, base := 0x9000F002, stride := 0x20, count := 8, ro := 0xC7C0, reset := 0x0400 }
/-- R200. -/
def RegKind.CRS_EVT : RegKind :=
  { die := .f, base := 0x9000F004, stride := 0x20, count := 8, w1c := 0x01FF }
/-- R200. -/
def RegKind.CRS_POS_LO : RegKind :=
  { die := .f, base := 0x9000F006, stride := 0x20, count := 8, ro := 0xFFFF, pair := some (false, 0x9000F008) }
/-- R200. -/
def RegKind.CRS_POS_HI : RegKind :=
  { die := .f, base := 0x9000F008, stride := 0x20, count := 8, ro := 0xFFFF, pair := some (true, 0x9000F006) }
/-- R200. -/
def RegKind.CRS_SPD_LO : RegKind :=
  { die := .f, base := 0x9000F00A, stride := 0x20, count := 8, ro := 0xFFFF, pair := some (false, 0x9000F00C) }
/-- R200. -/
def RegKind.CRS_SPD_HI : RegKind :=
  { die := .f, base := 0x9000F00C, stride := 0x20, count := 8, ro := 0xFFFF, pair := some (true, 0x9000F00A) }
/-- R200. -/
def RegKind.CRS_CORR_LO : RegKind :=
  { die := .f, base := 0x9000F00E, stride := 0x20, count := 8, ro := 0xFFFF, pair := some (false, 0x9000F010) }
/-- R200. -/
def RegKind.CRS_CORR_HI : RegKind :=
  { die := .f, base := 0x9000F010, stride := 0x20, count := 8, ro := 0xFFFF, pair := some (true, 0x9000F00E) }
/-- R200. -/
def RegKind.CRS_EDGES : RegKind :=
  { die := .f, base := 0x9000F012, stride := 0x20, count := 8, rc := 0xFFFF }
/-- R201. -/
def RegKind.JNT_CFG : RegKind :=
  { die := .f, base := 0x90010000, stride := 0x2, count := 128, rw := 0x7FE0, w1c := 0x8000 }
/-- R201. -/
def RegKind.JNT_TGT : RegKind :=
  { die := .f, base := 0x90010100, stride := 0x2, count := 128, rw := 0xFFFF }
/-- R201. -/
def RegKind.JNT_ARG : RegKind :=
  { die := .f, base := 0x90010200, stride := 0x2, count := 128, rw := 0xFFFF }
/-- R201. -/
def RegKind.JNT_POS_LO : RegKind :=
  { die := .f, base := 0x90010300, stride := 0x2, count := 128, rw := 0xFFFF, pair := some (false, 0x90010400) }
/-- R201. -/
def RegKind.JNT_POS_HI : RegKind :=
  { die := .f, base := 0x90010400, stride := 0x2, count := 128, rw := 0xFFFF, pair := some (true, 0x90010300) }
/-- R201. -/
def RegKind.JNT_INC_LO : RegKind :=
  { die := .f, base := 0x90010500, stride := 0x2, count := 128, rw := 0xFFFF, pair := some (false, 0x90010600) }
/-- R201. -/
def RegKind.JNT_INC_HI : RegKind :=
  { die := .f, base := 0x90010600, stride := 0x2, count := 128, rw := 0xFFFF, pair := some (true, 0x90010500) }
/-- R201. -/
def RegKind.JNT_FIRED : RegKind :=
  { die := .f, base := 0x90010700, stride := 0x2, count := 8, w1c := 0xFFFF }
/-- R201. -/
def RegKind.JNT_LATE : RegKind :=
  { die := .f, base := 0x90010710, stride := 0x2, count := 8, w1c := 0xFFFF }
/-- R201. -/
def RegKind.JNT_DROP : RegKind :=
  { die := .f, base := 0x90010720, stride := 0x2, count := 8, w1c := 0xFFFF }
/-- R201. -/
def RegKind.JNT_XSHED : RegKind :=
  { die := .f, base := 0x90010730, stride := 0x2, count := 1, rc := 0xFFFF }
/-- R227. -/
def RegKind.ADC_CTRL : RegKind :=
  { die := .f, base := 0x90011000, stride := 0x2, count := 4, rw := 0x8000 }
/-- R227. -/
def RegKind.ADC_STAT : RegKind :=
  { die := .f, base := 0x90011008, stride := 0x2, count := 4, w1c := 0x2000, ro := 0xC000 }
/-- R227. -/
def RegKind.ADC_MAP : RegKind :=
  { die := .f, base := 0x90011010, stride := 0x2, count := 1, ro := 0x7777, reset := 0x3210 }
/-- R227. -/
def RegKind.ADC_SWCONV : RegKind :=
  { die := .f, base := 0x90011012, stride := 0x2, count := 1, wo := 0x803F }
/-- R227. -/
def RegKind.ADC_LAST : RegKind :=
  { die := .f, base := 0x90011020, stride := 0x2, count := 48, ro := 0xFFFF }
/-- R227. -/
def RegKind.SD_CFG : RegKind :=
  { die := .f, base := 0x90012000, stride := 0x2, count := 8, rw := 0xFFFF, reset := 0x1100 }
/-- R227. -/
def RegKind.SD_DATA : RegKind :=
  { die := .f, base := 0x90012010, stride := 0x2, count := 8, ro := 0xFFFF }
/-- R227. -/
def RegKind.SD_CLK : RegKind :=
  { die := .f, base := 0x90012020, stride := 0x2, count := 1, rw := 0x80FF, reset := 0x0028 }
/-- R227. -/
def RegKind.SD_NEW : RegKind :=
  { die := .f, base := 0x90012022, stride := 0x2, count := 1, w1c := 0x00FF }
/-- R227. -/
def RegKind.CP_CFG : RegKind :=
  { die := .f, base := 0x90013000, stride := 0x2, count := 16, rw := 0xFFC0 }
/-- R227. -/
def RegKind.CP_DAC : RegKind :=
  { die := .f, base := 0x90013020, stride := 0x2, count := 16, rw := 0x03FF }
/-- R227. -/
def RegKind.CP_OUT : RegKind :=
  { die := .f, base := 0x90013040, stride := 0x2, count := 1, ro := 0xFFFF }
/-- R227. -/
def RegKind.CP_EVT : RegKind :=
  { die := .f, base := 0x90013042, stride := 0x2, count := 1, w1c := 0xFFFF }
/-- R227. -/
def RegKind.CP_IEN : RegKind :=
  { die := .f, base := 0x90013044, stride := 0x2, count := 1, rw := 0xFFFF }
/-- R227. -/
def RegKind.CP_ON : RegKind :=
  { die := .f, base := 0x90013046, stride := 0x2, count := 1, ro := 0xFFFF }
/-- R228. -/
def RegKind.SE_CFG : RegKind :=
  { die := .f, base := 0x90014000, stride := 0x10, count := 12, rw := 0xFF80, reset := 0x6000 }
/-- R228. -/
def RegKind.SE_TICK : RegKind :=
  { die := .f, base := 0x90014002, stride := 0x10, count := 12, rw := 0x01FF, reset := 0x000C }
/-- R228. -/
def RegKind.SE_STAT : RegKind :=
  { die := .f, base := 0x90014004, stride := 0x10, count := 12, w1c := 0xFC00 }
/-- R228. -/
def RegKind.SE_FAST_LO : RegKind :=
  { die := .f, base := 0x90014006, stride := 0x10, count := 12, ro := 0xFFFF, pair := some (false, 0x90014008) }
/-- R228. -/
def RegKind.SE_FAST_HI : RegKind :=
  { die := .f, base := 0x90014008, stride := 0x10, count := 12, ro := 0xF0FF, pair := some (true, 0x90014006) }
/-- R228. -/
def RegKind.SE_SER_ID : RegKind :=
  { die := .f, base := 0x9001400A, stride := 0x10, count := 12, ro := 0xC0FF }
/-- R228. -/
def RegKind.SE_SER_DATA : RegKind :=
  { die := .f, base := 0x9001400C, stride := 0x10, count := 12, ro := 0xFFFF }
/-- R228. -/
def RegKind.SE_ERR : RegKind :=
  { die := .f, base := 0x9001400E, stride := 0x10, count := 12, rc := 0xFFFF }
/-- R229. -/
def RegKind.CAP_CTRL : RegKind :=
  { die := .f, base := 0x90015000, stride := 0x2, count := 1, rw := 0x800F, reset := 0x0008 }
/-- R229. -/
def RegKind.CAP_SWTRIG : RegKind :=
  { die := .f, base := 0x90015002, stride := 0x2, count := 1, wo := 0x803F }
/-- R229. -/
def RegKind.CAP_LIST : RegKind :=
  { die := .f, base := 0x90015200, stride := 0x2, count := 256, rw := 0xFFFF }
/-- R229. -/
def RegKind.CAP_DEF_CTRL : RegKind :=
  { die := .f, base := 0x90015400, stride := 0x2, count := 64, rw := 0x87FF, ro := 0x7000, reset := 0x007F }
/-- R229. -/
def RegKind.CAP_DEF_LIST : RegKind :=
  { die := .f, base := 0x90015480, stride := 0x2, count := 64, rw := 0xFFFF }
/-- R229. -/
def RegKind.CAP_DEF_REP : RegKind :=
  { die := .f, base := 0x90015500, stride := 0x2, count := 64, rw := 0x0FFF }
/-- R229. -/
def RegKind.CAP_DEF_INTV : RegKind :=
  { die := .f, base := 0x90015580, stride := 0x2, count := 64, rw := 0xFFFF }
/-- R229. -/
def RegKind.CAP_DEF_PER : RegKind :=
  { die := .f, base := 0x90015600, stride := 0x2, count := 64, rw := 0xFFFF }
/-- R229. -/
def RegKind.CAP_OVR : RegKind :=
  { die := .f, base := 0x90015680, stride := 0x2, count := 64, rc := 0xFFFF }
/-- R229. -/
def RegKind.CAP_FB_CFG : RegKind :=
  { die := .f, base := 0x90015700, stride := 0x2, count := 8, rw := 0x7C3F, ro := 0x8000, reset := 0x2000 }
/-- R229. -/
def RegKind.CAP_FB_WR : RegKind :=
  { die := .f, base := 0x90015710, stride := 0x2, count := 8, ro := 0x0FFF }
/-- R229. -/
def RegKind.CAP_FB_RD : RegKind :=
  { die := .f, base := 0x90015720, stride := 0x2, count := 8, rw := 0x0FFF }
/-- R229. -/
def RegKind.CAP_FB_DISC : RegKind :=
  { die := .f, base := 0x90015730, stride := 0x2, count := 8, rc := 0xFFFF }
/-- R229. -/
def RegKind.CAP_CR_CFG : RegKind :=
  { die := .f, base := 0x90015740, stride := 0x2, count := 8, rw := 0xFC3F, ro := 0x0200 }
/-- R229. -/
def RegKind.CAP_CR_WR : RegKind :=
  { die := .f, base := 0x90015750, stride := 0x2, count := 8, ro := 0x0FFF }
/-- R229. -/
def RegKind.CAP_CR_RD : RegKind :=
  { die := .f, base := 0x90015760, stride := 0x2, count := 8, rw := 0x0FFF }
/-- R244. -/
def RegKind.MOD_CTRL : RegKind :=
  { die := .f, base := 0x90016000, stride := 0x20, count := 32, rw := 0xFF00 }
/-- R244. -/
def RegKind.MOD_STAT : RegKind :=
  { die := .f, base := 0x90016002, stride := 0x20, count := 32, w1c := 0x0C00, ro := 0xF000 }
/-- R244. -/
def RegKind.MOD_PER_LO : RegKind :=
  { die := .f, base := 0x90016004, stride := 0x20, count := 32, rw := 0xFFFF, pair := some (false, 0x90016006) }
/-- R244. -/
def RegKind.MOD_PER_HI : RegKind :=
  { die := .f, base := 0x90016006, stride := 0x20, count := 32, rw := 0xFFFF, pair := some (true, 0x90016004) }
/-- R244. -/
def RegKind.MOD_DUTY_LO : RegKind :=
  { die := .f, base := 0x90016008, stride := 0x20, count := 32, rw := 0xFFFF, pair := some (false, 0x9001600A) }
/-- R244. -/
def RegKind.MOD_DUTY_HI : RegKind :=
  { die := .f, base := 0x9001600A, stride := 0x20, count := 32, rw := 0xFFFF, pair := some (true, 0x90016008) }
/-- R244. -/
def RegKind.MOD_PHASE_LO : RegKind :=
  { die := .f, base := 0x9001600C, stride := 0x20, count := 32, rw := 0xFFFF, pair := some (false, 0x9001600E) }
/-- R244. -/
def RegKind.MOD_PHASE_HI : RegKind :=
  { die := .f, base := 0x9001600E, stride := 0x20, count := 32, rw := 0xFFFF, pair := some (true, 0x9001600C) }
/-- R244. -/
def RegKind.MOD_DT : RegKind :=
  { die := .f, base := 0x90016010, stride := 0x20, count := 32, rw := 0x0FFF }
/-- R244. -/
def RegKind.MOD_SYNC_LO : RegKind :=
  { die := .f, base := 0x90016400, stride := 0x2, count := 1, wo := 0xFFFF, pair := some (false, 0x90016402) }
/-- R244. -/
def RegKind.MOD_SYNC_HI : RegKind :=
  { die := .f, base := 0x90016402, stride := 0x2, count := 1, wo := 0xFFFF, pair := some (true, 0x90016400) }
/-- R245. -/
def RegKind.OC_CFG : RegKind :=
  { die := .f, base := 0x90017000, stride := 0x2, count := 64, rw := 0xFFF8 }
/-- R245. -/
def RegKind.OC_SAFE : RegKind :=
  { die := .f, base := 0x90017080, stride := 0x2, count := 64, rwl := 0xFFFE, reset := 0x9000 }
/-- R245. -/
def RegKind.OC_LVL : RegKind :=
  { die := .f, base := 0x90017100, stride := 0x2, count := 4, ro := 0xFFFF }
/-- R245. -/
def RegKind.OC_FLT : RegKind :=
  { die := .f, base := 0x90017108, stride := 0x2, count := 4, w1c := 0xFFFF }
/-- R245. -/
def RegKind.OC_TRIPPED : RegKind :=
  { die := .f, base := 0x90017110, stride := 0x2, count := 4, w1c := 0xFFFF }
/-- R245. -/
def RegKind.OC_SAFEACT : RegKind :=
  { die := .f, base := 0x90017118, stride := 0x2, count := 4, ro := 0xFFFF }
/-- R245. -/
def RegKind.OC_LIMPACT : RegKind :=
  { die := .f, base := 0x90017120, stride := 0x2, count := 4, ro := 0xFFFF }
/-- R245. -/
def RegKind.OC_CTRL : RegKind :=
  { die := .f, base := 0x90017130, stride := 0x2, count := 1, rw := 0x9FFF, wo := 0x4000, ro := 0x2000, reset := 0x0807 }
/-- R431. -/
def RegKind.GP_IN : RegKind :=
  { die := .f, base := 0x90018000, stride := 0x2, count := 20, ro := 0xFFFF }
/-- R431. -/
def RegKind.GP_BANK : RegKind :=
  { die := .f, base := 0x90018040, stride := 0x2, count := 10, w1c := 0x4000, ro := 0x8FFF }
/-- R366. -/
def RegKind.FNET_INT_STAT : RegKind :=
  { die := .f, base := 0x90019000, stride := 0x2, count := 1, w1c := 0x001F }
/-- R366. -/
def RegKind.FNET_INT_EN : RegKind :=
  { die := .f, base := 0x90019002, stride := 0x2, count := 1, rw := 0xF01F, reset := 0x8000 }
/-- R366. -/
def RegKind.MT_CFG : RegKind :=
  { die := .f, base := 0x90019010, stride := 0x2, count := 4, rw := 0xF800, reset := 0x4000 }
/-- R366. -/
def RegKind.MT_STAT : RegKind :=
  { die := .f, base := 0x90019018, stride := 0x2, count := 4, ro := 0xFC00 }
/-- R366. -/
def RegKind.TS_CFG : RegKind :=
  { die := .f, base := 0x90019020, stride := 0x2, count := 6, rw := 0xC000, reset := 0x4000 }
/-- R366. -/
def RegKind.TS_PLCA : RegKind :=
  { die := .f, base := 0x90019030, stride := 0x2, count := 6, rw := 0xFFFF, reset := 0x0720 }
/-- R366. -/
def RegKind.TS_STAT : RegKind :=
  { die := .f, base := 0x90019040, stride := 0x2, count := 6, ro := 0xE000 }
/-- R366. -/
def RegKind.CN_CFG : RegKind :=
  { die := .f, base := 0x90019050, stride := 0x2, count := 8, rw := 0xFF80, reset := 0x2800 }
/-- R366. -/
def RegKind.CN_NBT : RegKind :=
  { die := .f, base := 0x90019060, stride := 0x2, count := 8, rw := 0xFFFF, reset := 0x17CF }
/-- R366. -/
def RegKind.CN_DBT : RegKind :=
  { die := .f, base := 0x90019070, stride := 0x2, count := 8, rw := 0xFFFF, reset := 0x17CF }
/-- R366. -/
def RegKind.CN_XBT : RegKind :=
  { die := .f, base := 0x90019080, stride := 0x2, count := 8, rw := 0xFFFF, reset := 0x17CF }
/-- R366. -/
def RegKind.CN_STAT : RegKind :=
  { die := .f, base := 0x90019090, stride := 0x2, count := 8, ro := 0xF0FF, reset := 0x3000 }
/-- R366. -/
def RegKind.CN_XLTYPE : RegKind :=
  { die := .f, base := 0x900190A0, stride := 0x2, count := 1, rw := 0x007F, reset := 0x007E }
/-- R366. -/
def RegKind.FNET_RING_CFG : RegKind :=
  { die := .f, base := 0x900190B0, stride := 0x2, count := 2, rw := 0xFC0F }
/-- R366. -/
def RegKind.FNET_RING_BASE : RegKind :=
  { die := .f, base := 0x900190B4, stride := 0x2, count := 2, rw := 0x003F }
/-- R366. -/
def RegKind.FNET_RING_WR : RegKind :=
  { die := .f, base := 0x900190B8, stride := 0x2, count := 2, rw := 0x001F }
/-- R366. -/
def RegKind.FNET_RING_RD : RegKind :=
  { die := .f, base := 0x900190BC, stride := 0x2, count := 2, rw := 0x001F }
/-- R366. -/
def RegKind.GPTP_CTL : RegKind :=
  { die := .f, base := 0x900190C0, stride := 0x2, count := 1, rw := 0xEFFF, reset := 0x03E8 }
/-- R366. -/
def RegKind.GPTP_STAT : RegKind :=
  { die := .f, base := 0x900190C2, stride := 0x2, count := 1, ro := 0xC000 }
/-- R366. -/
def RegKind.GPTP_TIME : RegKind :=
  { die := .f, base := 0x900190C4, stride := 0x2, count := 4, ro := 0xFFFF }
/-- R366. -/
def RegKind.GPTP_STEP : RegKind :=
  { die := .f, base := 0x900190CC, stride := 0x2, count := 4, wo := 0xFFFF }
/-- R366. -/
def RegKind.GPTP_RATE_LO : RegKind :=
  { die := .f, base := 0x900190D4, stride := 0x2, count := 1, rw := 0xFFFF, pair := some (false, 0x900190D6) }
/-- R366. -/
def RegKind.GPTP_RATE_HI : RegKind :=
  { die := .f, base := 0x900190D6, stride := 0x2, count := 1, rw := 0xFFFF, pair := some (true, 0x900190D4) }
/-- Kinds 0 to 19 of the list below. -/
@[noinline] def RegKind.part0 : List RegKind :=
  [.DEVID_C, .CID_UID, .TILE_PWR, .TILE_ECC, .TILE_CTRL, .TILE_SCRUB, .TILE_UE_CNT, .FTILE_PWR, .FTILE_ECC,
    .FTILE_CTRL, .FTILE_SCRUB, .FTILE_UE_CNT, .XBAR_PRI, .XBAR_AGE, .XBAR_WIN_LO, .XBAR_WIN_HI, .XBAR_GDEF,
    .XBAR_CSEL, .XBAR_CCNT_LO, .XBAR_CCNT_HI]
/-- Kinds 20 to 39 of the list below. -/
@[noinline] def RegKind.part1 : List RegKind :=
  [.XBAR_CCTL, .XBAR_ELOG_STAT, .XBAR_ELOG_ADDR_LO, .XBAR_ELOG_ADDR_HI, .FXBAR_PRI, .FXBAR_AGE, .FXBAR_WIN_LO,
    .FXBAR_WIN_HI, .FXBAR_GDEF, .FXBAR_CSEL, .FXBAR_CCNT_LO, .FXBAR_CCNT_HI, .FXBAR_CCTL, .FXBAR_ELOG_STAT,
    .FXBAR_ELOG_ADDR_LO, .FXBAR_ELOG_ADDR_HI, .ZERO_MAP, .VX_QCFG, .VX_QSTAT, .VX_QCTRL]
/-- Kinds 40 to 59 of the list below. -/
@[noinline] def RegKind.part2 : List RegKind :=
  [.VX_QERR, .VX_QERR_TKT, .VX_SIG_LO, .VX_SIG_HI, .VX_TABLES, .BOND_SLOT, .BOND_ID, .BOND_VCSTAT, .KILN_CTRL,
    .KILN_STAT, .KILN_INT_STAT, .KILN_INT_EN, .KILN_VID_TGT, .KILN_VID_ACT, .KILN_ZSTAT, .KILN_ZTEMP,
    .KILN_ZRATE, .KILN_ZGEN_LO, .KILN_ZGEN_HI, .KILN_ZRTB_LO]
/-- Kinds 60 to 79 of the list below. -/
@[noinline] def RegKind.part3 : List RegKind :=
  [.KILN_ZRTB_HI, .KILN_STEP, .KILN_QREF, .KILN_QEXP, .KILN_QJSH, .KILN_CORR, .HPIPE_CTL, .HINT_PEND, .HINT_LVL_LO,
    .HINT_LVL_HI, .HINT_DF, .HINT_SWI, .XLAT_ATB_LO, .XLAT_ATB_HI, .XLAT_CTL, .XLAT_LKVALID, .XLAT_LK_CMD,
    .XLAT_LK_VA_LO, .XLAT_LK_VA_HI, .XLAT_LK_ASID]
/-- Kinds 80 to 99 of the list below. -/
@[noinline] def RegKind.part4 : List RegKind :=
  [.XLAT_LK_STAT, .XLAT_SMISS, .XLAT_CHKERR, .FXLAT_ATB_LO, .FXLAT_ATB_HI, .FXLAT_CTL, .FXLAT_LKVALID,
    .FXLAT_LK_CMD, .FXLAT_LK_VA_LO, .FXLAT_LK_VA_HI, .FXLAT_LK_ASID, .FXLAT_LK_STAT, .FXLAT_CHKERR, .HMEM_CE,
    .HMEM_UE, .CSENS_T, .CMBX_DATA, .NSW_CTRL, .NSW_STAT, .NSW_INT_STAT]
/-- Kinds 100 to 119 of the list below. -/
@[noinline] def RegKind.part5 : List RegKind :=
  [.NSW_INT_EN, .NSW_MAC, .NSW_POOL_CELLS, .NSW_POOL_FREE, .NSW_ROSTER_CNT, .NSW_ROSTER_EVT, .NSW_TBL_CMD,
    .NSW_TBL_IDX, .NSW_TBL_STAT, .NSW_TBL_D, .NSW_PCTL, .NSW_PSTAT, .NSW_RING_CFG, .NSW_RING_BASE, .NSW_RING_WR,
    .NSW_RING_RD, .NSW_IV_BQ, .NSW_IV_LINE, .BPHY_PCFG, .BPHY_PSTAT]
/-- Kinds 120 to 139 of the list below. -/
@[noinline] def RegKind.part6 : List RegKind :=
  [.BPHY_LCTL, .BPHY_LSTAT, .MIG_CMD, .MIG_STAT, .MIG_PROG, .MIG_RATE, .MIG_BSEL, .MIG_BIND, .DEVID_F, .FID_UID,
    .SYS_STAT, .SYS_RST_CAUSE, .SYS_RST_CMD, .SYS_RAIL, .SYS_CRUN, .SYS_RVEC_C_LO, .SYS_RVEC_C_HI,
    .SYS_RVEC_F_LO, .SYS_RVEC_F_HI, .SYS_VID]
/-- Kinds 140 to 159 of the list below. -/
@[noinline] def RegKind.part7 : List RegKind :=
  [.SYS_CLK, .SYS_PARK, .SYS_WAKE_CFG, .SYS_WAKE_SRC, .SYS_KEYON, .SYS_DBG, .RTC_CTL, .RTC_SUB, .RTC_SEC_LO,
    .RTC_SEC_HI, .RTC_ALM_LO, .RTC_ALM_HI, .SYS_WDT_CFG, .SYS_WDT_KICK, .BIMG_STATUS, .BIMG_ERR_A, .BIMG_ERR_B,
    .BIMG_ERR_N, .BIMG_BOOTSEL, .BIMG_VERSION_LO]
/-- Kinds 160 to 179 of the list below. -/
@[noinline] def RegKind.part8 : List RegKind :=
  [.BIMG_VERSION_HI, .BIMG_RB, .BIMG_RB_CMD, .BIMG_RELAY_ADDR_LO, .BIMG_RELAY_ADDR_HI, .BIMG_RELAY_CTRL,
    .BIMG_RELAY_STAT, .BIMG_PIDX, .BIMG_PVAL_LO, .BIMG_PVAL_HI, .KS_STAT, .KS_DBG, .KS_STEP, .FKILN_CTRL,
    .FKILN_STAT, .FKILN_ZSTAT, .FKILN_ZTEMP, .FKILN_ZRATE, .FKILN_ZGEN_LO, .FKILN_ZGEN_HI]
/-- Kinds 180 to 199 of the list below. -/
@[noinline] def RegKind.part9 : List RegKind :=
  [.FSENS_T, .FHPIPE_CTL, .FHINT_PEND, .FHINT_LVL_LO, .FHINT_LVL_HI, .FHINT_DF, .FHINT_SWI, .FHINT_LOCK,
    .FHINT_CRST, .FHINT_WATCH, .FMEM_CE, .FMEM_UE, .FMBX_DATA, .ML_CTRL, .ML_THR, .ML_STAT, .ML_MAP, .ML_LSEL,
    .ML_LSTAT, .ML_LERR]
/-- Kinds 200 to 219 of the list below. -/
@[noinline] def RegKind.part10 : List RegKind :=
  [.ML_CRCERR, .ML_REPLAY, .ML_RETRAIN, .ML_INT_STAT, .ML_INT_EN, .SPR_CTRL, .SPR_STAT, .SPR_SPARE_C, .SPR_SPARE_F,
    .SPR_ABSENT, .SPR_REQ_CMD, .SPR_REQ_UNIT, .SPR_REC_IDX, .SPR_REC_D, .SPR_INT_STAT, .SPR_INT_EN, .WEAR_ZSTAT,
    .WEAR_ROSC, .CRS_CTRL, .CRS_STAT]
/-- Kinds 220 to 239 of the list below. -/
@[noinline] def RegKind.part11 : List RegKind :=
  [.CRS_EVT, .CRS_POS_LO, .CRS_POS_HI, .CRS_SPD_LO, .CRS_SPD_HI, .CRS_CORR_LO, .CRS_CORR_HI, .CRS_EDGES, .JNT_CFG,
    .JNT_TGT, .JNT_ARG, .JNT_POS_LO, .JNT_POS_HI, .JNT_INC_LO, .JNT_INC_HI, .JNT_FIRED, .JNT_LATE, .JNT_DROP,
    .JNT_XSHED, .ADC_CTRL]
/-- Kinds 240 to 259 of the list below. -/
@[noinline] def RegKind.part12 : List RegKind :=
  [.ADC_STAT, .ADC_MAP, .ADC_SWCONV, .ADC_LAST, .SD_CFG, .SD_DATA, .SD_CLK, .SD_NEW, .CP_CFG, .CP_DAC, .CP_OUT,
    .CP_EVT, .CP_IEN, .CP_ON, .SE_CFG, .SE_TICK, .SE_STAT, .SE_FAST_LO, .SE_FAST_HI, .SE_SER_ID]
/-- Kinds 260 to 279 of the list below. -/
@[noinline] def RegKind.part13 : List RegKind :=
  [.SE_SER_DATA, .SE_ERR, .CAP_CTRL, .CAP_SWTRIG, .CAP_LIST, .CAP_DEF_CTRL, .CAP_DEF_LIST, .CAP_DEF_REP,
    .CAP_DEF_INTV, .CAP_DEF_PER, .CAP_OVR, .CAP_FB_CFG, .CAP_FB_WR, .CAP_FB_RD, .CAP_FB_DISC, .CAP_CR_CFG,
    .CAP_CR_WR, .CAP_CR_RD, .MOD_CTRL, .MOD_STAT]
/-- Kinds 280 to 299 of the list below. -/
@[noinline] def RegKind.part14 : List RegKind :=
  [.MOD_PER_LO, .MOD_PER_HI, .MOD_DUTY_LO, .MOD_DUTY_HI, .MOD_PHASE_LO, .MOD_PHASE_HI, .MOD_DT, .MOD_SYNC_LO,
    .MOD_SYNC_HI, .OC_CFG, .OC_SAFE, .OC_LVL, .OC_FLT, .OC_TRIPPED, .OC_SAFEACT, .OC_LIMPACT, .OC_CTRL, .GP_IN,
    .GP_BANK, .FNET_INT_STAT]
/-- Kinds 300 to 319 of the list below. -/
@[noinline] def RegKind.part15 : List RegKind :=
  [.FNET_INT_EN, .MT_CFG, .MT_STAT, .TS_CFG, .TS_PLCA, .TS_STAT, .CN_CFG, .CN_NBT, .CN_DBT, .CN_XBT, .CN_STAT,
    .CN_XLTYPE, .FNET_RING_CFG, .FNET_RING_BASE, .FNET_RING_WR, .FNET_RING_RD, .GPTP_CTL, .GPTP_STAT,
    .GPTP_TIME, .GPTP_STEP]
/-- Kinds 320 to 321 of the list below. -/
@[noinline] def RegKind.part16 : List RegKind :=
  [.GPTP_RATE_LO, .GPTP_RATE_HI]
/-- Every kind, C-die before F-die, in address order of their blocks (R430), in parts of 20. -/
def RegKind.parts : List (List RegKind) :=
  [RegKind.part0, RegKind.part1, RegKind.part2, RegKind.part3, RegKind.part4, RegKind.part5, RegKind.part6,
    RegKind.part7, RegKind.part8, RegKind.part9, RegKind.part10, RegKind.part11, RegKind.part12, RegKind.part13,
    RegKind.part14, RegKind.part15, RegKind.part16]

/-- The physical address of register i of a kind. -/
def RegKind.addr (k : RegKind) (i : Nat) : Nat := k.base + k.stride * i

/-- Whether address a names register i of kind k. -/
def RegKind.indexAt (k : RegKind) (a : Nat) : Option Nat :=
  if k.base ≤ a ∧ (a - k.base) % k.stride = 0 ∧ (a - k.base) / k.stride < k.count
  then some ((a - k.base) / k.stride) else none

/-- The register that an address names, if any (R429). -/
def regAt (a : Nat) : Option (RegKind × Nat) :=
  RegKind.parts.findSome? fun p => p.findSome? fun k => (k.indexAt a).map fun i => (k, i)

end Sys2Proof.Machine
end

