-- ==== Sys2Proof/Config.lean ====
section
/-! DEFINITION. What one part or one board fixes, the free values where the manual names no value, and the functions
that the manual takes from a standard by name. Each is opaque: no proof can see a value of it. -/

namespace Sys2Proof.Config

/-- A free number for each draw: the choices of R4 ("one of the following, not predictable which") and every open value.
The state counts the draws (`State.fresh`). Log entry 1. -/
opaque freeNat : Nat → Nat
/-- A free bit for each draw. Log entry 1. -/
opaque freeBit : Nat → Bool
/-- A free word for each draw. Log entry 1. -/
opaque freeWord : Nat → Word
/-- The bytes of the boot ROM (R428): the manual does not give them. Log entry 2. -/
opaque bootRomByte : Nat → Byte
/-- Unique die identities (R431, fused). Log entry 3. -/
opaque uidC : W64
/-- See `uidC`. -/
opaque uidF : W64
/-- The fused VCORE_C trim in mV (R169, R440). Log entry 3. -/
opaque vidTrim : Nat
/-- The fused minimum slack of a zone in ps (R376). Log entry 3. -/
opaque slackMin : Nat → Nat
/-- The hash in root key slot n (SIGN and the chain of trust, 01_bond_image.md). Log entry 3. -/
opaque rootHash : Nat → BitVec 384
/-- VREFA in microvolts (R202, R422, R440). Log entry 3. -/
opaque vrefa : Nat
/-- The image key n, 32 bytes in the order of FIPS 197 (SIGN and the chain of trust, 01_bond_image.md; R26). Log entry 3. -/
opaque imageKey : Nat → BitVec 256
/-- The device key with which the repair mirror is signed (The REPAIR mirror, 01_bond_image.md). Log entry 3. -/
opaque deviceKey : Nat
/-- The per-signature number of ECDSA for the mirror with a sequence number. Log entry 4. -/
opaque deviceNonce : Nat → Nat
/-- The payload of the image request frame that asks for the blocks at some offsets, for any of them where the list is
empty: no rule gives its form (R14). Log entry 68. -/
opaque requestPayload : List Nat → List Byte
/-- The bytes of a CAN frame that is delivered to a ring outside ACF, and the CAN frame that a ring's bytes spell: no rule
gives the form (R357, R360, R361). Log entry 57. -/
opaque canBytes : CanFrame → List Byte
/-- See canBytes. -/
opaque canOfBytes : List Byte → CanFrame
/-- The angle error of a resolver sample against the tracked fraction (R183): sine, cosine, fraction. Log entry 5. -/
opaque resolverError : Int → Int → Nat → Int
/-- The n-th debug nonce (R403). Log entry 4. -/
opaque nonce : Nat → BitVec 384

end Sys2Proof.Config
end

