-- ==== Sys2Proof/Machine/State.lean ====
section
/-! DEFINITION. The state of the block: everything the spec gives the TB-56, as plain data. Field defaults are the values
at reset; where the spec gives none, the log entry named holds. Control registers live in `State.regs` by physical
address (Machine/RegTable.lean names them); what a register shows of another field is computed when it is read. -/

namespace Sys2Proof.Machine

open Sys2Proof

/-- Faults. No meaning raises one: the spec answers every error of the part with an error response, a result code, a
register bit or a hod exception, and each of these is a next state. Kept closed so that a claim can list it. -/
inductive Fault where
  /-- Raised by no meaning (safe: nothing is stopped by it). -/
  | unreachable
  deriving DecidableEq, Repr

/-- Refusals. -/
inductive Refusal where
  /-- An instruction that has no meaning yet. Raised only by an arm of exec. Safe: it stops. -/
  | notModelled (mnemonic : String)
  deriving DecidableEq, Repr

/-- The answer to the last access a command made (R6, R70): done with data, or an error response with its cause (R75). -/
structure Response where
  ok : Bool := true
  data : W64 := 0
  cause : BitVec 3 := 0
  deriving DecidableEq, Repr

/-- The key store (01_bond_image.md; R431): fused, kept by every reset. Log entry 3. -/
structure KeyStore where
  revoked : BitVec 4 := 0
  count : Nat := 0
  netboot : Bool := false
  netport : BitVec 2 := 0
  imgKey : BitVec 2 := 0
  debugPolicy : BitVec 2 := 0
  stepC : Byte := 0x42
  stepF : Byte := 0x42
  deriving DecidableEq, Repr

/-- One section of an image, its payload in clear (R18, R26). -/
structure Section where
  ty : Nat
  payload : List Byte
  deriving DecidableEq, Repr

/-- The laying-out engine (01_bond_image.md). -/
structure Laying where
  /-- sealed states of the dies, in the always-on domain (R35) -/
  sealedC : Bool := false
  sealedF : Bool := false
  /-- the F-die SEAL has been applied since the last warm, field or power-on reset or wake (R35, R403) -/
  sealApplied : Bool := false
  /-- parameters as last applied (R42), keyed 8 × index + word (R40) -/
  params : Tab W32 := []
  /-- sources still to be tried in this laying-out (R11) -/
  order : List Source := []
  /-- the accepted image, decrypted (R31) -/
  accepted : List Section := []
  /-- the C-die sections held in the SHADOW carve-out (R32) -/
  shadow : List Section := []
  /-- an image has been laid out on the F-die since the last reset -/
  haveShadow : Bool := false
  /-- rollback count that the fuse blow in progress ends at (R29) -/
  fuseTarget : Option Nat := none
  /-- a relay waits for a C-die phase to end (R37) -/
  relayWaiting : Bool := false
  /-- relayed KILN fields that take effect at the next refill boundary, by parameter (R36) -/
  kilnNext : List (Nat × Nat) := []
  /-- bytes received in network boot, by offset, and the numbers of the blocks received (R14) -/
  netImage : Tab Byte := []
  netGot : List Nat := []
  /-- image request frames sent in this attempt (R14) -/
  netRequests : Nat := 0
  /-- the repair mirror is to be written (R39) -/
  mirrorDue : Bool := false
  deriving DecidableEq, Repr

/-- The C-die rail sequencer (R386). -/
inductive RailSeq where
  | idle | raising | removing
  deriving DecidableEq, Repr

/-- The kinds of reset, in the order in which their scopes nest (R392, R393). -/
inductive ResetKind where
  | powerOn | warm | field | cDie | perCore
  deriving DecidableEq, Repr

/-- Supplies, reset and the start of the C-die (15_startup_and_reset.md). -/
structure Power where
  /-- power-good of the F-die (R389) -/
  good : Bool := false
  /-- FEN ball (R396) -/
  fen : Bool := true
  /-- parked, or park entry in progress (R400) -/
  parked : Bool := false
  parking : Bool := false
  /-- the wake source that fired during park entry: 0 to 7 a pin, 8 the alarm (R400) -/
  wakeLatched : Option Nat := none
  /-- the rail sequencer; the latest request is SYS_RAIL.REQ (R173) -/
  seq : RailSeq := .idle
  /-- the C-die stays unpowered until the next warm, field or power-on reset, or wake (R32, R386) -/
  hold : Bool := false
  /-- C-die reset asserted; C-die clocks locked; C-die BIST done -/
  cReset : Bool := true
  cClock : Bool := false
  cBist : Bool := false
  /-- the next C-die phase lays out from the shadow (R32) -/
  fromShadow : Bool := false
  /-- compute-ready has been reached since the last warm, field or power-on reset (R391) -/
  computeSeen : Bool := false
  /-- a reset whose restart point has not been reached yet (R393) -/
  resetting : Option ResetKind := some .powerOn
  /-- the boot ROM's own core failed its test: the next reset starts on the spare (R378) -/
  bootCoreBad : Bool := false
  /-- the boot ROM runs on the spare HF core -/
  bootOnSpare : Bool := false
  /-- network boot raised the C-die (R13) -/
  netRaised : Bool := false
  /-- cooling wait after a trip, and loss wait after a link loss, in progress (R172, R375) -/
  coolWait : Bool := false
  lossWait : Bool := false
  /-- the last request frame on VID_DT, its first bit the most significant (R388) -/
  vidFrame : Option Word := none
  deriving DecidableEq, Repr

/-- The byte memories (R428): C tiles and field tiles by physical tile, near memories by physical core, the flash behind
the xSPI window. Unlisted bytes read 0x00, in the flash 0xFF (R436). Words whose check bits show an error are listed in
eccC and eccF by word number (R56, R57), those of the near memories in eccHc and eccHf (R431). -/
structure Mem where
  ctile : Tab Byte := []
  ftile : Tab Byte := []
  hcNear : Tab Byte := []
  hfNear : Tab Byte := []
  flash : Tab Byte := []
  eccC : Tab Ecc := []
  eccF : Tab Ecc := []
  eccHc : Tab Ecc := []
  eccHf : Tab Ecc := []
  deriving DecidableEq, Repr

/-- What a tile holds besides its words (02_tiles.md): a power transition in progress and the actual state in which it
ends, the port's round-robin pointer, the scrubber's next line, the corrected words awaiting write-back, oldest first (R56), a
narrow write that holds the port for its second cycle (R55), corrected errors in the current 1 s window (R377). -/
structure Tile where
  trans : Option (BitVec 2) := none
  rr : Nat := 0
  scrub : Nat := 0
  writeback : List Nat := []
  busy : Bool := false
  ceWindow : Nat := 0
  deriving DecidableEq, Repr

/-- A leaf held in a TLB or a set-out table (R313, R320): page base and size in words, physical base, flags as word 0 of
the entry, ASID, and where the entry lies with its four words as last read (R317). -/
structure Leaf where
  vbase : Nat
  size : Nat
  pbase : Nat
  flags : Word
  asid : Byte
  loc : Nat
  raw : W64
  /-- a page of an ASID whose entry has ID 1: every right, no marks (R311) -/
  ident : Bool := false
  deriving DecidableEq, Repr

/-- The paths of a core (R296). -/
inductive Path where
  | task | sb1 | sb2 | tsb
  deriving DecidableEq, Repr

/-- The exception registers of one path (R295, R296). -/
structure XRegs where
  xpc : W32 := 0
  xpsw : Word := 0
  xaddr : W32 := 0
  xinfo : Word := 0
  deriving DecidableEq, Repr

/-- A store buffer entry (R284): one or two words with their physical byte addresses, and whether a TLBI received since
matches the entry that translated it (R325). -/
structure StoreEntry where
  words : List (Nat × Word)
  tlbi : Bool := false
  deriving DecidableEq, Repr

/-- A long operation in flight (R278): the physical registers it named with their results, the PSW bits it will write (those
that no younger instruction has written, R275) with their values, the address and the path it was issued at. -/
structure LongOp where
  dests : List (Nat × Word)
  mask : Word
  val : Word
  addr : W32
  path : Path
  deriving DecidableEq, Repr

/-- A load waiting in MD (R273): the word addresses, physical byte addresses and device attributes of its words with their
registers, the base pair's new value if it advances, the address of the next instruction, and whether a TLBI received since
matches the entry that translated it (R325). -/
structure LoadWait where
  words : List (Option Nat × W32 × Nat × Bool)
  advance : List (Nat × Word)
  pc : W32
  tlbi : Bool := false
  deriving DecidableEq, Repr

/-- A pending arithmetic exception (R280, R308). -/
structure ArithPend where
  cause : Nat
  addr : W32
  path : Path
  deriving DecidableEq, Repr

/-- What a core is doing. -/
inductive RunState where
  | held
  | running
  | waitInt
  | waitBrick (rd : Reg) (ticket : Word)
  | waitTlb
  | halted
  | locked
  deriving DecidableEq, Repr

/-- One logical hod core (09 to 12). Registers are kept by physical number: 1 to 7 g1–g7; 16 + 16w + i L[w] and
24 + 16w + i A[w]; 256 + r and 288 + r the registers of SB1 and SB2 (R246, R247, R303). -/
structure Core where
  regs : Tab Word := []
  pc : W32 := 0
  psw : Word := 0
  cwp : Nat := 0
  auto : Bool := false
  fence : Nat := 11
  dirty : Word := 0xCFFF
  repLeft : Word := 0
  multiProg : Word := 0
  wsp : W32 := 0
  ssp : W32 := 0
  tsb : W32 := 0
  gtb : W32 := 0
  ctxp : W32 := 0
  path : Path := .task
  sb1Busy : Bool := false
  sb2Busy : Bool := false
  x1 : XRegs := {}
  x2 : XRegs := {}
  xt : XRegs := {}
  run : RunState := .held
  /-- halted by debug over the run state kept here (R405) -/
  haltedFrom : RunState := .running
  /-- a halt requested, taken at the next instruction boundary (R405) -/
  haltReq : Bool := false
  storeBuf : List StoreEntry := []
  longOp : Option LongOp := none
  loadWait : Option LoadWait := none
  arith : List ArithPend := []
  tlb : List Leaf := []
  locked : Tab (Option Leaf) := []
  /-- XLAT_CTL and XLAT_ATB as of the last ISYNC, which govern fetches (R326) -/
  fetchCtl : Word := 0
  fetchAtb : W32 := 0
  /-- closing branch of the loop buffer's capture, with the words of the body as captured (R277) -/
  loopAt : Option (W32 × List (Option Word)) := none
  /-- physical numbers of the lines of 32 words that the instruction cache holds, HC cores (R289) -/
  icLines : List Nat := []
  deriving DecidableEq, Repr

/-- A bond template (R123). -/
structure Template where
  header : W32
  ecoef : W32
  acc0 : Word
  acc1 : Word
  acc2 : Word
  accD : Word
  stages : List W32
  shapePar : W32
  palPar : W32
  deriving DecidableEq, Repr

/-- The states of a brick (R89). `ending code` has ended its work and awaits BRICK_END. -/
inductive BState where
  | queued
  | setout
  | probe
  | run
  | suspProbe
  | suspRun
  | ending (code : Byte)
  deriving DecidableEq, Repr

/-- One set-out translation (R93, R95): stream 0 to 2 sources, 3 D0, 4 status, 5 scalar block; a page in bytes, whether its
leaf gives the device attribute (R316) and whether it is a page of an identity ASID (R311). -/
structure SetoutPage where
  stream : Nat
  vbase : Nat
  size : Nat
  pbase : Nat
  dev : Bool := false
  ident : Bool := false
  deriving DecidableEq, Repr

/-- A queue entry (R84, R88 to R117). -/
structure Brick where
  desc : List Word
  seq : Nat
  ticket : Word
  joint : Bool
  lvl : BitVec 2
  arrival : Nat
  st : BState := .queued
  table : Option Nat := none
  /-- elements committed so far -/
  k : Nat := 0
  flags : BitVec 6 := 0
  stopFlags : BitVec 6 := 0
  /-- FELEM, FVA, FINFO of a fault or stop, when one is to be reported -/
  report : Option (Nat × W32 × Word) := none
  /-- partials of the running reduction, least significant set bit first, as (level, value) (R107) -/
  parts : List (Nat × W64) := []
  pages : List SetoutPage := []
  scal : List W64 := []
  /-- segment length in force (R128) -/
  seg : Nat := 0
  /-- elements probed and the probe fault found with FF 1 (R101) -/
  probed : Nat := 0
  probeFault : Option (Nat × W32 × Word) := none
  /-- probe translations of the indexed streams (R102) -/
  probePages : List SetoutPage := []
  clusters : List Nat := []
  ranOn : BitVec 4 := 0
  /-- charges made: zone, amount from RTB, amount from GEN (R157) -/
  charges : List (Nat × Int × Int) := []
  stepAt : Nat := 0
  /-- the tick at which it took its clusters (R159) -/
  since : Nat := 0
  suspends : Nat := 0
  energy : Nat := 0
  overtaken : Nat := 0
  /-- remaining time of R162: none without a deadline, some none unbounded -/
  remain : Option (Option Int) := none
  /-- the status area may be written (false under R116) -/
  statusOk : Bool := true
  /-- SUSPENDS, METER: a suspension has been requested by the kiln (R165) -/
  suspendReq : Bool := false
  /-- elements worked on without being released, in a brick that R99 may end at any count (0: none beyond k) -/
  seen : Nat := 0
  /-- the memories as they were at submission, with what other bricks have written since: the old values of R91 and R112 -/
  was : Option Mem := none
  deriving DecidableEq, Repr

/-- A brick queue (R84 to R87): entries oldest first, next sequence number, the END values of the 64 bricks that ended
last with their tickets; a brick that a joint submitted has none (R88). -/
structure Queue where
  entries : List Brick := []
  nextSeq : Nat := 0
  ended : List (Option Word × Word) := []
  deriving DecidableEq, Repr

/-- A kiln zone (05_kiln.md): buckets, region (0 COOL to 3 CRIT), temperature in 1/16 °C, sensors in use, whether a
sensor was left out, whether it is treated as above T_CRIT until a reset (R152), rate of the last refill, and the idle power
last learned, in kiln units per microsecond (R159). -/
structure Zone where
  gen : Int := 0
  rtb : Int := 0
  region : Nat := 0
  temp : Int := 0
  sensOk : BitVec 4 := 0xF
  sensErr : Bool := false
  blind : Bool := false
  rate : Nat := 0
  idle : Nat := 0
  deriving DecidableEq, Repr

/-- Lock states of a course (R185, R200). -/
inductive CState where
  | search | sync | locked | coast | lost
  deriving DecidableEq, Repr

/-- A course tracker (06_courses.md). `p` is the internal position (52 bits), `vis` the visible one, `holding` the hold of
R181, `held` the held cycle count (R186); `running` follows CRS_CTRL.RUN at the next tick (R188). Edge k after the reference edge is `edge`; `base` is the internal position of
k = 0. The last edge's slot, the interval before it in slots and the speed over it serve R181 and R183; `lines` is the
last code of the input lines (quadrature, Hall); `coastAdv` counts the advance since COAST was entered. -/
structure Course where
  running : Bool := false
  state : CState := .lost
  p : Nat := 0
  vis : W32 := 0
  s : Int := 0
  a : Int := 0
  held : Nat := 4095
  holding : Bool := false
  rev : Bool := false
  camOk : Bool := false
  base : Nat := 0
  edge : Int := 0
  lastSlot : Option Nat := none
  lastGap : Option Nat := none
  lastS : Option Int := none
  syncCount : Nat := 0
  tolCount : Nat := 0
  coastAdv : Nat := 0
  lines : Nat := 0
  corr : Int := 0
  /-- a COURSES relay holds the tracker's start (R36, R188) -/
  relayHold : Bool := false
  deriving DecidableEq, Repr

/-- Conversions of the SAR converters (R203, R204): input, ST code, level of R204, trigger order, the definition and
the word of its frame that the result fills; for a resolver sample its course and whether it is the cosine (R208); the tick
at which it started. -/
structure Conv where
  input : Nat
  st : Nat
  level : Nat
  trig : Nat
  slot : Option (Nat × Nat)
  res : Option (Nat × Bool) := none
  began : Nat := 0
  deriving DecidableEq, Repr

/-- A definition of the capture engine (07_measurement.md): whether its enable waits for the frame in progress (R220), the
pass and list entry that start next, the next result word, results so far, conversions outstanding, the stamps with
whether their course was LOCKED, ERR, LATE, the frame's sequence number, LOST, the ticks of the trigger, of the pass, of
the last entry start and of the last result, whether its next group waits for a converter, and the tick before which a WAIT
lets no entry start (R217). -/
structure CapRun where
  enPending : Bool := false
  pass : Nat := 0
  entry : Nat := 0
  words : Nat := 0
  results : Tab Word := []
  outstanding : Nat := 0
  begun : Bool := false
  stamp1 : W32 := 0
  stamp2 : W32 := 0
  lock1 : Bool := false
  lock2 : Bool := false
  err : Bool := false
  late : Bool := false
  seq : Nat := 0
  lost : Nat := 0
  trigTick : Nat := 0
  passTick : Nat := 0
  entryTick : Nat := 0
  resultTick : Nat := 0
  waits : Bool := false
  notBefore : Nat := 0
  deriving DecidableEq, Repr

/-- A sinc3 filter (R209): its three integrators, its three combs and the modulator clocks since its last output. -/
structure Sinc where
  i1 : Int := 0
  i2 : Int := 0
  i3 : Int := 0
  d1 : Int := 0
  d2 : Int := 0
  d3 : Int := 0
  count : Nat := 0
  deriving DecidableEq, Repr

/-- A complete frame in a field slot that names a ring (R224), with its number of result words. -/
structure Ready where
  fb : Nat
  slot : Nat
  ring : Nat
  words : Nat
  deriving DecidableEq, Repr

/-- A modulator (08_actuation.md): slots since its start, the values in force, raw and ball levels of A and B with slots
since each raw rise (R231), the course position of its last slot (R230), the slot of its last period boundary (R242). Its requested and actual states are in MOD_CTRL
and MOD_STAT. -/
structure Modulator where
  t : Nat := 0
  per : W32 := 0
  duty : W32 := 0
  phase : W32 := 0
  aRaw : Bool := false
  bRaw : Bool := false
  aFor : Nat := 0
  bFor : Nat := 0
  a : Bool := false
  b : Bool := false
  lastP : W32 := 0
  bound : Option Nat := none
  deriving DecidableEq, Repr

/-- A ball level (R238). -/
inductive Lvl where
  | low | high | z
  deriving DecidableEq, Repr

/-- The pin actions of one tick on a cell (R195): the tick, LVL, pending pulse end, commanded level, slot of its edge and
quiet time before them, and the actions (joint, code, argument, slot) in joint index order. -/
structure Acted where
  tick : Nat
  lvl : Bool
  pulse : Option Nat
  level : Lvl
  edge : Nat
  quiet : Nat
  acts : List (Nat × Nat × Word × Nat)
  deriving DecidableEq, Repr

/-- An output cell: its state of R238 (0 NORMAL, 1 LIMP, 2 SAFE), commanded level, the slot of its last edge, the slot
of a pending pulse end (R195), ticks since the last commanded change up to 320 (R241: 64, then at most 256 of mismatch). -/
structure Cell where
  state : Nat := 0
  level : Lvl := .z
  edgeSlot : Nat := 0
  pulse : Option Nat := none
  quiet : Nat := 320
  /-- the slot before which the output does not rise after a return from SAFE or LIMP (R242) -/
  rise : Nat := 0
  /-- the pin actions of the last tick that had some (R195) -/
  acted : Option Acted := none
  deriving DecidableEq, Repr

/-- A TLBI request on its way (R324, R325). -/
structure TlbiReq where
  issuer : Nat
  scope : BitVec 2
  va : W32
  asid : Byte
  toReceive : List Receiver
  toAck : List Receiver
  deriving DecidableEq, Repr

/-- A lock command in progress (R320, R330): core, slot, load or release, address and address space. -/
structure LockCmd where
  core : Nat
  slot : Nat
  load : Bool
  va : W32
  asid : Byte
  deriving DecidableEq, Repr

/-- A frame in the switch buffer (R334): bytes without FCS, ingress port, class, time stamp, source roster index if
known, stream filter index (0x3FF none), the CAN frame it stands for on its way to a CAN port (R348), and the transmit
slot that its egress time stamp is written back to (R361). -/
structure SwFrame where
  id : Nat := 0
  bytes : List Byte
  port : Nat
  cls : Nat
  stamp : W64
  src : Option Nat := none
  filt : Nat := 0x3FF
  can : Option CanFrame := none
  slot : Option (Master × Nat) := none
  deriving DecidableEq, Repr

/-- Run-time state of a flow meter (R352): committed and excess tokens in use, in 1/6,400,000 byte, and the tick at which
they were last brought up to date. -/
structure Meter where
  usedC : Nat := 0
  usedE : Nat := 0
  since : Nat := 0
  deriving DecidableEq, Repr

/-- Run-time state of a FRER function (R353): next sequence number, or highest accepted with its history. -/
structure Frer where
  seq : Word := 0
  started : Bool := false
  hist : List Bool := []
  deriving DecidableEq, Repr

/-- Gate control of a port (R350): entry in force, operative list (false A, true B), and whether a list change is
pending. -/
structure Gate where
  entry : Nat := 0
  oper : Bool := false
  chg : Bool := false
  deriving DecidableEq, Repr

/-- Credit of a shaped class (R351) in 1/800,000 bit, and the tick at which it was last brought up to date. -/
structure Credit where
  bits : Int := 0
  since : Nat := 0
  deriving DecidableEq, Repr

/-- A transmit tap of a backbone lane (R341): the preset it was last set to, 1 to 3, and the increments less the decrements
since. -/
structure Tap where
  preset : Nat := 1
  steps : Int := 0
  deriving DecidableEq, Repr

/-- Training and alignment of a backbone lane (R339 to R342): its transmit taps, pre-cursor, main and post-cursor; the lane
number and RX_READY of the partner's last training frame; the tick at which it began to send superframes; and the alignment
codeword (lane number, count) and the link status (FEC health, degrade request, lane map) received last. -/
structure Lane where
  pre : Tap := {}
  main : Tap := {}
  post : Tap := {}
  peerLane : BitVec 3 := 0
  peerReady : Bool := false
  sendFrom : Option Nat := none
  align : Option (BitVec 3 × Word) := none
  status : Option (Word × Bool × BitVec 2) := none
  deriving DecidableEq, Repr

/-- A frame in the receive buffer of an F-die port, whole, waiting to cross the Mortar link (R331). -/
inductive Held where
  | eth (bytes : List Byte) (stamp : W64) (node : Option (BitVec 4))
  | can (f : CanFrame) (stamp : W64)
  deriving DecidableEq, Repr

/-- The switch and the ports (13_network.md). Tables hold their entries as 128-bit numbers, byte 0 lowest; the MACsec
table is keyed 8 × index + part, queues 8 × port + class. -/
structure Net where
  roster : Tab (BitVec 128) := []
  /-- CAN ranges that are present (R356) -/
  present : Tab Bool := []
  events : List Word := []
  portTab : Tab (BitVec 128) := []
  qTab : Tab (BitVec 128) := []
  gateTab : Tab W32 := []
  filtTab : Tab (BitVec 128) := []
  meterTab : Tab (BitVec 128) := []
  frerTab : Tab (BitVec 128) := []
  secTab : Tab (BitVec 128) := []
  counters : Tab W64 := []
  store : List SwFrame := []
  /-- the frames of each queue, oldest first, by their identities -/
  queues : Tab (List Nat) := []
  nextId : Nat := 0
  credits : Tab Credit := []
  meters : Tab Meter := []
  frers : Tab Frer := []
  gates : Tab Gate := []
  /-- a table access in progress: command word, with the index and the data words at GO (R363) -/
  access : Option Word := none
  accessData : List Word := []
  /-- ACF messages collected, by channel × 2048 + LINK, and per channel sequence numbers (R348) -/
  acf : Tab (List (List Byte)) := []
  acfSeq : Tab Byte := []
  /-- frames put on the wire, newest first: port and bytes -/
  sent : List (Nat × List Byte) := []
  /-- CAN frames sent on a channel, newest first, with whether the XL data phase was in fast mode (R347) -/
  canSent : List (Nat × CanFrame × Bool) := []
  /-- receive error counts and acknowledgements given of the CAN channels (R347) -/
  canRec : Tab Nat := []
  canAcks : Tab Nat := []
  /-- the receive buffers of ports 4 to 21, oldest first (R331) -/
  rxHeld : Tab (List Held) := []
  /-- coordinated segments: the node whose transmit opportunity begins, and at which tick (R346) -/
  plca : Tab (Nat × Nat) := []
  /-- backbone ports: the ticks of the uncorrectable codewords of the last 1 ms, and of the entries from UP into TRAIN of
  the last second (R342, R343) -/
  unc : Tab (List Nat) := []
  drops1s : Tab (List Nat) := []
  /-- the next frames of a backbone port that an uncorrectable codeword has spoilt (R338) -/
  spoilt : Tab Nat := []
  /-- the backbone lanes, and the lane map of each port (R339, R340) -/
  lanes : Tab Lane := []
  laneMap : Tab (BitVec 2) := []
  deriving DecidableEq, Repr

/-- A flit in the sender's hands (R368): type, channel, payload; and once numbered, its sequence number. -/
structure Flit where
  ty : BitVec 4
  ch : BitVec 2
  payload : BitVec 256
  seq : Byte := 0
  deriving DecidableEq, Repr

/-- One direction of the Mortar link (R367 to R371). -/
structure LinkDir where
  queues : Tab (List Flit) := []
  credits : Tab Nat := []
  replay : List Flit := []
  resend : List Flit := []
  nextSeq : Byte := 0
  expect : Byte := 0
  discarding : Bool := false
  /-- what the receiver has to return: a failure to report, an acknowledgement owed, and the flits of each channel that have
  left its buffer, modulo 256; and the last of those counts that the sender knows (R369, R371) -/
  report : Bool := false
  owed : Bool := false
  given : Tab Byte := []
  known : Tab Byte := []
  slots : Nat := 0
  /-- slots since channels 2 and 3 last sent while waiting (R369) -/
  starve2 : Nat := 0
  starve3 : Nat := 0
  replays : Nat := 0
  /-- flit on the wire -/
  wire : Option (BitVec 288) := none
  /-- payloads delivered in order, newest first -/
  delivered : List Flit := []
  deriving DecidableEq, Repr

/-- The Mortar link (14_mortar_and_spares.md). -/
structure Mortar where
  fc : LinkDir := {}
  cf : LinkDir := {}
  failed : List LaneRef := []
  /-- CHECK-flit errors of each lane in the present 1 ms window, by 18 × direction + lane (R374) -/
  laneErr : Tab Nat := []
  crcWindow : Nat := 0
  /-- ticks at which the retrains of the last second began (R373) -/
  retrainAt : List Nat := []
  deriving DecidableEq, Repr

/-- A migration in progress (R380): working tile, old and new physical tile, next line, words written since the copy
began, copying or still waking. -/
structure Migration where
  w : Nat
  f : Nat
  sp : Nat
  line : Nat
  written : List Nat
  copying : Bool
  /-- SOURCE of the record entry that the switch adds (R382) -/
  source : Byte
  deriving DecidableEq, Repr

/-- An event waiting to be added to the repair record (R382). -/
structure RecEvent where
  unit : UnitRef
  live : Bool
  sw : Bool
  source : Byte
  deriving DecidableEq, Repr

/-- Spares, wear and the repair record (14_mortar_and_spares.md). -/
structure Spares where
  record : List W64 := []
  toAdd : List RecEvent := []
  bindC : Tab (Option Nat) := []
  bindF : Tab (Option Nat) := []
  failed : List UnitRef := []
  hcSpare : Option Nat := none
  hfSpare : Option Nat := none
  adSpare : Option Nat := none
  /-- queued candidates with the SOURCE their entry will carry -/
  queue : List (Nat × Byte) := []
  mig : Option Migration := none
  deriving DecidableEq, Repr

/-- The debug port (R403 to R405): the certificates presented, the root slot, nonces given, whether the nonce in DBG_CHAL has
been read since the last response, the nonce, a response under check with its nonce, and STATUS of DBG_ACCESS. -/
structure Debug where
  chain : List (List Byte) := []
  rootSlot : Nat := 0
  nonces : Nat := 0
  nonceRead : Bool := false
  chal : Option (BitVec 384) := none
  response : Option (BitVec 768 × Option (BitVec 384)) := none
  status : BitVec 2 := 0
  deriving DecidableEq, Repr

/-- The machine. -/
structure State where
  /-- commands that wait, first in first out -/
  pending : List Instr := []
  /-- answer to the last access -/
  resp : Response := {}
  /-- draws of free values made so far (the model's own field; log entry 1) -/
  fresh : Nat := 0
  regs : Tab Word := []
  /-- R10: captured halves by the address of the register that answers, staged halves by the _LO address -/
  captures : Tab (Option Word) := []
  staging : Tab Word := []
  ks : KeyStore := {}
  lay : Laying := {}
  pw : Power := {}
  mem : Mem := {}
  tiles : Tab Tile := []
  ccnt : Tab W32 := []
  cores : Vector Core 12 := Vector.ofFn fun c => { fence := if c.val < 8 then 11 else 7, dirty := if c.val < 8 then 0xCFFF else 0xC0FF }
  queues : Vector Queue 16 := Vector.replicate 16 {}
  epoch : BitVec 2 := 0
  arrivals : Nat := 0
  templates : Tab (Option Template) := []
  zones : Tab Zone := []
  /-- trip comparators that have tripped and not re-armed, by 4 × zone + sensor (R171) -/
  tripped : Tab Bool := []
  /-- cluster held for a waiting paired brick: queue and sequence number (R165) -/
  clusterHold : Tab (Option (Nat × Nat)) := []
  courses : Vector Course 8 := Vector.replicate 8 {}
  /-- F-die ticks since the count began -/
  ticks : Nat := 0
  /-- the tick at which each core's watchdog last restarted; of a core that debug has halted, the ticks counted until then
  (R395) -/
  wdtFrom : Tab Nat := []
  /-- joints in the dispatch queue, each with its action, target and argument when it fired, and the tick (R196) -/
  dispatch : List (Nat × Nat × Word × Word × Nat) := []
  /-- one more than the tick at which an action last left the queue (R196) -/
  dispTick : Nat := 0
  /-- demodulated samples of resolver courses that the next tick takes: course, sine, cosine, slot (R183, R208) -/
  demod : List (Nat × Int × Int × Nat) := []
  /-- the converted half of a resolver sample whose other half is still out, by 2 × course + (1 for cosine) (R208) -/
  resHalf : Tab (Option Int) := []
  /-- for each joint, one more than the tick of its last firing (R193) -/
  jfired : Tab Nat := []
  /-- joint submissions on their way over the Mortar link: queue and descriptor line (R194, R196) -/
  crossing : List (Nat × Nat) := []
  /-- gPTP clock: ns and fraction in 2^-42 ns (R349) -/
  gptpNs : W64 := 0
  gptpFrac : Nat := 0
  /-- the tick of its last update (R349) -/
  gptpLast : Nat := 0
  waiting : List Conv := []
  converting : Tab (Option Conv) := []
  adcTrans : Tab (Option Bool) := []
  cpTrans : Tab (Option Bool) := []
  /-- threshold code in force before the last CP_DAC write (R213) -/
  cpOld : Tab Word := []
  sdSettle : Tab Nat := []
  /-- the sinc3 filters, and the tick up to which SDCLK_OUT's clocks have been taken by each (R209) -/
  sinc : Tab Sinc := []
  sdFrom : Tab Nat := []
  sentCal : Tab Nat := []
  /-- status nibbles of the receiver's last good frames in a row, newest first, at most 18 (R214) -/
  sentSer : Tab (List Nat) := []
  caps : Tab CapRun := []
  ready : List Ready := []
  mods : Tab Modulator := []
  cells : Tab Cell := []
  /-- the measured voltage of each VIO bank in mV (R387) -/
  vio : Tab Nat := []
  streamTlb : List Leaf := []
  asidCache : List (Byte × W32) := []
  tlbis : List TlbiReq := []
  lockC : Option LockCmd := none
  lockF : Option LockCmd := none
  net : Net := {}
  ml : Mortar := {}
  spr : Spares := {}
  dbg : Debug := {}
  deriving DecidableEq, Repr

/-- The machine right after reset. -/
def State.reset : State := {}

end Sys2Proof.Machine
end

