-- ==== Sys2Proof/Machine/Ops.lean ====
section
/-! DEFINITION. The shared operations over the state: sparse tables, bit fields, control registers, split quantities,
interrupts, parameters, free draws, cores and byte memories. -/

namespace Sys2Proof.Machine

open Sys2Proof

/-! ### Sparse tables -/

/-- The value at key n; an absent key holds d. -/
def Tab.get {α : Type} (d : α) : Tab α → Nat → α
  | [], _ => d
  | (k, v) :: t, n => if n < k then d else if n = k then v else Tab.get d t n

/-- The table with v at key n, in canonical form: an entry equal to d is removed. -/
def Tab.set {α : Type} [DecidableEq α] (d : α) (n : Nat) (v : α) : Tab α → Tab α
  | [] => if v = d then [] else [(n, v)]
  | (k, w) :: t =>
    if n < k then (if v = d then (k, w) :: t else (n, v) :: (k, w) :: t)
    else if n = k then (if v = d then t.dropWhile (fun e => e.1 ≤ n) else (n, v) :: t)
    else (k, w) :: Tab.set d n v t

/-- The table with f applied to the value at key n. -/
def Tab.upd {α : Type} [DecidableEq α] (d : α) (n : Nat) (f : α → α) (t : Tab α) : Tab α :=
  Tab.set d n (f (Tab.get d t n)) t

/-- The canonical form: keys strictly rising (above lo) and no entry equal to the default. -/
def Tab.wfFrom {α : Type} [DecidableEq α] (d : α) : Nat → Tab α → Bool
  | _, [] => true
  | lo, (k, v) :: t => decide (lo ≤ k) && decide (v ≠ d) && Tab.wfFrom d (k + 1) t

/-- The canonical form of a whole table. -/
def Tab.wf {α : Type} [DecidableEq α] (d : α) (t : Tab α) : Bool := Tab.wfFrom d 0 t

/-! ### Bit fields -/

/-- Bits hi to lo of a word as a number. -/
def wfld (w : Word) (hi lo : Nat) : Nat := (w.toNat >>> lo) % 2 ^ (hi + 1 - lo)

/-- Bit b of a word. -/
def wbit (w : Word) (b : Nat) : Bool := w.getLsbD b

/-- The word with bits hi to lo replaced by the low bits of n. -/
def putFld (w : Word) (hi lo : Nat) (n : Nat) : Word :=
  BitVec.ofNat 16 (w.toNat - (wfld w hi lo) * 2 ^ lo + (n % 2 ^ (hi + 1 - lo)) * 2 ^ lo)

/-- The word with bit b set to v. -/
def putBit (w : Word) (b : Nat) (v : Bool) : Word := putFld w b b (if v then 1 else 0)

/-- 1 for true. -/
def b2n (b : Bool) : Nat := if b then 1 else 0

/-- A number as a signed value of n bits. -/
def signed (n v : Nat) : Int := if v % 2 ^ n < 2 ^ (n - 1) then (v % 2 ^ n : Nat) else ((v % 2 ^ n : Nat) : Int) - (2 ^ n : Nat)

/-- A signed value as the number its n-bit two's complement spells. -/
def unsigned (n : Nat) (v : Int) : Nat := (v % ((2 ^ n : Nat) : Int)).toNat

/-- v limited to lo to hi. -/
def clampI (lo hi v : Int) : Int := if v < lo then lo else if hi < v then hi else v

/-- The numbers below n, in order. -/
def upto (n : Nat) : List Nat := List.range n

/-! ### Control registers -/

/-- The stored word of register i of a kind. -/
def State.reg (s : State) (k : RegKind) (i : Nat) : Word := Tab.get k.reset s.regs (k.addr i)

/-- The state with that word stored. -/
def State.setReg (s : State) (k : RegKind) (i : Nat) (v : Word) : State :=
  { s with regs := Tab.set k.reset (k.addr i) v s.regs }

/-- Field hi to lo of a register. -/
def State.fld (s : State) (k : RegKind) (i hi lo : Nat) : Nat := wfld (s.reg k i) hi lo

/-- Bit b of a register. -/
def State.bit (s : State) (k : RegKind) (i b : Nat) : Bool := wbit (s.reg k i) b

/-- A register with field hi to lo replaced. -/
def State.setFld (s : State) (k : RegKind) (i hi lo n : Nat) : State := s.setReg k i (putFld (s.reg k i) hi lo n)

/-- A register with bit b replaced. -/
def State.setBit (s : State) (k : RegKind) (i b : Nat) (v : Bool) : State := s.setReg k i (putBit (s.reg k i) b v)

/-- A counting register counts n events and saturates at 0xFFFF. -/
def State.count (s : State) (k : RegKind) (i : Nat) (n : Nat := 1) : State :=
  s.setReg k i (BitVec.ofNat 16 (min 0xFFFF ((s.reg k i).toNat + n)))

/-- A split quantity (R10), both halves as one number. -/
def State.pair (s : State) (lo hi : RegKind) (i : Nat) : Nat := (s.reg lo i).toNat + (s.reg hi i).toNat * 65536

/-- Both halves of a split quantity replaced. -/
def State.setPair (s : State) (lo hi : RegKind) (i : Nat) (n : Nat) : State :=
  (s.setReg lo i (BitVec.ofNat 16 n)).setReg hi i (BitVec.ofNat 16 (n / 65536))

/-- Whether a die is sealed (R35). -/
def State.sealed (s : State) : Die → Bool
  | .c => s.lay.sealedC
  | .f => s.lay.sealedF

/-- The bits of register i of a kind that exist where not every register of the kind has them all: XBAR_PRI[5m + 4] has three
fields and FXBAR_PRI[3m + 2] two (R7, R75). -/
def RegKind.bitsOf (k : RegKind) (i : Nat) : Word :=
  match k with
  | .XBAR_PRI => if i % 5 = 4 then 0x0FFF else 0xFFFF
  | .FXBAR_PRI => if i % 3 = 2 then 0x00FF else 0xFFFF
  | _ => 0xFFFF

/-- What a software write leaves in the stored word (R8, R9): rw and wo bits take the value, w1c bits are cleared where it
is 1, rwl bits take it while the die is unsealed; wo bits read 0 and are not stored. -/
def writtenWord (k : RegKind) (sealed : Bool) (old v : Word) : Word :=
  let m := if sealed then k.rw else k.rw ||| k.rwl
  ((old &&& ~~~m) ||| (v &&& m)) &&& ~~~(k.w1c &&& v)

/-! ### Interrupts -/

/-- The interrupt source becomes pending at a core in the coding of R194 (R302). An interrupt for an HC core while the
C-die is held in reset finds no register to hold it: it is lost. Log entry 20. -/
def State.raise (s : State) (core src : Nat) : State :=
  if core < 8 then (if s.pw.cReset then s else s.setBit .HINT_PEND core src true)
  else if core < 12 then s.setBit .FHINT_PEND (core - 8) src true
  else s

/-- Set bit b of an interrupt status register and, where the same bit of the enable register is set, raise the source at
the core. -/
def State.raiseStat (s : State) (stat en : RegKind) (b core src : Nat) : State :=
  let s' := s.setBit stat 0 b true
  if s.bit en 0 b then s'.raise core src else s'

/-! ### Parameters -/

/-- Word 0 of parameter i as last applied (R41, R42). -/
def State.param (s : State) (i : Nat) : Nat := (Tab.get (0 : W32) s.lay.params (8 * i)).toNat

/-- The parameter table with word 0 of parameter i set. -/
def setParam (t : Tab W32) (i n : Nat) : Tab W32 := Tab.set 0 (8 * i) (BitVec.ofNat 32 n) t

/-! ### Free draws -/

/-- The next free number, and the state that has drawn it. -/
def State.draw (s : State) : Nat × State := (Config.freeNat s.fresh, { s with fresh := s.fresh + 1 })

/-- The next free bit. -/
def State.drawBit (s : State) : Bool × State := (Config.freeBit s.fresh, { s with fresh := s.fresh + 1 })

/-- The next free word. -/
def State.drawWord (s : State) : Word × State := (Config.freeWord s.fresh, { s with fresh := s.fresh + 1 })

/-! ### Cores -/

/-- A core's number as a Nat below 12, or none (codes 12 to 15 name no core, R194). -/
def coreOf (n : Nat) : Option CoreId := if h : n < 12 then some ⟨n, h⟩ else none

/-- Core c. -/
def State.core (s : State) (c : CoreId) : Core := s.cores[c]

/-- The state with core c replaced. -/
def State.setCore (s : State) (c : CoreId) (k : Core) : State := { s with cores := s.cores.set c k }

/-- The state with f applied to core c. -/
def State.modCore (s : State) (c : CoreId) (f : Core → Core) : State := s.setCore c (f (s.core c))

/-! ### Bytes -/

/-- n bytes of a byte table from address a, the lowest first. -/
def readBytes (d : Byte) (t : Tab Byte) (a : Nat) : Nat → List Byte
  | 0 => []
  | n + 1 => Tab.get d t a :: readBytes d t (a + 1) n

/-- The byte table with the bytes stored from address a. -/
def writeBytes (d : Byte) (t : Tab Byte) (a : Nat) : List Byte → Tab Byte
  | [] => t
  | b :: bs => writeBytes d (Tab.set d a b t) (a + 1) bs

/-- A little-endian number. -/
def leNat : List Byte → Nat
  | [] => 0
  | b :: bs => b.toNat + 256 * leNat bs

/-- A big-endian number. -/
def beNat (l : List Byte) : Nat := leNat l.reverse

/-- The n low bytes of a number, the lowest first. -/
def leBytes : Nat → Nat → List Byte
  | 0, _ => []
  | n + 1, v => BitVec.ofNat 8 v :: leBytes n (v / 256)

/-- The n low bytes of a number, the highest first. -/
def beBytes (n v : Nat) : List Byte := (leBytes n v).reverse

/-- Bytes i to i + n − 1 of a list, zero beyond its end. -/
def bytesAt (l : List Byte) (i n : Nat) : List Byte := (upto n).map fun j => l.getD (i + j) 0

/-- The little-endian number of n bytes at offset i. -/
def leAt (l : List Byte) (i n : Nat) : Nat := leNat (bytesAt l i n)

end Sys2Proof.Machine
end

