-- ==== Sys2Proof/Machine/VNum.lean ====
section
/-! DEFINITION. The element types of the vector engine and the exact arithmetic behind them (04_bonds.md): rounding,
binary16, binary32, binary64 and bfloat16, decimal64 in the BID encoding. Raw element values are numbers below 2^64; flags
are numbers with V 32, IV 16, DZ 8, OF 4, UF 2, NX 1 (R138). -/

namespace Sys2Proof.Machine

open Sys2Proof

/-- A raw result with the flags it raises. -/
structure VRes where
  v : Nat
  fl : Nat := 0
  deriving DecidableEq, Repr

/-! ### Element types (R77) -/

/-- Bytes of an element of a type code; 0 for the code that marks a stream unused. -/
def tySize (t : Nat) : Nat :=
  match t with
  | 0 | 1 => 1
  | 2 | 3 | 8 | 10 | 11 => 2
  | 4 | 5 | 9 | 12 => 4
  | 6 | 7 | 13 | 14 => 8
  | _ => 0

/-- Bits of an element. -/
def tyBits (t : Nat) : Nat := 8 * tySize t
/-- i8 to u64. -/
def isInt (t : Nat) : Bool := t < 8
/-- i8, i16, i32, i64. -/
def isSignedInt (t : Nat) : Bool := t < 8 && t % 2 = 0
/-- q15 and q31. -/
def isQ (t : Nat) : Bool := t = 8 || t = 9
/-- f16, f32, f64. -/
def isBin (t : Nat) : Bool := t = 10 || t = 12 || t = 13
/-- d64. -/
def isD64 (t : Nat) : Bool := t = 14
/-- The value of a raw integer or Q element as an integer. -/
def intVal (t v : Nat) : Int := if isSignedInt t || isQ t then signed (tyBits t) v else ((v % 2 ^ tyBits t : Nat) : Int)
/-- Smallest value of an integer or Q type. -/
def tyMin (t : Nat) : Int := if isSignedInt t || isQ t then - ((2 ^ (tyBits t - 1) : Nat) : Int) else 0
/-- Largest value of an integer or Q type. -/
def tyMax (t : Nat) : Int :=
  if isSignedInt t || isQ t then ((2 ^ (tyBits t - 1) - 1 : Nat) : Int) else ((2 ^ tyBits t - 1 : Nat) : Int)

/-- An exact integer result narrowed to a type (R132): wrapped or saturated, V where it does not fit. -/
def narrow (t : Nat) (sat : Bool) (x : Int) (flag : Nat := 32) : VRes :=
  if tyMin t ≤ x ∧ x ≤ tyMax t then { v := unsigned (tyBits t) x }
  else { v := unsigned (tyBits t) (if sat then clampI (tyMin t) (tyMax t) x else x), fl := flag }

/-! ### Rounding -/

/-- n / d rounded to a whole number under a mode (0 RNE, 1 RTZ, 2 RUP, 3 RDN, 4 RNA) for a value of the given sign,
and whether the result is inexact. -/
def roundQuot (mode : Nat) (neg : Bool) (n d : Nat) : Nat × Bool :=
  let q := n / d
  let r := n % d
  let up := match mode with
    | 0 => d < 2 * r || (2 * r = d && q % 2 = 1)
    | 1 => false
    | 2 => r ≠ 0 && !neg
    | 3 => r ≠ 0 && neg
    | _ => d ≤ 2 * r
  (if up then q + 1 else q, r ≠ 0)

/-- n / d as a whole number under a mode, signed. -/
def roundInt (mode : Nat) (neg : Bool) (n d : Nat) : Int × Bool :=
  let r := roundQuot mode neg n d
  (if neg then - (r.1 : Int) else r.1, r.2)

/-- n / (d × 2^e) as a quotient. -/
def scale2 (n d : Nat) (e : Int) : Nat × Nat := if 0 ≤ e then (n, d * 2 ^ e.toNat) else (n * 2 ^ (-e).toNat, d)

/-- The whole square root, found bit by bit from bit k down. -/
def isqrtFrom (n : Nat) : Nat → Nat → Nat
  | 0, r => if (r + 1) * (r + 1) ≤ n then r + 1 else r
  | k + 1, r => isqrtFrom n k (if (r + 2 ^ (k + 1)) * (r + 2 ^ (k + 1)) ≤ n then r + 2 ^ (k + 1) else r)

/-- The whole square root of n. -/
def isqrt (n : Nat) : Nat := isqrtFrom n (n.log2 / 2 + 1) 0

/-! ### Binary formats (R130, R135 to R137) -/

/-- A number as an operation sees it: NaN, infinity, or ± m × 2^e. -/
inductive FV where
  | nan (sig : Bool)
  | inf (neg : Bool)
  | fin (neg : Bool) (m : Nat) (e : Int)
  deriving DecidableEq, Repr

/-- Precision and largest exponent of a binary type; bf16 has the exponent range of f32. -/
def binFmt (t : Nat) : Nat × Nat :=
  match t with
  | 10 => (11, 15)
  | 11 => (8, 127)
  | 12 => (24, 127)
  | _ => (53, 1023)

/-- The operand a raw value spells; with FTZ a subnormal reads as a zero of its sign (R136). -/
def binVal (ftz : Bool) (t v : Nat) : FV :=
  let (p, emax) := binFmt t
  let neg := v.testBit (tyBits t - 1)
  let frac := v % 2 ^ (p - 1)
  let ex := v / 2 ^ (p - 1) % (2 * emax + 2)
  if ex = 2 * emax + 1 then
    (if frac = 0 then .inf neg else .nan (! frac.testBit (p - 2)))
  else if ex = 0 then .fin neg (if ftz then 0 else frac) (1 - (emax : Int) - (p - 1 : Nat))
  else .fin neg (frac + 2 ^ (p - 1)) ((ex : Int) - emax - (p - 1 : Nat))

/-- The canonical quiet NaN of a binary type or d64 (R137). -/
def qnan (t : Nat) : Nat :=
  match t with
  | 10 => 0x7E00
  | 12 => 0x7FC00000
  | 13 => 0x7FF8000000000000
  | _ => 0x7C00000000000000

/-- A signed infinity of a binary type. -/
def binInf (t : Nat) (neg : Bool) : Nat :=
  let (p, emax) := binFmt t
  (if neg then 2 ^ (tyBits t - 1) else 0) + (2 * emax + 1) * 2 ^ (p - 1)

/-- A signed zero of a binary type. -/
def binZero (t : Nat) (neg : Bool) : Nat := if neg then 2 ^ (tyBits t - 1) else 0

/-- Whether an overflow rounds to infinity. -/
def toInf (mode : Nat) (neg : Bool) : Bool :=
  match mode with
  | 1 => false
  | 2 => !neg
  | 3 => neg
  | _ => true

/-- The exponent of the leading bit of n / d, n not 0. -/
def leadExp (n d : Nat) : Int :=
  let l : Int := (n.log2 : Int) - d.log2
  let (a, b) := scale2 n d l
  if b ≤ a then l else l - 1

/-- n / d of a sign rounded to a binary type (R135, R136, R138): overflow, tininess after rounding, FTZ. -/
def roundBin (t mode : Nat) (ftz neg : Bool) (n d : Nat) : VRes :=
  if n = 0 then { v := binZero t neg }
  else
    let (p, emax) := binFmt t
    let mode := if mode = 4 then 0 else mode
    let e1 := leadExp n d - (p - 1 : Nat)
    let emin : Int := 1 - (emax : Int)
    let q1 := scale2 n d e1
    let m1 := (roundQuot mode neg q1.1 q1.2).1
    let lead := if m1 = 2 ^ p then e1 + p else e1 + (p - 1 : Nat)
    let tiny := lead < emin
    let e2 := if e1 < emin - (p - 1 : Nat) then emin - (p - 1 : Nat) else e1
    let q2 := scale2 n d e2
    let (m2, inex) := roundQuot mode neg q2.1 q2.2
    let (m3, e3) := if m2 = 2 ^ p then (2 ^ (p - 1), e2 + 1) else (m2, e2)
    let sign := if neg then 2 ^ (tyBits t - 1) else 0
    if (emax : Int) < e3 + (p - 1 : Nat) ∧ 2 ^ (p - 1) ≤ m3 then
      (if toInf mode neg then { v := binInf t neg, fl := 5 }
       else { v := binInf t neg - 1, fl := 5 })
    else if tiny ∧ ftz then { v := sign, fl := 3 }
    else
      let body := if m3 < 2 ^ (p - 1) then m3 else (e3 + (p - 1 : Nat) + emax).toNat * 2 ^ (p - 1) + (m3 - 2 ^ (p - 1))
      { v := sign + body, fl := if inex then (if tiny then 3 else 1) else 0 }

/-- An integer × 2^e rounded to a binary type; an exact zero takes the sign given. -/
def roundSum (t mode : Nat) (ftz zneg : Bool) (x : Int) (e : Int) : VRes :=
  if x = 0 then { v := binZero t zneg }
  else
    let q := scale2 x.natAbs 1 (-e)
    roundBin t mode ftz (x < 0) q.1 q.2

/-- A signed term at exponent e, as an integer multiple of 2^base. -/
def atExp (neg : Bool) (m : Nat) (e base : Int) : Int :=
  let v : Int := (m * 2 ^ (e - base).toNat : Nat)
  if neg then -v else v

/-- The sum of exact terms (sign, m, e), rounded once. A zero sum has the common sign of its terms, and otherwise is +0,
or −0 under RDN. -/
def sumTerms (t mode : Nat) (ftz : Bool) (l : List (Bool × Nat × Int)) : VRes :=
  let base := l.foldl (fun b x => if x.2.2 < b then x.2.2 else b) (match l with | x :: _ => x.2.2 | [] => 0)
  let s := l.foldl (fun a x => a + atExp x.1 x.2.1 x.2.2 base) 0
  let zneg := if l.all (fun x => x.1) then true else if l.all (fun x => !x.1) then false else mode = 3
  roundSum t mode ftz zneg s base

/-- A product as a term: NaN, infinity or exact. -/
def mulFV (a b : FV) : FV × Nat :=
  match a, b with
  | .nan x, .nan y => (.nan false, if x || y then 16 else 0)
  | .nan x, .inf _ => (.nan false, if x then 16 else 0)
  | .nan x, .fin _ _ _ => (.nan false, if x then 16 else 0)
  | .inf _, .nan y => (.nan false, if y then 16 else 0)
  | .fin _ _ _, .nan y => (.nan false, if y then 16 else 0)
  | .inf x, .inf y => (.inf (x != y), 0)
  | .inf x, .fin y m _ => if m = 0 then (.nan false, 16) else (.inf (x != y), 0)
  | .fin x m _, .inf y => if m = 0 then (.nan false, 16) else (.inf (x != y), 0)
  | .fin x m e, .fin y n f => (.fin (x != y) (m * n) (e + f), 0)

/-- The sum of terms, some of which may be NaN or infinite, rounded once to a binary type. -/
def sumFV (t mode : Nat) (ftz : Bool) (l : List FV) (fl : Nat) : VRes :=
  let sig := l.any (fun x => x = .nan true)
  let fl := fl ||| (if sig then 16 else 0)
  if l.any (fun x => x = .nan true || x = .nan false) then { v := qnan t, fl := fl }
  else if l.any (· = .inf true) && l.any (· = .inf false) then { v := qnan t, fl := fl ||| 16 }
  else if l.any (· = .inf true) then { v := binInf t true, fl := fl }
  else if l.any (· = .inf false) then { v := binInf t false, fl := fl }
  else
    let r := sumTerms t mode ftz (l.filterMap fun x => match x with
      | .fin n m e => some (n, m, e)
      | _ => none)
    { r with fl := r.fl ||| fl }

/-- The negation of a number. -/
def negFV : FV → FV
  | .nan s => .nan s
  | .inf n => .inf (!n)
  | .fin n m e => .fin (!n) m e

/-- A × B + C with one rounding (R135). -/
def fmaFV (t mode : Nat) (ftz : Bool) (a b c : FV) : VRes :=
  let p := mulFV a b
  sumFV t mode ftz [p.1, c] p.2

/-- A × B. -/
def mulBin (t mode : Nat) (ftz : Bool) (a b : FV) : VRes :=
  match mulFV a b with
  | (.nan _, f) => { v := qnan t, fl := f }
  | (.inf n, f) => { v := binInf t n, fl := f }
  | (.fin n m e, _) => let q := scale2 m 1 (-e); roundBin t mode ftz n q.1 q.2

/-- A ÷ B (R138, R144). -/
def divBin (t mode : Nat) (ftz : Bool) (a b : FV) : VRes :=
  match a, b with
  | .nan x, .nan y => { v := qnan t, fl := if x || y then 16 else 0 }
  | .nan x, _ => { v := qnan t, fl := if x then 16 else 0 }
  | _, .nan y => { v := qnan t, fl := if y then 16 else 0 }
  | .inf _, .inf _ => { v := qnan t, fl := 16 }
  | .inf x, .fin y _ _ => { v := binInf t (x != y) }
  | .fin x _ _, .inf y => { v := binZero t (x != y) }
  | .fin x m e, .fin y n f =>
    if n = 0 then (if m = 0 then { v := qnan t, fl := 16 } else { v := binInf t (x != y), fl := 8 })
    else if m = 0 then { v := binZero t (x != y) }
    else let q := scale2 m n (f - e); roundBin t mode ftz (x != y) q.1 q.2

/-- √A: the root is taken to far more bits than the format holds, and a remainder is kept as a sticky bit. -/
def sqrtBin (t mode : Nat) (ftz : Bool) (a : FV) : VRes :=
  match a with
  | .nan x => { v := qnan t, fl := if x then 16 else 0 }
  | .inf true => { v := qnan t, fl := 16 }
  | .inf false => { v := binInf t false }
  | .fin neg m e =>
    if m = 0 then { v := binZero t neg }
    else if neg then { v := qnan t, fl := 16 }
    else
      let h : Int := e / 2 - 60
      let n := m * 2 ^ (e - 2 * h).toNat
      let r := isqrt n
      let sticky := if r * r = n then 0 else 1
      let q := scale2 (2 * r + sticky) 1 (1 - h)
      roundBin t mode ftz false q.1 q.2

/-- Order of two numbers that are not NaN; equal zeros of different sign are equal. -/
def cmpFV (a b : FV) : Ordering :=
  match a, b with
  | .inf x, .inf y => if x = y then .eq else if x then .lt else .gt
  | .inf x, _ => if x then .lt else .gt
  | _, .inf y => if y then .gt else .lt
  | .fin x m e, .fin y n f =>
    let base := if e < f then e else f
    compare (atExp x m e base) (atExp y n f base)
  | _, _ => .eq

/-- Whether a number is a NaN, and whether it signals. -/
def FV.isNan : FV → Bool
  | .nan _ => true
  | _ => false
/-- See isNan. -/
def FV.isSig : FV → Bool
  | .nan s => s
  | _ => false
/-- The sign of a number. -/
def FV.neg : FV → Bool
  | .nan _ => false
  | .inf n => n
  | .fin n _ _ => n

/-- A number that is exact in a binary type, re-encoded there. -/
def encFV (t mode : Nat) (ftz : Bool) (a : FV) : VRes :=
  match a with
  | .nan s => { v := qnan t, fl := if s then 16 else 0 }
  | .inf n => { v := binInf t n }
  | .fin n m e => let q := scale2 m 1 (-e); roundBin t mode ftz n q.1 q.2

/-- A comparison under IMM (R131, R137). -/
def condOf (imm : Nat) (o : Ordering) : Bool :=
  match imm with
  | 0 => o = .eq
  | 1 => o ≠ .eq
  | 2 => o = .lt
  | 3 => o ≠ .gt
  | 4 => o = .gt
  | _ => o ≠ .lt

/-- CMP or DCMP of numbers (R137). -/
def cmpRes (imm : Nat) (a b : FV) (o : Ordering) : VRes :=
  if a.isNan || b.isNan then
    { v := if imm = 1 then 1 else 0, fl := if 2 ≤ imm || a.isSig || b.isSig then 16 else 0 }
  else { v := b2n (condOf imm o) }

/-- MIN (or MAX) of two binary numbers (R137): NaN if either is, −0 below +0. -/
def minBin (t : Nat) (mx : Bool) (a b : FV) : VRes :=
  if a.isNan || b.isNan then { v := qnan t, fl := if a.isSig || b.isSig then 16 else 0 }
  else
    let aFirst := match cmpFV a b with
      | .lt => true
      | .gt => false
      | .eq => a.neg || !b.neg
    encFV t 0 false (if aFirst != mx then a else b)

/-! ### Decimal64 (R139) -/

/-- A decimal64 number: NaN, infinity, or ± c × 10^q. -/
def decVal (v : Nat) : FV :=
  let neg := v.testBit 63
  if v / 2 ^ 58 % 32 = 31 then .nan (v.testBit 57)
  else if v / 2 ^ 58 % 32 = 30 then .inf neg
  else
    let (c, ex) : Nat × Nat :=
      if v / 2 ^ 61 % 4 = 3 then (2 ^ 53 + v % 2 ^ 51, v / 2 ^ 51 % 1024) else (v % 2 ^ 53, v / 2 ^ 53 % 1024)
    .fin neg (if 10 ^ 16 ≤ c then 0 else c) ((ex : Int) - 398)

/-- The canonical encoding of ± c × 10^q, for c below 10^16 and q in range. -/
def encDec (neg : Bool) (c : Nat) (q : Int) : Nat :=
  let ex := (q + 398).toNat
  (if neg then 2 ^ 63 else 0) +
    (if c < 2 ^ 53 then ex * 2 ^ 53 + c else 3 * 2 ^ 61 + ex * 2 ^ 51 + (c - 2 ^ 53))

/-- A signed decimal infinity. -/
def decInf (neg : Bool) : Nat := if neg then 0xF800000000000000 else 0x7800000000000000

/-- The number of decimal digits of n (0 for 0), for n below 10^fuel. -/
def digitsFrom : Nat → Nat → Nat
  | 0, _ => 0
  | f + 1, n => if n = 0 then 0 else digitsFrom f (n / 10) + 1

/-- The number of decimal digits of n. -/
def digits10 (n : Nat) : Nat := digitsFrom (n.log2 / 3 + 2) n

/-- Move the exponent of an exact result towards the preferred one, while the coefficient allows. -/
def toward (pref : Int) : Nat → Nat → Int → Nat × Int
  | 0, c, e => (c, e)
  | f + 1, c, e =>
    if pref < e ∧ -398 < e ∧ c * 10 < 10 ^ 16 then toward pref f (c * 10) (e - 1)
    else if e < pref ∧ e < 369 ∧ c % 10 = 0 then toward pref f (c / 10) (e + 1)
    else (c, e)

/-- ± c × 10^q rounded to decimal64 with a preferred exponent (R135, R139): 16 digits, clamping, overflow, tininess after
rounding. -/
def roundDec (mode : Nat) (neg : Bool) (c : Nat) (q pref : Int) : VRes :=
  if c = 0 then { v := encDec neg 0 (clampI (-398) 369 pref) }
  else
    let nd : Int := digits10 c
    let e0 := if q < q + nd - 16 then q + nd - 16 else q
    let e := if e0 < -398 then -398 else e0
    let (m, inex) := roundQuot mode neg c (10 ^ (e - q).toNat)
    let (m, e) := if m = 10 ^ 16 then (10 ^ 15, e + 1) else (m, e)
    let full := (roundQuot mode neg c (10 ^ (e0 - q).toNat)).1
    let lead := if full = 10 ^ 16 then e0 + 16 else q + nd - 1
    let tiny := lead < -383
    let (m, e) := if inex then (m, e) else toward pref 800 m e
    let (m, e) := if 369 < e then toward 369 16 m e else (m, e)
    if 369 < e then
      (if toInf mode neg then { v := decInf neg, fl := 5 } else { v := encDec neg (10 ^ 16 - 1) 369, fl := 5 })
    else { v := encDec neg m e, fl := if inex then (if tiny then 3 else 1) else 0 }

/-- A decimal term as a multiple of 10^base. -/
def atExp10 (neg : Bool) (m : Nat) (e base : Int) : Int :=
  let v : Int := (m * 10 ^ (e - base).toNat : Nat)
  if neg then -v else v

/-- A + B of decimal64. -/
def addDec (mode : Nat) (a b : FV) : VRes :=
  let sig := if a.isSig || b.isSig then 16 else 0
  match a, b with
  | .nan _, _ => { v := qnan 14, fl := sig }
  | _, .nan _ => { v := qnan 14, fl := sig }
  | .inf x, .inf y => if x = y then { v := decInf x } else { v := qnan 14, fl := 16 }
  | .inf x, _ => { v := decInf x }
  | _, .inf y => { v := decInf y }
  | .fin x m e, .fin y n f =>
    let base := if e < f then e else f
    let s := atExp10 x m e base + atExp10 y n f base
    let neg := if s = 0 then (if x = y then x else mode = 3) else decide (s < 0)
    roundDec mode neg s.natAbs base base

/-- A × B of decimal64. -/
def mulDec (mode : Nat) (a b : FV) : VRes :=
  match mulFV a b with
  | (.nan _, f) => { v := qnan 14, fl := f }
  | (.inf n, f) => { v := decInf n, fl := f }
  | (.fin n m e, _) => roundDec mode n m e e

/-- A rounded to the exponent of B (R139). -/
def quantDec (mode : Nat) (a b : FV) : VRes :=
  match a, b with
  | .nan x, y => { v := qnan 14, fl := if x || y.isSig then 16 else 0 }
  | _, .nan y => { v := qnan 14, fl := if y then 16 else 0 }
  | .inf x, .inf _ => { v := decInf x }
  | .inf _, _ => { v := qnan 14, fl := 16 }
  | _, .inf _ => { v := qnan 14, fl := 16 }
  | .fin x m e, .fin _ _ f =>
    let (c, inex) := if f ≤ e then (m * 10 ^ (e - f).toNat, false) else roundQuot mode x m (10 ^ (f - e).toNat)
    if 10 ^ 16 ≤ c then { v := qnan 14, fl := 16 } else { v := encDec x c f, fl := if inex then 1 else 0 }

/-- Order of two decimal numbers that are not NaN. -/
def cmpDec (a b : FV) : Ordering :=
  match a, b with
  | .fin x m e, .fin y n f =>
    let base := if e < f then e else f
    compare (atExp10 x m e base) (atExp10 y n f base)
  | _, _ => cmpFV a b

/-- A decimal number re-encoded. -/
def encDecFV (a : FV) : VRes :=
  match a with
  | .nan s => { v := qnan 14, fl := if s then 16 else 0 }
  | .inf n => { v := decInf n }
  | .fin n m e => { v := encDec n m e }

/-- DMIN (or DMAX): of two equal operands, MIN returns the one that totalOrder puts first (R137). -/
def minDec (mx : Bool) (a b : FV) : VRes :=
  if a.isNan || b.isNan then { v := qnan 14, fl := if a.isSig || b.isSig then 16 else 0 }
  else
    let aFirst := match cmpDec a b with
      | .lt => true
      | .gt => false
      | .eq => match a, b with
        | .fin x _ e, .fin y _ f => if x = y then (if x then decide (f ≤ e) else decide (e ≤ f)) else x
        | _, _ => true
    encDecFV (if aFirst != mx then a else b)

end Sys2Proof.Machine
end

