-- ==== Sys2Proof/Machine/VOps.lean ====
section
/-! DEFINITION. The operation set of the bonds (04_bonds.md): stage words, operand types, every operation, conversions,
reductions and checks. -/

namespace Sys2Proof.Machine

open Sys2Proof

/-- A stage word (R125). -/
structure Stage where
  op : Nat
  a : Nat
  b : Nat
  c : Nat
  rty : Nat
  sat : Bool
  imm : Nat
  deriving DecidableEq, Repr

/-- The fields of a stage word. -/
def stageOf (w : W32) : Stage :=
  let n := w.toNat
  { op := n / 2 ^ 24, a := n / 2 ^ 20 % 16, b := n / 2 ^ 16 % 16, c := n / 2 ^ 12 % 16, rty := n / 256 % 16,
    sat := n.testBit 7, imm := n % 16 }

/-! ### Integer and Q operations (R132 to R134, R143) -/

/-- The rounding mode of an operation that is not decimal: RND 4 acts as RNE. -/
def rne4 (mode : Nat) : Nat := if mode = 4 then 0 else mode

/-- The integer result of DIV or REM (R132). -/
def intDiv (t : Nat) (sat rem : Bool) (a b : Int) : VRes :=
  if b = 0 then
    { v := unsigned (tyBits t) (if rem then a else if a < 0 then tyMin t else tyMax t), fl := 8 }
  else if rem then { v := unsigned (tyBits t) (a.tmod b) }
  else narrow t sat (a.tdiv b)

/-- SHL (R133). -/
def shlOp (t : Nat) (sat : Bool) (a cnt : Nat) : VRes :=
  if tyBits t ≤ cnt then { v := 0 }
  else
    let x := intVal t a * (2 ^ cnt : Nat)
    if sat || isQ t then narrow t true x else { v := unsigned (tyBits t) x }

/-- SAR (R133). -/
def sarOp (t a cnt : Nat) : VRes :=
  let x := intVal t a
  if tyBits t ≤ cnt then { v := unsigned (tyBits t) (if x < 0 then -1 else 0) }
  else { v := unsigned (tyBits t) (x.fdiv (2 ^ cnt : Nat)) }

/-- The rounded quotient of an integer by 2^cnt. -/
def shiftRound (mode : Nat) (x : Int) (cnt width : Nat) : Int × Bool :=
  if width ≤ cnt then
    (match mode with
     | 2 => if 0 < x then 1 else 0
     | 3 => if x < 0 then -1 else 0
     | _ => 0, x ≠ 0)
  else roundInt mode (x < 0) x.natAbs (2 ^ cnt)

/-- An exact or rounded integer narrowed to a type: V alone where it does not fit, NX where it was rounded. -/
def fitRound (t : Nat) (sat : Bool) (r : Int × Bool) (flag : Nat := 32) : VRes :=
  let n := narrow t sat r.1 flag
  if n.fl ≠ 0 then n else { n with fl := if r.2 then 1 else 0 }

/-- SHRR (R131, R133, R134): the raw integer A ÷ 2^B rounded into the result type. Log entry 24. -/
def shrrOp (mode t rt : Nat) (sat : Bool) (a cnt : Nat) : VRes :=
  fitRound rt (sat || isQ t || isQ rt) (shiftRound (rne4 mode) (intVal t a) cnt (tyBits t))

/-- MULQ (R134). -/
def mulqOp (mode t a b : Nat) : VRes :=
  let x := intVal t a * intVal t b
  fitRound t true (roundInt (rne4 mode) (x < 0) x.natAbs (2 ^ (tyBits t - 1)))

/-- The result type of MULW. -/
def mulwTy (t : Nat) : Option Nat :=
  match t with
  | 0 => some 2 | 1 => some 3 | 2 => some 4 | 3 => some 5 | 4 => some 6 | 5 => some 7 | 8 => some 9
  | _ => none

/-- MULW: full product; a q15 product is q31 and saturates. -/
def mulwOp (t a b : Nat) : VRes :=
  let x := intVal t a * intVal t b
  match mulwTy t with
  | some r => if t = 8 then narrow r true (2 * x) else narrow r false x
  | none => { v := 0 }

/-- Part j of a tuple of elements of w bits. -/
def part (w v j : Nat) : Nat := v / 2 ^ (w * j) % 2 ^ w

/-- DOT4 and DOT2 (R131): products of signed parts. -/
def dotOp (t n : Nat) (sat : Bool) (a b : Nat) (c : Int) : VRes :=
  let s := (upto n).foldl (fun s j => s + signed (tyBits t) (part (tyBits t) a j) * signed (tyBits t) (part (tyBits t) b j)) c
  narrow 4 (sat || isQ t) s

/-! ### Bits -/

/-- The low n bits of v in reverse order. -/
def bitRev (n v : Nat) : Nat := (upto n).foldl (fun r i => 2 * r + v / 2 ^ i % 2) 0

/-- The n bytes of v in reverse order. -/
def byteRev (n v : Nat) : Nat := (upto n).foldl (fun r i => 256 * r + v / 256 ^ i % 256) 0

/-- a AND NOT b over n bits. -/
def andNot (n a b : Nat) : Nat := a &&& (2 ^ n - 1 - b % 2 ^ n)

/-! ### Conversions (R142, R145) -/

/-- A number as a quotient with its sign: (sign, n, d). A binary number is m × 2^e, a decimal one m × 10^e. -/
def quotOf (dec neg : Bool) (m : Nat) (e : Int) : Bool × Nat × Nat :=
  if 0 ≤ e then (neg, m * (if dec then 10 else 2) ^ e.toNat, 1) else (neg, m, (if dec then 10 else 2) ^ (-e).toNat)

/-- Binary or d64 to integer: NaN gives 0 and IV, out of range the nearest limit and IV. -/
def toIntOp (mode rt : Nat) (dec : Bool) (a : FV) : VRes :=
  match a with
  | .nan _ => { v := 0, fl := 16 }
  | .inf n => { v := unsigned (tyBits rt) (if n then tyMin rt else tyMax rt), fl := 16 }
  | .fin n m e => let q := quotOf dec n m e; fitRound rt true (roundInt mode n q.2.1 q.2.2) 16

/-- Binary or d64 to Q: out of range saturates and sets V. -/
def toQOp (mode rt : Nat) (dec : Bool) (a : FV) : VRes :=
  match a with
  | .nan _ => { v := 0, fl := 16 }
  | .inf n => { v := unsigned (tyBits rt) (if n then tyMin rt else tyMax rt), fl := 32 }
  | .fin n m e =>
    let q := quotOf dec n m e
    fitRound rt true (roundInt mode n (q.2.1 * 2 ^ (tyBits rt - 1)) q.2.2)

/-- A signed decimal coefficient rounded to d64, with preferred exponent 0. -/
def toDec (mode : Nat) (neg : Bool) (c : Nat) (q : Int) : VRes := roundDec mode neg c q 0

/-- A binary number to d64. -/
def binToDec (mode : Nat) (a : FV) : VRes :=
  match a with
  | .nan s => { v := qnan 14, fl := if s then 16 else 0 }
  | .inf n => { v := decInf n }
  | .fin n m e => if 0 ≤ e then toDec mode n (m * 2 ^ e.toNat) 0 else toDec mode n (m * 5 ^ (-e).toNat) e

/-- A decimal number to binary. -/
def decToBin (rt mode : Nat) (ftz : Bool) (a : FV) : VRes :=
  match a with
  | .nan s => { v := qnan rt, fl := if s then 16 else 0 }
  | .inf n => { v := binInf rt n }
  | .fin n m e => let q := quotOf true n m e; roundBin rt mode ftz n q.2.1 q.2.2

/-- CVT. Where neither side is d64, or the result is binary, RND 4 acts as RNE (R76, R135). Log entry 25. -/
def cvtOp (mode : Nat) (ftz sat : Bool) (t rt a : Nat) : VRes :=
  let x := intVal t a
  let neg := decide (x < 0)
  if isInt t then
    if isInt rt then narrow rt sat x
    else if isQ rt then
      (if x = 0 then { v := 0 } else if x = -1 then { v := unsigned (tyBits rt) (tyMin rt) }
       else { v := unsigned (tyBits rt) (if neg then tyMin rt else tyMax rt), fl := 32 })
    else if isD64 rt then toDec mode neg x.natAbs 0
    else roundSum rt (rne4 mode) ftz false x 0
  else if isQ t then
    let k := tyBits t - 1
    if isInt rt then fitRound rt true (roundInt (rne4 mode) neg x.natAbs (2 ^ k))
    else if isQ rt then
      (if t = rt then { v := a }
       else if t = 8 then { v := unsigned 32 (x * 65536) }
       else fitRound 8 true (roundInt (rne4 mode) neg x.natAbs 65536))
    else if isD64 rt then toDec mode neg (x.natAbs * 5 ^ k) (-(k : Int))
    else roundSum rt (rne4 mode) ftz false x (-(k : Int))
  else if isD64 t then
    let d := decVal a
    if isInt rt then toIntOp mode rt true d
    else if isQ rt then toQOp mode rt true d
    else if isD64 rt then encDecFV d
    else decToBin rt (rne4 mode) ftz d
  else
    let d := binVal ftz t a
    if isInt rt then toIntOp (rne4 mode) rt false d
    else if isQ rt then toQOp (rne4 mode) rt false d
    else if isD64 rt then binToDec mode d
    else encFV rt (rne4 mode) ftz d

/-- RINT (R135). -/
def rintOp (mode : Nat) (ftz : Bool) (t a : Nat) : VRes :=
  if isD64 t then
    match decVal a with
    | .fin n m e =>
      if 0 ≤ e then { v := encDec n m e }
      else let r := roundQuot mode n m (10 ^ (-e).toNat); { v := encDec n r.1 0, fl := if r.2 then 1 else 0 }
    | d => encDecFV d
  else
    match binVal ftz t a with
    | .fin n m e =>
      if 0 ≤ e then encFV t 0 ftz (.fin n m e)
      else
        let r := roundQuot (rne4 mode) n m (2 ^ (-e).toNat)
        { (encFV t 0 false (.fin n r.1 0)) with fl := if r.2 then 1 else 0 }
    | d => encFV t 0 ftz d

/-! ### One operation (R131) -/

/-- The result of an operation code on operands a, b, c of types ta, tb, tc, with result type rt, at element index i. -/
def evalOp (mode : Nat) (ftz : Bool) (st : Stage) (rt ta a tb b tc c i : Nat) : VRes :=
  let n := tyBits ta
  let x := intVal ta a
  let y := intVal tb b
  let fa := binVal ftz ta a
  let fb := binVal ftz tb b
  let fc := binVal ftz tc c
  let sat := st.sat || isQ ta
  let m := rne4 mode
  let ct := if st.c = 0 then none else some c
  match st.op with
  | 0x10 => narrow ta sat (x + y)
  | 0x11 => narrow ta sat (x - y)
  | 0x12 => if isBin ta then encFV ta 0 ftz (negFV fa) else narrow ta sat (-x)
  | 0x13 =>
    if isBin ta then encFV ta 0 ftz (if fa.neg then negFV fa else fa) else narrow ta sat (if x < 0 then -x else x)
  | 0x14 => if isBin ta then minBin ta false fa fb else { v := if x ≤ y then a else b }
  | 0x15 => if isBin ta then minBin ta true fa fb else { v := if y ≤ x then a else b }
  | 0x16 => { v := a &&& b }
  | 0x17 => { v := a ||| b }
  | 0x18 => { v := a ^^^ b }
  | 0x19 => { v := andNot n a b }
  | 0x1A => shlOp ta st.sat a b
  | 0x1B => { v := if n ≤ b then 0 else a / 2 ^ b }
  | 0x1C => sarOp ta a b
  | 0x1D => if isBin ta then cmpRes st.imm fa fb (cmpFV fa fb) else { v := b2n (condOf st.imm (compare x y)) }
  | 0x1E => { v := if c ≠ 0 then a else b }
  | 0x1F => { v := a }
  | 0x20 => narrow ta st.sat (x * y)
  | 0x21 => { v := unsigned n ((x * y).fdiv (2 ^ n : Nat)) }
  | 0x22 => mulwOp ta a b
  | 0x23 => mulqOp mode ta a b
  | 0x24 => dotOp 0 4 st.sat a b (match ct with | some v => signed 32 v | none => 0)
  | 0x25 => dotOp ta 2 st.sat a b (match ct with | some v => signed 32 v | none => 0)
  | 0x26 => narrow ta st.sat (x * y + intVal tc c)
  | 0x30 => sumFV ta m ftz [fa, fb] 0
  | 0x31 => sumFV ta m ftz [fa, negFV fb] 0
  | 0x32 => mulBin ta m ftz fa fb
  | 0x33 => fmaFV ta m ftz fa fb fc
  | 0x34 => fmaFV ta m ftz fa fb (negFV fc)
  | 0x35 => fmaFV ta m ftz (negFV fa) fb fc
  | 0x36 =>
    let h (j v : Nat) : FV := binVal ftz ta (part 16 v j)
    let p := mulFV (h 0 a) (h 0 b)
    let q := mulFV (h 1 a) (h 1 b)
    sumFV 12 m ftz ([p.1, q.1] ++ (match ct with | some v => [binVal ftz 12 v] | none => [])) (p.2 ||| q.2)
  | 0x40 => if isBin ta then divBin ta m ftz fa fb else intDiv ta st.sat false x y
  | 0x41 => intDiv ta st.sat true x y
  | 0x42 => sqrtBin ta m ftz fa
  | 0x50 => addDec mode (decVal a) (decVal b)
  | 0x51 => addDec mode (decVal a) (negFV (decVal b))
  | 0x52 => mulDec mode (decVal a) (decVal b)
  | 0x53 => quantDec mode (decVal a) (decVal b)
  | 0x54 => cmpRes st.imm (decVal a) (decVal b) (cmpDec (decVal a) (decVal b))
  | 0x55 => minDec false (decVal a) (decVal b)
  | 0x56 => minDec true (decVal a) (decVal b)
  | 0x57 => encDecFV (negFV (decVal a))
  | 0x58 => encDecFV (if (decVal a).neg then negFV (decVal a) else decVal a)
  | 0x70 => cvtOp mode ftz st.sat ta rt a
  | 0x72 => rintOp mode ftz ta a
  | 0x73 => shrrOp mode ta rt st.sat a b
  | 0x90 => { v := byteRev (tySize ta) a }
  | 0x91 => { v := bitRev n a }
  | 0x92 => { v := bitRev (st.imm + 1) i }
  | _ => { v := 0 }

/-! ### Reductions (R107, R140) -/

/-- An element taken into the accumulator type: raw integers are extended, binary and decimal numbers converted exactly. -/
def leafOf (ftz : Bool) (t acc v : Nat) : VRes :=
  if isD64 t then encDecFV (decVal v)
  else if isBin t then encFV acc 0 ftz (binVal ftz t v)
  else { v := unsigned (tyBits acc) (intVal t v) }

/-- The combine of a reduction, lower half as left operand. -/
def combine (mode : Nat) (ftz sat : Bool) (op t a b : Nat) : VRes :=
  let x := intVal t a
  let y := intVal t b
  match op with
  | 0x60 =>
    if isD64 t then addDec mode (decVal a) (decVal b)
    else if isBin t then sumFV t (rne4 mode) ftz [binVal ftz t a, binVal ftz t b] 0
    else narrow t (sat || isQ t) (x + y)
  | 0x61 =>
    if isD64 t then minDec false (decVal a) (decVal b)
    else if isBin t then minBin t false (binVal ftz t a) (binVal ftz t b) else { v := if x ≤ y then a else b }
  | 0x62 =>
    if isD64 t then minDec true (decVal a) (decVal b)
    else if isBin t then minBin t true (binVal ftz t a) (binVal ftz t b) else { v := if y ≤ x then a else b }
  | 0x63 => { v := a &&& b }
  | 0x64 => { v := a ||| b }
  | _ => { v := a ^^^ b }

/-- Partials of a prefix, least significant set bit first, with the flags raised in forming them. -/
abbrev Parts := List (Nat × W64)

/-- The next leaf enters the tree: equal levels combine, the older as left operand. -/
def pushPart (cmb : Nat → Nat → VRes) : Nat → Nat × Nat → Parts → Parts × Nat
  | 0, x, ps => ((x.1, BitVec.ofNat 64 x.2) :: ps, 0)
  | f + 1, x, ps =>
    match ps with
    | (l, w) :: qs =>
      if l = x.1 then
        let r := cmb w.toNat x.2
        let t := pushPart cmb f (l + 1, r.v) qs
        (t.1, t.2 ||| r.fl)
      else ((x.1, BitVec.ofNat 64 x.2) :: ps, 0)
    | [] => ([(x.1, BitVec.ofNat 64 x.2)], 0)

/-- The fold of the partials of a prefix (R140): from the least significant set bit, each more significant partial is the
left operand. -/
def foldParts (cmb : Nat → Nat → VRes) : Parts → VRes
  | [] => { v := 0 }
  | (_, w) :: ps =>
    ps.foldl (fun r p => let x := cmb p.2.toNat r.v; { v := x.v, fl := x.fl ||| r.fl }) { v := w.toNat }

/-! ### Checks over bytes (R141) -/

/-- One bit of a reflected CRC-32. -/
def crcBitR (poly c : Nat) : Nat := if c % 2 = 1 then (c / 2) ^^^ poly else c / 2

/-- One byte into a reflected CRC-32 register (poly in reflected form). -/
def crcByteR (poly c b : Nat) : Nat := (upto 8).foldl (fun c _ => crcBitR poly c) (c ^^^ b)

/-- One byte into a CRC-16 register, polynomial 0x1021, not reflected. -/
def crc16Byte (c b : Nat) : Nat :=
  (upto 8).foldl (fun c _ => if c.testBit 15 then (2 * c % 65536) ^^^ 0x1021 else 2 * c % 65536) (c ^^^ (b * 256))

/-- CRC-16 over bytes from an initial register. -/
def crc16Of (init : Nat) (l : List Byte) : Nat := l.foldl (fun c b => crc16Byte c b.toNat) init

/-- CRC-32 register (IEEE 802.3) over bytes, without the final XOR. -/
def crc32Reg (init : Nat) (l : List Byte) : Nat := l.foldl (fun c b => crcByteR 0xEDB88320 c b.toNat) init

/-- CRC-32 of bytes (R16). -/
def crc32Of (l : List Byte) : Nat := crc32Reg 0xFFFFFFFF l ^^^ 0xFFFFFFFF

/-- The initial register of a CRC stage: the operation's own, or from K0 with IMM bit 0. -/
def checkInit (op imm : Nat) (k0 : Nat) : Nat :=
  let w := if op = 0x80 ∨ op = 0x83 then 16 else 32
  if imm % 2 = 1 then k0 % 2 ^ w
  else if op = 0x83 ∨ op = 0x84 then 0 else 2 ^ w - 1

/-- One Fletcher word of w bits into both sums. -/
def fletStep (w r x : Nat) : Nat :=
  let m := 2 ^ w - 1
  let a := (r % 2 ^ w + x) % m
  a + ((r / 2 ^ w + a) % m) * 2 ^ w

/-- An element of s bytes into the register of a CRC stage. -/
def checkElem (op s r v : Nat) : Nat :=
  match op with
  | 0x80 => (upto s).foldl (fun c j => crc16Byte c (v / 256 ^ j % 256)) r
  | 0x81 => (upto s).foldl (fun c j => crcByteR 0xEDB88320 c (v / 256 ^ j % 256)) r
  | 0x82 => (upto s).foldl (fun c j => crcByteR 0x82F63B78 c (v / 256 ^ j % 256)) r
  | 0x83 => (upto s).foldl (fun c j => fletStep 8 c (v / 256 ^ j % 256)) r
  | _ => (upto (s / 2)).foldl (fun c j => fletStep 16 c (v / 65536 ^ j % 65536)) r

/-- The result of a CRC stage from its register. -/
def checkResult (op imm r : Nat) : Nat :=
  if (op = 0x81 ∨ op = 0x82) ∧ imm / 2 % 2 = 0 then r ^^^ 0xFFFFFFFF else r

/-! ### Types of a bond (R126, R127, R130, R439) -/

/-- A reduction. -/
def isRed (op : Nat) : Bool := 0x60 ≤ op && op ≤ 0x65
/-- A CRC unit operation. -/
def isChk (op : Nat) : Bool := 0x80 ≤ op && op ≤ 0x84
/-- A tuple operation. -/
def isDot (op : Nat) : Bool := op = 0x24 || op = 0x25 || op = 0x36
/-- A shift, whose B is a count. -/
def isShift (op : Nat) : Bool := op = 0x1A || op = 0x1B || op = 0x1C || op = 0x73
/-- A DEC operation. -/
def isDec (op : Nat) : Bool := 0x50 ≤ op && op ≤ 0x58
/-- The operations of the table. -/
def opKnown (op : Nat) : Bool :=
  (0x10 ≤ op && op ≤ 0x1F) || (0x20 ≤ op && op ≤ 0x26) || (0x30 ≤ op && op ≤ 0x36) || (0x40 ≤ op && op ≤ 0x42) ||
  isDec op || isRed op || op = 0x70 || op = 0x72 || op = 0x73 || isChk op || (0x90 ≤ op && op ≤ 0x92)

/-- The unit an operation uses (R121): 0 ALU, 1 MUL, 2 FMA, 3 DIV, 4 DEC, 5 RED, 6 CNV, 7 CRC, 8 PERM. -/
def opUnit (op : Nat) : Nat := op / 16 - 1

/-- Whether an operation uses operands A, B, C (R127 rule 10); C of the dot products may be absent. -/
def opUses (op : Nat) : Bool × Bool × Bool :=
  if op = 0x92 then (false, false, false)
  else if op = 0x12 || op = 0x13 || op = 0x1F || op = 0x42 || op = 0x57 || op = 0x58 || op = 0x70 || op = 0x72 ||
      op = 0x90 || op = 0x91 || isRed op || isChk op then (true, false, false)
  else if op = 0x1E || op = 0x26 || op = 0x33 || op = 0x34 || op = 0x35 || isDot op then (true, true, true)
  else (true, true, false)

/-- The unsigned integer type of the size of a type. -/
def uOfSize (t : Nat) : Nat :=
  match tySize t with
  | 1 => 1 | 2 => 3 | 4 => 5 | _ => 7

/-- Types a source may have: of a stream, an earlier stage, the pallet, the index; none for a constant or no source. -/
def srcTy (ts : List Nat) (stages : List Nat) (pal : Nat) (src : Nat) : Option Nat :=
  if 1 ≤ src ∧ src ≤ 3 then ts[src - 1]?
  else if 4 ≤ src ∧ src ≤ 6 then stages[src - 4]?
  else if src = 7 then some pal
  else if src = 12 then some 5
  else none

/-- The type of operand number pos (0 A, 1 B, 2 C) of a stage, a constant by R439; d0 is the type of D0 and last whether the
stage is the last. -/
def operandTy (ts stages : List Nat) (pal d0 : Nat) (last : Bool) (st : Stage) (pos : Nat) : Option Nat :=
  let src := if pos = 0 then st.a else if pos = 1 then st.b else st.c
  let look (s : Nat) : Option Nat := srcTy ts stages pal s
  if 8 ≤ src ∧ src ≤ 11 then
    let gen : Option Nat :=
      match look st.a, look st.b, look st.c with
      | some t, _, _ => some t
      | none, some t, _ => some t
      | none, none, some t => some t
      | none, none, none => if st.rty ≠ 15 then some st.rty else if last then some d0 else none
    if isDec st.op then some 14
    else if pos = 2 ∧ (st.op = 0x24 ∨ st.op = 0x25) then some 4
    else if pos = 2 ∧ st.op = 0x36 then some 12
    else if pos = 1 ∧ isShift st.op then
      (match look st.a with
       | some t => some (uOfSize t)
       | none => match look st.c with
         | some t => some (uOfSize t)
         | none => (if st.rty ≠ 15 then some st.rty else if last then some d0 else none).map uOfSize)
    else if pos = 2 ∧ st.op = 0x1E then some 7
    else gen
  else look src

/-- The declared result type of a stage (R125). -/
def declTy (ts stages : List Nat) (pal d0 : Nat) (last : Bool) (st : Stage) : Option Nat :=
  if st.rty ≠ 15 then some st.rty
  else if last then some d0
  else operandTy ts stages pal d0 last st 0

/-- Whether an operation is defined on operand types a, b, c with result type r (R131, R140). -/
def opDefined (op : Nat) (a b c : Option Nat) (r : Nat) : Bool :=
  let iq (t : Nat) : Bool := isInt t || isQ t
  let num (t : Nat) : Bool := iq t || isBin t
  let ty (o : Option Nat) (p : Nat → Bool) : Bool := match o with | some t => p t | none => false
  let ab := a.isSome && a = b
  let same := a = some r
  if op = 0x10 || op = 0x11 then ab && ty a iq && same
  else if op = 0x12 || op = 0x13 then ty a num && same
  else if op = 0x14 || op = 0x15 then ab && ty a num && same
  else if 0x16 ≤ op && op ≤ 0x19 then ty a (fun t => t < 15) && ty b (fun t => tySize t = tySize (a.getD 15)) && same
  else if op = 0x1A || op = 0x1B || op = 0x1C then ty a iq && ty b isInt && same
  else if op = 0x1D then ab && ty a num && isInt r
  else if op = 0x1E then ab && ty a (fun t => t < 15) && ty c isInt && same
  else if op = 0x1F || op = 0x90 then ty a (fun t => t < 15) && same
  else if op = 0x20 || op = 0x21 then ab && ty a isInt && same
  else if op = 0x22 then ab && ty a (fun t => mulwTy t = some r)
  else if op = 0x23 then ab && ty a isQ && same
  else if op = 0x24 then a = some 0 && b = some 0 && (c = none || c = some 4) && r = 4
  else if op = 0x25 then ab && (a = some 2 || a = some 8) && (c = none || c = some 4) && r = 4
  else if op = 0x26 then ab && a = c && ty a isInt && same
  else if 0x30 ≤ op && op ≤ 0x32 then ab && ty a isBin && same
  else if 0x33 ≤ op && op ≤ 0x35 then ab && a = c && ty a isBin && same
  else if op = 0x36 then ab && (a = some 10 || a = some 11) && (c = none || c = some 12) && r = 12
  else if op = 0x40 then ab && ty a (fun t => isInt t || isBin t) && same
  else if op = 0x41 then ab && ty a isInt && same
  else if op = 0x42 then ty a isBin && same
  else if op = 0x54 then a = some 14 && b = some 14 && isInt r
  else if op = 0x57 || op = 0x58 then a = some 14 && r = 14
  else if isDec op then a = some 14 && b = some 14 && r = 14
  else if op = 0x63 || op = 0x64 || op = 0x65 then
    ty a (fun t => isInt t && isInt r && tySize t ≤ tySize r)
  else if isRed op then
    ty a (fun t => (iq t && iq r && tySize t ≤ tySize r) || (isBin t && isBin r && tySize t ≤ tySize r) || (t = 14 && r = 14))
  else if op = 0x70 then ty a (fun t => t < 15) && r < 15 && r ≠ 11
  else if op = 0x72 then ty a (fun t => isBin t || t = 14) && same
  else if op = 0x73 then ty a iq && ty b isInt && iq r
  else if op = 0x80 || op = 0x83 then ty a (fun t => t < 15) && r = 3
  else if op = 0x81 || op = 0x82 then ty a (fun t => t < 15) && r = 5
  else if op = 0x84 then ty a (fun t => tySize t % 2 = 0 && t < 15) && r = 5
  else if op = 0x91 then ty a isInt && same
  else if op = 0x92 then r = 3 || r = 5
  else false

/-- The result types of the stages of a bond for given stream types, where every stage is defined; none otherwise. -/
def stageTys (ts : List Nat) (pal d0 : Nat) : List Stage → List Nat → Option (List Nat)
  | [], acc => some acc
  | st :: rest, acc =>
    let last := rest.isEmpty
    let o (p : Nat) : Option Nat := operandTy ts acc pal d0 last st p
    match declTy ts acc pal d0 last st with
    | none => none
    | some r => if opDefined st.op (o 0) (o 1) (o 2) r then stageTys ts pal d0 rest (acc ++ [r]) else none

end Sys2Proof.Machine
end

