-- ==== Sys2Proof/Machine/Tile.lean ====
section
/-! DEFINITION. Memory (02_tiles.md, 17_address_map.md): the interleave, windows, carve-outs, the error log, tile words
with their check bits, tile power states, and an access of a master to a memory target. Control registers are reached in
Machine/Bus.lean. -/

namespace Sys2Proof.Machine

open Sys2Proof

/-! ### Interleave and binding -/

/-- Entry h of a permutation section whose first parameter is base. Before any TILES section has been laid out the entries
are the identity: a permutation never holds 0 twice. Log entry 21. -/
def State.perm (s : State) (base h : Nat) : Nat :=
  if s.param base = 0 ∧ s.param (base + 1) = 0 then h else s.param (base + h)

/-- R50: working tile, line and byte of an address in the C-tile region. -/
def State.cLoc (s : State) (a : Nat) : Nat × Nat :=
  let o := a - 0x40000000
  let h := (o / 64 % 256) ^^^ (o / 16384 % 256)
  (s.perm 398 h, o / 16384 % 4096 * 64 + o % 64)

/-- R51: working field tile, line and byte of an address in the field-tile region. -/
def State.fLoc (s : State) (a : Nat) : Nat × Nat :=
  let o := a - 0x08000000
  let h := (o / 64 % 64) ^^^ (o / 4096 % 64)
  (s.perm 654 h, o / 4096 % 2048 * 64 + o % 64)

/-- Bytes in a tile: 256 KB and 128 KB. -/
def tileBytes : Die → Nat
  | .c => 262144
  | .f => 131072

/-- The physical tile bound to a working tile (R379); none when it is left with no physical tile. -/
def State.physTile (s : State) (d : Die) (t : Nat) : Option Nat :=
  match d with
  | .c => Tab.get (some t) s.spr.bindC t
  | .f => Tab.get (some t) s.spr.bindF t

/-- The bytes of the tiles of a die. -/
def State.tileMem (s : State) : Die → Tab Byte
  | .c => s.mem.ctile
  | .f => s.mem.ftile

/-- The state with them replaced. -/
def State.setTileMem (s : State) (d : Die) (t : Tab Byte) : State :=
  match d with
  | .c => { s with mem := { s.mem with ctile := t } }
  | .f => { s with mem := { s.mem with ftile := t } }

/-- The check-bit table of a die. -/
def State.eccTab (s : State) : Die → Tab Ecc
  | .c => s.mem.eccC
  | .f => s.mem.eccF

/-- The state with it replaced. -/
def State.setEccTab (s : State) (d : Die) (t : Tab Ecc) : State :=
  match d with
  | .c => { s with mem := { s.mem with eccC := t } }
  | .f => { s with mem := { s.mem with eccF := t } }

/-- Key of the run-time state of a working tile. -/
def tileKey : Die → Nat → Nat
  | .c, t => t
  | .f, t => 1024 + t

/-- The number of masters of a die. -/
def masters : Die → Nat
  | .c => 38
  | .f => 14

/-- Run-time state of a working tile. -/
def State.tile (s : State) (d : Die) (t : Nat) : Tile := Tab.get {} s.tiles (tileKey d t)

/-- The state with it replaced. -/
def State.setTile (s : State) (d : Die) (t : Nat) (v : Tile) : State :=
  { s with tiles := Tab.set {} (tileKey d t) v s.tiles }

/-- After a grant the round-robin pointer of the port stands above the master granted (R65). -/
def State.moveRr (s : State) (d : Die) (t m : Nat) : State := s.setTile d t { s.tile d t with rr := (m + 1) % masters d }

/-- A corrected word joins those that await write-back (R56). -/
def Tile.corrected (x : Tile) (w : Nat) : Tile :=
  if x.writeback.contains w then x else { x with writeback := x.writeback ++ [w] }

/-- TILE_PWR or FTILE_PWR. -/
def pwrReg : Die → RegKind
  | .c => .TILE_PWR
  | .f => .FTILE_PWR
/-- TILE_ECC or FTILE_ECC. -/
def eccReg : Die → RegKind
  | .c => .TILE_ECC
  | .f => .FTILE_ECC
/-- TILE_CTRL or FTILE_CTRL. -/
def tileCtrl : Die → RegKind
  | .c => .TILE_CTRL
  | .f => .FTILE_CTRL
/-- TILE_UE_CNT or FTILE_UE_CNT. -/
def ueReg : Die → RegKind
  | .c => .TILE_UE_CNT
  | .f => .FTILE_UE_CNT

/-! ### Masters, windows and the error log -/

/-- The master group of a master, MG0 to MG5. -/
def masterGroup (m : Master) : Nat :=
  match m.die with
  | .c => if m.num < 16 then 0 else if m.num < 32 then 1 else if m.num < 34 then 2 else 3
  | .f => if m.num < 8 then 4 else 5

/-- Window registers and default of a group: LO, HI, first index, GDEF, its index. -/
def State.winLo (s : State) (g i : Nat) : Word := if g < 4 then s.reg .XBAR_WIN_LO (16 * g + i) else s.reg .FXBAR_WIN_LO (16 * (g - 4) + i)
/-- See winLo. -/
def State.winHi (s : State) (g i : Nat) : Word := if g < 4 then s.reg .XBAR_WIN_HI (16 * g + i) else s.reg .FXBAR_WIN_HI (16 * (g - 4) + i)
/-- XBAR_GDEF or FXBAR_GDEF of a group. -/
def State.gdef (s : State) (g : Nat) : Word := if g < 4 then s.reg .XBAR_GDEF g else s.reg .FXBAR_GDEF (g - 4)

/-- Whether a window value matches an address (R67): enabled, SZ at most 20, BASE aligned to its size. -/
def windowHit (lo hi : Word) (a : Nat) : Bool :=
  let b := hi.toNat * 16 + wfld lo 15 12
  let sz := wfld lo 11 7
  wfld lo 1 0 ≠ 0 && sz ≤ 20 && b % 2 ^ sz = 0 && (a / 65536) / 2 ^ sz = b / 2 ^ sz

/-- The attribute a group's windows give an address: 1 memory, 2 device, 3 no-access (R67). -/
def State.attr (s : State) (g a : Nat) : Nat :=
  match (upto 16).find? (fun i => windowHit (s.winLo g i) (s.winHi g i) a) with
  | some i => wfld (s.winLo g i) 1 0
  | none => if wfld (s.gdef g) 1 0 = 0 then 3 else wfld (s.gdef g) 1 0

/-- The crossbar violation interrupt of a master's group, where its VIOL_EN is 1 (R75). -/
def State.violation (s : State) (m : Master) : State :=
  let g := s.gdef (masterGroup m)
  if wbit g 11 then
    match m.die with
    | .c => s.raise (wfld g 10 8) 6
    | .f => if wfld g 10 8 < 4 then s.raise (8 + wfld g 10 8) 6 else s
  else s

/-- R70: the first error response after VALID is cleared is logged, a later one sets OVF; the crossbar violation interrupt
is raised where the group's VIOL_EN is 1 (R75). -/
def State.logError (s : State) (m : Master) (cause : Nat) (write : Bool) (a : Nat) : State :=
  let (st, lo, hi) := match m.die with
    | .c => (RegKind.XBAR_ELOG_STAT, RegKind.XBAR_ELOG_ADDR_LO, RegKind.XBAR_ELOG_ADDR_HI)
    | .f => (RegKind.FXBAR_ELOG_STAT, RegKind.FXBAR_ELOG_ADDR_LO, RegKind.FXBAR_ELOG_ADDR_HI)
  let s1 := if s.bit st 0 15 then s.setBit st 0 14 true
    else
      let w := putFld (putFld (putFld (putFld (putBit (s.reg st 0) 15 true) 13 8 m.num) 7 5 cause) 4 4 (b2n write)) 3 0 (a / 2 ^ 32)
      (s.setReg st 0 w).setPair lo hi 0 (a % 2 ^ 32)
  s1.violation m

/-! ### Targets -/

/-- What an address decodes to (R428). -/
inductive Target where
  | ctile (t off : Nat)
  | ftile (t off : Nat)
  | control (d : Die)
  | bootRom (off : Nat)
  | hcNear (phys off : Nat)
  | hfNear (phys off : Nat)
  | xspi (off : Nat)
  | zero
  | default
  deriving DecidableEq, Repr

/-- The physical core that serves a logical core of a die (R379). -/
def State.physCore (s : State) (d : Die) (k : Nat) : Nat :=
  match d with
  | .c => if s.spr.hcSpare = some k then 8 else k
  | .f => if s.spr.hfSpare = some k then 4 else k

/-- The target of an address, for a master of die d (R69, R428). -/
def State.target (s : State) (d : Die) (a : Nat) : Target :=
  if a < 0x10000 then
    match d with
    | .c => .zero
    | .f => if s.bit .ZERO_MAP 0 0 then .hfNear (s.physCore .f 0) a else .bootRom a
  else if 0x1000000 ≤ a ∧ a < 0x1040000 then .bootRom (a - 0x1000000)
  else if 0x8000000 ≤ a ∧ a < 0x8800000 then let p := s.fLoc a; .ftile p.1 p.2
  else if 0xC000000 ≤ a ∧ a < 0xC0A0000 then
    let k := (a - 0xC000000) / 0x20000
    let o := (a - 0xC000000) % 0x20000
    if k < 4 then .hfNear (s.physCore .f k) o else if s.spr.hfSpare = none then .hfNear 4 o else .default
  else if 0x40000000 ≤ a ∧ a < 0x44000000 then let p := s.cLoc a; .ctile p.1 p.2
  else if 0x50000000 ≤ a ∧ a < 0x50090000 then
    let k := (a - 0x50000000) / 0x10000
    let o := (a - 0x50000000) % 0x10000
    if k < 8 then .hcNear (s.physCore .c k) o else if s.spr.hcSpare = none then .hcNear 8 o else .default
  else if 0x80000000 ≤ a ∧ a < 0x8000F000 then .control .c
  else if 0x90000000 ≤ a ∧ a < 0x9001A000 then .control .f
  else if 0x100000000 ≤ a ∧ a < 0x200000000 then .xspi (a - 0x100000000)
  else .default

/-- The die on which a target lies; the zero region and the default target lie on the issuing die. -/
def Target.die (issuer : Die) : Target → Die
  | .ctile _ _ | .hcNear _ _ | .control .c => .c
  | .ftile _ _ | .hfNear _ _ | .control .f | .bootRom _ | .xspi _ => .f
  | .zero | .default => issuer

/-! ### Carve-outs -/

/-- A carve-out descriptor (02_tiles.md, Carve-outs). -/
structure Carve where
  kind : Nat
  base : Nat
  count : Nat
  mask : Nat
  deriving DecidableEq, Repr

/-- Carve-out d in force: parameters 718 + 2d and 719 + 2d (R73). -/
def State.carve (s : State) (d : Nat) : Carve :=
  let p := s.param (718 + 2 * d)
  let q := s.param (719 + 2 * d)
  { kind := p % 256, base := p / 65536, count := q % 65536, mask := q / 65536 }

/-- The carve-outs in force, with the implicit switch buffer of R63. -/
def State.carves (s : State) : List Carve :=
  let l := (upto 16).map s.carve
  if l.any (fun c => c.kind = 1) then l else l ++ [{ kind := 1, base := 224, count := 32, mask := 0 }]

/-- The mask of tile groups reserved under R64. -/
def State.rtMask (s : State) : Nat := (s.carves.filter (fun c => c.kind = 5)).foldl (fun m c => m ||| c.mask) 0

/-- R61: whether a master of its own die may make the access to unit u of the tiles of that die. -/
def State.carveOk (s : State) (m : Master) (u : Nat) (write : Bool) : Bool :=
  s.carves.all fun c =>
    let hit := c.base ≤ u && u < c.base + c.count
    match m.die with
    | .c =>
      if c.kind = 1 && hit then m.num = 32 || m.num = 33 || m.num = 35
      else if c.kind = 2 && hit && write then m.num = 34 || m.num = 35
      else true
    | .f =>
      if c.kind = 3 && hit then m.num = 12
      else if c.kind = 4 && hit then (if write then m.num = 10 else m.num = 9 || m.num < 4)
      else true

/-! ### Path of an access -/

/-- An answer: data, or the cause of an error response (R75). -/
abbrev Answer (α : Type) := Except (BitVec 3) α

/-- The Mortar link is UP (R373). -/
def State.linkUp (s : State) : Bool := s.fld .ML_STAT 0 15 12 = 6

/-- The link serves accesses of a die's masters to the other die. Those of the F-die need it UP (R434); those of the C-die
also wait through a lane shift or a retrain, in which none is lost (R372). -/
def State.linkServes (s : State) (d : Die) : Bool :=
  s.linkUp || (d = .c && (s.fld .ML_STAT 0 15 12 = 7 || s.fld .ML_STAT 0 15 12 = 8))

/-- The windows of a master's group, for one address: cause 1 for no-access, cause 5 for a stream beat to a device region
(R68); the control spaces behave as device. -/
def State.windowCause (s : State) (m : Master) (a : Nat) (stream : Bool) : Option Nat :=
  let at' := s.attr (masterGroup m) a
  let ctl := (0x80000000 ≤ a && a < 0x8000F000) || (0x90000000 ≤ a && a < 0x9001A000)
  if at' = 3 then some 1 else if stream && (at' = 2 || ctl) then some 5 else none

/-- The path of an access up to its target (R61, R67 to R70, R434, R438): the target, or the error response, which the
state has logged. -/
def State.path (s : State) (m : Master) (a : Nat) (write stream : Bool) : Answer Target × State :=
  let fail (m : Master) (c : Nat) : Answer Target × State := (.error (BitVec.ofNat 3 c), s.logError m c write a)
  match s.windowCause m a stream with
  | some c => fail m c
  | none =>
    let t := s.target m.die a
    let d := t.die m.die
    let far := d ≠ m.die
    let m' : Master := if far then (match d with | .c => ⟨.c, 34⟩ | .f => ⟨.f, 8⟩) else m
    if far ∧ ¬ s.linkServes m.die then fail m 0
    else
      match (if far then s.windowCause m' a stream else none) with
      | some c => fail m' c
      | none =>
        match t with
        | .default => fail m' 0
        | .zero => if write then fail m' 0 else (.ok t, s)
        | .bootRom _ => if write then fail m' 0 else (.ok t, s)
        | .ctile w _ =>
          if ¬ s.carveOk m' ((a - 0x40000000) / 262144) write then fail m' 2
          else if 1 ≤ s.fld .TILE_PWR w 1 0 ∧ s.fld .TILE_PWR w 1 0 ≤ 2 then fail m' 4
          else (.ok t, s)
        | .ftile w _ =>
          if ¬ s.carveOk m' ((a - 0x8000000) / 131072) write then fail m' 2
          else if 1 ≤ s.fld .FTILE_PWR w 1 0 ∧ s.fld .FTILE_PWR w 1 0 ≤ 2 then fail m' 4
          else (.ok t, s)
        | .control _ | .hcNear _ _ | .hfNear _ _ | .xspi _ => (.ok t, s)

/-- The master that presents an access at its target's die (R438). -/
def presenting (m : Master) (d : Die) : Master :=
  if d = m.die then m else (match d with | .c => ⟨.c, 34⟩ | .f => ⟨.f, 8⟩)

/-! ### Tile power states (R60) -/

/-- The actual state in which the transition that a request starts ends, if it starts one. AUTO in RET waits for a beat. -/
def powerGoal (act req : Nat) : Option (BitVec 2) :=
  match act, req with
  | 0, 1 => some 1
  | 0, 2 => some 2
  | 1, 0 => some 0
  | 1, 2 => some 2
  | 2, 0 => some 0
  | 2, 3 => some 0
  | 2, 1 => some 1
  | _, _ => none

/-- Whether a migration of C tile t is in progress: power requests wait for its switch (R381). -/
def State.migrating (s : State) (d : Die) (t : Nat) : Bool :=
  match d, s.spr.mig with
  | .c, some g => g.w = t
  | _, _ => false

/-- Begin the transition that the request in force asks for, unless one is in progress (R173). -/
def State.startTile (s : State) (d : Die) (t : Nat) : State :=
  let p := s.reg (pwrReg d) t
  let x := s.tile d t
  if x.trans.isSome || s.migrating d t then s
  else match powerGoal (wfld p 9 8) (wfld p 1 0) with
    | none => s
    | some g => (s.setTile d t { x with trans := some g }).setBit (pwrReg d) t 15 true

/-- Zero fill of a physical tile, with valid check bits. -/
def State.zeroFill (s : State) (d : Die) (phys : Nat) : State :=
  let n := tileBytes d
  let s1 := s.setTileMem d ((s.tileMem d).filter fun e => e.1 / n ≠ phys)
  s1.setEccTab d ((s1.eccTab d).filter fun e => e.1 / (n / 8) ≠ phys)

/-- Zero fill of the tile bound to working tile t. -/
def State.zeroTile (s : State) (d : Die) (t : Nat) : State :=
  match s.physTile d t with
  | some p => s.zeroFill d p
  | none => s

/-- A transition ends: from OFF the tile has been filled with zeros; then the request in force is served (R173). -/
def State.endTile (s : State) (d : Die) (t : Nat) : State :=
  let x := s.tile d t
  match x.trans with
  | none => s
  | some g =>
    let s1 := if s.fld (pwrReg d) t 9 8 = 2 then s.zeroTile d t else s
    let s2 := (s1.setTile d t { x with trans := none }).setReg (pwrReg d) t
      (putBit (putFld (s.reg (pwrReg d) t) 9 8 g.toNat) 15 false)
    s2.startTile d t

/-- A beat to a tile whose request is ON or AUTO waits until the tile is ON (R59): the transition in progress ends and the
wake runs. Log entry 22. -/
def State.awaitOn (s : State) (d : Die) (t : Nat) : State :=
  let s1 := s.endTile d t
  if s1.fld (pwrReg d) t 9 8 = 0 then s1
  else
    let s2 := if s1.fld (pwrReg d) t 9 8 = 2 then s1.zeroTile d t else s1
    (s2.setTile d t { s2.tile d t with trans := none }).setReg (pwrReg d) t
      (putBit (putFld (s2.reg (pwrReg d) t) 9 8 0) 15 false)

/-! ### Words and check bits (R56, R57) -/

/-- A repair event waits to be added to the record (R382). -/
def State.addEvent (s : State) (kind unit : Nat) (live sw : Bool) (src : Nat) : State :=
  { s with spr := { s.spr with toAdd := s.spr.toAdd ++
    [{ unit := { kind := BitVec.ofNat 8 kind, unit := BitVec.ofNat 9 unit }, live, sw, source := BitVec.ofNat 8 src }] } }

/-- A tile enters the migration queue of 16 entries, unless it is queued already (R380). -/
def State.queueTile (s : State) (w src : Nat) : State :=
  if s.spr.queue.any (fun e => e.1 = w) || 16 ≤ s.spr.queue.length then s
  else { s with spr := { s.spr with queue := s.spr.queue ++ [(w, BitVec.ofNat 8 src)] } }

/-- R377: a C tile becomes a candidate and is queued where AUTO_MIG is 1 (R380); a field tile is recorded for
replacement at the next laying-out. -/
def State.candidate (s : State) (d : Die) (t src : Nat) : State :=
  match d with
  | .c => if s.bit .SPR_CTRL 0 15 then s.queueTile t src else s
  | .f => match s.physTile .f t with
    | some p => s.addEvent 2 p false false src
    | none => s

/-- A corrected error is counted, in TILE_ECC and in the window of R377. -/
def State.countCe (s : State) (d : Die) (t : Nat) : State :=
  let s1 := s.count (eccReg d) t
  let x := s1.tile d t
  let n := x.ceWindow + 1
  let s2 := s1.setTile d t { x with ceWindow := n }
  if n = s.fld .SPR_CTRL 0 11 4 then s2.candidate d t 1 else s2

/-- An uncorrectable error is counted and makes the tile a candidate. -/
def State.countUe (s : State) (d : Die) (t : Nat) : State := (s.count (ueReg d) 0).candidate d t 2

/-- Byte key and word key of an offset in the tile bound to working tile t. -/
def State.tileAddr (s : State) (d : Die) (t off : Nat) : Nat := ((s.physTile d t).getD t) * tileBytes d + off

/-- What the check bits of a word show. -/
def State.eccAt (s : State) (d : Die) (t off : Nat) : Ecc := Tab.get .clean (s.eccTab d) (s.tileAddr d t off / 8)

/-- The check bits of a word set. -/
def State.setEcc (s : State) (d : Die) (t off : Nat) (e : Ecc) : State :=
  s.setEccTab d (Tab.set .clean (s.tileAddr d t off / 8) e (s.eccTab d))

/-- A write to a tile under migration is mirrored onto the spare, whose written flags it sets (R380). -/
def State.mirror (s : State) (d : Die) (t off : Nat) (bs : List Byte) (e : Ecc) : State :=
  match d, s.spr.mig with
  | .c, some g =>
    if g.w = t ∧ g.copying then
      let k := g.sp * 262144 + off
      { s with
        mem := { s.mem with ctile := writeBytes 0 s.mem.ctile k bs, eccC := Tab.set .clean (k / 8) e s.mem.eccC }
        spr := { s.spr with mig := some { g with written := (off / 8) :: g.written } } }
    else s
  | _, _ => s

/-- A read beat of the word that holds offset off of a tile, its n bytes from off (within the word). -/
def State.readWord (s : State) (d : Die) (t off n : Nat) : Answer (List Byte) × State :=
  match s.eccAt d t off with
  | .clean => (.ok (readBytes 0 (s.tileMem d) (s.tileAddr d t off) n), s)
  | .single =>
    let s1 := s.countCe d t
    (.ok (readBytes 0 (s.tileMem d) (s.tileAddr d t off) n),
      s1.setTile d t ((s1.tile d t).corrected (off / 8)))
  | .double => (.error 3, s.countUe d t)

/-- A write beat of bytes within one word at offset off; a full write replaces its check bits, a narrower one reads the
word first (R55 to R57). -/
def State.writeWord (s : State) (d : Die) (t off : Nat) (bs : List Byte) (full : Bool) : Answer Unit × State :=
  let store (s : State) : State :=
    let s1 := s.setTileMem d (writeBytes 0 (s.tileMem d) (s.tileAddr d t off) bs)
    let s2 := s1.setEcc d t off .clean
    let x := s2.tile d t
    let s3 := s2.setTile d t { x with writeback := x.writeback.filter (· ≠ off / 8) }
    s3.mirror d t (off / 8 * 8) (readBytes 0 (s3.tileMem d) (s3.tileAddr d t (off / 8 * 8)) 8) .clean
  if full then (.ok (), store s)
  else match s.eccAt d t off with
    | .clean => (.ok (), store s)
    | .single => (.ok (), store (s.countCe d t))
    | .double => (.error 3, s.countUe d t)

/-! ### Near memories (R428, R431) -/

/-- The near memories of a die, by physical core. -/
def State.nearBytes (s : State) : Die → Tab Byte
  | .c => s.mem.hcNear
  | .f => s.mem.hfNear

/-- Errors of their words. -/
def State.nearEcc (s : State) : Die → Tab Ecc
  | .c => s.mem.eccHc
  | .f => s.mem.eccHf

/-- The byte of offset off in the near memory of physical core p. -/
def nearAt (d : Die) (p off : Nat) : Nat := p * (match d with
  | .c => 0x10000
  | .f => 0x20000) + off

/-- The state with bytes of a near memory written, their word without an error. -/
def State.putNear (s : State) (d : Die) (k : Nat) (bs : List Byte) : State :=
  match d with
  | .c => { s with mem := { s.mem with hcNear := writeBytes 0 s.mem.hcNear k bs, eccHc := Tab.set .clean (k / 8) .clean s.mem.eccHc } }
  | .f => { s with mem := { s.mem with hfNear := writeBytes 0 s.mem.hfNear k bs, eccHf := Tab.set .clean (k / 8) .clean s.mem.eccHf } }

/-- HMEM_CE, HMEM_UE, FMEM_CE or FMEM_UE of physical core p counts (R431). -/
def State.nearCount (s : State) (d : Die) (p : Nat) (ue : Bool) : State :=
  s.count (match d, ue with
    | .c, false => .HMEM_CE
    | .c, true => .HMEM_UE
    | .f, false => .FMEM_CE
    | .f, true => .FMEM_UE) p

/-- A read beat of a near memory; an uncorrectable word answers cause 3, as in a tile (log entry 97). -/
def State.readNear (s : State) (d : Die) (p off n : Nat) : Answer (List Byte) × State :=
  let k := nearAt d p off
  match Tab.get .clean (s.nearEcc d) (k / 8) with
  | .clean => (.ok (readBytes 0 (s.nearBytes d) k n), s)
  | .single => (.ok (readBytes 0 (s.nearBytes d) k n), s.nearCount d p false)
  | .double => (.error 3, s.nearCount d p true)

/-- A write beat of a near memory; a narrow one reads its word first. -/
def State.writeNear (s : State) (d : Die) (p off : Nat) (bs : List Byte) : Answer Unit × State :=
  let k := nearAt d p off
  if bs.length = 8 then (.ok (), s.putNear d k bs)
  else match Tab.get .clean (s.nearEcc d) (k / 8) with
    | .clean => (.ok (), s.putNear d k bs)
    | .single => (.ok (), (s.nearCount d p false).putNear d k bs)
    | .double => (.error 3, s.nearCount d p true)

/-! ### An access to a memory target -/

/-- One beat of a read: n bytes within one 64-bit word. A control target is answered by Machine/Bus.lean. -/
def State.readBeat (s : State) (m : Master) (a n : Nat) (stream : Bool) : Answer (List Byte) × State :=
  match s.path m a false stream with
  | (.error c, s1) => (.error c, s1)
  | (.ok t, s1) =>
    let tile (d : Die) (w off : Nat) : Answer (List Byte) × State :=
      match ((s1.awaitOn d w).moveRr d w (presenting m d).num).readWord d w off n with
      | (.error c, s2) => (.error c, s2.logError (presenting m d) 3 false a)
      | r => r
    let near (d : Die) (p off : Nat) : Answer (List Byte) × State :=
      match s1.readNear d p off n with
      | (.error c, s2) => (.error c, s2.logError (presenting m d) 3 false a)
      | r => r
    match t with
    | .ctile w off => tile .c w off
    | .ftile w off => tile .f w off
    | .bootRom off => (.ok ((upto n).map fun i => Config.bootRomByte (off + i)), s1)
    | .hcNear p off => near .c p off
    | .hfNear p off => near .f p off
    | .xspi off => (.ok (readBytes 0xFF s1.mem.flash off n), s1)
    | .zero => (.ok (List.replicate n 0), s1)
    | .control d => (.error 6, s1.logError (presenting m d) 6 false a)
    | .default => (.error 0, s1)

/-- One beat of a write, within one 64-bit word. A write to the xSPI window programs the bytes of the flash, as step 1 of
the slot update of 01_bond_image.md does. Log entry 23. -/
def State.writeBeat (s : State) (m : Master) (a : Nat) (bs : List Byte) (stream : Bool) : Answer Unit × State :=
  match s.path m a true stream with
  | (.error c, s1) => (.error c, s1)
  | (.ok t, s1) =>
    let tile (d : Die) (w off : Nat) : Answer Unit × State :=
      match ((s1.awaitOn d w).moveRr d w (presenting m d).num).writeWord d w off bs (bs.length = 8) with
      | (.error c, s2) => (.error c, s2.logError (presenting m d) 3 true a)
      | r => r
    let near (d : Die) (p off : Nat) : Answer Unit × State :=
      match s1.writeNear d p off bs with
      | (.error c, s2) => (.error c, s2.logError (presenting m d) 3 true a)
      | r => r
    match t with
    | .ctile w off => tile .c w off
    | .ftile w off => tile .f w off
    | .hcNear p off => near .c p off
    | .hfNear p off => near .f p off
    | .xspi off => (.ok (), { s1 with mem := { s1.mem with flash := writeBytes 0xFF s1.mem.flash off bs } })
    | .control d => (.error 6, s1.logError (presenting m d) 6 true a)
    | .bootRom _ | .zero | .default => (.error 0, s1)

/-- The beats of n bytes from address a: pieces of at most one 64-bit word. -/
def pieces : Nat → Nat → Nat → List (Nat × Nat)
  | 0, _, _ => []
  | f + 1, a, n =>
    if n = 0 then []
    else let k := min n (8 - a % 8); (a, k) :: pieces f (a + k) (n - k)

/-- Read the beats in order; the first error response ends the read. -/
def State.readPieces (s : State) (m : Master) (stream : Bool) : List (Nat × Nat) → Answer (List Byte) × State
  | [] => (.ok [], s)
  | (a, n) :: ps =>
    match s.readBeat m a n stream with
    | (.error c, s1) => (.error c, s1)
    | (.ok bs, s1) => match s1.readPieces m stream ps with
      | (.error c, s2) => (.error c, s2)
      | (.ok cs, s2) => (.ok (bs ++ cs), s2)

/-- Write the beats in order; the first error response ends the write. -/
def State.writePieces (s : State) (m : Master) (stream : Bool) : List (Nat × Nat) → List Byte → Answer Unit × State
  | [], _ => (.ok (), s)
  | (a, n) :: ps, bs =>
    match s.writeBeat m a (bs.take n) stream with
    | (.error c, s1) => (.error c, s1)
    | (.ok _, s1) => s1.writePieces m stream ps (bs.drop n)

/-- Read n bytes of memory from address a as master m. -/
def State.readMem (s : State) (m : Master) (a n : Nat) (stream : Bool := false) : Answer (List Byte) × State :=
  s.readPieces m stream (pieces (n + 1) a n)

/-- Write bytes of memory from address a as master m. -/
def State.writeMem (s : State) (m : Master) (a : Nat) (bs : List Byte) (stream : Bool := false) : Answer Unit × State :=
  s.writePieces m stream (pieces (bs.length + 1) a bs.length) bs

end Sys2Proof.Machine
end

