-- ==== Sys2Proof/Machine/Xlat.lean ====
section
/-! DEFINITION. Address translation (12_translation.md): the walk, rights, A and D marks, the TLBs of the cores and the
stream translator. -/

namespace Sys2Proof.Machine

open Sys2Proof

/-- What an access asks of a leaf (R316); storeTest asks for the rights of a store that is not made (R298), shadowPush is
a write of the shadow stack (R327). -/
inductive Need where
  | fetch | load | store | storeTest | shadow | shadowPush | streamRead | streamWrite
  deriving DecidableEq, Repr

/-- Whether an access marks D (R317). -/
def Need.marksD : Need → Bool
  | .store | .shadowPush | .streamWrite => true
  | .storeTest | .shadow | .fetch | .load | .streamRead => false

/-- Why a translation failed: entry not valid, rights, a walk into a device, a walk bus error (R318). The numbers are
FINFO.KIND (R118). -/
inductive XFault where
  | notValid | rights | device | bus
  deriving DecidableEq, Repr

/-- FINFO.KIND of a translation fault. -/
def XFault.kind : XFault → Nat
  | .notValid => 1
  | .rights => 2
  | .device => 3
  | .bus => 4

/-- The cause code of a translation fault at a core (R307). -/
def XFault.cause (f : XFault) (fetch : Bool) : Nat :=
  match f with
  | .notValid => if fetch then 3 else 5
  | .rights => if fetch then 4 else 6
  | .device => 7
  | .bus => 8

/-- The flags of a leaf (R313, word 0). -/
def leafRights (l : Leaf) (n : Need) (lvl : Nat) : Bool :=
  if l.ident then true
  else
    let f := l.flags
    let u := wbit f 11
    match n with
    | .fetch => wbit f 8 && (if lvl = 2 then u else !u)
    | .load => wbit f 10 && (lvl ≠ 2 || u)
    | .store | .storeTest => wbit f 9 && !wbit f 6 && (lvl ≠ 2 || u)
    | .shadow | .shadowPush => wbit f 6
    | .streamRead => wbit f 10 && !wbit f 6 && (lvl ≠ 2 || u)
    | .streamWrite => wbit f 9 && !wbit f 6 && (lvl ≠ 2 || u)

/-- The physical byte address of a word in a page. -/
def Leaf.pa (l : Leaf) (va : Nat) : Nat := l.pbase + 2 * (va - l.vbase)

/-- The page contains the address. -/
def Leaf.covers (l : Leaf) (va : Nat) : Bool := l.vbase ≤ va && va < l.vbase + l.size

/-- Word i of a 64-bit entry. -/
def entWord (v : W64) (i : Nat) : Word := BitVec.ofNat 16 (v.toNat / 65536 ^ i)

/-- The check word of R313. -/
def chkOf (a b c : Word) : Word := ~~~(a ^^^ b ^^^ c)

/-- A 64-bit entry of its first three words, CHK recomputed. -/
def mkEntry (a b c : Word) : W64 :=
  BitVec.ofNat 64 (a.toNat + b.toNat * 65536 + c.toNat * 2 ^ 32 + (chkOf a b c).toNat * 2 ^ 48)

/-- The physical address a table entry holds: PA_TOP, PA_MID, PA_PTR. -/
def entAddr (v : W64) : Nat :=
  wfld (entWord v 2) 6 0 * 2 ^ 29 + (entWord v 1).toNat * 2 ^ 13 + wfld (entWord v 2) 9 7 * 2 ^ 10

/-- What R314 says of an entry read at a level: not valid (with a failing CHK counted), a pointer or a leaf. -/
inductive EntKind where
  | invalid (chk : Bool)
  | table (base : Nat)
  | leaf
  deriving DecidableEq, Repr

/-- R314. -/
def entKind (lvl : Nat) (v : W64) : EntKind :=
  let w0 := entWord v 0
  let w2 := entWord v 2
  if ¬ wbit w0 15 then .invalid false
  else if entWord v 3 ≠ chkOf w0 (entWord v 1) w2 then .invalid true
  else if wfld w0 4 0 ≠ 0 ∨ wfld w2 15 10 ≠ 0 then .invalid false
  else if wbit w0 14 then
    if lvl = 3 ∨ wfld w0 13 5 ≠ 0 then .invalid false else .table (entAddr v)
  else if wfld w2 9 7 ≠ 0 then .invalid false
  else if lvl = 1 ∧ entAddr v % 2 ^ 27 ≠ 0 then .invalid false
  else if lvl = 2 ∧ entAddr v % 2 ^ 20 ≠ 0 then .invalid false
  else .leaf

/-- A read of a walk: a device window or a control space is a fault, an error response a bus error (R318). -/
def State.walkRead (s : State) (m : Master) (a n : Nat) : Except XFault (List Byte) × State :=
  let ctl := (0x80000000 ≤ a && a < 0x8000F000) || (0x90000000 ≤ a && a < 0x9001A000)
  if s.attr (masterGroup m) a = 2 ∨ (ctl ∧ s.attr (masterGroup m) a ≠ 3) then (.error .device, s)
  else match s.readMem m a n with
    | (.ok l, s1) => (.ok l, s1)
    | (.error _, s1) => (.error .bus, s1)

/-- The CHKERR counter of the translator's die counts. -/
def State.chkErr (s : State) (d : Die) : State :=
  match d with
  | .c => s.count .XLAT_CHKERR 0
  | .f => s.count .FXLAT_CHKERR 0

/-- The page size at a level in words and the index of an address there (R312). -/
def lvlSize (lvl : Nat) : Nat := if lvl = 1 then 2 ^ 26 else if lvl = 2 then 2 ^ 19 else 2 ^ 12
/-- See lvlSize. -/
def lvlIndex (lvl va : Nat) : Nat :=
  if lvl = 1 then va / 2 ^ 26 % 64 else if lvl = 2 then va / 2 ^ 19 % 128 else va / 2 ^ 12 % 128

/-- The table walk from a level on (R312 to R314), at most three reads. -/
def State.walkFrom (s : State) (m : Master) (asid : Byte) (va : Nat) : Nat → Nat → Nat → Except XFault Leaf × State
  | 0, _, _ => (.error .notValid, s)
  | f + 1, lvl, base =>
    let a := base + 8 * lvlIndex lvl va
    match s.walkRead m a 8 with
    | (.error e, s1) => (.error e, s1)
    | (.ok l, s1) =>
      let v : W64 := BitVec.ofNat 64 (leNat l)
      match entKind lvl v with
      | .invalid c => (.error .notValid, if c then s1.chkErr m.die else s1)
      | .table b => s1.walkFrom m asid va f (lvl + 1) b
      | .leaf =>
        let n := lvlSize lvl
        (.ok { vbase := va / n * n, size := n, pbase := entAddr v, flags := entWord v 0, asid, loc := a, raw := v }, s1)

/-- A walk in an ASID from its table entry value (R311, R312). -/
def State.walkAsid (s : State) (m : Master) (asid : Byte) (ent : W32) (va : Nat) : Except XFault Leaf × State :=
  let e := ent.toNat
  if e % 2 = 0 ∨ e / 4 % 8 ≠ 0 then (.error .notValid, s)
  else if e / 2 % 2 = 1 then
    let b := va / 2 ^ 26 * 2 ^ 26
    (.ok { vbase := b, size := 2 ^ 26, pbase := 2 * b, flags := 0, asid, loc := 0, raw := 0, ident := true }, s)
  else s.walkFrom m asid va 3 1 (e / 32 * 512)

/-- The address of the ASID table of a split ATB value (R311, R330). -/
def atbAddr (atb : Nat) : Nat := atb / 65536 * 2 ^ 20 + atb / 64 % 1024 * 1024

/-- A whole walk, reading the ASID entry. -/
def State.walk (s : State) (m : Master) (atb : Nat) (asid : Byte) (va : Nat) : Except XFault Leaf × State :=
  match s.walkRead m (atbAddr atb + 4 * asid.toNat) 4 with
  | (.error e, s1) => (.error e, s1)
  | (.ok l, s1) => s1.walkAsid m asid (BitVec.ofNat 32 (leNat l)) va

/-- The leaf with A, and D where asked, set; and the entry that goes to memory (R317). -/
def Leaf.marked (l : Leaf) (d : Bool) : Leaf :=
  let f := putBit l.flags 13 true
  let f := if d then putBit f 12 true else f
  { l with flags := f, raw := mkEntry f (entWord l.raw 1) (entWord l.raw 2) }

/-- The compare-and-swap of a whole entry (R317): none where the compare fails. -/
def State.casEntry (s : State) (m : Master) (old new : Leaf) : Except XFault (Option Leaf) × State :=
  match s.walkRead m old.loc 8 with
  | (.error e, s1) => (.error e, s1)
  | (.ok l, s1) =>
    if BitVec.ofNat 64 (leNat l) ≠ old.raw then (.ok none, s1)
    else match s1.writeMem m old.loc (leBytes 8 new.raw.toNat) with
      | (.error _, s2) => (.error .bus, s2)
      | (.ok _, s2) => (.ok (some new), s2)

/-- A leaf found by a walk, checked and marked (R316, R317). In one indivisible step the compare cannot fail. -/
def State.allowLeaf (s : State) (m : Master) (l : Leaf) (n : Need) (lvl : Nat) : Except XFault Leaf × State :=
  if ¬ leafRights l n lvl then (.error .rights, s)
  else if l.ident then (.ok l, s)
  else
    let l' := l.marked n.marksD
    if l'.flags = l.flags then (.ok l, s)
    else match s.casEntry m l l' with
      | (.error e, s1) => (.error e, s1)
      | (.ok (some x), s1) => (.ok x, s1)
      | (.ok none, s1) => (.error .notValid, s1)

/-- Replacement in a translator of n entries: the pseudo-LRU victim is not given, so it is a free choice. Log entry 27. -/
def State.insertLeaf (s : State) (n : Nat) (l : Leaf) (t : List Leaf) : List Leaf × State :=
  if t.length < n then (t ++ [l], s)
  else let (k, s1) := s.draw; (t.eraseIdx (k % t.length) ++ [l], s1)

/-- One of several matching entries, not predictable which (R323). -/
def State.pickLeaf (s : State) (t : List Leaf) : Option Leaf × State :=
  match t with
  | [] => (none, s)
  | [l] => (some l, s)
  | l :: r => let (k, s1) := s.draw; ((l :: r)[k % (r.length + 1)]?, s1)

/-! ### Cores (R310, R320, R326, R327) -/

/-- The die of a core and its number there. -/
def coreDie (c : CoreId) : Die := if c.val < 8 then .c else .f
/-- See coreDie. -/
def coreNum (c : CoreId) : Nat := if c.val < 8 then c.val else c.val - 8
/-- The data port of a core (02_tiles.md, masters). -/
def dataPort (c : CoreId) : Master := ⟨coreDie c, coreNum c⟩
/-- The fetch port of a core. -/
def fetchPort (c : CoreId) : Master := if c.val < 8 then ⟨.c, 8 + c.val⟩ else ⟨.f, c.val - 4⟩

/-- XLAT_CTL or FXLAT_CTL of a core. -/
def State.xlatCtl (s : State) (c : CoreId) : Word :=
  if c.val < 8 then s.reg .XLAT_CTL c.val else s.reg .FXLAT_CTL (c.val - 8)

/-- XLAT_ATB or FXLAT_ATB of a core's die. -/
def State.xlatAtb (s : State) (d : Die) : Nat :=
  match d with
  | .c => s.pair .XLAT_ATB_LO .XLAT_ATB_HI 0
  | .f => s.pair .FXLAT_ATB_LO .FXLAT_ATB_HI 0

/-- XLAT_LKVALID or FXLAT_LKVALID of a core. -/
def lkValid (c : CoreId) : RegKind × Nat := if c.val < 8 then (.XLAT_LKVALID, c.val) else (.FXLAT_LKVALID, c.val - 8)

/-- HPIPE_CTL or FHPIPE_CTL of a core (R293). -/
def pipeCtl (c : CoreId) : RegKind × Nat := if c.val < 8 then (.HPIPE_CTL, c.val) else (.FHPIPE_CTL, c.val - 8)

/-- The leaves a core's TLB holds, locked ones included. -/
def Core.leaves (k : Core) : List Leaf := k.tlb ++ k.locked.filterMap (fun e => e.2)

/-- A held leaf replaces the one it was found as, in either part of the TLB. -/
def Core.replaceLeaf (k : Core) (old new : Leaf) : Core :=
  { k with
    tlb := k.tlb.map fun l => if l = old then new else l
    locked := k.locked.map fun e => (e.1, if e.2 = some old then some new else e.2) }

/-- A core's TLB misses: the walk, the checks, and the leaf in place of the one it was held as, if any (R317, R318). -/
def State.coreMiss (s : State) (c : CoreId) (atb : Nat) (asid : Byte) (va : Nat) (n : Need) (lvl : Nat) (stale : Option Leaf) :
    Except XFault Leaf × State :=
  match s.walk (dataPort c) atb asid va with
  | (.error e, s1) => (.error e, s1)
  | (.ok l, s1) => match s1.allowLeaf (dataPort c) l n lvl with
    | (.error e, s2) => (.error e, s2)
    | (.ok x, s2) => match stale with
      | some o => (.ok x, s2.modCore c fun k => k.replaceLeaf o x)
      | none =>
        let (t, s3) := s2.insertLeaf 64 x (s2.core c).tlb
        (.ok x, s3.modCore c fun k => { k with tlb := t })

/-- The leaf of a word address in an address space, for a core. -/
def State.coreLeaf (s : State) (c : CoreId) (atb : Nat) (asid : Byte) (va : Nat) (n : Need) (lvl : Nat) : Except XFault Leaf × State :=
  match s.pickLeaf ((s.core c).leaves.filter fun l => l.covers va && (l.asid = asid || (!l.ident && wbit l.flags 7))) with
  | (none, s1) => s1.coreMiss c atb asid va n lvl none
  | (some l, s1) =>
    if ¬ leafRights l n lvl then (.error .rights, s1)
    else if l.ident || !n.marksD || wbit l.flags 12 then (.ok l, s1)
    else match s1.casEntry (dataPort c) l (l.marked true) with
      | (.error e, s2) => (.error e, s2)
      | (.ok (some x), s2) => (.ok x, s2.modCore c fun k => k.replaceLeaf l x)
      | (.ok none, s2) => s2.coreMiss c atb asid va n lvl (some l)

/-- Translation of a word address for a core: the physical byte address and whether the leaf gives the device attribute. -/
def State.translate (s : State) (c : CoreId) (va : Nat) (n : Need) (lvl : Nat) : Except XFault (Nat × Bool) × State :=
  let k := s.core c
  let ctl := if n = .fetch then k.fetchCtl else s.xlatCtl c
  let atb := if n = .fetch then k.fetchAtb.toNat else s.xlatAtb (coreDie c)
  if ¬ wbit ctl 15 then (.ok (2 * va, false), s)
  else match s.coreLeaf c atb (BitVec.ofNat 8 (wfld ctl 7 0)) va n lvl with
    | (.error e, s1) => (.error e, s1)
    | (.ok l, s1) => (.ok (l.pa va, !l.ident && wbit l.flags 5), s1)

/-- The physical line of 32 words of a word address whose page has a valid translation, found without rights and without
leaving a trace (R289). -/
def State.icPlace (s : State) (c : CoreId) (va : Nat) : Option Nat :=
  if ¬ wbit (s.core c).fetchCtl 15 then some (2 * va / 64)
  else
    let asid := BitVec.ofNat 8 (wfld (s.core c).fetchCtl 7 0)
    match (s.core c).leaves.find? fun l => l.covers va && (l.asid = asid || (!l.ident && wbit l.flags 7)) with
    | some l => some (l.pa va / 64)
    | none => match (s.walk (dataPort c) (s.core c).fetchAtb.toNat asid va).1 with
      | .ok l => some (l.pa va / 64)
      | .error _ => none

/-! ### The stream translator (R321) -/

/-- The master of the stream translator's walks: C 16 (R319). -/
def streamMaster : Master := ⟨.c, 16⟩

/-- The ASID entry, cached or read. -/
def State.streamAsid (s : State) (asid : Byte) : Except XFault W32 × State :=
  match s.asidCache.find? (fun e => e.1 = asid) with
  | some e => (.ok e.2, s)
  | none =>
    match s.walkRead streamMaster (atbAddr (s.xlatAtb .c) + 4 * asid.toNat) 4 with
    | (.error e, s1) => (.error e, s1)
    | (.ok l, s1) =>
      let v : W32 := BitVec.ofNat 32 (leNat l)
      if v.toNat % 2 = 0 ∨ v.toNat / 4 % 8 ≠ 0 then (.error .notValid, s1)
      else if s1.asidCache.length < 16 then (.ok v, { s1 with asidCache := s1.asidCache ++ [(asid, v)] })
      else
        let (k, s2) := s1.draw
        (.ok v, { s2 with asidCache := s2.asidCache.eraseIdx (k % s2.asidCache.length) ++ [(asid, v)] })

/-- The stream translator misses. -/
def State.streamMiss (s : State) (asid : Byte) (va : Nat) (n : Need) (lvl : Nat) (stale : Option Leaf) : Except XFault Leaf × State :=
  match s.streamAsid asid with
  | (.error e, s1) => (.error e, s1)
  | (.ok ent, s1) => match s1.walkAsid streamMaster asid ent va with
    | (.error e, s2) => (.error e, s2)
    | (.ok l, s2) => match s2.allowLeaf streamMaster l n lvl with
      | (.error e, s3) => (.error e, s3)
      | (.ok x, s3) => match stale with
        | some o => (.ok x, { s3 with streamTlb := s3.streamTlb.map fun l => if l = o then x else l })
        | none =>
          let (t, s4) := s3.insertLeaf 512 x s3.streamTlb
          (.ok x, { s4 with streamTlb := t })

/-- A translation through the stream translator: the leaf, with the marks made. -/
def State.streamXlat (s : State) (asid : Byte) (va : Nat) (n : Need) (lvl : Nat) : Except XFault Leaf × State :=
  match s.pickLeaf (s.streamTlb.filter fun l => l.covers va && (l.asid = asid || (!l.ident && wbit l.flags 7))) with
  | (none, s1) => (s1.count .XLAT_SMISS 0).streamMiss asid va n lvl none
  | (some l, s1) =>
    if ¬ leafRights l n lvl then (.error .rights, s1)
    else if l.ident || !n.marksD || wbit l.flags 12 then (.ok l, s1)
    else match s1.casEntry streamMaster l (l.marked true) with
      | (.error e, s2) => (.error e, s2)
      | (.ok (some x), s2) => (.ok x, { s2 with streamTlb := s2.streamTlb.map fun y => if y = l then x else y })
      | (.ok none, s2) => s2.streamMiss asid va n lvl (some l)

/-! ### Invalidation (R324) -/

/-- Whether a TLBI request removes a leaf. -/
def tlbiHits (scope : Nat) (va : Nat) (asid : Byte) (l : Leaf) : Bool :=
  let g := !l.ident && wbit l.flags 7
  match scope with
  | 0 => l.covers va && (l.asid = asid || g)
  | 1 => !g && l.asid = asid
  | 2 => !g
  | _ => true

/-- A core's TLB loses the entries that a request matches; a locked slot that is removed clears VALID and sets LOST. -/
def State.tlbiCore (s : State) (c : CoreId) (scope va : Nat) (asid : Byte) : State :=
  let lost (b : Nat) : Bool := match Tab.get none (s.core c).locked b with
    | some l => tlbiHits scope va asid l
    | none => false
  let (kind, i) := lkValid c
  let s1 := ((upto 8).filter lost).foldl (fun s b => (s.setBit kind i b false).setBit kind i (8 + b) true) s
  s1.modCore c fun k =>
    { k with
      tlb := k.tlb.filter fun l => !tlbiHits scope va asid l
      locked := k.locked.filter fun e => match e.2 with
        | some l => !tlbiHits scope va asid l
        | none => false }

/-- An access of a core to a physical address may have used an entry that a request removes: one that holds the address is
among them, or none that is still in the TLB holds it. -/
def State.usedHit (s : State) (c : CoreId) (hits : Leaf → Bool) (pa : Nat) : Bool :=
  let on := (s.core c).leaves.filter fun l => l.pbase ≤ pa && pa < l.pbase + 2 * l.size
  wbit (s.xlatCtl c) 15 && (on.isEmpty || on.any hits)

/-- The waiting load and the buffered stores of a core that used an entry that a request removes are marked (R325). -/
def State.tlbiMark (s : State) (c : CoreId) (hits : Leaf → Bool) : State :=
  let used (pa : Nat) : Bool := s.usedHit c hits pa
  s.modCore c fun k =>
    { k with
      storeBuf := k.storeBuf.map fun e => { e with tlbi := e.tlbi || e.words.any fun w => used w.1 }
      loadWait := k.loadWait.map fun w => { w with tlbi := w.tlbi || w.words.any fun e => used e.2.2.1 } }

/-- Requests of core c that some receiver has not acknowledged. -/
def State.tlbiOpen (s : State) (c : CoreId) : Bool := s.tlbis.any fun t => t.issuer = c.val && !(t.toReceive.isEmpty && t.toAck.isEmpty)

/-- A core that waits in TLBSYNC goes on when its requests are acknowledged. -/
def State.wakeTlb (s : State) (c : CoreId) : State :=
  if (s.core c).run = .waitTlb ∧ ¬ s.tlbiOpen c then s.modCore c fun k => { k with run := .running, pc := k.pc + 1 } else s

/-- The same for every core. -/
def State.wakeAll (s : State) : State := (List.finRange 12).foldl (fun s c => s.wakeTlb c) s

/-- The stream translator loses the entries and cached ASID entries that a request matches. -/
def State.tlbiStream (s : State) (scope va : Nat) (asid : Byte) : State :=
  { s with
    streamTlb := s.streamTlb.filter fun l => !tlbiHits scope va asid l
    asidCache := match scope with
      | 0 => s.asidCache
      | 1 => s.asidCache.filter fun e => e.1 ≠ asid
      | _ => [] }

end Sys2Proof.Machine
end

