-- ==== Sys2Proof/Machine/Queue.lean ====
section
/-! DEFINITION. Brick queues and descriptors (03_bricks.md): the fields of a descriptor, bond templates, submission,
tickets, the checks at issue (R90 to R92, R128), deadlines. -/

namespace Sys2Proof.Machine

open Sys2Proof

/-! ### Descriptor fields (R76, R79) -/

/-- Word i of the descriptor. -/
def Brick.w (b : Brick) (i : Nat) : Word := b.desc.getD i 0
/-- CTRL.BOND. -/
def Brick.bond (b : Brick) : Nat := wfld (b.w 0) 15 10
/-- CTRL.CLASS: 0 RT, 1 HI, 2 NORM, 3 BULK. -/
def Brick.cls (b : Brick) : Nat := wfld (b.w 0) 9 8
/-- CTRL.FF. -/
def Brick.ff (b : Brick) : Bool := wbit (b.w 0) 7
/-- CTRL.FTZ. -/
def Brick.ftz (b : Brick) : Bool := wbit (b.w 0) 6
/-- CTRL.SOF. -/
def Brick.sof (b : Brick) : Nat := wfld (b.w 0) 5 0
/-- Type code of stream 0 to 2, or of D0 (3). -/
def Brick.ty (b : Brick) (i : Nat) : Nat := wfld (b.w 1) (15 - 4 * i) (12 - 4 * i)
/-- LENGTH. -/
def Brick.len (b : Brick) : Nat := (b.w 2).toNat + wfld (b.w 3) 7 0 * 65536
/-- CONT. -/
def Brick.cont (b : Brick) : Bool := wbit (b.w 3) 14
/-- NSCAL. -/
def Brick.nscal (b : Brick) : Nat := wfld (b.w 3) 13 11
/-- RND. -/
def Brick.rnd (b : Brick) : Nat := wfld (b.w 3) 10 8
/-- KIND of stream i: 0 unused, 1 linear, 2 indexed. -/
def Brick.kind (b : Brick) (i : Nat) : Nat := wfld (b.w (4 * i + 6)) 15 14
/-- IXS of stream i. -/
def Brick.ixs (b : Brick) (i : Nat) : Nat := wfld (b.w (4 * i + 6)) 13 12
/-- STRIDE of stream i, a signed count of elements. -/
def Brick.stride (b : Brick) (i : Nat) : Int :=
  signed 24 (wfld (b.w (4 * i + 6)) 7 0 * 65536 + (b.w (4 * i + 7)).toNat)
/-- Start byte address B of stream i. -/
def Brick.base (b : Brick) (i : Nat) : Nat :=
  2 * ((b.w (4 * i + 4)).toNat + (b.w (4 * i + 5)).toNat * 65536) + wfld (b.w (4 * i + 6)) 11 11
/-- The declared estimate D (R156). -/
def Brick.declared (b : Brick) : Nat := wfld (b.w 20) 11 0 * 2 ^ wfld (b.w 20) 15 12
/-- DLCTL.KIND. -/
def Brick.dlKind (b : Brick) : Nat := wfld (b.w 21) 15 14
/-- DLCTL.COURSE. -/
def Brick.dlCourse (b : Brick) : Nat := wfld (b.w 21) 13 11
/-- DEADLINE. -/
def Brick.deadline (b : Brick) : Nat := (b.w 22).toNat + (b.w 23).toNat * 65536
/-- ORD. -/
def Brick.ord (b : Brick) : Bool := wbit (b.w 24) 15
/-- PAIR. -/
def Brick.paired (b : Brick) : Bool := wbit (b.w 24) 14
/-- ASID. -/
def Brick.asid (b : Brick) : Byte := BitVec.ofNat 8 (wfld (b.w 24) 7 0)
/-- Virtual word address of the status area. -/
def Brick.stat (b : Brick) : Nat := (b.w 26).toNat + (b.w 27).toNat * 65536
/-- Virtual word address of the scalar block. -/
def Brick.scalAddr (b : Brick) : Nat := (b.w 28).toNat + (b.w 29).toNat * 65536
/-- The rights level of the brick: 2 is U. -/
def Brick.level (b : Brick) : Nat := b.lvl.toNat
/-- An RT brick. -/
def Brick.rt (b : Brick) : Bool := b.cls = 0
/-- Whether stream i is used as an index source by some indexed stream. -/
def Brick.indexSource (b : Brick) (i : Nat) : Bool := (upto 4).any fun j => b.kind j = 2 && b.ixs j = i && i < 3
/-- D0 is indexed: the brick has a PROBE pass (R101). -/
def Brick.scatter (b : Brick) : Bool := b.kind 3 = 2
/-- The brick has not begun to end. -/
def Brick.live (b : Brick) : Bool :=
  match b.st with
  | .ending _ => false
  | _ => true

/-! ### Templates (R123, R124) -/

/-- The template in the brick's slot. -/
def State.templateOf (s : State) (b : Brick) : Option Template := Tab.get none s.templates b.bond

/-- NSTG. -/
def Template.nstg (t : Template) : Nat := t.header.toNat / 128 % 8
/-- SHAPE: 0 ELEM, 1 FULL, 2 SEGMENT, 3 SCAN. -/
def Template.shape (t : Template) : Nat := t.header.toNat / 1024 % 4
/-- The stages in use. -/
def Template.ops (t : Template) : List Stage := (t.stages.take t.nstg).map stageOf
/-- PSRC: 0 none, else the source stream number 1 or 2. -/
def Template.psrc (t : Template) : Nat := t.palPar.toNat % 4
/-- PLEN. -/
def Template.plen (t : Template) : Nat := t.palPar.toNat / 65536
/-- G of SHAPEPAR. -/
def Template.g (t : Template) : Nat := t.shapePar.toNat % 2 ^ 24
/-- The ACCEPT mask of stream i, D0 as 3. -/
def Template.accept (t : Template) (i : Nat) : Word :=
  match i with
  | 0 => t.acc0
  | 1 => t.acc1
  | 2 => t.acc2
  | _ => t.accD
/-- Whether a stage names source code c. -/
def Template.names (t : Template) (c : Nat) : Bool := t.ops.any fun o => o.a = c || o.b = c || o.c = c
/-- The last stage. -/
def Template.last (t : Template) : Stage := t.ops.getLastD (stageOf 0)

/-- Whether stream i delivers tuples: it feeds a stage 0 that is DOT4, DOT2 or FDOT2 (R130). -/
def Template.tuples (t : Template) (i : Nat) : Bool :=
  match t.ops with
  | o :: _ =>
    isDot o.op && (let c := if t.psrc = i && t.psrc ≠ 0 then 7 else i + 1; o.a = c || o.b = c)
  | [] => false

/-- The element size of a stream in a brick. -/
def Template.size (t : Template) (b : Brick) (i : Nat) : Nat := if i < 3 && t.tuples i then 4 else tySize (b.ty i)

/-- The count of elements of source i that the brick uses: PLEN for the pallet source (R129). -/
def Template.count (t : Template) (b : Brick) (i : Nat) : Nat := if t.psrc = i ∧ t.psrc ≠ 0 then t.plen else b.len

/-- The destination count for a segment length g (R128). -/
def Template.nDest (t : Template) (b : Brick) (g : Nat) : Nat :=
  match t.shape with
  | 1 => 1
  | 2 => b.len / (max g 1)
  | _ => b.len

/-- The coefficient estimate K of a brick (R124). -/
def Template.estimate (t : Template) (n : Nat) : Nat :=
  t.ecoef.toNat / 65536 % 256 * 16 + (t.ecoef.toNat % 65536 * n + 1023) / 1024

/-! ### Queues -/

/-- Queue q. -/
def State.queue (s : State) (q : Nat) : Queue := if h : q < 16 then s.queues[q] else {}

/-- The state with queue q replaced. -/
def State.setQueue (s : State) (q : Nat) (v : Queue) : State :=
  if h : q < 16 then { s with queues := s.queues.set q v } else s

/-- The entry with a sequence number. -/
def State.brick (s : State) (q seq : Nat) : Option Brick := (s.queue q).entries.find? fun b => b.seq = seq

/-- The state with f applied to that entry. -/
def State.modBrick (s : State) (q seq : Nat) (f : Brick → Brick) : State :=
  let u := s.queue q
  s.setQueue q { u with entries := u.entries.map fun b => if b.seq = seq then f b else b }

/-- Every entry with its queue. -/
def State.bricks (s : State) : List (Nat × Brick) :=
  (upto 16).flatMap fun q => (s.queue q).entries.map fun b => (q, b)

/-- The ticket of a sequence number (R86). -/
def State.ticket (s : State) (q seq : Nat) : Word := BitVec.ofNat 16 (q * 4096 + s.epoch.toNat * 1024 + seq)

/-- The C-die is at compute-ready. -/
def State.computeReady (s : State) : Bool := s.bit .SYS_STAT 0 14

/-- A queue refuses: EN 0, 64 entries, or the next sequence number still in use (R85, R88). -/
def State.queueRefuses (s : State) (q : Nat) : Bool :=
  let u := s.queue q
  !(s.bit .VX_QCFG q 15) || 64 ≤ u.entries.length || u.entries.any (fun b => b.seq = u.nextSeq)

/-- A shed event: its counter and KILN_INT_STAT.SHED (R174). -/
def State.shed (s : State) (k : RegKind) (q : Nat) : State :=
  (s.count k q).raiseStat .KILN_INT_STAT .KILN_INT_EN 4 (s.fld .KILN_CTRL 0 2 0) 5

/-! ### Deadlines (R83, R162) -/

/-- A course, by number. -/
def State.course (s : State) (c : Nat) : Course := if h : c < 8 then s.courses[c] else {}

/-- The brick's deadline has passed (R83). A brick of LENGTH 0 has none that takes effect (R90). -/
def State.deadlinePassed (s : State) (b : Brick) : Bool :=
  if b.len = 0 then false
  else match b.dlKind with
    | 1 =>
      let c := s.course b.dlCourse
      c.state = .search || c.state = .sync || c.state = .lost || (c.vis.toNat + 2 ^ 32 - b.deadline) % 2 ^ 32 < 2 ^ 31
    | 2 => (s.gptpNs.toNat % 2 ^ 32 + 2 ^ 32 - b.deadline) % 2 ^ 32 < 2 ^ 31
    | _ => false

/-- The remaining time of R162 in ns: none without a deadline, some none when unbounded. The tick is 1.25 ns and the
course's speed is counted in 2^−40 cycle per tick. -/
def State.remaining (s : State) (b : Brick) : Option (Option Int) :=
  match b.dlKind with
  | 1 =>
    let c := s.course b.dlCourse
    if s.deadlinePassed b then some (some 0)
    else if c.s ≤ 0 then some none
    else some (some (((b.deadline + 2 ^ 32 - c.vis.toNat) % 2 ^ 32 * 2 ^ 20 * 5 : Nat) / (4 * c.s)))
  | 2 => some (some (signed 32 (b.deadline + 2 ^ 32 - s.gptpNs.toNat % 2 ^ 32)))
  | _ => none

/-! ### Submission (R84 to R88) -/

/-- An accepted submission takes the next sequence number and an entry. -/
def State.accept (s : State) (q : Nat) (desc : List Word) (joint : Bool) (lvl : Nat) : State :=
  let u := s.queue q
  let b : Brick :=
    { desc, seq := u.nextSeq, ticket := s.ticket q u.nextSeq, joint, lvl := BitVec.ofNat 2 lvl, arrival := s.arrivals
      was := some s.mem }
  let b := { b with remain := s.remaining b }
  let s1 := s.setQueue q { u with entries := u.entries ++ [b], nextSeq := if u.nextSeq = 1022 then 0 else u.nextSeq + 1 }
  { s1 with arrivals := s.arrivals + 1 }

/-- The 32 words of 64 bytes. -/
def wordsOf (l : List Byte) : List Word := (upto 32).map fun i => BitVec.ofNat 16 (leAt l (2 * i) 2)

/-- A joint submission at its arrival on the C-die (R88): the descriptor is copied by the Mortar link master. A submission
shed for EN, JOINT_EN or the queue makes no copy (log entry 17). -/
def State.jointSubmit (s : State) (q line : Nat) : State :=
  if s.queueRefuses q || !(s.bit .VX_QCFG q 10) then s.shed .KILN_QJSH q
  else match s.readMem ⟨.c, 34⟩ (0x40000000 + 64 * line) 64 with
    | (.error _, s1) => s1.shed .KILN_QJSH q
    | (.ok l, s1) => s1.accept q (wordsOf l) true (s1.fld .VX_QCFG q 9 8)

/-! ### Checks at issue (R90 to R92) -/

/-- Check 2 without the template: reserved fields and encodings. -/
def Brick.fieldsOk (b : Brick) : Bool :=
  !(wbit (b.w 3) 15) && b.nscal ≤ 4 && b.rnd ≤ 4 &&
  (upto 4).all (fun i =>
    wfld (b.w (4 * i + 6)) 10 8 = 0 && b.kind i ≠ 3 && (!(wbit (b.w (4 * i + 6)) 11) || tySize (b.ty i) = 1) &&
    (b.kind i ≠ 2 || (b.ixs i ≠ 3 && b.ixs i ≠ i && b.stride i = 0 && b.kind (b.ixs i) = 1))) &&
  b.dlKind ≠ 3 && wfld (b.w 21) 10 0 = 0 && wfld (b.w 24) 13 8 = 0 && wfld (b.w 25) 9 5 = 0 &&
  wfld (b.w 25) 13 10 < 12 && b.stat % 128 = 0 && (b.nscal = 0 || b.scalAddr % 16 = 0)

/-- Check 2 with the template: G from K3 needs NSCAL 4, a pallet source is linear (R128). -/
def Template.fieldsOk (t : Template) (b : Brick) : Bool :=
  !(t.shape = 2 && t.g = 0 && b.nscal < 4) && (t.psrc = 0 || b.kind t.psrc = 1)

/-- Check 5: types accepted, bf16 for sources only (R77), unused streams marked, index sources u16 or u32 and neither named
nor the pallet's. -/
def Template.typesOk (t : Template) (b : Brick) : Bool :=
  b.ty 3 ≠ 0xB &&
  (upto 4).all fun i =>
    (b.kind i = 0) = (b.ty i = 15) &&
    (if b.indexSource i then (b.ty i = 3 || b.ty i = 5) && !t.names (i + 1) && (t.psrc = 0 || t.psrc ≠ i)
     else wbit (t.accept i) (b.ty i))

/-- The extent of a linear stream of n elements of s bytes: lowest and highest byte address; none of no element. -/
def extent (base : Nat) (stride : Int) (s n : Nat) : Option (Int × Int) :=
  let last := (base : Int) + ((n : Int) - 1) * stride * s
  if n = 0 then none else if 0 ≤ stride then some (base, last + s - 1) else some (last, base + s - 1)

/-- Two extents meet. -/
def meets : Option (Int × Int) → Option (Int × Int) → Bool
  | some a, some b => a.1 ≤ b.2 && b.1 ≤ a.2
  | _, _ => false

/-- The extent of source i. -/
def Template.extentOf (t : Template) (b : Brick) (i : Nat) : Option (Int × Int) :=
  extent (b.base i) (b.stride i) (t.size b i) (t.count b i)

/-- The linear sources. -/
def Brick.linear (b : Brick) : List Nat := (upto 3).filter fun i => b.kind i = 1

/-- The extent of the status area: 256 bytes. -/
def Brick.statExtent (b : Brick) : Option (Int × Int) := some ((2 * b.stat : Nat), (2 * b.stat + 255 : Nat))

/-- The part of check 6 that does not depend on the number of destination elements: the status area meets no source
(R91). -/
def Template.sourcesApart (t : Template) (b : Brick) : Bool := b.linear.all fun i => !meets (t.extentOf b i) b.statExtent

/-- The part of check 6 that depends on it, for nd destination elements: R81, R91, R92. -/
def Template.destOk (t : Template) (b : Brick) (nd : Nat) : Bool :=
  let d := extent (b.base 3) (b.stride 3) (t.size b 3) nd
  let sameAs (i : Nat) : Bool :=
    b.base i = b.base 3 && b.stride i = b.stride 3 && t.size b i = t.size b 3 && t.count b i = nd
  b.kind 3 ≠ 1 ||
  (!(b.stride 3 = 0 && 1 < nd) && b.linear.all (fun i => !meets (t.extentOf b i) d || sameAs i) && !meets d b.statExtent &&
   !(!b.ff && (upto 3).any (fun i => b.kind i = 2) && b.linear.any sameAs))

/-- The checks of R90 in order: the code of the first that fails. For a SEGMENT brick that takes G from K3 the checks that
depend on the number of destination elements follow at setting-out (R128). -/
def State.issueCode (s : State) (q : Nat) (b : Brick) : Option Nat :=
  let bytes := (b.desc.take 31).flatMap fun w => leBytes 2 w.toNat
  if crc16Of 0xFFFF bytes ≠ (b.w 31).toNat then some 0x10
  else if ¬ b.fieldsOk then some 0x15
  else match s.templateOf b with
    | some t =>
      if ¬ t.fieldsOk b then some 0x15
      else if b.cls < s.fld .VX_QCFG q 12 11 then some 0x16
      else if ¬ t.typesOk b then some 0x12
      else if ¬ t.sourcesApart b then some 0x14
      else if t.shape = 2 ∧ t.g = 0 then none
      else if t.shape = 2 ∧ b.len % t.g ≠ 0 then some 0x14
      else if ¬ t.destOk b (t.nDest b t.g) then some 0x14 else none
    | none => if b.cls < s.fld .VX_QCFG q 12 11 then some 0x16 else some 0x11

end Sys2Proof.Machine
end

