-- ==== Sys2Proof/Machine/BrickRun.lean ====
section
/-! DEFINITION. Setting-out, probing and running a brick (03_bricks.md, 04_bonds.md): translations, element reads and
writes, the stages of a bond, reductions, stops and faults, and the status area. -/

namespace Sys2Proof.Machine

open Sys2Proof

/-! ### Reports (R115, R118) -/

/-- FINFO. -/
def finfo (stream ba kind xc : Nat) : Word := BitVec.ofNat 16 (stream * 4096 + ba % 2 * 2048 + kind * 16 + xc)

/-- The brick begins to end with a code (R117). -/
def Brick.finish (b : Brick) (code : Nat) : Brick := { b with st := .ending (BitVec.ofNat 8 code) }

/-- The brick begins to end with a code and a report: element, byte address, FINFO. -/
def Brick.fail (b : Brick) (code felem ba : Nat) (info : Word) : Brick :=
  { b with st := .ending (BitVec.ofNat 8 code), report := some (felem, BitVec.ofNat 32 (ba / 2), info) }

/-- The master of stream i of the cluster that runs the brick (02_tiles.md): VC[0] before a cluster is known. -/
def Brick.port (b : Brick) (i : Nat) : Master := ⟨.c, 16 + 4 * b.clusters.headD 0 + min i 3⟩

/-! ### Setting-out (R93, R94) -/

/-- The window check of one physical address for master group MG1: cause 1 or 5 (R94). -/
def State.spotCause (s : State) (pa : Nat) : Option Nat :=
  let a := s.attr 1 pa
  if a = 3 then some 1
  else if a = 2 || (0x80000000 ≤ pa && pa < 0x8000F000) || (0x90000000 ≤ pa && pa < 0x9001A000) then some 5 else none

/-- The window check of a translated page (R94, R316): every 64 KB of it, the unit of a window, from its base; a page of an
identity ASID at the address used (log entry 87). A no-access window comes before DEV of the leaf. -/
def State.pageCause (s : State) (l : Leaf) (pa : Nat) : Option Nat :=
  let spots := if l.ident then [pa] else (upto (max 1 (2 * l.size / 65536))).map fun i => l.pbase + 65536 * i
  let found := spots.filterMap s.spotCause
  if found.contains 1 then some 1
  else if !l.ident && wbit l.flags 5 then some 5
  else found.head?

/-- One translation of setting-out or of an indexed access: the page, or FINFO's kind and cause. -/
def State.pageAt (s : State) (b : Brick) (stream ba : Nat) (n : Need) : Except (Nat × Nat) SetoutPage × State :=
  match s.streamXlat b.asid (ba / 2 % 2 ^ 32) n b.level with
  | (.error e, s1) => (.error (e.kind, 0), s1)
  | (.ok l, s1) => match s1.pageCause l (l.pa (ba / 2 % 2 ^ 32)) with
    | some c => (.error (5, c), s1)
    | none => (.ok { stream, vbase := 2 * l.vbase, size := 2 * l.size, pbase := l.pbase, ident := l.ident }, s1)

/-- A set-out page holds a byte address of a stream. -/
def SetoutPage.holds (p : SetoutPage) (stream ba : Nat) : Bool := p.stream = stream && p.vbase ≤ ba && ba < p.vbase + p.size

/-- The physical address of a byte in a set-out page. -/
def SetoutPage.pa (p : SetoutPage) (ba : Nat) : Nat := p.pbase + (ba - p.vbase)

/-- The virtual byte address of element k of a linear stream (R80), within the 33-bit byte space of word addresses. -/
def linAddr (b : Brick) (t : Template) (i k : Nat) : Nat :=
  unsigned 33 ((b.base i : Int) + (k : Int) * b.stride i * (t.size b i : Nat))

/-- What setting out a stream came to. -/
inductive SetRes where
  | ok (b : Brick)
  | stop (b : Brick)

/-- The translation of one byte address of a linear stream, unless a page held already has it. -/
def State.setoutByte (s : State) (b : Brick) (stream ba k : Nat) (n : Need) : SetRes × State :=
  let held := b.pages.filter fun p => p.holds stream ba
  if ¬ held.isEmpty then
    match (held.filter fun p => p.ident).findSome? fun p => s.spotCause (p.pa ba) with
    | some c => (.stop (b.fail 0x04 k ba (finfo stream ba 5 c)), s)
    | none => (.ok b, s)
  else if 256 ≤ (b.pages.filter fun p => p.stream = stream).length ∧ stream < 4 then (.stop (b.finish 0x13), s)
  else match s.pageAt b stream ba n with
    | (.error (kind, xc), s1) => (.stop (b.fail 0x04 k ba (finfo stream ba kind xc)), s1)
    | (.ok p, s1) => (.ok { b with pages := b.pages ++ [p] }, s1)

/-- Elements k on of a linear stream, n of them. -/
def State.setoutStream (s : State) (b : Brick) (t : Template) (i : Nat) (need : Need) : Nat → Nat → SetRes × State
  | 0, _ => (.ok b, s)
  | n + 1, k =>
    let ba := linAddr b t i k
    match s.setoutByte b i ba k need with
    | (.stop b', s1) => (.stop b', s1)
    | (.ok b1, s1) => match s1.setoutByte b1 i (ba + t.size b i - 1) k need with
      | (.stop b', s2) => (.stop b', s2)
      | (.ok b2, s2) => s2.setoutStream b2 t i need n (k + 1)

/-- The linear streams in order S0, S1, S2, D0 (log entry 15). -/
def State.setoutStreams (s : State) (t : Template) (nd : Nat) : List Nat → Brick → SetRes × State
  | [], b => (.ok b, s)
  | i :: is, b =>
    if b.kind i ≠ 1 then s.setoutStreams t nd is b
    else match s.setoutStream b t i (if i = 3 then .streamWrite else .streamRead) (if i = 3 then nd else t.count b i) 0 with
      | (.stop b', s1) => (.stop b', s1)
      | (.ok b', s1) => s1.setoutStreams t nd is b'

/-- The physical address of the status area, once it is set out. -/
def Brick.statPa (b : Brick) : Option Nat :=
  (b.pages.find? fun p => p.stream = 4).map fun p => p.pa (2 * b.stat)

/-- The saved partials of a status area for a prefix of n elements: one for each set bit, from the most significant (R107). -/
def savedParts (l : List Byte) (chk : Bool) (n pcnt : Nat) : Parts :=
  let bits := (upto 24).filter fun i => n.testBit i
  let val (j : Nat) : W64 := BitVec.ofNat 64 (leAt l (32 + 8 * j) 8)
  if chk then (if pcnt = 0 then [] else [(0, val 0)])
  else (bits.zipIdx).map fun e => (e.1, val (bits.length - 1 - e.2))

/-- The segment length in force: none for a G from K3 that R128 refuses. -/
def Brick.segOf (b : Brick) (t : Template) : Nat := if t.g ≠ 0 then t.g else (b.scal.getD 3 0).toNat % 2 ^ 24

/-- Setting-out after the status area: scalar block, segment length, streams (R82, R93, R128). An error response to the
read of the scalar block: log entry 16. -/
def State.setoutRest (s : State) (t : Template) (b : Brick) : Brick × State :=
  let scal : SetRes × State :=
    if b.nscal = 0 then (.ok b, s)
    else match s.setoutByte b 5 (2 * b.scalAddr) 0 .streamRead with
      | (.stop b', s1) => (.stop b', s1)
      | (.ok b1, s1) =>
        match b1.pages.find? (fun p => p.stream = 5) with
        | none => (.ok b1, s1)
        | some p => match s1.readMem (b1.port 0) (p.pa (2 * b.scalAddr)) (8 * b.nscal) true with
          | (.error c, s2) => (.stop (b1.fail 0x04 0 (2 * b.scalAddr) (finfo 5 0 5 c.toNat)), s2)
          | (.ok l, s2) => (.ok { b1 with scal := (upto b.nscal).map fun j => BitVec.ofNat 64 (leAt l (8 * j) 8) }, s2)
  match scal with
  | (.stop b', s1) => (b', s1)
  | (.ok b1, s1) =>
    let g := b1.segOf t
    let nd := t.nDest b1 g
    if t.shape = 2 ∧ t.g = 0 ∧ (g = 0 ∨ b1.len % (max g 1) ≠ 0 ∨ ¬ t.destOk b1 nd) then (b1.finish 0x14, s1)
    else match s1.setoutStreams t nd [0, 1, 2, 3] { b1 with seg := g } with
      | (.stop b', s2) => (b', s2)
      | (.ok b2, s2) => ({ b2 with st := if b2.scatter then .probe else .run }, s2)

/-- The checks of a CONT brick over its status area (R105): what it continues, or none. -/
def contOf (t : Template) (b : Brick) (l : List Byte) : Option Brick :=
  let e := leAt l 0 2
  let code := e % 256
  let k := leAt l 4 4 % 2 ^ 24
  if e / 32768 % 2 = 1 ∧ (code = 1 ∨ code = 2 ∨ code = 6 ∨ code = 7 ∨ code = 8) ∧ k < b.len then
    let pcnt := leAt l 24 2 % 32
    let ps := if isRed t.last.op ∨ isChk t.last.op then savedParts l (isChk t.last.op) k pcnt else []
    some { b with k, flags := BitVec.ofNat 6 (leAt l 2 2), parts := ps }
  else none

/-- The partials of a SEGMENT brick cover the segment in progress only (R140): once G is known the prefix is taken modulo
G. -/
def Brick.segParts (b : Brick) (t : Template) (l : List Byte) : Brick :=
  if t.shape = 2 ∧ b.seg ≠ 0 ∧ b.cont ∧ (isRed t.last.op ∨ isChk t.last.op) then
    { b with parts := savedParts l (isChk t.last.op) (b.k % b.seg) (leAt l 24 2 % 32) }
  else b

/-- A brick that ends before its run has committed nothing: COMMITTED, FLAGS and PCNT 0, a CONT brick's too (R89, R93, R101,
R128). -/
def Brick.uncommitted (b : Brick) : Brick := { b with k := 0, flags := 0, parts := [] }

/-- Setting-out of a brick (R93): the status area first, then the checks of a CONT brick, then the rest. A status area that
cannot be used ends the brick under R116. A CONT brick reads the status area whole (log entry 18). -/
def State.setout (s : State) (t : Template) (b : Brick) : Brick × State :=
  match s.setoutByte b 4 (2 * b.stat) 0 .streamWrite with
  | (.stop b', s1) => ({ (b'.finish 0x17) with statusOk := false, report := none }, s1)
  | (.ok b1, s1) =>
    if ¬ b.cont then s1.setoutRest t b1
    else match s1.readMem (b1.port 0) (b1.statPa.getD 0) 224 true with
      | (.error _, s2) => ({ (b1.finish 0x17) with statusOk := false }, s2)
      | (.ok l, s2) => match contOf t b1 l with
        | none => (b1.finish 0x15, s2)
        | some b2 => let (b3, s3) := s2.setoutRest t b2; (if b3.live then b3.segParts t l else b3.uncommitted, s3)

/-! ### Access to elements -/

/-- What an element access came to, other than data: a translation fault of an indexed access, or an error response. -/
inductive ElemErr where
  | xlat (kind : Nat) (stream ba : Nat)
  | mem (cause : Nat) (stream ba : Nat)

/-- The parts of an element on each side of an 8 KB page boundary. -/
def pageParts (ba n : Nat) : List (Nat × Nat) :=
  let r := 8192 - ba % 8192
  if n ≤ r then [(ba, n)] else [(ba, r), (ba + r, n - r)]

/-- One of the pages of a list that hold a byte of a stream, not predictable which (R323). -/
def State.pickPage (s : State) (l : List SetoutPage) (i ba : Nat) : Option SetoutPage × State :=
  match l.filter fun p => p.holds i ba with
  | [] => (none, s)
  | [p] => (some p, s)
  | p :: r => let (k, s1) := s.draw; ((p :: r)[k % (r.length + 1)]?, s1)

/-- The physical address of a byte of a linear stream. -/
def State.linPa (s : State) (b : Brick) (i ba : Nat) : Nat × State :=
  match s.pickPage b.pages i ba with
  | (some p, s1) => (p.pa ba, s1)
  | (none, s1) => (ba, s1)

/-- A stream beat through a leaf with the device attribute: cause 5, or 1 where a no-access window covers the address; the
error response is logged (R68, R70, R316). -/
def State.devBeat (s : State) (b : Brick) (i ba pa : Nat) : Except ElemErr Nat × State :=
  let c := if s.attr (masterGroup (b.port i)) pa = 3 then 1 else 5
  (.error (.mem c i ba), s.logError (b.port i) c (i = 3) pa)

/-- The physical address of a byte of an indexed stream (R101, R102): in the apply pass, not predictable which of the
probe's translation and the current one. -/
def State.gatherPa (s : State) (b : Brick) (i ba : Nat) : Except ElemErr Nat × State :=
  let n : Need := if i = 3 then .streamWrite else .streamRead
  let cur (s : State) : Except ElemErr Nat × State :=
    match s.streamXlat b.asid (ba / 2 % 2 ^ 32) n b.level with
    | (.error e, s1) => (.error (.xlat e.kind i ba), s1)
    | (.ok l, s1) =>
      let pa := l.pbase + (ba - 2 * l.vbase)
      if !l.ident && wbit l.flags 5 then s1.devBeat b i ba pa else (.ok pa, s1)
  match s.pickPage b.probePages i ba with
  | (none, s1) => cur s1
  | (some p, s1) =>
    let (x, s2) := s1.drawBit
    if ¬ x then cur s2 else if p.dev then s2.devBeat b i ba (p.pa ba) else (.ok (p.pa ba), s2)

/-- The physical address of a byte of stream i. -/
def State.elemPa (s : State) (b : Brick) (i ba : Nat) : Except ElemErr Nat × State :=
  if b.kind i = 2 then s.gatherPa b i ba else let (pa, s1) := s.linPa b i ba; (.ok pa, s1)

/-- Beat by beat one of two readings, not predictable which, where they differ (R91, R112). -/
def State.eitherBeats (s : State) : List (Nat × Nat) → List Byte → List Byte → List Byte × State
  | [], _, _ => ([], s)
  | (_, n) :: ps, new, old =>
    let (x, s1) := if new.take n = old.take n then (true, s) else s.drawBit
    let (r, s2) := s1.eitherBeats ps (new.drop n) (old.drop n)
    ((if x then new.take n else old.take n) ++ r, s2)

/-- A read by a brick of n bytes at a physical address that answered l: where the old values of R91 and R112 differ, each
beat takes either. -/
def State.oldOrNew (s : State) (b : Brick) (i pa n : Nat) (l : List Byte) : List Byte × State :=
  match b.was with
  | none => (l, s)
  | some m => match (({ s with mem := m }).readMem (b.port i) pa n true).1 with
    | .ok old => s.eitherBeats (pieces (n + 1) pa n) l old
    | .error _ => (l, s)

/-- Read the parts of an element. -/
def State.readParts (s : State) (b : Brick) (i : Nat) : List (Nat × Nat) → Except ElemErr (List Byte) × State
  | [] => (.ok [], s)
  | (ba, n) :: ps =>
    match s.elemPa b i ba with
    | (.error e, s1) => (.error e, s1)
    | (.ok pa, s1) => match s1.readMem (b.port i) pa n true with
      | (.error c, s2) => (.error (.mem c.toNat i ba), s2)
      | (.ok l0, s2) =>
        let (l, s3) := s2.oldOrNew b i pa n l0
        match s3.readParts b i ps with
        | (.error e, s4) => (.error e, s4)
        | (.ok l', s4) => (.ok (l ++ l'), s4)

/-- A beat of a destination element: its byte address in the stream, its physical address, its bytes. -/
structure DestBeat where
  ba : Nat
  pa : Nat
  bytes : List Byte
  deriving DecidableEq, Repr

/-- The beats of the parts of a destination element, each part translated. -/
def State.destBeats (s : State) (b : Brick) (i : Nat) : List (Nat × Nat) → List Byte → Except ElemErr (List DestBeat) × State
  | [], _ => (.ok [], s)
  | (ba, n) :: ps, l =>
    match s.elemPa b i ba with
    | (.error e, s1) => (.error e, s1)
    | (.ok pa, s1) => match s1.destBeats b i ps (l.drop n) with
      | (.error e, s2) => (.error e, s2)
      | (.ok r, s2) =>
        (.ok ((pieces (n + 1) pa n).map (fun p => { ba := ba + (p.1 - pa), pa := p.1, bytes := bytesAt l (p.1 - pa) p.2 }) ++ r), s2)

/-- Another brick's write: to every other brick in the queues the bytes are no old values (R91, R112 speak of the brick's own
writes and of software's). -/
def State.noteWrite (s : State) (b : Brick) (x : DestBeat) : State :=
  let note (y : Brick) : Brick :=
    if y.arrival = b.arrival then y
    else { y with was := y.was.map fun m => (({ s with mem := m }).writeBeat (b.port 3) x.pa x.bytes true).2.mem }
  if s.bricks.length ≤ 1 then s
  else { s with queues := s.queues.map fun u => { u with entries := u.entries.map note } }

/-- A beat written, if it is not refused. -/
def State.writeDest (s : State) (b : Brick) (x : DestBeat) : Answer Unit × State :=
  match s.writeBeat (b.port 3) x.pa x.bytes true with
  | (.ok _, s1) => (.ok (), s1.noteWrite b x)
  | r => r

/-- The beats of an element in order; where one fails, that one with its cause and every other. -/
def eachBeat (write : State → DestBeat → Answer Unit × State) (s : State) (before : List DestBeat) :
    List DestBeat → Option (DestBeat × Nat × List DestBeat) × State
  | [] => (none, s)
  | x :: after =>
    match write s x with
    | (.ok _, s1) => eachBeat write s1 (before ++ [x]) after
    | (.error c, s1) => (some (x, c.toNat, before ++ after), s1)

/-- Write a destination element (R104): a beat that fails was not written, and of the element's other beats each was written
or not, not predictable which. -/
def State.writeParts (s : State) (b : Brick) (i : Nat) (ps : List (Nat × Nat)) (l : List Byte) : Except ElemErr Unit × State :=
  match s.destBeats b i ps l with
  | (.error e, s1) => (.error e, s1)
  | (.ok beats, s1) => match eachBeat (fun s x => s.writeDest b x) s1 [] beats with
    | (none, s2) => (.ok (), s2)
    | (some (x, c, others), _) =>
      (.error (.mem c i x.ba), others.foldl (fun s y => let (w, s2) := s.drawBit; if w then (s2.writeDest b y).2 else s2)
        (s1.writeDest b x).2)

/-- Element k of a linear stream. -/
def State.readLin (s : State) (t : Template) (b : Brick) (i k : Nat) : Except ElemErr Nat × State :=
  match s.readParts b i (pageParts (linAddr b t i k) (t.size b i)) with
  | (.error e, s1) => (.error e, s1)
  | (.ok l, s1) => (.ok (leNat l), s1)

/-- The byte address of element k of stream i: an indexed stream reads its index first (R80). -/
def State.elemAddr (s : State) (t : Template) (b : Brick) (i k : Nat) : Except ElemErr Nat × State :=
  if b.kind i = 2 then
    match s.readLin t b (b.ixs i) k with
    | (.error e, s1) => (.error e, s1)
    | (.ok x, s1) => (.ok ((b.base i + x * t.size b i) % 2 ^ 33), s1)
  else (.ok (linAddr b t i k), s)

/-- Element k of source i. -/
def State.readElem (s : State) (t : Template) (b : Brick) (i k : Nat) : Except ElemErr Nat × State :=
  match s.elemAddr t b i k with
  | (.error e, s1) => (.error e, s1)
  | (.ok ba, s1) => match s1.readParts b i (pageParts ba (t.size b i)) with
    | (.error e, s2) => (.error e, s2)
    | (.ok l, s2) => (.ok (leNat l), s2)

/-- Destination element j takes a value. -/
def State.writeElem (s : State) (t : Template) (b : Brick) (j v : Nat) : Except ElemErr Unit × State :=
  match s.elemAddr t b 3 j with
  | (.error e, s1) => (.error e, s1)
  | (.ok ba, s1) => s1.writeParts b 3 (pageParts ba (t.size b 3)) (leBytes (t.size b 3) v)

/-! ### The stages for one element -/

/-- Values of the sources that stages name, 0 for the others. -/
def State.readSources (s : State) (t : Template) (b : Brick) (k : Nat) : List Nat → Except ElemErr (List Nat) × State
  | [] => (.ok [], s)
  | i :: is =>
    if ¬ t.names (i + 1) then
      match s.readSources t b k is with
      | (.error e, s1) => (.error e, s1)
      | (.ok l, s1) => (.ok (0 :: l), s1)
    else match s.readElem t b i k with
      | (.error e, s1) => (.error e, s1)
      | (.ok v, s1) => match s1.readSources t b k is with
        | (.error e, s2) => (.error e, s2)
        | (.ok l, s2) => (.ok (v :: l), s2)

/-- The pallet: the first PLEN elements of PSRC, each with its value or the error response of its beat (R129). -/
def State.loadPallet (s : State) (t : Template) (b : Brick) : Nat → Nat → List (Except ElemErr Nat) × State
  | 0, _ => ([], s)
  | n + 1, k =>
    let (v, s1) := s.readLin t b t.psrc k
    let (l, s2) := s1.loadPallet t b n (k + 1)
    (v :: l, s2)

/-- The lowest element from b.k on that a failing beat of a pallet load served, with the error: element i is served by
pallet element i mod PLEN (R104, R129). A beat that serves none of them counts for element b.k. Log entry 88. -/
def palletStop (t : Template) (b : Brick) (pal : List (Except ElemErr Nat)) : Option (Nat × ElemErr) :=
  let err (i : Nat) : Option ElemErr := match pal[i]? with
    | some (.error e) => some e
    | _ => none
  match (upto (min t.plen (b.len - b.k))).findSome? fun d => (err ((b.k + d) % t.plen)).map fun e => (b.k + d, e) with
  | some r => some r
  | none => ((upto t.plen).findSome? err).map fun e => (b.k, e)

/-- What the stages of one element work on. -/
structure ElemEnv where
  t : Template
  b : Brick
  srcs : List Nat
  pallet : List Nat
  k : Nat

/-- The stream types of a brick. -/
def Brick.types (b : Brick) : List Nat := [b.ty 0, b.ty 1, b.ty 2]

/-- The value of an operand source (R126). -/
def ElemEnv.val (e : ElemEnv) (res : List Nat) (src ty : Nat) : Nat :=
  if 1 ≤ src ∧ src ≤ 3 then e.srcs.getD (src - 1) 0
  else if 4 ≤ src ∧ src ≤ 6 then res.getD (src - 4) 0
  else if src = 7 then e.pallet.getD (e.k % max e.t.plen 1) 0
  else if 8 ≤ src ∧ src ≤ 11 then (e.b.scal.getD (src - 8) 0).toNat % 2 ^ tyBits ty
  else if src = 12 then e.k
  else 0

/-- The results and types of the stages before a RED or CRC stage, with their flags; and operand A of that last stage with
its type. -/
def ElemEnv.run (e : ElemEnv) : List Stage → List Nat → List Nat → Nat → (Nat × Nat × Nat)
  | [], res, tys, fl => (res.getLastD 0, tys.getLastD 15, fl)
  | st :: rest, res, tys, fl =>
    let pal := e.b.ty e.t.psrc
    let d0 := e.b.ty 3
    let last := rest.isEmpty
    let o (p : Nat) : Nat := (operandTy e.b.types tys pal d0 last st p).getD 15
    let a := e.val res st.a (o 0)
    if isRed st.op || isChk st.op then (a, o 0, fl)
    else
      let rt := (declTy e.b.types tys pal d0 last st).getD 15
      let r := evalOp e.b.rnd e.b.ftz st rt (o 0) a (o 1) (e.val res st.b (o 1)) (o 2) (e.val res st.c (o 2)) e.k
      e.run rest (res ++ [r.v]) (tys ++ [rt]) (fl ||| r.fl)

/-! ### Running -/

/-- What stops a run at an element. -/
inductive RunStop where
  | none
  | gather (kind stream ba : Nat)
  | mem (cause stream ba : Nat)
  | flag (sel : Nat)

/-- The result for one element once its operands are read: partials, destination writes (index and value), combine flags.
The one result of a FULL bond is written only when the element does not stop the brick (`done`; R97). -/
def outputs (t : Template) (b : Brick) (k a ta : Nat) (done : Bool) : Parts × List (Nat × Nat) × Nat :=
  let st := t.last
  let acc := b.ty 3
  let seg := max b.seg 1
  let endSeg := t.shape = 2 ∧ (k + 1) % seg = 0
  if isRed st.op then
    let cmb := combine b.rnd b.ftz st.sat st.op acc
    let l := leafOf b.ftz ta acc a
    let (ps, f1) := pushPart cmb 32 (0, l.v) b.parts
    let fl := l.fl ||| f1
    if t.shape = 3 ∨ endSeg ∨ (t.shape = 1 ∧ k + 1 = b.len ∧ done) then
      let r := foldParts cmb ps
      let j := if t.shape = 3 then k else if t.shape = 2 then k / seg else 0
      (if endSeg then [] else ps, [(j, r.v)], fl ||| r.fl)
    else (ps, [], fl)
  else if isChk st.op then
    let r0 := match b.parts with
      | (_, w) :: _ => w.toNat
      | [] => checkInit st.op st.imm ((b.scal.getD 0 0).toNat)
    let r := checkElem st.op (if ta < 15 then tySize ta else 0) r0 a
    let ps : Parts := [(0, BitVec.ofNat 64 r)]
    if endSeg ∨ (t.shape = 1 ∧ k + 1 = b.len ∧ done) then
      (if endSeg then [] else ps, [(if t.shape = 2 then k / seg else 0, checkResult st.op st.imm r)], 0)
    else (ps, [], 0)
  else ([], [(k, a)], 0)

/-- Destination writes in order. -/
def State.writeOuts (s : State) (t : Template) (b : Brick) : List (Nat × Nat) → Except ElemErr Unit × State
  | [] => (.ok (), s)
  | (j, v) :: l =>
    match s.writeElem t b j v with
    | (.error e, s1) => (.error e, s1)
    | (.ok _, s1) => s1.writeOuts t b l

/-- How an element error stops the run. -/
def ElemErr.stop : ElemErr → RunStop
  | .xlat k i ba => .gather k i ba
  | .mem c i ba => .mem c i ba

/-- One element (R97, R103): committed, or the stop. With `wr` false its results are computed and not written. -/
def State.runElem (s : State) (t : Template) (b : Brick) (pal : List Nat) (wr : Bool) : RunStop × Brick × State :=
  match s.readSources t b b.k [0, 1, 2] with
  | (.error e, s1) => (e.stop, b, s1)
  | (.ok srcs, s1) =>
    let env : ElemEnv := { t, b, srcs, pallet := pal, k := b.k }
    let (a, ta, fl) := env.run t.ops [] [] 0
    let (ps, outs, cfl) := outputs t b b.k a ta (fl &&& b.sof = 0)
    match (if wr then s1.writeOuts t b outs else (.ok (), s1)) with
    | (.error e, s2) => (e.stop, b, s2)
    | (.ok _, s2) =>
      let b' := { b with k := b.k + 1, flags := b.flags ||| BitVec.ofNat 6 (fl ||| cfl), parts := ps }
      if fl &&& b.sof ≠ 0 then (.flag (fl &&& b.sof), b', s2) else (.none, b', s2)

/-- Up to n elements. -/
def State.runElems (s : State) (t : Template) (pal : List Nat) (wr : Bool) : Nat → Brick → RunStop × Brick × State
  | 0, b => (.none, b, s)
  | n + 1, b =>
    match s.runElem t b pal wr with
    | (.none, b1, s1) => s1.runElems t pal wr n b1
    | r => r

/-- The elements that the run may reach: LENGTH, or the element of a probe fault with FF 1 (R101). -/
def Brick.limit (b : Brick) : Nat :=
  match b.probeFault with
  | some (k, _, _) => min k b.len
  | none => b.len

/-- After elements are committed: DONE at LENGTH, FIRST_FAULT at a probe fault's element, otherwise still running. -/
def Brick.settled (b : Brick) : Brick :=
  if b.k < b.limit then b
  else match b.probeFault with
    | some (k, va, info) => if k < b.len then { b with st := .ending 2, report := some (k, va, info) } else b.finish 0
    | none => b.finish 0

/-- A brick that R99 may end at any count: FF 0, gather accesses, and no scatter. -/
def Brick.mayGather (b : Brick) : Bool := !b.ff && !b.scatter && (upto 3).any fun i => b.kind i = 2

/-- Run b up to `upTo` in two pieces: as many elements as a draw says are released, the others are worked on and not
released. How far the first piece got, and the state. -/
def State.runHeld (s : State) (t : Template) (pal : List Nat) (b : Brick) (n m : Nat) : Brick × State :=
  let (d, s1) := s.draw
  let (_, b2, s2) := s1.runElems t pal true (d % (n + 1)) b
  let (_, _, s3) := s2.runElems t pal false (b.k + m - b2.k) b2
  (b2, s3)

/-- How a run that has been made ends (R97 to R104); `s1` is the state before it. -/
def State.runEnd (s1 : State) (t : Template) (pal : List Nat) (b : Brick) : RunStop × Brick × State → Brick × State
  | (.none, b1, s2) => (b1.settled, s2)
  | (.flag f, b1, s2) => ({ (b1.finish 0x01) with stopFlags := BitVec.ofNat 6 f, report := some (b1.k - 1, 0, 0) }, s2)
  | (.mem c i ba, b1, s2) => (b1.fail 0x06 b1.k ba (finfo i ba 5 c), s2)
  | (.gather kind i ba, b1, s2) =>
    let info := finfo i ba kind 0
    if b.scatter then (b1.fail 0x08 b1.k ba info, s2)
    else if b.ff then (b1.fail 0x02 b1.k ba info, s2)
    else
      let (b2, s3) := s1.runHeld t pal b (b1.k - b.k) (b1.k + 1 - b.k)
      ({ (b2.fail 0x05 b1.k ba info) with parts := [] }, s3)

/-- A run with the pallet's values, up to `upTo` or to the element at which a failing beat of the pallet load stops it: element,
cause, stream, address. -/
def State.runWith (s1 : State) (t : Template) (b : Brick) (upTo : Nat) (all : Bool) (vals : List Nat)
    (stop : Option (Nat × Nat × Nat × Nat)) : Brick × State :=
  match s1.runElems t vals true ((stop.map fun e => e.1).getD upTo - b.k) b with
  | (.none, b1, s2) => match stop with
    | some (e, c, i, ba) => (b1.fail 0x06 e ba (finfo i ba 5 c), s2)
    | none =>
      if all ∨ b.limit ≤ upTo ∨ ¬ b.mayGather then (b1.settled, s2)
      else let (b2, s3) := s1.runHeld t vals b (upTo - b.k) (upTo - b.k); ({ b2 with seen := upTo }, s3)
  | r => s1.runEnd t vals b r

/-- Run elements from b.k up to `upTo` (R97 to R104): the brick with what it committed and, if it stopped, its end. Of a
brick that R99 may end at any count, how much of the work is released is open until it ends or is suspended (`all`). -/
def State.runTo (s : State) (t : Template) (b : Brick) (upTo : Nat) (all : Bool) : Brick × State :=
  if upTo ≤ b.k then (b.settled, s)
  else
    let (pal, s1) := if t.psrc = 0 then ([], s) else s.loadPallet t b t.plen 0
    let vals := pal.map fun v => match v with
      | .ok n => n
      | .error _ => 0
    let stop := match palletStop t b pal with
      | some (e, .mem c i ba) => if e < upTo then some (e, c, i, ba) else none
      | _ => none
    s1.runWith t b upTo all vals stop

/-- The end of the block that holds the next element to work on (R97). -/
def Brick.blockEnd (b : Brick) : Nat := min b.limit ((max b.k b.seen / 1024 + 1) * 1024)

/-- The probe of one byte of an indexed stream (R101). -/
def State.probeByte (s : State) (b : Brick) (i k ba : Nat) : SetRes × State :=
  match s.streamXlat b.asid (ba / 2 % 2 ^ 32) (if i = 3 then .streamWrite else .streamRead) b.level with
  | (.error e, s1) => (.stop (b.fail 0x05 k ba (finfo i ba e.kind 0)), s1)
  | (.ok l, s1) =>
    let p : SetoutPage :=
      { stream := i, vbase := 2 * l.vbase, size := 2 * l.size, pbase := l.pbase, dev := !l.ident && wbit l.flags 5, ident := l.ident }
    (.ok { b with probePages := if b.probePages.any (fun q => q = p) then b.probePages else p :: b.probePages }, s1)

/-- The destination element that is written when element k is done, if one is (R81, R128). -/
def Template.destAt (t : Template) (b : Brick) (k : Nat) : Option Nat :=
  match t.shape with
  | 1 => if k + 1 = b.len then some 0 else none
  | 2 => if (k + 1) % max b.seg 1 = 0 then some (k / max b.seg 1) else none
  | _ => some k

/-- The probe of element k of the indexed streams among is; D0 is probed for the destination element that k writes. -/
def State.probeElem (s : State) (t : Template) (k : Nat) : List Nat → Brick → SetRes × State
  | [], b => (.ok b, s)
  | i :: is, b =>
    let j := if i = 3 then t.destAt b k else some k
    if b.kind i ≠ 2 ∨ j = none then s.probeElem t k is b
    else match s.elemAddr t b i (j.getD 0) with
      | (.error (.mem c j ba), s1) => (.stop (b.fail 0x06 k ba (finfo j ba 5 c)), s1)
      | (.error (.xlat e j ba), s1) => (.stop (b.fail 0x05 k ba (finfo j ba e 0)), s1)
      | (.ok ba, s1) => match s1.probeByte b i k ba with
        | (.stop b', s2) => (.stop b', s2)
        | (.ok b1, s2) => match s2.probeByte b1 i k (ba + t.size b i - 1) with
          | (.stop b', s3) => (.stop b', s3)
          | (.ok b2, s3) => s3.probeElem t k is b2

/-- The PROBE pass over n elements from k. -/
def State.probeFrom (s : State) (t : Template) : Nat → Nat → Brick → SetRes × State
  | 0, _, b => (.ok b, s)
  | n + 1, k, b =>
    match s.probeElem t k [0, 1, 2, 3] b with
    | (.stop b', s1) => (.stop b', s1)
    | (.ok b1, s1) => s1.probeFrom t n (k + 1) b1

/-- The PROBE pass up to element n (R101, R106): b has probed that far, or a fault ends the brick (FF 0) or bounds its run
(FF 1). -/
def State.probeTo (s : State) (t : Template) (b : Brick) (n : Nat) : Brick × State :=
  let k := max b.k b.probed
  match s.probeFrom t (min n b.len - k) k b with
  | (.ok b1, s1) => ({ b1 with probed := max k (min n b.len) }, s1)
  | (.stop b1, s1) =>
    match b1.st, b1.report with
    | .ending 0x05, some r =>
      if b.ff then ({ b1 with st := .run, report := none, probeFault := some r, probed := r.1 }, s1) else (b1.uncommitted, s1)
    | _, _ => (b1, s1)

/-- The rest of the PROBE pass: complete, the brick runs. -/
def State.probe (s : State) (t : Template) (b : Brick) : Brick × State :=
  let (b1, s1) := s.probeTo t b b.len
  (if b1.st = .probe then { b1 with st := .run } else b1, s1)

/-! ### The status area (R115) -/

/-- Bytes of the saved partials, from the most significant set bit. -/
def Brick.partBytes (b : Brick) : List Byte := b.parts.reverse.flatMap fun p => leBytes 8 p.2.toNat

/-- The words of the status area that an end writes there, as (byte offset, bytes), END last. `endw` is END. A stop under
R103 or R109 has no fault address: FVA and FINFO keep their values. Log entry 32. -/
def Brick.statusWrites (b : Brick) (endw : Nat) : List (Nat × List Byte) :=
  let rep := match b.report, b.st with
    | some (fe, _, _), .ending 1 | some (fe, _, _), .ending 7 => [(8, leBytes 4 fe)]
    | some (fe, va, info), _ => [(8, leBytes 4 fe ++ leBytes 4 va.toNat ++ leBytes 2 info.toNat)]
    | none, _ => []
  [(2, leBytes 2 (b.stopFlags.toNat * 256 + b.flags.toNat) ++ leBytes 4 b.k)] ++ rep ++
  [(18, leBytes 2 (min b.suspends 255 * 256 + b.ranOn.toNat) ++ leBytes 4 (b.energy % 2 ^ 32) ++
      leBytes 2 b.parts.length ++ leBytes 2 0 ++ leBytes 2 (b.w 30).toNat ++ leBytes 2 0),
   (32, b.partBytes), (0, leBytes 2 endw)]

/-- The words that a suspension writes (R106): COMMITTED, FLAGS, PCNT, the partials, END with V 0 and SUSPENDS. -/
def Brick.suspWrites (b : Brick) : List (Nat × List Byte) :=
  [(2, leBytes 2 b.flags.toNat ++ leBytes 4 b.k), (18, leBytes 2 (min b.suspends 255 * 256 + b.ranOn.toNat)),
   (24, leBytes 2 b.parts.length), (32, b.partBytes), (0, leBytes 2 0)]

/-- Writes to the status area in order; false where one received an error response. -/
def State.statusPieces (s : State) (m : Master) (pa : Nat) : List (Nat × List Byte) → Bool × State
  | [] => (true, s)
  | (o, l) :: r =>
    match s.writeMem m (pa + o) l true with
    | (.error _, s1) => (false, s1)
    | (.ok _, s1) => s1.statusPieces m pa r

/-- A status write: the area is translated if setting-out has not done so; false where it cannot be written. -/
def State.statusWrite (s : State) (b : Brick) (ws : List (Nat × List Byte)) : Bool × State :=
  match b.statPa with
  | some pa => s.statusPieces (b.port 3) pa ws
  | none => match s.pageAt b 4 (2 * b.stat) .streamWrite with
    | (.error _, s1) => (false, s1)
    | (.ok p, s1) => s1.statusPieces (b.port 3) (p.pa (2 * b.stat)) ws

end Sys2Proof.Machine
end

