-- ==== Sys2Proof/Machine/Kiln.lean ====
section
/-! DEFINITION. The kiln (05_kiln.md): zones and sensors, budgets, estimates and charges, eligibility and the order of
admission, suspension for a more urgent brick, clock steps, the VID target. -/

namespace Sys2Proof.Machine

open Sys2Proof

/-! ### Zones (R152 to R154, R175) -/

/-- Field f of zone z of the KILN section. -/
def State.kp (s : State) (z f : Nat) : Nat := s.param (1274 + 14 * z + f)
/-- A temperature field. -/
def State.kt (s : State) (z f : Nat) : Int := signed 16 (s.kp z f)
/-- Zone z. -/
def State.zone (s : State) (z : Nat) : Zone := Tab.get {} s.zones z
/-- The state with zone z replaced. -/
def State.setZone (s : State) (z : Nat) (v : Zone) : State := { s with zones := Tab.set {} z v s.zones }

/-- A zone is governed once its die's phase has laid it out (R154): KZ[0..4] by C_DONE, KZ[5] by F_DONE. -/
def State.zoneOn (s : State) (z : Nat) : Bool := if z = 5 then s.bit .BIMG_STATUS 0 12 else s.bit .BIMG_STATUS 0 13

/-- A reading that is not left out: no conversion fault, from −55 °C to 160 °C (R152). -/
def goodReading (r : Option Word) : Option Int :=
  match r with
  | some w => let t := signed 16 w.toNat; if -880 ≤ t ∧ t ≤ 2560 then some t else none
  | none => none

/-- Reading k of zone z among the 24 of a sample. -/
def readingAt (temps : List (Option Word)) (z k : Nat) : Option Int := goodReading (temps.getD (4 * z + k) none)

/-- The highest of some numbers. -/
def maxInt : List Int → Option Int
  | [] => none
  | x :: l => match maxInt l with
    | some y => some (if x < y then y else x)
    | none => some x

/-- The region a temperature lies in, without hysteresis (R153). -/
def regionOf (warn hot crit t : Int) : Nat := if crit < t then 3 else if hot ≤ t then 2 else if warn ≤ t then 1 else 0

/-- Moves to cooler regions from `cur` down to `goal`, each below its threshold less HYST (R153). -/
def coolTo (th : List Int) (hyst t : Int) (goal : Nat) : Nat → Nat
  | 0 => 0
  | c + 1 => if goal < c + 1 ∧ t < th.getD c 0 - hyst then coolTo th hyst t goal c else c + 1

/-- The refill rate r of R154. -/
def rateOf (rmax rhot floor : Nat) (warn hot crit t : Int) : Int :=
  if t ≤ warn then rmax
  else if t ≤ hot then rmax - (((rmax : Int) - rhot) * (t - warn)).tdiv (hot - warn)
  else if t ≤ crit then rhot - (((rhot : Int) - floor) * (t - hot)).tdiv (crit - hot)
  else floor

/-- A bucket limited below at −cap. -/
def bucketFloor (cap : Nat) (v : Int) : Int := max v (-(cap : Int))

/-- KILN_INT_STAT bit b is set (R177). The register lies on the C-die: while that is held in reset there is none. -/
def State.kilnInt (s : State) (b : Nat) : State :=
  if s.pw.cReset then s else s.raiseStat .KILN_INT_STAT .KILN_INT_EN b (s.fld .KILN_CTRL 0 2 0) 5

/-- A brick runs in the sense of R165 and R170: in PROBE or RUN. -/
def Brick.running (b : Brick) : Bool := b.st = .probe || b.st = .run

/-- Ask for the suspension of every brick that f picks among those in SETOUT, PROBE and RUN; in SETOUT the request waits
(R106, R170). -/
def State.askSuspend (s : State) (f : Brick → Bool) : State :=
  (upto 16).foldl (fun s q =>
    let u := s.queue q
    s.setQueue q { u with entries := u.entries.map fun b => if (b.running || b.st = .setout) && f b then { b with suspendReq := true } else b }) s

/-- What a zone's region becomes (R153) and what follows: interrupt bits, and suspension on entry to CRIT (R170). -/
def State.enterRegion (s : State) (z old new : Nat) : State :=
  let s1 := (upto 3).foldl (fun s i => if old < i + 1 ∧ i + 1 ≤ new then s.kilnInt i else s) s
  let s2 := if new = 0 ∧ old ≠ 0 then s1.kilnInt 6 else s1
  if new = 3 ∧ old ≠ 3 ∧ s2.bit .KILN_CTRL 0 13 = true then
    s2.askSuspend fun b => !b.rt && (z = 4 || b.clusters.contains z)
  else s2

/-- A cluster is idle: no brick has it. -/
def State.clusterIdle (s : State) (n : Nat) : Bool := s.bricks.all fun e => !e.2.clusters.contains n

/-- The sample and the refill of a zone (R152 to R154); `drawn` is the energy that each zone's current sensor metered in the
last microsecond: KZ[4] and KZ[5] pay it (R176), and an idle cluster's zone learns its idle power from it (R159; log entry
89). Sensors are judged sample by sample. Log entry 31. -/
def State.refillZone (s : State) (temps : List (Option Word)) (drawn : List Nat) (z : Nat) : State :=
  if ¬ s.zoneOn z then s
  else
    let x := s.zone z
    let en := s.kp z 10 % 16
    let sensors := (upto 4).filter fun k => en.testBit k
    let good := sensors.filter fun k => (readingAt temps z k).isSome
    let ok : BitVec 4 := BitVec.ofNat 4 (good.foldl (fun m k => m + 2 ^ k) 0)
    let top := maxInt (good.filterMap fun k => readingAt temps z k)
    let blind := x.blind || good.isEmpty
    let (warn, hot, crit) := (s.kt z 6, s.kt z 7, s.kt z 8)
    let t := if blind then crit + 1 else top.getD 0
    let (free, s1) := if top.isNone then s.drawWord else (0, s)
    let hotter := regionOf warn hot crit t
    let region := if x.region < hotter then hotter else coolTo [warn, hot, crit] (s.kp z 9 % 65536 : Nat) t hotter x.region
    let r := rateOf (s.kp z 0 % 65536) (s.kp z 1 % 65536) (s.kp z 2 % 65536) warn hot crit t
    let res := s.kp z 3 % 65536
    let gen0 := if 4 ≤ z then bucketFloor (s.kp z 4) (x.gen - (drawn.getD z 0 : Nat)) else x.gen
    let s2 := if 4 ≤ z ∧ gen0 < 0 ∧ 0 ≤ x.gen then s1.kilnInt 3 else s1
    let x' : Zone :=
      { x with
        gen := bucketFloor (s.kp z 4) (min (gen0 + r - (res : Nat)) (s.kp z 4 : Nat))
        rtb := bucketFloor (s.kp z 5) (min (x.rtb + (res : Nat)) (s.kp z 5 : Nat))
        region, temp := match top with
          | some v => v
          | none => signed 16 free.toNat
        sensOk := ok, sensErr := x.sensErr || good.length < sensors.length, blind, rate := r.toNat
        idle := if z < 4 ∧ s.clusterIdle z then drawn.getD z 0 else x.idle }
    (s2.setZone z x').enterRegion z x.region region

/-- CSENS_T or FSENS_T of sensor k of zone z shows its reading, 0x8000 while left out (R431). -/
def State.showSensor (s : State) (temps : List (Option Word)) (z k : Nat) : State :=
  let v : Word := match readingAt temps z k with
    | some t => BitVec.ofInt 16 t
    | none => 0x8000
  if z = 5 then s.setReg .FSENS_T k v
  else if s.bit .SYS_RAIL 0 14 then s.setReg .CSENS_T (4 * z + k) v else s

/-- Every sensor's register. -/
def State.showSensors (s : State) (temps : List (Option Word)) : State :=
  (upto 24).foldl (fun s i => s.showSensor temps (i / 4) (i % 4)) s

/-- KILN_STAT: whether a zone of the C-die is in CRIT, in HOT or CRIT, above COOL (R177). -/
def State.showKilnStat (s : State) : State :=
  let top := (upto 5).foldl (fun m z => max m (s.zone z).region) 0
  if s.pw.cReset then s
  else ((s.setBit .KILN_STAT 0 15 (top = 3)).setBit .KILN_STAT 0 14 (2 ≤ top)).setBit .KILN_STAT 0 13 (1 ≤ top)

/-! ### Clock steps (R168, R169, R376) -/

/-- The automatic step one move from the step in effect (R168). Log entry 34. -/
def State.autoStep (s : State) (n act : Nat) : Nat :=
  let x := s.zone n
  let pol := s.kp n 11
  let cap := s.kp n 4
  let low := pol / 256 % 256
  let high := pol / 65536 % 256
  let a := if 2 ≤ x.region ∨ x.gen * 256 < (low * cap : Nat) then act + 1
    else if x.region = 0 ∧ (high * cap : Nat) < x.gen * 256 then act - 1 else act
  min a (pol % 4)

/-- Whether cluster n runs an RT brick. -/
def State.runsRt (s : State) (n : Nat) : Bool := s.bricks.any fun e => e.2.rt && e.2.clusters.contains n && e.2.running

/-- The step of cluster n from a 1 µs boundary on. While a VID request is unanswered, and from ALARM of its zone on, no
faster than 1.2 GHz. -/
def State.stepCluster (s : State) (n : Nat) : State :=
  if ¬ s.zoneOn n then s
  else
    let act := s.fld .KILN_STEP n 9 8
    let auto := s.autoStep n act
    let want := s.fld .KILN_STEP n 1 0
    let a := if s.runsRt n then s.kp n 11 / 4 % 4
      else if s.bit .KILN_STEP n 2 then (if 2 ≤ (s.zone n).region then max want auto else want)
      else auto
    let a := if s.bit .KILN_VID_ACT 0 15 || s.bit .WEAR_ZSTAT n 15 then max a 1 else a
    s.setFld .KILN_STEP n 9 8 a

/-! ### Remaining time (R162) -/

/-- Remaining time is computed at each 1 µs boundary. -/
def State.recomputeRemain (s : State) : State :=
  (upto 16).foldl (fun s q =>
    let u := s.queue q
    s.setQueue q { u with entries := u.entries.map fun b => { b with remain := s.remaining b } }) s

/-- Relayed tables come into force at the boundary (R36). -/
def State.takeKiln (s : State) : State :=
  { s with lay := { s.lay with params := s.lay.kilnNext.foldl (fun t e => setParam t e.1 e.2) s.lay.params, kilnNext := [] } }

/-- KILN_REFILL (R154): samples, refills, clock steps and remaining times of a 1 µs boundary. -/
def execKilnRefill (temps : List (Option Word)) (drawn : List Nat) (s : State) : Host.Outcome State Fault Refusal :=
  let s1 := (upto 6).foldl (fun s z => s.refillZone temps drawn z) (s.takeKiln.showSensors temps)
  .next (((upto 4).foldl (fun s n => s.stepCluster n) s1.showKilnStat).recomputeRemain)

/-! ### Estimates and charges (R156 to R158) -/

/-- ceil(a ÷ b). -/
def ceilDiv (a b : Nat) : Nat := (a + b - 1) / b

/-- STEP_FACTOR of a step of a zone. -/
def State.stepFactor (s : State) (z st : Nat) : Nat := s.kp z 12 / 256 ^ st % 256

/-- K × CORR × F of a brick in a zone at a step, over 1,024 × 128. A slot without a template has K 0. Log entry 33. -/
def State.coef (s : State) (b : Brick) : Nat :=
  match s.templateOf b with
  | some t => t.estimate b.len
  | none => 0

/-- The estimate of a brick in a zone (R156). -/
def State.estimate (s : State) (b : Brick) (z : Nat) : Nat :=
  let f := s.stepFactor z (s.fld .KILN_STEP z 9 8)
  let e := max b.declared (ceilDiv (s.coef b * s.fld .KILN_CORR b.bond 11 0 * f) 131072)
  if b.st = .queued then e else ceilDiv (e * (b.len - b.k)) (max b.len 1)

/-- How a zone pays an amount (R157): the parts from RTB and from GEN. -/
def State.payParts (s : State) (z : Nat) (rt : Bool) (n : Nat) : Int × Int :=
  let x := s.zone z
  if ¬ rt then (0, n)
  else if x.region = 3 then (n, 0)
  else let r := min (max x.rtb 0) (n : Int); (r, n - r)

/-- What the paying buckets of a zone hold, and their capacity. -/
def State.paying (s : State) (z : Nat) (rt : Bool) : Int × Nat :=
  let x := s.zone z
  if ¬ rt then (x.gen, s.kp z 4)
  else if x.region = 3 then (x.rtb, s.kp z 5)
  else (x.rtb + x.gen, s.kp z 5 + s.kp z 4)

/-- A charge is affordable in a zone (R158). For RT it is covered by RTB, or by RTB and GEN; a negative RTB admits
nothing. Log entry 34. -/
def State.affordable (s : State) (z : Nat) (rt : Bool) (n : Nat) : Bool :=
  let x := s.zone z
  let (have', cap) := s.paying z rt
  if rt && x.rtb < 0 then false
  else decide ((n : Int) ≤ have') || (rt && decide ((n : Int) ≤ x.rtb)) || (cap < n && have' = (cap : Int))

/-- A zone pays its parts of a charge. -/
def State.pay (s : State) (z : Nat) (p : Int × Int) : State :=
  let x := s.zone z
  s.setZone z { x with rtb := bucketFloor (s.kp z 5) (x.rtb - p.1), gen := bucketFloor (s.kp z 4) (x.gen - p.2) }

/-- The energy of a brick in a zone (R159): what the zone's sensor metered since the brick took its clusters, less the idle
power over that time (800 ticks to the microsecond). -/
def State.netEnergy (s : State) (b : Brick) (metered : List Nat) (z : Nat) : Nat :=
  metered.getD z 0 - (s.zone z).idle * (s.ticks - b.since) / 800

/-- Settlement (R159): each charge goes back and the metered energy of its zone is subtracted, for RT from RTB first. Log
entry 30. -/
def State.settleCharges (s : State) (b : Brick) (metered : List Nat) : State :=
  b.charges.foldl (fun s c =>
    let s1 := s.pay c.1 (-c.2.1, -c.2.2)
    s1.pay c.1 (s1.payParts c.1 b.rt (s.netEnergy b metered c.1))) s

/-- The energy of a brick over the zones of its clusters. -/
def State.meteredOf (s : State) (b : Brick) (metered : List Nat) : Nat := b.clusters.foldl (fun n z => n + s.netEnergy b metered z) 0

/-! ### Eligibility and order (R161, R162) -/

/-- A brick waits for admission. -/
def Brick.waiting (b : Brick) : Bool := b.st = .queued || b.st = .suspProbe || b.st = .suspRun

/-- Set-out tables held, by all bricks and by bricks of other classes than RT (R95). -/
def State.tablesHeld (s : State) : Nat × Nat :=
  let l := s.bricks.filter fun e => e.2.table.isSome
  (l.length, (l.filter fun e => !e.2.rt).length)

/-- The lowest free set-out table. -/
def State.freeTable (s : State) : Option Nat := (upto 8).find? fun i => s.bricks.all fun e => e.2.table ≠ some i

/-- R161. -/
def State.eligible (s : State) (q : Nat) (b : Brick) : Bool :=
  let (all, other) := s.tablesHeld
  b.waiting &&
  (!b.ord || ((s.queue q).entries.head?.map fun c => c.seq) = some b.seq || b.st ≠ .queued) &&
  (b.st ≠ .queued || b.len = 0 || (all < 8 && (b.rt || other < 6))) &&
  (b.st ≠ .queued || !s.deadlinePassed b) &&
  (b.rt || (s.zone 4).region ≠ 3)

/-- The rank of a remaining time: a bounded one, an unbounded one, none. -/
def remainKey : Option (Option Int) → Nat × Int
  | some (some t) => (0, t)
  | some none => (1, 0)
  | none => (2, 0)

/-- Whether brick a comes before brick b (R162). -/
def before (a b : Brick) : Bool :=
  let (ka, ta) := remainKey a.remain
  let (kb, tb) := remainKey b.remain
  if a.cls ≠ b.cls then a.cls < b.cls
  else if ka ≠ kb then ka < kb
  else if ta ≠ tb then ta < tb
  else a.arrival < b.arrival

/-- Insertion by `before`. -/
def insertBrick (x : Nat × Brick) : List (Nat × Brick) → List (Nat × Brick)
  | [] => [x]
  | y :: l => if before x.2 y.2 then x :: y :: l else y :: insertBrick x l

/-- The eligible bricks in order. -/
def State.ranked (s : State) : List (Nat × Brick) :=
  (s.bricks.filter fun e => s.eligible e.1 e.2).foldr insertBrick []

/-! ### Clusters -/

/-- A cluster is free for a brick: available, run by no brick, not held for another (R150, R165). -/
def State.freeFor (s : State) (q : Nat) (b : Brick) (n : Nat) : Bool :=
  s.bit .BOND_VCSTAT n 15 && s.clusterIdle n &&
  (match Tab.get none s.clusterHold n with
   | some h => h = (q, b.seq)
   | none => true) &&
  (b.rt || (s.zone n).region ≠ 3)

/-- Clusters with their paying buckets, the fullest first, the lower index first on equal values (R163). -/
def insertCluster (x : Nat × Int) : List (Nat × Int) → List (Nat × Int)
  | [] => [x]
  | y :: l => if y.2 < x.2 || (y.2 = x.2 && x.1 < y.1) then x :: y :: l else y :: insertCluster x l

/-- The C clusters (2C for a paired brick) a brick gets, the greatest C that every one of them can afford; when C reaches 0
none, but for an RT brick a free cluster whose RTB covers the charge for one cluster (R166). -/
def State.chooseClusters (s : State) (b : Brick) (free : List Nat) : Nat → Option (List Nat)
  | 0 =>
    if b.rt ∧ ¬ b.paired then
      (free.find? fun z => ((s.estimate b z : Nat) : Int) ≤ (s.zone z).rtb).map fun z => [z]
    else none
  | c + 1 =>
    let l := free.take (if b.paired then 2 * (c + 1) else c + 1)
    if l.all fun z => s.affordable z b.rt (ceilDiv (s.estimate b z) (c + 1)) then some l
    else s.chooseClusters b free c

/-- A cluster is held for a brick (R165). -/
def State.heldFor (s : State) (q : Nat) (b : Brick) (n : Nat) : Bool := Tab.get none s.clusterHold n = some (q, b.seq)

/-- The clusters of R163 for a brick; one that has waited for its pair under R165 gets C = 1. -/
def State.clustersFor (s : State) (q : Nat) (b : Brick) : Option (List Nat) :=
  let free := ((upto 4).filter (s.freeFor q b)).map fun n => (n, (s.paying n b.rt).1)
  let order := (free.foldr insertCluster []).map fun e => e.1
  let room := if b.paired then order.length / 2 else order.length
  let maxc := let m := s.fld .KILN_CTRL 0 10 8; if b.rt || m = 0 || 4 < m then 4 else m
  let pair1 := if b.paired && (upto 4).any (s.heldFor q b) then 1 else 4
  s.chooseClusters b order (min (min (min (ceilDiv (b.len - b.k) 1024) room) maxc) pair1)

/-! ### Issue and admission (R89, R90, R163, R164) -/

/-- A brick that leaves QUEUED is issued: the checks of R90, then SETOUT, or DONE for LENGTH 0. -/
def State.issue (s : State) (q : Nat) (b : Brick) : Brick :=
  match s.issueCode q b with
  | some c => b.finish c
  | none => if b.len = 0 then b.finish 0 else { b with st := .setout }

/-- The brick takes its clusters and each zone is charged. -/
def State.give (s : State) (q : Nat) (b : Brick) (l : List Nat) : State :=
  let c := if b.paired then l.length / 2 else l.length
  let chargeOf (z : Nat) : Nat × Int × Int := (z, s.payParts z b.rt (ceilDiv (s.estimate b z) (max c 1)))
  let charges := l.map chargeOf
  let s1 := charges.foldl (fun s c => s.pay c.1 (c.2.1, c.2.2)) s
  let low := l.foldl min 4
  let b1 : Brick :=
    { b with
      clusters := l, charges, overtaken := 0
      ranOn := b.ranOn ||| BitVec.ofNat 4 (l.foldl (fun m n => m + 2 ^ n) 0)
      since := s.ticks
      stepAt := if low < 4 then s.fld .KILN_STEP low 9 8 else 0
      table := if b.st = .queued ∧ b.len ≠ 0 then s.freeTable else b.table }
  let b2 := match b1.st with
    | .queued => s.issue q b1
    | .suspProbe => { b1 with st := .probe }
    | .suspRun => { b1 with st := .run }
    | _ => b1
  let s2 := s1.modBrick q b.seq fun _ => b2
  { s2 with clusterHold := s2.clusterHold.filter fun e => e.2 ≠ some (q, b.seq) }

/-- Whether class a may suspend class v (R165). -/
def State.mayPreempt (s : State) (a v : Nat) : Bool :=
  a < v && (a = 0 || (a = 1 && s.bit .KILN_CTRL 0 15) || (a = 2 && v = 3 && s.bit .KILN_CTRL 0 14))

/-- A class has some permission. -/
def State.hasPermission (s : State) (a : Nat) : Bool := [1, 2, 3].any fun v => s.mayPreempt a v

/-- The highest cluster a brick holds. -/
def Brick.topCluster (b : Brick) : Nat := b.clusters.foldl max 0

/-- Whether victim a is preferred to b: least urgent class, longest remaining time, highest cluster (R165). -/
def worse (a b : Brick) : Bool :=
  let (ka, ta) := remainKey a.remain
  let (kb, tb) := remainKey b.remain
  if a.cls ≠ b.cls then b.cls < a.cls
  else if ka ≠ kb then kb < ka
  else if ka = 0 ∧ ta ≠ tb then tb < ta
  else b.topCluster < a.topCluster

/-- The most preferred victim. -/
def pickVictim : List (Nat × Brick) → Option (Nat × Brick)
  | [] => none
  | x :: l => match pickVictim l with
    | some y => some (if worse x.2 y.2 then x else y)
    | none => some x

/-- The second cluster of a waiting pair beside the one that suspending a victim frees (R165): the held one, else a free one,
else any other available one; b can afford a charge in its zone, which for a non-RT brick is not in CRIT. -/
def State.pairOk (s : State) (q : Nat) (b : Brick) (top : Nat) : Bool :=
  let fit (n : Nat) : Bool :=
    n ≠ top && s.bit .BOND_VCSTAT n 15 && (b.rt || (s.zone n).region ≠ 3) && s.affordable n b.rt (s.estimate b n)
  let held := (upto 4).filter (s.heldFor q b)
  let free := (upto 4).filter (s.freeFor q b)
  !b.paired || (if ¬ held.isEmpty then held.all fit else if ¬ free.isEmpty then free.any fit else (upto 4).any fit)

/-- The victim whose suspension lets brick b have a cluster (R165), and that cluster: b can afford a charge in its zone,
and for a pair in the zone of the other cluster as well. -/
def State.victimFor (s : State) (q : Nat) (b : Brick) : Option (Nat × Brick) :=
  if (upto 4).any (fun n => s.heldFor q b n && !s.freeFor q b n) then none
  else pickVictim (s.bricks.filter fun e =>
    e.2.running && !e.2.suspendReq && s.mayPreempt b.cls e.2.cls && e.2.clusters ≠ [] && s.pairOk q b e.2.topCluster &&
    (b.rt || (s.zone e.2.topCluster).region ≠ 3) &&
    s.affordable e.2.topCluster b.rt (s.estimate b e.2.topCluster))

/-- The suspension is asked for, and the cluster it frees is held for the waiting brick. -/
def State.preempt (s : State) (q : Nat) (b : Brick) (v : Nat × Brick) : State :=
  let s1 := s.modBrick v.1 v.2.seq fun x => { x with suspendReq := true }
  { s1 with clusterHold := Tab.set none v.2.topCluster (some (q, b.seq)) s1.clusterHold }

/-- Overtake counts of the bricks passed over rise when a brick is admitted (R164). -/
def State.overtake (s : State) (passed : List (Nat × Brick)) : State :=
  passed.foldl (fun s e => s.modBrick e.1 e.2.seq fun b => { b with overtaken := b.overtaken + 1 }) s

/-- The walk of R163 over the eligible bricks in order. -/
def State.admitWalk (s : State) : List (Nat × Brick) → List (Nat × Brick) → State
  | [], _ => s
  | (q, b) :: rest, passed =>
    if b.len = 0 then (s.give q b []).overtake passed
    else match s.clustersFor q b with
      | some l => (s.give q b l).overtake passed
      | none => match s.victimFor q b with
        | some v => s.preempt q b v
        | none =>
          let lim := s.fld .KILN_CTRL 0 7 3
          if lim ≠ 0 ∧ lim ≤ b.overtaken then s else s.admitWalk rest (passed ++ [(q, b)])

/-- Holds whose brick no longer waits or whose class has lost permission are released (R165). -/
def State.pruneHolds (s : State) : State :=
  { s with clusterHold := s.clusterHold.filter fun e => match e.2 with
    | some (q, n) => (match s.brick q n with
      | some b => b.waiting && s.hasPermission b.cls
      | none => false)
    | none => false }

/-- KILN_ADMISSION (R163): one walk. -/
def execKilnAdmission (s : State) : Host.Outcome State Fault Refusal :=
  let s1 := s.pruneHolds
  .next (if s1.computeReady then s1.admitWalk s1.ranked [] else s1)

/-! ### Learning (R160) -/

/-- The correction of the bond is updated. A coefficient of 0 gives no ratio: the value is free. Log entry 33. -/
def State.learn (s : State) (b : Brick) : State :=
  let low := (upto 4).find? fun n => b.ranOn.getLsbD n
  match low with
  | none => s
  | some z =>
    let d := s.coef b * s.stepFactor z b.stepAt
    let (r, s1) : Int × State :=
      if d = 0 then (let (n, s') := s.draw; ((n : Int), s')) else (((1024 * b.energy * 128 / d : Nat) : Int), s)
    let c : Int := (s.fld .KILN_CORR b.bond 11 0 : Nat)
    let g := s.kp z 13 % 16
    let c' := clampI 256 4095 (c + (r - c).tdiv (2 ^ g))
    s1.setFld .KILN_CORR b.bond 11 0 c'.toNat

/-! ### The VID target (R169, R388) -/

/-- A C-die sensor reads below 0 °C. -/
def State.anyBelowZero (s : State) : Bool :=
  (upto 20).any fun i => let w := s.reg .CSENS_T i; w ≠ 0x8000 && wbit w 15

/-- While a request has no acknowledgement no cluster runs faster than 1.2 GHz (R169). -/
def State.slowClusters (s : State) : State :=
  (upto 4).foldl (fun s n => s.setFld .KILN_STEP n 9 8 (max (s.fld .KILN_STEP n 9 8) 1)) s

/-- The request frame of a level (R388): start bit 0, ADDR, CODE in mV, and even parity over both. -/
def State.vidRequest (s : State) (mv : Nat) : Word :=
  let body := s.fld .SYS_VID 0 15 12 * 1024 + mv % 1024
  BitVec.ofNat 16 (body * 2 + ((upto 14).filter fun i => body.testBit i).length % 2)

/-- VID_RECALC (R169, R388): the target of this millisecond; a request goes out when it differs from the last acknowledged level
or the last request has no acknowledgement yet. -/
def execVidRecalc (s : State) : Host.Outcome State Fault Refusal :=
  let off := (upto 5).foldl (fun m z => max m (s.fld .WEAR_ZSTAT z 14 11)) 0
  let v := max 650 (min 850 (Config.vidTrim + 5 * off + if s.anyBelowZero then 10 else 0))
  .next (if s.pw.cReset then s
    else
      let s1 := s.setFld .KILN_VID_TGT 0 9 0 v
      if v ≠ s.fld .KILN_VID_ACT 0 9 0 ∨ s.bit .KILN_VID_ACT 0 15 then
        { (s1.setBit .KILN_VID_ACT 0 15 true).slowClusters with pw := { s1.pw with vidFrame := some (s1.vidRequest v) } }
      else s1)

/-- VID_ACK (R388): the level requested is in force. -/
def execVidAck (s : State) : Host.Outcome State Fault Refusal :=
  .next (if s.bit .KILN_VID_ACT 0 15 then
    (s.setFld .KILN_VID_ACT 0 9 0 (s.fld .KILN_VID_TGT 0 9 0)).setBit .KILN_VID_ACT 0 15 false else s)

/-- VID_TIMEOUT (R169): no acknowledgement within 100 µs. -/
def execVidTimeout (s : State) : Host.Outcome State Fault Refusal :=
  .next (if s.bit .KILN_VID_ACT 0 15 then s.kilnInt 5 else s)

end Sys2Proof.Machine
end

