-- ==== Sys2Proof/Machine/Bricks.lean ====
section
/-! DEFINITION. The brick commands (03_bricks.md): setting-out, probe, blocks, suspension, end, expiry, flush, and the
arrival of a joint's submission. VX and VWAIT are instructions (Machine/HodSys.lean). -/

namespace Sys2Proof.Machine

open Sys2Proof

/-- JOINT_BRICK_SUBMISSION (R88): the submission as it arrives on the C-die. While the C-die is not at compute-ready none
arrives (R197). -/
def execJointBrickSubmission (q : BitVec 4) (line : BitVec 20) (s : State) : Host.Outcome State Fault Refusal :=
  let s1 := { s with crossing := s.crossing.erase (q.toNat, line.toNat) }
  .next (if s.computeReady then s1.jointSubmit q.toNat line.toNat else s1)

/-- A FLUSH ends every QUEUED brick of the queue with CANCELLED (R89, R120). -/
def State.flush (s : State) (q : Nat) : State :=
  let u := s.queue q
  s.setQueue q { u with entries := u.entries.map fun b => if b.st = .queued then b.finish 9 else b }

/-- QUEUE_FLUSH (R120). -/
def execQueueFlush (q : BitVec 4) (s : State) : Host.Outcome State Fault Refusal := .next (s.flush q.toNat)

/-- The state with a brick's entry replaced. -/
def State.putBrick (s : State) (q : Nat) (b : Brick) : State := s.modBrick q b.seq fun _ => b

/-- Run f on the brick of a queue with a sequence number, in state st. -/
def State.withBrick (s : State) (q seq : Nat) (ok : Brick → Bool) (f : Brick → Template → Brick × State) : State :=
  match s.brick q seq with
  | none => s
  | some b =>
    if ¬ ok b then s
    else match s.templateOf b with
      | none => s.putBrick q (b.finish 0x11)
      | some t => let (b1, s1) := f b t; s1.putBrick q b1

/-- BRICK_SETOUT (R93). -/
def execBrickSetout (q : BitVec 4) (seq : Nat) (s : State) : Host.Outcome State Fault Refusal :=
  .next (s.withBrick q.toNat seq (fun b => b.st = .setout) fun b t => s.setout t b)

/-- BRICK_PROBE (R101). -/
def execBrickProbe (q : BitVec 4) (seq : Nat) (s : State) : Host.Outcome State Fault Refusal :=
  .next (s.withBrick q.toNat seq (fun b => b.st = .probe) fun b t => s.probe t b)

/-- A block of a paired brick whose outputs differ first at element e: PAIR_MISMATCH (R109). Elements that an earlier
piece of the brick released stay counted. Log entry 35. -/
def Brick.mismatch (b : Brick) (e : Nat) : Brick := { (b.finish 7) with report := some (e, 0, 0) }

/-- BRICK_BLOCK_DONE (R97): the block that holds the next element is released, or stops the brick; `mismatch` is the
first element whose two outputs differ on a paired brick. What lies before that block is released first (R109). -/
def execBrickBlockDone (q : BitVec 4) (seq : Nat) (mismatch : Option Nat) (s : State) : Host.Outcome State Fault Refusal :=
  .next (s.withBrick q.toNat seq (fun b => b.st = .run) fun b t =>
    match mismatch with
    | some e =>
      if b.paired ∧ max b.k b.seen ≤ e ∧ e < b.blockEnd then
        let (b1, s1) := if b.k < b.seen then s.runTo t b b.seen true else (b, s)
        if b1.st = .run then (b1.mismatch e, s1) else (b1, s1)
      else s.runTo t b b.blockEnd false
    | none => s.runTo t b b.blockEnd false)

/-- A suspended brick: its clusters are freed and what they metered is settled (R106, R159). -/
def State.suspended (s : State) (b : Brick) (metered : List Nat) : Brick × State :=
  let b1 : Brick := { b with suspends := b.suspends + 1 }
  let (ok, s1) := s.statusWrite b1 b1.suspWrites
  if ¬ ok then ({ (b.finish 0x17) with statusOk := false, suspendReq := false }, s1)
  else
    ({ b1 with
        st := if b.st = .probe then .suspProbe else .suspRun
        seen := 0, suspendReq := false, clusters := [], charges := [], energy := b.energy + s.meteredOf b metered },
      s1.settleCharges b metered)

/-- BRICK_SUSPEND (R106): a suspension that the kiln asked for takes effect at element boundary k, in PROBE or in RUN;
`metered` is the energy metered in each of KZ[0..3] since the brick took its clusters. -/
def execBrickSuspend (q : BitVec 4) (seq k : Nat) (metered : List Nat) (s : State) : Host.Outcome State Fault Refusal :=
  .next (s.withBrick q.toNat seq (fun b => b.running && b.suspendReq) fun b t =>
    let (b1, s1) := match b.st with
      | .run => if b.k < min k b.limit then s.runTo t b (min k b.limit) true else (b, s)
      | _ => s.probeTo t b k
    if b1.running then s1.suspended b1 metered else ({ b1 with suspendReq := false }, s1))

/-- The END value of an end code: V and the code (R115). -/
def endValue (code : Byte) : Nat := 0x8000 + code.toNat

/-- R116: VX_QERR and VX_QERR_TKT. -/
def State.logQueueError (s : State) (q : Nat) (b : Brick) (code : Byte) : State :=
  if s.bit .VX_QERR q 15 then s.setBit .VX_QERR q 14 true
  else
    let s1 := s.setReg .VX_QERR q (putFld (putBit (s.reg .VX_QERR q) 15 true) 7 0 code.toNat)
    s1.setReg .VX_QERR_TKT q (if b.joint then 0xFFFF else b.ticket)

/-- The status write of an end (R113, R115, R116, R105): the code that stands and whether it was written. -/
def State.endStatus (s : State) (b : Brick) (code : Byte) : Byte × State :=
  if code = 0x10 || code = 0x17 || !b.statusOk then (code, s)
  else
    let ws := if b.cont ∧ code = 0x15 ∧ b.statPa.isSome then [(0, leBytes 2 (endValue code))] else b.statusWrites (endValue code)
    let (ok, s1) := s.statusWrite b ws
    (if ok then code else 0x17, s1)

/-- SIG and INT of a brick that has ended (R113). -/
def State.signal (s : State) (b : Brick) (code : Byte) : State :=
  let w := b.w 25
  let sig := wfld w 4 0
  let s1 := if sig = 0 then s else if sig < 16 then s.setBit .VX_SIG_LO 0 sig true else s.setBit .VX_SIG_HI 0 (sig - 16) true
  if wbit w 15 && (code ≠ 0 || !wbit w 14) then s1.raise (wfld w 13 10) 0 else s1

/-- A brick that has ended its work ends (R113): settlement, learning, status, error log, signal, interrupt; its table,
clusters and entry are freed and its END value is kept (R87). -/
def State.endBrick (s : State) (q : Nat) (b : Brick) (code : Byte) (metered : List Nat) : State :=
  let b1 : Brick := { b with energy := b.energy + s.meteredOf b metered }
  let s1 := s.settleCharges b metered
  let s2 := if code = 0 ∧ 1024 ≤ b.len ∧ s1.bit .KILN_CTRL 0 12 = true then s1.learn b1 else s1
  let (code', s3) := s2.endStatus b1 code
  let s4 := if code' = 0x10 ∨ code' = 0x17 then s3.logQueueError q b code' else s3
  let s5 := s4.signal b code'
  let u := s5.queue q
  let s6 := s5.setQueue q
    { u with
      entries := u.entries.filter fun x => x.seq ≠ b.seq
      ended := ((if b.joint then none else some b.ticket, BitVec.ofNat 16 (endValue code')) :: u.ended).take 64 }
  { s6 with clusterHold := s6.clusterHold.filter fun e => e.2 ≠ some (q, b.seq) }

/-- BRICK_END (R113). -/
def execBrickEnd (q : BitVec 4) (seq : Nat) (metered : List Nat) (s : State) : Host.Outcome State Fault Refusal :=
  .next (match s.brick q.toNat seq with
    | some b => (match b.st with
      | .ending code => s.endBrick q.toNat b code metered
      | _ => s)
    | none => s)

/-- BRICK_EXPIRY (R167): a QUEUED brick whose deadline has passed begins to end EXPIRED, and is counted (R174). -/
def execBrickExpiry (q : BitVec 4) (seq : Nat) (s : State) : Host.Outcome State Fault Refusal :=
  .next (match s.brick q.toNat seq with
    | some b =>
      if b.st = .queued ∧ s.deadlinePassed b = true then (s.putBrick q.toNat (b.finish 3)).shed .KILN_QEXP q.toNat else s
    | none => s)

/-! ### Loss of the engine (R87, R114) -/

/-- Every brick of every queue is lost without a status write; the queues restart and the ticket epoch advances. -/
def State.loseBricks (s : State) : State :=
  { s with queues := Vector.replicate 16 {}, epoch := s.epoch + 1, clusterHold := [] }

end Sys2Proof.Machine
end

