-- ==== Sys2Proof/Machine/Actuate.lean ====
section
/-! DEFINITION. Actuation (08_actuation.md): modulators slot by slot, output cells and their safe states, supervision. -/

namespace Sys2Proof.Machine

open Sys2Proof

/-! ### Modulators (R230 to R236) -/

/-- Modulator m. -/
def State.modu (s : State) (m : Nat) : Modulator := Tab.get {} s.mods m
/-- The state with modulator m replaced. -/
def State.setMod (s : State) (m : Nat) (v : Modulator) : State := { s with mods := Tab.set {} m v s.mods }

/-- The level of A at carrier c (R230). -/
def modHigh (centre : Bool) (per duty c : Nat) : Bool :=
  if duty = 0 then false
  else if per ≤ duty then true
  else if centre then (per - duty) / 2 ≤ c && c < (per + duty) / 2
  else c < duty

/-- PER, DUTY and PHASE as committed (R232). -/
def State.modLoad (s : State) (m : Nat) : State :=
  s.setMod m { s.modu m with
    per := BitVec.ofNat 32 (s.pair .MOD_PER_LO .MOD_PER_HI m)
    duty := BitVec.ofNat 32 (s.pair .MOD_DUTY_LO .MOD_DUTY_HI m)
    phase := BitVec.ofNat 32 (s.pair .MOD_PHASE_LO .MOD_PHASE_HI m) }

/-- The modulator starts: t counts from the next slot. -/
def State.modStart (s : State) (m : Nat) : State :=
  let s1 := (s.setMod m { s.modu m with
    t := 0, aRaw := false, bRaw := false, aFor := 0, bFor := 0, a := false, b := false
    lastP := (s.course (s.fld .MOD_CTRL m 13 11)).vis, bound := none }).modLoad m
  ((s1.setBit .MOD_STAT m 15 true).setBit .MOD_STAT m 13 false).setBit .MOD_STAT m 12 false

/-- A modulator that is neither RUNNING nor WAITing meets its requested state (R235). -/
def State.modEnable (s : State) (m : Nat) : State :=
  if ¬ s.bit .MOD_CTRL m 15 then s
  else if s.bit .MOD_CTRL m 9 ∧ ¬ s.bit .MOD_CTRL m 14 then s.setBit .MOD_STAT m 13 true
  else s.modStart m

/-- The request in MOD_CTRL.EN (R173, R235): start, wait for a start, or stop at the end of the period. -/
def State.modRequest (s : State) (m : Nat) : State :=
  let st := s.reg .MOD_STAT m
  if wbit st 15 then (if s.bit .MOD_CTRL m 15 ∨ wbit st 14 then s else s.setBit .MOD_STAT m 14 true)
  else if wbit st 13 then (if s.bit .MOD_CTRL m 15 then s else s.setBit .MOD_STAT m 13 false)
  else s.modEnable m

/-- A write of MOD_CTRL. -/
def State.writeModCtrl (s : State) (m : Nat) (v : Word) : State :=
  (s.setReg .MOD_CTRL m (writtenWord .MOD_CTRL (s.sealed .f) (s.reg .MOD_CTRL m) v)).modRequest m

/-- A start from a joint (R194, R235): starts a waiting modulator, restarts the carrier of a running one at PHASE; ignored
in course mode. -/
def State.modJoint (s : State) (m : Nat) : State :=
  if s.bit .MOD_CTRL m 14 then s
  else if s.bit .MOD_STAT m 13 then s.modStart m
  else if s.bit .MOD_STAT m 15 then s.setMod m { s.modu m with t := 0 }
  else s

/-- A commit of MOD_SYNC (R235): every named waiting modulator starts. -/
def State.modSync (s : State) (mask : Nat) : State :=
  (upto 32).foldl (fun s m => if mask.testBit m && s.bit .MOD_STAT m 13 then s.modStart m else s) s

/-- A period boundary at a slot (R232, R235): a pending stop completes, with A and B low, and the committed values take
effect. -/
def State.modBoundary (s : State) (m slot : Nat) : State :=
  if s.bit .MOD_STAT m 14 then
    let s1 := s.setMod m { s.modu m with aRaw := false, bRaw := false, aFor := 0, bFor := 0, a := false, b := false, bound := some slot }
    (((s1.setBit .MOD_STAT m 15 false).setBit .MOD_STAT m 14 false).setBit .MOD_STAT m 12 false).modEnable m
  else (s.setMod m { s.modu m with bound := some slot }).modLoad m

/-- The carrier of modulator m at course position `pos` (BASE 1) or at its next slot (BASE 0). A PER of 0 gives no carrier:
the value is free. Log entry 41. -/
def State.carrier (s : State) (m : Nat) (pos : Nat) : Nat :=
  let x := s.modu m
  if x.per = 0 then Config.freeNat s.fresh
  else if s.bit .MOD_CTRL m 14 then (pos + 2 ^ 32 - x.phase.toNat) % 2 ^ 32 % x.per.toNat
  else (x.t + x.phase.toNat) % x.per.toNat

/-- Which period of the carrier a course position lies in. -/
def periodOf (x : Modulator) (pos : Nat) : Nat := (pos + 2 ^ 32 - x.phase.toNat) % 2 ^ 32 / max x.per.toNat 1

/-- One slot of an output with dead time: its raw level, and for how many slots it has been high (R231). -/
def deadTime (was raw : Bool) (for' dt : Nat) : Nat × Bool :=
  let n := if raw && was then for' + 1 else 0
  (n, raw && decide (dt ≤ n))

/-- The levels of A and B in a slot. -/
def Modulator.levels (x : Modulator) (dt : Nat) (ra : Bool) : Modulator :=
  let (fa, a) := deadTime x.aRaw ra x.aFor dt
  let (fb, b) := deadTime x.bRaw (!ra) x.bFor dt
  { x with aRaw := ra, bRaw := !ra, aFor := fa, bFor := fb, a, b }

/-- Converter n has no usable physical unit and behaves as not ON (R379). -/
def State.absentConv (s : State) (n : Nat) : Bool := s.spr.failed.contains ⟨6, BitVec.ofNat 9 n⟩ && s.spr.adSpare ≠ some n

/-- Whether converter n is ON (R206). Its actual state changes when a transition ends. Log entry 44. -/
def State.adOn (s : State) (n : Nat) : Bool := n < 4 && s.bit .ADC_STAT n 15 && ¬ s.absentConv n

/-- The converter that serves input i (R202). -/
def adOf (i : Nat) : Nat := i / 12

/-- A conversion waits (R204). -/
def State.addConv (s : State) (c : Conv) : State := { s with waiting := s.waiting ++ [c] }

/-- Whether a selector code names an analogue input, and whether it names a sigma-delta input (R180). -/
def isAin (code : Nat) : Bool := 0x80 ≤ code && code < 0xB0
/-- See isAin. -/
def isSd (code : Nat) : Bool := 0x50 ≤ code && code < 0x58

/-- At a positive peak of its excitation modulator, in the slot given, each running resolver course has its sine and cosine
sampled (R208): a pair of conversions waits where both converters are ON, or the latest filter results are taken. Log entry
44. -/
def State.resolverSample (s : State) (m slot : Nat) : State :=
  (upto 8).foldl (fun s c =>
    let inputs := s.param (1034 + 14 * c + 1)
    let ia := inputs % 256
    let ib := inputs / 256 % 256
    if s.param (1034 + 14 * c) % 8 = 3 ∧ (s.course c).running = true ∧ s.param (1034 + 14 * c + 11) % 32 = m then
      if isAin ia && isAin ib then
        (if s.adOn (adOf (ia - 0x80)) && s.adOn (adOf (ib - 0x80)) then
          (s.addConv { input := ia - 0x80, st := 0, level := 0, trig := slot, slot := none, res := some (c, false) }).addConv
            { input := ib - 0x80, st := 0, level := 0, trig := slot, slot := none, res := some (c, true) }
        else s)
      else if isSd ia && isSd ib then
        { s with demod := s.demod ++ [(c, signed 16 (s.reg .SD_DATA (ia - 0x50)).toNat, signed 16 (s.reg .SD_DATA (ib - 0x50)).toNat, slot)] }
      else s
    else s) s

/-- The carrier, moving by d from c, meets the point q of a period (R230): forward in (c, c + d], in reverse in [c + d, c). -/
def carrierMeets (per c q : Nat) (d : Int) : Bool :=
  let f (x : Int) : Int := x.fdiv per
  if 0 ≤ d then f (c - q) < f (c + d - q) else f (c + d - q - 1) < f (c - q - 1 : Int)

/-- Slot number `slot` of a running modulator: `pos` is the position of its course there. Its positive peak (R236) samples
once, where the carrier reaches it. -/
def State.modSlot (s : State) (m pos slot : Nat) : State :=
  let x := s.modu m
  let course := s.bit .MOD_CTRL m 14
  let edge := if course then periodOf x pos ≠ periodOf x x.lastP.toNat else s.carrier m pos = 0
  let s1 := if edge then s.modBoundary m slot else s
  if ¬ s1.bit .MOD_STAT m 15 then s1
  else
    let x1 := s1.modu m
    let c := s1.carrier m pos
    let centre := s1.bit .MOD_CTRL m 10
    let peak := if centre then x1.per.toNat / 2 else x1.duty.toNat / 2
    let atPeak := if course then x1.per ≠ 0 && carrierMeets x1.per.toNat (s1.carrier m x1.lastP.toNat) peak (signed 32 (pos + 2 ^ 32 - x1.lastP.toNat))
      else c = peak
    let s2 := if atPeak then s1.resolverSample m slot else s1
    let x2 := x1.levels (s2.fld .MOD_DT m 11 0) (modHigh centre x1.per.toNat x1.duty.toNat c)
    let s3 := s2.setMod m { x2 with t := x1.t + 1, lastP := BitVec.ofNat 32 pos }
    if x1.per = 0 then { s3 with fresh := s3.fresh + 1 } else s3

/-- A course-mode modulator whose course is neither LOCKED nor COAST (R234): A and B low, HOLD 1. -/
def State.modHold (s : State) (m : Nat) (pos : Nat) : State :=
  (s.setMod m { s.modu m with
    aRaw := false, bRaw := false, aFor := 0, bFor := 0, a := false, b := false, lastP := BitVec.ofNat 32 pos }).setBit .MOD_STAT m 12 true

/-- The start of a tick of modulator m, `pos` being the position of its course at its end: TRACK takes the committed
values; a course-mode modulator is held while its course is neither LOCKED nor COAST (R232, R234). -/
def State.modPrep (s : State) (m pos : Nat) : State :=
  if ¬ s.bit .MOD_STAT m 15 then s
  else
    let s0 := if s.bit .MOD_CTRL m 8 then s.modLoad m else s
    let st := (s.course (s.fld .MOD_CTRL m 13 11)).state
    if ¬ s.bit .MOD_CTRL m 14 then s0.setBit .MOD_STAT m 12 false
    else if st = .locked ∨ st = .coast then s0.setBit .MOD_STAT m 12 false
    else
      let s1 := s0.modHold m pos
      if s1.bit .MOD_STAT m 14 then s1.modBoundary m (8 * (s1.ticks - 1)) else s1

/-- One slot of modulator m in a tick, at course position `pos` (R233). -/
def State.modStep (s : State) (m pos slot : Nat) : State :=
  if s.bit .MOD_STAT m 15 && ¬ (s.bit .MOD_CTRL m 14 && s.bit .MOD_STAT m 12) then s.modSlot m pos slot else s

/-- Edges of A among the n carrier steps after c: points of the carrier at which A changes. -/
def edgesIn (centre : Bool) (per duty c n : Nat) : Nat :=
  if duty = 0 ∨ per ≤ duty then 0
  else
    let (r, f) := if centre then ((per - duty) / 2, (per + duty) / 2) else (0, duty)
    let count (q : Nat) : Nat := (c + n + per - q) / per - (c + per - q) / per
    count r + count f

/-- MOD_PERIOD_BOUNDARY (R232): the next slot of a running modulator is a period boundary. -/
def execModPeriodBoundary (m : Fin 32) (s : State) : Host.Outcome State Fault Refusal :=
  .next (if s.bit .MOD_STAT m 15 && s.carrier m (s.course (s.fld .MOD_CTRL m 13 11)).vis.toNat = 0 then s.modBoundary m (8 * s.ticks) else s)

/-- MOD_ENABLE_REQUEST (R235). -/
def execModEnableRequest (m : Fin 32) (v : Word) (s : State) : Host.Outcome State Fault Refusal :=
  .next (s.writeModCtrl m v)

/-- A write of MOD_SYNC_HI: the held low half and the written word are one mask. -/
def State.writeModSync (s : State) (v : Word) : State :=
  let lo := Tab.get (0 : Word) s.staging (RegKind.MOD_SYNC_LO.addr 0)
  s.modSync (lo.toNat + v.toNat * 65536)

/-- MOD_SYNC (R235). -/
def execModSync (v : Word) (s : State) : Host.Outcome State Fault Refusal := .next (s.writeModSync v)

/-! ### Output cells (R237 to R242) -/

/-- Cell c. -/
def State.cell (s : State) (c : Nat) : Cell := Tab.get {} s.cells c
/-- The state with cell c replaced. -/
def State.setCell (s : State) (c : Nat) (v : Cell) : State := { s with cells := Tab.set {} c v s.cells }

/-- The highest-ranked state whose cause is present: 2 SAFE, 1 LIMP, 0 NORMAL (R238, R240, R241). -/
def State.cellCause (s : State) (c : Nat) : Nat :=
  let fa := s.fld .OC_SAFE c 13 12
  let alone := s.bit .OC_CTRL 0 13
  if s.bit .OC_TRIPPED (c / 16) (c % 16) || (s.bit .OC_FLT (c / 16) (c % 16) && s.bit .OC_CFG c 5) ||
      s.bit .OC_CTRL 0 15 || (alone && (fa = 1 || fa = 3)) then 2
  else if alone && fa = 2 then 1 else 0

/-- A level as the cell drives it. -/
def lvlOf (b : Bool) : Lvl := if b then .high else .low

/-- The level that a NORMAL cell takes from its source, before INV (R237). -/
def State.sourceOut (s : State) (c : Nat) : Bool :=
  let cfg := s.reg .OC_CFG c
  let x := s.modu (wfld cfg 12 8)
  match wfld cfg 15 13 with
  | 1 => x.a
  | 2 => x.b
  | _ => wbit cfg 6

/-- The output that a LIMP cell takes, before INV (R238). -/
def State.limpOut (s : State) (c : Nat) : Bool :=
  let f := s.reg .OC_SAFE c
  let x := s.modu (wfld f 6 2)
  if wbit f 1 then x.b else x.a

/-- The source's level of a NORMAL cell, INV applied; high-impedance until OE is 1 (R237). -/
def State.normalLevel (s : State) (c : Nat) : Lvl :=
  if ¬ s.bit .OC_CFG c 3 then .z else lvlOf (s.sourceOut c ^^ s.bit .OC_CFG c 7)

/-- The commanded level of a cell in a state (R238). OE gates a NORMAL cell only. Log entry 40. -/
def State.levelIn (s : State) (c st : Nat) : Lvl :=
  let f := s.reg .OC_SAFE c
  if st = 2 then (match wfld f 15 14 with
    | 0 => .low
    | 1 => .high
    | _ => .z)
  else if st = 1 then
    (if s.bit .MOD_STAT (wfld f 6 2) 15 then lvlOf (s.limpOut c ^^ s.bit .OC_CFG c 7) else .low)
  else s.normalLevel c

/-- The cell takes its level; a change is an edge at the slot given. While the device parks, cells stay high-impedance (R400). -/
def State.driveCell (s : State) (c slot : Nat) : State :=
  let x := s.cell c
  let l := if s.pw.parking then .z else s.levelIn c x.state
  let l' := if l = .high ∧ x.level ≠ .high ∧ slot < x.rise then (if x.level = .z then .low else x.level) else l
  if l' = x.level then s else s.setCell c { x with level := l', edgeSlot := slot, quiet := 0 }

/-- A cell whose cause calls for SAFE or LIMP enters it at once (R238); then it takes its level. It leaves under R242 by
OC_SAFE_EXIT. -/
def State.evalCell (s : State) (c : Nat) : State :=
  let w := s.cellCause c
  let s1 := if w ≠ 0 then s.setCell c { s.cell c with state := w, rise := 0 } else s
  s1.driveCell c (8 * s.ticks)

/-- Every cell. -/
def State.evalCells (s : State) : State := (upto 64).foldl (fun s c => s.evalCell c) s

/-- The actuation interrupt (R241). -/
def State.actuationInt (s : State) : State := if s.bit .OC_CTRL 0 12 then s.raise (s.fld .OC_CTRL 0 11 8) 4 else s

/-- A cell with TRIP_EN whose comparator outputs 1 trips (R239): the bit latches, and each setting interrupts. -/
def State.tripCell (s : State) (c : Nat) : State :=
  if s.bit .OC_SAFE c 11 && s.bit .CP_OUT 0 (s.fld .OC_SAFE c 10 7) then
    let s1 := if s.bit .OC_TRIPPED (c / 16) (c % 16) then s else (s.setBit .OC_TRIPPED (c / 16) (c % 16) true).actuationInt
    s1.evalCell c
  else s

/-- Every cell's trip. -/
def State.tripCells (s : State) : State := (upto 64).foldl (fun s c => s.tripCell c) s

/-- A clearing write of OC_TRIPPED (R239): a bit whose comparator still outputs 1 stays 1. -/
def State.writeTripped (s : State) (g : Nat) (v : Word) : State :=
  let keep := (upto 16).foldl (fun (w : Word) b =>
    let c := 16 * g + b
    if s.bit .OC_SAFE c 11 && s.bit .CP_OUT 0 (s.fld .OC_SAFE c 10 7) then w else putBit w b (wbit v b)) 0
  (s.setReg .OC_TRIPPED g (s.reg .OC_TRIPPED g &&& ~~~keep)).evalCells

/-- A supervision fault of a cell latches and interrupts (R241). -/
def State.cellFault (s : State) (c : Nat) : State := ((s.setBit .OC_FLT (c / 16) (c % 16) true).actuationInt).evalCell c

/-- The tick of a cell: a rise that DT has held back in it, the quiet time after a commanded change. -/
def State.cellTick (s : State) (c : Nat) : State :=
  let x := s.cell c
  let s1 := if x.quiet = 320 then s else s.setCell c { x with quiet := x.quiet + 1 }
  let s2 := if x.rise ≠ 0 ∧ x.rise < 8 * s.ticks then
      let s' := s1.driveCell c x.rise
      s'.setCell c { s'.cell c with rise := 0 }
    else s1
  s2.evalCell c

/-! ### Balls and their banks (R387, R412, R418) -/

/-- The minimum of a VIO bank in mV (R385, R416). -/
def bankMin : Nat := 1700

/-- Bank VIO[k] is at or above its minimum. -/
def State.bankOn (s : State) (k : Nat) : Bool := bankMin ≤ Tab.get 0 s.vio k

/-- The ball that carries a function (R412). -/
def State.ballOf (s : State) (func : Nat) : Option Nat := (upto 320).find? fun g => s.param (18 + g) % 256 = func

/-- What ball GP[g] drives: a ball of an unpowered bank drives nothing (R387, R418), a ball with an output cell the cell's
level, an open-drain one only its low level (R412). -/
def State.ballDrive (s : State) (g : Nat) : Lvl :=
  let v := s.param (18 + g)
  let f := v % 256
  if ¬ s.bankOn (g / 32) ∨ f = 0 ∨ 64 < f then .z
  else match (s.cell (f - 1)).level with
    | .high => if v.testBit 13 then .z else .high
    | l => l

/-- The level at ball GP[g]: 0 in a bank below its minimum; where the device does not drive it, whatever is outside. Log
entry 42. -/
def State.ballLevel (s : State) (g : Nat) : Bool × State :=
  if ¬ s.bankOn (g / 32) then (false, s)
  else match s.ballDrive g with
    | .low => (false, s)
    | .high => (true, s)
    | .z => s.drawBit

/-- What OC_LVL reads of a cell: its ball's level (R245). A cell without a ball reads a free bit once PINS is laid out, 0
before (R396). Log entry 42. -/
def State.readLvl (s : State) (c : Nat) : Bool × State :=
  match s.ballOf (c + 1) with
  | some g => s.ballLevel g
  | none => if s.bit .BIMG_STATUS 0 12 then s.drawBit else (false, s)

/-- What GP_IN reads of ball GP[g]: 0 where its input is disabled (R412, R431). -/
def State.readGp (s : State) (g : Nat) : Bool × State :=
  if s.param (18 + g) % 256 = 0 then (false, s) else s.ballLevel g

/-- MOD_CHECKER_MISMATCH (R241): CMPERR, and OC_FLT of each cell whose source or LIMP source is the modulator. -/
def execModCheckerMismatch (m : Fin 32) (s : State) : Host.Outcome State Fault Refusal :=
  .next ((upto 64).foldl (fun s c =>
    let src := s.fld .OC_CFG c 15 13
    if ((src = 1 ∨ src = 2) ∧ s.fld .OC_CFG c 12 8 = m.val) ∨ s.fld .OC_SAFE c 6 2 = m.val then s.cellFault c else s)
    (s.setBit .MOD_STAT m 11 true))

/-- OC_READBACK_FAULT (R241): a mismatch has lasted so many ticks; FLT_T + 1 of them outside the 64 ticks after a commanded
change set the fault. -/
def execOcReadbackFault (cell : Fin 64) (s : State) (lasted : Nat := 256) : Host.Outcome State Fault Refusal :=
  .next (if s.bit .OC_CFG cell 4 ∧ s.fld .OC_CTRL 0 7 0 < min lasted ((s.cell cell).quiet - 64) then s.cellFault cell else s)

/-- A cell returns to NORMAL at a slot, with a dead time after which it may rise (R242). -/
def State.cellReturn (s : State) (c slot dt : Nat) : State :=
  let s1 := (s.setCell c { s.cell c with state := 0, rise := slot + dt }).driveCell c slot
  if slot + dt < 8 * s.ticks then s1.driveCell c (slot + dt) else s1

/-- The modulator that a cell's source selects, if any. -/
def State.cellMod (s : State) (c : Nat) : Option Nat :=
  if s.fld .OC_CFG c 15 13 = 1 ∨ s.fld .OC_CFG c 15 13 = 2 then some (s.fld .OC_CFG c 12 8) else none

/-- OC_SAFE_EXIT (R242): a cell without a cause returns to NORMAL, with a modulator source at a period boundary of the tick
just run, otherwise at the next tick; an output that is high then rises DT slots later. -/
def execOcSafeExit (cell : Fin 64) (s : State) : Host.Outcome State Fault Refusal :=
  .next (if (s.cell cell).state = 0 ∨ s.cellCause cell ≠ 0 then s
    else match s.cellMod cell with
      | none => s.cellReturn cell (8 * s.ticks) 0
      | some m => match (s.modu m).bound with
        | none => s
        | some b => if 8 * s.ticks ≤ b + 8 then s.cellReturn cell b (s.fld .MOD_DT m 11 0) else s)

/-- The modulator's outputs in the tick just run, from its start on at raw level ra of A (R231, R234). -/
def Modulator.jumpTo (x : Modulator) (dt : Nat) (ra : Bool) : Modulator :=
  let turn (was raw : Bool) (n : Nat) (o : Bool) : Nat × Bool := if raw = was then (n, o) else if raw then (7, dt ≤ 7) else (0, false)
  let a := turn x.aRaw ra x.aFor x.a
  let b := turn x.bRaw (!ra) x.bFor x.b
  { x with aRaw := ra, bRaw := !ra, aFor := a.1, a := a.2, bFor := b.1, b := b.2 }

/-- Drive the cells of modulator m from the start of the tick just run, a rising output DT slots later. -/
def State.driveJump (s : State) (m : Nat) : State :=
  let t0 := 8 * (s.ticks - 1)
  (upto 64).foldl (fun s c =>
    let limp : Bool := (s.cell c).state = 1 && s.fld .OC_SAFE c 6 2 = m
    if limp || s.cellMod c = some m then
      s.driveCell c (t0 + if (if limp then s.limpOut c else s.sourceOut c) then s.fld .MOD_DT m 11 0 else 0)
    else s) s

/-- SKIP of a modulator whose course jumped from P1 to P2 over both edges of a pulse (R234). -/
def State.skipPulse (s : State) (m : Nat) (p1 p2 : W32) : State :=
  let x := s.modu m
  if 2 ≤ edgesIn (s.bit .MOD_CTRL m 10) x.per.toNat x.duty.toNat (s.carrier m p1.toNat) (p2 - p1).toNat then s.setBit .MOD_STAT m 10 true
  else s

/-- The period boundary of a modulator whose course jumped from P1 to P2, if it passed one (R234). -/
def State.jumpBoundary (s : State) (m : Nat) (p1 p2 : W32) : State :=
  let x := s.modu m
  if periodOf x p1.toNat ≠ periodOf x p2.toNat then s.modBoundary m (8 * (s.ticks - 1)) else s

/-- The level at P2 of a modulator whose course jumped there, if it still runs (R234). -/
def State.landMod (s : State) (m : Nat) (p2 : W32) : State :=
  let y := s.modu m
  if s.bit .MOD_STAT m 15 then
    s.setMod m { y.jumpTo (s.fld .MOD_DT m 11 0) (modHigh (s.bit .MOD_CTRL m 10) y.per.toNat y.duty.toNat (s.carrier m p2.toNat)) with lastP := p2 }
  else s

/-- A modulator runs on course c and follows its position (R234). -/
def State.followsCourse (s : State) (m c : Nat) : Bool :=
  s.bit .MOD_STAT m 15 && ¬ s.bit .MOD_STAT m 12 && s.bit .MOD_CTRL m 14 && s.fld .MOD_CTRL m 13 11 = c && (s.modu m).per ≠ 0

/-- A forward correction of course c from P1 to P2 (R234): a modulator that follows it takes the level at P2 from the start
of the tick; one that passes both edges of a pulse omits the pulse and sets SKIP. -/
def State.modJump (s : State) (c : Nat) (p1 p2 : W32) : State :=
  if (s.course c).state ≠ .locked ∧ (s.course c).state ≠ .coast then s
  else (upto 32).foldl (fun s m =>
    if s.followsCourse m c then (((s.skipPulse m p1 p2).jumpBoundary m p1 p2).landMod m p2).driveJump m else s) s

/-- A write of OC_CTRL (R240, R245): FORCE_SAFE, IEN, CORE and FLT_T; RESUME ends the field-alone cause after
compute-ready. -/
def State.writeOcCtrl (s : State) (v : Word) : State :=
  let s1 := s.setReg .OC_CTRL 0 (writtenWord .OC_CTRL (s.sealed .f) (s.reg .OC_CTRL 0) v)
  let s2 := if wbit v 14 && s.computeReady then s1.setBit .OC_CTRL 0 13 false else s1
  s2.evalCells

/-- OC_RESUME (R240). -/
def execOcResume (v : Word) (s : State) : Host.Outcome State Fault Refusal := .next (s.writeOcCtrl v)

/-- Field-alone mode is entered: every cell applies its FA field (R240). -/
def State.cellsAlone (s : State) : State := (s.setBit .OC_CTRL 0 13 true).evalCells

/-! ### Pin actions (R194, R195) -/

/-- The pin actions of the present tick on a cell so far, none if it has had none. -/
def State.actedNow (s : State) (c : Nat) : Acted :=
  let x := s.cell c
  let none' : Acted := { tick := s.ticks, lvl := s.bit .OC_CFG c 6, pulse := x.pulse, level := x.level, edge := x.edgeSlot, quiet := x.quiet, acts := [] }
  match x.acted with
  | some a => if a.tick = s.ticks then a else none'
  | none => none'

/-- An action in joint index order. -/
def actInsert (e : Nat × Nat × Word × Nat) : List (Nat × Nat × Word × Nat) → List (Nat × Nat × Word × Nat)
  | [] => [e]
  | x :: t => if e.1 < x.1 then e :: x :: t else x :: actInsert e t

/-- The level and the pending pulse end after one action (R194, R195): code 0 set, 1 clear, 2 toggle, 3 pulse with its width. -/
def actOn (v : Bool × Option Nat) (e : Nat × Nat × Word × Nat) : Bool × Option Nat :=
  match e with
  | (_, act, arg, slot) => match act with
    | 0 => (true, none)
    | 1 => (false, none)
    | 2 => (!v.1, none)
    | _ => (true, some (slot + wfld arg 14 0 * (if wbit arg 15 then 1024 else 1)))

/-- The actions of a tick on a cell are applied in joint index order to the level before them; the cell takes the level that
results with at most one edge, which the highest-indexed joint places (R195). -/
def State.applyActs (s : State) (c : Nat) (a : Acted) : State :=
  let v := a.acts.foldl actOn (a.lvl, a.pulse)
  let slot := (a.acts.getLast?.map fun e => e.2.2.2).getD (8 * s.ticks)
  let s1 := s.setBit .OC_CFG c 6 v.1
  let x : Cell := { s1.cell c with pulse := v.2, acted := some a }
  (s1.setCell c (if x.state = 0 then { x with level := a.level, edgeSlot := a.edge, quiet := a.quiet } else x)).driveCell c slot

/-- A pin action of joint j on a cell whose source selects joints, with the slot of its edge (R194, R195). -/
def State.pinAction (s : State) (j c act : Nat) (arg : Word) (slot : Nat) : State :=
  if s.fld .OC_CFG c 15 13 ≠ 3 then s
  else
    let a := s.actedNow c
    s.applyActs c { a with acts := actInsert (j, act, arg, slot) a.acts }

/-- After a software write of LVL in a tick with joint actions on the cell: the write counts first (R237). -/
def State.writtenFirst (s : State) (c : Nat) : State :=
  match (s.cell c).acted with
  | some a => if a.tick = s.ticks ∧ s.fld .OC_CFG c 15 13 = 3 then s.applyActs c { a with lvl := s.bit .OC_CFG c 6 } else s
  | none => s

/-- PIN_PULSE_END (R194): the width of a pulse has elapsed and the cell is cleared. -/
def execPinPulseEnd (cell : Fin 64) (s : State) : Host.Outcome State Fault Refusal :=
  let x := s.cell cell
  .next (match x.pulse with
    | none => s
    | some e => ((s.setBit .OC_CFG cell 6 false).setCell cell { x with pulse := none, acted := none }).driveCell cell e)

/-! ### Banks (R387, R413) -/

/-- The measured voltage of a bank: below its minimum its balls drive nothing and its inputs read 0 (ballDrive, ballLevel);
its PINS settings take effect when it rises (R387). -/
def State.bankChange (s : State) (k mv : Nat) : State := { s with vio := Tab.set 0 k mv s.vio }

/-- VIO_BANK_CHANGE (R387). -/
def execVioBankChange (k : Fin 10) (mv : BitVec 12) (s : State) : Host.Outcome State Fault Refusal :=
  .next (s.bankChange k mv.toNat)

/-- BANK_LOSS_THRESHOLD (R413): the bank has fallen below UV_MV; UV is set and UV_CORE takes the actuation interrupt. -/
def execBankLossThreshold (k : Fin 10) (mv : BitVec 12) (s : State) : Host.Outcome State Fault Refusal :=
  .next (if mv.toNat < s.param (338 + 6 * k + 3) then
    ((s.bankChange k mv.toNat).setBit .GP_BANK k 14 true).raise (s.param (338 + 6 * k + 4) % 16) 4 else s)

end Sys2Proof.Machine
end

