-- ==== Sys2Proof/Machine/Measure.lean ====
section
/-! DEFINITION. Measurement (07_measurement.md): SAR converters, sigma-delta inputs, comparators, SENT receivers, the
capture engine with its lists, frames and buffers, and the frame mover. -/

namespace Sys2Proof.Machine

open Sys2Proof

/-- The measurement interrupt (R212, R228, R229). -/
def State.measureInt (s : State) : State := s.raise (s.fld .CAP_CTRL 0 3 0) 3

/-! ### SAR converters (R202 to R208) -/

/-- The conversion in progress on converter n. -/
def State.conv (s : State) (n : Nat) : Option Conv := Tab.get none s.converting n

/-- Converter n with a conversion in progress, or free. -/
def State.setConv (s : State) (n : Nat) (c : Option Conv) : State := { s with converting := Tab.set none n c s.converting }

/-- The code of an input voltage (R202). -/
def adCode (uv : Nat) : Word := BitVec.ofNat 16 (min 0xFFFF (uv * 65536 / Config.vrefa))

/-- Begin the power transition that REQ asks for, unless one is in progress (R173, R206) or the converter is absent (R379). -/
def State.adStart (s : State) (n : Nat) : State :=
  let req := s.bit .ADC_CTRL n 15
  if (Tab.get none s.adcTrans n).isSome ∨ req = s.bit .ADC_STAT n 15 ∨ s.absentConv n = true then s
  else ({ s with adcTrans := Tab.set none n (some req) s.adcTrans }).setBit .ADC_STAT n 14 true

/-- A write of ADC_CTRL (R206). -/
def State.writeAdcCtrl (s : State) (n : Nat) (v : Word) : State :=
  (s.setReg .ADC_CTRL n (writtenWord .ADC_CTRL (s.sealed .f) (s.reg .ADC_CTRL n) v)).adStart n

/-- ADC_POWER_REQUEST (R206). -/
def execAdcPowerRequest (n : Fin 4) (v : Word) (s : State) : Host.Outcome State Fault Refusal := .next (s.writeAdcCtrl n v)

/-- The conversions that wait together with one: a resolver sample's two halves (R208), or it alone. -/
def State.mates (s : State) (c : Conv) : List Conv :=
  match c.res with
  | none => [c]
  | some r => s.waiting.filter fun x => x.res.map Prod.fst = some r.1 && x.trig = c.trig

/-- A converter that is no longer ON makes none of the conversions that wait for it (R206): a software conversion sets SWERR.
Log entry 44. -/
def State.dropWaiting (s : State) (n : Nat) : State :=
  let s1 := { s with waiting := s.waiting.filter fun c => (s.mates c).all fun m => adOf m.input ≠ n }
  if s.waiting.any fun c => c.level = 3 && adOf c.input = n then s1.setBit .ADC_STAT n 13 true else s1

/-- ADC_POWER_DONE (R206, R173). -/
def execAdcPowerDone (n : Fin 4) (s : State) : Host.Outcome State Fault Refusal :=
  .next (match Tab.get none s.adcTrans n with
    | none => s
    | some g =>
      let s1 := ({ s with adcTrans := Tab.set none n none s.adcTrans }.setBit .ADC_STAT n 15 g).setBit .ADC_STAT n 14 false
      (if g then s1 else s1.dropWaiting n).adStart n)

/-- A write of ADC_SWCONV (R206, R207): one software conversion waits, the one that waited being replaced. -/
def State.writeSwconv (s : State) (v : Word) : State :=
  let i := wfld v 5 0
  if ¬ wbit v 15 ∨ 48 ≤ i then s
  else
    let s1 := { s with waiting := s.waiting.filter fun c => c.level ≠ 3 }
    if s.adOn (adOf i) then s1.addConv { input := i, st := 0, level := 3, trig := s.ticks, slot := none }
    else s1.setBit .ADC_STAT (adOf i) 13 true

/-- ADC_SWCONV (R207). -/
def execAdcSwconv (v : Word) (s : State) : Host.Outcome State Fault Refusal := .next (s.writeSwconv v)

/-! ### Conversion lists (R216 to R218) -/

/-- Definition d of the capture engine. -/
def State.cap (s : State) (d : Nat) : CapRun := Tab.get {} s.caps d
/-- The state with it replaced. -/
def State.setCap (s : State) (d : Nat) (c : CapRun) : State := { s with caps := Tab.set {} d c s.caps }

/-- START, COUNT, REP of a definition. -/
def State.capStart (s : State) (d : Nat) : Nat := s.fld .CAP_DEF_LIST d 15 8
/-- See capStart. -/
def State.capCount (s : State) (d : Nat) : Nat := s.fld .CAP_DEF_LIST d 7 0 + 1
/-- See capStart. -/
def State.capRep (s : State) (d : Nat) : Nat := s.fld .CAP_DEF_REP d 11 0 + 1

/-- Entry e of a definition's list. -/
def State.capEntry (s : State) (d e : Nat) : Word := s.reg .CAP_LIST ((s.capStart d + e) % 256)

/-- Words that an entry writes (R216). -/
def entryWords (w : Word) : Nat :=
  match wfld w 15 13 with
  | 0 | 1 | 3 => 1
  | 2 | 4 => 2
  | _ => 0

/-- Whether SRC and INDEX of an entry are allowed (R216). -/
def entryOk (w : Word) : Bool :=
  let i := wfld w 12 7
  match wfld w 15 13 with
  | 0 => i < 48
  | 1 | 4 => i < 8
  | 2 => i < 12
  | 3 | 5 => true
  | _ => false

/-- The group that begins at entry e: it and the entries with SIM 1 after it. -/
def State.group (s : State) (d e : Nat) : List Word :=
  if s.capCount d ≤ e then []
  else s.capEntry d e :: (((upto (s.capCount d - (e + 1))).map fun j => s.capEntry d (e + 1 + j)).takeWhile fun w => wbit w 6)

/-- The converters that a group uses. -/
def groupConverters (g : List Word) : List Nat := (g.filter fun w => wfld w 15 13 = 0).map fun w => adOf (wfld w 12 7)

/-- Level, trigger and definition by which the waiting conversions start (R204). -/
def rankBefore (a b : Nat × Nat × Nat) : Bool :=
  if a.1 ≠ b.1 then a.1 < b.1 else if a.2.1 ≠ b.2.1 then a.2.1 < b.2.1 else a.2.2 < b.2.2

/-- The rank of a definition's waiting group. -/
def State.capRank (s : State) (d : Nat) : Nat × Nat × Nat :=
  (if s.bit .CAP_DEF_CTRL d 10 then 1 else 2, (s.cap d).trigTick, d)

/-- The rank of a resolver sample or a software conversion. -/
def Conv.rank (c : Conv) : Nat × Nat × Nat := (c.level, c.trig, (c.res.map Prod.fst).getD 0)

/-- The next group of a definition could start: its converters that are ON are free. -/
def State.groupFree (s : State) (d : Nat) : Bool :=
  (groupConverters (s.group d (s.cap d).entry)).all fun n => ¬ s.adOn n || (s.conv n).isNone

/-- Definitions whose next group waits, could start, and uses converter n. -/
def State.waitingGroups (s : State) (n : Nat) : List Nat :=
  (upto 64).filter fun d => s.bit .CAP_DEF_CTRL d 13 && (s.cap d).waits && s.groupFree d &&
    (groupConverters (s.group d (s.cap d).entry)).contains n

/-- A waiting conversion could start: its converters, two for a resolver sample, are free. -/
def State.convFree (s : State) (c : Conv) : Bool := (s.mates c).all fun m => (s.conv (adOf m.input)).isNone

/-- Something that could start on converter n ranks before r (R204). -/
def State.ahead (s : State) (n : Nat) (r : Nat × Nat × Nat) : Bool :=
  (s.waiting.any fun c => adOf c.input = n && s.convFree c && rankBefore c.rank r) ||
  (s.waitingGroups n).any fun d => rankBefore (s.capRank d) r

/-- Nothing that could start on the converters of a definition's next group ranks before it. -/
def State.groupFirst (s : State) (d : Nat) : Bool :=
  (groupConverters (s.group d (s.cap d).entry)).all fun n => ¬ s.adOn n || ¬ s.ahead n (s.capRank d)

/-- Nothing that could start on a waiting conversion's converters ranks before it. -/
def State.convFirst (s : State) (c : Conv) : Bool := (s.mates c).all fun m => ¬ s.ahead (adOf m.input) c.rank

/-- Whether a conversion belongs to another frame or to a resolver course. -/
def Conv.foreign (c : Conv) (d : Nat) : Bool :=
  match c.slot with
  | some p => p.1 ≠ d
  | none => c.level = 0

/-- A conversion starts on a converter (R203): a group that waits for it is late where the conversion is another frame's or a
resolver's (R217). -/
def State.occupy (s : State) (n : Nat) (c : Conv) : State :=
  (upto 64).foldl (fun s d =>
    if s.bit .CAP_DEF_CTRL d 13 && (s.cap d).waits && c.foreign d && (groupConverters (s.group d (s.cap d).entry)).contains n then
      s.setCap d { s.cap d with late := true }
    else s) (s.setConv n (some { c with began := s.ticks }))

/-- A waiting conversion starts, a resolver sample with both halves at one instant (R204, R208). -/
def State.startConv (s : State) (c : Conv) : State :=
  (s.mates c).foldl (fun s m => { s with waiting := s.waiting.erase m }.occupy (adOf m.input) m) s

/-- One result word of a definition's frame. -/
def State.putResult (s : State) (d : Nat) (v : Word) : State :=
  let c := s.cap d
  s.setCap d { c with results := Tab.set 0 c.words v c.results, words := c.words + 1, resultTick := s.ticks }

/-- A result word without a source: its entry was changed after the check of R220. Log entry 44. -/
def State.putFree (s : State) (d : Nat) : State := let p := s.drawWord; p.2.putResult d p.1

/-- An entry starts (R216, R217, R206). -/
def State.startEntry (s : State) (d : Nat) (w : Word) : State :=
  let i := wfld w 12 7
  match wfld w 15 13 with
  | 0 =>
    let c := s.cap d
    if s.adOn (adOf i) ∧ (s.conv (adOf i)).isNone then
      (s.occupy (adOf i) { input := i, st := wfld w 5 4, level := (s.capRank d).1, trig := c.trigTick, slot := some (d, c.words) }).setCap d
        { c with words := c.words + 1, outstanding := c.outstanding + 1 }
    else let s1 := s.putResult d 0; s1.setCap d { s1.cap d with err := true }
  | 1 => if i < 8 then s.putResult d (s.reg .SD_DATA i) else s.putFree d
  | 2 => if i < 12 then (s.putResult d (s.reg .SE_FAST_LO i)).putResult d (s.reg .SE_FAST_HI i) else (s.putFree d).putFree d
  | 3 => s.putResult d (s.reg .CP_OUT 0)
  | 4 =>
    if h : i < 8 then
      let p := (s.courses[i]).vis
      (s.putResult d (p.setWidth 16)).putResult d ((p >>> 16).setWidth 16)
    else (s.putFree d).putFree d
  | 5 => s.setCap d { s.cap d with notBefore := s.ticks + 8 * (i + 1) }
  | _ => s

/-- The course that a definition stamps with. -/
def State.stampCourse (s : State) (d : Nat) : Course := s.courses[(s.fld .CAP_DEF_CTRL d 2 0) % 8]'(Nat.mod_lt _ (by omega))

/-- The next group of a definition starts in this tick, with the stamps of R221. -/
def State.startGroup (s : State) (d : Nat) : State :=
  let c := s.cap d
  let g := s.group d c.entry
  let x := s.stampCourse d
  let lk : Bool := x.state = .locked
  let c1 : CapRun := { c with stamp2 := x.vis, lock2 := lk, entry := c.entry + g.length, entryTick := s.ticks, waits := false }
  let c2 : CapRun := if c.begun then c1 else { c1 with begun := true, stamp1 := x.vis, lock1 := lk, resultTick := s.ticks }
  g.foldl (fun s w => s.startEntry d w) (s.setCap d c2)

/-- The next entry's time has come (R217): the first tick boundary after the trigger, a tick after the previous entry's start,
the pass's begin; and any WAIT has elapsed. -/
def State.entryDue (s : State) (d : Nat) : Bool :=
  let c := s.cap d
  decide (c.notBefore ≤ s.ticks) &&
  (if ¬ c.begun then c.trigTick < s.ticks else if c.entry = 0 then c.passTick ≤ s.ticks else c.entryTick < s.ticks)

/-- LIST_ENTRY_START (R217): once its time has come the next group starts if it may; otherwise it waits, and LATE is set where
another frame or a resolver sample occupies a converter of it. -/
def execListEntryStart (d : Fin 64) (s : State) : Host.Outcome State Fault Refusal :=
  let c := s.cap d
  .next (if ¬ s.bit .CAP_DEF_CTRL d 13 ∨ s.capCount d ≤ c.entry ∨ ¬ s.entryDue d then s
    else if s.groupFree d ∧ s.groupFirst d then s.startGroup d
    else
      let blocked := (groupConverters (s.group d c.entry)).any fun n => (s.conv n).any fun x => x.foreign d
      s.setCap d { c with waits := true, late := c.late || blocked })

/-- PASS_START (R218): the next pass begins once the last entry of the previous one has started; later than planned sets
LATE. -/
def execPassStart (d : Fin 64) (s : State) : Host.Outcome State Fault Refusal :=
  let c := s.cap d
  let iv := (s.reg .CAP_DEF_INTV d).toNat
  .next (if s.bit .CAP_DEF_CTRL d 13 ∧ s.capCount d ≤ c.entry ∧ c.pass + 1 < s.capRep d then
      let planned := c.passTick + 8 * iv
      s.setCap d { c with pass := c.pass + 1, entry := 0, notBefore := 0, passTick := max planned c.entryTick
                          late := c.late || (iv ≠ 0 && planned < c.entryTick) }
    else s)

/-- ADC_CONVERSION_START (R204): a free converter that is ON starts the first of the conversions that wait for it and could
start; a group or a resolver sample must come first on all of its converters. -/
def execAdcConversionStart (n : Fin 4) (s : State) : Host.Outcome State Fault Refusal :=
  .next (if ¬ s.adOn n ∨ (s.conv n).isSome then s
    else match (s.waitingGroups n).find? s.groupFirst with
      | some d => s.startGroup d
      | none => match s.waiting.find? fun c => adOf c.input = n.val && s.convFree c && s.convFirst c with
        | some c => s.startConv c
        | none => s)

/-- One half of a resolver sample, about mid-scale, sampled 30 ns after its start; with the other half it reaches the course
(R183, R203, R208). Log entry 5. -/
def State.resolverHalf (s : State) (c : Conv) (code : Word) : State :=
  match c.res with
  | none => s
  | some (k, cosine) =>
    let v : Int := (code.toNat : Int) - 32768
    match Tab.get none s.resHalf (2 * k + b2n (!cosine)) with
    | none => { s with resHalf := Tab.set none (2 * k + b2n cosine) (some v) s.resHalf }
    | some w => { s with
        resHalf := Tab.set none (2 * k + b2n (!cosine)) none s.resHalf
        demod := s.demod ++ [(k, if cosine then w else v, if cosine then v else w, 8 * (c.began + 24))] }

/-- ADC_CONVERSION_DONE (R203, R207): the result reaches ADC_LAST and the frame's word or the resolver course. -/
def execAdcConversionDone (n : Fin 4) (uv : Nat) (s : State) : Host.Outcome State Fault Refusal :=
  .next (match s.conv n with
    | none => s
    | some c =>
      let code := adCode uv
      let s1 := (s.setConv n none).setReg .ADC_LAST c.input code
      match c.slot with
      | none => s1.resolverHalf c code
      | some (d, w) =>
        let x := s1.cap d
        s1.setCap d { x with results := Tab.set 0 w code x.results, outstanding := x.outstanding - 1, resultTick := s.ticks })

/-! ### Sigma-delta inputs (R209, R210) -/

/-- The decimation in force (R227). -/
def osrOf (w : Word) : Nat := if 16 ≤ wfld w 8 0 ∧ wfld w 8 0 ≤ 256 then wfld w 8 0 else 256

/-- A write of SD_CFG: the next 3 results are not written after EN rises or OSR changes (R210). -/
def State.writeSdCfg (s : State) (n : Nat) (v : Word) : State :=
  let old := s.reg .SD_CFG n
  let s1 := s.setReg .SD_CFG n (writtenWord .SD_CFG (s.sealed .f) old v)
  let new := s1.reg .SD_CFG n
  if (wbit new 15 ∧ ¬ wbit old 15) ∨ osrOf new ≠ osrOf old then
    { s1 with sdSettle := Tab.set 0 n 3 s1.sdSettle, sinc := Tab.set {} n {} s1.sinc, sdFrom := Tab.set 0 n s.ticks s1.sdFrom }
  else s1

/-- The divider of SDCLK_OUT (R209). -/
def State.sdDiv (s : State) : Nat := max 40 (s.fld .SD_CLK 0 7 0)

/-- A write of SD_CLK: SDCLK_OUT's clocks count from here on. -/
def State.writeSdClk (s : State) (v : Word) : State :=
  { s with sdFrom := (upto 8).foldl (fun t n => Tab.set 0 n s.ticks t) s.sdFrom }.setReg .SD_CLK 0
    (writtenWord .SD_CLK (s.sealed .f) (s.reg .SD_CLK 0) v)

/-- One modulator clock of a sinc3 filter: its integrators take a bit (R209). -/
def Sinc.clock (x : Sinc) (b : Bool) : Sinc :=
  let i1 := x.i1 + b2n b
  let i2 := x.i2 + i1
  { x with i1, i2, i3 := x.i3 + i2, count := x.count + 1 }

/-- The filter sum, by the combs (R209). -/
def Sinc.sum (x : Sinc) : Int := x.i3 - x.d1 - x.d2 - x.d3

/-- The filter after an output. -/
def Sinc.output (x : Sinc) : Sinc := { x with d1 := x.i3, d2 := x.i3 - x.d1, d3 := x.i3 - x.d1 - x.d2, count := 0 }

/-- A filter delivers its sum (R209, R210); the first 3 are not written. -/
def State.sdOutput (s : State) (n : Nat) (sum : Int) : State :=
  let cfg := s.reg .SD_CFG n
  let left := Tab.get 0 s.sdSettle n
  if 0 < left then { s with sdSettle := Tab.set 0 n (left - 1) s.sdSettle }
  else
    let v := clampI (-32768) 32767 ((sum - (osrOf cfg ^ 3 / 2 : Nat)) / (2 ^ wfld cfg 12 9 : Nat))
    (s.setReg .SD_DATA n (BitVec.ofInt 16 v)).setBit .SD_NEW 0 n true

/-- One modulator clock of SD[n]: the data ball is sampled at the edge that EDGE selects; every OSR clocks give a result. -/
def State.sdClock (s : State) (n : Nat) (k : Bool × Bool) : State :=
  let x := (Tab.get {} s.sinc n).clock (if s.bit .SD_CFG n 13 then k.2 else k.1)
  if osrOf (s.reg .SD_CFG n) ≤ x.count then { s with sinc := Tab.set {} n x.output s.sinc }.sdOutput n x.sum
  else { s with sinc := Tab.set {} n x s.sinc }

/-- SD_RESULT (R209, R210): the modulator clocks since the last one; of SDCLK_OUT no more than its divider allows. -/
def execSdResult (n : Fin 8) (clocks : List (Bool × Bool)) (s : State) : Host.Outcome State Fault Refusal :=
  .next (if ¬ s.bit .SD_CFG n 15 then s
    else if s.bit .SD_CFG n 14 then clocks.foldl (fun s k => s.sdClock n k) s
    else if s.bit .SD_CLK 0 15 then
      let l := clocks.take ((s.ticks - Tab.get 0 s.sdFrom n) / s.sdDiv)
      l.foldl (fun s k => s.sdClock n k) { s with sdFrom := Tab.set 0 n (Tab.get 0 s.sdFrom n + l.length * s.sdDiv) s.sdFrom }
    else s)

/-! ### Comparators (R211 to R213) -/

/-- The output of comparator n takes a level: CP_OUT, CP_EVT with the measurement interrupt, the trip path (R212). -/
def State.setCp (s : State) (n : Nat) (v : Bool) : State :=
  let rise : Bool := v && ¬ s.bit .CP_OUT 0 n
  let s1 := s.setBit .CP_OUT 0 n v
  let s2 := if rise then
      let s' := s1.setBit .CP_EVT 0 n true
      if s.bit .CP_IEN 0 n then s'.measureInt else s'
    else s1
  s2.tripCells

/-- HYST in microvolts. -/
def hystOf (n : Nat) : Nat :=
  match n with
  | 0 => 0
  | 1 => 5000
  | 2 => 10000
  | _ => 20000

/-- The output for an input voltage, given the present output (R211). -/
def cpLevel (cfg : Word) (ref uv : Nat) (now : Bool) : Bool :=
  let thr := ref * Config.vrefa
  let h := hystOf (wfld cfg 7 6) * 1024
  if wbit cfg 8 then (if now then uv * 1024 < thr + h else uv * 1024 < thr)
  else (if now then thr < uv * 1024 + h else thr < uv * 1024)

/-- COMPARATOR_CHANGE (R211 to R213): the output follows the input; for 200 ns after a write of CP_DAC it follows the
old threshold or the new one, freely. -/
def execComparatorChange (n : Fin 16) (uv : Nat) (settling : Bool) (s : State) : Host.Outcome State Fault Refusal :=
  .next (if ¬ s.bit .CP_ON 0 n then s
    else
      let (useOld, s1) := if settling then s.drawBit else (false, s)
      let ref := if useOld then wfld (Tab.get 0 s.cpOld n) 9 0 else s.fld .CP_DAC n 9 0
      s1.setCp n (cpLevel (s.reg .CP_CFG n) ref uv (s.bit .CP_OUT 0 n)))

/-- A write of CP_DAC, which keeps the threshold it replaces (R213). -/
def State.writeCpDac (s : State) (n : Nat) (v : Word) : State :=
  { s with cpOld := Tab.set 0 n (s.reg .CP_DAC n) s.cpOld }.setReg .CP_DAC n (writtenWord .CP_DAC (s.sealed .f) (s.reg .CP_DAC n) v)

/-- Serve CP_CFG.EN unless a power-up is in progress: power-up takes 1 µs, power-down is at once. Log entry 44. -/
def State.cpStart (s : State) (n : Nat) : State :=
  if (Tab.get none s.cpTrans n).isSome then s
  else if s.bit .CP_CFG n 15 then
    (if s.bit .CP_ON 0 n then s else { s with cpTrans := Tab.set none n (some true) s.cpTrans })
  else (s.setBit .CP_ON 0 n false).setCp n false

/-- A write of CP_CFG. -/
def State.writeCpCfg (s : State) (n : Nat) (v : Word) : State :=
  (s.setReg .CP_CFG n (writtenWord .CP_CFG (s.sealed .f) (s.reg .CP_CFG n) v)).cpStart n

/-- CP_POWER_REQUEST (R211). -/
def execCpPowerRequest (n : Fin 16) (v : Word) (s : State) : Host.Outcome State Fault Refusal := .next (s.writeCpCfg n v)

/-- CP_POWER_DONE (R211). -/
def execCpPowerDone (n : Fin 16) (s : State) : Host.Outcome State Fault Refusal :=
  .next (match Tab.get none s.cpTrans n with
    | none => s
    | some _ => ({ s with cpTrans := Tab.set none n none s.cpTrans }.setBit .CP_ON 0 n true).cpStart n)

/-! ### SENT receivers (R214, R215) -/

/-- Data nibbles expected (R228). -/
def nibblesOf (cfg : Word) : Nat := if 1 ≤ wfld cfg 14 12 ∧ wfld cfg 14 12 ≤ 6 then wfld cfg 14 12 else 6

/-- The calibration pulse is acceptable: within 20 % of 56 nominal ticks and 1/64 of the last accepted one (R215). -/
def State.calOk (s : State) (n : Nat) (ns : Nat) : Bool :=
  let nom := 14000 * s.fld .SE_TICK n 8 0
  let near (x : Nat) : Nat := if ns < x then x - ns else ns - x
  let prev := Tab.get 0 s.sentCal n
  near nom * 5 ≤ nom && (prev = 0 || near prev * 64 ≤ prev)

/-- The value that the data nibbles spell, the first received the most significant. Log entry 43. -/
def nibbleValue (l : List Nat) : Nat := l.foldl (fun v x => v * 16 + x) 0

/-- A discarded frame: the matching SE_STAT bits, and SE_ERR (R215); no serial message runs across it. -/
def State.sentBad (s : State) (n : Nat) (bits : List Nat) : State :=
  (bits.foldl (fun (s : State) b => s.setBit .SE_STAT n b true) { s with sentSer := Tab.set [] n [] s.sentSer }).count .SE_ERR n

/-- The CRC table of SAE J2716: polynomial x^4 + x^3 + x^2 + 1. Log entry 4. -/
def sentTable : List Nat := [0, 13, 7, 10, 14, 3, 9, 4, 1, 12, 6, 11, 15, 2, 8, 5]

/-- The SENT CRC of nibbles (R214), seed 5; the recommended one runs over a further nibble 0. Log entry 4. -/
def sentCrc (legacy : Bool) (l : List Nat) : Nat :=
  (if legacy then l else l ++ [0]).foldl (fun r x => x ^^^ sentTable.getD r 0) 5

/-- The 6-bit CRC of an enhanced serial message's bits (R214): x^6 + x^4 + x^3 + 1, seed 0x15, six zeros after the bits. Log
entry 4. -/
def sentCrc6 (l : List Bool) : Nat :=
  (l ++ List.replicate 6 false).foldl (fun r b => let x := 2 * r + b2n b; if 64 ≤ x then x ^^^ 0x59 else x) 0x15

/-- The number that bits spell, the first the most significant. -/
def bitsValue (l : List Bool) : Nat := l.foldl (fun n b => 2 * n + b2n b) 0

/-- The short serial message of 16 status nibbles, oldest first (R214, SAE J2716): bit 3 starts it, bit 2 carries a 4-bit
identifier, 8 data bits and their CRC. Kind, identifier, data. Log entry 4. -/
def shortMessage (legacy : Bool) (l : List Nat) : Option (Nat × Nat × Nat) :=
  let b := l.map fun x => x.testBit 2
  let id := bitsValue (b.take 4)
  let v := bitsValue ((b.drop 4).take 8)
  if l.length = 16 ∧ l.map (fun x => x.testBit 3) = true :: List.replicate 15 false ∧
      bitsValue (b.drop 12) = sentCrc legacy [id, v / 16, v % 16] then some (1, id, v) else none

/-- The enhanced serial message of 18 status nibbles, oldest first (R214, SAE J2716): bit 3 frames it and carries the format
bit, the identifier and, in the 16-bit format, data bits 15 to 12; bit 2 carries the CRC and 12 data bits. Log entry 4. -/
def enhancedMessage (l : List Nat) : Option (Nat × Nat × Nat) :=
  let b := l.map fun x => x.testBit 2
  let h := l.map fun x => x.testBit 3
  let hi := bitsValue ((h.drop 8).take 4)
  let lo := bitsValue ((h.drop 13).take 4)
  let v := bitsValue (b.drop 6)
  if l.length = 18 ∧ h.take 7 = List.replicate 6 true ++ [false] ∧ h.getD 12 true = false ∧ h.getD 17 true = false ∧
      bitsValue (b.take 6) = sentCrc6 (((b.drop 6).zip (h.drop 6)).flatMap fun p => [p.1, p.2]) then
    some (if h.getD 7 false then (3, hi, lo * 4096 + v) else (2, hi * 16 + lo, v))
  else none

/-- The serial message that the status nibbles of the last good frames in a row complete, by SERIAL (R214, R228). -/
def State.serialMessage (s : State) (n : Nat) : Option (Nat × Nat × Nat) :=
  let l := Tab.get [] s.sentSer n
  match s.fld .SE_CFG n 9 8 with
  | 1 => shortMessage (s.bit .SE_CFG n 10) (l.take 16).reverse
  | 2 => enhancedMessage (l.take 18).reverse
  | _ => none

/-- The status nibble of a good frame is gathered; a message it completes reaches the registers (R214, R228). -/
def State.sentSerial (s : State) (n status : Nat) : State :=
  let s1 := { s with sentSer := Tab.set [] n ((status :: Tab.get [] s.sentSer n).take 18) s.sentSer }
  match s1.serialMessage n with
  | some (k, id, data) =>
    ((s1.setReg .SE_SER_ID n (BitVec.ofNat 16 (k * 16384 + id))).setReg .SE_SER_DATA n (BitVec.ofNat 16 data)).setBit .SE_STAT n 14 true
  | none => s1

/-- The nibble of a pulse, measured with the tick of the calibration pulse, to the nearest tick; a pulse of 12 ticks is 0
(R215, SAE J2716). Above 15 it is no nibble. Log entry 4. -/
def nibbleOf (cal ns : Nat) : Nat :=
  let t := (2 * 56 * ns + cal) / (2 * cal)
  if t < 12 then 16 else t - 12

/-- SENT_FRAME (R215): status nibble, data nibbles, CRC nibble and, where PAUSE is set, a pause pulse. -/
def execSentFrame (n : Fin 12) (f : SentRx) (s : State) : Host.Outcome State Fault Refusal :=
  let cfg := s.reg .SE_CFG n
  .next (if ¬ wbit cfg 15 then s
    else if ¬ s.calOk n f.calNs then s.sentBad n [12]
    else
      let s1 := { s with sentCal := Tab.set 0 n f.calNs s.sentCal }
      let want := nibblesOf cfg
      let nibs := (f.pulses.take (want + 2)).map (nibbleOf f.calNs)
      let data := (nibs.drop 1).take want
      let nib := nibs.any fun x => 15 < x
      let len : Bool := f.pulses.length ≠ want + 2 + b2n (wbit cfg 11)
      if nib || len then s1.sentBad n ((if nib then [11] else []) ++ (if len then [10] else []))
      else if sentCrc (wbit cfg 10) data ≠ nibs.getD (want + 1) 0 then s1.sentBad n [13]
      else
        let v := nibbleValue data
        let s2 := (s1.setReg .SE_FAST_LO n (BitVec.ofNat 16 v)).setReg .SE_FAST_HI n
          (BitVec.ofNat 16 (nibs.getD 0 0 * 4096 + v / 65536 % 256))
        let s3 := (s2.setBit .SE_STAT n 15 true).sentSerial n (nibs.getD 0 0)
        if wbit cfg 7 then s3.measureInt else s3)

/-! ### Buffers and rings (R222) -/

/-- Carve-out of field buffer b (kind 4) or capture ring r (kind 2), if present. -/
def State.nthCarve (s : State) (kind i : Nat) : Option Carve := (s.carves.filter fun c => c.kind = kind)[i]?

/-- Base address, bytes per slot and number of slots of field buffer b. -/
def State.fbSlots (s : State) (b : Nat) : Option (Nat × Nat × Nat) :=
  (s.nthCarve 4 b).map fun c =>
    let sl := s.fld .CAP_FB_CFG b 5 0 + 1
    (0x8000000 + c.base * 131072, 64 * sl, min 4096 (c.count * 131072 / (64 * sl)))

/-- The same of capture ring r. -/
def State.crSlots (s : State) (r : Nat) : Option (Nat × Nat × Nat) :=
  (s.nthCarve 2 r).map fun c =>
    let sl := s.fld .CAP_CR_CFG r 5 0 + 1
    (0x40000000 + c.base * 262144, 64 * sl, min 4096 (c.count * 262144 / (64 * sl)))

/-- Slots of N in use. -/
def slotsUsed (n wr rd : Nat) : Nat := (wr + n - rd % n) % n

/-- WR and RD of field buffer b. -/
def State.fbUsed (s : State) (b n : Nat) : Nat := slotsUsed n (s.fld .CAP_FB_WR b 11 0) (s.fld .CAP_FB_RD b 11 0)

/-- An index one slot on. -/
def nextSlot (n i : Nat) : Nat := (i + 1) % n

/-- A software write of a read index within the filled range (R222); anything else is ignored. -/
def rdWrite (n wr rd v : Nat) : Nat := if v < n ∧ (v + n - rd % n) % n ≤ (wr + n - rd % n) % n then v else rd

/-- Field and ring of a definition. -/
def State.capFb (s : State) (d : Nat) : Nat := s.fld .CAP_DEF_CTRL d 9 7
/-- See capFb. -/
def State.capCr (s : State) (d : Nat) : Nat := s.fld .CAP_DEF_CTRL d 6 3

/-- The frame mover owns RD of buffer b (R223): a definition at work, or a READY slot, names a ring for it. -/
def State.moverOwns (s : State) (b : Nat) : Bool :=
  s.ready.any (fun r => r.fb = b) ||
  (upto 64).any fun d => (s.bit .CAP_DEF_CTRL d 14 || s.bit .CAP_DEF_CTRL d 13) && s.capFb d = b && s.capCr d < 8

/-- A write of CAP_FB_RD. -/
def State.writeFbRd (s : State) (b : Nat) (v : Word) : State :=
  match s.fbSlots b with
  | none => s
  | some (_, _, n) =>
    if s.moverOwns b ∨ n = 0 then s
    else s.setFld .CAP_FB_RD b 11 0 (rdWrite n (s.fld .CAP_FB_WR b 11 0) (s.fld .CAP_FB_RD b 11 0) (wfld v 11 0))

/-- A write of CAP_CR_RD. -/
def State.writeCrRd (s : State) (r : Nat) (v : Word) : State :=
  match s.crSlots r with
  | none => s
  | some (_, _, n) =>
    if n = 0 then s
    else s.setFld .CAP_CR_RD r 11 0 (rdWrite n (s.fld .CAP_CR_WR r 11 0) (s.fld .CAP_CR_RD r 11 0) (wfld v 11 0))

/-- Some definition with ENACT 1 names the buffer, or the ring (R222). -/
def State.capNames (s : State) (ring : Bool) (i : Nat) : Bool :=
  (upto 64).any fun d => s.bit .CAP_DEF_CTRL d 14 && (if ring then s.capCr d = i else s.capFb d = i)

/-- A write of CAP_FB_CFG: SLOTL is kept while a definition with ENACT 1 names the buffer. -/
def State.writeFbCfg (s : State) (b : Nat) (v : Word) : State :=
  let v' := if s.capNames false b then putFld v 5 0 (s.fld .CAP_FB_CFG b 5 0) else v
  s.setReg .CAP_FB_CFG b (writtenWord .CAP_FB_CFG (s.sealed .f) (s.reg .CAP_FB_CFG b) v')

/-- A write of CAP_CR_CFG, likewise. -/
def State.writeCrCfg (s : State) (r : Nat) (v : Word) : State :=
  let v' := if s.capNames true r then putFld v 5 0 (s.fld .CAP_CR_CFG r 5 0) else v
  s.setReg .CAP_CR_CFG r (writtenWord .CAP_CR_CFG (s.sealed .f) (s.reg .CAP_CR_CFG r) v')

/-! ### Starts, enables and frames (R219 to R224, R226) -/

/-- Result words of a definition's frame. -/
def State.frameWords (s : State) (d : Nat) : Nat :=
  s.capRep d * (((upto (s.capCount d)).map fun e => entryWords (s.capEntry d e)).foldl (· + ·) 0)

/-- Lines of a frame of n result words (R221). -/
def frameLines (n : Nat) : Nat := ((n + 8) * 2 + 63) / 64

/-- A SIM group of the list uses one converter twice. -/
def State.simClash (s : State) (d : Nat) : Bool :=
  (upto (s.capCount d)).any fun e => (e = 0 || ¬ wbit (s.capEntry d e) 6) && ¬ (groupConverters (s.group d e)).Nodup

/-- The check of R220. -/
def State.capCheck (s : State) (d : Nat) : Bool :=
  let lines := frameLines (s.frameWords d)
  let cr := s.capCr d
  s.capStart d + s.capCount d ≤ 256 &&
  ((upto (s.capCount d)).all fun e => entryOk (s.capEntry d e)) &&
  ¬ s.simClash d &&
  (match s.fbSlots (s.capFb d) with
    | none => false
    | some (_, b, _) => lines * 64 ≤ b) &&
  (cr = 15 || (cr < 8 && (match s.crSlots cr with
    | none => false
    | some (_, b, _) => lines * 64 ≤ b)))

/-- ENACT would become 1: the check passes, or the enable is refused (R220). -/
def State.capActivate (s : State) (d : Nat) : State :=
  if s.capCheck d then
    ((s.setBit .CAP_DEF_CTRL d 14 true).setBit .CAP_DEF_CTRL d 12 false).setCap d { s.cap d with seq := 0, enPending := false }
  else
    ((s.setBit .CAP_DEF_CTRL d 15 false).setBit .CAP_DEF_CTRL d 12 true).setCap d { s.cap d with enPending := false }

/-- A write of CAP_DEF_CTRL (R220): while ENACT or BUSY is 1 only EN is written. -/
def State.writeDefCtrl (s : State) (d : Nat) (v : Word) : State :=
  let old := s.reg .CAP_DEF_CTRL d
  let w := if wbit old 14 ∨ wbit old 13 then putBit old 15 (wbit v 15)
    else writtenWord .CAP_DEF_CTRL (s.sealed .f) old v
  let s1 := s.setReg .CAP_DEF_CTRL d w
  if ¬ wbit v 15 then (s1.setBit .CAP_DEF_CTRL d 14 false).setCap d { s1.cap d with enPending := false }
  else if wbit old 14 then s1
  else if wbit old 13 then s1.setCap d { s1.cap d with enPending := true }
  else s1.capActivate d

/-- CAP_DEF_ENABLE (R220). -/
def execCapDefEnable (d : Fin 64) (v : Word) (s : State) : Host.Outcome State Fault Refusal := .next (s.writeDefCtrl d v)

/-- A write of another register of a definition is ignored while ENACT or BUSY is 1 (R220). -/
def State.capFrozen (s : State) (d : Nat) : Bool := s.bit .CAP_DEF_CTRL d 14 || s.bit .CAP_DEF_CTRL d 13

/-- Frames in progress that will take a slot of buffer b. -/
def State.capRunning (s : State) (b : Nat) : Nat :=
  ((upto 64).filter fun d => s.bit .CAP_DEF_CTRL d 13 && s.capFb d = b).length

/-- A start that is not made (R219). -/
def State.capLost (s : State) (d : Nat) : State :=
  let c := s.cap d
  let s1 := (s.count .CAP_OVR d).setCap d { c with lost := min 0xFFFF (c.lost + 1) }
  if s.bit .CAP_CTRL 0 15 then s1.measureInt else s1

/-- Free the oldest READY slot of buffer b (R226). -/
def State.fbDiscard (s : State) (b n : Nat) : State :=
  match s.ready.find? (fun r => r.fb = b) with
  | none => s
  | some r => ({ s with ready := s.ready.erase r }.count .CAP_FB_DISC b).setFld .CAP_FB_RD b 11 0 (nextSlot n (s.fld .CAP_FB_RD b 11 0))

/-- A start of definition d (R219, R226). Slots that frames in progress will take count as taken. Log entry 44. -/
def State.captureStart (s : State) (d : Nat) : State :=
  if ¬ s.bit .CAP_DEF_CTRL d 14 then s
  else if s.bit .CAP_DEF_CTRL d 13 then s.capLost d
  else
    let b := s.capFb d
    match s.fbSlots b with
    | none => s.capLost d
    | some (_, _, n) =>
      let full (s : State) : Bool := n ≤ s.fbUsed b n + s.capRunning b + 1
      let s1 := if full s && s.capCr d < 8 && ¬ s.computeReady then s.fbDiscard b n else s
      if full s1 then s1.capLost d
      else
        let c := s1.cap d
        (s1.setBit .CAP_DEF_CTRL d 13 true).setCap d
          { seq := c.seq, lost := c.lost, trigTick := s.ticks, passTick := s.ticks, entryTick := s.ticks, resultTick := s.ticks }

/-- A write of CAP_SWTRIG. -/
def State.writeSwtrig (s : State) (v : Word) : State := if wbit v 15 then s.captureStart (wfld v 5 0) else s

/-- CAP_SWTRIG (R219). -/
def execCapSwtrig (v : Word) (s : State) : Host.Outcome State Fault Refusal := .next (s.writeSwtrig v)

/-- CAP_PERIODIC_TRIGGER (R219): PER is not 0. -/
def execCapPeriodicTrigger (d : Fin 64) (s : State) : Host.Outcome State Fault Refusal :=
  .next (if s.fld .CAP_DEF_PER d 14 0 = 0 then s else s.captureStart d)

/-- Write words to memory from an address in 64-bit beats; an error response is logged and the next beat follows. -/
def State.writeWords64 (s : State) (m : Master) (a : Nat) : List W64 → State
  | [] => s
  | w :: ws => (s.writeMem m a (leBytes 8 w.toNat)).2.writeWords64 m (a + 8) ws

/-- The beats that 16-bit words spell. -/
def packWords : List Word → List W64
  | a :: b :: c :: d :: t => BitVec.ofNat 64 (a.toNat + b.toNat * 2 ^ 16 + c.toNat * 2 ^ 32 + d.toNat * 2 ^ 48) :: packWords t
  | [] => []
  | l => [BitVec.ofNat 64 (l.foldr (fun (w : Word) n => w.toNat + n * 65536) 0)]

/-- The trailer of a frame (R221). -/
def State.trailer (s : State) (d : Nat) : List Word :=
  let c := s.cap d
  let t0 : Nat := 32768 + b2n c.err * 16384 + b2n c.late * 8192 + b2n (c.lock1 && c.lock2) * 4096 + d % 64 * 64
  [BitVec.ofNat 16 t0, BitVec.ofNat 16 c.seq, c.stamp1.setWidth 16, (c.stamp1 >>> 16).setWidth 16,
   c.stamp2.setWidth 16, (c.stamp2 >>> 16).setWidth 16, BitVec.ofNat 16 c.lost,
   BitVec.ofNat 16 (min 0xFFFF ((c.resultTick - c.trigTick) / 8))]

/-- The words of a frame: results, trailer, zeros to the end of the line. -/
def State.frame (s : State) (d : Nat) : List Word :=
  let n := (s.cap d).words
  let body := ((upto n).map fun i => Tab.get 0 (s.cap d).results i) ++ s.trailer d
  body ++ List.replicate (frameLines n * 32 - body.length) 0

/-- FRAME_COMPLETE (R221, R223, R220). -/
def execFrameComplete (d : Fin 64) (s : State) : Host.Outcome State Fault Refusal :=
  let c := s.cap d
  .next (if ¬ s.bit .CAP_DEF_CTRL d 13 ∨ c.entry < s.capCount d ∨ c.pass + 1 < s.capRep d ∨ 0 < c.outstanding then s
    else
      let b := s.capFb d
      let s1 : State := match s.fbSlots b with
        | none => s
        | some (base, size, n) =>
          let wr := s.fld .CAP_FB_WR b 11 0
          let s' := (s.writeWords64 ⟨.f, 10⟩ (base + size * wr) (packWords (s.frame d))).setFld .CAP_FB_WR b 11 0 (nextSlot n wr)
          let s'' : State := if s.capCr d < 8 then
              { s' with ready := s'.ready ++ [{ fb := b, slot := wr, ring := s.capCr d, words := c.words }] } else s'
          if s.bit .CAP_FB_CFG b 14 then s''.raise (s.fld .CAP_FB_CFG b 13 10) 7 else s''
      let s2 := (s1.setBit .CAP_DEF_CTRL d 13 false).setCap d ({ seq := (c.seq + 1) % 65536 } : CapRun)
      if c.enPending then s2.capActivate d else s2)

/-- Read a beat of 64 bits; one that answers an error is free. Log entry 44. -/
def State.readWord64 (s : State) (m : Master) (a : Nat) : W64 × State :=
  match s.readMem m a 8 with
  | (.ok l, s1) => (BitVec.ofNat 64 (leNat l), s1)
  | (.error _, s1) => (BitVec.ofNat 64 s1.draw.1, s1.draw.2)

/-- Read n beats of 64 bits. -/
def State.readWords64 (s : State) (m : Master) (a : Nat) : Nat → List W64 × State
  | 0 => ([], s)
  | n + 1 =>
    let p := s.readWord64 m a
    let q := p.2.readWords64 m (a + 8) n
    (p.1 :: q.1, q.2)

/-- The 16-bit words of beats. -/
def unpackWords (l : List W64) : List Word := l.flatMap fun v => (upto 4).map fun i => BitVec.ofNat 16 (v.toNat / 65536 ^ i)

/-- FRAME_MOVE (R224, R226): the oldest READY frame goes to its ring, with VALID written last. -/
def execFrameMove (s : State) : Host.Outcome State Fault Refusal :=
  .next (match s.ready with
    | [] => s
    | r :: rest =>
      match s.fbSlots r.fb, s.crSlots r.ring with
      | some (fbase, fsize, fn), some (rbase, rsize, rn) =>
        let wr := s.fld .CAP_CR_WR r.ring 11 0
        let full : Bool := nextSlot rn wr = s.fld .CAP_CR_RD r.ring 11 0
        if ¬ s.computeReady ∨ (full ∧ ¬ s.bit .CAP_CR_CFG r.ring 15) then s
        else
          let (ws, s1) := s.readWords64 ⟨.f, 9⟩ (fbase + fsize * r.slot) (frameLines r.words * 8)
          let l := unpackWords ws
          let l0 := l.set r.words (l.getD r.words 0 &&& 0x7FFF)
          let a := rbase + rsize * wr
          let s2 := (s1.writeWords64 ⟨.f, 9⟩ (a + r.words / 4 * 8) (packWords ((upto 4).map fun i =>
              if i = r.words % 4 then 0 else l0.getD (r.words / 4 * 4 + i) 0))).writeWords64 ⟨.f, 9⟩ a (packWords l0)
          let s3 := s2.writeWords64 ⟨.f, 9⟩ (a + r.words / 4 * 8) (packWords ((upto 4).map fun i => l.getD (r.words / 4 * 4 + i) 0))
          let s4 := (s3.setFld .CAP_CR_WR r.ring 11 0 (nextSlot rn wr)).setFld .CAP_FB_RD r.fb 11 0 (nextSlot fn r.slot)
          let s5 := { s4 with ready := rest }
          if s.bit .CAP_CR_CFG r.ring 14 then s5.raise (s.fld .CAP_CR_CFG r.ring 13 10) 7 else s5
      | _, _ => s)

/-- At each C-die phase every ring's WR and RD become 0 (R226). -/
def State.resetRings (s : State) : State := (upto 8).foldl (fun s r => (s.setReg .CAP_CR_WR r 0).setReg .CAP_CR_RD r 0) s

end Sys2Proof.Machine
end

