-- ==== Sys2Proof/Machine/Courses.lean ====
section
/-! DEFINITION. Courses and joints (06_courses.md): trackers, edges, lock states, arming, firing and the dispatch queue;
and the F-die tick, which also runs the gPTP clock, the modulators and the output cells. A command between two ticks
counts as happening in the tick already run. -/

namespace Sys2Proof.Machine

open Sys2Proof

/-! ### Definitions and positions (R178, R179, R198) -/

/-- Field f of the definition of course c (R198). -/
def State.cp (s : State) (c f : Nat) : Nat := s.param (1034 + 14 * c + f)

/-- KIND (R183). -/
def State.cKind (s : State) (c : Nat) : Nat := s.cp c 0 % 8
/-- Bit b of MODE. -/
def State.cMode (s : State) (c b : Nat) : Bool := (s.cp c 0).testBit b
/-- DIRSRC. -/
def State.dirSrc (s : State) (c : Nat) : Nat := s.cp c 0 / 16 % 4
/-- N, at least 1, and MISSING. -/
def State.cN (s : State) (c : Nat) : Nat := max 1 (s.cp c 2 % 65536)
/-- See cN. -/
def State.cMissing (s : State) (c : Nat) : Nat := s.cp c 2 / 65536 % 256

/-- E_pos (R183): edge positions per cycle. A resolver is continuous; its pitch is the cycle (log entry 5). -/
def State.ePos (s : State) (c : Nat) : Nat :=
  match s.cKind c with
  | 1 => s.cN c * (if s.cMode c 6 then 2 else 1)
  | 2 => 4 * s.cN c
  | 4 => 6
  | 5 => 2
  | 6 => s.cN c
  | _ => 1

/-- The state with course c replaced. -/
def State.setCourse (s : State) (c : Nat) (x : Course) : State :=
  if h : c < 8 then { s with courses := s.courses.set c x } else s

/-- An internal position (52 bits). -/
def wrapP (i : Int) : Nat := unsigned 52 i

/-- The visible position of an internal one (R179). -/
def visOf (p : Nat) : W32 := BitVec.ofNat 32 (p / 2 ^ 20)

/-- The signed distance from a to b, both visible positions. -/
def distV (a b : W32) : Int := signed 32 (b.toNat + 2 ^ 32 - a.toNat)

/-- J is ahead of P in the forward direction (R178). -/
def aheadF (p j : W32) : Bool := 0 < distV p j
/-- J is ahead of P in the reverse direction. -/
def aheadR (p j : W32) : Bool := 0 < distV j p

/-- X_k (R181), in internal units. -/
def State.nominal (s : State) (c : Nat) (x : Course) (k : Int) : Nat :=
  let e := s.ePos c
  wrapP ((x.base : Int) + (2 * k * 2 ^ 40 + e) / (2 * e : Nat))

/-- A signed 32-bit quantity, limited (R179; log entry 38). -/
def clamp32 (v : Int) : Int := clampI (-(2 ^ 31)) (2 ^ 31 - 1) v

/-! ### Events and state changes (R185, R186, R200) -/

/-- A CRS_EVT bit, with the course interrupt where it is enabled. -/
def State.courseEvt (s : State) (c b : Nat) : State :=
  let s1 := s.setBit .CRS_EVT c b true
  if s.bit .CRS_CTRL c b then s1.raise (s.cp c 12 % 16) 2 else s1

/-- The position freezes: the held count is the count at which it stands (R186). -/
def Course.frozen (x : Course) : Course :=
  { x with p := x.vis.toNat * 2 ^ 20, held := x.vis.toNat / 2 ^ 20, s := 0, a := 0, holding := false, syncCount := 0, tolCount := 0 }

/-- A course enters LOST; with RUN 1 and AUTO_RESYNC 1 it goes on to SEARCH. Log entry 47. -/
def State.toLost (s : State) (c : Nat) (byRun : Bool) : State :=
  let x := (s.course c).frozen
  let again : Bool := ¬ byRun && s.bit .CRS_CTRL c 15 && s.cMode c 7
  let s1 := s.setCourse c { x with state := if again then .search else .lost, lastSlot := none, lastGap := none, lastS := none, camOk := false }
  if byRun then s1 else s1.courseEvt c 5

/-- A course returns from SYNC to SEARCH, its position frozen. -/
def State.toSearch (s : State) (c : Nat) : State := s.setCourse c { (s.course c).frozen with state := .search, camOk := false }

/-! ### Joints (R189 to R197) -/

/-- Position and increment of joint j. -/
def State.jpos (s : State) (j : Nat) : W32 := BitVec.ofNat 32 (s.pair .JNT_POS_LO .JNT_POS_HI j)
/-- See jpos. -/
def State.jinc (s : State) (j : Nat) : Nat := s.pair .JNT_INC_LO .JNT_INC_HI j
/-- DIR of joint j: 1 reverse, 2 either, else forward. -/
def State.jdir (s : State) (j : Nat) : Nat := s.fld .JNT_CFG j 8 7
/-- ARMED. -/
def State.armed (s : State) (j : Nat) : Bool := s.bit .JNT_CFG j 15
/-- The course of joint j. -/
def State.jcourse (s : State) (j : Nat) : Nat := s.fld .JNT_CFG j 14 12

/-- The joint is behind position p in its direction (R178, R189). -/
def State.jbehind (s : State) (j : Nat) (p : W32) : Bool :=
  let q := s.jpos j
  match s.jdir j with
  | 1 => ¬ aheadR p q
  | 2 => ¬ (aheadF p q || aheadR p q)
  | _ => ¬ aheadF p q

/-- Its course lets the joint fire (R185, R190): LOCKED, or COAST with the fire policy. -/
def State.jmay (s : State) (j : Nat) : Bool :=
  match (s.course (s.jcourse j)).state with
  | .locked => true
  | .coast => ¬ s.bit .JNT_CFG j 5
  | _ => false

/-- Set the joint's bit in JNT_FIRED, JNT_LATE or JNT_DROP (R201). -/
def State.jmark (s : State) (k : RegKind) (j : Nat) : State := s.setBit k (j / 16) (j % 16) true

/-- The dispatch queue with an action of the present tick in joint index order among those of that tick (R196). -/
def dispatchInsert (e : Nat × Nat × Word × Word × Nat) : List (Nat × Nat × Word × Word × Nat) → List (Nat × Nat × Word × Word × Nat)
  | [] => [e]
  | x :: t => if x.2.2.2.2 = e.2.2.2.2 ∧ e.1 < x.1 then e :: x :: t else x :: dispatchInsert e t

/-- The action enters the dispatch queue of 256 entries; the one that finds it full is not made (R196). -/
def State.jqueue (s : State) (e : Nat × Nat × Word × Word × Nat) : State :=
  let q := dispatchInsert e s.dispatch
  if q.length ≤ 256 then { s with dispatch := q }
  else match q.getLast? with
    | some x => { s with dispatch := q.dropLast }.jmark .JNT_DROP x.1
    | none => s

/-- The action of joint j is made (R194, R196): on a pin at `slot`, or into the dispatch queue. -/
def State.jact (s : State) (j slot : Nat) : State :=
  let act := s.fld .JNT_CFG j 11 9
  if act < 4 then s.pinAction j (s.fld .JNT_TGT j 5 0) act (s.reg .JNT_ARG j) slot
  else s.jqueue (j, act, s.reg .JNT_TGT j, s.reg .JNT_ARG j, s.ticks)

/-- The joint has fired in this tick (R193). -/
def State.jhasFired (s : State) (j : Nat) : Bool := Tab.get 0 s.jfired j = s.ticks + 1

/-- The joint fires (R193). -/
def State.jfire (s : State) (j slot : Nat) : State :=
  (({ s with jfired := Tab.set 0 j (s.ticks + 1) s.jfired }).jmark .JNT_FIRED j).jact j slot

/-- Multiples of INC that put a joint ahead of p, the smallest (R191). -/
def steps (rev : Bool) (p j : W32) (inc : Nat) : Nat :=
  let d := if rev then (j - p).toNat else (p - j).toNat
  if d ≤ 2 ^ 31 then d / inc + 1 else 1

/-- After a firing or a drop: INC 0 disarms; otherwise the joint moves ahead of p, and more than one step sets JNT_DROP. -/
def State.jadvance (s : State) (j : Nat) (p : W32) : State :=
  let inc := s.jinc j
  if inc = 0 then s.setBit .JNT_CFG j 15 false
  else
    let rev : Bool := s.jdir j = 1
    let m := steps rev p (s.jpos j) inc
    let d := BitVec.ofNat 32 (m * inc)
    let s1 := s.setPair .JNT_POS_LO .JNT_POS_HI j (if rev then s.jpos j - d else s.jpos j + d).toNat
    if 1 < m then s1.jmark .JNT_DROP j else s1

/-- A joint that is behind at its arming or at entry into LOCKED, or skipped (R191), at position p: fired late, unless it
has fired in this tick already (R193), or dropped. -/
def State.jlate (s : State) (j : Nat) (p : W32) : State :=
  (if s.bit .JNT_CFG j 6 || s.jhasFired j then s.jmark .JNT_DROP j
    else (s.jfire j (8 * (s.ticks - 1))).jmark .JNT_LATE j).jadvance j p

/-- Catch-up on entry into LOCKED (R192). -/
def State.catchUp (s : State) (c : Nat) : State :=
  (upto 128).foldl (fun s j =>
    let p := (s.course c).vis
    if s.armed j && s.jcourse j = c && s.jbehind j p then s.jlate j p else s) s

/-- A course enters LOCKED. -/
def State.toLocked (s : State) (c : Nat) : State :=
  ((s.setCourse c { s.course c with state := .locked }).courseEvt c 7).catchUp c

/-- An armed joint of course c whose crossing lies in (P1, P2] of a forward correction (R190). -/
def State.skipped (s : State) (c : Nat) (p1 p2 : W32) (j : Nat) : Bool :=
  s.armed j && s.jcourse j = c && s.jdir j ≠ 1 && 0 < distV p1 (s.jpos j) && distV p1 (s.jpos j) ≤ distV p1 p2

/-- Joints of course c that a forward correction from P1 to P2 has skipped (R190): SKIP (R200), then R191 for each that its
course lets fire; the others wait for the catch-up (R192). -/
def State.skipJoints (s : State) (c : Nat) (p1 p2 : W32) : State :=
  let l := (upto 128).filter (s.skipped c p1 p2)
  let s1 := if l.isEmpty then s else s.courseEvt c 0
  (l.filter s.jmay).foldl (fun s j => s.jlate j p2) s1

/-- Joint j in the tick that took its course from P0 to P1 (R190, R193, R195): none, or the slot of its normal firing. -/
def State.crossing? (s : State) (j : Nat) (p0 p1 : W32) : Option Nat :=
  let d := distV p0 p1
  let q := distV p0 (s.jpos j)
  let fwd : Bool := 0 < q && q ≤ d && s.jdir j ≠ 1
  let rev : Bool := q < 0 && d ≤ q && (s.jdir j = 1 || s.jdir j = 2)
  if s.armed j && s.jmay j && (fwd || rev) then some ((8 * q.natAbs + d.natAbs - 1) / d.natAbs) else none

/-- A write of JNT_POS_HI (R189): both halves are committed, the joint is armed, and one that is behind is handled at once:
dropped by its LATE policy in any state of its course, or fired where the course lets it (R185); otherwise the catch-up
handles it (R192). Log entry 47. -/
def State.jarm (s : State) (j : Nat) (v : Word) : State :=
  let lo := Tab.get (0 : Word) s.staging (RegKind.JNT_POS_LO.addr j)
  let s1 := ((s.setReg .JNT_POS_LO j lo).setReg .JNT_POS_HI j v).setBit .JNT_CFG j 15 true
  let p := (s1.course (s1.jcourse j)).vis
  if (s1.jmay j || s1.bit .JNT_CFG j 6) && s1.jbehind j p then s1.jlate j p else s1

/-- JOINT_ARM (R189). -/
def execJointArm (j : Fin 128) (v : Word) (s : State) : Host.Outcome State Fault Refusal := .next (s.jarm j v)

/-- JOINT_DISARM (R201). -/
def execJointDisarm (j : Fin 128) (s : State) : Host.Outcome State Fault Refusal := .next (s.setBit .JNT_CFG j 15 false)

/-- A write of JNT_CFG (R189, R201): while ARMED only the disarming bit acts. -/
def State.writeJntCfg (s : State) (j : Nat) (v : Word) : State :=
  if s.armed j then (if wbit v 15 then s.setBit .JNT_CFG j 15 false else s)
  else s.setReg .JNT_CFG j (writtenWord .JNT_CFG (s.sealed .f) (s.reg .JNT_CFG j) (v &&& 0x7FFF))

/-! ### Corrections (R181) -/

/-- The tracker with f applied and the internal position moved to np (R181): the visible position follows a correction that
lies ahead, and is held over one that lies behind. -/
def Course.movedTo (x : Course) (np : Nat) (f : Course → Course) : Course :=
  let ahead : Bool := 0 ≤ distV x.vis (visOf np)
  { f x with
    p := np, vis := if ahead then visOf np else x.vis, holding := !ahead
    corr := (signed 52 (np + 2 ^ 52 - x.p)).tdiv (2 ^ 20) }

/-- The internal position of course c becomes np by a correction: the visible position jumps forward to it, or holds. -/
def State.correct (s : State) (c np : Nat) (f : Course → Course) : State :=
  let x := s.course c
  let y := x.movedTo np f
  let s1 := s.setCourse c y
  if y.vis ≠ x.vis then (s1.skipJoints c x.vis y.vis).modJump c x.vis y.vis else s1

/-! ### Edges (R181 to R186) -/

/-- What an edge is to its tracker. -/
inductive EdgeRes where
  | ignored
  | pattern
  /-- the reference event, at edge index k -/
  | reference (k : Int)
  /-- edge with nominal index k, after which the count is `next` -/
  | edge (k next : Int)
  deriving DecidableEq, Repr

/-- Line levels as a code. -/
def edgeCode (e : EdgeInfo) : Nat := b2n e.a + 2 * b2n e.b + 4 * b2n e.c

/-- The code before the edge: the last one seen, or this one with its line turned back. -/
def Course.oldCode (x : Course) (e : EdgeInfo) : Nat := if x.lastSlot.isSome then x.lines else (edgeCode e) ^^^ 2 ^ e.line.val

/-- Slots since the last edge. -/
def Course.gapTo (x : Course) (e : EdgeInfo) : Option Nat :=
  match x.lastSlot with
  | some l => if l < e.slot then some (e.slot - l) else none
  | none => none

/-- Whether an interval is at least n/16 of the previous one, or, strictly, above it. -/
def Course.ratio (x : Course) (e : EdgeInfo) (n : Nat) (strict : Bool) : Bool :=
  match x.gapTo e, x.lastGap with
  | some d, some g => if strict then n * g < 16 * d else n * g ≤ 16 * d
  | _, _ => false

/-- Reverse motion of a tooth wheel by its direction source (R184). -/
def State.toothRev (s : State) (c : Nat) (e : EdgeInfo) : Bool :=
  match s.dirSrc c with
  | 1 => e.b
  | 2 => s.cp c 4 / 65536 % 4096 ≤ e.width
  | _ => false

/-- Kind 1 (R183). The reference is taken in forward motion; an edge that changes the direction is not checked. Log entry
39. -/
def State.toothEdge (s : State) (c : Nat) (x : Course) (e : EdgeInfo) : EdgeRes :=
  if e.line ≠ 0 ∨ e.rising = s.cMode c 3 then .ignored
  else
    let n : Int := s.cN c
    let miss : Int := s.cMissing c
    let rev := s.toothRev c e
    let gap := x.ratio e (s.cp c 5 % 256) false
    if x.state = .search then
      (if gap && ¬ rev then .reference (if s.cMode c 6 && (e.cam ≠ (s.cp c 13).testBit 8) then n else 0) else .ignored)
    else
      let k := x.edge % n
      let last : Bool := if rev then k = 0 else k = n - miss - 1
      let step := if last then miss + 1 else 1
      let k' := if rev then x.edge - step else x.edge + step
      if rev ≠ x.rev then .edge k' k'
      else if last then (if gap then .edge k' k' else .pattern)
      else if gap || x.ratio e (s.cp c 5 / 256 % 256) true then .pattern
      else .edge k' k'

/-- Edge of a counted phase order of n states: the index the edge has and the count after it. -/
def phaseStep (x : Course) (n old new : Nat) : EdgeRes :=
  let d := (new + n - old) % n
  if d = 0 then .ignored
  else if d = 1 then .edge (x.edge + 1) (x.edge + 1)
  else if d = n - 1 then .edge x.edge (x.edge - 1)
  else .pattern

/-- Kind 2 (R183): A leads B in forward motion (log entry 39). -/
def State.quadEdge (s : State) (c : Nat) (x : Course) (e : EdgeInfo) : EdgeRes :=
  let ix (code : Nat) : Nat := match code % 4 with
    | 0 => 0
    | 1 => 1
    | 3 => 2
    | _ => 3
  if e.line = 2 then
    if e.rising = s.cMode c 3 then .ignored
    else if x.state = .search then (if e.a ∧ e.b then .reference 0 else .ignored)
    else if x.edge % (4 * s.cN c : Nat) = 0 then .ignored else .pattern
  else if x.state = .search then .ignored
  else phaseStep x 4 (ix (x.oldCode e)) (ix (edgeCode e))

/-- The place of a Hall code in the forward order, U rising first (R183; log entry 39); none for 0b000 and 0b111. -/
def hallIx (code : Nat) : Option Nat :=
  match code % 8 with
  | 5 => some 0
  | 1 => some 1
  | 3 => some 2
  | 2 => some 3
  | 6 => some 4
  | 4 => some 5
  | _ => none

/-- Kind 4 (R183). -/
def hallEdge (x : Course) (e : EdgeInfo) : EdgeRes :=
  match hallIx (x.oldCode e), hallIx (edgeCode e) with
  | some o, some n =>
    if x.state = .search then
      (if (n + 6 - o) % 6 = 1 then .reference n else if (o + 6 - n) % 6 = 1 then .reference o else .ignored)
    else phaseStep x 6 o n
  | _, none => if x.state = .search then .ignored else .pattern
  | none, some _ => .ignored

/-- Kind 5 (R183): rising crossings at REF, falling ones half a cycle later; a missed crossing shows in the polarity. -/
def mainsEdge (x : Course) (e : EdgeInfo) : EdgeRes :=
  if e.line ≠ 0 then .ignored
  else if x.state = .search then (if e.rising then .reference 0 else .ignored)
  else
    let k := x.edge + 1
    let k' := if (k % 2 = 0) = e.rising then k else k + 1
    .edge k' k'

/-- Kind 6 (R183). -/
def State.pulseEdge (s : State) (c : Nat) (x : Course) (e : EdgeInfo) : EdgeRes :=
  if e.line ≠ 0 ∨ e.rising = s.cMode c 3 then .ignored
  else if x.state = .search then .reference 0
  else if x.ratio e (s.cp c 5 / 256 % 256) true then .pattern
  else .edge (x.edge + 1) (x.edge + 1)

/-- The edge as its course's kind takes it. -/
def State.classify (s : State) (c : Nat) (x : Course) (e : EdgeInfo) : EdgeRes :=
  match s.cKind c with
  | 1 => s.toothEdge c x e
  | 2 => s.quadEdge c x e
  | 4 => hallEdge x e
  | 5 => mainsEdge x e
  | 6 => s.pulseEdge c x e
  | _ => .ignored

/-- Whether the edge moves in reverse. -/
def State.edgeRev (s : State) (c : Nat) (x : Course) (e : EdgeInfo) : EdgeRes → Bool
  | .edge k next => if s.cKind c = 1 then s.toothRev c e else next < k || next < x.edge
  | .reference k => s.cKind c = 4 && hallIx (x.oldCode e) = some k.toNat
  | _ => x.rev

/-- History after an edge: its slot and interval, the speed over it, the line levels. -/
def Course.after (x : Course) (e : EdgeInfo) (sp : Option Int) : Course :=
  { x with lastSlot := some e.slot, lastGap := x.gapTo e, lastS := sp, lines := (edgeCode e) }

/-- The speed over an interval of `slots` in which the course moved by `dist` internal units, truncated (R181). -/
def speedOver (dist : Int) (slots : Nat) : Int := clamp32 ((dist * 8).tdiv slots)

/-- The advance at speed sp from the edge's instant to the end of the tick. -/
def State.since (s : State) (slot : Nat) (sp : Int) : Int := (sp * ((8 * s.ticks : Int) - slot)).tdiv 8

/-- The mean of two intervals in slots serves the acceleration (R181). -/
def accel (ds : Int) (g1 g2 : Nat) : Int := clamp32 ((ds * 2 ^ 24 * 16).tdiv (g1 + g2 : Nat))

/-- A reference event in SEARCH: the course enters SYNC (R185, R186). -/
def State.toSync (s : State) (c : Nat) (x : Course) (k : Int) (rev : Bool) (e : EdgeInfo) : State :=
  let ep := s.ePos c
  let off : Int := (2 * k * 2 ^ 40 + ep) / (2 * ep : Nat)
  let count := (x.held + 1) % 4096
  let frac : Nat := (s.cp c 3 * 2 ^ 20 + unsigned 52 off) % 2 ^ 40
  let x0 : Nat := count * 2 ^ 40 + frac
  let pitch (n : Nat) : Int := (n * 2 ^ 40 / ep : Nat)
  let sp := match x.gapTo e with
    | some g => some (speedOver (if s.cKind c = 1 then pitch (s.cMissing c + 1) else if rev then -pitch 1 else pitch 1) g)
    | none => none
  let s0 := sp.getD 0
  let p := wrapP ((x0 : Int) + s.since e.slot s0)
  s.setCourse c { x.after e sp with
    state := .sync, held := count, base := wrapP ((x0 : Int) - off), edge := if s.cKind c = 4 ∧ rev then k - 1 else k
    rev, s := s0, a := 0, p, vis := visOf p, holding := false, syncCount := 0, tolCount := 0
    camOk := s.cMode c 6 && s.cp c 13 % 256 ≠ 255 }

/-- A speed limit is exceeded (R185). -/
def State.overspeed (s : State) (c : Nat) (sp : Int) : Bool :=
  let lo := s.cp c 8
  let hi := s.cp c 9
  (lo ≠ 0 && sp.natAbs < lo) || (hi ≠ 0 && hi < sp.natAbs)

/-- A change of direction (R184). -/
def State.reversal (s : State) (c : Nat) (old new : Bool) : State := if old = new then s else s.courseEvt c 2

/-- The cam level at a gap fails to alternate (R183). -/
def State.camCheck (s : State) (c : Nat) (k : Int) (e : EdgeInfo) : State :=
  let n : Int := s.cN c
  if s.cKind c = 1 ∧ s.cMode c 6 = true ∧ k % n = 0 ∧ (e.cam = (s.cp c 13).testBit 8) ≠ (k / n % 2 = 0) then s.courseEvt c 1 else s

/-- The end of an edge that showed a pattern error (`pat`) or exceeded a speed limit (R185). -/
def State.badEdge (s : State) (c : Nat) (pat sp : Bool) : State :=
  let s1 := if pat then s.courseEvt c 3 else s
  let s2 := if sp then s1.courseEvt c 8 else s1
  if (s.course c).state = .sync then s2.toSearch c else s2.toLost c false

/-- One more edge towards LOCKED, or the return from COAST. -/
def State.goodEdge (s : State) (c : Nat) : State :=
  let x := s.course c
  match x.state with
  | .sync =>
    let n := x.syncCount + 1
    let s1 := s.setCourse c { x with syncCount := n }
    if s.cp c 5 / 65536 % 256 ≤ n ∧ (s.cMode c 6 = true ∧ s.cKind c = 1 → x.camOk = true) then s1.toLocked c else s1
  | .coast => s.toLocked c
  | _ => s

/-- The correction error of an edge at the nominal internal position x1 (R181). -/
def State.edgeError (s : State) (c x1 slot : Nat) : Int :=
  (signed 52 (x1 + 2 ^ 52 - wrapP (((s.course c).p : Int) - s.since slot (s.course c).s))).tdiv (2 ^ 20)

/-- An edge whose error is beyond the tolerance (R182). -/
def State.badTolerance (s : State) (c : Nat) (e : Int) : Bool :=
  s.cp c 6 % 256 ≠ 0 && (s.cp c 6 % 256) * 2 ^ 20 < e.natAbs * 256 * s.ePos c

/-- Whatever an edge ends in: pattern or overspeed, loss in COAST, or the correction (R182, R185). -/
def State.edgeEnd (s : State) (c x1 slot : Nat) (sp ac e : Int) (bad pat fast : Bool) : State :=
  if pat || fast then s.badEdge c pat fast
  else if (s.course c).state = .coast ∧ bad then s.toLost c false
  else
    let s3 := s.correct c (wrapP (x1 + s.since slot sp)) fun x => { x with s := sp, a := ac, coastAdv := 0 }
    (s3.setCourse c { s3.course c with corr := e }).goodEdge c

/-- An edge of a moving course at the nominal internal position x1, with speed sp and acceleration ac: tolerance, limits,
correction, lock state (R181, R182, R185). -/
def State.trackEdge (s : State) (c x1 : Nat) (slot : Nat) (sp ac : Int) (f : Course → Course) : State :=
  let x := s.course c
  let e := s.edgeError c x1 slot
  let bad := s.badTolerance c e
  let n := if bad then x.tolCount + 1 else 0
  let cnt := s.cp c 5 / 2 ^ 24
  let s1 := s.setCourse c { f x with tolCount := n, corr := e }
  (if bad then s1.courseEvt c 4 else s1).edgeEnd c x1 slot sp ac e bad (bad && cnt ≠ 0 && cnt ≤ n) (s.overspeed c sp && x.state ≠ .coast)

/-- A counted edge of a moving course. -/
def State.countedEdge (s : State) (c : Nat) (x : Course) (k next : Int) (rev : Bool) (e : EdgeInfo) : State :=
  let x1 := s.nominal c x k
  let x0 := s.nominal c x (if rev then x.edge + (if s.cKind c = 1 then 0 else 1) else x.edge)
  let dist := signed 52 (x1 + 2 ^ 52 - x0)
  let sp := match x.gapTo e with
    | some g => speedOver dist g
    | none => x.s
  let ac := match x.lastS, x.gapTo e, x.lastGap with
    | some s0, some g1, some g2 => accel (sp - s0) g1 g2
    | _, _, _ => 0
  let s1 := (s.reversal c x.rev rev).camCheck c k e
  s1.trackEdge c x1 e.slot sp ac fun y => { y.after e (some sp) with edge := next, rev }

/-- A demodulated sample of a resolver course (R183): reference by amplitude, then the angle-tracking loop with gains
2^-KP and 2^-KI. Log entry 5. -/
def State.resolverEdge (s : State) (c : Nat) (x : Course) (sn cs : Int) (e : EdgeInfo) : State :=
  let loop := s.cp c 10
  if x.state = .search then
    (if (loop % 65536 : Nat) ≤ sn * sn + cs * cs then
      let count := (x.held + 1) % 4096
      let p := count * 2 ^ 40 + unsigned 40 ((s.cp c 3 * 2 ^ 20 : Nat) + Config.resolverError sn cs 0)
      s.setCourse c { x.after e none with state := .sync, held := count, s := 0, a := 0, p, vis := visOf p, syncCount := 0, tolCount := 0 }
    else s)
  else
    let err := Config.resolverError sn cs (x.p % 2 ^ 40)
    let sp := clamp32 (x.s + err.tdiv (2 ^ (loop / 2 ^ 20 % 16) : Nat))
    let rev : Bool := sp < 0
    let s1 := s.reversal c x.rev rev
    let pAt := (x.p : Int) - s.since e.slot x.s
    s1.trackEdge c (wrapP (pAt + err.tdiv (2 ^ (loop / 2 ^ 16 % 16) : Nat))) e.slot sp 0 fun y => { y.after e (some sp) with rev }

/-- Selector code of input i of course c (R180): 0 to 2 for IN_A to IN_C, 3 for CAM_IN. -/
def State.cInput (s : State) (c i : Nat) : Nat := if i < 3 then s.cp c 1 / 256 ^ i % 256 else s.cp c 13 % 256

/-- The level of an input by its selector code (R180, R212): a comparator's is CP_OUT, a CIN input's that of its ball, 0 where
it has none or its bank is below its minimum (R387); for the rest the level given. -/
def State.inputLevel (s : State) (code : Nat) (given : Bool) : Bool :=
  if 0x40 ≤ code ∧ code < 0x50 then s.bit .CP_OUT 0 (code - 0x40)
  else if code < 0x20 then
    match s.ballOf (0x41 + code) with
    | some g => s.bankOn (g / 32) && given
    | none => false
  else if code = 0xFF then false else given

/-- An edge of course c as its tracker sees it (R180): one that its input shows and that has lasted FILTER ticks, with the
filter's delay taken off its time stamp; the other lines at their levels. -/
def State.edgeSeen (s : State) (c : Nat) (e : EdgeInfo) : Option EdgeInfo :=
  let code := s.cInput c e.line
  let flt := s.cp c 4 % 4096
  if code = 0xFF ∨ s.inputLevel code e.rising ≠ e.rising ∨ e.held < flt then none
  else some { e with
    a := s.inputLevel (s.cInput c 0) e.a, b := s.inputLevel (s.cInput c 1) e.b, c := s.inputLevel (s.cInput c 2) e.c
    cam := s.inputLevel (s.cInput c 3) e.cam, slot := e.slot - 8 * flt }

/-- What an edge that its tracker sees does to a running course of an edge kind (R181 to R186). -/
def State.courseEdge (s : State) (c : Nat) (e : EdgeInfo) : State :=
  let x := s.course c
  let r := s.classify c x e
  let rev := s.edgeRev c x e r
  let counted : Bool := r ≠ .ignored || (x.state = .search && (s.cKind c ≠ 1 || (e.line = 0 && e.rising ≠ s.cMode c 3)))
  if ¬ counted ∧ x.state ≠ .search then s.setCourse c { x with lines := (edgeCode e) }
  else
    let s1 := if counted then s.count .CRS_EDGES c else s
    if x.state = .lost then s1
    else match r with
      | .ignored => if counted then s1.setCourse c (x.after e none) else s1
      | .reference k => s1.toSync c x k rev e
      | .pattern => (s1.setCourse c (x.after e none)).badEdge c true false
      | .edge k next => s1.countedEdge c x k next rev e

/-- The kinds that follow edges (R183). -/
def edgeKind (k : Nat) : Bool := k = 1 || k = 2 || k = 4 || k = 5 || k = 6

/-- COURSE_EDGE (R181 to R186). The samples of a resolver course come from its converters or filters (R208). -/
def execCourseEdge (c : Fin 8) (e : EdgeInfo) (s : State) : Host.Outcome State Fault Refusal :=
  .next (if (s.course c).running ∧ edgeKind (s.cKind c) = true then
      match s.edgeSeen c e with
      | some e' => s.courseEdge c e'
      | none => s
    else s)

/-- A demodulated sample of a resolver course counts as an edge (R183, R208). -/
def State.takeSample (s : State) (d : Nat × Int × Int × Nat) : State :=
  let c := d.1
  let x := s.course c
  if ¬ x.running ∨ s.cKind c ≠ 3 then s
  else
    let s1 := s.count .CRS_EDGES c
    if x.state = .lost then s1
    else s1.resolverEdge c x d.2.1 d.2.2.1 { line := 0, rising := true, a := false, b := false, c := false, cam := false, width := 0, slot := d.2.2.2, held := 0 }

/-- The samples that wait are taken. -/
def State.takeSamples (s : State) : State := s.demod.foldl (fun s d => s.takeSample d) { s with demod := [] }

/-- Edge positions from the last edge to the next, gaps included (R185). -/
def State.nextStep (s : State) (c : Nat) (x : Course) : Nat :=
  let n : Int := s.cN c
  let k := x.edge % n
  if s.cKind c = 1 ∧ (if x.rev then k = 0 else k = n - s.cMissing c - 1) then s.cMissing c + 1 else 1

/-- COAST_TO ÷ 16 of the expected interval has passed without an edge (R185); a resolver expects its samples at the last
interval between two of them. Log entry 39. -/
def State.overdue (s : State) (c : Nat) : Bool :=
  let x := s.course c
  let lim := s.cp c 7 % 256
  match x.lastSlot with
  | none => false
  | some l =>
    let slots := 8 * s.ticks - l
    if s.cKind c = 3 then (match x.lastGap with
      | some g => lim * g ≤ 16 * slots
      | none => false)
    else lim * (s.nextStep c x * 2 ^ 40 * 8) ≤ 16 * slots * x.s.natAbs * s.ePos c

/-- COAST_TIMEOUT (R185): a LOCKED course without an edge in time enters COAST with A 0. -/
def execCoastTimeout (c : Fin 8) (s : State) : Host.Outcome State Fault Refusal :=
  let x := s.course c
  .next (if x.state = .locked ∧ s.cKind c ≠ 7 ∧ s.overdue c = true then
      (s.setCourse c { x with state := .coast, a := 0, coastAdv := 0 }).courseEvt c 6 else s)

/-- COAST_LIMIT (R185, R187): a coasting course has advanced COAST_LIM. -/
def execCoastLimit (c : Fin 8) (s : State) : Host.Outcome State Fault Refusal :=
  let x := s.course c
  let lim := s.cp c 7 / 256 % 2 ^ 20
  .next (if x.state = .coast ∧ 0 < lim ∧ lim * 2 ^ 20 ≤ x.coastAdv then s.toLost c false else s)

/-- A RESYNC moves a LOST course with RUN 1 to SEARCH (R185). -/
def State.resync (s : State) (c : Nat) : State :=
  let x := s.course c
  if x.state = .lost ∧ x.running = true ∧ s.bit .CRS_CTRL c 15 = true then s.setCourse c { x with state := .search } else s

/-- A write of CRS_CTRL (R188, R200). -/
def State.writeCrsCtrl (s : State) (c : Nat) (v : Word) : State :=
  let s1 := s.setReg .CRS_CTRL c (writtenWord .CRS_CTRL (s.sealed .f) (s.reg .CRS_CTRL c) v)
  if wbit v 14 then s1.resync c else s1

/-- COURSE_RUN_REQUEST (R188): the request; the next tick serves it. -/
def execCourseRunRequest (c : Fin 8) (v : Word) (s : State) : Host.Outcome State Fault Refusal := .next (s.writeCrsCtrl c v)

/-- COURSE_RESYNC (R185). -/
def execCourseResync (c : Fin 8) (s : State) : Host.Outcome State Fault Refusal := .next (s.resync c)

/-! ### gPTP courses (R187, R349) -/

/-- The position of a kind 7 course at gPTP time t. -/
def gptpPos (t cyc : Nat) : W32 := BitVec.ofNat 32 (t / cyc % 4096 * 2 ^ 20 + t % cyc * 2 ^ 20 / cyc)

/-- CYCLE_NS, at least 1. -/
def State.cycleNs (s : State) (c : Nat) : Nat := max 1 (s.cp c 11)

/-- The state the clock gives a running kind 7 course that is not LOST. -/
def State.gptpState (s : State) : CState :=
  if ¬ s.bit .GPTP_CTL 0 15 then .search
  else match s.fld .GPTP_STAT 0 15 14 with
    | 0 => .sync
    | 3 => .coast
    | _ => .locked

/-- A kind 7 course takes its state, and, where it was in SEARCH, its position from the clock. -/
def State.gptpFollow (s : State) (c : Nat) : State :=
  let x := s.course c
  if s.cKind c ≠ 7 ∨ ¬ x.running ∨ x.state = .lost then s
  else
    let st := s.gptpState
    let pos := gptpPos s.gptpNs.toNat (s.cycleNs c)
    let x1 : Course := if x.state = .search ∧ st ≠ .search then { x with vis := pos, p := pos.toNat * 2 ^ 20, holding := false } else x
    if st = x.state then s
    else match st with
      | .locked => (s.setCourse c x1).toLocked c
      | .coast => (s.setCourse c { x1 with state := .coast, coastAdv := 0 }).courseEvt c 6
      | .search => s.setCourse c { x1.frozen with state := .search }
      | _ => s.setCourse c { x1 with state := st }

/-- A step of the clock acts on each moving kind 7 course as a correction (R187). -/
def State.gptpStepCourses (s : State) : State :=
  (upto 8).foldl (fun s c =>
    let x := s.course c
    if s.cKind c = 7 && x.running && x.state ≠ .lost && x.state ≠ .search then
      s.correct c ((gptpPos s.gptpNs.toNat (s.cycleNs c)).toNat * 2 ^ 20) id else s) s

/-- The clock advances by one tick of 1.25 ns at the rate of GPTP_RATE (R349). -/
def State.gptpTick (s : State) : State :=
  if ¬ s.bit .GPTP_CTL 0 15 then s
  else
    let rate := signed 32 (s.pair .GPTP_RATE_LO .GPTP_RATE_HI 0)
    let f := (s.gptpFrac : Int) + 5 * (2 ^ 40 + rate)
    { s with gptpNs := s.gptpNs + BitVec.ofInt 64 (f / 2 ^ 42), gptpFrac := (f % 2 ^ 42).toNat }

/-! ### The F-die tick (R179, R190) -/

/-- RUN takes effect (R188): a start that a relay holds takes effect at the tick after the hold's end. -/
def State.runTick (s : State) (c : Nat) : State :=
  let x := s.course c
  let run := s.bit .CRS_CTRL c 15
  if x.relayHold then s.setCourse c { x with relayHold := false }
  else if run = x.running then s
  else if run then s.setCourse c { x with running := true, state := .search }
  else (s.setCourse c { x with running := false }).toLost c true

/-- The visible position follows the internal one, or holds until the extrapolation has passed it (R181). -/
def Course.show (x : Course) : Course :=
  let v := visOf x.p
  if x.holding && 0 ≤ x.s && distV x.vis v < 0 then x else { x with vis := v, holding := false }

/-- One tick of a course (R179, R187). -/
def State.advance (s : State) (c : Nat) : State :=
  let x := s.course c
  match x.state with
  | .search | .lost => s
  | _ =>
    if s.cKind c = 7 then
      let pos := gptpPos s.gptpNs.toNat (s.cycleNs c)
      let p := pos.toNat * 2 ^ 20
      let sp : Int := (5 * 2 ^ 38 / s.cycleNs c : Nat)
      s.setCourse c { x with p, s := sp, coastAdv := x.coastAdv + (signed 52 (p + 2 ^ 52 - x.p)).natAbs }.show
    else
      s.setCourse c { x with p := wrapP (x.p + x.s), s := clamp32 (x.s + x.a.tdiv (2 ^ 24)), coastAdv := x.coastAdv + x.s.natAbs }.show

/-- The joints of a tick, in index order (R195); one that has fired in it already drops the crossing (R193). -/
def State.jointTick (s : State) (p0 p1 : List W32) : State :=
  (upto 128).foldl (fun (s : State) j =>
    let c := s.jcourse j
    let q1 := p1.getD c 0
    match s.crossing? j (p0.getD c 0) q1 with
    | none => s
    | some k => (if s.jhasFired j then s.jmark .JNT_DROP j else s.jfire j (8 * (s.ticks - 1) + k)).jadvance j q1) s

/-- The position of modulator m's course at slot j of the tick, between its positions before and after (R230). -/
def State.modAt (s : State) (p0 p1 : List W32) (m j : Nat) : Nat :=
  let c := s.fld .MOD_CTRL m 13 11
  unsigned 32 (((p0.getD c 0).toNat : Int) + distV (p0.getD c 0) (p1.getD c 0) * j / 8)

/-- Slot j of the tick: the modulators step, then the cells are driven. -/
def State.modsSlot (s : State) (p0 p1 : List W32) (j : Nat) : State :=
  let s1 := (upto 32).foldl (fun s m => s.modStep m (s.modAt p0 p1 m j) (8 * (s.ticks - 1) + j)) s
  (upto 64).foldl (fun s c => s.driveCell c (8 * (s.ticks - 1) + j)) s1

/-- The eight slots of the running modulators, and the cells they drive (R230 to R237). -/
def State.modsTick (s : State) (p0 p1 : List W32) : State :=
  if (upto 32).all fun m => ¬ s.bit .MOD_STAT m 15 then s
  else (upto 8).foldl (fun s j => s.modsSlot p0 p1 j) ((upto 32).foldl (fun s m => s.modPrep m (s.modAt p0 p1 m 8)) s)

/-- A speed beyond a limit after the extrapolation (R185), once a speed has been measured; a gPTP course always has one. -/
def State.speedTick (s : State) (c : Nat) : State :=
  let x := s.course c
  if (x.state = .sync ∨ x.state = .locked) ∧ (x.lastS.isSome ∨ s.cKind c = 7) ∧ s.overspeed c x.s = true then s.badEdge c false true else s

/-- One 1.25 ns tick of the F-die for the courses (R179, R190, R230, R349): extrapolation, joints, modulators and cells, then
speed limits and the samples that have arrived. -/
def State.courseTick (s : State) : State :=
  let s0 := { s with ticks := s.ticks + 1 }.gptpTick
  let s1 := (upto 8).foldl (fun s c => (s.runTick c).gptpFollow c) s0
  let p0 := (upto 8).map fun c => (s1.course c).vis
  let s2 := (upto 8).foldl (fun s c => s.advance c) s1
  let p1 := (upto 8).map fun c => (s2.course c).vis
  let s3 := (s2.jointTick p0 p1).modsTick p0 p1
  let s4 := (upto 64).foldl (fun s c => s.cellTick c) s3
  ((upto 8).foldl (fun s c => s.speedTick c) s4).takeSamples

/-! ### The dispatch queue (R196, R197) -/

/-- An EVENT or DATA flit waits to be sent on a channel of the Mortar link (R369). Its payload's layout is not given: the
payload is free. Log entry 46. -/
def State.putFlit (s : State) (d : Dir) (ch : Nat) (ty : Nat) : State :=
  let (p, s1) := s.draw
  let f : Flit := { ty := BitVec.ofNat 4 ty, ch := BitVec.ofNat 2 ch, payload := BitVec.ofNat 256 p }
  let put (l : LinkDir) : LinkDir := { l with queues := Tab.upd [] ch (fun q => q ++ [f]) l.queues }
  match d with
  | .fc => { s1 with ml := { s1.ml with fc := put s1.ml.fc } }
  | .cf => { s1 with ml := { s1.ml with cf := put s1.ml.cf } }

/-- An action towards the C-die that is not delivered (R197). -/
def State.jshed (s : State) (j : Nat) : State := (s.count .JNT_XSHED 0).jmark .JNT_DROP j

/-- JOINT_DISPATCH (R194, R196, R197): the action at the head of the queue leaves, one in a tick. -/
def execJointDispatch (s : State) : Host.Outcome State Fault Refusal :=
  .next (if s.dispTick = s.ticks + 1 then s else match s.dispatch with
    | [] => s
    | (j, act, tgt, arg, _) :: rest =>
      let s1 := { s with dispatch := rest, dispTick := s.ticks + 1 }
      match act with
      | 4 => s1.captureStart (wfld tgt 5 0)
      | 5 =>
        if ¬ s.computeReady then s1.jshed j
        else { s1 with crossing := s1.crossing ++ [(wfld tgt 3 0, wfld tgt 15 12 * 65536 + arg.toNat)] }.putFlit .fc 0 5
      | 6 =>
        let k := wfld tgt 3 0
        if k < 8 then (if ¬ s.computeReady then s1.jshed j else (s1.putFlit .fc 0 5).raise k 1)
        else s1.raise k 1
      | _ => s1.modJoint (wfld tgt 4 0))

/-- COURSE_POSITION_SEND (R369): an EVENT flit for every running course. -/
def execCoursePositionSend (s : State) : Host.Outcome State Fault Refusal :=
  .next ((upto 8).foldl (fun s c => if (s.course c).running then s.putFlit .fc 0 5 else s) s)

end Sys2Proof.Machine
end

