-- ==== Sys2Proof/Machine/Reset.lean ====
section
/-! DEFINITION. Supplies, resets, power of the C-die, clocks, RTC, parking and watchdogs (15_startup_and_reset.md), and the
thermal trip (05_kiln.md). -/

namespace Sys2Proof.Machine

open Sys2Proof

/-! ### Cores (R251, R392, R394) -/

/-- A core right after its reset. -/
def freshCore (c : CoreId) : Core :=
  { fence := if c.val < 8 then 11 else 7, dirty := if c.val < 8 then 0xCFFF else 0xC0FF }

/-- The SYS_CRUN bit of a core. -/
def State.crun (s : State) (c : CoreId) : Bool := s.bit .SYS_CRUN 0 c.val

/-- Its die lets the core run: field-ready for HF, compute-ready for HC (R394). -/
def State.dieReady (s : State) (c : CoreId) : Bool :=
  if c.val < 8 then s.bit .SYS_STAT 0 14 else s.bit .SYS_STAT 0 15

/-- The logical core is absent (R379). -/
def State.absentCore (s : State) (c : CoreId) : Bool :=
  if c.val < 8 then s.spr.failed.contains ⟨4, BitVec.ofNat 9 c.val⟩ && s.spr.hcSpare ≠ some c.val
  else s.spr.failed.contains ⟨5, BitVec.ofNat 9 (c.val - 8)⟩ && s.spr.hfSpare ≠ some (c.val - 8)

/-- A released core whose die is ready starts at its reset vector, at level M with translation off (R394); locked entries
loaded while it was held stay (R330). -/
def State.startCore (s : State) (c : CoreId) : State :=
  if s.crun c && s.dieReady c && ¬ s.absentCore c then
    let v := if c.val < 8 then s.pair .SYS_RVEC_C_LO .SYS_RVEC_C_HI 0 else s.pair .SYS_RVEC_F_LO .SYS_RVEC_F_HI 0
    { s.setCore c { freshCore c with pc := BitVec.ofNat 32 v, run := .running, locked := (s.core c).locked } with wdtFrom := Tab.set 0 c.val s.ticks s.wdtFrom }
  else s

/-- The per-core reset (R392): registers, specials, TLB, locked entries, XLAT_CTL, pipeline, instruction cache, loop buffer and
store buffer; its lock shows in FHINT_LOCK no more. The core starts again where SYS_CRUN lets it. -/
def State.coreReset (s : State) (c : CoreId) : State :=
  let s1 := s.setCore c (freshCore c)
  let s2 := if c.val < 8 then s1.setReg .XLAT_CTL c.val RegKind.XLAT_CTL.reset else s1.setReg .FXLAT_CTL (c.val - 8) RegKind.FXLAT_CTL.reset
  let s3 := s2.setReg (lkValid c).1 (lkValid c).2 (lkValid c).1.reset
  let s4 := { (s3.setBit .FHINT_LOCK 0 c.val false).setBit (pipeCtl c).1 (pipeCtl c).2 12 false with wdtFrom := Tab.set 0 c.val s.ticks s.wdtFrom }
  s4.startCore c

/-- Every core of a die that may start does. -/
def State.startCores (s : State) (lo hi : Nat) : State :=
  (upto 12).foldl (fun s i => if lo ≤ i ∧ i < hi then (match coreOf i with
    | some c => s.startCore c
    | none => s) else s) s

/-! ### Field-alone mode and the loss of the C-die (R114, R391) -/

/-- Field-alone mode with its cause (R391): 1 image, 2 software, 3 rail, 4 thermal, 5 link, 6 C-die reset, 7 clock. Cells
act on entry (R240). Log entry 50. -/
def State.enterAlone (s : State) (cause : Nat) : State :=
  let s1 := (s.setFld .SYS_STAT 0 6 4 cause).setBit .SYS_STAT 0 13 true
  if s.bit .SYS_STAT 0 13 then s1 else s1.cellsAlone

/-- Whether an address lies in C-die control space. -/
def inControlC (a : Nat) : Bool := 0x80000000 ≤ a && a < 0x8000F000

/-- A receiver of TLBI requests on the F-die. -/
def receiverF : Receiver → Bool
  | .core c => 8 ≤ c.val
  | .stream => false

/-- The cores of the C-die are fresh, those of the F-die keep their state. -/
def State.hcFresh (s : State) : Vector Core 12 := Vector.ofFn fun c : Fin 12 => if c.val < 8 then freshCore c else s.core c

/-- What the C-die held is lost, the bricks apart (R392): its registers, cores, queues, translators, templates, switch and
tiles. The F-die keeps all of its own, the ticket epoch among it (R114), and the counters of ports 4 to 21 and 23; a migration
is abandoned (R381). -/
def State.cGone (s : State) : State :=
  { s with
    regs := s.regs.filter fun e => ¬ inControlC e.1
    captures := s.captures.filter fun e => ¬ inControlC e.1
    staging := s.staging.filter fun e => ¬ inControlC e.1
    mem := { s.mem with ctile := [], eccC := [] }
    tiles := s.tiles.filter fun e => 256 ≤ e.1
    ccnt := s.ccnt.filter fun e => 1024 ≤ e.1
    cores := s.hcFresh
    templates := [], zones := s.zones.filter fun e => e.1 = 5
    streamTlb := [], asidCache := [], lockC := none, crossing := []
    tlbis := (((s.tlbis.filter fun (t : TlbiReq) => 8 ≤ t.issuer).map fun (t : TlbiReq) =>
      { t with toReceive := t.toReceive.filter receiverF, toAck := t.toAck.filter receiverF }).filter fun t =>
        !(t.toReceive.isEmpty && t.toAck.isEmpty))
    net := { sent := s.net.sent, canSent := s.net.canSent, canRec := s.net.canRec, canAcks := s.net.canAcks
             rxHeld := s.net.rxHeld, plca := s.net.plca
             counters := s.net.counters.filter fun e => (128 ≤ e.1 && e.1 < 704) || (736 ≤ e.1 && e.1 < 768) }
    ml := { failed := s.ml.failed, retrainAt := s.ml.retrainAt }
    spr := { s.spr with mig := none, queue := [] }
    pw := { s.pw with cClock := false, cBist := false, cReset := true, fromShadow := s.lay.haveShadow } }

/-- The state of the C-die is lost (R392), its bricks with it; an HF core whose TLBSYNC waited for the C-die goes on (R1);
MT ports are held OFF (R360). -/
def State.cLost (s : State) : State :=
  let s2 := s.loseBricks.cGone.wakeAll
  let s3 := (s2.setReg .FHINT_LOCK 0 (s2.reg .FHINT_LOCK 0 &&& 0x0F00)).setFld .ML_STAT 0 15 12 0
  let s4 := ((s3.setBit .BIMG_STATUS 0 13 false).setBit .BIMG_STATUS 0 9 true).setFld .BIMG_STATUS 0 3 0 4
  ((upto 4).foldl (fun s m => s.setReg .MT_STAT m 0) s4).setBit .SYS_STAT 0 14 false

/-- Compute-ready ends (R391): field-alone mode, if it had been reached. The C-die may start again at once. -/
def State.endCompute (s : State) (cause : Nat) : State :=
  let s1 := s.cLost
  if s.pw.computeSeen then s1.enterAlone cause else s1

/-! ### The rail sequencer (R386) -/

/-- Enables raised: CEN[0] to CEN[n − 1]. -/
def State.railsRaised (s : State) : Nat := ((upto 4).filter fun k => s.bit .SYS_RAIL 0 (4 + k)).length

/-- SEAL.C_RELAYOUT_EN of the running image. -/
def State.relayoutEn (s : State) : Bool := s.param 1430 = 1

/-- The C-die may be powered now (R32, R172, R375, R386, R391, R392). -/
def State.cWanted (s : State) : Bool :=
  s.bit .SYS_RAIL 0 15 && s.pw.good && ¬ s.pw.parked && ¬ s.pw.parking && ¬ s.pw.hold && ¬ s.pw.coolWait && ¬ s.pw.lossWait &&
  ¬ s.bit .FKILN_STAT 0 13 && ¬ s.bit .ML_STAT 0 3 && ¬ s.bit .SYS_STAT 0 12 && s.bit .BIMG_STATUS 0 12 && (s.param 7).testBit 1

/-- Begin to raise the rails (step 5), with CEN[0]. -/
def State.raiseRails (s : State) : State :=
  let s1 := ((s.setBit .SYS_RAIL 0 4 true).setBit .SYS_RAIL 0 13 true).setFld .SYS_STAT 0 3 0 5
  { s1 with pw := { s1.pw with seq := .raising } }

/-- Raise the rails if they are down, at rest, and the C-die may be powered. -/
def State.tryRaise (s : State) : State :=
  if s.pw.seq = .idle ∧ s.railsRaised = 0 ∧ s.cWanted = true then s.raiseRails else s

/-- One rail fewer, in reverse order; after the last the sequencer rests, a link in DOWN is OFF, and a recorded request
is served (R173). -/
def State.railOff (s : State) : State :=
  let n := s.railsRaised
  let s1 := if 0 < n then s.setBit .SYS_RAIL 0 (3 + n) false else s
  if n ≤ 1 then
    (({ s1 with pw := { s1.pw with seq := .idle } }.setBit .SYS_RAIL 0 13 false).setFld .ML_STAT 0 15 12 0).tryRaise
  else s1

/-- The F-die removes the rails: the C-die is lost, its near memories lose their contents (R437). -/
def State.removeRails (s : State) : State :=
  let s1 := { s with mem := { s.mem with hcNear := [], eccHc := [] }, pw := { s.pw with seq := .removing, cReset := true, hold := s.pw.hold || (s.lay.haveShadow && ¬ s.relayoutEn) } }
  ((s1.setBit .SYS_RAIL 0 14 false).setBit .SYS_RAIL 0 13 true).railOff

/-- The C-die loses its power for a cause of R391: field-alone mode also where start-up stops before step 9. -/
def State.dropC (s : State) (cause : Nat) : State :=
  if s.railsRaised = 0 ∨ s.pw.seq = .removing then s
  else
    let s1 := s.endCompute cause
    (if ¬ s.pw.computeSeen ∧ s.bit .SYS_STAT 0 15 = true then s1.enterAlone cause else s1).removeRails

/-- T_CRIT of a zone as the next C-die phase will lay it out (R32, R175). -/
def State.critOf (s : State) (z : Nat) : Int :=
  match s.lay.shadow.find? fun x => x.ty = 8 with
  | some x => signed 16 (leAt x.payload (56 * z + 32) 4)
  | none => s.kt z 8

/-- A sensor of the C-die reads above its zone's T_CRIT (R172). -/
def State.tooHot (s : State) (temps : List (Option Word)) : Bool :=
  (upto 20).any fun i => match readingAt temps (i / 4) (i % 4) with
    | some t => s.critOf (i / 4) < t
    | none => false

/-- The last rail is up (R386, R389): the near memories hold zeros (R437), the C-die reset is released (step 6); unless the
request has changed, or after a trip the die is still too hot (R172). -/
def State.railsUp (s : State) (temps : List (Option Word)) : State :=
  let s1 := { s with mem := { s.mem with hcNear := [], eccHc := [] }, pw := { s.pw with seq := .idle } }
  let s2 := (s1.setBit .SYS_RAIL 0 14 true).setBit .SYS_RAIL 0 13 false
  if ¬ s2.cWanted ∧ ¬ s2.pw.netRaised then s2.dropC 2
  else if s2.bit .FKILN_STAT 0 15 ∧ s2.tooHot temps then
    (({ s2 with pw := { s2.pw with coolWait := true } }).setBit .FKILN_STAT 0 14 true).dropC 4
  else
    let s3 := (s2.setBit .FKILN_STAT 0 15 false).setFld .SYS_STAT 0 3 0 6
    { s3 with pw := { s3.pw with cReset := false } }

/-- CPG_RISE (R386). -/
def execCpgRise (rail : Fin 4) (temps : List (Option Word)) (s : State) : Host.Outcome State Fault Refusal :=
  let s1 := s.setBit .SYS_RAIL 0 (8 + rail) true
  .next (if s.pw.seq = .raising ∧ s.railsRaised = rail + 1 then
      (if rail.val < 3 then s1.setBit .SYS_RAIL 0 (5 + rail) true else s1.railsUp temps)
    else s1)

/-- CPG_FALL (R386): during removal the next rail follows at once. -/
def execCpgFall (rail : Fin 4) (s : State) : Host.Outcome State Fault Refusal :=
  let s1 := s.setBit .SYS_RAIL 0 (8 + rail) false
  .next (if s.pw.seq = .removing ∧ s.railsRaised = rail.val then s1.railOff else s1)

/-- RAIL_OFF_STEP (R386). -/
def execRailOffStep (s : State) : Host.Outcome State Fault Refusal :=
  .next (if s.pw.seq = .removing then s.railOff else s)

/-- RAIL_FAULT_TIMEOUT (R386). -/
def execRailFaultTimeout (s : State) : Host.Outcome State Fault Refusal :=
  .next (if s.pw.seq ≠ .raising then s
    else
      let s1 := { s with pw := { s.pw with hold := true } }.setBit .SYS_STAT 0 11 true
      (s1.cLost.enterAlone 3).removeRails)

/-- A write of SYS_RAIL (R391, R173). -/
def State.writeRail (s : State) (v : Word) : State :=
  let s1 := s.setReg .SYS_RAIL 0 (writtenWord .SYS_RAIL (s.sealed .f) (s.reg .SYS_RAIL 0) v)
  if wbit v 15 then s1.tryRaise
  else if s.pw.seq = .idle then s1.dropC 2 else s1

/-- RAIL_REQUEST (R391). -/
def execRailRequest (v : Word) (s : State) : Host.Outcome State Fault Refusal := .next (s.writeRail v)

/-- C_DIE_CLOCK_LOCK (R389, R373): step 6 ends and the Mortar link leaves OFF. -/
def execCDieClockLock (s : State) : Host.Outcome State Fault Refusal :=
  .next (if s.fld .SYS_STAT 0 3 0 = 6 ∧ ¬ s.pw.cReset ∧ ¬ s.pw.cClock then
      ({ s with pw := { s.pw with cClock := true } }.setFld .SYS_STAT 0 3 0 7).setFld .ML_STAT 0 15 12 1
    else s)

/-! ### Trips (R171, R172) -/

/-- A trip: counted, the C-die removed, the cooling wait begun or, at TRIP_MAX, the C-die locked out. -/
def State.trip (s : State) (z k : Nat) : State :=
  let key := 4 * z + k
  if Tab.get false s.tripped key ∨ (z < 5 ∧ ¬ s.bit .SYS_RAIL 0 14) then s
  else
    let n := min 255 (s.fld .FKILN_STAT 0 7 0 + 1)
    let s1 := ({ s with tripped := Tab.set false key true s.tripped }.setFld .FKILN_STAT 0 7 0 n).raise 8 5
    let max := s.fld .FKILN_CTRL 0 3 0
    let s2 := if max ≠ 0 ∧ max ≤ n then s1.setBit .FKILN_STAT 0 13 true else s1
    if s.railsRaised = 0 ∨ s.pw.seq = .removing then s2
    else
      let s3 := (s2.setBit .FKILN_STAT 0 15 true).setBit .FKILN_STAT 0 14 true
      { s3 with pw := { s3.pw with coolWait := true } }.dropC 4

/-- THERMAL_TRIP (R171). -/
def execThermalTrip (z : Fin 6) (k : Fin 4) (s : State) : Host.Outcome State Fault Refusal := .next (s.trip z k)

/-- TRIP_REARM (R171). -/
def execTripRearm (z : Fin 6) (k : Fin 4) (s : State) : Host.Outcome State Fault Refusal :=
  .next { s with tripped := Tab.set false (4 * z + k) false s.tripped }

/-- COOL_WAIT_EXPIRY (R172). -/
def execCoolWaitExpiry (s : State) : Host.Outcome State Fault Refusal :=
  .next (if s.pw.coolWait then
      ({ s with pw := { s.pw with coolWait := false } }.setBit .FKILN_STAT 0 14 false).tryRaise
    else s)

/-! ### Resets (R392, R393, R437) -/

/-- The nesting of the scopes (R393). -/
def ResetKind.rank : ResetKind → Nat
  | .powerOn => 4
  | .warm => 3
  | .field => 2
  | .cDie => 1
  | .perCore => 0

/-- The registers of the always-on domain (R392, R46). -/
def alwaysOn : List Nat :=
  [RegKind.SYS_RST_CAUSE.addr 0, RegKind.SYS_PARK.addr 0, RegKind.SYS_WAKE_CFG.addr 0, RegKind.SYS_WAKE_SRC.addr 0,
   RegKind.SYS_KEYON.addr 0, RegKind.RTC_CTL.addr 0, RegKind.RTC_SUB.addr 0, RegKind.RTC_SEC_LO.addr 0,
   RegKind.RTC_SEC_HI.addr 0, RegKind.RTC_ALM_LO.addr 0, RegKind.RTC_ALM_HI.addr 0, RegKind.BIMG_BOOTSEL.addr 0]

/-- What no reset touches: the key store, the flash, one-time memory, the bank voltages; and the model's own queue, answer
and counters. -/
def State.wiped (s : State) : State :=
  { State.reset with
    pending := s.pending, resp := s.resp, fresh := s.fresh, ticks := s.ticks, ks := s.ks
    mem := { flash := s.mem.flash }
    vio := s.vio, gptpLast := s.ticks
    spr := { record := s.spr.record, toAdd := s.spr.toAdd }
    dbg := { nonces := s.dbg.nonces }
    pw := { good := s.pw.good, bootCoreBad := s.pw.bootCoreBad } }

/-- A warm or field reset, or a wake (R392). `kind` decides what a field reset keeps; `near` whether the HF near memories
keep their contents (R437). A reference lost before returns or not, freely (R398; log entry 49). -/
def State.warmReset (s : State) (kind : ResetKind) (near : Bool) : State :=
  let w := s.wiped
  let field : Bool := kind = .field
  let s1 := { w with
    regs := s.regs.filter fun e => alwaysOn.contains e.1
    mem := { w.mem with hfNear := if near then s.mem.hfNear else [], eccHf := if near then s.mem.eccHf else [] }
    lay := { w.lay with sealedC := s.lay.sealedC, sealedF := s.lay.sealedF }
    pw := { w.pw with resetting := some kind, coolWait := field && s.pw.coolWait }
    tripped := s.tripped }
  let s2 := (s1.setBit .SYS_CLK 0 15 (s.bit .SYS_CLK 0 15)).setFld .SYS_STAT 0 3 0 2
  let s3 := if field then
      (s2.setReg .FKILN_STAT 0 (s.reg .FKILN_STAT 0)).setReg .ML_STAT 0 (s.reg .ML_STAT 0 &&& 0x00F8)
    else s2
  if s.bit .SYS_STAT 0 12 then
    let (back, s4) := s3.drawBit
    if back then s4 else ((s4.setBit .SYS_STAT 0 12 true).setBit .SYS_CLK 0 14 true).setBit .SYS_CLK 0 13 true
  else s3

/-- A cause is recorded in SYS_RST_CAUSE. -/
def State.cause (s : State) (b : Nat) : State := s.setBit .SYS_RST_CAUSE 0 b true

/-- A reset request during a reset in progress acts only if its scope contains that reset's (R393). -/
def State.request (s : State) (k : ResetKind) (f : State → State) : State :=
  match s.pw.resetting with
  | some r => if r.rank ≤ k.rank then f s else s
  | none => f s

/-- A warm or field reset request. While parked it is only recorded. Log entry 48. -/
def State.warmRequest (s : State) (k : ResetKind) (near : Bool) : State :=
  if s.pw.parked then s else s.request k fun s => s.warmReset k near

/-- A C-die reset (R392, R32): restart at step 6, or removal of the rails where C_RELAYOUT_EN is 0. -/
def State.cDieReset (s : State) : State :=
  s.request .cDie fun s =>
    if ¬ s.bit .SYS_RAIL 0 14 then s
    else if s.relayoutEn then
      let s1 := (s.endCompute 6).setFld .SYS_STAT 0 3 0 6
      { s1 with pw := { s1.pw with cReset := false } }
    else { s with pw := { s.pw with hold := true } }.dropC 6

/-- POWER_ON_RESET (R392, R397). -/
def execPowerOnReset (clksel : Bool) (s : State) : Host.Outcome State Fault Refusal :=
  .next ({ s.wiped with pw := {} }.setBit .SYS_CLK 0 15 clksel)

/-- POWER_GOOD (R389). -/
def execPowerGood (s : State) : Host.Outcome State Fault Refusal :=
  .next (if s.pw.parked then s
    else
      let s1 := { s with pw := { s.pw with good := true } }
      if s.fld .SYS_STAT 0 3 0 = 1 then s1.setFld .SYS_STAT 0 3 0 2 else s1)

/-- BROWN_OUT (R389, R437): a warm reset that waits for power-good again and clears the HF near memories. -/
def execBrownOut (s : State) : Host.Outcome State Fault Refusal :=
  .next (if ¬ s.pw.good then s
    else (({ s with pw := { s.pw with good := false } }).cause 12).warmRequest .warm false)

/-- RST_N_ASSERT (R392). -/
def execRstNAssert (s : State) : Host.Outcome State Fault Refusal := .next ((s.cause 14).warmRequest .warm true)

/-- A write of SYS_RST_CMD (R406). -/
def State.writeRstCmd (s : State) (v : Word) : State :=
  if wfld v 15 8 ≠ 0xC3 then s
  else match wfld v 1 0 with
    | 1 => (s.cause 13).warmRequest .warm true
    | 2 => (s.cause 11).warmRequest .field true
    | 3 => (s.cause 10).cDieReset
    | _ => s

/-- SYS_RST_CMD_WARM. -/
def execSysRstCmdWarm (s : State) : Host.Outcome State Fault Refusal := .next (s.writeRstCmd 0xC301)
/-- SYS_RST_CMD_FIELD. -/
def execSysRstCmdField (s : State) : Host.Outcome State Fault Refusal := .next (s.writeRstCmd 0xC302)
/-- SYS_RST_CMD_C_DIE. -/
def execSysRstCmdCDie (s : State) : Host.Outcome State Fault Refusal := .next (s.writeRstCmd 0xC303)

/-- The die of a core is in reset, so that a reset of the core is absorbed (R393). -/
def State.coreDieReset (s : State) (c : CoreId) : Bool := s.pw.resetting.isSome || (c.val < 8 && s.pw.cReset)

/-- A per-core reset request. -/
def State.coreRequest (s : State) (c : CoreId) : State := if s.coreDieReset c then s else s.coreReset c

/-- A write of FHINT_CRST (R306, R309). -/
def State.writeCrst (s : State) (v : Word) : State :=
  (upto 12).foldl (fun s i => match coreOf i with
    | some c => if wbit v i then s.coreRequest c else s
    | none => s) s

/-- CORE_RESET_REQUEST (R306). -/
def execCoreResetRequest (v : Word) (s : State) : Host.Outcome State Fault Refusal := .next (s.writeCrst v)

/-- A write of SYS_CRUN (R394): a set bit releases its core, a cleared one resets it and holds it in reset. -/
def State.writeCrun (s : State) (v : Word) : State :=
  let old := s.reg .SYS_CRUN 0
  let s1 := s.setReg .SYS_CRUN 0 (writtenWord .SYS_CRUN (s.sealed .f) old v)
  (upto 12).foldl (fun s i => match coreOf i with
    | some c =>
      if wbit v i && ¬ wbit old i then s.startCore c
      else if wbit old i && ¬ wbit v i then s.coreRequest c
      else s
    | none => s) s1

/-- SYS_CRUN_WRITE (R394). -/
def execSysCrunWrite (v : Word) (s : State) : Host.Outcome State Fault Refusal := .next (s.writeCrun v)

/-! ### Watchdogs (R395) -/

/-- WATCHDOG_EXPIRY (R395): the count, which runs only out of reset and not halted by debug, reaches PERIOD ms of 800,000
ticks each. -/
def execWatchdogExpiry (c : CoreId) (s : State) : Host.Outcome State Fault Refusal :=
  let cfg := s.reg .SYS_WDT_CFG c.val
  .next (if wfld cfg 11 0 = 0 ∨ (s.core c).run = .held ∨ (s.core c).run = .halted ∨
        s.ticks < Tab.get 0 s.wdtFrom c.val + 800000 * wfld cfg 11 0 then s
    else
      let s1 := (s.cause 9).setFld .SYS_RST_CAUSE 0 7 4 c.val
      match wfld cfg 15 14 with
      | 0 => s1.coreRequest c
      | 1 => if c.val < 8 then s1.cDieReset else s1.warmRequest .field true
      | 2 => s1.warmRequest .field true
      | _ => s1.warmRequest .warm true)

/-- A write of SYS_WDT_CFG: a watchdog counts from the moment its PERIOD is not 0 (R395). -/
def State.writeWdt (s : State) (c : Nat) (v : Word) : State :=
  let w := writtenWord .SYS_WDT_CFG (s.sealed .f) (s.reg .SYS_WDT_CFG c) v
  let s1 := s.setReg .SYS_WDT_CFG c w
  if wfld (s.reg .SYS_WDT_CFG c) 11 0 ≠ 0 ∨ wfld w 11 0 = 0 then s1
  else
    let halted : Bool := match coreOf c with
      | some k => (s.core k).run = .halted
      | none => false
    { s1 with wdtFrom := Tab.set 0 c (if halted then 0 else s.ticks) s1.wdtFrom }

/-- A kick restarts the watchdog of the core that writes it; a halted core writes none. -/
def State.kick (s : State) (c : CoreId) (v : Word) : State :=
  if v = 0x5AA5 ∧ (s.core c).run ≠ .halted then { s with wdtFrom := Tab.set 0 c.val s.ticks s.wdtFrom } else s

/-- WATCHDOG_KICK (R395). -/
def execWatchdogKick (c : CoreId) (v : Word) (s : State) : Host.Outcome State Fault Refusal := .next (s.kick c v)

/-! ### Clocks and the RTC (R398, R399) -/

/-- CLOCK_FAILURE (R398). -/
def execClockFailure (s : State) : Host.Outcome State Fault Refusal :=
  .next ((((s.setBit .SYS_STAT 0 12 true).setBit .SYS_CLK 0 14 true).setBit .SYS_CLK 0 13 true).dropC 7)

/-- A wake (R401): FEN rises and start-up runs as after a warm reset, the HF near memories having lost their contents. -/
def State.wake (s : State) (src : Nat) : State :=
  let s1 := (s.cause 8).setReg .SYS_WAKE_SRC 0 (BitVec.ofNat 16 (2 ^ src))
  let s2 := { s1 with pw := { s1.pw with parked := false, good := false } }.warmReset .warm false
  { s2 with pw := { s2.pw with fen := true } }

/-- A wake source is active: it wakes a parked device, and is latched during park entry (R400). -/
def State.wakeSource (s : State) (src : Nat) : State :=
  if s.pw.parked then s.wake src
  else if s.pw.parking ∧ s.pw.wakeLatched = none then { s with pw := { s.pw with wakeLatched := some src } }
  else s

/-- RTC_SECOND (R399): the count moves while the oscillator runs, and the alarm may match. -/
def execRtcSecond (s : State) : Host.Outcome State Fault Refusal :=
  .next (if ¬ s.bit .RTC_CTL 0 14 then s
    else
      let n := (s.pair .RTC_SEC_LO .RTC_SEC_HI 0 + 1) % 2 ^ 32
      let s1 := s.setPair .RTC_SEC_LO .RTC_SEC_HI 0 n
      if s.bit .RTC_CTL 0 15 ∧ n = s.pair .RTC_ALM_LO .RTC_ALM_HI 0 then s1.wakeSource 8 else s1)

/-- A read of RTC_SUB captures both halves of RTC_SEC (R399). The value within the second is free (log entry 51). -/
def State.readRtcSub (s : State) : Word × State :=
  let (v, s1) := s.drawWord
  let put (k : RegKind) (s : State) : State := { s with captures := Tab.set none (k.addr 0) (some (s.reg k 0)) s.captures }
  (v &&& 0x7FFF, put .RTC_SEC_HI (put .RTC_SEC_LO s1))

/-- RTC_OSC_FAIL (R399). -/
def execRtcOscFail (s : State) : Host.Outcome State Fault Refusal :=
  .next ((s.setBit .RTC_CTL 0 14 false).setBit .RTC_CTL 0 13 true)

/-- RTC_OSC_RESTART (R399). -/
def execRtcOscRestart (s : State) : Host.Outcome State Fault Refusal := .next (s.setBit .RTC_CTL 0 14 true)

/-! ### Parking (R400, R401) -/

/-- A write of SYS_PARK. -/
def State.writePark (s : State) (v : Word) : State :=
  if v ≠ 0x9A6E ∨ s.pw.parking = true then s
  else
    let s1 := { s with pw := { s.pw with parking := true } }.dropC 2
    (upto 64).foldl (fun s c => s.setCell c {}) s1

/-- PARK (R400). -/
def execPark (v : Word) (s : State) : Host.Outcome State Fault Refusal := .next (s.writePark v)

/-- PARK_COMPLETE (R400): FEN is low, only the always-on domain runs and keeps its state, as through a warm reset without the
near memories; a wake latched meanwhile follows. -/
def execParkComplete (s : State) : Host.Outcome State Fault Refusal :=
  .next (if ¬ s.pw.parking then s
    else
      let s1 := s.warmReset .warm false
      let s2 := { s1 with pw := { s1.pw with parked := true, fen := false, good := false } }
      match s.pw.wakeLatched with
      | some src => s2.wake src
      | none => s2)

/-- WAKE_PIN (R401). -/
def execWakePin (pin : Fin 8) (level : Bool) (s : State) : Host.Outcome State Fault Refusal :=
  .next (if s.bit .SYS_WAKE_CFG 0 (8 + pin) ∧ s.bit .SYS_WAKE_CFG 0 pin = level then s.wakeSource pin else s)

end Sys2Proof.Machine
end

