-- ==== Sys2Proof/Machine/Mortar.lean ====
section
/-! DEFINITION. The Mortar link, wear, migration and the repair record (14_mortar_and_spares.md). -/

namespace Sys2Proof.Machine

open Sys2Proof

/-! ### Flits (R367 to R371) -/

/-- One direction of the link. -/
def State.link (s : State) : Dir → LinkDir
  | .fc => s.ml.fc
  | .cf => s.ml.cf

/-- The state with it replaced. -/
def State.setLink (s : State) (d : Dir) (l : LinkDir) : State :=
  match d with
  | .fc => { s with ml := { s.ml with fc := l } }
  | .cf => { s with ml := { s.ml with cf := l } }

/-- One step of the flit CRC (R368): polynomial 0x1021, not reflected. -/
def crcBit (c : Nat) (b : Bool) : Nat :=
  let x := if (c.testBit 15) ^^ b then (c * 2 % 65536) ^^^ 0x1021 else c * 2 % 65536
  x

/-- CRC over bits [271:0], in the order sent (log entry 54). -/
def flitCrc (v : BitVec 272) : Nat := (upto 272).foldl (fun c i => crcBit c (v.getLsbD i)) 0xFFFF

/-- The 288 bits of a flit (R368). -/
def Flit.encode (f : Flit) : BitVec 288 :=
  let body := f.payload.toNat + f.ty.toNat * 2 ^ 256 + f.ch.toNat * 2 ^ 260 + f.seq.toNat * 2 ^ 264
  BitVec.ofNat 288 (body + flitCrc (BitVec.ofNat 272 body) * 2 ^ 272)

/-- The fields of a received flit, or none where the CRC fails; other TYPE values are treated as a CRC failure. -/
def Flit.decode (raw : BitVec 288) : Option Flit :=
  let f : Flit := { payload := raw.setWidth 256, ty := (raw >>> 256).setWidth 4, ch := (raw >>> 260).setWidth 2, seq := (raw >>> 264).setWidth 8 }
  if flitCrc (raw.setWidth 272) = (raw >>> 272).toNat ∧ f.ty.toNat ≤ 6 then some f else none

/-- A channel has a flit and a credit (R369). -/
def LinkDir.ready (l : LinkDir) (ch : Nat) : Bool := ¬ (Tab.get [] l.queues ch).isEmpty && 0 < Tab.get 32 l.credits ch

/-- The channel that sends next: 2 and 3, while they wait, at least one slot in eight; otherwise the lowest-numbered. -/
def LinkDir.pick (l : LinkDir) : Option Nat :=
  if 128 ≤ l.replay.length then none
  else if l.ready 2 && 7 ≤ l.starve2 then some 2
  else if l.ready 3 && 7 ≤ l.starve3 then some 3
  else (upto 4).find? fun c => l.ready c

/-- The slot after one in which channel `ch`, if any, was sent. -/
def LinkDir.slot (l : LinkDir) (ch : Option Nat) : LinkDir :=
  let st (c n : Nat) : Nat := if ch = some c ∨ (Tab.get [] l.queues c).isEmpty then 0 else n + 1
  { l with slots := l.slots + 1, starve2 := st 2 l.starve2, starve3 := st 3 l.starve3 }

/-- A new flit of a channel is sent: numbered, kept for replay, its credit used. -/
def LinkDir.sendNew (l : LinkDir) (ch : Nat) : LinkDir :=
  match Tab.get [] l.queues ch with
  | [] => l
  | f :: rest =>
    let g := { f with seq := l.nextSeq }
    { l with queues := Tab.set [] ch rest l.queues, credits := Tab.upd 32 ch (· - 1) l.credits, replay := l.replay ++ [g]
             nextSeq := l.nextSeq + 1, wire := some g.encode }

/-- The slot is one of the CHECK flits, every 4,096th (R371). -/
def LinkDir.checkSlot (l : LinkDir) : Bool := l.slots % 4096 = 4095

/-- The other direction. -/
def otherDir : Dir → Dir
  | .fc => .cf
  | .cf => .fc

/-- Flits move in a direction: the link is UP, or a lane shift is in progress in the other direction only (R374). -/
def State.moves (s : State) (d : Dir) : Bool :=
  s.linkUp || (s.fld .ML_STAT 0 15 12 = 7 && !s.bit .ML_MAP (match d with
    | .fc => 0
    | .cf => 1) 15)

/-- The payload of a LINK flit about a direction: the last good sequence number, whether a failure is reported, and for each
channel how many flits have left the receive buffer, modulo 256. The layout is the model's (log entry 54). -/
def LinkDir.linkPayload (r : LinkDir) : BitVec 256 :=
  BitVec.ofNat 256 ((r.expect - 1).toNat + b2n r.report * 2 ^ 8 +
    (upto 4).foldl (fun a c => a + (Tab.get 0 r.given c).toNat * 2 ^ (16 + 8 * c)) 0)

/-- The LINK flit that this end owes is sent. -/
def State.sendLink (s : State) (d : Dir) : State :=
  let r := s.link (otherDir d)
  let s1 := s.setLink (otherDir d) { r with report := false, owed := false }
  s1.setLink d ({ s1.link d with wire := some (Flit.encode { ty := 2, ch := 0, payload := r.linkPayload }) }.slot none)

/-- FLIT_SEND (R369, R371): a failure to report first, then a flit to be replayed, then a new one, then a LINK flit where an
acknowledgement or a credit is owed, else IDLE. -/
def execFlitSend (d : Dir) (s : State) : Host.Outcome State Fault Refusal :=
  let l := s.link d
  let r := s.link (otherDir d)
  .next (if ¬ s.moves d ∨ l.checkSlot then s
    else if r.report then s.sendLink d
    else match l.resend with
      | f :: rest => s.setLink d ({ l with resend := rest, wire := some f.encode }.slot none)
      | [] => match l.pick with
        | some ch => s.setLink d ((l.sendNew ch).slot (some ch))
        | none =>
          if r.owed then s.sendLink d
          else s.setLink d ({ l with wire := some (Flit.encode { ty := 0, ch := 0, payload := 0 }) }.slot none))

/-- CHECK_FLIT_SEND (R371). The PRBS31 pattern depends on the sender's state, which the manual does not give: free. -/
def execCheckFlitSend (d : Dir) (s : State) : Host.Outcome State Fault Refusal :=
  let l := s.link d
  .next (if s.moves d ∧ l.checkSlot then
      let (n, s1) := s.draw
      s1.setLink d ({ l with wire := some (Flit.encode { ty := 1, ch := 0, payload := BitVec.ofNat 256 n }) }.slot none)
    else s)

/-- Source 9 on the core of ML_CTRL, where bit b is enabled (R383). -/
def State.mlInt (s : State) (b : Nat) : State := s.raiseStat .ML_INT_STAT .ML_INT_EN b (s.fld .ML_CTRL 0 3 0) 9

/-- The link goes DOWN (R375): compute-ready ends, the rails are removed, the loss is counted and the loss wait begins. -/
def State.linkDown (s : State) : State :=
  let n := min 15 (s.fld .ML_STAT 0 7 4 + 1)
  let m := s.fld .ML_CTRL 0 11 8
  let s1 := (s.setFld .ML_STAT 0 7 4 n).mlInt 3
  let s2 := if m ≠ 0 ∧ m ≤ n then s1.setBit .ML_STAT 0 3 true else s1
  let s3 := ({ s2.cLost with pw := { s2.cLost.pw with lossWait := true } }).enterAlone 5
  (s3.setFld .ML_STAT 0 15 12 9).removeRails

/-- A retrain begins; the third within 1 s, 800,000,000 ticks, takes the link to DOWN (R373). A flit's replays count anew. -/
def State.retrain (s : State) : State :=
  let l := s.ticks :: s.ml.retrainAt.filter fun t => s.ticks < t + 800000000
  let ml := { s.ml with retrainAt := l, fc := { s.ml.fc with replays := 0 }, cf := { s.ml.cf with replays := 0 } }
  let s1 := (({ s with ml := ml }.count .ML_RETRAIN 0).mlInt 2).setFld .ML_STAT 0 15 12 8
  if 3 ≤ l.length then s1.linkDown else s1

/-- Counts of errors of each lane in a CHECK flit (R371). -/
def State.laneErrors (s : State) (d : Dir) (errs : List Nat) : State :=
  let base := match d with
    | .fc => 0
    | .cf => 18
  let t := (upto 18).foldl (fun t k => if errs.getD k 0 = 0 then t else Tab.upd 0 (base + k) (· + errs.getD k 0) t) s.ml.laneErr
  { s with ml := { s.ml with laneErr := t } }.count .ML_LERR 0 ((errs.take 18).foldl (· + ·) 0)

/-- A CRC failure (R371): counted, and to be reported in a LINK flit; later flits are discarded meanwhile. -/
def State.crcFail (s : State) (d : Dir) : State :=
  { s with ml := { s.ml with crcWindow := s.ml.crcWindow + 1 } }.count .ML_CRCERR 0
    |>.setLink d { s.link d with discarding := true, report := true }

/-- The flits that a sender keeps once the flit numbered q and those before it are known to be good: none of them where q is
not among the kept ones, for then nothing new is acknowledged. -/
def unacked (q : Byte) (l : List Flit) : List Flit :=
  if l.any fun g => g.seq = q then (l.dropWhile fun g => g.seq ≠ q).drop 1 else l

/-- The sender of a direction learns what a LINK flit says: the acknowledged flits leave its replay buffer, credits return,
and a reported failure makes it replay the rest (R369, R371). -/
def LinkDir.learns (l : LinkDir) (p : BitVec 256) : LinkDir :=
  let q : Byte := p.setWidth 8
  let kept := unacked q l.replay
  let given (c : Nat) : Byte := (p >>> (16 + 8 * c)).setWidth 8
  let acked := kept.length ≠ l.replay.length
  let n := if acked then 0 else l.replays
  { l with
    replay := kept
    resend := if p.getLsbD 8 then kept else unacked q l.resend
    replays := if p.getLsbD 8 && !kept.isEmpty then n + 1 else n
    credits := (upto 4).foldl (fun t c => Tab.upd 32 c (fun k => min 32 (k + (given c - Tab.get 0 l.known c).toNat)) t) l.credits
    known := (upto 4).foldl (fun t c => Tab.set 0 c (given c) t) l.known }

/-- A LINK flit is received in a direction: it speaks of the other one. A failure that it reports may have cost this end's
own LINK flit, which it therefore owes again (log entry 54); a replay is counted, and one flit replayed 8 times starts a
retrain (R373). -/
def State.linkFlit (s : State) (d : Dir) (p : BitVec 256) : State :=
  let l := (s.link (otherDir d)).learns p
  let s1 := s.setLink (otherDir d) l
  if ¬ p.getLsbD 8 then s1
  else
    let r := s1.link d
    let s2 := s1.setLink d { r with owed := true, report := r.discarding }
    if l.resend.isEmpty then s2
    else
      let s3 := s2.count .ML_REPLAY 0
      if 8 ≤ l.replays then s3.retrain else s3

/-- A flit in sequence is delivered; its place in the receive buffer is free again, and both are to be returned. -/
def LinkDir.accept (l : LinkDir) (f : Flit) : LinkDir :=
  { l with expect := l.expect + 1, discarding := false, owed := true
           given := Tab.upd 0 f.ch.toNat (· + 1) l.given, delivered := f :: l.delivered }

/-- FLIT_RECEIVE (R371): a flit in sequence is delivered; a later one is discarded until the failed flit arrives again; a
CHECK flit counts the lane errors, and a LINK flit acknowledges and returns credits. -/
def execFlitReceive (d : Dir) (raw : BitVec 288) (laneErrs : List Nat) (s : State) : Host.Outcome State Fault Refusal :=
  .next (if ¬ s.moves d then s
    else match Flit.decode raw with
      | none => s.crcFail d
      | some f =>
        if f.ty = 1 then s.laneErrors d laneErrs
        else if f.ty = 2 then s.linkFlit d f.payload
        else if f.ty = 0 ∨ f.seq ≠ (s.link d).expect then s
        else s.setLink d ((s.link d).accept f))

/-! ### Lanes and training (R373, R374) -/

/-- 18 × direction + lane. -/
def laneIndex (l : LaneRef) : Nat := (match l.dir with
  | .fc => 0
  | .cf => 18) + l.lane.val

/-- Failed lanes of a direction, in the order marked. -/
def State.failedLanes (s : State) (d : Dir) : List Nat := (s.ml.failed.filter fun l => l.dir = d).map fun l => l.lane.val

/-- The logical position of a physical lane (R374): none for a failed or a spare lane. -/
def State.lanePos (s : State) (d : Dir) (k : Nat) : Option Nat :=
  let bad := s.failedLanes d
  let p := ((upto k).filter fun i => ¬ bad.contains i).length
  if bad.contains k ∨ 16 ≤ p then none else some p

/-- A lane is marked failed and recorded with a SOURCE (R374, R382). -/
def State.markLane (s : State) (l : LaneRef) (live : Bool) (src : Nat) : State :=
  if s.ml.failed.contains l then s
  else { s with ml := { s.ml with failed := s.ml.failed ++ [l] } }.addEvent 7 (laneIndex l) live false src

/-- ML_STAT.STATE. -/
def State.mlState (s : State) : Nat := s.fld .ML_STAT 0 15 12

/-- More than two failed lanes in a direction. -/
def State.lanesGone (s : State) : Bool := 3 ≤ (s.failedLanes .fc).length || 3 ≤ (s.failedLanes .cf).length

/-- The link is UP; at start-up that ends step 7. -/
def State.linkUpNow (s : State) : State :=
  let s1 := s.setFld .ML_STAT 0 15 12 6
  if s.fld .SYS_STAT 0 3 0 = 7 then s1.setFld .SYS_STAT 0 3 0 8 else s1

/-- ML_TRAINING_STAGE_DONE (R373): DETECT, LOCK, ALIGN, CHECK and MAP in turn; lanes that fail in DETECT, LOCK or CHECK are
marked, in the CHECK state of a C-die phase as key-on BIST finds them (R378). In RETRAIN, whose LOCK, ALIGN and short CHECK
have no states of their own, a stage only marks the lanes that fail in it. Log entry 55. -/
def execMlTrainingStageDone (failed : List LaneRef) (s : State) : Host.Outcome State Fault Refusal :=
  let st := s.mlState
  let s1 := if st = 1 ∨ st = 2 ∨ st = 4 ∨ st = 8 then
      failed.foldl (fun s l => s.markLane l (st = 8) (if st = 4 then 0 else 4)) s
    else s
  .next (if st = 8 then s1
    else if st = 0 ∨ 5 < st then s
    else if st < 5 then s1.setFld .ML_STAT 0 15 12 (st + 1)
    else if s1.lanesGone then s1.linkDown else s1.linkUpNow)

/-- ML_TRAINING_TIMEOUT (R373): log entry 55. -/
def execMlTrainingTimeout (s : State) : Host.Outcome State Fault Refusal :=
  .next (if (1 ≤ s.mlState ∧ s.mlState ≤ 5) ∨ s.mlState = 8 then s.linkDown else s)

/-- A faulty lane in UP, or while another is being shifted (R374): a data lane is shifted, a spare only marked; the third of a
direction takes the link DOWN. -/
def State.laneFault (s : State) (l : LaneRef) : State :=
  if (s.mlState ≠ 6 ∧ s.mlState ≠ 7) ∨ s.ml.failed.contains l then s
  else
    let spare := (s.lanePos l.dir l.lane.val).isNone
    let s1 := s.markLane l true 4
    if s1.lanesGone then s1.linkDown
    else if spare then s1.mlInt 0
    else
      let d := match l.dir with
        | .fc => 0
        | .cf => 1
      ((s1.setBit .ML_MAP d 15 true).mlInt 1).setFld .ML_STAT 0 15 12 7

/-- LANE_SHIFT (R374). -/
def execLaneShift (d : Dir) (lane : Fin 18) (s : State) : Host.Outcome State Fault Refusal := .next (s.laneFault ⟨d, lane⟩)

/-- ML_SHIFT_DONE (R373). -/
def execMlShiftDone (s : State) : Host.Outcome State Fault Refusal :=
  .next (if s.mlState = 7 then ((s.setBit .ML_MAP 0 15 false).setBit .ML_MAP 1 15 false).setFld .ML_STAT 0 15 12 6 else s)

/-- ML_RETRAIN_DONE (R373). -/
def execMlRetrainDone (s : State) : Host.Outcome State Fault Refusal :=
  .next (if s.mlState ≠ 8 then s else if s.lanesGone then s.linkDown else s.setFld .ML_STAT 0 15 12 6)

/-- ML_NO_FLIT_TIMEOUT (R373). -/
def execMlNoFlitTimeout (s : State) : Host.Outcome State Fault Refusal :=
  .next (if s.mlState = 6 then s.linkDown else s)

/-- ML_LANE_ERROR_WINDOW (R373, R374): the 1 ms window ends. -/
def execMlLaneErrorWindow (s : State) : Host.Outcome State Fault Refusal :=
  let th := s.fld .ML_THR 0 15 8
  let dirs := [Dir.fc, Dir.cf]
  let lanes : List LaneRef := dirs.flatMap fun d => (List.finRange 18).map fun k => ⟨d, k⟩
  let bad := lanes.filter fun l => th < Tab.get 0 s.ml.laneErr (laneIndex l) ∧ ¬ s.ml.failed.contains l
  let crc := s.ml.crcWindow
  let s1 := { s with ml := { s.ml with laneErr := [], crcWindow := 0 } }
  .next (if ¬ s.linkUp then s1
    else if ¬ bad.isEmpty then bad.foldl (fun s l => s.laneFault l) s1
    else if th < crc then s1.retrain
    else s1)

/-- LOSS_WAIT_EXPIRY (R375): the C-die is powered again unless LOSS_MAX has locked it out. -/
def execLossWaitExpiry (s : State) : Host.Outcome State Fault Refusal :=
  .next (if s.pw.lossWait then { s with pw := { s.pw with lossWait := false } }.tryRaise else s)

/-! ### Wear and fault detection (R376, R377) -/

/-- Source 9 on the core of SPR_CTRL, where bit b is enabled. -/
def State.sprInt (s : State) (b : Nat) : State := s.raiseStat .SPR_INT_STAT .SPR_INT_EN b (s.fld .SPR_CTRL 0 3 0) 9

/-- The wear offset, one value for the C-die zones. -/
def State.wearOffset (s : State) : Nat := s.fld .WEAR_ZSTAT 0 14 11

/-- Set it. -/
def State.setWear (s : State) (n : Nat) : State := (upto 5).foldl (fun s z => s.setFld .WEAR_ZSTAT z 14 11 n) s

/-- ALARM of a zone (R376). -/
def State.wearAlarm (s : State) (z : Nat) : State :=
  if s.bit .WEAR_ZSTAT z 15 then s else (s.setBit .WEAR_ZSTAT z 15 true).sprInt 0

/-- WEAR_MEASUREMENT (R376): slack and ring-oscillator counts; a C-die zone below its minimum raises the offset by a step,
or at 50 mV sets ALARM. A C-die zone is measured only while its rails are up. -/
def execWearMeasurement (slacks : List Nat) (rosc : List Word) (s : State) : Host.Outcome State Fault Refusal :=
  let zs := (upto 6).filter fun z => z = 5 || s.bit .SYS_RAIL 0 14
  let s1 := zs.foldl (fun s z => (s.setFld .WEAR_ZSTAT z 9 0 (min 1023 (slacks.getD z 0))).setReg .WEAR_ROSC z (rosc.getD z 0)) s
  let low := zs.filter fun z => slacks.getD z 0 < Config.slackMin z
  let off := s.wearOffset
  let s2 := if (low.any fun z => z < 5) ∧ off < 10 then s1.setWear (off + 1) else s1
  let s3 := low.foldl (fun s z => if z = 5 ∨ off = 10 then s.wearAlarm z else s) s2
  .next s3

/-- CE_WINDOW_EXPIRY (R377): every tile's count restarts. -/
def execCeWindowExpiry (s : State) : Host.Outcome State Fault Refusal :=
  .next ((s.tiles.map Prod.fst).foldl (fun s k =>
    { s with tiles := Tab.upd {} k (fun t => { t with ceWindow := 0 }) s.tiles }) s)

/-! ### Binding and migration (R379 to R381) -/

/-- The lowest-numbered spare C tile that is neither failed nor bound (R379). -/
def State.freeSpare (s : State) : Option Nat :=
  ((upto 16).map (256 + ·)).find? fun p => ¬ s.spr.failed.contains ⟨1, BitVec.ofNat 9 p⟩ && s.spr.bindC.all fun e => e.2 ≠ some p

/-- A write of MIG_CMD (R380). -/
def State.writeMigCmd (s : State) (v : Word) : State := if wbit v 15 then s.queueTile (wfld v 7 0) 5 else s

/-- MIGRATION_QUEUE (R380). -/
def execMigrationQueue (v : Word) (s : State) : Host.Outcome State Fault Refusal := .next (s.writeMigCmd v)

/-- The switch (R380): w is bound to the spare, f is failed and recorded with a LIVE entry, TILE_ECC[w] is cleared. A tile that
MIG_CMD queued was requested by software: SW (R382; log entry 96). -/
def State.bindTile (s : State) (w f sp : Nat) (src : Byte) : State :=
  let s1 := { s with
    mem := { s.mem with ctile := s.mem.ctile.filter (fun e => e.1 / 262144 ≠ f), eccC := s.mem.eccC.filter (fun e => e.1 / 32768 ≠ f) }
    spr := { s.spr with bindC := Tab.set (some w) w (some sp) s.spr.bindC, failed := ⟨1, BitVec.ofNat 9 f⟩ :: s.spr.failed } }
  (s1.setReg .TILE_ECC w 0).addEvent 1 f true (src = 5) src.toNat

/-- MIGRATION_START (R380, R381): the first queued tile whose REQ is not RET. -/
def execMigrationStart (s : State) : Host.Outcome State Fault Refusal :=
  .next (if ¬ s.computeReady ∨ s.spr.mig.isSome then s
    else match s.spr.queue.find? fun e => s.fld .TILE_PWR e.1 1 0 ≠ 1 with
      | none => s
      | some (w, src) =>
        let s1 := { s with spr := { s.spr with queue := s.spr.queue.erase (w, src) } }
        let f := (s.physTile .c w).getD w
        match s.freeSpare with
        | none => (s1.setBit .MIG_STAT 0 12 true).sprInt 2
        | some sp =>
          let s2 := s1.setFld .MIG_STAT 0 7 0 w
          if s.fld .TILE_PWR w 1 0 = 2 then s2.bindTile w f sp src
          else
            let s3 := ((s2.setBit .MIG_STAT 0 15 true).setFld .MIG_STAT 0 14 13 1).setReg .MIG_PROG 0 0
            { s3.zeroFill .c sp with spr := { s3.spr with mig := some { w, f, sp, line := 0, written := [], copying := false, source := src } } })

/-- Word i of the line being copied: a flagged word is dropped; one that reads as uncorrectable is written so again. -/
def State.copyWord (s : State) (g : Migration) (i : Nat) : State :=
  let w := g.line * 8 + i
  if g.written.contains w then s
  else
    let e := Tab.get .clean s.mem.eccC (g.f * 32768 + w)
    let bs := readBytes 0 s.mem.ctile (g.f * 262144 + 8 * w) 8
    let s1 := if e = .single then s.count .TILE_ECC g.w else s
    { s1 with mem := { s1.mem with
        ctile := writeBytes 0 s1.mem.ctile (g.sp * 262144 + 8 * w) bs
        eccC := Tab.set .clean (g.sp * 32768 + w) (if e = .double then .double else .clean) s1.mem.eccC } }

/-- MIGRATION_COPY_LINE (R380). -/
def execMigrationCopyLine (s : State) : Host.Outcome State Fault Refusal :=
  .next (match s.spr.mig with
    | none => s
    | some g =>
      if 4096 ≤ g.line then s
      else
        let s1 := (upto 8).foldl (fun s i => s.copyWord g i) s
        let s2 := { s1 with spr := { s1.spr with mig := some { g with line := g.line + 1, copying := true } } }
        (s2.setReg .MIG_PROG 0 (BitVec.ofNat 16 (g.line + 1))).setFld .MIG_STAT 0 14 13 2)

/-- MIGRATION_SWITCH (R380, R381): then the recorded power request is carried out on the spare. -/
def execMigrationSwitch (s : State) : Host.Outcome State Fault Refusal :=
  .next (match s.spr.mig with
    | none => s
    | some g =>
      if g.line < 4096 then s
      else
        let s1 := { s with spr := { s.spr with mig := none } }.bindTile g.w g.f g.sp g.source
        ((s1.setBit .MIG_STAT 0 15 false).setFld .MIG_STAT 0 14 13 0).startTile .c g.w)

/-! ### The repair record (R382) -/

/-- The unit that an entry names. -/
def recUnit (w : W64) : UnitRef := { kind := w.setWidth 8, unit := (w >>> 8).setWidth 9 }

/-- An entry of the record. -/
def recEntry (e : RecEvent) (keyon : Nat) : W64 :=
  BitVec.ofNat 64 (e.unit.kind.toNat + e.unit.unit.toNat * 2 ^ 8 + (b2n e.live + 2 * b2n e.sw) * 2 ^ 24 + keyon * 2 ^ 32 + e.source.toNat * 2 ^ 48)

/-- Add an event to the record, unless its unit is recorded already or the record is full; an added entry makes the repair
mirror due (R39), and the last one that fits makes the record full. -/
def State.record (s : State) (e : RecEvent) : State :=
  if (s.spr.record.any fun w => recUnit w = e.unit) ∨ 256 ≤ s.spr.record.length then s
  else
    let s1 := { s with
      spr := { s.spr with record := s.spr.record ++ [recEntry e (s.reg .SYS_KEYON 0).toNat] }
      lay := { s.lay with mirrorDue := true } }.sprInt 3
    if s1.spr.record.length = 256 then s1.sprInt 1 else s1

/-- A write of SPR_REQ_CMD (R382). -/
def State.writeSprReq (s : State) (v : Word) : State :=
  let k := wfld v 3 0
  if wbit v 15 ∧ 1 ≤ k ∧ k ≤ 7 then s.addEvent k (s.fld .SPR_REQ_UNIT 0 8 0) false true 5 else s

/-- REPAIR_REQUEST (R382). -/
def execRepairRequest (v : Word) (s : State) : Host.Outcome State Fault Refusal := .next (s.writeSprReq v)

/-- REPAIR_RECORD_ADD (R382): the oldest event is added. -/
def execRepairRecordAdd (s : State) : Host.Outcome State Fault Refusal :=
  .next (match s.spr.toAdd with
    | [] => s
    | e :: rest => { s with spr := { s.spr with toAdd := rest } }.record e)

/-- Failures found by key-on BIST enter the record at once (R378). -/
def State.recordBist (s : State) (fails : List UnitRef) : State :=
  fails.foldl (fun s u => s.record { unit := u, live := false, sw := false, source := 0 }) s

end Sys2Proof.Machine
end

