-- ==== Sys2Proof/Machine/Acf.lean ====
section
/-! DEFINITION. ACF messages of CAN frames in AVTP frames (R348), laid out by IEEE 1722-2016, which the rule names. Log entry
57. -/

namespace Sys2Proof.Machine

open Sys2Proof

/-- The bytes of a message filled to whole 32-bit words, and their number as filled. -/
def padWord (l : List Byte) : List Byte := l ++ List.replicate ((4 - l.length % 4) % 4) 0

/-- The first four bytes of an ACF message: type, length in words, padding, flags (RTR, EFF, BRS, FDF, ESI) and channel. -/
def acfHead (ty words pad : Nat) (f : CanFrame) (ch : Nat) : List Byte :=
  let g (i : Nat) : Nat := b2n (f.flags.getLsbD i)
  beBytes 4 (ty % 128 * 2 ^ 25 + words % 512 * 2 ^ 16 + pad * 2 ^ 14 + g 3 * 2 ^ 12 + g 2 * 2 ^ 11 + g 1 * 2 ^ 10 +
    b2n (f.fmt = .fd) * 2 ^ 9 + g 0 * 2 ^ 8 + ch)

/-- The ACF message of a CAN frame: of type ty; classical and FD frames with a time stamp that is not valid and the identifier,
XL frames with the 8 bytes of their header fields; then the data. -/
def acfMessage (ty ch : Nat) (f : CanFrame) : List Byte :=
  let own := if f.fmt = .xl then f.xlHead.take 8 ++ List.replicate (8 - f.xlHead.length) 0
    else List.replicate 8 0 ++ beBytes 4 f.ident.toNat
  let body := padWord (own ++ f.data)
  acfHead ty (body.length / 4 + 1) (body.length - own.length - f.data.length) f ch ++ body

/-- The CAN frame of a message of w bytes: none where it is no CAN message. xl is the message type of XL frames; an XL frame's
identifier is its priority identifier, the highest 11 bits of its fields. -/
def acfCan (xl : Nat) (m : List Byte) : Option CanFrame :=
  let h := beNat (m.take 4)
  let ty := h / 2 ^ 25
  let pad := h / 2 ^ 14 % 4
  let body := m.drop 4
  let data (n : Nat) : List Byte := (body.drop n).take (body.length - n - pad)
  let flags : BitVec 4 := BitVec.ofNat 4 (h / 2 ^ 10 % 8 * 2 + h / 2 ^ 8 % 2)
  let fmt : CanFormat := if h / 2 ^ 9 % 2 = 1 then .fd else .classical
  if ty = xl then some { fmt := .xl, ident := BitVec.ofNat 29 (beNat (body.take 2) / 32), xlHead := body.take 8, data := data 8, ok := true, flags }
  else if ty = 1 then some { fmt, ident := BitVec.ofNat 29 (beNat (bytesAt body 8 4)), xlHead := [], data := data 12, ok := true, flags }
  else if ty = 2 then some { fmt, ident := BitVec.ofNat 29 (beNat (body.take 4)), xlHead := [], data := data 4, ok := true, flags }
  else none

/-- The messages in the body of an AVTP frame, each as a CAN frame or none; n bounds their number. -/
def acfSplit (xl : Nat) : Nat → List Byte → List (Option CanFrame)
  | 0, _ => []
  | n + 1, l =>
    let w := 4 * (beNat (l.take 2) % 512)
    if w < 4 ∨ l.length < w then [] else acfCan xl (l.take w) :: acfSplit xl n (l.drop w)

/-- The messages that an AVTP payload carries: an NTSCF frame (subtype 0x82) or a TSCF frame (0x05). -/
def acfMessages (xl : Nat) (l : List Byte) : List (Option CanFrame) :=
  let sub := (l.headD 0).toNat
  if sub = 0x82 then acfSplit xl l.length ((l.drop 12).take (beNat (bytesAt l 1 2) % 2048))
  else if sub = 0x05 then acfSplit xl l.length ((l.drop 24).take (beNat (bytesAt l 20 2)))
  else []

end Sys2Proof.Machine
end

