-- ==== Sys2Proof/Machine/Crypt.lean ====
section
/-! DEFINITION. The cryptographic functions that the manual takes from their standards by name: SHA-384, ECDSA P-384 and
AES-256-GCM (R24 to R26, R354, R403). The manual names them; their constants and steps come from FIPS 180-4, FIPS 186-5,
FIPS 197 and NIST SP 800-38D. Log entry 83. -/

namespace Sys2Proof.Machine

open Sys2Proof

/-! ### SHA-384 (FIPS 180-4) -/

/-- A list cut into pieces of n; fuel bounds their number. -/
def chunks {α : Type} : Nat → Nat → List α → List (List α)
  | 0, _, _ => []
  | f + 1, n, l => if l.isEmpty then [] else l.take n :: chunks f n (l.drop n)

/-- The round constants. -/
def shaK : List W64 :=
  [0x428a2f98d728ae22, 0x7137449123ef65cd, 0xb5c0fbcfec4d3b2f, 0xe9b5dba58189dbbc,
   0x3956c25bf348b538, 0x59f111f1b605d019, 0x923f82a4af194f9b, 0xab1c5ed5da6d8118,
   0xd807aa98a3030242, 0x12835b0145706fbe, 0x243185be4ee4b28c, 0x550c7dc3d5ffb4e2,
   0x72be5d74f27b896f, 0x80deb1fe3b1696b1, 0x9bdc06a725c71235, 0xc19bf174cf692694,
   0xe49b69c19ef14ad2, 0xefbe4786384f25e3, 0x0fc19dc68b8cd5b5, 0x240ca1cc77ac9c65] ++
  [0x2de92c6f592b0275, 0x4a7484aa6ea6e483, 0x5cb0a9dcbd41fbd4, 0x76f988da831153b5,
   0x983e5152ee66dfab, 0xa831c66d2db43210, 0xb00327c898fb213f, 0xbf597fc7beef0ee4,
   0xc6e00bf33da88fc2, 0xd5a79147930aa725, 0x06ca6351e003826f, 0x142929670a0e6e70,
   0x27b70a8546d22ffc, 0x2e1b21385c26c926, 0x4d2c6dfc5ac42aed, 0x53380d139d95b3df,
   0x650a73548baf63de, 0x766a0abb3c77b2a8, 0x81c2c92e47edaee6, 0x92722c851482353b] ++
  [0xa2bfe8a14cf10364, 0xa81a664bbc423001, 0xc24b8b70d0f89791, 0xc76c51a30654be30,
   0xd192e819d6ef5218, 0xd69906245565a910, 0xf40e35855771202a, 0x106aa07032bbd1b8,
   0x19a4c116b8d2d0c8, 0x1e376c085141ab53, 0x2748774cdf8eeb99, 0x34b0bcb5e19b48a8,
   0x391c0cb3c5c95a63, 0x4ed8aa4ae3418acb, 0x5b9cca4f7763e373, 0x682e6ff3d6b2b8a3,
   0x748f82ee5defb2fc, 0x78a5636f43172f60, 0x84c87814a1f0ab72, 0x8cc702081a6439ec] ++
  [0x90befffa23631e28, 0xa4506cebde82bde9, 0xbef9a3f7b2c67915, 0xc67178f2e372532b,
   0xca273eceea26619c, 0xd186b8c721c0c207, 0xeada7dd6cde0eb1e, 0xf57d4f7fee6ed178,
   0x06f067aa72176fba, 0x0a637dc5a2c898a6, 0x113f9804bef90dae, 0x1b710b35131c471b,
   0x28db77f523047d84, 0x32caab7b40c72493, 0x3c9ebe0a15c9bebc, 0x431d67c49c100d4c,
   0x4cc5d4becb3e42b6, 0x597f299cfc657e2a, 0x5fcb6fab3ad6faec, 0x6c44198c4a475817]

/-- The initial hash value of SHA-384. -/
def shaInit : List W64 :=
  [0xcbbb9d5dc1059ed8, 0x629a292a367cd507, 0x9159015a3070dd17, 0x152fecd8f70e5939,
   0x67332667ffc00b31, 0x8eb44a8768581511, 0xdb0c2e0d64f98fa7, 0x47b5481dbefa4fa4]

/-- The message schedule, newest word first: n more words. -/
def shaSchedule : Nat → List W64 → List W64
  | 0, l => l
  | n + 1, l =>
    let w (i : Nat) : W64 := l.getD i 0
    let s0 := (w 14).rotateRight 1 ^^^ (w 14).rotateRight 8 ^^^ (w 14) >>> 7
    let s1 := (w 1).rotateRight 19 ^^^ (w 1).rotateRight 61 ^^^ (w 1) >>> 6
    shaSchedule n ((s1 + w 6 + s0 + w 15) :: l)

/-- One round over the working variables a to h. -/
def shaRound (v : List W64) (kw : W64 × W64) : List W64 :=
  let x (i : Nat) : W64 := v.getD i 0
  let big1 := (x 4).rotateRight 14 ^^^ (x 4).rotateRight 18 ^^^ (x 4).rotateRight 41
  let ch := (x 4 &&& x 5) ^^^ (~~~(x 4) &&& x 6)
  let t1 := x 7 + big1 + ch + kw.1 + kw.2
  let big0 := (x 0).rotateRight 28 ^^^ (x 0).rotateRight 34 ^^^ (x 0).rotateRight 39
  let maj := (x 0 &&& x 1) ^^^ (x 0 &&& x 2) ^^^ (x 1 &&& x 2)
  [t1 + (big0 + maj), x 0, x 1, x 2, x 3 + t1, x 4, x 5, x 6]

/-- One block of 128 bytes. -/
def shaBlock (h : List W64) (b : List Byte) : List W64 :=
  let w := (chunks 16 8 b).map fun c => BitVec.ofNat 64 (beNat c)
  let sched := (shaSchedule 64 w.reverse).reverse
  List.zipWith (· + ·) h ((shaK.zip sched).foldl shaRound h)

/-- The message with its padding. -/
def shaPad (m : List Byte) : List Byte :=
  let z := (128 - (m.length + 17) % 128) % 128
  m ++ [0x80] ++ List.replicate z 0 ++ beBytes 16 (8 * m.length)

/-- SHA-384 (R24, R25). -/
def sha384 (m : List Byte) : BitVec 384 :=
  let p := shaPad m
  let h := (chunks (p.length / 128) 128 p).foldl shaBlock shaInit
  BitVec.ofNat 384 ((h.take 6).foldl (fun n w => n * 2 ^ 64 + w.toNat) 0)

/-! ### ECDSA P-384 (FIPS 186-5) -/

/-- The prime of the field. -/
def p384 : Nat := 2 ^ 384 - 2 ^ 128 - 2 ^ 96 + 2 ^ 32 - 1
/-- The order of the base point. -/
def n384 : Nat := 0xffffffffffffffffffffffffffffffffffffffffffffffffc7634d81f4372ddf581a0db248b0a77aecec196accc52973
/-- The curve coefficient b. -/
def b384 : Nat := 0xb3312fa7e23ee7e4988e056be3f82d19181d9c6efe8141120314088f5013875ac656398d8a2ed19d2a85c8edd3ec2aef
/-- The base point. -/
def g384 : Nat × Nat :=
  (0xaa87ca22be8b05378eb1c71ef320ad746e1d3b628ba79b9859f741e082542a385502f25dbf55296c3a545e3872760ab7,
   0x3617de4a96262c6f5d9e98bf9292dc29f8f41dbd289a147ce9da3113b5f0b8c00a60b1ce1d7e819d7a431d7c90ea0e5f)

/-- b to the power e modulo m; n bounds the bits of e. -/
def powMod (m : Nat) : Nat → Nat → Nat → Nat
  | 0, _, _ => 1
  | n + 1, b, e => (if e % 2 = 1 then b else 1) * powMod m n (b * b % m) (e / 2) % m

/-- The inverse modulo a prime m. -/
def invMod (m a : Nat) : Nat := powMod m 384 (a % m) (m - 2)

/-- The sum of two points; none is the point at infinity. -/
def pointAdd : Option (Nat × Nat) → Option (Nat × Nat) → Option (Nat × Nat)
  | none, q => q
  | p, none => p
  | some (x1, y1), some (x2, y2) =>
    if x1 = x2 ∧ (y1 + y2) % p384 = 0 then none
    else
      let l := if x1 = x2 then (3 * x1 * x1 + (p384 - 3)) * invMod p384 (2 * y1) % p384
        else (y2 + (p384 - y1)) * invMod p384 (x2 + (p384 - x1)) % p384
      let x := (l * l + (p384 - x1) + (p384 - x2)) % p384
      some (x, (l * (x1 + (p384 - x)) + (p384 - y1)) % p384)

/-- k times a point; n bounds the bits of k. -/
def pointMul : Nat → Nat → Option (Nat × Nat) → Option (Nat × Nat)
  | 0, _, _ => none
  | n + 1, k, p => pointAdd (if k % 2 = 1 then p else none) (pointMul n (k / 2) (pointAdd p p))

/-- A point of the curve. -/
def onCurve (q : Nat × Nat) : Bool :=
  q.1 < p384 && q.2 < p384 && q.2 * q.2 % p384 = (q.1 * q.1 * q.1 + (p384 - 3) * q.1 + b384) % p384

/-- ECDSA P-384 verification (R23, R24): public key X‖Y, digest, signature r‖s. -/
def ecdsaVerify (key : List Byte) (digest : BitVec 384) (sig : List Byte) : Bool :=
  let q := (beNat (key.take 48), beNat (key.drop 48))
  let r := beNat (sig.take 48)
  let s := beNat (sig.drop 48)
  let w := invMod n384 s
  let e := digest.toNat
  1 ≤ r && r < n384 && 1 ≤ s && s < n384 && onCurve q &&
  match pointAdd (pointMul 384 (e * w % n384) (some g384)) (pointMul 384 (r * w % n384) (some q)) with
  | none => false
  | some (x, _) => x % n384 = r

/-- ECDSA P-384 signing under private key d with per-signature number k: r‖s. -/
def ecdsaSign (d k : Nat) (digest : BitVec 384) : List Byte :=
  match pointMul 384 k (some g384) with
  | none => List.replicate 96 0
  | some (x, _) => beBytes 48 (x % n384) ++ beBytes 48 (invMod n384 k * (digest.toNat + x % n384 * d) % n384)

/-- The public key X‖Y of private key d. -/
def ecdsaPublic (d : Nat) : List Byte :=
  match pointMul 384 d (some g384) with
  | none => List.replicate 96 0
  | some (x, y) => beBytes 48 x ++ beBytes 48 y

/-! ### AES-256 (FIPS 197) -/

/-- Multiplication by x in the field of AES. -/
def aesDouble (a : Byte) : Byte := (a <<< 1) ^^^ (if a.getLsbD 7 then 0x1B else 0)

/-- The product in the field of AES; n bounds the bits of the second factor. -/
def aesMul : Nat → Byte → Byte → Byte
  | 0, _, _ => 0
  | n + 1, a, b => (if b.getLsbD 0 then a else 0) ^^^ aesMul n (aesDouble a) (b >>> 1)

/-- a to the power e in the field of AES. -/
def aesPow : Nat → Byte → Nat → Byte
  | 0, _, _ => 1
  | n + 1, a, e => aesMul 8 (if e % 2 = 1 then a else 1) (aesPow n (aesMul 8 a a) (e / 2))

/-- The S-box: the inverse, then the affine map. -/
def aesSub (a : Byte) : Byte :=
  let i := aesPow 8 a 254
  i ^^^ i.rotateLeft 1 ^^^ i.rotateLeft 2 ^^^ i.rotateLeft 3 ^^^ i.rotateLeft 4 ^^^ 0x63

/-- The key schedule of AES-256, newest word first: word i, and n more. -/
def aesSchedule : Nat → Nat → Byte → List (List Byte) → List (List Byte)
  | 0, _, _, l => l
  | n + 1, i, rc, l =>
    let t := l.getD 0 []
    let u := if i % 8 = 0 then (match (t.drop 1 ++ t.take 1).map aesSub with
        | [] => []
        | x :: xs => (x ^^^ rc) :: xs)
      else if i % 8 = 4 then t.map aesSub else t
    aesSchedule n (i + 1) (if i % 8 = 0 then aesDouble rc else rc) (List.zipWith (· ^^^ ·) (l.getD 7 []) u :: l)

/-- The fifteen round keys. -/
def aesKeys (key : List Byte) : List (List Byte) :=
  (chunks 15 4 (aesSchedule 52 8 1 (chunks 8 4 key).reverse).reverse).map List.flatten

/-- Row r of a state moves r columns (ShiftRows), bytes by column. -/
def aesShift (l : List Byte) : List Byte := (List.range 16).map fun i => l.getD ((i + 4 * (i % 4)) % 16) 0

/-- One column (MixColumns). -/
def aesMix (c : List Byte) : List Byte :=
  (List.range 4).map fun i =>
    let x (k : Nat) : Byte := c.getD ((i + k) % 4) 0
    aesDouble (x 0) ^^^ (aesDouble (x 1) ^^^ x 1) ^^^ x 2 ^^^ x 3

/-- One block under its round keys. -/
def aesBlock (keys : List (List Byte)) (b : List Byte) : List Byte :=
  let add := fun (k l : List Byte) => List.zipWith (· ^^^ ·) k l
  let mid := ((keys.drop 1).take 13).foldl (fun l k => add k ((chunks 4 4 (aesShift (l.map aesSub))).map aesMix).flatten)
    (add (keys.getD 0 []) b)
  add (keys.getD 14 []) (aesShift (mid.map aesSub))

/-! ### GCM (NIST SP 800-38D) -/

/-- The product of two blocks of GCM as numbers, bit 127 the first; n bounds the bits of x still to be taken. -/
def gcmMul : Nat → BitVec 128 → BitVec 128 → BitVec 128 → BitVec 128
  | 0, _, _, z => z
  | n + 1, x, v, z =>
    gcmMul n (x <<< 1) ((v >>> 1) ^^^ (if v.getLsbD 0 then 0xE1 <<< 120 else 0)) (if x.getLsbD 127 then z ^^^ v else z)

/-- Bytes filled with zeros to whole blocks. -/
def padBlocks (l : List Byte) : List Byte := l ++ List.replicate ((16 - l.length % 16) % 16) 0

/-- GHASH of additional data and ciphertext. -/
def gHash (h : BitVec 128) (aad c : List Byte) : BitVec 128 :=
  let l := padBlocks aad ++ padBlocks c ++ beBytes 8 (8 * aad.length) ++ beBytes 8 (8 * c.length)
  (chunks (l.length / 16) 16 l).foldl (fun y b => gcmMul 128 (y ^^^ BitVec.ofNat 128 (beNat b)) h 0) 0

/-- Counter mode from counter value i on, with a nonce of 12 bytes. -/
def gcmCtr (keys : List (List Byte)) (nonce : List Byte) : Nat → List (List Byte) → List Byte
  | _, [] => []
  | i, b :: bs => List.zipWith (· ^^^ ·) b (aesBlock keys (nonce ++ beBytes 4 i)) ++ gcmCtr keys nonce (i + 1) bs

/-- The tag of a ciphertext. -/
def gcmTag (keys : List (List Byte)) (nonce aad c : List Byte) : List Byte :=
  let h := BitVec.ofNat 128 (beNat (aesBlock keys (List.replicate 16 0)))
  List.zipWith (· ^^^ ·) (beBytes 16 (gHash h aad c).toNat) (aesBlock keys (nonce ++ [0, 0, 0, 1]))

/-- AES-256-GCM: the text under the key, in either direction. -/
def gcmText (key nonce t : List Byte) : List Byte := gcmCtr (aesKeys key) nonce 2 (chunks (t.length / 16 + 1) 16 t)

/-- AES-256-GCM sealing: ciphertext and tag. -/
def gcmSeal (key nonce aad t : List Byte) : List Byte × List Byte :=
  let c := gcmText key nonce t
  (c, gcmTag (aesKeys key) nonce aad c)

/-- AES-256-GCM opening (R26): the text, none where the tag fails. -/
def gcmOpen (key nonce aad c tag : List Byte) : Option (List Byte) :=
  if gcmTag (aesKeys key) nonce aad c = tag then some (gcmText key nonce c) else none

end Sys2Proof.Machine
end

