-- ==== Sys2Proof/Machine/Macsec.lean ====
section
/-! DEFINITION. Frames under MACsec (R354), laid out by IEEE 802.1AE-2018, which the rule names: the SecTAG with an explicit
SCI, GCM-AES-256 and GCM-AES-XPN-256. Log entry 61. -/

namespace Sys2Proof.Machine

open Sys2Proof

/-- A secure association: its parts in the table (R363). -/
structure Sa where
  sci : List Byte
  en : Bool
  xpn : Bool
  active : Bool
  an : Nat
  ssci : List Byte
  pn : Nat
  window : Nat
  salt : List Byte
  key : List Byte
  deriving DecidableEq, Repr

/-- The bytes of an entry. -/
def entBytes (e : BitVec 128) (i n : Nat) : List Byte := bytesAt (leBytes 16 e.toNat) i n

/-- The association of its five parts. -/
def saOf (l : List (BitVec 128)) : Sa :=
  let part (i : Nat) : BitVec 128 := l.getD i 0
  let f := (entBytes (part 0) 8 1).headD 0
  { sci := entBytes (part 0) 0 8, en := f.getLsbD 0, xpn := f.getLsbD 1, active := f.getLsbD 2, an := f.toNat / 8 % 4
    ssci := entBytes (part 0) 12 4, pn := leNat (entBytes (part 1) 0 8), window := leNat (entBytes (part 1) 8 4)
    salt := entBytes (part 2) 0 12, key := entBytes (part 3) 0 16 ++ entBytes (part 4) 0 16 }

/-- The nonce of packet number pn. -/
def Sa.nonce (a : Sa) (pn : Nat) : List Byte :=
  if a.xpn then List.zipWith (· ^^^ ·) a.salt (a.ssci ++ beBytes 8 pn) else a.sci ++ beBytes 4 pn

/-- Bytes that protection adds to a frame: a SecTAG of 16 and an ICV of 16. -/
def secLen : Nat := 32

/-- A frame protected under packet number pn. -/
def Sa.protect (a : Sa) (pn : Nat) (b : List Byte) : List Byte :=
  let t := b.drop 12
  let tag := [0x88, 0xE5, BitVec.ofNat 8 (0x2C + a.an), BitVec.ofNat 8 (if t.length < 48 then t.length else 0)] ++ beBytes 4 pn ++ a.sci
  let head := b.take 12 ++ tag
  let r := gcmSeal a.key (a.nonce pn) head t
  head ++ r.1 ++ r.2

/-- The full packet number of a received low word: with XPN the one nearest above the lowest acceptable. -/
def Sa.fullPn (a : Sa) (low : Nat) : Nat :=
  if ¬ a.xpn then low
  else
    let hi := a.pn / 2 ^ 32
    let mine := a.pn % 2 ^ 32
    (if 2 ^ 31 ≤ mine ∧ low < 2 ^ 31 ∧ low < mine then hi + 1 else hi) * 2 ^ 32 + low

/-- A received frame opened: its packet number and the frame in clear; none where it is not protected under this association.
With E and C both 0 it is authenticated only. -/
def Sa.unprotect (a : Sa) (b : List Byte) : Option (Nat × List Byte) :=
  let tci := (b.getD 14 0).toNat
  let n := if tci / 32 % 2 = 1 then 28 else 20
  let sci := if tci / 32 % 2 = 1 then bytesAt b 20 8 else bytesAt b 6 6 ++ [0, 1]
  let pn := a.fullPn (beNat (bytesAt b 16 4))
  let body := (b.drop n).take (b.length - n - 16)
  let sl := (b.getD 15 0).toNat
  let icv := b.drop (b.length - 16)
  if b.length < n + 16 ∨ beNat (bytesAt b 12 2) ≠ 0x88E5 ∨ 128 ≤ tci ∨ sci ≠ a.sci ∨ tci % 4 ≠ a.an ∨ pn = 0 ∨
     (sl ≠ 0 ∧ sl ≠ body.length) then none
  else if tci / 4 % 4 = 3 then (gcmOpen a.key (a.nonce pn) (b.take n) body icv).map fun t => (pn, b.take 12 ++ t)
  else if tci / 4 % 4 = 0 then (gcmOpen a.key (a.nonce pn) (b.take n ++ body) [] icv).map fun _ => (pn, b.take 12 ++ body)
  else none

end Sys2Proof.Machine
end

