-- ==== Sys2Proof/Machine/Switch.lean ====
section
/-! DEFINITION. The switch core (13_network.md): tables and counters, buffer and queues, the roster, filters and meters,
FRER, MACsec, CAN bridging, gates and shapers. -/

namespace Sys2Proof.Machine

open Sys2Proof

/-! ### Entries, counters and interrupts -/

/-- n bytes of a table entry from byte i, as a number. -/
def entFld (e : BitVec 128) (i n : Nat) : Nat := (e.toNat >>> (8 * i)) % 2 ^ (8 * n)

/-- An entry with n bytes from byte i replaced. -/
def entPut (e : BitVec 128) (i n v : Nat) : BitVec 128 :=
  BitVec.ofNat 128 (e.toNat - entFld e i n * 2 ^ (8 * i) + (v % 2 ^ (8 * n)) * 2 ^ (8 * i))

/-- The switch is powered: its registers and tables can be reached. -/
def State.switchLive (s : State) : Bool := ¬ s.pw.cReset

/-- The switch forwards (R364, READY). -/
def State.switchReady (s : State) : Bool := s.switchLive && s.bit .NSW_STAT 0 15

/-- A network interrupt of the C-die (R364). -/
def State.netInt (s : State) (b : Nat) : State :=
  if s.switchLive then s.raiseStat .NSW_INT_STAT .NSW_INT_EN b (s.fld .NSW_CTRL 0 3 0) 8 else s

/-- A network interrupt of the F-die (R366). -/
def State.fnetInt (s : State) (b : Nat) : State :=
  s.raiseStat .FNET_INT_STAT .FNET_INT_EN b (s.fld .FNET_INT_EN 0 15 12) 8

/-- Counter i increases by n (R363). -/
def State.tally (s : State) (i : Nat) (n : Nat := 1) : State :=
  { s with net := { s.net with counters := Tab.upd 0 i (fun c : W64 => c + BitVec.ofNat 64 n) s.net.counters } }

/-- Counter n of a port increases. -/
def State.portTally (s : State) (p n : Nat) (k : Nat := 1) : State := s.tally (32 * p + n) k

/-- A drop counter of a port increases, with the interrupts of R364 and, for port IF, R366. -/
def State.dropTally (s : State) (p n : Nat) : State :=
  let s1 := (s.portTally p n).netInt 0
  if p = 23 then s1.fnetInt 0 else s1

/-! ### Ports (R331, R359) -/

/-- The port table entry: MAXLEN 1,522 at reset. -/
def portDefault : BitVec 128 := 1522

/-- The port table's entry of a port. -/
def State.portEnt (s : State) (p : Nat) : BitVec 128 := Tab.get portDefault s.net.portTab p

/-- MAXLEN of a port. -/
def State.maxLen (s : State) (p : Nat) : Nat := entFld (s.portEnt p) 0 2

/-- Actual state of a port (R359): 0 OFF, 1 STARTING, 2 ON, 3 STOPPING; the internal ports are ON. -/
def State.portAct (s : State) (p : Nat) : Nat :=
  if p < 4 then s.fld .BPHY_PSTAT p 15 14
  else if p < 8 then s.fld .MT_STAT (p - 4) 15 14
  else if p < 14 then s.fld .TS_STAT (p - 8) 15 14
  else if p < 22 then s.fld .CN_STAT (p - 14) 15 14
  else 2

/-- Link rate of a port in Mbit/s by NSW_PSTAT.SPEED (R364). -/
def speedMbit (c : Nat) : Nat := ([0, 10, 2500, 5000, 10000, 25000, 50000, 100000] : List Nat).getD c 0

/-- Rate of port p. -/
def State.portMbit (s : State) (p : Nat) : Nat := speedMbit (s.fld .NSW_PSTAT p 14 12)

/-! ### Frames -/

/-- Length of a frame, FCS included. -/
def frameLen (b : List Byte) : Nat := b.length + 4

/-- Cells of a frame (R334). -/
def cellsOf (b : List Byte) : Nat := (frameLen b + 255) / 256

/-- Length of the addresses and of a VLAN tag. -/
def tagEnd (b : List Byte) : Nat := if beNat (bytesAt b 12 2) = 0x8100 then 16 else 12

/-- EtherType after a VLAN tag. -/
def etherType (b : List Byte) : Nat := beNat (bytesAt b (tagEnd b) 2)

/-- PCP of the VLAN tag, 0 untagged (R333). -/
def pcpOf (b : List Byte) : Nat := if tagEnd b = 16 then (b.getD 14 0).toNat / 32 else 0

/-- VID of the VLAN tag, 0 untagged. Log entry 58. -/
def vidOf (b : List Byte) : Nat := if tagEnd b = 16 then beNat (bytesAt b 14 2) % 4096 else 0

/-! ### The roster (R355 to R357) -/

/-- KIND of an entry. -/
def rosKind (e : BitVec 128) : Nat := entFld e 8 2 / 4096 % 8
/-- STATIC. -/
def rosStatic (e : BitVec 128) : Bool := entFld e 8 2 / 32768 = 1
/-- VID. -/
def rosVid (e : BitVec 128) : Nat := entFld e 8 2 % 4096
/-- The port mask. -/
def rosMask (e : BitVec 128) : Nat := entFld e 10 4 % 2 ^ 25
/-- ACTION. -/
def rosAction (e : BitVec 128) : Nat := entFld e 10 4 / 2 ^ 25 % 4
/-- LINK. -/
def rosLink (e : BitVec 128) : Nat := entFld e 14 2 % 2048

/-- Entry i of the roster. -/
def State.ros (s : State) (i : Nat) : BitVec 128 := Tab.get 0 s.net.roster i

/-- The state with entry i replaced. -/
def State.setRos (s : State) (i : Nat) (e : BitVec 128) : State :=
  { s with net := { s.net with roster := Tab.set 0 i e s.net.roster } }

/-- The lowest entry that meets a condition. -/
def State.rosFind (s : State) (f : BitVec 128 → Bool) : Option Nat := (s.net.roster.find? fun e => f e.2).map (·.1)

/-- The MAC entry of an address and a VID. -/
def State.macEntry (s : State) (mac : List Byte) (vid : Nat) : Option Nat :=
  s.rosFind fun e => rosKind e = 1 && entFld e 0 6 = leNat mac && rosVid e = vid

/-- The CAN range entry of an identifier on a channel (R348). -/
def State.canEntry (s : State) (ch : Nat) (ident : Nat) : Option Nat :=
  s.rosFind fun e => rosKind e = 3 && (rosMask e).testBit (14 + ch) && entFld e 0 4 % 2 ^ 29 ≤ ident && ident ≤ entFld e 4 4 % 2 ^ 29

/-- A roster event of a port enabled in the event mask enters the queue, or is lost (R356): 1 join, 2 leave, 3 move. -/
def State.rosEvent (s : State) (kind ix port : Nat) : State :=
  if ¬ (s.param 1362).testBit port then s
  else if 32 ≤ s.net.events.length then s.netInt 2
  else { s with net := { s.net with events := s.net.events ++ [BitVec.ofNat 16 (kind * 16384 + ix)] } }.netInt 3

/-- The lowest port of an entry's mask, which an event names. -/
def rosPort (e : BitVec 128) : Nat := ((upto 25).find? fun p => (rosMask e).testBit p).getD 0

/-- Learned entries of a port. -/
def State.learned (s : State) (p : Nat) : Nat :=
  (s.net.roster.filter fun e => rosKind e.2 ≠ 0 && ¬ rosStatic e.2 && rosMask e.2 = 2 ^ p).length

/-- A new learned entry takes an empty place, which of them is free; none where the roster or the port's share is full
(R356). -/
def State.learnPartner (s : State) (p : Nat) (e : BitVec 128) : Option Nat × State :=
  let free := (upto 1024).filter fun i => rosKind (s.ros i) = 0
  if free.isEmpty || s.param 1361 / 65536 ≤ s.learned p then (none, s)
  else
    let (n, s1) := s.draw
    let i := free.getD (n % free.length) 0
    (some i, (s1.setRos i e).rosEvent 1 i p)

/-- Source lookup and learning at port p (R356, R357): a known source seen on a port that its entry does not name moves its
entry there; an unknown one is learned, or its port or the roster being full is counted once. A PLCA node of a segment under
PLCA is learned beside it. -/
def State.source (s : State) (p : Nat) (b : List Byte) (node : Option (BitVec 4)) : Option Nat × State :=
  let mac := bytesAt b 6 6
  let mayLearn := s.bit .NSW_PCTL p 14
  let (ix, s1) : Option Nat × State := match s.macEntry mac (vidOf b) with
    | some i =>
      let e := s.ros i
      if ¬ (rosMask e).testBit p then (some i, (s.setRos i (entPut e 10 4 (entFld e 10 4 / 2 ^ 25 * 2 ^ 25 + 2 ^ p))).rosEvent 3 i p)
      else (some i, s)
    | none =>
      if mayLearn then
        match s.learnPartner p (BitVec.ofNat 128 (leNat mac + (4096 + vidOf b) * 2 ^ 64 + 2 ^ p * 2 ^ 80 + 0x7FF * 2 ^ 112)) with
        | (some i, s') => (some i, s')
        | (none, s') => (none, s'.portTally p 24)
      else (none, s)
  match node with
  | some n =>
    let key := (p - 8) + n.toNat * 256
    if p < 8 ∨ 14 ≤ p ∨ ¬ mayLearn ∨ (s1.rosFind fun e => rosKind e = 2 && entFld e 0 2 = key).isSome then (ix, s1)
    else match s1.learnPartner p (BitVec.ofNat 128 (key + 8192 * 2 ^ 64 + 2 ^ p * 2 ^ 80 + (ix.getD 0x7FF) * 2 ^ 112)) with
      | (_, s') => (ix, s')
  | none => (ix, s1)

/-! ### Gates (R350) -/

/-- Gate control of a port. -/
def State.gateOf (s : State) (p : Nat) : Gate := Tab.get {} s.net.gates p

/-- The state with it replaced. -/
def State.setGate (s : State) (p : Nat) (g : Gate) : State := { s with net := { s.net with gates := Tab.set {} p g s.net.gates } }

/-- Entries in a list of a port. -/
def State.gateCount (s : State) (p : Nat) (list : Bool) : Nat := min 128 (entFld (s.portEnt p) (if list then 6 else 4) 2)

/-- Entry k of a list: gate states and interval in ns. -/
def State.gateEnt (s : State) (p : Nat) (list : Bool) (k : Nat) : Nat × Nat :=
  let w := (Tab.get (0 : W32) s.net.gateTab (256 * p + 128 * b2n list + k)).toNat
  (w % 256, w / 256)

/-- CS[7] is of kind 7 and LOCKED or COAST. -/
def State.gateTime (s : State) : Bool :=
  s.cKind 7 = 7 && ((s.course 7).state = .locked || (s.course 7).state = .coast)

/-- Gate states of a port: open without QBV, FALLBACK without time. A list without entries names no states: they are free. -/
def State.gates (s : State) (p : Nat) : Byte × State :=
  let e := s.portEnt p
  if 14 ≤ p ∨ entFld e 2 1 % 2 = 0 then (0xFF, s)
  else if ¬ s.gateTime then (BitVec.ofNat 8 (entFld e 3 1), s)
  else
    let g := s.gateOf p
    if s.gateCount p g.oper = 0 then let d := s.draw; (BitVec.ofNat 8 d.1, d.2)
    else (BitVec.ofNat 8 (s.gateEnt p g.oper g.entry).1, s)

/-- The time since CS[7]'s cycle start in ns. -/
def State.cycleTime (s : State) : Nat := (s.course 7).p % 2 ^ 40 * s.cycleNs 7 / 2 ^ 40

/-- From entry k, which starts at t: when class c's gate closes in this cycle of length cyc, if it does. -/
def State.closesAt (s : State) (p : Nat) (list : Bool) (c n cyc : Nat) : Nat → Nat → Nat → Option Nat
  | 0, _, _ => none
  | f + 1, k, t =>
    if n ≤ k ∨ cyc ≤ t then none
    else if ¬ (s.gateEnt p list k).1.testBit c then some t
    else s.closesAt p list c n cyc f (k + 1) (t + (s.gateEnt p list k).2)

/-- The ns for which class c's open gate stays open; none without limit in this cycle. Log entry 59. -/
def State.openFor (s : State) (p c : Nat) : Option Nat :=
  let g := s.gateOf p
  if 14 ≤ p ∨ entFld (s.portEnt p) 2 1 % 2 = 0 ∨ ¬ s.gateTime then none
  else
    let start := (upto g.entry).foldl (fun t k => t + (s.gateEnt p g.oper k).2) 0
    (s.closesAt p g.oper c (s.gateCount p g.oper) (s.cycleNs 7) 128 g.entry start).map fun t => t - s.cycleTime

/-! ### Queues (R334 to R336) and shapers (R351) -/

/-- The frame of an identity. -/
def State.swFrame (s : State) (id : Nat) : Option SwFrame := s.net.store.find? fun f => f.id = id

/-- The identities in queue q. -/
def State.swQueue (s : State) (q : Nat) : List Nat := Tab.get [] s.net.queues q

/-- The state with queue q replaced. -/
def State.setSwQueue (s : State) (q : Nat) (l : List Nat) : State :=
  { s with net := { s.net with queues := Tab.set [] q l s.net.queues } }

/-- Cells of the frames of a queue (OCC). -/
def State.occ (s : State) (q : Nat) : Nat :=
  (s.swQueue q).foldl (fun n id => n + (match s.swFrame id with
    | some f => cellsOf f.bytes
    | none => 0)) 0

/-- Q_MIN and Q_MAX of a queue. -/
def State.qMin (s : State) (q : Nat) : Nat := entFld (Tab.get 0 s.net.qTab q) 0 4
/-- See qMin. -/
def State.qMax (s : State) (q : Nat) : Nat := entFld (Tab.get 0 s.net.qTab q) 4 4

/-- Cells in the pool: the SWITCH carve-out in cells of 256 bytes. -/
def State.poolCells (s : State) : Nat := (s.carves.filter fun c => c.kind = 1).foldl (fun n c => n + c.count * 1024) 0

/-- Free cells. -/
def State.freeCells (s : State) : Nat := s.poolCells - s.net.store.foldl (fun n f => n + cellsOf f.bytes) 0

/-- The shared free count of R335. The frame to be admitted lies in the buffer already (R332). Log entry 91. -/
def State.sharedFree (s : State) : Int :=
  (s.freeCells : Int) - (upto 200).foldl (fun n q => n + (s.qMin q - s.occ q)) 0

/-- IDLESLOPE of a queue that is shaped (R351), in kbit/s. -/
def State.idleSlope (s : State) (q : Nat) : Nat :=
  if q / 8 < 14 ∧ (q % 8 = 5 ∨ q % 8 = 6) then entFld (Tab.get 0 s.net.qTab q) 12 4 else 0

/-- The credits of a port's shaped classes are brought up to the present tick: while its gate is open a class gains
IDLESLOPE; without frames its credit rises to 0 only, and a positive one is lost. Every tick does this first, so that no change
of a gate goes unseen. Log entry 60. -/
def State.accrue (s : State) (p : Nat) : State :=
  let (g, s0) := if s.idleSlope (8 * p + 5) = 0 ∧ s.idleSlope (8 * p + 6) = 0 then (0, s) else s.gates p
  [5, 6].foldl (fun s c =>
    let q := 8 * p + c
    if s.idleSlope q = 0 then s
    else
      let x := Tab.get ({} : Credit) s.net.credits q
      let up : Int := x.bits + (s.idleSlope q * (s.ticks - x.since) : Nat)
      let bits : Int := if ¬ g.getLsbD c then x.bits else if (s.swQueue q).isEmpty ∧ 0 < up then 0 else up
      { s with net := { s.net with credits := Tab.set {} q { bits, since := s.ticks } s.net.credits } }) s0

/-- The credits of ports 0 to 13 (R351). -/
def State.accruePorts (s : State) : State := (upto 14).foldl (fun s p => s.accrue p) s

/-- A frame that no queue holds leaves the buffer. -/
def State.freeFrame (s : State) (id : Nat) : State :=
  if s.net.queues.any (fun e => e.2.contains id) then s
  else { s with net := { s.net with store := s.net.store.filter fun f => f.id ≠ id } }

/-- Admission of frame id of c cells to port p (R335). -/
def State.admitPort (s : State) (id c cls p : Nat) : State :=
  if s.portAct p ≠ 2 then s.dropTally p 18
  else
    let q := 8 * p + cls
    let s1 := s.accrue p
    let o := s1.occ q
    if o + c ≤ s1.qMin q ∨ (o + c ≤ s1.qMax q ∧ (c : Int) ≤ s1.sharedFree) then s1.setSwQueue q (s1.swQueue q ++ [id])
    else s1.dropTally p (10 + cls)

/-- A frame enters the buffer and is admitted to a queue of each port named (R334, R335). -/
def State.enterQueues (s : State) (f : SwFrame) (ports : List Nat) : State :=
  let c := cellsOf f.bytes
  if s.freeCells < c then s.dropTally f.port 5
  else
    let id := s.net.nextId
    let s1 := { s with net := { s.net with store := s.net.store ++ [{ f with id }], nextId := id + 1 } }
    (ports.foldl (fun s p => s.admitPort id c f.cls p) s1).freeFrame id

/-- The queues of a port are emptied, each frame counted in DOWN_DROP (R359). -/
def State.flushPort (s : State) (p : Nat) : State :=
  (upto 8).foldl (fun s k =>
    let ids := s.swQueue (8 * p + k)
    ids.foldl (fun s id => (s.dropTally p 18).freeFrame id) (s.setSwQueue (8 * p + k) [])) s

/-! ### Filters, meters and FRER (R352, R353) -/

/-- The lowest enabled filter that matches destination, PCP and ingress port. -/
def State.filterOf (s : State) (dest : Option Nat) (pcp port : Nat) : Option (Nat × BitVec 128) :=
  match dest with
  | none => none
  | some d => s.net.filtTab.find? fun e =>
      entFld e.2 0 2 / 32768 = 1 && entFld e.2 0 2 % 1024 = d && (entFld e.2 2 1 / 128 = 1 || entFld e.2 2 1 % 32 = port) &&
      (entFld e.2 3 1 / 8 % 2 = 1 || entFld e.2 3 1 % 8 = pcp)

/-- One byte of tokens. -/
def tokenByte : Nat := 6400000

/-- A frame of n bytes at meter m: 0 green, 1 yellow, 2 red (two-rate three-colour, colour-blind, with coupling). The
elapsed time is that of the F-die ticks. Log entry 60. -/
def State.metered (s : State) (m n : Nat) : Nat × State :=
  let e := Tab.get 0 s.net.meterTab m
  let x := Tab.get ({} : Meter) s.net.meters m
  if entFld e 12 1 / 8 % 2 = 1 then (2, s)
  else
    let dt := s.ticks - x.since
    let gain := entFld e 0 4 * dt
    let spill := if entFld e 12 1 % 2 = 1 then gain - x.usedC else 0
    let c := x.usedC - gain
    let y := x.usedE - (entFld e 4 4 * dt + spill)
    let need := n * tokenByte
    let put (s : State) (c y : Nat) : State :=
      { s with net := { s.net with meters := Tab.set {} m { usedC := c, usedE := y, since := s.ticks } s.net.meters } }
    if c + need ≤ entFld e 8 2 * 64 * tokenByte then (0, put s (c + need) y)
    else if y + need ≤ entFld e 10 2 * 64 * tokenByte then (1, put s c (y + need))
    else
      let s1 := put s c y
      if entFld e 12 1 / 4 % 2 = 1 then
        (2, { s1 with net := { s1.net with meterTab := Tab.set 0 m (entPut e 12 1 (entFld e 12 1 ||| 8)) s1.net.meterTab } })
      else (2, s1)

/-- Counter k of filter f. -/
def State.filtTally (s : State) (f k : Nat) : State := s.tally (800 + 4 * f + k)

/-- Stream filtering and metering (R352): the filter that applies, or none where the frame is dropped. -/
def State.police (s : State) (dest : Option Nat) (f : SwFrame) : Option (Option (Nat × BitVec 128)) × State :=
  match s.filterOf dest (pcpOf f.bytes) f.port with
  | none => (some none, s)
  | some (i, e) =>
    let s1 := s.filtTally i 0
    let n := frameLen f.bytes
    if entFld e 4 2 ≠ 0 ∧ entFld e 4 2 < n then (none, (s1.filtTally i 2).dropTally f.port 6)
    else
      let m := entFld e 6 2 % 512
      let (col, s2) := if m < 256 then s1.metered m n else (0, s1)
      if col = 2 then (none, (s2.filtTally i 3).dropTally f.port 6)
      else if col = 1 ∧ entFld (Tab.get 0 s.net.meterTab m) 12 1 / 2 % 2 = 1 then (none, s2.dropTally f.port 6)
      else (some (some (i, e)), s2.filtTally i 1)

/-- A FRER function's state. -/
def State.frer (s : State) (g : Nat) : Frer := Tab.get {} s.net.frers g
/-- The state with it replaced. -/
def State.setFrer (s : State) (g : Nat) (x : Frer) : State := { s with net := { s.net with frers := Tab.set {} g x s.net.frers } }

/-- Counter k of FRER function g. -/
def State.frerTally (s : State) (g k : Nat) (n : Nat := 1) : State := s.tally (2848 + 4 * g + k) n

/-- The bytes with an R-TAG of sequence number q after the addresses and the VLAN tag. -/
def withRtag (b : List Byte) (q : Word) : List Byte :=
  b.take (tagEnd b) ++ beBytes 2 0xF1C1 ++ [0, 0] ++ beBytes 2 q.toNat ++ b.drop (tagEnd b)

/-- The vector recovery algorithm of IEEE 802.1CB with history length h: whether the frame passes. -/
def State.recover (s : State) (g h : Nat) (q : Word) : Bool × State :=
  let x := s.frer g
  if ¬ x.started then (true, (s.setFrer g { seq := q, started := true, hist := true :: List.replicate (h - 1) false }).frerTally g 0)
  else
    let d : Int := signed 16 (q - x.seq).toNat
    if (h : Int) ≤ d.natAbs then (false, s.frerTally g 1)
    else if d ≤ 0 then
      let k := d.natAbs
      if x.hist.getD k false then (false, s.frerTally g 1)
      else (true, ((s.setFrer g { x with hist := x.hist.set k true }).frerTally g 0).frerTally g 2)
    else
      let k := d.toNat
      let shifted := List.replicate k false ++ x.hist
      let lost := ((shifted.drop h).filter fun b => !b).length
      let s1 := (s.setFrer g { x with seq := q, hist := true :: (shifted.take h).drop 1 }).frerTally g 0
      (true, ((if d = 1 then s1 else s1.frerTally g 2)).frerTally g 3 lost)

/-- Sequence generation or recovery as the filter asks (R353): the frame, or none where it is discarded. -/
def State.sequence (s : State) (filt : Option (Nat × BitVec 128)) (f : SwFrame) : Option SwFrame × State :=
  match filt with
  | none => (some f, s)
  | some (_, e) =>
    let w := entFld e 8 2
    let g := w % 128
    let fe := Tab.get 0 s.net.frerTab g
    if w < 32768 ∨ entFld fe 0 1 % 2 = 0 ∨ entFld fe 0 1 / 2 % 2 ≠ w / 128 % 2 then (some f, s)
    else if entFld fe 0 1 / 2 % 2 = 0 then
      let x := s.frer g
      (some { f with bytes := withRtag f.bytes x.seq }, (s.setFrer g { x with seq := x.seq + 1 }).frerTally g 0)
    else if etherType f.bytes ≠ 0xF1C1 then (none, s.frerTally g 1)
    else
      let k := tagEnd f.bytes
      match s.recover g (entFld fe 1 1) (BitVec.ofNat 16 (beNat (bytesAt f.bytes (k + 4) 2))) with
      | (true, s1) => (some { f with bytes := f.bytes.take k ++ f.bytes.drop (k + 6) }, s1)
      | (false, s1) => (none, s1)

/-! ### Forwarding (R333) -/

/-- The internal port that copies of frames from port p go to (R355, R357): IF for ports 8 to 21, else IC. -/
def copyPort (p : Nat) : Nat := if 8 ≤ p ∧ p < 22 then 23 else 22

/-- A CAN frame has a format that the channel's mode allows (R347): classical, FD, XL. -/
def State.canFits (s : State) (ch : Nat) (m : CanFrame) : Bool :=
  match m.fmt with
  | .classical => true
  | .fd => 1 ≤ s.fld .CN_CFG ch 14 13
  | .xl => 2 ≤ s.fld .CN_CFG ch 14 13

/-- One message of an AVTP frame paired with range entry r: it goes to the entry's channel, or is discarded (R348). -/
def State.toCan1 (s : State) (f : SwFrame) (r : BitVec 128) (m : Option CanFrame) : State :=
  let p := rosPort r
  match m with
  | none => s.dropTally f.port 25
  | some m =>
    if entFld r 0 4 % 2 ^ 29 ≤ m.ident.toNat ∧ m.ident.toNat ≤ entFld r 4 4 % 2 ^ 29 ∧ 14 ≤ p ∧ p < 22 ∧ s.canFits (p - 14) m = true then
      s.enterQueues { f with bytes := m.data, can := some m } [p]
    else s.dropTally f.port 25

/-- CAN messages of an AVTP frame whose source is paired with a CAN range (R348). -/
def State.toCan (s : State) (f : SwFrame) : State :=
  match f.src with
  | none => s
  | some i =>
    let l := rosLink (s.ros i)
    let r := s.ros l
    if l = 0x7FF ∨ rosKind r ≠ 3 ∨ etherType f.bytes ≠ 0x22F0 then s
    else (acfMessages (s.fld .CN_XLTYPE 0 6 0) (f.bytes.drop (tagEnd f.bytes + 2))).foldl (fun s m => s.toCan1 f r m) s

/-- The egress ports of a frame (R355, R357): those of its destination's entry that take part in forwarding, with the copy that
its ACTION asks for; without an entry the flood, or IC alone. -/
def State.egress (s : State) (f : SwFrame) (dest : Option Nat) : List Nat :=
  let fwd := (upto 25).filter fun p => s.bit .NSW_PCTL p 15
  match dest with
  | some d =>
    let e := s.ros d
    if rosAction e = 2 then []
    else
      let l := fwd.filter fun p => (rosMask e).testBit p
      if rosAction e = 1 ∧ ¬ l.contains (copyPort f.port) then l ++ [copyPort f.port] else l
  | none => if (f.bytes.getD 0 0).toNat % 2 ≠ 1 ∧ s.bit .NSW_CTRL 0 15 then [22] else fwd.filter fun p => p ≠ f.port

/-- Steps 3 to 6 of R333 for a frame in the buffer: filter and meter, destination, sequence, admission, the messages for CAN
among it. `only` is the port that the unknown-partner policy leaves a frame, if it leaves one (R357). -/
def State.forward (s : State) (f : SwFrame) (only : Option Nat := none) : State :=
  let dest := s.macEntry (f.bytes.take 6) (vidOf f.bytes)
  match s.police dest f with
  | (none, s1) => s1
  | (some filt, s1) =>
    let cls := match filt with
      | some (_, e) => if entFld e 10 1 / 8 % 2 = 1 then entFld e 10 1 % 8 else f.cls
      | none => f.cls
    let f1 : SwFrame := { f with cls, filt := match filt with
      | some (i, _) => i
      | none => 0x3FF }
    let ports := match only with
      | some p => [p]
      | none => s1.egress f dest
    match s1.sequence filt f1 with
    | (none, s2) => s2
    | (some f2, s2) =>
      let s3 := s2.toCan (if etherType f2.bytes = 0xF1C1 then f1 else f2)
      if ports.isEmpty then s3 else s3.enterQueues f2 ports

/-- A valid frame at port p (R333): it must find its cells before it is looked up (R332, R335); then source, unknown-partner
policy (R357), forwarding. -/
def State.ingress (s : State) (p : Nat) (b : List Byte) (stamp : W64) (node : Option (BitVec 4)) (slot : Option (Master × Nat)) : State :=
  if s.freeCells < cellsOf b then s.dropTally p 5
  else
    let (src, s1) := s.source p b node
    let f : SwFrame := { bytes := b, port := p, cls := pcpOf b, stamp, src, slot }
    match src with
    | some _ => s1.forward f
    | none => match s1.fld .NSW_PCTL p 13 12 with
      | 0 => s1.forward f
      | 1 => s1.forward f (some (copyPort p))
      | 2 => s1
      | _ => s1.dropTally p 4

/-! ### MACsec (R354) -/

/-- SA k of a port. -/
def State.sa (s : State) (p k : Nat) : Sa := saOf ((upto 5).map fun i => Tab.get 0 s.net.secTab (8 * (16 * p + k) + i))

/-- MACsec is on: MT_CFG.MACSEC, and on a backbone port an SA with EN 1. Log entry 61. -/
def State.macsecOn (s : State) (p : Nat) : Bool :=
  if p < 4 then (upto 10).any fun k => (s.sa p k).en
  else if p < 8 then s.bit .MT_CFG (p - 4) 11
  else false

/-- Frames that pass unprotected. -/
def unprotected (b : List Byte) : Bool := etherType b = 0x888E || etherType b = 0x88F7

/-- The PN word of an SA set. -/
def State.setPn (s : State) (p k n : Nat) : State :=
  let key := 8 * (16 * p + k) + 1
  { s with net := { s.net with secTab := Tab.set 0 key (entPut (Tab.get 0 s.net.secTab key) 0 8 n) s.net.secTab } }

/-- Validation of a received frame: the first receive SA with EN 1 that opens it, its packet number not below the lowest
acceptable one, which then rises to stay the window behind. -/
def State.macsecIn (s : State) (p : Nat) (b : List Byte) : Option (List Byte) × State :=
  if ¬ s.macsecOn p ∨ unprotected b = true then (some b, s)
  else
    match (upto 8).findSome? fun j =>
      if (s.sa p (j + 2)).en then ((s.sa p (j + 2)).unprotect b).map fun r => (j + 2, r) else none with
    | none => (none, s.dropTally p 21)
    | some (k, pn, clear) =>
      let a := s.sa p k
      if pn < a.pn then (none, s.dropTally p 21)
      else (some clear, s.setPn p k (max a.pn (pn + 1 - a.window)))

/-- The transmit SA in use: EN and ACTIVE, its packet numbers not used up. -/
def State.txSa (s : State) (p : Nat) : Option Nat :=
  (upto 2).find? fun k => (s.sa p k).en && (s.sa p k).active && (s.sa p k).pn < 2 ^ (if (s.sa p k).xpn then 64 else 32)

/-- The bytes of a frame on the wire of a port, without its FCS. -/
def State.wireLen (s : State) (p : Nat) (b : List Byte) : Nat :=
  b.length + (if s.macsecOn p && !unprotected b && (s.txSa p).isSome then secLen else 0)

/-- Protection of a frame to be sent, under the transmit SA with ACTIVE 1. Without one, whether the frame leaves in clear
is free. -/
def State.macsecOut (s : State) (p : Nat) (b : List Byte) : Option (List Byte) × State :=
  if ¬ s.macsecOn p ∨ unprotected b = true then (some b, s)
  else match s.txSa p with
    | some k => (some ((s.sa p k).protect (s.sa p k).pn b), s.setPn p k ((s.sa p k).pn + 1))
    | none =>
      let (clear, s1) := s.drawBit
      (if clear then some b else none, s1)

/-! ### Rings of the internal ports (R361) -/

/-- A ring: registers' index, base address, slots, the master that moves its words. -/
structure RingGeo where
  cfg : Word
  base : Nat
  slots : Nat
  m : Master
  deriving DecidableEq, Repr

/-- Ring r of NSW: IC receive, IC transmit, IV receive, IV transmit. -/
def State.nswRing (s : State) (r : Nat) : RingGeo :=
  let c := s.reg .NSW_RING_CFG r
  { cfg := c, base := (s.reg .NSW_RING_BASE r).toNat * 2 ^ 20, slots := 2 ^ min 8 (wfld c 3 0), m := ⟨.c, 32⟩ }

/-- Ring r of FNET: IF receive, IF transmit. -/
def State.fnetRing (s : State) (r : Nat) : RingGeo :=
  let c := s.reg .FNET_RING_CFG r
  { cfg := c, base := 0x8000000 + s.fld .FNET_RING_BASE r 5 0 * 131072, slots := 2 ^ min 5 (wfld c 3 0), m := ⟨.f, 11⟩ }

/-- The receive ring of an internal port: its geometry with WR and RD. -/
def State.rxRing (s : State) (p : Nat) : RingGeo × Nat × Nat :=
  if p = 23 then (s.fnetRing 0, s.fld .FNET_RING_WR 0 4 0, s.fld .FNET_RING_RD 0 4 0)
  else
    let r := if p = 22 then 0 else 2
    (s.nswRing r, s.fld .NSW_RING_WR r 7 0, s.fld .NSW_RING_RD r 7 0)

/-- The ring is enabled and has a free slot. -/
def State.rxFree (s : State) (p : Nat) : Bool :=
  let (g, wr, rd) := s.rxRing p
  wbit g.cfg 15 && nextSlot g.slots wr ≠ rd % g.slots

/-- Bytes stored from an address. -/
def State.dmaWrite (s : State) (m : Master) (a : Nat) (l : List Byte) : State := (s.writeMem m a l).2

/-- A frame is written to the receive ring of port p: word 0 first as 0, VALID last; WR advances, the ring's interrupt is
raised (R361), and on ring IV the brick of the slot is submitted (R362). -/
def State.ringPut (s : State) (p : Nat) (f : SwFrame) : State :=
  let (g, wr, _) := s.rxRing p
  let a := g.base + 4096 * (wr % g.slots)
  let w0 := f.port * 256 + f.cls
  let head := leBytes 2 f.bytes.length ++ leBytes 8 f.stamp.toNat ++
    leBytes 2 (match f.src with
      | some i => 32768 + i
      | none => 0) ++ leBytes 2 f.filt
  let s1 := ((s.dmaWrite g.m a ([0, 0] ++ head)).dmaWrite g.m (a + 16) f.bytes).dmaWrite g.m a (leBytes 2 (32768 + w0))
  let nx := BitVec.ofNat 16 (nextSlot g.slots wr)
  let s2 : State := if p = 23 then (s1.setReg .FNET_RING_WR 0 nx).fnetInt 2
    else (s1.setReg .NSW_RING_WR (if p = 22 then 0 else 2) nx).netInt 1
  let s3 := if wbit g.cfg 14 then s2.raise (wfld g.cfg 13 10) 8 else s2
  if p = 24 ∧ s.bit .NSW_IV_BQ 0 15 then
    s3.jointSubmit (s.fld .NSW_IV_BQ 0 3 0) (s.fld .NSW_IV_BQ 0 11 8 * 65536 + (s.reg .NSW_IV_LINE 0).toNat + wr % g.slots)
  else s3

/-- While the C-die is not at compute-ready, a received frame goes to the IF receive ring, or is dropped (R360). -/
def State.toIf (s : State) (f : SwFrame) : State := if s.rxFree 23 then s.ringPut 23 f else s.dropTally 23 18

end Sys2Proof.Machine
end

