-- ==== Sys2Proof/WellFormed.lean ====
section
/-! DEFINITION. The checks a command's operands must meet for the command to be one the device can see. Nothing stops on
them: a command that fails them runs like any other, and what it names that does not exist changes nothing (log entry 6).
Operand types that allow only legal values need no check. -/

namespace Sys2Proof

/-- The masters of the two crossbars: C 0 to 37, F 0 to 13 (02_tiles.md, masters). -/
def Master.wf (m : Master) : Bool :=
  match m.die with
  | .c => m.num < 38
  | .f => m.num < 14

/-- Working tiles: 256 on the C-die, 64 on the F-die (R50, R51). -/
def tileWf (d : Die) (t : Nat) : Bool :=
  match d with
  | .c => t < 256
  | .f => t < 64

/-- A beat at a tile port of a die: its master exists there (R65). -/
def Beat.wf (d : Die) (b : Beat) : Bool := (Master.mk d b.master).wf

/-- A table that asks for one reading of each of the 24 sensors of KZ[0..5] (R152). -/
def tempsWf (l : List (Option Word)) : Bool := l.length = 24

/-- An Ethernet frame a port hands on holds at least its two addresses and an EtherType (R332). -/
def RxFrame.wf (f : RxFrame) : Bool := 14 ≤ f.bytes.length

/-- The well-formedness of a command. -/
def Instr.wf : Instr → Bool
  | .netbootBlock _ data => data.length ≤ 1024
  | .cpgRise _ temps => tempsWf temps
  | .splitLoRead m _ | .splitHiRead m _ | .splitLoWrite m _ _ | .splitHiWrite m _ _ | .rcRead m _ _ => m.wf
  | .registerWrite m _ bits _ _ => m.wf && (bits = 8 || bits = 16 || bits = 32 || bits = 64)
  | .tileBeat d t beats _ => tileWf d t && beats.all (Beat.wf d) && (beats.map (·.master)).Nodup
  | .eccWriteback d t | .scrubRead d t _ | .tilePowerRequest d t _ | .tilePowerDone d t | .tileIdleExpiry d t _ =>
    tileWf d t
  | .brickSuspend _ _ _ metered | .brickEnd _ _ metered => metered.length ≤ 5
  | .kilnRefill temps drawn => tempsWf temps && drawn.length = 6
  | .adcConversionDone _ uv => uv < 5000000
  | .frameReceive _ f => f.wf
  | .canFrameReceive _ f => f.data.length ≤ 2048 && f.xlHead.length ≤ 8
  | .wearMeasurement slacks rosc => slacks.length = 6 && rosc.length = 6
  | _ => true

end Sys2Proof
end

