-- ==== Sys2Proof/Machine/Tiles.lean ====
section
/-! DEFINITION. The tile and crossbar commands (02_tiles.md): arbitration of a tile port, write-back, scrubbing, power
states of a tile, conflict counters. -/

namespace Sys2Proof.Machine

open Sys2Proof

/-- The group of a tile on its die (R50, R51). -/
def tileGroup (t : Nat) : Nat := t / 16

/-- The 4-bit priority of a master at a tile group (R65, R75). -/
def State.priority (s : State) (d : Die) (m g : Nat) : Nat :=
  match d with
  | .c => wfld (s.reg .XBAR_PRI (5 * m + g / 4)) (4 * (g % 4) + 3) (4 * (g % 4))
  | .f => wfld (s.reg .FXBAR_PRI (3 * m + g / 4)) (4 * (g % 4) + 3) (4 * (g % 4))

/-- The wait after which a master's beats are boosted (R65): 0 means 4,096 cycles. -/
def State.ageWait (s : State) (d : Die) (m : Nat) : Nat :=
  let w := match d with
    | .c => s.fld .XBAR_AGE m 11 0
    | .f => s.fld .FXBAR_AGE m 11 0
  if w = 0 then 4096 else w

/-- The beats of a list at which f is largest. -/
def maxima (f : Beat → Nat) (l : List Beat) : List Beat :=
  let m := l.foldl (fun m b => max m (f b)) 0
  l.filter (fun b => f b = m)

/-- Rules 3 and 4 of R65: highest priority, then round robin upwards from the pointer. -/
def State.byPriority (s : State) (d : Die) (g rr : Nat) (l : List Beat) : Option Beat :=
  let top := maxima (fun b => s.priority d b.master g) l
  let n := masters d
  (maxima (fun b => n - (b.master + n - rr) % n) top).head?

/-- R65: the beat that is granted among those that wait at a tile port. -/
def State.grant (s : State) (d : Die) (t : Nat) (l : List Beat) : Option Beat :=
  let g := tileGroup t
  let rr := (s.tile d t).rr
  let rt := if d = .c ∧ s.rtMask.testBit g then l.filter (fun b => b.rt && b.stream) else []
  let aged := l.filter (fun b => s.ageWait d b.master < b.waited)
  if rt ≠ [] then s.byPriority d g rr (maxima (·.waited) rt)
  else if aged ≠ [] then s.byPriority d g rr (maxima (·.waited) aged)
  else s.byPriority d g rr l

/-- The key of a conflict counter in State.ccnt (R66). -/
def ccntKey (d : Die) (m g : Nat) : Nat :=
  match d with
  | .c => m * 16 + g
  | .f => 1024 + m * 4 + g

/-- XBAR_CCTL or FXBAR_CCTL. -/
def cctl : Die → RegKind
  | .c => .XBAR_CCTL
  | .f => .FXBAR_CCTL

/-- R66: a master's counter for a group increases, saturating, unless FREEZE is 1; once in a cycle, whatever the number of
its beats that wait in the group. -/
def State.conflict (s : State) (d : Die) (g : Nat) (b : Beat) : State :=
  if s.bit (cctl d) 0 1 ∨ b.counted then s
  else
    let f := fun c : W32 => if c = 0xFFFFFFFF then c else c + 1
    { s with ccnt := Tab.upd 0 (ccntKey d b.master g) f s.ccnt }

/-- The working tile and offset an address names on a die, if it lies in that die's tile region. -/
def State.tileOf (s : State) (d : Die) (a : Nat) : Option (Nat × Nat) :=
  match d, s.target d a with
  | .c, .ctile t off => some (t, off)
  | .f, .ftile t off => some (t, off)
  | _, _ => none

/-- The answer of an access, as the master sees it (R70). -/
def State.answer (s : State) (r : Answer W64) : State :=
  match r with
  | .ok v => { s with resp := { ok := true, data := v, cause := 0 } }
  | .error c => { s with resp := { ok := false, data := 0, cause := c } }

/-- At most one beat of a master at a tile (R52): the first. -/
def oneEach (l : List Beat) : List Beat :=
  l.foldl (fun acc b => if acc.any (fun x => x.master = b.master) then acc else acc ++ [b]) []

/-- The beats for a tile that pass their windows, carve-outs and the tile's request; each other receives its error
response. -/
def State.readyBeats (s : State) (d : Die) (t : Nat) : List Beat → List Beat × State
  | [] => ([], s)
  | b :: bs =>
    match s.tileOf d b.addr.toNat with
    | some (t', _) =>
      if t' ≠ t then s.readyBeats d t bs
      else match s.path ⟨d, b.master⟩ b.addr.toNat b.wr.isSome b.stream with
        | (.error c, s1) => (s1.answer (.error c)).readyBeats d t bs
        | (.ok _, s1) => let r := s1.readyBeats d t bs; (b :: r.1, r.2)
    | none => s.readyBeats d t bs

/-- The bytes of a masked write: enabled bytes of the data, the others as before. -/
def mergeBytes (old : List Byte) (v : W64) (be : Byte) : List Byte :=
  (upto 8).map fun i => if be.getLsbD i then BitVec.ofNat 8 (v.toNat / 256 ^ i) else old.getD i 0

/-- A granted beat reads or writes its word (R55 to R57). -/
def State.serve (s : State) (d : Die) (t : Nat) (b : Beat) (upset : Ecc) : State :=
  let off := match s.tileOf d b.addr.toNat with
    | some (_, o) => o / 8 * 8
    | none => 0
  let s1 := if upset ≠ .clean ∧ s.eccAt d t off ≠ .double then s.setEcc d t off upset else s
  let r : Answer W64 × State := match b.wr with
    | none => match s1.readWord d t off 8 with
      | (.ok bs, s2) => (.ok (BitVec.ofNat 64 (leNat bs)), s2)
      | (.error c, s2) => (.error c, s2)
    | some (v, be) =>
      let old := readBytes 0 (s1.tileMem d) (s1.tileAddr d t off) 8
      match s1.writeWord d t off (mergeBytes old v be) (be = 0xFF) with
      | (.ok _, s2) => (.ok 0, s2)
      | (.error c, s2) => (.error c, s2)
  match r with
  | (.ok v, s2) => s2.answer (.ok v)
  | (.error c, s2) => (s2.logError ⟨d, b.master⟩ c.toNat b.wr.isSome b.addr.toNat).answer (.error c)

/-- The ready beats wait for a tile that is not ON; one in SLEEP begins to wake (R59). -/
def State.portAsleep (s : State) (d : Die) (t : Nat) (ready : List Beat) : State :=
  let s1 := ready.foldl (fun s b => s.conflict d (tileGroup t) b) s
  if (s1.tile d t).trans.isNone ∧ wfld (s.reg (pwrReg d) t) 9 8 = 1 then
    (s1.setTile d t { s1.tile d t with trans := some 0 }).setBit (pwrReg d) t 15 true
  else s1

/-- One ready beat is served, the others conflict; a write narrower than a word holds the port for the next cycle too
(R55). -/
def State.portServe (s : State) (d : Die) (t : Nat) (ready : List Beat) (b : Beat) (upset : Ecc) : State :=
  let s1 := (ready.filter (fun x => x ≠ b)).foldl (fun s b => s.conflict d (tileGroup t) b) s
  let s2 := (s1.moveRr d t b.master).serve d t b upset
  match b.wr with
  | some (_, be) => if be = 0xFF then s2 else s2.setTile d t { s2.tile d t with busy := true }
  | none => s2

/-- The second cycle of a narrow write: no beat is granted, and every ready beat waits (R55, R66). -/
def State.portBusy (s : State) (d : Die) (t : Nat) (ready : List Beat) : State :=
  let s1 := ready.foldl (fun s b => s.conflict d (tileGroup t) b) s
  s1.setTile d t { s1.tile d t with busy := false }

/-- The cycle of a tile port (R52, R55, R59, R65, R66). Commands for one tile are its consecutive cycles (log entry 86). -/
def State.portCycle (s : State) (d : Die) (t : Nat) (beats : List Beat) (upset : Ecc) : State :=
  let (ready, s1) := s.readyBeats d t (oneEach beats)
  if (s1.tile d t).busy then s1.portBusy d t ready
  else if ready = [] then s1
  else if wfld (s1.reg (pwrReg d) t) 9 8 ≠ 0 ∨ (s1.tile d t).trans.isSome then s1.portAsleep d t ready
  else match s1.grant d t ready with
    | none => s1
    | some b => s1.portServe d t ready b upset

/-- TILE_BEAT (R65). -/
def execTileBeat (d : Die) (t : Nat) (beats : List Beat) (upset : Ecc) (s : State) : Host.Outcome State Fault Refusal :=
  .next (if tileWf d t then s.portCycle d t beats upset else s)

/-- ECC_WRITEBACK (R56): in a cycle in which the port has no granted beat the oldest corrected word is written back with
valid check bits. -/
def execEccWriteback (d : Die) (t : Nat) (s : State) : Host.Outcome State Fault Refusal :=
  let x := s.tile d t
  .next (match x.writeback with
    | [] => s
    | w :: rest =>
      let s1 := s.setTile d t { x with writeback := rest }
      if s1.eccAt d t (8 * w) = .single then s1.setEcc d t (8 * w) .clean else s1)

/-- What the scrubber finds in one word of the line it reads (R58): errors are counted, no response is given and the log
is not written. -/
def State.scrubWord (s : State) (d : Die) (t off : Nat) : State :=
  match s.eccAt d t off with
  | .clean => s
  | .single =>
    let s1 := s.countCe d t
    s1.setTile d t ((s1.tile d t).corrected (off / 8))
  | .double => s.countUe d t

/-- SCRUB_READ (R58): a tile that is ON reads its next line while SCRUB_EN is 1; `upset` is what the check bits of the
line's first word show beyond what is held. -/
def execScrubRead (d : Die) (t : Nat) (upset : Ecc) (s : State) : Host.Outcome State Fault Refusal :=
  let p := s.reg (pwrReg d) t
  if tileWf d t ∧ s.bit (tileCtrl d) 0 15 ∧ wfld p 9 8 = 0 ∧ (s.tile d t).trans.isNone then
    let line := (s.tile d t).scrub
    let s1 := if upset ≠ .clean ∧ s.eccAt d t (line * 64) ≠ .double then s.setEcc d t (line * 64) upset else s
    let s2 := (upto 8).foldl (fun s i => s.scrubWord d t (line * 64 + 8 * i)) s1
    .next (s2.setTile d t { s2.tile d t with scrub := (line + 1) % (tileBytes d / 64) })
  else .next s

/-- TILE_POWER_REQUEST (R60): a write of TILE_PWR or FTILE_PWR records the request, and the transition it asks for starts
unless one is in progress. A migration that waits for REQ (R381) goes on by MIGRATION_START. -/
def State.tilePower (s : State) (d : Die) (t : Nat) (v : Word) : State :=
  (s.setFld (pwrReg d) t 1 0 (wfld v 1 0)).startTile d t

/-- TILE_POWER_REQUEST (R60). -/
def execTilePowerRequest (d : Die) (t : Nat) (v : Word) (s : State) : Host.Outcome State Fault Refusal :=
  .next (if tileWf d t then s.tilePower d t v else s)

/-- TILE_POWER_DONE (R60). -/
def execTilePowerDone (d : Die) (t : Nat) (s : State) : Host.Outcome State Fault Refusal :=
  .next (if tileWf d t then s.endTile d t else s)

/-- The kiln zone that covers a tile (R59). -/
def tileZone (d : Die) (t : Nat) : Nat :=
  match d with
  | .c => t / 64
  | .f => 5

/-- The idle threshold in force, in crossbar cycles (R59, R170); none where IDLE is 0. -/
def State.idleLimit (s : State) (d : Die) (t : Nat) : Option Nat :=
  let n := s.fld (tileCtrl d) 0 11 0
  if n = 0 then none
  else some (n * (if 2 ≤ (Tab.get ({} : Zone) s.zones (tileZone d t)).region then 16 else 64))

/-- TILE_IDLE_EXPIRY (R59): an AUTO tile that is ON and has been idle for the threshold moves to RET; tiles of the groups
reserved under R64 never do. -/
def execTileIdleExpiry (d : Die) (t : Nat) (idle : Nat) (s : State) : Host.Outcome State Fault Refusal :=
  let p := s.reg (pwrReg d) t
  let reserved := d = .c ∧ s.rtMask.testBit (tileGroup t) = true
  .next (match s.idleLimit d t with
    | none => s
    | some l =>
      if tileWf d t ∧ wfld p 1 0 = 3 ∧ wfld p 9 8 = 0 ∧ (s.tile d t).trans.isNone ∧ l ≤ idle ∧ ¬ reserved then
        (s.setTile d t { s.tile d t with trans := some 1 }).setBit (pwrReg d) t 15 true
      else s)

/-- A write of XBAR_CCTL or FXBAR_CCTL (R75): FREEZE is stored; CLEAR 1 sets all counters of the die to 0. -/
def State.writeCctl (s : State) (d : Die) (v : Word) : State :=
  let s1 := s.setReg (cctl d) 0 (v &&& 2)
  let keep := fun e : Nat × W32 => match d with
    | .c => decide (1024 ≤ e.1)
    | .f => decide (e.1 < 1024)
  if wbit v 0 then { s1 with ccnt := s1.ccnt.filter keep } else s1

/-- XBAR_COUNTER_CLEAR (R75). -/
def execXbarCounterClear (d : Die) (v : Word) (s : State) : Host.Outcome State Fault Refusal :=
  .next (s.writeCctl d v)

end Sys2Proof.Machine
end

