-- ==== Sys2Proof/Machine/Network.lean ====
section
/-! DEFINITION. The network commands (13_network.md): frames, rings, CAN, ports, backbone links, time, gates, partners
and the switch tables. -/

namespace Sys2Proof.Machine

open Sys2Proof

/-! ### Ports (R173, R359, R360) -/

/-- The requested state of a port. -/
def State.portReq (s : State) (p : Nat) : Bool :=
  if p < 4 then s.bit .BPHY_PCFG p 15
  else if p < 8 then s.bit .MT_CFG (p - 4) 15
  else if p < 14 then s.bit .TS_CFG (p - 8) 15
  else if p < 22 then s.bit .CN_CFG (p - 14) 15
  else true

/-- The actual state set. -/
def State.setAct (s : State) (p v : Nat) : State :=
  if p < 4 then s.setFld .BPHY_PSTAT p 15 14 v
  else if p < 8 then s.setFld .MT_STAT (p - 4) 15 14 v
  else if p < 14 then s.setFld .TS_STAT (p - 8) 15 14 v
  else if p < 22 then s.setFld .CN_STAT (p - 14) 15 14 v
  else s

/-- NSW_PSTAT of a port, with the interrupts of a change of UP; while the switch is unpowered only the F-die's. -/
def State.setUp (s : State) (p : Nat) (up : Bool) (speed : Nat) : State :=
  let was := s.bit .NSW_PSTAT p 15
  let s1 : State := if s.switchLive then (s.setBit .NSW_PSTAT p 15 up).setFld .NSW_PSTAT p 14 12 speed else s
  let s2 := if was ≠ up then s1.netInt 4 else s1
  if 4 ≤ p then s2.fnetInt 4 else s2

/-- SPEED of a backbone port from its lanes and rate. -/
def State.bpSpeed (s : State) (p : Nat) : Nat :=
  let n := s.fld .BPHY_PSTAT p 9 8
  if s.bit .BPHY_PSTAT p 10 then 4 + n else 5 + n

/-- R173: the transition that the request in force asks for begins. MT ports stay OFF while the C-die is not at
compute-ready (R360). On entering STOPPING the queued frames are freed and the link is gone. -/
def State.portSync (s : State) (p : Nat) : State :=
  match s.portAct p, s.portReq p with
  | 0, true =>
    if 4 ≤ p ∧ p < 8 ∧ ¬ s.computeReady then s
    else
      let s1 := s.setAct p 1
      if p < 4 then (s1.setFld .BPHY_PSTAT p 13 11 1).setBit .BPHY_PSTAT p 10 false else s1
  | 2, false =>
    let s1 := ((s.setAct p 3).setUp p false 0).flushPort p
    if p < 4 then s1.setFld .BPHY_PSTAT p 13 8 0
    else if p < 8 then s1.setFld .MT_STAT (p - 4) 13 10 0
    else if p < 14 then s1.setBit .TS_STAT (p - 8) 13 false
    else s1
  | _, _ => s

/-- PLCA is in use on the segment of TS port 8 + i (R346). -/
def State.plcaOn (s : State) (i : Nat) : Bool := s.bit .TS_CFG i 14 && s.bit .TS_STAT i 13

/-- A write of a port's configuration register. -/
def State.writePortCfg (s : State) (p : Nat) (v : Word) : State :=
  let put (k : RegKind) (i : Nat) : State := s.setReg k i (writtenWord k (s.sealed k.die) (s.reg k i) v)
  if p < 4 then (put .BPHY_PCFG p).portSync p
  else if p < 8 then (put .MT_CFG (p - 4)).portSync p
  else if p < 14 then (put .TS_CFG (p - 8)).portSync p
  else if p < 22 then (put .CN_CFG (p - 14)).portSync p
  else s

/-- PORT_ENABLE_REQUEST (R359). -/
def execPortEnableRequest (port : Fin 25) (v : Word) (s : State) : Host.Outcome State Fault Refusal :=
  .next (if port.val < 4 ∧ ¬ s.switchLive then s else s.writePortCfg port v)

/-- PORT_START_DONE (R359, R345, R346): a link that is up makes the port ON; at the time limit a TS port is ON without
beacons, another starts again while it is requested. Beacons are those of a coordinator under PLCA, which the port with node ID 0
is itself. A backbone port becomes ON on reaching UP. Log entry 62. -/
def execPortStartDone (port : Fin 25) (ok : Bool) (speed : BitVec 3) (s : State) : Host.Outcome State Fault Refusal :=
  let p := port.val
  .next (if s.portAct p ≠ 1 ∨ 22 ≤ p then s
    else if 8 ≤ p ∧ p < 14 then
      let i := p - 8
      let coord := s.fld .TS_PLCA i 15 12 = 0
      let s1 := (s.setAct p 2).setBit .TS_STAT i 13 (s.bit .TS_CFG i 14 && (ok || coord))
      ({ s1 with net := { s1.net with plca := Tab.set (0, 0) i (0, s1.ticks) s1.net.plca } }.setUp p true 1).portSync p
    else if ¬ ok ∨ p < 4 then
      (if s.portReq p then s else if p < 4 then (s.setAct p 3).setFld .BPHY_PSTAT p 13 8 0 else s.setAct p 3)
    else if p < 8 then
      let r := s.fld .MT_CFG (p - 4) 14 13
      let rate := if r < 3 then r else min 2 (speed.toNat - 2)
      let s1 := (s.setAct p 2).setBit .MT_STAT (p - 4) 13 true
      let s2 := (s1.setFld .MT_STAT (p - 4) 12 11 rate).setBit .MT_STAT (p - 4) 10 (s.bit .MT_CFG (p - 4) 12)
      (s2.setUp p true (rate + 2)).portSync p
    else
      ((((s.setAct p 2).setFld .CN_STAT (p - 14) 13 12 0).setUp p true 0).fnetInt 3).portSync p)

/-- PORT_STOP_DONE (R359). -/
def execPortStopDone (port : Fin 25) (s : State) : Host.Outcome State Fault Refusal :=
  let p := port.val
  .next (if s.portAct p ≠ 3 then s
    else
      let s1 := (s.setAct p 0).flushPort p
      let s2 : State := if 14 ≤ p ∧ p < 22 then s1.setFld .CN_STAT (p - 14) 13 0 0x3000 else s1
      s2.portSync p)

/-- MT_LINK_LOSS (R359): the port is ON only while its link is up; it returns to STARTING. Log entry 62. -/
def execMtLinkLoss (m : Fin 4) (s : State) : Host.Outcome State Fault Refusal :=
  let p := 4 + m.val
  .next (if s.portAct p = 2 then ((s.setAct p 1).setFld .MT_STAT m 13 10 0).setUp p false 0 else s)

/-- At compute-ready the MT ports start from their requested state, and NSW_PSTAT shows the F-die ports that are ON
(R360). -/
def State.portsReady (s : State) : State :=
  let s1 := (upto 4).foldl (fun s m => s.portSync (4 + m)) s
  (upto 14).foldl (fun s i => if s.portAct (8 + i) = 2 then s.setUp (8 + i) true (if i < 6 then 1 else 0) else s) s1

/-! ### Backbone links (R338 to R343) -/

/-- The lanes a backbone port may use (R340). -/
def State.usable (s : State) (p : Nat) : List Nat :=
  (if s.bit .BPHY_PCFG p 14 then [2 * p, 2 * p + 1] else [2 * p]).filter fun l => ¬ s.bit .BPHY_LCTL l 15

/-- LINK of a backbone port. -/
def State.bpLink (s : State) (p : Nat) : Nat := s.fld .BPHY_PSTAT p 13 11

/-- A degrade to 14 GBd (R343). -/
def State.degrade (s : State) (p : Nat) : State := (s.setBit .BPHY_PSTAT p 10 true).netInt 5

/-- A backbone lane. -/
def State.lane (s : State) (l : Nat) : Lane := Tab.get {} s.net.lanes l
/-- The state with it replaced. -/
def State.setLane (s : State) (l : Nat) (x : Lane) : State := { s with net := { s.net with lanes := Tab.set {} l x s.net.lanes } }

/-- The lanes that a backbone port runs on, as a map. -/
def State.setMap (s : State) (p : Nat) (m : BitVec 2) : State :=
  ({ s with net := { s.net with laneMap := Tab.set 0 p m s.net.laneMap } }).setFld .BPHY_PSTAT p 9 8 (b2n (m.getLsbD 0) + b2n (m.getLsbD 1))

/-- The map of a list of the port's lanes. -/
def mapOf (p : Nat) (l : List Nat) : BitVec 2 := BitVec.ofNat 2 (b2n (l.contains (2 * p)) + 2 * b2n (l.contains (2 * p + 1)))

/-- The first transmit preset of a lane (R365). -/
def State.firstPreset (s : State) (l : Nat) : Nat := max 1 (s.fld .BPHY_LCTL l 13 12)

/-- Training begins anew: no lane is ready or sends superframes, and the taps stand at the first preset (R341, R365). -/
def State.bpTrain (s : State) (p : Nat) : State :=
  [2 * p, 2 * p + 1].foldl (fun s l =>
    let t : Tap := { preset := s.firstPreset l }
    (s.setBit .BPHY_LSTAT l 14 false).setLane l { pre := t, main := t, post := t }) (s.setFld .BPHY_PSTAT p 13 11 2)

/-- The lanes in ls carry the port from here on (R340): alignment begins with their first superframes (R339, R342). The eye
opening is free. -/
def State.bpAlign (s : State) (p : Nat) (ls : List Nat) : State :=
  let s1 := ls.foldl (fun s l =>
    let d := s.draw
    (d.2.setLane l { d.2.lane l with sendFrom := some d.2.ticks }).setFld .BPHY_LSTAT l 7 0 d.1) s
  (s1.setFld .BPHY_PSTAT p 13 11 3).setMap p (mapOf p ls)

/-- RX_READY at both ends of a lane (R341). -/
def State.laneReady (s : State) (l : Nat) : Bool := s.bit .BPHY_LSTAT l 14 && (s.lane l).peerReady

/-- A port in UP falls back to TRAIN and to STARTING (R342, R359); the third time within 1 s at 28 GBd it degrades. -/
def State.leaveUp (s : State) (p : Nat) : State :=
  let s1 := (((s.portTally p 22).setAct p 1).setUp p false 0).bpTrain p
  if s.bit .BPHY_PSTAT p 10 then s1
  else
    let l := s.ticks :: (Tab.get [] s.net.drops1s p).filter fun t => s.ticks < t + 800000000
    if 3 ≤ l.length ∧ s.bit .BPHY_PCFG p 13 then
      { s1 with net := { s1.net with drops1s := Tab.set [] p [] s1.net.drops1s } }.degrade p
    else { s1 with net := { s1.net with drops1s := Tab.set [] p l s1.net.drops1s } }

/-- BP_LINK_EVENT (R342, R343, R340): signal on every usable lane starts training at 28 GBd; every usable lane ready at both
ends ends it. -/
def execBpLinkEvent (port : Fin 4) (e : BpEvent) (s : State) : Host.Outcome State Fault Refusal :=
  let p := port.val
  .next (if ¬ s.switchLive then s
    else match e, s.bpLink p with
      | .signal, 1 =>
        if (s.usable p).isEmpty then s
        else (s.usable p).foldl (fun s l => s.setBit .BPHY_LSTAT l 15 true) ((s.setBit .BPHY_PSTAT p 10 false).bpTrain p)
      | .ready, 2 =>
        if (s.usable p).isEmpty ∨ ¬ (s.usable p).all s.laneReady then s else s.bpAlign p (s.usable p)
      | .aligned, 3 => (((s.setFld .BPHY_PSTAT p 13 11 4).setAct p 2).setUp p true (s.bpSpeed p)).portSync p
      | .lost, 4 => s.leaveUp p
      | _, _ => s)

/-- BP_TRAIN_TIMEOUT (R342): a lane of two that is ready by then carries the port alone, the other cannot train (R340; log
entry 92); else the port degrades once, or starts again from DETECT. -/
def execBpTrainTimeout (port : Fin 4) (s : State) : Host.Outcome State Fault Refusal :=
  let p := port.val
  let ready := (s.usable p).filter s.laneReady
  .next (if ¬ s.switchLive ∨ s.bpLink p ≠ 2 then s
    else if ready ≠ [] then s.bpAlign p ready
    else if ¬ s.bit .BPHY_PSTAT p 10 ∧ s.bit .BPHY_PCFG p 13 then (s.degrade p).bpTrain p
    else ((s.setFld .BPHY_PSTAT p 13 11 1).portTally p 23).netInt 6)

/-- BP_ALIGN_TIMEOUT (R342). -/
def execBpAlignTimeout (port : Fin 4) (s : State) : Host.Outcome State Fault Refusal :=
  let p := port.val
  .next (if s.switchLive ∧ s.bpLink p = 3 then (s.bpTrain p).portTally p 22 else s)

/-- A transmit tap after the partner's request (R341). -/
def Tap.asked (t : Tap) : TapReq → Tap
  | .hold => t
  | .inc => { t with steps := t.steps + 1 }
  | .dec => { t with steps := t.steps - 1 }
  | .preset n => { preset := n.val + 1 }

/-- The lane receives what it sends itself: LCTL.LOOP (R365). -/
def State.laneLoop (s : State) (l : Nat) : Bool := s.bit .BPHY_LCTL l 14

/-- The training frame of which a lane sees lane number, rate and RX_READY: the partner's, or its own in loopback. -/
def State.frameSeen (s : State) (l : Nat) (f : TrainFrame) : TrainFrame :=
  if s.laneLoop l then { f with laneNo := BitVec.ofNat 3 l, rate14 := s.bit .BPHY_PSTAT (l / 2) 10, rxReady := s.bit .BPHY_LSTAT l 14 } else f

/-- BP_TRAINING_FRAME (R341): the requests for the taps are followed; RX_READY is set when the receiver's estimate lies below
1 in 10^4, and the partner's is taken; the lane shows whether its direction is precoded. A frame with a CRC error, or at another
rate, is discarded. -/
def execBpTrainingFrame (lane : Fin 8) (f : TrainFrame) (s : State) : Host.Outcome State Fault Refusal :=
  let p := lane.val / 2
  let g := s.frameSeen lane f
  .next (if ¬ s.switchLive ∨ s.bpLink p ≠ 2 ∨ ¬ g.crcOk ∨ ¬ (s.usable p).contains lane.val ∨ g.rate14 ≠ s.bit .BPHY_PSTAT p 10 then s
    else
      let x := s.lane lane
      let s1 := (s.setBit .BPHY_LSTAT lane 14 (g.errs < 100)).setBit .BPHY_LSTAT lane 13 (g.precode && s.bit .BPHY_PCFG p 12)
      s1.setLane lane { x with
        pre := x.pre.asked g.pre, main := x.main.asked g.main, post := x.post.asked g.post
        peerLane := g.laneNo, peerReady := g.rxReady })

/-- Uncorrectable codewords of a port within the last 1 ms. -/
def State.uncNow (s : State) (p : Nat) : List Nat := (Tab.get [] s.net.unc p).filter fun t => s.ticks < t + 800000

/-- The slot of the superframe that a lane sends, and the superframe's number: 448 slots of 5,440 bits last 34,816 ticks at 28
GBd and twice that at 14 GBd (R338, R339). -/
def State.sfSlot (s : State) (l t0 : Nat) : Nat × Nat :=
  let n := (s.ticks - t0) * 7 / (if s.bit .BPHY_PSTAT (l / 2) 10 then 1088 else 544)
  (n % 448, n / 448)

/-- What a lane sends at present, once it sends superframes (R339): slot 0 the alignment codeword, 1 to 425 data, consecutive
data codewords on alternate lanes (R340), 426 and 427 link status, the rest fill. FEC health is the number of uncorrectable
codewords of the last 1 ms, and degrading is requested by a port that runs degraded: the rule gives neither's form. Log entry
93. -/
def State.laneSends (s : State) (l : Nat) : Option Codeword :=
  let p := l / 2
  (s.lane l).sendFrom.map fun t0 =>
    let (slot, n) := s.sfSlot l t0
    if slot = 0 then .align (BitVec.ofNat 3 l) (BitVec.ofNat 16 n)
    else if slot ≤ 425 then
      let d := 425 * n + slot - 1
      .data (if Tab.get 0 s.net.laneMap p = 3 then 2 * d + l % 2 else d)
    else if slot ≤ 427 then .status (BitVec.ofNat 16 (s.uncNow p).length) (s.bit .BPHY_PSTAT p 10) (Tab.get 0 s.net.laneMap p)
    else .fill

/-- A lane takes the content of a codeword that it could correct: alignment and link status are kept (R339). -/
def State.laneTakes (s : State) (l : Nat) (cw : Codeword) : State :=
  match cw with
  | .align n c => s.setLane l { s.lane l with align := some (n, c) }
  | .status h d m => s.setLane l { s.lane l with status := some (h, d, m) }
  | .data _ | .fill => s

/-- CODEWORD_RECEIVE (R338, R339, R342): corrected symbols are counted and the content is taken, in loopback the lane's own; an
uncorrectable codeword spoils the frames of which it carries a part, and more than UNC_MAX of those within 1 ms end UP. -/
def execCodewordReceive (lane : Fin 8) (errors : Nat) (s : State) (frames : Nat := 0) (cw : Codeword := .fill) : Host.Outcome State Fault Refusal :=
  let p := lane.val / 2
  .next (if ¬ s.switchLive ∨ s.bpLink p < 3 then s
    else if errors ≤ 15 then
      (s.portTally p 19 errors).laneTakes lane (if s.laneLoop lane then (s.laneSends lane).getD cw else cw)
    else
      let l := s.ticks :: s.uncNow p
      let s0 := { s with net := { s.net with spoilt := Tab.upd 0 p (max frames) s.net.spoilt } }
      let s1 := s0.portTally p 20
      if s.bpLink p = 4 ∧ s.fld .BPHY_PCFG p 7 0 < l.length then
        { s1 with net := { s1.net with unc := Tab.set [] p [] s1.net.unc } }.leaveUp p
      else { s1 with net := { s1.net with unc := Tab.set [] p l s1.net.unc } })

/-- A write of BPHY_LCTL: a lane disabled in a port that aligns or is UP leaves it to the other lane at half rate (R340), or
without one ends the link. -/
def State.writeLctl (s : State) (l : Nat) (v : Word) : State :=
  let p := l / 2
  let m := Tab.get 0 s.net.laneMap p
  let s1 := s.setReg .BPHY_LCTL l (writtenWord .BPHY_LCTL (s.sealed .c) (s.reg .BPHY_LCTL l) v)
  if ¬ s1.bit .BPHY_LCTL l 15 ∨ s.bpLink p < 3 ∨ ¬ m.getLsbD (l % 2) then s1
  else if m = 3 then
    let s2 := s1.setMap p (if l % 2 = 0 then 2 else 1)
    if s.bpLink p = 4 then s2.setFld .NSW_PSTAT p 14 12 (s2.bpSpeed p) else s2
  else if s.bpLink p = 4 then s1.leaveUp p
  else (s1.bpTrain p).portTally p 22

/-! ### Frames (R332, R333, R336, R360) -/

/-- The bytes of a frame in a receive buffer. -/
def Held.size : Held → Nat
  | .eth b _ _ => frameLen b
  | .can f _ => f.xlHead.length + f.data.length

/-- A whole frame of an Ethernet port goes on to the switch, or to the IF ring while the C-die is not at compute-ready
(R354, R360). -/
def State.takeEth (s : State) (p : Nat) (b : List Byte) (stamp : W64) (node : Option (BitVec 4)) : State :=
  if ¬ s.computeReady then s.toIf { bytes := b, port := p, cls := pcpOf b, stamp }
  else match s.macsecIn p b with
    | (none, s2) => s2
    | (some c, s2) => s2.ingress p c stamp node none

/-- A frame of an F-die port has to wait in its buffer: the Mortar link, which it must cross, is not UP (R331). -/
def State.mustHold (s : State) (p : Nat) : Bool := 4 ≤ p && p < 22 && s.computeReady && !s.linkUp

/-- A frame waits in the 16 KB buffer of its port, or finds it full and is discarded under R332. Log entry 94. -/
def State.hold (s : State) (p : Nat) (h : Held) : State :=
  let l := Tab.get [] s.net.rxHeld p
  if 16384 < l.foldl (fun n x => n + x.size) h.size then s.portTally p 2
  else { s with net := { s.net with rxHeld := Tab.set [] p (l ++ [h]) s.net.rxHeld } }

/-- The time stamp of a frame whose start frame delimiter ended so many ns ago (R349); on the C-die it may be off by the 1.25 ns
of the rule either way. -/
def State.rxStamp (s : State) (p age : Nat) : W64 × State :=
  let t := s.gptpNs - BitVec.ofNat 64 age
  if p < 4 then let (n, s1) := s.draw; (t + BitVec.ofNat 64 (n % 3) - 1, s1) else (t, s)

/-- An uncorrectable codeword has spoilt the next frame of the port (R338). -/
def State.spoiltNext (s : State) (p : Nat) : Bool := Tab.get 0 s.net.spoilt p ≠ 0

/-- The PLCA node that a frame of a TS port came from, where the segment is under PLCA (R346, R356). -/
def State.nodeOf (s : State) (p : Nat) (node : Option (BitVec 4)) : Option (BitVec 4) :=
  if 8 ≤ p ∧ p < 14 ∧ s.plcaOn (p - 8) = true then node else none

/-- The transmit opportunity after that of node n begins (R346). -/
def State.plcaNext (s : State) (i n : Nat) : State := { s with net := { s.net with plca := Tab.set (0, 0) i (n + 1, s.ticks) s.net.plca } }

/-- FRAME_RECEIVE (R331 to R333, R337, R338, R346, R349, R354, R359, R360). -/
def execFrameReceive (port : Fin 25) (f : RxFrame) (s : State) : Host.Outcome State Fault Refusal :=
  let p := port.val
  let n := frameLen f.bytes
  .next (if 14 ≤ p ∨ (p < 4 ∧ ¬ s.switchReady) then s
    else if s.portAct p = 3 then s.portTally p 3
    else if s.portAct p ≠ 2 then s
    else if s.spoiltNext p then { s with net := { s.net with spoilt := Tab.upd 0 p (· - 1) s.net.spoilt } }.portTally p 2
    else if ¬ f.fcsOk ∨ n < 64 ∨ s.maxLen p < n then s.portTally p 2
    else
      let s0 := (s.portTally p 0).portTally p 1 n
      if etherType f.bytes = 0x8808 then s0.portTally p 7
      else
        let node := s.nodeOf p f.node
        let (stamp, s1) := (match node with
          | some k => s0.plcaNext (p - 8) k.toNat
          | none => s0).rxStamp p f.age
        if s1.mustHold p then s1.hold p (.eth f.bytes stamp node) else s1.takeEth p f.bytes stamp node)

/-- BUS of a CAN channel from its error counts (ISO 11898-1, R347, R366), with the interrupt of a change; bus-off and
integrating stay. -/
def State.canBus (s : State) (ch tec : Nat) : State :=
  let old := s.fld .CN_STAT ch 13 12
  let bus := if 255 < tec then 2 else if 127 < tec ∨ 127 < Tab.get 0 s.net.canRec ch then 1 else 0
  let s1 := (s.setFld .CN_STAT ch 7 0 (min 255 tec)).setFld .CN_STAT ch 13 12 bus
  if bus ≠ old then s1.fnetInt 3 else s1

/-- The CAN controller's counters after a frame it sent, which succeeded or not (ISO 11898-1, R347, R366). -/
def State.canSentEvent (s : State) (ch : Nat) (ok : Bool) : State :=
  let tec := s.fld .CN_STAT ch 7 0
  s.canBus ch (if ok then tec - 1 else tec + 8)

/-- The receive error count after a frame on the bus, which ended with or without an error; a valid frame is acknowledged
unless the channel only listens (ISO 11898-1, R347). Log entry 57. -/
def State.canGotEvent (s : State) (ch : Nat) (ok : Bool) : State :=
  let r := Tab.get 0 s.net.canRec ch
  let n := if ok then (if 127 < r then 127 else r - 1) else min 255 (r + 1)
  let s1 := { s with net := { s.net with canRec := Tab.set 0 ch n s.net.canRec } }
  let s2 := if ok ∧ ¬ s.bit .CN_CFG ch 7 then { s1 with net := { s1.net with canAcks := Tab.upd 0 ch (· + 1) s1.net.canAcks } } else s1
  if s.fld .CN_STAT ch 13 12 < 2 then s2.canBus ch (s.fld .CN_STAT ch 7 0) else s2

/-- A CAN channel may send: neither bus-off nor integrating, and not listening (R347). -/
def State.canMaySend (s : State) (ch : Nat) : Bool := s.fld .CN_STAT ch 13 12 < 2 && ¬ s.bit .CN_CFG ch 7

/-- A CAN frame is sent; whether the bus lets it through is free. One of a format beyond the channel's mode leaves unsent.
The XL data phase is in fast mode with PWM 1 (R347). Log entry 57. -/
def State.canSend (s : State) (ch : Nat) (m : CanFrame) : Bool × State :=
  if ¬ s.canFits ch m then (true, s)
  else
    let (ok, s1) := s.drawBit
    let s2 := s1.canSentEvent ch ok
    if ok then (true, { s2 with net := { s2.net with canSent := (ch, m, m.fmt = .xl && s.bit .CN_CFG ch 12) :: s2.net.canSent } })
    else (false, s2)

/-- The highest class of a port that is eligible (R336). -/
def State.eligibleClass (s : State) (p : Nat) (gates : Byte) : Option Nat :=
  ((upto 8).reverse).find? fun c =>
    match (s.swQueue (8 * p + c)).head? with
    | none => false
    | some id =>
      let n := match s.swFrame id with
        | some f => s.wireLen p f.bytes + 24
        | none => 24
      gates.getLsbD c && (s.idleSlope (8 * p + c) = 0 || 0 ≤ (Tab.get ({} : Credit) s.net.credits (8 * p + c)).bits) &&
      (match s.openFor p c with
       | none => true
       | some left => n * 8000 ≤ left * s.portMbit p)

/-- The head of a queue leaves it. -/
def State.popFrame (s : State) (p c : Nat) (id : Nat) : State := (s.setSwQueue (8 * p + c) ((s.swQueue (8 * p + c)).drop 1)).freeFrame id

/-- A frame goes onto the wire of an Ethernet port: counted, its credit spent, its egress time written back (R361). -/
def State.putWire (s : State) (p c : Nat) (f : SwFrame) (b : List Byte) : State :=
  let s1 := (s.portTally p 8).portTally p 9 (frameLen b)
  let s2 := { s1 with net := { s1.net with sent := (p, b) :: s1.net.sent } }
  let s3 := if s.idleSlope (8 * p + c) = 0 then s2
    else { s2 with net := { s2.net with credits := Tab.upd {} (8 * p + c) (fun (x : Credit) => { x with bits := x.bits - ((b.length + 24) * 8 * 800000 : Nat) }) s2.net.credits } }
  match f.slot with
  | some (m, a) => s3.dmaWrite m (a + 4) (leBytes 8 s.gptpNs.toNat)
  | none => s3

/-- A coordinated segment's turn (R346): from the opportunity of node n that began at tick t, each unused opportunity lasts the TO
timer; after NODE_CNTM1 + 1 of them the coordinator sends its beacon, 20 bit times, and node 0 is next. A bit time is 80 ticks.
None during the beacon. Log entry 95. -/
def State.plcaTurn (s : State) (i : Nat) : Option Nat :=
  let to' := 80 * (if s.fld .TS_PLCA i 7 0 = 0 then 32 else s.fld .TS_PLCA i 7 0)
  let cnt := s.fld .TS_PLCA i 11 8 + 1
  let (n, t) := Tab.get (0, 0) s.net.plca i
  let dt := s.ticks - t
  if n + dt / to' < cnt then some (n + dt / to')
  else
    let e := (dt - (cnt - n) * to') % (1600 + cnt * to')
    if e < 1600 then none else some ((e - 1600) / to')

/-- A TS port may send: as the coordinator of a segment under PLCA in its own opportunity; as another node when the command
says, which is then its opportunity; without PLCA when the bus is idle, and whether the frame collides there is free (R346). -/
def State.tsMaySend (s : State) (i : Nat) : Bool × State :=
  if ¬ s.bit .TS_CFG i 14 then s.drawBit
  else if s.plcaOn i ∧ s.fld .TS_PLCA i 15 12 = 0 then (s.plcaTurn i = some 0, s)
  else (true, s)

/-- The port's transmit opportunity has been used. -/
def State.tsSent (s : State) (i : Nat) : State := if s.plcaOn i then s.plcaNext i (s.fld .TS_PLCA i 15 12) else s

/-- The frame at the head of an Ethernet port's queue leaves: protected by MACsec, in the turn of its segment on a TS port. -/
def State.sendEth (s : State) (p c id : Nat) (f : SwFrame) : State :=
  let go (s : State) : State := match s.macsecOut p f.bytes with
    | (none, s2) => s2.popFrame p c id
    | (some b, s2) => (s2.popFrame p c id).putWire p c f b
  if 8 ≤ p then (match s.tsMaySend (p - 8) with
    | (true, s1) => (go s1).tsSent (p - 8)
    | (false, s1) => s1)
  else go s

/-- A port of the F-die, whose frames cross the Mortar link before their first bit leaves (R331). -/
def farPort (p : Nat) : Bool := (4 ≤ p && p < 22) || p = 23

/-- FRAME_TRANSMIT (R331, R336, R346, R347, R350, R351, R354, R361, R362). -/
def execFrameTransmit (port : Fin 25) (s : State) : Host.Outcome State Fault Refusal :=
  let p := port.val
  let s0 := s.accrue p
  let (g, s1) := s0.gates p
  .next (if ¬ s.switchReady ∨ s.portAct p ≠ 2 ∨ (farPort p ∧ ¬ s.linkUp) then s
    else match s1.eligibleClass p g with
      | none => s1
      | some c =>
        match (s1.swQueue (8 * p + c)).head? with
        | none => s1
        | some id => match s1.swFrame id with
          | none => s1.popFrame p c id
          | some f =>
            if 22 ≤ p then
              (if ¬ s1.rxFree p then s1
                else (((s1.popFrame p c id).ringPut p f).portTally p 8).portTally p 9 (frameLen f.bytes))
            else if 14 ≤ p then
              (if ¬ s1.canMaySend (p - 14) then s1
                else match s1.canSend (p - 14) (f.can.getD (Config.canOfBytes f.bytes)) with
                  | (true, s2) => ((s2.popFrame p c id).portTally p 8).portTally p 9 f.bytes.length
                  | (false, s2) => s2)
            else s1.sendEth p c id f)

/-- The transmit ring of an internal port with its port, WR and RD. -/
def State.txRing (s : State) (r : TxRing) : RingGeo × Nat × Nat × Nat :=
  match r with
  | .ic => (s.nswRing 1, 22, s.fld .NSW_RING_WR 1 7 0, s.fld .NSW_RING_RD 1 7 0)
  | .iv => (s.nswRing 3, 24, s.fld .NSW_RING_WR 3 7 0, s.fld .NSW_RING_RD 3 7 0)
  | .if_ => (s.fnetRing 1, 23, s.fld .FNET_RING_WR 1 4 0, s.fld .FNET_RING_RD 1 4 0)

/-- The slot is done: VALID is cleared, RD advances. -/
def State.slotDone (s : State) (r : TxRing) (a w0 rd n : Nat) : State :=
  let (g, _, _, _) := s.txRing r
  let s1 := s.dmaWrite g.m a (leBytes 2 (w0 % 32768))
  let v := BitVec.ofNat 16 (nextSlot n rd)
  match r with
  | .ic => s1.setReg .NSW_RING_RD 1 v
  | .iv => s1.setReg .NSW_RING_RD 3 v
  | .if_ => s1.setReg .FNET_RING_RD 1 v

/-- While the C-die is not at compute-ready, a frame of the IF ring goes to the TS or CN port that its slot names (R360);
whether it left. -/
def State.fieldSend (s : State) (e : Nat) (f : SwFrame) : Bool × State :=
  if s.portAct e ≠ 2 ∨ e < 8 ∨ 22 ≤ e then (true, s.dropTally e 18)
  else if e < 14 then (match s.tsMaySend (e - 8) with
    | (true, s1) => (true, (s1.putWire e f.cls f f.bytes).tsSent (e - 8))
    | (false, s1) => (false, s1))
  else if ¬ s.canMaySend (e - 14) then (false, s)
  else match s.canSend (e - 14) (Config.canOfBytes f.bytes) with
    | (true, s1) => (true, (s1.portTally e 8).portTally e 9 f.bytes.length)
    | (false, s1) => (false, s1)

/-- TRANSMIT_SLOT (R361, R360): the slot at RD, no earlier than its launch time. Log entry 63. -/
def execTransmitSlot (r : TxRing) (s : State) : Host.Outcome State Fault Refusal :=
  let (g, p, wr, rd) := s.txRing r
  let a := g.base + 4096 * (rd % g.slots)
  let field : Bool := ¬ s.computeReady
  .next (if ¬ wbit g.cfg 15 ∨ wr % g.slots = rd % g.slots ∨ (field ∧ r ≠ .if_) ∨ (¬ field ∧ ¬ s.switchReady) then s
    else match s.readMem g.m a 16 with
      | (.error _, s1) => (s1.portTally p 2).slotDone r a 0 rd g.slots
      | (.ok h, s1) =>
        let w0 := leAt h 0 2
        let n := leAt h 2 2
        let e := w0 / 256 % 32
        let direct : Bool := w0 / 8192 % 2 = 1
        if w0 < 32768 ∨ n < 60 ∨ s1.maxLen p < n + 4 ∨ (direct ∧ 25 ≤ e) then (s1.portTally p 2).slotDone r a w0 rd g.slots
        else if s1.gptpNs.toNat < leAt h 4 8 then s1
        else match s1.readMem g.m (a + 16) n with
          | (.error _, s2) => (s2.portTally p 2).slotDone r a w0 rd g.slots
          | (.ok b, s2) =>
            let slot : Option (Master × Nat) := if w0 / 16384 % 2 = 1 then some (g.m, a) else none
            let f : SwFrame := { bytes := b, port := p, cls := pcpOf b, stamp := s2.gptpNs, slot }
            let s3 := (s2.portTally p 0).portTally p 1 (n + 4)
            if field then
              match s3.fieldSend e f with
              | (true, s4) => s4.slotDone r a w0 rd g.slots
              | (false, s4) => s4
            else
              let s4 := s3.slotDone r a w0 rd g.slots
              if direct then s4.enterQueues f [e] else s4.ingress p b s2.gptpNs none slot)

/-! ### CAN (R347, R348) -/

/-- The device's MAC address in transmission order. -/
def State.nswMac (s : State) : List Byte := (upto 3).flatMap fun i => leBytes 2 (s.reg .NSW_MAC i).toNat

/-- The NTSCF frame of the messages collected from a channel for a destination entry, to its MAC and VID with the
channel's class. -/
def State.ntscf (s : State) (ch link : Nat) (msgs : List (List Byte)) : List Byte :=
  let e := s.ros link
  let body := msgs.flatten
  let head := leBytes 6 (entFld e 0 6) ++ s.nswMac ++ [0x81, 0x00] ++ beBytes 2 (s.fld .CN_CFG ch 10 8 * 8192 + rosVid e) ++ [0x22, 0xF0]
  let avtp := [0x82] ++ beBytes 2 (0x8000 + body.length % 2048) ++ [Tab.get 0 s.net.acfSeq ch] ++ s.nswMac ++ beBytes 2 (0x0C00 + ch)
  let l := head ++ avtp ++ body
  l ++ List.replicate (60 - l.length) 0

/-- The messages collected for a destination. -/
def State.acfOf (s : State) (ch link : Nat) : List (List Byte) := Tab.get [] s.net.acf (2048 * ch + link)

/-- The frame of the collected messages is sent. -/
def State.acfFlush (s : State) (ch link : Nat) (src : Option Nat) : State :=
  let msgs := s.acfOf ch link
  if msgs.isEmpty then s
  else
    let b := s.ntscf ch link msgs
    let s1 := { s with net := { s.net with
      acf := Tab.set [] (2048 * ch + link) [] s.net.acf, acfSeq := Tab.upd 0 ch (fun q : Byte => q + 1) s.net.acfSeq } }
    if s1.freeCells < cellsOf b then s1.dropTally (14 + ch) 5
    else s1.forward { bytes := b, port := 14 + ch, cls := s.fld .CN_CFG ch 10 8, stamp := s.gptpNs, src }

/-- A CAN frame becomes an ACF message; the frame is sent when one more would exceed MAXLEN, or at once without a batch
time. -/
def State.acfAdd (s : State) (ch link i : Nat) (f : CanFrame) : State :=
  let ty := if f.fmt = .xl then s.fld .CN_XLTYPE 0 6 0 else 1
  let m := acfMessage ty ch f
  let full : Bool := s.maxLen (14 + ch) < (s.acfOf ch link).flatten.length + m.length + 34
  let s1 := if full then s.acfFlush ch link (some i) else s
  let s2 := { s1 with net := { s1.net with acf := Tab.upd [] (2048 * ch + link) (fun l => l ++ [m]) s1.net.acf } }
  if s.param 1364 % 256 = 0 then s2.acfFlush ch link (some i) else s2

/-- The unknown-partner policy for a CAN frame that no range bridges (R348, R357): forwarded normally it has no destination's
entry, and is flooded. Log entry 57. -/
def State.canPolicy (s : State) (ch : Nat) (f : SwFrame) : State :=
  match s.fld .NSW_PCTL (14 + ch) 13 12 with
  | 0 => s.enterQueues f (s.egress { f with bytes := [] } none)
  | 1 => s.enterQueues f [23]
  | 3 => s.dropTally (14 + ch) 4
  | _ => s

/-- A whole frame of a CAN channel goes on: to the IF ring while the C-die is not at compute-ready (R360); bridged by its range
entry, whose range is then present (R348, R356); else under the policy for unknown partners. -/
def State.takeCan (s : State) (ch : Nat) (f : CanFrame) (stamp : W64) : State :=
  let p := 14 + ch
  let raw : SwFrame := { bytes := Config.canBytes f, port := p, cls := s.fld .CN_CFG ch 10 8, stamp, can := some f }
  if ¬ s.computeReady then s.toIf raw
  else match s.canEntry ch f.ident.toNat with
    | none => s.canPolicy ch raw
    | some i =>
      let e := s.ros i
      let s2 := if Tab.get false s.net.present i then s
        else { s with net := { s.net with present := Tab.set false i true s.net.present } }.rosEvent 1 i p
      if rosLink e = 0x7FF then s2.canPolicy ch raw
      else if rosAction e = 2 then s2
      else
        let s3 := if rosAction e = 1 then s2.enterQueues { raw with src := some i } [23] else s2
        s3.acfAdd ch (rosLink e) i f

/-- CAN_FRAME_RECEIVE (R331, R332, R347, R348): a frame of a format beyond the channel's mode ends in an error there. -/
def execCanFrameReceive (ch : Fin 8) (f : CanFrame) (s : State) : Host.Outcome State Fault Refusal :=
  let p := 14 + ch.val
  let ok := f.ok && s.canFits ch f
  .next (if s.portAct p = 3 then s.portTally p 3
    else if s.portAct p ≠ 2 then s
    else
      let s0 := s.canGotEvent ch ok
      if ¬ ok then s0.portTally p 2
      else
        let s1 := (s0.portTally p 0).portTally p 1 f.data.length
        if s1.mustHold p then s1.hold p (.can f s1.gptpNs) else s1.takeCan ch f s1.gptpNs)

/-- The frames that wait in the buffers of the F-die ports cross the link, each port's in order, once none has to wait (R331). -/
def State.crossPort (s : State) (p : Nat) : State :=
  let l := Tab.get [] s.net.rxHeld p
  if l.isEmpty || s.mustHold p then s
  else l.foldl (fun s h => match h with
    | .eth b stamp node => s.takeEth p b stamp node
    | .can f stamp => s.takeCan (p - 14) f stamp) { s with net := { s.net with rxHeld := Tab.set [] p [] s.net.rxHeld } }

/-- COURSE_TICK (R179, R331, R351): the shapers' credits, the courses, then the frames that wait for the link. -/
def execCourseTick (s : State) : Host.Outcome State Fault Refusal :=
  .next ((upto 18).foldl (fun s i => s.crossPort (4 + i)) s.accruePorts.courseTick)

/-- ACF_BATCH_EXPIRY (R348). -/
def execAcfBatchExpiry (ch : Fin 8) (link : BitVec 11) (s : State) : Host.Outcome State Fault Refusal :=
  .next (if s.switchReady then s.acfFlush ch link.toNat none else s)

/-- CAN_BUS_OFF_RECOVERY (R347): with AUTOREC 1 the channel is error-active again, its counts at 0. -/
def execCanBusOffRecovery (ch : Fin 8) (s : State) : Host.Outcome State Fault Refusal :=
  .next (if s.fld .CN_STAT ch 13 12 = 2 ∧ s.bit .CN_CFG ch 11 then
      (({ s with net := { s.net with canRec := Tab.set 0 ch.val 0 s.net.canRec } }.setFld .CN_STAT ch 13 12 0).setFld .CN_STAT ch 7 0 0).fnetInt 3
    else s)

/-! ### Time (R349, R366) and gates (R350) -/

/-- An update of the clock by software ends holdover. -/
def State.gptpUpdate (s : State) : State :=
  let st := s.fld .GPTP_CTL 0 14 13
  { s with gptpLast := s.ticks }.setFld .GPTP_STAT 0 15 14 (if st = 3 then 0 else st)

/-- A write of GPTP_CTL. -/
def State.writeGptpCtl (s : State) (v : Word) : State := (s.setReg .GPTP_CTL 0 (writtenWord .GPTP_CTL (s.sealed .f) (s.reg .GPTP_CTL 0) v)).gptpUpdate

/-- The list of a port changes (R350): the other list becomes operative from its first entry. -/
def State.swapList (s : State) (p : Nat) : State :=
  let g := s.gateOf p
  (s.accrue p).setGate p { entry := 0, oper := ¬ g.oper, chg := false }

/-- CHANGE of a port. -/
def State.gateChange (s : State) (p : Nat) : Nat := entFld (s.portEnt p) 8 2 % 4096

/-- Pending list changes at whose cycle start a forward jump of CS[7] passed (R350). -/
def State.jumpLists (s : State) (from' to' : Nat) : State :=
  (upto 14).foldl (fun s p =>
    let d := (to' + 4096 - from') % 4096
    let n := (s.gateChange p + 4096 - from') % 4096
    if (s.gateOf p).chg ∧ d < 2048 ∧ 0 < n ∧ n ≤ d then s.swapList p else s) s

/-- A write of GPTP_STEP[i]: words 0 to 2 wait, word 3 applies the signed step to the clock and the courses. -/
def State.writeGptpStep (s : State) (i : Nat) (v : Word) : State :=
  if i < 3 then { s with staging := Tab.set 0 (RegKind.GPTP_STEP.addr i) v s.staging }
  else
    let w (k : Nat) : Nat := (Tab.get (0 : Word) s.staging (RegKind.GPTP_STEP.addr k)).toNat
    let d := BitVec.ofNat 64 (w 0 + w 1 * 2 ^ 16 + w 2 * 2 ^ 32 + v.toNat * 2 ^ 48)
    let old := (s.course 7).vis.toNat / 2 ^ 20
    let s1 := { s with gptpNs := s.gptpNs + d }.gptpUpdate.gptpStepCourses
    s1.jumpLists old ((s1.course 7).vis.toNat / 2 ^ 20)

/-- GPTP_STEP_APPLY (R349). -/
def execGptpStepApply (v : Word) (s : State) : Host.Outcome State Fault Refusal := .next (s.writeGptpStep 3 v)

/-- Word i of the clock. -/
def State.gptpWord (s : State) (i : Nat) : Word := BitVec.ofNat 16 (s.gptpNs.toNat / 65536 ^ i)

/-- A read of GPTP_TIME[0] captures words 1 to 3 for their next reads (R366). -/
def State.readGptp0 (s : State) : Word × State :=
  (s.gptpWord 0, (upto 3).foldl (fun s i =>
    { s with captures := Tab.set none (RegKind.GPTP_TIME.addr (i + 1)) (some (s.gptpWord (i + 1))) s.captures }) s)

/-- GPTP_TIME_CAPTURE (R366). -/
def execGptpTimeCapture (s : State) : Host.Outcome State Fault Refusal :=
  let (w, s1) := s.readGptp0
  .next (s1.answer (.ok (w.setWidth 64)))

/-- GPTP_HOLDOVER (R349): no update for HOLD_TO ms, which are 800,000 ticks each. -/
def execGptpHoldover (s : State) : Host.Outcome State Fault Refusal :=
  .next (if s.gptpLast + 800000 * s.fld .GPTP_CTL 0 11 0 ≤ s.ticks ∧ s.fld .GPTP_STAT 0 15 14 ≠ 3 then (s.setFld .GPTP_STAT 0 15 14 3).fnetInt 1 else s)

/-- GATE_CYCLE_START (R350): the operative lists restart; a pending change is made at the cycle it names. -/
def execGateCycleStart (s : State) : Host.Outcome State Fault Refusal :=
  .next (if ¬ s.switchLive then s
    else (upto 14).foldl (fun s p =>
      let g := s.gateOf p
      if g.chg ∧ s.gateChange p = (s.course 7).vis.toNat / 2 ^ 20 then s.swapList p
      else (s.accrue p).setGate p { g with entry := 0 }) s)

/-- GATE_ENTRY_EXPIRY (R350): the next entry applies; the last one holds to the cycle's end. -/
def execGateEntryExpiry (port : Fin 25) (s : State) : Host.Outcome State Fault Refusal :=
  let p := port.val
  let g := s.gateOf p
  .next (if s.switchLive ∧ p < 14 ∧ g.entry + 1 < s.gateCount p g.oper then (s.accrue p).setGate p { g with entry := g.entry + 1 } else s)

/-! ### Partners and FRER -/

/-- ROSTER_AGE_EXPIRY (R356): a learned entry, or a present CAN range, leaves, and its entry becomes empty. -/
def execRosterAgeExpiry (ix : BitVec 10) (s : State) : Host.Outcome State Fault Refusal :=
  let i := ix.toNat
  let e := s.ros i
  let gone : Bool := (rosKind e ≠ 0 && ¬ rosStatic e && rosKind e ≠ 3) || (rosKind e = 3 && Tab.get false s.net.present i)
  .next (if s.switchReady ∧ gone ∧ s.param 1361 % 65536 ≠ 0 then
      let s1 := s.setRos i 0
      { s1 with net := { s1.net with present := Tab.set false i false s1.net.present } }.rosEvent 2 i (rosPort e)
    else s)

/-- FRER_RESET_EXPIRY (R353). -/
def execFrerResetExpiry (g : BitVec 7) (s : State) : Host.Outcome State Fault Refusal :=
  let i := g.toNat
  .next (if entFld (Tab.get 0 s.net.frerTab i) 0 1 / 2 % 2 = 1 then s.setFrer i { s.frer i with started := false, hist := [] } else s)

/-! ### Tables (R363) -/

/-- Reserved or read-only bits of a written value are 0 or what the field reads. Log entry 64. -/
def roOk (v cur : Nat) : Bool := v = 0 || v = cur

/-- The entry that a read answers, or none where it is refused. AGE is free (log entry 64). -/
def State.tableRead (s : State) (sel ix part : Nat) : Option (BitVec 128) × State :=
  match sel with
  | 0 =>
    if 1024 ≤ ix then (none, s)
    else
      let e := s.ros ix
      if rosKind e = 0 then (some e, s) else let (a, s1) := s.draw; (some (entPut e 14 2 (rosLink e + a % 32 * 2048)), s1)
  | 1 =>
    if 25 ≤ ix then (none, s)
    else
      let e := s.portEnt ix
      let g := s.gateOf ix
      (some (entPut e 2 1 (entFld e 2 1 % 2 + 2 * b2n g.chg + 4 * b2n g.oper)), s)
  | 2 => if 200 ≤ ix then (none, s) else (some (entPut (Tab.get 0 s.net.qTab ix) 8 4 (s.occ ix)), s)
  | 3 => if 3584 ≤ ix then (none, s) else (some ((Tab.get (0 : W32) s.net.gateTab ix).setWidth 128), s)
  | 4 => if 512 ≤ ix then (none, s) else (some (Tab.get 0 s.net.filtTab ix), s)
  | 5 => if 256 ≤ ix then (none, s) else (some (Tab.get 0 s.net.meterTab ix), s)
  | 6 => if 128 ≤ ix then (none, s) else (some (entPut (Tab.get 0 s.net.frerTab ix) 4 2 (s.frer ix).seq.toNat), s)
  | 7 =>
    if 128 ≤ ix ∨ 10 ≤ ix % 16 ∨ 5 ≤ part then (none, s)
    else (some (if 3 ≤ part then 0 else Tab.get 0 s.net.secTab (8 * ix + part)), s)
  | 8 => if 3360 ≤ ix then (none, s) else (some ((Tab.get 0 s.net.counters ix).setWidth 128), s)
  | _ => (none, s)

/-- The bits of an entry that a table's fields take up, the roster's by KIND; the others are written 0 (R7, R355, R363). -/
def tableMask (sel part : Nat) (v : BitVec 128) : BitVec 128 :=
  match sel with
  | 0 => if rosKind v = 1 then 0x07FF07FFFFFFFFFF0000FFFFFFFFFFFF else if rosKind v = 2 then 0x07FF07FFFFFFF000000000000000FFFF
      else if rosKind v = 3 then 0x07FF07FFFFFFF0001FFFFFFF1FFFFFFF else 0
  | 1 => 0x0FFFFFFFFFFFFF07FFFF
  | 2 => 0xFFFFFFFF00000000FFFFFFFFFFFFFFFF
  | 3 => 0xFFFFFFFF
  | 4 => 0x0F80FF01FFFFFF0F9F83FF
  | 5 => 0x0FFFFFFFFFFFFFFFFFFFFFFFFF
  | 6 => 0xFFFFFFFFFF03
  | _ => if part = 0 then 0xFFFFFFFF0000001FFFFFFFFFFFFFFFFF else if part ≤ 2 then 0xFFFFFFFFFFFFFFFFFFFFFFFF else BitVec.allOnes 128

/-- A roster entry may be written (R355). -/
def rosterOk (v : BitVec 128) : Bool :=
  rosKind v ≤ 3 && rosAction v ≠ 3 && (rosLink v ≤ 1023 || rosLink v = 0x7FF) && entFld v 14 2 / 2048 = 0

/-- A MACsec SA part written; a transmit SA that becomes ACTIVE ends the other's (R354). -/
def State.writeSa (s : State) (ix part : Nat) (v : BitVec 128) : State :=
  let s1 := { s with net := { s.net with secTab := Tab.set 0 (8 * ix + part) v s.net.secTab } }
  if part = 0 ∧ ix % 16 < 2 ∧ entFld v 8 1 / 4 % 2 = 1 then
    let o := 8 * (if ix % 16 = 0 then ix + 1 else ix - 1)
    let e := Tab.get 0 s1.net.secTab o
    { s1 with net := { s1.net with secTab := Tab.set 0 o (entPut e 8 1 (entFld e 8 1 - entFld e 8 1 / 4 % 2 * 4)) s1.net.secTab } }
  else s1

/-- The state after a write, or none where it is refused. -/
def State.tableWrite (s : State) (sel ix part : Nat) (v : BitVec 128) : Option State :=
  match sel with
  | 0 =>
    if 1024 ≤ ix ∨ ¬ rosterOk v then none
    else
      let s1 := s.setRos ix (v &&& tableMask 0 part v)
      some { s1 with net := { s1.net with present := Tab.set false ix false s1.net.present } }
  | 1 =>
    let n := entFld v 0 2
    let g := s.gateOf ix
    if 25 ≤ ix ∨ n < 64 ∨ 4064 < n ∨ 128 < entFld v 4 2 ∨ 128 < entFld v 6 2 ∨ ¬ roOk (entFld v 2 1 / 4 % 2) (b2n g.oper) then none
    else
      let s1 := s.accrue ix
      let s2 := { s1 with net := { s1.net with portTab := Tab.set portDefault ix (entPut (v &&& tableMask 1 part v) 2 1 (entFld v 2 1 % 2)) s1.net.portTab } }
      some (if entFld v 2 1 / 2 % 2 = 1 ∧ ix < 14 then s2.setGate ix { g with chg := true } else s2)
  | 2 =>
    let sum := (upto 200).foldl (fun n q => n + (if q = ix then entFld v 0 4 else s.qMin q)) 0
    if 200 ≤ ix ∨ s.poolCells < sum ∨ ¬ roOk (entFld v 8 4) (s.occ ix) then none
    else
      let s1 := s.accrue (ix / 8)
      let keep := ix % 8 = 5 ∨ ix % 8 = 6
      let v1 := entPut (if keep then v else entPut v 12 4 0) 8 4 0
      let fresh : Bool := keep ∧ entFld (Tab.get 0 s1.net.qTab ix) 12 4 = 0
      some { s1 with net := { s1.net with
        qTab := Tab.set 0 ix v1 s1.net.qTab
        credits := if fresh then Tab.set {} ix { since := s1.ticks } s1.net.credits else s1.net.credits } }
  | 3 =>
    if 3584 ≤ ix ∨ (s.gateOf (ix / 256)).oper = (ix / 128 % 2 = 1 : Bool) ∨ entFld v 1 3 = 0 then none
    else some { s with net := { s.net with gateTab := Tab.set 0 ix (BitVec.ofNat 32 (entFld v 0 4)) s.net.gateTab } }
  | 4 =>
    let m := entFld v 6 2 % 512
    if 512 ≤ ix ∨ (256 ≤ m ∧ m ≠ 511) then none
    else some { s with net := { s.net with filtTab := Tab.set 0 ix (v &&& tableMask 4 part v) s.net.filtTab } }
  | 5 =>
    if 256 ≤ ix then none
    else
      let cur := entFld (Tab.get 0 s.net.meterTab ix) 12 1 / 8 % 2
      let w := v &&& tableMask 5 part v
      let v1 := if cur = 0 then entPut w 12 1 (entFld w 12 1 % 8) else w
      some { s with net := { s.net with meterTab := Tab.set 0 ix v1 s.net.meterTab } }
  | 6 =>
    let rec' : Bool := entFld v 0 1 / 2 % 2 = 1
    let x := s.frer ix
    let old := entFld (Tab.get 0 s.net.frerTab ix) 0 1
    if 128 ≤ ix ∨ 64 < entFld v 1 1 ∨ (rec' ∧ (entFld v 1 1 = 0 ∨ ¬ roOk (entFld v 4 2) x.seq.toNat)) then none
    else
      let s1 := { s with net := { s.net with frerTab := Tab.set 0 ix (entPut (v &&& tableMask 6 part v) 4 2 0) s.net.frerTab } }
      some (if ¬ rec' then s1.setFrer ix { seq := BitVec.ofNat 16 (entFld v 4 2) }
        else if old % 4 = 3 then s1 else s1.setFrer ix {})
  | 7 => if 128 ≤ ix ∨ 10 ≤ ix % 16 ∨ 5 ≤ part then none else some (s.writeSa ix part (v &&& tableMask 7 part v))
  | _ => none

/-- A write of NSW_TBL_CMD with GO: the access begins with the index and the data as they stand; while one is in progress it
is ignored. -/
def State.writeTblCmd (s : State) (v : Word) : State :=
  if ¬ wbit v 15 ∨ s.net.access.isSome ∨ ¬ s.switchLive then s
  else
    let d := s.reg .NSW_TBL_IDX 0 :: (upto 8).map fun i => s.reg .NSW_TBL_D i
    { s with net := { s.net with access := some v, accessData := d } }.setBit .NSW_TBL_STAT 0 15 true

/-- NSW_TABLE_READ (R363). -/
def execNswTableRead (v : Word) (s : State) : Host.Outcome State Fault Refusal := .next (s.writeTblCmd v)
/-- NSW_TABLE_WRITE (R363). -/
def execNswTableWrite (v : Word) (s : State) : Host.Outcome State Fault Refusal := .next (s.writeTblCmd v)
/-- NSW_COUNTER_CLEAR (R363). -/
def execNswCounterClear (v : Word) (s : State) : Host.Outcome State Fault Refusal := .next (s.writeTblCmd v)

/-- The eight data words as an entry. -/
def dataEntry (l : List Word) : BitVec 128 := BitVec.ofNat 128 (l.foldr (fun w n => w.toNat + 65536 * n) 0)

/-- An access ends: its effect between lookups, the data of a read, DONE, and ERR where it was refused. -/
def State.tableDone (s : State) (v : Word) (ix : Nat) (d : List Word) : State :=
  let sel := wfld v 12 9
  let part := wfld v 8 6
  let done (s : State) (err : Bool) : State :=
    let s1 := (s.setBit .NSW_TBL_STAT 0 15 false).setBit .NSW_TBL_STAT 0 14 true
    if err then s1.setBit .NSW_TBL_STAT 0 13 true else s1
  if wbit v 14 then
    match s.tableWrite sel ix part (dataEntry d) with
    | some s1 => done s1 false
    | none => done s true
  else match s.tableRead sel ix part with
    | (none, s1) => done s1 true
    | (some e, s1) =>
      let s2 := (upto 8).foldl (fun s i => s.setReg .NSW_TBL_D i (BitVec.ofNat 16 (entFld e (2 * i) 2))) s1
      let s3 := if wbit v 13 ∧ sel = 8 then { s2 with net := { s2.net with counters := Tab.set 0 ix 0 s2.net.counters } } else s2
      done s3 false

/-- NSW_TABLE_DONE (R363). -/
def execNswTableDone (s : State) : Host.Outcome State Fault Refusal :=
  .next (match s.net.access with
    | none => s
    | some v =>
      let s1 := { s with net := { s.net with access := none, accessData := [] } }
      s1.tableDone v ((s.net.accessData.getD 0 0).toNat % 4096) (s.net.accessData.drop 1))

/-! ### Read indices of buffers and rings (R222, R361) -/

/-- A software write of RD of NSW ring r: the transmit rings' RD is the device's. -/
def State.writeNswRd (s : State) (r : Nat) (v : Word) : State :=
  if r % 2 = 1 then s
  else s.setReg .NSW_RING_RD r (BitVec.ofNat 16 (rdWrite (s.nswRing r).slots (s.fld .NSW_RING_WR r 7 0) (s.fld .NSW_RING_RD r 7 0) (wfld v 7 0)))

/-- A software write of RD of FNET ring r. -/
def State.writeFnetRd (s : State) (r : Nat) (v : Word) : State :=
  if r % 2 = 1 then s
  else s.setReg .FNET_RING_RD r (BitVec.ofNat 16 (rdWrite (s.fnetRing r).slots (s.fld .FNET_RING_WR r 4 0) (s.fld .FNET_RING_RD r 4 0) (wfld v 4 0)))

/-- SLOT_RD_WRITE (R222, R361). -/
def execSlotRdWrite (r : SlotReg) (v : Word) (s : State) : Host.Outcome State Fault Refusal :=
  .next (match r with
    | .fieldBuffer b => s.writeFbRd b v
    | .captureRing r => s.writeCrRd r v
    | .nswRing r => if s.switchLive then s.writeNswRd r v else s
    | .fnetRing r => s.writeFnetRd r v)

/-! ### Registers computed when they are read -/

/-- NSW_ROSTER_CNT, NSW_ROSTER_EVT, NSW_POOL_CELLS and NSW_POOL_FREE. -/
def State.rosterCount (s : State) : Word := BitVec.ofNat 16 (s.net.roster.filter fun e => rosKind e.2 ≠ 0).length
/-- See rosterCount. -/
def State.rosterEvt (s : State) : Word := s.net.events.headD 0

end Sys2Proof.Machine
end

