-- ==== Sys2Proof/Machine/Locks.lean ====
section
/-! DEFINITION. The TLB lock commands (12_translation.md), software interrupts (11_privilege_and_traps.md), the rollback
count and the start of a relay (01_bond_image.md). -/

namespace Sys2Proof.Machine

open Sys2Proof

/-! ### TLB locks (R320, R330) -/

/-- The lock registers of a die: VA_LO, VA_HI, ASID, STAT. -/
def lockRegs : Die → RegKind × RegKind × RegKind × RegKind
  | .c => (.XLAT_LK_VA_LO, .XLAT_LK_VA_HI, .XLAT_LK_ASID, .XLAT_LK_STAT)
  | .f => (.FXLAT_LK_VA_LO, .FXLAT_LK_VA_HI, .FXLAT_LK_ASID, .FXLAT_LK_STAT)

/-- The lock command in progress on a die. -/
def State.lock (s : State) : Die → Option LockCmd
  | .c => s.lockC
  | .f => s.lockF

/-- The state with it replaced. -/
def State.setLock (s : State) (d : Die) (l : Option LockCmd) : State :=
  match d with
  | .c => { s with lockC := l }
  | .f => { s with lockF := l }

/-- A write of XLAT_LK_CMD or FXLAT_LK_CMD: ignored while BUSY. -/
def State.writeLkCmd (s : State) (d : Die) (v : Word) : State :=
  let (lo, hi, as, st) := lockRegs d
  let core := match d with
    | .c => wfld v 10 8
    | .f => 8 + wfld v 9 8
  if ¬ wbit v 15 ∨ (s.lock d).isSome ∨ (d = .c ∧ s.pw.cReset) then s
  else (s.setLock d (some { core, slot := wfld v 2 0, load := ¬ wbit v 14, va := BitVec.ofNat 32 (s.pair lo hi 0),
                            asid := BitVec.ofNat 8 (s.fld as 0 7 0) })).setBit st 0 15 true

/-- TLB_LOCK_LOAD (R320). -/
def execTlbLockLoad (die : Die) (v : Word) (s : State) : Host.Outcome State Fault Refusal := .next (s.writeLkCmd die v)
/-- TLB_LOCK_RELEASE (R330). -/
def execTlbLockRelease (die : Die) (v : Word) (s : State) : Host.Outcome State Fault Refusal := .next (s.writeLkCmd die v)

/-- The leaf of a lock load: walked through the core's data port, with A set and no rights check (R320). -/
def State.lockLeaf (s : State) (c : CoreId) (l : LockCmd) : Except XFault Leaf × State :=
  match s.walk (dataPort c) (s.xlatAtb (coreDie c)) l.asid l.va.toNat with
  | (.error e, s1) => (.error e, s1)
  | (.ok x, s1) =>
    if x.ident || wbit x.flags 13 then (.ok x, s1)
    else match s1.casEntry (dataPort c) x (x.marked false) with
      | (.error e, s2) => (.error e, s2)
      | (.ok (some y), s2) => (.ok y, s2)
      | (.ok none, s2) => (.error .notValid, s2)

/-- TLB_LOCK_DONE (R320, R330): DONE with its CAUSE; a load places its leaf in the slot, a release empties it. -/
def execTlbLockDone (die : Die) (s : State) : Host.Outcome State Fault Refusal :=
  let (_, _, _, st) := lockRegs die
  let done (s : State) (cause : Nat) : State := ((s.setBit st 0 15 false).setBit st 0 14 true).setFld st 0 5 0 cause
  .next (match s.lock die with
    | none => s
    | some l =>
      let s1 := s.setLock die none
      match coreOf l.core with
      | none => done s1 0
      | some c =>
        let (kind, i) := lkValid c
        let put (s : State) (x : Option Leaf) : State :=
          (s.modCore c fun k => { k with locked := Tab.set none l.slot x k.locked }).setBit kind i l.slot x.isSome
        if ¬ l.load then done (put s1 none) 0
        else match s1.lockLeaf c l with
          | (.ok x, s2) => done (put s2 (some x)) 0
          | (.error e, s2) => done s2 (e.cause false))

/-! ### Software interrupts (R309) -/

/-- A write of HINT_SWI or FHINT_SWI. -/
def State.writeSwi (s : State) (v : Word) : State := if wbit v 15 then s.raise (wfld v 3 0) 10 else s

/-- SOFTWARE_INTERRUPT (R309). -/
def execSoftwareInterrupt (die : Die) (v : Word) (s : State) : Host.Outcome State Fault Refusal :=
  .next (if die = .c ∧ s.pw.cReset then s else s.writeSwi v)

/-! ### Rollback and the start of a relay (R29, R37) -/

/-- A write of BIMG_RB_CMD. -/
def State.writeRbCmd (s : State) (v : Word) : State :=
  let t := s.fld .BIMG_RB 0 14 8
  if v = 0xA5C3 ∧ s.lay.fuseTarget = none ∧ s.fld .BIMG_STATUS 0 11 10 ≠ 0 ∧ s.ks.count < t ∧ s.param 1428 = 1 then
    { s with lay := { s.lay with fuseTarget := some t } }
  else s

/-- ROLLBACK_ADVANCE (R29). -/
def execRollbackAdvance (key : Word) (s : State) : Host.Outcome State Fault Refusal := .next (s.writeRbCmd key)

/-- FUSE_BLOW_DONE (R29): one fuse more. -/
def execFuseBlowDone (s : State) : Host.Outcome State Fault Refusal :=
  .next (match s.lay.fuseTarget with
    | none => s
    | some t =>
      let n := s.ks.count + 1
      { s with ks := { s.ks with count := n }, lay := { s.lay with fuseTarget := if t ≤ n then none else some t } })

/-- A write of BIMG_RELAY_CTRL (R37): a GO while BUSY sets COLLIDE; during a C-die phase it waits for the phase's end. -/
def State.writeRelayGo (s : State) (v : Word) : State :=
  if ¬ wbit v 0 then s
  else if s.bit .BIMG_RELAY_STAT 0 15 then s.setBit .BIMG_RELAY_STAT 0 13 true
  else
    let s1 := s.setBit .BIMG_RELAY_STAT 0 15 true
    { s1 with lay := { s1.lay with relayWaiting := s.fld .BIMG_STATUS 0 3 0 = 5 } }

/-- RELAY_GO (R37). -/
def execRelayGo (v : Word) (s : State) : Host.Outcome State Fault Refusal := .next (s.writeRelayGo v)

end Sys2Proof.Machine
end

