-- ==== Sys2Proof/Machine/Regs.lean ====
section
/-! DEFINITION. What a control register shows when it is read (R8, R10), and what a write of it does. -/

namespace Sys2Proof.Machine

open Sys2Proof

/-! ### Reads -/

/-- Bits [16i + 15 : 16i] of a number. -/
def word16 (n i : Nat) : Word := BitVec.ofNat 16 (n / 65536 ^ i)

/-- The parameter word that BIMG_PIDX selects (R40, R42); those of a template slot read 0 while it is empty (R124). -/
def State.pval (s : State) : Nat :=
  let i := s.fld .BIMG_PIDX 0 10 0
  if 1432 ≤ i then 0
  else if 906 ≤ i ∧ i < 1034 then
    (match Tab.get none s.templates ((i - 906) / 2) with
    | some t => if s.fld .BIMG_PIDX 0 13 11 ≠ 0 then 0 else if i % 2 = 0 then t.header.toNat else t.ecoef.toNat
    | none => 0)
  else (Tab.get (0 : W32) s.lay.params (8 * i + s.fld .BIMG_PIDX 0 13 11)).toNat

/-- CRS_STAT (R200). -/
def State.crsStat (s : State) (c : Nat) : Word :=
  let x := s.course c
  let st := match x.state with
    | .search => 0
    | .sync => 1
    | .locked => 2
    | .coast => 3
    | .lost => 4
  BitVec.ofNat 16 (b2n x.running * 32768 + b2n (x.relayHold || s.bit .CRS_CTRL c 15 ≠ x.running) * 16384 + st * 256 + b2n x.rev * 128 + b2n x.camOk * 64)

/-- S as CRS_SPD shows it (R200). -/
def State.crsSpd (s : State) (c : Nat) : Nat :=
  let x := s.course c
  if x.state = .search ∨ x.state = .lost then 0 else unsigned 32 x.s

/-- KILN_ZSTAT (R177). -/
def State.zstat (s : State) (z : Nat) : Word :=
  let x := s.zone z
  BitVec.ofNat 16 (b2n (x.gen < 0) * 32768 + b2n x.sensErr * 16384 + x.region * 4096 + x.sensOk.toNat)

/-- Physical units of a kind, from lo, n of them, that are neither failed nor bound. -/
def State.freeUnits (s : State) (kind lo n : Nat) (bound : Tab (Option Nat)) : Nat :=
  ((upto n).filter fun i => ¬ s.spr.failed.contains ⟨BitVec.ofNat 8 kind, BitVec.ofNat 9 (lo + i)⟩ &&
    bound.all fun e => e.2 ≠ some (lo + i)).length

/-- Failed slices of a cluster. -/
def State.failedSlices (s : State) (n : Nat) : List Nat :=
  (upto 10).filter fun k => s.spr.failed.contains ⟨3, BitVec.ofNat 9 (10 * n + k)⟩

/-- SPR_SPARE_C (R384). -/
def State.spareC (s : State) : Word :=
  let sl := (upto 4).foldl (fun a n => a + (2 - min 2 (s.failedSlices n).length) * 4 ^ n) 0
  BitVec.ofNat 16 (s.freeUnits 1 256 16 s.spr.bindC * 2048 + b2n (s.spr.hcSpare.isNone && ¬ s.spr.failed.contains ⟨4, 8⟩) * 1024 + sl)

/-- SPR_SPARE_F (R384). -/
def State.spareF (s : State) : Word :=
  let lanes (d : Dir) : Nat := 2 - min 2 (s.failedLanes d).length
  BitVec.ofNat 16 (s.freeUnits 2 64 4 s.spr.bindF * 8192 + b2n (s.spr.hfSpare.isNone && ¬ s.spr.failed.contains ⟨5, 4⟩) * 4096 +
    b2n (s.spr.adSpare.isNone && ¬ s.spr.failed.contains ⟨6, 4⟩) * 2048 + lanes .cf * 4 + lanes .fc)

/-- Absent logical units of a kind below n, with the unit the spare serves (R379). -/
def State.absent (s : State) (kind n : Nat) (spare : Option Nat) : Nat :=
  (upto n).foldl (fun a i => a + b2n (s.spr.failed.contains ⟨BitVec.ofNat 8 kind, BitVec.ofNat 9 i⟩ && spare ≠ some i) * 2 ^ i) 0

/-- ADC_MAP (R379). -/
def State.adcMap (s : State) : Word :=
  BitVec.ofNat 16 ((upto 4).foldl (fun a i => a + (if s.spr.adSpare = some i then 4 else i) * 16 ^ i) 0)

/-- ML_MAP (R384): failed lanes in the order marked. -/
def State.mlMap (s : State) (d : Dir) (stored : Word) : Word :=
  let l := s.failedLanes d
  putFld (putFld (putFld stored 14 13 (min 2 l.length)) 12 8 (l.getD 1 31)) 4 0 (l.getD 0 31)

/-- ML_LSTAT without the eye opening (R384); while the link is OFF or DOWN no lane has a position. Log entry 55. -/
def State.mlLstat (s : State) : Word :=
  let n := s.fld .ML_LSEL 0 5 0
  if 36 ≤ n then 0
  else
    let d : Dir := if n < 18 then .fc else .cf
    let failed := (s.failedLanes d).contains (n % 18)
    let pos := s.lanePos d (n % 18)
    let off := s.mlState = 0 || s.mlState = 9
    BitVec.ofNat 16 (b2n (¬ failed && 3 ≤ s.mlState && s.mlState ≤ 8) * 32768 + b2n failed * 16384 +
      b2n (¬ failed && ¬ off && pos.isNone) * 8192 + (if off then 31 else pos.getD 31) * 256)

/-- Entry bytes 2i and 2i + 1 of the record entry selected. -/
def State.recData (s : State) (i : Nat) : Word := word16 (s.spr.record.getD (s.fld .SPR_REC_IDX 0 7 0) 0).toNat i

/-- Cells of group g in a state, as a mask. -/
def State.cellMask (s : State) (g st : Nat) : Word :=
  BitVec.ofNat 16 ((upto 16).foldl (fun a b => a + b2n ((s.cell (16 * g + b)).state = st) * 2 ^ b) 0)

/-- Whether a cluster runs a block (R151). -/
def State.clusterBusy (s : State) (n : Nat) : Bool := s.bricks.any fun e => e.2.running && e.2.clusters.contains n

/-- UP of an internal port: its receive ring is enabled. Log entry 62. -/
def State.pstat (s : State) (p : Nat) (stored : Word) : Word := if p < 22 then stored else putBit stored 15 (wbit (s.rxRing p).1.cfg 15)

/-- The debug level in force (R35, R403). -/
def State.dbgLevel (s : State) : Nat := if s.lay.sealApplied then s.param 1426 % 4 else s.ks.debugPolicy.toNat

/-- What register i of a kind shows: the stored word, or what the fields it shows hold. -/
def State.shown (s : State) (k : RegKind) (i : Nat) : Word :=
  let w := s.reg k i
  if k.die = .c then
    if k = .CID_UID then word16 Config.uidC.toNat i
    else if k = .XBAR_CCNT_LO ∨ k = .XBAR_CCNT_HI then
      word16 (Tab.get (0 : W32) s.ccnt (ccntKey .c (s.fld .XBAR_CSEL 0 13 8) (s.fld .XBAR_CSEL 0 3 0))).toNat (if k = .XBAR_CCNT_LO then 0 else 1)
    else if k = .VX_QSTAT then
      let n := (s.queue i).entries.length
      BitVec.ofNat 16 (b2n (n = 64) * 32768 + b2n (s.bit .VX_QERR i 15) * 16384 + n)
    else if k = .VX_TABLES then
      BitVec.ofNat 16 ((upto 8).foldl (fun a t => a + b2n (s.bricks.any fun e => e.2.table = some t) * 2 ^ t) 0)
    else if k = .BOND_VCSTAT then putBit w 14 (s.clusterBusy i)
    else if k = .KILN_ZSTAT then s.zstat i
    else if k = .KILN_ZTEMP then BitVec.ofInt 16 (s.zone i).temp
    else if k = .KILN_ZRATE then BitVec.ofNat 16 (s.zone i).rate
    else if k = .KILN_ZGEN_LO then word16 (unsigned 32 (s.zone i).gen) 0
    else if k = .KILN_ZGEN_HI then word16 (unsigned 32 (s.zone i).gen) 1
    else if k = .KILN_ZRTB_LO then word16 (unsigned 32 (s.zone i).rtb) 0
    else if k = .KILN_ZRTB_HI then word16 (unsigned 32 (s.zone i).rtb) 1
    else if k = .NSW_POOL_CELLS then BitVec.ofNat 16 (s.poolCells / 16)
    else if k = .NSW_POOL_FREE then BitVec.ofNat 16 (s.freeCells / 16)
    else if k = .NSW_ROSTER_CNT then s.rosterCount
    else if k = .NSW_PSTAT then s.pstat i w
    else if k = .MIG_STAT then putFld w 11 8 (min 15 s.spr.queue.length)
    else if k = .MIG_BIND then BitVec.ofNat 16 ((s.physTile .c (s.fld .MIG_BSEL 0 7 0)).getD 0x1FF)
    else w
  else
    if k = .FID_UID then word16 Config.uidF.toNat i
    else if k = .FXBAR_CCNT_LO ∨ k = .FXBAR_CCNT_HI then
      word16 (Tab.get (0 : W32) s.ccnt (ccntKey .f (s.fld .FXBAR_CSEL 0 13 8) (s.fld .FXBAR_CSEL 0 1 0))).toNat (if k = .FXBAR_CCNT_LO then 0 else 1)
    else if k = .SYS_DBG then putFld w 14 13 s.dbgLevel
    else if k = .BIMG_STATUS then putBit (putBit w 15 s.lay.sealedC) 14 s.lay.sealedF
    else if k = .BIMG_RB then putFld w 6 0 s.ks.count
    else if k = .BIMG_PVAL_LO then word16 s.pval 0
    else if k = .BIMG_PVAL_HI then word16 s.pval 1
    else if k = .KS_STAT then
      BitVec.ofNat 16 (b2n s.ks.netboot * 32768 + s.ks.netport.toNat * 8192 + s.ks.revoked.toNat * 256 + s.ks.imgKey.toNat)
    else if k = .KS_DBG then s.ks.debugPolicy.setWidth 16
    else if k = .KS_STEP then BitVec.ofNat 16 (s.ks.stepC.toNat * 256 + s.ks.stepF.toNat)
    else if k = .FKILN_ZSTAT then s.zstat 5
    else if k = .FKILN_ZTEMP then BitVec.ofInt 16 (s.zone 5).temp
    else if k = .FKILN_ZRATE then BitVec.ofNat 16 (s.zone 5).rate
    else if k = .FKILN_ZGEN_LO then word16 (unsigned 32 (s.zone 5).gen) 0
    else if k = .FKILN_ZGEN_HI then word16 (unsigned 32 (s.zone 5).gen) 1
    else if k = .ML_MAP then s.mlMap (if i = 0 then .fc else .cf) w
    else if k = .SPR_STAT then putFld (putBit w 15 (256 ≤ s.spr.record.length)) 8 0 s.spr.record.length
    else if k = .SPR_SPARE_C then s.spareC
    else if k = .SPR_SPARE_F then s.spareF
    else if k = .SPR_ABSENT then
      BitVec.ofNat 16 (s.absent 5 4 s.spr.hfSpare * 4096 + s.absent 6 4 s.spr.adSpare * 256 + s.absent 4 8 s.spr.hcSpare)
    else if k = .SPR_REC_D then s.recData i
    else if k = .CRS_STAT then s.crsStat i
    else if k = .CRS_POS_LO then word16 (s.course i).vis.toNat 0
    else if k = .CRS_POS_HI then word16 (s.course i).vis.toNat 1
    else if k = .CRS_SPD_LO then word16 (s.crsSpd i) 0
    else if k = .CRS_SPD_HI then word16 (s.crsSpd i) 1
    else if k = .CRS_CORR_LO then word16 (unsigned 32 (s.course i).corr) 0
    else if k = .CRS_CORR_HI then word16 (unsigned 32 (s.course i).corr) 1
    else if k = .ADC_MAP then s.adcMap
    else if k = .CAP_FB_CFG then putBit w 15 (s.nthCarve 4 i).isSome
    else if k = .CAP_CR_CFG then putBit w 9 (s.nthCarve 2 i).isSome
    else if k = .OC_SAFEACT then s.cellMask i 2
    else if k = .OC_LIMPACT then s.cellMask i 1
    else if k = .GPTP_TIME then s.gptpWord i
    else if k = .GP_BANK then putFld (putBit w 15 (s.bankOn i)) 11 0 (Tab.get 0 s.vio i)
    else w

/-- The state in which a register of an rc kind has been read: it is 0, and an event is removed (R8, R364). -/
def State.cleared (s : State) (k : RegKind) (i : Nat) : State :=
  if k = .NSW_ROSTER_EVT then { s with net := { s.net with events := s.net.events.drop 1 } }
  else if k.rc = 0 then s
  else s.setReg k i (s.reg k i &&& ~~~k.rc)

/-- A capture is taken: the upper half that the register at address a would show (R10). -/
def State.capture (s : State) (a : Nat) : State :=
  match regAt a with
  | some (k, i) => { s with captures := Tab.set none a (some (s.shown k i)) s.captures }
  | none => s

/-- Levels of the balls of group g of the output cells. -/
def State.readLvls (s : State) (g : Nat) : Word × State :=
  (upto 16).foldl (fun (p : Word × State) b =>
    let (l, s') := p.2.readLvl (16 * g + b)
    (putBit p.1 b l, s')) (0, s)

/-- Levels of the general-purpose balls of group g. -/
def State.readGps (s : State) (g : Nat) : Word × State :=
  (upto 16).foldl (fun (p : Word × State) b =>
    let (l, s') := p.2.readGp (16 * g + b)
    (putBit p.1 b l, s')) (0, s)

/-- A read of a control register (R8, R10, R366, R399): a held capture answers once; a read of _LO captures _HI; an rc
register clears. -/
def State.readReg (s : State) (k : RegKind) (i : Nat) : Word × State :=
  let a := k.addr i
  match Tab.get none s.captures a with
  | some w => (w, { s with captures := Tab.set none a none s.captures })
  | none =>
    if k = .RTC_SUB then s.readRtcSub
    else if k = .GPTP_TIME ∧ i = 0 then s.readGptp0
    else if k = .OC_LVL then s.readLvls i
    else if k = .GP_IN then s.readGps i
    else if k = .ML_LSTAT then
      if ¬ wbit s.mlLstat 15 then (s.mlLstat, s) else let (e, s1) := s.draw; (putFld s.mlLstat 7 0 e, s1)
    else if k = .NSW_ROSTER_EVT then (s.rosterEvt, s.cleared k i)
    else match k.pair with
      | some (false, b) => (s.shown k i, s.capture (b + k.stride * i))
      | _ => (s.shown k i, s.cleared k i)

/-! ### Writes -/

/-- The write of one word under the access codes. -/
def State.plainWrite (s : State) (k : RegKind) (i : Nat) (v : Word) : State :=
  s.setReg k i (writtenWord k (s.sealed k.die) (s.reg k i) (v &&& k.bitsOf i))

/-- The write of _HI commits the held _LO value and the written _HI value at once (R10). -/
def State.commitPair (s : State) (k : RegKind) (i b : Nat) (v : Word) : State :=
  let la := b + k.stride * i
  let s1 : State := match regAt la with
    | some (lk, li) => s.plainWrite lk li (Tab.get 0 s.staging la)
    | none => s
  s1.plainWrite k i v

/-- The logical core whose data port a master is. -/
def coreOfMaster (m : Master) : Option CoreId :=
  match m.die with
  | .c => if m.num < 8 then coreOf m.num else none
  | .f => if m.num < 4 then coreOf (8 + m.num) else none

/-- A write of _HI of a split quantity. -/
def State.writeHi (s : State) (k : RegKind) (i b : Nat) (v : Word) : State :=
  if k = .JNT_POS_HI then s.jarm i v
  else if k = .JNT_INC_HI then (if s.armed i then s else s.commitPair k i b v)
  else if k = .MOD_SYNC_HI then s.writeModSync v
  else if k = .RTC_SEC_HI then (s.commitPair k i b v).setReg .RTC_SUB 0 0
  else if k = .GPTP_RATE_HI then (s.commitPair k i b v).gptpUpdate
  else s.commitPair k i b v

/-- A write of a C-die register that is no half of a pair. -/
def State.writeC (s : State) (k : RegKind) (i : Nat) (v : Word) : State :=
  if k = .TILE_PWR then s.tilePower .c i v
  else if k = .XBAR_CCTL then s.writeCctl .c v
  else if k = .VX_QCTRL then (if wbit v 0 then s.flush i else s)
  else if k = .HINT_SWI then s.writeSwi v
  else if k = .XLAT_LK_CMD then s.writeLkCmd .c v
  else if k = .NSW_TBL_CMD then s.writeTblCmd v
  else if k = .NSW_RING_WR then (if i % 2 = 0 then s else s.plainWrite k i v)
  else if k = .NSW_RING_RD then s.writeNswRd i v
  else if k = .BPHY_PCFG then s.writePortCfg i v
  else if k = .BPHY_LCTL then s.writeLctl i v
  else if k = .MIG_CMD then s.writeMigCmd v
  else s.plainWrite k i v

/-- A write of a register of the modulators, output cells, F-die ports and the clock. -/
def State.writeOut (s : State) (k : RegKind) (i : Nat) (v : Word) : State :=
  if k = .MOD_CTRL then s.writeModCtrl i v
  else if k = .OC_CFG then ((s.plainWrite k i v).writtenFirst i).evalCell i
  else if k = .OC_SAFE then ((s.plainWrite k i v).evalCell i).tripCells
  else if k = .OC_FLT then (s.plainWrite k i v).evalCells
  else if k = .OC_TRIPPED then s.writeTripped i v
  else if k = .OC_CTRL then s.writeOcCtrl v
  else if k = .MT_CFG then s.writePortCfg (4 + i) v
  else if k = .TS_CFG then s.writePortCfg (8 + i) v
  else if k = .CN_CFG then s.writePortCfg (14 + i) v
  else if k = .FNET_RING_WR then (if i = 0 then s else s.plainWrite k i v)
  else if k = .FNET_RING_RD then s.writeFnetRd i v
  else if k = .GPTP_CTL then s.writeGptpCtl v
  else if k = .GPTP_STEP then s.writeGptpStep i v
  else s.plainWrite k i v

/-- A write of a register of the capture units. -/
def State.writeCap (s : State) (k : RegKind) (i : Nat) (v : Word) : State :=
  if k = .CAP_SWTRIG then s.writeSwtrig v
  else if k = .CAP_DEF_CTRL then s.writeDefCtrl i v
  else if k = .CAP_DEF_LIST ∨ k = .CAP_DEF_REP ∨ k = .CAP_DEF_INTV ∨ k = .CAP_DEF_PER then
    (if s.capFrozen i then s else s.plainWrite k i v)
  else if k = .CAP_FB_CFG then s.writeFbCfg i v
  else if k = .CAP_FB_RD then s.writeFbRd i v
  else if k = .CAP_CR_CFG then s.writeCrCfg i v
  else if k = .CAP_CR_RD then s.writeCrRd i v
  else s.writeOut k i v

/-- A write of a register of the courses, joints and converters. -/
def State.writeMeas (s : State) (k : RegKind) (i : Nat) (v : Word) : State :=
  if k = .CRS_CTRL then s.writeCrsCtrl i v
  else if k = .JNT_CFG then s.writeJntCfg i v
  else if k = .JNT_TGT ∨ k = .JNT_ARG then (if s.armed i then s else s.plainWrite k i v)
  else if k = .ADC_CTRL then s.writeAdcCtrl i v
  else if k = .ADC_SWCONV then s.writeSwconv v
  else if k = .SD_CFG then s.writeSdCfg i v
  else if k = .SD_CLK then s.writeSdClk v
  else if k = .CP_CFG then s.writeCpCfg i v
  else if k = .CP_DAC then s.writeCpDac i v
  else s.writeCap k i v

/-- A write of an F-die register that is no half of a pair, by master m. -/
def State.writeF (s : State) (m : Master) (k : RegKind) (i : Nat) (v : Word) : State :=
  if k = .FTILE_PWR then s.tilePower .f i v
  else if k = .FXBAR_CCTL then s.writeCctl .f v
  else if k = .SYS_RST_CMD then s.writeRstCmd v
  else if k = .SYS_RAIL then s.writeRail v
  else if k = .SYS_CRUN then s.writeCrun v
  else if k = .SYS_PARK then s.writePark v
  else if k = .SYS_WDT_CFG then s.writeWdt i v
  else if k = .SYS_WDT_KICK then (match coreOfMaster m with
    | some c => s.kick c v
    | none => s)
  else if k = .BIMG_RB_CMD then s.writeRbCmd v
  else if k = .BIMG_RELAY_CTRL then s.writeRelayGo v
  else if k = .FHINT_SWI then s.writeSwi v
  else if k = .FHINT_CRST then s.writeCrst v
  else if k = .FXLAT_LK_CMD then s.writeLkCmd .f v
  else if k = .SPR_REQ_CMD then s.writeSprReq v
  else s.writeMeas k i v

/-- A write of a control register by a master (R8 to R10): _LO is staged, _HI commits, other registers are written under
their access codes and trigger what their chapter gives them. -/
def State.writeReg (s : State) (m : Master) (k : RegKind) (i : Nat) (v : Word) : State :=
  match k.pair with
  | some (false, _) =>
    if k = .JNT_INC_LO ∧ s.armed i then s else { s with staging := Tab.set 0 (k.addr i) v s.staging }
  | some (true, b) => s.writeHi k i b v
  | none =>
    match k.die with
    | .c => s.writeC k i v
    | .f => s.writeF m k i v

/-- RTC_SUB_CAPTURE (R399). -/
def execRtcSubCapture (s : State) : Host.Outcome State Fault Refusal :=
  let (w, s1) := s.readReg .RTC_SUB 0
  .next (s1.answer (.ok (w.setWidth 64)))

/-- RTC_SEC_COMMIT (R399): the write of RTC_SEC_HI. -/
def execRtcSecCommit (v : Word) (s : State) : Host.Outcome State Fault Refusal :=
  .next (s.writeReg ⟨.f, 0⟩ .RTC_SEC_HI 0 v)

end Sys2Proof.Machine
end

