-- ==== Sys2Proof/Machine/Bus.lean ====
section
/-! DEFINITION. An access of a master to any address: memory, or a control register (R6, R429, R433). -/

namespace Sys2Proof.Machine

open Sys2Proof

/-- The control space an address lies in. -/
def controlDie (a : Nat) : Option Die :=
  if 0x80000000 ≤ a ∧ a < 0x8000F000 then some .c else if 0x90000000 ≤ a ∧ a < 0x9001A000 then some .f else none

/-- The register that an access of n bytes at a names, or the cause of its error response (R6, R429). -/
def regAccess (a n : Nat) : Answer (RegKind × Nat) :=
  if n ≠ 2 ∨ a % 2 ≠ 0 then .error 6
  else match regAt a with
    | some r => .ok r
    | none => .error 0

/-- A read of n bytes at a by master m. -/
def State.readBus (s : State) (m : Master) (a n : Nat) : Answer (List Byte) × State :=
  match controlDie a with
  | none => s.readMem m a n
  | some d => match s.path m a false false with
    | (.error c, s1) => (.error c, s1)
    | (.ok _, s1) => match regAccess a n with
      | .error c => (.error c, s1.logError (presenting m d) c.toNat false a)
      | .ok (k, i) => let (w, s2) := s1.readReg k i; (.ok (leBytes 2 w.toNat), s2)

/-- A write of bytes at a by master m. -/
def State.writeBus (s : State) (m : Master) (a : Nat) (bs : List Byte) : Answer Unit × State :=
  match controlDie a with
  | none => s.writeMem m a bs
  | some d => match s.path m a true false with
    | (.error c, s1) => (.error c, s1)
    | (.ok _, s1) => match regAccess a bs.length with
      | .error c => (.error c, s1.logError (presenting m d) c.toNat true a)
      | .ok (k, i) => (.ok (), s1.writeReg m k i (BitVec.ofNat 16 (leNat bs)))

/-- The answer of a read of 16 bits. -/
def State.answerRead (r : Answer (List Byte) × State) : State :=
  r.2.answer (match r.1 with
    | .ok l => .ok (BitVec.ofNat 64 (leNat l))
    | .error c => .error c)

/-- The answer of a write. -/
def State.answerWrite (r : Answer Unit × State) : State :=
  r.2.answer (match r.1 with
    | .ok _ => .ok 0
    | .error c => .error c)

/-- SPLIT_LO_READ (R10). -/
def execSplitLoRead (m : Master) (addr : PAddr) (s : State) : Host.Outcome State Fault Refusal :=
  .next (if m.wf then State.answerRead (s.readBus m addr.toNat 2) else s)

/-- SPLIT_HI_READ (R10). -/
def execSplitHiRead (m : Master) (addr : PAddr) (s : State) : Host.Outcome State Fault Refusal :=
  .next (if m.wf then State.answerRead (s.readBus m addr.toNat 2) else s)

/-- SPLIT_LO_WRITE (R10). -/
def execSplitLoWrite (m : Master) (addr : PAddr) (v : Word) (s : State) : Host.Outcome State Fault Refusal :=
  .next (if m.wf then State.answerWrite (s.writeBus m addr.toNat (leBytes 2 v.toNat)) else s)

/-- SPLIT_HI_WRITE (R10). -/
def execSplitHiWrite (m : Master) (addr : PAddr) (v : Word) (s : State) : Host.Outcome State Fault Refusal :=
  .next (if m.wf then State.answerWrite (s.writeBus m addr.toNat (leBytes 2 v.toNat)) else s)

/-- RC_READ (R8): an event counted in the cycle of the read is kept for the next read. -/
def execRcRead (m : Master) (addr : PAddr) (event : Bool) (s : State) : Host.Outcome State Fault Refusal :=
  let r := s.readBus m addr.toNat 2
  .next (if ¬ m.wf then s else State.answerRead (match r.1, regAt addr.toNat with
    | .ok _, some (k, i) => if event ∧ k.rc = 0xFFFF then (r.1, r.2.count k i) else r
    | _, _ => r))

/-- REGISTER_WRITE (R6 to R9): a write of a width in bits. `events` are the bits that the hardware sets in the cycle of the
write, by an event that has raised its interrupt: over a clearing write they win, and the bit reads 1 (R8; log entry 85). -/
def execRegisterWrite (m : Master) (addr : PAddr) (bits : Nat) (v : Word) (s : State) (events : Word := 0) : Host.Outcome State Fault Refusal :=
  let r := s.writeBus m addr.toNat (leBytes (bits / 8) v.toNat)
  .next (if ¬ m.wf then s else State.answerWrite (match r.1, regAt addr.toNat with
    | .ok _, some (k, i) => (r.1, r.2.setReg k i (r.2.reg k i ||| (events &&& v &&& k.w1c)))
    | _, _ => r))

end Sys2Proof.Machine
end

