-- ==== Sys2Proof/Machine/Flags.lean ====
section
/-! DEFINITION. Results and flags of the hod instructions (R251, R257, R258, R261 to R264, R271). -/

namespace Sys2Proof.Machine

open Sys2Proof

/-- The PSW bits an instruction writes, with their values; the others stay (R258). -/
structure Upd where
  mask : Word := 0
  val : Word := 0
  deriving DecidableEq, Repr

/-- Bit b of PSW is written as v: 1 C, 2 Z, 3 N, 4 V, 8 DZ, 9 D, 10 Q, 12 RP (R251). -/
def Upd.put (u : Upd) (b : Nat) (v : Bool) : Upd := { mask := putBit u.mask b true, val := putBit u.val b v }

/-- A PSW after the update. -/
def Upd.on (u : Upd) (w : Word) : Word := (w &&& ~~~u.mask) ||| (u.val &&& u.mask)

/-- Z and N of a result. -/
def znOf (r : Word) : Upd := (({} : Upd).put 2 (r = 0)).put 3 r.msb

/-- Z of a chained instruction: cleared by a non-zero result, otherwise left. -/
def Upd.zChain (u : Upd) (r : Word) : Upd := if r = 0 then u else u.put 2 false

/-- Z of the result, chained or not. -/
def Upd.z (u : Upd) (chained : Bool) (r : Word) : Upd := if chained then u.zChain r else u.put 2 (r = 0)

/-! ### Sums and differences -/

/-- The carry out of bit k of a + b + cin. -/
def carryOut (a b : Word) (cin : Bool) (k : Nat) : Bool := 2 ^ (k + 1) ≤ a.toNat % 2 ^ (k + 1) + b.toNat % 2 ^ (k + 1) + b2n cin

/-- ADD, ADC, ADDI, ADDW: H holds the carries out of bits 11, 7 and 3. -/
def addOf (a b : Word) (cin chained : Bool) : Word × Upd :=
  let r := BitVec.ofNat 16 (a.toNat + b.toNat + b2n cin)
  let u := ((({} : Upd).put 1 (carryOut a b cin 15)).put 3 r.msb).put 4 (a.msb = b.msb && r.msb ≠ a.msb)
  (r, ((((u.z chained r).put 7 (carryOut a b cin 11)).put 6 (carryOut a b cin 7)).put 5 (carryOut a b cin 3)))

/-- SUB, SBC, CMP, NEG: C is the borrow. -/
def subOf (a b : Word) (bin chained : Bool) : Word × Upd :=
  let r := BitVec.ofInt 16 ((a.toNat : Int) - b.toNat - b2n bin)
  let u := ((({} : Upd).put 1 (a.toNat < b.toNat + b2n bin)).put 3 r.msb).put 4 (a.msb ≠ b.msb && r.msb ≠ a.msb)
  (r, u.z chained r)

/-- ADDP, ADDPW. -/
def addPOf (a b : W32) : W32 × Upd :=
  let r := a + b
  (r, (((({} : Upd).put 1 (2 ^ 32 ≤ a.toNat + b.toNat)).put 2 (r = 0)).put 3 r.msb).put 4 (a.msb = b.msb && r.msb ≠ a.msb))

/-- SUBP, CMPP. -/
def subPOf (a b : W32) : W32 × Upd :=
  let r := a - b
  (r, (((({} : Upd).put 1 (a.toNat < b.toNat)).put 2 (r = 0)).put 3 r.msb).put 4 (a.msb ≠ b.msb && r.msb ≠ a.msb))

/-! ### Logic and shifts -/

/-- AND, OR, XOR, ANDN, NOT and their immediates. -/
def logicOf (r : Word) : Word × Upd := (r, (znOf r).put 4 false)

/-- The shifts. -/
inductive ShiftKind where
  | shl | shr | sar | rol
  deriving DecidableEq, Repr

/-- The result of a shift by n. -/
def shiftVal (k : ShiftKind) (a : Word) (n : Nat) : Word :=
  match k with
  | .shl => a <<< n
  | .shr => a >>> n
  | .sar => a.sshiftRight n
  | .rol => a.rotateLeft (n % 16)

/-- The last bit shifted out. -/
def shiftOut (k : ShiftKind) (a : Word) (n : Nat) : Bool :=
  match k with
  | .shl => n ≤ 16 && a.getLsbD (16 - n)
  | .shr => n ≤ 16 && a.getLsbD (n - 1)
  | .sar => if n ≤ 16 then a.getLsbD (n - 1) else a.msb
  | .rol => (a.rotateLeft (n % 16)).getLsbD 0

/-- SHL, SHR, SAR, ROL by n: a count of 0 (for ROL modulo 16) leaves C. -/
def shiftOf (k : ShiftKind) (a : Word) (n : Nat) : Word × Upd :=
  let r := shiftVal k a n
  let still : Bool := match k with
    | .rol => n % 16 = 0
    | _ => n = 0
  (r, if still then znOf r else (znOf r).put 1 (shiftOut k a n))

/-! ### Multiply and divide (R261) -/

/-- MUL. -/
def mulOf (a b : Word) : Word × Upd :=
  let p := a.toInt * b.toInt
  let r := BitVec.ofInt 16 p
  (r, (znOf r).put 4 (p < -32768 || 32767 < p))

/-- MULH, MULHU. -/
def mulhOf (sgn : Bool) (a b : Word) : Word × Upd :=
  let r := if sgn then BitVec.ofInt 16 (a.toInt * b.toInt / 65536) else BitVec.ofNat 16 (a.toNat * b.toNat / 65536)
  (r, (znOf r).put 4 false)

/-- MULW, MULWU. -/
def mulwOf (sgn : Bool) (a b : Word) : W32 × Upd :=
  let r := if sgn then BitVec.ofInt 32 (a.toInt * b.toInt) else BitVec.ofNat 32 (a.toNat * b.toNat)
  (r, ((({} : Upd).put 2 (r = 0)).put 3 r.msb).put 4 false)

/-- The DIV group: quotient and remainder of n ÷ d, whose low 16 bits are low. -/
def divOf (sgn : Bool) (n d : Int) (low : Word) : (Word × Word) × Upd :=
  let flags (q : Word) (v : Bool) : Upd := (znOf q).put 4 v
  if d = 0 then
    let q : Word := if ¬ sgn then 0xFFFF else if n < 0 then 0x8000 else 0x7FFF
    ((q, low), (flags q false).put 8 true)
  else
    let q := n.tdiv d
    let out : Bool := if sgn then q < -32768 || 32767 < q else 65535 < q
    if out then
      let w : Word := if sgn then 0x8000 else 0xFFFF
      ((w, 0), flags w true)
    else ((BitVec.ofInt 16 q, BitVec.ofInt 16 (n.tmod d)), flags (BitVec.ofInt 16 q) false)

/-! ### Packed decimal (R262, R263) -/

/-- Digit i of a word. -/
def digit (w : Word) (i : Nat) : Nat := w.toNat / 16 ^ i % 16

/-- Every nibble is a digit. -/
def bcdOk (w : Word) : Bool := (upto 4).all fun i => digit w i ≤ 9

/-- The number that four digits spell. -/
def bcdNat (w : Word) : Nat := (upto 4).foldl (fun n i => n + digit w i * 10 ^ i) 0

/-- The four digits of a number below 10,000. -/
def bcdWord (n : Nat) : Word := BitVec.ofNat 16 ((upto 4).foldl (fun w i => w + n / 10 ^ i % 10 * 16 ^ i) 0)

/-- DADD, DADC and DSUB, DSBC on valid operands: C the decimal carry or borrow, Z the result or chained. -/
def decOf (sub : Bool) (a b : Word) (cin chained : Bool) : Word × Upd :=
  let x := bcdNat a
  let y := bcdNat b + b2n cin
  let (r, c) := if sub then (bcdWord ((x + 20000 - y) % 10000), decide (x < y)) else (bcdWord ((x + y) % 10000), decide (10000 ≤ x + y))
  (r, (({} : Upd).put 1 c).z chained r)

/-- One digit of DAJ: k and the word so far. -/
def dajDigit (w : Word) (psw : Word) (st : Bool × Nat) (i : Nat) : Bool × Nat :=
  let c := if i < 3 then wbit psw (5 + i) else wbit psw 1
  let t := digit w i + b2n st.1
  let t := if c || 9 < t then t + 6 else t
  (!c && 15 < t, st.2 + t % 16 * 16 ^ i)

/-- DAJ. -/
def dajOf (w psw : Word) : Word × Upd :=
  let st := (upto 4).foldl (dajDigit w psw) (false, 0)
  let r := BitVec.ofNat 16 st.2
  (r, (({} : Upd).put 1 (wbit psw 1 || st.1)).put 2 (r = 0))

/-! ### CRC steps (R264) -/

/-- CRC16 and CRCM16. -/
def crc16Step (r d : Word) : Word := BitVec.ofNat 16 (crc16Byte (crc16Byte r.toNat (d.toNat % 256)) (d.toNat / 256))

/-- CRC32, CRCM32 (polynomial 0x04C1_1DB7) and CRC32C (0x1EDC_6F41), reflected. -/
def crc32Step (castagnoli : Bool) (r : W32) (d : Word) : W32 :=
  let p := if castagnoli then 0x82F63B78 else 0xEDB88320
  BitVec.ofNat 32 (crcByteR p (crcByteR p r.toNat (d.toNat % 256)) (d.toNat / 256))

/-! ### Conditions (R257) -/

/-- Whether a condition holds under PSW. -/
def condHolds (psw : Word) (cond : BitVec 4) : Bool :=
  let c := wbit psw 1
  let z := wbit psw 2
  let n := wbit psw 3
  let v := wbit psw 4
  match cond.toNat with
  | 0 => z
  | 1 => !z
  | 2 => c
  | 3 => !c
  | 4 => n
  | 5 => !n
  | 6 => v
  | 7 => !v
  | 8 => !c && !z
  | 9 => c || z
  | 10 => n = v
  | 11 => n ≠ v
  | 12 => !z && n = v
  | 13 => z || n ≠ v
  | 14 => true
  | _ => wbit psw 10

end Sys2Proof.Machine
end

