-- ==== Sys2Proof/Machine/Operands.lean ====
section
/-! DEFINITION. The registers that an instruction of a hod core names (R246 to R252, R295, R305): windows, banks, pairs,
special registers, flags, and what a trap carries. -/

namespace Sys2Proof.Machine

open Sys2Proof

/-! ### Physical registers (R246, R247, R303) -/

/-- NWIN of a core (R247). -/
def nwin (c : CoreId) : Nat := if c.val < 8 then 12 else 8

/-- The window after w. -/
def winUp (c : CoreId) (w : Nat) : Nat := (w + 1) % nwin c

/-- The window before w. -/
def winDown (c : CoreId) (w : Nat) : Nat := (w + nwin c - 1) % nwin c

/-- The physical number of L[w] register i. -/
def localReg (w i : Nat) : Nat := 16 + 16 * w + i

/-- The physical number of A[w] register i. -/
def argReg (w i : Nat) : Nat := 24 + 16 * w + i

/-- The window that XINFO.XWIN names; which window a number beyond the ring names is free. Log entry 72. -/
def xwinOf (c : CoreId) (info : Word) : Nat :=
  let w := wfld info 9 6
  if w < nwin c then w else Config.freeNat w % nwin c

/-- The physical register that number r names on the running path; none for g0 (R246, R247, R296, R303). -/
def Core.phys (k : Core) (c : CoreId) (r : Nat) : Option Nat :=
  if r = 0 then none
  else match k.path with
    | .sb1 =>
      if wbit k.x1.xinfo 15 && 16 ≤ r then
        let w := xwinOf c k.x1.xinfo
        some (if r < 24 then localReg (winUp c w) (r - 16) else argReg w (r - 24))
      else some (256 + r)
    | .sb2 => some (288 + r)
    | .task | .tsb =>
      some (if r < 8 then r
        else if r < 16 then argReg (winDown c k.cwp) (r - 8)
        else if r < 24 then localReg k.cwp (r - 16)
        else argReg k.cwp (r - 24))

/-- A physical register. -/
def Core.preg (k : Core) (p : Nat) : Word := Tab.get 0 k.regs p

/-- DIRTY after a write of a physical register: G for g1 to g7, W for a window (R251). -/
def dirtyOn (d : Word) (p : Nat) : Word :=
  if p < 8 then putBit d 15 true else if p < 208 then putBit d ((p - 16) / 16) true else d

/-- The core with a physical register written. -/
def Core.setPreg (k : Core) (p : Nat) (v : Word) : Core := { k with regs := Tab.set 0 p v k.regs, dirty := dirtyOn k.dirty p }

/-- A physical register of core c written. -/
def State.wrPhys (s : State) (c : CoreId) (p : Nat) (v : Word) : State := s.modCore c fun k => k.setPreg p v

/-- Register r as core c names it: g0 reads 0. -/
def State.rg (s : State) (c : CoreId) (r : Reg) : Word :=
  match (s.core c).phys c r.toNat with
  | some p => (s.core c).preg p
  | none => 0

/-- Register r written: a write to g0 is discarded. -/
def State.wr (s : State) (c : CoreId) (r : Reg) (v : Word) : State :=
  match (s.core c).phys c r.toNat with
  | some p => s.wrPhys c p v
  | none => s

/-! ### Pairs (R249) -/

/-- The even register of a pair. -/
def evenReg (p : PairIx) : Reg := BitVec.ofNat 5 (2 * p.toNat)
/-- The odd register of a pair. -/
def oddReg (p : PairIx) : Reg := BitVec.ofNat 5 (2 * p.toNat + 1)
/-- The pair whose even register is r. -/
def pairAt (r : Reg) : PairIx := BitVec.ofNat 4 (r.toNat / 2)
/-- The registers of a pair. -/
def pairRegs (p : PairIx) : List Reg := [evenReg p, oddReg p]

/-- A 32-bit value of its upper and lower words. -/
def w32of (hi lo : Word) : W32 := BitVec.ofNat 32 (hi.toNat * 65536 + lo.toNat)
/-- Bits [31:16]. -/
def hiOf (v : W32) : Word := BitVec.ofNat 16 (v.toNat / 65536)
/-- Bits [15:0]. -/
def loOf (v : W32) : Word := BitVec.ofNat 16 v.toNat

/-- The value of a pair. -/
def State.pr (s : State) (c : CoreId) (p : PairIx) : W32 := w32of (s.rg c (evenReg p)) (s.rg c (oddReg p))

/-- A pair written. -/
def State.wrp (s : State) (c : CoreId) (p : PairIx) (v : W32) : State :=
  (s.wr c (evenReg p) (hiOf v)).wr c (oddReg p) (loOf v)

/-! ### PSW and the specials (R250 to R252) -/

/-- The core with its specials changed by f: a change of PSW, CWP, WIM, REPLEFT, MULTI_PROG, SSP, TSB, GTB or WSP, by hardware
too, sets DIRTY.S (R251). -/
def Core.spec (k : Core) (f : Core → Core) : Core :=
  let n := f k
  if n.psw = k.psw ∧ n.cwp = k.cwp ∧ n.auto = k.auto ∧ n.fence = k.fence ∧ n.repLeft = k.repLeft ∧ n.multiProg = k.multiProg ∧
     n.ssp = k.ssp ∧ n.tsb = k.tsb ∧ n.gtb = k.gtb ∧ n.wsp = k.wsp then n
  else { n with dirty := putBit n.dirty 14 true }

/-- See Core.spec. -/
def State.modSpec (s : State) (c : CoreId) (f : Core → Core) : State := s.modCore c fun k => k.spec f

/-- PSW of core c. -/
def State.psw (s : State) (c : CoreId) : Word := (s.core c).psw

/-- The level of the running path: 0 M, 1 S, 2 U. -/
def State.level (s : State) (c : CoreId) : Nat := wfld (s.psw c) 15 14

/-- PSW replaced. -/
def State.setPsw (s : State) (c : CoreId) (v : Word) : State := s.modSpec c fun k => { k with psw := v }

/-- A long operation in flight that was issued on a path gives up the flags that a younger instruction writes (R275). -/
def Core.youngerOf (k : Core) (p : Path) (mask : Word) : Core :=
  match k.longOp with
  | some o => if o.path = p then { k with longOp := some { o with mask := o.mask &&& ~~~mask } } else k
  | none => k

/-- The same for a younger instruction of the running path. -/
def Core.younger (k : Core) (mask : Word) : Core := k.youngerOf k.path mask

/-- The flags an instruction writes. -/
def State.flags (s : State) (c : CoreId) (u : Upd) : State :=
  (s.modCore c fun k => k.younger u.mask).setPsw c (u.on (s.psw c))

/-- The exception registers of the running path: the task path has none (R295). -/
def Core.xregs (k : Core) : XRegs :=
  match k.path with
  | .task => {}
  | .sb1 => k.x1
  | .sb2 => k.x2
  | .tsb => k.xt

/-- The core with the exception registers of the running path replaced; nothing on the task path (R295). -/
def Core.setXregs (k : Core) (x : XRegs) : Core :=
  match k.path with
  | .task => k
  | .sb1 => { k with x1 := x }
  | .sb2 => { k with x2 := x }
  | .tsb => { k with xt := x }

/-- A core runs on a shadow bank (R302). -/
def Core.onBank (k : Core) : Bool :=
  match k.path with
  | .sb1 | .sb2 => true
  | .task | .tsb => false

/-- The code of a path in XINFO (R296). -/
def pathCode : Path → Nat
  | .task => 0
  | .sb1 => 1
  | .sb2 => 2
  | .tsb => 3

/-- The path of a code. -/
def pathOf : Nat → Path
  | 0 => .task
  | 1 => .sb1
  | 2 => .sb2
  | _ => .tsb

/-- WIM as a word. -/
def Core.wim (k : Core) : Word := BitVec.ofNat 16 (b2n k.auto * 32768 + k.fence)

/-- The writable bits of DIRTY (R251). -/
def dirtyMask (c : CoreId) : Word := if c.val < 8 then 0xCFFF else 0xC0FF

/-- COREID of a core. -/
def coreId (c : CoreId) : Word := BitVec.ofNat 16 ((if c.val < 8 then 0 else 32768) + (if c.val < 8 then c.val else c.val - 8))

/-- A special register of 32 bits (R250, R295). -/
def specWide (n : Nat) : Bool := (7 ≤ n && n ≤ 12) || n = 14

/-- The value of special register n (R250, R295). -/
def Core.special (k : Core) (c : CoreId) (n : Nat) : W32 :=
  match n with
  | 0 => k.psw.zeroExtend 32
  | 1 => BitVec.ofNat 32 k.cwp
  | 2 => k.wim.zeroExtend 32
  | 3 => k.dirty.zeroExtend 32
  | 4 => k.repLeft.zeroExtend 32
  | 5 => k.multiProg.zeroExtend 32
  | 6 => (coreId c).zeroExtend 32
  | 7 => k.wsp
  | 8 => k.ssp
  | 9 => k.tsb
  | 10 => k.gtb
  | 11 => k.ctxp
  | 12 => k.xregs.xpc
  | 13 => k.xregs.xpsw.zeroExtend 32
  | 14 => k.xregs.xaddr
  | 15 => k.xregs.xinfo.zeroExtend 32
  | _ => 0

/-- The path whose PSW a context holds and XPSW saves: on a bank or in the TSB the one interrupted (R269, R296). -/
def Core.savedPath (k : Core) : Path := pathOf (wfld k.xregs.xinfo 12 11)

/-- The flags that a write of v to PSW writes: D and DZ it can only clear (R252). -/
def mtsMask (v : Word) : Word := 0xFCFF ||| (~~~v &&& 0x0300)

/-- PSW after a write of v that may change LVL: 0b11 leaves LVL (R251). -/
def pswWritten (old v : Word) : Word :=
  let w := v &&& 0xFFFE
  if wfld v 15 14 = 3 then putFld w 15 14 (wfld old 15 14) else w

/-- The core with special register n written (R250 to R252, R295, R296), at a level allowed for it. -/
def Core.setSpecial (k : Core) (c : CoreId) (n : Nat) (v : W32) : Core :=
  let w := loOf v
  match n with
  | 0 =>
    let w' := w &&& (k.psw ||| 0xFCFF)
    k.spec fun k => { k with psw := if wfld k.psw 15 14 = 0 then pswWritten k.psw w' else putFld (w' &&& 0xFFFE) 15 14 (wfld k.psw 15 14) }
  | 1 => if wfld w 3 0 < nwin c then k.spec fun k => { k with cwp := wfld w 3 0 } else k
  | 2 => k.spec fun k => { k with auto := wbit w 15, fence := if wfld w 3 0 < nwin c then wfld w 3 0 else k.fence }
  | 3 => { k with dirty := w &&& dirtyMask c }
  | 4 => k.spec fun k => { k with repLeft := w }
  | 5 => k.spec fun k => { k with multiProg := w &&& 0x800F }
  | 7 => k.spec fun k => { k with wsp := v }
  | 8 => k.spec fun k => { k with ssp := v }
  | 9 => k.spec fun k => { k with tsb := v }
  | 10 => k.spec fun k => { k with gtb := v }
  | 11 => { k with ctxp := v, dirty := dirtyMask c }
  | 12 => k.setXregs { k.xregs with xpc := v }
  | 13 =>
    let k' := k.setXregs { k.xregs with xpsw := pswWritten k.xregs.xpsw w }
    if k.onBank then { k' with dirty := putBit k'.dirty 14 true } else k'
  | 14 => k.setXregs { k.xregs with xaddr := v }
  | 15 => k.setXregs { k.xregs with xinfo := (k.xregs.xinfo &&& 0x7C3F) ||| (w &&& 0x83C0) }
  | _ => k

/-- Whether MTS may write special register n at a level (R250, R295). -/
def mtsAllowed (n lvl : Nat) : Bool :=
  match n with
  | 0 | 4 | 5 | 6 => true
  | 8 | 9 | 10 => lvl = 0
  | _ => lvl ≤ 1

/-! ### Control registers of a core -/

/-- The core leaves the loop buffer and forgets a capture (R277). -/
def State.leaveLoop (s : State) (c : CoreId) : State :=
  (s.setBit (pipeCtl c).1 (pipeCtl c).2 12 false).modCore c fun k => { k with loopAt := none }

/-! ### Traps -/

/-- A trap of an instruction: cause, fault address, window, and whether its return address is the next instruction
(R262) rather than the instruction itself (R303, R307). -/
structure Trap where
  cause : Nat
  xaddr : W32 := 0
  xwin : Nat := 0
  after : Bool := false
  deriving DecidableEq, Repr

/-- Illegal instruction. -/
def illegal : Trap := { cause := 1 }
/-- Privilege. -/
def privilege : Trap := { cause := 2 }

/-- What a part of an instruction answers: a value or a trap, and the state. -/
abbrev Res (α : Type) := Except Trap α × State

/-- f over a list, in order, until one traps. -/
def seqM {α β : Type} (f : State → α → Res β) : List α → State → Res (List β)
  | [], s => (.ok [], s)
  | a :: l, s =>
    match f s a with
    | (.error t, s1) => (.error t, s1)
    | (.ok b, s1) => match seqM f l s1 with
      | (.error t, s2) => (.error t, s2)
      | (.ok bs, s2) => (.ok (b :: bs), s2)

end Sys2Proof.Machine
end

