-- ==== Sys2Proof/Machine/HodMem.lean ====
section
/-! DEFINITION. Data accesses of a hod core: checks at MA, the store buffer, loads with forwarding, shadow-stack accesses
(R259, R284 to R287, R300, R310). -/

namespace Sys2Proof.Machine

open Sys2Proof

/-! ### Checks at MA -/

/-- Translation of a word for a data access: its physical address and whether the access has the device attribute, from the
leaf, the window, because it lies in a control space (R68, R316) or because it lies on the other die (R433). -/
def State.xl (s : State) (c : CoreId) (n : Need) (va : W32) : Res (Nat × Bool) :=
  match s.translate c va.toNat n (s.level c) with
  | (.error e, s1) => (.error { cause := e.cause false, xaddr := va }, s1)
  | (.ok (pa, d), s1) => (.ok (pa, d || s1.attr (masterGroup (dataPort c)) pa = 2 || (controlDie pa).isSome ||
      decide ((s1.target (coreDie c) pa).die (coreDie c) ≠ coreDie c)), s1)

/-- A store's checks at MA: translation and rights, the window attribute, the decode to a target (R284). A window or decode
failure is an error response of the issuing die's crossbar, and so cause 0x09. Log entry 71. -/
def State.storeCheck (s : State) (c : CoreId) (n : Need) (va : W32) : Res (Nat × Bool) :=
  match s.xl c n va with
  | (.error t, s1) => (.error t, s1)
  | (.ok (pa, d), s1) =>
    let m := dataPort c
    if s1.windowCause m pa false = some 1 then (.error { cause := 9, xaddr := va }, s1.logError m 1 true pa)
    else if s1.target m.die pa = .default then (.error { cause := 9, xaddr := va }, s1.logError m 0 true pa)
    else (.ok (pa, d), s1)

/-! ### The store buffer -/

/-- A write that the core has given away: an error response is logged, and raises the violation interrupt where VIOL_EN is 1
for the core's master group, also where the other die made it (R287). Log entry 90. -/
def State.putBus (s : State) (c : CoreId) (a : Nat) (bs : List Byte) : State :=
  match s.writeBus (dataPort c) a bs with
  | (.error _, s1) => s1.violation (dataPort c)
  | (.ok _, s1) => s1

/-- Words written one by one. -/
def State.putWords (s : State) (c : CoreId) (l : List (Nat × Word)) : State :=
  l.foldl (fun s e => s.putBus c e.1 (leBytes 2 e.2.toNat)) s

/-- A buffered store reaches memory: a pair at an even address in one access (R259). -/
def State.putEntry (s : State) (c : CoreId) (e : StoreEntry) : State :=
  match e.words with
  | [(a, v), (b, w)] =>
    if a % 4 = 0 ∧ b = a + 2 then s.putBus c a (leBytes 2 v.toNat ++ leBytes 2 w.toNat)
    else s.putWords c e.words
  | l => s.putWords c l

/-- The oldest entry drains. -/
def State.drainOne (s : State) (c : CoreId) : State :=
  match (s.core c).storeBuf with
  | [] => s
  | e :: r => (s.modCore c fun k => { k with storeBuf := r }).putEntry c e

/-- The n oldest entries drain. -/
def State.drainN (c : CoreId) : Nat → State → State
  | 0, s => s
  | n + 1, s => State.drainN c n (s.drainOne c)

/-- Every entry drains. -/
def State.drainAll (s : State) (c : CoreId) : State := State.drainN c (s.core c).storeBuf.length s

/-- A checked store: to a device region at once, after the buffer is empty; else into the buffer, which makes room first
(R284, R286). -/
def State.putStore (s : State) (c : CoreId) (l : List (Nat × Word)) (dev : Bool) : State :=
  if dev then (s.drainAll c).putWords c l
  else
    let s1 := if 8 ≤ (s.core c).storeBuf.length then s.drainOne c else s
    s1.modCore c fun k => { k with storeBuf := k.storeBuf ++ [{ words := l }] }

/-- Core c has not been reset by what s1 did since s: apart from its store buffer it is the same. -/
def sameCore (s s1 : State) (c : CoreId) : Bool :=
  decide ({ s.core c with storeBuf := [] } = { s1.core c with storeBuf := [] })

/-! ### Loads -/

/-- The word of two bytes. -/
def wordOf (l : List Byte) : Word := BitVec.ofNat 16 (leNat l)

/-- One word read by the data port; an error response is a precise fault with the word's address (R307). -/
def State.readWord1 (s : State) (c : CoreId) (w : W32 × Nat) : Res Word :=
  match s.readBus (dataPort c) w.2 2 with
  | (.error _, s1) => (.error { cause := 9, xaddr := w.1 }, s1)
  | (.ok l, s1) => (.ok (wordOf l), s1)

/-- Words read from memory: a pair at an even address in one access, else in order (R259, R286). -/
def State.readWords (s : State) (c : CoreId) (ws : List (W32 × Nat)) (dev : Bool) : Res (List Word) :=
  match ws with
  | [(va, a), (_, b)] =>
    if !dev && a % 4 = 0 && b = a + 2 then
      match s.readBus (dataPort c) a 4 with
      | (.error _, s1) => (.error { cause := 9, xaddr := va }, s1)
      | (.ok l, s1) => (.ok [wordOf (l.take 2), wordOf (l.drop 2)], s1)
    else seqM (fun s w => s.readWord1 c w) ws s
  | _ => seqM (fun s w => s.readWord1 c w) ws s

/-- The youngest buffered store that overlaps the words, by position from the oldest (R285). -/
def Core.overlapping (k : Core) (ws : List Nat) : Option (Nat × StoreEntry) :=
  ((List.zip (upto k.storeBuf.length) k.storeBuf).reverse).find? fun e => e.2.words.any fun w => ws.contains w.1

/-- A load's words, translated: forwarded from the buffer, or read after the store that overlaps in part has drained, or
read at once; a device access after the buffer is empty (R285, R286). -/
def State.loadWords (s : State) (c : CoreId) (ws : List (W32 × Nat)) (dev : Bool) : Res (List Word) :=
  if dev then (s.drainAll c).readWords c ws true
  else match (s.core c).overlapping (ws.map fun w => w.2) with
    | none => s.readWords c ws false
    | some (i, e) =>
      if e.words.map (fun w => w.1) = ws.map (fun w => w.2) then (.ok (e.words.map fun w => w.2), s)
      else (State.drainN c (i + 1) s).readWords c ws false

/-- A load of one word completed in line, as a repeated or combined instruction makes it. -/
def State.load1 (s : State) (c : CoreId) (va : W32) : Res Word :=
  match s.xl c .load va with
  | (.error t, s1) => (.error t, s1)
  | (.ok (pa, d), s1) => match s1.loadWords c [(va, pa)] d with
    | (.error t, s2) => (.error t, s2)
    | (.ok l, s2) => (.ok (l.headD 0), s2)

/-- The address lies in the core's own near memory (R273). -/
def State.near (s : State) (c : CoreId) (pa : Nat) : Bool :=
  match s.target (coreDie c) pa with
  | .hcNear p _ => c.val < 8 && p = s.physCore .c (coreNum c)
  | .hfNear p _ => 8 ≤ c.val && p = s.physCore .f (coreNum c)
  | .ctile _ _ | .ftile _ _ | .control _ | .bootRom _ | .xspi _ | .zero | .default => false

/-! ### Transfers of several words -/

/-- The n word addresses from a. -/
def wordsFrom (a : W32) (n : Nat) : List W32 := (upto n).map fun i => a + BitVec.ofNat 32 i

/-- Words translated for reading and then read, the buffer having drained. -/
def State.readAll (s : State) (c : CoreId) (n : Need) (l : List W32) : Res (List Word) :=
  let s0 := s.drainAll c
  match seqM (fun s a => s.xl c n a) l s0 with
  | (.error t, s1) => (.error t, s1)
  | (.ok ps, s1) => seqM (fun s w => s.readWord1 c w) (List.zip l (ps.map fun p => p.1)) s1

/-- Words checked for writing, the buffer having drained: their physical addresses. -/
def State.checkAll (s : State) (c : CoreId) (n : Need) (l : List W32) : Res (List Nat) :=
  match seqM (fun s a => s.storeCheck c n a) l (s.drainAll c) with
  | (.error t, s1) => (.error t, s1)
  | (.ok ps, s1) => (.ok (ps.map fun p => p.1), s1)

/-- A shadow-stack access that fails raises the shadow stack fault (R300). -/
def shadowFault {α : Type} (r : Res α) : Res α :=
  match r with
  | (.error t, s) => (.error { t with cause := 0x0C }, s)
  | r => r

/-- Words of the shadow stack read (R300). -/
def State.shadowRead (s : State) (c : CoreId) (a : W32) (n : Nat) : Res (List Word) :=
  shadowFault (s.readAll c .shadow (wordsFrom a n))

/-- A write of the word at pa would be answered: the state is as before; or the error response that it gets, logged. -/
def State.tryPush (s : State) (c : CoreId) (w : W32 × Nat) : Res Unit :=
  match s.writeBus (dataPort c) w.2 (leBytes 2 0) with
  | (.error _, s1) => (.error { cause := 9, xaddr := w.1 }, s1)
  | (.ok _, _) => (.ok (), s)

/-- Words of the shadow stack checked for a push: rights, and that each write will be answered, before any is made (R300). -/
def State.shadowCheck (s : State) (c : CoreId) (a : W32) (n : Nat) : Res (List Nat) :=
  shadowFault (match s.checkAll c .shadowPush (wordsFrom a n) with
    | (.error t, s1) => (.error t, s1)
    | (.ok ps, s1) => match seqM (fun s w => s.tryPush c w) (List.zip (wordsFrom a n) ps) s1 with
      | (.error t, s2) => (.error t, s2)
      | (.ok _, s2) => (.ok ps, s2))

end Sys2Proof.Machine
end

