-- ==== Sys2Proof/Machine/Trap.lean ====
section
/-! DEFINITION. Long operations at completion, exception and interrupt entry, double faults and the return (R278 to R283,
R295 to R297, R302 to R308). -/

namespace Sys2Proof.Machine

open Sys2Proof

/-! ### Completion of a long operation (R275, R278, R280) -/

/-- The PREV field of exception registers. -/
def XRegs.prev (x : XRegs) : Path := pathOf (wfld x.xinfo 12 11)

/-- The flags of a completed long operation: into PSW on its own path, into the PSW saved by the bank that interrupted its
path, else nowhere (R275, R279). -/
def Core.landFlags (k : Core) (o : LongOp) : Core :=
  let u : Upd := { mask := o.mask, val := o.val }
  if k.path = o.path then k.spec fun k => { k with psw := u.on k.psw }
  else if k.sb1Busy && k.x1.prev = o.path then { k with x1 := { k.x1 with xpsw := u.on k.x1.xpsw } }
  else if k.sb2Busy && k.x2.prev = o.path then { k with x2 := { k.x2 with xpsw := u.on k.x2.xpsw } }
  else k

/-- The arithmetic exception a completed long operation raises (R280). -/
def State.longCause (s : State) (c : CoreId) (o : LongOp) : Option Nat :=
  let ctl := s.reg (pipeCtl c).1 (pipeCtl c).2
  if wbit o.val 8 && wbit ctl 15 then some 0x12 else if wbit o.val 4 && wbit ctl 14 then some 0x13 else none

/-- The long operation in flight completes: its registers, its flags, and an arithmetic exception if it raises one. -/
def State.completeLong (s : State) (c : CoreId) : State :=
  match (s.core c).longOp with
  | none => s
  | some o =>
    let pend : List ArithPend := match s.longCause c o with
      | some x => [{ cause := x, addr := o.addr, path := o.path }]
      | none => []
    s.modCore c fun k =>
      let k1 := o.dests.foldl (fun k e => k.setPreg e.1 e.2) { k with longOp := none }
      let k2 := k1.landFlags o
      { k2 with arith := k2.arith ++ pend }

/-! ### Vector and gate entries (R297) -/

/-- One word read with level-M rights. -/
def State.readM (s : State) (c : CoreId) (a : W32) : Res Word :=
  match s.translate c a.toNat .load 0 with
  | (.error e, s1) => (.error { cause := e.cause false, xaddr := a }, s1)
  | (.ok (pa, _), s1) => s1.readWord1 c (a, pa)

/-- The eight words of entry n of the gate table, read with level-M rights: none when unreadable. -/
def State.gateEntry (s : State) (c : CoreId) (n : Nat) : Option (List Word) × State :=
  match seqM (fun s a => s.readM c a) (wordsFrom ((s.core c).gtb + BitVec.ofNat 32 (8 * n)) 8) (s.drainAll c) with
  | (.error _, s1) => (none, s1)
  | (.ok l, s1) => (some l, s1)

/-- KIND of an entry: 1 gate, 2 vector. -/
def entryKind (e : List Word) : Nat := wfld (e.headD 0) 15 14
/-- LVL of an entry. -/
def entryLvl (e : List Word) : Nat := wfld (e.headD 0) 13 12
/-- CALLMIN of an entry. -/
def entryMin (e : List Word) : Nat := wfld (e.headD 0) 11 10
/-- RNG bit k of an entry. -/
def entryRng (e : List Word) (k : Nat) : Bool := wbit (e.headD 0) (6 + k)
/-- PTR of an entry. -/
def entryPtr (e : List Word) : Nat := wfld (e.headD 0) 5 4
/-- TGT of an entry. -/
def entryTgt (e : List Word) : W32 := w32of (e.getD 2 0) (e.getD 1 0)
/-- SP of an entry. -/
def entrySp (e : List Word) : W32 := w32of (e.getD 4 0) (e.getD 3 0)

/-- An entry is valid (R297): its CRC, reserved field, levels, and PTR against RNG. -/
def entryValid (e : List Word) : Bool :=
  crc16Of 0xFFFF ((e.take 7).flatMap fun w => leBytes 2 w.toNat) = (e.getD 7 0).toNat &&
  wfld (e.headD 0) 3 0 = 0 && entryLvl e ≠ 3 && entryMin e ≠ 3 &&
  !(entryPtr e ≠ 0 && (entryRng e 0 || entryRng e 1)) && !(entryKind e = 2 && entryLvl e = 2)

/-! ### Entry (R302 to R306) -/

/-- XINFO of an entry (R296, R303). -/
def infoOf (path prev : Path) (imp : Bool) (xwin cause : Nat) : Word :=
  BitVec.ofNat 16 (b2n (cause = 0x0F || cause = 0x10) * 32768 + pathCode path * 8192 + pathCode prev * 2048 + b2n imp * 1024 +
    xwin % 16 * 64 + cause % 64)

/-- HINT_DF or FHINT_DF of a core. -/
def dfReg (c : CoreId) : RegKind × Nat := if c.val < 8 then (.HINT_DF, c.val) else (.FHINT_DF, c.val - 8)

/-- A double fault (R306): the core stops, the record is written, and the watching HF cores that are not locked take the
lockup interrupt. -/
def State.doubleFault (s : State) (c : CoreId) (reason cause : Nat) : State :=
  let s1 := s.modCore c fun k => { k with run := .locked }
  let s2 := s1.setReg (dfReg c).1 (dfReg c).2 (BitVec.ofNat 16 (reason * 256 + cause))
  let s3 := s2.setBit .FHINT_LOCK 0 c.val true
  (upto 4).foldl (fun s i => if s.bit .FHINT_WATCH 0 i && !(s.bit .FHINT_LOCK 0 (8 + i)) then s.raise (8 + i) 11 else s) s3

/-- The path an entry takes: an exception (lvl 0) and a level-1 interrupt on SB1, a level-2 one on SB2, where free, else
through the TSB (R302). -/
def Core.entryPath (k : Core) (lvl : Nat) : Path :=
  if lvl ≤ 1 then (if k.sb1Busy then .tsb else .sb1) else if lvl = 2 then (if k.sb2Busy then .tsb else .sb2) else .tsb

/-- What the entered path's exception registers hold. -/
def Core.xEntry (k : Core) (path : Path) (cause : Nat) (ret xaddr : W32) (imp : Bool) (xwin : Nat) : XRegs :=
  { xpc := ret, xpsw := k.psw, xaddr, xinfo := infoOf path k.path imp xwin cause }

/-- The core enters a path: PSW holds the vector's LVL alone, the core runs at TGT. -/
def Core.enterAt (k : Core) (path : Path) (x : XRegs) (e : List Word) : Core :=
  let k1 := k.spec fun k => { k with psw := BitVec.ofNat 16 (entryLvl e * 16384) }
  { k1 with
    path, run := .running, pc := entryTgt e
    x1 := if path = .sb1 then x else k1.x1
    x2 := if path = .sb2 then x else k1.x2
    xt := if path = .tsb then x else k1.xt
    sb1Busy := k1.sb1Busy || path = .sb1
    sb2Busy := k1.sb2Busy || path = .sb2 }

/-- The words 2 to 47 that a TSB entry writes (R304). -/
def Core.tsbWords (k : Core) (c : CoreId) (x : XRegs) : List Word :=
  [0x8000, x.xinfo, loOf x.xpc, hiOf x.xpc, x.xpsw, loOf x.xaddr, hiOf x.xaddr, BitVec.ofNat 16 k.cwp, k.wim, k.repLeft,
    k.multiProg, loOf k.wsp, hiOf k.wsp, 0] ++
  ((upto 7).map fun i => k.preg (1 + i)) ++ [0] ++
  ((upto 8).map fun i => k.preg (localReg k.cwp i)) ++ ((upto 8).map fun i => k.preg (argReg k.cwp i)) ++
  ((upto 8).map fun i => k.preg (argReg (winDown c k.cwp) i))

/-- A word of the TSB block checked with level-M write rights (R306): its physical address. -/
def State.checkM (s : State) (c : CoreId) (a : W32) : Res Nat :=
  match s.translate c a.toNat .store 0 with
  | (.error e, s1) => (.error { cause := e.cause false, xaddr := a }, s1)
  | (.ok (pa, _), s1) =>
    if s1.windowCause (dataPort c) pa false = some 1 ∨ s1.target (coreDie c) pa = .default then (.error { cause := 9, xaddr := a }, s1)
    else (.ok pa, s1)

/-- Words of the TSB block checked: their physical addresses. -/
def State.tsbCheck (s : State) (c : CoreId) (l : List W32) : Option (List Nat) × State :=
  match seqM (fun s a => s.checkM c a) l s with
  | (.error _, s1) => (none, s1)
  | (.ok ps, s1) => (some ps, s1)

/-- Words written in order until one is answered with an error response. -/
def State.tsbWrite (c : CoreId) : List (Nat × Word) → State → Bool × State
  | [], s => (true, s)
  | (a, w) :: l, s =>
    match s.writeBus (dataPort c) a (leBytes 2 w.toNat) with
    | (.error _, s1) => (false, s1)
    | (.ok _, s1) => State.tsbWrite c l s1

/-- The end of an entry through the TSB: its block at the addresses ps, whose first two words are head, is free; the vector is
read, the block written, and the path entered with the block's stack pointer (R303, R304). -/
def State.tsbEnter (s : State) (c : CoreId) (cause : Nat) (ret xaddr : W32) (imp : Bool) (xwin : Nat) (ps : List Nat) (head : List Word) :
    State :=
  match s.gateEntry c cause with
  | (none, s1) => s1.doubleFault c 5 cause
  | (some e, s1) =>
    if ¬ (entryValid e && entryKind e = 2) then s1.doubleFault c 5 cause
    else
      let x := (s1.core c).xEntry .tsb cause ret xaddr imp xwin
      match State.tsbWrite c (List.zip (ps.drop 2) ((s1.core c).tsbWords c x)) s1 with
      | (false, s2) => s2.doubleFault c 4 cause
      | (true, s2) => s2.modCore c fun k => ((k.setPreg 6 (head.getD 1 0)).setPreg 7 (head.getD 0 0)).enterAt .tsb x e

/-- Entry through the TSB (R303, R304, R306): the long operation completes, the buffer drains, the block is checked and
written. The reasons are tried in the order 1, 2, 3, 5, 4. Log entry 73. -/
def State.enterTsb (s : State) (c : CoreId) (cause : Nat) (ret xaddr : W32) (imp : Bool) (xwin : Nat) : State :=
  let s0 := (s.completeLong c).drainAll c
  let tsb := (s0.core c).tsb
  if tsb = 0 ∨ tsb.toNat % 64 ≠ 0 then s0.doubleFault c 1 cause
  else match s0.tsbCheck c (wordsFrom tsb 48) with
    | (none, s1) => s1.doubleFault c 2 cause
    | (some ps, s1) =>
      match seqM (fun s (p : Nat) => s.readWord1 c (tsb, p)) (ps.take 3) s1 with
      | (.error _, s2) => s2.doubleFault c 2 cause
      | (.ok head, s2) =>
        if wbit (head.getD 2 0) 15 then s2.doubleFault c 3 cause
        else s2.tsbEnter c cause ret xaddr imp xwin ps head

/-- Entry with a cause (R303, R306): on a shadow bank no memory is written. -/
def State.enter (s : State) (c : CoreId) (cause : Nat) (ret xaddr : W32) (imp : Bool) (xwin lvl : Nat) : State :=
  let s0 := s.leaveLoop c
  let path := (s0.core c).entryPath lvl
  if path = .tsb then s0.enterTsb c cause ret xaddr imp xwin
  else match s0.gateEntry c cause with
    | (none, s1) => s1.doubleFault c 5 cause
    | (some e, s1) =>
      if ¬ (entryValid e && entryKind e = 2) then s1.doubleFault c 5 cause
      else s1.modCore c fun k => k.enterAt path (k.xEntry path cause ret xaddr imp xwin) e

/-- The pending arithmetic exception of the running path, oldest first (R308). -/
def Core.arithDue (k : Core) : Option ArithPend := k.arith.find? fun a => a.path = k.path

/-- The arithmetic exception is taken, returning to ret (R280, R281): imprecise unless STRICT is 1. -/
def State.enterArith (s : State) (c : CoreId) (a : ArithPend) (ret : W32) : State :=
  let imp := !(wbit (s.psw c) 13)
  (s.modCore c fun k => { k with arith := k.arith.erase a }).enter c a.cause ret a.addr imp 0 0

/-- A trap of the instruction at pc is taken: older long operations complete first, and an arithmetic exception of one of
them is taken in its place (R283). A trap that returns behind the instruction is taken as it is. -/
def State.takeTrap (s : State) (c : CoreId) (pc : W32) (t : Trap) : State :=
  let s1 := s.completeLong c
  if t.after then s1.enter c t.cause (s1.core c).pc t.xaddr false t.xwin 0
  else
    let s2 := s1.modCore c fun k => { k with pc }
    match (s2.core c).arithDue with
    | some a => s2.enterArith c a pc
    | none => s2.enter c t.cause pc t.xaddr false t.xwin 0

/-! ### Interrupts (R302) -/

/-- The pending bits of a core's sources. -/
def State.pendBits (s : State) (c : CoreId) : Word :=
  if c.val < 8 then s.reg .HINT_PEND c.val &&& 0x07FF else s.reg .FHINT_PEND (c.val - 8) &&& 0x0FFF

/-- The level of a source at a core. -/
def State.srcLevel (s : State) (c : CoreId) (src : Nat) : Nat :=
  let lo := if c.val < 8 then s.reg .HINT_LVL_LO c.val else s.reg .FHINT_LVL_LO (c.val - 8)
  let hi := if c.val < 8 then s.reg .HINT_LVL_HI c.val else s.reg .FHINT_LVL_HI (c.val - 8)
  if src < 8 then wfld lo (2 * src + 1) (2 * src) else wfld hi (2 * (src - 8) + 1) (2 * (src - 8))

/-- The interrupt that is due: the highest level above that of the running path, the lowest source among equals. -/
def State.dueInt (s : State) (c : CoreId) : Option (Nat × Nat) :=
  let cand (l : Nat) : Option (Nat × Nat) :=
    if l ≤ pathCode (s.core c).path then none
    else ((upto 12).find? fun i => wbit (s.pendBits c) i && s.srcLevel c i = l).map fun i => (i, l)
  match cand 3 with
  | some e => some e
  | none => match cand 2 with
    | some e => some e
    | none => cand 1

/-- The event that an instruction boundary at pc takes before the next instruction (R308): an arithmetic exception of the
running path, else an interrupt. -/
def State.takeEvent (s : State) (c : CoreId) : Option State :=
  let k := s.core c
  match k.arithDue with
  | some a => some (s.enterArith c a k.pc)
  | none => match s.dueInt c with
    | some (src, lvl) => some (s.enter c (0x20 + src) k.pc 0 false 0 lvl)
    | none => none

/-! ### Return (R303 to R305) -/

/-- PSW as a return or a context load restores it; which level 0b11 restores is free. Log entry 72. -/
def State.pswLoaded (s : State) (v : Word) : Word × State :=
  let w := v &&& 0xFFFE
  if wfld w 15 14 = 3 then let (n, s1) := s.draw; (putFld w 15 14 (n % 3), s1) else (w, s)

/-- The core returns to a path at an address with a PSW; a long operation of the path it leaves keeps no flags. -/
def Core.returnTo (k : Core) (path : Path) (psw : Word) (pc : W32) : Core :=
  let k1 : Core := match k.longOp with
    | some o => if o.path = k.path then { k with longOp := some { o with mask := 0 } } else k
    | none => k
  { (k1.spec fun k => { k with psw }) with path, pc }

/-- The registers that RFI restores from the words 3 to 47 of a TSB block (R304). -/
def Core.fromTsb (k : Core) (c : CoreId) (w : List Word) : Core :=
  let g (i : Nat) : Word := w.getD (i - 3) 0
  let k1 := (((((k.setSpecial c 1 ((g 9).zeroExtend 32)).setSpecial c 2 ((g 10).zeroExtend 32)).setSpecial c 4 ((g 11).zeroExtend 32)).setSpecial
    c 5 ((g 12).zeroExtend 32)).setSpecial c 7 (w32of (g 14) (g 13)))
  let k2 := (upto 7).foldl (fun k i => k.setPreg (1 + i) (g (16 + i))) k1
  let k3 := (upto 8).foldl (fun k i => (k.setPreg (localReg k.cwp i) (g (24 + i))).setPreg (argReg k.cwp i) (g (32 + i))) k2
  (upto 8).foldl (fun k i => k.setPreg (argReg (winDown c k.cwp) i) (g (40 + i))) k3

/-- RFI on the TSB path goes on with the words 3 to 47 of the block: INUSE is written with level-M rights. -/
def State.rfiBlock (s : State) (c : CoreId) (tsb : W32) (w : List Word) : Option Trap × State :=
  if s.level c = 1 ∧ wfld (w.getD 3 0) 15 14 = 0 then (some privilege, s)
  else match s.translate c (tsb + 2).toNat .store 0 with
    | (.error e, s1) => (some { cause := e.cause false, xaddr := tsb + 2 }, s1)
    | (.ok (pa, _), s1) =>
      let (v, s2) := s1.pswLoaded (w.getD 3 0)
      let s3 := s2.modCore c fun k => (k.fromTsb c w).returnTo (pathOf (wfld (w.getD 0 0) 12 11)) v (w32of (w.getD 2 0) (w.getD 1 0))
      (none, s3.putWords c [(pa, 0)])

/-- RFI on the TSB path: the block is read with level-M rights. -/
def State.rfiTsb (s : State) (c : CoreId) : Option Trap × State :=
  let s0 := s.drainAll c
  let tsb := (s0.core c).tsb
  match seqM (fun s a => s.readM c a) (wordsFrom (tsb + 3) 45) s0 with
  | (.error t, s1) => (some t, s1)
  | (.ok w, s1) => s1.rfiBlock c tsb w

/-- RFI on a shadow bank with exception registers x, which `free` frees. -/
def State.rfiBank (s : State) (c : CoreId) (x : XRegs) (free : Core → Core) : Option Trap × State :=
  if s.level c = 1 ∧ wfld x.xpsw 15 14 = 0 then (some privilege, s)
  else (none, (s.leaveLoop c).modCore c fun k => (free k).returnTo x.prev x.xpsw x.xpc)

/-- RFI (R305). -/
def State.rfi (s : State) (c : CoreId) : Option Trap × State :=
  let k := s.core c
  match k.path with
  | .task => (some illegal, s)
  | .sb1 => if s.level c = 2 then (some privilege, s) else s.rfiBank c k.x1 fun k => { k with sb1Busy := false }
  | .sb2 => if s.level c = 2 then (some privilege, s) else s.rfiBank c k.x2 fun k => { k with sb2Busy := false }
  | .tsb => if s.level c = 2 then (some privilege, s) else (s.leaveLoop c).rfiTsb c

end Sys2Proof.Machine
end

