-- ==== Sys2Proof/Machine/HodRun.lean ====
section
/-! DEFINITION. How a hod core executes the instruction that a command hands it (R272, R274, R275, R280 to R283, R308): the
events of the instruction boundary, the fetch of its words, the wait for a long operation, its own effect or its trap. -/

namespace Sys2Proof.Machine

open Sys2Proof

/-- What an instruction waits for in IS: the registers it names, further physical registers that it reads or writes, the
flags (R275), or every older instruction. -/
structure Uses where
  regs : List Reg := []
  pregs : List Nat := []
  flags : Bool := false
  all : Bool := false
  deriving DecidableEq, Repr

/-- An instruction waits for the long operation in flight (R274, R275, R281). -/
def Core.mustWait (k : Core) (c : CoreId) (u : Uses) : Bool :=
  match k.longOp with
  | none => false
  | some o =>
    wbit k.psw 13 || u.all || u.flags || o.dests.any (fun d => u.pregs.contains d.1) ||
    u.regs.any fun r => match k.phys c r.toNat with
      | some p => o.dests.any fun d => d.1 = p
      | none => false

/-- One word of the instruction is fetched (R307, R318). An HC core reads a line that its instruction cache holds from there,
and holds the line of a word that it has read from memory (R272, R289; log entry 78). -/
def State.fetchWord (s : State) (c : CoreId) (a : W32) : Res Unit :=
  match s.translate c a.toNat .fetch (s.level c) with
  | (.error e, s1) => (.error { cause := e.cause true, xaddr := a }, s1)
  | (.ok (pa, _), s1) =>
    if c.val < 8 ∧ (s1.core c).icLines.contains (pa / 64) then (.ok (), s1)
    else match s1.readMem (fetchPort c) pa 2 with
      | (.error _, s2) => (.error { cause := 9, xaddr := a }, s2)
      | (.ok _, s2) => (.ok (), if c.val < 8 then s2.modCore c fun k => { k with icLines := k.icLines ++ [pa / 64] } else s2)

/-- The instruction's words are fetched, or come from the loop buffer (R277). -/
def State.fetchAll (s : State) (c : CoreId) (len : Nat) : Res (List Unit) :=
  if s.bit (pipeCtl c).1 (pipeCtl c).2 12 then (.ok [], s)
  else seqM (fun s a => s.fetchWord c a) (wordsFrom (s.core c).pc len) s

/-- The core is at an instruction boundary: it runs and no load waits in MD (R273). -/
def Core.atBoundary (k : Core) : Bool := k.run = .running && k.loadWait.isNone

/-- The way of an instruction up to IS: true, and the state in which it executes; or false, and the state when the core is
not at a boundary or another event is taken in its place (R283, R308). -/
def State.hodIssue (s : State) (c : CoreId) (len : Nat) (u : Uses) : Bool × State :=
  let k := s.core c
  if ¬ k.atBoundary then (false, s)
  else match s.takeEvent c with
    | some s1 => (false, s1)
    | none => match s.fetchAll c len with
      | (.error t, s1) => (false, s1.takeTrap c k.pc t)
      | (.ok _, s1) =>
        let s2 := if (s1.core c).mustWait c u then s1.completeLong c else s1
        match (s2.core c).arithDue with
        | some a => (false, s2.enterArith c a k.pc)
        | none => (true, s2)

/-- An instruction of len words on core c: its effect runs with the pc already behind it, a jump replaces that pc, a trap
is taken at the instruction. -/
def State.hod (s : State) (c : CoreId) (len : Nat) (u : Uses) (body : State → Option Trap × State) : State :=
  match s.hodIssue c len u with
  | (false, s1) => s1
  | (true, s1) =>
    match body (s1.modCore c fun k => { k with pc := k.pc + BitVec.ofNat 32 len }) with
    | (none, s2) => s2
    | (some t, s2) => s2.takeTrap c (s1.core c).pc t

/-- The core's pc. -/
def State.pcOf (s : State) (c : CoreId) : W32 := (s.core c).pc

/-- A control transfer to an address: the core leaves the loop buffer (R277). -/
def State.jump (s : State) (c : CoreId) (a : W32) : State := (s.leaveLoop c).modCore c fun k => { k with pc := a }

/-- The pc stays at the instruction, whose length is len. -/
def State.stay (s : State) (c : CoreId) (len : Nat) : State := s.modCore c fun k => { k with pc := k.pc - BitVec.ofNat 32 len }

/-- An instruction that traps unless the running path is a task or TSB path (R305). -/
def notOnBank (c : CoreId) (body : State → Option Trap × State) (s : State) : Option Trap × State :=
  if (s.core c).onBank then (some illegal, s) else body s

/-- An instruction allowed at levels M and S (R294). -/
def atMS (c : CoreId) (body : State → Option Trap × State) (s : State) : Option Trap × State :=
  if s.level c = 2 then (some privilege, s) else body s

/-- An instruction whose field names an even register (R254). -/
def evenOnly (r : Reg) (body : State → Option Trap × State) (s : State) : Option Trap × State :=
  if r.getLsbD 0 then (some illegal, s) else body s

/-- An effect that never traps. -/
def quiet (f : State → State) (s : State) : Option Trap × State := (none, f s)

/-- The outcome of a hod command. -/
abbrev HodOut := Host.Outcome State Fault Refusal

/-! ### The pipeline's own commands -/

/-- LONG_OP_COMPLETE (R278). -/
def execLongOpComplete (c : CoreId) (s : State) : HodOut := .next (s.completeLong c)

/-- An interrupt or an arithmetic exception may be taken: at an instruction boundary, or in a wait of WFI, VWAIT or TLBSYNC. -/
def Core.mayEnter (k : Core) : Bool :=
  match k.run with
  | .running | .waitInt | .waitBrick _ _ | .waitTlb => k.loadWait.isNone
  | .held | .halted | .locked => false

/-- ARITHMETIC_EXCEPTION (R280): at the next instruction boundary of the path that issued the long operation. -/
def execArithmeticException (c : CoreId) (s : State) : HodOut :=
  .next (if ¬ (s.core c).mayEnter then s
    else match (s.core c).arithDue with
      | some a => s.enterArith c a (s.core c).pc
      | none => s)

/-- INTERRUPT_ENTRY (R302, R303, R308): at an instruction boundary, or in a wait of WFI, VWAIT or TLBSYNC. -/
def execInterruptEntry (c : CoreId) (s : State) : HodOut :=
  .next (if (s.core c).mayEnter then (s.takeEvent c).getD s else s)

/-- STORE_DRAIN (R284, R287). -/
def execStoreDrain (c : CoreId) (s : State) : HodOut := .next (s.drainOne c)

/-- The registers of a load are written, then those of its advance. -/
def State.landLoad (s : State) (c : CoreId) (regs : List (Option Nat)) (vals : List Word) (adv : List (Nat × Word)) : State :=
  let s1 := (List.zip regs vals).foldl (fun s e => match e.1 with
    | some p => s.wrPhys c p e.2
    | none => s) s
  adv.foldl (fun s e => s.wrPhys c e.1 e.2) s1

/-- A core is halted by debug, and its watchdog stops: the table then holds what it has counted (R395, R405). -/
def State.haltCore (s : State) (c : CoreId) : State :=
  { s.modCore c fun k => { k with haltReq := false, haltedFrom := k.run, run := .halted } with
    wdtFrom := Tab.set 0 c.val (s.ticks - Tab.get 0 s.wdtFrom c.val) s.wdtFrom }

/-- A halted core goes on, and its watchdog with it. -/
def State.resumeCore (s : State) (c : CoreId) : State :=
  { s.modCore c fun k => { k with run := k.haltedFrom } with
    wdtFrom := Tab.set 0 c.val (s.ticks - Tab.get 0 s.wdtFrom c.val) s.wdtFrom }

/-- LOAD_RETURN (R273): the waiting load reads its target and completes, or faults at its own address. A halt that waited for
it is taken (R405). -/
def execLoadReturn (c : CoreId) (s : State) : HodOut :=
  .next (match (s.core c).loadWait with
    | none => s
    | some w =>
      let s0 := s.modCore c fun k => { k with loadWait := none }
      let pc := (s.core c).pc
      let ws := w.words.map fun e => (e.2.1, e.2.2.1)
      let dev := w.words.any fun e => e.2.2.2
      let s2 := match s0.readWords c ws dev with
        | (.error t, s1) => s1.takeTrap c pc t
        | (.ok l, s1) => (s1.landLoad c (w.words.map fun e => e.1) l w.advance).modCore c fun k => { k with pc := w.pc }
      let k := s2.core c
      if k.haltReq && k.run = .running then s2.haltCore c else s2)

end Sys2Proof.Machine
end

