-- ==== Sys2Proof/Machine/HodAlu.lean ====
section
/-! DEFINITION. Register instructions of the hod cores: sums, logic, shifts, moves, decimal, CRC and pair operations
(R255, R256, R258, R262 to R264). -/

namespace Sys2Proof.Machine

open Sys2Proof

/-- A result into rd and its flags. -/
def State.alu (s : State) (c : CoreId) (rd : Reg) (r : Word × Upd) : State := (s.wr c rd r.1).flags c r.2

/-- A pair result and its flags. -/
def State.aluP (s : State) (c : CoreId) (d : PairIx) (r : W32 × Upd) : State := (s.wrp c d r.1).flags c r.2

/-- A sign-extended imm5. -/
def imm5 (i : BitVec 5) : Word := i.signExtend 16

/-- C of PSW. -/
def State.cFlag (s : State) (c : CoreId) : Bool := wbit (s.psw c) 1

/-- An instruction of one word over rd and rs whose result is f rd rs. -/
def State.rr (s : State) (c : CoreId) (rd rs : Reg) (f : Word → Word → Word × Upd) : State :=
  s.hod c 1 { regs := [rd, rs] } (quiet fun s => s.alu c rd (f (s.rg c rd) (s.rg c rs)))

/-- An instruction of one word over rd and a constant. -/
def State.ri (s : State) (c : CoreId) (rd : Reg) (len : Nat) (f : Word → Word × Upd) : State :=
  s.hod c len { regs := [rd] } (quiet fun s => s.alu c rd (f (s.rg c rd)))

/-- ADD (R258). -/
def execAdd (c : CoreId) (rd rs : Reg) (s : State) : HodOut := .next (s.rr c rd rs fun a b => addOf a b false false)
/-- ADC (R258). -/
def execAdc (c : CoreId) (rd rs : Reg) (s : State) : HodOut :=
  .next (s.hod c 1 { regs := [rd, rs], flags := true } (quiet fun s =>
    s.alu c rd (addOf (s.rg c rd) (s.rg c rs) (s.cFlag c) true)))
/-- SUB (R258). -/
def execSub (c : CoreId) (rd rs : Reg) (s : State) : HodOut := .next (s.rr c rd rs fun a b => subOf a b false false)
/-- SBC (R258). -/
def execSbc (c : CoreId) (rd rs : Reg) (s : State) : HodOut :=
  .next (s.hod c 1 { regs := [rd, rs], flags := true } (quiet fun s =>
    s.alu c rd (subOf (s.rg c rd) (s.rg c rs) (s.cFlag c) true)))
/-- CMP (R255, R258): flags only. -/
def execCmp (c : CoreId) (rd rs : Reg) (s : State) : HodOut :=
  .next (s.hod c 1 { regs := [rd, rs] } (quiet fun s => s.flags c (subOf (s.rg c rd) (s.rg c rs) false false).2))
/-- AND (R258). -/
def execAnd (c : CoreId) (rd rs : Reg) (s : State) : HodOut := .next (s.rr c rd rs fun a b => logicOf (a &&& b))
/-- OR (R258). -/
def execOr (c : CoreId) (rd rs : Reg) (s : State) : HodOut := .next (s.rr c rd rs fun a b => logicOf (a ||| b))
/-- XOR (R258). -/
def execXor (c : CoreId) (rd rs : Reg) (s : State) : HodOut := .next (s.rr c rd rs fun a b => logicOf (a ^^^ b))
/-- ANDN (R258). -/
def execAndn (c : CoreId) (rd rs : Reg) (s : State) : HodOut := .next (s.rr c rd rs fun a b => logicOf (a &&& ~~~b))
/-- MOV (R255). -/
def execMov (c : CoreId) (rd rs : Reg) (s : State) : HodOut := .next (s.rr c rd rs fun _ b => (b, {}))
/-- NEG (R255, R258). -/
def execNeg (c : CoreId) (rd rs : Reg) (s : State) : HodOut := .next (s.rr c rd rs fun _ b => subOf 0 b false false)
/-- NOT (R255, R258). -/
def execNot (c : CoreId) (rd rs : Reg) (s : State) : HodOut := .next (s.rr c rd rs fun _ b => logicOf (~~~b))
/-- SHL (R258). -/
def execShl (c : CoreId) (rd rs : Reg) (s : State) : HodOut := .next (s.rr c rd rs fun a b => shiftOf .shl a b.toNat)
/-- SHR (R258). -/
def execShr (c : CoreId) (rd rs : Reg) (s : State) : HodOut := .next (s.rr c rd rs fun a b => shiftOf .shr a b.toNat)
/-- SAR (R258). -/
def execSar (c : CoreId) (rd rs : Reg) (s : State) : HodOut := .next (s.rr c rd rs fun a b => shiftOf .sar a b.toNat)
/-- ROL (R258). -/
def execRol (c : CoreId) (rd rs : Reg) (s : State) : HodOut := .next (s.rr c rd rs fun a b => shiftOf .rol a b.toNat)
/-- ADDI (R255, R258). -/
def execAddi (c : CoreId) (rd : Reg) (imm : BitVec 5) (s : State) : HodOut :=
  .next (s.ri c rd 1 fun a => addOf a (imm5 imm) false false)
/-- CMPI (R255, R258): flags only. -/
def execCmpi (c : CoreId) (rd : Reg) (imm : BitVec 5) (s : State) : HodOut :=
  .next (s.hod c 1 { regs := [rd] } (quiet fun s => s.flags c (subOf (s.rg c rd) (imm5 imm) false false).2))
/-- MOVI (R255). -/
def execMovi (c : CoreId) (rd : Reg) (imm : BitVec 5) (s : State) : HodOut := .next (s.ri c rd 1 fun _ => (imm5 imm, {}))
/-- SHLI (R255, R258): an unsigned count. -/
def execShli (c : CoreId) (rd : Reg) (imm : BitVec 5) (s : State) : HodOut :=
  .next (s.ri c rd 1 fun a => shiftOf .shl a imm.toNat)
/-- SHRI (R255, R258). -/
def execShri (c : CoreId) (rd : Reg) (imm : BitVec 5) (s : State) : HodOut :=
  .next (s.ri c rd 1 fun a => shiftOf .shr a imm.toNat)
/-- SARI (R255, R258). -/
def execSari (c : CoreId) (rd : Reg) (imm : BitVec 5) (s : State) : HodOut :=
  .next (s.ri c rd 1 fun a => shiftOf .sar a imm.toNat)
/-- MOVW (R256). -/
def execMovw (c : CoreId) (rd : Reg) (imm : Word) (s : State) : HodOut := .next (s.ri c rd 2 fun _ => (imm, {}))
/-- ADDW (R256). -/
def execAddw (c : CoreId) (rd : Reg) (imm : Word) (s : State) : HodOut := .next (s.ri c rd 2 fun a => addOf a imm false false)
/-- CMPW (R256): flags only. -/
def execCmpw (c : CoreId) (rd : Reg) (imm : Word) (s : State) : HodOut :=
  .next (s.hod c 2 { regs := [rd] } (quiet fun s => s.flags c (subOf (s.rg c rd) imm false false).2))
/-- ANDW (R256). -/
def execAndw (c : CoreId) (rd : Reg) (imm : Word) (s : State) : HodOut := .next (s.ri c rd 2 fun a => logicOf (a &&& imm))
/-- ORW (R256). -/
def execOrw (c : CoreId) (rd : Reg) (imm : Word) (s : State) : HodOut := .next (s.ri c rd 2 fun a => logicOf (a ||| imm))
/-- XORW (R256). -/
def execXorw (c : CoreId) (rd : Reg) (imm : Word) (s : State) : HodOut := .next (s.ri c rd 2 fun a => logicOf (a ^^^ imm))

/-! ### Pairs -/

/-- ADDPW (R256): an even register is required. -/
def execAddpw (c : CoreId) (rd : Reg) (imm : Word) (s : State) : HodOut :=
  .next (s.hod c 2 { regs := pairRegs (pairAt rd) } (evenOnly rd (quiet fun s =>
    s.aluP c (pairAt rd) (addPOf (s.pr c (pairAt rd)) (imm.signExtend 32)))))
/-- MOVPW (R256): an even register is required. -/
def execMovpw (c : CoreId) (rd : Reg) (imm : Word) (s : State) : HodOut :=
  .next (s.hod c 2 { regs := pairRegs (pairAt rd) } (evenOnly rd (quiet fun s => s.wrp c (pairAt rd) (imm.signExtend 32))))

/-- A pair operation d := d op p. -/
def State.pp (s : State) (c : CoreId) (d p : PairIx) (f : State → State) : State :=
  s.hod c 1 { regs := pairRegs d ++ pairRegs p } (quiet f)

/-- ADDP (R255, R258). -/
def execAddp (c : CoreId) (d p : PairIx) (s : State) : HodOut := .next (s.pp c d p fun s => s.aluP c d (addPOf (s.pr c d) (s.pr c p)))
/-- SUBP (R255, R258). -/
def execSubp (c : CoreId) (d p : PairIx) (s : State) : HodOut := .next (s.pp c d p fun s => s.aluP c d (subPOf (s.pr c d) (s.pr c p)))
/-- CMPP (R255, R258): flags only. -/
def execCmpp (c : CoreId) (d p : PairIx) (s : State) : HodOut :=
  .next (s.pp c d p fun s => s.flags c (subPOf (s.pr c d) (s.pr c p)).2)
/-- MOVP (R255). -/
def execMovp (c : CoreId) (d p : PairIx) (s : State) : HodOut := .next (s.pp c d p fun s => s.wrp c d (s.pr c p))

/-! ### Packed decimal (R262, R263) -/

/-- DTE of PSW. -/
def State.dte (s : State) (c : CoreId) : Bool := wbit (s.psw c) 11

/-- The decimal digit trap, whose return address is the next instruction. -/
def digitTrap : Trap := { cause := 0x11, after := true }

/-- A decimal operation of rd and rs: an invalid digit sets D and writes nothing else. -/
def State.decimal (s : State) (c : CoreId) (rd rs : Reg) (sub chained : Bool) : Option Trap × State :=
  let a := s.rg c rd
  let b := s.rg c rs
  if bcdOk a && bcdOk b then (none, s.alu c rd (decOf sub a b (chained && s.cFlag c) chained))
  else (if s.dte c then some digitTrap else none, s.flags c (({} : Upd).put 9 true))

/-- DADD (R262). -/
def execDadd (c : CoreId) (rd rs : Reg) (s : State) : HodOut :=
  .next (s.hod c 1 { regs := [rd, rs] } fun s => s.decimal c rd rs false false)
/-- DADC (R262). -/
def execDadc (c : CoreId) (rd rs : Reg) (s : State) : HodOut :=
  .next (s.hod c 1 { regs := [rd, rs], flags := true } fun s => s.decimal c rd rs false true)
/-- DSUB (R262). -/
def execDsub (c : CoreId) (rd rs : Reg) (s : State) : HodOut :=
  .next (s.hod c 1 { regs := [rd, rs] } fun s => s.decimal c rd rs true false)
/-- DSBC (R262). -/
def execDsbc (c : CoreId) (rd rs : Reg) (s : State) : HodOut :=
  .next (s.hod c 1 { regs := [rd, rs], flags := true } fun s => s.decimal c rd rs true true)
/-- DAJ (R263). -/
def execDaj (c : CoreId) (rd : Reg) (s : State) : HodOut :=
  .next (s.hod c 1 { regs := [rd], flags := true } (quiet fun s => s.alu c rd (dajOf (s.rg c rd) (s.psw c))))

/-! ### CRC steps (R264) -/

/-- CRC16. -/
def execCrc16 (c : CoreId) (rd rs : Reg) (s : State) : HodOut := .next (s.rr c rd rs fun a b => (crc16Step a b, {}))

/-- A CRC-32 step of a pair. -/
def State.crcPair (s : State) (c : CoreId) (rd rs : Reg) (castagnoli : Bool) : State :=
  s.hod c 1 { regs := rs :: pairRegs (pairAt rd) } (evenOnly rd (quiet fun s =>
    s.wrp c (pairAt rd) (crc32Step castagnoli (s.pr c (pairAt rd)) (s.rg c rs))))

/-- CRC32: an even register is required. -/
def execCrc32 (c : CoreId) (rd rs : Reg) (s : State) : HodOut := .next (s.crcPair c rd rs false)
/-- CRC32C: an even register is required. -/
def execCrc32c (c : CoreId) (rd rs : Reg) (s : State) : HodOut := .next (s.crcPair c rd rs true)

end Sys2Proof.Machine
end

