-- ==== Sys2Proof/Machine/HodMemOps.lean ====
section
/-! DEFINITION. Loads, stores, memory-to-memory instructions and CAS of the hod cores (R255, R259, R262, R264, R284 to
R286). -/

namespace Sys2Proof.Machine

open Sys2Proof

/-! ### Loads -/

/-- The registers of a pair with the values it takes when it advances by n. A register of the pair that the same
instruction loads ends with a value the rules do not fix: it is free. Log entry 74. -/
def State.advanced (s : State) (c : CoreId) (p : PairIx) (n : Nat) (dests : List Reg) : List (Nat × Word) × State :=
  let v := s.pr c p + BitVec.ofNat 32 n
  let one (r : Reg) (w : Word) (s : State) : List (Nat × Word) × State :=
    match (s.core c).phys c r.toNat with
    | none => ([], s)
    | some q => if dests.contains r then let (x, s1) := s.drawWord; ([(q, x)], s1) else ([(q, w)], s)
  let (a, s1) := one (evenReg p) (hiOf v) s
  let (b, s2) := one (oddReg p) (loOf v) s1
  (a ++ b, s2)

/-- The advance of a load's pair, if it has one. -/
def State.loadAdvance (s : State) (c : CoreId) (dests : List Reg) (adv : Option (PairIx × Nat)) : List (Nat × Word) × State :=
  match adv with
  | some (p, n) => s.advanced c p n dests
  | none => ([], s)

/-- A load whose words a buffered store holds whole (R285). -/
def State.forwards (s : State) (c : CoreId) (ws : List Nat) : Bool :=
  ((s.core c).overlapping ws).any fun e => e.2.words.map (fun w => w.1) = ws

/-- A load completes at once. -/
def State.loadNow (s : State) (c : CoreId) (ws : List (W32 × Nat)) (regs : List (Option Nat)) (up : List (Nat × Word)) : Option Trap × State :=
  match s.loadWords c ws false with
  | (.error t, s1) => (some t, s1)
  | (.ok l, s1) => (none, s1.landLoad c regs l up)

/-- The stores that a load must see drain before it waits in MD: all for a device access, else up to the one that overlaps. -/
def State.loadDrain (s : State) (c : CoreId) (ws : List Nat) (dev : Bool) : State :=
  if dev then s.drainAll c else match (s.core c).overlapping ws with
    | some (i, _) => State.drainN c (i + 1) s
    | none => s

/-- A load waits in MD, its instruction at the pc. -/
def State.loadLater (s : State) (c : CoreId) (len : Nat) (words : List (Option Nat × W32 × Nat × Bool)) (up : List (Nat × Word)) : State :=
  (s.modCore c fun k => { k with loadWait := some { words, advance := up, pc := k.pc } }).stay c len

/-- A load of words from a on into registers, with the pair's advance if any: completed at once from the core's own near
memory, else it waits in MD (R273, R285). -/
def State.loadInto (s : State) (c : CoreId) (len : Nat) (dests : List Reg) (a : W32) (adv : Option (PairIx × Nat)) : Option Trap × State :=
  let vas := wordsFrom a dests.length
  match seqM (fun s v => s.xl c .load v) vas s with
  | (.error t, s1) => (some t, s1)
  | (.ok ps, s1) =>
    let dev := ps.any fun e => e.2
    let ws := ps.map fun e => e.1
    let regs := dests.map fun r => (s1.core c).phys c r.toNat
    let (up, s2) := s1.loadAdvance c dests adv
    if !dev && (ws.all (fun w => s2.near c w) || s2.forwards c ws) then s2.loadNow c (List.zip vas ws) regs up
    else (none, (s2.loadDrain c ws dev).loadLater c len (List.zip regs (List.zip vas ps)) up)

/-- The advance of an I field. -/
def advOf (inc : Bool) (p : PairIx) (n : Nat) : Option (PairIx × Nat) := if inc then some (p, n) else none

/-- LD (R255, R259). -/
def execLd (c : CoreId) (rd : Reg) (p : PairIx) (inc : Bool) (s : State) : HodOut :=
  .next (s.hod c 1 { regs := rd :: pairRegs p } fun s => s.loadInto c 1 [rd] (s.pr c p) (advOf inc p 1))

/-- LDP (R255, R259): A goes with the odd register, A + 1 with the even one. -/
def execLdp (c : CoreId) (rd : Reg) (p : PairIx) (inc : Bool) (s : State) : HodOut :=
  .next (s.hod c 1 { regs := pairRegs (pairAt rd) ++ pairRegs p } (evenOnly rd fun s =>
    s.loadInto c 1 [oddReg (pairAt rd), evenReg (pairAt rd)] (s.pr c p) (advOf inc p 2)))

/-- LDD (R255). -/
def execLdd (c : CoreId) (rd : Reg) (p : PairIx) (disp : Word) (s : State) : HodOut :=
  .next (s.hod c 2 { regs := rd :: pairRegs p } fun s => s.loadInto c 2 [rd] (s.pr c p + disp.signExtend 32) none)

/-- LDDP (R255). -/
def execLddp (c : CoreId) (rd : Reg) (p : PairIx) (disp : Word) (s : State) : HodOut :=
  .next (s.hod c 2 { regs := pairRegs (pairAt rd) ++ pairRegs p } (evenOnly rd fun s =>
    s.loadInto c 2 [oddReg (pairAt rd), evenReg (pairAt rd)] (s.pr c p + disp.signExtend 32) none))

/-! ### Stores -/

/-- A store of words from a on, every word checked before any is written; the pair advances, then the words enter the store
buffer (R259, R284). -/
def State.storeFrom (s : State) (c : CoreId) (vals : List Word) (a : W32) (adv : Option (PairIx × Nat)) : Option Trap × State :=
  match seqM (fun s v => s.storeCheck c .store v) (wordsFrom a vals.length) s with
  | (.error t, s1) => (some t, s1)
  | (.ok ps, s1) =>
    let s2 := match adv with
      | some (p, n) => s1.wrp c p (s1.pr c p + BitVec.ofNat 32 n)
      | none => s1
    (none, s2.putStore c (List.zip (ps.map fun e => e.1) vals) (ps.any fun e => e.2))

/-- The words of a pair register in memory order. -/
def State.pairWords (s : State) (c : CoreId) (rs : Reg) : List Word := [s.rg c (oddReg (pairAt rs)), s.rg c (evenReg (pairAt rs))]

/-- ST (R255, R259). -/
def execSt (c : CoreId) (rs : Reg) (p : PairIx) (inc : Bool) (s : State) : HodOut :=
  .next (s.hod c 1 { regs := rs :: pairRegs p } fun s => s.storeFrom c [s.rg c rs] (s.pr c p) (advOf inc p 1))

/-- STP (R255, R259). -/
def execStp (c : CoreId) (rs : Reg) (p : PairIx) (inc : Bool) (s : State) : HodOut :=
  .next (s.hod c 1 { regs := pairRegs (pairAt rs) ++ pairRegs p } (evenOnly rs fun s =>
    s.storeFrom c (s.pairWords c rs) (s.pr c p) (advOf inc p 2)))

/-- STD (R255). -/
def execStd (c : CoreId) (rs : Reg) (p : PairIx) (disp : Word) (s : State) : HodOut :=
  .next (s.hod c 2 { regs := rs :: pairRegs p } fun s => s.storeFrom c [s.rg c rs] (s.pr c p + disp.signExtend 32) none)

/-- STDP (R255). -/
def execStdp (c : CoreId) (rs : Reg) (p : PairIx) (disp : Word) (s : State) : HodOut :=
  .next (s.hod c 2 { regs := pairRegs (pairAt rs) ++ pairRegs p } (evenOnly rs fun s =>
    s.storeFrom c (s.pairWords c rs) (s.pr c p + disp.signExtend 32) none))

/-! ### Elements of combined and repeated instructions -/

/-- How an element ends other than by completing: a trap, or an invalid decimal digit (R262, R267). -/
inductive ElemEnd where
  | trap (t : Trap)
  | digit
  deriving DecidableEq, Repr

/-- The answer of an element. -/
abbrev Elem := Option ElemEnd × State

/-- A pair advances by n; one that two names of the same instruction advance ends with a free value. Log entry 74. -/
def State.advance2 (s : State) (c : CoreId) (d p : PairIx) : State :=
  if d = p then
    let (x, s1) := s.drawWord
    let (y, s2) := s1.drawWord
    s2.wrp c p (w32of x y)
  else (s.wrp c d (s.pr c d + 1)).wrp c p (s.pr c p + 1)

/-- MOVM copies one word (R259). -/
def State.elemMovm (s : State) (c : CoreId) (d p : PairIx) : Elem :=
  match s.load1 c (s.pr c p) with
  | (.error t, s1) => (some (.trap t), s1)
  | (.ok v, s1) => match s1.storeCheck c .store (s1.pr c d) with
    | (.error t, s2) => (some (.trap t), s2)
    | (.ok (pa, dev), s2) => (none, (s2.advance2 c d p).putStore c [(pa, v)] dev)

/-- DADDM, DSUBM (R262). -/
def State.elemDec (s : State) (c : CoreId) (d p : PairIx) (sub : Bool) : Elem :=
  match s.load1 c (s.pr c d) with
  | (.error t, s1) => (some (.trap t), s1)
  | (.ok a, s1) => match s1.load1 c (s1.pr c p) with
    | (.error t, s2) => (some (.trap t), s2)
    | (.ok b, s2) => match s2.storeCheck c .store (s2.pr c d) with
      | (.error t, s3) => (some (.trap t), s3)
      | (.ok (pa, dev), s3) =>
        if bcdOk a && bcdOk b then
          let r := decOf sub a b (s3.cFlag c) true
          (none, ((s3.flags c r.2).advance2 c d p).putStore c [(pa, r.1)] dev)
        else (some .digit, s3.flags c (({} : Upd).put 9 true))

/-- CRCM16 (R264). -/
def State.elemCrc16 (s : State) (c : CoreId) (rd : Reg) (p : PairIx) : Elem :=
  match s.load1 c (s.pr c p) with
  | (.error t, s1) => (some (.trap t), s1)
  | (.ok v, s1) =>
    let (up, s2) := s1.advanced c p 1 [rd]
    (none, s2.landLoad c [(s2.core c).phys c rd.toNat] [crc16Step (s2.rg c rd) v] up)

/-- CRCM32 (R264). -/
def State.elemCrc32 (s : State) (c : CoreId) (rd : Reg) (p : PairIx) : Elem :=
  match s.load1 c (s.pr c p) with
  | (.error t, s1) => (some (.trap t), s1)
  | (.ok v, s1) =>
    let q := pairAt rd
    let r := crc32Step false (s1.pr c q) v
    let (up, s2) := s1.advanced c p 1 (pairRegs q)
    (none, s2.landLoad c [(s2.core c).phys c (evenReg q).toNat, (s2.core c).phys c (oddReg q).toNat] [hiOf r, loOf r] up)

/-- A repeated LD or LDP loads one element in line. -/
def State.elemLoad (s : State) (c : CoreId) (dests : List Reg) (p : PairIx) : Elem :=
  let vas := wordsFrom (s.pr c p) dests.length
  match seqM (fun s v => s.xl c .load v) vas s with
  | (.error t, s1) => (some (.trap t), s1)
  | (.ok ps, s1) => match s1.loadWords c (List.zip vas (ps.map fun e => e.1)) (ps.any fun e => e.2) with
    | (.error t, s2) => (some (.trap t), s2)
    | (.ok l, s2) =>
      let (up, s3) := s2.advanced c p dests.length dests
      (none, s3.landLoad c (dests.map fun r => (s3.core c).phys c r.toNat) l up)

/-- A repeated ST or STP stores one element. -/
def State.elemStore (s : State) (c : CoreId) (vals : List Word) (p : PairIx) : Elem :=
  match s.storeFrom c vals (s.pr c p) (some (p, vals.length)) with
  | (some t, s1) => (some (.trap t), s1)
  | (none, s1) => (none, s1)

/-- One element executed alone. -/
def State.single (s : State) (c : CoreId) (e : Elem) : Option Trap × State :=
  match e with
  | (none, s1) => (none, s1)
  | (some (.trap t), s1) => (some t, s1)
  | (some .digit, s1) => (if s.dte c then some digitTrap else none, s1)

/-- MOVM (R259). -/
def execMovm (c : CoreId) (d p : PairIx) (s : State) : HodOut :=
  .next (s.hod c 1 { regs := pairRegs d ++ pairRegs p } fun s => s.single c (s.elemMovm c d p))

/-- DADDM (R262). -/
def execDaddm (c : CoreId) (d p : PairIx) (s : State) : HodOut :=
  .next (s.hod c 1 { regs := pairRegs d ++ pairRegs p, flags := true } fun s => s.single c (s.elemDec c d p false))

/-- DSUBM (R262). -/
def execDsubm (c : CoreId) (d p : PairIx) (s : State) : HodOut :=
  .next (s.hod c 1 { regs := pairRegs d ++ pairRegs p, flags := true } fun s => s.single c (s.elemDec c d p true))

/-- CRCM16 (R255, R264). -/
def execCrcm16 (c : CoreId) (rd : Reg) (p : PairIx) (s : State) : HodOut :=
  .next (s.hod c 1 { regs := rd :: pairRegs p } fun s => s.single c (s.elemCrc16 c rd p))

/-- CRCM32 (R255, R264): an even register is required. -/
def execCrcm32 (c : CoreId) (rd : Reg) (p : PairIx) (s : State) : HodOut :=
  .next (s.hod c 1 { regs := pairRegs (pairAt rd) ++ pairRegs p } (evenOnly rd fun s => s.single c (s.elemCrc32 c rd p)))

/-- CAS (R259): the store buffer drains, the word is checked as a store, read, and written where it equals rc. -/
def execCas (c : CoreId) (rd rc : Reg) (p : PairIx) (s : State) : HodOut :=
  .next (s.hod c 2 { regs := rd :: rc :: pairRegs p } fun s =>
    let va := s.pr c p
    match (s.drainAll c).storeCheck c .store va with
    | (.error t, s1) => (some t, s1)
    | (.ok (pa, _), s1) => match s1.readWord1 c (va, pa) with
      | (.error t, s2) => (some t, s2)
      | (.ok old, s2) =>
        let hit := old = s2.rg c rc
        let new := s2.rg c rd
        let s3 := (s2.wr c rd old).flags c (({} : Upd).put 2 hit)
        (none, if hit then s3.putWords c [(pa, new)] else s3))

end Sys2Proof.Machine
end

