-- ==== Sys2Proof/Machine/HodMulti.lean ====
section
/-! DEFINITION. REP, STM and LDM of the hod cores (R265 to R268, R291, R292). -/

namespace Sys2Proof.Machine

open Sys2Proof

/-! ### REP -/

/-- One element of the instruction that REP repeats. -/
def State.repElem (s : State) (c : CoreId) (i : RepInstr) : Elem :=
  match i with
  | .ld rd p => s.elemLoad c [rd] p
  | .st rs p => s.elemStore c [s.rg c rs] p
  | .ldp rd p => s.elemLoad c [oddReg (pairAt rd), evenReg (pairAt rd)] p
  | .stp rs p => s.elemStore c (s.pairWords c rs) p
  | .movm d p => s.elemMovm c d p
  | .daddm d p => s.elemDec c d p false
  | .dsubm d p => s.elemDec c d p true
  | .crcm16 rd p => s.elemCrc16 c rd p
  | .crcm32 rd p => s.elemCrc32 c rd p
  | .other => (some (.trap illegal), s)

/-- R266 allows the instruction behind the REP. -/
def repAllowed (i : RepInstr) : Bool :=
  match i with
  | .ld _ _ | .st _ _ | .movm _ _ | .daddm _ _ | .dsubm _ _ | .crcm16 _ _ => true
  | .ldp r _ | .stp r _ | .crcm32 r _ => !r.getLsbD 0
  | .other => false

/-- The registers that the repeated instruction names. -/
def repRegs (i : RepInstr) : List Reg :=
  match i with
  | .ld r p | .st r p | .crcm16 r p => r :: pairRegs p
  | .ldp r p | .stp r p | .crcm32 r p => pairRegs (pairAt r) ++ pairRegs p
  | .movm d p | .daddm d p | .dsubm d p => pairRegs d ++ pairRegs p
  | .other => []

/-- REPLEFT and PSW.RP (R267). -/
def State.setRep (s : State) (c : CoreId) (n : Nat) (rp : Bool) : State :=
  s.modSpec c fun k => { k with repLeft := BitVec.ofNat 16 n, psw := putBit k.psw 12 rp }

/-- An interrupt may be taken between this element and the next: one is due, or the command says that it is taken after
`stop` elements (R267). Log entry 75. -/
def State.between (s : State) (c : CoreId) (done : Nat) (stop : Option Nat) : Bool :=
  stop = some done || (s.dueInt c).isSome

/-- The elements of a REP: left to do, done so far. A core that an element's store has reset runs no further element. -/
def State.repRun (c : CoreId) (i : RepInstr) (stop : Option Nat) : Nat → Nat → State → Option Trap × State
  | 0, _, s => (none, s)
  | n + 1, done, s =>
    if 0 < done ∧ s.between c done stop then (none, (s.setRep c (n + 1) true).stay c 2)
    else match s.repElem c i with
      | (some (.trap t), s1) => (some t, s1.setRep c (n + 1) true)
      | (some .digit, s1) =>
        (if s1.dte c then some digitTrap else none, s1.modSpec c fun k => { k with repLeft := BitVec.ofNat 16 (n + 1) })
      | (none, s1) => if (s1.core c).run = .running ∧ s1.pcOf c = s.pcOf c then State.repRun c i stop n (done + 1) s1 else (none, s1)

/-- The repeated instruction reads a flag (R262, R275). -/
def repFlags (i : RepInstr) : Bool :=
  match i with
  | .daddm _ _ | .dsubm _ _ => true
  | .ld _ _ | .st _ _ | .ldp _ _ | .stp _ _ | .movm _ _ | .crcm16 _ _ | .crcm32 _ _ | .other => false

/-- REP (R266, R267): the count is latched from rs, or from REPLEFT where RP is 1, which it clears. -/
def execRep (c : CoreId) (rs : Reg) (inner : RepInstr) (stop : Option Nat) (s : State) : HodOut :=
  .next (s.hod c 2 { regs := rs :: repRegs inner, flags := repFlags inner } fun s =>
    if ¬ repAllowed inner then (some illegal, s)
    else
      let rp := wbit (s.psw c) 12
      let n := if rp then (s.core c).repLeft.toNat else (s.rg c rs).toNat
      let s1 := if rp then s.setPsw c (putBit (s.psw c) 12 false) else s
      State.repRun c inner stop n 0 s1)

/-! ### STM and LDM -/

/-- The register that mask bit i selects (R268). -/
def maskReg (half : Bool) (i : Nat) : Reg := BitVec.ofNat 5 (16 * b2n half + i)

/-- The mask bits set, from bit lo up, below bit hi. -/
def maskBits (mask : Word) (lo hi : Nat) : List Nat := (upto 16).filter fun i => wbit mask i && lo ≤ i && i < hi

/-- The word address of mask bit i: the pair's value plus the set bits below. -/
def maskAddr (a : W32) (mask : Word) (i : Nat) : W32 := a + BitVec.ofNat 32 (maskBits mask 0 i).length

/-- MULTI_PROG where a transfer is broken off at bit i (R268). -/
def State.setProg (s : State) (c : CoreId) (i : Nat) : State := s.modSpec c fun k => { k with multiProg := BitVec.ofNat 16 (32768 + i) }

/-- The first mask bit of this execution: NEXT where VALID is 1. -/
def Core.startBit (k : Core) : Nat := if wbit k.multiProg 15 then wfld k.multiProg 3 0 else 0

/-- The instruction completes: VALID is cleared and the pair advances with U = 1. -/
def State.endMulti (s : State) (c : CoreId) (p : PairIx) (u : Bool) (mask : Word) : State :=
  let s1 := s.modSpec c fun k => { k with multiProg := putBit k.multiProg 15 false }
  if u then s1.wrp c p (s1.pr c p + BitVec.ofNat 32 (maskBits mask 0 16).length) else s1

/-- The transfers of an STM. -/
def State.stmRun (c : CoreId) (p : PairIx) (half : Bool) (mask : Word) (stop : Option Nat) (fin : State → State) :
    List Nat → Nat → State → Option Trap × State
  | [], _, s => (none, fin s)
  | i :: l, done, s =>
    if 0 < done ∧ s.between c done stop then (none, (s.setProg c i).stay c 2)
    else match s.storeCheck c .store (maskAddr (s.pr c p) mask i) with
      | (.error t, s1) => (some t, s1.setProg c i)
      | (.ok (pa, dev), s1) =>
        let s2 := s1.putStore c [(pa, s1.rg c (maskReg half i))] dev
        if sameCore s1 s2 c then State.stmRun c p half mask stop fin l (done + 1) s2 else (none, s2)

/-- STM (R268, R292). -/
def execStm (c : CoreId) (p : PairIx) (half u : Bool) (mask : Word) (stop : Option Nat) (s : State) : HodOut :=
  .next (s.hod c 2 { regs := pairRegs p ++ (maskBits mask 0 16).map (maskReg half) } fun s =>
    State.stmRun c p half mask stop (fun s => s.endMulti c p u mask) (maskBits mask (s.core c).startBit 16) 0 s)

/-- The transfers of an LDM: words of registers of the pair are held until the instruction completes (R268). -/
def State.ldmRun (c : CoreId) (p : PairIx) (half : Bool) (mask : Word) (stop : Option Nat) (fin : State → State) :
    List Nat → Nat → List (Reg × Word) → State → Option Trap × State
  | [], _, held, s => (none, held.foldl (fun s e => s.wr c e.1 e.2) (fin s))
  | i :: l, done, held, s =>
    if 0 < done ∧ s.between c done stop then (none, (s.setProg c i).stay c 2)
    else match s.load1 c (maskAddr (s.pr c p) mask i) with
      | (.error t, s1) => (some t, s1.setProg c i)
      | (.ok v, s1) =>
        let r := maskReg half i
        if (pairRegs p).contains r then State.ldmRun c p half mask stop fin l (done + 1) (held ++ [(r, v)]) s1
        else State.ldmRun c p half mask stop fin l (done + 1) held (s1.wr c r v)

/-- LDM (R268, R292). A resumed LDM reads again the words of registers of its pair that an earlier execution transferred.
Log entry 76. -/
def execLdm (c : CoreId) (p : PairIx) (half u : Bool) (mask : Word) (stop : Option Nat) (s : State) : HodOut :=
  .next (s.hod c 2 { regs := pairRegs p ++ (maskBits mask 0 16).map (maskReg half) } fun s =>
    let k := s.core c
    let again := (maskBits mask 0 k.startBit).filter fun i => (pairRegs p).contains (maskReg half i)
    match seqM (fun s i => s.load1 c (maskAddr (s.pr c p) mask i)) again s with
    | (.error t, s1) => (some t, s1)
    | (.ok vs, s1) =>
      State.ldmRun c p half mask stop (fun s => s.endMulti c p u mask) (maskBits mask k.startBit 16) 0
        (List.zip (again.map (maskReg half)) vs) s1)

end Sys2Proof.Machine
end

