-- ==== Sys2Proof/Machine/HodCtl.lean ====
section
/-! DEFINITION. Control transfers, windows, the shadow stack and gates of the hod cores (R247, R248, R257, R260, R276, R277,
R297 to R301, R305). -/

namespace Sys2Proof.Machine

open Sys2Proof

/-! ### Branches -/

/-- The word at an address as memory holds it for a fetch, none where it cannot be read; nothing changes. -/
def State.peekWord (s : State) (c : CoreId) (a : W32) : Option Word :=
  match s.translate c a.toNat .fetch (s.level c) with
  | (.error _, _) => none
  | (.ok (pa, _), s1) => match (s1.readMem (fetchPort c) pa 2).1 with
    | .error _ => none
    | .ok l => some (wordOf l)

/-- The body captured is unchanged at the second taking. Where a word in memory has changed and no ICINV and ISYNC have
passed, whether the fetches returned it changed is free (R288). -/
def State.sameBody (s : State) (old new : List (Option Word)) : Bool × State := if old = new then (true, s) else s.drawBit

/-- The closing branch at a is taken: captured once already with the same body it switches over, a core that fetches from the
buffer goes on, else capture starts. -/
def State.takeLoop (s : State) (c : CoreId) (a : W32) (body : List (Option Word)) : State :=
  let capture (s : State) : State := (s.leaveLoop c).modCore c fun k => { k with loopAt := some (a, body) }
  match (s.core c).loopAt with
  | none => capture s
  | some (b, old) =>
    if b ≠ a then capture s
    else if s.bit (pipeCtl c).1 (pipeCtl c).2 12 then s
    else
      let (same, s1) := s.sameBody old body
      if same then s1.setBit (pipeCtl c).1 (pipeCtl c).2 12 true else capture s1

/-- What a branch of len words at address a does to the loop buffer (R277): a taken branch back over at most 32 words starts
capture; taken again in a row with the body unchanged it switches over; any other branch leaves. Log entry 77. -/
def State.noteBranch (s : State) (c : CoreId) (a t : W32) (len : Nat) (taken : Bool) : State :=
  if taken ∧ t.toNat ≤ a.toNat ∧ a.toNat + len - t.toNat ≤ 32 ∧ ¬ s.bit (pipeCtl c).1 (pipeCtl c).2 13 then
    s.takeLoop c a ((wordsFrom t (a.toNat + len - t.toNat)).map fun w => s.peekWord c w)
  else s.leaveLoop c

/-- A conditional branch of len words. -/
def State.branch (s : State) (c : CoreId) (cond : BitVec 4) (len : Nat) (disp : W32) : State :=
  s.hod c len { flags := cond.toNat < 14 || cond.toNat = 15 } (quiet fun s =>
    let next := s.pcOf c
    let t := next + disp
    let taken := condHolds (s.psw c) cond
    let s1 := s.noteBranch c (next - BitVec.ofNat 32 len) t len taken
    if taken then s1.modCore c fun k => { k with pc := t } else s1)

/-- BRS (R253, R257). -/
def execBrs (c : CoreId) (cond : BitVec 4) (disp : BitVec 6) (s : State) : HodOut := .next (s.branch c cond 1 (disp.signExtend 32))
/-- BR (R253, R257). -/
def execBr (c : CoreId) (cond : BitVec 4) (disp : Word) (s : State) : HodOut := .next (s.branch c cond 2 (disp.signExtend 32))

/-! ### Jumps and calls -/

/-- JMP (R253, R260). -/
def execJmp (c : CoreId) (disp : BitVec 26) (s : State) : HodOut :=
  .next (s.hod c 2 {} (quiet fun s => s.jump c (s.pcOf c + disp.signExtend 32)))

/-- JMPR (R260). -/
def execJmpr (c : CoreId) (p : PairIx) (s : State) : HodOut :=
  .next (s.hod c 1 { regs := pairRegs p } (quiet fun s => s.jump c (s.pr c p)))

/-- The pair a6:a7. -/
def linkPair : PairIx := 15

/-- A call: the return address goes to a6:a7 and onto the shadow stack, then control to t (R260, R300). -/
def State.callTo (s : State) (c : CoreId) (t : W32) : Option Trap × State :=
  let ssp := (s.core c).ssp - 2
  match s.shadowCheck c ssp 2 with
  | (.error e, s1) => (some e, s1)
  | (.ok ps, s1) =>
    let ret := s1.pcOf c
    let s2 := (s1.wrp c linkPair ret).modSpec c fun k => { k with ssp := ssp }
    (none, (s2.jump c t).putWords c (List.zip ps [loOf ret, hiOf ret]))

/-- CALL (R253, R260). -/
def execCall (c : CoreId) (disp : BitVec 26) (s : State) : HodOut :=
  .next (s.hod c 2 { regs := pairRegs linkPair } fun s => s.callTo c (s.pcOf c + disp.signExtend 32))

/-- CALLR (R260): reads ps before it writes a6:a7. -/
def execCallr (c : CoreId) (p : PairIx) (s : State) : HodOut :=
  .next (s.hod c 1 { regs := pairRegs linkPair ++ pairRegs p } fun s => s.callTo c (s.pr c p))

/-! ### Windows (R248) -/

/-- The physical registers of the sixteen words of a frame: L[w] and then A of the window before it. -/
def frameRegs (c : CoreId) (w : Nat) : List Nat := ((upto 8).map fun i => localReg w i) ++ ((upto 8).map fun i => argReg (winDown c w) i)

/-- The window overflow trap. -/
def Core.overflow (k : Core) (x : W32) : Trap := { cause := 0x0F, xaddr := x, xwin := k.fence }
/-- The window underflow trap. -/
def Core.underflow (k : Core) (c : CoreId) (x : W32) : Trap := { cause := 0x10, xaddr := x, xwin := winDown c k.fence }

/-- The window check before a frame is opened: with AUTO 1 the oldest frame is spilled; the answer is the state in which
CWP may move. -/
def State.openCheck (s : State) (c : CoreId) : Option Trap × State :=
  let k := s.core c
  if winUp c k.cwp ≠ k.fence then (none, s)
  else if ¬ k.auto then (some (k.overflow 0), s)
  else
    let w := k.wsp - 16
    match s.checkAll c .store (wordsFrom w 16) with
    | (.error t, s1) => (some (k.overflow t.xaddr), s1)
    | (.ok ps, s1) =>
      let f := winUp c k.fence
      let vals := (frameRegs c f).map fun p => (s1.core c).preg p
      (none, (s1.modSpec c fun k => { k with wsp := w, fence := f }).putWords c (List.zip ps vals))

/-- CWP moves up. -/
def State.moveUp (s : State) (c : CoreId) : State := s.modSpec c fun k => { k with cwp := winUp c k.cwp }

/-- The window check of a WCLOSE and the close itself: with AUTO 1 a frame that is not resident is filled. -/
def State.closeWindow (s : State) (c : CoreId) : Option Trap × State :=
  let k := s.core c
  let n := winDown c k.cwp
  if n ≠ k.fence then (none, s.modSpec c fun k => { k with cwp := n })
  else if ¬ k.auto then (some (k.underflow c 0), s)
  else match s.readAll c .load (wordsFrom k.wsp 16) with
    | (.error t, s1) => (some (k.underflow c t.xaddr), s1)
    | (.ok vals, s1) =>
      let s2 := (List.zip (frameRegs c k.fence) vals).foldl (fun s e => s.wrPhys c e.1 e.2) s1
      (none, s2.modSpec c fun k => { k with wsp := k.wsp + 16, fence := winDown c k.fence, cwp := n })

/-- The registers that the window check of a WOPEN moves, if it spills. -/
def Core.spillRegs (k : Core) (c : CoreId) : List Nat :=
  if winUp c k.cwp = k.fence ∧ k.auto then frameRegs c (winUp c k.fence) else []

/-- The registers that the window check of a WCLOSE moves, if it fills. -/
def Core.fillRegs (k : Core) (c : CoreId) : List Nat := if winDown c k.cwp = k.fence ∧ k.auto then frameRegs c k.fence else []

/-- WOPEN (R248). -/
def execWopen (c : CoreId) (s : State) : HodOut :=
  .next (s.hod c 1 { pregs := (s.core c).spillRegs c } (notOnBank c fun s =>
    let pc := s.pcOf c
    match s.openCheck c with
    | (some t, s1) => (some t, s1)
    | (none, s1) => (none, if s1.pcOf c = pc then s1.moveUp c else s1)))

/-- WCLOSE (R248). -/
def execWclose (c : CoreId) (s : State) : HodOut :=
  .next (s.hod c 1 { pregs := (s.core c).fillRegs c } (notOnBank c fun s => s.closeWindow c))

/-! ### Returns (R260, R300, R301) -/

/-- The comparison with the top of the shadow stack. -/
def State.shadowTop (s : State) (c : CoreId) (t : W32) : Option Trap × State :=
  match s.shadowRead c (s.core c).ssp 2 with
  | (.error e, s1) => (some e, s1)
  | (.ok w, s1) =>
    if w32of (w.getD 1 0) (w.getD 0 0) = t then (none, s1) else (some { cause := 0x0B, xaddr := t }, s1)

/-- SSP rises by n words. -/
def State.popShadow (s : State) (c : CoreId) (n : Nat) : State := s.modSpec c fun k => { k with ssp := k.ssp + BitVec.ofNat 32 n }

/-- RET (R260): comparison first, window check second. -/
def execRet (c : CoreId) (s : State) : HodOut :=
  .next (s.hod c 1 { regs := pairRegs 7, pregs := (s.core c).fillRegs c } (notOnBank c fun s =>
    let t := s.pr c 7
    match s.shadowTop c t with
    | (some e, s1) => (some e, s1)
    | (none, s1) => match s1.closeWindow c with
      | (some e, s2) => (some e, s2)
      | (none, s2) => (none, (s2.popShadow c 2).jump c t)))

/-- RETL (R260). -/
def execRetl (c : CoreId) (s : State) : HodOut :=
  .next (s.hod c 1 { regs := pairRegs linkPair } fun s =>
    let t := s.pr c linkPair
    match s.shadowTop c t with
    | (some e, s1) => (some e, s1)
    | (none, s1) => (none, (s1.popShadow c 2).jump c t))

/-! ### Gates (R298, R299) -/

/-- The gate fault. -/
def gateFault : Trap := { cause := 0x0D }

/-- A word translates with rights, if the check asks for it. -/
def State.mayAccess (s : State) (c : CoreId) (on : Bool) (n : Need) (a : W32) : Bool × State :=
  if on then
    match s.translate c a.toNat n (s.level c) with
    | (.error _, s1) => (false, s1)
    | (.ok _, s1) => (true, s1)
  else (true, s)

/-- The argument check of a pointer: n words from a must translate with the rights that PTR names. -/
def State.pointerCheck (c : CoreId) (ptr : Nat) : Nat → W32 → State → Option Trap × State
  | 0, _, s => (none, s)
  | n + 1, a, s =>
    match s.mayAccess c (ptr % 2 = 1) .load a with
    | (false, s1) => (some { cause := 0x0E, xaddr := a }, s1)
    | (true, s1) => match s1.mayAccess c (2 ≤ ptr) .storeTest a with
      | (false, s2) => (some { cause := 0x0E, xaddr := a }, s2)
      | (true, s2) => State.pointerCheck c ptr n (a + 1) s2

/-- The arguments of a gate call are in range. -/
def State.rangeOk (s : State) (c : CoreId) (e : List Word) : Bool :=
  (upto 4).all fun i =>
    let a := (s.rg c (BitVec.ofNat 5 (24 + i))).toNat
    !(entryRng e i) || ((e.getD 5 0).toNat ≤ a && a ≤ (e.getD 6 0).toNat)

/-- The words of a gate frame (R300). -/
def State.gateFrame (s : State) (c : CoreId) (n : Nat) : List Word :=
  let ret := s.pcOf c
  [loOf ret, hiOf ret, (s.core c).preg 7, (s.core c).preg 6, s.psw c, BitVec.ofNat 16 n, 0x6A7E, 0]

/-- The arguments of a gate call are checked (R298): ranges, then the words of the pointer. -/
def State.gateArgs (s : State) (c : CoreId) (e : List Word) : Option Trap × State :=
  if ¬ s.rangeOk c e then (some { cause := 0x0E }, s)
  else if entryPtr e = 0 then (none, s)
  else State.pointerCheck c (entryPtr e) (s.rg c 26).toNat (s.pr c 12) s

/-- Control passes through a gate whose checks passed: the frame goes onto the shadow stack, the window moves up, LVL becomes
the lower number of the entry's and the caller's, SP is taken from the entry (R298). -/
def State.gateEnter (s : State) (c : CoreId) (n : Nat) (e : List Word) (lvl : Nat) : Option Trap × State :=
  let ssp := (s.core c).ssp - 8
  match s.shadowCheck c ssp 8 with
  | (.error t, s1) => (some t, s1)
  | (.ok ps, s1) =>
    let frame := s1.gateFrame c n
    let s2 := (s1.moveUp c).modSpec c fun k =>
      { k with psw := putFld k.psw 15 14 (min (entryLvl e) lvl), ssp := ssp }
    let s3 := if entrySp e = 0 then s2 else (s2.wrPhys c 6 (hiOf (entrySp e))).wrPhys c 7 (loOf (entrySp e))
    (none, (s3.jump c (entryTgt e)).putWords c (List.zip ps frame))

/-- The call through a valid gate entry: the window check, the arguments, the entry (R298). -/
def State.gatePass (s : State) (c : CoreId) (n : Nat) (e : List Word) : Option Trap × State :=
  match s.openCheck c with
  | (some t, s1) => (some t, s1)
  | (none, s1) =>
    if s1.pcOf c ≠ s.pcOf c then (none, s1)
    else match s1.gateArgs c e with
      | (some t, s2) => (some t, s2)
      | (none, s2) => s2.gateEnter c n e (s.level c)

/-- The call through gate entry n (R298). -/
def State.gateCall (s : State) (c : CoreId) (n : Nat) : Option Trap × State :=
  match s.gateEntry c n with
  | (none, s1) => (some gateFault, s1)
  | (some e, s1) =>
    if ¬ (entryValid e && entryKind e = 1) ∨ entryMin e < s1.level c then (some gateFault, s1)
    else s1.gatePass c n e

/-- GATE (R298). -/
def execGate (c : CoreId) (n : BitVec 10) (s : State) : HodOut :=
  .next (s.hod c 1 { flags := true } (notOnBank c fun s => s.gateCall c n.toNat))

/-- The return through a gate frame (R299). -/
def State.gateReturn (s : State) (c : CoreId) : Option Trap × State :=
  match s.shadowRead c (s.core c).ssp 8 with
  | (.error t, s1) => (some t, s1)
  | (.ok w, s1) =>
    let ret := w32of (w.getD 1 0) (w.getD 0 0)
    let f := w.getD 4 0
    if w.getD 6 0 ≠ 0x6A7E ∨ wfld f 15 14 < s1.level c then (some { cause := 0x0B, xaddr := ret }, s1)
    else match s1.closeWindow c with
      | (some t, s2) => (some t, s2)
      | (none, s2) =>
        let (v, s3) := s2.pswLoaded f
        let s4 := (s3.wrPhys c 6 (w.getD 3 0)).wrPhys c 7 (w.getD 2 0)
        let s5 := s4.modSpec c fun k => { k with psw := putBit (putBit (putFld k.psw 15 14 (wfld v 15 14)) 13 (wbit v 13)) 11 (wbit v 11) }
        (none, (s5.popShadow c 8).jump c ret)

/-- GRET (R299). -/
def execGret (c : CoreId) (s : State) : HodOut :=
  .next (s.hod c 1 { pregs := [6, 7] ++ (s.core c).fillRegs c } (notOnBank c fun s => s.gateReturn c))

/-- RFI (R305). On the TSB path it writes registers of the task (R304). -/
def execRfi (c : CoreId) (s : State) : HodOut := .next (s.hod c 1 { all := (s.core c).path = .tsb } fun s => s.rfi c)

end Sys2Proof.Machine
end

