-- ==== Sys2Proof/Machine/HodSys.lean ====
section
/-! DEFINITION. System instructions of the hod cores: barriers, TLB invalidation, contexts, special registers, brick
submission, and illegal encodings (R84 to R87, R250 to R256, R269, R282, R289, R290, R294, R305, R324, R325). -/

namespace Sys2Proof.Machine

open Sys2Proof

/-- NOP (R256). -/
def execNop (c : CoreId) (s : State) : HodOut := .next (s.hod c 1 {} (quiet fun s => s))

/-- BARRIER (R282): every older instruction completes, an arithmetic exception of one of them being taken first, and the store
buffer drains. -/
def execBarrier (c : CoreId) (s : State) : HodOut := .next (s.hod c 1 { all := true } (quiet fun s => s.drainAll c))

/-- ISYNC (R290, R326): older instructions complete; fetches follow the current translation; the loop buffer is left. -/
def execIsync (c : CoreId) (s : State) : HodOut :=
  .next (s.hod c 1 { all := true } (quiet fun s =>
    let ctl := s.xlatCtl c
    let atb := BitVec.ofNat 32 (s.xlatAtb (coreDie c))
    (s.leaveLoop c).modCore c fun k => { k with fetchCtl := ctl, fetchAtb := atb }))

/-- WFI (R294, R305): the core waits behind the WFI for an interrupt. -/
def execWfi (c : CoreId) (s : State) : HodOut :=
  .next (s.hod c 1 {} (atMS c (quiet fun s => s.modCore c fun k => { k with run := .waitInt })))

/-- The physical lines of 32 words that hold n words from va: line by line, a page without a valid translation being
skipped (R289). No rights are asked for, and nothing is marked. -/
def State.icRange (s : State) (c : CoreId) (va : W32) (n : Nat) : List Nat :=
  let first := va.toNat / 32
  let last := (va.toNat + n - 1) / 32
  (upto (last + 1 - first)).filterMap fun i => s.icPlace c (BitVec.ofNat 32 (32 * (first + i))).toNat

/-- ICINV (R289): the store buffer drains, the lines that hold any of the rc words from the pair are invalidated (rc 0 means
65,536), and the loop buffer is emptied. Log entry 78. -/
def execIcinv (c : CoreId) (p : PairIx) (rc : Reg) (s : State) : HodOut :=
  .next (s.hod c 2 { regs := rc :: pairRegs p } (quiet fun s =>
    let n := (s.rg c rc).toNat
    let s1 := (s.leaveLoop c).drainAll c
    let gone := s1.icRange c (s1.pr c p) (if n = 0 then 65536 else n)
    s1.modCore c fun k => { k with icLines := k.icLines.filter fun l => !gone.contains l }))

/-! ### TLB invalidation (R324, R325) -/

/-- The receivers of a request of core c: every other core and the stream translator, on the dies that are powered. -/
def State.receivers (s : State) (c : CoreId) : List Receiver :=
  let cs := (List.finRange 12).filter fun d => d ≠ c && (8 ≤ d.val || !s.pw.cReset)
  cs.map Receiver.core ++ (if s.pw.cReset then [] else [.stream])

/-- TLBI (R324). -/
def execTlbi (c : CoreId) (p : PairIx) (scope : BitVec 2) (s : State) : HodOut :=
  .next (s.hod c 2 { regs := pairRegs p } (atMS c (quiet fun s =>
    let va := s.pr c p
    let asid := if scope = 0 then BitVec.ofNat 8 (wfld (s.xlatCtl c) 7 0) else BitVec.ofNat 8 va.toNat
    let s1 := (s.drainAll c).tlbiCore c scope.toNat va.toNat asid
    { s1 with tlbis := s1.tlbis ++ [{ issuer := c.val, scope, va, asid, toReceive := s1.receivers c, toAck := [] }] })))

/-- TLBSYNC (R325): waits at its own address until every earlier request of the core is acknowledged. -/
def execTlbsync (c : CoreId) (s : State) : HodOut :=
  .next (s.hod c 1 {} (atMS c (quiet fun s =>
    if s.tlbiOpen c then (s.stay c 1).modCore c fun k => { k with run := .waitTlb } else s)))

/-- The first element that p accepts is replaced by f of it. -/
def replaceFirst {α : Type} (p : α → Bool) (f : α → α) : List α → List α
  | [] => []
  | a :: l => if p a then f a :: l else a :: replaceFirst p f l

/-- TLBI_RECEIVE (R324): the receiver's oldest request takes effect there. -/
def execTlbiReceive (r : Receiver) (s : State) : HodOut :=
  .next (match s.tlbis.find? fun t => t.toReceive.contains r with
    | none => s
    | some t =>
      let s1 := match r with
        | .core c => (s.tlbiMark c (tlbiHits t.scope.toNat t.va.toNat t.asid)).tlbiCore c t.scope.toNat t.va.toNat t.asid
        | .stream => s.tlbiStream t.scope.toNat t.va.toNat t.asid
      let move (t : TlbiReq) : TlbiReq := { t with toReceive := t.toReceive.filter fun x => x ≠ r, toAck := t.toAck ++ [r] }
      { s1 with tlbis := replaceFirst (fun t => t.toReceive.contains r) move s1.tlbis })

/-- A receiver has completed every access that had used a matching entry before a request (R325). Log entry 79. -/
def State.settled (s : State) (r : Receiver) : Bool :=
  match r with
  | .core c => !((s.core c).loadWait.any fun w => w.tlbi) && !((s.core c).storeBuf.any fun e => e.tlbi)
  | .stream => true

/-- TLBI_ACK (R325). -/
def execTlbiAck (r : Receiver) (s : State) : HodOut :=
  .next (if ¬ (s.settled r && s.tlbis.any fun t => t.toAck.contains r) then s
    else
      let acked (t : TlbiReq) : TlbiReq := { t with toAck := t.toAck.filter fun x => x ≠ r }
      let l := replaceFirst (fun t => t.toAck.contains r) acked s.tlbis
      ({ s with tlbis := l.filter fun t => !(t.toReceive.isEmpty && t.toAck.isEmpty) } : State).wakeAll)

/-! ### Contexts (R269, R305) -/

/-- PSW as a context holds it: on a bank the PSW that the bank saved. -/
def Core.ctxPsw (k : Core) : Word := if k.onBank then k.xregs.xpsw else k.psw

/-- The words of the lower area from word 4 to 23. -/
def Core.lowerWords (k : Core) : List Word :=
  ((upto 7).map fun i => k.preg (1 + i)) ++
  [k.ctxPsw, BitVec.ofNat 16 k.cwp, k.wim, k.repLeft, k.multiProg, loOf k.ssp, hiOf k.ssp, loOf k.tsb, hiOf k.tsb, loOf k.gtb, hiOf k.gtb,
    loOf k.wsp, hiOf k.wsp]

/-- The sixteen words of a window in the upper area. -/
def windowRegs (w : Nat) : List Nat := ((upto 8).map fun i => localReg w i) ++ ((upto 8).map fun i => argReg w i)

/-- Words are stored, all checked before any is written, and the groups in d are no longer dirty. -/
def State.saveGroups (s : State) (c : CoreId) (l : List (W32 × Word)) (d : Word) : Option Trap × State :=
  match s.checkAll c .store (l.map fun e => e.1) with
  | (.error t, s1) => (some t, s1)
  | (.ok ps, s1) =>
    (none, (s1.modCore c fun k => { k with dirty := k.dirty &&& ~~~d }).putWords c (List.zip ps (l.map fun e => e.2)))

/-- CTXS of the lower half: SAVED with the bits of the dirty groups, and each dirty group (R269). -/
def State.ctxsLower (s : State) (c : CoreId) : Option Trap × State :=
  let k := s.core c
  let d := k.dirty &&& 0xC000
  let part := (List.zip (upto 20) k.lowerWords).filter fun e => if e.1 < 7 then wbit d 15 else wbit d 14
  s.saveGroups c ([(k.ctxp + 2, d), (k.ctxp + 3, 0)] ++ part.map fun e => (k.ctxp + BitVec.ofNat 32 (4 + e.1), e.2)) 0xC000

/-- LINK of the area at CTXP. -/
def State.linkWord (s : State) (c : CoreId) : Res W32 :=
  match s.readAll c .load (wordsFrom (s.core c).ctxp 2) with
  | (.error t, s1) => (.error t, s1)
  | (.ok w, s1) => (.ok (w32of (w.getD 1 0) (w.getD 0 0)), s1)

/-- The words of the windows in d, from LINK. -/
def Core.windowWords (k : Core) (c : CoreId) (link : W32) (d : Word) : List (W32 × Word) :=
  ((upto (nwin c)).filter fun w => wbit d w).flatMap fun w =>
    (List.zip (upto 16) (windowRegs w)).map fun e => (link + BitVec.ofNat 32 (16 * w + e.1), k.preg e.2)

/-- CTXS of the upper half: each dirty window. R269 says that CTXS writes SAVED and counts no word for it in this half:
whether it does is free. Log entry 80. -/
def State.ctxsUpper (s : State) (c : CoreId) : Option Trap × State :=
  match s.linkWord c with
  | (.error t, s1) => (some t, s1)
  | (.ok link, s1) =>
    let k := s1.core c
    let d := k.dirty &&& BitVec.ofNat 16 (2 ^ nwin c - 1)
    let (save, s2) := s1.drawBit
    s2.saveGroups c ((if save then [(k.ctxp + 2, d)] else []) ++ k.windowWords c link d) d

/-- The operand pair of CTXS, and of CTXL 1, must name pair 0 (R269). -/
def pairZero (p : PairIx) (body : State → Option Trap × State) (s : State) : Option Trap × State :=
  if p ≠ 0 then (some illegal, s) else body s

/-- The registers that a context transfer waits for: g1 to g7, or the windows (R274, R279). -/
def ctxUses (c : CoreId) (h : Bool) : Uses :=
  if h then { pregs := (upto (nwin c)).flatMap windowRegs } else { pregs := (upto 7).map fun i => 1 + i }

/-- CTXS (R269); of its lower half it reads PSW (R275). -/
def execCtxs (c : CoreId) (p : PairIx) (h : Bool) (s : State) : HodOut :=
  .next (s.hod c 1 { ctxUses c h with flags := !h } (pairZero p (atMS c fun s => if h then s.ctxsUpper c else s.ctxsLower c)))

/-- A context's PSW: on a bank it becomes the PSW that the bank saved. -/
def Core.loadPsw (k : Core) (psw : Word) : Core := if k.onBank then k.setXregs { k.xregs with xpsw := psw } else { k with psw := psw }

/-- The core with the stack and table pointers of a lower area. -/
def Core.loadPointers (k : Core) (g : Nat → Word) : Core :=
  { k with ssp := w32of (g 17) (g 16), tsb := w32of (g 19) (g 18), gtb := w32of (g 21) (g 20), wsp := w32of (g 23) (g 22) }

/-- The core with the registers of groups G and S loaded from words 4 to 23 of a lower area. -/
def Core.loadLower (k : Core) (c : CoreId) (w : List Word) (psw : Word) : Core :=
  let g (i : Nat) : Word := w.getD (i - 4) 0
  let k2 := ((upto 7).foldl (fun k i => k.setPreg (1 + i) (g (4 + i))) k).loadPsw psw
  ((((k2.setSpecial c 1 ((g 12).zeroExtend 32)).setSpecial c 2 ((g 13).zeroExtend 32)).setSpecial c 4 ((g 14).zeroExtend 32)).setSpecial
    c 5 ((g 15).zeroExtend 32)).loadPointers g

/-- The path whose PSW a context holds. -/
def Core.ctxPath (k : Core) : Path := if k.onBank then k.savedPath else k.path

/-- CTXL of the lower half (R269): a loaded level M at level S faults before anything is loaded; the PSW loaded is a younger
write of every flag (R275). -/
def State.ctxlLower (s : State) (c : CoreId) (p : PairIx) : Option Trap × State :=
  let a := s.pr c p
  match s.readAll c .load (wordsFrom (a + 4) 20) with
  | (.error t, s1) => (some t, s1)
  | (.ok w, s1) =>
    if s1.level c = 1 ∧ wfld (w.getD 7 0) 15 14 = 0 then (some privilege, s1)
    else
      let (psw, s2) := s1.pswLoaded (w.getD 7 0)
      (none, (s2.modCore c fun k => (k.youngerOf k.ctxPath 0xFFFF).loadLower c w psw).modCore c fun k =>
        { k with ctxp := a, dirty := k.dirty &&& 0x3FFF })

/-- The core with every window loaded from the words of an upper area. -/
def Core.loadUpper (k : Core) (c : CoreId) (w : List Word) : Core :=
  (List.zip ((upto (nwin c)).flatMap windowRegs) w).foldl (fun k e => k.setPreg e.1 e.2) k

/-- CTXL of the upper half: every window from LINK. -/
def State.ctxlUpper (s : State) (c : CoreId) : Option Trap × State :=
  match s.linkWord c with
  | (.error t, s1) => (some t, s1)
  | (.ok link, s1) =>
    match s1.readAll c .load (wordsFrom link (16 * nwin c)) with
    | (.error t, s2) => (some t, s2)
    | (.ok w, s2) =>
      (none, (s2.modCore c fun k => k.loadUpper c w).modCore c fun k => { k with dirty := k.dirty &&& 0xC000 })

/-- CTXL (R269). -/
def execCtxl (c : CoreId) (p : PairIx) (h : Bool) (s : State) : HodOut :=
  .next (s.hod c 1 { ctxUses c h with regs := if h then [] else pairRegs p } (if h then pairZero p (atMS c fun s => s.ctxlUpper c) else atMS c fun s => s.ctxlLower c p))

/-! ### Special registers (R250 to R252, R295) -/

/-- A special register number exists, and the register field suits its width (R250, R254). -/
def specOk (n : Nat) (r : Reg) : Bool := n < 16 && !(specWide n && r.getLsbD 0)

/-- MFS (R250). -/
def execMfs (c : CoreId) (rd : Reg) (sr : BitVec 5) (s : State) : HodOut :=
  .next (s.hod c 1 { regs := if specWide sr.toNat then pairRegs (pairAt rd) else [rd], flags := sr = 0 || sr = 13 } fun s =>
    if ¬ specOk sr.toNat rd then (some illegal, s)
    else
      let v := (s.core c).special c sr.toNat
      (none, if specWide sr.toNat then s.wrp c (pairAt rd) v else s.wr c rd (loOf v)))

/-- The write of a special register: one of PSW or XPSW is a younger write of its flags (R275). -/
def Core.mts (k : Core) (c : CoreId) (n : Nat) (v : W32) : Core :=
  (if n = 0 then k.younger (mtsMask (loOf v)) else if n = 13 then k.youngerOf k.savedPath 0xFFFF else k).setSpecial c n v

/-- MTS (R250, R252, R294). -/
def execMts (c : CoreId) (sr : BitVec 5) (rs : Reg) (s : State) : HodOut :=
  .next (s.hod c 1 { regs := if specWide sr.toNat then pairRegs (pairAt rs) else [rs] } fun s =>
    if ¬ specOk sr.toNat rs then (some illegal, s)
    else if ¬ mtsAllowed sr.toNat (s.level c) then (some privilege, s)
    else
      let v := if specWide sr.toNat then s.pr c (pairAt rs) else (s.rg c rs).zeroExtend 32
      (none, s.modCore c fun k => k.mts c sr.toNat v))

/-! ### Bricks (R84 to R87) -/

/-- VX is refused (R85). -/
def State.vxRefused (s : State) (c : CoreId) (rd : Reg) : State := (s.wr c rd 0xFFFF).flags c (({} : Upd).put 10 true)

/-- A level is less privileged than VX_QCFG.MINLVL, where 0b11 behaves as M. -/
def State.vxPriv (s : State) (q lvl : Nat) : Bool :=
  let m := s.fld .VX_QCFG q 14 13
  (if m = 3 then 0 else m) < lvl

/-- VX (R84 to R86): the checks in the order of R85. -/
def execVx (c : CoreId) (rd : Reg) (p : PairIx) (q : BitVec 4) (s : State) : HodOut :=
  .next (s.hod c 2 { regs := rd :: pairRegs p } fun s0 =>
    let s := s0.drainAll c
    let va := s.pr c p
    if 8 ≤ c.val ∧ ¬ s.computeReady then (none, s.vxRefused c rd)
    else if s.vxPriv q.toNat (s.level c) then (some privilege, s)
    else
    let bad : Trap := { cause := 9, xaddr := va }
    if va.toNat % 32 ≠ 0 then (some bad, s)
    else match s.xl c .load va with
      | (.error t, s1) => (some t, s1)
      | (.ok (pa, _), s1) =>
        if ¬ (0x40000000 ≤ pa ∧ pa < 0x44000000) then (some bad, s1)
        else match s1.readMem (dataPort c) pa 64 with
          | (.error _, s2) => (some bad, s2)
          | (.ok l, s2) =>
            if s2.queueRefuses q.toNat then (none, (s2.shed .KILN_QREF q.toNat).vxRefused c rd)
            else
              let t := s2.ticket q.toNat (s2.queue q.toNat).nextSeq
              (none, ((s2.accept q.toNat (wordsOf l) false (s2.level c)).wr c rd t).flags c (({} : Upd).put 10 false)))

/-- What VWAIT on a ticket returns; none while the brick has not ended (R87). -/
def State.waitResult (s : State) (t : Word) : Option Word :=
  let u := s.queue (wfld t 15 12)
  if ¬ s.computeReady ∨ wfld t 11 10 ≠ s.epoch.toNat then some 0x00FF
  else if u.entries.any (fun b => b.ticket = t && !b.joint) then none
  else match u.ended.find? fun e => e.1 = some t with
    | some e => some e.2
    | none => some 0x80FE

/-- VWAIT (R87): a core that must wait stalls at the VWAIT. -/
def execVwait (c : CoreId) (rd rs : Reg) (s : State) : HodOut :=
  .next (s.hod c 1 { regs := [rd, rs] } (quiet fun s =>
    let t := s.rg c rs
    match s.waitResult t with
    | some v => s.wr c rd v
    | none => (s.stay c 1).modCore c fun k => { k with run := .waitBrick rd t }))

/-- VWAIT_WAKE (R87): a stalled VWAIT completes. -/
def execVwaitWake (c : CoreId) (s : State) : HodOut :=
  .next (match (s.core c).run with
    | .waitBrick rd t => match s.waitResult t with
      | some v => (s.modCore c fun k => { k with run := .running, pc := k.pc + 1 }).wr c rd v
      | none => s
    | .held | .running | .waitInt | .waitTlb | .halted | .locked => s)

/-! ### Illegal encodings (R253 to R256) -/

/-- ILLEGAL_OPCODE (R254): a word pair that is a listed encoding is no illegal opcode, and the command does not apply. -/
def execIllegalOpcode (c : CoreId) (w1 w2 : Word) (s : State) : HodOut :=
  .next (if (decodeHod c w1 w2).isSome then s else s.hod c 1 {} fun s => (some illegal, s))

end Sys2Proof.Machine
end

