-- ==== Sys2Proof/Machine/Image.lean ====
section
/-! DEFINITION. The bond image: its file layout, its section chain, its certificate chain and the range checks of its
sections (01_bond_image.md; R62, R67, R122 to R127, R155, R176, R198, R355, R358, R412 to R414). -/

namespace Sys2Proof.Machine

open Sys2Proof

/-- A failed check: result code and section type (R44, R45). -/
structure CheckErr where
  code : Nat
  sect : Nat
  deriving DecidableEq, Repr

/-! ### Reading a source -/

/-- The first n bytes of a source (Sources and slot selection; R14). -/
def State.sourceBytes (s : State) (src : Source) (n : Nat) : List Byte :=
  match src with
  | .slotA => readBytes 0xFF s.mem.flash 0 n
  | .slotB => readBytes 0xFF s.mem.flash 0x800000 n
  | .net => readBytes 0 s.lay.netImage 0 n

/-! ### The section chain (R15 to R18, R30 checks 1 and 2) -/

/-- A section as it lies in the file: type, ENC, offset of its header, payload length. -/
structure RawSec where
  ty : Nat
  enc : Bool
  off : Nat
  len : Nat
  deriving DecidableEq, Repr

/-- The stored payload. -/
def RawSec.body (img : List Byte) (r : RawSec) : List Byte := bytesAt img (r.off + 16) r.len

/-- The next 64-byte boundary at or after n. -/
def next64 (n : Nat) : Nat := (n + 63) / 64 * 64

/-- A section type as BIMG_ERR shows it. -/
def shownTy (t : Nat) : Nat := if 1 ≤ t ∧ t ≤ 12 then t else 0

/-- Check 2 of R30 on the section whose header lies at off, after one of type prev: its length, CRC, structure and version,
in that order. The padding of a section that ends at IMAGE_LENGTH is outside the image and is not looked at (log entry 8). -/
def checkSection (img : List Byte) (total off prev : Nat) : Except CheckErr RawSec :=
  let ty := leAt img off 2
  let flags := leAt img (off + 2) 2
  let len := leAt img (off + 8) 4
  let r : RawSec := { ty, enc := flags.testBit 0, off, len }
  let stop := off + 16 + len
  let pad := bytesAt img stop (min total (next64 stop) - stop)
  let err (c : Nat) : Except CheckErr RawSec := .error { code := c, sect := shownTy ty }
  if total < stop then err 4
  else if crc32Of (bytesAt img off 12 ++ r.body img) ≠ leAt img (off + 12) 4 then err 2
  else if ¬ (1 ≤ ty ∧ ty ≤ 12 ∧ ty ≠ 10 ∧ prev < ty ∧ flags < 2 ∧ leAt img (off + 6) 2 = 0) then err 3
  else if r.enc ∧ (ty = 1 ∨ ty = 2 ∨ ty = 12) then err 3
  else if pad.any (· ≠ 0) then err 3
  else if leAt img (off + 4) 2 ≠ 1 then err 15
  else .ok r

/-- The walk from HEAD to SEAL; fuel bounds the sections, whose types rise. -/
def walkSections (img : List Byte) (total : Nat) : Nat → Nat → Nat → List RawSec → Except CheckErr (List RawSec)
  | 0, _, _, acc => .ok acc
  | fuel + 1, off, prev, acc =>
    if total ≤ off then .ok acc
    else match checkSection img total off prev with
      | .error e => .error e
      | .ok r =>
        if r.ty = 12 then .ok (acc ++ [r]) else walkSections img total fuel (next64 (off + 16 + r.len)) r.ty (acc ++ [r])

/-- HEAD fields by their offset in the payload (R21). -/
def headAt (img : List Byte) (o n : Nat) : Nat := leAt img (16 + o) n

/-- Check 1 of R30, on the first 80 bytes: the image length. The SECTION shown with its codes: log entry 12. -/
def checkHead (img : List Byte) : Except CheckErr Nat :=
  let total := headAt img 16 4
  if leAt img 0 2 ≠ 1 ∨ headAt img 0 4 ≠ 0x49425856 ∨ headAt img 4 2 ≠ 0x38 then .error ⟨1, 1⟩
  else if leAt img 8 4 ≠ 64 then .error ⟨3, 1⟩
  else if 4194304 < total ∨ total < 80 then .error ⟨4, 1⟩
  else .ok total

/-- The end of the walk of a full image: the required sections, and SEAL ending at IMAGE_LENGTH (SECTION: log entry 12). -/
def checkWalk (total : Nat) (l : List RawSec) : Except CheckErr Unit :=
  if ¬ [1, 2, 3, 4, 5, 8, 12].all (fun t => l.any fun r => r.ty = t) then .error ⟨3, 0⟩
  else if l.any (fun r => r.ty = 12 && r.off + 16 + r.len ≠ total) then .error ⟨3, 12⟩
  else .ok ()

/-! ### Certificates and the signature (R22 to R25) -/

/-- Certificate k, counted from 0, of a SIGN payload. -/
def certOf (sign : List Byte) (k : Nat) : List Byte := bytesAt sign (4 + 200 * k) 200

/-- Bytes 8 to 103 of a certificate: its key. -/
def certKey (c : List Byte) : List Byte := bytesAt c 8 96

/-- USAGE. -/
def certUsage (c : List Byte) : Nat := leAt c 2 1

/-- Each certificate after the first verifies under the key of the one before, which may sign certificates (R24). -/
def chainLinks : List (List Byte) → Bool
  | [] | [_] => true
  | c :: d :: rest =>
    (certUsage c).testBit 0 && ecdsaVerify (certKey c) (sha384 (bytesAt d 0 104)) (bytesAt d 104 96) &&
    chainLinks (d :: rest)

/-- A chain under root slot r (R24): the result code of its first fault, 0 when it is valid and its last certificate has
USAGE bit `use`. A revoked slot gives 0x08 whether or not its hash matches (log entry 66). -/
def State.chainCode (s : State) (root : Nat) (certs : List (List Byte)) (use : Nat) : Nat :=
  match certs with
  | [] => 6
  | c :: _ =>
    if 3 < root then 6
    else if s.ks.revoked.getLsbD root then 8
    else if certs.any (fun d => leAt d 0 2 ≠ 1) then 6
    else if sha384 (certKey c) ≠ Config.rootHash root ∨ (bytesAt c 104 96).any (· ≠ 0) then 6
    else if ¬ chainLinks certs then 6
    else if ¬ (certUsage (certs.getLastD [])).testBit use then 6
    else 0

/-- The bytes the digest covers (R25): all but the SIGN section's header, payload and padding. -/
def signedBytes (img : List Byte) (sign : RawSec) : List Byte :=
  img.take sign.off ++ img.drop (next64 (sign.off + 16 + sign.len))

/-- Check 4 of R30. -/
def State.checkSign (s : State) (img : List Byte) (r : RawSec) (use : Nat) : Except CheckErr Unit :=
  let p := r.body img
  let depth := leAt p 0 1
  if depth < 1 ∨ 3 < depth ∨ r.len ≠ 4 + 200 * depth + 96 then .error ⟨6, 2⟩
  else
    let certs := (upto depth).map (certOf p)
    let c := s.chainCode (leAt p 1 1) certs use
    if c ≠ 0 then .error ⟨c, 2⟩
    else if ecdsaVerify (certKey (certs.getLastD [])) (sha384 (signedBytes img r)) (bytesAt p (4 + 200 * depth) 96) then .ok ()
    else .error ⟨7, 2⟩

/-! ### Decryption (R26, check 6) -/

/-- A section in clear. An encrypted section without a key, or too short for its parts: log entry 9. -/
def openSection (img : List Byte) (slot : Nat) (r : RawSec) : Except CheckErr Section :=
  let p := r.body img
  if ¬ r.enc then .ok { ty := r.ty, payload := p }
  else if slot = 0xFF then .error ⟨11, r.ty⟩
  else if 1 < slot ∨ r.len < 28 then .error ⟨10, r.ty⟩
  else match gcmOpen (beBytes 32 (Config.imageKey slot).toNat) (bytesAt p 0 12) (bytesAt img r.off 12) (bytesAt p 12 (r.len - 28)) (bytesAt p (r.len - 16) 16) with
    | some q => .ok { ty := r.ty, payload := q }
    | none => .error ⟨10, r.ty⟩

/-- Every section in clear, in file order. -/
def openAll (img : List Byte) (slot : Nat) : List RawSec → Except CheckErr (List Section)
  | [] => .ok []
  | r :: rest => match openSection img slot r with
    | .error e => .error e
    | .ok x => match openAll img slot rest with
      | .error e => .error e
      | .ok l => .ok (x :: l)

/-! ### Range checks of the sections (R30 check 7) -/

/-- 32-bit value i of a payload. -/
def p32 (p : List Byte) (i : Nat) : Nat := leAt p (4 * i) 4

/-- Every number below n. -/
def allUpto (n : Nat) (f : Nat → Bool) : Bool := (upto n).all f

/-- HEAD (R21): a full image has CAPSULE 0 and BASE_VERSION 0. ENC_PRESENT and the characters of the name are not held
against anything (log entry 10). -/
def headOk (capsule : Bool) (p : List Byte) : Bool :=
  leAt p 12 1 ≤ 64 && leAt p 13 1 < 4 && (leAt p 13 1).testBit 0 = capsule && (leAt p 14 1).testBit 0 && leAt p 14 1 < 4 &&
  leAt p 15 1 = 0 && (capsule || leAt p 20 4 = 0)

/-- SIGN fields that the chain does not decide (R22); byte 3: log entry 11. -/
def signOk (p : List Byte) : Bool := leAt p 2 1 < 2 || leAt p 2 1 = 0xFF

/-- Functions that drive their ball (R412). -/
def funcOut (f : Nat) : Bool := (1 ≤ f && f ≤ 0x40) || (0x61 ≤ f && f ≤ 0x70 && f % 2 = 1) || f = 0x8D

/-- One ball value (R412, R414). -/
def ballOk (v : Nat) : Bool :=
  v < 2 ^ 14 && v % 256 < 0x8E && v / 256 % 4 ≠ 3 && (!v.testBit 13 || funcOut (v % 256))

/-- The settings of bank k (R413, R414). -/
def bankOk (p : List Byte) (k : Nat) : Bool :=
  let f (i : Nat) : Nat := p32 p (320 + 6 * k + i)
  f 0 ≤ 2 && f 1 ≤ 1 && f 2 ≤ 2 && 1500 ≤ f 3 && f 3 ≤ 3400 && (f 4 ≤ 11 || f 4 = 15) && f 5 = 0 && (k ≠ 0 || f 0 ≠ 1)

/-- PINS (R412 to R414). -/
def pinsOk (p : List Byte) : Bool :=
  let used := ((upto 320).map fun g => p32 p g % 256).filter (· ≠ 0)
  p.length = 1520 && allUpto 320 (fun g => ballOk (p32 p g)) && used.Nodup && allUpto 10 (bankOk p)

/-- Carve-out descriptor d of a TILES payload (Carve-outs, 02_tiles.md). -/
def carveOf (p : List Byte) (d : Nat) : Carve :=
  let o := 320 + 8 * d
  { kind := leAt p o 1, base := leAt p (o + 2) 2, count := leAt p (o + 4) 2, mask := leAt p (o + 6) 2 }

/-- The limits of R61: least and greatest COUNT, number allowed. -/
def carveLimits : Nat → Nat × Nat × Nat
  | 0 => (0, 0, 16)
  | 1 => (8, 128, 1)
  | 2 => (1, 32, 8)
  | 3 => (1, 64, 1)
  | 4 => (1, 32, 8)
  | _ => (0, 0, 1)

/-- Two carve-outs share a unit. -/
def carveMeets (a b : Carve) : Bool := a.base < b.base + b.count && b.base < a.base + a.count

/-- No two of a list of carve-outs share a unit. -/
def carvesApart : List Carve → Bool
  | [] => true
  | c :: rest => rest.all (fun d => !carveMeets c d) && carvesApart rest

/-- One descriptor (R61, R62). -/
def carveFieldsOk (c : Carve) : Bool :=
  let l := carveLimits c.kind
  c.kind ≤ 5 && l.1 ≤ c.count && c.count ≤ l.2.1 && (c.kind = 5) = (c.mask ≠ 0) && (c.kind ≠ 5 || c.base = 0) &&
  (c.count = 0 || c.base + c.count ≤ (if c.kind = 1 || c.kind = 2 then 256 else 64))

/-- TILES (R19, R61 to R63). -/
def tilesOk (p : List Byte) : Bool :=
  let cs := (upto 16).map (carveOf p)
  let of (f : Nat → Bool) : List Carve := cs.filter fun c => f c.kind
  let sw : List Carve := if (of (· = 1)).isEmpty then [{ kind := 1, base := 224, count := 32, mask := 0 }] else []
  p.length = 448 && ((upto 256).map fun i => leAt p i 1).Nodup && ((upto 64).map fun i => leAt p (256 + i) 1).Nodup &&
  allUpto 64 (fun i => leAt p (256 + i) 1 < 64) && allUpto 16 (fun d => leAt p (321 + 8 * d) 1 = 0) &&
  cs.all carveFieldsOk && allUpto 6 (fun k => (of (· = k)).length ≤ (carveLimits k).2.2) && (of (· = 3)).length = 1 &&
  carvesApart (of (fun k => k = 1 || k = 2) ++ sw) && carvesApart (of (fun k => k = 3 || k = 4))

/-- A window value (R67). -/
def windowOk (v : Nat) : Bool := v / 128 % 32 ≤ 20 && v / 4096 % 2 ^ (v / 128 % 32) = 0

/-- MATRIX (R67, R72, R73, R75). Bits outside a stated field are not checked (log entry 14). -/
def matrixOk (p : List Byte) : Bool :=
  p.length = 624 && allUpto 96 (fun i => windowOk (p32 p i)) && allUpto 8 (fun a => p32 p (96 + 16 + a) / 256 % 4096 = 0) &&
  allUpto 6 (fun g => p32 p (144 + 2 * g) % 4 ≠ 0) && allUpto 2 (fun g => p32 p (144 + 2 * (4 + g) + 1) / 256 % 8 < 4)

/-- Zone z of a KILN payload under R176. -/
def kilnZoneOk (p : List Byte) (z : Nat) : Bool :=
  let f (i : Nat) : Nat := p32 p (14 * z + i)
  let t (i : Nat) : Int := signed 16 (f i)
  let w16 (i : Nat) : Bool := f i < 65536
  let common := w16 0 && w16 1 && w16 2 && f 2 ≤ f 1 && f 1 ≤ f 0 && 1 ≤ f 4 && f 4 < 2 ^ 31 && w16 6 && w16 7 && w16 8 &&
    t 6 < t 7 && t 7 < t 8 && t 8 < 2240 && f 9 ≤ 320 && 1 ≤ f 10 && f 10 < 16
  if z < 4 then
    common && w16 3 && f 5 < 2 ^ 31 && (f 3 = 0 || f 5 ≠ 0) && f 11 / 256 % 256 < f 11 / 65536 % 256 && f 11 < 2 ^ 24 &&
    f 11 / 16 % 16 = 0 && allUpto 4 (fun k => 64 ≤ f 12 / 256 ^ k % 256) && 1 ≤ f 13 && f 13 ≤ 8
  else common && f 3 = 0 && f 5 = 0 && f 11 = 0 && f 12 = 0 && f 13 = 0

/-- KILN (R175, R176). -/
def kilnOk (p : List Byte) : Bool := p.length = 336 && allUpto 6 (kilnZoneOk p)

/-- The reservation check of R155. -/
def floorOk (p : List Byte) : Bool := allUpto 6 fun z => p32 p (14 * z + 3) ≤ p32 p (14 * z + 2)

/-- The template that a BONDS entry spells (R123). -/
def readTemplate (e : List Byte) : Template :=
  { header := BitVec.ofNat 32 (leAt e 0 4), ecoef := BitVec.ofNat 32 (leAt e 4 4)
    acc0 := BitVec.ofNat 16 (leAt e 8 2), acc1 := BitVec.ofNat 16 (leAt e 10 2), acc2 := BitVec.ofNat 16 (leAt e 12 2)
    accD := BitVec.ofNat 16 (leAt e 14 2), stages := (upto 4).map fun k => BitVec.ofNat 32 (leAt e (16 + 4 * k) 4)
    shapePar := BitVec.ofNat 32 (leAt e 32 4), palPar := BitVec.ofNat 32 (leAt e 36 4) }

/-- The type codes that an acceptance mask admits. -/
def admitted (w : Word) : List Nat := (upto 16).filter fun c => wbit w c

/-- IMM values of rule 9 of R127. -/
def immOk (st : Stage) : Bool :=
  if st.op = 0x1D ∨ st.op = 0x54 then st.imm ≤ 5 else if isChk st.op then st.imm < 4 else if st.op = 0x92 then true else st.imm = 0

/-- A source code of operand position pos at stage k (R126; rules 2, 5 and 10 of R127). -/
def sourceOk (st : Stage) (psrc k : Nat) (src : Nat) (used opt : Bool) : Bool :=
  if used then
    (src ≠ 0 || opt) && src < 13 && (!(4 ≤ src && src ≤ 6) || src - 4 < k) && (src ≠ 7 || psrc ≠ 0) &&
    (opt || !isDot st.op || src = 1 || src = 2 || src = 3 || src = 7)
  else src = 0

/-- Rules 1, 2, 5, 9 and 10 of R127 for stage k. -/
def stageOk (psrc k : Nat) (w : W32) : Bool :=
  let st := stageOf w
  let u := opUses st.op
  opKnown st.op && w.toNat / 16 % 8 = 0 && immOk st && sourceOk st psrc k st.a u.1 false && sourceOk st psrc k st.b u.2.1 false &&
  sourceOk st psrc k st.c u.2.2 (isDot st.op)

/-- Rule 4 of R127: where reductions and checks may stand. -/
def shapeOk (t : Template) : Bool :=
  let ends (st : Stage) : Bool := isRed st.op || isChk st.op
  t.ops.dropLast.all (fun st => !ends st) &&
  (if t.shape = 0 then !ends t.last else if t.shape = 3 then isRed t.last.op else ends t.last)

/-- Rule 6 of R127: the pallet. -/
def palletOk (t : Template) : Bool :=
  let size (c : Nat) : Nat := if t.tuples t.psrc then 4 else tySize c
  t.psrc = 0 || (t.psrc < 3 && !t.names (t.psrc + 1) && 1 ≤ t.plen && (admitted (t.accept t.psrc)).all fun c => t.plen * size c ≤ 4096)

/-- Rule 7 of R127 with R439: defined on every combination of admitted types. -/
def typeRuleOk (t : Template) : Bool :=
  (admitted t.acc0).all fun a => (admitted t.acc1).all fun b => (admitted t.acc2).all fun c => (admitted t.accD).all fun d =>
    let ts := [a, b, c]
    match stageTys ts (if t.psrc = 0 then 15 else ts.getD t.psrc 15) d t.ops [] with
    | some l => l.getLast? = some d
    | none => false

/-- A template under R123 to R127. -/
def templateOk (e : List Byte) : Bool :=
  let t := readTemplate e
  let h := t.header.toNat
  h.testBit 6 && 1 ≤ t.nstg && t.nstg ≤ 4 && h.testBit 12 = (t.psrc ≠ 0 : Bool) && h / 8192 % 8 = 0 && t.ecoef.toNat < 2 ^ 24 &&
  (t.stages.drop t.nstg).all (· = 0) && t.shapePar.toNat < 2 ^ 24 && t.palPar.toNat / 4 % 2 ^ 14 = 0 && leAt e 40 8 = 0 &&
  allUpto t.nstg (fun k => stageOk t.psrc k (t.stages.getD k 0)) && (t.ops.map fun st => opUnit st.op).Nodup && shapeOk t &&
  palletOk t && typeRuleOk t &&
  allUpto 3 (fun i => t.names (i + 1) || (t.psrc ≠ 0 && t.psrc = i) || t.accept i = 0x8000)

/-- The entries of a BONDS payload (R122). -/
def bondEntries (p : List Byte) : List (List Byte) := (upto (leAt p 0 2)).map fun k => bytesAt p (16 + 48 * k) 48

/-- BONDS (R122 to R127). -/
def bondsOk (p : List Byte) : Bool :=
  let n := leAt p 0 2
  1 ≤ n && n ≤ 64 && p.length = 16 + 48 * n && (bytesAt p 2 14).all (· = 0) && (bondEntries p).all templateOk &&
  ((bondEntries p).map fun e => leAt e 0 1 % 64).Nodup

/-- An input selector (R180). -/
def selectorOk (c : Nat) : Bool := c < 0x20 || (0x40 ≤ c && c < 0x58) || (0x80 ≤ c && c < 0xB0) || c = 0xFF

/-- The sine and cosine inputs of a resolver course (R208). -/
def resolverInputsOk (a b : Nat) : Bool :=
  let sd (c : Nat) : Bool := 0x50 ≤ c && c < 0x58
  let an (c : Nat) : Bool := 0x80 ≤ c && c < 0xB0
  (sd a && sd b) || (an a && an b && (a - 0x80) / 12 ≠ (b - 0x80) / 12)

/-- A course definition (R180, R187, R198, R208). -/
def courseOk (p : List Byte) (c : Nat) : Bool :=
  let f (i : Nat) : Nat := p32 p (4 + 14 * c + i)
  let kind := f 0 % 8
  let miss := f 2 / 65536
  f 0 < 512 && f 0 / 16 % 4 ≠ 3 && f 1 < 2 ^ 24 && allUpto 3 (fun k => selectorOk (f 1 / 256 ^ k % 256)) &&
  1 ≤ f 2 % 65536 && f 2 % 65536 ≤ 4096 && (if kind = 1 then 1 ≤ miss && miss ≤ 3 else miss = 0) && f 3 < 2 ^ 20 &&
  f 4 / 4096 % 16 = 0 && f 4 < 2 ^ 28 && 1 ≤ f 5 / 65536 % 256 && f 6 < 256 && 17 ≤ f 7 % 256 && 1 ≤ f 7 / 256 && f 7 < 2 ^ 28 &&
  f 12 < 12 && f 13 < 512 && selectorOk (f 13 % 256) &&
  (if kind = 3 then f 10 < 2 ^ 24 && f 11 < 32 && resolverInputsOk (f 1 % 256) (f 1 / 256 % 256)
   else f 10 = 0 && (if kind = 7 then 1000 ≤ f 11 && f 11 ≤ 1000000000 else f 11 = 0))

/-- COURSES (R198): only definitions whose mask bit is 1 are read. -/
def coursesOk (p : List Byte) : Bool :=
  p.length = 976 && (bytesAt p 1 15).all (· = 0) && allUpto 8 (fun c => !(leAt p 0 1).testBit c || courseOk p c) &&
  allUpto 128 (fun j => !(p32 p (116 + j)).testBit 15 && p32 p (116 + j) % 32 = 0)

/-- Static roster entry e of a ROSTER payload. -/
def rosterStatic (p : List Byte) (e : Nat) : BitVec 128 := BitVec.ofNat 128 (leAt p (32 + 16 * e) 16)

/-- ROSTER (R355, R358). -/
def rosterSecOk (p : List Byte) : Bool :=
  p.length = 256 && p32 p 0 < 2 ^ 25 && p32 p 2 < 2 ^ 18 && p32 p 4 < 2 ^ 25 && p32 p 5 < 2 ^ 25 && p32 p 6 < 256 && p32 p 7 < 2 &&
  allUpto 14 (fun e => rosterOk (rosterStatic p e) && leAt p (32 + 16 * e + 10) 4 < 2 ^ 27 && leAt p (32 + 16 * e + 14) 2 < 2 ^ 11)

/-- An INIT entry: address, value, mask. -/
structure InitEntry where
  addr : Nat
  value : Word
  mask : Word
  deriving DecidableEq, Repr

/-- Entry i of an INIT payload (R20). -/
def initEntry (p : List Byte) (i : Nat) : InitEntry :=
  let o := 16 + 8 * i
  { addr := leAt p o 4, value := BitVec.ofNat 16 (leAt p (o + 4) 2), mask := BitVec.ofNat 16 (leAt p (o + 6) 2) }

/-- The F-die entries, which come first, and the C-die entries. -/
def initList (p : List Byte) (d : Die) : List InitEntry :=
  match d with
  | .f => (upto (p32 p 1)).map (initEntry p)
  | .c => (upto (p32 p 2)).map fun i => initEntry p (p32 p 1 + i)

/-- INIT (R20): even addresses in the die's control space and outside the BIMG block. -/
def initOk (p : List Byte) : Bool :=
  let bimg := RegKind.BIMG_STATUS.base
  let ok (d : Die) (e : InitEntry) : Bool := e.addr % 2 = 0 && controlDie e.addr = some d && e.addr / 4096 ≠ bimg / 4096
  16 ≤ p.length && p32 p 0 = p32 p 1 + p32 p 2 && p.length = 16 + 8 * p32 p 0 && (initList p .f).all (ok .f) && (initList p .c).all (ok .c)

/-- SEAL of a full image (R34). Reserved bytes whose value the rule does not give: log entry 11. -/
def sealOk (p : List Byte) : Bool :=
  p.length = 32 && leAt p 0 1 ≤ 2 && leAt p 1 1 < 32 && leAt p 2 1 < 8 && leAt p 3 1 = 0 && (bytesAt p 8 24).all (· = 0)

/-- Check 7 of R30 for one section of a full image or a capsule. -/
def sectionOk (capsule : Bool) (x : Section) : Bool :=
  match x.ty with
  | 1 => headOk capsule x.payload
  | 2 => signOk x.payload
  | 3 => pinsOk x.payload
  | 4 => tilesOk x.payload
  | 5 => matrixOk x.payload
  | 6 => bondsOk x.payload
  | 7 => coursesOk x.payload
  | 8 => kilnOk x.payload
  | 9 => rosterSecOk x.payload
  | 11 => initOk x.payload
  | 12 => capsule || sealOk x.payload
  | _ => false

/-- The payload of a section of an image, none where it is absent. -/
def payloadOf (l : List Section) (t : Nat) : Option (List Byte) := (l.find? fun x => x.ty = t).map fun x => x.payload

/-- Check 7 of R30: the ranges of every section in file order, then the floors. -/
def checkRanges (capsule : Bool) (l : List Section) : Except CheckErr Unit :=
  match l.find? fun x => !sectionOk capsule x with
  | some x => .error ⟨11, x.ty⟩
  | none => match payloadOf l 8 with
    | some p => if floorOk p then .ok () else .error ⟨12, 8⟩
    | none => .ok ()

/-! ### The SHADOW carve-out (R32, check 8) -/

/-- The section types with a part that the C-die phase applies. -/
def cSections : List Nat := [3, 4, 5, 6, 8, 9, 11, 12]

/-- The bytes they take, each with its header and padding. Log entry 67. -/
def shadowBytes (l : List Section) : Nat :=
  (l.filter fun x => cSections.contains x.ty).foldl (fun n x => n + next64 (16 + x.payload.length)) 0

/-- Check 8 of R30 against a SHADOW carve-out of n tiles (SECTION: log entry 12). -/
def checkShadow (dies n : Nat) (l : List Section) : Except CheckErr Unit :=
  if dies.testBit 1 ∧ n * 131072 < shadowBytes l then .error ⟨13, 4⟩ else .ok ()

/-- Tiles of the SHADOW carve-out of a TILES payload. -/
def shadowTiles (p : List Byte) : Nat := (((upto 16).map (carveOf p)).filter fun c => c.kind = 3).foldl (fun n c => n + c.count) 0

/-! ### The checks of R30 -/

/-- Checks 3 and 5 of R30 (R3, R28). -/
def State.checkStep (s : State) (img : List Byte) : Except CheckErr Unit :=
  if headAt img 6 1 ≠ s.ks.stepC.toNat ∨ headAt img 7 1 ≠ s.ks.stepF.toNat then .error ⟨5, 1⟩ else .ok ()
/-- See checkStep. -/
def State.checkRollback (s : State) (img : List Byte) : Except CheckErr Unit :=
  if headAt img 12 1 < s.ks.count then .error ⟨9, 1⟩ else .ok ()

/-- Checks 3 to 6 of R30 on a walked chain: the sections in clear. -/
def State.checkProof (s : State) (img : List Byte) (l : List RawSec) (use : Nat) : Except CheckErr (List Section) := do
  s.checkStep img
  let sign ← match l.find? fun r => r.ty = 2 with
    | some r => .ok r
    | none => .error ⟨6, 2⟩
  s.checkSign img sign use
  s.checkRollback img
  openAll img (leAt (sign.body img) 2 1) l

/-- All checks of R30 on the image of a source: its sections in clear, or the first failure. -/
def State.checkImage (s : State) (src : Source) : Except CheckErr (List Section) := do
  let total ← checkHead (s.sourceBytes src 80)
  let img := s.sourceBytes src total
  let l ← walkSections img total 16 0 0 []
  checkWalk total l
  let secs ← s.checkProof img l 1
  checkRanges false secs
  checkShadow (headAt img 14 1) (shadowTiles ((payloadOf secs 4).getD [])) secs
  return secs

end Sys2Proof.Machine
end

