-- ==== Sys2Proof/Machine/Start.lean ====
section
/-! DEFINITION. Laying-out and start-up: the boot ROM's source sequence, network boot, BIST, the F-die and C-die phases
and the repair mirror (01_bond_image.md, R378, R379, R389 to R391, R402). -/

namespace Sys2Proof.Machine

open Sys2Proof

/-! ### Parameters as laid out (R41) -/

/-- Parameters base, base + 1, … set to a list of values. -/
def putParams (t : Tab W32) (base : Nat) (l : List Nat) : Tab W32 :=
  (l.zipIdx).foldl (fun t e => setParam t (base + e.2) e.1) t

/-- The state with parameters from base set. -/
def State.layParams (s : State) (base : Nat) (l : List Nat) : State :=
  { s with lay := { s.lay with params := putParams s.lay.params base l } }

/-- The first n 32-bit values of a payload from value i. -/
def vals32 (p : List Byte) (i n : Nat) : List Nat := (upto n).map fun k => p32 p (i + k)

/-- The wide parameters 10 and 11, by words (R40). -/
def wideParams (t : Tab W32) (i n : Nat) (p : List Byte) (o : Nat) : Tab W32 :=
  (upto n).foldl (fun t w => Tab.set 0 (8 * i + w) (BitVec.ofNat 32 (leAt p (o + 4 * w) 4)) t) t

/-- HEAD parameters 0 to 11 (R21, R41). -/
def State.layHead (s : State) (p : List Byte) : State :=
  let t := putParams s.lay.params 0
    [leAt p 0 4, leAt p 4 2, leAt p 6 1, leAt p 7 1, leAt p 8 4, leAt p 12 1, leAt p 13 1, leAt p 14 1, leAt p 16 4, leAt p 20 4]
  { s with lay := { s.lay with params := wideParams (wideParams t 10 8 p 24) 11 2 p 56 } }

/-- SIGN parameters 12 to 17. -/
def State.laySign (s : State) (p : List Byte) : State :=
  let kid (k : Nat) : Nat := if k < leAt p 0 1 then leAt (certOf p k) 4 4 else 0
  s.layParams 12 [leAt p 0 1, leAt p 1 1, leAt p 2 1, kid 0, kid 1, kid 2]

/-- SEAL parameters 1426 to 1431. -/
def State.laySeal (s : State) (p : List Byte) : State :=
  let f := leAt p 2 1
  s.layParams 1426 [leAt p 0 1, leAt p 1 1, f % 2, f / 2 % 2, f / 4 % 2, leAt p 4 4]

/-! ### The source sequence (R11 to R13) -/

/-- The error register of a source (R44). -/
def errReg : Source → RegKind
  | .slotA => .BIMG_ERR_A
  | .slotB => .BIMG_ERR_B
  | .net => .BIMG_ERR_N

/-- The attempt on the next source starts: its error register is cleared (R44). -/
def State.startAttempt (s : State) : State :=
  match s.lay.order with
  | [] => s
  | src :: _ => s.setReg (errReg src) 0 0

/-- The sources to try, in order, with TRIAL handled in the same step (R11, R12). -/
def State.startSources (s : State) : State :=
  let w := s.reg .BIMG_BOOTSEL 0
  let a := [Source.slotA, .slotB]
  let slots := if wbit w 0 then a.reverse else a
  let net := if s.ks.netboot && !wbit w 3 then [Source.net] else []
  let w1 := if wbit w 2 then putBit (putBit w 2 false) 0 (!wbit w 0) else w
  let s1 := (s.setReg .BIMG_BOOTSEL 0 w1).setFld .BIMG_STATUS 0 3 0 1
  ({ s1 with lay := { s1.lay with order := slots ++ net, netImage := [], netGot := [], netRequests := 0 } }).startAttempt

/-- BOOT_ROM_START (R378, R389, R402): step 2 begins, a key-on; then step 3. -/
def execBootRomStart (s : State) : Host.Outcome State Fault Refusal :=
  .next (if ¬ s.pw.good ∨ s.pw.parked ∨ s.pw.resetting = none then s
    else
      let s1 := (s.count .SYS_KEYON 0).setFld .SYS_STAT 0 3 0 3
      { s1 with pw := { s1.pw with resetting := none, bootOnSpare := s.pw.bootCoreBad } }.startSources)

/-- SOURCE as BIMG_STATUS shows it (R43). -/
def sourceCode : Source → Nat
  | .slotA => 1
  | .slotB => 2
  | .net => 3

/-- An attempt fails: its code is recorded and the next source follows; after the last the boot ROM is retrying, with no
section applied, and a C-die that network boot raised is powered down (R13, R30, R44). -/
def State.failSource (s : State) (src : Source) (e : CheckErr) : State :=
  let s1 := s.setReg (errReg src) 0 (BitVec.ofNat 16 (e.sect * 4096 + e.code))
  let s2 := { s1 with lay := { s1.lay with order := s1.lay.order.drop 1 } }
  if s2.lay.order.isEmpty then
    let s3 := (s2.setBit .BIMG_STATUS 0 8 true).setFld .BIMG_STATUS 0 3 0 0
    if s3.pw.netRaised then
      let s4 := { s3 with pw := { s3.pw with netRaised := false } }
      if s4.railsRaised = 0 then s4 else (s4.cLost.removeRails).setFld .BIMG_STATUS 0 3 0 0
    else s3
  else s2.startAttempt

/-! ### The repair mirror (R39) -/

/-- One copy of a repair mirror, as a reader takes it: whether its signature verifies, its sequence number, its entries. -/
structure Mirror where
  valid : Bool
  seq : Nat
  entries : List W64
  deriving DecidableEq, Repr

/-- The flash offset of copy k of the mirror of slot A 0 or B 1 (Sources and slot selection; two copies of 4 KB). -/
def mirrorBase (slot k : Nat) : Nat := (if slot = 0 then 0x400000 else 0xC00000) + 4096 * k

/-- The record header and the 256 entries: serial number, sequence number, entry count; the order and width of the three
fields, the device serial number and the unused entries are the model's (log entry 84). -/
def mirrorBody (seq : Nat) (l : List W64) : List Byte :=
  leBytes 8 Config.uidF.toNat ++ leBytes 4 seq ++ leBytes 4 l.length ++ (upto 256).flatMap fun i => leBytes 8 (l.getD i 0).toNat

/-- A REPAIR section with its header (R16), signed with the device key. -/
def mirrorSection (seq : Nat) (l : List W64) : List Byte :=
  let b := mirrorBody seq l
  let p := b ++ ecdsaSign Config.deviceKey (Config.deviceNonce seq) (sha384 b)
  let h := leBytes 2 10 ++ leBytes 2 0 ++ leBytes 2 1 ++ leBytes 2 0 ++ leBytes 4 2160
  h ++ leBytes 4 (crc32Of (h ++ p)) ++ p

/-- Copy k of the mirror of a slot, read from the flash. -/
def State.mirrorCopy (s : State) (slot k : Nat) : Mirror :=
  let l := readBytes 0xFF s.mem.flash (mirrorBase slot k) 2176
  let p := l.drop 16
  let b := p.take 2064
  { valid := leAt l 0 2 = 10 && leAt l 4 2 = 1 && leAt l 8 4 = 2160 && leAt l 12 4 = crc32Of (l.take 12 ++ p) &&
      ecdsaVerify (ecdsaPublic Config.deviceKey) (sha384 b) (p.drop 2064)
    seq := leAt b 8 4, entries := (upto (min 256 (leAt b 12 4))).map fun i => BitVec.ofNat 64 (leAt b (16 + 8 * i) 8) }

/-- The copy to overwrite: an invalid one, else the one with the lower sequence number. -/
def mirrorTarget (a b : Mirror) : Nat := if ¬ a.valid then 0 else if ¬ b.valid then 1 else if a.seq ≤ b.seq then 0 else 1

/-- The sequence number to write: one above the highest of the valid copies. -/
def mirrorNext (a b : Mirror) : Nat :=
  let n (m : Mirror) : Nat := if m.valid then m.seq else 0
  (max (n a) (n b) + 1) % 2 ^ 32

/-- At key-on the mirror is due when neither copy of the slot booted from is valid with the one-time record (R39). -/
def State.mirrorStale (s : State) (slot : Nat) : Bool :=
  (upto 2).all fun k => let m := s.mirrorCopy slot k; !(m.valid && m.entries = s.spr.record)

/-- An image is accepted: nothing is applied yet; the F-die phase follows (R28, R30, R43). -/
def State.acceptImage (s : State) (src : Source) (l : List Section) : State :=
  let s1 := ((s.setReg (errReg src) 0 0).setBit .BIMG_STATUS 0 8 false).setFld .BIMG_STATUS 0 3 0 3
  let s2 := s1.setFld .BIMG_STATUS 0 11 10 (sourceCode src)
  let stale := match src with
    | .slotA => s2.mirrorStale 0
    | .slotB => s2.mirrorStale 1
    | .net => false
  { s2 with lay := { s2.lay with accepted := l, order := [], mirrorDue := s2.lay.mirrorDue || stale } }

/-- The blocks of 1,024 bytes that network boot still lacks, by offset: block 0 until it has come; then, unless check 1 of
R30 fails on it, every block below IMAGE_LENGTH (R14). -/
def State.netMissing (s : State) : List Nat :=
  if ¬ s.lay.netGot.contains 0 then [0]
  else match checkHead (readBytes 0 s.lay.netImage 0 80) with
    | .error _ => []
    | .ok total => (((upto ((total + 1023) / 1024)).filter fun b => !s.lay.netGot.contains b)).map (1024 * ·)

/-- IMAGE_CHECK (R30): the attempt on the next source of the sequence, with every check in order. An image from the network
is checked once no block is missing (R14). -/
def execImageCheck (src : Source) (s : State) : Host.Outcome State Fault Refusal :=
  .next (if s.lay.order.head? ≠ some src ∨ (src = .net ∧ s.netMissing ≠ []) then s
    else match s.checkImage src with
      | .ok l => s.acceptImage src l
      | .error e => s.failSource src e)

/-- IMAGE_RETRY (R13): the sequence is repeated while every source has failed. -/
def execImageRetry (s : State) : Host.Outcome State Fault Refusal :=
  .next (if s.bit .BIMG_STATUS 0 8 ∧ s.lay.order = [] then s.startSources else s)

/-! ### Network boot (R14) -/

/-- The image request frame: destination, source and EtherType, and a payload that asks for the missing blocks (log entry
68). -/
def State.requestFrame (s : State) : List Byte :=
  [0x03, 0x44, 0x48, 0x00, 0x00, 0xB1] ++ s.nswMac ++ [0x88, 0xB5] ++
  Config.requestPayload (if s.lay.netGot.isEmpty then [] else s.netMissing)

/-- NETBOOT_REQUEST (R14): the C-die rails are raised with ROM defaults first; over a link that is up the request frame goes
out. -/
def execNetbootRequest (s : State) : Host.Outcome State Fault Refusal :=
  .next (if s.lay.order.head? ≠ some .net then s
    else if s.linkUp then
      { s with net := { s.net with sent := (s.ks.netport.toNat, s.requestFrame) :: s.net.sent }
               lay := { s.lay with netRequests := s.lay.netRequests + 1 } }
    else if s.pw.seq = .idle ∧ s.railsRaised = 0 then { s.raiseRails with pw := { s.raiseRails.pw with netRaised := true } }
    else s)

/-- NETBOOT_BLOCK (R14): a block of 1,024 bytes of the image, at its offset, a multiple of 1,024 (log entry 68). -/
def execNetbootBlock (offset : BitVec 32) (data : List Byte) (s : State) : Host.Outcome State Fault Refusal :=
  .next (if s.lay.order.head? = some .net ∧ s.linkUp = true ∧ data.length = 1024 ∧ offset.toNat % 1024 = 0 ∧
        offset.toNat + data.length ≤ 4194304 then
      { s with lay := { s.lay with
          netImage := writeBytes 0 s.lay.netImage offset.toNat data
          netGot := if s.lay.netGot.contains (offset.toNat / 1024) then s.lay.netGot else offset.toNat / 1024 :: s.lay.netGot } }
    else s)

/-- NETBOOT_TIMEOUT (R14). -/
def execNetbootTimeout (s : State) : Host.Outcome State Fault Refusal :=
  .next (if s.lay.order.head? = some .net then s.failSource .net ⟨14, 0⟩ else s)

/-! ### BIST and repairs (R378, R379) -/

/-- Every tile of a die is ON, filled with zeros (R389, R60). -/
def State.tilesOn (s : State) (d : Die) : State :=
  let s1 := (s.setTileMem d []).setEccTab d []
  (upto (match d with
    | .c => 256
    | .f => 64)).foldl (fun s t => (s.setTile d t {}).setReg (pwrReg d) t (putFld (s.reg (pwrReg d) t) 9 8 0 &&& 0x7FFF)) s1

/-- F_DIE_BIST (R378): failures are recorded; the boot ROM's own core failing moves the next reset to the spare. -/
def execFDieBist (fails : List UnitRef) (s : State) : Host.Outcome State Fault Refusal :=
  let s1 := (s.recordBist fails).tilesOn .f
  .next (if s.fld .SYS_STAT 0 3 0 ≠ 3 then s
    else { s1 with pw := { s1.pw with bootCoreBad := s.pw.bootCoreBad || (!s.pw.bootOnSpare && fails.contains ⟨5, 0⟩) } })

/-- Failed units of a kind in the record, in its order. -/
def State.recorded (s : State) (kind : Nat) : List Nat :=
  ((s.spr.record.map recUnit).filter fun u => u.kind.toNat = kind).map fun u => u.unit.toNat

/-- Bindings of n working tiles to their physical tiles and k spares (R379). -/
def bindTiles (n k : Nat) (failed : List Nat) : Tab (Option Nat) :=
  (failed.filter (· < n)).foldl (fun t w =>
    let sp := ((upto k).map (n + ·)).find? fun p => !failed.contains p && t.all fun e => e.2 ≠ some p
    Tab.set (some w) w sp t) []

/-- The logical unit that the spare n serves: the first failed one, while the spare is usable. -/
def bindSpare (n : Nat) (failed : List Nat) : Option Nat := if failed.contains n then none else failed.find? (· < n)

/-- Step 1 of a phase marks the recorded units of some kinds as failed. -/
def State.markRecorded (s : State) (kinds : List Nat) : State :=
  let keep := s.spr.failed.filter fun u => !kinds.contains u.kind.toNat
  { s with spr := { s.spr with failed := ((s.spr.record.map recUnit).filter fun u => kinds.contains u.kind.toNat) ++ keep } }

/-- A Mortar lane by its number in the record. -/
def laneOf (n : Nat) : Option LaneRef :=
  if h : n < 18 then some ⟨.fc, ⟨n, h⟩⟩ else if h : n - 18 < 18 then some ⟨.cf, ⟨n - 18, h⟩⟩ else none

/-- Repairs to F-die resources and Mortar lanes. -/
def State.repairF (s : State) : State :=
  let s1 := s.markRecorded [2, 5, 6, 7]
  { s1 with
    spr := { s1.spr with bindF := bindTiles 64 4 (s.recorded 2), hfSpare := bindSpare 4 (s.recorded 5), adSpare := bindSpare 4 (s.recorded 6) }
    ml := { s1.ml with failed := (s.recorded 7).filterMap laneOf } }

/-- BOND_VCSTAT of a cluster (R150, R151). -/
def State.vcstat (s : State) (n : Nat) : Word :=
  let l := s.failedSlices n
  BitVec.ofNat 16 (b2n (l.length ≤ 2) * 32768 + min 3 l.length * 4096 + l.foldl (fun a k => a + 2 ^ k) 0)

/-- Repairs to C-die resources. -/
def State.repairC (s : State) : State :=
  let s1 := s.markRecorded [1, 3, 4]
  let s2 := { s1 with spr := { s1.spr with bindC := bindTiles 256 16 (s.recorded 1), hcSpare := bindSpare 8 (s.recorded 4) } }
  (upto 4).foldl (fun s n => s.setReg .BOND_VCSTAT n (s.vcstat n)) s2

/-! ### MATRIX (R72, R73) -/

/-- The agent of a master (Masters, targets and arbitration). -/
def agentOf (d : Die) (m : Nat) : Nat :=
  match d with
  | .c =>
    if m < 8 then 0 else if m < 16 then 1
    else if m < 32 then 2 + 2 * ((m - 16) / 4) + (if (m - 16) % 4 = 3 then 1 else 0)
    else m - 22
  | .f => if m < 4 then 16 else if m < 8 then 17 else m + 10

/-- The priority that a vector gives target t of a die (R73). -/
def vectorAt (d : Die) (v t : Nat) : Nat :=
  let groups := match d with
    | .c => 16
    | .f => 4
  let ctrl := match d with
    | .c => 16
    | .f => 7
  if t < groups then (if v.testBit (4 + t) then v / 2 ^ 20 % 16 else v % 16)
  else if t ≤ ctrl then v / 2 ^ 24 % 16
  else v / 2 ^ 28 % 16

/-- Targets of a die: registers XBAR_PRI or FXBAR_PRI of a master, and its targets. -/
def priShape : Die → Nat × Nat
  | .c => (5, 19)
  | .f => (3, 10)

/-- XBAR_PRI and XBAR_AGE of one master. -/
def State.layMaster (s : State) (d : Die) (p : List Byte) (m : Nat) : State :=
  let a := agentOf d m
  let v := p32 p (96 + a)
  let (n, targets) := priShape d
  let pr := match d with
    | .c => RegKind.XBAR_PRI
    | .f => RegKind.FXBAR_PRI
  let age := match d with
    | .c => RegKind.XBAR_AGE
    | .f => RegKind.FXBAR_AGE
  let word (j : Nat) : Nat := (upto 4).foldl (fun w k => w + (if 4 * j + k < targets then vectorAt d v (4 * j + k) * 16 ^ k else 0)) 0
  ((upto n).foldl (fun s j => s.setReg pr (n * m + j) (BitVec.ofNat 16 (word j))) s).setReg age m (BitVec.ofNat 16 (p32 p (120 + a) % 4096))

/-- The windows and default of one master group: DEF_ATTR from the one value and the violation fields from the other, each
without the bits outside its field (log entry 14). -/
def State.layGroup (s : State) (p : List Byte) (g : Nat) : State :=
  let def' := (BitVec.ofNat 16 (p32 p (144 + 2 * g)) &&& 3) ||| (BitVec.ofNat 16 (p32 p (145 + 2 * g)) &&& 0xF00)
  if g < 4 then
    ((upto 16).foldl (fun s i => s.setPair .XBAR_WIN_LO .XBAR_WIN_HI (16 * g + i) (p32 p (16 * g + i) &&& 0xFFFFFF83)) s).setReg .XBAR_GDEF g def'
  else
    ((upto 16).foldl (fun s i => s.setPair .FXBAR_WIN_LO .FXBAR_WIN_HI (16 * (g - 4) + i) (p32 p (16 * g + i) &&& 0xFFFFFF83)) s).setReg .FXBAR_GDEF (g - 4) def'

/-- MATRIX of a die, with its parameters. -/
def State.layMatrix (s : State) (d : Die) (p : List Byte) : State :=
  let gs := match d with
    | .c => [0, 1, 2, 3]
    | .f => [4, 5]
  let as := match d with
    | .c => upto 16
    | .f => (upto 8).map (16 + ·)
  let s1 := gs.foldl (fun s g => ((s.layGroup p g).layParams (750 + 16 * g) (vals32 p (16 * g) 16)).layParams (894 + 2 * g) (vals32 p (144 + 2 * g) 2)) s
  let s2 := as.foldl (fun s a => (s.layParams (846 + a) [p32 p (96 + a)]).layParams (870 + a) [p32 p (120 + a)]) s1
  (upto (masters d)).foldl (fun s m => s.layMaster d p m) s2

/-! ### TILES, KILN, COURSES, INIT -/

/-- TILES of a die: its permutation and its carve-outs (R19, R31, R73). -/
def State.layTiles (s : State) (d : Die) (p : List Byte) : State :=
  let field (k : Nat) : Bool := k = 3 || k = 4
  let s1 := match d with
    | .c => s.layParams 398 ((upto 256).map fun i => leAt p i 1)
    | .f => s.layParams 654 ((upto 64).map fun i => leAt p (256 + i) 1)
  (upto 16).foldl (fun s k =>
    if field (carveOf p k).kind = (d = .f : Bool) then s.layParams (718 + 2 * k) (vals32 p (80 + 2 * k) 2) else s) s1

/-- KILN of a zone: its fields, and its buckets at their capacities (R154). -/
def State.layZone (s : State) (p : List Byte) (z : Nat) : State :=
  (s.layParams (1274 + 14 * z) (vals32 p (14 * z) 14)).setZone z { gen := p32 p (14 * z + 4), rtb := p32 p (14 * z + 5) }

/-- A course takes a definition at a laying-out and rests; AUTO_START starts it (R186, R198). -/
def State.layCourse (s : State) (c : Nat) (f : List Nat) : State :=
  let s1 := (s.layParams (1034 + 14 * c) f).setCourse c {}
  s1.setBit .CRS_CTRL c 15 ((f.headD 0).testBit 8)

/-- The definition a course has where no section gives one (R198). -/
def courseDefault (c : Nat) : List Nat :=
  if c = 7 then [0x107, 0, 0, 0, 0, 0, 0, 0, 0, 0, 0, 1000000, 0, 0] else List.replicate 14 0

/-- A joint preset: JNT_CFG with ARMED 0, and JNT_TGT (R198). -/
def State.presetJoint (s : State) (j v : Nat) : State :=
  ((s.layParams (1146 + j) [v]).setReg .JNT_CFG j (BitVec.ofNat 16 (v % 32768))).setReg .JNT_TGT j (BitVec.ofNat 16 (v / 65536))

/-- Laying-out disarms a joint, applies its preset and clears its argument, position and increment (R198). -/
def State.layJoint (s : State) (j v : Nat) : State :=
  let s2 := (s.presetJoint j v).setReg .JNT_ARG j 0
  (s2.setPair .JNT_POS_LO .JNT_POS_HI j 0).setPair .JNT_INC_LO .JNT_INC_HI j 0

/-- COURSES at a laying-out (R198): a definition whose mask bit is 0 is ignored, and its course keeps the one it has; where
the section is absent every course takes its default. -/
def State.layCourses (s : State) (p : Option (List Byte)) : State :=
  let s1 := (upto 8).foldl (fun s c => match p with
    | none => s.layCourse c (courseDefault c)
    | some q => if (leAt q 0 1).testBit c then s.layCourse c (vals32 q (4 + 14 * c) 14) else s) s
  (upto 128).foldl (fun s j => s.layJoint j (p32 (p.getD []) (116 + j))) s1

/-- The boot mover of the F-die. -/
def moverF : Master := ⟨.f, 12⟩

/-- One INIT entry (R20): a read-modify-write that changes only the bits in the mask. -/
def State.initWrite (s : State) (e : InitEntry) : State :=
  match regAt e.addr with
  | some (k, i) => s.writeReg moverF k i ((s.reg k i &&& ~~~e.mask &&& ~~~k.w1c) ||| (e.value &&& e.mask))
  | none => s

/-- The INIT entries of a die, in list order. -/
def State.layInit (s : State) (d : Die) (p : Option (List Byte)) : State :=
  match p with
  | some q => (initList q d).foldl (fun s e => s.initWrite e) s
  | none => s

/-- INIT parameters 1422 to 1425. -/
def State.layInitParams (s : State) (p : Option (List Byte)) : State :=
  match p with
  | some q => s.layParams 1422 (vals32 q 0 4)
  | none => s

/-! ### The F-die phase (R31) -/

/-- A payload, empty where its section is absent. -/
def needed (l : List Section) (t : Nat) : List Byte := (payloadOf l t).getD []

/-- Steps 1 to 8 of the F-die phase. -/
def State.fPhase (s : State) (l : List Section) : State :=
  let s0 := { s with lay := { s.lay with sealedF := false } }.repairF
  let s1 := ((s0.layHead (needed l 1)).laySign (needed l 2)).layParams 18 (vals32 (needed l 3) 0 380)
  let s2 := ((s1.layTiles .f (needed l 4)).layMatrix .f (needed l 5)).layZone (needed l 8) 5
  let s3 := ((s2.layCourses (payloadOf l 7)).layInitParams (payloadOf l 11)).layInit .f (payloadOf l 11)
  let s4 := s3.laySeal (needed l 12)
  { s4 with lay := { s4.lay with sealedF := true, sealApplied := true, accepted := [], haveShadow := true
                                 shadow := l.filter fun x => cSections.contains x.ty } }

/-- What the running image shows: version, rollback (R47, R48). -/
def State.showImage (s : State) : State :=
  (s.setPair .BIMG_VERSION_LO .BIMG_VERSION_HI 0 (s.param 4)).setFld .BIMG_RB 0 14 8 (s.param 5)

/-- Why step 5 does not run: FA_CAUSE (R391, R392, R398). -/
def State.aloneCause (s : State) : Nat :=
  if ¬ (s.param 7).testBit 1 then 1
  else if s.bit .FKILN_STAT 0 13 ∨ s.pw.coolWait then 4
  else if s.bit .ML_STAT 0 3 ∨ s.pw.lossWait then 5
  else if s.bit .SYS_STAT 0 12 then 7
  else 2

/-- Step 5 or field-alone mode (R389, R391). A C-die that network boot raised is kept, or powered down. -/
def State.afterField (s : State) : State :=
  if s.cWanted then
    let s1 := { s with pw := { s.pw with netRaised := false } }.setFld .BIMG_STATUS 0 3 0 4
    if s1.linkUp then s1.setFld .SYS_STAT 0 3 0 8
    else if s1.railsRaised = 0 then (s1.setFld .SYS_STAT 0 3 0 5).tryRaise
    else s1
  else
    let s1 := { s with pw := { s.pw with netRaised := false } }
    let s2 : State := if s1.railsRaised = 0 then s1 else s1.cLost.removeRails
    ((s2.enterAlone s.aloneCause).setBit .BIMG_STATUS 0 9 true).setFld .BIMG_STATUS 0 3 0 (if s.aloneCause = 1 then 6 else 4)

/-- F_DIE_PHASE (R31, R389, R390): the phase, then field-ready. -/
def execFDiePhase (s : State) : Host.Outcome State Fault Refusal :=
  .next (if s.fld .BIMG_STATUS 0 3 0 ≠ 3 then s
    else
      let s1 := ((s.fPhase s.lay.accepted).showImage).setBit .BIMG_STATUS 0 12 true
      let s2 := (((s1.setFld .SYS_STAT 0 3 0 4).setBit .SYS_STAT 0 15 true).raise 8 9).startCores 8 12
      s2.afterField)

/-! ### The C-die phase (R31, R32) -/

/-- C_DIE_BIST (R378, R389): failures are recorded, and the C-die phase begins, which unseals the die (R35). -/
def execCDieBist (fails : List UnitRef) (s : State) : Host.Outcome State Fault Refusal :=
  .next (if ¬ s.linkUp ∨ s.fld .SYS_STAT 0 3 0 ≠ 8 ∨ ¬ s.bit .BIMG_STATUS 0 12 then s
    else
      let s1 := ((s.recordBist fails).setFld .SYS_STAT 0 3 0 9).setFld .BIMG_STATUS 0 3 0 5
      { s1 with pw := { s1.pw with cBist := true }, lay := { s1.lay with sealedC := false } })

/-- One template enters its slot (R123, R151). -/
def State.layTemplate (s : State) (e : List Byte) : State :=
  let t := readTemplate e
  let h := t.header.toNat
  let n := h % 64
  let slot := b2n (h.testBit 6) * 32768 + t.nstg % 8 * 4096 + t.shape * 1024 + b2n (h.testBit 12) * 512
  let s1 := (s.setReg .BOND_SLOT n (BitVec.ofNat 16 slot)).setReg .BOND_ID n (BitVec.ofNat 16 (h / 65536))
  { s1 with templates := Tab.set none n (some t) s1.templates }

/-- The templates of a BONDS payload. -/
def State.layBonds (s : State) (p : Option (List Byte)) : State := (bondEntries (p.getD [])).foldl (fun s e => s.layTemplate e) s

/-- NSW_PCTL of a port under a ROSTER policy (R358, R364). -/
def portPolicy (p : List Byte) (n : Nat) : Word :=
  let unk := if n < 16 then p32 p 1 / 4 ^ n % 4 else p32 p 2 / 4 ^ (n - 16) % 4
  BitVec.ofNat 16 (b2n ((p32 p 5).testBit n) * 32768 + b2n ((p32 p 0).testBit n) * 16384 + unk * 4096)

/-- The policy of a ROSTER payload (R358). -/
def State.layPolicy (s : State) (p : List Byte) : State :=
  let s1 := (s.layParams 1358 (vals32 p 0 64)).setBit .NSW_CTRL 0 15 (p32 p 7 % 2 = 1)
  (upto 25).foldl (fun s n => s.setReg .NSW_PCTL n (portPolicy p n)) s1

/-- Two roster entries name the same partner. -/
def samePartner (a b : BitVec 128) : Bool :=
  rosKind a = rosKind b && a.setWidth 64 = b.setWidth 64 && (rosKind a ≠ 1 || rosVid a = rosVid b)

/-- The static entries of a payload that are not empty, with their indices. -/
def staticEntries (p : List Byte) : List (Nat × BitVec 128) :=
  ((upto 14).map fun e => (e, rosterStatic p e &&& tableMask 0 0 (rosterStatic p e))).filter fun e => rosKind e.2 ≠ 0

/-- A learned entry is kept at its index, or, where a static one took that, at the first empty one. Log entry 69. -/
def keepLearned (t : Tab (BitVec 128)) (e : Nat × BitVec 128) : Tab (BitVec 128) :=
  if Tab.get 0 t e.1 = 0 then Tab.set 0 e.1 e.2 t
  else match (upto 1024).find? fun i => Tab.get 0 t i = 0 with
    | some i => Tab.set 0 i e.2 t
    | none => t

/-- The roster with the static entries replaced; learned entries remain unless a new static entry names the same partner
(R36). -/
def State.layStatic (s : State) (p : List Byte) : State :=
  let st := staticEntries p
  let t := st.foldl (fun t e => Tab.set 0 e.1 e.2 t) []
  let old := s.net.roster.filter fun e => rosKind e.2 ≠ 0 && !rosStatic e.2 && st.all fun x => !samePartner x.2 e.2
  { s with net := { s.net with roster := old.foldl keepLearned t, present := s.net.present.filter fun e => !rosStatic (Tab.get 0 s.net.roster e.1) } }

/-- ROSTER. -/
def State.layRoster (s : State) (p : Option (List Byte)) : State :=
  match p with
  | some q => (s.layPolicy q).layStatic q
  | none => s

/-- The wear offset is set anew (R376, R402): the smallest step at which the slack suffices, which nothing here fixes. Log
entry 56. -/
def State.newWear (s : State) : State := let (n, s1) := s.draw; s1.setWear (n % 11)

/-- Steps 1 to 9 of the C-die phase, from the shadow (R32). -/
def State.cPhase (s : State) (l : List Section) : State :=
  let s1 := (((s.repairC).tilesOn .c).layTiles .c (needed l 4)).layMatrix .c (needed l 5)
  let s2 := (upto 5).foldl (fun s z => s.layZone (needed l 8) z) s1
  let s3 := ((s2.layBonds (payloadOf l 6)).layRoster (payloadOf l 9)).layInit .c (payloadOf l 11)
  { s3 with lay := { s3.lay with sealedC := true, relayWaiting := false } }

/-- C_DIE_PHASE (R31, R389 to R391): the phase, then compute-ready. -/
def execCDiePhase (s : State) : Host.Outcome State Fault Refusal :=
  .next (if ¬ s.linkUp ∨ ¬ s.pw.cBist ∨ s.fld .SYS_STAT 0 3 0 ≠ 9 then s
    else
      let s1 := (((s.cPhase s.lay.shadow).resetRings).newWear).setBit .NSW_STAT 0 15 true
      let s2 := ((s1.setBit .BIMG_STATUS 0 13 true).setBit .BIMG_STATUS 0 9 false).setFld .BIMG_STATUS 0 3 0 6
      let s3 := ((s2.setBit .SYS_STAT 0 14 true).setBit .SYS_STAT 0 13 false).setFld .SYS_STAT 0 6 4 0
      let s4 := ({ s3 with pw := { s3.pw with computeSeen := true, fromShadow := false } }.portsReady).startCores 0 8
      s4.raise 8 9)

/-- REPAIR_MIRROR_WRITE (R39): when it is due, the mirror of the slot booted from receives the record: a section one
sequence number on, over the copy that is to be replaced. -/
def execRepairMirrorWrite (s : State) : Host.Outcome State Fault Refusal :=
  let src := s.fld .BIMG_STATUS 0 11 10
  .next (if s.lay.mirrorDue ∧ (src = 1 ∨ src = 2) then
      let a := s.mirrorCopy (src - 1) 0
      let b := s.mirrorCopy (src - 1) 1
      let flash := writeBytes 0xFF s.mem.flash (mirrorBase (src - 1) (mirrorTarget a b)) (mirrorSection (mirrorNext a b) s.spr.record)
      { s with mem := { s.mem with flash := flash }, lay := { s.lay with mirrorDue := false } }
    else s)

end Sys2Proof.Machine
end

