-- ==== Sys2Proof/Machine/Relay.lean ====
section
/-! DEFINITION. Relaying while running (R36, R37, R47, R199): the check of a capsule and its application. -/

namespace Sys2Proof.Machine

open Sys2Proof

/-- The section types that can be relayed with their RELAY_MASK bits (R34, R36). -/
def relayBit : Nat → Option Nat
  | 6 => some 0
  | 7 => some 1
  | 8 => some 2
  | 9 => some 3
  | 11 => some 4
  | _ => none

/-- The end of the walk of a capsule (R36): HEAD with CAPSULE, SIGN, one section that may be relayed, and a SEAL of length 0
at the end; BASE_VERSION as the running image. Its type. Log entry 70. -/
def State.checkCapsule (s : State) (img : List Byte) (total : Nat) (l : List RawSec) : Except CheckErr Nat :=
  match l with
  | [_, g, x, z] =>
    if g.ty ≠ 2 ∨ z.ty ≠ 12 ∨ z.len ≠ 0 ∨ z.off + 16 ≠ total ∨ ¬ (headAt img 13 1).testBit 0 then .error ⟨0x21, 0⟩
    else match relayBit x.ty with
      | none => .error ⟨0x20, x.ty⟩
      | some b =>
        if ¬ (s.param 1427).testBit b then .error ⟨0x20, x.ty⟩
        else if headAt img 20 4 ≠ s.param 4 then .error ⟨0x21, x.ty⟩
        else .ok x.ty
  | _ => .error ⟨0x21, 0⟩

/-- The C-die has been laid out; otherwise its part of a capsule goes into the shadow only (R37). -/
def State.cLaid (s : State) : Bool := s.bit .BIMG_STATUS 0 13

/-- The slots that hold a template, or will after the next C-die phase. -/
def State.slotsTaken (s : State) : List Nat :=
  if s.cLaid then (s.templates.filter fun e => e.2.isSome).map Prod.fst
  else (bondEntries ((payloadOf s.lay.shadow 6).getD [])).map fun e => leAt e 0 1 % 64

/-- A course is stopped and not asked to run. -/
def State.courseStopped (s : State) (c : Nat) : Bool := !(s.course c).running && !s.bit .CRS_CTRL c 15

/-- The shadow with a section replaced, in order of type; relayed templates join those that are there. -/
def mergeShadow (l : List Section) (x : Section) : List Section :=
  let old := bondEntries ((payloadOf l 6).getD [])
  let y : Section := if x.ty = 6 then
      let es := old ++ bondEntries x.payload
      { ty := 6, payload := leBytes 2 es.length ++ List.replicate 14 0 ++ es.flatten }
    else x
  (l.filter fun z => z.ty < x.ty) ++ [y] ++ l.filter fun z => x.ty < z.ty

/-- Tiles of the SHADOW carve-out in force. -/
def State.shadowNow (s : State) : Nat := (s.carves.filter fun c => c.kind = 3).foldl (fun n c => n + c.count) 0

/-- The rules of R36 and check 8 for the section. -/
def State.checkRelayRule (s : State) (x : Section) : Except CheckErr Unit :=
  if x.ty = 6 ∧ (bondEntries x.payload).any (fun e => s.slotsTaken.contains (leAt e 0 1 % 64)) then .error ⟨0x22, 6⟩
  else if x.ty = 7 ∧ (upto 8).any (fun c => (leAt x.payload 0 1).testBit c && !s.courseStopped c) then .error ⟨0x23, 7⟩
  else if x.ty ≠ 7 then checkShadow (s.param 7) s.shadowNow (mergeShadow s.lay.shadow x)
  else .ok ()

/-- Every check of a capsule whose bytes the reader delivers. One that is too long has a wrong structure, found before its
bytes are read (log entry 70); where an access answers with an error the capsule ends with 0x01 (log entry 13). -/
def State.checkRelay (s : State) (read : Nat → Option (List Byte)) : Except CheckErr Section := do
  let head ← match read 80 with
    | some h => .ok h
    | none => .error ⟨1, 0⟩
  let total ← checkHead head
  if 262144 < total then .error ⟨0x21, 0⟩
  let img ← match read total with
    | some l => .ok l
    | none => .error ⟨1, 0⟩
  let l ← walkSections img total 16 0 0 []
  let _ ← s.checkCapsule img total l
  let secs ← s.checkProof img l 2
  checkRanges true secs
  match secs with
  | [_, _, x, _] => do
    s.checkRelayRule x
    return x
  | _ => .error ⟨0x21, 0⟩

/-- The start of a course is held while a COURSES relay is applied: until the end of the next tick (R36, R188). Log entry 70. -/
def State.holdCourse (s : State) (c : Nat) : State :=
  if h : c < 8 then { s with courses := s.courses.set c { s.courses[c] with relayHold := true } } else s

/-- COURSES of a capsule (R199): the definitions of stopped courses in the mask; presets of disarmed joints that name one
of them. A tracker keeps its position and held count, and nothing starts: those belong to laying-out (R186, R198). -/
def State.relayCourses (s : State) (p : List Byte) : State :=
  let mask := leAt p 0 1
  let s1 := (upto 8).foldl (fun s c =>
    if mask.testBit c ∧ s.courseStopped c then (s.layParams (1034 + 14 * c) (vals32 p (4 + 14 * c) 14)).holdCourse c else s) s
  (upto 128).foldl (fun s j =>
    let v := p32 p (116 + j)
    if ¬ s.bit .JNT_CFG j 15 ∧ mask.testBit (v / 4096 % 8) then s.presetJoint j v else s) s1

/-- The KILN fields that come into force at the next refill boundary (R36): those of KZ[5] alone while the C-die is not laid
out. -/
def State.relayKiln (s : State) (p : List Byte) : State :=
  let zs := if s.cLaid then upto 6 else [5]
  { s with lay := { s.lay with kilnNext := s.lay.kilnNext ++ zs.flatMap fun z => (upto 14).map fun f => (1274 + 14 * z + f, p32 p (14 * z + f)) } }

/-- A capsule that passed is applied (R36). -/
def State.applySection (s : State) (x : Section) : State :=
  let c (f : State → State) (s : State) : State := if s.cLaid then f s else s
  match x.ty with
  | 6 => c (fun s => s.layBonds (some x.payload)) s
  | 7 => s.relayCourses x.payload
  | 8 => s.relayKiln x.payload
  | 9 => c (fun s => s.layRoster (some x.payload)) s
  | _ => c (fun s => s.layInit .c (some x.payload)) ((s.layInitParams (some x.payload)).layInit .f (some x.payload))

/-- A part of the section waits for the next C-die phase (R37). -/
def State.deferred (s : State) (x : Section) : Bool :=
  !s.cLaid && (x.ty = 6 || x.ty = 8 || x.ty = 9 || (x.ty = 11 && p32 x.payload 2 ≠ 0))

/-- The type of the section that a capsule relays, as its walk finds it; 0 where it does not get that far (log entry 70). -/
def relayTy (read : Nat → Option (List Byte)) : Nat :=
  match read 80 with
  | none => 0
  | some head => match checkHead head with
    | .error _ => 0
    | .ok total => match (read (min total 262144)).map fun img => walkSections img total 16 0 0 [] with
      | some (.ok [_, _, x, _]) => x.ty
      | _ => 0

/-- A relay ends (R49): SECTION is the type of the relayed section. -/
def State.endRelay (s : State) (deferred : Bool) (sect code : Nat) : State :=
  let keep := s.reg .BIMG_RELAY_STAT 0 &&& 0x2000
  let s1 := s.setReg .BIMG_RELAY_STAT 0 (keep ||| BitVec.ofNat 16 (16384 + b2n deferred * 4096 + sect * 256 + code))
  { s1 with lay := { s1.lay with relayWaiting := false } }

/-- The address of the capsule (R47). -/
def State.relayAddr (s : State) : Nat := s.pair .BIMG_RELAY_ADDR_LO .BIMG_RELAY_ADDR_HI 0

/-- The relay in progress runs (R36, R37, R47). -/
def State.relay (s : State) : State :=
  if s.relayAddr % 64 ≠ 0 then s.endRelay false 0 0x21
  else
    let read (n : Nat) : Option (List Byte) := match (s.readMem moverF s.relayAddr n).1 with
      | .ok l => some l
      | .error _ => none
    match s.checkRelay read with
    | .error e => s.endRelay false (relayTy read) e.code
    | .ok x =>
      let d := s.deferred x
      let s1 := s.applySection x
      let s2 := if x.ty = 7 then s1 else { s1 with lay := { s1.lay with shadow := mergeShadow s1.lay.shadow x } }
      s2.endRelay d x.ty 0

/-- RELAY_APPLY (R36, R37): not during a C-die phase. -/
def execRelayApply (s : State) : Host.Outcome State Fault Refusal :=
  .next (if ¬ s.bit .BIMG_RELAY_STAT 0 15 ∨ s.fld .BIMG_STATUS 0 3 0 = 5 then s else s.relay)

end Sys2Proof.Machine
end

