-- ==== Sys2Proof/Machine/Debug.lean ====
section
/-! DEFINITION. The debug port (R403 to R405): unlocking, physical accesses, core accesses and halting. -/

namespace Sys2Proof.Machine

open Sys2Proof

/-- The instructions that unlock may be used: not at level 2 (R403). At level 1 they must be usable before UNLOCKED is 1.
Log entry 81. -/
def State.unlockUsable (s : State) : Bool := s.dbgLevel < 2

/-- DBG_ACCESS may be used (R403). -/
def State.debugUsable (s : State) : Bool := s.dbgLevel = 0 || (s.dbgLevel = 1 && s.bit .SYS_DBG 0 15)

/-- STATUS of DBG_ACCESS (R405): 0 done, 1 error response, 2 refused. -/
def State.dbgStatus (s : State) (n : Nat) : State := { s with dbg := { s.dbg with status := BitVec.ofNat 2 n } }

/-- Byte b of the certificate in a DBG_CHAIN register. -/
def chainByte (dr : BitVec 1608) (b : Nat) : Byte := BitVec.ofNat 8 (dr.toNat / 2 ^ (8 * b + 8))

/-- DBG_CHAIN_UPDATE (R403, R404): INDEX 0 discards the chain, INDEX 1 starts one and gives its root slot. -/
def execDbgChainUpdate (dr : BitVec 1608) (s : State) : HodOut :=
  let ix := dr.toNat % 4
  let cert := (upto 200).map (chainByte dr)
  let d := s.dbg
  .next (if ¬ s.unlockUsable then s
    else match ix with
      | 0 => { s with dbg := { d with chain := [] } }
      | 1 => { s with dbg := { d with chain := [cert], rootSlot := dr.toNat / 4 % 4 } }
      | _ => { s with dbg := { d with chain := (upto (max ix d.chain.length)).map fun i => if i + 1 = ix then cert else d.chain.getD i [] } })

/-- DBG_CHAL_READ (R403): the first read after a response gives a new nonce. -/
def execDbgChalRead (s : State) : HodOut :=
  let d := s.dbg
  .next (if ¬ s.unlockUsable ∨ d.nonceRead then s
    else { s with dbg := { d with nonceRead := true, chal := some (Config.nonce d.nonces), nonces := d.nonces + 1 } })

/-- DBG_RESP_UPDATE (R403): the response waits for its check; after three failures none is taken. -/
def execDbgRespUpdate (sig : BitVec 768) (s : State) : HodOut :=
  let d := s.dbg
  .next (if ¬ s.unlockUsable ∨ 3 ≤ s.fld .SYS_DBG 0 1 0 then s
    else { s with dbg := { d with response := some (sig, d.chal), nonceRead := false } })

/-- The response is accepted (R403). -/
def State.responseOk (s : State) (sig : BitVec 768) (nonce : BitVec 384) : Bool :=
  let d := s.dbg
  let last := d.chain.getLastD []
  d.chain.all (fun c => c ≠ []) && s.chainCode d.rootSlot d.chain 3 = 0 &&
  (!s.lay.sealApplied || leAt last 4 4 = s.param 1431) &&
  ecdsaVerify (certKey last) (sha384 (leBytes 48 nonce.toNat)) (leBytes 96 sig.toNat)

/-- DEBUG_UNLOCK_CHECK (R403). -/
def execDebugUnlockCheck (s : State) : HodOut :=
  .next (match s.dbg.response with
    | none => s
    | some (sig, n) =>
      let s1 := { s with dbg := { s.dbg with response := none } }
      let ok : Bool := match n with
        | some nonce => s.responseOk sig nonce
        | none => false
      if ok then s1.setBit .SYS_DBG 0 15 true else s1.setFld .SYS_DBG 0 1 0 (min 3 (s1.fld .SYS_DBG 0 1 0 + 1)))

/-- The debug master that makes a physical access: C 37 for a target on the C-die out of reset, else F 13. Log entry 81. -/
def State.debugMaster (s : State) (a : Nat) : Master :=
  if (s.target .f a).die .f = .c ∧ ¬ s.pw.cReset then ⟨.c, 37⟩ else ⟨.f, 13⟩

/-- The state after a debug access, with its answer and STATUS. -/
def State.debugAnswer (s : State) (r : Answer W64) : State :=
  (s.answer r).dbgStatus (match r with
    | .ok _ => 0
    | .error _ => 1)

/-- DEBUG_PHYSICAL_ACCESS (R405): one word. -/
def execDebugPhysicalAccess (addr : PAddr) (wr : Bool) (data : Word) (s : State) : HodOut :=
  let m := s.debugMaster addr.toNat
  .next (if ¬ s.debugUsable then s.dbgStatus 2
    else if wr then
      match s.writeBus m addr.toNat (leBytes 2 data.toNat) with
      | (.ok _, s1) => s1.debugAnswer (.ok 0)
      | (.error e, s1) => s1.debugAnswer (.error e)
    else
      match s.readBus m addr.toNat 2 with
      | (.ok l, s1) => s1.debugAnswer (.ok (BitVec.ofNat 64 (leNat l)))
      | (.error e, s1) => s1.debugAnswer (.error e))

/-- A core halted by debug or locked up may be accessed (R405). -/
def Core.debuggable (k : Core) : Bool := k.run = .halted || k.run = .locked

/-- Special register n written from debug: LVL of PSW too (R405). -/
def Core.debugSpecial (k : Core) (c : CoreId) (n : Nat) (v : W32) : Core :=
  if n = 0 then k.spec fun k => { k with psw := pswWritten k.psw (loOf v) } else k.setSpecial c n v

/-- A read of core c at a selector: none for a selector R405 does not name. -/
def State.coreRead (s : State) (c : CoreId) (sel : Nat) : Option Word :=
  if sel < 32 then some (s.rg c (BitVec.ofNat 5 sel))
  else if sel < 48 then some (loOf ((s.core c).special c (sel - 32)))
  else if 64 ≤ sel ∧ sel < 80 ∧ specWide (sel - 64) then some (hiOf ((s.core c).special c (sel - 64)))
  else none

/-- A write of core c at a selector. -/
def State.coreWrite (s : State) (c : CoreId) (sel : Nat) (v : Word) : Option State :=
  if sel < 32 then some (s.wr c (BitVec.ofNat 5 sel) v)
  else if sel < 48 then
    let old := (s.core c).special c (sel - 32)
    some (s.modCore c fun k => k.debugSpecial c (sel - 32) (w32of (hiOf old) v))
  else if 64 ≤ sel ∧ sel < 80 ∧ specWide (sel - 64) then
    let old := (s.core c).special c (sel - 64)
    some (s.modCore c fun k => k.setSpecial c (sel - 64) (w32of v (loOf old)))
  else none

/-- Halt control (R405): 1 halts at the next instruction boundary, 0 resumes. A wait of WFI, VWAIT or TLBSYNC is a boundary,
as it is for an interrupt; a load in MD is completed first. Log entry 82. -/
def State.haltControl (s : State) (c : CoreId) (v : Word) : State :=
  let k := s.core c
  if v = 1 then
    match k.run with
    | .held | .halted | .locked => s
    | .running | .waitInt | .waitBrick _ _ | .waitTlb =>
      if k.loadWait.isSome then s.modCore c fun k => { k with haltReq := true }
      else s.haltCore c
  else if v = 0 then
    if k.run = .halted then s.resumeCore c else s.modCore c fun k => { k with haltReq := false }
  else s

/-- DEBUG_HALT (R405). -/
def execDebugHalt (c : CoreId) (v : Word) (s : State) : HodOut :=
  .next (if ¬ s.debugUsable then s.dbgStatus 2 else (s.haltControl c v).dbgStatus 0)

/-- A selector that R405 does not name: its STATUS is free. -/
def State.strangeSel (s : State) : State := let (n, s1) := s.draw; s1.dbgStatus (n % 3)

/-- DEBUG_CORE_ACCESS (R405). -/
def execDebugCoreAccess (c : CoreId) (sel : Byte) (wr : Bool) (data : Word) (s : State) : HodOut :=
  .next (if ¬ s.debugUsable then s.dbgStatus 2
    else if sel = 0xFF ∧ wr then (s.haltControl c data).dbgStatus 0
    else if ¬ (s.core c).debuggable then s.dbgStatus 2
    else if wr then
      match s.coreWrite c sel.toNat data with
      | some s1 => s1.debugAnswer (.ok 0)
      | none => s.strangeSel
    else
      match s.coreRead c sel.toNat with
      | some w => s.debugAnswer (.ok (w.zeroExtend 64))
      | none => s.strangeSel)

end Sys2Proof.Machine
end

