-- ==== Sys2Proof/Machine/HodLong.lean ====
section
/-! DEFINITION. Multiply and divide (R258, R261, R270, R278): an instruction enters the long unit with its physical
registers, its results and flags; they land when it completes. -/

namespace Sys2Proof.Machine

open Sys2Proof

/-- The instruction just issued enters the long unit: it writes registers and flags at completion (R275, R278). -/
def State.enterLong (s : State) (c : CoreId) (dests : List (Reg × Word)) (u : Upd) : State :=
  s.modCore c fun k =>
    { k with longOp := some { dests := dests.filterMap fun e => (k.phys c e.1.toNat).map fun p => (p, e.2)
                              mask := u.mask, val := u.val, addr := k.pc - 1, path := k.path } }

/-- A long operation of one destination. -/
def State.long1 (s : State) (c : CoreId) (rd rs : Reg) (f : Word → Word → Word × Upd) : State :=
  s.hod c 1 { regs := [rd, rs], all := true } (quiet fun s =>
    let r := f (s.rg c rd) (s.rg c rs)
    s.enterLong c [(rd, r.1)] r.2)

/-- A long operation of a pair: f of the pair's odd register and rs. -/
def State.longW (s : State) (c : CoreId) (rd rs : Reg) (sgn : Bool) : State :=
  let p := pairAt rd
  s.hod c 1 { regs := rs :: pairRegs p, all := true } (evenOnly rd (quiet fun s =>
    let r := mulwOf sgn (s.rg c (oddReg p)) (s.rg c rs)
    s.enterLong c [(evenReg p, hiOf r.1), (oddReg p, loOf r.1)] r.2))

/-- A division: the quotient goes to the odd register, the remainder to the even one (R261). -/
def State.longDiv (s : State) (c : CoreId) (rd rs : Reg) (sgn wide : Bool) : State :=
  let p := pairAt rd
  s.hod c 1 { regs := rs :: pairRegs p, all := true } (evenOnly rd (quiet fun s =>
    let low := s.rg c (oddReg p)
    let d := s.rg c rs
    let n : Int := if wide then (if sgn then (s.pr c p).toInt else (s.pr c p).toNat) else (if sgn then low.toInt else low.toNat)
    let r := divOf sgn n (if sgn then d.toInt else d.toNat) low
    s.enterLong c [(oddReg p, r.1.1), (evenReg p, r.1.2)] r.2))

/-- MUL (R261). -/
def execMul (c : CoreId) (rd rs : Reg) (s : State) : HodOut := .next (s.long1 c rd rs mulOf)
/-- MULH (R255). -/
def execMulh (c : CoreId) (rd rs : Reg) (s : State) : HodOut := .next (s.long1 c rd rs (mulhOf true))
/-- MULHU (R255). -/
def execMulhu (c : CoreId) (rd rs : Reg) (s : State) : HodOut := .next (s.long1 c rd rs (mulhOf false))
/-- MULW (R255). -/
def execMulw (c : CoreId) (rd rs : Reg) (s : State) : HodOut := .next (s.longW c rd rs true)
/-- MULWU (R255). -/
def execMulwu (c : CoreId) (rd rs : Reg) (s : State) : HodOut := .next (s.longW c rd rs false)
/-- DIV (R261). -/
def execDiv (c : CoreId) (rd rs : Reg) (s : State) : HodOut := .next (s.longDiv c rd rs true false)
/-- DIVU (R261). -/
def execDivu (c : CoreId) (rd rs : Reg) (s : State) : HodOut := .next (s.longDiv c rd rs false false)
/-- DIVL (R261). -/
def execDivl (c : CoreId) (rd rs : Reg) (s : State) : HodOut := .next (s.longDiv c rd rs true true)
/-- DIVLU (R261). -/
def execDivlu (c : CoreId) (rd rs : Reg) (s : State) : HodOut := .next (s.longDiv c rd rs false true)

end Sys2Proof.Machine
end

