-- ==== Sys2Proof/Machine/Dispatch.lean ====
section
/-! DEFINITION. One arm for each command: what it does to everything but the queue of waiting commands. -/

namespace Sys2Proof.Machine

/-- The effect of a command on the block. -/
def exec (i : Instr) (s : State) : Host.Outcome State Fault Refusal :=
  match i with
  | .powerOnReset clksel => Sys2Proof.Machine.execPowerOnReset clksel s
  | .powerGood => Sys2Proof.Machine.execPowerGood s
  | .brownOut => Sys2Proof.Machine.execBrownOut s
  | .rstNAssert => Sys2Proof.Machine.execRstNAssert s
  | .sysRstCmdWarm => Sys2Proof.Machine.execSysRstCmdWarm s
  | .sysRstCmdField => Sys2Proof.Machine.execSysRstCmdField s
  | .sysRstCmdCDie => Sys2Proof.Machine.execSysRstCmdCDie s
  | .bootRomStart => Sys2Proof.Machine.execBootRomStart s
  | .imageCheck src => Sys2Proof.Machine.execImageCheck src s
  | .imageRetry => Sys2Proof.Machine.execImageRetry s
  | .netbootRequest => Sys2Proof.Machine.execNetbootRequest s
  | .netbootBlock offset data => Sys2Proof.Machine.execNetbootBlock offset data s
  | .netbootTimeout => Sys2Proof.Machine.execNetbootTimeout s
  | .fDieBist fails => Sys2Proof.Machine.execFDieBist fails s
  | .fDiePhase => Sys2Proof.Machine.execFDiePhase s
  | .cpgRise rail temps => Sys2Proof.Machine.execCpgRise rail temps s
  | .cpgFall rail => Sys2Proof.Machine.execCpgFall rail s
  | .railOffStep => Sys2Proof.Machine.execRailOffStep s
  | .railFaultTimeout => Sys2Proof.Machine.execRailFaultTimeout s
  | .cDieBist fails => Sys2Proof.Machine.execCDieBist fails s
  | .cDiePhase => Sys2Proof.Machine.execCDiePhase s
  | .railRequest v => Sys2Proof.Machine.execRailRequest v s
  | .rollbackAdvance key => Sys2Proof.Machine.execRollbackAdvance key s
  | .fuseBlowDone => Sys2Proof.Machine.execFuseBlowDone s
  | .relayGo v => Sys2Proof.Machine.execRelayGo v s
  | .relayApply => Sys2Proof.Machine.execRelayApply s
  | .repairMirrorWrite => Sys2Proof.Machine.execRepairMirrorWrite s
  | .splitLoRead m addr => Sys2Proof.Machine.execSplitLoRead m addr s
  | .splitHiRead m addr => Sys2Proof.Machine.execSplitHiRead m addr s
  | .splitLoWrite m addr v => Sys2Proof.Machine.execSplitLoWrite m addr v s
  | .splitHiWrite m addr v => Sys2Proof.Machine.execSplitHiWrite m addr v s
  | .rcRead m addr event => Sys2Proof.Machine.execRcRead m addr event s
  | .registerWrite m addr bits v events => Sys2Proof.Machine.execRegisterWrite m addr bits v s events
  | .tileBeat die tile beats upset => Sys2Proof.Machine.execTileBeat die tile beats upset s
  | .eccWriteback die tile => Sys2Proof.Machine.execEccWriteback die tile s
  | .scrubRead die tile upset => Sys2Proof.Machine.execScrubRead die tile upset s
  | .tilePowerRequest die tile v => Sys2Proof.Machine.execTilePowerRequest die tile v s
  | .tilePowerDone die tile => Sys2Proof.Machine.execTilePowerDone die tile s
  | .tileIdleExpiry die tile idle => Sys2Proof.Machine.execTileIdleExpiry die tile idle s
  | .xbarCounterClear die v => Sys2Proof.Machine.execXbarCounterClear die v s
  | .vx c rd p q => Sys2Proof.Machine.execVx c rd p q s
  | .vwait c rd rs => Sys2Proof.Machine.execVwait c rd rs s
  | .vwaitWake c => Sys2Proof.Machine.execVwaitWake c s
  | .jointBrickSubmission q line => Sys2Proof.Machine.execJointBrickSubmission q line s
  | .queueFlush q => Sys2Proof.Machine.execQueueFlush q s
  | .kilnAdmission => Sys2Proof.Machine.execKilnAdmission s
  | .brickSetout q seq => Sys2Proof.Machine.execBrickSetout q seq s
  | .brickProbe q seq => Sys2Proof.Machine.execBrickProbe q seq s
  | .brickBlockDone q seq mismatch => Sys2Proof.Machine.execBrickBlockDone q seq mismatch s
  | .brickSuspend q seq k metered => Sys2Proof.Machine.execBrickSuspend q seq k metered s
  | .brickEnd q seq metered => Sys2Proof.Machine.execBrickEnd q seq metered s
  | .brickExpiry q seq => Sys2Proof.Machine.execBrickExpiry q seq s
  | .kilnRefill temps drawn => Sys2Proof.Machine.execKilnRefill temps drawn s
  | .vidRecalc => Sys2Proof.Machine.execVidRecalc s
  | .vidAck => Sys2Proof.Machine.execVidAck s
  | .vidTimeout => Sys2Proof.Machine.execVidTimeout s
  | .thermalTrip zone sensor => Sys2Proof.Machine.execThermalTrip zone sensor s
  | .coolWaitExpiry => Sys2Proof.Machine.execCoolWaitExpiry s
  | .courseTick => Sys2Proof.Machine.execCourseTick s
  | .pinPulseEnd cell => Sys2Proof.Machine.execPinPulseEnd cell s
  | .courseEdge cs e => Sys2Proof.Machine.execCourseEdge cs e s
  | .coastTimeout cs => Sys2Proof.Machine.execCoastTimeout cs s
  | .coastLimit cs => Sys2Proof.Machine.execCoastLimit cs s
  | .courseRunRequest cs v => Sys2Proof.Machine.execCourseRunRequest cs v s
  | .courseResync cs => Sys2Proof.Machine.execCourseResync cs s
  | .coursePositionSend => Sys2Proof.Machine.execCoursePositionSend s
  | .jointArm j v => Sys2Proof.Machine.execJointArm j v s
  | .jointDisarm j => Sys2Proof.Machine.execJointDisarm j s
  | .jointDispatch => Sys2Proof.Machine.execJointDispatch s
  | .adcConversionStart n => Sys2Proof.Machine.execAdcConversionStart n s
  | .adcConversionDone n microvolts => Sys2Proof.Machine.execAdcConversionDone n microvolts s
  | .adcSwconv v => Sys2Proof.Machine.execAdcSwconv v s
  | .adcPowerRequest n v => Sys2Proof.Machine.execAdcPowerRequest n v s
  | .adcPowerDone n => Sys2Proof.Machine.execAdcPowerDone n s
  | .sdResult n clocks => Sys2Proof.Machine.execSdResult n clocks s
  | .comparatorChange n microvolts settling => Sys2Proof.Machine.execComparatorChange n microvolts settling s
  | .cpPowerRequest n v => Sys2Proof.Machine.execCpPowerRequest n v s
  | .cpPowerDone n => Sys2Proof.Machine.execCpPowerDone n s
  | .sentFrame n f => Sys2Proof.Machine.execSentFrame n f s
  | .capSwtrig v => Sys2Proof.Machine.execCapSwtrig v s
  | .capPeriodicTrigger d => Sys2Proof.Machine.execCapPeriodicTrigger d s
  | .listEntryStart d => Sys2Proof.Machine.execListEntryStart d s
  | .passStart d => Sys2Proof.Machine.execPassStart d s
  | .frameComplete d => Sys2Proof.Machine.execFrameComplete d s
  | .frameMove => Sys2Proof.Machine.execFrameMove s
  | .capDefEnable d v => Sys2Proof.Machine.execCapDefEnable d v s
  | .slotRdWrite r v => Sys2Proof.Machine.execSlotRdWrite r v s
  | .modPeriodBoundary m => Sys2Proof.Machine.execModPeriodBoundary m s
  | .modEnableRequest m v => Sys2Proof.Machine.execModEnableRequest m v s
  | .modSync v => Sys2Proof.Machine.execModSync v s
  | .modCheckerMismatch m => Sys2Proof.Machine.execModCheckerMismatch m s
  | .ocReadbackFault cell lasted => Sys2Proof.Machine.execOcReadbackFault cell s lasted
  | .ocSafeExit cell => Sys2Proof.Machine.execOcSafeExit cell s
  | .ocResume v => Sys2Proof.Machine.execOcResume v s
  | .vioBankChange k mv => Sys2Proof.Machine.execVioBankChange k mv s
  | .interruptEntry c => Sys2Proof.Machine.execInterruptEntry c s
  | .longOpComplete c => Sys2Proof.Machine.execLongOpComplete c s
  | .arithmeticException c => Sys2Proof.Machine.execArithmeticException c s
  | .loadReturn c => Sys2Proof.Machine.execLoadReturn c s
  | .storeDrain c => Sys2Proof.Machine.execStoreDrain c s
  | .illegalOpcode c w1 w2 => Sys2Proof.Machine.execIllegalOpcode c w1 w2 s
  | .nop c => Sys2Proof.Machine.execNop c s
  | .barrier c => Sys2Proof.Machine.execBarrier c s
  | .isync c => Sys2Proof.Machine.execIsync c s
  | .tlbsync c => Sys2Proof.Machine.execTlbsync c s
  | .wfi c => Sys2Proof.Machine.execWfi c s
  | .wopen c => Sys2Proof.Machine.execWopen c s
  | .wclose c => Sys2Proof.Machine.execWclose c s
  | .ret c => Sys2Proof.Machine.execRet c s
  | .retl c => Sys2Proof.Machine.execRetl c s
  | .gret c => Sys2Proof.Machine.execGret c s
  | .rfi c => Sys2Proof.Machine.execRfi c s
  | .rep c rs inner stop => Sys2Proof.Machine.execRep c rs inner stop s
  | .jmpr c p => Sys2Proof.Machine.execJmpr c p s
  | .callr c p => Sys2Proof.Machine.execCallr c p s
  | .icinv c p rc => Sys2Proof.Machine.execIcinv c p rc s
  | .tlbi c p scope => Sys2Proof.Machine.execTlbi c p scope s
  | .tlbiReceive r => Sys2Proof.Machine.execTlbiReceive r s
  | .tlbiAck r => Sys2Proof.Machine.execTlbiAck r s
  | .ctxs c p h => Sys2Proof.Machine.execCtxs c p h s
  | .ctxl c p h => Sys2Proof.Machine.execCtxl c p h s
  | .gate c n => Sys2Proof.Machine.execGate c n s
  | .mfs c rd sr => Sys2Proof.Machine.execMfs c rd sr s
  | .mts c sr rs => Sys2Proof.Machine.execMts c sr rs s
  | .add c rd rs => Sys2Proof.Machine.execAdd c rd rs s
  | .adc c rd rs => Sys2Proof.Machine.execAdc c rd rs s
  | .sub c rd rs => Sys2Proof.Machine.execSub c rd rs s
  | .sbc c rd rs => Sys2Proof.Machine.execSbc c rd rs s
  | .cmp c rd rs => Sys2Proof.Machine.execCmp c rd rs s
  | .and c rd rs => Sys2Proof.Machine.execAnd c rd rs s
  | .or c rd rs => Sys2Proof.Machine.execOr c rd rs s
  | .xor c rd rs => Sys2Proof.Machine.execXor c rd rs s
  | .andn c rd rs => Sys2Proof.Machine.execAndn c rd rs s
  | .mov c rd rs => Sys2Proof.Machine.execMov c rd rs s
  | .neg c rd rs => Sys2Proof.Machine.execNeg c rd rs s
  | .not c rd rs => Sys2Proof.Machine.execNot c rd rs s
  | .shl c rd rs => Sys2Proof.Machine.execShl c rd rs s
  | .shr c rd rs => Sys2Proof.Machine.execShr c rd rs s
  | .sar c rd rs => Sys2Proof.Machine.execSar c rd rs s
  | .rol c rd rs => Sys2Proof.Machine.execRol c rd rs s
  | .addi c rd imm => Sys2Proof.Machine.execAddi c rd imm s
  | .cmpi c rd imm => Sys2Proof.Machine.execCmpi c rd imm s
  | .movi c rd imm => Sys2Proof.Machine.execMovi c rd imm s
  | .shli c rd imm => Sys2Proof.Machine.execShli c rd imm s
  | .shri c rd imm => Sys2Proof.Machine.execShri c rd imm s
  | .sari c rd imm => Sys2Proof.Machine.execSari c rd imm s
  | .mul c rd rs => Sys2Proof.Machine.execMul c rd rs s
  | .mulh c rd rs => Sys2Proof.Machine.execMulh c rd rs s
  | .mulhu c rd rs => Sys2Proof.Machine.execMulhu c rd rs s
  | .mulw c rd rs => Sys2Proof.Machine.execMulw c rd rs s
  | .mulwu c rd rs => Sys2Proof.Machine.execMulwu c rd rs s
  | .div c rd rs => Sys2Proof.Machine.execDiv c rd rs s
  | .divu c rd rs => Sys2Proof.Machine.execDivu c rd rs s
  | .divl c rd rs => Sys2Proof.Machine.execDivl c rd rs s
  | .divlu c rd rs => Sys2Proof.Machine.execDivlu c rd rs s
  | .dadd c rd rs => Sys2Proof.Machine.execDadd c rd rs s
  | .dadc c rd rs => Sys2Proof.Machine.execDadc c rd rs s
  | .dsub c rd rs => Sys2Proof.Machine.execDsub c rd rs s
  | .dsbc c rd rs => Sys2Proof.Machine.execDsbc c rd rs s
  | .daj c rd => Sys2Proof.Machine.execDaj c rd s
  | .crc16 c rd rs => Sys2Proof.Machine.execCrc16 c rd rs s
  | .crc32 c rd rs => Sys2Proof.Machine.execCrc32 c rd rs s
  | .crc32c c rd rs => Sys2Proof.Machine.execCrc32c c rd rs s
  | .ld c rd p inc => Sys2Proof.Machine.execLd c rd p inc s
  | .st c rs p inc => Sys2Proof.Machine.execSt c rs p inc s
  | .ldp c rd p inc => Sys2Proof.Machine.execLdp c rd p inc s
  | .stp c rs p inc => Sys2Proof.Machine.execStp c rs p inc s
  | .movm c d p => Sys2Proof.Machine.execMovm c d p s
  | .daddm c d p => Sys2Proof.Machine.execDaddm c d p s
  | .dsubm c d p => Sys2Proof.Machine.execDsubm c d p s
  | .crcm16 c rd p => Sys2Proof.Machine.execCrcm16 c rd p s
  | .crcm32 c rd p => Sys2Proof.Machine.execCrcm32 c rd p s
  | .ldd c rd p disp => Sys2Proof.Machine.execLdd c rd p disp s
  | .std c rs p disp => Sys2Proof.Machine.execStd c rs p disp s
  | .lddp c rd p disp => Sys2Proof.Machine.execLddp c rd p disp s
  | .stdp c rs p disp => Sys2Proof.Machine.execStdp c rs p disp s
  | .stm c p half u mask stop => Sys2Proof.Machine.execStm c p half u mask stop s
  | .ldm c p half u mask stop => Sys2Proof.Machine.execLdm c p half u mask stop s
  | .movw c rd imm => Sys2Proof.Machine.execMovw c rd imm s
  | .addw c rd imm => Sys2Proof.Machine.execAddw c rd imm s
  | .cmpw c rd imm => Sys2Proof.Machine.execCmpw c rd imm s
  | .andw c rd imm => Sys2Proof.Machine.execAndw c rd imm s
  | .orw c rd imm => Sys2Proof.Machine.execOrw c rd imm s
  | .xorw c rd imm => Sys2Proof.Machine.execXorw c rd imm s
  | .addpw c rd imm => Sys2Proof.Machine.execAddpw c rd imm s
  | .movpw c rd imm => Sys2Proof.Machine.execMovpw c rd imm s
  | .addp c d p => Sys2Proof.Machine.execAddp c d p s
  | .subp c d p => Sys2Proof.Machine.execSubp c d p s
  | .cmpp c d p => Sys2Proof.Machine.execCmpp c d p s
  | .movp c d p => Sys2Proof.Machine.execMovp c d p s
  | .brs c cond disp => Sys2Proof.Machine.execBrs c cond disp s
  | .br c cond disp => Sys2Proof.Machine.execBr c cond disp s
  | .jmp c disp => Sys2Proof.Machine.execJmp c disp s
  | .call c disp => Sys2Proof.Machine.execCall c disp s
  | .cas c rd rc p => Sys2Proof.Machine.execCas c rd rc p s
  | .softwareInterrupt die v => Sys2Proof.Machine.execSoftwareInterrupt die v s
  | .coreResetRequest v => Sys2Proof.Machine.execCoreResetRequest v s
  | .sysCrunWrite v => Sys2Proof.Machine.execSysCrunWrite v s
  | .watchdogExpiry c => Sys2Proof.Machine.execWatchdogExpiry c s
  | .watchdogKick c v => Sys2Proof.Machine.execWatchdogKick c v s
  | .tlbLockLoad die v => Sys2Proof.Machine.execTlbLockLoad die v s
  | .tlbLockRelease die v => Sys2Proof.Machine.execTlbLockRelease die v s
  | .tlbLockDone die => Sys2Proof.Machine.execTlbLockDone die s
  | .frameReceive port f => Sys2Proof.Machine.execFrameReceive port f s
  | .frameTransmit port => Sys2Proof.Machine.execFrameTransmit port s
  | .transmitSlot r => Sys2Proof.Machine.execTransmitSlot r s
  | .canFrameReceive ch f => Sys2Proof.Machine.execCanFrameReceive ch f s
  | .acfBatchExpiry ch link => Sys2Proof.Machine.execAcfBatchExpiry ch link s
  | .canBusOffRecovery ch => Sys2Proof.Machine.execCanBusOffRecovery ch s
  | .bpTrainingFrame lane f => Sys2Proof.Machine.execBpTrainingFrame lane f s
  | .bpLinkEvent port e => Sys2Proof.Machine.execBpLinkEvent port e s
  | .bpTrainTimeout port => Sys2Proof.Machine.execBpTrainTimeout port s
  | .bpAlignTimeout port => Sys2Proof.Machine.execBpAlignTimeout port s
  | .portEnableRequest port v => Sys2Proof.Machine.execPortEnableRequest port v s
  | .portStartDone port ok speed => Sys2Proof.Machine.execPortStartDone port ok speed s
  | .portStopDone port => Sys2Proof.Machine.execPortStopDone port s
  | .gptpStepApply v => Sys2Proof.Machine.execGptpStepApply v s
  | .gptpTimeCapture => Sys2Proof.Machine.execGptpTimeCapture s
  | .gptpHoldover => Sys2Proof.Machine.execGptpHoldover s
  | .gateCycleStart => Sys2Proof.Machine.execGateCycleStart s
  | .gateEntryExpiry port => Sys2Proof.Machine.execGateEntryExpiry port s
  | .rosterAgeExpiry ix => Sys2Proof.Machine.execRosterAgeExpiry ix s
  | .frerResetExpiry g => Sys2Proof.Machine.execFrerResetExpiry g s
  | .nswTableRead v => Sys2Proof.Machine.execNswTableRead v s
  | .nswTableWrite v => Sys2Proof.Machine.execNswTableWrite v s
  | .nswCounterClear v => Sys2Proof.Machine.execNswCounterClear v s
  | .nswTableDone => Sys2Proof.Machine.execNswTableDone s
  | .flitSend dir => Sys2Proof.Machine.execFlitSend dir s
  | .checkFlitSend dir => Sys2Proof.Machine.execCheckFlitSend dir s
  | .flitReceive dir raw laneErrs => Sys2Proof.Machine.execFlitReceive dir raw laneErrs s
  | .mlTrainingStageDone failed => Sys2Proof.Machine.execMlTrainingStageDone failed s
  | .mlTrainingTimeout => Sys2Proof.Machine.execMlTrainingTimeout s
  | .mlLaneErrorWindow => Sys2Proof.Machine.execMlLaneErrorWindow s
  | .laneShift dir lane => Sys2Proof.Machine.execLaneShift dir lane s
  | .mlShiftDone => Sys2Proof.Machine.execMlShiftDone s
  | .mlRetrainDone => Sys2Proof.Machine.execMlRetrainDone s
  | .mlNoFlitTimeout => Sys2Proof.Machine.execMlNoFlitTimeout s
  | .lossWaitExpiry => Sys2Proof.Machine.execLossWaitExpiry s
  | .wearMeasurement slacks rosc => Sys2Proof.Machine.execWearMeasurement slacks rosc s
  | .ceWindowExpiry => Sys2Proof.Machine.execCeWindowExpiry s
  | .migrationQueue v => Sys2Proof.Machine.execMigrationQueue v s
  | .migrationStart => Sys2Proof.Machine.execMigrationStart s
  | .migrationCopyLine => Sys2Proof.Machine.execMigrationCopyLine s
  | .migrationSwitch => Sys2Proof.Machine.execMigrationSwitch s
  | .repairRequest v => Sys2Proof.Machine.execRepairRequest v s
  | .repairRecordAdd => Sys2Proof.Machine.execRepairRecordAdd s
  | .clockFailure => Sys2Proof.Machine.execClockFailure s
  | .rtcSecond => Sys2Proof.Machine.execRtcSecond s
  | .rtcSubCapture => Sys2Proof.Machine.execRtcSubCapture s
  | .rtcSecCommit v => Sys2Proof.Machine.execRtcSecCommit v s
  | .rtcOscFail => Sys2Proof.Machine.execRtcOscFail s
  | .park v => Sys2Proof.Machine.execPark v s
  | .parkComplete => Sys2Proof.Machine.execParkComplete s
  | .wakePin pin level => Sys2Proof.Machine.execWakePin pin level s
  | .dbgChainUpdate dr => Sys2Proof.Machine.execDbgChainUpdate dr s
  | .dbgChalRead => Sys2Proof.Machine.execDbgChalRead s
  | .dbgRespUpdate sig => Sys2Proof.Machine.execDbgRespUpdate sig s
  | .debugUnlockCheck => Sys2Proof.Machine.execDebugUnlockCheck s
  | .debugPhysicalAccess addr wr data => Sys2Proof.Machine.execDebugPhysicalAccess addr wr data s
  | .debugCoreAccess c sel wr data => Sys2Proof.Machine.execDebugCoreAccess c sel wr data s
  | .debugHalt c v => Sys2Proof.Machine.execDebugHalt c v s
  | .tripRearm zone sensor => Sys2Proof.Machine.execTripRearm zone sensor s
  | .bankLossThreshold k mv => Sys2Proof.Machine.execBankLossThreshold k mv s
  | .rtcOscRestart => Sys2Proof.Machine.execRtcOscRestart s
  | .cDieClockLock => Sys2Proof.Machine.execCDieClockLock s
  | .codewordReceive lane errors frames cw => Sys2Proof.Machine.execCodewordReceive lane errors s frames cw
  | .mtLinkLoss m => Sys2Proof.Machine.execMtLinkLoss m s

end Sys2Proof.Machine
end

