-- ==== Sys2Proof/Safety.lean ====
section
/-! DEFINITION. What a legal state of the block is, in the terms that claims use: memory in canonical form, and every core at
a level, with windows and saved status words that the manual names. -/

namespace Sys2Proof.Machine

open Sys2Proof

/-- The byte memories and the lists of marked words are in canonical form: keys strictly rising, and no entry equal to what
an unlisted key reads as (0x00; 0xFF in the flash; clean). -/
def Mem.wf (m : Mem) : Bool :=
  Tab.wf 0 m.ctile && Tab.wf 0 m.ftile && Tab.wf 0 m.hcNear && Tab.wf 0 m.hfNear && Tab.wf 0xFF m.flash &&
  Tab.wf .clean m.eccC && Tab.wf .clean m.eccF && Tab.wf .clean m.eccHc && Tab.wf .clean m.eccHf

/-- A status word of R251: LVL names a level, and the reserved bit reads 0. -/
def pswLegal (w : Word) : Bool := wfld w 15 14 ≠ 3 && !(wbit w 0)

/-- A long operation writes flags alone: neither LVL nor the reserved bit of PSW (R258, R275). -/
def LongOp.legal (o : LongOp) : Bool := o.mask &&& 0xC001 = 0

/-- A core whose window, fence, status and saved status words are as R251 and R296 allow. -/
def Core.legal (c : CoreId) (k : Core) : Bool :=
  k.cwp < nwin c && k.fence < nwin c && pswLegal k.psw && pswLegal k.x1.xpsw && pswLegal k.x2.xpsw && pswLegal k.xt.xpsw &&
  (k.longOp.map LongOp.legal).getD true

/-- Every core is legal. -/
def coresLegal (v : Vector Core 12) : Prop := ∀ c : CoreId, Core.legal c v[c] = true

/-- The invariant of the block. -/
def State.Legal (s : State) : Prop := s.mem.wf = true ∧ coresLegal s.cores

end Sys2Proof.Machine
end

