-- ==== Sys2Proof/Certificates/Slice0/Obligations.lean ====
section
/-! DEFINITION. The statements for the provers. A statement of several rules is the conjunction of the parts under
Sys2Proof.Rules, each with its own docstring. Terms that the statements share stand before them. -/

namespace Sys2Proof.Machine

open Sys2Proof

/-! ### Terms of the statements -/

/-- Instruction i of core c completes: from every state whose way up to IS ends in a state s1, ready to execute it, the machine
answers a next state t that stands to s1 as `post` says. -/
def Does (i : Instr) (c : CoreId) (len : Nat) (u : Uses) (post : State → State → Prop) : Prop :=
  ∀ s s1, s.hodIssue c len u = (true, s1) → ∃ t, exec i s = .next t ∧ post s1 t

/-- A status word with flags set as a list of (bit, value) says: 1 C, 2 Z, 3 N, 4 V, 5 to 7 H, 8 DZ, 9 D, 10 Q. -/
def flagged (w : Word) (l : List (Nat × Bool)) : Word := l.foldl (fun w e => putBit w e.1 e.2) w

/-- The bits that such a list names. -/
def flagMask (l : List (Nat × Bool)) : Word := flagged 0 (l.map fun e => (e.1, true))

/-- DIRTY of core c after writes of registers rs and a status word w. -/
def dirtyAfter (k : Core) (c : CoreId) (rs : List Reg) (w : Word) : Word :=
  let d := rs.foldl (fun d r => match k.phys c r.toNat with
    | some p => dirtyOn d p
    | none => d) k.dirty
  if w = k.psw then d else putBit d 14 true

/-- From s to t core c has written the registers of the list (a write of g0 is discarded) and the flags of fl, and its pc has
moved by n words; its other registers, and all else but DIRTY and the flags that a long operation may still write, are as
before. -/
def Ran (s t : State) (c : CoreId) (n : Nat) (rs : List (Reg × Word)) (fl : List (Nat × Bool)) : Prop :=
  let k := s.core c
  let w := flagged k.psw fl
  (∀ e ∈ rs, t.rg c e.1 = if e.1 = 0 then 0 else e.2) ∧
  (∀ q, (∀ e ∈ rs, k.phys c e.1.toNat ≠ some q) → (t.core c).preg q = k.preg q) ∧
  t = s.setCore c { k with
    regs := (t.core c).regs, dirty := dirtyAfter k c (rs.map Prod.fst) w, longOp := (k.younger (flagMask fl)).longOp, psw := w
    pc := k.pc + BitVec.ofNat 32 n }

/-- A pair written. -/
def pairWrite (p : PairIx) (v : W32) : List (Reg × Word) := [(evenReg p, hiOf v), (oddReg p, loOf v)]

/-- Z of a result: set from it, or, in a chained instruction, cleared where it is not zero and left otherwise. -/
def zFlag (chained : Bool) (r : Word) : List (Nat × Bool) := if chained then (if r = 0 then [] else [(2, false)]) else [(2, r = 0)]

/-- A number that 16 bits do not hold as a signed value. -/
def outOf16 (n : Int) : Bool := n < -32768 || 32767 < n

/-- A number that 32 bits do not hold as a signed value. -/
def outOf32 (n : Int) : Bool := n < -2147483648 || 2147483647 < n

/-- Result and flags of the addition of R258: C, Z, N, V, H. -/
def sumRule (chained : Bool) (a b : Word) (cin : Bool) : Word × List (Nat × Bool) :=
  let r := a + b + BitVec.ofNat 16 (b2n cin)
  let out (k : Nat) : Bool := 2 ^ k ≤ a.toNat % 2 ^ k + b.toNat % 2 ^ k + b2n cin
  (r, [(1, out 16), (3, r.msb), (4, outOf16 (a.toInt + b.toInt + b2n cin))] ++ zFlag chained r ++ [(7, out 12), (6, out 8), (5, out 4)])

/-- Result and flags of the subtraction of R258: C the borrow, Z, N, V. -/
def diffRule (chained : Bool) (a b : Word) (bin : Bool) : Word × List (Nat × Bool) :=
  let r := a - b - BitVec.ofNat 16 (b2n bin)
  (r, [(1, decide (a.toNat < b.toNat + b2n bin)), (3, r.msb), (4, outOf16 (a.toInt - b.toInt - b2n bin))] ++ zFlag chained r)

/-- Flags of a logic result. -/
def logicFlags (r : Word) : List (Nat × Bool) := [(2, r = 0), (3, r.msb), (4, false)]

/-- An instruction of a core and a register that writes result and flags to it. -/
def Gives (i : Instr) (c : CoreId) (len : Nat) (u : Uses) (rd : Reg) (f : State → Word × List (Nat × Bool)) : Prop :=
  Does i c len u fun s t => Ran s t c len [(rd, (f s).1)] (f s).2

/-- A comparison: flags alone. -/
def Compares (i : Instr) (c : CoreId) (len : Nat) (u : Uses) (f : State → Word × List (Nat × Bool)) : Prop :=
  Does i c len u fun s t => Ran s t c len [] (f s).2

end Sys2Proof.Machine

open Sys2Proof Sys2Proof.Machine

/-- R255, R256, R258: sums and differences of a core's registers. -/
def Sys2Proof.Rules.HodSums : Prop := ∀ (c : CoreId) (rd rs : Reg) (i : BitVec 5) (w : Word),
  Gives (.add c rd rs) c 1 { regs := [rd, rs] } rd (fun s => sumRule false (s.rg c rd) (s.rg c rs) false) ∧
  Gives (.adc c rd rs) c 1 { regs := [rd, rs], flags := true } rd (fun s => sumRule true (s.rg c rd) (s.rg c rs) (wbit (s.psw c) 1)) ∧
  Gives (.sub c rd rs) c 1 { regs := [rd, rs] } rd (fun s => diffRule false (s.rg c rd) (s.rg c rs) false) ∧
  Gives (.sbc c rd rs) c 1 { regs := [rd, rs], flags := true } rd (fun s => diffRule true (s.rg c rd) (s.rg c rs) (wbit (s.psw c) 1)) ∧
  Gives (.neg c rd rs) c 1 { regs := [rd, rs] } rd (fun s => diffRule false 0 (s.rg c rs) false) ∧
  Gives (.addi c rd i) c 1 { regs := [rd] } rd (fun s => sumRule false (s.rg c rd) (i.signExtend 16) false) ∧
  Gives (.addw c rd w) c 2 { regs := [rd] } rd (fun s => sumRule false (s.rg c rd) w false) ∧
  Compares (.cmp c rd rs) c 1 { regs := [rd, rs] } (fun s => diffRule false (s.rg c rd) (s.rg c rs) false) ∧
  Compares (.cmpi c rd i) c 1 { regs := [rd] } (fun s => diffRule false (s.rg c rd) (i.signExtend 16) false) ∧
  Compares (.cmpw c rd w) c 2 { regs := [rd] } (fun s => diffRule false (s.rg c rd) w false)

/-- R255, R256, R258: logic. -/
def Sys2Proof.Rules.HodLogic : Prop := ∀ (c : CoreId) (rd rs : Reg) (w : Word),
  let f (g : Word → Word → Word) (s : State) : Word × List (Nat × Bool) := (g (s.rg c rd) (s.rg c rs), logicFlags (g (s.rg c rd) (s.rg c rs)))
  let h (g : Word → Word) (s : State) : Word × List (Nat × Bool) := (g (s.rg c rd), logicFlags (g (s.rg c rd)))
  Gives (.and c rd rs) c 1 { regs := [rd, rs] } rd (f fun a b => a &&& b) ∧
  Gives (.or c rd rs) c 1 { regs := [rd, rs] } rd (f fun a b => a ||| b) ∧
  Gives (.xor c rd rs) c 1 { regs := [rd, rs] } rd (f fun a b => a ^^^ b) ∧
  Gives (.andn c rd rs) c 1 { regs := [rd, rs] } rd (f fun a b => a &&& ~~~b) ∧
  Gives (.not c rd rs) c 1 { regs := [rd, rs] } rd (f fun _ b => ~~~b) ∧
  Gives (.andw c rd w) c 2 { regs := [rd] } rd (h fun a => a &&& w) ∧
  Gives (.orw c rd w) c 2 { regs := [rd] } rd (h fun a => a ||| w) ∧
  Gives (.xorw c rd w) c 2 { regs := [rd] } rd (h fun a => a ^^^ w)

/-- R255, R256: moves and NOP write no flag. -/
def Sys2Proof.Rules.HodMoves : Prop := ∀ (c : CoreId) (rd rs : Reg) (i : BitVec 5) (w : Word) (d p : PairIx),
  Gives (.mov c rd rs) c 1 { regs := [rd, rs] } rd (fun s => (s.rg c rs, [])) ∧
  Gives (.movi c rd i) c 1 { regs := [rd] } rd (fun _ => (i.signExtend 16, [])) ∧
  Gives (.movw c rd w) c 2 { regs := [rd] } rd (fun _ => (w, [])) ∧
  Does (.movp c d p) c 1 { regs := pairRegs d ++ pairRegs p } (fun s t => Ran s t c 1 (pairWrite d (s.pr c p)) []) ∧
  Does (.movpw c (evenReg d) w) c 2 { regs := pairRegs d } (fun s t => Ran s t c 2 (pairWrite d (w.signExtend 32)) []) ∧
  Does (.nop c) c 1 {} (fun s t => Ran s t c 1 [] [])

namespace Sys2Proof.Machine

/-- Result and flags of a shift by n (R258): the last bit shifted out goes to C, a count of 0 leaves C. -/
def shiftRule (k : ShiftKind) (a : Word) (n : Nat) : Word × List (Nat × Bool) :=
  let r : Word := match k with
    | .shl => BitVec.ofNat 16 (a.toNat * 2 ^ n)
    | .shr => BitVec.ofNat 16 (a.toNat / 2 ^ n)
    | .sar => BitVec.ofInt 16 (a.toInt / 2 ^ n)
    | .rol => BitVec.ofNat 16 (a.toNat * 2 ^ (n % 16) + a.toNat / 2 ^ (16 - n % 16))
  let out : Option Bool := match k with
    | .shl => if n = 0 then none else some (n ≤ 16 && a.getLsbD (16 - n))
    | .shr => if n = 0 then none else some (n ≤ 16 && a.getLsbD (n - 1))
    | .sar => if n = 0 then none else some (if n ≤ 16 then a.getLsbD (n - 1) else a.msb)
    | .rol => if n % 16 = 0 then none else some (r.getLsbD 0)
  (r, [(2, decide (r = 0)), (3, r.msb)] ++ (match out with
    | none => []
    | some x => [(1, x)]))

/-- Flags of a 32-bit sum or difference n of signed value i. -/
def pairFlags (carry : Bool) (r : W32) (i : Int) : List (Nat × Bool) := [(1, carry), (2, decide (r = 0)), (3, r.msb), (4, outOf32 i)]

/-- Z and N of a result and V. -/
def znv (r : Word) (v : Bool) : List (Nat × Bool) := [(2, decide (r = 0)), (3, r.msb), (4, v)]

/-- From s to t core c has issued a long operation (R278): it will write the registers of the list and the flags of fl when it
completes; nothing else has happened but the pc's advance. -/
def Issued (s t : State) (c : CoreId) (l : List (Reg × Word)) (fl : List (Nat × Bool)) : Prop :=
  let k := s.core c
  t = s.setCore c { k with
    pc := k.pc + 1
    longOp := some {
      dests := l.filterMap fun e => (k.phys c e.1.toNat).map fun p => (p, e.2)
      mask := flagMask fl, val := flagged 0 fl, addr := k.pc, path := k.path } }

/-- Quotient, remainder and flags of R261: n by d, where low is the low word of the dividend. -/
def divRule (sgn : Bool) (n d : Int) (low : Word) : (Word × Word) × List (Nat × Bool) :=
  let q := n.tdiv d
  if d = 0 then
    let w : Word := if ¬ sgn then 0xFFFF else if n < 0 then 0x8000 else 0x7FFF
    ((w, low), znv w false ++ [(8, true)])
  else if (if sgn then outOf16 q else decide (65535 < q)) then
    let w : Word := if sgn then 0x8000 else 0xFFFF
    ((w, 0), znv w true)
  else ((BitVec.ofInt 16 q, BitVec.ofInt 16 (n - d * q)), znv (BitVec.ofInt 16 q) false)

/-- A bit-serial CRC register of n bits, most significant bit first, with polynomial p: a data bit enters. -/
def crcMsb (n p : Nat) (r : Nat) (d : Bool) : Nat :=
  let out := r / 2 ^ (n - 1) % 2 = 1
  (2 * r % 2 ^ n) ^^^ (if out ≠ d then p else 0)

/-- The same reflected, least significant bit first; p is the polynomial with its bits in reverse. -/
def crcLsb (p : Nat) (r : Nat) (d : Bool) : Nat := (r / 2) ^^^ (if (r % 2 = 1) ≠ d then p else 0)

/-- The bits of a data word in the order in which a CRC step takes them: byte [7:0] before byte [15:8], each from its most or
its least significant bit (R264). -/
def crcBits (msbFirst : Bool) (d : Word) : List Bool :=
  (upto 2).flatMap fun b => (upto 8).map fun i => d.getLsbD (8 * b + if msbFirst then 7 - i else i)

/-- CRC-32 of a register value and a data word, by polynomial in reverse. -/
def crc32Rule (p : Nat) (r : W32) (d : Word) : W32 := BitVec.ofNat 32 ((crcBits false d).foldl (crcLsb p) r.toNat)

/-- CRC-16. -/
def crc16Rule (r d : Word) : Word := BitVec.ofNat 16 ((crcBits true d).foldl (crcMsb 16 0x1021) r.toNat)

end Sys2Proof.Machine

/-- R258: shifts. -/
def Sys2Proof.Rules.HodShifts : Prop := ∀ (c : CoreId) (rd rs : Reg) (i : BitVec 5),
  let f (k : ShiftKind) (s : State) := shiftRule k (s.rg c rd) (s.rg c rs).toNat
  let g (k : ShiftKind) (s : State) := shiftRule k (s.rg c rd) i.toNat
  Gives (.shl c rd rs) c 1 { regs := [rd, rs] } rd (f .shl) ∧ Gives (.shr c rd rs) c 1 { regs := [rd, rs] } rd (f .shr) ∧
  Gives (.sar c rd rs) c 1 { regs := [rd, rs] } rd (f .sar) ∧ Gives (.rol c rd rs) c 1 { regs := [rd, rs] } rd (f .rol) ∧
  Gives (.shli c rd i) c 1 { regs := [rd] } rd (g .shl) ∧ Gives (.shri c rd i) c 1 { regs := [rd] } rd (g .shr) ∧
  Gives (.sari c rd i) c 1 { regs := [rd] } rd (g .sar)

/-- R258: 32-bit operations on pairs. -/
def Sys2Proof.Rules.HodPairs : Prop := ∀ (c : CoreId) (d p : PairIx) (w : Word),
  let u : Uses := { regs := pairRegs d ++ pairRegs p }
  Does (.addp c d p) c 1 u (fun s t =>
    let (a, b) := (s.pr c d, s.pr c p)
    Ran s t c 1 (pairWrite d (a + b)) (pairFlags (2 ^ 32 ≤ a.toNat + b.toNat) (a + b) (a.toInt + b.toInt))) ∧
  Does (.subp c d p) c 1 u (fun s t =>
    let (a, b) := (s.pr c d, s.pr c p)
    Ran s t c 1 (pairWrite d (a - b)) (pairFlags (a.toNat < b.toNat) (a - b) (a.toInt - b.toInt))) ∧
  Does (.cmpp c d p) c 1 u (fun s t =>
    let (a, b) := (s.pr c d, s.pr c p)
    Ran s t c 1 [] (pairFlags (a.toNat < b.toNat) (a - b) (a.toInt - b.toInt))) ∧
  Does (.addpw c (evenReg d) w) c 2 { regs := pairRegs d } (fun s t =>
    let (a, b) := (s.pr c d, (w.signExtend 32 : W32))
    Ran s t c 2 (pairWrite d (a + b)) (pairFlags (2 ^ 32 ≤ a.toNat + b.toNat) (a + b) (a.toInt + b.toInt)))

/-- R258, R261, R278: multiply and divide enter the long unit; operands are read at issue. -/
def Sys2Proof.Rules.HodLong : Prop := ∀ (c : CoreId) (rd rs : Reg) (p : PairIx),
  let u : Uses := { regs := [rd, rs], all := true }
  let v : Uses := { regs := rs :: pairRegs p, all := true }
  Does (.mul c rd rs) c 1 u (fun s t =>
    let m := (s.rg c rd).toInt * (s.rg c rs).toInt
    Issued s t c [(rd, s.rg c rd * s.rg c rs)] (znv (s.rg c rd * s.rg c rs) (outOf16 m))) ∧
  Does (.mulh c rd rs) c 1 u (fun s t =>
    let m : Word := BitVec.ofInt 16 ((s.rg c rd).toInt * (s.rg c rs).toInt / 65536)
    Issued s t c [(rd, m)] (znv m false)) ∧
  Does (.mulhu c rd rs) c 1 u (fun s t =>
    let m : Word := BitVec.ofNat 16 ((s.rg c rd).toNat * (s.rg c rs).toNat / 65536)
    Issued s t c [(rd, m)] (znv m false)) ∧
  Does (.mulw c (evenReg p) rs) c 1 v (fun s t =>
    let m : W32 := (s.rg c (oddReg p)).signExtend 32 * (s.rg c rs).signExtend 32
    Issued s t c (pairWrite p m) [(2, decide (m = 0)), (3, m.msb), (4, false)]) ∧
  Does (.mulwu c (evenReg p) rs) c 1 v (fun s t =>
    let m : W32 := (s.rg c (oddReg p)).zeroExtend 32 * (s.rg c rs).zeroExtend 32
    Issued s t c (pairWrite p m) [(2, decide (m = 0)), (3, m.msb), (4, false)]) ∧
  (let div (i : Instr) (sgn : Bool) (n : State → Int) (d : State → Int) : Prop := Does i c 1 v (fun s t =>
      let r := divRule sgn (n s) (d s) (s.rg c (oddReg p))
      Issued s t c [(oddReg p, r.1.1), (evenReg p, r.1.2)] r.2)
   div (.div c (evenReg p) rs) true (fun s => (s.rg c (oddReg p)).toInt) (fun s => (s.rg c rs).toInt) ∧
   div (.divu c (evenReg p) rs) false (fun s => (s.rg c (oddReg p)).toNat) (fun s => (s.rg c rs).toNat) ∧
   div (.divl c (evenReg p) rs) true (fun s => (s.pr c p).toInt) (fun s => (s.rg c rs).toInt) ∧
   div (.divlu c (evenReg p) rs) false (fun s => (s.pr c p).toNat) (fun s => (s.rg c rs).toNat))

/-- R275, R278, R280: a long operation of the running path completes: its registers, and of its flags those that no younger
instruction has written; an arithmetic exception becomes pending where the pipeline control enables it. -/
def Sys2Proof.Rules.LongCompletion : Prop := ∀ (s : State) (c : CoreId) (o : LongOp),
  (s.core c).longOp = some o → o.path = (s.core c).path → (o.dests.map Prod.fst).Nodup →
  let psw := ((s.core c).psw &&& ~~~o.mask) ||| (o.val &&& o.mask)
  ∃ t, exec (.longOpComplete c) s = .next t ∧
    (∀ e ∈ o.dests, (t.core c).preg e.1 = e.2) ∧
    (∀ q, q ∉ o.dests.map Prod.fst → (t.core c).preg q = (s.core c).preg q) ∧
    t = s.setCore c { s.core c with
      regs := (t.core c).regs, longOp := none, psw := psw
      dirty := (let d := o.dests.foldl (fun d e => dirtyOn d e.1) (s.core c).dirty
                if psw = (s.core c).psw then d else putBit d 14 true)
      arith := (s.core c).arith ++
        (if wbit o.val 8 ∧ s.bit (pipeCtl c).1 (pipeCtl c).2 15 then [{ cause := 0x12, addr := o.addr, path := o.path }]
         else if wbit o.val 4 ∧ s.bit (pipeCtl c).1 (pipeCtl c).2 14 then [{ cause := 0x13, addr := o.addr, path := o.path }]
         else []) }

/-- R262: decimal sums and differences of valid operands. -/
def Sys2Proof.Rules.HodDecimal : Prop := ∀ (c : CoreId) (rd rs : Reg),
  let dec (i : Instr) (fl sub chained : Bool) : Prop := ∀ s s1, s.hodIssue c 1 { regs := [rd, rs], flags := fl } = (true, s1) →
    let a := s1.rg c rd
    let b := s1.rg c rs
    let x := bcdNat a
    let y := bcdNat b + b2n (chained && wbit (s1.psw c) 1)
    let n : Int := if sub then (x : Int) - y else x + y
    if bcdOk a ∧ bcdOk b then
      ∃ t r, exec i s = .next t ∧ bcdOk r ∧ (bcdNat r : Int) = n % 10000 ∧
        Ran s1 t c 1 [(rd, r)] ([(1, decide (n < 0 ∨ 10000 ≤ n))] ++ zFlag chained r)
    else if wbit (s1.psw c) 11 then ∃ u, Ran s1 u c 1 [] [(9, true)] ∧ exec i s = .next (u.takeTrap c (s1.core c).pc digitTrap)
    else ∃ t, exec i s = .next t ∧ Ran s1 t c 1 [] [(9, true)]
  dec (.dadd c rd rs) false false false ∧ dec (.dadc c rd rs) true false true ∧
  dec (.dsub c rd rs) false true false ∧ dec (.dsbc c rd rs) true true true

/-- R263: DAJ, digit by digit with its internal carry k. -/
def Obligations.HodDaj : Prop := ∀ (c : CoreId) (rd : Reg),
  Does (.daj c rd) c 1 { regs := [rd], flags := true } fun s t =>
    ∃ (k : Nat → Bool) (r : Word), k 0 = false ∧
      (∀ i < 4,
        let cc := if i < 3 then wbit (s.psw c) (5 + i) else wbit (s.psw c) 1
        let t0 := digit (s.rg c rd) i + b2n (k i)
        let t1 := if cc ∨ 9 < t0 then t0 + 6 else t0
        digit r i = t1 % 16 ∧ k (i + 1) = (!cc && decide (15 < t1))) ∧
      Ran s t c 1 [(rd, r)] [(1, wbit (s.psw c) 1 || k 4), (2, decide (r = 0))]

/-- R263: DAJ after an ADD or ADC of two BCD words gives their decimal sum, and C its carry. -/
def Obligations.DajAdjusts : Prop := ∀ (a b psw : Word) (cin ch : Bool), bcdOk a → bcdOk b →
  let r := addOf a b cin ch
  let j := dajOf r.1 (r.2.on psw)
  let n := bcdNat a + bcdNat b + b2n cin
  bcdOk j.1 ∧ bcdNat j.1 = n % 10000 ∧ wbit (j.2.on (r.2.on psw)) 1 = decide (10000 ≤ n)

/-- R264: CRC steps. -/
def Sys2Proof.Rules.HodCrc : Prop := ∀ (c : CoreId) (rd rs : Reg) (d : PairIx),
  Gives (.crc16 c rd rs) c 1 { regs := [rd, rs] } rd (fun s => (crc16Rule (s.rg c rd) (s.rg c rs), [])) ∧
  Does (.crc32 c (evenReg d) rs) c 1 { regs := rs :: pairRegs d }
    (fun s t => Ran s t c 1 (pairWrite d (crc32Rule 0xEDB88320 (s.pr c d) (s.rg c rs))) []) ∧
  Does (.crc32c c (evenReg d) rs) c 1 { regs := rs :: pairRegs d }
    (fun s t => Ran s t c 1 (pairWrite d (crc32Rule 0x82F63B78 (s.pr c d) (s.rg c rs))) [])

/-- Rules.HodSums; Rules.HodLogic; Rules.HodMoves; Rules.HodShifts; Rules.HodPairs. -/
def Obligations.HodArithmetic : Prop :=
  Sys2Proof.Rules.HodSums ∧ Sys2Proof.Rules.HodLogic ∧ Sys2Proof.Rules.HodMoves ∧ Sys2Proof.Rules.HodShifts ∧ Sys2Proof.Rules.HodPairs

/-- Rules.HodLong; Rules.LongCompletion; Rules.HodDecimal; Rules.HodCrc. -/
def Obligations.HodLongDecimal : Prop :=
  Sys2Proof.Rules.HodLong ∧ Sys2Proof.Rules.LongCompletion ∧ Sys2Proof.Rules.HodDecimal ∧ Sys2Proof.Rules.HodCrc

namespace Sys2Proof.Machine

/-- Core c's pc moved behind an instruction of n words. -/
def State.past (s : State) (c : CoreId) (n : Nat) : State := s.setCore c { s.core c with pc := (s.core c).pc + BitVec.ofNat 32 n }

/-- Core c with one more entry in its store buffer (R284). -/
def State.buffered (s : State) (c : CoreId) (l : List (Nat × Word)) : State :=
  s.setCore c { s.core c with storeBuf := (s.core c).storeBuf ++ [{ words := l }] }

/-- The writes of an advance of a pair, if there is one. -/
def advWrites (s : State) (c : CoreId) (adv : Option (PairIx × Nat)) : List (Reg × Word) :=
  match adv with
  | some (p, n) => pairWrite p (s.pr c p + BitVec.ofNat 32 n)
  | none => []

/-- The load i: once its words are translated (s2), it completes at once where every word lies in the core's own near memory or the store
buffer holds them whole; otherwise, here with an empty store buffer, it waits in MD with its registers named (R273, R285). -/
def Loads (i : Instr) (c : CoreId) (len : Nat) (u : Uses) (dests : List Reg) (addr : State → W32) (adv : Option (PairIx × Nat)) : Prop :=
  ∀ s s1 ps s2, s.hodIssue c len u = (true, s1) →
    (∀ e, adv = some e → ∀ r ∈ pairRegs e.1, r ∉ dests) →
    let vas := wordsFrom (addr s1) dests.length
    seqM (fun s v => s.xl c .load v) vas (s1.past c len) = (.ok ps, s2) →
    let pas := ps.map fun e => e.1
    let dev := ps.any fun e => e.2
    let now := !dev && (pas.all (fun a => s2.near c a) || s2.forwards c pas)
    (∀ l, now = true → s2.loadWords c (List.zip vas pas) false = (.ok l, s2) →
      ∃ t, exec i s = .next t ∧ Ran s2 t c 0 (List.zip dests l ++ advWrites s2 c adv) []) ∧
    (now = false → (s2.core c).storeBuf = [] →
      ∃ t, exec i s = .next t ∧
        t = s2.setCore c { s2.core c with
          pc := (s2.core c).pc - BitVec.ofNat 32 len
          loadWait := some {
            words := List.zip (dests.map fun r => (s2.core c).phys c r.toNat) (List.zip vas ps)
            advance := (advWrites s2 c adv).filterMap fun e => ((s2.core c).phys c e.1.toNat).map fun p => (p, e.2)
            pc := (s2.core c).pc } })

/-- The store i: once its words have passed their checks (s2), its pair advances and the words enter the store buffer; to a device region
they are written at once, after the buffer has drained (R259, R284, R286). -/
def Stores (i : Instr) (c : CoreId) (len : Nat) (u : Uses) (vals : State → List Word) (addr : State → W32)
    (adv : Option (PairIx × Nat)) : Prop :=
  ∀ s s1 ps s2, s.hodIssue c len u = (true, s1) →
    seqM (fun s v => s.storeCheck c .store v) (wordsFrom (addr s1) (vals s1).length) (s1.past c len) = (.ok ps, s2) →
    let ws := List.zip (ps.map fun e => e.1) (vals s1)
    ∃ a, Ran s2 a c 0 (advWrites s2 c adv) [] ∧
      (ps.any (fun e => e.2) = false → (s2.core c).storeBuf.length < 8 → exec i s = .next (a.buffered c ws)) ∧
      (ps.any (fun e => e.2) = true → exec i s = .next ((a.drainAll c).putWords c ws))

end Sys2Proof.Machine

/-- R255, R259, R273, R285: loads. -/
def Sys2Proof.Rules.HodLoads : Prop := ∀ (c : CoreId) (rd : Reg) (d p : PairIx) (inc : Bool) (w : Word),
  let a (n : Nat) : Option (PairIx × Nat) := if inc then some (p, n) else none
  Loads (.ld c rd p inc) c 1 { regs := rd :: pairRegs p } [rd] (fun s => s.pr c p) (a 1) ∧
  Loads (.ldp c (evenReg d) p inc) c 1 { regs := pairRegs d ++ pairRegs p } [oddReg d, evenReg d] (fun s => s.pr c p) (a 2) ∧
  Loads (.ldd c rd p w) c 2 { regs := rd :: pairRegs p } [rd] (fun s => s.pr c p + w.signExtend 32) none ∧
  Loads (.lddp c (evenReg d) p w) c 2 { regs := pairRegs d ++ pairRegs p } [oddReg d, evenReg d]
    (fun s => s.pr c p + w.signExtend 32) none

/-- R273, R405: the load that waits in MD reads its target and lands in the registers it named; the core goes on behind it. -/
def Sys2Proof.Rules.LoadReturns : Prop := ∀ (s : State) (c : CoreId) (w : LoadWait) (l : List Word) (s2 : State),
  (s.core c).loadWait = some w →
  (s.setCore c { s.core c with loadWait := none }).readWords c (w.words.map fun e => (e.2.1, e.2.2.1)) (w.words.any fun e => e.2.2.2) =
    (.ok l, s2) →
  (s2.core c).haltReq = false →
  let writes := (List.zip (w.words.map fun e => e.1) l).filterMap (fun e => e.1.map fun p => (p, e.2)) ++ w.advance
  (writes.map Prod.fst).Nodup →
  ∃ t, exec (.loadReturn c) s = .next t ∧
    (∀ e ∈ writes, (t.core c).preg e.1 = e.2) ∧
    (∀ q, q ∉ writes.map Prod.fst → (t.core c).preg q = (s2.core c).preg q) ∧
    t = s2.setCore c { s2.core c with
      regs := (t.core c).regs, pc := w.pc, dirty := writes.foldl (fun d e => dirtyOn d e.1) (s2.core c).dirty }

/-- R255, R259, R284, R286: stores. -/
def Sys2Proof.Rules.HodStores : Prop := ∀ (c : CoreId) (rs : Reg) (d p : PairIx) (inc : Bool) (w : Word),
  let a (n : Nat) : Option (PairIx × Nat) := if inc then some (p, n) else none
  let two (s : State) : List Word := [s.rg c (oddReg d), s.rg c (evenReg d)]
  Stores (.st c rs p inc) c 1 { regs := rs :: pairRegs p } (fun s => [s.rg c rs]) (fun s => s.pr c p) (a 1) ∧
  Stores (.stp c (evenReg d) p inc) c 1 { regs := pairRegs d ++ pairRegs p } two (fun s => s.pr c p) (a 2) ∧
  Stores (.std c rs p w) c 2 { regs := rs :: pairRegs p } (fun s => [s.rg c rs]) (fun s => s.pr c p + w.signExtend 32) none ∧
  Stores (.stdp c (evenReg d) p w) c 2 { regs := pairRegs d ++ pairRegs p } two (fun s => s.pr c p + w.signExtend 32) none

/-- R284, R428: the oldest entry of the store buffer drains: a word for a near memory, whose word there has no ECC error, changes
its two bytes, the lower one first, and no other byte of any memory. -/
def Sys2Proof.Rules.StoreDrains : Prop := ∀ (s : State) (c : CoreId) (pa : PAddr) (v : Word) (r : List StoreEntry) (n off : Nat),
  (s.core c).storeBuf = { words := [(pa.toNat, v)] } :: r → pa.toNat % 2 = 0 → controlDie pa.toNat = none →
  let s1 := s.setCore c { s.core c with storeBuf := r }
  let stored (m m' : Tab Byte) (e e' : Tab Ecc) (k : Nat) : Prop :=
    (∀ a, Tab.get 0 m' a = if a = k then BitVec.ofNat 8 v.toNat else if a = k + 1 then BitVec.ofNat 8 (v.toNat / 256) else Tab.get 0 m a) ∧
    (∀ a, Tab.get .clean e' a = Tab.get .clean e a)
  (s1.path (dataPort c) pa.toNat true false = (.ok (.hcNear n off), s1) → Tab.get .clean s.mem.eccHc ((n * 0x10000 + off) / 8) = .clean →
    ∃ m e, exec (.storeDrain c) s = .next { s1 with mem := { s1.mem with hcNear := m, eccHc := e } } ∧
      stored s.mem.hcNear m s.mem.eccHc e (n * 0x10000 + off)) ∧
  (s1.path (dataPort c) pa.toNat true false = (.ok (.hfNear n off), s1) → Tab.get .clean s.mem.eccHf ((n * 0x20000 + off) / 8) = .clean →
    ∃ m e, exec (.storeDrain c) s = .next { s1 with mem := { s1.mem with hfNear := m, eccHf := e } } ∧
      stored s.mem.hfNear m s.mem.eccHf e (n * 0x20000 + off))

/-- R259, R262, R264: the instructions that work on words in memory, once their words are read and the word they store has passed its
checks. -/
def Sys2Proof.Rules.HodMemory : Prop := ∀ (c : CoreId) (rd : Reg) (d p q : PairIx) (s s1 : State),
  let one (s : State) (x : PairIx) : W32 := s.pr c x + 1
  (∀ v s2 pa s3, d ≠ p → s.hodIssue c 1 { regs := pairRegs d ++ pairRegs p } = (true, s1) →
    (s1.past c 1).load1 c (s1.pr c p) = (.ok v, s2) → s2.storeCheck c .store (s2.pr c d) = (.ok (pa, false), s3) →
    (s3.core c).storeBuf.length < 8 →
    ∃ a, Ran s3 a c 0 (pairWrite d (one s3 d) ++ pairWrite p (one s3 p)) [] ∧ exec (.movm c d p) s = .next (a.buffered c [(pa, v)])) ∧
  (∀ (sub : Bool) x y s2 s3 pa s4, d ≠ p → s.hodIssue c 1 { regs := pairRegs d ++ pairRegs p, flags := true } = (true, s1) →
    (s1.past c 1).load1 c (s1.pr c d) = (.ok x, s2) → s2.load1 c (s2.pr c p) = (.ok y, s3) →
    s3.storeCheck c .store (s3.pr c d) = (.ok (pa, false), s4) →
    let i : Instr := if sub then .dsubm c d p else .daddm c d p
    let m := bcdNat y + b2n (wbit (s4.psw c) 1)
    let n : Int := if sub then (bcdNat x : Int) - m else bcdNat x + m
    (bcdOk x = true → bcdOk y = true → (s4.core c).storeBuf.length < 8 →
      ∃ a r, bcdOk r ∧ (bcdNat r : Int) = n % 10000 ∧
        Ran s4 a c 0 (pairWrite d (one s4 d) ++ pairWrite p (one s4 p)) ([(1, decide (n < 0 ∨ 10000 ≤ n))] ++ zFlag true r) ∧
        exec i s = .next (a.buffered c [(pa, r)])) ∧
    (¬ (bcdOk x = true ∧ bcdOk y = true) → wbit (s4.psw c) 11 = false → ∃ t, exec i s = .next t ∧ Ran s4 t c 0 [] [(9, true)])) ∧
  (∀ v s2, rd ∉ pairRegs p → s.hodIssue c 1 { regs := rd :: pairRegs p } = (true, s1) → (s1.past c 1).load1 c (s1.pr c p) = (.ok v, s2) →
    ∃ t, exec (.crcm16 c rd p) s = .next t ∧ Ran s2 t c 0 ((rd, crc16Rule (s2.rg c rd) v) :: pairWrite p (one s2 p)) []) ∧
  (∀ v s2, q ≠ p → s.hodIssue c 1 { regs := pairRegs q ++ pairRegs p } = (true, s1) → (s1.past c 1).load1 c (s1.pr c p) = (.ok v, s2) →
    ∃ t, exec (.crcm32 c (evenReg q) p) s = .next t ∧
      Ran s2 t c 0 (pairWrite q (crc32Rule 0xEDB88320 (s2.pr c q) v) ++ pairWrite p (one s2 p)) [])

/-- R259: CAS writes rd where the word equals rc, and answers the old word in either case. -/
def Sys2Proof.Rules.HodCas : Prop := ∀ (c : CoreId) (rd rc : Reg) (p : PairIx) (s s1 : State) (pa : Nat) (dev : Bool) (old : Word) (s2 s3 : State),
  s.hodIssue c 2 { regs := rd :: rc :: pairRegs p } = (true, s1) →
  ((s1.past c 2).drainAll c).storeCheck c .store (s1.pr c p) = (.ok (pa, dev), s2) →
  s2.readWord1 c (s1.pr c p, pa) = (.ok old, s3) →
  ∃ a, Ran s3 a c 0 [(rd, old)] [(2, decide (old = s3.rg c rc))] ∧
    exec (.cas c rd rc p) s = .next (if old = s3.rg c rc then a.putWords c [(pa, s3.rg c rd)] else a)

/-- Rules.HodLoads; Rules.LoadReturns. -/
def Obligations.HodLoading : Prop :=
  Sys2Proof.Rules.HodLoads ∧ Sys2Proof.Rules.LoadReturns

/-- Rules.HodStores; Rules.StoreDrains. -/
def Obligations.HodStoring : Prop :=
  Sys2Proof.Rules.HodStores ∧ Sys2Proof.Rules.StoreDrains

/-- Rules.HodMemory; Rules.HodCas. -/
def Obligations.HodMemoryWork : Prop :=
  Sys2Proof.Rules.HodMemory ∧ Sys2Proof.Rules.HodCas

namespace Sys2Proof.Machine

/-- Whether the condition with a code holds (R257). -/
def condRule (w : Word) (code : Nat) : Bool :=
  let c := wbit w 1
  let z := wbit w 2
  let n := wbit w 3
  let v := wbit w 4
  [z, !z, c, !c, n, !n, v, !v, !c && !z, c || z, n == v, n != v, !z && n == v, z || n != v, true, wbit w 10].getD code false

/-- LBUF_ACT of core c: it fetches from the loop buffer (R277, R293). -/
def State.lbuf (s : State) (c : CoreId) (b : Bool) : State := s.setBit (pipeCtl c).1 (pipeCtl c).2 12 b

/-- A core with S of DIRTY set (R251). -/
def Core.sDirty (k : Core) : Core := { k with dirty := putBit k.dirty 14 true }

/-- The core leaves the loop buffer and goes on at an address (R277). -/
def State.goto (s : State) (c : CoreId) (a : W32) : State := (s.lbuf c false).setCore c { s.core c with pc := a, loopAt := none }

/-- Instruction i raises trap t at its own address; nothing else has happened. -/
def Traps (i : Instr) (c : CoreId) (len : Nat) (u : Uses) (ok : State → Prop) (t : State → Trap) : Prop :=
  ∀ s s1, s.hodIssue c len u = (true, s1) → ok s1 → exec i s = .next ((s1.past c len).takeTrap c (s1.core c).pc (t s1))

/-- XINFO by its fields (R296). -/
def xinfoOf (wview path prev imp xwin cause : Nat) : Word :=
  BitVec.ofNat 16 (wview * 2 ^ 15 + path * 2 ^ 13 + prev * 2 ^ 11 + imp * 2 ^ 10 + xwin * 2 ^ 6 + cause)

/-- The physical registers of L[w] and A[w] are those of one frame of the ring (R247): eight locals, then the parameters. -/
def frameOf (c : CoreId) (w : Nat) : List Nat := ((upto 8).map fun i => localReg w i) ++ ((upto 8).map fun i => argReg (winDown c w) i)

end Sys2Proof.Machine

/-- R253, R257: a branch goes to its target where its condition holds, else on; nothing changes but the pc, the loop
buffer and the count of free values. After SUB or CMP, C is 1 exactly when the first operand is below the second, unsigned. -/
def Obligations.HodBranches : Prop := ∀ (c : CoreId) (cond : BitVec 4) (d6 : BitVec 6) (d16 : Word),
  let br (i : Instr) (len : Nat) (disp : W32) : Prop :=
    Does i c len { flags := cond.toNat < 14 || cond.toNat = 15 } fun s t =>
      let next := (s.core c).pc + BitVec.ofNat 32 len
      let taken := condRule (s.psw c) cond.toNat
      (∃ b l f, (taken = false → b = false ∧ l = none ∧ f = s.fresh) ∧
        t = { (s.lbuf c b).setCore c { s.core c with loopAt := l, pc := if taken then next + disp else next } with fresh := f }) ∨
      (taken = true ∧ s.bit (pipeCtl c).1 (pipeCtl c).2 12 = true ∧ t = s.setCore c { s.core c with pc := next + disp })
  br (.brs c cond d6) 1 (d6.signExtend 32) ∧ br (.br c cond d16) 2 (d16.signExtend 32) ∧
  ∀ rd rs : Reg,
    Does (.sub c rd rs) c 1 { regs := [rd, rs] } (fun s t => wbit (t.psw c) 1 = decide ((s.rg c rd).toNat < (s.rg c rs).toNat)) ∧
    Does (.cmp c rd rs) c 1 { regs := [rd, rs] } (fun s t => wbit (t.psw c) 1 = decide ((s.rg c rd).toNat < (s.rg c rs).toNat))

/-- R260, R300: jumps; calls, which write the return address to a6:a7 and push it. -/
def Sys2Proof.Rules.HodJumps : Prop := ∀ (c : CoreId) (disp : BitVec 26) (p : PairIx),
  Does (.jmp c disp) c 2 {} (fun s t => t = s.goto c ((s.core c).pc + 2 + disp.signExtend 32)) ∧
  Does (.jmpr c p) c 1 { regs := pairRegs p } (fun s t => t = s.goto c (s.pr c p)) ∧
  (∀ s s1 s2 ps, (s1.past c 2).shadowCheck c ((s1.core c).ssp - 2) 2 = (.ok ps, s2) →
    s.hodIssue c 2 { regs := pairRegs 15 } = (true, s1) →
    ∃ a, Ran s2 a c 0 (pairWrite 15 (s2.core c).pc) [] ∧
      exec (.call c disp) s = .next (((a.setCore c { (a.core c).spec fun k => { k with ssp := (s1.core c).ssp - 2 } with
        pc := (s1.core c).pc + 2 + disp.signExtend 32, loopAt := none }).lbuf c false).putWords c
          (List.zip ps [loOf (s2.core c).pc, hiOf (s2.core c).pc]))) ∧
  (∀ s s1 s2 ps, (s1.past c 1).shadowCheck c ((s1.core c).ssp - 2) 2 = (.ok ps, s2) →
    s.hodIssue c 1 { regs := pairRegs 15 ++ pairRegs p } = (true, s1) →
    ∃ a, Ran s2 a c 0 (pairWrite 15 (s2.core c).pc) [] ∧
      exec (.callr c p) s = .next (((a.setCore c { (a.core c).spec fun k => { k with ssp := (s1.core c).ssp - 2 } with
        pc := s1.pr c p, loopAt := none }).lbuf c false).putWords c (List.zip ps [loOf (s2.core c).pc, hiOf (s2.core c).pc])))

/-- R248: WOPEN and WCLOSE move CWP where the window check passes; with AUTO 0 it fails with the window traps; with AUTO 1 the oldest
frame leaves, or the frame to return to enters, the ring. -/
def Obligations.HodWindows : Prop := ∀ (c : CoreId) (s s1 : State),
  let k := s1.core c
  let up := winUp c k.cwp
  let down := winDown c k.cwp
  let f := winUp c k.fence
  k.onBank = false →
  (s.hodIssue c 1 { pregs := (s.core c).spillRegs c } = (true, s1) →
    (up ≠ k.fence → exec (.wopen c) s = .next (s1.setCore c { k with cwp := up, pc := k.pc + 1 }.sDirty)) ∧
    (up = k.fence → k.auto = false →
      exec (.wopen c) s = .next ((s1.past c 1).takeTrap c k.pc { cause := 0x0F, xwin := k.fence })) ∧
    (∀ ps s2, up = k.fence → k.auto = true → (s1.past c 1).checkAll c .store (wordsFrom (k.wsp - 16) 16) = (.ok ps, s2) →
      let s3 := (s2.modSpec c fun x => { x with wsp := k.wsp - 16, fence := f }).putWords c
        (List.zip ps ((frameOf c f).map fun p => (s2.core c).preg p))
      (s3.core c).pc = k.pc + 1 →
      exec (.wopen c) s = .next (s3.modSpec c fun x => { x with cwp := winUp c x.cwp }))) ∧
  (s.hodIssue c 1 { pregs := (s.core c).fillRegs c } = (true, s1) →
    (down ≠ k.fence → exec (.wclose c) s = .next (s1.setCore c { k with cwp := down, pc := k.pc + 1 }.sDirty)) ∧
    (down = k.fence → k.auto = false →
      exec (.wclose c) s = .next ((s1.past c 1).takeTrap c k.pc { cause := 0x10, xwin := winDown c k.fence })) ∧
    (∀ vals s2, down = k.fence → k.auto = true → (s1.past c 1).readAll c .load (wordsFrom k.wsp 16) = (.ok vals, s2) →
      ∃ a, (∀ e ∈ List.zip (frameOf c k.fence) vals, (a.core c).preg e.1 = e.2) ∧
        (∀ q, q ∉ frameOf c k.fence → (a.core c).preg q = (s2.core c).preg q) ∧
        a = s2.setCore c { s2.core c with
          regs := (a.core c).regs
          dirty := (List.zip (frameOf c k.fence) vals).foldl (fun d e => dirtyOn d e.1) (s2.core c).dirty } ∧
        exec (.wclose c) s = .next (a.modSpec c fun x => { x with wsp := x.wsp + 16, fence := winDown c x.fence, cwp := down })))

/-- R260, R300, R301: RET and RETL compare their target with the top of the shadow stack; where it is the same they pop it and jump,
RET in the window below (here resident); where it differs they raise the control-flow fault with the target as fault address. -/
def Sys2Proof.Rules.HodReturns : Prop := ∀ (c : CoreId) (s s1 s2 : State) (lo hi : Word),
  (s1.past c 1).shadowRead c (s1.core c).ssp 2 = (.ok [lo, hi], s2) →
  let k := s2.core c
  (s1.core c).onBank = false → s.hodIssue c 1 { regs := pairRegs 7, pregs := (s.core c).fillRegs c } = (true, s1) →
    (w32of hi lo = s1.pr c 7 → winDown c k.cwp ≠ k.fence →
      exec (.ret c) s = .next ((s2.lbuf c false).setCore c
        { k with cwp := winDown c k.cwp, ssp := k.ssp + 2, pc := s1.pr c 7, loopAt := none }.sDirty)) ∧
    (w32of hi lo ≠ s1.pr c 7 → exec (.ret c) s = .next (s2.takeTrap c (s1.core c).pc { cause := 0x0B, xaddr := s1.pr c 7 }))

/-- See HodReturns; RETL leaves the window. -/
def Sys2Proof.Rules.HodLeafReturns : Prop := ∀ (c : CoreId) (s s1 s2 : State) (lo hi : Word),
  (s1.past c 1).shadowRead c (s1.core c).ssp 2 = (.ok [lo, hi], s2) → s.hodIssue c 1 { regs := pairRegs 15 } = (true, s1) →
  let k := s2.core c
  (w32of hi lo = s1.pr c 15 →
    exec (.retl c) s = .next ((s2.lbuf c false).setCore c { k with ssp := k.ssp + 2, pc := s1.pr c 15, loopAt := none }.sDirty)) ∧
  (w32of hi lo ≠ s1.pr c 15 → exec (.retl c) s = .next (s2.takeTrap c (s1.core c).pc { cause := 0x0B, xaddr := s1.pr c 15 }))

/-- R297, R298: the call through gate n, whose entry e is valid and may be called, whose window check and arguments have passed (s3) and
whose frame can be pushed (s4). -/
def Sys2Proof.Rules.HodGate : Prop := ∀ (c : CoreId) (n : BitVec 10) (s s1 s2 s3 s4 : State) (e : List Word) (ps : List Nat),
  s.hodIssue c 1 { flags := true } = (true, s1) → (s1.core c).onBank = false →
  (s1.past c 1).gateEntry c n.toNat = (some e, s2) →
  (¬ (entryValid e = true ∧ entryKind e = 1) ∨ entryMin e < s2.level c →
    exec (.gate c n) s = .next (s2.takeTrap c (s1.core c).pc { cause := 0x0D })) ∧
  (entryValid e = true → entryKind e = 1 → s2.level c ≤ entryMin e → winUp c (s2.core c).cwp ≠ (s2.core c).fence →
    s2.gateArgs c e = (none, s3) → s3.shadowCheck c ((s3.core c).ssp - 8) 8 = (.ok ps, s4) →
    let k := s4.core c
    let d := if entrySp e = 0 then putBit k.dirty 14 true else putBit (putBit k.dirty 14 true) 15 true
    ∃ g, (entrySp e ≠ 0 → Tab.get 0 g 6 = hiOf (entrySp e) ∧ Tab.get 0 g 7 = loOf (entrySp e)) ∧
      (∀ q, entrySp e = 0 ∨ (q ≠ 6 ∧ q ≠ 7) → Tab.get 0 g q = k.preg q) ∧
      exec (.gate c n) s = .next (((s4.lbuf c false).setCore c { k with
          regs := g, dirty := d, cwp := winUp c k.cwp, ssp := (s3.core c).ssp - 8, pc := entryTgt e, loopAt := none
          psw := putFld k.psw 15 14 (min (entryLvl e) (s2.level c)) }).putWords c
        (List.zip ps [loOf k.pc, hiOf k.pc, k.preg 7, k.preg 6, k.psw, BitVec.ofNat 16 n.toNat, 0x6A7E, 0])))

/-- R299: GRET with a gate frame at SSP whose level is no more privileged, back into a resident window. -/
def Sys2Proof.Rules.HodGret : Prop := ∀ (c : CoreId) (s s1 s2 : State) (w : List Word),
  s.hodIssue c 1 { pregs := [6, 7] ++ (s.core c).fillRegs c } = (true, s1) → (s1.core c).onBank = false →
  (s1.past c 1).shadowRead c (s1.core c).ssp 8 = (.ok w, s2) →
  let k := s2.core c
  let f := w.getD 4 0
  (w.getD 6 0 ≠ 0x6A7E ∨ wfld f 15 14 < s2.level c →
    exec (.gret c) s = .next (s2.takeTrap c (s1.core c).pc { cause := 0x0B, xaddr := w32of (w.getD 1 0) (w.getD 0 0) })) ∧
  (w.getD 6 0 = 0x6A7E → s2.level c ≤ wfld f 15 14 → wfld f 15 14 ≠ 3 → winDown c k.cwp ≠ k.fence →
    ∃ g, Tab.get 0 g 6 = w.getD 3 0 ∧ Tab.get 0 g 7 = w.getD 2 0 ∧ (∀ q, q ≠ 6 → q ≠ 7 → Tab.get 0 g q = k.preg q) ∧
      exec (.gret c) s = .next ((s2.lbuf c false).setCore c { k with
        regs := g, dirty := putBit (putBit k.dirty 14 true) 15 true, cwp := winDown c k.cwp, ssp := k.ssp + 8, pc := w32of (w.getD 1 0) (w.getD 0 0), loopAt := none
        psw := putBit (putBit (putFld k.psw 15 14 (wfld f 15 14)) 13 (wbit f 13)) 11 (wbit f 11) }))

/-- R295, R296, R302, R303: an exception of the instruction at pc on the free bank SB1, its vector entry being valid: XPC, XPSW, XADDR and XINFO
are saved, PSW is the vector's level alone, and the core runs at the vector's target; no register and no memory is written. -/
def Sys2Proof.Rules.TrapEntry : Prop := ∀ (s s2 : State) (c : CoreId) (pc : W32) (t : Trap) (e : List Word),
  (s.core c).longOp = none → (s.core c).arithDue = none → (s.core c).sb1Busy = false → t.cause < 64 → t.xwin < 16 →
  let s1 := (s.lbuf c false).setCore c { s.core c with loopAt := none, pc := if t.after then (s.core c).pc else pc }
  s1.gateEntry c t.cause = (some e, s2) →
  let k := s2.core c
  (entryValid e = true → entryKind e = 2 →
    s.takeTrap c pc t = s2.setCore c { k with
      path := .sb1, sb1Busy := true, run := .running, pc := entryTgt e, psw := BitVec.ofNat 16 (entryLvl e * 2 ^ 14)
      x1 := { xpc := (if t.after then (s.core c).pc else pc), xpsw := k.psw, xaddr := t.xaddr
              xinfo := xinfoOf (b2n (t.cause = 0x0F ∨ t.cause = 0x10)) 1 (pathCode k.path) 0 t.xwin t.cause }
      dirty := if BitVec.ofNat 16 (entryLvl e * 2 ^ 14) = k.psw then k.dirty else putBit k.dirty 14 true }) ∧
  (¬ (entryValid e = true ∧ entryKind e = 2) →
    let r := s.takeTrap c pc t
    (r.core c).run = .locked ∧ (r.core c).regs = k.regs ∧ r.reg (dfReg c).1 (dfReg c).2 = BitVec.ofNat 16 (5 * 256 + t.cause) ∧
      r.bit .FHINT_LOCK 0 c.val = true)

/-- R302, R303, R308: the interrupt that is due at an instruction boundary is taken on its bank, if that is free. -/
def Sys2Proof.Rules.InterruptEntry : Prop := ∀ (s s2 : State) (c : CoreId) (src lvl : Nat) (e : List Word),
  (s.core c).run = .running → (s.core c).loadWait = none → (s.core c).arithDue = none → s.dueInt c = some (src, lvl) →
  lvl = 1 ∧ (s.core c).sb1Busy = false ∨ lvl = 2 ∧ (s.core c).sb2Busy = false →
  ((s.lbuf c false).setCore c { s.core c with loopAt := none }).gateEntry c (0x20 + src) = (some e, s2) →
  entryValid e = true → entryKind e = 2 →
  let k := s2.core c
  let x : XRegs := { xpc := (s.core c).pc, xpsw := k.psw, xaddr := 0, xinfo := xinfoOf 0 lvl (pathCode k.path) 0 0 (0x20 + src) }
  let w : Word := BitVec.ofNat 16 (entryLvl e * 2 ^ 14)
  let d := if w = k.psw then k.dirty else putBit k.dirty 14 true
  exec (.interruptEntry c) s = .next (s2.setCore c (if lvl = 1 then
      { k with path := .sb1, sb1Busy := true, run := .running, pc := entryTgt e, psw := w, x1 := x, dirty := d }
    else { k with path := .sb2, sb2Busy := true, run := .running, pc := entryTgt e, psw := w, x2 := x, dirty := d }))

/-- R302: the source that an instruction boundary takes is pending, its level is above that of the running path, no pending source has
a higher level, and of those of its level it has the lowest number. -/
def Obligations.InterruptChoice : Prop := ∀ (s : State) (c : CoreId) (src lvl : Nat),
  s.dueInt c = some (src, lvl) →
  src < 12 ∧ wbit (s.pendBits c) src = true ∧ s.srcLevel c src = lvl ∧ pathCode (s.core c).path < lvl ∧
  ∀ i < 12, wbit (s.pendBits c) i = true → pathCode (s.core c).path < s.srcLevel c i →
    s.srcLevel c i < lvl ∨ (s.srcLevel c i = lvl ∧ src ≤ i)

/-- R280, R281, R308: a pending arithmetic exception of the running path is taken at an instruction boundary; it is imprecise unless
STRICT is 1, and its fault address is that of the long operation. -/
def Sys2Proof.Rules.ArithmeticEntry : Prop := ∀ (s s2 : State) (c : CoreId) (a : ArithPend) (e : List Word),
  (s.core c).run = .running → (s.core c).loadWait = none → (s.core c).arithDue = some a → (s.core c).sb1Busy = false → a.cause < 64 →
  ((s.lbuf c false).setCore c { s.core c with loopAt := none, arith := (s.core c).arith.erase a }).gateEntry c a.cause = (some e, s2) →
  entryValid e = true → entryKind e = 2 → a.cause ≠ 0x0F → a.cause ≠ 0x10 →
  let k := s2.core c
  let w : Word := BitVec.ofNat 16 (entryLvl e * 2 ^ 14)
  exec (.arithmeticException c) s = .next (s2.setCore c { k with
    path := .sb1, sb1Busy := true, run := .running, pc := entryTgt e, psw := w
    x1 := { xpc := (s.core c).pc, xpsw := k.psw, xaddr := a.addr
            xinfo := xinfoOf 0 1 (pathCode k.path) (b2n (!wbit (s.psw c) 13)) 0 a.cause }
    dirty := if w = k.psw then k.dirty else putBit k.dirty 14 true })

/-- R303, R305: RFI from a bank restores pc, PSW and path and frees the bank; a level-S return to level M, an RFI at level U and an RFI on
the task path trap. -/
def Sys2Proof.Rules.HodRfi : Prop := ∀ (c : CoreId) (s s1 : State), s.hodIssue c 1 { all := (s.core c).path = .tsb } = (true, s1) →
  let k := s1.core c
  let back (x : XRegs) (f : Core → Core) : State := s1.goto c (x.xpc) |>.modCore c fun n =>
    f { n with path := pathOf (wfld x.xinfo 12 11), psw := x.xpsw
               dirty := (if x.xpsw = k.psw then k.dirty else putBit k.dirty 14 true)
               longOp := k.longOp.map fun o => if o.path = k.path then { o with mask := 0 } else o }
  (k.path = .sb1 → s1.level c ≠ 2 → ¬ (s1.level c = 1 ∧ wfld k.x1.xpsw 15 14 = 0) →
    exec (.rfi c) s = .next (back k.x1 fun n => { n with sb1Busy := false })) ∧
  (k.path = .sb2 → s1.level c ≠ 2 → ¬ (s1.level c = 1 ∧ wfld k.x2.xpsw 15 14 = 0) →
    exec (.rfi c) s = .next (back k.x2 fun n => { n with sb2Busy := false })) ∧
  (k.path = .task → exec (.rfi c) s = .next ((s1.past c 1).takeTrap c k.pc { cause := 1 })) ∧
  (k.path ≠ .task → s1.level c = 2 → exec (.rfi c) s = .next ((s1.past c 1).takeTrap c k.pc { cause := 2 })) ∧
  (k.path = .sb1 → s1.level c = 1 → wfld k.x1.xpsw 15 14 = 0 →
    exec (.rfi c) s = .next ((s1.past c 1).takeTrap c k.pc { cause := 2 }))

/-- Rules.HodJumps; Rules.HodReturns; Rules.HodLeafReturns. -/
def Obligations.HodTransfers : Prop :=
  Sys2Proof.Rules.HodJumps ∧ Sys2Proof.Rules.HodReturns ∧ Sys2Proof.Rules.HodLeafReturns

/-- Rules.HodGate; Rules.HodGret. -/
def Obligations.HodGates : Prop :=
  Sys2Proof.Rules.HodGate ∧ Sys2Proof.Rules.HodGret

/-- Rules.TrapEntry; Rules.HodRfi. -/
def Obligations.TrapsAndReturn : Prop :=
  Sys2Proof.Rules.TrapEntry ∧ Sys2Proof.Rules.HodRfi

/-- Rules.InterruptEntry; Rules.ArithmeticEntry. -/
def Obligations.Interrupts : Prop :=
  Sys2Proof.Rules.InterruptEntry ∧ Sys2Proof.Rules.ArithmeticEntry

namespace Sys2Proof.Machine

/-- Special register n of a core (R250, R251, R295): the exception registers are those of the running path, 0 on the task path. -/
def specialRule (k : Core) (c : CoreId) (n : Nat) : W32 :=
  let x : XRegs := match k.path with
    | .task => {}
    | .sb1 => k.x1
    | .sb2 => k.x2
    | .tsb => k.xt
  let w (v : Word) : W32 := v.zeroExtend 32
  [w k.psw, BitVec.ofNat 32 k.cwp, BitVec.ofNat 32 (b2n k.auto * 32768 + k.fence % 32768), w k.dirty, w k.repLeft, w k.multiProg,
    if c.val < 8 then BitVec.ofNat 32 c.val else BitVec.ofNat 32 (32768 + (c.val - 8)),
    k.wsp, k.ssp, k.tsb, k.gtb, k.ctxp, x.xpc, w x.xpsw, x.xaddr, w x.xinfo].getD n 0

/-- The words of an address range, by offset. -/
def offsets (a : W32) (l : List Nat) : List W32 := l.map fun i => a + BitVec.ofNat 32 i

/-- The words 4 to 23 of a context's lower area (R269), with PSW as the context holds it. -/
def lowerOf (k : Core) (psw : Word) : List Word :=
  [k.preg 1, k.preg 2, k.preg 3, k.preg 4, k.preg 5, k.preg 6, k.preg 7, psw, BitVec.ofNat 16 k.cwp,
    BitVec.ofNat 16 (b2n k.auto * 32768 + k.fence), k.repLeft, k.multiProg, loOf k.ssp, hiOf k.ssp, loOf k.tsb, hiOf k.tsb,
    loOf k.gtb, hiOf k.gtb, loOf k.wsp, hiOf k.wsp]

end Sys2Proof.Machine

/-- R250, R254, R295: MFS reads the special register of the table; a wide one needs an even register, and a number above 15 is illegal. -/
def Sys2Proof.Rules.HodMfs : Prop := ∀ (c : CoreId) (rd : Reg) (d : PairIx) (n : BitVec 5),
  (n.toNat < 16 → specWide n.toNat = false →
    Gives (.mfs c rd n) c 1 { regs := [rd], flags := n = 0 || n = 13 } rd (fun s => (loOf (specialRule (s.core c) c n.toNat), []))) ∧
  (specWide n.toNat = true → Does (.mfs c (evenReg d) n) c 1 { regs := pairRegs d } fun s t =>
    Ran s t c 1 (pairWrite d (specialRule (s.core c) c n.toNat)) []) ∧
  (16 ≤ n.toNat ∨ (specWide n.toNat = true ∧ rd.getLsbD 0 = true) →
    Traps (.mfs c rd n) c 1 { regs := if specWide n.toNat then pairRegs (pairAt rd) else [rd], flags := n = 0 || n = 13 } (fun _ => True)
      fun _ => { cause := 1 })

/-- R250, R251, R252, R275: MTS of a value v writes the special register's writable fields at a level the table allows; at another it
is a privilege fault. D and DZ of PSW it can only clear; flags that a long operation in flight was to write it takes over. A write of
COREID is ignored. -/
def Sys2Proof.Rules.HodMts : Prop := ∀ (c : CoreId) (rs : Reg) (d : PairIx),
  let narrow (n : BitVec 5) (ok : State → Prop) (f : Word → Core → Core) : Prop :=
    ∀ s s1, s.hodIssue c 1 { regs := [rs] } = (true, s1) → ok s1 →
      exec (.mts c n rs) s = .next (s1.setCore c (f (s1.rg c rs) { s1.core c with pc := (s1.core c).pc + 1 }))
  let wide (n : BitVec 5) (ok : State → Prop) (f : W32 → Core → Core) : Prop :=
    ∀ s s1, s.hodIssue c 1 { regs := pairRegs d } = (true, s1) → ok s1 →
      exec (.mts c n (evenReg d)) s = .next (s1.setCore c (f (s1.pr c d) { s1.core c with pc := (s1.core c).pc + 1 }))
  let ms (s : State) : Prop := s.level c ≤ 1
  let m (s : State) : Prop := s.level c = 0
  let all (_ : State) : Prop := True
  let dirt (k' k : Core) : Core := if k' = k then k else k'.sDirty
  narrow 0 all (fun v k =>
    let w := v &&& 0xFFFE &&& ~~~(~~~k.psw &&& 0x0300)
    let psw := if wfld k.psw 15 14 ≠ 0 then putFld w 15 14 (wfld k.psw 15 14) else if wfld v 15 14 = 3 then putFld w 15 14 0 else w
    { k with
      psw := psw, dirty := if psw = k.psw then k.dirty else putBit k.dirty 14 true
      longOp := k.longOp.map fun o => if o.path = k.path then { o with mask := o.mask &&& v &&& 0x0300 } else o }) ∧
  narrow 1 ms (fun v k => if wfld v 3 0 < nwin c then dirt { k with cwp := wfld v 3 0 } k else k) ∧
  narrow 2 ms (fun v k => dirt { k with auto := wbit v 15, fence := if wfld v 3 0 < nwin c then wfld v 3 0 else k.fence } k) ∧
  narrow 3 ms (fun v k => { k with dirty := v &&& (if c.val < 8 then 0xCFFF else 0xC0FF) }) ∧
  narrow 4 all (fun v k => dirt { k with repLeft := v } k) ∧
  narrow 5 all (fun v k => dirt { k with multiProg := v &&& 0x800F } k) ∧
  narrow 6 all (fun _ k => k) ∧
  wide 7 ms (fun v k => dirt { k with wsp := v } k) ∧ wide 8 m (fun v k => dirt { k with ssp := v } k) ∧
  wide 9 m (fun v k => dirt { k with tsb := v } k) ∧ wide 10 m (fun v k => dirt { k with gtb := v } k) ∧
  wide 11 ms (fun v k => { k with ctxp := v, dirty := if c.val < 8 then 0xCFFF else 0xC0FF }) ∧
  (∀ n : BitVec 5, n.toNat < 16 → specWide n.toNat = false →
    Traps (.mts c n rs) c 1 { regs := [rs] }
      (fun s => (n.toNat = 1 ∨ n.toNat = 2 ∨ n.toNat = 3 ∨ n.toNat = 13 ∨ n.toNat = 15) ∧ s.level c = 2) fun _ => { cause := 2 }) ∧
  (∀ n : BitVec 5, specWide n.toNat = true →
    Traps (.mts c n (evenReg d)) c 1 { regs := pairRegs d }
      (fun s => (n.toNat = 8 ∨ n.toNat = 9 ∨ n.toNat = 10) ∧ s.level c ≠ 0 ∨ s.level c = 2) fun _ => { cause := 2 })

/-- R269: CTXS 0 writes SAVED, word 3 and each dirty group of the lower area at CTXP, when all of them may be written, and clears the two
DIRTY bits. -/
def Sys2Proof.Rules.HodCtxs : Prop := ∀ (c : CoreId) (s s1 s2 : State) (ps : List Nat),
  s.hodIssue c 1 { pregs := (upto 7).map fun i => 1 + i, flags := true } = (true, s1) → s1.level c ≤ 1 →
  let k := s1.core c
  let g := if wbit k.dirty 15 then List.range' 4 7 else []
  let x := if wbit k.dirty 14 then List.range' 11 13 else []
  let psw := match k.path with
    | .sb1 => k.x1.xpsw
    | .sb2 => k.x2.xpsw
    | .task | .tsb => k.psw
  (s1.past c 1).checkAll c .store (offsets k.ctxp ([2, 3] ++ g ++ x)) = (.ok ps, s2) →
  exec (.ctxs c 0 false) s = .next ((s2.setCore c { s2.core c with dirty := (s2.core c).dirty &&& 0x3FFF }).putWords c
    (List.zip ps ([k.dirty &&& 0xC000, 0] ++ (g ++ x).map fun i => (lowerOf k psw).getD (i - 4) 0)))

/-- R269: CTXS 1 writes each dirty window to the upper area at LINK and clears DIRTY.W ; whether it writes SAVED too is left open by the
rule and is a free value (log entry 80). -/
def Sys2Proof.Rules.HodCtxsUpper : Prop := ∀ (c : CoreId) (s s1 s2 s3 : State) (link : W32) (ps : List Nat),
  s.hodIssue c 1 { pregs := (upto (nwin c)).flatMap windowRegs } = (true, s1) → s1.level c ≤ 1 →
  (s1.past c 1).linkWord c = (.ok link, s2) →
  let k := s2.core c
  let saves := Config.freeBit s2.fresh
  let d := k.dirty &&& BitVec.ofNat 16 (2 ^ nwin c - 1)
  let ws := (upto (nwin c)).filter fun w => wbit k.dirty w
  { s2 with fresh := s2.fresh + 1 }.checkAll c .store ((if saves then [k.ctxp + 2] else []) ++ ws.flatMap fun w => offsets link (List.range' (16 * w) 16)) = (.ok ps, s3) →
  exec (.ctxs c 0 true) s = .next ((s3.setCore c { s3.core c with
      dirty := (s3.core c).dirty &&& ~~~d }).putWords c
    (List.zip ps ((if saves then [d] else []) ++ ws.flatMap fun w => (upto 16).map fun i => k.preg (16 + 16 * w + i))))

/-- R269: CTXL 0 loads groups G and S from words 4 to 23 of the area at ps, sets CTXP and clears DIRTY.G and DIRTY.S; CTXL 1 loads every
window from LINK. A level-S load of level M traps. -/
def Sys2Proof.Rules.HodCtxl : Prop := ∀ (c : CoreId) (p : PairIx) (s s1 s2 : State) (w : List Word),
  (s.hodIssue c 1 { regs := pairRegs p, pregs := (upto 7).map fun i => 1 + i } = (true, s1) → s1.level c ≤ 1 →
    (s1.past c 1).readAll c .load (offsets (s1.pr c p + 4) (upto 20)) = (.ok w, s2) → s2.level c = s1.level c →
    (s1.level c = 1 → wfld (w.getD 7 0) 15 14 = 0 → exec (.ctxl c p false) s = .next (s2.takeTrap c (s1.core c).pc { cause := 2 })) ∧
    (¬ (s1.level c = 1 ∧ wfld (w.getD 7 0) 15 14 = 0) → wfld (w.getD 7 0) 15 14 ≠ 3 → (s2.core c).onBank = false →
      wfld (w.getD 8 0) 3 0 < nwin c → wfld (w.getD 9 0) 3 0 < nwin c →
      ∃ t, exec (.ctxl c p false) s = .next t ∧ (∀ i < 7, (t.core c).preg (1 + i) = w.getD i 0) ∧
        (∀ q, (q < 1 ∨ 7 < q) → (t.core c).preg q = (s2.core c).preg q) ∧
        t = s2.setCore c { s2.core c with
          regs := (t.core c).regs, psw := w.getD 7 0 &&& 0xFFFE, cwp := wfld (w.getD 8 0) 3 0
          auto := wbit (w.getD 9 0) 15, fence := wfld (w.getD 9 0) 3 0, repLeft := w.getD 10 0, multiProg := w.getD 11 0 &&& 0x800F
          ssp := w32of (w.getD 13 0) (w.getD 12 0), tsb := w32of (w.getD 15 0) (w.getD 14 0)
          gtb := w32of (w.getD 17 0) (w.getD 16 0), wsp := w32of (w.getD 19 0) (w.getD 18 0)
          ctxp := s1.pr c p, dirty := (s2.core c).dirty &&& 0x3FFF
          longOp := (s2.core c).longOp.map fun o => if o.path = (s2.core c).path then { o with mask := 0 } else o })) ∧
  (∀ link s3, s.hodIssue c 1 { pregs := (upto (nwin c)).flatMap windowRegs } = (true, s1) → s1.level c ≤ 1 →
    (s1.past c 1).linkWord c = (.ok link, s2) → s2.readAll c .load (offsets link (upto (16 * nwin c))) = (.ok w, s3) →
    w.length = 16 * nwin c →
    ∃ t, exec (.ctxl c 0 true) s = .next t ∧ (∀ i, i < 16 * nwin c → (t.core c).preg (16 + i) = w.getD i 0) ∧
      (∀ q, (q < 16 ∨ 16 + 16 * nwin c ≤ q) → (t.core c).preg q = (s3.core c).preg q) ∧
      t = s3.setCore c { s3.core c with regs := (t.core c).regs, dirty := (s3.core c).dirty &&& 0xC000 })

/-- R282, R289, R290, R305: BARRIER and ICINV drain the store buffer, and ICINV invalidates the instruction cache lines that hold any of
its words (an address whose page has no translation names none); ISYNC takes over the translation for fetches; WFI waits behind itself. -/
def Sys2Proof.Rules.HodBarriers : Prop := ∀ (c : CoreId) (p : PairIx) (rc : Reg),
  Does (.barrier c) c 1 { all := true } (fun s t => t = (s.past c 1).drainAll c ∧ ((s.core c).storeBuf = [] → t = s.past c 1)) ∧
  Does (.icinv c p rc) c 2 { regs := rc :: pairRegs p } (fun s t =>
    let a := State.drainAll ((s.lbuf c false).setCore c { s.core c with pc := (s.core c).pc + 2, loopAt := none }) c
    let va := (a.pr c p).toNat
    let n := if s.rg c rc = 0 then 65536 else (s.rg c rc).toNat
    t = a.setCore c { a.core c with icLines := (t.core c).icLines } ∧
    ∀ l, l ∈ (t.core c).icLines ↔ l ∈ (a.core c).icLines ∧
      ¬ ∃ j, va / 32 ≤ j ∧ j ≤ (va + n - 1) / 32 ∧ a.icPlace c (32 * j % 2 ^ 32) = some l) ∧
  Does (.isync c) c 1 { all := true } (fun s t => t = (s.lbuf c false).setCore c { s.core c with
    pc := (s.core c).pc + 1, loopAt := none, fetchCtl := s.xlatCtl c, fetchAtb := BitVec.ofNat 32 (s.xlatAtb (coreDie c)) }) ∧
  (∀ s s1, s.hodIssue c 1 {} = (true, s1) → s1.level c ≤ 1 →
    exec (.wfi c) s = .next (s1.setCore c { s1.core c with pc := (s1.core c).pc + 1, run := .waitInt })) ∧
  Traps (.wfi c) c 1 {} (fun s => s.level c = 2) (fun _ => { cause := 2 })

/-- Rules.HodMfs; Rules.HodMts. -/
def Obligations.HodSpecials : Prop :=
  Sys2Proof.Rules.HodMfs ∧ Sys2Proof.Rules.HodMts

/-- Rules.HodCtxs; Rules.HodCtxsUpper; Rules.HodCtxl. -/
def Obligations.HodContexts : Prop :=
  Sys2Proof.Rules.HodCtxs ∧ Sys2Proof.Rules.HodCtxsUpper ∧ Sys2Proof.Rules.HodCtxl

namespace Sys2Proof.Machine

/-- Elements 0 to n − 1 of REP of instruction i complete one after another, from u 0 to u n: core c runs on at the same pc, and no
interrupt is due between two of them. -/
def Elements (c : CoreId) (i : RepInstr) (u : Nat → State) (n : Nat) : Prop :=
  ∀ j < n, (u j).repElem c i = (none, u (j + 1)) ∧ ((u (j + 1)).core c).run = .running ∧ ((u (j + 1)).core c).pc = ((u j).core c).pc ∧
    (0 < j → (u j).dueInt c = none)

/-- The instruction that one element of a REP is, with I = 1. -/
def aloneOf (i : RepInstr) (c : CoreId) : Option (Instr × Uses) :=
  let us (r : Reg) (p : PairIx) : Uses := { regs := r :: pairRegs p }
  let vs (d p : PairIx) : Uses := { regs := pairRegs d ++ pairRegs p }
  match i with
  | .st r p => some (.st c r p true, us r p)
  | .stp r p => some (.stp c r p true, vs (pairAt r) p)
  | .movm d p => some (.movm c d p, vs d p)
  | .daddm d p => some (.daddm c d p, { vs d p with flags := true })
  | .dsubm d p => some (.dsubm c d p, { vs d p with flags := true })
  | .crcm16 r p => some (.crcm16 c r p, us r p)
  | .crcm32 r p => some (.crcm32 c r p, vs (pairAt r) p)
  | .ld _ _ | .ldp _ _ | .other => none

/-- REPLEFT and PSW.RP where a REP is broken off with n elements left. -/
def Core.repAt (k : Core) (n : Nat) : Core := k.spec fun k => { k with repLeft := BitVec.ofNat 16 n, psw := putBit k.psw 12 true }

/-- MULTI_PROG where a transfer is broken off at mask bit i. -/
def Core.progAt (k : Core) (i : Nat) : Core := k.spec fun k => { k with multiProg := BitVec.ofNat 16 (32768 + i) }

/-- The mask bits that an STM or LDM transfers from bit `start` on, and register and address of one (R268). -/
def multiBits (mask : Word) (start : Nat) : List Nat := (upto 16).filter fun i => wbit mask i && decide (start ≤ i)
/-- See multiBits. -/
def multiReg (half : Bool) (i : Nat) : Reg := if half then BitVec.ofNat 5 (16 + i) else BitVec.ofNat 5 i
/-- See multiBits. -/
def multiAddr (a : W32) (mask : Word) (i : Nat) : W32 := a + BitVec.ofNat 32 (((upto i).filter fun j => wbit mask j).length)

/-- What an STM or LDM ends with once its words are transferred: MULTI_PROG.VALID 0; with U = 1 the pair advances by the bits set. -/
def multiEnd (s t : State) (c : CoreId) (p : PairIx) (u : Bool) (mask : Word) : Prop :=
  let a := s.setCore c ((s.core c).spec fun k => { k with multiProg := putBit k.multiProg 15 false })
  Ran a t c 0 (if u then pairWrite p (a.pr c p + BitVec.ofNat 32 (multiBits mask 0).length) else []) []

/-- A leaf that a TLBI request removes (R324). -/
def removed (scope : BitVec 2) (va : W32) (asid : Byte) (l : Leaf) : Prop :=
  let glob := l.ident = false ∧ wbit l.flags 7 = true
  (scope = 0 ∧ l.vbase ≤ va.toNat ∧ va.toNat < l.vbase + l.size ∧ (l.asid = asid ∨ glob)) ∨
  (scope = 1 ∧ ¬ glob ∧ l.asid = asid) ∨ (scope = 2 ∧ ¬ glob) ∨ scope = 3

/-- From s to t core c's TLB loses what a request removes; a locked slot removed clears VALID and sets LOST (R324). -/
def Invalidated (s t : State) (c : CoreId) (scope : BitVec 2) (va : W32) (asid : Byte) : Prop :=
  let k := s.core c
  let (reg, i) : RegKind × Nat := if c.val < 8 then (.XLAT_LKVALID, c.val) else (.FXLAT_LKVALID, c.val - 8)
  (∀ l, l ∈ (t.core c).tlb ↔ l ∈ k.tlb ∧ ¬ removed scope va asid l) ∧
  (∀ e, e ∈ (t.core c).locked ↔ e ∈ k.locked ∧ ∃ l, e.2 = some l ∧ ¬ removed scope va asid l) ∧
  (∀ b < 8,
    let lost := ∃ l, Tab.get none k.locked b = some l ∧ removed scope va asid l
    (lost → t.bit reg i b = false ∧ t.bit reg i (8 + b) = true) ∧
    (¬ lost → t.bit reg i b = s.bit reg i b ∧ t.bit reg i (8 + b) = s.bit reg i (8 + b))) ∧
  (∀ d a, a ≠ reg.addr i → Tab.get d t.regs a = Tab.get d s.regs a) ∧
  t = { s with regs := t.regs }.setCore c { k with tlb := (t.core c).tlb, locked := (t.core c).locked }

/-- What VWAIT on a ticket returns, none while its brick has not ended (R87). -/
def waitRule (s : State) (t : Word) : Option Word :=
  let q := s.queue (t.toNat / 4096)
  if s.bit .SYS_STAT 0 14 = false ∨ t.toNat / 1024 % 4 ≠ s.epoch.toNat then some 0x00FF
  else if q.entries.any (fun b => b.ticket = t && !b.joint) then none
  else some (((q.ended.find? fun e => e.1 = some t).map fun e => e.2).getD 0x80FE)

end Sys2Proof.Machine

/-- R266, R267: REP runs its elements in order, each being the instruction alone; broken off between two of them it leaves the rest in
REPLEFT with RP 1 and stays at its address; resumed with RP 1 it takes the count from REPLEFT. -/
def Sys2Proof.Rules.HodRep : Prop := ∀ (c : CoreId) (rs : Reg) (i : RepInstr) (stop : Option Nat) (s s1 : State) (u : Nat → State) (n m : Nat),
  s.hodIssue c 2 { regs := rs :: repRegs i, flags := repFlags i } = (true, s1) →
  let rp := wbit (s1.psw c) 12
  (repAllowed i = false → exec (.rep c rs i stop) s = .next ((s1.past c 2).takeTrap c (s1.core c).pc { cause := 1 })) ∧
  (repAllowed i = true →
    n = (if rp then (s1.core c).repLeft.toNat else (s1.rg c rs).toNat) →
    (rp = false → u 0 = s1.past c 2) →
    (rp = true → u 0 = (s1.past c 2).setCore c (((s1.past c 2).core c).spec fun k => { k with psw := putBit k.psw 12 false })) →
    (Elements c i u n → (∀ j, stop = some j → j = 0 ∨ n ≤ j) → exec (.rep c rs i stop) s = .next (u n)) ∧
    (Elements c i u m → 0 < m → m < n → (∀ j, stop = some j → j = 0 ∨ m ≤ j) → (stop = some m ∨ (u m).dueInt c ≠ none) →
      exec (.rep c rs i stop) s =
        .next ((u m).setCore c { ((u m).core c).repAt (n - m) with pc := ((u m).core c).pc - 2 }))) ∧
  (∀ e v a b, aloneOf i c = some (e, v) → repAllowed i = true → a.hodIssue c 1 v = (true, b) →
    ∀ t, (b.past c 1).repElem c i = (none, t) → exec e a = .next t)

/-- R268, R292: STM and LDM transfer the registers of their mask in bit order, all of them or up to a break between two, after which MULTI_PROG
names the next bit; the words of registers that hold the address are no part of this statement. -/
def Sys2Proof.Rules.HodMulti : Prop := ∀ (c : CoreId) (p : PairIx) (half up : Bool) (mask : Word) (stop : Option Nat) (s s1 : State)
    (u v : Nat → State) (pa : Nat → Nat) (w : Nat → Word) (m : Nat),
  s.hodIssue c 2 { regs := pairRegs p ++ (multiBits mask 0).map (multiReg half) } = (true, s1) →
  let l := multiBits mask (if wbit (s1.core c).multiProg 15 then wfld (s1.core c).multiProg 3 0 else 0)
  let bit (j : Nat) : Nat := l.getD j 0
  let reg (j : Nat) : Reg := multiReg half (bit j)
  let open' (n : Nat) : Prop := (∀ j, stop = some j → j = 0 ∨ n ≤ j) ∧ ∀ j < n, 0 < j → (u j).dueInt c = none
  let broken (t : State) : State := t.setCore c { (t.core c).progAt (bit m) with pc := (t.core c).pc - 2 }
  let stores (n : Nat) : Prop := ∀ j < n, (u j).storeCheck c .store (multiAddr ((u j).pr c p) mask (bit j)) = (.ok (pa j, false), v j) ∧
    ((v j).core c).storeBuf.length < 8 ∧ u (j + 1) = (v j).buffered c [(pa j, (v j).rg c (reg j))]
  let loads (n : Nat) : Prop := ∀ j < n, (u j).load1 c (multiAddr ((u j).pr c p) mask (bit j)) = (.ok (w j), v j) ∧
    u (j + 1) = (v j).wr c (reg j) (w j)
  u 0 = s1.past c 2 →
  (stores l.length → open' l.length → ∃ t, exec (.stm c p half up mask stop) s = .next t ∧ multiEnd (u l.length) t c p up mask) ∧
  (stores m → open' m → 0 < m → m < l.length → (stop = some m ∨ (u m).dueInt c ≠ none) →
    exec (.stm c p half up mask stop) s = .next (broken (u m))) ∧
  ((∀ i ∈ multiBits mask 0, multiReg half i ∉ pairRegs p) →
    (loads l.length → open' l.length → ∃ t, exec (.ldm c p half up mask stop) s = .next t ∧ multiEnd (u l.length) t c p up mask) ∧
    (loads m → open' m → 0 < m → m < l.length → (stop = some m ∨ (u m).dueInt c ≠ none) →
      exec (.ldm c p half up mask stop) s = .next (broken (u m))))

/-- R324, R325: TLBI takes effect in its own core at once and goes to every other translator; each takes it and acknowledges
it, once no access of its own that may have used a removed entry is left; TLBSYNC waits
until every request of its core has been acknowledged. -/
def Obligations.HodTlbi : Prop := ∀ (c : CoreId) (p : PairIx) (scope : BitVec 2) (s s1 : State),
  let busy (l : List TlbiReq) (c : CoreId) : Prop := ∃ q ∈ l, q.issuer = c.val ∧ ¬ (q.toReceive = [] ∧ q.toAck = [])
  (s.hodIssue c 2 { regs := pairRegs p } = (true, s1) → s1.level c ≤ 1 →
    let d := (s1.past c 2).drainAll c
    let va := d.pr c p
    let asid : Byte := if scope = 0 then BitVec.ofNat 8 (d.xlatCtl c).toNat else BitVec.ofNat 8 va.toNat
    ∃ t, exec (.tlbi c p scope) s = .next t ∧ Invalidated d { t with tlbis := d.tlbis } c scope va asid ∧
      ∃ q, t.tlbis = d.tlbis ++ [q] ∧ q.issuer = c.val ∧ q.scope = scope ∧ q.va = va ∧ q.asid = asid ∧ q.toAck = [] ∧
        ∀ r, r ∈ q.toReceive ↔ match r with
          | .core e => e ≠ c ∧ (8 ≤ e.val ∨ d.pw.cReset = false)
          | .stream => d.pw.cReset = false) ∧
  (s.hodIssue c 1 {} = (true, s1) → s1.level c ≤ 1 →
    (busy s1.tlbis c → exec (.tlbsync c) s = .next (s1.setCore c { s1.core c with run := .waitTlb })) ∧
    (¬ busy s1.tlbis c → exec (.tlbsync c) s = .next (s1.past c 1))) ∧
  (∀ (r : Receiver) l1 q l2, s.tlbis = l1 ++ q :: l2 → (∀ x ∈ l1, r ∉ x.toReceive) → r ∈ q.toReceive →
    ∃ t, exec (.tlbiReceive r) s = .next t ∧
      t.tlbis = l1 ++ { q with toReceive := q.toReceive.filter fun x => x ≠ r, toAck := q.toAck ++ [r] } :: l2 ∧
      match r with
      | .core e =>
        let used (a : Nat) : Bool := s.usedHit e (tlbiHits q.scope.toNat q.va.toNat q.asid) a
        Invalidated (s.setCore e { s.core e with
            storeBuf := (s.core e).storeBuf.map fun x => { x with tlbi := x.tlbi || x.words.any fun w => used w.1 }
            loadWait := (s.core e).loadWait.map fun x => { x with tlbi := x.tlbi || x.words.any fun w => used w.2.2.1 } })
          { t with tlbis := s.tlbis } e q.scope q.va q.asid
      | .stream => (∀ x, x ∈ t.streamTlb ↔ x ∈ s.streamTlb ∧ ¬ removed q.scope q.va q.asid x) ∧
          (∀ x, x ∈ t.asidCache ↔ x ∈ s.asidCache ∧ (q.scope = 0 ∨ (q.scope = 1 ∧ x.1 ≠ q.asid))) ∧
          t = { s with tlbis := t.tlbis, streamTlb := t.streamTlb, asidCache := t.asidCache }) ∧
  (∀ (r : Receiver) l1 q l2, s.tlbis = l1 ++ q :: l2 → (∀ x ∈ l1, r ∉ x.toAck) → r ∈ q.toAck →
    let done : Prop := ∀ e, r = .core e → (∀ w, (s.core e).loadWait = some w → w.tlbi = false) ∧ ∀ x ∈ (s.core e).storeBuf, x.tlbi = false
    (¬ done → exec (.tlbiAck r) s = .next s) ∧ (done →
    let l := (l1 ++ { q with toAck := q.toAck.filter fun x => x ≠ r } :: l2).filter fun x => !(x.toReceive.isEmpty && x.toAck.isEmpty)
    ∃ t, exec (.tlbiAck r) s = .next t ∧ t = { s with tlbis := l, cores := t.cores } ∧
      ∀ e, ((s.core e).run = .waitTlb → ¬ busy l e → t.core e = { s.core e with run := .running, pc := (s.core e).pc + 1 }) ∧
        (¬ ((s.core e).run = .waitTlb ∧ ¬ busy l e) → t.core e = s.core e)))

/-- R84 to R86: VX submits the 64-byte descriptor at its pair to a queue and writes the ticket, or writes 0xFFFF and Q 1 where the queue
refuses; its traps. -/
def Sys2Proof.Rules.HodVx : Prop := ∀ (c : CoreId) (rd : Reg) (p : PairIx) (q : BitVec 4) (s s1 : State),
  s.hodIssue c 2 { regs := rd :: pairRegs p } = (true, s1) →
  let d := (s1.past c 2).drainAll c
  let va := d.pr c p
  let m := wfld (d.reg .VX_QCFG q.toNat) 14 13
  let allowed := d.level c ≤ (if m = 3 then 0 else m)
  let bad (t : State) : State := t.takeTrap c (s1.core c).pc { cause := 9, xaddr := va }
  (8 ≤ c.val → d.bit .SYS_STAT 0 14 = false → ∃ t, exec (.vx c rd p q) s = .next t ∧ Ran d t c 0 [(rd, 0xFFFF)] [(10, true)]) ∧
  (c.val < 8 ∨ d.bit .SYS_STAT 0 14 = true →
    (¬ allowed → exec (.vx c rd p q) s = .next (d.takeTrap c (s1.core c).pc { cause := 2 })) ∧
    (allowed → va.toNat % 32 ≠ 0 → exec (.vx c rd p q) s = .next (bad d)) ∧
    (∀ pa dev s2, allowed → va.toNat % 32 = 0 → d.xl c .load va = (.ok (pa, dev), s2) →
      (pa < 0x40000000 ∨ 0x44000000 ≤ pa → exec (.vx c rd p q) s = .next (bad s2)) ∧
      (∀ l s3, 0x40000000 ≤ pa → pa < 0x44000000 → s2.readMem (dataPort c) pa 64 = (.ok l, s3) →
        let u := s3.queues[q.toNat]
        let free := s3.bit .VX_QCFG q.toNat 15 = true ∧ u.entries.length < 64 ∧ ∀ b ∈ u.entries, b.seq ≠ u.nextSeq
        let tk : Word := BitVec.ofNat 16 (q.toNat * 4096 + s3.epoch.toNat * 1024 + u.nextSeq)
        (free → ∃ t rem, exec (.vx c rd p q) s = .next t ∧
          Ran { s3 with
            arrivals := s3.arrivals + 1
            queues := s3.queues.set q.toNat { u with
              nextSeq := if u.nextSeq = 1022 then 0 else u.nextSeq + 1
              entries := u.entries ++ [{
                desc := (upto 32).map fun i => BitVec.ofNat 16 (leNat ((l.drop (2 * i)).take 2)), seq := u.nextSeq, ticket := tk
                joint := false, lvl := BitVec.ofNat 2 (s3.level c), arrival := s3.arrivals, remain := rem, was := some s3.mem }] } }
            t c 0 [(rd, tk)] [(10, false)]) ∧
        (¬ free → ∃ t, exec (.vx c rd p q) s = .next t ∧
          Ran ((s3.count .KILN_QREF q.toNat).raiseStat .KILN_INT_STAT .KILN_INT_EN 4 (s3.fld .KILN_CTRL 0 2 0) 5) t c 0
            [(rd, 0xFFFF)] [(10, true)]))))

/-- R87: VWAIT writes what it returns, or stalls at its address until its brick has ended; VWAIT_WAKE completes it. -/
def Sys2Proof.Rules.HodVwait : Prop := ∀ (c : CoreId) (rd rs : Reg) (s s1 : State) (t v : Word),
  (s.hodIssue c 1 { regs := [rd, rs] } = (true, s1) → t = s1.rg c rs →
    (waitRule s1 t = some v → ∃ a, exec (.vwait c rd rs) s = .next a ∧ Ran s1 a c 1 [(rd, v)] []) ∧
    (waitRule s1 t = none → exec (.vwait c rd rs) s = .next (s1.setCore c { s1.core c with run := .waitBrick rd t }))) ∧
  ((s.core c).run = .waitBrick rd t →
    (waitRule s t = some v →
      ∃ a, exec (.vwaitWake c) s = .next a ∧ Ran (s.setCore c { s.core c with run := .running }) a c 1 [(rd, v)] []) ∧
    (waitRule s t = none → exec (.vwaitWake c) s = .next s))

/-- R254, R305, R294: encodings that are not listed, odd registers where an even one is required, and window and gate instructions on a bank
are illegal; TLB and wait instructions at level U are a privilege fault. -/
def Sys2Proof.Rules.HodIllegal : Prop := ∀ (c : CoreId) (w1 w2 imm : Word) (r rs : Reg) (p : PairIx) (inc : Bool) (n : BitVec 10),
  let bad (i : Instr) (len : Nat) (u : Uses) (ok : State → Prop) : Prop := Traps i c len u ok fun _ => { cause := 1 }
  let op := wfld w1 15 10
  let a := wfld w1 9 5
  let b := wfld w1 4 0
  (op = 0x3F ∨ (op = 0 ∧ (10 < a ∧ a < 16 ∨ 22 < a)) ∨ (op = 0 ∧ a ≤ 10 ∧ b ≠ 0) ∨ (op = 2 ∧ 16 ≤ b) ∨ (op = 3 ∧ 16 ≤ a) ∨ (op = 0x27 ∧ b ≠ 0) →
    bad (.illegalOpcode c w1 w2) 1 {} fun _ => True) ∧
  (r.getLsbD 0 = true →
    let u2 : Uses := { regs := pairRegs (pairAt r) ++ pairRegs p }
    let u1 : Uses := { regs := rs :: pairRegs (pairAt r) }
    let ul : Uses := { u1 with all := true }
    (∀ e ∈ [Instr.ldp c r p inc, .stp c r p inc, .crcm32 c r p], bad e 1 u2 fun _ => True) ∧
    (∀ e ∈ [Instr.lddp c r p imm, .stdp c r p imm], bad e 2 u2 fun _ => True) ∧
    (∀ e ∈ [Instr.crc32 c r rs, .crc32c c r rs], bad e 1 u1 fun _ => True) ∧
    (∀ e ∈ [Instr.mulw c r rs, .mulwu c r rs, .div c r rs, .divu c r rs, .divl c r rs, .divlu c r rs], bad e 1 ul fun _ => True) ∧
    (∀ e ∈ [Instr.addpw c r imm, .movpw c r imm], bad e 2 { regs := pairRegs (pairAt r) } fun _ => True)) ∧
  (∀ s s1, (s1.core c).path = .sb1 ∨ (s1.core c).path = .sb2 →
    let ill (i : Instr) (u : Uses) : Prop := s.hodIssue c 1 u = (true, s1) →
      exec i s = .next ((s1.past c 1).takeTrap c (s1.core c).pc { cause := 1 })
    ill (.wopen c) { pregs := (s.core c).spillRegs c } ∧ ill (.wclose c) { pregs := (s.core c).fillRegs c } ∧
    ill (.ret c) { regs := pairRegs 7, pregs := (s.core c).fillRegs c } ∧ ill (.gate c n) { flags := true } ∧
    ill (.gret c) { pregs := [6, 7] ++ (s.core c).fillRegs c }) ∧
  (∀ scope, Traps (.tlbi c p scope) c 2 { regs := pairRegs p } (fun s => s.level c = 2) fun _ => { cause := 2 }) ∧
  Traps (.tlbsync c) c 1 {} (fun s => s.level c = 2) (fun _ => { cause := 2 })

/-- Rules.HodRep; Rules.HodMulti. -/
def Obligations.HodRepeats : Prop :=
  Sys2Proof.Rules.HodRep ∧ Sys2Proof.Rules.HodMulti

/-- Rules.HodVx; Rules.HodVwait. -/
def Obligations.HodVector : Prop :=
  Sys2Proof.Rules.HodVx ∧ Sys2Proof.Rules.HodVwait

/-- Rules.HodBarriers; Rules.HodIllegal. -/
def Obligations.HodBarriersAndIllegal : Prop :=
  Sys2Proof.Rules.HodBarriers ∧ Sys2Proof.Rules.HodIllegal

namespace Sys2Proof.Machine

/-- The command completes, in state t. -/
def Goes (i : Instr) (s t : State) : Prop := exec i s = .next t

/-- A power field changed. -/
def State.power (s : State) (f : Power → Power) : State := { s with pw := f s.pw }

/-- The stored words of the always-on domain (R392): these kinds keep them through a warm reset. -/
def keptOn : List RegKind :=
  [.SYS_RST_CAUSE, .SYS_PARK, .SYS_WAKE_CFG, .SYS_WAKE_SRC, .SYS_KEYON, .RTC_CTL, .RTC_SUB, .RTC_SEC_LO, .RTC_SEC_HI, .RTC_ALM_LO, .RTC_ALM_HI,
    .BIMG_BOOTSEL]

/-- The machine after a warm reset, a field reset or a wake begins (R392, R437), while the F-die reference runs. -/
def State.restarted (s : State) (kind : ResetKind) (near : Bool) : State :=
  let t : State := { State.reset with
    pending := s.pending, resp := s.resp, fresh := s.fresh, ticks := s.ticks, ks := s.ks, tripped := s.tripped
    regs := s.regs.filter fun e => keptOn.any fun k => e.1 = k.addr 0
    mem := { flash := s.mem.flash, hfNear := if near then s.mem.hfNear else [], eccHf := if near then s.mem.eccHf else [] }
    lay := { sealedC := s.lay.sealedC, sealedF := s.lay.sealedF }, vio := s.vio, gptpLast := s.ticks
    spr := { record := s.spr.record, toAdd := s.spr.toAdd }
    dbg := { nonces := s.dbg.nonces }
    pw := { good := s.pw.good, bootCoreBad := s.pw.bootCoreBad, resetting := some kind, coolWait := kind = .field && s.pw.coolWait } }
  let u := (t.setBit .SYS_CLK 0 15 (s.bit .SYS_CLK 0 15)).setFld .SYS_STAT 0 3 0 2
  if kind = .field then (u.setReg .FKILN_STAT 0 (s.reg .FKILN_STAT 0)).setReg .ML_STAT 0 (s.reg .ML_STAT 0 &&& 0x00F8) else u

/-- A reset cause recorded in SYS_RST_CAUSE. -/
def State.recorded' (s : State) (b : Nat) : State := s.setBit .SYS_RST_CAUSE 0 b true

/-- A C-die reset (R32, R392), where the rails are up. -/
def State.cRestarted (s : State) : State :=
  if s.param 1430 = 1 then ((s.endCompute 6).setFld .SYS_STAT 0 3 0 6).power fun p => { p with cReset := false }
  else (s.power fun p => { p with hold := true }).dropC 6

/-- Core c may run: released, its die ready, and not absent (R379, R394). -/
def State.mayRun (s : State) (c : CoreId) : Prop :=
  s.bit .SYS_CRUN 0 c.val = true ∧ s.bit .SYS_STAT 0 (if c.val < 8 then 14 else 15) = true ∧ s.absentCore c = false

/-- Core c reset, and started at its reset vector where it may run (R392, R394). -/
def ResetOf (s t : State) (c : CoreId) : Prop :=
  let k : Core := State.reset.core c
  let vec := if c.val < 8 then s.pair .SYS_RVEC_C_LO .SYS_RVEC_C_HI 0 else s.pair .SYS_RVEC_F_LO .SYS_RVEC_F_HI 0
  let (x, l, i) : RegKind × RegKind × Nat := if c.val < 8 then (.XLAT_CTL, .XLAT_LKVALID, c.val) else (.FXLAT_CTL, .FXLAT_LKVALID, c.val - 8)
  let a := { (((s.setReg x i x.reset).setReg l i l.reset).setBit .FHINT_LOCK 0 c.val false).setBit (pipeCtl c).1 (pipeCtl c).2 12 false with
    wdtFrom := t.wdtFrom }
  (s.mayRun c → t = a.setCore c { k with pc := BitVec.ofNat 32 vec, run := .running }) ∧ (¬ s.mayRun c → t = a.setCore c k) ∧
  Tab.get 0 t.wdtFrom c.val = s.ticks

end Sys2Proof.Machine

/-- R378, R389, R392, R393: the resets of the whole device, and of the C-die. -/
def Sys2Proof.Rules.Resets : Prop := ∀ (s : State) (sel : Bool),
  let free (l : List ResetKind) : Prop := ∀ r, s.pw.resetting = some r → r ∈ l
  let warm := free [.warm, .field, .cDie, .perCore]
  let field := free [.field, .cDie, .perCore]
  let die := free [.cDie, .perCore]
  let clocked := s.bit .SYS_STAT 0 12 = false
  Goes (.powerOnReset sel) s (State.setBit { State.reset with
      pending := s.pending, resp := s.resp, fresh := s.fresh, ticks := s.ticks, ks := s.ks, mem := { flash := s.mem.flash }
      vio := s.vio, gptpLast := s.ticks, spr := { record := s.spr.record, toAdd := s.spr.toAdd }, dbg := { nonces := s.dbg.nonces } }
    .SYS_CLK 0 15 sel) ∧
  (s.pw.parked = false →
    Goes .powerGood s (let t := s.power fun p => { p with good := true }; if s.fld .SYS_STAT 0 3 0 = 1 then t.setFld .SYS_STAT 0 3 0 2 else t) ∧
    (clocked → s.pw.good = true → warm → Goes .brownOut s (((s.power fun p => { p with good := false }).recorded' 12).restarted .warm false)) ∧
    (clocked → warm → Goes .rstNAssert s ((s.recorded' 14).restarted .warm true)) ∧
    (clocked → warm → Goes .sysRstCmdWarm s ((s.recorded' 13).restarted .warm true)) ∧
    (clocked → field → Goes .sysRstCmdField s ((s.recorded' 11).restarted .field true))) ∧
  (die → s.bit .SYS_RAIL 0 14 = true → Goes .sysRstCmdCDie s (s.recorded' 10).cRestarted) ∧
  (s.pw.resetting = some .powerOn → s.pw.parked = false → Goes .rstNAssert s (s.recorded' 14) ∧ Goes .sysRstCmdWarm s (s.recorded' 13) ∧
    Goes .sysRstCmdField s (s.recorded' 11) ∧ Goes .sysRstCmdCDie s (s.recorded' 10))

/-- R306, R392 to R395: per-core resets, SYS_CRUN and the watchdogs, of 800,000 ticks of 1.25 ns for a millisecond. Cores are taken in order; a reset of a core whose die is in reset is
absorbed. -/
def Sys2Proof.Rules.CoreResets : Prop := ∀ (s : State) (v : Word) (c : CoreId),
  let held (s : State) (c : CoreId) : Prop := s.pw.resetting.isSome = true ∨ (c.val < 8 ∧ s.pw.cReset = true)
  (∀ u : Nat → State, u 0 = s →
    (∀ d : CoreId, (v.getLsbD d.val = true → ¬ held (u d.val) d → u (d.val + 1) = (u d.val).coreReset d) ∧
      ((v.getLsbD d.val = false ∨ held (u d.val) d) → u (d.val + 1) = u d.val)) →
    Goes (.coreResetRequest v) s (u 12)) ∧
  (¬ held s c → ResetOf s (s.coreReset c) c) ∧
  (∀ u : Nat → State, u 0 = s.setReg .SYS_CRUN 0 ((s.reg .SYS_CRUN 0 &&& 0xF000) ||| (v &&& 0x0FFF)) →
    (∀ d : CoreId, let old := (s.reg .SYS_CRUN 0).getLsbD d.val
      (old = false → v.getLsbD d.val = true → (u d.val).mayRun d →
        (u (d.val + 1)).core d = { (State.reset.core d) with run := .running, locked := ((u d.val).core d).locked, pc := BitVec.ofNat 32 (if d.val < 8
            then (u d.val).pair .SYS_RVEC_C_LO .SYS_RVEC_C_HI 0 else (u d.val).pair .SYS_RVEC_F_LO .SYS_RVEC_F_HI 0) } ∧
        u (d.val + 1) = { (u d.val).setCore d ((u (d.val + 1)).core d) with wdtFrom := Tab.set 0 d.val (u d.val).ticks (u d.val).wdtFrom }) ∧
      (old = false → v.getLsbD d.val = true → ¬ (u d.val).mayRun d → u (d.val + 1) = u d.val) ∧
      (old = true → v.getLsbD d.val = false → ¬ held (u d.val) d → u (d.val + 1) = (u d.val).coreReset d) ∧
      ((old = v.getLsbD d.val ∨ (old = true ∧ held (u d.val) d)) → u (d.val + 1) = u d.val)) →
    Goes (.sysCrunWrite v) s (u 12)) ∧
  (let cfg := s.reg .SYS_WDT_CFG c.val
   let a := (s.recorded' 9).setFld .SYS_RST_CAUSE 0 7 4 c.val
   let due := Tab.get 0 s.wdtFrom c.val + 800000 * wfld cfg 11 0 ≤ s.ticks
   (wfld cfg 11 0 = 0 ∨ (s.core c).run = .held ∨ (s.core c).run = .halted ∨ ¬ due → Goes (.watchdogExpiry c) s s) ∧
   (wfld cfg 11 0 ≠ 0 → due → (s.core c).run ≠ .held → (s.core c).run ≠ .halted → s.pw.resetting = none → s.pw.parked = false →
     s.bit .SYS_STAT 0 12 = false →
     (wfld cfg 15 14 = 0 → (8 ≤ c.val ∨ s.pw.cReset = false) → Goes (.watchdogExpiry c) s (a.coreReset c)) ∧
     (wfld cfg 15 14 = 1 → c.val < 8 → s.bit .SYS_RAIL 0 14 = true → Goes (.watchdogExpiry c) s a.cRestarted) ∧
     (wfld cfg 15 14 = 2 ∨ (wfld cfg 15 14 = 1 ∧ 8 ≤ c.val) → Goes (.watchdogExpiry c) s (a.restarted .field true)) ∧
     (wfld cfg 15 14 = 3 → Goes (.watchdogExpiry c) s (a.restarted .warm true)))) ∧
  Goes (.watchdogKick c v) s (if v = 0x5AA5 ∧ (s.core c).run ≠ .halted then { s with wdtFrom := Tab.set 0 c.val s.ticks s.wdtFrom } else s)

/-- R114, R391, R392: what the C-die held is lost with its power or its reset; the F-die keeps all of its own; an
HF core whose TLBSYNC waited only for the C-die goes on. -/
def Sys2Proof.Rules.CDieLoss : Prop := ∀ (s : State),
  let t := s.cLost
  (∀ c : CoreId, t.core c = if c.val < 8 then State.reset.core c
    else if (s.core c).run = .waitTlb ∧ ¬ (∃ q ∈ t.tlbis, q.issuer = c.val ∧ ¬ (q.toReceive = [] ∧ q.toAck = []))
      then { s.core c with run := .running, pc := (s.core c).pc + 1 }
    else s.core c) ∧
  (∀ q ∈ t.tlbis, 8 ≤ q.issuer ∧ Receiver.stream ∉ q.toReceive ++ q.toAck ∧ ∀ c : CoreId, c.val < 8 → Receiver.core c ∉ q.toReceive ++ q.toAck) ∧
  t.queues = Vector.replicate 16 {} ∧ t.epoch = s.epoch + 1 ∧ t.templates = [] ∧ t.clusterHold = [] ∧ t.streamTlb = [] ∧ t.asidCache = [] ∧
  t.mem = { s.mem with ctile := [], eccC := [] } ∧ t.pw.cReset = true ∧ t.spr.mig = none ∧ t.spr.queue = [] ∧ t.spr.record = s.spr.record ∧
  t.net.roster = [] ∧ t.net.store = [] ∧ t.lay = s.lay ∧ t.ks = s.ks ∧ t.courses = s.courses ∧ t.cells = s.cells ∧ t.mods = s.mods ∧
  t.caps = s.caps ∧ t.gptpNs = s.gptpNs ∧ t.dispatch = s.dispatch ∧ t.bit .SYS_STAT 0 14 = false ∧ t.bit .BIMG_STATUS 0 13 = false ∧
  (s.pw.computeSeen = false → s.endCompute 6 = t) ∧
  (∀ cause, s.pw.computeSeen = true → (s.endCompute cause).bit .SYS_STAT 0 13 = true)

/-- R172, R173, R386, R389, R391: the rail sequencer, step by step, and what asks for the C-die. -/
def Sys2Proof.Rules.Rails : Prop := ∀ (s : State) (r : Fin 4) (v : Word) (temps : List (Option Word)),
  let up := s.setBit .SYS_RAIL 0 (8 + r.val) true
  let down := s.setBit .SYS_RAIL 0 (8 + r.val) false
  let off (s : State) : State :=
    let n := s.railsRaised
    let a := if 0 < n then s.setBit .SYS_RAIL 0 (3 + n) false else s
    if n ≤ 1 then (((a.power fun p => { p with seq := .idle }).setBit .SYS_RAIL 0 13 false).setFld .ML_STAT 0 15 12 0).tryRaise else a
  (s.pw.seq ≠ .raising → Goes (.cpgRise r temps) s up) ∧
  (s.pw.seq = .raising → s.railsRaised = r.val + 1 → r.val < 3 → Goes (.cpgRise r temps) s (up.setBit .SYS_RAIL 0 (5 + r.val) true)) ∧
  (let a := ({ s.setBit .SYS_RAIL 0 11 true with
       mem := { s.mem with hcNear := [], eccHc := [] }, pw := { s.pw with seq := .idle } }.setBit .SYS_RAIL 0 14 true).setBit .SYS_RAIL 0 13 false
   s.pw.seq = .raising → s.railsRaised = 4 → a.cWanted = true → s.bit .FKILN_STAT 0 15 = false →
     Goes (.cpgRise 3 temps) s (((a.setBit .FKILN_STAT 0 15 false).setFld .SYS_STAT 0 3 0 6).power fun p => { p with cReset := false })) ∧
  (s.pw.seq ≠ .removing → Goes (.cpgFall r) s down) ∧
  (s.pw.seq = .removing → s.railsRaised = r.val → Goes (.cpgFall r) s (off down)) ∧
  (s.pw.seq = .removing → Goes .railOffStep s (off s)) ∧
  (s.pw.seq = .raising → Goes .railFaultTimeout s
    ((((s.power fun p => { p with hold := true }).setBit .SYS_STAT 0 11 true).cLost.enterAlone 3).removeRails)) ∧
  (let a := s.setReg .SYS_RAIL 0 ((s.reg .SYS_RAIL 0 &&& 0x7FFF) ||| (v &&& 0x8000))
   (v.getLsbD 15 = true → a.cWanted = true → s.pw.seq = .idle → a.railsRaised = 0 →
     Goes (.railRequest v) s ((((a.setBit .SYS_RAIL 0 4 true).setBit .SYS_RAIL 0 13 true).setFld .SYS_STAT 0 3 0 5).power
       fun p => { p with seq := .raising })) ∧
   (v.getLsbD 15 = true → (s.pw.seq ≠ .idle ∨ a.railsRaised ≠ 0 ∨ a.cWanted = false) → Goes (.railRequest v) s a) ∧
   (v.getLsbD 15 = false → s.pw.seq = .idle → Goes (.railRequest v) s (if a.railsRaised = 0 then a
     else if s.pw.computeSeen = false ∧ s.bit .SYS_STAT 0 15 = true then ((a.endCompute 2).enterAlone 2).removeRails
     else (a.endCompute 2).removeRails)) ∧
   (v.getLsbD 15 = false → s.pw.seq ≠ .idle → Goes (.railRequest v) s a)) ∧
  (s.fld .SYS_STAT 0 3 0 = 6 → s.pw.cReset = false → s.pw.cClock = false →
    Goes .cDieClockLock s (((s.power fun p => { p with cClock := true }).setFld .SYS_STAT 0 3 0 7).setFld .ML_STAT 0 15 12 1))

/-- R171, R172: thermal trips, their re-arming and the cooling wait. -/
def Obligations.Trips : Prop := ∀ (s : State) (z : Fin 6) (k : Fin 4),
  let key := 4 * z.val + k.val
  let n := min 255 (s.fld .FKILN_STAT 0 7 0 + 1)
  let max := s.fld .FKILN_CTRL 0 3 0
  (Tab.get false s.tripped key = false → (z.val = 5 ∨ s.bit .SYS_RAIL 0 14 = true) →
    let a := ({ s with tripped := Tab.set false key true s.tripped }.setFld .FKILN_STAT 0 7 0 n).raise 8 5
    let b := if max ≠ 0 ∧ max ≤ n then a.setBit .FKILN_STAT 0 13 true else a
    (s.railsRaised = 0 → Goes (.thermalTrip z k) s b) ∧
    (s.railsRaised ≠ 0 → s.pw.seq ≠ .removing → Goes (.thermalTrip z k) s
      ((((b.setBit .FKILN_STAT 0 15 true).setBit .FKILN_STAT 0 14 true).power fun p => { p with coolWait := true }).dropC 4))) ∧
  (Tab.get false s.tripped key = true → Goes (.thermalTrip z k) s s) ∧
  Goes (.tripRearm z k) s { s with tripped := Tab.set false key false s.tripped } ∧
  (s.pw.coolWait = true →
    Goes .coolWaitExpiry s ((s.power fun p => { p with coolWait := false }).setBit .FKILN_STAT 0 14 false).tryRaise)

/-- R398 to R401: the reference, the real-time clock, parking and wake. -/
def Obligations.ClocksAndParking : Prop := ∀ (s : State) (v : Word) (pin : Fin 8) (lvl : Bool),
  let woken (s : State) (src : Nat) : State :=
    ((((s.recorded' 8).setReg .SYS_WAKE_SRC 0 (BitVec.ofNat 16 (2 ^ src))).power fun p => { p with parked := false, good := false }).restarted
      .warm false).power fun p => { p with fen := true }
  Goes .clockFailure s ((((s.setBit .SYS_STAT 0 12 true).setBit .SYS_CLK 0 14 true).setBit .SYS_CLK 0 13 true).dropC 7) ∧
  (let n := (s.pair .RTC_SEC_LO .RTC_SEC_HI 0 + 1) % 2 ^ 32
   s.bit .RTC_CTL 0 14 = true → (s.bit .RTC_CTL 0 15 = false ∨ n ≠ s.pair .RTC_ALM_LO .RTC_ALM_HI 0 ∨ (s.pw.parked = false ∧ s.pw.parking = false)) →
     Goes .rtcSecond s ((s.setReg .RTC_SEC_LO 0 (BitVec.ofNat 16 n)).setReg .RTC_SEC_HI 0 (BitVec.ofNat 16 (n / 65536)))) ∧
  Goes .rtcOscFail s ((s.setBit .RTC_CTL 0 14 false).setBit .RTC_CTL 0 13 true) ∧
  Goes .rtcOscRestart s (s.setBit .RTC_CTL 0 14 true) ∧
  (v = 0x9A6E → s.pw.parking = false → ∃ t, Goes (.park v) s t ∧ t.pw.parking = true ∧ (∀ n < 64, Tab.get {} t.cells n = ({} : Cell)) ∧
    t = { (s.power fun p => { p with parking := true }).dropC 2 with cells := t.cells }) ∧
  (v ≠ 0x9A6E → Goes (.park v) s s) ∧
  (let off := (s.restarted .warm false).power fun p => { p with parked := true, fen := false, good := false }
   s.pw.parking = true → s.bit .SYS_STAT 0 12 = false →
     (s.pw.wakeLatched = none → Goes .parkComplete s off) ∧ (∀ src, s.pw.wakeLatched = some src → Goes .parkComplete s (woken off src))) ∧
  (s.bit .SYS_WAKE_CFG 0 (8 + pin.val) = true → s.bit .SYS_WAKE_CFG 0 pin.val = lvl →
    (s.pw.parked = true → s.bit .SYS_STAT 0 12 = false → Goes (.wakePin pin lvl) s (woken s pin.val)) ∧
    (s.pw.parked = false → s.pw.parking = true → s.pw.wakeLatched = none →
      Goes (.wakePin pin lvl) s (s.power fun p => { p with wakeLatched := some pin.val })) ∧
    (s.pw.parked = false → s.pw.parking = false → Goes (.wakePin pin lvl) s s))

/-- R11 to R14, R29, R30, R37, R39, R44: the boot ROM's sequence, network boot, the rollback count, and the repair mirror. -/
def Obligations.Boot : Prop := ∀ (s : State) (src : Source) (off : BitVec 32) (data : List Byte) (v : Word),
  let boot := s.reg .BIMG_BOOTSEL 0
  let order : List Source := (if boot.getLsbD 0 then [.slotB, .slotA] else [.slotA, .slotB]) ++
    (if s.ks.netboot = true ∧ boot.getLsbD 3 = false then [.net] else [])
  let start (s : State) : State :=
    let a := (s.setReg .BIMG_BOOTSEL 0 (if boot.getLsbD 2 then putBit (putBit boot 2 false) 0 (!boot.getLsbD 0) else boot)).setFld .BIMG_STATUS 0 3 0 1
    State.setReg { a with lay := { a.lay with order := order, netImage := [], netGot := [], netRequests := 0 } }
      (if boot.getLsbD 0 then .BIMG_ERR_B else .BIMG_ERR_A) 0 0
  let errOf (src : Source) : RegKind := match src with
    | .slotA => .BIMG_ERR_A
    | .slotB => .BIMG_ERR_B
    | .net => .BIMG_ERR_N
  let stale (n : Nat) : Bool := (upto 2).all fun k => !((s.mirrorCopy n k).valid && (s.mirrorCopy n k).entries = s.spr.record)
  (s.pw.good = true → s.pw.parked = false → s.pw.resetting ≠ none →
    Goes .bootRomStart s (start (((s.count .SYS_KEYON 0).setFld .SYS_STAT 0 3 0 3).power
      fun p => { p with resetting := none, bootOnSpare := p.bootCoreBad }))) ∧
  (s.lay.order.head? = some src → (src = .net → s.netMissing = []) →
    let (code, old) : Nat × Bool := match src with
      | .slotA => (1, stale 0)
      | .slotB => (2, stale 1)
      | .net => (3, false)
    match s.checkImage src with
    | .ok l =>
      let a := (((s.setReg (errOf src) 0 0).setBit .BIMG_STATUS 0 8 false).setFld .BIMG_STATUS 0 3 0 3).setFld .BIMG_STATUS 0 11 10 code
      Goes (.imageCheck src) s { a with lay := { a.lay with accepted := l, order := [], mirrorDue := s.lay.mirrorDue || old } }
    | .error e =>
      let a := s.setReg (errOf src) 0 (BitVec.ofNat 16 (e.sect * 4096 + e.code))
      let b := { a with lay := { a.lay with order := a.lay.order.drop 1 } }
      (∀ n, b.lay.order.head? = some n → Goes (.imageCheck src) s (b.setReg (errOf n) 0 0)) ∧
      (b.lay.order = [] → s.pw.netRaised = false → Goes (.imageCheck src) s ((b.setBit .BIMG_STATUS 0 8 true).setFld .BIMG_STATUS 0 3 0 0))) ∧
  (s.lay.order.head? ≠ some src ∨ (src = .net ∧ s.netMissing ≠ []) → Goes (.imageCheck src) s s) ∧
  (s.lay.netGot.contains 0 = true → ∀ total, checkHead (readBytes 0 s.lay.netImage 0 80) = .ok total →
    ∀ off, off ∈ s.netMissing ↔ off % 1024 = 0 ∧ off < total ∧ off / 1024 ∉ s.lay.netGot) ∧
  (s.bit .BIMG_STATUS 0 8 = true → s.lay.order = [] → Goes .imageRetry s (start s)) ∧
  (s.lay.order.head? = some .net →
    (s.linkUp = true → ∃ f, f.take 6 = [0x03, 0x44, 0x48, 0x00, 0x00, 0xB1] ∧ (f.drop 12).take 2 = [0x88, 0xB5] ∧ Goes .netbootRequest s { s with
      net := { s.net with sent := (s.ks.netport.toNat, f) :: s.net.sent }, lay := { s.lay with netRequests := s.lay.netRequests + 1 } }) ∧
    (s.linkUp = false → s.pw.seq = .idle → s.railsRaised = 0 → Goes .netbootRequest s
      ((((s.setBit .SYS_RAIL 0 4 true).setBit .SYS_RAIL 0 13 true).setFld .SYS_STAT 0 3 0 5).power
        fun p => { p with seq := .raising, netRaised := true })) ∧
    (s.linkUp = true → data.length = 1024 → off.toNat % 1024 = 0 → off.toNat + 1024 ≤ 4194304 →
      ∃ t, Goes (.netbootBlock off data) s t ∧ t = { s with lay := { s.lay with netImage := t.lay.netImage, netGot := t.lay.netGot } } ∧
        (∀ b, b ∈ t.lay.netGot ↔ b = off.toNat / 1024 ∨ b ∈ s.lay.netGot) ∧
        (∀ i < 1024, Tab.get 0 t.lay.netImage (off.toNat + i) = data.getD i 0) ∧
        ∀ a, (a < off.toNat ∨ off.toNat + 1024 ≤ a) → Tab.get 0 t.lay.netImage a = Tab.get 0 s.lay.netImage a) ∧
    (data.length ≠ 1024 ∨ off.toNat % 1024 ≠ 0 → Goes (.netbootBlock off data) s s) ∧
    (s.lay.order = [.net] → s.pw.netRaised = false →
      let a := s.setReg .BIMG_ERR_N 0 14
      Goes .netbootTimeout s ((({ a with lay := { a.lay with order := [] } }).setBit .BIMG_STATUS 0 8 true).setFld .BIMG_STATUS 0 3 0 0))) ∧
  (let t := s.fld .BIMG_RB 0 14 8
   (v = 0xA5C3 → s.lay.fuseTarget = none → s.fld .BIMG_STATUS 0 11 10 ≠ 0 → s.ks.count < t → s.param 1428 = 1 →
     Goes (.rollbackAdvance v) s { s with lay := { s.lay with fuseTarget := some t } }) ∧
   (v ≠ 0xA5C3 → Goes (.rollbackAdvance v) s s)) ∧
  (∀ t, s.lay.fuseTarget = some t → Goes .fuseBlowDone s { s with
    ks := { s.ks with count := s.ks.count + 1 }, lay := { s.lay with fuseTarget := if t ≤ s.ks.count + 1 then none else some t } }) ∧
  (s.lay.mirrorDue = false → Goes .repairMirrorWrite s s) ∧
  (∀ slot, slot < 2 → s.fld .BIMG_STATUS 0 11 10 = slot + 1 → s.lay.mirrorDue = true →
    let a := s.mirrorCopy slot 0
    let b := s.mirrorCopy slot 1
    let n (m : Mirror) : Nat := if m.valid then m.seq else 0
    let k := if a.valid = false then 0 else if b.valid = false then 1 else if a.seq ≤ b.seq then 0 else 1
    let x := mirrorSection (((if n a ≤ n b then n b else n a) + 1) % 2 ^ 32) s.spr.record
    let base := (if slot = 0 then 0x400000 else 0xC00000) + 4096 * k
    ∃ m, Goes .repairMirrorWrite s { s with mem := { s.mem with flash := m }, lay := { s.lay with mirrorDue := false } } ∧
      (∀ i < x.length, Tab.get 0xFF m (base + i) = x.getD i 0) ∧
      ∀ i, (i < base ∨ base + x.length ≤ i) → Tab.get 0xFF m i = Tab.get 0xFF s.mem.flash i)

/-- R31, R32, R35, R378, R389 to R391: BIST and the two phases of laying-out. -/
def Sys2Proof.Rules.Phases : Prop := ∀ (s : State) (fails : List UnitRef),
  (s.fld .SYS_STAT 0 3 0 = 3 → Goes (.fDieBist fails) s (((s.recordBist fails).tilesOn .f).power fun p => { p with
    bootCoreBad := s.pw.bootCoreBad || (!s.pw.bootOnSpare && fails.contains ⟨5, 0⟩) })) ∧
  (s.fld .BIMG_STATUS 0 3 0 = 3 →
    let a := s.fPhase s.lay.accepted
    let b := ((((a.setPair .BIMG_VERSION_LO .BIMG_VERSION_HI 0 (a.param 4)).setFld .BIMG_RB 0 14 8 (a.param 5)).setBit .BIMG_STATUS 0 12 true).setFld
      .SYS_STAT 0 3 0 4).setBit .SYS_STAT 0 15 true
    Goes .fDiePhase s ((b.raise 8 9).startCores 8 12).afterField ∧ a.lay.sealedF = true ∧ a.lay.accepted = [] ∧ a.lay.haveShadow = true ∧
      a.lay.shadow = s.lay.accepted.filter fun x => [3, 4, 5, 6, 8, 9, 11, 12].contains x.ty) ∧
  (s.linkUp = true → s.fld .SYS_STAT 0 3 0 = 8 → s.bit .BIMG_STATUS 0 12 = true →
    let a := ((s.recordBist fails).setFld .SYS_STAT 0 3 0 9).setFld .BIMG_STATUS 0 3 0 5
    Goes (.cDieBist fails) s { a with pw := { a.pw with cBist := true }, lay := { a.lay with sealedC := false } }) ∧
  (s.linkUp = true → s.pw.cBist = true → s.fld .SYS_STAT 0 3 0 = 9 →
    let a := (((s.cPhase s.lay.shadow).resetRings).newWear).setBit .NSW_STAT 0 15 true
    let b := ((a.setBit .BIMG_STATUS 0 13 true).setBit .BIMG_STATUS 0 9 false).setFld .BIMG_STATUS 0 3 0 6
    let d := (((b.setBit .SYS_STAT 0 14 true).setBit .SYS_STAT 0 13 false).setFld .SYS_STAT 0 6 4 0).power
      fun p => { p with computeSeen := true, fromShadow := false }
    Goes .cDiePhase s ((d.portsReady.startCores 0 8).raise 8 9) ∧ (s.cPhase s.lay.shadow).lay.sealedC = true)

/-- R36, R37, R47, R49: relaying: GO, and what a relay in progress comes to. -/
def Sys2Proof.Rules.Relaying : Prop := ∀ (s : State) (v : Word),
  (v.getLsbD 0 = false → Goes (.relayGo v) s s) ∧
  (v.getLsbD 0 = true → s.bit .BIMG_RELAY_STAT 0 15 = true → Goes (.relayGo v) s (s.setBit .BIMG_RELAY_STAT 0 13 true)) ∧
  (v.getLsbD 0 = true → s.bit .BIMG_RELAY_STAT 0 15 = false →
    let a := s.setBit .BIMG_RELAY_STAT 0 15 true
    Goes (.relayGo v) s { a with lay := { a.lay with relayWaiting := s.fld .BIMG_STATUS 0 3 0 = 5 } }) ∧
  (s.bit .BIMG_RELAY_STAT 0 15 = true → s.fld .BIMG_STATUS 0 3 0 ≠ 5 →
    let addr := s.pair .BIMG_RELAY_ADDR_LO .BIMG_RELAY_ADDR_HI 0
    let ends (s : State) (deferred : Bool) (sect code : Nat) : State :=
      let a := s.setReg .BIMG_RELAY_STAT 0 ((s.reg .BIMG_RELAY_STAT 0 &&& 0x2000) |||
        BitVec.ofNat 16 (0x4000 + (if deferred then 0x1000 else 0) + sect * 256 + code))
      { a with lay := { a.lay with relayWaiting := false } }
    let laid := s.bit .BIMG_STATUS 0 13
    let read (n : Nat) : Option (List Byte) := match (s.readMem ⟨.f, 12⟩ addr n).1 with
      | .ok l => some l
      | .error _ => none
    (addr % 64 ≠ 0 → Goes .relayApply s (ends s false 0 0x21)) ∧
    (addr % 64 = 0 → match s.checkRelay read with
      | .error e => Goes .relayApply s (ends s false (relayTy read) e.code)
      | .ok x =>
        let a := s.applySection x
        let d := !laid && (x.ty = 6 || x.ty = 8 || x.ty = 9 || (x.ty = 11 && p32 x.payload 2 ≠ 0))
        Goes .relayApply s (ends (if x.ty = 7 then a else { a with lay := { a.lay with shadow := mergeShadow a.lay.shadow x } }) d x.ty 0)))

/-- R6 to R10, R399: register accesses of masters over the crossbar: split quantities, clear-on-read, refused widths. -/
def Sys2Proof.Rules.RegisterAccesses : Prop := ∀ (m : Master) (a : PAddr) (s s1 : State) (k : RegKind) (i : Nat),
  let ok (s : State) (w : Word) : State := s.answer (.ok (w.setWidth 64))
  let held := Tab.get none s1.captures a.toNat
  m.wf = true →
  (∃ d x, controlDie a.toNat = some d ∧ s.path m a.toNat false false = (.ok x, s1)) → a.toNat % 2 = 0 → regAt a.toNat = some (k, i) →
  k.addr i = a.toNat →
  (∀ w, held = some w → Goes (.splitHiRead m a) s (ok { s1 with captures := Tab.set none a.toNat none s1.captures } w)) ∧
  (held = none →
    (∀ b, k.pair = some (true, b) → k.rc = 0 → Goes (.splitHiRead m a) s (ok s1 (s1.shown k i))) ∧
    (∀ b hk hi, k.pair = some (false, b) → k ≠ .RTC_SUB → k ≠ .GPTP_TIME → k ≠ .OC_LVL → k ≠ .GP_IN → k ≠ .ML_LSTAT → k ≠ .NSW_ROSTER_EVT →
      regAt (b + k.stride * i) = some (hk, hi) →
      Goes (.splitLoRead m a) s (ok { s1 with captures := Tab.set none (b + k.stride * i) (some (s1.shown hk hi)) s1.captures } (s1.shown k i))) ∧
    (k.pair = none → k.rc = 0xFFFF → k ≠ .RTC_SUB → k ≠ .GPTP_TIME → k ≠ .OC_LVL → k ≠ .GP_IN → k ≠ .ML_LSTAT → k ≠ .NSW_ROSTER_EVT →
      let t := s1.setReg k i (s1.reg k i &&& 0)
      Goes (.rcRead m a false) s (ok t (s1.shown k i)) ∧ Goes (.rcRead m a true) s (ok (t.count k i) (s1.shown k i))))

/-- R6 to R10, R399: register writes; a bit that the hardware sets in the cycle of a clearing write stays set. -/
def Sys2Proof.Rules.RegisterWrites : Prop := ∀ (m : Master) (a : PAddr) (bits : Nat) (v : Word) (s s1 : State) (k : RegKind) (i : Nat),
  let done (s : State) : State := s.answer (.ok 0)
  let put (s : State) (k : RegKind) (i : Nat) (v : Word) : State :=
    s.setReg k i (writtenWord k (s.sealed k.die) (s.reg k i) (v &&& k.bitsOf i))
  m.wf = true → (∃ d x, controlDie a.toNat = some d ∧ s.path m a.toNat true false = (.ok x, s1)) → a.toNat % 2 = 0 → regAt a.toNat = some (k, i) →
  (k.pair = none → ∀ ev, let t := s1.writeReg m k i v
    Goes (.registerWrite m a 16 v ev) s (done (t.setReg k i (t.reg k i ||| (ev &&& v &&& k.w1c))))) ∧
  (∀ b, k.pair = some (false, b) → ¬ (k = .JNT_INC_LO ∧ s1.armed i = true) →
    Goes (.splitLoWrite m a v) s (done { s1 with staging := Tab.set 0 (k.addr i) v s1.staging })) ∧
  (∀ b lk li, k.pair = some (true, b) → k ∉ [.JNT_POS_HI, .JNT_INC_HI, .MOD_SYNC_HI, .RTC_SEC_HI, .GPTP_RATE_HI] →
    regAt (b + k.stride * i) = some (lk, li) →
    Goes (.splitHiWrite m a v) s (done (put (put s1 lk li (Tab.get 0 s1.staging (b + k.stride * i))) k i v))) ∧
  (∀ d ev, controlDie a.toNat = some d → bits = 8 ∨ bits = 32 →
    Goes (.registerWrite m a bits v ev) s ((s1.logError (presenting m d) 6 true a.toNat).answer (.error 6))) ∧
  (Tab.get none s.captures (RegKind.RTC_SUB.addr 0) = none → ∃ w : Word, w.getLsbD 15 = false ∧
    let cap (k : RegKind) (s : State) : State := { s with captures := Tab.set none (k.addr 0) (some (s.reg k 0)) s.captures }
    Goes .rtcSubCapture s ((cap .RTC_SEC_HI (cap .RTC_SEC_LO { s with fresh := s.fresh + 1 })).answer (.ok (w.setWidth 64)))) ∧
  Goes (.railRequest v) s (s.writeReg m .SYS_RAIL 0 v) ∧ Goes (.sysCrunWrite v) s (s.writeReg m .SYS_CRUN 0 v) ∧
  Goes (.coreResetRequest v) s (s.writeReg m .FHINT_CRST 0 v) ∧ Goes (.park v) s (s.writeReg m .SYS_PARK 0 v) ∧
  Goes (.rollbackAdvance v) s (s.writeReg m .BIMG_RB_CMD 0 v) ∧ Goes (.relayGo v) s (s.writeReg m .BIMG_RELAY_CTRL 0 v) ∧
  Goes (.rtcSecCommit v) s (((s.setReg .RTC_SEC_LO 0 (Tab.get 0 s.staging (RegKind.RTC_SEC_LO.addr 0))).setReg .RTC_SEC_HI 0 v).setReg .RTC_SUB 0 0)

/-- Rules.Resets; Rules.CoreResets. -/
def Obligations.ResetKinds : Prop :=
  Sys2Proof.Rules.Resets ∧ Sys2Proof.Rules.CoreResets

/-- Rules.Rails; Rules.CDieLoss. -/
def Obligations.RailsAndLoss : Prop :=
  Sys2Proof.Rules.Rails ∧ Sys2Proof.Rules.CDieLoss

/-- Rules.Phases; Rules.Relaying. -/
def Obligations.PhasesAndRelaying : Prop :=
  Sys2Proof.Rules.Phases ∧ Sys2Proof.Rules.Relaying

/-- Rules.RegisterAccesses; Rules.RegisterWrites. -/
def Obligations.Registry : Prop :=
  Sys2Proof.Rules.RegisterAccesses ∧ Sys2Proof.Rules.RegisterWrites

namespace Sys2Proof.Machine

/-- The beats among which priority and round robin decide (R65): the RT stream beats that have waited longest in a reserved group; else the
aged beats that have; else all. -/
def contenders (s : State) (d : Die) (t : Nat) (l : List Beat) : List Beat :=
  let longest (l : List Beat) : List Beat := l.filter fun b => l.all fun x => x.waited ≤ b.waited
  let wait (m : Nat) : Nat :=
    let w := match d with
      | .c => wfld (s.reg .XBAR_AGE m) 11 0
      | .f => wfld (s.reg .FXBAR_AGE m) 11 0
    if w = 0 then 4096 else w
  let rt := l.filter fun b => b.rt && b.stream && decide (d = .c) && s.rtMask.testBit (t / 16)
  let aged := l.filter fun b => wait b.master < b.waited
  if rt ≠ [] then longest rt else if aged ≠ [] then longest aged else l

/-- How far a master is above the round-robin pointer. -/
def rrDistance (d : Die) (rr m : Nat) : Nat :=
  let n := match d with
    | .c => 38
    | .f => 14
  (m + n - rr) % n

/-- The transition that a power request starts (R60): from ON, RET and OFF. -/
def goalRule (act req : Nat) : Option (BitVec 2) :=
  ([((0, 1), 1), ((0, 2), 2), ((1, 0), 0), ((1, 2), 2), ((2, 0), 0), ((2, 3), 0), ((2, 1), 1)] : List ((Nat × Nat) × BitVec 2)).lookup (act, req)

/-- A power transition of a tile begins. -/
def State.moving (s : State) (d : Die) (t : Nat) (g : BitVec 2) : State :=
  (s.setTile d t { s.tile d t with trans := some g }).setBit (pwrReg d) t 15 true

end Sys2Proof.Machine

/-- R65: a tile port grants the beat that the rules choose: among the contenders the highest priority, and of those the first at or above the
round-robin pointer. -/
def Obligations.TileGrant : Prop := ∀ (s : State) (d : Die) (t : Nat) (l : List Beat), l ≠ [] →
  let prio (b : Beat) : Nat := s.priority d b.master (t / 16)
  let dist (b : Beat) : Nat := rrDistance d (s.tile d t).rr b.master
  ∃ b, s.grant d t l = some b ∧ b ∈ contenders s d t l ∧
    ∀ x ∈ contenders s d t l, prio x < prio b ∨ (prio x = prio b ∧ dist b ≤ dist x)

/-- R55, R59, R65, R66: one cycle of a tile port. Every beat here passes the windows and carve-outs; the granted one reads or writes its word, the
others count a conflict, once for each master; while the tile is not ON all wait, and one in RET wakes. A write narrower than a word holds the
port for the next cycle too, in which all wait. -/
def Sys2Proof.Rules.TileBeats : Prop := ∀ (s : State) (d : Die) (t : Nat) (beats : List Beat), beats ≠ [] → tileWf d t = true →
  (beats.map (·.master)).Nodup →
  (∀ b ∈ beats, ∃ off x, s.tileOf d b.addr.toNat = some (t, off) ∧ s.path ⟨d, b.master⟩ b.addr.toNat b.wr.isSome b.stream = (.ok x, s)) →
  let act := wfld (s.reg (pwrReg d) t) 9 8
  let conflicts (l : List Beat) : State := l.foldl (fun s b => s.conflict d (t / 16) b) s
  let busy := (s.tile d t).busy
  (busy = true → Goes (.tileBeat d t beats .clean) s
    (let a := conflicts beats; a.setTile d t { a.tile d t with busy := false })) ∧
  (busy = false → act ≠ 0 ∨ (s.tile d t).trans ≠ none → Goes (.tileBeat d t beats .clean) s
    (let a := conflicts beats; if act = 1 ∧ (s.tile d t).trans = none then a.moving d t 0 else a)) ∧
  (∀ b x off, busy = false → act = 0 → (s.tile d t).trans = none → s.grant d t beats = some b → s.tileOf d b.addr.toNat = some (x, off) → s.spr.mig = none →
    s.eccAt d t (off / 8 * 8) = .clean →
    let a := conflicts (beats.filter fun y => y ≠ b)
    let r := a.setTile d t { a.tile d t with rr := (b.master + 1) % (match d with
      | .c => 38
      | .f => 14) }
    let at' := (s.physTile d t).getD t * (match d with
      | .c => 0x40000
      | .f => 0x20000) + off / 8 * 8
    let old (i : Nat) : Byte := Tab.get 0 (s.tileMem d) (at' + i)
    (b.wr = none → Goes (.tileBeat d t beats .clean) s (r.answer (.ok (BitVec.ofNat 64 (leNat ((upto 8).map old)))))) ∧
    (∀ v be, b.wr = some (v, be) → ∃ m e,
      (let put := (r.setTileMem d m).setEccTab d e
       let kept := (put.tile d t).writeback.filter (· ≠ off / 8)
       let done := put.setTile d t { put.tile d t with writeback := kept }
       Goes (.tileBeat d t beats .clean) s
         ((if be = 0xFF then done else done.setTile d t { done.tile d t with busy := true }).answer (.ok 0))) ∧
      (∀ i < 8, Tab.get 0 m (at' + i) = if be.getLsbD i then BitVec.ofNat 8 (v.toNat / 256 ^ i) else old i) ∧
      (∀ k, (k < at' ∨ at' + 8 ≤ k) → Tab.get 0 m k = Tab.get 0 (s.tileMem d) k) ∧
      ∀ k, Tab.get .clean e k = Tab.get .clean (s.eccTab d) k)) ∧
  (∀ b g, let n := s.conflict d g b
    let key := match d with
      | .c => b.master * 16 + g
      | .f => 1024 + b.master * 4 + g
    let was := Tab.get (0 : W32) s.ccnt key
    n = { s with ccnt := n.ccnt } ∧ (∀ k, k ≠ key → Tab.get 0 n.ccnt k = Tab.get 0 s.ccnt k) ∧
    Tab.get 0 n.ccnt key = if s.bit (cctl d) 0 1 ∨ b.counted then was else if was = 0xFFFFFFFF then was else was + 1)

/-- R56 to R60, R66, R75: error correction in the background, power states, idleness and the conflict counters of tiles. -/
def Sys2Proof.Rules.TileUpkeep : Prop := ∀ (s : State) (d : Die) (t idle w : Nat) (ws : List Nat) (v : Word) (g : BitVec 2), tileWf d t = true →
  let x := s.tile d t
  let p := s.reg (pwrReg d) t
  (x.writeback = [] → Goes (.eccWriteback d t) s s) ∧
  (x.writeback = w :: ws →
    let a := s.setTile d t { x with writeback := ws }
    (s.eccAt d t (8 * w) = .single → Goes (.eccWriteback d t) s (a.setEcc d t (8 * w) .clean)) ∧
    (s.eccAt d t (8 * w) ≠ .single → Goes (.eccWriteback d t) s a)) ∧
  (s.bit (tileCtrl d) 0 15 = true → wfld p 9 8 = 0 → x.trans = none →
    let scan := (upto 8).foldl (fun s i => s.scrubWord d t (x.scrub * 64 + 8 * i)) s
    Goes (.scrubRead d t .clean) s (scan.setTile d t { scan.tile d t with scrub := (x.scrub + 1) % (match d with
      | .c => 4096
      | .f => 2048) }) ∧
    ((∀ i < 8, s.eccAt d t (x.scrub * 64 + 8 * i) = .clean) → scan = s)) ∧
  (∀ off, (s.eccAt d t off = .single → s.scrubWord d t off =
      let a := s.countCe d t; a.setTile d t (let y := a.tile d t
        if off / 8 ∈ y.writeback then y else { y with writeback := y.writeback ++ [off / 8] })) ∧
    (s.eccAt d t off = .double → s.scrubWord d t off = s.countUe d t)) ∧
  (let a := s.setReg (pwrReg d) t (putFld p 1 0 (wfld v 1 0))
   (x.trans ≠ none ∨ s.migrating d t = true → Goes (.tilePowerRequest d t v) s a) ∧
   (x.trans = none → s.migrating d t = false → Goes (.tilePowerRequest d t v) s (match goalRule (wfld p 9 8) (wfld v 1 0) with
     | some g => a.moving d t g
     | none => a))) ∧
  (x.trans = some g →
    let z := if wfld p 9 8 = 2 then s.zeroTile d t else s
    Goes (.tilePowerDone d t) s (((z.setTile d t { x with trans := none }).setReg (pwrReg d) t (putBit (putFld p 9 8 g.toNat) 15 false)).startTile
      d t)) ∧
  (let n := s.fld (tileCtrl d) 0 11 0
   let zone : Zone := Tab.get {} s.zones (match d with
     | .c => t / 64
     | .f => 5)
   let limit := n * (if 2 ≤ zone.region then 16 else 64)
   let reserved := d = .c ∧ s.rtMask.testBit (t / 16) = true
   (n ≠ 0 → wfld p 1 0 = 3 → wfld p 9 8 = 0 → x.trans = none → limit ≤ idle → ¬ reserved → Goes (.tileIdleExpiry d t idle) s (s.moving d t 1)) ∧
   (n = 0 ∨ wfld p 1 0 ≠ 3 ∨ wfld p 9 8 ≠ 0 ∨ idle < limit ∨ reserved → Goes (.tileIdleExpiry d t idle) s s)) ∧
  (let a := s.setReg (cctl d) 0 (v &&& 2)
   Goes (.xbarCounterClear d v) s (if v.getLsbD 0 then { a with ccnt := s.ccnt.filter fun e => match d with
     | .c => decide (1024 ≤ e.1)
     | .f => decide (e.1 < 1024) } else a))

/-- R302, R309, R320, R330: software interrupts, and locked TLB entries. -/
def Obligations.LocksAndSoftware : Prop := ∀ (s : State) (d : Die) (v : Word) (l : LockCmd) (c : CoreId),
  let lock := match d with
    | .c => s.lockC
    | .f => s.lockF
  let set (s : State) (x : Option LockCmd) : State := match d with
    | .c => { s with lockC := x }
    | .f => { s with lockF := x }
  let (lo, hi, as, st) : RegKind × RegKind × RegKind × RegKind := match d with
    | .c => (.XLAT_LK_VA_LO, .XLAT_LK_VA_HI, .XLAT_LK_ASID, .XLAT_LK_STAT)
    | .f => (.FXLAT_LK_VA_LO, .FXLAT_LK_VA_HI, .FXLAT_LK_ASID, .FXLAT_LK_STAT)
  let cmd (load : Bool) : LockCmd := {
    core := match d with
      | .c => wfld v 10 8
      | .f => 8 + wfld v 9 8
    slot := wfld v 2 0, load, va := w32of (s.reg hi 0) (s.reg lo 0), asid := BitVec.ofNat 8 (s.reg as 0).toNat }
  let idle := lock = none ∧ (d = .f ∨ s.pw.cReset = false)
  let done (s : State) (cause : Nat) : State := ((s.setBit st 0 15 false).setBit st 0 14 true).setFld st 0 5 0 cause
  let place (s : State) (x : Option Leaf) : State :=
    let (reg, i) : RegKind × Nat := if c.val < 8 then (.XLAT_LKVALID, c.val) else (.FXLAT_LKVALID, c.val - 8)
    (s.setCore c { s.core c with locked := Tab.set none l.slot x (s.core c).locked }).setBit reg i l.slot x.isSome
  (idle → v.getLsbD 15 = true → v.getLsbD 14 = false → Goes (.tlbLockLoad d v) s ((set s (some (cmd true))).setBit st 0 15 true)) ∧
  (idle → v.getLsbD 15 = true → v.getLsbD 14 = true → Goes (.tlbLockRelease d v) s ((set s (some (cmd false))).setBit st 0 15 true)) ∧
  (lock ≠ none ∨ v.getLsbD 15 = false → Goes (.tlbLockLoad d v) s s ∧ Goes (.tlbLockRelease d v) s s) ∧
  (lock = some l → l.core = c.val →
    (l.load = false → Goes (.tlbLockDone d) s (done (place (set s none) none) 0)) ∧
    (l.load = true → match (set s none).lockLeaf c l with
      | (.ok x, s1) => Goes (.tlbLockDone d) s (done (place s1 (some x)) 0)
      | (.error e, s1) => Goes (.tlbLockDone d) s (done s1 (match e with
        | .notValid => 5
        | .rights => 6
        | .device => 7
        | .bus => 8)))) ∧
  (let n := v.toNat % 16
   Goes (.softwareInterrupt d v) s (if v.getLsbD 15 = false ∨ 12 ≤ n ∨ (d = .c ∧ s.pw.cReset = true) then s
     else if n < 8 then (if s.pw.cReset then s else s.setBit .HINT_PEND n 10 true) else s.setBit .FHINT_PEND (n - 8) 10 true))

/-- Rules.TileBeats; Rules.TileUpkeep. -/
def Obligations.Tiles : Prop :=
  Sys2Proof.Rules.TileBeats ∧ Sys2Proof.Rules.TileUpkeep

namespace Sys2Proof.Machine

/-- A brick's entry in its queue is replaced by what f makes of it. -/
def State.entry (s : State) (q : BitVec 4) (seq : Nat) (f : Brick → Brick) : State :=
  let u := s.queues[q.toNat]
  { s with queues := s.queues.set q.toNat { u with entries := u.entries.map fun b => if b.seq = seq then f b else b } }

/-- A brick that begins to end with a code (R113, R117). -/
def Brick.ends (b : Brick) (code : Byte) : Brick := { b with st := .ending code }

/-- Brick b stands in queue q under its sequence number, with the template t of its slot. -/
def State.holds (s : State) (q : BitVec 4) (b : Brick) (t : Template) : Prop :=
  s.brick q.toNat b.seq = some b ∧ Tab.get none s.templates (wfld (b.w 0) 15 10) = some t

/-- The region of a zone (R153), from the one it was in: it rises at once, and falls below each threshold less HYST. -/
def regionRule (warn hot crit hyst t : Int) : Nat → Nat
  | 0 => if crit < t then 3 else if hot ≤ t then 2 else if warn ≤ t then 1 else 0
  | c + 1 =>
    let now := if crit < t then 3 else if hot ≤ t then 2 else if warn ≤ t then 1 else 0
    if c + 1 ≤ now then now
    else if t < [warn, hot, crit].getD c 0 - hyst then regionRule warn hot crit hyst t c else c + 1

end Sys2Proof.Machine

/-- R87 to R89, R120, R167, R174: a joint's submission, the flush of a queue, expiry. -/
def Obligations.BrickQueues : Prop := ∀ (s : State) (q : BitVec 4) (line : BitVec 20) (b : Brick),
  let arrived := { s with crossing := s.crossing.erase (q.toNat, line.toNat) }
  let ready := s.bit .SYS_STAT 0 14 = true
  let shed (s : State) (k : RegKind) : State :=
    (s.count k q.toNat).raiseStat .KILN_INT_STAT .KILN_INT_EN 4 (s.fld .KILN_CTRL 0 2 0) 5
  let open' (s : State) : Prop := s.bit .VX_QCFG q.toNat 15 = true ∧ s.queues[q.toNat].entries.length < 64 ∧
    ∀ b ∈ s.queues[q.toNat].entries, b.seq ≠ s.queues[q.toNat].nextSeq
  (¬ ready → Goes (.jointBrickSubmission q line) s arrived) ∧
  (ready → (¬ open' s ∨ s.bit .VX_QCFG q.toNat 10 = false) → Goes (.jointBrickSubmission q line) s (shed arrived .KILN_QJSH)) ∧
  (∀ l s1, ready → open' s → s.bit .VX_QCFG q.toNat 10 = true →
    arrived.readMem ⟨.c, 34⟩ (0x40000000 + 64 * line.toNat) 64 = (.ok l, s1) →
    let u := s1.queues[q.toNat]
    ∃ rem, Goes (.jointBrickSubmission q line) s { s1 with
      arrivals := s1.arrivals + 1
      queues := s1.queues.set q.toNat { u with
        nextSeq := if u.nextSeq = 1022 then 0 else u.nextSeq + 1
        entries := u.entries ++ [{
          desc := (upto 32).map fun i => BitVec.ofNat 16 (leNat ((l.drop (2 * i)).take 2)), seq := u.nextSeq
          ticket := BitVec.ofNat 16 (q.toNat * 4096 + s1.epoch.toNat * 1024 + u.nextSeq)
          joint := true, lvl := BitVec.ofNat 2 (s1.fld .VX_QCFG q.toNat 9 8), arrival := s1.arrivals, remain := rem, was := some s1.mem }] } }) ∧
  (let u := s.queues[q.toNat]
   Goes (.queueFlush q) s { s with
     queues := s.queues.set q.toNat { u with entries := u.entries.map fun b => if b.st = .queued then b.ends 9 else b } }) ∧
  (s.brick q.toNat b.seq = some b →
    (b.st = .queued → s.deadlinePassed b = true →
      Goes (.brickExpiry q b.seq) s (shed (s.entry q b.seq fun _ => b.ends 3) .KILN_QEXP)) ∧
    (b.st ≠ .queued ∨ s.deadlinePassed b = false → Goes (.brickExpiry q b.seq) s s))

/-- R93, R97, R101, R106, R109, R159: setting-out, probe, a block, a suspension: the brick becomes what its template makes of it. What a
suspended brick's clusters metered is settled less the idle power of their zones. -/
def Sys2Proof.Rules.BrickWork : Prop := ∀ (s s1 s2 : State) (q : BitVec 4) (b b1 : Brick) (t : Template) (e : Nat) (metered : List Nat),
  s.holds q b t →
  (b.st = .setout → s.setout t b = (b1, s1) → Goes (.brickSetout q b.seq) s (s1.entry q b1.seq fun _ => b1)) ∧
  (b.st = .probe → s.probe t b = (b1, s1) → Goes (.brickProbe q b.seq) s (s1.entry q b1.seq fun _ => b1)) ∧
  (let from' := max b.k b.seen
   let blockEnd := min b.limit ((from' / 1024 + 1) * 1024)
   b.st = .run →
   (s.runTo t b blockEnd false = (b1, s1) → Goes (.brickBlockDone q b.seq none) s (s1.entry q b1.seq fun _ => b1)) ∧
   (b.paired = true → from' ≤ e → e < blockEnd →
     (b.seen ≤ b.k → Goes (.brickBlockDone q b.seq (some e)) s (s.entry q b.seq fun _ => { b.ends 7 with report := some (e, 0, 0) })) ∧
     (b.k < b.seen → s.runTo t b b.seen true = (b1, s1) → Goes (.brickBlockDone q b.seq (some e)) s
       (s1.entry q b1.seq fun _ => if b1.st = .run then { b1.ends 7 with report := some (e, 0, 0) } else b1)))) ∧
  (let x := { b1 with suspends := b1.suspends + 1 }
   let net (z : Nat) : Nat := metered.getD z 0 - (s1.zone z).idle * (s1.ticks - b1.since) / 800
   let reached := (b.st = .probe ∧ s.probeTo t b e = (b1, s1)) ∨
     (b.st = .run ∧ b.k < min e b.limit ∧ s.runTo t b (min e b.limit) true = (b1, s1)) ∨
     (b.st = .run ∧ min e b.limit ≤ b.k ∧ b1 = b ∧ s1 = s)
   b.suspendReq = true → reached →
   (b1.st ≠ .probe → b1.st ≠ .run → Goes (.brickSuspend q b.seq e metered) s (s1.entry q b1.seq fun _ => { b1 with suspendReq := false })) ∧
   (b1.st = .probe ∨ b1.st = .run → s1.statusWrite x x.suspWrites = (true, s2) →
    Goes (.brickSuspend q b.seq e metered) s ((s2.settleCharges b1 metered).entry q b1.seq fun _ => { x with
      st := if b1.st = .probe then .suspProbe else .suspRun
      seen := 0, suspendReq := false, clusters := [], charges := [], energy := b1.energy + (b1.clusters.map net).sum })) ∧
   (b1.st = .probe ∨ b1.st = .run → s1.statusWrite x x.suspWrites = (false, s2) →
    Goes (.brickSuspend q b.seq e metered) s (s2.entry q b1.seq fun _ => { b1.ends 0x17 with statusOk := false, suspendReq := false }))) ∧
  (b.suspendReq = false → Goes (.brickSuspend q b.seq e metered) s s)

/-- R113 to R116, R159, R160: the end of a brick: settlement, learning, status, error log, signal and interrupt; its entry is freed and its END
value kept. -/
def Sys2Proof.Rules.BrickEnd : Prop := ∀ (s s1 : State) (q : BitVec 4) (b : Brick) (code c : Byte) (metered : List Nat),
  s.brick q.toNat b.seq = some b → b.st = .ending code →
  let net (z : Nat) : Nat := metered.getD z 0 - (s.zone z).idle * (s.ticks - b.since) / 800
  let b1 := { b with energy := b.energy + (b.clusters.map net).sum }
  let a := s.settleCharges b metered
  let l := if code = 0 ∧ 1024 ≤ b.len ∧ a.bit .KILN_CTRL 0 12 = true then a.learn b1 else a
  l.endStatus b1 code = (c, s1) →
  let sig := wfld (b.w 25) 4 0
  let logged : State :=
    if c ≠ 0x10 ∧ c ≠ 0x17 then s1
    else if s1.bit .VX_QERR q.toNat 15 then s1.setBit .VX_QERR q.toNat 14 true
    else (s1.setReg .VX_QERR q.toNat (putFld (putBit (s1.reg .VX_QERR q.toNat) 15 true) 7 0 c.toNat)).setReg .VX_QERR_TKT q.toNat
      (if b.joint then 0xFFFF else b.ticket)
  let told := if sig = 0 then logged else if sig < 16 then logged.setBit .VX_SIG_LO 0 sig true else logged.setBit .VX_SIG_HI 0 (sig - 16) true
  let r := if wbit (b.w 25) 15 ∧ (c ≠ 0 ∨ wbit (b.w 25) 14 = false) then told.raise (wfld (b.w 25) 13 10) 0 else told
  let u := r.queues[q.toNat]
  Goes (.brickEnd q b.seq metered) s { r with
    clusterHold := r.clusterHold.filter fun e => e.2 ≠ some (q.toNat, b.seq)
    queues := r.queues.set q.toNat { u with
      entries := u.entries.filter fun x => x.seq ≠ b.seq
      ended := ((if b.joint then none else some b.ticket, BitVec.ofNat 16 (0x8000 + c.toNat)) :: u.ended).take 64 } }

/-- R161 to R165: one walk of the kiln over the eligible bricks in their order: the first that gets clusters is admitted and those passed over
count an overtaking, or a victim is asked to suspend for it; a brick overtaken too often stops the walk. It always completes, and changes
nothing but buckets, bricks and held clusters. The order: class, then remaining time, then arrival. -/
def Obligations.Admission : Prop := ∀ (s : State) (q : Nat) (b : Brick) (rest passed : List (Nat × Brick)) (x y : Brick),
  let a := s.pruneHolds
  (∃ t, Goes .kilnAdmission s t ∧ t = { s with zones := t.zones, queues := t.queues, clusterHold := t.clusterHold }) ∧
  (a.computeReady = false → Goes .kilnAdmission s a) ∧
  (a.computeReady = true → Goes .kilnAdmission s (a.admitWalk a.ranked [])) ∧
  (let walk := s.admitWalk ((q, b) :: rest) passed
   let lim := s.fld .KILN_CTRL 0 7 3
   s.admitWalk [] passed = s ∧
   (b.len = 0 → walk = (s.give q b []).overtake passed) ∧
   (∀ l, b.len ≠ 0 → s.clustersFor q b = some l → walk = (s.give q b l).overtake passed) ∧
   (∀ v, b.len ≠ 0 → s.clustersFor q b = none → s.victimFor q b = some v → walk =
     (let w := s.modBrick v.1 v.2.seq fun z => { z with suspendReq := true }
      { w with clusterHold := Tab.set none (v.2.clusters.foldl max 0) (some (q, b.seq)) w.clusterHold })) ∧
   (b.len ≠ 0 → s.clustersFor q b = none → s.victimFor q b = none →
     walk = if lim ≠ 0 ∧ lim ≤ b.overtaken then s else s.admitWalk rest (passed ++ [(q, b)]))) ∧
  (∀ e, e ∈ s.ranked ↔ e ∈ s.bricks ∧ s.eligible e.1 e.2 = true) ∧
  (x.cls < y.cls → before x y = true ∧ before y x = false) ∧
  (∀ m, x.cls = y.cls → x.remain = some (some m) → (∀ n, y.remain = some (some n) → m < n) → before x y = true ∧ before y x = false) ∧
  (x.cls = y.cls → x.remain = y.remain → before x y = decide (x.arrival < y.arrival))

/-- R152 to R154, R159, R176, R177: the refill of a governed zone with a good reading: region, rate and buckets; the two zones without a cluster
pay what their sensor metered, an idle cluster's zone learns its idle power, and the interrupt bits follow. -/
def Sys2Proof.Rules.KilnRefill : Prop := ∀ (s : State) (temps : List (Option Word)) (drawn : List Nat) (z : Nat) (t : Int),
  (∃ u v : Nat → State, u 0 = s.takeKiln.showSensors temps ∧ (∀ z < 6, u (z + 1) = (u z).refillZone temps drawn z) ∧
    v 0 = (u 6).showKilnStat ∧ (∀ n < 4, v (n + 1) = (v n).stepCluster n) ∧ Goes (.kilnRefill temps drawn) s (v 4).recomputeRemain) ∧
  (let x := s.zone z
   let good (k : Nat) : Option Int := if (s.kp z 10).testBit k then readingAt temps z k else none
   let kt (f : Nat) : Int := signed 16 (s.kp z f)
   let kw (f : Nat) : Int := (s.kp z f % 65536 : Nat)
   z < 6 → s.bit .BIMG_STATUS 0 (if z = 5 then 12 else 13) = true → x.blind = false → (∃ k < 4, good k = some t) → (∀ k < 4, ∀ y, good k = some y → y ≤ t) →
   let a := s.refillZone temps drawn z
   let n := a.zone z
   let low : Int := -(s.kp z 4 : Nat)
   let g : Int := if z < 4 then x.gen else max (x.gen - (drawn.getD z 0 : Nat)) low
   let rate : Int :=
     if t ≤ kt 6 then kw 0
     else if t ≤ kt 7 then kw 0 - ((kw 0 - kw 1) * (t - kt 6)).tdiv (kt 7 - kt 6)
     else if t ≤ kt 8 then kw 1 - ((kw 1 - kw 2) * (t - kt 7)).tdiv (kt 8 - kt 7)
     else kw 2
   let cap (v : Int) (c : Nat) : Int := max (min v (s.kp z c : Nat)) (-(s.kp z c : Nat))
   n.temp = t ∧ n.region = regionRule (kt 6) (kt 7) (kt 8) (kw 9) t x.region ∧ n.gen = cap (g + rate - kw 3) 4 ∧ n.rtb = cap (x.rtb + kw 3) 5 ∧
     n.rate = rate.toNat ∧ n.blind = false ∧
     n.idle = (if z < 4 ∧ ∀ e ∈ s.bricks, z ∉ e.2.clusters then drawn.getD z 0 else x.idle) ∧
     (s.pw.cReset = false → (4 ≤ z → g < 0 → 0 ≤ x.gen → a.bit .KILN_INT_STAT 0 3 = true) ∧
       (∀ i < 3, x.region ≤ i → i < n.region → a.bit .KILN_INT_STAT 0 i = true) ∧
       (n.region = 0 → x.region ≠ 0 → a.bit .KILN_INT_STAT 0 6 = true)))

/-- R169, R388: the VID request and its answer. A request goes out as a frame (start bit, address, level, even parity), and until it is
acknowledged no cluster runs faster than 1.2 GHz. -/
def Sys2Proof.Rules.Vid : Prop := ∀ (s : State),
  let off := (upto 5).foldl (fun m z => max m (wfld (s.reg .WEAR_ZSTAT z) 14 11)) 0
  let cold := ∃ i < 20, s.reg .CSENS_T i ≠ 0x8000 ∧ (s.reg .CSENS_T i).msb = true
  let waits := s.bit .KILN_VID_ACT 0 15 = true
  (s.pw.cReset = true → Goes .vidRecalc s s) ∧
  (∀ v, s.pw.cReset = false → (cold → v = max 650 (min 850 (Config.vidTrim + 5 * off + 10))) →
    (¬ cold → v = max 650 (min 850 (Config.vidTrim + 5 * off))) →
    let a := s.setFld .KILN_VID_TGT 0 9 0 v
    let asked := (upto 4).foldl (fun s n => s.setFld .KILN_STEP n 9 8 (max (s.fld .KILN_STEP n 9 8) 1)) (a.setBit .KILN_VID_ACT 0 15 true)
    (v = s.fld .KILN_VID_ACT 0 9 0 → ¬ waits → Goes .vidRecalc s a) ∧
    (v ≠ s.fld .KILN_VID_ACT 0 9 0 ∨ waits → ∃ f : Word, Goes .vidRecalc s { asked with pw := { s.pw with vidFrame := some f } } ∧
      f.msb = false ∧ wfld f 14 11 = s.fld .SYS_VID 0 15 12 ∧ wfld f 10 1 = v ∧ ((upto 16).filter fun i => f.getLsbD i).length % 2 = 0)) ∧
  (waits → Goes .vidAck s ((s.setFld .KILN_VID_ACT 0 9 0 (s.fld .KILN_VID_TGT 0 9 0)).setBit .KILN_VID_ACT 0 15 false) ∧
    Goes .vidTimeout s (if s.pw.cReset then s else s.raiseStat .KILN_INT_STAT .KILN_INT_EN 5 (s.fld .KILN_CTRL 0 2 0) 5))

/-- Rules.BrickWork; Rules.BrickEnd. -/
def Obligations.BrickLife : Prop :=
  Sys2Proof.Rules.BrickWork ∧ Sys2Proof.Rules.BrickEnd

/-- Rules.KilnRefill; Rules.Vid. -/
def Obligations.KilnZones : Prop :=
  Sys2Proof.Rules.KilnRefill ∧ Sys2Proof.Rules.Vid

namespace Sys2Proof.Machine

/-- A number kept within the signed 32-bit range. -/
def sat32 (v : Int) : Int := if v < -2147483648 then -2147483648 else if 2147483647 < v then 2147483647 else v

/-- A course one tick on (R179, R181): the position moves by the speed, the speed by the acceleration; a held visible position waits until
the extrapolation has passed it. -/
def Course.ticked (x : Course) : Course :=
  let p := ((x.p + x.s) % 2 ^ 52).toNat
  let v : W32 := BitVec.ofNat 32 (p / 2 ^ 20)
  let sp := sat32 (x.s + x.a.tdiv (2 ^ 24))
  let hold := x.holding && decide (0 ≤ sp) && decide (distV x.vis v < 0)
  { x with
    p, s := sp, coastAdv := x.coastAdv + x.s.natAbs
    vis := if hold then x.vis else v, holding := hold }

/-- The condition on joint j and its course to fire (R185, R190). -/
def State.mayFire (s : State) (j : Nat) : Prop :=
  (s.course (s.jcourse j)).state = .locked ∨ ((s.course (s.jcourse j)).state = .coast ∧ s.bit .JNT_CFG j 5 = false)

end Sys2Proof.Machine

/-- R179, R185, R188, R190, R349: one tick: the clock, and each course that follows edges; a course whose extrapolation has brought its speed
beyond a limit is lost, or searches again. -/
def Obligations.CourseTick : Prop := ∀ (s : State), ∃ t, Goes .courseTick s t ∧ t.ticks = s.ticks + 1 ∧
  (s.bit .GPTP_CTL 0 15 = false → t.gptpNs = s.gptpNs ∧ t.gptpFrac = s.gptpFrac) ∧
  (s.bit .GPTP_CTL 0 15 = true →
    let f : Int := s.gptpFrac + 5 * (2 ^ 40 + signed 32 ((s.reg .GPTP_RATE_LO 0).toNat + (s.reg .GPTP_RATE_HI 0).toNat * 65536))
    t.gptpNs = s.gptpNs + BitVec.ofInt 64 (f / 2 ^ 42) ∧ (t.gptpFrac : Int) = f % 2 ^ 42) ∧
  t.demod = [] ∧
  ∀ c < 8, s.param (1034 + 14 * c) % 8 ≠ 3 → s.param (1034 + 14 * c) % 8 ≠ 7 →
    let x := s.course c
    let y := t.course c
    let run := s.bit .CRS_CTRL c 15
    let z := x.ticked
    let lo := s.param (1034 + 14 * c + 8)
    let hi := s.param (1034 + 14 * c + 9)
    let wrong := x.state ≠ .coast ∧ x.lastS ≠ none ∧ ((lo ≠ 0 ∧ z.s.natAbs < lo) ∨ (hi ≠ 0 ∧ hi < z.s.natAbs))
    let moves := x.state = .sync ∨ x.state = .locked ∨ x.state = .coast
    (x.relayHold = true → x.state = .search ∨ x.state = .lost → y = { x with relayHold := false }) ∧
    (x.relayHold = false → run = x.running → (x.state = .search ∨ x.state = .lost) → y = x) ∧
    (x.relayHold = false → run = x.running → moves → ¬ wrong → y = z) ∧
    (x.relayHold = false → run = x.running → moves → wrong → y.vis = z.vis ∧ y.s = 0 ∧ y.a = 0 ∧
      y.state = if x.state = .locked ∧ ¬ (run = true ∧ (s.param (1034 + 14 * c)).testBit 7 = true) then .lost else .search) ∧
    (x.relayHold = false → run = true → x.running = false → y = { x with running := true, state := .search }) ∧
    (x.relayHold = false → run = false → x.running = true → y.running = false ∧ y.state = .lost ∧ y.vis = x.vis ∧ y.s = 0 ∧ y.a = 0)

/-- R180 to R186: an edge that its input shows and that lasts through the filter reaches its tracker, stamped earlier by the filter's delay;
the tracker judges it by the course's kind, and what it is judged to be decides what happens. The rules of the pulse and mains kinds, of the
quadrature and Hall codes in forward motion, and of a resolver's first sample. -/
def Sys2Proof.Rules.CourseEdges : Prop := ∀ (s : State) (c : Fin 8) (f e : EdgeInfo) (k n : Int),
  let x := s.course c
  let kind := s.param (1034 + 14 * c) % 8
  let a := s.count .CRS_EDGES c
  let r := s.classify c x e
  let code := b2n e.a + 2 * b2n e.b + 4 * b2n e.c
  let falling := (s.param (1034 + 14 * c)).testBit 3
  let input := (s.param (1034 + 14 * c + 1)) / 256 ^ f.line.val % 256
  let filter := s.param (1034 + 14 * c + 4) % 4096
  (input = 0xFF ∨ f.held < filter → s.edgeSeen c f = none) ∧
  (0x40 ≤ input → input < 0x50 → s.bit .CP_OUT 0 (input - 0x40) ≠ f.rising → s.edgeSeen c f = none) ∧
  (s.edgeSeen c f = some e → e.line = f.line ∧ e.rising = f.rising ∧ e.slot = f.slot - 8 * filter) ∧
  (x.running = false ∨ kind ∈ [0, 3, 7] ∨ s.edgeSeen c f = none → Goes (.courseEdge c f) s s) ∧
  (x.running = true → kind ∉ [0, 3, 7] → s.edgeSeen c f = some e →
    (r ≠ .ignored → x.state = .lost → Goes (.courseEdge c f) s a) ∧
    (r = .ignored → x.state ≠ .search → Goes (.courseEdge c f) s (s.setCourse c { x with lines := code })) ∧
    (x.state ≠ .lost →
      (r = .reference k → Goes (.courseEdge c f) s (a.toSync c x k (s.edgeRev c x e r) e)) ∧
      (r = .pattern → Goes (.courseEdge c f) s ((a.setCourse c (x.after e none)).badEdge c true false)) ∧
      (r = .edge k n → Goes (.courseEdge c f) s (a.countedEdge c x k n (s.edgeRev c x e r) e)))) ∧
  (∀ sn cs : Int, ∀ slot : Nat, x.running = true → kind = 3 → x.state = .search →
    let b := s.takeSample (c, sn, cs, slot)
    let y := b.course c
    let lim : Int := (s.param (1034 + 14 * c + 10) % 65536 : Nat)
    (sn * sn + cs * cs < lim → b = a) ∧
    (lim ≤ sn * sn + cs * cs → y.state = .sync ∧ y.held = (x.held + 1) % 4096 ∧ y.s = 0 ∧ y.syncCount = 0 ∧ b = a.setCourse c y)) ∧
  (kind = 6 → e.line = 0 → e.rising ≠ falling →
    (x.state = .search → r = .reference 0) ∧
    (x.state ≠ .search → x.lastGap = none → r = .edge (x.edge + 1) (x.edge + 1))) ∧
  (kind = 5 → e.line = 0 → x.state ≠ .search →
    let k' := if ((x.edge + 1) % 2 = 0 ↔ e.rising = true) then x.edge + 1 else x.edge + 2
    r = .edge k' k') ∧
  (kind = 2 → e.line ≠ 2 → x.state ≠ .search → x.lastSlot ≠ none →
    (x.lines % 4, code % 4) ∈ [(0, 1), (1, 3), (3, 2), (2, 0)] → r = .edge (x.edge + 1) (x.edge + 1)) ∧
  (kind = 4 → x.state ≠ .search → x.lastSlot ≠ none →
    (x.lines % 8, code) ∈ [(5, 1), (1, 3), (3, 2), (2, 6), (6, 4), (4, 5)] → r = .edge (x.edge + 1) (x.edge + 1)) ∧
  (let y := s.toSync c x 0 false e
   (y.course c).state = .sync ∧ (y.course c).held = (x.held + 1) % 4096 ∧ (y.course c).syncCount = 0) ∧
  (x.state = .sync → ((s.badEdge c true false).course c).state = .search) ∧
  (x.state = .locked ∨ x.state = .coast → s.bit .CRS_CTRL c 15 = true → (s.param (1034 + 14 * c)).testBit 7 = false →
    ((s.badEdge c true false).course c).state = .lost)

/-- R185, R187, R188, R200, R369: coasting, its limit, the RUN request, resynchronisation, and the flits that carry positions. -/
def Sys2Proof.Rules.CourseControl : Prop := ∀ (s : State) (c : Fin 8) (v : Word),
  let x := s.course c
  let evt (s : State) (b : Nat) : State :=
    let a := s.setBit .CRS_EVT c b true
    if s.bit .CRS_CTRL c b then a.raise (s.param (1034 + 14 * c + 12) % 16) 2 else a
  let kind := s.param (1034 + 14 * c) % 8
  let lim := s.param (1034 + 14 * c + 7) / 256 % 2 ^ 20
  let frozen (y : Course) : Prop := y.vis = x.vis ∧ y.p = x.vis.toNat * 2 ^ 20 ∧ y.s = 0 ∧ y.a = 0
  let cto := s.param (1034 + 14 * c + 7) % 256
  (x.lastSlot = none → s.overdue c = false) ∧
  (∀ l, kind = 6 → x.lastSlot = some l → (s.overdue c = true ↔
    cto * (2 ^ 40 * 8) ≤ 16 * (8 * s.ticks - l) * x.s.natAbs * max 1 (s.param (1034 + 14 * c + 2) % 65536))) ∧
  (x.state = .locked → kind ≠ 7 → s.overdue c = true →
    Goes (.coastTimeout c) s (evt (s.setCourse c { x with state := .coast, a := 0, coastAdv := 0 }) 6)) ∧
  (x.state ≠ .locked ∨ kind = 7 ∨ s.overdue c = false → Goes (.coastTimeout c) s s) ∧
  (x.state = .coast → 0 < lim → lim * 2 ^ 20 ≤ x.coastAdv → ∃ y, frozen y ∧
    y.state = (if s.bit .CRS_CTRL c 15 = true ∧ (s.param (1034 + 14 * c)).testBit 7 = true then .search else .lost) ∧
    Goes (.coastLimit c) s (evt (s.setCourse c y) 5)) ∧
  (x.state ≠ .coast ∨ lim = 0 ∨ x.coastAdv < lim * 2 ^ 20 → Goes (.coastLimit c) s s) ∧
  (let a := s.setReg .CRS_CTRL c ((s.reg .CRS_CTRL c &&& 0x7E00) ||| (v &&& 0x81FF))
   v.getLsbD 14 = false → Goes (.courseRunRequest c v) s a) ∧
  (x.state = .lost → x.running = true → s.bit .CRS_CTRL c 15 = true → Goes (.courseResync c) s (s.setCourse c { x with state := .search })) ∧
  (x.state ≠ .lost ∨ x.running = false ∨ s.bit .CRS_CTRL c 15 = false → Goes (.courseResync c) s s) ∧
  (∃ t l, Goes .coursePositionSend s t ∧ Tab.get [] t.ml.fc.queues 0 = Tab.get [] s.ml.fc.queues 0 ++ l ∧ (∀ f ∈ l, f.ty = 5 ∧ f.ch = 0) ∧
    l.length = ((upto 8).filter fun c => (s.course c).running).length ∧ (∀ ch, ch ≠ 0 → Tab.get [] t.ml.fc.queues ch = Tab.get [] s.ml.fc.queues ch) ∧
    t = { s with fresh := s.fresh + l.length, ml := { s.ml with fc := { s.ml.fc with queues := t.ml.fc.queues } } })

/-- R178, R189 to R197: arming and disarming a joint, its firing and moving on, and the dispatch of actions. -/
def Obligations.Joints : Prop := ∀ (s : State) (j : Fin 128) (v : Word),
  let armed := ((s.setReg .JNT_POS_LO j (Tab.get 0 s.staging (RegKind.JNT_POS_LO.addr j))).setReg .JNT_POS_HI j v).setBit .JNT_CFG j 15 true
  let p := (armed.course (armed.jcourse j)).vis
  let mark (s : State) (k : RegKind) : State := s.setBit k (j / 16) (j % 16) true
  let drops := armed.bit .JNT_CFG j 6 = true
  ((armed.jmay j = false ∧ ¬ drops) ∨ armed.jbehind j p = false → Goes (.jointArm j v) s armed) ∧
  (armed.jmay j = true ∨ drops → armed.jbehind j p = true → Goes (.jointArm j v) s (armed.jlate j p)) ∧
  Goes (.jointDisarm j) s (s.setBit .JNT_CFG j 15 false) ∧
  (s.jmay j = true ↔ s.mayFire j) ∧
  (∀ q, s.fld .JNT_CFG j 8 7 = 0 → (s.jbehind j q = true ↔ distV q (s.jpos j) ≤ 0)) ∧
  (∀ q, s.fld .JNT_CFG j 8 7 = 1 → (s.jbehind j q = true ↔ distV (s.jpos j) q ≤ 0)) ∧
  (let fired := mark { s with jfired := Tab.set 0 j (s.ticks + 1) s.jfired } .JNT_FIRED
   let entry : Nat × Nat × Word × Word × Nat := (j.val, s.fld .JNT_CFG j 11 9, s.reg .JNT_TGT j, s.reg .JNT_ARG j, s.ticks)
   let later (x : Nat × Nat × Word × Word × Nat) : Prop := x.2.2.2.2 = s.ticks ∧ j.val < x.1
   ∀ slot, 4 ≤ s.fld .JNT_CFG j 11 9 →
    ((∀ x ∈ s.dispatch, ¬ later x) →
      (s.dispatch.length < 256 → s.jfire j slot = { fired with dispatch := s.dispatch ++ [entry] }) ∧
      (s.dispatch.length = 256 → s.jfire j slot = mark fired .JNT_DROP)) ∧
    (∀ l x r, s.dispatch = l ++ x :: r → (∀ y ∈ l, ¬ later y) → later x → s.dispatch.length < 256 →
      s.jfire j slot = { fired with dispatch := l ++ entry :: x :: r })) ∧
  (∀ q, Tab.get 0 s.jfired j = s.ticks + 1 ∨ s.bit .JNT_CFG j 6 = true → s.jlate j q = (mark s .JNT_DROP).jadvance j q) ∧
  (∀ q, s.jinc j = 0 → s.jadvance j q = s.setBit .JNT_CFG j 15 false) ∧
  (∀ q, 0 < s.jinc j → s.fld .JNT_CFG j 8 7 = 0 → distV q (s.jpos j) ≤ 0 → 0 < distV q (s.jpos j + BitVec.ofNat 32 (s.jinc j)) →
    s.jinc j < 2 ^ 31 → s.jadvance j q =
      let a := s.jpos j + BitVec.ofNat 32 (s.jinc j)
      (s.setReg .JNT_POS_LO j (loOf a)).setReg .JNT_POS_HI j (hiOf a)) ∧
  (∀ p0 p1, s.armed j = true → s.mayFire j → s.fld .JNT_CFG j 8 7 ≠ 1 →
    let d := distV p0 p1
    let q := distV p0 (s.jpos j)
    0 < q → q ≤ d → ∃ k : Nat, s.crossing? j p0 p1 = some k ∧ 8 * q ≤ k * d ∧ (k - 1) * d < 8 * q) ∧
  (s.dispTick = s.ticks + 1 ∨ s.dispatch = [] → Goes .jointDispatch s s) ∧
  (∀ i act tgt arg tick rest, s.dispTick ≠ s.ticks + 1 → s.dispatch = (i, act, tgt, arg, tick) :: rest →
    let a := { s with dispatch := rest, dispTick := s.ticks + 1 }
    let shed := (a.count .JNT_XSHED 0).setBit .JNT_DROP (i / 16) (i % 16) true
    let ready := s.bit .SYS_STAT 0 14
    (act = 4 → Goes .jointDispatch s (a.captureStart (wfld tgt 5 0))) ∧
    (act = 7 → Goes .jointDispatch s (a.modJoint (wfld tgt 4 0))) ∧
    (act = 6 → 8 ≤ wfld tgt 3 0 → Goes .jointDispatch s (a.raise (wfld tgt 3 0) 1)) ∧
    (act = 5 ∨ (act = 6 ∧ wfld tgt 3 0 < 8) → ready = false → Goes .jointDispatch s shed) ∧
    (act = 5 → ready = true → Goes .jointDispatch s
      (State.putFlit { a with crossing := s.crossing ++ [(wfld tgt 3 0, wfld tgt 15 12 * 65536 + arg.toNat)] } .fc 0 5)) ∧
    (act = 6 → wfld tgt 3 0 < 8 → ready = true → Goes .jointDispatch s ((a.putFlit .fc 0 5).raise (wfld tgt 3 0) 1)))

namespace Sys2Proof.Machine

/-- A modulator starts (R235): t counts from the next slot, with the committed period, duty and phase; A and B are low. -/
def State.started (s : State) (m : Nat) : State :=
  let x : Modulator := Tab.get {} s.mods m
  let z : Modulator := {
    x with t := 0, aRaw := false, bRaw := false, aFor := 0, bFor := 0, a := false, b := false
           lastP := (s.course (s.fld .MOD_CTRL m 13 11)).vis, bound := none }
  let y : Modulator := {
    z with per := w32of (s.reg .MOD_PER_HI m) (s.reg .MOD_PER_LO m), duty := w32of (s.reg .MOD_DUTY_HI m) (s.reg .MOD_DUTY_LO m)
           phase := w32of (s.reg .MOD_PHASE_HI m) (s.reg .MOD_PHASE_LO m) }
  ((((s.setMod m z).setMod m y).setBit .MOD_STAT m 15 true).setBit .MOD_STAT m 13 false).setBit .MOD_STAT m 12 false

/-- What EN of MOD_CTRL asks of a modulator that does not run (R235). -/
def State.enabled (s : State) (m : Nat) : State :=
  if s.bit .MOD_CTRL m 15 = false then s
  else if s.bit .MOD_CTRL m 9 = true ∧ s.bit .MOD_CTRL m 14 = false then s.setBit .MOD_STAT m 13 true
  else s.started m

/-- A supervision fault of a cell (R241). -/
def State.faulty (s : State) (c : Nat) : State :=
  let a := s.setBit .OC_FLT (c / 16) (c % 16) true
  (if a.bit .OC_CTRL 0 12 then a.raise (a.fld .OC_CTRL 0 11 8) 4 else a).evalCell c

end Sys2Proof.Machine

/-- R230 to R235, R241: modulators: requests, starts, period boundaries, holds, checker mismatches; the level and dead time of their
outputs. -/
def Sys2Proof.Rules.Modulators : Prop := ∀ (s : State) (m : Fin 32) (v : Word),
  let ctrl := s.setReg .MOD_CTRL m (writtenWord .MOD_CTRL (s.sealed .f) (s.reg .MOD_CTRL m) v)
  let st := s.reg .MOD_STAT m
  (st.getLsbD 15 = true → Goes (.modEnableRequest m v) s
    (if ctrl.bit .MOD_CTRL m 15 = true ∨ st.getLsbD 14 = true then ctrl else ctrl.setBit .MOD_STAT m 14 true)) ∧
  (st.getLsbD 15 = false → st.getLsbD 13 = true → Goes (.modEnableRequest m v) s
    (if ctrl.bit .MOD_CTRL m 15 then ctrl else ctrl.setBit .MOD_STAT m 13 false)) ∧
  (st.getLsbD 15 = false → st.getLsbD 13 = false → Goes (.modEnableRequest m v) s (ctrl.enabled m)) ∧
  (let lo := Tab.get (0 : Word) s.staging (RegKind.MOD_SYNC_LO.addr 0)
   let mask : W32 := w32of v lo
   ∃ u : Nat → State, u 0 = s ∧ Goes (.modSync v) s (u 32) ∧
    ∀ i < 32, (mask.getLsbD i = true ∧ (u i).bit .MOD_STAT i 13 = true → u (i + 1) = (u i).started i) ∧
      (¬ (mask.getLsbD i = true ∧ (u i).bit .MOD_STAT i 13 = true) → u (i + 1) = u i)) ∧
  (let x : Modulator := Tab.get {} s.mods m
   let pos := (s.course (s.fld .MOD_CTRL m 13 11)).vis.toNat
   let carrier := if s.bit .MOD_CTRL m 14 then (pos + 2 ^ 32 - x.phase.toNat) % 2 ^ 32 % x.per.toNat else (x.t + x.phase.toNat) % x.per.toNat
   x.per ≠ 0 → st.getLsbD 15 = true →
    (carrier ≠ 0 → Goes (.modPeriodBoundary m) s s) ∧
    (carrier = 0 → st.getLsbD 14 = false → Goes (.modPeriodBoundary m) s ((s.setMod m { x with bound := some (8 * s.ticks) }).setMod m { x with
      bound := some (8 * s.ticks)
      per := w32of (s.reg .MOD_PER_HI m) (s.reg .MOD_PER_LO m), duty := w32of (s.reg .MOD_DUTY_HI m) (s.reg .MOD_DUTY_LO m)
      phase := w32of (s.reg .MOD_PHASE_HI m) (s.reg .MOD_PHASE_LO m) })) ∧
    (carrier = 0 → st.getLsbD 14 = true → Goes (.modPeriodBoundary m) s
      (State.enabled ((((s.setMod m { x with
        aRaw := false, bRaw := false, aFor := 0, bFor := 0, a := false, b := false, bound := some (8 * s.ticks) }).setBit .MOD_STAT m 15
        false).setBit .MOD_STAT m 14 false).setBit .MOD_STAT m 12 false) m))) ∧
  (∀ pos, let cs := (s.course (s.fld .MOD_CTRL m 13 11)).state
    let p := s.modPrep m pos
    let y : Modulator := Tab.get {} p.mods m
    st.getLsbD 15 = true → st.getLsbD 14 = false → s.bit .MOD_CTRL m 14 = true →
    (cs = .locked ∨ cs = .coast → p.bit .MOD_STAT m 12 = false) ∧
    (cs ≠ .locked → cs ≠ .coast → p.bit .MOD_STAT m 12 = true ∧ y.a = false ∧ y.b = false)) ∧
  (∃ u : Nat → State, u 0 = s.setBit .MOD_STAT m 11 true ∧ Goes (.modCheckerMismatch m) s (u 64) ∧
    ∀ c < 64,
      let src := (u c).fld .OC_CFG c 15 13
      let named := ((src = 1 ∨ src = 2) ∧ (u c).fld .OC_CFG c 12 8 = m.val) ∨ (u c).fld .OC_SAFE c 6 2 = m.val
      (named → u (c + 1) = (u c).faulty c) ∧ (¬ named → u (c + 1) = u c)) ∧
  (∀ per duty c, 0 < duty → duty < per →
    (modHigh false per duty c = true ↔ c < duty) ∧ (modHigh true per duty c = true ↔ (per - duty) / 2 ≤ c ∧ c < (per + duty) / 2)) ∧
  (∀ c, modHigh false 0 0 c = false ∧ modHigh true 0 0 c = false) ∧
  (∀ (x : Modulator) (dt : Nat) (r : Bool), let y := x.levels dt r
    (y.a = true → r = true) ∧ (y.b = true → r = false) ∧ ¬ (y.a = true ∧ y.b = true) ∧
      (r = true → x.aRaw = false → 0 < dt → y.a = false) ∧ (r = false → x.bRaw = false → 0 < dt → y.b = false))

/-- R194, R237 to R242, R387, R413: output cells: the state they are in by their causes, pulses, supervision, safe exit, RESUME, and their
banks. -/
def Sys2Proof.Rules.OutputCells : Prop := ∀ (s : State) (c : Fin 64) (k : Fin 10) (mv : BitVec 12) (v : Word),
  let x : Cell := Tab.get {} s.cells c
  let fa := s.fld .OC_SAFE c 13 12
  let alone := s.bit .OC_CTRL 0 13 = true
  let safe := s.bit .OC_TRIPPED (c / 16) (c % 16) = true ∨ (s.bit .OC_FLT (c / 16) (c % 16) = true ∧ s.bit .OC_CFG c 5 = true) ∨
    s.bit .OC_CTRL 0 15 = true ∨ (alone ∧ (fa = 1 ∨ fa = 3))
  (safe → s.cellCause c = 2) ∧ (¬ safe → alone ∧ fa = 2 → s.cellCause c = 1) ∧ (¬ safe → ¬ (alone ∧ fa = 2) → s.cellCause c = 0) ∧
  (safe → ((s.evalCell c).cell c).state = 2 ∧ ∀ i, i ≠ c.val → (s.evalCell c).cell i = s.cell i) ∧
  (let sl := s.fld .OC_SAFE c 15 14
   s.levelIn c 2 = (if sl = 0 then .low else if sl = 1 then .high else .z)) ∧
  (s.bit .OC_CFG c 3 = false → s.levelIn c 0 = .z) ∧
  (∀ e, x.pulse = some e → Goes (.pinPulseEnd c) s (((s.setBit .OC_CFG c 6 false).setCell c { x with pulse := none, acted := none }).driveCell c e)) ∧
  (x.pulse = none → Goes (.pinPulseEnd c) s s) ∧
  (∀ n, let long := s.fld .OC_CTRL 0 7 0 + 1 ≤ min n (x.quiet - 64)
    (s.bit .OC_CFG c 4 = true → long → Goes (.ocReadbackFault c n) s (s.faulty c)) ∧
    (s.bit .OC_CFG c 4 = false ∨ ¬ long → Goes (.ocReadbackFault c n) s s)) ∧
  (let src := s.fld .OC_CFG c 15 13
   let m := s.fld .OC_CFG c 12 8
   let dt := s.fld .MOD_DT m 11 0
   let bound := (Tab.get ({} : Modulator) s.mods m).bound
   x.state ≠ 0 → ¬ safe → ¬ (alone ∧ fa = 2) →
    (src ≠ 1 → src ≠ 2 → Goes (.ocSafeExit c) s ((s.setCell c { x with state := 0, rise := 8 * s.ticks }).driveCell c (8 * s.ticks))) ∧
    (src = 1 ∨ src = 2 →
      (∀ b, bound = some b → 8 * s.ticks ≤ b + 8 →
        let r := (s.setCell c { x with state := 0, rise := b + dt }).driveCell c b
        Goes (.ocSafeExit c) s (if b + dt < 8 * s.ticks then r.driveCell c (b + dt) else r)) ∧
      ((bound = none ∨ ∃ b, bound = some b ∧ b + 8 < 8 * s.ticks) → Goes (.ocSafeExit c) s s))) ∧
  (safe → Goes (.ocSafeExit c) s s) ∧
  (let a := s.setReg .OC_CTRL 0 (writtenWord .OC_CTRL (s.sealed .f) (s.reg .OC_CTRL 0) v)
   Goes (.ocResume v) s ((upto 64).foldl (fun s c => s.evalCell c)
     (if v.getLsbD 14 = true ∧ a.bit .SYS_STAT 0 14 = true then a.setBit .OC_CTRL 0 13 false else a))) ∧
  (let a := { s with vio := Tab.set 0 k mv.toNat s.vio }
   Goes (.vioBankChange k mv) s a ∧
   ∀ g : Nat, (g / 32 ≠ k.val → a.ballDrive g = s.ballDrive g) ∧
    (g / 32 = k.val → mv.toNat < 1700 → a.ballDrive g = .z ∧ a.ballLevel g = (false, a))) ∧
  (mv.toNat < s.param (338 + 6 * k + 3) → Goes (.bankLossThreshold k mv) s
    ((State.setBit { s with vio := Tab.set 0 k mv.toNat s.vio } .GP_BANK k 14 true).raise (s.param (338 + 6 * k + 4) % 16) 4)) ∧
  (s.param (338 + 6 * k + 3) ≤ mv.toNat → Goes (.bankLossThreshold k mv) s s)

/-- Rules.CourseEdges; Rules.CourseControl. -/
def Obligations.Courses : Prop :=
  Sys2Proof.Rules.CourseEdges ∧ Sys2Proof.Rules.CourseControl

/-- Rules.Modulators; Rules.OutputCells. -/
def Obligations.Pulses : Prop :=
  Sys2Proof.Rules.Modulators ∧ Sys2Proof.Rules.OutputCells

namespace Sys2Proof.Machine

/-- A register given the value that a write of v leaves there. -/
def State.wrote (s : State) (k : RegKind) (i : Nat) (v : Word) : State :=
  s.setReg k i (writtenWord k (s.sealed k.die) (s.reg k i) v)

/-- A power transition of a converter begins. -/
def State.adMoving (s : State) (n : Nat) (g : Bool) : State :=
  ({ s with adcTrans := Tab.set none n (some g) s.adcTrans }).setBit .ADC_STAT n 14 true

end Sys2Proof.Machine

/-- R173, R202 to R207: the SAR converters: power, a software conversion, which conversion starts, what its end writes. -/
def Sys2Proof.Rules.Converters : Prop := ∀ (s : State) (n : Fin 4) (uv : Nat) (v : Word) (g : Bool) (c : Conv),
  let on := s.adOn n = true
  let absent := s.absentConv n = true
  let trans := Tab.get none s.adcTrans n
  let w := s.wrote .ADC_CTRL n v
  let still := (({ s with adcTrans := Tab.set none n none s.adcTrans }).setBit .ADC_STAT n 15 g).setBit .ADC_STAT n 14 false
  let ended := if g then still else still.dropWaiting n
  let i := wfld v 5 0
  let free : State := { s with waiting := s.waiting.filter fun c => c.level ≠ 3 }
  let code := BitVec.ofNat 16 (min 0xFFFF (uv * 65536 / Config.vrefa))
  (on ↔ s.bit .ADC_STAT n 15 = true ∧ ¬ absent) ∧
  ((∀ c ∈ s.waiting, c.res = none) → s.dropWaiting n =
    let a := { s with waiting := s.waiting.filter fun c => adOf c.input ≠ n }
    if ∃ c ∈ s.waiting, c.level = 3 ∧ adOf c.input = n then a.setBit .ADC_STAT n 13 true else a) ∧
  (trans = none → ¬ absent → w.bit .ADC_CTRL n 15 ≠ w.bit .ADC_STAT n 15 → Goes (.adcPowerRequest n v) s (w.adMoving n (w.bit .ADC_CTRL n 15))) ∧
  (trans ≠ none ∨ absent ∨ w.bit .ADC_CTRL n 15 = w.bit .ADC_STAT n 15 → Goes (.adcPowerRequest n v) s w) ∧
  (trans = some g → absent ∨ s.bit .ADC_CTRL n 15 = g → Goes (.adcPowerDone n) s ended) ∧
  (trans = some g → ¬ absent → s.bit .ADC_CTRL n 15 ≠ g → Goes (.adcPowerDone n) s (ended.adMoving n (!g))) ∧
  (wbit v 15 = true → i < 48 → s.adOn (i / 12) = true →
    Goes (.adcSwconv v) s (free.addConv { input := i, st := 0, level := 3, trig := s.ticks, slot := none })) ∧
  (wbit v 15 = true → i < 48 → s.adOn (i / 12) = false → Goes (.adcSwconv v) s (free.setBit .ADC_STAT (i / 12) 13 true)) ∧
  (on → s.conv n = none → s.waitingGroups n = [] → c ∈ s.waiting → adOf c.input = n →
    (∀ y ∈ s.waiting, adOf y.input = n → y.res = none ∧ y.slot = none ∧ y.level ≠ 0) → ∃ x ∈ s.waiting, adOf x.input = n ∧
    (∀ y ∈ s.waiting, adOf y.input = n → x.level < y.level ∨ (x.level = y.level ∧ x.trig ≤ y.trig)) ∧
    Goes (.adcConversionStart n) s ({ s with waiting := s.waiting.erase x }.setConv n (some { x with began := s.ticks }))) ∧
  (∀ k y, on → s.waiting = [c, y] → c.res = some (k, false) → y.res = some (k, true) → c.level = 0 → y.level = 0 → c.trig = y.trig →
    adOf c.input = n → adOf y.input ≠ n → s.conv n = none → s.conv (adOf y.input) = none → ∃ t, Goes (.adcConversionStart n) s t ∧
      t.waiting = [] ∧ t.conv n = some { c with began := s.ticks } ∧ t.conv (adOf y.input) = some { y with began := s.ticks }) ∧
  (s.conv n = some c → c.slot = none → c.res = none →
    Goes (.adcConversionDone n uv) s ((s.setConv n none).setReg .ADC_LAST c.input code)) ∧
  (∀ k cosine, s.conv n = some c → c.slot = none → c.res = some (k, cosine) →
    let a := (s.setConv n none).setReg .ADC_LAST c.input code
    let x : Int := (code.toNat : Int) - 32768
    let key (cosine : Bool) : Nat := 2 * k + b2n cosine
    (Tab.get none s.resHalf (key !cosine) = none →
      Goes (.adcConversionDone n uv) s { a with resHalf := Tab.set none (key cosine) (some x) s.resHalf }) ∧
    (∀ y, Tab.get none s.resHalf (key !cosine) = some y → Goes (.adcConversionDone n uv) s { a with
      resHalf := Tab.set none (key !cosine) none s.resHalf
      demod := s.demod ++ [(k, if cosine then y else x, if cosine then x else y, 8 * (c.began + 24))] })) ∧
  (∀ d w, s.conv n = some c → c.slot = some (d, w) → let x := s.cap d
    Goes (.adcConversionDone n uv) s (((s.setConv n none).setReg .ADC_LAST c.input code).setCap d
      { x with results := Tab.set 0 w code x.results, outstanding := x.outstanding - 1, resultTick := s.ticks }))

/-- R209 to R215: sigma-delta results, comparator outputs, SENT frames. -/
def Sys2Proof.Rules.Inputs : Prop := ∀ (s : State) (n : Fin 8) (m : Fin 16) (r : Fin 12) (uv : Nat) (v : Word) (f : SentRx)
    (clocks : List (Bool × Bool)) (k : Bool × Bool),
  let cfg := s.reg .SD_CFG n
  let osr := if 16 ≤ wfld cfg 8 0 ∧ wfld cfg 8 0 ≤ 256 then wfld cfg 8 0 else 256
  let left := Tab.get 0 s.sdSettle n
  let cp := s.reg .CP_CFG m
  let thr := s.fld .CP_DAC m 9 0 * Config.vrefa
  let hyst := (if wfld cp 7 6 = 0 then 0 else 5000 * 2 ^ (wfld cp 7 6 - 1)) * 1024
  let now := s.bit .CP_OUT 0 m
  let out : Bool := if wbit cp 8 then decide (uv * 1024 < (if now then thr + hyst else thr)) else decide (thr < uv * 1024 + (if now then hyst else 0))
  let moved : State := if out && !now then
      (let a := (s.setBit .CP_OUT 0 m true).setBit .CP_EVT 0 m true
       if s.bit .CP_IEN 0 m then a.raise (s.fld .CAP_CTRL 0 3 0) 3 else a)
    else s.setBit .CP_OUT 0 m out
  let se := s.reg .SE_CFG r
  let want := if 1 ≤ wfld se 14 12 ∧ wfld se 14 12 ≤ 6 then wfld se 14 12 else 6
  let cal := { s with sentCal := Tab.set 0 r f.calNs s.sentCal }
  let bad (s : State) (l : List Nat) : State :=
    (l.foldl (fun (s : State) b => s.setBit .SE_STAT r b true) { s with sentSer := Tab.set [] r [] s.sentSer }).count .SE_ERR r
  let wrongLen := f.pulses.length ≠ want + 2 + (if wbit se 11 then 1 else 0)
  let wrongNib := ∃ p ∈ f.pulses.take (want + 2), 15 < nibbleOf f.calNs p
  let x := Tab.get ({} : Sinc) s.sinc n
  let i1 := x.i1 + (if (if wbit cfg 13 then k.2 else k.1) then 1 else 0)
  let i2 := x.i2 + i1
  let i3 := x.i3 + i2
  let div := max 40 (s.fld .SD_CLK 0 7 0)
  let from' := Tab.get 0 s.sdFrom n
  (wbit cfg 15 = false ∨ (wbit cfg 14 = false ∧ s.bit .SD_CLK 0 15 = false) → Goes (.sdResult n clocks) s s) ∧
  (wbit cfg 15 = true → wbit cfg 14 = true → Goes (.sdResult n clocks) s (clocks.foldl (fun s k => s.sdClock n k) s)) ∧
  (wbit cfg 15 = true → wbit cfg 14 = false → s.bit .SD_CLK 0 15 = true →
    let l := clocks.take ((s.ticks - from') / div)
    Goes (.sdResult n clocks) s (l.foldl (fun s k => s.sdClock n k) { s with sdFrom := Tab.set 0 n (from' + l.length * div) s.sdFrom })) ∧
  (x.count + 1 < osr → s.sdClock n k = { s with sinc := Tab.set {} n { x with i1, i2, i3, count := x.count + 1 } s.sinc }) ∧
  (osr ≤ x.count + 1 →
    let sum := i3 - x.d1 - x.d2 - x.d3
    let a := { s with sinc := Tab.set {} n { i1, i2, i3, d1 := i3, d2 := i3 - x.d1, d3 := i3 - x.d1 - x.d2, count := 0 } s.sinc }
    (0 < left → s.sdClock n k = { a with sdSettle := Tab.set 0 n (left - 1) s.sdSettle }) ∧
    (left = 0 → s.sdClock n k = (a.setReg .SD_DATA n (BitVec.ofInt 16
      (max (-32768) (min 32767 ((sum - (osr ^ 3 / 2 : Nat)) / (2 ^ wfld cfg 12 9 : Nat)))))).setBit .SD_NEW 0 n true)) ∧
  (s.bit .CP_ON 0 m = true → Goes (.comparatorChange m uv false) s moved.tripCells) ∧
  (let a := s.wrote .CP_CFG m v
   Tab.get none s.cpTrans m = none →
   (a.bit .CP_CFG m 15 = true → a.bit .CP_ON 0 m = false → Goes (.cpPowerRequest m v) s { a with cpTrans := Tab.set none m (some true) a.cpTrans }) ∧
   (a.bit .CP_CFG m 15 = false → Goes (.cpPowerRequest m v) s ((a.setBit .CP_ON 0 m false).setBit .CP_OUT 0 m false).tripCells)) ∧
  (Tab.get none s.cpTrans m ≠ none → s.bit .CP_CFG m 15 = true →
    Goes (.cpPowerDone m) s ({ s with cpTrans := Tab.set none m none s.cpTrans }.setBit .CP_ON 0 m true)) ∧
  (wbit se 15 = true →
    (s.calOk r f.calNs = false → Goes (.sentFrame r f) s (bad s [12])) ∧
    (s.calOk r f.calNs = true →
      (wrongLen → ¬ wrongNib → Goes (.sentFrame r f) s (bad cal [10])) ∧
      (¬ wrongLen → wrongNib → Goes (.sentFrame r f) s (bad cal [11])) ∧
      (wrongLen → wrongNib → Goes (.sentFrame r f) s (bad cal [11, 10])) ∧
      (∀ nibs : List Nat, ¬ wrongLen → nibs.length = want + 2 →
        (∀ i < want + 2, nibs.getD i 0 ≤ 15 ∧ f.calNs * (2 * (nibs.getD i 0 + 12) - 1) ≤ 112 * f.pulses.getD i 0 ∧
          112 * f.pulses.getD i 0 < f.calNs * (2 * (nibs.getD i 0 + 12) + 1)) →
        let data := (nibs.drop 1).take want
        let status := nibs.getD 0 0
        let value := data.foldl (fun v x => v * 16 + x) 0
        let good := ((cal.setReg .SE_FAST_LO r (BitVec.ofNat 16 value)).setReg .SE_FAST_HI r
          (BitVec.ofNat 16 (status * 4096 + value / 65536 % 256))).setBit .SE_STAT r 15 true
        let kept := { good with sentSer := Tab.set [] r ((status :: Tab.get [] good.sentSer r).take 18) good.sentSer }
        let told : State := match kept.serialMessage r with
          | some (kind, id, w) => ((kept.setReg .SE_SER_ID r (BitVec.ofNat 16 (kind * 16384 + id))).setReg .SE_SER_DATA r
            (BitVec.ofNat 16 w)).setBit .SE_STAT r 14 true
          | none => kept
        (sentCrc (wbit se 10) data ≠ nibs.getD (want + 1) 0 → Goes (.sentFrame r f) s (bad cal [13])) ∧
        (sentCrc (wbit se 10) data = nibs.getD (want + 1) 0 →
          Goes (.sentFrame r f) s (if wbit se 7 then told.raise (told.fld .CAP_CTRL 0 3 0) 3 else told))))) ∧
  (wfld se 9 8 = 0 ∨ wfld se 9 8 = 3 → s.serialMessage r = none)

/-- R217 to R220: a capture starts, its groups and passes follow; a definition is enabled only if it passes its check. -/
def Obligations.Captures : Prop := ∀ (s : State) (d : Fin 64) (v : Word),
  let c := s.cap d
  let busy := s.bit .CAP_DEF_CTRL d 13
  let b := s.capFb d
  let running := ((upto 64).filter fun e => s.bit .CAP_DEF_CTRL e 13 && s.fld .CAP_DEF_CTRL e 9 7 = b).length
  let started : State := (s.setBit .CAP_DEF_CTRL d 13 true).setCap d
    { seq := c.seq, lost := c.lost, trigTick := s.ticks, passTick := s.ticks, entryTick := s.ticks, resultTick := s.ticks }
  let lost : State := (let a := (s.count .CAP_OVR d).setCap d { c with lost := min 0xFFFF (c.lost + 1) }
    if s.bit .CAP_CTRL 0 15 then a.raise (a.fld .CAP_CTRL 0 3 0) 3 else a)
  let on := s.bit .CAP_DEF_CTRL d 14
  let iv := (s.reg .CAP_DEF_INTV d).toNat
  let x := s.stampCourse d
  let lk : Bool := x.state = .locked
  (∀ base size n, on = true → busy = false → s.fbSlots b = some (base, size, n) → s.fbUsed b n + running + 1 < n →
    (wbit v 15 = true → wfld v 5 0 = d → Goes (.capSwtrig v) s started) ∧
    (s.fld .CAP_DEF_PER d 14 0 ≠ 0 → Goes (.capPeriodicTrigger d) s started)) ∧
  (on = true → busy = true → s.fld .CAP_DEF_PER d 14 0 ≠ 0 → Goes (.capPeriodicTrigger d) s lost) ∧
  (on = false → busy = false → wbit v 15 = true → let a := s.wrote .CAP_DEF_CTRL d v
    (a.capCheck d = true →
      Goes (.capDefEnable d v) s (((a.setBit .CAP_DEF_CTRL d 14 true).setBit .CAP_DEF_CTRL d 12 false).setCap d { c with seq := 0, enPending := false })) ∧
    (a.capCheck d = false →
      Goes (.capDefEnable d v) s (((a.setBit .CAP_DEF_CTRL d 15 false).setBit .CAP_DEF_CTRL d 12 true).setCap d { c with enPending := false }))) ∧
  (s.entryDue d = false → Goes (.listEntryStart d) s s) ∧
  (s.entryDue d = true ↔ c.notBefore ≤ s.ticks ∧
    (c.begun = false → c.trigTick < s.ticks) ∧ (c.begun = true → c.entry = 0 → c.passTick ≤ s.ticks) ∧
    (c.begun = true → c.entry ≠ 0 → c.entryTick < s.ticks)) ∧
  (∀ w, busy = true → s.entryDue d = true → c.entry < s.capCount d → s.group d c.entry = [w] → s.groupFirst d = true →
    (∀ i, wfld w 15 13 = 0 → wfld w 12 7 = i → i < 48 → s.adOn (i / 12) = true → s.conv (i / 12) = none →
      ∃ t, Goes (.listEntryStart d) s t ∧ t.conv (i / 12) = some
          { input := i, st := wfld w 5 4, level := if s.bit .CAP_DEF_CTRL d 10 then 1 else 2, trig := c.trigTick, slot := some (d, c.words), began := s.ticks } ∧
        (t.cap d).words = c.words + 1 ∧ (t.cap d).outstanding = c.outstanding + 1 ∧ (t.cap d).entry = c.entry + 1 ∧
        (t.cap d).stamp2 = x.vis ∧ (t.cap d).lock2 = lk ∧ (t.cap d).stamp1 = (if c.begun then c.stamp1 else x.vis) ∧
        (t.cap d).lock1 = (if c.begun then c.lock1 else lk)) ∧
    (∀ i, wfld w 15 13 = 0 → wfld w 12 7 = i → i < 48 → s.adOn (i / 12) = false →
      ∃ t, Goes (.listEntryStart d) s t ∧ Tab.get 0 (t.cap d).results c.words = 0 ∧ (t.cap d).err = true ∧ (t.cap d).words = c.words + 1) ∧
    (∀ i, wfld w 15 13 = 1 → wfld w 12 7 = i → i < 8 →
      ∃ t, Goes (.listEntryStart d) s t ∧ Tab.get 0 (t.cap d).results c.words = s.reg .SD_DATA i ∧ (t.cap d).words = c.words + 1) ∧
    (wfld w 15 13 = 3 →
      ∃ t, Goes (.listEntryStart d) s t ∧ Tab.get 0 (t.cap d).results c.words = s.reg .CP_OUT 0 ∧ (t.cap d).words = c.words + 1) ∧
    (wfld w 15 13 = 5 →
      ∃ t, Goes (.listEntryStart d) s t ∧ (t.cap d).notBefore = s.ticks + 8 * (wfld w 12 7 + 1) ∧ (t.cap d).words = c.words)) ∧
  (∀ n w, busy = true → s.entryDue d = true → c.entry < s.capCount d → s.group d c.entry = [w] → wfld w 15 13 = 0 → wfld w 12 7 / 12 = n → s.adOn n = true →
    s.conv n ≠ none → ∃ t, Goes (.listEntryStart d) s t ∧
      t = s.setCap d { c with waits := true, late := c.late || ((s.conv n).any fun y => match y.slot with
        | some p => p.1 ≠ d
        | none => y.level = 0) }) ∧
  (busy = true → s.capCount d ≤ c.entry → c.pass + 1 < s.capRep d → Goes (.passStart d) s (s.setCap d { c with
    pass := c.pass + 1, entry := 0, notBefore := 0, passTick := max (c.passTick + 8 * iv) c.entryTick
    late := c.late || (iv ≠ 0 && c.passTick + 8 * iv < c.entryTick) }))

/-- R221 to R224, R361: a complete frame with its trailer, its move to a ring with VALID written last, and the read indices. -/
def Obligations.CaptureFrames : Prop := ∀ (s : State) (d : Fin 64) (v : Word) (k : Fin 8),
  let c := s.cap d
  let b := s.capFb d
  let fr := s.frame d
  let wr := s.fld .CAP_FB_WR b 11 0
  (∀ j < c.words, fr.getD j 0 = Tab.get 0 c.results j) ∧
  (fr.getD c.words 0).toNat = 0x8000 + (if c.err then 0x4000 else 0) + (if c.late then 0x2000 else 0) + (if c.lock1 && c.lock2 then 0x1000 else 0) + 64 * d ∧
  (fr.drop (c.words + 1)).take 7 = [BitVec.ofNat 16 c.seq, c.stamp1.setWidth 16, (c.stamp1 >>> 16).setWidth 16, c.stamp2.setWidth 16,
    (c.stamp2 >>> 16).setWidth 16, BitVec.ofNat 16 c.lost, BitVec.ofNat 16 (min 0xFFFF ((c.resultTick - c.trigTick) / 8))] ∧
  fr.length = 32 * (((c.words + 8) * 2 + 63) / 64) ∧
  (∀ base size n, s.bit .CAP_DEF_CTRL d 13 = true → s.capCount d ≤ c.entry → s.capRep d ≤ c.pass + 1 → c.outstanding = 0 →
    s.fbSlots b = some (base, size, n) → s.bit .CAP_FB_CFG b 14 = false → c.enPending = false →
    let a := (s.writeWords64 ⟨.f, 10⟩ (base + size * wr) (packWords fr)).setFld .CAP_FB_WR b 11 0 ((wr + 1) % n)
    let r : State := if s.capCr d < 8 then { a with ready := a.ready ++ [{ fb := b, slot := wr, ring := s.capCr d, words := c.words }] } else a
    Goes (.frameComplete d) s ((r.setBit .CAP_DEF_CTRL d 13 false).setCap d { seq := (c.seq + 1) % 65536 })) ∧
  (∀ r rest fb fs fn rb rs rn, s.ready = r :: rest → s.fbSlots r.fb = some (fb, fs, fn) → s.crSlots r.ring = some (rb, rs, rn) →
    let w := s.fld .CAP_CR_WR r.ring 11 0
    let dst := rb + rs * w
    (s.computeReady = true → (w + 1) % rn ≠ s.fld .CAP_CR_RD r.ring 11 0 ∨ s.bit .CAP_CR_CFG r.ring 15 = true → s.bit .CAP_CR_CFG r.ring 14 = false →
      let p := s.readWords64 ⟨.f, 9⟩ (fb + fs * r.slot) (8 * frameLines r.words)
      let l := p.1.flatMap fun (q : W64) => [q.setWidth 16, (q >>> 16).setWidth 16, (q >>> 32).setWidth 16, (q >>> 48).setWidth 16]
      let beat (l : List Word) : List W64 := packWords ((upto 4).map fun i => l.getD (r.words / 4 * 4 + i) 0)
      let mark := dst + r.words / 4 * 8
      let m := (((p.2.writeWords64 ⟨.f, 9⟩ mark (beat (l.set r.words 0))).writeWords64 ⟨.f, 9⟩ dst
        (packWords (l.set r.words (l.getD r.words 0 &&& 0x7FFF)))).writeWords64 ⟨.f, 9⟩ mark (beat l))
      Goes .frameMove s { ((m.setFld .CAP_CR_WR r.ring 11 0 ((w + 1) % rn)).setFld .CAP_FB_RD r.fb 11 0 ((r.slot + 1) % fn)) with ready := rest }) ∧
    (s.computeReady = false ∨ ((w + 1) % rn = s.fld .CAP_CR_RD r.ring 11 0 ∧ s.bit .CAP_CR_CFG r.ring 15 = false) → Goes .frameMove s s)) ∧
  (∀ base size n, s.crSlots k = some (base, size, n) → 0 < n →
    let w := s.fld .CAP_CR_WR k 11 0
    let q := s.fld .CAP_CR_RD k 11 0
    let x := wfld v 11 0
    w < n → q < n →
    (x < n → (x + n - q) % n ≤ (w + n - q) % n → Goes (.slotRdWrite (.captureRing k) v) s (s.setFld .CAP_CR_RD k 11 0 x)) ∧
    (n ≤ x ∨ (w + n - q) % n < (x + n - q) % n → Goes (.slotRdWrite (.captureRing k) v) s (s.setFld .CAP_CR_RD k 11 0 q)))

/-- Rules.Converters; Rules.Inputs. -/
def Obligations.Measuring : Prop :=
  Sys2Proof.Rules.Converters ∧ Sys2Proof.Rules.Inputs

namespace Sys2Proof.Machine

/-- The configuration register of a port with a request (R359). -/
def portCfg (p : Nat) : RegKind × Nat :=
  if p < 4 then (.BPHY_PCFG, p) else if p < 8 then (.MT_CFG, p - 4) else if p < 14 then (.TS_CFG, p - 8) else (.CN_CFG, p - 14)

/-- A queue without its head, whose frame leaves the buffer when no queue holds it. -/
def State.popped (s : State) (q id : Nat) (rest : List Nat) : State := (s.setSwQueue q rest).freeFrame id

/-- A received frame counted (R332). -/
def State.received (s : State) (p n : Nat) : State := (s.portTally p 0).portTally p 1 n

/-- Port p sends without gates and shapers. -/
def State.plainPort (s : State) (p : Nat) : Prop :=
  s.switchReady = true ∧ s.portAct p = 2 ∧ s.idleSlope (8 * p + 5) = 0 ∧ s.idleSlope (8 * p + 6) = 0 ∧ (14 ≤ p ∨ entFld (s.portEnt p) 2 1 % 2 = 0)

/-- Entries of the tables that NSW_TBL_CMD.SEL names. -/
def tableSizes : List Nat := [1024, 25, 200, 3584, 512, 256, 128, 128, 3360]

end Sys2Proof.Machine

/-- R173, R359, R360: a port's request, the end of its start and of its stop, the loss of an MT link. -/
def Sys2Proof.Rules.Ports : Prop := ∀ (s : State) (p : Fin 25) (ok : Bool) (sp : BitVec 3) (v : Word) (m : Fin 4), p.val < 22 →
  let a := s.wrote (portCfg p).1 (portCfg p).2 v
  let req := a.portReq p
  (4 ≤ p.val ∨ s.switchLive = true → a.portAct p = 0 → req = true → p.val < 4 ∨ 8 ≤ p.val ∨ a.computeReady = true →
    Goes (.portEnableRequest p v) s (if p.val < 4 then ((a.setAct p 1).setFld .BPHY_PSTAT p 13 11 1).setBit .BPHY_PSTAT p 10 false else a.setAct p 1)) ∧
  (4 ≤ p.val ∨ s.switchLive = true → (a.portAct p = 2 ∧ req = true) ∨ (a.portAct p = 0 ∧ req = false) ∨ a.portAct p = 1 ∨ a.portAct p = 3 ∨
    (a.portAct p = 0 ∧ 4 ≤ p.val ∧ p.val < 8 ∧ a.computeReady = false) → Goes (.portEnableRequest p v) s a) ∧
  (a.portAct p = 2 → req = false → 14 ≤ p.val → Goes (.portEnableRequest p v) s (((a.setAct p 3).setUp p false 0).flushPort p)) ∧
  (a.portAct p = 2 → req = false → 8 ≤ p.val → p.val < 14 →
    Goes (.portEnableRequest p v) s ((((a.setAct p 3).setUp p false 0).flushPort p).setBit .TS_STAT (p - 8) 13 false)) ∧
  (s.portAct p = 1 → s.portReq p = true →
    (8 ≤ p.val → p.val < 14 →
      let beacons := s.bit .TS_CFG (p - 8) 14 && (ok || s.fld .TS_PLCA (p - 8) 15 12 = 0)
      let on := (s.setAct p 2).setBit .TS_STAT (p - 8) 13 beacons
      Goes (.portStartDone p ok sp) s (State.setUp { on with net := { on.net with plca := Tab.set (0, 0) (p - 8) (0, s.ticks) s.net.plca } } p true 1)) ∧
    (14 ≤ p.val → Goes (.portStartDone p true sp) s ((((s.setAct p 2).setFld .CN_STAT (p - 14) 13 12 0).setUp p true 0).fnetInt 3)) ∧
    (4 ≤ p.val → p.val < 8 → let r := s.fld .MT_CFG (p - 4) 14 13
      let rate := if r = 3 then min 2 (sp.toNat - 2) else r
      Goes (.portStartDone p true sp) s (((((s.setAct p 2).setBit .MT_STAT (p - 4) 13 true).setFld .MT_STAT (p - 4) 12 11 rate).setBit .MT_STAT (p - 4) 10
        (s.bit .MT_CFG (p - 4) 12)).setUp p true (rate + 2))) ∧
    (p.val < 8 ∨ 14 ≤ p.val → Goes (.portStartDone p false sp) s s)) ∧
  (s.portAct p = 3 → s.portReq p = false → p.val < 14 → Goes (.portStopDone p) s ((s.setAct p 0).flushPort p)) ∧
  (s.portAct p = 3 → s.portReq p = false → 14 ≤ p.val → Goes (.portStopDone p) s (((s.setAct p 0).flushPort p).setFld .CN_STAT (p - 14) 13 0 0x3000)) ∧
  (s.portAct (4 + m) = 2 → Goes (.mtLinkLoss m) s (((s.setAct (4 + m) 1).setFld .MT_STAT m 13 10 0).setUp (4 + m) false 0))

/-- R338 to R343: the stages of a backbone link, its time limits, training frames, what a lane sends in its superframes and what it makes of a
codeword it receives. -/
def Sys2Proof.Rules.Links : Prop := ∀ (s : State) (p : Fin 4) (lane : Fin 8) (f : TrainFrame) (errs frames : Nat) (cw : Codeword), s.switchLive = true →
  let st := s.fld .BPHY_PSTAT p 13 11
  let two := s.bit .BPHY_PCFG p 14
  let first (l : Nat) : Tap := { preset := max 1 (s.fld .BPHY_LCTL l 13 12) }
  let fallen (s : State) (p : Nat) : State := [2 * p, 2 * p + 1].foldl (fun s l =>
    (s.setBit .BPHY_LSTAT l 14 false).setLane l { pre := first l, main := first l, post := first l }) (s.setFld .BPHY_PSTAT p 13 11 2)
  let ready (l : Nat) : Prop := s.bit .BPHY_LSTAT l 14 = true ∧ (s.lane l).peerReady = true
  let slow := s.bit .BPHY_PSTAT p 10
  let mayDegrade := s.bit .BPHY_PCFG p 13
  let lp := lane.val / 2
  let recent := (Tab.get [] s.net.unc lp).filter fun t => s.ticks < t + 800000
  let gone : State := fallen (((s.portTally p 22).setAct p 1).setUp p false 0) p
  (st = 1 → two = true → s.bit .BPHY_LCTL (2 * p) 15 = false → s.bit .BPHY_LCTL (2 * p + 1) 15 = false →
    Goes (.bpLinkEvent p .signal) s (((fallen (s.setBit .BPHY_PSTAT p 10 false) p).setBit .BPHY_LSTAT (2 * p) 15 true).setBit .BPHY_LSTAT (2 * p + 1) 15 true)) ∧
  (st = 2 → two = false → s.bit .BPHY_LCTL (2 * p) 15 = false → ready (2 * p) → ∃ n, Goes (.bpLinkEvent p .ready) s
    (let a := ((State.setLane { s with fresh := s.fresh + 1 } (2 * p) { s.lane (2 * p) with sendFrom := some s.ticks }).setFld .BPHY_LSTAT (2 * p) 7 0
      n).setFld .BPHY_PSTAT p 13 11 3
     State.setFld { a with net := { a.net with laneMap := Tab.set 0 p 1 s.net.laneMap } } .BPHY_PSTAT p 9 8 1)) ∧
  (st = 2 → two = true → s.bit .BPHY_LCTL (2 * p) 15 = false → s.bit .BPHY_LCTL (2 * p + 1) 15 = false → ¬ ready (2 * p) ∨ ¬ ready (2 * p + 1) →
    Goes (.bpLinkEvent p .ready) s s) ∧
  (st = 3 → s.bit .BPHY_PCFG p 15 = true → Goes (.bpLinkEvent p .aligned) s
    (((s.setFld .BPHY_PSTAT p 13 11 4).setAct p 2).setUp p true (s.fld .BPHY_PSTAT p 9 8 + if slow then 4 else 5))) ∧
  (st = 4 → slow = true → Goes (.bpLinkEvent p .lost) s gone) ∧
  (st = 2 → (∀ l ∈ s.usable p, ¬ ready l) → slow = false → mayDegrade = true → Goes (.bpTrainTimeout p) s (fallen ((s.setBit .BPHY_PSTAT p 10 true).netInt 5) p)) ∧
  (st = 2 → (∀ l ∈ s.usable p, ¬ ready l) → slow = true ∨ mayDegrade = false → Goes (.bpTrainTimeout p) s (((s.setFld .BPHY_PSTAT p 13 11 1).portTally p 23).netInt 6)) ∧
  (st = 3 → Goes (.bpAlignTimeout p) s ((fallen s p).portTally p 22)) ∧
  (let rate := s.bit .BPHY_PSTAT lp 10
   let x := s.lane lane
   let ask (t : Tap) (r : TapReq) : Tap := match r with
     | .hold => t
     | .inc => { t with steps := t.steps + 1 }
     | .dec => { t with steps := t.steps - 1 }
     | .preset n => { preset := n.val + 1 }
   s.fld .BPHY_PSTAT lp 13 11 = 2 → lane.val ∈ s.usable lp → s.bit .BPHY_LCTL lane 14 = false →
   (f.crcOk = false ∨ f.rate14 ≠ rate → Goes (.bpTrainingFrame lane f) s s) ∧
   (f.crcOk = true → f.rate14 = rate → Goes (.bpTrainingFrame lane f) s
    (((s.setBit .BPHY_LSTAT lane 14 (f.errs < 100)).setBit .BPHY_LSTAT lane 13 (f.precode && s.bit .BPHY_PCFG lp 12)).setLane lane { x with
      pre := ask x.pre f.pre, main := ask x.main f.main, post := ask x.post f.post, peerLane := f.laneNo, peerReady := f.rxReady }))) ∧
  (3 ≤ s.fld .BPHY_PSTAT lp 13 11 → s.bit .BPHY_LCTL lane 14 = false →
    (errs ≤ 15 →
      let a := s.portTally lp 19 errs
      (∀ n c, cw = .align n c → Goes (.codewordReceive lane errs frames cw) s (a.setLane lane { s.lane lane with align := some (n, c) })) ∧
      (∀ h d m, cw = .status h d m → Goes (.codewordReceive lane errs frames cw) s (a.setLane lane { s.lane lane with status := some (h, d, m) })) ∧
      (cw = .fill ∨ (∃ n, cw = .data n) → Goes (.codewordReceive lane errs frames cw) s a)) ∧
    (15 < errs → s.fld .BPHY_PSTAT lp 13 11 ≠ 4 ∨ recent.length < s.fld .BPHY_PCFG lp 7 0 →
      let a := State.portTally { s with net := { s.net with spoilt := Tab.upd 0 lp (fun n => max frames n) s.net.spoilt } } lp 20
      Goes (.codewordReceive lane errs frames cw) s { a with net := { a.net with unc := Tab.set [] lp (s.ticks :: recent) a.net.unc } })) ∧
  (∀ t0, (s.lane lane).sendFrom = some t0 →
    let n := (s.ticks - t0) * 7 / (if s.bit .BPHY_PSTAT lp 10 then 1088 else 544)
    let slot := n % 448
    let d := 425 * (n / 448) + slot - 1
    let lanes : BitVec 2 := Tab.get 0 s.net.laneMap lp
    (slot = 0 → s.laneSends lane = some (.align (BitVec.ofNat 3 lane) (BitVec.ofNat 16 (n / 448)))) ∧
    (0 < slot → slot < 426 → s.laneSends lane = some (.data (if lanes = 3 then 2 * d + lane.val % 2 else d))) ∧
    (slot = 426 ∨ slot = 427 → ∃ h g, s.laneSends lane = some (.status h g lanes)) ∧
    (427 < slot → s.laneSends lane = some .fill))

/-- R335: the admission of a frame to the queue of a port that is ON. -/
def Obligations.QueueAdmission : Prop := ∀ (s : State) (f : SwFrame) (p : Nat),
  let c := (f.bytes.length + 4 + 255) / 256
  let q := 8 * p + f.cls
  let id := s.net.nextId
  let occ := s.occ q
  let free := s.freeCells
  let owed : Nat := ((upto 200).map fun q => s.qMin q - s.occ q).sum
  let spare : Int := ((free - c : Nat) : Int) - (owed : Int)
  p < 25 → f.cls < 8 → s.portAct p = 2 → c ≤ free → (∀ x ∈ s.net.store, x.id ≠ id) → (∀ e ∈ s.net.queues, id ∉ e.2) →
  (∀ k, s.idleSlope k = 0) →
  let t := s.enterQueues f [p]
  (occ + c ≤ s.qMin q ∨ (occ + c ≤ s.qMax q ∧ (c : Int) ≤ spare) →
    t.swQueue q = s.swQueue q ++ [id] ∧ t.swFrame id = some { f with id } ∧ t.occ q = occ + c ∧ t.net.counters = s.net.counters) ∧
  (¬ (occ + c ≤ s.qMin q ∨ (occ + c ≤ s.qMax q ∧ (c : Int) ≤ spare)) →
    t.swQueue q = s.swQueue q ∧ t.net.store = s.net.store ∧
    Tab.get 0 t.net.counters (32 * p + 10 + f.cls) = Tab.get 0 s.net.counters (32 * p + 10 + f.cls) + 1) ∧
  ∀ k, k ≠ q → t.swQueue k = s.swQueue k

/-- R331 to R333, R337, R338, R346, R349, R354, R357, R360: frames received at a port: what is discarded, what waits for the Mortar link, what
goes to the IF ring or into the switch with its time stamp, and what the policy for unknown partners makes of it. -/
def Obligations.FrameReception : Prop := ∀ (s : State) (p : Fin 25) (f : RxFrame), p.val < 14 → 4 ≤ p.val ∨ s.switchReady = true →
  let n := f.bytes.length + 4
  let good := f.fcsOk = true ∧ 64 ≤ n ∧ n ≤ s.maxLen p
  let spoilt := Tab.get 0 s.net.spoilt p
  let t0 : W64 := s.gptpNs - BitVec.ofNat 64 f.age
  let node := if 8 ≤ p.val ∧ s.bit .TS_CFG (p - 8) 14 = true ∧ s.bit .TS_STAT (p - 8) 13 = true then f.node else none
  let a : State := (match node with
    | some k => let r := s.received p n; { r with net := { r.net with plca := Tab.set (0, 0) (p - 8) (k.toNat + 1, s.ticks) r.net.plca } }
    | none => s.received p n)
  let held := Tab.get [] s.net.rxHeld p
  (s.portAct p = 3 → Goes (.frameReceive p f) s (s.portTally p 3)) ∧
  (s.portAct p = 2 → spoilt ≠ 0 →
    Goes (.frameReceive p f) s (State.portTally { s with net := { s.net with spoilt := Tab.upd 0 p (· - 1) s.net.spoilt } } p 2)) ∧
  (s.portAct p = 2 → spoilt = 0 → ¬ good → Goes (.frameReceive p f) s (s.portTally p 2)) ∧
  (s.portAct p = 2 → spoilt = 0 → good → etherType f.bytes = 0x8808 → Goes (.frameReceive p f) s ((s.received p n).portTally p 7)) ∧
  (s.portAct p = 2 → spoilt = 0 → good → etherType f.bytes ≠ 0x8808 →
    (4 ≤ p.val → s.computeReady = false →
      Goes (.frameReceive p f) s (a.toIf { bytes := f.bytes, port := p, cls := pcpOf f.bytes, stamp := t0 })) ∧
    (4 ≤ p.val → s.computeReady = true → s.linkUp = true → s.macsecOn p = false →
      Goes (.frameReceive p f) s (a.ingress p f.bytes t0 node none)) ∧
    (4 ≤ p.val → s.computeReady = true → s.linkUp = false → held.foldl (fun n x => n + x.size) n ≤ 16384 →
      Goes (.frameReceive p f) s { a with net := { a.net with rxHeld := Tab.set [] p (held ++ [.eth f.bytes t0 node]) s.net.rxHeld } }) ∧
    (4 ≤ p.val → s.computeReady = true → s.linkUp = false → 16384 < held.foldl (fun n x => n + x.size) n →
      Goes (.frameReceive p f) s (a.portTally p 2)) ∧
    (p.val < 4 → s.computeReady = true → s.macsecOn p = false → ∃ d < 3,
      Goes (.frameReceive p f) s (State.ingress { a with fresh := s.fresh + 1 } p f.bytes (t0 + BitVec.ofNat 64 d - 1) none none))) ∧
  -- R332, R333: the cells of a frame; a frame from an unknown source whose destination the roster does not hold
  (s.freeCells < (n + 255) / 256 → s.ingress p f.bytes t0 f.node none = s.dropTally p 5) ∧
  (s.macEntry (bytesAt f.bytes 6 6) (vidOf f.bytes) = none → s.bit .NSW_PCTL p 14 = false → f.node = none → (n + 255) / 256 ≤ s.freeCells →
    let x : SwFrame := { bytes := f.bytes, port := p, cls := pcpOf f.bytes, stamp := t0 }
    let unknown := s.macEntry (bytesAt f.bytes 0 6) (vidOf f.bytes) = none
    let copy := if 8 ≤ p.val then 23 else 22
    (s.fld .NSW_PCTL p 13 12 = 0 → unknown → 6 ≤ f.bytes.length →
      s.bit .NSW_CTRL 0 15 = false ∨ (f.bytes.getD 0 0).getLsbD 0 = true →
      let ports := ((upto 25).filter fun k => s.bit .NSW_PCTL k 15).filter fun k => k ≠ p.val
      ports ≠ [] → s.ingress p f.bytes t0 f.node none = s.enterQueues { x with filt := 0x3FF } ports) ∧
    (s.fld .NSW_PCTL p 13 12 = 1 → unknown → s.ingress p f.bytes t0 f.node none = s.enterQueues { x with filt := 0x3FF } [copy]) ∧
    (s.fld .NSW_PCTL p 13 12 = 2 → s.ingress p f.bytes t0 f.node none = s) ∧
    (s.fld .NSW_PCTL p 13 12 = 3 → s.ingress p f.bytes t0 f.node none = s.dropTally p 4))

/-- R336, R347, R360, R361: what a port sends, and what happens to the slots of a transmit ring. -/
def Obligations.FrameTransmission : Prop := ∀ (s : State) (p : Fin 25) (c : Fin 8) (id : Nat) (rest : List Nat) (f : SwFrame) (r : TxRing),
  let q := 8 * p.val + c.val
  let g := s.txRing r
  let rd := g.2.2.2
  let a := g.1.base + 4096 * (rd % g.1.slots)
  let bad (w0 : Nat) (s : State) : State := (s.portTally g.2.1 2).slotDone r a w0 rd g.1.slots
  (s.plainPort p → s.swQueue q = id :: rest → (∀ k : Fin 8, c < k → s.swQueue (8 * p.val + k.val) = []) → s.swFrame id = some f →
    (let sent := (s.popped q id rest).putWire p c f f.bytes
     let i := p.val - 8
     let beacons := s.bit .TS_STAT i 13 = true
     let nodeId := s.fld .TS_PLCA i 15 12
     (p.val < 8 → s.macsecOn p = false → p.val < 4 ∨ s.linkUp = true → Goes (.frameTransmit p) s sent) ∧
     (8 ≤ p.val → p.val < 14 → s.linkUp = true → s.bit .TS_CFG i 14 = true →
       (¬ beacons → Goes (.frameTransmit p) s sent) ∧
       (beacons → nodeId ≠ 0 ∨ s.plcaTurn i = some 0 →
         Goes (.frameTransmit p) s { sent with net := { sent.net with plca := Tab.set (0, 0) i (nodeId + 1, s.ticks) sent.net.plca } }) ∧
       (beacons → nodeId = 0 → s.plcaTurn i ≠ some 0 → Goes (.frameTransmit p) s s))) ∧
    (4 ≤ p.val → p.val < 22 ∨ p.val = 23 → s.linkUp = false → Goes (.frameTransmit p) s s) ∧
    (22 ≤ p.val → p.val ≠ 23 ∨ s.linkUp = true → s.rxFree p = true →
      Goes (.frameTransmit p) s ((((s.popped q id rest).ringPut p f).portTally p 8).portTally p 9 (f.bytes.length + 4))) ∧
    (22 ≤ p.val → p.val ≠ 23 ∨ s.linkUp = true → s.rxFree p = false → Goes (.frameTransmit p) s s) ∧
    (14 ≤ p.val → p.val < 22 → s.linkUp = true → s.fld .CN_STAT (p - 14) 13 12 < 2 → s.bit .CN_CFG (p - 14) 7 = false →
      let x := s.canSend (p - 14) (f.can.getD (Config.canOfBytes f.bytes))
      Goes (.frameTransmit p) s (if x.1 then ((x.2.popped q id rest).portTally p 8).portTally p 9 f.bytes.length else x.2))) ∧
  (wbit g.1.cfg 15 = true → g.2.2.1 % g.1.slots ≠ rd % g.1.slots → s.computeReady = true → s.switchReady = true →
    ∀ h t, s.readMem g.1.m a 16 = (.ok h, t) →
    let w0 := leAt h 0 2
    let n := leAt h 2 2
    let e := w0 / 256 % 32
    (w0 < 0x8000 ∨ n < 60 ∨ t.maxLen g.2.1 < n + 4 → Goes (.transmitSlot r) s (bad w0 t)) ∧
    (0x8000 ≤ w0 → 60 ≤ n → n + 4 ≤ t.maxLen g.2.1 → w0 / 0x2000 % 2 = 0 ∨ e < 25 →
      (t.gptpNs.toNat < leAt h 4 8 → Goes (.transmitSlot r) s t) ∧
      (∀ b u, leAt h 4 8 ≤ t.gptpNs.toNat → t.readMem g.1.m (a + 16) n = (.ok b, u) →
        let done := ((u.portTally g.2.1 0).portTally g.2.1 1 (n + 4)).slotDone r a w0 rd g.1.slots
        let slot := if w0 / 0x4000 % 2 = 1 then some (g.1.m, a) else none
        (w0 / 0x2000 % 2 = 1 → Goes (.transmitSlot r) s
          (done.enterQueues { bytes := b, port := g.2.1, cls := pcpOf b, stamp := u.gptpNs, slot } [e])) ∧
        (w0 / 0x2000 % 2 = 0 → Goes (.transmitSlot r) s (done.ingress g.2.1 b u.gptpNs none slot)))))

/-- R331, R332, R347, R348, R357, R360: CAN frames with the receive error count and the acknowledgement, the batches of ACF messages, bus-off
recovery. -/
def Obligations.CanFrames : Prop := ∀ (s : State) (ch : Fin 8) (f : CanFrame) (link : BitVec 11) (i : Nat),
  let p := 14 + ch.val
  let fits := match f.fmt with
    | .classical => True
    | .fd => 1 ≤ s.fld .CN_CFG ch 14 13
    | .xl => 2 ≤ s.fld .CN_CFG ch 14 13
  let good := f.ok = true ∧ fits
  let heard := s.canGotEvent ch true
  let a := heard.received p f.data.length
  let rec' : Nat := Tab.get 0 s.net.canRec ch
  let raw : SwFrame := { bytes := Config.canBytes f, port := p, cls := s.fld .CN_CFG ch 10 8, stamp := s.gptpNs, can := some f }
  let flood := if s.bit .NSW_CTRL 0 15 then [22] else ((upto 25).filter fun k => s.bit .NSW_PCTL k 15).filter fun k => k ≠ p
  let e := s.ros i
  let msgs := Tab.get [] s.net.acf (2048 * ch.val + link.toNat)
  (s.portAct p = 3 → Goes (.canFrameReceive ch f) s (s.portTally p 3)) ∧
  (s.portAct p = 2 → ¬ good → Goes (.canFrameReceive ch f) s ((s.canGotEvent ch false).portTally p 2)) ∧
  (Tab.get 0 heard.net.canRec ch = (if 127 < rec' then 127 else rec' - 1) ∧
    Tab.get 0 (s.canGotEvent ch false).net.canRec ch = min 255 (rec' + 1) ∧
    Tab.get 0 heard.net.canAcks ch = Tab.get 0 s.net.canAcks ch + (if s.bit .CN_CFG ch 7 then 0 else 1)) ∧
  (s.portAct p = 2 → good → s.computeReady = true → s.linkUp = false → Goes (.canFrameReceive ch f) s (a.hold p (.can f s.gptpNs))) ∧
  (s.portAct p = 2 → good → s.computeReady = false ∨ s.linkUp = true →
    (s.computeReady = false → Goes (.canFrameReceive ch f) s (a.toIf raw)) ∧
    (s.computeReady = true → s.canEntry ch f.ident.toNat = none →
      (s.fld .NSW_PCTL p 13 12 = 0 → Goes (.canFrameReceive ch f) s (a.enterQueues raw flood)) ∧
      (s.fld .NSW_PCTL p 13 12 = 1 → Goes (.canFrameReceive ch f) s (a.enterQueues raw [23])) ∧
      (s.fld .NSW_PCTL p 13 12 = 3 → Goes (.canFrameReceive ch f) s (a.dropTally p 4)) ∧
      (s.fld .NSW_PCTL p 13 12 = 2 → Goes (.canFrameReceive ch f) s a)) ∧
    (s.computeReady = true → s.canEntry ch f.ident.toNat = some i → Tab.get false s.net.present i = true → rosLink e ≠ 0x7FF →
      (rosAction e = 0 → Goes (.canFrameReceive ch f) s (a.acfAdd ch (rosLink e) i f)) ∧
      (rosAction e = 1 → Goes (.canFrameReceive ch f) s ((a.enterQueues { raw with src := some i } [23]).acfAdd ch (rosLink e) i f)) ∧
      (rosAction e = 2 → Goes (.canFrameReceive ch f) s a))) ∧
  (s.switchReady = true → msgs ≠ [] →
    let b := { s with net := { s.net with acf := Tab.set [] (2048 * ch.val + link.toNat) [] s.net.acf
                                          acfSeq := Tab.upd 0 ch (fun q : Byte => q + 1) s.net.acfSeq } }
    let bytes := s.ntscf ch link.toNat msgs
    (s.freeCells < (bytes.length + 4 + 255) / 256 → Goes (.acfBatchExpiry ch link) s (b.dropTally p 5)) ∧
    ((bytes.length + 4 + 255) / 256 ≤ s.freeCells →
      Goes (.acfBatchExpiry ch link) s (b.forward { bytes, port := p, cls := s.fld .CN_CFG ch 10 8, stamp := s.gptpNs }))) ∧
  (s.fld .CN_STAT ch 13 12 = 2 → s.bit .CN_CFG ch 11 = true →
    Goes (.canBusOffRecovery ch) s (((State.setFld { s with net := { s.net with canRec := Tab.set 0 ch.val 0 s.net.canRec } } .CN_STAT ch 13 12 0).setFld .CN_STAT ch 7 0 0).fnetInt 3))

/-- R349, R350, R353, R356, R366: the clock's step, capture and holdover, the gate lists, the ages of partners and of FRER functions. -/
def Obligations.NetworkTime : Prop := ∀ (s : State) (v : Word) (p : Fin 25) (ix : BitVec 10) (g : BitVec 7),
  let w (k : Nat) : Word := Tab.get 0 s.staging (RegKind.GPTP_STEP.addr k)
  let st := s.fld .GPTP_CTL 0 14 13
  let cs := (s.course 7).vis.toNat / 2 ^ 20
  let x := s.gateOf p
  let i := ix.toNat
  let e := s.ros i
  let frer := entFld (Tab.get 0 s.net.frerTab g.toNat) 0 1
  (∃ t, Goes (.gptpStepApply v) s t ∧ t.gptpNs = s.gptpNs + (v ++ w 2 ++ w 1 ++ w 0 : BitVec 64) ∧
    t.fld .GPTP_STAT 0 15 14 = (if st = 3 then 0 else st)) ∧
  (∃ t, Goes .gptpTimeCapture s t ∧ t.resp.ok = true ∧ t.resp.data = (s.gptpNs.setWidth 16).setWidth 64 ∧ t.regs = s.regs ∧
    ∀ k, 1 ≤ k → k < 4 → Tab.get none t.captures (RegKind.GPTP_TIME.addr k) = some ((s.gptpNs >>> (16 * k)).setWidth 16)) ∧
  (let due := s.gptpLast + 800000 * s.fld .GPTP_CTL 0 11 0 ≤ s.ticks
   (¬ due → Goes .gptpHoldover s s) ∧
   (due → s.fld .GPTP_STAT 0 15 14 ≠ 3 → Goes .gptpHoldover s ((s.setFld .GPTP_STAT 0 15 14 3).fnetInt 1))) ∧
  (s.switchLive = true → ∃ t, Goes .gateCycleStart s t ∧ t.net.portTab = s.net.portTab ∧ t.net.queues = s.net.queues ∧ ∀ k < 14,
    t.gateOf k = if (s.gateOf k).chg = true ∧ s.gateChange k = cs then { entry := 0, oper := !(s.gateOf k).oper, chg := false }
      else { s.gateOf k with entry := 0 }) ∧
  (s.switchLive = true → p.val < 14 → x.entry + 1 < s.gateCount p x.oper →
    ∃ t, Goes (.gateEntryExpiry p) s t ∧ t.gateOf p = { x with entry := x.entry + 1 } ∧ ∀ k, k ≠ p.val → t.gateOf k = s.gateOf k) ∧
  (s.switchReady = true → rosStatic e = false → rosKind e = 1 ∨ rosKind e = 2 → s.param 1361 % 65536 ≠ 0 →
    ∃ t, Goes (.rosterAgeExpiry ix) s t ∧ t.ros i = 0 ∧ (∀ k, k ≠ i → t.ros k = s.ros k) ∧
    ((s.param 1362).testBit (rosPort e) = true → s.net.events.length < 32 → t.net.events = s.net.events ++ [BitVec.ofNat 16 (0x8000 + i)])) ∧
  (frer / 2 % 2 = 1 → ∃ t, Goes (.frerResetExpiry g) s t ∧ (t.frer g.toNat).started = false ∧ ∀ k, k ≠ g.toNat → t.frer k = s.frer k)

/-- R355, R363: accesses to the switch's tables: GO, what a read and a write do, what is refused. -/
def Obligations.SwitchTables : Prop := ∀ (s : State) (v : Word) (sel ix part : Nat) (d : BitVec 128) (l : List Word),
  let data := s.reg .NSW_TBL_IDX 0 :: [0, 1, 2, 3, 4, 5, 6, 7].map fun i => s.reg .NSW_TBL_D i
  let begun := { s with net := { s.net with access := some v, accessData := data } }.setBit .NSW_TBL_STAT 0 15 true
  let sel' := wfld v 12 9
  let part' := wfld v 8 6
  let ended := { s with net := { s.net with access := none, accessData := [] } }
  let ok (s : State) : State := (s.setBit .NSW_TBL_STAT 0 15 false).setBit .NSW_TBL_STAT 0 14 true
  let at' := (l.getD 0 0).toNat % 4096
  let word (k : Nat) : BitVec 128 := (l.getD k 0).setWidth 128
  let entry : BitVec 128 := word 1 ||| word 2 <<< 16 ||| word 3 <<< 32 ||| word 4 <<< 48 ||| word 5 <<< 64 ||| word 6 <<< 80 ||| word 7 <<< 96 |||
    word 8 <<< 112
  (wbit v 15 = true → s.net.access = none → s.switchLive = true →
    Goes (.nswTableRead v) s begun ∧ Goes (.nswTableWrite v) s begun ∧ Goes (.nswCounterClear v) s begun) ∧
  (s.net.access = some v → s.net.accessData = l → l.length = 9 →
    (wbit v 14 = true → ended.tableWrite sel' at' part' entry = none → Goes .nswTableDone s ((ok ended).setBit .NSW_TBL_STAT 0 13 true)) ∧
    (∀ t, wbit v 14 = true → ended.tableWrite sel' at' part' entry = some t → Goes .nswTableDone s (ok t)) ∧
    (wbit v 14 = false → (ended.tableRead sel' at' part').1 = none → Goes .nswTableDone s ((ok ended).setBit .NSW_TBL_STAT 0 13 true)) ∧
    (∀ x, wbit v 14 = false → (ended.tableRead sel' at' part').1 = some x → ∃ t, Goes .nswTableDone s t ∧
      (∀ i < 8, t.reg .NSW_TBL_D i = (x >>> (16 * i)).setWidth 16) ∧ t.bit .NSW_TBL_STAT 0 14 = true ∧ t.bit .NSW_TBL_STAT 0 15 = false ∧
      t.net.roster = s.net.roster ∧ t.net.counters = (if wbit v 13 = true ∧ sel' = 8 then Tab.set 0 at' 0 s.net.counters else s.net.counters))) ∧
  (tableSizes.getD sel 0 ≤ ix → (s.tableRead sel ix part).1 = none ∧ s.tableWrite sel ix part d = none) ∧
  (ix < 1024 → ∀ t, s.tableWrite 0 ix part d = some t → t.ros ix = d &&& tableMask 0 part d ∧ entFld (t.ros ix) 10 4 / 2 ^ 27 = 0 ∧ (∀ k, k ≠ ix → t.ros k = s.ros k) ∧ rosKind d ≤ 3 ∧ rosAction d ≠ 3) ∧
  (ix < 200 → ∀ t, s.tableWrite 2 ix part d = some t → t.qMin ix = entFld d 0 4 ∧ t.qMax ix = entFld d 4 4) ∧
  (sel = 8 → s.tableWrite sel ix part d = none) ∧
  (∀ x, ix < 3360 → (s.tableRead 8 ix part).1 = some x → x = (Tab.get 0 s.net.counters ix).setWidth 128)

/-- Rules.Ports; Rules.Links. -/
def Obligations.PortsAndLinks : Prop :=
  Sys2Proof.Rules.Ports ∧ Sys2Proof.Rules.Links

namespace Sys2Proof.Machine

/-- A table entry that a state's debug port leaves: STATUS of DBG_ACCESS with the access's answer (R405). -/
def State.debugged (s : State) (ok : Bool) (data : W64) (cause : BitVec 3) (st : BitVec 2) : State :=
  { s with resp := { ok, data, cause }, dbg := { s.dbg with status := st } }

/-- The slots that channel c of a direction has waited once ch, if any, was sent (R369). -/
def LinkDir.waited (l : LinkDir) (c n : Nat) (ch : Option Nat) : Nat := if ch = some c ∨ (Tab.get [] l.queues c).isEmpty = true then 0 else n + 1

end Sys2Proof.Machine

/-- R368: a flit that arrives as it was sent is the flit; one with a single wrong bit fails its CRC. -/
def Obligations.FlitCoding : Prop := ∀ (f : Flit), f.ty.toNat ≤ 6 →
  Flit.decode f.encode = some f ∧ ∀ k < 288, Flit.decode (f.encode ^^^ (1 : BitVec 288) <<< k) = none

/-- R369, R371, R373: what is sent in a slot of the link (a failure to report first, then a replay, then a new flit, then what is owed), and what
becomes of a flit that arrives: a good one in sequence is delivered and its credit is to be returned; a CRC failure is reported; a LINK flit
frees the flits that it acknowledges, returns credits, and makes the sender replay the rest where it reports a failure. The layout of a LINK
flit's payload is the model's (log entry 54). -/
def Obligations.Flits : Prop := ∀ (s : State) (d : Dir) (f : Flit) (rest : List Flit) (ch : Fin 4) (raw : BitVec 288) (errs : List Nat),
  let l := s.link d
  let o := otherDir d
  let r := s.link o
  let ready (c : Nat) : Prop := Tab.get [] l.queues c ≠ [] ∧ 0 < Tab.get 32 l.credits c
  let gone (c : Option Nat) (x : LinkDir) : LinkDir :=
    { x with slots := x.slots + 1, starve2 := x.waited 2 x.starve2 c, starve3 := x.waited 3 x.starve3 c }
  let reports : Prop := ∃ x : BitVec 256, x.setWidth 8 = r.expect - 1 ∧ x.getLsbD 8 = r.report ∧
    (∀ c < 4, (x >>> (16 + 8 * c)).setWidth 8 = Tab.get (0 : Byte) r.given c) ∧
    Goes (.flitSend d) s ((s.setLink o { r with report := false, owed := false }).setLink d
      (gone none { l with wire := some (Flit.encode { ty := 2, ch := 0, payload := x }) }))
  let idle : Prop := l.resend = [] ∧ (128 ≤ l.replay.length ∨ ∀ c < 4, ¬ ready c)
  s.linkUp = true →
  (l.slots % 4096 ≠ 4095 →
    (r.report = true → reports) ∧
    (r.report = false →
      (l.resend = f :: rest → Goes (.flitSend d) s (s.setLink d (gone none { l with resend := rest, wire := some f.encode }))) ∧
      (l.resend = [] → l.replay.length < 128 → ready ch → Tab.get [] l.queues ch = f :: rest →
        (ch = 2 ∧ 7 ≤ l.starve2) ∨ (ch = 3 ∧ 7 ≤ l.starve3 ∧ ¬ (ready 2 ∧ 7 ≤ l.starve2)) ∨
          ((∀ c < ch.val, ¬ ready c) ∧ ¬ (ready 2 ∧ 7 ≤ l.starve2) ∧ ¬ (ready 3 ∧ 7 ≤ l.starve3)) →
        let g := { f with seq := l.nextSeq }
        Goes (.flitSend d) s (s.setLink d (gone (some ch) { l with
          queues := Tab.set [] ch rest l.queues, credits := Tab.upd 32 ch (fun n => n - 1) l.credits, replay := l.replay ++ [g]
          nextSeq := l.nextSeq + 1, wire := some g.encode }))) ∧
      (idle → r.owed = true → reports) ∧
      (idle → r.owed = false →
        Goes (.flitSend d) s (s.setLink d (gone none { l with wire := some (Flit.encode { ty := 0, ch := 0, payload := 0 }) }))))) ∧
  (l.slots % 4096 = 4095 → ∃ x : BitVec 256, Goes (.checkFlitSend d) s
    (({ s with fresh := s.fresh + 1 }).setLink d (gone none { l with wire := some (Flit.encode { ty := 1, ch := 0, payload := x }) }))) ∧
  (Flit.decode raw = none → Goes (.flitReceive d raw errs) s
    ((State.count { s with ml := { s.ml with crcWindow := s.ml.crcWindow + 1 } } .ML_CRCERR 0).setLink d { l with discarding := true, report := true })) ∧
  (Flit.decode raw = some f →
    (f.ty = 1 → Goes (.flitReceive d raw errs) s (s.laneErrors d errs)) ∧
    (f.ty = 0 → Goes (.flitReceive d raw errs) s s) ∧
    (3 ≤ f.ty.toNat → f.seq ≠ l.expect → Goes (.flitReceive d raw errs) s s) ∧
    (3 ≤ f.ty.toNat → f.seq = l.expect → Goes (.flitReceive d raw errs) s (s.setLink d { l with
      expect := l.expect + 1, discarding := false, owed := true, given := Tab.upd 0 f.ch.toNat (· + 1) l.given, delivered := f :: l.delivered })) ∧
    (f.ty = 2 → ∃ x : LinkDir,
      let a := s.setLink o x
      let b := a.setLink d { l with owed := true, report := l.discarding }
      let bad := f.payload.getLsbD 8
      x = { r with replay := x.replay, resend := x.resend, replays := x.replays, credits := x.credits, known := x.known } ∧
      (∀ pre g post, r.replay = pre ++ g :: post → (∀ y ∈ pre, y.seq ≠ f.payload.setWidth 8) → g.seq = f.payload.setWidth 8 → x.replay = post) ∧
      ((∀ y ∈ r.replay, y.seq ≠ f.payload.setWidth 8) → x.replay = r.replay) ∧
      (bad = true → x.resend = x.replay) ∧
      (∀ c < 4, let now : Byte := (f.payload >>> (16 + 8 * c)).setWidth 8
        Tab.get 32 x.credits c = min 32 (Tab.get 32 r.credits c + (now - Tab.get 0 r.known c).toNat) ∧ Tab.get 0 x.known c = now) ∧
      x.replays = (if x.replay.length = r.replay.length then r.replays else 0) + (if bad = true ∧ x.replay ≠ [] then 1 else 0) ∧
      (bad = false → Goes (.flitReceive d raw errs) s a) ∧
      (bad = true → x.replay = [] → Goes (.flitReceive d raw errs) s b) ∧
      (bad = true → x.replay ≠ [] → x.replays < 8 → Goes (.flitReceive d raw errs) s (b.count .ML_REPLAY 0)) ∧
      (bad = true → x.replay ≠ [] → 8 ≤ x.replays → Goes (.flitReceive d raw errs) s (b.count .ML_REPLAY 0).retrain)))

/-- R373 to R375: the states of the link, lanes that fail, the link's loss. -/
def Obligations.LinkStates : Prop := ∀ (s : State) (d : Dir) (lane : Fin 18) (failed : List LaneRef),
  let st := s.fld .ML_STAT 0 15 12
  let moved (n : Nat) (s : State) : State := s.setFld .ML_STAT 0 15 12 n
  let gone (d : Dir) : Nat := (s.ml.failed.filter fun l => l.dir = d).length
  let x : LaneRef := ⟨d, lane⟩
  let marked := { s with ml := { s.ml with failed := s.ml.failed ++ [x] } }.addEvent 7 (lane + match d with
    | .fc => 0
    | .cf => 18) true false 4
  let cleared := { s with ml := { s.ml with laneErr := [], crcWindow := 0 } }
  let n := min 15 (s.fld .ML_STAT 0 7 4 + 1)
  (st = 3 → Goes (.mlTrainingStageDone failed) s (moved 4 s)) ∧
  (st = 1 ∨ st = 2 ∨ st = 4 → Goes (.mlTrainingStageDone failed) s (moved (st + 1) (failed.foldl (fun s l =>
    s.markLane l false (if st = 4 then 0 else 4)) s))) ∧
  (st = 8 → Goes (.mlTrainingStageDone failed) s (failed.foldl (fun s l => s.markLane l true 4) s)) ∧
  (st = 5 → gone .fc ≤ 2 → gone .cf ≤ 2 →
    Goes (.mlTrainingStageDone failed) s (if s.fld .SYS_STAT 0 3 0 = 7 then (moved 6 s).setFld .SYS_STAT 0 3 0 8 else moved 6 s)) ∧
  (st = 5 → 3 ≤ gone .fc ∨ 3 ≤ gone .cf → Goes (.mlTrainingStageDone failed) s s.linkDown) ∧
  (1 ≤ st → st ≤ 5 ∨ st = 8 → Goes .mlTrainingTimeout s s.linkDown) ∧
  (st = 6 → Goes .mlNoFlitTimeout s s.linkDown) ∧
  (st = 7 → Goes .mlShiftDone s (moved 6 ((s.setBit .ML_MAP 0 15 false).setBit .ML_MAP 1 15 false))) ∧
  (st = 8 → gone .fc ≤ 2 → gone .cf ≤ 2 → Goes .mlRetrainDone s (moved 6 s)) ∧
  (st = 6 ∨ st = 7 → x ∉ s.ml.failed → (gone d < 2 ∧ ∀ e, e ≠ d → gone e ≤ 2) →
    (s.lanePos d lane = none → Goes (.laneShift d lane) s (marked.mlInt 0)) ∧
    (s.lanePos d lane ≠ none → Goes (.laneShift d lane) s (moved 7 ((marked.setBit .ML_MAP (match d with
      | .fc => 0
      | .cf => 1) 15 true).mlInt 1)))) ∧
  (st = 6 ∨ st = 7 → x ∉ s.ml.failed → gone d = 2 → Goes (.laneShift d lane) s marked.linkDown) ∧
  ((∀ k < 36, Tab.get 0 s.ml.laneErr k ≤ s.fld .ML_THR 0 15 8) → s.ml.crcWindow ≤ s.fld .ML_THR 0 15 8 → Goes .mlLaneErrorWindow s cleared) ∧
  (st = 6 → (∀ k < 36, Tab.get 0 s.ml.laneErr k ≤ s.fld .ML_THR 0 15 8) → s.fld .ML_THR 0 15 8 < s.ml.crcWindow →
    Goes .mlLaneErrorWindow s cleared.retrain) ∧
  (s.pw.lossWait = true → Goes .lossWaitExpiry s { s with pw := { s.pw with lossWait := false } }.tryRaise) ∧
  (let recent := s.ml.retrainAt.filter fun t => s.ticks < t + 800000000
   let t := s.retrain
   (recent.length < 2 → t.fld .ML_STAT 0 15 12 = 8 ∧
     t.ml = { s.ml with retrainAt := s.ticks :: recent, fc := { s.ml.fc with replays := 0 }, cf := { s.ml.cf with replays := 0 } }) ∧
   (2 ≤ s.railsRaised → 2 ≤ recent.length → t.fld .ML_STAT 0 15 12 = 9)) ∧
  (2 ≤ s.railsRaised → let t := s.linkDown
    t.fld .ML_STAT 0 15 12 = 9 ∧ t.fld .ML_STAT 0 7 4 = n ∧ t.pw.lossWait = true ∧ t.pw.cReset = true ∧ t.bit .SYS_STAT 0 14 = false ∧
    t.fld .SYS_STAT 0 6 4 = 5 ∧ t.bit .SYS_STAT 0 13 = true ∧ t.bit .SYS_RAIL 0 14 = false ∧
    t.bit .ML_STAT 0 3 = (s.bit .ML_STAT 0 3 || (s.fld .ML_CTRL 0 11 8 ≠ 0 && s.fld .ML_CTRL 0 11 8 ≤ n)))

/-- R376, R377, R382: wear, the windows of corrected errors, requests and entries of the repair record. -/
def Sys2Proof.Rules.Wear : Prop := ∀ (s : State) (slacks : List Nat) (rosc : List Word) (v : Word) (e : RecEvent) (rest : List RecEvent),
  let off := s.fld .WEAR_ZSTAT 0 14 11
  let low (z : Nat) : Bool := decide (slacks.getD z 0 < Config.slackMin z)
  let kind := wfld v 3 0
  let unit := s.fld .SPR_REQ_UNIT 0 8 0
  let entry : W64 := BitVec.ofNat 64 (e.unit.kind.toNat + e.unit.unit.toNat * 2 ^ 8 + (if e.live then 2 ^ 24 else 0) + (if e.sw then 2 ^ 25 else 0) +
    (s.reg .SYS_KEYON 0).toNat * 2 ^ 32 + e.source.toNat * 2 ^ 48)
  let taken := { s with spr := { s.spr with toAdd := rest } }
  (s.bit .SYS_RAIL 0 14 = true → ∃ t, Goes (.wearMeasurement slacks rosc) s t ∧ t.ml = s.ml ∧
    (∀ z < 6, t.fld .WEAR_ZSTAT z 9 0 = min 1023 (slacks.getD z 0) ∧ t.reg .WEAR_ROSC z = rosc.getD z 0) ∧
    (∀ z < 5, t.fld .WEAR_ZSTAT z 14 11 = if (upto 5).any low ∧ off < 10 then off + 1 else s.fld .WEAR_ZSTAT z 14 11) ∧
    (∀ z < 6, t.bit .WEAR_ZSTAT z 15 = (s.bit .WEAR_ZSTAT z 15 || (low z && (z = 5 || off = 10))))) ∧
  (∃ t, Goes .ceWindowExpiry s t ∧ ∀ k, Tab.get {} t.tiles k = { Tab.get {} s.tiles k with ceWindow := 0 }) ∧
  (wbit v 15 = true → 1 ≤ kind → kind ≤ 7 → Goes (.repairRequest v) s { s with spr := { s.spr with toAdd := s.spr.toAdd ++
    [{ unit := { kind := BitVec.ofNat 8 kind, unit := BitVec.ofNat 9 unit }, live := false, sw := true, source := 5 }] } }) ∧
  (s.spr.toAdd = e :: rest →
    let known := ∃ w ∈ s.spr.record, w.toNat % 2 ^ 17 = e.unit.kind.toNat + e.unit.unit.toNat * 2 ^ 8
    (known ∨ 256 ≤ s.spr.record.length → Goes .repairRecordAdd s taken) ∧
    (¬ known → s.spr.record.length < 256 →
      let a := State.sprInt { taken with
        spr := { taken.spr with record := s.spr.record ++ [entry] }, lay := { s.lay with mirrorDue := true } } 3
      Goes .repairRecordAdd s (if s.spr.record.length = 255 then a.sprInt 1 else a)))

/-- R379 to R381: a tile is queued, its migration starts on the lowest spare, lines are copied, the spare takes its place. -/
def Sys2Proof.Rules.Migrations : Prop := ∀ (s : State) (v : Word) (g : Migration),
  let w := wfld v 7 0
  let phys (s : State) (w : Nat) : Nat := (Tab.get (some w) s.spr.bindC w).getD w
  let usable (p : Nat) : Prop := (⟨1, BitVec.ofNat 9 p⟩ : UnitRef) ∉ s.spr.failed ∧ ∀ e ∈ s.spr.bindC, e.2 ≠ some p
  (wbit v 15 = true → (∀ e ∈ s.spr.queue, e.1 ≠ w) → s.spr.queue.length < 16 →
    Goes (.migrationQueue v) s { s with spr := { s.spr with queue := s.spr.queue ++ [(w, 5)] } }) ∧
  (∀ w src rest, s.computeReady = true → s.spr.mig = none → s.spr.queue = (w, src) :: rest → s.fld .TILE_PWR w 1 0 ≠ 1 →
    (∀ p, 256 ≤ p → p < 272 → usable p → (∀ q, 256 ≤ q → q < p → ¬ usable q) → s.fld .TILE_PWR w 1 0 ≠ 2 →
      ∃ t, Goes .migrationStart s t ∧ t.spr.queue = rest ∧
      t.spr.mig = some { w, f := phys s w, sp := p, line := 0, written := [], copying := false, source := src } ∧
      t.bit .MIG_STAT 0 15 = true ∧ t.fld .MIG_STAT 0 14 13 = 1 ∧ t.reg .MIG_PROG 0 = 0 ∧
      ∀ a, a / 262144 = p → Tab.get 0 t.mem.ctile a = 0) ∧
    ((∀ p, 256 ≤ p → p < 272 → ¬ usable p) →
      Goes .migrationStart s (({ s with spr := { s.spr with queue := rest } }.setBit .MIG_STAT 0 12 true).sprInt 2))) ∧
  (s.spr.mig = some g → g.w < 256 → g.line < 4096 → g.f ≠ g.sp → ∃ t, Goes .migrationCopyLine s t ∧
    t.spr.mig = some { g with line := g.line + 1, copying := true } ∧ t.reg .MIG_PROG 0 = BitVec.ofNat 16 (g.line + 1) ∧
    t.fld .MIG_STAT 0 14 13 = 2 ∧
    (∀ j < 64, g.line * 8 + j / 8 ∉ g.written →
      Tab.get 0 t.mem.ctile (g.sp * 262144 + 64 * g.line + j) = Tab.get 0 s.mem.ctile (g.f * 262144 + 64 * g.line + j)) ∧
    (∀ a, (∀ j < 64, g.line * 8 + j / 8 ∉ g.written → a ≠ g.sp * 262144 + 64 * g.line + j) → Tab.get 0 t.mem.ctile a = Tab.get 0 s.mem.ctile a)) ∧
  (s.spr.mig = some g → g.w < 256 → 4096 ≤ g.line → ∃ t, Goes .migrationSwitch s t ∧ t.spr.mig = none ∧ phys t g.w = g.sp ∧
    t.spr.failed = ⟨1, BitVec.ofNat 9 g.f⟩ :: s.spr.failed ∧ t.reg .TILE_ECC g.w = 0 ∧ t.bit .MIG_STAT 0 15 = false ∧ t.fld .MIG_STAT 0 14 13 = 0 ∧
    t.spr.toAdd = s.spr.toAdd ++ [{ unit := ⟨1, BitVec.ofNat 9 g.f⟩, live := true, sw := g.source = 5, source := g.source }])

/-- R403, R404: the unlock instructions and the check of a response. -/
def Sys2Proof.Rules.Unlocking : Prop := ∀ (s : State) (dr : BitVec 1608) (sig : BitVec 768) (nonce : BitVec 384),
  let cert : List Byte := (upto 200).map fun b => (dr >>> (8 * b + 8)).setWidth 8
  let with' (f : Debug → Debug) : State := { s with dbg := f s.dbg }
  let done := with' fun d => { d with response := none }
  let fails := s.fld .SYS_DBG 0 1 0
  (s.dbgLevel < 2 →
    (dr.toNat % 4 = 0 → Goes (.dbgChainUpdate dr) s (with' fun d => { d with chain := [] })) ∧
    (dr.toNat % 4 = 1 → Goes (.dbgChainUpdate dr) s (with' fun d => { d with chain := [cert], rootSlot := dr.toNat / 4 % 4 })) ∧
    (dr.toNat % 4 = 2 → s.dbg.chain.length = 1 → Goes (.dbgChainUpdate dr) s (with' fun d => { d with chain := d.chain ++ [cert] })) ∧
    (dr.toNat % 4 = 3 → s.dbg.chain.length = 2 → Goes (.dbgChainUpdate dr) s (with' fun d => { d with chain := d.chain ++ [cert] })) ∧
    (s.dbg.nonceRead = false →
      Goes .dbgChalRead s (with' fun d => { d with nonceRead := true, chal := some (Config.nonce d.nonces), nonces := d.nonces + 1 })) ∧
    (s.dbg.nonceRead = true → Goes .dbgChalRead s s) ∧
    (fails < 3 → Goes (.dbgRespUpdate sig) s (with' fun d => { d with response := some (sig, d.chal), nonceRead := false })) ∧
    (fails = 3 → Goes (.dbgRespUpdate sig) s s)) ∧
  (2 ≤ s.dbgLevel → Goes (.dbgChainUpdate dr) s s ∧ Goes .dbgChalRead s s ∧ Goes (.dbgRespUpdate sig) s s) ∧
  (s.dbg.response = some (sig, some nonce) →
    Goes .debugUnlockCheck s (if s.responseOk sig nonce then done.setBit .SYS_DBG 0 15 true
      else done.setFld .SYS_DBG 0 1 0 (if fails < 3 then fails + 1 else 3))) ∧
  (s.dbg.response = some (sig, none) → Goes .debugUnlockCheck s (done.setFld .SYS_DBG 0 1 0 (if fails < 3 then fails + 1 else 3)))

/-- R405: debug accesses to addresses and to cores, halting and resuming; without the right to debug they are refused. -/
def Sys2Proof.Rules.DebugAccesses : Prop := ∀ (s : State) (c : CoreId) (a : PAddr) (wr : Bool) (sel : Byte) (v : Word) (n : Fin 32) (k : Fin 16),
  let usable := s.dbgLevel = 0 ∨ (s.dbgLevel = 1 ∧ s.bit .SYS_DBG 0 15 = true)
  let refused : State := { s with dbg := { s.dbg with status := 2 } }
  let fine (s : State) (v : Word) : State := s.debugged true (v.setWidth 64) 0 0
  let x := s.core c
  let m := s.debugMaster a.toNat
  let stopped := x.run = .halted ∨ x.run = .locked
  let ok (s : State) : State := { s with dbg := { s.dbg with status := 0 } }
  let put (f : Core → Core) : State := s.modCore c f
  let timed (t : State) : State := { t with wdtFrom := Tab.set 0 c.val (s.ticks - Tab.get 0 s.wdtFrom c.val) s.wdtFrom }
  let halts := ok (timed (put fun y => { y with haltReq := false, haltedFrom := x.run, run := .halted }))
  let resumes := ok (timed (put fun y => { y with run := x.haltedFrom }))
  (¬ usable → Goes (.debugPhysicalAccess a wr v) s refused ∧ Goes (.debugCoreAccess c sel wr v) s refused ∧ Goes (.debugHalt c v) s refused) ∧
  (usable →
    (∀ t, s.writeBus m a.toNat (leBytes 2 v.toNat) = (.ok (), t) → Goes (.debugPhysicalAccess a true v) s (fine t 0)) ∧
    (∀ e t, s.writeBus m a.toNat (leBytes 2 v.toNat) = (.error e, t) → Goes (.debugPhysicalAccess a true v) s (t.debugged false 0 e 1)) ∧
    (∀ b0 b1 t, s.readBus m a.toNat 2 = (.ok [b0, b1], t) → Goes (.debugPhysicalAccess a false v) s (fine t (b1 ++ b0))) ∧
    (∀ e t, s.readBus m a.toNat 2 = (.error e, t) → Goes (.debugPhysicalAccess a false v) s (t.debugged false 0 e 1)) ∧
    (stopped →
      Goes (.debugCoreAccess c (BitVec.ofNat 8 n) false v) s (fine s (s.rg c (BitVec.ofNat 5 n))) ∧
      Goes (.debugCoreAccess c (BitVec.ofNat 8 n) true v) s (fine (s.wr c (BitVec.ofNat 5 n) v) 0) ∧
      Goes (.debugCoreAccess c (BitVec.ofNat 8 (32 + k)) false v) s (fine s ((x.special c k).setWidth 16)) ∧
      (specWide k = true → Goes (.debugCoreAccess c (BitVec.ofNat 8 (64 + k)) false v) s (fine s ((x.special c k >>> 16).setWidth 16))) ∧
      (k ≠ 0 → Goes (.debugCoreAccess c (BitVec.ofNat 8 (32 + k)) true v) s
        (fine (put fun y => y.setSpecial c k (x.special c k / 0x10000 * 0x10000 + v.setWidth 32)) 0)) ∧
      (specWide k = true → Goes (.debugCoreAccess c (BitVec.ofNat 8 (64 + k)) true v) s
        (fine (put fun y => y.setSpecial c k (v ++ (x.special c k).setWidth 16 : BitVec 32)) 0))) ∧
    (¬ stopped → sel ≠ 0xFF → Goes (.debugCoreAccess c sel wr v) s refused) ∧
    (x.run = .running ∨ x.run = .waitInt ∨ x.run = .waitTlb → x.loadWait = none →
      Goes (.debugHalt c 1) s halts ∧ Goes (.debugCoreAccess c 0xFF true 1) s halts) ∧
    (x.run = .running → x.loadWait ≠ none → Goes (.debugHalt c 1) s (ok (put fun y => { y with haltReq := true }))) ∧
    (x.run = .halted → Goes (.debugHalt c 0) s resumes ∧ Goes (.debugCoreAccess c 0xFF true 0) s resumes))

/-- Rules.Wear; Rules.Migrations. -/
def Obligations.Spares : Prop :=
  Sys2Proof.Rules.Wear ∧ Sys2Proof.Rules.Migrations

/-- Rules.Unlocking; Rules.DebugAccesses. -/
def Obligations.DebugPort : Prop :=
  Sys2Proof.Rules.Unlocking ∧ Sys2Proof.Rules.DebugAccesses

/-- A step with a command at the front of the queue is exec of that command on the state with the queue's rest; on an empty queue the block
idles. Every command answers a next state. The last two are the model's own (log entry 6). -/
def Obligations.StepRunsFront : Prop := ∀ (c : Instr) (rest : List Instr) (s : State),
  step { s with pending := c :: rest } = exec c { s with pending := rest } ∧
  step { s with pending := [] } = .next { s with pending := [] } ∧ ∃ t, exec c s = .next t

/-- The state after reset is legal: memories in canonical form, cores at a level and in a window that exist. -/
def Obligations.ResetIsLegal : Prop := State.reset.Legal

/-- From every legal state a step that answers a next state leaves a legal state, and takes the front command off the queue and nothing else. -/
def Obligations.StepKeepsLegal : Prop := ∀ (s t : State), s.Legal → step s = .next t → t.Legal ∧ t.pending = s.pending.tail

/-- R74, R251, R394, R431: what reset leaves where the manual gives a value: the cores held in reset at level M with their special registers, the
tiles OFF. -/
def Obligations.ResetValues : Prop :=
  let s := State.reset
  s.pending = [] ∧ s.reg .DEVID_C 0 = 0x4200 ∧ (∀ t < 256, s.reg .TILE_PWR t = 0x0200) ∧ (∀ t < 64, s.reg .FTILE_PWR t = 0x0200) ∧
  s.reg .TILE_CTRL 0 = 0x8040 ∧ s.reg .TILE_SCRUB 0 = 0x0258 ∧
  ∀ c : CoreId, let k := s.core c
    let last := if c.val < 8 then 11 else 7
    k.run = .held ∧ k.psw = 0 ∧ k.cwp = 0 ∧ k.auto = false ∧ k.fence = last ∧ k.dirty = BitVec.ofNat 16 (0xC000 + 2 ^ (last + 1) - 1) ∧
    k.repLeft = 0 ∧ k.multiProg = 0 ∧ k.wsp = 0 ∧ k.ssp = 0 ∧ k.tsb = 0 ∧ k.gtb = 0 ∧ k.ctxp = 0

/-- R246, R247, R249: g0 reads 0 and discards writes; another register reads what was written, the rest as before; a pair is its two registers;
the parameters of a frame are the arguments of the frame below, the globals are common to all frames, and
locals belong to one frame. -/
def Obligations.Registers : Prop := ∀ (s : State) (c : CoreId) (r q : Reg) (p : PairIx) (v : Word) (i : Fin 8),
  let k := s.core c
  let up (s : State) : State := s.modCore c fun k => { k with cwp := (k.cwp + 1) % nwin c }
  s.rg c 0 = 0 ∧ s.wr c 0 v = s ∧
  (k.path = .task ∨ k.path = .tsb → k.cwp < nwin c →
    (r ≠ 0 → (s.wr c r v).rg c r = v) ∧ (q ≠ r → (s.wr c r v).rg c q = s.rg c q) ∧
    (up s).rg c (BitVec.ofNat 5 (8 + i)) = s.rg c (BitVec.ofNat 5 (24 + i)) ∧ (up s).rg c (BitVec.ofNat 5 i) = s.rg c (BitVec.ofNat 5 i) ∧
    (16 ≤ r.toNat → r.toNat < 24 → (up (s.wr c r v)).rg c r = (up s).rg c r)) ∧
  s.pr c p = s.rg c (BitVec.ofNat 5 (2 * p.toNat)) ++ s.rg c (BitVec.ofNat 5 (2 * p.toNat + 1))

/-- R272, R273, R277, R283, R289, R307, R308: when a command of a hod core executes, and what is taken in its place; a word is fetched from a line
that the instruction cache of an HC core holds, or read, and then its line is held. -/
def Obligations.HodIssues : Prop := ∀ (s s1 : State) (c : CoreId) (len : Nat) (u : Uses),
  let k := s.core c
  (k.run ≠ .running ∨ k.loadWait ≠ none → s.hodIssue c len u = (false, s)) ∧
  (k.run = .running → k.loadWait = none →
    (∀ a, k.arithDue = some a → s.hodIssue c len u = (false, s.enterArith c a k.pc)) ∧
    (∀ src lvl, k.arithDue = none → s.dueInt c = some (src, lvl) → s.hodIssue c len u = (false, s.enter c (0x20 + src) k.pc 0 false 0 lvl)) ∧
    (k.arithDue = none → s.dueInt c = none →
      (∀ t, s.fetchAll c len = (.error t, s1) → s.hodIssue c len u = (false, s1.takeTrap c k.pc t)) ∧
      (∀ l, s.fetchAll c len = (.ok l, s1) → (s1.core c).longOp = none → (s1.core c).arithDue = none → s.hodIssue c len u = (true, s1)) ∧
      (s.bit (pipeCtl c).1 (pipeCtl c).2 12 = true → s.fetchAll c len = (.ok [], s)) ∧
      (s.bit (pipeCtl c).1 (pipeCtl c).2 12 = false → len = 1 → ∀ pa x s2 l, s.translate c k.pc.toNat .fetch (s.level c) = (.ok (pa, x), s2) →
        (c.val < 8 → pa / 64 ∈ (s2.core c).icLines → s.fetchAll c len = (.ok [()], s2)) ∧
        (¬ (c.val < 8 ∧ pa / 64 ∈ (s2.core c).icLines) → s2.readMem (fetchPort c) pa 2 = (.ok l, s1) → s.fetchAll c len = (.ok [()],
          if c.val < 8 then s1.modCore c fun k => { k with icLines := k.icLines ++ [pa / 64] } else s1)))))

/-- Commands whose results are stated above only in part leave the cores, the memories, the brick queues, the bond image as laid out and the key
store as they are. -/
def Obligations.QuietCommands : Prop := ∀ (s t : State) (i : Instr) (d : Fin 64) (p : Fin 25) (ix : BitVec 10) (g : BitVec 7) (v : Word)
    (slacks : List Nat) (rosc : List Word),
  i ∈ [.listEntryStart d, .gptpStepApply v, .gptpTimeCapture, .gateCycleStart, .gateEntryExpiry p, .rosterAgeExpiry ix, .frerResetExpiry g,
    .nswTableDone, .wearMeasurement slacks rosc, .ceWindowExpiry] → exec i s = .next t →
  t.cores = s.cores ∧ t.mem = s.mem ∧ t.queues = s.queues ∧ t.lay = s.lay ∧ t.ks = s.ks ∧ t.pw = s.pw ∧ t.spr = s.spr
end

