-- ==== Sys2Proof/Laws/Words.lean ====
section
/-! SUPPORT. Fields and bits of a word after one of them is replaced, and which status words and flag updates are legal. -/

namespace Sys2Proof.Machine

open Sys2Proof

/-- A field as a number. -/
theorem wfld_eq (w : Word) (hi lo : Nat) : wfld w hi lo = w.toNat / 2 ^ lo % 2 ^ (hi + 1 - lo) := by
  simp [wfld, Nat.shiftRight_eq_div_pow]

/-- A bit as a number. -/
theorem wbit_eq (w : Word) (b : Nat) : wbit w b = decide (w.toNat / 2 ^ b % 2 = 1) := by
  simp [wbit, BitVec.getLsbD, Nat.testBit_eq_decide_div_mod_eq]

/-- The word with a field replaced, as a number. -/
theorem putFld_toNat (w : Word) (hi lo n : Nat) :
    (putFld w hi lo n).toNat =
      (w.toNat - w.toNat / 2 ^ lo % 2 ^ (hi + 1 - lo) * 2 ^ lo + n % 2 ^ (hi + 1 - lo) * 2 ^ lo) % 65536 := by
  simp [putFld, wfld_eq]

/-- Replacing a bit below bit 14, other than bit 0, leaves bits 15, 14 and 0. -/
theorem putBit_high (w : Word) (b : Nat) (v : Bool) (h0 : 0 < b) (hb : b < 14) :
    (putBit w b v).toNat / 16384 = w.toNat / 16384 ∧ (putBit w b v).toNat % 2 = w.toNat % 2 := by
  have hw := w.isLt
  rw [putBit, putFld_toNat]
  generalize w.toNat = x at hw ⊢
  cases v <;> interval_cases b <;> simp only [Bool.false_eq_true, if_true, if_false] <;> constructor <;> omega

/-- A legal status word by its bits. -/
theorem pswLegal_iff (w : Word) : pswLegal w = true ↔ (w.toNat / 16384 ≠ 3 ∧ w.toNat % 2 = 0) := by
  have hw := w.isLt
  simp only [pswLegal, wfld_eq, wbit_eq, Bool.and_eq_true, decide_eq_true_eq, Bool.not_eq_true', decide_eq_false_iff_not]
  omega

/-- The same by single bits. -/
theorem pswLegal_bits (w : Word) : pswLegal w = true ↔ ((w.getLsbD 15 = true → w.getLsbD 14 = false) ∧ w.getLsbD 0 = false) := by
  have hw := w.isLt
  have h : ∀ i, w.getLsbD i = decide (w.toNat / 2 ^ i % 2 = 1) := fun i => wbit_eq w i
  rw [pswLegal_iff, h, h, h]
  simp only [decide_eq_true_eq, decide_eq_false_iff_not]
  omega

/-- The flags that an update may write: neither LVL nor the reserved bit. -/
def maskOk (m : Word) : Prop := m &&& 0xC001 = 0

theorem maskOk_iff (m : Word) : maskOk m ↔ (m.toNat / 16384 = 0 ∧ m.toNat % 2 = 0) := by
  have hm := m.isLt
  have h : ∀ i, m.getLsbD i = decide (m.toNat / 2 ^ i % 2 = 1) := fun i => wbit_eq m i
  have k : maskOk m ↔ (m.getLsbD 0 = false ∧ m.getLsbD 14 = false ∧ m.getLsbD 15 = false) := by
    constructor
    · intro e
      have f : ∀ i, (m &&& 0xC001).getLsbD i = false := fun i => by rw [e]; simp
      have f0 := f 0; have f14 := f 14; have f15 := f 15
      simp only [BitVec.getLsbD_and] at f0 f14 f15
      refine ⟨?_, ?_, ?_⟩
      · simpa using f0
      · simpa using f14
      · simpa using f15
    · rintro ⟨h0, h14, h15⟩
      apply BitVec.eq_of_getLsbD_eq
      intro i hi
      rw [BitVec.getLsbD_and]
      interval_cases i <;> simp_all
  rw [k, h, h, h]
  simp only [decide_eq_false_iff_not]
  omega

/-- An update of flags leaves a legal status word legal. -/
theorem on_legal (u : Upd) (w : Word) (hu : maskOk u.mask) (hw : pswLegal w = true) : pswLegal (u.on w) = true := by
  rw [maskOk_iff] at hu
  have hm := u.mask.isLt
  have h : ∀ i, u.mask.getLsbD i = decide (u.mask.toNat / 2 ^ i % 2 = 1) := fun i => wbit_eq u.mask i
  have h0 : u.mask.getLsbD 0 = false := by rw [h]; simp only [decide_eq_false_iff_not]; omega
  have h14 : u.mask.getLsbD 14 = false := by rw [h]; simp only [decide_eq_false_iff_not]; omega
  have h15 : u.mask.getLsbD 15 = false := by rw [h]; simp only [decide_eq_false_iff_not]; omega
  rw [pswLegal_bits] at hw ⊢
  simp only [Upd.on, BitVec.getLsbD_or, BitVec.getLsbD_and, BitVec.getLsbD_not, h0, h14, h15]
  simpa using hw

/-- The empty update. -/
theorem maskOk_nil : maskOk ({} : Upd).mask := by
  show (0 : Word) &&& 0xC001 = 0
  decide

/-- One more flag. -/
theorem maskOk_put (u : Upd) (b : Nat) (v : Bool) (h : maskOk u.mask) (h0 : 0 < b) (hb : b < 14) : maskOk (u.put b v).mask := by
  rw [maskOk_iff] at h ⊢
  obtain ⟨e, f⟩ := putBit_high u.mask b true h0 hb
  exact ⟨by rw [Upd.put, e]; exact h.1, by rw [Upd.put, f]; exact h.2⟩

theorem maskOk_zn (r : Word) : maskOk (znOf r).mask := by
  exact maskOk_put _ _ _ (maskOk_put _ _ _ maskOk_nil (by decide) (by decide)) (by decide) (by decide)

theorem maskOk_z (u : Upd) (ch : Bool) (r : Word) (h : maskOk u.mask) : maskOk (u.z ch r).mask := by
  unfold Upd.z Upd.zChain
  split
  · split
    · exact h
    · exact maskOk_put _ _ _ h (by decide) (by decide)
  · exact maskOk_put _ _ _ h (by decide) (by decide)

theorem maskOk_add (a b : Word) (cin ch : Bool) : maskOk (addOf a b cin ch).2.mask := by
  unfold addOf
  refine maskOk_put _ _ _ (maskOk_put _ _ _ (maskOk_put _ _ _ (maskOk_z _ _ _ ?_) ?_ ?_) ?_ ?_) ?_ ?_ <;> try decide
  refine maskOk_put _ _ _ (maskOk_put _ _ _ (maskOk_put _ _ _ maskOk_nil ?_ ?_) ?_ ?_) ?_ ?_ <;> decide

theorem maskOk_sub (a b : Word) (bin ch : Bool) : maskOk (subOf a b bin ch).2.mask := by
  unfold subOf
  refine maskOk_z _ _ _ ?_
  refine maskOk_put _ _ _ (maskOk_put _ _ _ (maskOk_put _ _ _ maskOk_nil ?_ ?_) ?_ ?_) ?_ ?_ <;> decide

theorem maskOk_addP (a b : W32) : maskOk (addPOf a b).2.mask := by
  unfold addPOf
  refine maskOk_put _ _ _ (maskOk_put _ _ _ (maskOk_put _ _ _ (maskOk_put _ _ _ maskOk_nil ?_ ?_) ?_ ?_) ?_ ?_) ?_ ?_ <;> decide

theorem maskOk_subP (a b : W32) : maskOk (subPOf a b).2.mask := by
  unfold subPOf
  refine maskOk_put _ _ _ (maskOk_put _ _ _ (maskOk_put _ _ _ (maskOk_put _ _ _ maskOk_nil ?_ ?_) ?_ ?_) ?_ ?_) ?_ ?_ <;> decide

theorem maskOk_logic (r : Word) : maskOk (logicOf r).2.mask := maskOk_put _ _ _ (maskOk_zn r) (by decide) (by decide)

theorem maskOk_shift (k : ShiftKind) (a : Word) (n : Nat) : maskOk (shiftOf k a n).2.mask := by
  have h : ∀ (c : Prop) [Decidable c] (r : Word) (x : Bool), maskOk (if c then znOf r else (znOf r).put 1 x).mask := by
    intro c _ r x
    split
    · exact maskOk_zn r
    · exact maskOk_put _ 1 x (maskOk_zn r) (by decide) (by decide)
  cases k <;> exact h _ _ _

theorem maskOk_mul (a b : Word) : maskOk (mulOf a b).2.mask := maskOk_put _ _ _ (maskOk_zn _) (by decide) (by decide)

theorem maskOk_mulh (g : Bool) (a b : Word) : maskOk (mulhOf g a b).2.mask := maskOk_put _ _ _ (maskOk_zn _) (by decide) (by decide)

theorem maskOk_mulw (g : Bool) (a b : Word) : maskOk (mulwOf g a b).2.mask := by
  unfold mulwOf
  refine maskOk_put _ _ _ (maskOk_put _ _ _ (maskOk_put _ _ _ maskOk_nil ?_ ?_) ?_ ?_) ?_ ?_ <;> decide

theorem maskOk_div (g : Bool) (n d : Int) (low : Word) : maskOk (divOf g n d low).2.mask := by
  have h : ∀ (q : Word) (v : Bool), maskOk ((znOf q).put 4 v).mask := fun q v => maskOk_put _ _ _ (maskOk_zn q) (by decide) (by decide)
  unfold divOf
  dsimp only
  split
  · exact maskOk_put _ _ _ (h _ _) (by decide) (by decide)
  · repeat' split
    all_goals exact h _ _

theorem maskOk_dec (sub : Bool) (a b : Word) (cin ch : Bool) : maskOk (decOf sub a b cin ch).2.mask :=
  maskOk_z _ _ _ (maskOk_put _ _ _ maskOk_nil (by decide) (by decide))

theorem maskOk_daj (w psw : Word) : maskOk (dajOf w psw).2.mask :=
  maskOk_put _ _ _ (maskOk_put _ _ _ maskOk_nil (by decide) (by decide)) (by decide) (by decide)

end Sys2Proof.Machine
end

