-- ==== Sys2Proof/Laws/CoreLegal.lean ====
section
/-! SUPPORT. The updates of a hod core that leave it legal. -/

namespace Sys2Proof.Machine

open Sys2Proof

/-- Legality, condition by condition. -/
theorem Core.legal_iff (c : CoreId) (k : Core) :
    Core.legal c k = true ↔ k.cwp < nwin c ∧ k.fence < nwin c ∧ pswLegal k.psw = true ∧ pswLegal k.x1.xpsw = true ∧
      pswLegal k.x2.xpsw = true ∧ pswLegal k.xt.xpsw = true ∧ ∀ o, k.longOp = some o → maskOk o.mask := by
  simp only [Core.legal, Bool.and_eq_true, decide_eq_true_eq, and_assoc]
  cases k.longOp with
  | none => simp
  | some o => simp [LongOp.legal, maskOk]

theorem nwin_pos (c : CoreId) : 0 < nwin c := by unfold nwin; split <;> decide

theorem winUp_lt (c : CoreId) (w : Nat) : winUp c w < nwin c := Nat.mod_lt _ (nwin_pos c)

theorem winDown_lt (c : CoreId) (w : Nat) : winDown c w < nwin c := Nat.mod_lt _ (nwin_pos c)

theorem setPreg_legal (c : CoreId) (k : Core) (p : Nat) (v : Word) (h : Core.legal c k = true) : Core.legal c (k.setPreg p v) = true := h
grind_pattern setPreg_legal => Core.legal c (k.setPreg p v)

/-- DIRTY.S apart, the core is what f makes it. -/
theorem spec_legal (c : CoreId) (k : Core) (f : Core → Core) (h : Core.legal c (f k) = true) : Core.legal c (k.spec f) = true := by
  unfold Core.spec
  generalize f k = n at h ⊢
  dsimp only
  generalize putBit n.dirty 14 true = d
  split
  · exact h
  · exact h

theorem psw_legal (c : CoreId) (k : Core) (v : Word) (h : Core.legal c k = true) (hv : pswLegal v = true) :
    Core.legal c { k with psw := v } = true := by
  rw [Core.legal_iff] at h ⊢
  exact ⟨h.1, h.2.1, hv, h.2.2.2.1, h.2.2.2.2.1, h.2.2.2.2.2.1, h.2.2.2.2.2.2⟩

theorem cwp_legal (c : CoreId) (k : Core) (w : Nat) (h : Core.legal c k = true) (hw : w < nwin c) : Core.legal c { k with cwp := w } = true := by
  rw [Core.legal_iff] at h ⊢
  exact ⟨hw, h.2⟩

theorem fence_legal (c : CoreId) (k : Core) (a : Bool) (w : Nat) (h : Core.legal c k = true) (hw : w < nwin c) :
    Core.legal c { k with auto := a, fence := w } = true := by
  rw [Core.legal_iff] at h ⊢
  exact ⟨h.1, hw, h.2.2⟩

theorem long_legal (c : CoreId) (k : Core) (o : Option LongOp) (h : Core.legal c k = true) (ho : ∀ x, o = some x → maskOk x.mask) :
    Core.legal c { k with longOp := o } = true := by
  rw [Core.legal_iff] at h ⊢
  exact ⟨h.1, h.2.1, h.2.2.1, h.2.2.2.1, h.2.2.2.2.1, h.2.2.2.2.2.1, ho⟩

theorem maskOk_and (m n : Word) (h : maskOk m) : maskOk (m &&& n) := by
  unfold maskOk at *
  rw [BitVec.and_assoc, BitVec.and_comm n, ← BitVec.and_assoc, h]
  exact BitVec.zero_and

theorem youngerOf_legal (c : CoreId) (k : Core) (q : Path) (m : Word) (h : Core.legal c k = true) : Core.legal c (k.youngerOf q m) = true := by
  have hl := ((Core.legal_iff c k).1 h).2.2.2.2.2.2
  unfold Core.youngerOf
  split
  · next o e =>
    split
    · exact long_legal c k _ h fun x ex => by cases ex; exact maskOk_and _ _ (hl o e)
    · exact h
  · exact h

theorem younger_legal (c : CoreId) (k : Core) (m : Word) (h : Core.legal c k = true) : Core.legal c (k.younger m) = true :=
  youngerOf_legal c k k.path m h

/-- The saved status word of the running path is legal. -/
theorem xregs_legal (c : CoreId) (k : Core) (h : Core.legal c k = true) : pswLegal k.xregs.xpsw = true := by
  rw [Core.legal_iff] at h
  unfold Core.xregs
  split
  · decide
  · exact h.2.2.2.1
  · exact h.2.2.2.2.1
  · exact h.2.2.2.2.2.1

theorem setXregs_legal (c : CoreId) (k : Core) (x : XRegs) (h : Core.legal c k = true) (hx : pswLegal x.xpsw = true) :
    Core.legal c (k.setXregs x) = true := by
  unfold Core.setXregs
  rw [Core.legal_iff] at h
  split <;> rw [Core.legal_iff]
  · exact h
  · exact ⟨h.1, h.2.1, h.2.2.1, hx, h.2.2.2.2⟩
  · exact ⟨h.1, h.2.1, h.2.2.1, h.2.2.2.1, hx, h.2.2.2.2.2⟩
  · exact ⟨h.1, h.2.1, h.2.2.1, h.2.2.2.1, h.2.2.2.2.1, hx, h.2.2.2.2.2.2⟩

/-- Bit 0 of a value masked with 0xFFFE is clear. -/
theorem bit0_masked (v : Word) : (v &&& 0xFFFE).toNat % 2 = 0 := by
  have h := wbit_eq (v &&& 0xFFFE) 0
  simp only [wbit, BitVec.getLsbD_and] at h
  have e : (0xFFFE : Word).getLsbD 0 = false := by decide
  rw [e, Bool.and_false] at h
  have := of_decide_eq_false h.symm
  omega

/-- LVL replaced by a level that is not 0b11. -/
theorem putLvl_legal (w : Word) (n : Nat) (h0 : w.toNat % 2 = 0) (hn : n % 4 ≠ 3) : pswLegal (putFld w 15 14 n) = true := by
  rw [pswLegal_iff, putFld_toNat]
  have hw := w.isLt
  omega

theorem level_lt (w : Word) (h : pswLegal w = true) : wfld w 15 14 % 4 ≠ 3 := by
  rw [pswLegal_iff] at h
  rw [wfld_eq]
  have hw := w.isLt
  omega

theorem pswWritten_legal (old v : Word) (h : pswLegal old = true) : pswLegal (pswWritten old v) = true := by
  unfold pswWritten
  dsimp only
  split
  · exact putLvl_legal _ _ (bit0_masked v) (level_lt old h)
  · next e =>
    rw [pswLegal_bits]
    have e2 : ¬ ((v.getLsbD 15 = true) ∧ v.getLsbD 14 = true) := by
      intro ⟨a, b⟩
      apply e
      have h : ∀ i, v.getLsbD i = decide (v.toNat / 2 ^ i % 2 = 1) := fun i => wbit_eq v i
      rw [h] at a b
      simp only [decide_eq_true_eq] at a b
      rw [wfld_eq]
      omega
    simp only [BitVec.getLsbD_and]
    constructor
    · intro a
      have : v.getLsbD 15 = true := by simpa using a
      have : v.getLsbD 14 = false := by simpa [this] using e2
      rw [this, Bool.false_and]
    · simp

theorem setSpecial_legal (c : CoreId) (k : Core) (n : Nat) (v : W32) (h : Core.legal c k = true) : Core.legal c (k.setSpecial c n v) = true := by
  have hp : pswLegal k.psw = true := ((Core.legal_iff c k).1 h).2.2.1
  have hf : k.fence < nwin c := ((Core.legal_iff c k).1 h).2.1
  have hx := xregs_legal c k h
  unfold Core.setSpecial
  dsimp only
  split
  · refine spec_legal _ _ _ (psw_legal _ _ _ h ?_)
    split
    · exact pswWritten_legal _ _ hp
    · exact putLvl_legal _ _ (bit0_masked _) (level_lt _ hp)
  · split
    · next e => exact spec_legal _ _ _ (cwp_legal _ _ _ h e)
    · exact h
  · refine spec_legal _ _ _ (fence_legal _ _ _ _ h ?_)
    split
    · assumption
    · exact hf
  · exact h
  · exact spec_legal _ _ _ h
  · exact spec_legal _ _ _ h
  · exact spec_legal _ _ _ h
  · exact spec_legal _ _ _ h
  · exact spec_legal _ _ _ h
  · exact spec_legal _ _ _ h
  · exact h
  · exact setXregs_legal _ _ _ h hx
  · have k2 := setXregs_legal c k { k.xregs with xpsw := pswWritten k.xregs.xpsw (loOf v) } h (pswWritten_legal _ _ hx)
    generalize k.setXregs { k.xregs with xpsw := pswWritten k.xregs.xpsw (loOf v) } = k' at k2 ⊢
    generalize putBit k'.dirty 14 true = d
    split
    · exact k2
    · exact k2
  · exact setXregs_legal _ _ _ h hx
  · exact setXregs_legal _ _ _ h hx
  · exact h

theorem mts_legal (c : CoreId) (k : Core) (n : Nat) (v : W32) (h : Core.legal c k = true) : Core.legal c (k.mts c n v) = true := by
  unfold Core.mts
  refine setSpecial_legal _ _ _ _ ?_
  split
  · exact younger_legal _ _ _ h
  · split
    · exact youngerOf_legal _ _ _ _ h
    · exact h

theorem landFlags_legal (c : CoreId) (k : Core) (o : LongOp) (h : Core.legal c k = true) (ho : maskOk o.mask) :
    Core.legal c (k.landFlags o) = true := by
  unfold Core.landFlags
  have h' := (Core.legal_iff c k).1 h
  dsimp only
  split
  · exact spec_legal _ _ _ (psw_legal _ _ _ h (on_legal _ _ ho h'.2.2.1))
  · split
    · rw [Core.legal_iff]
      exact ⟨h'.1, h'.2.1, h'.2.2.1, on_legal _ _ ho h'.2.2.2.1, h'.2.2.2.2⟩
    · split
      · rw [Core.legal_iff]
        exact ⟨h'.1, h'.2.1, h'.2.2.1, h'.2.2.2.1, on_legal _ _ ho h'.2.2.2.2.1, h'.2.2.2.2.2⟩
      · exact h

/-- A fold of updates that leave a core legal does. -/
theorem foldl_legal {β : Type} (c : CoreId) (f : Core → β → Core) (l : List β) (k : Core) (h : Core.legal c k = true)
    (hf : ∀ (k : Core) (b : β), Core.legal c k = true → Core.legal c (f k b) = true) : Core.legal c (l.foldl f k) = true := by
  induction l generalizing k with
  | nil => exact h
  | cons b l ih => exact ih _ (hf k b h)

theorem returnTo_legal (c : CoreId) (k : Core) (path : Path) (psw : Word) (pc : W32) (h : Core.legal c k = true) (hp : pswLegal psw = true) :
    Core.legal c (k.returnTo path psw pc) = true := by
  unfold Core.returnTo
  dsimp only
  refine spec_legal c _ _ (psw_legal _ _ _ ?_ hp)
  split
  · split
    · exact long_legal c k _ h fun x e => by cases e; show (0 : Word) &&& 0xC001 = 0; decide
    · exact h
  · exact h

theorem fromTsb_legal (c : CoreId) (k : Core) (w : List Word) (h : Core.legal c k = true) : Core.legal c (k.fromTsb c w) = true := by
  unfold Core.fromTsb
  dsimp only
  refine foldl_legal c _ _ _ (foldl_legal c _ _ _ (foldl_legal c _ _ _ ?_ fun _ _ x => x) fun _ _ x => x) fun _ _ x => x
  exact setSpecial_legal _ _ _ _ (setSpecial_legal _ _ _ _ (setSpecial_legal _ _ _ _ (setSpecial_legal _ _ _ _ (setSpecial_legal _ _ _ _ h))))

/-- The status word of a valid vector. -/
theorem lvlWord_legal (n : Nat) (h : n < 3) : pswLegal (BitVec.ofNat 16 (n * 16384)) = true := by
  rw [pswLegal_iff]
  simp only [BitVec.toNat_ofNat]
  omega

theorem entryLvl_lt (e : List Word) (h : entryValid e = true) : entryLvl e < 3 := by
  have e1 : entryLvl e < 4 := by unfold entryLvl; rw [wfld_eq]; omega
  have e2 : entryLvl e ≠ 3 := by
    unfold entryValid at h
    simp only [Bool.and_eq_true, decide_eq_true_eq] at h
    exact h.1.1.1.2
  omega

theorem enterAt_legal (c : CoreId) (k : Core) (path : Path) (x : XRegs) (e : List Word) (h : Core.legal c k = true)
    (hx : pswLegal x.xpsw = true) (he : entryLvl e < 3) : Core.legal c (k.enterAt path x e) = true := by
  have h1 : Core.legal c (k.spec fun k => { k with psw := BitVec.ofNat 16 (entryLvl e * 16384) }) = true :=
    spec_legal _ _ _ (psw_legal _ _ _ h (lvlWord_legal _ he))
  unfold Core.enterAt
  dsimp only
  generalize (k.spec fun k => { k with psw := BitVec.ofNat 16 (entryLvl e * 16384) }) = k1 at h1 ⊢
  rw [Core.legal_iff] at h1 ⊢
  refine ⟨h1.1, h1.2.1, h1.2.2.1, ?_, ?_, ?_, h1.2.2.2.2.2.2⟩ <;> dsimp only <;> split <;> first | exact hx | skip
  · exact h1.2.2.2.1
  · exact h1.2.2.2.2.1
  · exact h1.2.2.2.2.2.1

theorem xEntry_legal (c : CoreId) (k : Core) (path : Path) (cause : Nat) (ret xaddr : W32) (imp : Bool) (xwin : Nat)
    (h : Core.legal c k = true) : pswLegal (k.xEntry path cause ret xaddr imp xwin).xpsw = true := ((Core.legal_iff c k).1 h).2.2.1

theorem debugSpecial_legal (c : CoreId) (k : Core) (n : Nat) (v : W32) (h : Core.legal c k = true) : Core.legal c (k.debugSpecial c n v) = true := by
  unfold Core.debugSpecial
  split
  · exact spec_legal _ _ _ (psw_legal _ _ _ h (pswWritten_legal _ _ ((Core.legal_iff c k).1 h).2.2.1))
  · exact setSpecial_legal _ _ _ _ h

theorem loadPsw_legal (c : CoreId) (k : Core) (psw : Word) (h : Core.legal c k = true) (hp : pswLegal psw = true) :
    Core.legal c (k.loadPsw psw) = true := by
  unfold Core.loadPsw
  split
  · exact setXregs_legal _ _ _ h hp
  · exact psw_legal _ _ _ h hp

theorem loadPointers_legal (c : CoreId) (k : Core) (g : Nat → Word) (h : Core.legal c k = true) : Core.legal c (k.loadPointers g) = true := h

theorem loadLower_legal (c : CoreId) (k : Core) (w : List Word) (psw : Word) (h : Core.legal c k = true) (hp : pswLegal psw = true) :
    Core.legal c (k.loadLower c w psw) = true := by
  unfold Core.loadLower
  refine loadPointers_legal _ _ _ (setSpecial_legal _ _ _ _ (setSpecial_legal _ _ _ _ (setSpecial_legal _ _ _ _
    (setSpecial_legal _ _ _ _ (loadPsw_legal _ _ _ (foldl_legal c _ _ _ h fun k b x => ?_) hp)))))
  exact setPreg_legal _ _ _ _ x

end Sys2Proof.Machine
end

