-- ==== Sys2Proof/Laws/Tab.lean ====
section
/-! SUPPORT. Laws of the sparse tables: reading after writing, and the canonical form. -/

namespace Sys2Proof.Machine

open Sys2Proof

variable {α : Type} [DecidableEq α]

omit [DecidableEq α] in
/-- A key below every entry reads the default. -/
theorem Tab.get_of_dropWhile (d : α) (n : Nat) : ∀ t : Tab α, Tab.get d (t.dropWhile fun e => decide (e.1 ≤ n)) n = d := by
  intro t
  induction t with
  | nil => rfl
  | cons e t ih =>
    by_cases h : e.1 ≤ n
    · simpa [List.dropWhile_cons, h] using ih
    · have h' : n < e.1 := by omega
      simp [h, Tab.get, h']

omit [DecidableEq α] in
/-- Dropping entries up to n leaves what is read above n. -/
theorem Tab.get_dropWhile_of_lt (d : α) {n m : Nat} (hm : n < m) : ∀ t : Tab α,
    Tab.get d (t.dropWhile fun e => decide (e.1 ≤ n)) m = Tab.get d t m := by
  intro t
  induction t with
  | nil => rfl
  | cons e t ih =>
    obtain ⟨k, v⟩ := e
    by_cases h : k ≤ n
    · have h1 : ¬ m < k := by omega
      have h2 : ¬ m = k := by omega
      simp [h, Tab.get, h1, h2, ih]
    · simp [h]

/-- Reading the key just written gives the value. -/
@[simp] theorem Tab.get_set_self (d : α) (n : Nat) (v : α) (t : Tab α) : Tab.get d (Tab.set d n v t) n = v := by
  induction t with
  | nil => by_cases h : v = d <;> simp [Tab.set, Tab.get, h]
  | cons e t ih =>
    obtain ⟨k, w⟩ := e
    by_cases h1 : n < k
    · by_cases h : v = d <;> simp [Tab.set, Tab.get, h1, h]
    · by_cases h2 : n = k
      · subst h2
        by_cases h : v = d
        · simp [Tab.set, h, Tab.get_of_dropWhile]
        · simp [Tab.set, Tab.get, h]
      · simp [Tab.set, Tab.get, h1, h2, ih]

/-- A write leaves every other key, whatever default each is read with. -/
theorem Tab.get_set_of_ne2 (d d' : α) {n m : Nat} (hm : m ≠ n) (v : α) (t : Tab α) :
    Tab.get d' (Tab.set d n v t) m = Tab.get d' t m := by
  induction t with
  | nil =>
    by_cases h : v = d
    · simp [Tab.set, h]
    · by_cases h1 : m < n <;> simp [Tab.set, Tab.get, h, h1, hm]
  | cons e t ih =>
    obtain ⟨k, w⟩ := e
    by_cases h1 : n < k
    · by_cases h : v = d
      · simp [Tab.set, h1, h]
      · by_cases h2 : m < n
        · have : m < k := by omega
          simp [Tab.set, Tab.get, h1, h, h2, this]
        · simp [Tab.set, Tab.get, h1, h, h2, hm]
    · by_cases h2 : n = k
      · subst h2
        by_cases h : v = d
        · by_cases h3 : m < n
          · have : Tab.get d' (t.dropWhile fun e => decide (e.1 ≤ n)) m = d' := by
              clear ih
              induction t with
              | nil => rfl
              | cons e t ih2 =>
                obtain ⟨k', w'⟩ := e
                by_cases h4 : k' ≤ n
                · simpa [List.dropWhile_cons, h4] using ih2
                · have : m < k' := by omega
                  simp [h4, Tab.get, this]
            simp [Tab.set, h, Tab.get, h3, this]
          · have h5 : n < m := by omega
            simp [Tab.set, h, Tab.get, h3, hm, Tab.get_dropWhile_of_lt d' h5]
        · by_cases h3 : m < n <;> simp [Tab.set, Tab.get, h, h3, hm]
      · by_cases h3 : m < k
        · simp [Tab.set, Tab.get, h1, h2, h3]
        · by_cases h4 : m = k <;> simp [Tab.set, Tab.get, h1, h2, h3, h4, ih]

/-- A write leaves every other key. -/
theorem Tab.get_set_of_ne (d : α) {n m : Nat} (hm : m ≠ n) (v : α) (t : Tab α) :
    Tab.get d (Tab.set d n v t) m = Tab.get d t m := Tab.get_set_of_ne2 d d hm v t

/-- A table canonical above b is canonical above any lower bound. -/
theorem Tab.wfFrom_mono (d : α) {a b : Nat} (hab : a ≤ b) : ∀ t : Tab α, Tab.wfFrom d b t = true → Tab.wfFrom d a t = true := by
  intro t hb
  cases t with
  | nil => rfl
  | cons e t =>
    simp only [Tab.wfFrom, Bool.and_eq_true, decide_eq_true_eq] at hb ⊢
    exact ⟨⟨by omega, hb.1.2⟩, hb.2⟩

/-- A write of a key not below lo keeps the canonical form above lo. -/
theorem Tab.wfFrom_set (d : α) (n : Nat) (v : α) : ∀ (t : Tab α) (lo : Nat), lo ≤ n → Tab.wfFrom d lo t = true →
    Tab.wfFrom d lo (Tab.set d n v t) = true := by
  intro t
  induction t with
  | nil =>
    intro lo hlo _
    by_cases h : v = d <;> simp [Tab.set, Tab.wfFrom, h, hlo]
  | cons e t ih =>
    obtain ⟨k, w⟩ := e
    intro lo hlo ht
    simp only [Tab.wfFrom, Bool.and_eq_true, decide_eq_true_eq] at ht
    obtain ⟨⟨hk, hw⟩, ht⟩ := ht
    by_cases h1 : n < k
    · by_cases h : v = d
      · simp [Tab.set, Tab.wfFrom, h1, h, hk, hw, ht]
      · have : n + 1 ≤ k := h1
        simp [Tab.set, Tab.wfFrom, h1, h, hlo, hw, ht, this]
    · by_cases h2 : n = k
      · subst h2
        by_cases h : v = d
        · have hd : (t.dropWhile fun e => decide (e.1 ≤ n)) = t := by
            cases t with
            | nil => rfl
            | cons e t =>
              simp only [Tab.wfFrom, Bool.and_eq_true, decide_eq_true_eq] at ht
              have : ¬ e.1 ≤ n := by omega
              simp [this]
          simp only [Tab.set, h, lt_irrefl, if_true, if_false, hd]
          exact Tab.wfFrom_mono d (by omega) t ht
        · simp [Tab.set, Tab.wfFrom, h, hk, ht]
      · have h3 : k + 1 ≤ n := by omega
        simp [Tab.set, Tab.wfFrom, h1, h2, hk, hw, ih (k + 1) h3 ht]

/-- A write keeps the canonical form. -/
theorem Tab.wf_set (d : α) (n : Nat) (v : α) {t : Tab α} (h : Tab.wf d t = true) : Tab.wf d (Tab.set d n v t) = true :=
  Tab.wfFrom_set d n v t 0 (Nat.zero_le _) h

/-- Entries taken out keep the canonical form above a bound. -/
theorem Tab.wfFrom_filter (d : α) (p : Nat × α → Bool) : ∀ (t : Tab α) (lo : Nat), Tab.wfFrom d lo t = true →
    Tab.wfFrom d lo (List.filter p t) = true := by
  intro t
  induction t with
  | nil => intro lo _; rfl
  | cons e t ih =>
    intro lo h
    simp only [Tab.wfFrom, Bool.and_eq_true, decide_eq_true_eq] at h
    by_cases hp : p e = true
    · simp [hp, Tab.wfFrom, h.1.1, h.1.2, ih _ h.2]
    · simp only [hp, Bool.false_eq_true, not_false_eq_true, List.filter_cons_of_neg]
      exact Tab.wfFrom_mono d (by omega) _ (ih _ h.2)

/-- Entries taken out keep the canonical form. -/
theorem Tab.wf_filter (d : α) (p : Nat × α → Bool) {t : Tab α} (h : Tab.wf d t = true) : Tab.wf d (List.filter p t) = true :=
  Tab.wfFrom_filter d p t 0 h

/-- Bytes written keep the canonical form. -/
theorem writeBytes_wf (d : Byte) : ∀ (l : List Byte) (t : Tab Byte) (a : Nat), Tab.wf d t = true → Tab.wf d (writeBytes d t a l) = true := by
  intro l
  induction l with
  | nil => intro t a h; exact h
  | cons b l ih => intro t a h; exact ih _ _ (Tab.wf_set d a b h)

/-- A byte outside the bytes written reads as before. -/
theorem get_writeBytes_of_out (d : Byte) : ∀ (l : List Byte) (t : Tab Byte) (a m : Nat), (m < a ∨ a + l.length ≤ m) →
    Tab.get d (writeBytes d t a l) m = Tab.get d t m := by
  intro l
  induction l with
  | nil => intro t a m _; rfl
  | cons b l ih =>
    intro t a m h
    have h1 : m ≠ a := by simp only [List.length_cons] at h; omega
    have h2 : m < a + 1 ∨ a + 1 + l.length ≤ m := by simp only [List.length_cons] at h; omega
    show Tab.get d (writeBytes d (Tab.set d a b t) (a + 1) l) m = _
    rw [ih _ _ _ h2, Tab.get_set_of_ne d h1]

end Sys2Proof.Machine
end

