-- ==== Sys2Proof/Laws/FrameBase.lean ====
section
/-! SUPPORT. What the laws under Laws/Frame say of an operation (from a legal state it leaves a legal state with the same queue
of waiting commands), and how folds inherit it. -/

namespace Sys2Proof.Machine

open Sys2Proof

/-- The state t is legal and has the queue of s. -/
def Keeps (s t : State) : Prop := t.mem.wf = true ∧ coresLegal t.cores ∧ t.pending = s.pending

/-- One operation after another. -/
theorem Keeps.step {s t u : State} (h : Keeps s t) (k : t.mem.wf = true → coresLegal t.cores → Keeps t u) : Keeps s u := by
  obtain ⟨a, b, c⟩ := h
  obtain ⟨d, e, f⟩ := k a b
  exact ⟨d, e, f.trans c⟩

/-- A legal state keeps itself. -/
theorem Keeps.refl {s : State} (h : s.mem.wf = true) (hc : coresLegal s.cores) : Keeps s s := ⟨h, hc, rfl⟩

/-- Either branch of a choice. -/
theorem Keeps.ite {s t u : State} {c : Prop} [Decidable c] (h : Keeps s t) (k : Keeps s u) : Keeps s (if c then t else u) := by
  split
  · exact h
  · exact k

/-- A fold of steps that keep legality and the queue keeps them. -/
theorem foldl_keeps {β : Type} (f : State → β → State) (l : List β) (s : State) (h : s.mem.wf = true) (hc : coresLegal s.cores)
    (hf : ∀ (t : State) (b : β), t.mem.wf = true → coresLegal t.cores →
      (f t b).mem.wf = true ∧ coresLegal (f t b).cores ∧ (f t b).pending = t.pending) :
    (l.foldl f s).mem.wf = true ∧ coresLegal (l.foldl f s).cores ∧ (l.foldl f s).pending = s.pending := by
  induction l generalizing s with
  | nil => exact ⟨h, hc, rfl⟩
  | cons b l ih =>
    obtain ⟨h1, h2, h3⟩ := hf s b h hc
    obtain ⟨h4, h5, h6⟩ := ih (f s b) h1 h2
    exact ⟨h4, h5, h6.trans h3⟩
grind_pattern foldl_keeps => l.foldl f s

/-- A fold of steps over a pair whose state part keeps legality and the queue keeps them. -/
theorem foldl_keeps_fst {α β : Type} (f : State × α → β → State × α) (l : List β) (s : State) (a : α) (h : s.mem.wf = true)
    (hc : coresLegal s.cores)
    (hf : ∀ (t : State × α) (b : β), t.1.mem.wf = true → coresLegal t.1.cores →
      (f t b).1.mem.wf = true ∧ coresLegal (f t b).1.cores ∧ (f t b).1.pending = t.1.pending) :
    (l.foldl f (s, a)).1.mem.wf = true ∧ coresLegal (l.foldl f (s, a)).1.cores ∧ (l.foldl f (s, a)).1.pending = s.pending := by
  induction l generalizing s a with
  | nil => exact ⟨h, hc, rfl⟩
  | cons b l ih =>
    obtain ⟨h1, h2, h3⟩ := hf (s, a) b h hc
    obtain ⟨h4, h5, h6⟩ := ih (f (s, a) b).1 (f (s, a) b).2 h1 h2
    exact ⟨h4, h5, h6.trans h3⟩
grind_pattern foldl_keeps_fst => l.foldl f (s, a)

/-- A fold of steps over a pair whose second part keeps legality and the queue keeps them. -/
theorem foldl_keeps_snd {α β : Type} (f : α × State → β → α × State) (l : List β) (s : State) (a : α) (h : s.mem.wf = true)
    (hc : coresLegal s.cores)
    (hf : ∀ (t : α × State) (b : β), t.2.mem.wf = true → coresLegal t.2.cores →
      (f t b).2.mem.wf = true ∧ coresLegal (f t b).2.cores ∧ (f t b).2.pending = t.2.pending) :
    (l.foldl f (a, s)).2.mem.wf = true ∧ coresLegal (l.foldl f (a, s)).2.cores ∧ (l.foldl f (a, s)).2.pending = s.pending := by
  induction l generalizing s a with
  | nil => exact ⟨h, hc, rfl⟩
  | cons b l ih =>
    obtain ⟨h1, h2, h3⟩ := hf (a, s) b h hc
    obtain ⟨h4, h5, h6⟩ := ih (f (a, s) b).2 (f (a, s) b).1 h1 h2
    exact ⟨h4, h5, h6.trans h3⟩
grind_pattern foldl_keeps_snd => l.foldl f (a, s)

end Sys2Proof.Machine
end

