-- ==== Sys2Proof/Laws/Frame/Ops.lean ====
section
/-! SUPPORT. What the operations of Machine/Ops.lean leave: memory in canonical form and the queue of waiting commands. -/

namespace Sys2Proof.Machine

open Sys2Proof

/-- See State.setReg. -/
theorem setReg_keeps (s : State) (k : RegKind) (i : Nat) (v : Word) (h : s.mem.wf = true) (hc : coresLegal s.cores) :
    (State.setReg s k i v).mem.wf = true ∧ coresLegal (State.setReg s k i v).cores ∧ (State.setReg s k i v).pending = s.pending := by
  grind [State.setReg]
grind_pattern setReg_keeps => State.setReg s k i v

/-- See State.setFld. -/
theorem setFld_keeps (s : State) (k : RegKind) (i hi lo n : Nat) (h : s.mem.wf = true) (hc : coresLegal s.cores) :
    (State.setFld s k i hi lo n).mem.wf = true ∧ coresLegal (State.setFld s k i hi lo n).cores ∧ (State.setFld s k i hi lo n).pending = s.pending := by
  grind [State.setFld]
grind_pattern setFld_keeps => State.setFld s k i hi lo n

/-- See State.setBit. -/
theorem setBit_keeps (s : State) (k : RegKind) (i b : Nat) (v : Bool) (h : s.mem.wf = true) (hc : coresLegal s.cores) :
    (State.setBit s k i b v).mem.wf = true ∧ coresLegal (State.setBit s k i b v).cores ∧ (State.setBit s k i b v).pending = s.pending := by
  grind [State.setBit]
grind_pattern setBit_keeps => State.setBit s k i b v

/-- See State.count. -/
theorem count_keeps (s : State) (k : RegKind) (i : Nat) (n : Nat) (h : s.mem.wf = true) (hc : coresLegal s.cores) :
    (State.count s k i n).mem.wf = true ∧ coresLegal (State.count s k i n).cores ∧ (State.count s k i n).pending = s.pending := by
  grind [State.count]
grind_pattern count_keeps => State.count s k i n

/-- See State.setPair. -/
theorem setPair_keeps (s : State) (lo hi : RegKind) (i : Nat) (n : Nat) (h : s.mem.wf = true) (hc : coresLegal s.cores) :
    (State.setPair s lo hi i n).mem.wf = true ∧ coresLegal (State.setPair s lo hi i n).cores ∧ (State.setPair s lo hi i n).pending = s.pending := by
  grind [State.setPair]
grind_pattern setPair_keeps => State.setPair s lo hi i n

/-- See State.raise. -/
theorem raise_keeps (s : State) (core src : Nat) (h : s.mem.wf = true) (hc : coresLegal s.cores) :
    (State.raise s core src).mem.wf = true ∧ coresLegal (State.raise s core src).cores ∧ (State.raise s core src).pending = s.pending := by
  grind [State.raise]
grind_pattern raise_keeps => State.raise s core src

/-- See State.raiseStat. -/
theorem raiseStat_keeps (s : State) (stat en : RegKind) (b core src : Nat) (h : s.mem.wf = true) (hc : coresLegal s.cores) :
    (State.raiseStat s stat en b core src).mem.wf = true ∧ coresLegal (State.raiseStat s stat en b core src).cores ∧ (State.raiseStat s stat en b core src).pending = s.pending := by
  grind [State.raiseStat]
grind_pattern raiseStat_keeps => State.raiseStat s stat en b core src

/-- See State.draw. -/
theorem draw_keeps (s : State) (h : s.mem.wf = true) (hc : coresLegal s.cores) :
    (State.draw s).2.mem.wf = true ∧ coresLegal (State.draw s).2.cores ∧ (State.draw s).2.pending = s.pending := by
  grind [State.draw]
grind_pattern draw_keeps => State.draw s

/-- See State.drawBit. -/
theorem drawBit_keeps (s : State) (h : s.mem.wf = true) (hc : coresLegal s.cores) :
    (State.drawBit s).2.mem.wf = true ∧ coresLegal (State.drawBit s).2.cores ∧ (State.drawBit s).2.pending = s.pending := by
  grind [State.drawBit]
grind_pattern drawBit_keeps => State.drawBit s

/-- See State.drawWord. -/
theorem drawWord_keeps (s : State) (h : s.mem.wf = true) (hc : coresLegal s.cores) :
    (State.drawWord s).2.mem.wf = true ∧ coresLegal (State.drawWord s).2.cores ∧ (State.drawWord s).2.pending = s.pending := by
  grind [State.drawWord]
grind_pattern drawWord_keeps => State.drawWord s

/-- A core of a legal state is legal. -/
theorem core_legal (s : State) (c : CoreId) (hc : coresLegal s.cores) : Core.legal c (s.core c) = true := hc c
grind_pattern core_legal => s.core c

/-- See State.setCore. -/
theorem setCore_keeps (s : State) (c : CoreId) (k : Core) (h : s.mem.wf = true) (hc : coresLegal s.cores) (hk : Core.legal c k = true) :
    (s.setCore c k).mem.wf = true ∧ coresLegal (s.setCore c k).cores ∧ (s.setCore c k).pending = s.pending := by
  refine ⟨h, ?_, rfl⟩
  intro d
  show Core.legal d ((s.cores.set c.val k c.isLt)[d.val]) = true
  rw [Vector.getElem_set]
  split
  · rename_i e
    have : c = d := Fin.ext e
    subst this; exact hk
  · exact hc d
grind_pattern setCore_keeps => s.setCore c k

/-- See State.modCore. -/
theorem modCore_keeps (s : State) (c : CoreId) (f : Core → Core) (h : s.mem.wf = true) (hc : coresLegal s.cores)
    (hk : Core.legal c (f (s.core c)) = true) :
    (s.modCore c f).mem.wf = true ∧ coresLegal (s.modCore c f).cores ∧ (s.modCore c f).pending = s.pending :=
  setCore_keeps s c _ h hc hk
grind_pattern modCore_keeps => s.modCore c f

end Sys2Proof.Machine
end

