-- ==== Sys2Proof/Laws/Frame/Tile.lean ====
section
/-! SUPPORT. What the operations of Machine/Tile.lean leave: memory in canonical form and the queue of waiting commands. -/

namespace Sys2Proof.Machine

open Sys2Proof

/-- The table of a die's tiles is canonical. -/
theorem tileMem_wf (s : State) (d : Die) (h : s.mem.wf = true) : Tab.wf 0 (s.tileMem d) = true := by
  cases d <;> (simp only [Mem.wf, Bool.and_eq_true] at h; simp only [State.tileMem]; grind)
grind_pattern tileMem_wf => s.tileMem d

/-- See State.setTileMem. -/
theorem setTileMem_keeps (s : State) (d : Die) (t : Tab Byte) (h : s.mem.wf = true) (hc : coresLegal s.cores) (ht : Tab.wf 0 t = true) :
    (s.setTileMem d t).mem.wf = true ∧ coresLegal (s.setTileMem d t).cores ∧ (s.setTileMem d t).pending = s.pending := by
  cases d <;> (simp only [Mem.wf, Bool.and_eq_true] at h; refine ⟨?_, hc, rfl⟩; simp only [State.setTileMem, Mem.wf, Bool.and_eq_true]; grind)
grind_pattern setTileMem_keeps => s.setTileMem d t

/-- The table of a die's marked words is canonical. -/
theorem eccTab_wf (s : State) (d : Die) (h : s.mem.wf = true) : Tab.wf .clean (s.eccTab d) = true := by
  cases d <;> (simp only [Mem.wf, Bool.and_eq_true] at h; simp only [State.eccTab]; grind)
grind_pattern eccTab_wf => s.eccTab d

/-- See State.setEccTab. -/
theorem setEccTab_keeps (s : State) (d : Die) (t : Tab Ecc) (h : s.mem.wf = true) (hc : coresLegal s.cores) (ht : Tab.wf .clean t = true) :
    (s.setEccTab d t).mem.wf = true ∧ coresLegal (s.setEccTab d t).cores ∧ (s.setEccTab d t).pending = s.pending := by
  cases d <;> (simp only [Mem.wf, Bool.and_eq_true] at h; refine ⟨?_, hc, rfl⟩; simp only [State.setEccTab, Mem.wf, Bool.and_eq_true]; grind)
grind_pattern setEccTab_keeps => s.setEccTab d t

/-- See State.setTile. -/
theorem setTile_keeps (s : State) (d : Die) (t : Nat) (v : Tile) (h : s.mem.wf = true) (hc : coresLegal s.cores) :
    (State.setTile s d t v).mem.wf = true ∧ coresLegal (State.setTile s d t v).cores ∧ (State.setTile s d t v).pending = s.pending := by
  grind [State.setTile]
grind_pattern setTile_keeps => State.setTile s d t v

/-- See State.moveRr. -/
theorem moveRr_keeps (s : State) (d : Die) (t m : Nat) (h : s.mem.wf = true) (hc : coresLegal s.cores) :
    (State.moveRr s d t m).mem.wf = true ∧ coresLegal (State.moveRr s d t m).cores ∧ (State.moveRr s d t m).pending = s.pending := by
  grind [State.moveRr]
grind_pattern moveRr_keeps => State.moveRr s d t m

/-- See State.violation. -/
theorem violation_keeps (s : State) (m : Master) (h : s.mem.wf = true) (hc : coresLegal s.cores) :
    (State.violation s m).mem.wf = true ∧ coresLegal (State.violation s m).cores ∧ (State.violation s m).pending = s.pending := by
  grind [State.violation]
grind_pattern violation_keeps => State.violation s m

/-- See State.logError. -/
theorem logError_keeps (s : State) (m : Master) (cause : Nat) (write : Bool) (a : Nat) (h : s.mem.wf = true) (hc : coresLegal s.cores) :
    (State.logError s m cause write a).mem.wf = true ∧ coresLegal (State.logError s m cause write a).cores ∧ (State.logError s m cause write a).pending = s.pending := by
  grind [State.logError]
grind_pattern logError_keeps => State.logError s m cause write a

/-- See State.path. -/
theorem path_keeps (s : State) (m : Master) (a : Nat) (write stream : Bool) (h : s.mem.wf = true) (hc : coresLegal s.cores) :
    (State.path s m a write stream).2.mem.wf = true ∧ coresLegal (State.path s m a write stream).2.cores ∧ (State.path s m a write stream).2.pending = s.pending := by
  grind [State.path]
grind_pattern path_keeps => State.path s m a write stream

/-- See State.startTile. -/
theorem startTile_keeps (s : State) (d : Die) (t : Nat) (h : s.mem.wf = true) (hc : coresLegal s.cores) :
    (State.startTile s d t).mem.wf = true ∧ coresLegal (State.startTile s d t).cores ∧ (State.startTile s d t).pending = s.pending := by
  grind [State.startTile]
grind_pattern startTile_keeps => State.startTile s d t

/-- See State.zeroFill. -/
theorem zeroFill_keeps (s : State) (d : Die) (phys : Nat) (h : s.mem.wf = true) (hc : coresLegal s.cores) :
    (State.zeroFill s d phys).mem.wf = true ∧ coresLegal (State.zeroFill s d phys).cores ∧ (State.zeroFill s d phys).pending = s.pending := by
  grind [State.zeroFill, Tab.wf_filter]
grind_pattern zeroFill_keeps => State.zeroFill s d phys

/-- See State.zeroTile. -/
theorem zeroTile_keeps (s : State) (d : Die) (t : Nat) (h : s.mem.wf = true) (hc : coresLegal s.cores) :
    (State.zeroTile s d t).mem.wf = true ∧ coresLegal (State.zeroTile s d t).cores ∧ (State.zeroTile s d t).pending = s.pending := by
  grind [State.zeroTile]
grind_pattern zeroTile_keeps => State.zeroTile s d t

/-- See State.endTile. -/
theorem endTile_keeps (s : State) (d : Die) (t : Nat) (h : s.mem.wf = true) (hc : coresLegal s.cores) :
    (State.endTile s d t).mem.wf = true ∧ coresLegal (State.endTile s d t).cores ∧ (State.endTile s d t).pending = s.pending := by
  grind [State.endTile]
grind_pattern endTile_keeps => State.endTile s d t

/-- See State.awaitOn. -/
theorem awaitOn_keeps (s : State) (d : Die) (t : Nat) (h : s.mem.wf = true) (hc : coresLegal s.cores) :
    (State.awaitOn s d t).mem.wf = true ∧ coresLegal (State.awaitOn s d t).cores ∧ (State.awaitOn s d t).pending = s.pending := by
  grind [State.awaitOn]
grind_pattern awaitOn_keeps => State.awaitOn s d t

/-- See State.addEvent. -/
theorem addEvent_keeps (s : State) (kind unit : Nat) (live sw : Bool) (src : Nat) (h : s.mem.wf = true) (hc : coresLegal s.cores) :
    (State.addEvent s kind unit live sw src).mem.wf = true ∧ coresLegal (State.addEvent s kind unit live sw src).cores ∧ (State.addEvent s kind unit live sw src).pending = s.pending := by
  grind [State.addEvent]
grind_pattern addEvent_keeps => State.addEvent s kind unit live sw src

/-- See State.queueTile. -/
theorem queueTile_keeps (s : State) (w src : Nat) (h : s.mem.wf = true) (hc : coresLegal s.cores) :
    (State.queueTile s w src).mem.wf = true ∧ coresLegal (State.queueTile s w src).cores ∧ (State.queueTile s w src).pending = s.pending := by
  grind [State.queueTile]
grind_pattern queueTile_keeps => State.queueTile s w src

/-- See State.candidate. -/
theorem candidate_keeps (s : State) (d : Die) (t src : Nat) (h : s.mem.wf = true) (hc : coresLegal s.cores) :
    (State.candidate s d t src).mem.wf = true ∧ coresLegal (State.candidate s d t src).cores ∧ (State.candidate s d t src).pending = s.pending := by
  unfold State.candidate; grind
grind_pattern candidate_keeps => State.candidate s d t src

/-- See State.countCe. -/
theorem countCe_keeps (s : State) (d : Die) (t : Nat) (h : s.mem.wf = true) (hc : coresLegal s.cores) :
    (State.countCe s d t).mem.wf = true ∧ coresLegal (State.countCe s d t).cores ∧ (State.countCe s d t).pending = s.pending := by
  grind [State.countCe]
grind_pattern countCe_keeps => State.countCe s d t

/-- See State.countUe. -/
theorem countUe_keeps (s : State) (d : Die) (t : Nat) (h : s.mem.wf = true) (hc : coresLegal s.cores) :
    (State.countUe s d t).mem.wf = true ∧ coresLegal (State.countUe s d t).cores ∧ (State.countUe s d t).pending = s.pending := by
  grind [State.countUe]
grind_pattern countUe_keeps => State.countUe s d t

/-- See State.setEcc. -/
theorem setEcc_keeps (s : State) (d : Die) (t off : Nat) (e : Ecc) (h : s.mem.wf = true) (hc : coresLegal s.cores) :
    (State.setEcc s d t off e).mem.wf = true ∧ coresLegal (State.setEcc s d t off e).cores ∧ (State.setEcc s d t off e).pending = s.pending := by
  grind [State.setEcc, Tab.wf_set]
grind_pattern setEcc_keeps => State.setEcc s d t off e

/-- See State.mirror. -/
theorem mirror_keeps (s : State) (d : Die) (t off : Nat) (bs : List Byte) (e : Ecc) (h : s.mem.wf = true) (hc : coresLegal s.cores) :
    (State.mirror s d t off bs e).mem.wf = true ∧ coresLegal (State.mirror s d t off bs e).cores ∧ (State.mirror s d t off bs e).pending = s.pending := by
  unfold State.mirror
  split
  · split
    · refine ⟨?_, hc, rfl⟩
      simp only [Mem.wf, Bool.and_eq_true] at h ⊢
      grind [writeBytes_wf, Tab.wf_set]
    · exact ⟨h, hc, rfl⟩
  · exact ⟨h, hc, rfl⟩
grind_pattern mirror_keeps => State.mirror s d t off bs e

/-- See State.readWord. -/
theorem readWord_keeps (s : State) (d : Die) (t off n : Nat) (h : s.mem.wf = true) (hc : coresLegal s.cores) :
    (State.readWord s d t off n).2.mem.wf = true ∧ coresLegal (State.readWord s d t off n).2.cores ∧ (State.readWord s d t off n).2.pending = s.pending := by
  grind [State.readWord]
grind_pattern readWord_keeps => State.readWord s d t off n

/-- See State.writeWord. -/
theorem writeWord_keeps (s : State) (d : Die) (t off : Nat) (bs : List Byte) (full : Bool) (h : s.mem.wf = true) (hc : coresLegal s.cores) :
    (State.writeWord s d t off bs full).2.mem.wf = true ∧ coresLegal (State.writeWord s d t off bs full).2.cores ∧ (State.writeWord s d t off bs full).2.pending = s.pending := by
  grind [State.writeWord, writeBytes_wf]
grind_pattern writeWord_keeps => State.writeWord s d t off bs full

/-- See State.putNear. -/
theorem putNear_keeps (s : State) (d : Die) (k : Nat) (bs : List Byte) (h : s.mem.wf = true) (hc : coresLegal s.cores) :
    (State.putNear s d k bs).mem.wf = true ∧ coresLegal (State.putNear s d k bs).cores ∧ (State.putNear s d k bs).pending = s.pending := by
  unfold State.putNear
  simp only [Mem.wf, Bool.and_eq_true] at h
  split <;> refine ⟨?_, hc, rfl⟩ <;> simp only [Mem.wf, Bool.and_eq_true] <;> grind [writeBytes_wf, Tab.wf_set]
grind_pattern putNear_keeps => State.putNear s d k bs

/-- See State.nearCount. -/
theorem nearCount_keeps (s : State) (d : Die) (p : Nat) (ue : Bool) (h : s.mem.wf = true) (hc : coresLegal s.cores) :
    (State.nearCount s d p ue).mem.wf = true ∧ coresLegal (State.nearCount s d p ue).cores ∧ (State.nearCount s d p ue).pending = s.pending := by
  unfold State.nearCount; grind
grind_pattern nearCount_keeps => State.nearCount s d p ue

/-- See State.readNear. -/
theorem readNear_keeps (s : State) (d : Die) (p off n : Nat) (h : s.mem.wf = true) (hc : coresLegal s.cores) :
    (State.readNear s d p off n).2.mem.wf = true ∧ coresLegal (State.readNear s d p off n).2.cores ∧ (State.readNear s d p off n).2.pending = s.pending := by
  grind [State.readNear]
grind_pattern readNear_keeps => State.readNear s d p off n

/-- See State.writeNear. -/
theorem writeNear_keeps (s : State) (d : Die) (p off : Nat) (bs : List Byte) (h : s.mem.wf = true) (hc : coresLegal s.cores) :
    (State.writeNear s d p off bs).2.mem.wf = true ∧ coresLegal (State.writeNear s d p off bs).2.cores ∧ (State.writeNear s d p off bs).2.pending = s.pending := by
  grind [State.writeNear]
grind_pattern writeNear_keeps => State.writeNear s d p off bs

/-- See State.readBeat. -/
theorem readBeat_keeps (s : State) (m : Master) (a n : Nat) (stream : Bool) (h : s.mem.wf = true) (hc : coresLegal s.cores) :
    (State.readBeat s m a n stream).2.mem.wf = true ∧ coresLegal (State.readBeat s m a n stream).2.cores ∧ (State.readBeat s m a n stream).2.pending = s.pending := by
  grind [State.readBeat]
grind_pattern readBeat_keeps => State.readBeat s m a n stream

/-- Bytes written to the flash keep the canonical form. -/
theorem memWrite_wf (m : Mem) (a : Nat) (l : List Byte) (h : m.wf = true) :
    ({ m with flash := writeBytes 0xFF m.flash a l } : Mem).wf = true := by
  simp only [Mem.wf, Bool.and_eq_true] at h ⊢
  grind [writeBytes_wf]
grind_pattern memWrite_wf => ({ m with flash := writeBytes 0xFF m.flash a l } : Mem)

/-- See State.writeBeat. -/
theorem writeBeat_keeps (s : State) (m : Master) (a : Nat) (bs : List Byte) (st : Bool) (h : s.mem.wf = true) (hc : coresLegal s.cores) :
    (s.writeBeat m a bs st).2.mem.wf = true ∧ coresLegal (s.writeBeat m a bs st).2.cores ∧ (s.writeBeat m a bs st).2.pending = s.pending := by
  grind [State.writeBeat]
grind_pattern writeBeat_keeps => s.writeBeat m a bs st

/-- See State.readPieces. -/
theorem readPieces_keeps (s : State) (m : Master) (st : Bool) (l : List (Nat × Nat)) (h : s.mem.wf = true) (hc : coresLegal s.cores) :
    (s.readPieces m st l).2.mem.wf = true ∧ coresLegal (s.readPieces m st l).2.cores ∧ (s.readPieces m st l).2.pending = s.pending := by
  induction l generalizing s with
  | nil => exact ⟨h, hc, rfl⟩
  | cons e l ih => grind [State.readPieces]
grind_pattern readPieces_keeps => s.readPieces m st l

/-- See State.writePieces. -/
theorem writePieces_keeps (s : State) (m : Master) (st : Bool) (l : List (Nat × Nat)) (b : List Byte) (h : s.mem.wf = true)
    (hc : coresLegal s.cores) :
    (s.writePieces m st l b).2.mem.wf = true ∧ coresLegal (s.writePieces m st l b).2.cores ∧ (s.writePieces m st l b).2.pending = s.pending := by
  induction l generalizing s b with
  | nil => exact ⟨h, hc, rfl⟩
  | cons e l ih => grind [State.writePieces]
grind_pattern writePieces_keeps => s.writePieces m st l b

/-- See State.readMem. -/
theorem readMem_keeps (s : State) (m : Master) (a n : Nat) (stream : Bool) (h : s.mem.wf = true) (hc : coresLegal s.cores) :
    (State.readMem s m a n stream).2.mem.wf = true ∧ coresLegal (State.readMem s m a n stream).2.cores ∧ (State.readMem s m a n stream).2.pending = s.pending := by
  grind [State.readMem]
grind_pattern readMem_keeps => State.readMem s m a n stream

/-- See State.writeMem. -/
theorem writeMem_keeps (s : State) (m : Master) (a : Nat) (bs : List Byte) (stream : Bool) (h : s.mem.wf = true) (hc : coresLegal s.cores) :
    (State.writeMem s m a bs stream).2.mem.wf = true ∧ coresLegal (State.writeMem s m a bs stream).2.cores ∧ (State.writeMem s m a bs stream).2.pending = s.pending := by
  grind [State.writeMem]
grind_pattern writeMem_keeps => State.writeMem s m a bs stream

end Sys2Proof.Machine
end

