-- ==== Sys2Proof/Laws/Frame/Tiles.lean ====
section
/-! SUPPORT. What the operations of Machine/Tiles.lean leave: memory in canonical form and the queue of waiting commands. -/

namespace Sys2Proof.Machine

open Sys2Proof

/-- See State.conflict. -/
theorem conflict_keeps (s : State) (d : Die) (g : Nat) (b : Beat) (h : s.mem.wf = true) (hc : coresLegal s.cores) :
    (State.conflict s d g b).mem.wf = true ∧ coresLegal (State.conflict s d g b).cores ∧ (State.conflict s d g b).pending = s.pending := by
  grind [State.conflict]
grind_pattern conflict_keeps => State.conflict s d g b

/-- See State.answer. -/
theorem answer_keeps (s : State) (r : Answer W64) (h : s.mem.wf = true) (hc : coresLegal s.cores) :
    (State.answer s r).mem.wf = true ∧ coresLegal (State.answer s r).cores ∧ (State.answer s r).pending = s.pending := by
  unfold State.answer; grind
grind_pattern answer_keeps => State.answer s r

/-- See State.readyBeats. -/
theorem readyBeats_keeps (s : State) (d : Die) (t : Nat) (x1 : List Beat) (h : s.mem.wf = true) (hc : coresLegal s.cores) :
    (State.readyBeats s d t x1).2.mem.wf = true ∧ coresLegal (State.readyBeats s d t x1).2.cores ∧ (State.readyBeats s d t x1).2.pending = s.pending := by
  induction x1 generalizing s d t with
  | nil => grind [State.readyBeats]
  | cons e l ih => grind [State.readyBeats]
grind_pattern readyBeats_keeps => State.readyBeats s d t x1

/-- See State.serve. -/
theorem serve_keeps (s : State) (d : Die) (t : Nat) (b : Beat) (upset : Ecc) (h : s.mem.wf = true) (hc : coresLegal s.cores) :
    (State.serve s d t b upset).mem.wf = true ∧ coresLegal (State.serve s d t b upset).cores ∧ (State.serve s d t b upset).pending = s.pending := by
  grind [State.serve]
grind_pattern serve_keeps => State.serve s d t b upset

/-- See State.portAsleep. -/
theorem portAsleep_keeps (s : State) (d : Die) (t : Nat) (ready : List Beat) (h : s.mem.wf = true) (hc : coresLegal s.cores) :
    (s.portAsleep d t ready).mem.wf = true ∧ coresLegal (s.portAsleep d t ready).cores ∧ (s.portAsleep d t ready).pending = s.pending := by
  have k : Keeps s (ready.foldl (fun s b => s.conflict d (tileGroup t) b) s) :=
    foldl_keeps _ _ s h hc fun t b x y => conflict_keeps t d _ b x y
  unfold State.portAsleep
  generalize ready.foldl (fun s b => s.conflict d (tileGroup t) b) s = s1 at k ⊢
  exact Keeps.ite (Keeps.step (Keeps.step k fun a b => setTile_keeps _ _ _ _ a b) fun a b => setBit_keeps _ _ _ _ _ a b) k
grind_pattern portAsleep_keeps => s.portAsleep d t ready

/-- See State.portServe. -/
theorem portServe_keeps (s : State) (d : Die) (t : Nat) (ready : List Beat) (b : Beat) (upset : Ecc) (h : s.mem.wf = true)
    (hc : coresLegal s.cores) :
    (s.portServe d t ready b upset).mem.wf = true ∧ coresLegal (s.portServe d t ready b upset).cores ∧
      (s.portServe d t ready b upset).pending = s.pending := by
  have k : ∀ l : List Beat, Keeps s (l.foldl (fun s b => s.conflict d (tileGroup t) b) s) := fun l =>
    foldl_keeps _ _ s h hc fun t b x y => conflict_keeps t d _ b x y
  have k2 := Keeps.step (Keeps.step (k (ready.filter fun x => x ≠ b)) fun a b' => moveRr_keeps _ d t b.master a b') fun p q =>
    serve_keeps _ d t b upset p q
  unfold State.portServe
  dsimp only
  generalize (((ready.filter fun x => x ≠ b).foldl (fun s b => s.conflict d (tileGroup t) b) s).moveRr d t b.master).serve d t b upset = s2 at k2 ⊢
  split
  · exact Keeps.ite k2 (Keeps.step k2 fun a b => setTile_keeps _ _ _ _ a b)
  · exact k2
grind_pattern portServe_keeps => s.portServe d t ready b upset

/-- See State.portBusy. -/
theorem portBusy_keeps (s : State) (d : Die) (t : Nat) (ready : List Beat) (h : s.mem.wf = true) (hc : coresLegal s.cores) :
    (State.portBusy s d t ready).mem.wf = true ∧ coresLegal (State.portBusy s d t ready).cores ∧ (State.portBusy s d t ready).pending = s.pending := by
  unfold State.portBusy
  have k : Keeps s (ready.foldl (fun s b => s.conflict d (tileGroup t) b) s) := foldl_keeps _ _ s h hc fun u b a e => conflict_keeps u d _ b a e
  dsimp only
  generalize ready.foldl (fun s b => s.conflict d (tileGroup t) b) s = s1 at k ⊢
  obtain ⟨k1, k2, k3⟩ := k
  grind
grind_pattern portBusy_keeps => State.portBusy s d t ready

/-- See State.portCycle. -/
theorem portCycle_keeps (s : State) (d : Die) (t : Nat) (beats : List Beat) (upset : Ecc) (h : s.mem.wf = true) (hc : coresLegal s.cores) :
    (State.portCycle s d t beats upset).mem.wf = true ∧ coresLegal (State.portCycle s d t beats upset).cores ∧ (State.portCycle s d t beats upset).pending = s.pending := by
  unfold State.portCycle
  have k : Keeps s (s.readyBeats d t (oneEach beats)).2 := readyBeats_keeps s d t _ h hc
  generalize s.readyBeats d t (oneEach beats) = r at k ⊢
  obtain ⟨ready, s1⟩ := r
  dsimp only at k ⊢
  obtain ⟨k1, k2, k3⟩ := k
  repeat' split
  all_goals grind
grind_pattern portCycle_keeps => State.portCycle s d t beats upset

/-- See State.scrubWord. -/
theorem scrubWord_keeps (s : State) (d : Die) (t off : Nat) (h : s.mem.wf = true) (hc : coresLegal s.cores) :
    (State.scrubWord s d t off).mem.wf = true ∧ coresLegal (State.scrubWord s d t off).cores ∧ (State.scrubWord s d t off).pending = s.pending := by
  grind [State.scrubWord]
grind_pattern scrubWord_keeps => State.scrubWord s d t off

/-- See State.tilePower. -/
theorem tilePower_keeps (s : State) (d : Die) (t : Nat) (v : Word) (h : s.mem.wf = true) (hc : coresLegal s.cores) :
    (State.tilePower s d t v).mem.wf = true ∧ coresLegal (State.tilePower s d t v).cores ∧ (State.tilePower s d t v).pending = s.pending := by
  grind [State.tilePower]
grind_pattern tilePower_keeps => State.tilePower s d t v

/-- See State.writeCctl. -/
theorem writeCctl_keeps (s : State) (d : Die) (v : Word) (h : s.mem.wf = true) (hc : coresLegal s.cores) :
    (State.writeCctl s d v).mem.wf = true ∧ coresLegal (State.writeCctl s d v).cores ∧ (State.writeCctl s d v).pending = s.pending := by
  grind [State.writeCctl]
grind_pattern writeCctl_keeps => State.writeCctl s d v

end Sys2Proof.Machine
end

