-- ==== Sys2Proof/Laws/Frame/Xlat.lean ====
section
/-! SUPPORT. What the operations of Machine/Xlat.lean leave: memory in canonical form and the queue of waiting commands. -/

namespace Sys2Proof.Machine

open Sys2Proof

/-- See State.walkRead. -/
theorem walkRead_keeps (s : State) (m : Master) (a n : Nat) (h : s.mem.wf = true) (hc : coresLegal s.cores) :
    (State.walkRead s m a n).2.mem.wf = true ∧ coresLegal (State.walkRead s m a n).2.cores ∧ (State.walkRead s m a n).2.pending = s.pending := by
  grind [State.walkRead]
grind_pattern walkRead_keeps => State.walkRead s m a n

/-- See State.chkErr. -/
theorem chkErr_keeps (s : State) (d : Die) (h : s.mem.wf = true) (hc : coresLegal s.cores) :
    (State.chkErr s d).mem.wf = true ∧ coresLegal (State.chkErr s d).cores ∧ (State.chkErr s d).pending = s.pending := by
  unfold State.chkErr; grind
grind_pattern chkErr_keeps => State.chkErr s d

/-- See State.walkFrom. -/
theorem walkFrom_keeps (s : State) (m : Master) (asid : Byte) (va : Nat) (x1 : Nat) (x2 : Nat) (x3 : Nat) (h : s.mem.wf = true) (hc : coresLegal s.cores) :
    (State.walkFrom s m asid va x1 x2 x3).2.mem.wf = true ∧ coresLegal (State.walkFrom s m asid va x1 x2 x3).2.cores ∧ (State.walkFrom s m asid va x1 x2 x3).2.pending = s.pending := by
  induction x1 generalizing s m asid va x2 x3 with
  | zero => grind [State.walkFrom]
  | succ n ih => grind [State.walkFrom]
grind_pattern walkFrom_keeps => State.walkFrom s m asid va x1 x2 x3

/-- See State.walkAsid. -/
theorem walkAsid_keeps (s : State) (m : Master) (asid : Byte) (ent : W32) (va : Nat) (h : s.mem.wf = true) (hc : coresLegal s.cores) :
    (State.walkAsid s m asid ent va).2.mem.wf = true ∧ coresLegal (State.walkAsid s m asid ent va).2.cores ∧ (State.walkAsid s m asid ent va).2.pending = s.pending := by
  grind [State.walkAsid]
grind_pattern walkAsid_keeps => State.walkAsid s m asid ent va

/-- See State.walk. -/
theorem walk_keeps (s : State) (m : Master) (atb : Nat) (asid : Byte) (va : Nat) (h : s.mem.wf = true) (hc : coresLegal s.cores) :
    (State.walk s m atb asid va).2.mem.wf = true ∧ coresLegal (State.walk s m atb asid va).2.cores ∧ (State.walk s m atb asid va).2.pending = s.pending := by
  grind [State.walk]
grind_pattern walk_keeps => State.walk s m atb asid va

/-- See State.casEntry. -/
theorem casEntry_keeps (s : State) (m : Master) (old new : Leaf) (h : s.mem.wf = true) (hc : coresLegal s.cores) :
    (State.casEntry s m old new).2.mem.wf = true ∧ coresLegal (State.casEntry s m old new).2.cores ∧ (State.casEntry s m old new).2.pending = s.pending := by
  grind [State.casEntry]
grind_pattern casEntry_keeps => State.casEntry s m old new

/-- See State.allowLeaf. -/
theorem allowLeaf_keeps (s : State) (m : Master) (l : Leaf) (n : Need) (lvl : Nat) (h : s.mem.wf = true) (hc : coresLegal s.cores) :
    (State.allowLeaf s m l n lvl).2.mem.wf = true ∧ coresLegal (State.allowLeaf s m l n lvl).2.cores ∧ (State.allowLeaf s m l n lvl).2.pending = s.pending := by
  grind [State.allowLeaf]
grind_pattern allowLeaf_keeps => State.allowLeaf s m l n lvl

/-- See State.insertLeaf. -/
theorem insertLeaf_keeps (s : State) (n : Nat) (l : Leaf) (t : List Leaf) (h : s.mem.wf = true) (hc : coresLegal s.cores) :
    (State.insertLeaf s n l t).2.mem.wf = true ∧ coresLegal (State.insertLeaf s n l t).2.cores ∧ (State.insertLeaf s n l t).2.pending = s.pending := by
  grind [State.insertLeaf]
grind_pattern insertLeaf_keeps => State.insertLeaf s n l t

/-- See State.pickLeaf. -/
theorem pickLeaf_keeps (s : State) (t : List Leaf) (h : s.mem.wf = true) (hc : coresLegal s.cores) :
    (State.pickLeaf s t).2.mem.wf = true ∧ coresLegal (State.pickLeaf s t).2.cores ∧ (State.pickLeaf s t).2.pending = s.pending := by
  unfold State.pickLeaf; grind
grind_pattern pickLeaf_keeps => State.pickLeaf s t

/-- See State.coreMiss. -/
theorem coreMiss_keeps (s : State) (c : CoreId) (atb : Nat) (asid : Byte) (va : Nat) (n : Need) (lvl : Nat) (stale : Option Leaf)
    (h : s.mem.wf = true) (hc : coresLegal s.cores) :
    (s.coreMiss c atb asid va n lvl stale).2.mem.wf = true ∧ coresLegal (s.coreMiss c atb asid va n lvl stale).2.cores ∧
      (s.coreMiss c atb asid va n lvl stale).2.pending = s.pending := by
  unfold State.coreMiss
  have k1 : Keeps s (s.walk (dataPort c) atb asid va).2 := walk_keeps _ _ _ _ _ h hc
  generalize s.walk (dataPort c) atb asid va = r at k1 ⊢
  obtain ⟨r, s1⟩ := r
  cases r with
  | error e => exact k1
  | ok l =>
    dsimp only at k1 ⊢
    have k2 : Keeps s (s1.allowLeaf (dataPort c) l n lvl).2 := Keeps.step k1 fun a b => allowLeaf_keeps _ _ _ _ _ a b
    generalize s1.allowLeaf (dataPort c) l n lvl = r at k2 ⊢
    obtain ⟨r, s2⟩ := r
    cases r with
    | error e => exact k2
    | ok x =>
      cases stale with
      | some o => exact Keeps.step k2 fun a b => modCore_keeps _ _ _ a b (core_legal _ c b)
      | none =>
        dsimp only at k2 ⊢
        have k3 : Keeps s (s2.insertLeaf 64 x (s2.core c).tlb).2 := Keeps.step k2 fun a b => insertLeaf_keeps _ _ _ _ a b
        generalize s2.insertLeaf 64 x (s2.core c).tlb = r at k3 ⊢
        obtain ⟨t, s3⟩ := r
        exact Keeps.step k3 fun a b => modCore_keeps _ _ _ a b (core_legal _ c b)
grind_pattern coreMiss_keeps => s.coreMiss c atb asid va n lvl stale

/-- See State.coreLeaf. -/
theorem coreLeaf_keeps (s : State) (c : CoreId) (atb : Nat) (asid : Byte) (va : Nat) (n : Need) (lvl : Nat)
    (h : s.mem.wf = true) (hc : coresLegal s.cores) :
    (s.coreLeaf c atb asid va n lvl).2.mem.wf = true ∧ coresLegal (s.coreLeaf c atb asid va n lvl).2.cores ∧
      (s.coreLeaf c atb asid va n lvl).2.pending = s.pending := by
  unfold State.coreLeaf
  have k1 : ∀ t, Keeps s (s.pickLeaf t).2 := fun t => pickLeaf_keeps _ _ h hc
  generalize (s.core c).leaves.filter (fun l => l.covers va && (l.asid = asid || (!l.ident && wbit l.flags 7))) = hits
  replace k1 := k1 hits
  generalize s.pickLeaf hits = r at k1 ⊢
  obtain ⟨r, s1⟩ := r
  cases r with
  | none => exact Keeps.step k1 fun a b => coreMiss_keeps _ _ _ _ _ _ _ _ a b
  | some l =>
    dsimp only at k1 ⊢
    split
    · exact k1
    · split
      · exact k1
      · have k2 : Keeps s (s1.casEntry (dataPort c) l (l.marked true)).2 := Keeps.step k1 fun a b => casEntry_keeps _ _ _ _ a b
        generalize s1.casEntry (dataPort c) l (l.marked true) = r at k2 ⊢
        obtain ⟨r, s2⟩ := r
        cases r with
        | error e => exact k2
        | ok o =>
          cases o with
          | some x => exact Keeps.step k2 fun a b => modCore_keeps _ _ _ a b (core_legal _ c b)
          | none => exact Keeps.step k2 fun a b => coreMiss_keeps _ _ _ _ _ _ _ _ a b
grind_pattern coreLeaf_keeps => s.coreLeaf c atb asid va n lvl

/-- See State.translate. -/
theorem translate_keeps (s : State) (c : CoreId) (va : Nat) (n : Need) (lvl : Nat) (h : s.mem.wf = true) (hc : coresLegal s.cores) :
    (State.translate s c va n lvl).2.mem.wf = true ∧ coresLegal (State.translate s c va n lvl).2.cores ∧ (State.translate s c va n lvl).2.pending = s.pending := by
  grind [State.translate]
grind_pattern translate_keeps => State.translate s c va n lvl

/-- See State.streamAsid. -/
theorem streamAsid_keeps (s : State) (asid : Byte) (h : s.mem.wf = true) (hc : coresLegal s.cores) :
    (State.streamAsid s asid).2.mem.wf = true ∧ coresLegal (State.streamAsid s asid).2.cores ∧ (State.streamAsid s asid).2.pending = s.pending := by
  grind [State.streamAsid]
grind_pattern streamAsid_keeps => State.streamAsid s asid

/-- See State.streamMiss. -/
theorem streamMiss_keeps (s : State) (asid : Byte) (va : Nat) (n : Need) (lvl : Nat) (stale : Option Leaf) (h : s.mem.wf = true) (hc : coresLegal s.cores) :
    (State.streamMiss s asid va n lvl stale).2.mem.wf = true ∧ coresLegal (State.streamMiss s asid va n lvl stale).2.cores ∧ (State.streamMiss s asid va n lvl stale).2.pending = s.pending := by
  unfold State.streamMiss; grind
grind_pattern streamMiss_keeps => State.streamMiss s asid va n lvl stale

/-- See State.streamXlat. -/
theorem streamXlat_keeps (s : State) (asid : Byte) (va : Nat) (n : Need) (lvl : Nat) (h : s.mem.wf = true) (hc : coresLegal s.cores) :
    (State.streamXlat s asid va n lvl).2.mem.wf = true ∧ coresLegal (State.streamXlat s asid va n lvl).2.cores ∧ (State.streamXlat s asid va n lvl).2.pending = s.pending := by
  grind [State.streamXlat]
grind_pattern streamXlat_keeps => State.streamXlat s asid va n lvl

/-- See State.tlbiCore. -/
theorem tlbiCore_keeps (s : State) (c : CoreId) (scope va : Nat) (asid : Byte) (h : s.mem.wf = true) (hc : coresLegal s.cores) :
    (s.tlbiCore c scope va asid).mem.wf = true ∧ coresLegal (s.tlbiCore c scope va asid).cores ∧ (s.tlbiCore c scope va asid).pending = s.pending := by
  unfold State.tlbiCore
  generalize lkValid c = x
  obtain ⟨kind, i⟩ := x
  refine Keeps.step (foldl_keeps _ _ s h hc fun t e x y => ?_) fun a b => modCore_keeps _ _ _ a b (core_legal _ c b)
  exact Keeps.step (setBit_keeps t _ _ _ _ x y) fun a b => setBit_keeps _ _ _ _ _ a b
grind_pattern tlbiCore_keeps => s.tlbiCore c scope va asid

/-- See State.tlbiMark. -/
theorem tlbiMark_keeps (s : State) (c : CoreId) (hits : Leaf → Bool) (h : s.mem.wf = true) (hc : coresLegal s.cores) :
    (State.tlbiMark s c hits).mem.wf = true ∧ coresLegal (State.tlbiMark s c hits).cores ∧ (State.tlbiMark s c hits).pending = s.pending := by
  unfold State.tlbiMark
  exact modCore_keeps s c _ h hc (core_legal s c hc)
grind_pattern tlbiMark_keeps => State.tlbiMark s c hits

/-- See State.wakeTlb. -/
theorem wakeTlb_keeps (s : State) (c : CoreId) (h : s.mem.wf = true) (hc : coresLegal s.cores) :
    (s.wakeTlb c).mem.wf = true ∧ coresLegal (s.wakeTlb c).cores ∧ (s.wakeTlb c).pending = s.pending := by
  unfold State.wakeTlb
  exact Keeps.ite (modCore_keeps s c _ h hc (core_legal s c hc)) (Keeps.refl h hc)
grind_pattern wakeTlb_keeps => s.wakeTlb c

/-- See State.wakeAll. -/
theorem wakeAll_keeps (s : State) (h : s.mem.wf = true) (hc : coresLegal s.cores) :
    (State.wakeAll s).mem.wf = true ∧ coresLegal (State.wakeAll s).cores ∧ (State.wakeAll s).pending = s.pending := by
  grind [State.wakeAll]
grind_pattern wakeAll_keeps => State.wakeAll s

/-- See State.tlbiStream. -/
theorem tlbiStream_keeps (s : State) (scope va : Nat) (asid : Byte) (h : s.mem.wf = true) (hc : coresLegal s.cores) :
    (State.tlbiStream s scope va asid).mem.wf = true ∧ coresLegal (State.tlbiStream s scope va asid).cores ∧ (State.tlbiStream s scope va asid).pending = s.pending := by
  unfold State.tlbiStream; grind
grind_pattern tlbiStream_keeps => State.tlbiStream s scope va asid

end Sys2Proof.Machine
end

