-- ==== Sys2Proof/Laws/Frame/Queue.lean ====
section
/-! SUPPORT. What the operations of Machine/Queue.lean leave: memory in canonical form and the queue of waiting commands. -/

namespace Sys2Proof.Machine

open Sys2Proof

/-- See State.setQueue. -/
theorem setQueue_keeps (s : State) (q : Nat) (v : Queue) (h : s.mem.wf = true) (hc : coresLegal s.cores) :
    (State.setQueue s q v).mem.wf = true ∧ coresLegal (State.setQueue s q v).cores ∧ (State.setQueue s q v).pending = s.pending := by
  grind [State.setQueue]
grind_pattern setQueue_keeps => State.setQueue s q v

/-- See State.modBrick. -/
theorem modBrick_keeps (s : State) (q seq : Nat) (f : Brick → Brick) (h : s.mem.wf = true) (hc : coresLegal s.cores) :
    (State.modBrick s q seq f).mem.wf = true ∧ coresLegal (State.modBrick s q seq f).cores ∧ (State.modBrick s q seq f).pending = s.pending := by
  grind [State.modBrick]
grind_pattern modBrick_keeps => State.modBrick s q seq f

/-- See State.shed. -/
theorem shed_keeps (s : State) (k : RegKind) (q : Nat) (h : s.mem.wf = true) (hc : coresLegal s.cores) :
    (State.shed s k q).mem.wf = true ∧ coresLegal (State.shed s k q).cores ∧ (State.shed s k q).pending = s.pending := by
  grind [State.shed]
grind_pattern shed_keeps => State.shed s k q

/-- See State.accept. -/
theorem accept_keeps (s : State) (q : Nat) (desc : List Word) (joint : Bool) (lvl : Nat) (h : s.mem.wf = true) (hc : coresLegal s.cores) :
    (State.accept s q desc joint lvl).mem.wf = true ∧ coresLegal (State.accept s q desc joint lvl).cores ∧ (State.accept s q desc joint lvl).pending = s.pending := by
  grind [State.accept]
grind_pattern accept_keeps => State.accept s q desc joint lvl

/-- See State.jointSubmit. -/
theorem jointSubmit_keeps (s : State) (q line : Nat) (h : s.mem.wf = true) (hc : coresLegal s.cores) :
    (State.jointSubmit s q line).mem.wf = true ∧ coresLegal (State.jointSubmit s q line).cores ∧ (State.jointSubmit s q line).pending = s.pending := by
  grind [State.jointSubmit]
grind_pattern jointSubmit_keeps => State.jointSubmit s q line

end Sys2Proof.Machine
end

