-- ==== Sys2Proof/Laws/Frame/BrickRun.lean ====
section
/-! SUPPORT. What the operations of Machine/BrickRun.lean leave: memory in canonical form and the queue of waiting commands. -/

namespace Sys2Proof.Machine

open Sys2Proof

/-- See State.pageAt. -/
theorem pageAt_keeps (s : State) (b : Brick) (stream ba : Nat) (n : Need) (h : s.mem.wf = true) (hc : coresLegal s.cores) :
    (State.pageAt s b stream ba n).2.mem.wf = true ∧ coresLegal (State.pageAt s b stream ba n).2.cores ∧ (State.pageAt s b stream ba n).2.pending = s.pending := by
  grind [State.pageAt]
grind_pattern pageAt_keeps => State.pageAt s b stream ba n

/-- See State.setoutByte. -/
theorem setoutByte_keeps (s : State) (b : Brick) (stream ba k : Nat) (n : Need) (h : s.mem.wf = true) (hc : coresLegal s.cores) :
    (State.setoutByte s b stream ba k n).2.mem.wf = true ∧ coresLegal (State.setoutByte s b stream ba k n).2.cores ∧ (State.setoutByte s b stream ba k n).2.pending = s.pending := by
  grind [State.setoutByte]
grind_pattern setoutByte_keeps => State.setoutByte s b stream ba k n

/-- See State.setoutStream. -/
theorem setoutStream_keeps (s : State) (b : Brick) (t : Template) (i : Nat) (need : Need) (x1 : Nat) (x2 : Nat) (h : s.mem.wf = true) (hc : coresLegal s.cores) :
    (State.setoutStream s b t i need x1 x2).2.mem.wf = true ∧ coresLegal (State.setoutStream s b t i need x1 x2).2.cores ∧ (State.setoutStream s b t i need x1 x2).2.pending = s.pending := by
  induction x1 generalizing s b t i need x2 with
  | zero => grind [State.setoutStream]
  | succ n ih => grind [State.setoutStream]
grind_pattern setoutStream_keeps => State.setoutStream s b t i need x1 x2

/-- See State.setoutStreams. -/
theorem setoutStreams_keeps (s : State) (t : Template) (nd : Nat) (x1 : List Nat) (x2 : Brick) (h : s.mem.wf = true) (hc : coresLegal s.cores) :
    (State.setoutStreams s t nd x1 x2).2.mem.wf = true ∧ coresLegal (State.setoutStreams s t nd x1 x2).2.cores ∧ (State.setoutStreams s t nd x1 x2).2.pending = s.pending := by
  induction x1 generalizing s t nd x2 with
  | nil => grind [State.setoutStreams]
  | cons e l ih => grind [State.setoutStreams]
grind_pattern setoutStreams_keeps => State.setoutStreams s t nd x1 x2

/-- See State.setoutRest. -/
theorem setoutRest_keeps (s : State) (t : Template) (b : Brick) (h : s.mem.wf = true) (hc : coresLegal s.cores) :
    (State.setoutRest s t b).2.mem.wf = true ∧ coresLegal (State.setoutRest s t b).2.cores ∧ (State.setoutRest s t b).2.pending = s.pending := by
  grind [State.setoutRest]
grind_pattern setoutRest_keeps => State.setoutRest s t b

/-- See State.setout. -/
theorem setout_keeps (s : State) (t : Template) (b : Brick) (h : s.mem.wf = true) (hc : coresLegal s.cores) :
    (State.setout s t b).2.mem.wf = true ∧ coresLegal (State.setout s t b).2.cores ∧ (State.setout s t b).2.pending = s.pending := by
  grind [State.setout]
grind_pattern setout_keeps => State.setout s t b

/-- See State.pickPage. -/
theorem pickPage_keeps (s : State) (l : List SetoutPage) (i ba : Nat) (h : s.mem.wf = true) (hc : coresLegal s.cores) :
    (State.pickPage s l i ba).2.mem.wf = true ∧ coresLegal (State.pickPage s l i ba).2.cores ∧ (State.pickPage s l i ba).2.pending = s.pending := by
  grind [State.pickPage]
grind_pattern pickPage_keeps => State.pickPage s l i ba

/-- See State.linPa. -/
theorem linPa_keeps (s : State) (b : Brick) (i ba : Nat) (h : s.mem.wf = true) (hc : coresLegal s.cores) :
    (State.linPa s b i ba).2.mem.wf = true ∧ coresLegal (State.linPa s b i ba).2.cores ∧ (State.linPa s b i ba).2.pending = s.pending := by
  grind [State.linPa]
grind_pattern linPa_keeps => State.linPa s b i ba

/-- See State.devBeat. -/
theorem devBeat_keeps (s : State) (b : Brick) (i ba pa : Nat) (h : s.mem.wf = true) (hc : coresLegal s.cores) :
    (State.devBeat s b i ba pa).2.mem.wf = true ∧ coresLegal (State.devBeat s b i ba pa).2.cores ∧ (State.devBeat s b i ba pa).2.pending = s.pending := by
  grind [State.devBeat]
grind_pattern devBeat_keeps => State.devBeat s b i ba pa

/-- See State.gatherPa. -/
theorem gatherPa_keeps (s : State) (b : Brick) (i ba : Nat) (h : s.mem.wf = true) (hc : coresLegal s.cores) :
    (State.gatherPa s b i ba).2.mem.wf = true ∧ coresLegal (State.gatherPa s b i ba).2.cores ∧ (State.gatherPa s b i ba).2.pending = s.pending := by
  grind [State.gatherPa]
grind_pattern gatherPa_keeps => State.gatherPa s b i ba

/-- See State.elemPa. -/
theorem elemPa_keeps (s : State) (b : Brick) (i ba : Nat) (h : s.mem.wf = true) (hc : coresLegal s.cores) :
    (State.elemPa s b i ba).2.mem.wf = true ∧ coresLegal (State.elemPa s b i ba).2.cores ∧ (State.elemPa s b i ba).2.pending = s.pending := by
  grind [State.elemPa]
grind_pattern elemPa_keeps => State.elemPa s b i ba

/-- See State.eitherBeats. -/
theorem eitherBeats_keeps (s : State) (x1 : List (Nat × Nat)) (x2 : List Byte) (x3 : List Byte) (h : s.mem.wf = true) (hc : coresLegal s.cores) :
    (State.eitherBeats s x1 x2 x3).2.mem.wf = true ∧ coresLegal (State.eitherBeats s x1 x2 x3).2.cores ∧ (State.eitherBeats s x1 x2 x3).2.pending = s.pending := by
  induction x1 generalizing s x2 x3 with
  | nil => grind [State.eitherBeats]
  | cons e l ih => grind [State.eitherBeats]
grind_pattern eitherBeats_keeps => State.eitherBeats s x1 x2 x3

/-- See State.oldOrNew. -/
theorem oldOrNew_keeps (s : State) (b : Brick) (i pa n : Nat) (l : List Byte) (h : s.mem.wf = true) (hc : coresLegal s.cores) :
    (State.oldOrNew s b i pa n l).2.mem.wf = true ∧ coresLegal (State.oldOrNew s b i pa n l).2.cores ∧ (State.oldOrNew s b i pa n l).2.pending = s.pending := by
  grind [State.oldOrNew]
grind_pattern oldOrNew_keeps => State.oldOrNew s b i pa n l

/-- See State.readParts. -/
theorem readParts_keeps (s : State) (b : Brick) (i : Nat) (x1 : List (Nat × Nat)) (h : s.mem.wf = true) (hc : coresLegal s.cores) :
    (State.readParts s b i x1).2.mem.wf = true ∧ coresLegal (State.readParts s b i x1).2.cores ∧ (State.readParts s b i x1).2.pending = s.pending := by
  induction x1 generalizing s b i with
  | nil => grind [State.readParts]
  | cons e l ih => grind [State.readParts]
grind_pattern readParts_keeps => State.readParts s b i x1

/-- See State.destBeats. -/
theorem destBeats_keeps (s : State) (b : Brick) (i : Nat) (x1 : List (Nat × Nat)) (x2 : List Byte) (h : s.mem.wf = true) (hc : coresLegal s.cores) :
    (State.destBeats s b i x1 x2).2.mem.wf = true ∧ coresLegal (State.destBeats s b i x1 x2).2.cores ∧ (State.destBeats s b i x1 x2).2.pending = s.pending := by
  induction x1 generalizing s b i x2 with
  | nil => grind [State.destBeats]
  | cons e l ih => grind [State.destBeats]
grind_pattern destBeats_keeps => State.destBeats s b i x1 x2

/-- See State.noteWrite. -/
theorem noteWrite_keeps (s : State) (b : Brick) (x : DestBeat) (h : s.mem.wf = true) (hc : coresLegal s.cores) :
    (State.noteWrite s b x).mem.wf = true ∧ coresLegal (State.noteWrite s b x).cores ∧ (State.noteWrite s b x).pending = s.pending := by
  grind [State.noteWrite]
grind_pattern noteWrite_keeps => State.noteWrite s b x

/-- See State.writeDest. -/
theorem writeDest_keeps (s : State) (b : Brick) (x : DestBeat) (h : s.mem.wf = true) (hc : coresLegal s.cores) :
    (State.writeDest s b x).2.mem.wf = true ∧ coresLegal (State.writeDest s b x).2.cores ∧ (State.writeDest s b x).2.pending = s.pending := by
  unfold State.writeDest; grind
grind_pattern writeDest_keeps => State.writeDest s b x

/-- See eachBeat. -/
theorem eachBeat_keeps (f : State → DestBeat → Answer Unit × State) (s : State) (l m : List DestBeat) (h : s.mem.wf = true)
    (hc : coresLegal s.cores) (hf : ∀ (t : State) (x : DestBeat), t.mem.wf = true → coresLegal t.cores → Keeps t (f t x).2) :
    Keeps s (eachBeat f s l m).2 := by
  induction m generalizing s l with
  | nil => exact ⟨h, hc, rfl⟩
  | cons x m ih =>
    have k := hf s x h hc
    unfold eachBeat
    generalize f s x = r at k ⊢
    obtain ⟨r, s1⟩ := r
    cases r with
    | error c => exact k
    | ok u => exact Keeps.step k fun p q => ih s1 _ p q

/-- See State.writeParts. -/
theorem writeParts_keeps (s : State) (b : Brick) (i : Nat) (ps : List (Nat × Nat)) (l : List Byte) (h : s.mem.wf = true) (hc : coresLegal s.cores) :
    (State.writeParts s b i ps l).2.mem.wf = true ∧ coresLegal (State.writeParts s b i ps l).2.cores ∧ (State.writeParts s b i ps l).2.pending = s.pending := by
  have k := destBeats_keeps s b i ps l h hc
  have kw : ∀ (t : State) (x : DestBeat), t.mem.wf = true → coresLegal t.cores → Keeps t (t.writeDest b x).2 :=
    fun t x p q => writeDest_keeps t b x p q
  unfold State.writeParts
  generalize s.destBeats b i ps l = r at k ⊢
  obtain ⟨r, s1⟩ := r
  cases r with
  | error e => exact k
  | ok beats =>
    dsimp only at k ⊢
    refine Keeps.step k fun p q => ?_
    have k2 := eachBeat_keeps (fun s x => s.writeDest b x) s1 [] beats p q kw
    generalize eachBeat (fun s x => s.writeDest b x) s1 [] beats = r at k2 ⊢
    obtain ⟨r, s2⟩ := r
    cases r with
    | none => exact k2
    | some e =>
      obtain ⟨x, c, others⟩ := e
      dsimp only
      refine Keeps.step (kw s1 x p q) fun p q => foldl_keeps _ others _ p q fun u y a e => ?_
      have k3 : Keeps u (u.drawBit).2 := drawBit_keeps u a e
      generalize u.drawBit = r at k3 ⊢
      obtain ⟨w, s2⟩ := r
      exact Keeps.ite (Keeps.step k3 fun a e => kw s2 y a e) k3
grind_pattern writeParts_keeps => State.writeParts s b i ps l

/-- See State.readLin. -/
theorem readLin_keeps (s : State) (t : Template) (b : Brick) (i k : Nat) (h : s.mem.wf = true) (hc : coresLegal s.cores) :
    (State.readLin s t b i k).2.mem.wf = true ∧ coresLegal (State.readLin s t b i k).2.cores ∧ (State.readLin s t b i k).2.pending = s.pending := by
  grind [State.readLin]
grind_pattern readLin_keeps => State.readLin s t b i k

/-- See State.elemAddr. -/
theorem elemAddr_keeps (s : State) (t : Template) (b : Brick) (i k : Nat) (h : s.mem.wf = true) (hc : coresLegal s.cores) :
    (State.elemAddr s t b i k).2.mem.wf = true ∧ coresLegal (State.elemAddr s t b i k).2.cores ∧ (State.elemAddr s t b i k).2.pending = s.pending := by
  grind [State.elemAddr]
grind_pattern elemAddr_keeps => State.elemAddr s t b i k

/-- See State.readElem. -/
theorem readElem_keeps (s : State) (t : Template) (b : Brick) (i k : Nat) (h : s.mem.wf = true) (hc : coresLegal s.cores) :
    (State.readElem s t b i k).2.mem.wf = true ∧ coresLegal (State.readElem s t b i k).2.cores ∧ (State.readElem s t b i k).2.pending = s.pending := by
  grind [State.readElem]
grind_pattern readElem_keeps => State.readElem s t b i k

/-- See State.writeElem. -/
theorem writeElem_keeps (s : State) (t : Template) (b : Brick) (j v : Nat) (h : s.mem.wf = true) (hc : coresLegal s.cores) :
    (State.writeElem s t b j v).2.mem.wf = true ∧ coresLegal (State.writeElem s t b j v).2.cores ∧ (State.writeElem s t b j v).2.pending = s.pending := by
  grind [State.writeElem]
grind_pattern writeElem_keeps => State.writeElem s t b j v

/-- See State.readSources. -/
theorem readSources_keeps (s : State) (t : Template) (b : Brick) (k : Nat) (x1 : List Nat) (h : s.mem.wf = true) (hc : coresLegal s.cores) :
    (State.readSources s t b k x1).2.mem.wf = true ∧ coresLegal (State.readSources s t b k x1).2.cores ∧ (State.readSources s t b k x1).2.pending = s.pending := by
  induction x1 generalizing s t b k with
  | nil => grind [State.readSources]
  | cons e l ih => grind [State.readSources]
grind_pattern readSources_keeps => State.readSources s t b k x1

/-- See State.loadPallet. -/
theorem loadPallet_keeps (s : State) (t : Template) (b : Brick) (x1 : Nat) (x2 : Nat) (h : s.mem.wf = true) (hc : coresLegal s.cores) :
    (State.loadPallet s t b x1 x2).2.mem.wf = true ∧ coresLegal (State.loadPallet s t b x1 x2).2.cores ∧ (State.loadPallet s t b x1 x2).2.pending = s.pending := by
  induction x1 generalizing s t b x2 with
  | zero => grind [State.loadPallet]
  | succ n ih => grind [State.loadPallet]
grind_pattern loadPallet_keeps => State.loadPallet s t b x1 x2

/-- See State.writeOuts. -/
theorem writeOuts_keeps (s : State) (t : Template) (b : Brick) (x1 : List (Nat × Nat)) (h : s.mem.wf = true) (hc : coresLegal s.cores) :
    (State.writeOuts s t b x1).2.mem.wf = true ∧ coresLegal (State.writeOuts s t b x1).2.cores ∧ (State.writeOuts s t b x1).2.pending = s.pending := by
  induction x1 generalizing s t b with
  | nil => grind [State.writeOuts]
  | cons e l ih => grind [State.writeOuts]
grind_pattern writeOuts_keeps => State.writeOuts s t b x1

/-- See State.runElem. -/
theorem runElem_keeps (s : State) (t : Template) (b : Brick) (pal : List Nat) (wr : Bool) (h : s.mem.wf = true) (hc : coresLegal s.cores) :
    (State.runElem s t b pal wr).2.2.mem.wf = true ∧ coresLegal (State.runElem s t b pal wr).2.2.cores ∧ (State.runElem s t b pal wr).2.2.pending = s.pending := by
  grind [State.runElem]
grind_pattern runElem_keeps => State.runElem s t b pal wr

/-- See State.runElems. -/
theorem runElems_keeps (s : State) (t : Template) (pal : List Nat) (wr : Bool) (x1 : Nat) (x2 : Brick) (h : s.mem.wf = true) (hc : coresLegal s.cores) :
    (State.runElems s t pal wr x1 x2).2.2.mem.wf = true ∧ coresLegal (State.runElems s t pal wr x1 x2).2.2.cores ∧ (State.runElems s t pal wr x1 x2).2.2.pending = s.pending := by
  induction x1 generalizing s t pal wr x2 with
  | zero => grind [State.runElems]
  | succ n ih => grind [State.runElems]
grind_pattern runElems_keeps => State.runElems s t pal wr x1 x2

/-- See State.runHeld. -/
theorem runHeld_keeps (s : State) (t : Template) (pal : List Nat) (b : Brick) (n m : Nat) (h : s.mem.wf = true) (hc : coresLegal s.cores) :
    (State.runHeld s t pal b n m).2.mem.wf = true ∧ coresLegal (State.runHeld s t pal b n m).2.cores ∧ (State.runHeld s t pal b n m).2.pending = s.pending := by
  grind [State.runHeld]
grind_pattern runHeld_keeps => State.runHeld s t pal b n m

/-- See State.runEnd. -/
theorem runEnd_keeps (s1 : State) (t : Template) (pal : List Nat) (b : Brick) (r : RunStop) (b1 : Brick) (s2 : State) (h : s1.mem.wf = true)
    (hc : coresLegal s1.cores) (h2 : s2.mem.wf = true) (hc2 : coresLegal s2.cores) (hp : s2.pending = s1.pending) :
    (s1.runEnd t pal b (r, b1, s2)).2.mem.wf = true ∧ coresLegal (s1.runEnd t pal b (r, b1, s2)).2.cores ∧
      (s1.runEnd t pal b (r, b1, s2)).2.pending = s1.pending := by
  have k : Keeps s1 s2 := ⟨h2, hc2, hp⟩
  cases r with
  | none => exact k
  | flag f => exact k
  | mem c i ba => exact k
  | gather kind i ba =>
    unfold State.runEnd
    dsimp only
    split
    · exact k
    · split
      · exact k
      · exact runHeld_keeps s1 t pal b _ _ h hc
grind_pattern runEnd_keeps => s1.runEnd t pal b (r, b1, s2)

/-- See State.runWith. -/
theorem runWith_keeps (s1 : State) (t : Template) (b : Brick) (upTo : Nat) (all : Bool) (vals : List Nat) (stop : Option (Nat × Nat × Nat × Nat))
    (h : s1.mem.wf = true) (hc : coresLegal s1.cores) : Keeps s1 (s1.runWith t b upTo all vals stop).2 := by
  unfold State.runWith
  generalize (stop.map fun e => e.1).getD upTo - b.k = n
  have k := runElems_keeps s1 t vals true n b h hc
  generalize s1.runElems t vals true n b = x at k ⊢
  obtain ⟨r, b1, s2⟩ := x
  obtain ⟨u1, u2, u3⟩ := k
  cases r with
  | none =>
    cases stop with
    | some e => exact ⟨u1, u2, u3⟩
    | none =>
      dsimp only
      split
      · exact ⟨u1, u2, u3⟩
      · exact runHeld_keeps s1 t vals b _ _ h hc
  | flag f => exact runEnd_keeps s1 t vals b _ _ _ h hc u1 u2 u3
  | mem c i ba => exact runEnd_keeps s1 t vals b _ _ _ h hc u1 u2 u3
  | gather kind i ba => exact runEnd_keeps s1 t vals b _ _ _ h hc u1 u2 u3

/-- See State.runTo. -/
theorem runTo_keeps (s : State) (t : Template) (b : Brick) (upTo : Nat) (all : Bool) (h : s.mem.wf = true) (hc : coresLegal s.cores) :
    (State.runTo s t b upTo all).2.mem.wf = true ∧ coresLegal (State.runTo s t b upTo all).2.cores ∧ (State.runTo s t b upTo all).2.pending = s.pending := by
  unfold State.runTo
  split
  · exact ⟨h, hc, rfl⟩
  · have k : Keeps s (if t.psrc = 0 then (([] : List (Except ElemErr Nat)), s) else s.loadPallet t b t.plen 0).2 := by
      split
      · exact ⟨h, hc, rfl⟩
      · exact loadPallet_keeps s t b _ _ h hc
    generalize (if t.psrc = 0 then (([] : List (Except ElemErr Nat)), s) else s.loadPallet t b t.plen 0) = r at k ⊢
    obtain ⟨pal, s1⟩ := r
    exact Keeps.step k fun p q => runWith_keeps s1 t b upTo all _ _ p q
grind_pattern runTo_keeps => State.runTo s t b upTo all

/-- See State.probeByte. -/
theorem probeByte_keeps (s : State) (b : Brick) (i k ba : Nat) (h : s.mem.wf = true) (hc : coresLegal s.cores) :
    (State.probeByte s b i k ba).2.mem.wf = true ∧ coresLegal (State.probeByte s b i k ba).2.cores ∧ (State.probeByte s b i k ba).2.pending = s.pending := by
  grind [State.probeByte]
grind_pattern probeByte_keeps => State.probeByte s b i k ba

/-- See State.probeElem. -/
theorem probeElem_keeps (s : State) (t : Template) (k : Nat) (x1 : List Nat) (x2 : Brick) (h : s.mem.wf = true) (hc : coresLegal s.cores) :
    (State.probeElem s t k x1 x2).2.mem.wf = true ∧ coresLegal (State.probeElem s t k x1 x2).2.cores ∧ (State.probeElem s t k x1 x2).2.pending = s.pending := by
  induction x1 generalizing s t k x2 with
  | nil => grind [State.probeElem]
  | cons e l ih => grind [State.probeElem]
grind_pattern probeElem_keeps => State.probeElem s t k x1 x2

/-- See State.probeFrom. -/
theorem probeFrom_keeps (s : State) (t : Template) (x1 : Nat) (x2 : Nat) (x3 : Brick) (h : s.mem.wf = true) (hc : coresLegal s.cores) :
    (State.probeFrom s t x1 x2 x3).2.mem.wf = true ∧ coresLegal (State.probeFrom s t x1 x2 x3).2.cores ∧ (State.probeFrom s t x1 x2 x3).2.pending = s.pending := by
  induction x1 generalizing s t x2 x3 with
  | zero => grind [State.probeFrom]
  | succ n ih => grind [State.probeFrom]
grind_pattern probeFrom_keeps => State.probeFrom s t x1 x2 x3

/-- See State.probeTo. -/
theorem probeTo_keeps (s : State) (t : Template) (b : Brick) (n : Nat) (h : s.mem.wf = true) (hc : coresLegal s.cores) :
    (State.probeTo s t b n).2.mem.wf = true ∧ coresLegal (State.probeTo s t b n).2.cores ∧ (State.probeTo s t b n).2.pending = s.pending := by
  have k := probeFrom_keeps s t (min n b.len - max b.k b.probed) (max b.k b.probed) b h hc
  unfold State.probeTo
  dsimp only
  generalize s.probeFrom t (min n b.len - max b.k b.probed) (max b.k b.probed) b = r at k ⊢
  obtain ⟨r, s1⟩ := r
  cases r with
  | ok b1 => exact k
  | stop b1 =>
    dsimp only at k ⊢
    split
    · split <;> exact k
    · exact k
grind_pattern probeTo_keeps => State.probeTo s t b n

/-- See State.probe. -/
theorem probe_keeps (s : State) (t : Template) (b : Brick) (h : s.mem.wf = true) (hc : coresLegal s.cores) :
    (State.probe s t b).2.mem.wf = true ∧ coresLegal (State.probe s t b).2.cores ∧ (State.probe s t b).2.pending = s.pending := by
  exact probeTo_keeps s t b b.len h hc
grind_pattern probe_keeps => State.probe s t b

/-- See State.statusPieces. -/
theorem statusPieces_keeps (s : State) (m : Master) (pa : Nat) (x1 : List (Nat × List Byte)) (h : s.mem.wf = true) (hc : coresLegal s.cores) :
    (State.statusPieces s m pa x1).2.mem.wf = true ∧ coresLegal (State.statusPieces s m pa x1).2.cores ∧ (State.statusPieces s m pa x1).2.pending = s.pending := by
  induction x1 generalizing s m pa with
  | nil => grind [State.statusPieces]
  | cons e l ih => grind [State.statusPieces]
grind_pattern statusPieces_keeps => State.statusPieces s m pa x1

/-- See State.statusWrite. -/
theorem statusWrite_keeps (s : State) (b : Brick) (ws : List (Nat × List Byte)) (h : s.mem.wf = true) (hc : coresLegal s.cores) :
    (State.statusWrite s b ws).2.mem.wf = true ∧ coresLegal (State.statusWrite s b ws).2.cores ∧ (State.statusWrite s b ws).2.pending = s.pending := by
  grind [State.statusWrite]
grind_pattern statusWrite_keeps => State.statusWrite s b ws

end Sys2Proof.Machine
end

