-- ==== Sys2Proof/Laws/Frame/Kiln.lean ====
section
/-! SUPPORT. What the operations of Machine/Kiln.lean leave: memory in canonical form and the queue of waiting commands. -/

namespace Sys2Proof.Machine

open Sys2Proof

/-- See State.setZone. -/
theorem setZone_keeps (s : State) (z : Nat) (v : Zone) (h : s.mem.wf = true) (hc : coresLegal s.cores) :
    (State.setZone s z v).mem.wf = true ∧ coresLegal (State.setZone s z v).cores ∧ (State.setZone s z v).pending = s.pending := by
  grind [State.setZone]
grind_pattern setZone_keeps => State.setZone s z v

/-- See State.kilnInt. -/
theorem kilnInt_keeps (s : State) (b : Nat) (h : s.mem.wf = true) (hc : coresLegal s.cores) :
    (State.kilnInt s b).mem.wf = true ∧ coresLegal (State.kilnInt s b).cores ∧ (State.kilnInt s b).pending = s.pending := by
  grind [State.kilnInt]
grind_pattern kilnInt_keeps => State.kilnInt s b

/-- See State.askSuspend. -/
theorem askSuspend_keeps (s : State) (f : Brick → Bool) (h : s.mem.wf = true) (hc : coresLegal s.cores) :
    (State.askSuspend s f).mem.wf = true ∧ coresLegal (State.askSuspend s f).cores ∧ (State.askSuspend s f).pending = s.pending := by
  grind [State.askSuspend]
grind_pattern askSuspend_keeps => State.askSuspend s f

/-- See State.enterRegion. -/
theorem enterRegion_keeps (s : State) (z old new : Nat) (h : s.mem.wf = true) (hc : coresLegal s.cores) :
    (State.enterRegion s z old new).mem.wf = true ∧ coresLegal (State.enterRegion s z old new).cores ∧ (State.enterRegion s z old new).pending = s.pending := by
  unfold State.enterRegion
  dsimp only
  have k : ∀ l : List Nat, Keeps s (l.foldl (fun s i => if old < i + 1 ∧ i + 1 ≤ new then s.kilnInt i else s) s) := fun l =>
    foldl_keeps _ _ s h hc fun t b a e => by split <;> grind
  have k2 := k (upto 3)
  generalize (upto 3).foldl (fun s i => if old < i + 1 ∧ i + 1 ≤ new then s.kilnInt i else s) s = s1 at k2
  obtain ⟨a, b, e⟩ := k2
  grind
grind_pattern enterRegion_keeps => State.enterRegion s z old new

/-- See State.refillZone. -/
theorem refillZone_keeps (s : State) (temps : List (Option Word)) (drawn : List Nat) (z : Nat) (h : s.mem.wf = true) (hc : coresLegal s.cores) :
    (State.refillZone s temps drawn z).mem.wf = true ∧ coresLegal (State.refillZone s temps drawn z).cores ∧ (State.refillZone s temps drawn z).pending = s.pending := by
  grind [State.refillZone]
grind_pattern refillZone_keeps => State.refillZone s temps drawn z

/-- See State.showSensor. -/
theorem showSensor_keeps (s : State) (temps : List (Option Word)) (z k : Nat) (h : s.mem.wf = true) (hc : coresLegal s.cores) :
    (State.showSensor s temps z k).mem.wf = true ∧ coresLegal (State.showSensor s temps z k).cores ∧ (State.showSensor s temps z k).pending = s.pending := by
  grind [State.showSensor]
grind_pattern showSensor_keeps => State.showSensor s temps z k

/-- See State.showSensors. -/
theorem showSensors_keeps (s : State) (temps : List (Option Word)) (h : s.mem.wf = true) (hc : coresLegal s.cores) :
    (State.showSensors s temps).mem.wf = true ∧ coresLegal (State.showSensors s temps).cores ∧ (State.showSensors s temps).pending = s.pending := by
  grind [State.showSensors]
grind_pattern showSensors_keeps => State.showSensors s temps

/-- See State.showKilnStat. -/
theorem showKilnStat_keeps (s : State) (h : s.mem.wf = true) (hc : coresLegal s.cores) :
    (State.showKilnStat s).mem.wf = true ∧ coresLegal (State.showKilnStat s).cores ∧ (State.showKilnStat s).pending = s.pending := by
  grind [State.showKilnStat]
grind_pattern showKilnStat_keeps => State.showKilnStat s

/-- See State.stepCluster. -/
theorem stepCluster_keeps (s : State) (n : Nat) (h : s.mem.wf = true) (hc : coresLegal s.cores) :
    (State.stepCluster s n).mem.wf = true ∧ coresLegal (State.stepCluster s n).cores ∧ (State.stepCluster s n).pending = s.pending := by
  grind [State.stepCluster]
grind_pattern stepCluster_keeps => State.stepCluster s n

/-- See State.recomputeRemain. -/
theorem recomputeRemain_keeps (s : State) (h : s.mem.wf = true) (hc : coresLegal s.cores) :
    (State.recomputeRemain s).mem.wf = true ∧ coresLegal (State.recomputeRemain s).cores ∧ (State.recomputeRemain s).pending = s.pending := by
  grind [State.recomputeRemain]
grind_pattern recomputeRemain_keeps => State.recomputeRemain s

/-- See State.takeKiln. -/
theorem takeKiln_keeps (s : State) (h : s.mem.wf = true) (hc : coresLegal s.cores) :
    (State.takeKiln s).mem.wf = true ∧ coresLegal (State.takeKiln s).cores ∧ (State.takeKiln s).pending = s.pending := by
  grind [State.takeKiln]
grind_pattern takeKiln_keeps => State.takeKiln s

/-- See State.pay. -/
theorem pay_keeps (s : State) (z : Nat) (p : Int × Int) (h : s.mem.wf = true) (hc : coresLegal s.cores) :
    (State.pay s z p).mem.wf = true ∧ coresLegal (State.pay s z p).cores ∧ (State.pay s z p).pending = s.pending := by
  grind [State.pay]
grind_pattern pay_keeps => State.pay s z p

/-- See State.settleCharges. -/
theorem settleCharges_keeps (s : State) (b : Brick) (metered : List Nat) (h : s.mem.wf = true) (hc : coresLegal s.cores) :
    (State.settleCharges s b metered).mem.wf = true ∧ coresLegal (State.settleCharges s b metered).cores ∧ (State.settleCharges s b metered).pending = s.pending := by
  grind [State.settleCharges]
grind_pattern settleCharges_keeps => State.settleCharges s b metered

/-- See State.give. -/
theorem give_keeps (s : State) (q : Nat) (b : Brick) (l : List Nat) (h : s.mem.wf = true) (hc : coresLegal s.cores) :
    (s.give q b l).mem.wf = true ∧ coresLegal (s.give q b l).cores ∧ (s.give q b l).pending = s.pending := by
  unfold State.give
  have k : ∀ m : List (Nat × Int × Int), Keeps s (m.foldl (fun s c => s.pay c.1 (c.2.1, c.2.2)) s) := fun m =>
    foldl_keeps _ _ s h hc fun t c x y => pay_keeps t _ _ x y
  have k2 : ∀ (t : State) (f : Brick → Brick), Keeps s t → Keeps s (t.modBrick q b.seq f) := fun t f k =>
    Keeps.step k fun x y => modBrick_keeps _ _ _ _ x y
  exact k2 _ _ (k _)
grind_pattern give_keeps => s.give q b l

/-- See State.preempt. -/
theorem preempt_keeps (s : State) (q : Nat) (b : Brick) (v : Nat × Brick) (h : s.mem.wf = true) (hc : coresLegal s.cores) :
    (State.preempt s q b v).mem.wf = true ∧ coresLegal (State.preempt s q b v).cores ∧ (State.preempt s q b v).pending = s.pending := by
  grind [State.preempt]
grind_pattern preempt_keeps => State.preempt s q b v

/-- See State.overtake. -/
theorem overtake_keeps (s : State) (passed : List (Nat × Brick)) (h : s.mem.wf = true) (hc : coresLegal s.cores) :
    (State.overtake s passed).mem.wf = true ∧ coresLegal (State.overtake s passed).cores ∧ (State.overtake s passed).pending = s.pending := by
  grind [State.overtake]
grind_pattern overtake_keeps => State.overtake s passed

/-- See State.admitWalk. -/
theorem admitWalk_keeps (s : State) (x1 : List (Nat × Brick)) (x2 : List (Nat × Brick)) (h : s.mem.wf = true) (hc : coresLegal s.cores) :
    (State.admitWalk s x1 x2).mem.wf = true ∧ coresLegal (State.admitWalk s x1 x2).cores ∧ (State.admitWalk s x1 x2).pending = s.pending := by
  induction x1 generalizing s x2 with
  | nil => grind [State.admitWalk]
  | cons e l ih => grind [State.admitWalk]
grind_pattern admitWalk_keeps => State.admitWalk s x1 x2

/-- See State.pruneHolds. -/
theorem pruneHolds_keeps (s : State) (h : s.mem.wf = true) (hc : coresLegal s.cores) :
    (State.pruneHolds s).mem.wf = true ∧ coresLegal (State.pruneHolds s).cores ∧ (State.pruneHolds s).pending = s.pending := by
  grind [State.pruneHolds]
grind_pattern pruneHolds_keeps => State.pruneHolds s

/-- See State.learn. -/
theorem learn_keeps (s : State) (b : Brick) (h : s.mem.wf = true) (hc : coresLegal s.cores) :
    (State.learn s b).mem.wf = true ∧ coresLegal (State.learn s b).cores ∧ (State.learn s b).pending = s.pending := by
  grind [State.learn]
grind_pattern learn_keeps => State.learn s b

/-- See State.slowClusters. -/
theorem slowClusters_keeps (s : State) (h : s.mem.wf = true) (hc : coresLegal s.cores) :
    (State.slowClusters s).mem.wf = true ∧ coresLegal (State.slowClusters s).cores ∧ (State.slowClusters s).pending = s.pending := by
  grind [State.slowClusters]
grind_pattern slowClusters_keeps => State.slowClusters s

end Sys2Proof.Machine
end

