-- ==== Sys2Proof/Laws/Frame/Bricks.lean ====
section
/-! SUPPORT. What the operations of Machine/Bricks.lean leave: memory in canonical form and the queue of waiting commands. -/

namespace Sys2Proof.Machine

open Sys2Proof

/-- See State.flush. -/
theorem flush_keeps (s : State) (q : Nat) (h : s.mem.wf = true) (hc : coresLegal s.cores) :
    (State.flush s q).mem.wf = true ∧ coresLegal (State.flush s q).cores ∧ (State.flush s q).pending = s.pending := by
  grind [State.flush]
grind_pattern flush_keeps => State.flush s q

/-- See State.putBrick. -/
theorem putBrick_keeps (s : State) (q : Nat) (b : Brick) (h : s.mem.wf = true) (hc : coresLegal s.cores) :
    (State.putBrick s q b).mem.wf = true ∧ coresLegal (State.putBrick s q b).cores ∧ (State.putBrick s q b).pending = s.pending := by
  grind [State.putBrick]
grind_pattern putBrick_keeps => State.putBrick s q b

/-- See State.withBrick. -/
theorem withBrick_keeps (s : State) (q seq : Nat) (ok : Brick → Bool) (f : Brick → Template → Brick × State) (h : s.mem.wf = true)
    (hc : coresLegal s.cores)
    (hf : ∀ b t, (f b t).2.mem.wf = true ∧ coresLegal (f b t).2.cores ∧ (f b t).2.pending = s.pending) :
    (s.withBrick q seq ok f).mem.wf = true ∧ coresLegal (s.withBrick q seq ok f).cores ∧ (s.withBrick q seq ok f).pending = s.pending := by
  grind [State.withBrick]
grind_pattern withBrick_keeps => s.withBrick q seq ok f

/-- See State.suspended. -/
theorem suspended_keeps (s : State) (b : Brick) (metered : List Nat) (h : s.mem.wf = true) (hc : coresLegal s.cores) :
    (State.suspended s b metered).2.mem.wf = true ∧ coresLegal (State.suspended s b metered).2.cores ∧ (State.suspended s b metered).2.pending = s.pending := by
  grind [State.suspended]
grind_pattern suspended_keeps => State.suspended s b metered

/-- See State.logQueueError. -/
theorem logQueueError_keeps (s : State) (q : Nat) (b : Brick) (code : Byte) (h : s.mem.wf = true) (hc : coresLegal s.cores) :
    (State.logQueueError s q b code).mem.wf = true ∧ coresLegal (State.logQueueError s q b code).cores ∧ (State.logQueueError s q b code).pending = s.pending := by
  grind [State.logQueueError]
grind_pattern logQueueError_keeps => State.logQueueError s q b code

/-- See State.endStatus. -/
theorem endStatus_keeps (s : State) (b : Brick) (code : Byte) (h : s.mem.wf = true) (hc : coresLegal s.cores) :
    (State.endStatus s b code).2.mem.wf = true ∧ coresLegal (State.endStatus s b code).2.cores ∧ (State.endStatus s b code).2.pending = s.pending := by
  grind [State.endStatus]
grind_pattern endStatus_keeps => State.endStatus s b code

/-- See State.signal. -/
theorem signal_keeps (s : State) (b : Brick) (code : Byte) (h : s.mem.wf = true) (hc : coresLegal s.cores) :
    (State.signal s b code).mem.wf = true ∧ coresLegal (State.signal s b code).cores ∧ (State.signal s b code).pending = s.pending := by
  grind [State.signal]
grind_pattern signal_keeps => State.signal s b code

/-- See State.endBrick. -/
theorem endBrick_keeps (s : State) (q : Nat) (b : Brick) (code : Byte) (metered : List Nat) (h : s.mem.wf = true) (hc : coresLegal s.cores) :
    (State.endBrick s q b code metered).mem.wf = true ∧ coresLegal (State.endBrick s q b code metered).cores ∧ (State.endBrick s q b code metered).pending = s.pending := by
  grind [State.endBrick]
grind_pattern endBrick_keeps => State.endBrick s q b code metered

/-- See State.loseBricks. -/
theorem loseBricks_keeps (s : State) (h : s.mem.wf = true) (hc : coresLegal s.cores) :
    (State.loseBricks s).mem.wf = true ∧ coresLegal (State.loseBricks s).cores ∧ (State.loseBricks s).pending = s.pending := by
  grind [State.loseBricks]
grind_pattern loseBricks_keeps => State.loseBricks s

end Sys2Proof.Machine
end

