-- ==== Sys2Proof/Laws/Frame/Actuate.lean ====
section
/-! SUPPORT. What the operations of Machine/Actuate.lean leave: memory in canonical form and the queue of waiting commands. -/

namespace Sys2Proof.Machine

open Sys2Proof

/-- See State.setMod. -/
theorem setMod_keeps (s : State) (m : Nat) (v : Modulator) (h : s.mem.wf = true) (hc : coresLegal s.cores) :
    (State.setMod s m v).mem.wf = true ∧ coresLegal (State.setMod s m v).cores ∧ (State.setMod s m v).pending = s.pending := by
  grind [State.setMod]
grind_pattern setMod_keeps => State.setMod s m v

/-- See State.modLoad. -/
theorem modLoad_keeps (s : State) (m : Nat) (h : s.mem.wf = true) (hc : coresLegal s.cores) :
    (State.modLoad s m).mem.wf = true ∧ coresLegal (State.modLoad s m).cores ∧ (State.modLoad s m).pending = s.pending := by
  grind [State.modLoad]
grind_pattern modLoad_keeps => State.modLoad s m

/-- See State.modStart. -/
theorem modStart_keeps (s : State) (m : Nat) (h : s.mem.wf = true) (hc : coresLegal s.cores) :
    (State.modStart s m).mem.wf = true ∧ coresLegal (State.modStart s m).cores ∧ (State.modStart s m).pending = s.pending := by
  grind [State.modStart]
grind_pattern modStart_keeps => State.modStart s m

/-- See State.modEnable. -/
theorem modEnable_keeps (s : State) (m : Nat) (h : s.mem.wf = true) (hc : coresLegal s.cores) :
    (State.modEnable s m).mem.wf = true ∧ coresLegal (State.modEnable s m).cores ∧ (State.modEnable s m).pending = s.pending := by
  grind [State.modEnable]
grind_pattern modEnable_keeps => State.modEnable s m

/-- See State.modRequest. -/
theorem modRequest_keeps (s : State) (m : Nat) (h : s.mem.wf = true) (hc : coresLegal s.cores) :
    (State.modRequest s m).mem.wf = true ∧ coresLegal (State.modRequest s m).cores ∧ (State.modRequest s m).pending = s.pending := by
  grind [State.modRequest]
grind_pattern modRequest_keeps => State.modRequest s m

/-- See State.writeModCtrl. -/
theorem writeModCtrl_keeps (s : State) (m : Nat) (v : Word) (h : s.mem.wf = true) (hc : coresLegal s.cores) :
    (State.writeModCtrl s m v).mem.wf = true ∧ coresLegal (State.writeModCtrl s m v).cores ∧ (State.writeModCtrl s m v).pending = s.pending := by
  grind [State.writeModCtrl]
grind_pattern writeModCtrl_keeps => State.writeModCtrl s m v

/-- See State.modJoint. -/
theorem modJoint_keeps (s : State) (m : Nat) (h : s.mem.wf = true) (hc : coresLegal s.cores) :
    (State.modJoint s m).mem.wf = true ∧ coresLegal (State.modJoint s m).cores ∧ (State.modJoint s m).pending = s.pending := by
  grind [State.modJoint]
grind_pattern modJoint_keeps => State.modJoint s m

/-- See State.modSync. -/
theorem modSync_keeps (s : State) (mask : Nat) (h : s.mem.wf = true) (hc : coresLegal s.cores) :
    (State.modSync s mask).mem.wf = true ∧ coresLegal (State.modSync s mask).cores ∧ (State.modSync s mask).pending = s.pending := by
  grind [State.modSync]
grind_pattern modSync_keeps => State.modSync s mask

/-- See State.modBoundary. -/
theorem modBoundary_keeps (s : State) (m slot : Nat) (h : s.mem.wf = true) (hc : coresLegal s.cores) :
    (State.modBoundary s m slot).mem.wf = true ∧ coresLegal (State.modBoundary s m slot).cores ∧ (State.modBoundary s m slot).pending = s.pending := by
  grind [State.modBoundary]
grind_pattern modBoundary_keeps => State.modBoundary s m slot

/-- See State.addConv. -/
theorem addConv_keeps (s : State) (c : Conv) (h : s.mem.wf = true) (hc : coresLegal s.cores) :
    (State.addConv s c).mem.wf = true ∧ coresLegal (State.addConv s c).cores ∧ (State.addConv s c).pending = s.pending := by
  grind [State.addConv]
grind_pattern addConv_keeps => State.addConv s c

/-- See State.resolverSample. -/
theorem resolverSample_keeps (s : State) (m slot : Nat) (h : s.mem.wf = true) (hc : coresLegal s.cores) :
    (State.resolverSample s m slot).mem.wf = true ∧ coresLegal (State.resolverSample s m slot).cores ∧ (State.resolverSample s m slot).pending = s.pending := by
  grind [State.resolverSample]
grind_pattern resolverSample_keeps => State.resolverSample s m slot

/-- See State.modSlot. -/
theorem modSlot_keeps (s : State) (m pos slot : Nat) (h : s.mem.wf = true) (hc : coresLegal s.cores) :
    (State.modSlot s m pos slot).mem.wf = true ∧ coresLegal (State.modSlot s m pos slot).cores ∧ (State.modSlot s m pos slot).pending = s.pending := by
  grind [State.modSlot]
grind_pattern modSlot_keeps => State.modSlot s m pos slot

/-- See State.modHold. -/
theorem modHold_keeps (s : State) (m : Nat) (pos : Nat) (h : s.mem.wf = true) (hc : coresLegal s.cores) :
    (State.modHold s m pos).mem.wf = true ∧ coresLegal (State.modHold s m pos).cores ∧ (State.modHold s m pos).pending = s.pending := by
  grind [State.modHold]
grind_pattern modHold_keeps => State.modHold s m pos

/-- See State.modPrep. -/
theorem modPrep_keeps (s : State) (m pos : Nat) (h : s.mem.wf = true) (hc : coresLegal s.cores) :
    (State.modPrep s m pos).mem.wf = true ∧ coresLegal (State.modPrep s m pos).cores ∧ (State.modPrep s m pos).pending = s.pending := by
  grind [State.modPrep]
grind_pattern modPrep_keeps => State.modPrep s m pos

/-- See State.modStep. -/
theorem modStep_keeps (s : State) (m pos slot : Nat) (h : s.mem.wf = true) (hc : coresLegal s.cores) :
    (State.modStep s m pos slot).mem.wf = true ∧ coresLegal (State.modStep s m pos slot).cores ∧ (State.modStep s m pos slot).pending = s.pending := by
  grind [State.modStep]
grind_pattern modStep_keeps => State.modStep s m pos slot

/-- See State.writeModSync. -/
theorem writeModSync_keeps (s : State) (v : Word) (h : s.mem.wf = true) (hc : coresLegal s.cores) :
    (State.writeModSync s v).mem.wf = true ∧ coresLegal (State.writeModSync s v).cores ∧ (State.writeModSync s v).pending = s.pending := by
  grind [State.writeModSync]
grind_pattern writeModSync_keeps => State.writeModSync s v

/-- See State.setCell. -/
theorem setCell_keeps (s : State) (c : Nat) (v : Cell) (h : s.mem.wf = true) (hc : coresLegal s.cores) :
    (State.setCell s c v).mem.wf = true ∧ coresLegal (State.setCell s c v).cores ∧ (State.setCell s c v).pending = s.pending := by
  grind [State.setCell]
grind_pattern setCell_keeps => State.setCell s c v

/-- See State.driveCell. -/
theorem driveCell_keeps (s : State) (c slot : Nat) (h : s.mem.wf = true) (hc : coresLegal s.cores) :
    (State.driveCell s c slot).mem.wf = true ∧ coresLegal (State.driveCell s c slot).cores ∧ (State.driveCell s c slot).pending = s.pending := by
  grind [State.driveCell]
grind_pattern driveCell_keeps => State.driveCell s c slot

/-- See State.evalCell. -/
theorem evalCell_keeps (s : State) (c : Nat) (h : s.mem.wf = true) (hc : coresLegal s.cores) :
    (State.evalCell s c).mem.wf = true ∧ coresLegal (State.evalCell s c).cores ∧ (State.evalCell s c).pending = s.pending := by
  grind [State.evalCell]
grind_pattern evalCell_keeps => State.evalCell s c

/-- See State.evalCells. -/
theorem evalCells_keeps (s : State) (h : s.mem.wf = true) (hc : coresLegal s.cores) :
    (State.evalCells s).mem.wf = true ∧ coresLegal (State.evalCells s).cores ∧ (State.evalCells s).pending = s.pending := by
  grind [State.evalCells]
grind_pattern evalCells_keeps => State.evalCells s

/-- See State.actuationInt. -/
theorem actuationInt_keeps (s : State) (h : s.mem.wf = true) (hc : coresLegal s.cores) :
    (State.actuationInt s).mem.wf = true ∧ coresLegal (State.actuationInt s).cores ∧ (State.actuationInt s).pending = s.pending := by
  grind [State.actuationInt]
grind_pattern actuationInt_keeps => State.actuationInt s

/-- See State.tripCell. -/
theorem tripCell_keeps (s : State) (c : Nat) (h : s.mem.wf = true) (hc : coresLegal s.cores) :
    (State.tripCell s c).mem.wf = true ∧ coresLegal (State.tripCell s c).cores ∧ (State.tripCell s c).pending = s.pending := by
  grind [State.tripCell]
grind_pattern tripCell_keeps => State.tripCell s c

/-- See State.tripCells. -/
theorem tripCells_keeps (s : State) (h : s.mem.wf = true) (hc : coresLegal s.cores) :
    (State.tripCells s).mem.wf = true ∧ coresLegal (State.tripCells s).cores ∧ (State.tripCells s).pending = s.pending := by
  grind [State.tripCells]
grind_pattern tripCells_keeps => State.tripCells s

/-- See State.writeTripped. -/
theorem writeTripped_keeps (s : State) (g : Nat) (v : Word) (h : s.mem.wf = true) (hc : coresLegal s.cores) :
    (State.writeTripped s g v).mem.wf = true ∧ coresLegal (State.writeTripped s g v).cores ∧ (State.writeTripped s g v).pending = s.pending := by
  grind [State.writeTripped]
grind_pattern writeTripped_keeps => State.writeTripped s g v

/-- See State.cellFault. -/
theorem cellFault_keeps (s : State) (c : Nat) (h : s.mem.wf = true) (hc : coresLegal s.cores) :
    (State.cellFault s c).mem.wf = true ∧ coresLegal (State.cellFault s c).cores ∧ (State.cellFault s c).pending = s.pending := by
  grind [State.cellFault]
grind_pattern cellFault_keeps => State.cellFault s c

/-- See State.cellTick. -/
theorem cellTick_keeps (s : State) (c : Nat) (h : s.mem.wf = true) (hc : coresLegal s.cores) :
    (State.cellTick s c).mem.wf = true ∧ coresLegal (State.cellTick s c).cores ∧ (State.cellTick s c).pending = s.pending := by
  grind [State.cellTick]
grind_pattern cellTick_keeps => State.cellTick s c

/-- See State.ballLevel. -/
theorem ballLevel_keeps (s : State) (g : Nat) (h : s.mem.wf = true) (hc : coresLegal s.cores) :
    (State.ballLevel s g).2.mem.wf = true ∧ coresLegal (State.ballLevel s g).2.cores ∧ (State.ballLevel s g).2.pending = s.pending := by
  grind [State.ballLevel]
grind_pattern ballLevel_keeps => State.ballLevel s g

/-- See State.readLvl. -/
theorem readLvl_keeps (s : State) (c : Nat) (h : s.mem.wf = true) (hc : coresLegal s.cores) :
    (State.readLvl s c).2.mem.wf = true ∧ coresLegal (State.readLvl s c).2.cores ∧ (State.readLvl s c).2.pending = s.pending := by
  grind [State.readLvl]
grind_pattern readLvl_keeps => State.readLvl s c

/-- See State.readGp. -/
theorem readGp_keeps (s : State) (g : Nat) (h : s.mem.wf = true) (hc : coresLegal s.cores) :
    (State.readGp s g).2.mem.wf = true ∧ coresLegal (State.readGp s g).2.cores ∧ (State.readGp s g).2.pending = s.pending := by
  grind [State.readGp]
grind_pattern readGp_keeps => State.readGp s g

/-- See State.cellReturn. -/
theorem cellReturn_keeps (s : State) (c slot dt : Nat) (h : s.mem.wf = true) (hc : coresLegal s.cores) :
    (State.cellReturn s c slot dt).mem.wf = true ∧ coresLegal (State.cellReturn s c slot dt).cores ∧ (State.cellReturn s c slot dt).pending = s.pending := by
  grind [State.cellReturn]
grind_pattern cellReturn_keeps => State.cellReturn s c slot dt

/-- See State.driveJump. -/
theorem driveJump_keeps (s : State) (m : Nat) (h : s.mem.wf = true) (hc : coresLegal s.cores) :
    (State.driveJump s m).mem.wf = true ∧ coresLegal (State.driveJump s m).cores ∧ (State.driveJump s m).pending = s.pending := by
  grind [State.driveJump]
grind_pattern driveJump_keeps => State.driveJump s m

/-- See State.skipPulse. -/
theorem skipPulse_keeps (s : State) (m : Nat) (p1 p2 : W32) (h : s.mem.wf = true) (hc : coresLegal s.cores) :
    (State.skipPulse s m p1 p2).mem.wf = true ∧ coresLegal (State.skipPulse s m p1 p2).cores ∧ (State.skipPulse s m p1 p2).pending = s.pending := by
  grind [State.skipPulse]
grind_pattern skipPulse_keeps => State.skipPulse s m p1 p2

/-- See State.jumpBoundary. -/
theorem jumpBoundary_keeps (s : State) (m : Nat) (p1 p2 : W32) (h : s.mem.wf = true) (hc : coresLegal s.cores) :
    (State.jumpBoundary s m p1 p2).mem.wf = true ∧ coresLegal (State.jumpBoundary s m p1 p2).cores ∧ (State.jumpBoundary s m p1 p2).pending = s.pending := by
  change Keeps s _
  unfold State.jumpBoundary
  dsimp only
  split
  · exact modBoundary_keeps s m _ h hc
  · exact ⟨h, hc, rfl⟩
grind_pattern jumpBoundary_keeps => State.jumpBoundary s m p1 p2

/-- See State.landMod. -/
theorem landMod_keeps (s : State) (m : Nat) (p2 : W32) (h : s.mem.wf = true) (hc : coresLegal s.cores) :
    (State.landMod s m p2).mem.wf = true ∧ coresLegal (State.landMod s m p2).cores ∧ (State.landMod s m p2).pending = s.pending := by
  grind [State.landMod]
grind_pattern landMod_keeps => State.landMod s m p2

/-- See State.modJump. -/
theorem modJump_keeps (s : State) (c : Nat) (p1 p2 : W32) (h : s.mem.wf = true) (hc : coresLegal s.cores) :
    (State.modJump s c p1 p2).mem.wf = true ∧ coresLegal (State.modJump s c p1 p2).cores ∧ (State.modJump s c p1 p2).pending = s.pending := by
  grind [State.modJump]
grind_pattern modJump_keeps => State.modJump s c p1 p2

/-- See State.writeOcCtrl. -/
theorem writeOcCtrl_keeps (s : State) (v : Word) (h : s.mem.wf = true) (hc : coresLegal s.cores) :
    (State.writeOcCtrl s v).mem.wf = true ∧ coresLegal (State.writeOcCtrl s v).cores ∧ (State.writeOcCtrl s v).pending = s.pending := by
  grind [State.writeOcCtrl]
grind_pattern writeOcCtrl_keeps => State.writeOcCtrl s v

/-- See State.cellsAlone. -/
theorem cellsAlone_keeps (s : State) (h : s.mem.wf = true) (hc : coresLegal s.cores) :
    (State.cellsAlone s).mem.wf = true ∧ coresLegal (State.cellsAlone s).cores ∧ (State.cellsAlone s).pending = s.pending := by
  grind [State.cellsAlone]
grind_pattern cellsAlone_keeps => State.cellsAlone s

/-- See State.applyActs. -/
theorem applyActs_keeps (s : State) (c : Nat) (a : Acted) (h : s.mem.wf = true) (hc : coresLegal s.cores) :
    (State.applyActs s c a).mem.wf = true ∧ coresLegal (State.applyActs s c a).cores ∧ (State.applyActs s c a).pending = s.pending := by
  grind [State.applyActs]
grind_pattern applyActs_keeps => State.applyActs s c a

/-- See State.pinAction. -/
theorem pinAction_keeps (s : State) (j c act : Nat) (arg : Word) (slot : Nat) (h : s.mem.wf = true) (hc : coresLegal s.cores) :
    (State.pinAction s j c act arg slot).mem.wf = true ∧ coresLegal (State.pinAction s j c act arg slot).cores ∧ (State.pinAction s j c act arg slot).pending = s.pending := by
  grind [State.pinAction]
grind_pattern pinAction_keeps => State.pinAction s j c act arg slot

/-- See State.writtenFirst. -/
theorem writtenFirst_keeps (s : State) (c : Nat) (h : s.mem.wf = true) (hc : coresLegal s.cores) :
    (State.writtenFirst s c).mem.wf = true ∧ coresLegal (State.writtenFirst s c).cores ∧ (State.writtenFirst s c).pending = s.pending := by
  grind [State.writtenFirst]
grind_pattern writtenFirst_keeps => State.writtenFirst s c

/-- See State.bankChange. -/
theorem bankChange_keeps (s : State) (k mv : Nat) (h : s.mem.wf = true) (hc : coresLegal s.cores) :
    (State.bankChange s k mv).mem.wf = true ∧ coresLegal (State.bankChange s k mv).cores ∧ (State.bankChange s k mv).pending = s.pending := by
  grind [State.bankChange]
grind_pattern bankChange_keeps => State.bankChange s k mv

end Sys2Proof.Machine
end

