-- ==== Sys2Proof/Laws/Frame/Measure.lean ====
section
/-! SUPPORT. What the operations of Machine/Measure.lean leave: memory in canonical form and the queue of waiting commands. -/

namespace Sys2Proof.Machine

open Sys2Proof

/-- See State.measureInt. -/
theorem measureInt_keeps (s : State) (h : s.mem.wf = true) (hc : coresLegal s.cores) :
    (State.measureInt s).mem.wf = true ∧ coresLegal (State.measureInt s).cores ∧ (State.measureInt s).pending = s.pending := by
  grind [State.measureInt]
grind_pattern measureInt_keeps => State.measureInt s

/-- See State.setConv. -/
theorem setConv_keeps (s : State) (n : Nat) (c : Option Conv) (h : s.mem.wf = true) (hc : coresLegal s.cores) :
    (State.setConv s n c).mem.wf = true ∧ coresLegal (State.setConv s n c).cores ∧ (State.setConv s n c).pending = s.pending := by
  grind [State.setConv]
grind_pattern setConv_keeps => State.setConv s n c

/-- See State.adStart. -/
theorem adStart_keeps (s : State) (n : Nat) (h : s.mem.wf = true) (hc : coresLegal s.cores) :
    (State.adStart s n).mem.wf = true ∧ coresLegal (State.adStart s n).cores ∧ (State.adStart s n).pending = s.pending := by
  grind [State.adStart]
grind_pattern adStart_keeps => State.adStart s n

/-- See State.writeAdcCtrl. -/
theorem writeAdcCtrl_keeps (s : State) (n : Nat) (v : Word) (h : s.mem.wf = true) (hc : coresLegal s.cores) :
    (State.writeAdcCtrl s n v).mem.wf = true ∧ coresLegal (State.writeAdcCtrl s n v).cores ∧ (State.writeAdcCtrl s n v).pending = s.pending := by
  grind [State.writeAdcCtrl]
grind_pattern writeAdcCtrl_keeps => State.writeAdcCtrl s n v

/-- See State.dropWaiting. -/
theorem dropWaiting_keeps (s : State) (n : Nat) (h : s.mem.wf = true) (hc : coresLegal s.cores) :
    (State.dropWaiting s n).mem.wf = true ∧ coresLegal (State.dropWaiting s n).cores ∧ (State.dropWaiting s n).pending = s.pending := by
  grind [State.dropWaiting]
grind_pattern dropWaiting_keeps => State.dropWaiting s n

/-- See State.writeSwconv. -/
theorem writeSwconv_keeps (s : State) (v : Word) (h : s.mem.wf = true) (hc : coresLegal s.cores) :
    (State.writeSwconv s v).mem.wf = true ∧ coresLegal (State.writeSwconv s v).cores ∧ (State.writeSwconv s v).pending = s.pending := by
  grind [State.writeSwconv]
grind_pattern writeSwconv_keeps => State.writeSwconv s v

/-- See State.setCap. -/
theorem setCap_keeps (s : State) (d : Nat) (c : CapRun) (h : s.mem.wf = true) (hc : coresLegal s.cores) :
    (State.setCap s d c).mem.wf = true ∧ coresLegal (State.setCap s d c).cores ∧ (State.setCap s d c).pending = s.pending := by
  grind [State.setCap]
grind_pattern setCap_keeps => State.setCap s d c

/-- See State.occupy. -/
theorem occupy_keeps (s : State) (n : Nat) (c : Conv) (h : s.mem.wf = true) (hc : coresLegal s.cores) :
    (State.occupy s n c).mem.wf = true ∧ coresLegal (State.occupy s n c).cores ∧ (State.occupy s n c).pending = s.pending := by
  grind [State.occupy]
grind_pattern occupy_keeps => State.occupy s n c

/-- See State.startConv. -/
theorem startConv_keeps (s : State) (c : Conv) (h : s.mem.wf = true) (hc : coresLegal s.cores) :
    (State.startConv s c).mem.wf = true ∧ coresLegal (State.startConv s c).cores ∧ (State.startConv s c).pending = s.pending := by
  grind [State.startConv]
grind_pattern startConv_keeps => State.startConv s c

/-- See State.putResult. -/
theorem putResult_keeps (s : State) (d : Nat) (v : Word) (h : s.mem.wf = true) (hc : coresLegal s.cores) :
    (State.putResult s d v).mem.wf = true ∧ coresLegal (State.putResult s d v).cores ∧ (State.putResult s d v).pending = s.pending := by
  grind [State.putResult]
grind_pattern putResult_keeps => State.putResult s d v

/-- See State.putFree. -/
theorem putFree_keeps (s : State) (d : Nat) (h : s.mem.wf = true) (hc : coresLegal s.cores) :
    (State.putFree s d).mem.wf = true ∧ coresLegal (State.putFree s d).cores ∧ (State.putFree s d).pending = s.pending := by
  grind [State.putFree]
grind_pattern putFree_keeps => State.putFree s d

/-- See State.startEntry. -/
theorem startEntry_keeps (s : State) (d : Nat) (w : Word) (h : s.mem.wf = true) (hc : coresLegal s.cores) :
    (State.startEntry s d w).mem.wf = true ∧ coresLegal (State.startEntry s d w).cores ∧ (State.startEntry s d w).pending = s.pending := by
  grind [State.startEntry]
grind_pattern startEntry_keeps => State.startEntry s d w

/-- See State.startGroup. -/
theorem startGroup_keeps (s : State) (d : Nat) (h : s.mem.wf = true) (hc : coresLegal s.cores) :
    (State.startGroup s d).mem.wf = true ∧ coresLegal (State.startGroup s d).cores ∧ (State.startGroup s d).pending = s.pending := by
  grind [State.startGroup]
grind_pattern startGroup_keeps => State.startGroup s d

/-- See State.resolverHalf. -/
theorem resolverHalf_keeps (s : State) (c : Conv) (code : Word) (h : s.mem.wf = true) (hc : coresLegal s.cores) :
    (State.resolverHalf s c code).mem.wf = true ∧ coresLegal (State.resolverHalf s c code).cores ∧ (State.resolverHalf s c code).pending = s.pending := by
  grind [State.resolverHalf]
grind_pattern resolverHalf_keeps => State.resolverHalf s c code

/-- See State.writeSdCfg. -/
theorem writeSdCfg_keeps (s : State) (n : Nat) (v : Word) (h : s.mem.wf = true) (hc : coresLegal s.cores) :
    (State.writeSdCfg s n v).mem.wf = true ∧ coresLegal (State.writeSdCfg s n v).cores ∧ (State.writeSdCfg s n v).pending = s.pending := by
  grind [State.writeSdCfg]
grind_pattern writeSdCfg_keeps => State.writeSdCfg s n v

/-- See State.writeSdClk. -/
theorem writeSdClk_keeps (s : State) (v : Word) (h : s.mem.wf = true) (hc : coresLegal s.cores) :
    (State.writeSdClk s v).mem.wf = true ∧ coresLegal (State.writeSdClk s v).cores ∧ (State.writeSdClk s v).pending = s.pending := by
  grind [State.writeSdClk]
grind_pattern writeSdClk_keeps => State.writeSdClk s v

/-- See State.sdOutput. -/
theorem sdOutput_keeps (s : State) (n : Nat) (sum : Int) (h : s.mem.wf = true) (hc : coresLegal s.cores) :
    (State.sdOutput s n sum).mem.wf = true ∧ coresLegal (State.sdOutput s n sum).cores ∧ (State.sdOutput s n sum).pending = s.pending := by
  grind [State.sdOutput]
grind_pattern sdOutput_keeps => State.sdOutput s n sum

/-- See State.sdClock. -/
theorem sdClock_keeps (s : State) (n : Nat) (k : Bool × Bool) (h : s.mem.wf = true) (hc : coresLegal s.cores) :
    (State.sdClock s n k).mem.wf = true ∧ coresLegal (State.sdClock s n k).cores ∧ (State.sdClock s n k).pending = s.pending := by
  grind [State.sdClock]
grind_pattern sdClock_keeps => State.sdClock s n k

/-- See State.setCp. -/
theorem setCp_keeps (s : State) (n : Nat) (v : Bool) (h : s.mem.wf = true) (hc : coresLegal s.cores) :
    (State.setCp s n v).mem.wf = true ∧ coresLegal (State.setCp s n v).cores ∧ (State.setCp s n v).pending = s.pending := by
  grind [State.setCp]
grind_pattern setCp_keeps => State.setCp s n v

/-- See State.writeCpDac. -/
theorem writeCpDac_keeps (s : State) (n : Nat) (v : Word) (h : s.mem.wf = true) (hc : coresLegal s.cores) :
    (State.writeCpDac s n v).mem.wf = true ∧ coresLegal (State.writeCpDac s n v).cores ∧ (State.writeCpDac s n v).pending = s.pending := by
  grind [State.writeCpDac]
grind_pattern writeCpDac_keeps => State.writeCpDac s n v

/-- See State.cpStart. -/
theorem cpStart_keeps (s : State) (n : Nat) (h : s.mem.wf = true) (hc : coresLegal s.cores) :
    (State.cpStart s n).mem.wf = true ∧ coresLegal (State.cpStart s n).cores ∧ (State.cpStart s n).pending = s.pending := by
  grind [State.cpStart]
grind_pattern cpStart_keeps => State.cpStart s n

/-- See State.writeCpCfg. -/
theorem writeCpCfg_keeps (s : State) (n : Nat) (v : Word) (h : s.mem.wf = true) (hc : coresLegal s.cores) :
    (State.writeCpCfg s n v).mem.wf = true ∧ coresLegal (State.writeCpCfg s n v).cores ∧ (State.writeCpCfg s n v).pending = s.pending := by
  grind [State.writeCpCfg]
grind_pattern writeCpCfg_keeps => State.writeCpCfg s n v

/-- See State.sentBad. -/
theorem sentBad_keeps (s : State) (n : Nat) (bits : List Nat) (h : s.mem.wf = true) (hc : coresLegal s.cores) :
    (State.sentBad s n bits).mem.wf = true ∧ coresLegal (State.sentBad s n bits).cores ∧ (State.sentBad s n bits).pending = s.pending := by
  exact Keeps.step (foldl_keeps _ bits { s with sentSer := Tab.set [] n [] s.sentSer } h hc fun t b a e => setBit_keeps t _ n b true a e) fun a b => count_keeps _ _ n 1 a b
grind_pattern sentBad_keeps => State.sentBad s n bits

/-- See State.sentSerial. -/
theorem sentSerial_keeps (s : State) (n status : Nat) (h : s.mem.wf = true) (hc : coresLegal s.cores) :
    (State.sentSerial s n status).mem.wf = true ∧ coresLegal (State.sentSerial s n status).cores ∧ (State.sentSerial s n status).pending = s.pending := by
  unfold State.sentSerial; grind
grind_pattern sentSerial_keeps => State.sentSerial s n status

/-- See State.writeFbRd. -/
theorem writeFbRd_keeps (s : State) (b : Nat) (v : Word) (h : s.mem.wf = true) (hc : coresLegal s.cores) :
    (State.writeFbRd s b v).mem.wf = true ∧ coresLegal (State.writeFbRd s b v).cores ∧ (State.writeFbRd s b v).pending = s.pending := by
  grind [State.writeFbRd]
grind_pattern writeFbRd_keeps => State.writeFbRd s b v

/-- See State.writeCrRd. -/
theorem writeCrRd_keeps (s : State) (r : Nat) (v : Word) (h : s.mem.wf = true) (hc : coresLegal s.cores) :
    (State.writeCrRd s r v).mem.wf = true ∧ coresLegal (State.writeCrRd s r v).cores ∧ (State.writeCrRd s r v).pending = s.pending := by
  grind [State.writeCrRd]
grind_pattern writeCrRd_keeps => State.writeCrRd s r v

/-- See State.writeFbCfg. -/
theorem writeFbCfg_keeps (s : State) (b : Nat) (v : Word) (h : s.mem.wf = true) (hc : coresLegal s.cores) :
    (State.writeFbCfg s b v).mem.wf = true ∧ coresLegal (State.writeFbCfg s b v).cores ∧ (State.writeFbCfg s b v).pending = s.pending := by
  grind [State.writeFbCfg]
grind_pattern writeFbCfg_keeps => State.writeFbCfg s b v

/-- See State.writeCrCfg. -/
theorem writeCrCfg_keeps (s : State) (r : Nat) (v : Word) (h : s.mem.wf = true) (hc : coresLegal s.cores) :
    (State.writeCrCfg s r v).mem.wf = true ∧ coresLegal (State.writeCrCfg s r v).cores ∧ (State.writeCrCfg s r v).pending = s.pending := by
  grind [State.writeCrCfg]
grind_pattern writeCrCfg_keeps => State.writeCrCfg s r v

/-- See State.capActivate. -/
theorem capActivate_keeps (s : State) (d : Nat) (h : s.mem.wf = true) (hc : coresLegal s.cores) :
    (State.capActivate s d).mem.wf = true ∧ coresLegal (State.capActivate s d).cores ∧ (State.capActivate s d).pending = s.pending := by
  grind [State.capActivate]
grind_pattern capActivate_keeps => State.capActivate s d

/-- See State.writeDefCtrl. -/
theorem writeDefCtrl_keeps (s : State) (d : Nat) (v : Word) (h : s.mem.wf = true) (hc : coresLegal s.cores) :
    (State.writeDefCtrl s d v).mem.wf = true ∧ coresLegal (State.writeDefCtrl s d v).cores ∧ (State.writeDefCtrl s d v).pending = s.pending := by
  grind [State.writeDefCtrl]
grind_pattern writeDefCtrl_keeps => State.writeDefCtrl s d v

/-- See State.capLost. -/
theorem capLost_keeps (s : State) (d : Nat) (h : s.mem.wf = true) (hc : coresLegal s.cores) :
    (State.capLost s d).mem.wf = true ∧ coresLegal (State.capLost s d).cores ∧ (State.capLost s d).pending = s.pending := by
  grind [State.capLost]
grind_pattern capLost_keeps => State.capLost s d

/-- See State.fbDiscard. -/
theorem fbDiscard_keeps (s : State) (b n : Nat) (h : s.mem.wf = true) (hc : coresLegal s.cores) :
    (State.fbDiscard s b n).mem.wf = true ∧ coresLegal (State.fbDiscard s b n).cores ∧ (State.fbDiscard s b n).pending = s.pending := by
  grind [State.fbDiscard]
grind_pattern fbDiscard_keeps => State.fbDiscard s b n

/-- See State.captureStart. -/
theorem captureStart_keeps (s : State) (d : Nat) (h : s.mem.wf = true) (hc : coresLegal s.cores) :
    (State.captureStart s d).mem.wf = true ∧ coresLegal (State.captureStart s d).cores ∧ (State.captureStart s d).pending = s.pending := by
  grind [State.captureStart]
grind_pattern captureStart_keeps => State.captureStart s d

/-- See State.writeSwtrig. -/
theorem writeSwtrig_keeps (s : State) (v : Word) (h : s.mem.wf = true) (hc : coresLegal s.cores) :
    (State.writeSwtrig s v).mem.wf = true ∧ coresLegal (State.writeSwtrig s v).cores ∧ (State.writeSwtrig s v).pending = s.pending := by
  grind [State.writeSwtrig]
grind_pattern writeSwtrig_keeps => State.writeSwtrig s v

/-- See State.writeWords64. -/
theorem writeWords64_keeps (s : State) (m : Master) (a : Nat) (x1 : List W64) (h : s.mem.wf = true) (hc : coresLegal s.cores) :
    (State.writeWords64 s m a x1).mem.wf = true ∧ coresLegal (State.writeWords64 s m a x1).cores ∧ (State.writeWords64 s m a x1).pending = s.pending := by
  induction x1 generalizing s m a with
  | nil => grind [State.writeWords64]
  | cons e l ih => grind [State.writeWords64]
grind_pattern writeWords64_keeps => State.writeWords64 s m a x1

/-- See State.readWord64. -/
theorem readWord64_keeps (s : State) (m : Master) (a : Nat) (h : s.mem.wf = true) (hc : coresLegal s.cores) :
    (State.readWord64 s m a).2.mem.wf = true ∧ coresLegal (State.readWord64 s m a).2.cores ∧ (State.readWord64 s m a).2.pending = s.pending := by
  grind [State.readWord64]
grind_pattern readWord64_keeps => State.readWord64 s m a

/-- See State.readWords64. -/
theorem readWords64_keeps (s : State) (m : Master) (a : Nat) (x1 : Nat) (h : s.mem.wf = true) (hc : coresLegal s.cores) :
    (State.readWords64 s m a x1).2.mem.wf = true ∧ coresLegal (State.readWords64 s m a x1).2.cores ∧ (State.readWords64 s m a x1).2.pending = s.pending := by
  induction x1 generalizing s m a with
  | zero => grind [State.readWords64]
  | succ n ih => grind [State.readWords64]
grind_pattern readWords64_keeps => State.readWords64 s m a x1

/-- See State.resetRings. -/
theorem resetRings_keeps (s : State) (h : s.mem.wf = true) (hc : coresLegal s.cores) :
    (State.resetRings s).mem.wf = true ∧ coresLegal (State.resetRings s).cores ∧ (State.resetRings s).pending = s.pending := by
  grind [State.resetRings]
grind_pattern resetRings_keeps => State.resetRings s

end Sys2Proof.Machine
end

