-- ==== Sys2Proof/Laws/Frame/Courses.lean ====
section
/-! SUPPORT. What the operations of Machine/Courses.lean leave: memory in canonical form and the queue of waiting commands. -/

namespace Sys2Proof.Machine

open Sys2Proof

/-- See State.setCourse. -/
theorem setCourse_keeps (s : State) (c : Nat) (x : Course) (h : s.mem.wf = true) (hc : coresLegal s.cores) :
    (State.setCourse s c x).mem.wf = true ∧ coresLegal (State.setCourse s c x).cores ∧ (State.setCourse s c x).pending = s.pending := by
  grind [State.setCourse]
grind_pattern setCourse_keeps => State.setCourse s c x

/-- See State.courseEvt. -/
theorem courseEvt_keeps (s : State) (c b : Nat) (h : s.mem.wf = true) (hc : coresLegal s.cores) :
    (State.courseEvt s c b).mem.wf = true ∧ coresLegal (State.courseEvt s c b).cores ∧ (State.courseEvt s c b).pending = s.pending := by
  grind [State.courseEvt]
grind_pattern courseEvt_keeps => State.courseEvt s c b

/-- See State.toLost. -/
theorem toLost_keeps (s : State) (c : Nat) (byRun : Bool) (h : s.mem.wf = true) (hc : coresLegal s.cores) :
    (State.toLost s c byRun).mem.wf = true ∧ coresLegal (State.toLost s c byRun).cores ∧ (State.toLost s c byRun).pending = s.pending := by
  grind [State.toLost]
grind_pattern toLost_keeps => State.toLost s c byRun

/-- See State.toSearch. -/
theorem toSearch_keeps (s : State) (c : Nat) (h : s.mem.wf = true) (hc : coresLegal s.cores) :
    (State.toSearch s c).mem.wf = true ∧ coresLegal (State.toSearch s c).cores ∧ (State.toSearch s c).pending = s.pending := by
  grind [State.toSearch]
grind_pattern toSearch_keeps => State.toSearch s c

/-- See State.jmark. -/
theorem jmark_keeps (s : State) (k : RegKind) (j : Nat) (h : s.mem.wf = true) (hc : coresLegal s.cores) :
    (State.jmark s k j).mem.wf = true ∧ coresLegal (State.jmark s k j).cores ∧ (State.jmark s k j).pending = s.pending := by
  grind [State.jmark]
grind_pattern jmark_keeps => State.jmark s k j

/-- See State.jqueue. -/
theorem jqueue_keeps (s : State) (e : Nat × Nat × Word × Word × Nat) (h : s.mem.wf = true) (hc : coresLegal s.cores) :
    (State.jqueue s e).mem.wf = true ∧ coresLegal (State.jqueue s e).cores ∧ (State.jqueue s e).pending = s.pending := by
  grind [State.jqueue]
grind_pattern jqueue_keeps => State.jqueue s e

/-- See State.jact. -/
theorem jact_keeps (s : State) (j slot : Nat) (h : s.mem.wf = true) (hc : coresLegal s.cores) :
    (State.jact s j slot).mem.wf = true ∧ coresLegal (State.jact s j slot).cores ∧ (State.jact s j slot).pending = s.pending := by
  grind [State.jact]
grind_pattern jact_keeps => State.jact s j slot

/-- See State.jfire. -/
theorem jfire_keeps (s : State) (j slot : Nat) (h : s.mem.wf = true) (hc : coresLegal s.cores) :
    (State.jfire s j slot).mem.wf = true ∧ coresLegal (State.jfire s j slot).cores ∧ (State.jfire s j slot).pending = s.pending := by
  grind [State.jfire]
grind_pattern jfire_keeps => State.jfire s j slot

/-- See State.jadvance. -/
theorem jadvance_keeps (s : State) (j : Nat) (p : W32) (h : s.mem.wf = true) (hc : coresLegal s.cores) :
    (State.jadvance s j p).mem.wf = true ∧ coresLegal (State.jadvance s j p).cores ∧ (State.jadvance s j p).pending = s.pending := by
  grind [State.jadvance]
grind_pattern jadvance_keeps => State.jadvance s j p

/-- See State.jlate. -/
theorem jlate_keeps (s : State) (j : Nat) (p : W32) (h : s.mem.wf = true) (hc : coresLegal s.cores) :
    (State.jlate s j p).mem.wf = true ∧ coresLegal (State.jlate s j p).cores ∧ (State.jlate s j p).pending = s.pending := by
  grind [State.jlate]
grind_pattern jlate_keeps => State.jlate s j p

/-- See State.catchUp. -/
theorem catchUp_keeps (s : State) (c : Nat) (h : s.mem.wf = true) (hc : coresLegal s.cores) :
    (State.catchUp s c).mem.wf = true ∧ coresLegal (State.catchUp s c).cores ∧ (State.catchUp s c).pending = s.pending := by
  grind [State.catchUp]
grind_pattern catchUp_keeps => State.catchUp s c

/-- See State.toLocked. -/
theorem toLocked_keeps (s : State) (c : Nat) (h : s.mem.wf = true) (hc : coresLegal s.cores) :
    (State.toLocked s c).mem.wf = true ∧ coresLegal (State.toLocked s c).cores ∧ (State.toLocked s c).pending = s.pending := by
  grind [State.toLocked]
grind_pattern toLocked_keeps => State.toLocked s c

/-- See State.skipJoints. -/
theorem skipJoints_keeps (s : State) (c : Nat) (p1 p2 : W32) (h : s.mem.wf = true) (hc : coresLegal s.cores) :
    (State.skipJoints s c p1 p2).mem.wf = true ∧ coresLegal (State.skipJoints s c p1 p2).cores ∧ (State.skipJoints s c p1 p2).pending = s.pending := by
  grind [State.skipJoints]
grind_pattern skipJoints_keeps => State.skipJoints s c p1 p2

/-- See State.jarm. -/
theorem jarm_keeps (s : State) (j : Nat) (v : Word) (h : s.mem.wf = true) (hc : coresLegal s.cores) :
    (State.jarm s j v).mem.wf = true ∧ coresLegal (State.jarm s j v).cores ∧ (State.jarm s j v).pending = s.pending := by
  grind [State.jarm]
grind_pattern jarm_keeps => State.jarm s j v

/-- See State.writeJntCfg. -/
theorem writeJntCfg_keeps (s : State) (j : Nat) (v : Word) (h : s.mem.wf = true) (hc : coresLegal s.cores) :
    (State.writeJntCfg s j v).mem.wf = true ∧ coresLegal (State.writeJntCfg s j v).cores ∧ (State.writeJntCfg s j v).pending = s.pending := by
  grind [State.writeJntCfg]
grind_pattern writeJntCfg_keeps => State.writeJntCfg s j v

/-- The parts of State.correct. -/
theorem correct_part (s : State) (c : Nat) (x : Course) (p q : W32) (h : s.mem.wf = true) (hc : coresLegal s.cores) :
    Keeps s (s.setCourse c x) ∧ Keeps s (((s.setCourse c x).skipJoints c p q).modJump c p q) := by
  have k := setCourse_keeps s c x h hc
  have k2 := skipJoints_keeps (s.setCourse c x) c p q k.1 k.2.1
  have k3 := modJump_keeps ((s.setCourse c x).skipJoints c p q) c p q k2.1 k2.2.1
  exact ⟨k, k3.1, k3.2.1, k3.2.2.trans (k2.2.2.trans k.2.2)⟩

/-- See State.correct. -/
theorem correct_keeps (s : State) (c np : Nat) (f : Course → Course) (h : s.mem.wf = true) (hc : coresLegal s.cores) :
    (State.correct s c np f).mem.wf = true ∧ coresLegal (State.correct s c np f).cores ∧ (State.correct s c np f).pending = s.pending := by
  have k := correct_part s c ((s.course c).movedTo np f) (s.course c).vis ((s.course c).movedTo np f).vis h hc
  show Keeps s (State.correct s c np f)
  rw [State.correct]
  by_cases e : ((s.course c).movedTo np f).vis ≠ (s.course c).vis
  · rw [if_pos e]; exact k.2
  · rw [if_neg e]; exact k.1
grind_pattern correct_keeps => State.correct s c np f

/-- See State.toSync. -/
theorem toSync_keeps (s : State) (c : Nat) (x : Course) (k : Int) (rev : Bool) (e : EdgeInfo) (h : s.mem.wf = true) (hc : coresLegal s.cores) :
    (State.toSync s c x k rev e).mem.wf = true ∧ coresLegal (State.toSync s c x k rev e).cores ∧ (State.toSync s c x k rev e).pending = s.pending := by
  grind [State.toSync]
grind_pattern toSync_keeps => State.toSync s c x k rev e

/-- See State.reversal. -/
theorem reversal_keeps (s : State) (c : Nat) (old new : Bool) (h : s.mem.wf = true) (hc : coresLegal s.cores) :
    (State.reversal s c old new).mem.wf = true ∧ coresLegal (State.reversal s c old new).cores ∧ (State.reversal s c old new).pending = s.pending := by
  grind [State.reversal]
grind_pattern reversal_keeps => State.reversal s c old new

/-- See State.camCheck. -/
theorem camCheck_keeps (s : State) (c : Nat) (k : Int) (e : EdgeInfo) (h : s.mem.wf = true) (hc : coresLegal s.cores) :
    (State.camCheck s c k e).mem.wf = true ∧ coresLegal (State.camCheck s c k e).cores ∧ (State.camCheck s c k e).pending = s.pending := by
  grind [State.camCheck]
grind_pattern camCheck_keeps => State.camCheck s c k e

/-- See State.badEdge. -/
theorem badEdge_keeps (s : State) (c : Nat) (pat sp : Bool) (h : s.mem.wf = true) (hc : coresLegal s.cores) :
    (State.badEdge s c pat sp).mem.wf = true ∧ coresLegal (State.badEdge s c pat sp).cores ∧ (State.badEdge s c pat sp).pending = s.pending := by
  grind [State.badEdge]
grind_pattern badEdge_keeps => State.badEdge s c pat sp

/-- See State.goodEdge. -/
theorem goodEdge_keeps (s : State) (c : Nat) (h : s.mem.wf = true) (hc : coresLegal s.cores) :
    (State.goodEdge s c).mem.wf = true ∧ coresLegal (State.goodEdge s c).cores ∧ (State.goodEdge s c).pending = s.pending := by
  grind [State.goodEdge]
grind_pattern goodEdge_keeps => State.goodEdge s c

/-- See State.edgeEnd. -/
theorem edgeEnd_keeps (s : State) (c x1 slot : Nat) (sp ac e : Int) (bad pat fast : Bool) (h : s.mem.wf = true) (hc : coresLegal s.cores) :
    (State.edgeEnd s c x1 slot sp ac e bad pat fast).mem.wf = true ∧ coresLegal (State.edgeEnd s c x1 slot sp ac e bad pat fast).cores ∧ (State.edgeEnd s c x1 slot sp ac e bad pat fast).pending = s.pending := by
  grind [State.edgeEnd]
grind_pattern edgeEnd_keeps => State.edgeEnd s c x1 slot sp ac e bad pat fast

/-- See State.trackEdge. -/
theorem trackEdge_keeps (s : State) (c x1 : Nat) (slot : Nat) (sp ac : Int) (f : Course → Course) (h : s.mem.wf = true) (hc : coresLegal s.cores) :
    (State.trackEdge s c x1 slot sp ac f).mem.wf = true ∧ coresLegal (State.trackEdge s c x1 slot sp ac f).cores ∧ (State.trackEdge s c x1 slot sp ac f).pending = s.pending := by
  grind [State.trackEdge]
grind_pattern trackEdge_keeps => State.trackEdge s c x1 slot sp ac f

/-- See State.countedEdge. -/
theorem countedEdge_keeps (s : State) (c : Nat) (x : Course) (k next : Int) (rev : Bool) (e : EdgeInfo) (h : s.mem.wf = true) (hc : coresLegal s.cores) :
    (State.countedEdge s c x k next rev e).mem.wf = true ∧ coresLegal (State.countedEdge s c x k next rev e).cores ∧ (State.countedEdge s c x k next rev e).pending = s.pending := by
  grind [State.countedEdge]
grind_pattern countedEdge_keeps => State.countedEdge s c x k next rev e

/-- See State.resolverEdge. -/
theorem resolverEdge_keeps (s : State) (c : Nat) (x : Course) (sn cs : Int) (e : EdgeInfo) (h : s.mem.wf = true) (hc : coresLegal s.cores) :
    (State.resolverEdge s c x sn cs e).mem.wf = true ∧ coresLegal (State.resolverEdge s c x sn cs e).cores ∧ (State.resolverEdge s c x sn cs e).pending = s.pending := by
  grind [State.resolverEdge]
grind_pattern resolverEdge_keeps => State.resolverEdge s c x sn cs e

/-- See State.courseEdge. -/
theorem courseEdge_keeps (s : State) (c : Nat) (e : EdgeInfo) (h : s.mem.wf = true) (hc : coresLegal s.cores) :
    (State.courseEdge s c e).mem.wf = true ∧ coresLegal (State.courseEdge s c e).cores ∧ (State.courseEdge s c e).pending = s.pending := by
  grind [State.courseEdge]
grind_pattern courseEdge_keeps => State.courseEdge s c e

/-- See State.takeSample. -/
theorem takeSample_keeps (s : State) (d : Nat × Int × Int × Nat) (h : s.mem.wf = true) (hc : coresLegal s.cores) :
    (State.takeSample s d).mem.wf = true ∧ coresLegal (State.takeSample s d).cores ∧ (State.takeSample s d).pending = s.pending := by
  grind [State.takeSample]
grind_pattern takeSample_keeps => State.takeSample s d

/-- See State.takeSamples. -/
theorem takeSamples_keeps (s : State) (h : s.mem.wf = true) (hc : coresLegal s.cores) :
    (State.takeSamples s).mem.wf = true ∧ coresLegal (State.takeSamples s).cores ∧ (State.takeSamples s).pending = s.pending := by
  grind [State.takeSamples]
grind_pattern takeSamples_keeps => State.takeSamples s

/-- See State.resync. -/
theorem resync_keeps (s : State) (c : Nat) (h : s.mem.wf = true) (hc : coresLegal s.cores) :
    (State.resync s c).mem.wf = true ∧ coresLegal (State.resync s c).cores ∧ (State.resync s c).pending = s.pending := by
  grind [State.resync]
grind_pattern resync_keeps => State.resync s c

/-- See State.writeCrsCtrl. -/
theorem writeCrsCtrl_keeps (s : State) (c : Nat) (v : Word) (h : s.mem.wf = true) (hc : coresLegal s.cores) :
    (State.writeCrsCtrl s c v).mem.wf = true ∧ coresLegal (State.writeCrsCtrl s c v).cores ∧ (State.writeCrsCtrl s c v).pending = s.pending := by
  grind [State.writeCrsCtrl]
grind_pattern writeCrsCtrl_keeps => State.writeCrsCtrl s c v

/-- See State.gptpFollow. -/
theorem gptpFollow_keeps (s : State) (c : Nat) (h : s.mem.wf = true) (hc : coresLegal s.cores) :
    (State.gptpFollow s c).mem.wf = true ∧ coresLegal (State.gptpFollow s c).cores ∧ (State.gptpFollow s c).pending = s.pending := by
  grind [State.gptpFollow]
grind_pattern gptpFollow_keeps => State.gptpFollow s c

/-- See State.gptpStepCourses. -/
theorem gptpStepCourses_keeps (s : State) (h : s.mem.wf = true) (hc : coresLegal s.cores) :
    (State.gptpStepCourses s).mem.wf = true ∧ coresLegal (State.gptpStepCourses s).cores ∧ (State.gptpStepCourses s).pending = s.pending := by
  grind [State.gptpStepCourses]
grind_pattern gptpStepCourses_keeps => State.gptpStepCourses s

/-- See State.gptpTick. -/
theorem gptpTick_keeps (s : State) (h : s.mem.wf = true) (hc : coresLegal s.cores) :
    (State.gptpTick s).mem.wf = true ∧ coresLegal (State.gptpTick s).cores ∧ (State.gptpTick s).pending = s.pending := by
  grind [State.gptpTick]
grind_pattern gptpTick_keeps => State.gptpTick s

/-- See State.runTick. -/
theorem runTick_keeps (s : State) (c : Nat) (h : s.mem.wf = true) (hc : coresLegal s.cores) :
    (State.runTick s c).mem.wf = true ∧ coresLegal (State.runTick s c).cores ∧ (State.runTick s c).pending = s.pending := by
  grind [State.runTick]
grind_pattern runTick_keeps => State.runTick s c

/-- See State.advance. -/
theorem advance_keeps (s : State) (c : Nat) (h : s.mem.wf = true) (hc : coresLegal s.cores) :
    (State.advance s c).mem.wf = true ∧ coresLegal (State.advance s c).cores ∧ (State.advance s c).pending = s.pending := by
  grind [State.advance]
grind_pattern advance_keeps => State.advance s c

/-- See State.jointTick. -/
theorem jointTick_keeps (s : State) (p0 p1 : List W32) (h : s.mem.wf = true) (hc : coresLegal s.cores) :
    (State.jointTick s p0 p1).mem.wf = true ∧ coresLegal (State.jointTick s p0 p1).cores ∧ (State.jointTick s p0 p1).pending = s.pending := by
  grind [State.jointTick]
grind_pattern jointTick_keeps => State.jointTick s p0 p1

/-- See State.modsSlot. -/
theorem modsSlot_keeps (s : State) (p0 p1 : List W32) (j : Nat) (h : s.mem.wf = true) (hc : coresLegal s.cores) :
    (s.modsSlot p0 p1 j).mem.wf = true ∧ coresLegal (s.modsSlot p0 p1 j).cores ∧ (s.modsSlot p0 p1 j).pending = s.pending := by
  unfold State.modsSlot
  exact Keeps.step (foldl_keeps _ (upto 32) s h hc fun t m x y => modStep_keeps t m _ _ x y) fun a b =>
    foldl_keeps _ (upto 64) _ a b fun t c x y => driveCell_keeps t c _ x y
grind_pattern modsSlot_keeps => s.modsSlot p0 p1 j

/-- See State.modsTick. -/
theorem modsTick_keeps (s : State) (p0 p1 : List W32) (h : s.mem.wf = true) (hc : coresLegal s.cores) :
    (s.modsTick p0 p1).mem.wf = true ∧ coresLegal (s.modsTick p0 p1).cores ∧ (s.modsTick p0 p1).pending = s.pending := by
  have k : Keeps s ((upto 32).foldl (fun s m => s.modPrep m (s.modAt p0 p1 m 8)) s) :=
    foldl_keeps _ (upto 32) s h hc fun t m x y => modPrep_keeps t m _ x y
  unfold State.modsTick
  generalize (upto 32).foldl (fun s m => s.modPrep m (s.modAt p0 p1 m 8)) s = s1 at k ⊢
  exact Keeps.ite (Keeps.refl h hc) (Keeps.step k fun a b => foldl_keeps _ (upto 8) _ a b fun t j x y => modsSlot_keeps t p0 p1 j x y)
grind_pattern modsTick_keeps => s.modsTick p0 p1

/-- See State.speedTick. -/
theorem speedTick_keeps (s : State) (c : Nat) (h : s.mem.wf = true) (hc : coresLegal s.cores) :
    (State.speedTick s c).mem.wf = true ∧ coresLegal (State.speedTick s c).cores ∧ (State.speedTick s c).pending = s.pending := by
  grind [State.speedTick]
grind_pattern speedTick_keeps => State.speedTick s c

/-- See State.courseTick. -/
theorem courseTick_keeps (s : State) (h : s.mem.wf = true) (hc : coresLegal s.cores) :
    (State.courseTick s).mem.wf = true ∧ coresLegal (State.courseTick s).cores ∧ (State.courseTick s).pending = s.pending := by
  change Keeps s _
  have k0 : Keeps s { s with ticks := s.ticks + 1 }.gptpTick := gptpTick_keeps { s with ticks := s.ticks + 1 } h hc
  unfold State.courseTick
  generalize { s with ticks := s.ticks + 1 }.gptpTick = s0 at k0 ⊢
  dsimp only
  have k1 := k0.step fun a b => foldl_keeps (fun s c => (s.runTick c).gptpFollow c) (upto 8) s0 a b fun t c x y =>
    Keeps.step (runTick_keeps t c x y) fun x1 y1 => gptpFollow_keeps _ c x1 y1
  generalize (upto 8).foldl (fun s c => (s.runTick c).gptpFollow c) s0 = s1 at k1 ⊢
  have k2 := k1.step fun a b => foldl_keeps (fun s c => s.advance c) (upto 8) s1 a b fun t c x y => advance_keeps t c x y
  generalize (upto 8).foldl (fun s c => s.advance c) s1 = s2 at k2 ⊢
  generalize ((upto 8).map fun c => (s1.course c).vis) = p0
  generalize ((upto 8).map fun c => (s2.course c).vis) = p1
  have k3 := (k2.step fun a b => jointTick_keeps s2 p0 p1 a b).step fun a b => modsTick_keeps _ p0 p1 a b
  generalize (s2.jointTick p0 p1).modsTick p0 p1 = s3 at k3 ⊢
  have k4 := k3.step fun a b => foldl_keeps (fun s c => s.cellTick c) (upto 64) s3 a b fun t c x y => cellTick_keeps t c x y
  generalize (upto 64).foldl (fun s c => s.cellTick c) s3 = s4 at k4 ⊢
  have k5 := k4.step fun a b => foldl_keeps (fun s c => s.speedTick c) (upto 8) s4 a b fun t c x y => speedTick_keeps t c x y
  generalize (upto 8).foldl (fun s c => s.speedTick c) s4 = s5 at k5 ⊢
  exact k5.step fun a b => takeSamples_keeps s5 a b
grind_pattern courseTick_keeps => State.courseTick s

/-- See State.putFlit. -/
theorem putFlit_keeps (s : State) (d : Dir) (ch : Nat) (ty : Nat) (h : s.mem.wf = true) (hc : coresLegal s.cores) :
    (State.putFlit s d ch ty).mem.wf = true ∧ coresLegal (State.putFlit s d ch ty).cores ∧ (State.putFlit s d ch ty).pending = s.pending := by
  grind [State.putFlit]
grind_pattern putFlit_keeps => State.putFlit s d ch ty

/-- See State.jshed. -/
theorem jshed_keeps (s : State) (j : Nat) (h : s.mem.wf = true) (hc : coresLegal s.cores) :
    (State.jshed s j).mem.wf = true ∧ coresLegal (State.jshed s j).cores ∧ (State.jshed s j).pending = s.pending := by
  grind [State.jshed]
grind_pattern jshed_keeps => State.jshed s j

end Sys2Proof.Machine
end

