-- ==== Sys2Proof/Laws/Frame/Reset.lean ====
section
/-! SUPPORT. What the operations of Machine/Reset.lean leave: memory in canonical form and the queue of waiting commands. -/

namespace Sys2Proof.Machine

open Sys2Proof

/-- A core after reset is legal. -/
theorem freshCore_legal (c : CoreId) : Core.legal c (freshCore c) = true := by
  simp only [freshCore, Core.legal]
  by_cases e : c.val < 8 <;> simp [e, nwin, pswLegal, wfld, wbit]
grind_pattern freshCore_legal => freshCore c

/-- A core that starts is legal. -/
theorem startedCore_legal (c : CoreId) (pc : W32) (l : Tab (Option Leaf)) : Core.legal c { freshCore c with pc, run := .running, locked := l } = true := freshCore_legal c

/-- See State.startCore. -/
theorem startCore_keeps (s : State) (c : CoreId) (h : s.mem.wf = true) (hc : coresLegal s.cores) :
    (s.startCore c).mem.wf = true ∧ coresLegal (s.startCore c).cores ∧ (s.startCore c).pending = s.pending := by
  unfold State.startCore
  split
  · exact setCore_keeps s c _ h hc (startedCore_legal c _ _)
  · exact ⟨h, hc, rfl⟩
grind_pattern startCore_keeps => s.startCore c

/-- See State.coreReset. -/
theorem coreReset_keeps (s : State) (c : CoreId) (h : s.mem.wf = true) (hc : coresLegal s.cores) :
    (State.coreReset s c).mem.wf = true ∧ coresLegal (State.coreReset s c).cores ∧ (State.coreReset s c).pending = s.pending := by
  grind [State.coreReset]
grind_pattern coreReset_keeps => State.coreReset s c

/-- See State.startCores. -/
theorem startCores_keeps (s : State) (lo hi : Nat) (h : s.mem.wf = true) (hc : coresLegal s.cores) :
    (State.startCores s lo hi).mem.wf = true ∧ coresLegal (State.startCores s lo hi).cores ∧ (State.startCores s lo hi).pending = s.pending := by
  grind [State.startCores]
grind_pattern startCores_keeps => State.startCores s lo hi

/-- See State.enterAlone. -/
theorem enterAlone_keeps (s : State) (cause : Nat) (h : s.mem.wf = true) (hc : coresLegal s.cores) :
    (State.enterAlone s cause).mem.wf = true ∧ coresLegal (State.enterAlone s cause).cores ∧ (State.enterAlone s cause).pending = s.pending := by
  grind [State.enterAlone]
grind_pattern enterAlone_keeps => State.enterAlone s cause

/-- After the C-die is lost every core is legal. -/
theorem hcFresh_legal (s : State) (hc : coresLegal s.cores) : coresLegal s.hcFresh := by
  intro c
  simp only [State.hcFresh, Fin.getElem_fin, Vector.getElem_ofFn]
  split
  · exact freshCore_legal _
  · exact hc c

/-- An empty table is in canonical form. -/
theorem Tab.wf_nil {α : Type} [DecidableEq α] (d : α) : Tab.wf d [] = true := rfl

/-- See State.cGone. -/
theorem cGone_keeps (s : State) (h : s.mem.wf = true) (hc : coresLegal s.cores) : Keeps s s.cGone := by
  have k : ({ s.mem with ctile := [], eccC := [] } : Mem).wf = true := by
    simp only [Mem.wf, Bool.and_eq_true] at h ⊢
    grind [Tab.wf_nil]
  exact ⟨k, hcFresh_legal s hc, rfl⟩

/-- See State.cLost. -/
theorem cLost_keeps (s : State) (h : s.mem.wf = true) (hc : coresLegal s.cores) : 
    (s.cLost).mem.wf = true ∧ coresLegal (s.cLost).cores ∧ (s.cLost).pending = s.pending := by
  have k1 : Keeps s s.loseBricks.cGone.wakeAll := Keeps.step (Keeps.step (loseBricks_keeps s h hc) fun a b => cGone_keeps _ a b) fun a b => wakeAll_keeps _ a b
  unfold State.cLost
  generalize s.loseBricks.cGone.wakeAll = s2 at k1
  have k2 : Keeps s ((s2.setReg .FHINT_LOCK 0 (s2.reg .FHINT_LOCK 0 &&& 0x0F00)).setFld .ML_STAT 0 15 12 0) :=
    Keeps.step (Keeps.step k1 fun a b => setReg_keeps _ _ _ _ a b) fun a b => setFld_keeps _ _ _ _ _ _ a b
  dsimp only
  generalize (s2.setReg .FHINT_LOCK 0 (s2.reg .FHINT_LOCK 0 &&& 0x0F00)).setFld .ML_STAT 0 15 12 0 = s3 at k2
  have k3 : Keeps s (((s3.setBit .BIMG_STATUS 0 13 false).setBit .BIMG_STATUS 0 9 true).setFld .BIMG_STATUS 0 3 0 4) :=
    Keeps.step (Keeps.step (Keeps.step k2 fun a b => setBit_keeps _ _ _ _ _ a b) fun a b => setBit_keeps _ _ _ _ _ a b)
      fun a b => setFld_keeps _ _ _ _ _ _ a b
  generalize ((s3.setBit .BIMG_STATUS 0 13 false).setBit .BIMG_STATUS 0 9 true).setFld .BIMG_STATUS 0 3 0 4 = s4 at k3
  exact Keeps.step (Keeps.step k3 fun a b => foldl_keeps _ (upto 4) _ a b fun t m p q => setReg_keeps t _ _ _ p q)
    fun a b => setBit_keeps _ _ _ _ _ a b
grind_pattern cLost_keeps => s.cLost

/-- See State.endCompute. -/
theorem endCompute_keeps (s : State) (cause : Nat) (h : s.mem.wf = true) (hc : coresLegal s.cores) :
    (State.endCompute s cause).mem.wf = true ∧ coresLegal (State.endCompute s cause).cores ∧ (State.endCompute s cause).pending = s.pending := by
  grind [State.endCompute]
grind_pattern endCompute_keeps => State.endCompute s cause

/-- See State.raiseRails. -/
theorem raiseRails_keeps (s : State) (h : s.mem.wf = true) (hc : coresLegal s.cores) :
    (State.raiseRails s).mem.wf = true ∧ coresLegal (State.raiseRails s).cores ∧ (State.raiseRails s).pending = s.pending := by
  grind [State.raiseRails]
grind_pattern raiseRails_keeps => State.raiseRails s

/-- See State.tryRaise. -/
theorem tryRaise_keeps (s : State) (h : s.mem.wf = true) (hc : coresLegal s.cores) :
    (State.tryRaise s).mem.wf = true ∧ coresLegal (State.tryRaise s).cores ∧ (State.tryRaise s).pending = s.pending := by
  grind [State.tryRaise]
grind_pattern tryRaise_keeps => State.tryRaise s

/-- See State.railOff. -/
theorem railOff_keeps (s : State) (h : s.mem.wf = true) (hc : coresLegal s.cores) :
    (State.railOff s).mem.wf = true ∧ coresLegal (State.railOff s).cores ∧ (State.railOff s).pending = s.pending := by
  grind [State.railOff]
grind_pattern railOff_keeps => State.railOff s

/-- Memory without the HC near memories is in canonical form. -/
theorem wf_noHcNear (m : Mem) (h : m.wf = true) : ({ m with hcNear := [], eccHc := [] } : Mem).wf = true := by
  simp only [Mem.wf, Bool.and_eq_true] at h ⊢
  grind [Tab.wf_filter, Tab.wf_set, writeBytes_wf, Tab.wf_nil]

/-- See State.removeRails. -/
theorem removeRails_keeps (s : State) (h : s.mem.wf = true) (hc : coresLegal s.cores) :
    s.removeRails.mem.wf = true ∧ coresLegal s.removeRails.cores ∧ s.removeRails.pending = s.pending := by
  unfold State.removeRails
  have k : ∀ p : Power, Keeps s { s with mem := { s.mem with hcNear := [], eccHc := [] }, pw := p } := fun p => ⟨wf_noHcNear _ h, hc, rfl⟩
  replace k := k { s.pw with seq := .removing, cReset := true, hold := s.pw.hold || (s.lay.haveShadow && ¬ s.relayoutEn) }
  dsimp only
  generalize ({ s with mem := { s.mem with hcNear := [], eccHc := [] }, pw := { s.pw with seq := .removing, cReset := true, hold := s.pw.hold || (s.lay.haveShadow && ¬ s.relayoutEn) } } : State) = s1 at k ⊢
  exact Keeps.step (Keeps.step (Keeps.step k fun a b => setBit_keeps _ _ _ _ _ a b) fun a b => setBit_keeps _ _ _ _ _ a b)
    fun a b => railOff_keeps _ a b
grind_pattern removeRails_keeps => s.removeRails

/-- See State.dropC. -/
theorem dropC_keeps (s : State) (cause : Nat) (h : s.mem.wf = true) (hc : coresLegal s.cores) :
    (State.dropC s cause).mem.wf = true ∧ coresLegal (State.dropC s cause).cores ∧ (State.dropC s cause).pending = s.pending := by
  grind [State.dropC]
grind_pattern dropC_keeps => State.dropC s cause

/-- The tail of State.railsUp. -/
theorem railsUp_part (s : State) (temps : List (Option Word)) (h : s.mem.wf = true) (hc : coresLegal s.cores) :
    Keeps s (if ¬ s.cWanted ∧ ¬ s.pw.netRaised then s.dropC 2
  else if s.bit .FKILN_STAT 0 15 ∧ s.tooHot temps then
    (({ s with pw := { s.pw with coolWait := true } }).setBit .FKILN_STAT 0 14 true).dropC 4
  else
    let s3 := (s.setBit .FKILN_STAT 0 15 false).setFld .SYS_STAT 0 3 0 6
    { s3 with pw := { s3.pw with cReset := false } }) := by
  split
  · exact dropC_keeps _ _ h hc
  · split
    · have k : Keeps s { s with pw := { s.pw with coolWait := true } } := ⟨h, hc, rfl⟩
      generalize ({ s with pw := { s.pw with coolWait := true } } : State) = s3 at k ⊢
      exact Keeps.step (Keeps.step k fun a b => setBit_keeps _ _ _ _ _ a b) fun a b => dropC_keeps _ _ a b
    · have k : Keeps s ((s.setBit .FKILN_STAT 0 15 false).setFld .SYS_STAT 0 3 0 6) :=
        Keeps.step (Keeps.step (Keeps.refl h hc) fun a b => setBit_keeps _ _ _ _ _ a b) fun a b => setFld_keeps _ _ _ _ _ _ a b
      dsimp only
      generalize (s.setBit .FKILN_STAT 0 15 false).setFld .SYS_STAT 0 3 0 6 = s3 at k ⊢
      exact ⟨k.1, k.2.1, k.2.2⟩

/-- See State.railsUp. -/
theorem railsUp_keeps (s : State) (temps : List (Option Word)) (h : s.mem.wf = true) (hc : coresLegal s.cores) :
    (s.railsUp temps).mem.wf = true ∧ coresLegal (s.railsUp temps).cores ∧ (s.railsUp temps).pending = s.pending := by
  unfold State.railsUp
  have k : Keeps s { s with mem := { s.mem with hcNear := [], eccHc := [] }, pw := { s.pw with seq := .idle } } := ⟨wf_noHcNear _ h, hc, rfl⟩
  dsimp only
  generalize ({ s with mem := { s.mem with hcNear := [], eccHc := [] }, pw := { s.pw with seq := .idle } } : State) = s1 at k ⊢
  have k2 : Keeps s ((s1.setBit .SYS_RAIL 0 14 true).setBit .SYS_RAIL 0 13 false) :=
    Keeps.step (Keeps.step k fun a b => setBit_keeps _ _ _ _ _ a b) fun a b => setBit_keeps _ _ _ _ _ a b
  generalize (s1.setBit .SYS_RAIL 0 14 true).setBit .SYS_RAIL 0 13 false = s2 at k2 ⊢
  exact Keeps.step k2 fun a b => railsUp_part s2 temps a b
grind_pattern railsUp_keeps => s.railsUp temps

/-- See State.writeRail. -/
theorem writeRail_keeps (s : State) (v : Word) (h : s.mem.wf = true) (hc : coresLegal s.cores) :
    (State.writeRail s v).mem.wf = true ∧ coresLegal (State.writeRail s v).cores ∧ (State.writeRail s v).pending = s.pending := by
  grind [State.writeRail]
grind_pattern writeRail_keeps => State.writeRail s v

/-- See State.trip. -/
theorem trip_keeps (s : State) (z k : Nat) (h : s.mem.wf = true) (hc : coresLegal s.cores) :
    (State.trip s z k).mem.wf = true ∧ coresLegal (State.trip s z k).cores ∧ (State.trip s z k).pending = s.pending := by
  grind [State.trip]
grind_pattern trip_keeps => State.trip s z k

/-- Memory of which the flash alone is left is in canonical form. -/
theorem wf_flash (m : Mem) (h : m.wf = true) : ({ flash := m.flash } : Mem).wf = true := by
  simp only [Mem.wf, Bool.and_eq_true] at h ⊢
  grind [Tab.wf_filter, Tab.wf_set, writeBytes_wf, Tab.wf_nil]

/-- The cores at reset are legal. -/
theorem reset_cores : coresLegal State.reset.cores := by
  intro c; revert c; decide

/-- See State.wiped. -/
theorem wiped_keeps (s : State) (h : s.mem.wf = true) :
    s.wiped.mem.wf = true ∧ coresLegal s.wiped.cores ∧ s.wiped.pending = s.pending := ⟨wf_flash _ h, reset_cores, rfl⟩
grind_pattern wiped_keeps => s.wiped

/-- The tail of State.warmReset. -/
theorem warmReset_part (s s3 : State) (c : Prop) [Decidable c] (k : Keeps s s3) :
    Keeps s (if c then
    let (back, s4) := s3.drawBit
    if back then s4 else ((s4.setBit .SYS_STAT 0 12 true).setBit .SYS_CLK 0 14 true).setBit .SYS_CLK 0 13 true
  else s3) := by
  have k2 : Keeps s s3.drawBit.2 := Keeps.step k fun a b => drawBit_keeps _ a b
  generalize s3.drawBit = r at k2 ⊢
  obtain ⟨back, s4⟩ := r
  split
  · dsimp only at k2 ⊢
    split
    · exact k2
    · exact Keeps.step (Keeps.step (Keeps.step k2 fun a b => setBit_keeps _ _ _ _ _ a b) fun a b => setBit_keeps _ _ _ _ _ a b)
        fun a b => setBit_keeps _ _ _ _ _ a b
  · exact k

/-- See State.warmReset. -/
theorem warmReset_keeps (s : State) (kind : ResetKind) (near : Bool) (h : s.mem.wf = true) (_hc : coresLegal s.cores) :
    (s.warmReset kind near).mem.wf = true ∧ coresLegal (s.warmReset kind near).cores ∧ (s.warmReset kind near).pending = s.pending := by
  have hf : Tab.wf 0 (if near then s.mem.hfNear else []) = true := by
    simp only [Mem.wf, Bool.and_eq_true] at h
    split
    · grind
    · rfl
  have he : Tab.wf .clean (if near then s.mem.eccHf else []) = true := by
    simp only [Mem.wf, Bool.and_eq_true] at h
    split
    · grind
    · rfl
  have k : ∀ (r : Tab Word) (l : Laying) (p : Power) (t : Tab Bool),
      Keeps s { s.wiped with regs := r, mem := { s.wiped.mem with hfNear := if near then s.mem.hfNear else [], eccHf := if near then s.mem.eccHf else [] }, lay := l, pw := p, tripped := t } := by
    intro r l p t
    obtain ⟨a, b, e⟩ := wiped_keeps s h
    refine ⟨?_, b, e⟩
    simp only [Mem.wf, Bool.and_eq_true] at a ⊢
    grind [Tab.wf_filter, Tab.wf_set, writeBytes_wf, Tab.wf_nil]
  replace k := k (s.regs.filter fun e => alwaysOn.contains e.1)
    { s.wiped.lay with sealedC := s.lay.sealedC, sealedF := s.lay.sealedF }
    { s.wiped.pw with resetting := some kind, coolWait := (decide (kind = .field) : Bool) && s.pw.coolWait } s.tripped
  unfold State.warmReset
  dsimp only
  generalize ({ s.wiped with
      regs := s.regs.filter fun e => alwaysOn.contains e.1
      mem := { s.wiped.mem with hfNear := if near then s.mem.hfNear else [], eccHf := if near then s.mem.eccHf else [] }
      lay := { s.wiped.lay with sealedC := s.lay.sealedC, sealedF := s.lay.sealedF }
      pw := { s.wiped.pw with resetting := some kind, coolWait := (decide (kind = .field) : Bool) && s.pw.coolWait }
      tripped := s.tripped } : State) = s1 at k ⊢
  have k2 : Keeps s ((s1.setBit .SYS_CLK 0 15 (s.bit .SYS_CLK 0 15)).setFld .SYS_STAT 0 3 0 2) :=
    Keeps.step (Keeps.step k fun a b => setBit_keeps _ _ _ _ _ a b) fun a b => setFld_keeps _ _ _ _ _ _ a b
  generalize (s1.setBit .SYS_CLK 0 15 (s.bit .SYS_CLK 0 15)).setFld .SYS_STAT 0 3 0 2 = s2 at k2 ⊢
  refine warmReset_part s _ _ ?_
  split
  · exact Keeps.step (Keeps.step k2 fun a b => setReg_keeps _ _ _ _ a b) fun a b => setReg_keeps _ _ _ _ a b
  · exact k2
grind_pattern warmReset_keeps => s.warmReset kind near

/-- See State.cause. -/
theorem cause_keeps (s : State) (b : Nat) (h : s.mem.wf = true) (hc : coresLegal s.cores) :
    (State.cause s b).mem.wf = true ∧ coresLegal (State.cause s b).cores ∧ (State.cause s b).pending = s.pending := by
  grind [State.cause]
grind_pattern cause_keeps => State.cause s b

/-- See State.request. -/
theorem request_keeps (s : State) (k : ResetKind) (f : State → State) (h : s.mem.wf = true) (hc : coresLegal s.cores)
    (hf : (f s).mem.wf = true ∧ coresLegal (f s).cores ∧ (f s).pending = s.pending) :
    (s.request k f).mem.wf = true ∧ coresLegal (s.request k f).cores ∧ (s.request k f).pending = s.pending := by
  unfold State.request
  split
  · split
    · exact hf
    · exact ⟨h, hc, rfl⟩
  · exact hf

/-- See State.warmRequest. -/
theorem warmRequest_keeps (s : State) (k : ResetKind) (near : Bool) (h : s.mem.wf = true) (hc : coresLegal s.cores) :
    (s.warmRequest k near).mem.wf = true ∧ coresLegal (s.warmRequest k near).cores ∧ (s.warmRequest k near).pending = s.pending := by
  unfold State.warmRequest
  split
  · exact ⟨h, hc, rfl⟩
  · exact request_keeps s k _ h hc (warmReset_keeps s k near h hc)
grind_pattern warmRequest_keeps => s.warmRequest k near

/-- See State.cDieReset. -/
theorem cDieReset_keeps (s : State) (h : s.mem.wf = true) (hc : coresLegal s.cores) :
    s.cDieReset.mem.wf = true ∧ coresLegal s.cDieReset.cores ∧ s.cDieReset.pending = s.pending := by
  unfold State.cDieReset
  refine request_keeps s _ _ h hc ?_
  split
  · exact ⟨h, hc, rfl⟩
  · split
    · have k : Keeps s ((s.endCompute 6).setFld .SYS_STAT 0 3 0 6) :=
        Keeps.step (Keeps.step (Keeps.refl h hc) fun a b => endCompute_keeps _ _ a b) fun a b => setFld_keeps _ _ _ _ _ _ a b
      dsimp only
      generalize (s.endCompute 6).setFld .SYS_STAT 0 3 0 6 = s3 at k ⊢
      exact ⟨k.1, k.2.1, k.2.2⟩
    · have k : Keeps s { s with pw := { s.pw with hold := true } } := ⟨h, hc, rfl⟩
      generalize ({ s with pw := { s.pw with hold := true } } : State) = s3 at k ⊢
      exact Keeps.step k fun a b => dropC_keeps _ _ a b
grind_pattern cDieReset_keeps => s.cDieReset

/-- See State.writeRstCmd. -/
theorem writeRstCmd_keeps (s : State) (v : Word) (h : s.mem.wf = true) (hc : coresLegal s.cores) :
    (State.writeRstCmd s v).mem.wf = true ∧ coresLegal (State.writeRstCmd s v).cores ∧ (State.writeRstCmd s v).pending = s.pending := by
  grind [State.writeRstCmd]
grind_pattern writeRstCmd_keeps => State.writeRstCmd s v

/-- See State.coreRequest. -/
theorem coreRequest_keeps (s : State) (c : CoreId) (h : s.mem.wf = true) (hc : coresLegal s.cores) :
    (State.coreRequest s c).mem.wf = true ∧ coresLegal (State.coreRequest s c).cores ∧ (State.coreRequest s c).pending = s.pending := by
  grind [State.coreRequest]
grind_pattern coreRequest_keeps => State.coreRequest s c

/-- See State.writeCrst. -/
theorem writeCrst_keeps (s : State) (v : Word) (h : s.mem.wf = true) (hc : coresLegal s.cores) :
    (State.writeCrst s v).mem.wf = true ∧ coresLegal (State.writeCrst s v).cores ∧ (State.writeCrst s v).pending = s.pending := by
  grind [State.writeCrst]
grind_pattern writeCrst_keeps => State.writeCrst s v

/-- See State.writeCrun. -/
theorem writeCrun_keeps (s : State) (v : Word) (h : s.mem.wf = true) (hc : coresLegal s.cores) :
    (State.writeCrun s v).mem.wf = true ∧ coresLegal (State.writeCrun s v).cores ∧ (State.writeCrun s v).pending = s.pending := by
  grind [State.writeCrun]
grind_pattern writeCrun_keeps => State.writeCrun s v

/-- See State.writeWdt. -/
theorem writeWdt_keeps (s : State) (c : Nat) (v : Word) (h : s.mem.wf = true) (hc : coresLegal s.cores) :
    (State.writeWdt s c v).mem.wf = true ∧ coresLegal (State.writeWdt s c v).cores ∧ (State.writeWdt s c v).pending = s.pending := by
  grind [State.writeWdt]
grind_pattern writeWdt_keeps => State.writeWdt s c v

/-- See State.kick. -/
theorem kick_keeps (s : State) (c : CoreId) (v : Word) (h : s.mem.wf = true) (hc : coresLegal s.cores) :
    (State.kick s c v).mem.wf = true ∧ coresLegal (State.kick s c v).cores ∧ (State.kick s c v).pending = s.pending := by
  grind [State.kick]
grind_pattern kick_keeps => State.kick s c v

/-- See State.wake. -/
theorem wake_keeps (s : State) (src : Nat) (h : s.mem.wf = true) (hc : coresLegal s.cores) :
    (State.wake s src).mem.wf = true ∧ coresLegal (State.wake s src).cores ∧ (State.wake s src).pending = s.pending := by
  grind [State.wake]
grind_pattern wake_keeps => State.wake s src

/-- See State.wakeSource. -/
theorem wakeSource_keeps (s : State) (src : Nat) (h : s.mem.wf = true) (hc : coresLegal s.cores) :
    (State.wakeSource s src).mem.wf = true ∧ coresLegal (State.wakeSource s src).cores ∧ (State.wakeSource s src).pending = s.pending := by
  grind [State.wakeSource]
grind_pattern wakeSource_keeps => State.wakeSource s src

/-- See State.readRtcSub. -/
theorem readRtcSub_keeps (s : State) (h : s.mem.wf = true) (hc : coresLegal s.cores) :
    (State.readRtcSub s).2.mem.wf = true ∧ coresLegal (State.readRtcSub s).2.cores ∧ (State.readRtcSub s).2.pending = s.pending := by
  grind [State.readRtcSub]
grind_pattern readRtcSub_keeps => State.readRtcSub s

/-- See State.writePark. -/
theorem writePark_keeps (s : State) (v : Word) (h : s.mem.wf = true) (hc : coresLegal s.cores) :
    (State.writePark s v).mem.wf = true ∧ coresLegal (State.writePark s v).cores ∧ (State.writePark s v).pending = s.pending := by
  grind [State.writePark]
grind_pattern writePark_keeps => State.writePark s v

end Sys2Proof.Machine
end

