-- ==== Sys2Proof/Laws/Frame/Mortar.lean ====
section
/-! SUPPORT. What the operations of Machine/Mortar.lean leave: memory in canonical form and the queue of waiting commands. -/

namespace Sys2Proof.Machine

open Sys2Proof

/-- See State.setLink. -/
theorem setLink_keeps (s : State) (d : Dir) (l : LinkDir) (h : s.mem.wf = true) (hc : coresLegal s.cores) :
    (State.setLink s d l).mem.wf = true ∧ coresLegal (State.setLink s d l).cores ∧ (State.setLink s d l).pending = s.pending := by
  unfold State.setLink; grind
grind_pattern setLink_keeps => State.setLink s d l

/-- See State.sendLink. -/
theorem sendLink_keeps (s : State) (d : Dir) (h : s.mem.wf = true) (hc : coresLegal s.cores) :
    (State.sendLink s d).mem.wf = true ∧ coresLegal (State.sendLink s d).cores ∧ (State.sendLink s d).pending = s.pending := by
  grind [State.sendLink]
grind_pattern sendLink_keeps => State.sendLink s d

/-- See State.mlInt. -/
theorem mlInt_keeps (s : State) (b : Nat) (h : s.mem.wf = true) (hc : coresLegal s.cores) :
    (State.mlInt s b).mem.wf = true ∧ coresLegal (State.mlInt s b).cores ∧ (State.mlInt s b).pending = s.pending := by
  grind [State.mlInt]
grind_pattern mlInt_keeps => State.mlInt s b

/-- See State.linkDown. -/
theorem linkDown_keeps (s : State) (h : s.mem.wf = true) (hc : coresLegal s.cores) :
    (State.linkDown s).mem.wf = true ∧ coresLegal (State.linkDown s).cores ∧ (State.linkDown s).pending = s.pending := by
  grind [State.linkDown]
grind_pattern linkDown_keeps => State.linkDown s

/-- See State.retrain. -/
theorem retrain_keeps (s : State) (h : s.mem.wf = true) (hc : coresLegal s.cores) :
    (State.retrain s).mem.wf = true ∧ coresLegal (State.retrain s).cores ∧ (State.retrain s).pending = s.pending := by
  grind [State.retrain]
grind_pattern retrain_keeps => State.retrain s

/-- See State.laneErrors. -/
theorem laneErrors_keeps (s : State) (d : Dir) (errs : List Nat) (h : s.mem.wf = true) (hc : coresLegal s.cores) :
    (State.laneErrors s d errs).mem.wf = true ∧ coresLegal (State.laneErrors s d errs).cores ∧ (State.laneErrors s d errs).pending = s.pending := by
  unfold State.laneErrors; grind
grind_pattern laneErrors_keeps => State.laneErrors s d errs

/-- See State.crcFail. -/
theorem crcFail_keeps (s : State) (d : Dir) (h : s.mem.wf = true) (hc : coresLegal s.cores) :
    (State.crcFail s d).mem.wf = true ∧ coresLegal (State.crcFail s d).cores ∧ (State.crcFail s d).pending = s.pending := by
  grind [State.crcFail]
grind_pattern crcFail_keeps => State.crcFail s d

/-- See State.linkFlit. -/
theorem linkFlit_keeps (s : State) (d : Dir) (p : BitVec 256) (h : s.mem.wf = true) (hc : coresLegal s.cores) :
    (State.linkFlit s d p).mem.wf = true ∧ coresLegal (State.linkFlit s d p).cores ∧ (State.linkFlit s d p).pending = s.pending := by
  grind [State.linkFlit]
grind_pattern linkFlit_keeps => State.linkFlit s d p

/-- See State.markLane. -/
theorem markLane_keeps (s : State) (l : LaneRef) (live : Bool) (src : Nat) (h : s.mem.wf = true) (hc : coresLegal s.cores) :
    (State.markLane s l live src).mem.wf = true ∧ coresLegal (State.markLane s l live src).cores ∧ (State.markLane s l live src).pending = s.pending := by
  grind [State.markLane]
grind_pattern markLane_keeps => State.markLane s l live src

/-- See State.linkUpNow. -/
theorem linkUpNow_keeps (s : State) (h : s.mem.wf = true) (hc : coresLegal s.cores) :
    (State.linkUpNow s).mem.wf = true ∧ coresLegal (State.linkUpNow s).cores ∧ (State.linkUpNow s).pending = s.pending := by
  grind [State.linkUpNow]
grind_pattern linkUpNow_keeps => State.linkUpNow s

/-- See State.laneFault. -/
theorem laneFault_keeps (s : State) (l : LaneRef) (h : s.mem.wf = true) (hc : coresLegal s.cores) :
    (State.laneFault s l).mem.wf = true ∧ coresLegal (State.laneFault s l).cores ∧ (State.laneFault s l).pending = s.pending := by
  grind [State.laneFault]
grind_pattern laneFault_keeps => State.laneFault s l

/-- See State.sprInt. -/
theorem sprInt_keeps (s : State) (b : Nat) (h : s.mem.wf = true) (hc : coresLegal s.cores) :
    (State.sprInt s b).mem.wf = true ∧ coresLegal (State.sprInt s b).cores ∧ (State.sprInt s b).pending = s.pending := by
  grind [State.sprInt]
grind_pattern sprInt_keeps => State.sprInt s b

/-- See State.setWear. -/
theorem setWear_keeps (s : State) (n : Nat) (h : s.mem.wf = true) (hc : coresLegal s.cores) :
    (State.setWear s n).mem.wf = true ∧ coresLegal (State.setWear s n).cores ∧ (State.setWear s n).pending = s.pending := by
  grind [State.setWear]
grind_pattern setWear_keeps => State.setWear s n

/-- See State.wearAlarm. -/
theorem wearAlarm_keeps (s : State) (z : Nat) (h : s.mem.wf = true) (hc : coresLegal s.cores) :
    (State.wearAlarm s z).mem.wf = true ∧ coresLegal (State.wearAlarm s z).cores ∧ (State.wearAlarm s z).pending = s.pending := by
  grind [State.wearAlarm]
grind_pattern wearAlarm_keeps => State.wearAlarm s z

/-- See State.writeMigCmd. -/
theorem writeMigCmd_keeps (s : State) (v : Word) (h : s.mem.wf = true) (hc : coresLegal s.cores) :
    (State.writeMigCmd s v).mem.wf = true ∧ coresLegal (State.writeMigCmd s v).cores ∧ (State.writeMigCmd s v).pending = s.pending := by
  grind [State.writeMigCmd]
grind_pattern writeMigCmd_keeps => State.writeMigCmd s v

/-- See State.bindTile. -/
theorem bindTile_keeps (s : State) (w f sp : Nat) (src : Byte) (h : s.mem.wf = true) (hc : coresLegal s.cores) :
    (s.bindTile w f sp src).mem.wf = true ∧ coresLegal (s.bindTile w f sp src).cores ∧ (s.bindTile w f sp src).pending = s.pending := by
  have k : ∀ (p q : Nat × _ → Bool) (x : _), Keeps s { s with mem := { s.mem with ctile := s.mem.ctile.filter p, eccC := s.mem.eccC.filter q }, spr := x } := by
    intro p q x
    refine ⟨?_, hc, rfl⟩
    simp only [Mem.wf, Bool.and_eq_true] at h ⊢
    grind [Tab.wf_filter, Tab.wf_set, writeBytes_wf, Tab.wf_nil]
  replace k := k (fun e => decide (e.1 / 262144 ≠ f)) (fun e => decide (e.1 / 32768 ≠ f))
    { s.spr with bindC := Tab.set (some w) w (some sp) s.spr.bindC, failed := ⟨1, BitVec.ofNat 9 f⟩ :: s.spr.failed }
  exact Keeps.step (Keeps.step k fun a b => setReg_keeps _ _ _ _ a b) fun a b => addEvent_keeps _ _ _ _ _ _ a b
grind_pattern bindTile_keeps => s.bindTile w f sp src

/-- See State.copyWord. -/
theorem copyWord_keeps (s : State) (g : Migration) (i : Nat) (h : s.mem.wf = true) (hc : coresLegal s.cores) :
    (s.copyWord g i).mem.wf = true ∧ coresLegal (s.copyWord g i).cores ∧ (s.copyWord g i).pending = s.pending := by
  have k : ∀ (t : State) (a n : Nat) (l : List Byte) (v : _), Keeps s t →
      Keeps s { t with mem := { t.mem with ctile := writeBytes 0 t.mem.ctile a l, eccC := Tab.set .clean n v t.mem.eccC } } := by
    intro t a n l v ⟨h, hc, e⟩
    refine ⟨?_, hc, e⟩
    simp only [Mem.wf, Bool.and_eq_true] at h ⊢
    grind [Tab.wf_filter, Tab.wf_set, writeBytes_wf, Tab.wf_nil]
  unfold State.copyWord
  dsimp only
  split
  · exact ⟨h, hc, rfl⟩
  · refine k _ _ _ _ _ ?_
    split
    · exact count_keeps _ _ _ _ h hc
    · exact ⟨h, hc, rfl⟩
grind_pattern copyWord_keeps => s.copyWord g i

/-- See State.record. -/
theorem record_keeps (s : State) (e : RecEvent) (h : s.mem.wf = true) (hc : coresLegal s.cores) :
    (State.record s e).mem.wf = true ∧ coresLegal (State.record s e).cores ∧ (State.record s e).pending = s.pending := by
  grind [State.record]
grind_pattern record_keeps => State.record s e

/-- See State.writeSprReq. -/
theorem writeSprReq_keeps (s : State) (v : Word) (h : s.mem.wf = true) (hc : coresLegal s.cores) :
    (State.writeSprReq s v).mem.wf = true ∧ coresLegal (State.writeSprReq s v).cores ∧ (State.writeSprReq s v).pending = s.pending := by
  grind [State.writeSprReq]
grind_pattern writeSprReq_keeps => State.writeSprReq s v

/-- See State.recordBist. -/
theorem recordBist_keeps (s : State) (fails : List UnitRef) (h : s.mem.wf = true) (hc : coresLegal s.cores) :
    (State.recordBist s fails).mem.wf = true ∧ coresLegal (State.recordBist s fails).cores ∧ (State.recordBist s fails).pending = s.pending := by
  grind [State.recordBist]
grind_pattern recordBist_keeps => State.recordBist s fails

end Sys2Proof.Machine
end

