-- ==== Sys2Proof/Laws/Frame/Switch.lean ====
section
/-! SUPPORT. What the operations of Machine/Switch.lean leave: memory in canonical form and the queue of waiting commands. -/

namespace Sys2Proof.Machine

open Sys2Proof

/-- See State.netInt. -/
theorem netInt_keeps (s : State) (b : Nat) (h : s.mem.wf = true) (hc : coresLegal s.cores) :
    (State.netInt s b).mem.wf = true ∧ coresLegal (State.netInt s b).cores ∧ (State.netInt s b).pending = s.pending := by
  grind [State.netInt]
grind_pattern netInt_keeps => State.netInt s b

/-- See State.fnetInt. -/
theorem fnetInt_keeps (s : State) (b : Nat) (h : s.mem.wf = true) (hc : coresLegal s.cores) :
    (State.fnetInt s b).mem.wf = true ∧ coresLegal (State.fnetInt s b).cores ∧ (State.fnetInt s b).pending = s.pending := by
  grind [State.fnetInt]
grind_pattern fnetInt_keeps => State.fnetInt s b

/-- See State.tally. -/
theorem tally_keeps (s : State) (i : Nat) (n : Nat) (h : s.mem.wf = true) (hc : coresLegal s.cores) :
    (State.tally s i n).mem.wf = true ∧ coresLegal (State.tally s i n).cores ∧ (State.tally s i n).pending = s.pending := by
  grind [State.tally]
grind_pattern tally_keeps => State.tally s i n

/-- See State.portTally. -/
theorem portTally_keeps (s : State) (p n : Nat) (k : Nat) (h : s.mem.wf = true) (hc : coresLegal s.cores) :
    (State.portTally s p n k).mem.wf = true ∧ coresLegal (State.portTally s p n k).cores ∧ (State.portTally s p n k).pending = s.pending := by
  grind [State.portTally]
grind_pattern portTally_keeps => State.portTally s p n k

/-- See State.dropTally. -/
theorem dropTally_keeps (s : State) (p n : Nat) (h : s.mem.wf = true) (hc : coresLegal s.cores) :
    (State.dropTally s p n).mem.wf = true ∧ coresLegal (State.dropTally s p n).cores ∧ (State.dropTally s p n).pending = s.pending := by
  grind [State.dropTally]
grind_pattern dropTally_keeps => State.dropTally s p n

/-- See State.setRos. -/
theorem setRos_keeps (s : State) (i : Nat) (e : BitVec 128) (h : s.mem.wf = true) (hc : coresLegal s.cores) :
    (State.setRos s i e).mem.wf = true ∧ coresLegal (State.setRos s i e).cores ∧ (State.setRos s i e).pending = s.pending := by
  grind [State.setRos]
grind_pattern setRos_keeps => State.setRos s i e

/-- See State.rosEvent. -/
theorem rosEvent_keeps (s : State) (kind ix port : Nat) (h : s.mem.wf = true) (hc : coresLegal s.cores) :
    (State.rosEvent s kind ix port).mem.wf = true ∧ coresLegal (State.rosEvent s kind ix port).cores ∧ (State.rosEvent s kind ix port).pending = s.pending := by
  grind [State.rosEvent]
grind_pattern rosEvent_keeps => State.rosEvent s kind ix port

/-- See State.learnPartner. -/
theorem learnPartner_keeps (s : State) (p : Nat) (e : BitVec 128) (h : s.mem.wf = true) (hc : coresLegal s.cores) :
    (s.learnPartner p e).2.mem.wf = true ∧ coresLegal (s.learnPartner p e).2.cores ∧ (s.learnPartner p e).2.pending = s.pending := by
  unfold State.learnPartner
  have k : Keeps s s.draw.2 := draw_keeps s h hc
  dsimp only
  split
  · exact ⟨h, hc, rfl⟩
  · generalize s.draw = r at k ⊢
    obtain ⟨n, s1⟩ := r
    exact Keeps.step (Keeps.step k fun a b => setRos_keeps _ _ _ a b) fun a b => rosEvent_keeps _ _ _ _ a b
grind_pattern learnPartner_keeps => s.learnPartner p e

/-- See State.source. -/
theorem source_keeps (s : State) (p : Nat) (b : List Byte) (node : Option (BitVec 4)) (h : s.mem.wf = true) (hc : coresLegal s.cores) :
    (State.source s p b node).2.mem.wf = true ∧ coresLegal (State.source s p b node).2.cores ∧ (State.source s p b node).2.pending = s.pending := by
  grind [State.source]
grind_pattern source_keeps => State.source s p b node

/-- See State.setGate. -/
theorem setGate_keeps (s : State) (p : Nat) (g : Gate) (h : s.mem.wf = true) (hc : coresLegal s.cores) :
    (State.setGate s p g).mem.wf = true ∧ coresLegal (State.setGate s p g).cores ∧ (State.setGate s p g).pending = s.pending := by
  grind [State.setGate]
grind_pattern setGate_keeps => State.setGate s p g

/-- See State.gates. -/
theorem gates_keeps (s : State) (p : Nat) (h : s.mem.wf = true) (hc : coresLegal s.cores) :
    (State.gates s p).2.mem.wf = true ∧ coresLegal (State.gates s p).2.cores ∧ (State.gates s p).2.pending = s.pending := by
  grind [State.gates]
grind_pattern gates_keeps => State.gates s p

/-- See State.setSwQueue. -/
theorem setSwQueue_keeps (s : State) (q : Nat) (l : List Nat) (h : s.mem.wf = true) (hc : coresLegal s.cores) :
    (State.setSwQueue s q l).mem.wf = true ∧ coresLegal (State.setSwQueue s q l).cores ∧ (State.setSwQueue s q l).pending = s.pending := by
  grind [State.setSwQueue]
grind_pattern setSwQueue_keeps => State.setSwQueue s q l

/-- See State.accrue. -/
theorem accrue_keeps (s : State) (p : Nat) (h : s.mem.wf = true) (hc : coresLegal s.cores) :
    (State.accrue s p).mem.wf = true ∧ coresLegal (State.accrue s p).cores ∧ (State.accrue s p).pending = s.pending := by
  grind [State.accrue]
grind_pattern accrue_keeps => State.accrue s p

/-- See State.accruePorts. -/
theorem accruePorts_keeps (s : State) (h : s.mem.wf = true) (hc : coresLegal s.cores) :
    (State.accruePorts s).mem.wf = true ∧ coresLegal (State.accruePorts s).cores ∧ (State.accruePorts s).pending = s.pending := by
  grind [State.accruePorts]
grind_pattern accruePorts_keeps => State.accruePorts s

/-- See State.freeFrame. -/
theorem freeFrame_keeps (s : State) (id : Nat) (h : s.mem.wf = true) (hc : coresLegal s.cores) :
    (State.freeFrame s id).mem.wf = true ∧ coresLegal (State.freeFrame s id).cores ∧ (State.freeFrame s id).pending = s.pending := by
  grind [State.freeFrame]
grind_pattern freeFrame_keeps => State.freeFrame s id

/-- See State.admitPort. -/
theorem admitPort_keeps (s : State) (id c cls p : Nat) (h : s.mem.wf = true) (hc : coresLegal s.cores) :
    (State.admitPort s id c cls p).mem.wf = true ∧ coresLegal (State.admitPort s id c cls p).cores ∧ (State.admitPort s id c cls p).pending = s.pending := by
  grind [State.admitPort]
grind_pattern admitPort_keeps => State.admitPort s id c cls p

/-- See State.enterQueues. -/
theorem enterQueues_keeps (s : State) (f : SwFrame) (ports : List Nat) (h : s.mem.wf = true) (hc : coresLegal s.cores) :
    (s.enterQueues f ports).mem.wf = true ∧ coresLegal (s.enterQueues f ports).cores ∧ (s.enterQueues f ports).pending = s.pending := by
  unfold State.enterQueues
  dsimp only
  split
  · exact dropTally_keeps _ _ _ h hc
  · have k : ∀ x, Keeps s { s with net := x } := fun x => ⟨h, hc, rfl⟩
    replace k := k { s.net with store := s.net.store ++ [{ f with id := s.net.nextId }], nextId := s.net.nextId + 1 }
    generalize ({ s with net := { s.net with store := s.net.store ++ [{ f with id := s.net.nextId }], nextId := s.net.nextId + 1 } } : State) = s1 at k ⊢
    have k2 : Keeps s (ports.foldl (fun t p => t.admitPort s.net.nextId (cellsOf f.bytes) f.cls p) s1) :=
      Keeps.step k fun a b => foldl_keeps _ ports _ a b fun t p q r => admitPort_keeps t _ _ _ _ q r
    exact Keeps.step k2 fun a b => freeFrame_keeps _ _ a b
grind_pattern enterQueues_keeps => s.enterQueues f ports

/-- See State.flushPort. -/
theorem flushPort_keeps (s : State) (p : Nat) (h : s.mem.wf = true) (hc : coresLegal s.cores) :
    (State.flushPort s p).mem.wf = true ∧ coresLegal (State.flushPort s p).cores ∧ (State.flushPort s p).pending = s.pending := by
  grind [State.flushPort]
grind_pattern flushPort_keeps => State.flushPort s p

/-- See State.metered. -/
theorem metered_keeps (s : State) (m n : Nat) (h : s.mem.wf = true) (hc : coresLegal s.cores) :
    (State.metered s m n).2.mem.wf = true ∧ coresLegal (State.metered s m n).2.cores ∧ (State.metered s m n).2.pending = s.pending := by
  unfold State.metered
  dsimp only
  (repeat' split) <;> exact ⟨h, hc, rfl⟩
grind_pattern metered_keeps => State.metered s m n

/-- See State.filtTally. -/
theorem filtTally_keeps (s : State) (f k : Nat) (h : s.mem.wf = true) (hc : coresLegal s.cores) :
    (State.filtTally s f k).mem.wf = true ∧ coresLegal (State.filtTally s f k).cores ∧ (State.filtTally s f k).pending = s.pending := by
  grind [State.filtTally]
grind_pattern filtTally_keeps => State.filtTally s f k

/-- See State.police. -/
theorem police_keeps (s : State) (dest : Option Nat) (f : SwFrame) (h : s.mem.wf = true) (hc : coresLegal s.cores) :
    (State.police s dest f).2.mem.wf = true ∧ coresLegal (State.police s dest f).2.cores ∧ (State.police s dest f).2.pending = s.pending := by
  grind [State.police]
grind_pattern police_keeps => State.police s dest f

/-- See State.setFrer. -/
theorem setFrer_keeps (s : State) (g : Nat) (x : Frer) (h : s.mem.wf = true) (hc : coresLegal s.cores) :
    (State.setFrer s g x).mem.wf = true ∧ coresLegal (State.setFrer s g x).cores ∧ (State.setFrer s g x).pending = s.pending := by
  grind [State.setFrer]
grind_pattern setFrer_keeps => State.setFrer s g x

/-- See State.frerTally. -/
theorem frerTally_keeps (s : State) (g k : Nat) (n : Nat) (h : s.mem.wf = true) (hc : coresLegal s.cores) :
    (State.frerTally s g k n).mem.wf = true ∧ coresLegal (State.frerTally s g k n).cores ∧ (State.frerTally s g k n).pending = s.pending := by
  grind [State.frerTally]
grind_pattern frerTally_keeps => State.frerTally s g k n

/-- See State.recover. -/
theorem recover_keeps (s : State) (g h : Nat) (q : Word) (hm : s.mem.wf = true) (hc : coresLegal s.cores) :
    (State.recover s g h q).2.mem.wf = true ∧ coresLegal (State.recover s g h q).2.cores ∧ (State.recover s g h q).2.pending = s.pending := by
  grind [State.recover]
grind_pattern recover_keeps => State.recover s g h q

/-- See State.sequence. -/
theorem sequence_keeps (s : State) (filt : Option (Nat × BitVec 128)) (f : SwFrame) (h : s.mem.wf = true) (hc : coresLegal s.cores) :
    (State.sequence s filt f).2.mem.wf = true ∧ coresLegal (State.sequence s filt f).2.cores ∧ (State.sequence s filt f).2.pending = s.pending := by
  unfold State.sequence; grind
grind_pattern sequence_keeps => State.sequence s filt f

/-- See State.toCan1. -/
theorem toCan1_keeps (s : State) (f : SwFrame) (r : BitVec 128) (m : Option CanFrame) (h : s.mem.wf = true) (hc : coresLegal s.cores) :
    (State.toCan1 s f r m).mem.wf = true ∧ coresLegal (State.toCan1 s f r m).cores ∧ (State.toCan1 s f r m).pending = s.pending := by
  unfold State.toCan1; grind
grind_pattern toCan1_keeps => State.toCan1 s f r m

/-- See State.toCan. -/
theorem toCan_keeps (s : State) (f : SwFrame) (h : s.mem.wf = true) (hc : coresLegal s.cores) :
    (State.toCan s f).mem.wf = true ∧ coresLegal (State.toCan s f).cores ∧ (State.toCan s f).pending = s.pending := by
  grind [State.toCan]
grind_pattern toCan_keeps => State.toCan s f

/-- See State.forward. -/
theorem forward_keeps (s : State) (f : SwFrame) (only : Option Nat) (h : s.mem.wf = true) (hc : coresLegal s.cores) :
    (State.forward s f only).mem.wf = true ∧ coresLegal (State.forward s f only).cores ∧ (State.forward s f only).pending = s.pending := by
  grind [State.forward]
grind_pattern forward_keeps => State.forward s f only

/-- See State.ingress. -/
theorem ingress_keeps (s : State) (p : Nat) (b : List Byte) (stamp : W64) (node : Option (BitVec 4)) (slot : Option (Master × Nat)) (h : s.mem.wf = true) (hc : coresLegal s.cores) :
    (State.ingress s p b stamp node slot).mem.wf = true ∧ coresLegal (State.ingress s p b stamp node slot).cores ∧ (State.ingress s p b stamp node slot).pending = s.pending := by
  grind [State.ingress]
grind_pattern ingress_keeps => State.ingress s p b stamp node slot

/-- See State.setPn. -/
theorem setPn_keeps (s : State) (p k n : Nat) (h : s.mem.wf = true) (hc : coresLegal s.cores) :
    (State.setPn s p k n).mem.wf = true ∧ coresLegal (State.setPn s p k n).cores ∧ (State.setPn s p k n).pending = s.pending := by
  grind [State.setPn]
grind_pattern setPn_keeps => State.setPn s p k n

/-- See State.macsecIn. -/
theorem macsecIn_keeps (s : State) (p : Nat) (b : List Byte) (h : s.mem.wf = true) (hc : coresLegal s.cores) :
    (State.macsecIn s p b).2.mem.wf = true ∧ coresLegal (State.macsecIn s p b).2.cores ∧ (State.macsecIn s p b).2.pending = s.pending := by
  grind [State.macsecIn]
grind_pattern macsecIn_keeps => State.macsecIn s p b

/-- See State.macsecOut. -/
theorem macsecOut_keeps (s : State) (p : Nat) (b : List Byte) (h : s.mem.wf = true) (hc : coresLegal s.cores) :
    (State.macsecOut s p b).2.mem.wf = true ∧ coresLegal (State.macsecOut s p b).2.cores ∧ (State.macsecOut s p b).2.pending = s.pending := by
  grind [State.macsecOut]
grind_pattern macsecOut_keeps => State.macsecOut s p b

/-- See State.dmaWrite. -/
theorem dmaWrite_keeps (s : State) (m : Master) (a : Nat) (l : List Byte) (h : s.mem.wf = true) (hc : coresLegal s.cores) :
    (State.dmaWrite s m a l).mem.wf = true ∧ coresLegal (State.dmaWrite s m a l).cores ∧ (State.dmaWrite s m a l).pending = s.pending := by
  grind [State.dmaWrite]
grind_pattern dmaWrite_keeps => State.dmaWrite s m a l

/-- See State.ringPut. -/
theorem ringPut_keeps (s : State) (p : Nat) (f : SwFrame) (h : s.mem.wf = true) (hc : coresLegal s.cores) :
    (State.ringPut s p f).mem.wf = true ∧ coresLegal (State.ringPut s p f).cores ∧ (State.ringPut s p f).pending = s.pending := by
  grind [State.ringPut]
grind_pattern ringPut_keeps => State.ringPut s p f

/-- See State.toIf. -/
theorem toIf_keeps (s : State) (f : SwFrame) (h : s.mem.wf = true) (hc : coresLegal s.cores) :
    (State.toIf s f).mem.wf = true ∧ coresLegal (State.toIf s f).cores ∧ (State.toIf s f).pending = s.pending := by
  grind [State.toIf]
grind_pattern toIf_keeps => State.toIf s f

end Sys2Proof.Machine
end

