-- ==== Sys2Proof/Laws/Frame/Network.lean ====
section
/-! SUPPORT. What the operations of Machine/Network.lean leave: memory in canonical form and the queue of waiting commands. -/

namespace Sys2Proof.Machine

open Sys2Proof

/-- See State.setAct. -/
theorem setAct_keeps (s : State) (p v : Nat) (h : s.mem.wf = true) (hc : coresLegal s.cores) :
    (State.setAct s p v).mem.wf = true ∧ coresLegal (State.setAct s p v).cores ∧ (State.setAct s p v).pending = s.pending := by
  grind [State.setAct]
grind_pattern setAct_keeps => State.setAct s p v

/-- See State.setUp. -/
theorem setUp_keeps (s : State) (p : Nat) (up : Bool) (speed : Nat) (h : s.mem.wf = true) (hc : coresLegal s.cores) :
    (State.setUp s p up speed).mem.wf = true ∧ coresLegal (State.setUp s p up speed).cores ∧ (State.setUp s p up speed).pending = s.pending := by
  grind [State.setUp]
grind_pattern setUp_keeps => State.setUp s p up speed

/-- See State.portSync. -/
theorem portSync_keeps (s : State) (p : Nat) (h : s.mem.wf = true) (hc : coresLegal s.cores) :
    (State.portSync s p).mem.wf = true ∧ coresLegal (State.portSync s p).cores ∧ (State.portSync s p).pending = s.pending := by
  grind [State.portSync]
grind_pattern portSync_keeps => State.portSync s p

/-- See State.writePortCfg. -/
theorem writePortCfg_keeps (s : State) (p : Nat) (v : Word) (h : s.mem.wf = true) (hc : coresLegal s.cores) :
    (State.writePortCfg s p v).mem.wf = true ∧ coresLegal (State.writePortCfg s p v).cores ∧ (State.writePortCfg s p v).pending = s.pending := by
  grind [State.writePortCfg]
grind_pattern writePortCfg_keeps => State.writePortCfg s p v

/-- See State.portsReady. -/
theorem portsReady_keeps (s : State) (h : s.mem.wf = true) (hc : coresLegal s.cores) :
    s.portsReady.mem.wf = true ∧ coresLegal s.portsReady.cores ∧ s.portsReady.pending = s.pending := by
  unfold State.portsReady
  refine Keeps.step (foldl_keeps _ (upto 4) s h hc fun t p q r => portSync_keeps t _ q r) fun a b => foldl_keeps _ (upto 14) _ a b ?_
  intro t p q r
  split
  · exact setUp_keeps _ _ _ _ q r
  · exact ⟨q, r, rfl⟩
grind_pattern portsReady_keeps => s.portsReady

/-- See State.degrade. -/
theorem degrade_keeps (s : State) (p : Nat) (h : s.mem.wf = true) (hc : coresLegal s.cores) :
    (State.degrade s p).mem.wf = true ∧ coresLegal (State.degrade s p).cores ∧ (State.degrade s p).pending = s.pending := by
  grind [State.degrade]
grind_pattern degrade_keeps => State.degrade s p

/-- See State.setLane. -/
theorem setLane_keeps (s : State) (l : Nat) (x : Lane) (h : s.mem.wf = true) (hc : coresLegal s.cores) :
    (State.setLane s l x).mem.wf = true ∧ coresLegal (State.setLane s l x).cores ∧ (State.setLane s l x).pending = s.pending := by
  grind [State.setLane]
grind_pattern setLane_keeps => State.setLane s l x

/-- See State.setMap. -/
theorem setMap_keeps (s : State) (p : Nat) (m : BitVec 2) (h : s.mem.wf = true) (hc : coresLegal s.cores) :
    (State.setMap s p m).mem.wf = true ∧ coresLegal (State.setMap s p m).cores ∧ (State.setMap s p m).pending = s.pending := by
  grind [State.setMap]
grind_pattern setMap_keeps => State.setMap s p m

/-- See State.bpTrain. -/
theorem bpTrain_keeps (s : State) (p : Nat) (h : s.mem.wf = true) (hc : coresLegal s.cores) :
    (State.bpTrain s p).mem.wf = true ∧ coresLegal (State.bpTrain s p).cores ∧ (State.bpTrain s p).pending = s.pending := by
  grind [State.bpTrain]
grind_pattern bpTrain_keeps => State.bpTrain s p

/-- See State.bpAlign. -/
theorem bpAlign_keeps (s : State) (p : Nat) (ls : List Nat) (h : s.mem.wf = true) (hc : coresLegal s.cores) :
    (State.bpAlign s p ls).mem.wf = true ∧ coresLegal (State.bpAlign s p ls).cores ∧ (State.bpAlign s p ls).pending = s.pending := by
  unfold State.bpAlign
  refine Keeps.step (Keeps.step (foldl_keeps _ ls s h hc fun t l a b => ?_) fun a b => setFld_keeps _ _ _ _ _ _ a b) fun a b => setMap_keeps _ _ _ a b
  exact Keeps.step (Keeps.step (draw_keeps t a b) fun a b => setLane_keeps _ _ _ a b) fun a b => setFld_keeps _ _ _ _ _ _ a b
grind_pattern bpAlign_keeps => State.bpAlign s p ls

/-- See State.leaveUp. -/
theorem leaveUp_keeps (s : State) (p : Nat) (h : s.mem.wf = true) (hc : coresLegal s.cores) :
    (State.leaveUp s p).mem.wf = true ∧ coresLegal (State.leaveUp s p).cores ∧ (State.leaveUp s p).pending = s.pending := by
  grind [State.leaveUp]
grind_pattern leaveUp_keeps => State.leaveUp s p

/-- See State.laneTakes. -/
theorem laneTakes_keeps (s : State) (l : Nat) (cw : Codeword) (h : s.mem.wf = true) (hc : coresLegal s.cores) :
    (State.laneTakes s l cw).mem.wf = true ∧ coresLegal (State.laneTakes s l cw).cores ∧ (State.laneTakes s l cw).pending = s.pending := by
  unfold State.laneTakes; grind
grind_pattern laneTakes_keeps => State.laneTakes s l cw

/-- See State.writeLctl. -/
theorem writeLctl_keeps (s : State) (l : Nat) (v : Word) (h : s.mem.wf = true) (hc : coresLegal s.cores) :
    (State.writeLctl s l v).mem.wf = true ∧ coresLegal (State.writeLctl s l v).cores ∧ (State.writeLctl s l v).pending = s.pending := by
  grind [State.writeLctl]
grind_pattern writeLctl_keeps => State.writeLctl s l v

/-- See State.takeEth. -/
theorem takeEth_keeps (s : State) (p : Nat) (b : List Byte) (stamp : W64) (node : Option (BitVec 4)) (h : s.mem.wf = true) (hc : coresLegal s.cores) :
    (State.takeEth s p b stamp node).mem.wf = true ∧ coresLegal (State.takeEth s p b stamp node).cores ∧ (State.takeEth s p b stamp node).pending = s.pending := by
  grind [State.takeEth]
grind_pattern takeEth_keeps => State.takeEth s p b stamp node

/-- See State.hold. -/
theorem hold_keeps (s : State) (p : Nat) (h : Held) (hm : s.mem.wf = true) (hc : coresLegal s.cores) :
    (State.hold s p h).mem.wf = true ∧ coresLegal (State.hold s p h).cores ∧ (State.hold s p h).pending = s.pending := by
  grind [State.hold]
grind_pattern hold_keeps => State.hold s p h

/-- See State.rxStamp. -/
theorem rxStamp_keeps (s : State) (p age : Nat) (h : s.mem.wf = true) (hc : coresLegal s.cores) :
    (State.rxStamp s p age).2.mem.wf = true ∧ coresLegal (State.rxStamp s p age).2.cores ∧ (State.rxStamp s p age).2.pending = s.pending := by
  grind [State.rxStamp]
grind_pattern rxStamp_keeps => State.rxStamp s p age

/-- See State.plcaNext. -/
theorem plcaNext_keeps (s : State) (i n : Nat) (h : s.mem.wf = true) (hc : coresLegal s.cores) :
    (State.plcaNext s i n).mem.wf = true ∧ coresLegal (State.plcaNext s i n).cores ∧ (State.plcaNext s i n).pending = s.pending := by
  grind [State.plcaNext]
grind_pattern plcaNext_keeps => State.plcaNext s i n

/-- See State.canBus. -/
theorem canBus_keeps (s : State) (ch tec : Nat) (h : s.mem.wf = true) (hc : coresLegal s.cores) :
    (State.canBus s ch tec).mem.wf = true ∧ coresLegal (State.canBus s ch tec).cores ∧ (State.canBus s ch tec).pending = s.pending := by
  grind [State.canBus]
grind_pattern canBus_keeps => State.canBus s ch tec

/-- See State.canSentEvent. -/
theorem canSentEvent_keeps (s : State) (ch : Nat) (ok : Bool) (h : s.mem.wf = true) (hc : coresLegal s.cores) :
    (State.canSentEvent s ch ok).mem.wf = true ∧ coresLegal (State.canSentEvent s ch ok).cores ∧ (State.canSentEvent s ch ok).pending = s.pending := by
  grind [State.canSentEvent]
grind_pattern canSentEvent_keeps => State.canSentEvent s ch ok

/-- See State.canGotEvent. -/
theorem canGotEvent_keeps (s : State) (ch : Nat) (ok : Bool) (h : s.mem.wf = true) (hc : coresLegal s.cores) :
    (State.canGotEvent s ch ok).mem.wf = true ∧ coresLegal (State.canGotEvent s ch ok).cores ∧ (State.canGotEvent s ch ok).pending = s.pending := by
  grind [State.canGotEvent]
grind_pattern canGotEvent_keeps => State.canGotEvent s ch ok

/-- See State.canSend. -/
theorem canSend_keeps (s : State) (ch : Nat) (m : CanFrame) (h : s.mem.wf = true) (hc : coresLegal s.cores) :
    (State.canSend s ch m).2.mem.wf = true ∧ coresLegal (State.canSend s ch m).2.cores ∧ (State.canSend s ch m).2.pending = s.pending := by
  grind [State.canSend]
grind_pattern canSend_keeps => State.canSend s ch m

/-- See State.popFrame. -/
theorem popFrame_keeps (s : State) (p c : Nat) (id : Nat) (h : s.mem.wf = true) (hc : coresLegal s.cores) :
    (State.popFrame s p c id).mem.wf = true ∧ coresLegal (State.popFrame s p c id).cores ∧ (State.popFrame s p c id).pending = s.pending := by
  grind [State.popFrame]
grind_pattern popFrame_keeps => State.popFrame s p c id

/-- See State.putWire. -/
theorem putWire_keeps (s : State) (p c : Nat) (f : SwFrame) (b : List Byte) (h : s.mem.wf = true) (hc : coresLegal s.cores) :
    (State.putWire s p c f b).mem.wf = true ∧ coresLegal (State.putWire s p c f b).cores ∧ (State.putWire s p c f b).pending = s.pending := by
  grind [State.putWire]
grind_pattern putWire_keeps => State.putWire s p c f b

/-- See State.tsMaySend. -/
theorem tsMaySend_keeps (s : State) (i : Nat) (h : s.mem.wf = true) (hc : coresLegal s.cores) :
    (State.tsMaySend s i).2.mem.wf = true ∧ coresLegal (State.tsMaySend s i).2.cores ∧ (State.tsMaySend s i).2.pending = s.pending := by
  grind [State.tsMaySend]
grind_pattern tsMaySend_keeps => State.tsMaySend s i

/-- See State.tsSent. -/
theorem tsSent_keeps (s : State) (i : Nat) (h : s.mem.wf = true) (hc : coresLegal s.cores) :
    (State.tsSent s i).mem.wf = true ∧ coresLegal (State.tsSent s i).cores ∧ (State.tsSent s i).pending = s.pending := by
  grind [State.tsSent]
grind_pattern tsSent_keeps => State.tsSent s i

/-- See State.sendEth. -/
theorem sendEth_keeps (s : State) (p c id : Nat) (f : SwFrame) (h : s.mem.wf = true) (hc : coresLegal s.cores) :
    (State.sendEth s p c id f).mem.wf = true ∧ coresLegal (State.sendEth s p c id f).cores ∧ (State.sendEth s p c id f).pending = s.pending := by
  grind [State.sendEth]
grind_pattern sendEth_keeps => State.sendEth s p c id f

/-- See State.slotDone. -/
theorem slotDone_keeps (s : State) (r : TxRing) (a w0 rd n : Nat) (h : s.mem.wf = true) (hc : coresLegal s.cores) :
    (State.slotDone s r a w0 rd n).mem.wf = true ∧ coresLegal (State.slotDone s r a w0 rd n).cores ∧ (State.slotDone s r a w0 rd n).pending = s.pending := by
  grind [State.slotDone]
grind_pattern slotDone_keeps => State.slotDone s r a w0 rd n

/-- See State.fieldSend. -/
theorem fieldSend_keeps (s : State) (e : Nat) (f : SwFrame) (h : s.mem.wf = true) (hc : coresLegal s.cores) :
    (State.fieldSend s e f).2.mem.wf = true ∧ coresLegal (State.fieldSend s e f).2.cores ∧ (State.fieldSend s e f).2.pending = s.pending := by
  grind [State.fieldSend]
grind_pattern fieldSend_keeps => State.fieldSend s e f

/-- See State.acfFlush. -/
theorem acfFlush_keeps (s : State) (ch link : Nat) (src : Option Nat) (h : s.mem.wf = true) (hc : coresLegal s.cores) :
    (State.acfFlush s ch link src).mem.wf = true ∧ coresLegal (State.acfFlush s ch link src).cores ∧ (State.acfFlush s ch link src).pending = s.pending := by
  grind [State.acfFlush]
grind_pattern acfFlush_keeps => State.acfFlush s ch link src

/-- See State.acfAdd. -/
theorem acfAdd_keeps (s : State) (ch link i : Nat) (f : CanFrame) (h : s.mem.wf = true) (hc : coresLegal s.cores) :
    (State.acfAdd s ch link i f).mem.wf = true ∧ coresLegal (State.acfAdd s ch link i f).cores ∧ (State.acfAdd s ch link i f).pending = s.pending := by
  grind [State.acfAdd]
grind_pattern acfAdd_keeps => State.acfAdd s ch link i f

/-- See State.canPolicy. -/
theorem canPolicy_keeps (s : State) (ch : Nat) (f : SwFrame) (h : s.mem.wf = true) (hc : coresLegal s.cores) :
    (State.canPolicy s ch f).mem.wf = true ∧ coresLegal (State.canPolicy s ch f).cores ∧ (State.canPolicy s ch f).pending = s.pending := by
  grind [State.canPolicy]
grind_pattern canPolicy_keeps => State.canPolicy s ch f

/-- See State.takeCan. -/
theorem takeCan_keeps (s : State) (ch : Nat) (f : CanFrame) (stamp : W64) (h : s.mem.wf = true) (hc : coresLegal s.cores) :
    (State.takeCan s ch f stamp).mem.wf = true ∧ coresLegal (State.takeCan s ch f stamp).cores ∧ (State.takeCan s ch f stamp).pending = s.pending := by
  grind [State.takeCan]
grind_pattern takeCan_keeps => State.takeCan s ch f stamp

/-- See State.crossPort. -/
theorem crossPort_keeps (s : State) (p : Nat) (h : s.mem.wf = true) (hc : coresLegal s.cores) :
    (State.crossPort s p).mem.wf = true ∧ coresLegal (State.crossPort s p).cores ∧ (State.crossPort s p).pending = s.pending := by
  grind [State.crossPort]
grind_pattern crossPort_keeps => State.crossPort s p

/-- See State.gptpUpdate. -/
theorem gptpUpdate_keeps (s : State) (h : s.mem.wf = true) (hc : coresLegal s.cores) :
    (State.gptpUpdate s).mem.wf = true ∧ coresLegal (State.gptpUpdate s).cores ∧ (State.gptpUpdate s).pending = s.pending := by
  grind [State.gptpUpdate]
grind_pattern gptpUpdate_keeps => State.gptpUpdate s

/-- See State.writeGptpCtl. -/
theorem writeGptpCtl_keeps (s : State) (v : Word) (h : s.mem.wf = true) (hc : coresLegal s.cores) :
    (State.writeGptpCtl s v).mem.wf = true ∧ coresLegal (State.writeGptpCtl s v).cores ∧ (State.writeGptpCtl s v).pending = s.pending := by
  grind [State.writeGptpCtl]
grind_pattern writeGptpCtl_keeps => State.writeGptpCtl s v

/-- See State.swapList. -/
theorem swapList_keeps (s : State) (p : Nat) (h : s.mem.wf = true) (hc : coresLegal s.cores) :
    (State.swapList s p).mem.wf = true ∧ coresLegal (State.swapList s p).cores ∧ (State.swapList s p).pending = s.pending := by
  grind [State.swapList]
grind_pattern swapList_keeps => State.swapList s p

/-- See State.jumpLists. -/
theorem jumpLists_keeps (s : State) (from' to' : Nat) (h : s.mem.wf = true) (hc : coresLegal s.cores) :
    (State.jumpLists s from' to').mem.wf = true ∧ coresLegal (State.jumpLists s from' to').cores ∧ (State.jumpLists s from' to').pending = s.pending := by
  grind [State.jumpLists]
grind_pattern jumpLists_keeps => State.jumpLists s from' to'

/-- See State.writeGptpStep. -/
theorem writeGptpStep_keeps (s : State) (i : Nat) (v : Word) (h : s.mem.wf = true) (hc : coresLegal s.cores) :
    (State.writeGptpStep s i v).mem.wf = true ∧ coresLegal (State.writeGptpStep s i v).cores ∧ (State.writeGptpStep s i v).pending = s.pending := by
  grind [State.writeGptpStep]
grind_pattern writeGptpStep_keeps => State.writeGptpStep s i v

/-- See State.readGptp0. -/
theorem readGptp0_keeps (s : State) (h : s.mem.wf = true) (hc : coresLegal s.cores) :
    (State.readGptp0 s).2.mem.wf = true ∧ coresLegal (State.readGptp0 s).2.cores ∧ (State.readGptp0 s).2.pending = s.pending := by
  grind [State.readGptp0]
grind_pattern readGptp0_keeps => State.readGptp0 s

/-- See State.tableRead. -/
theorem tableRead_keeps (s : State) (sel ix part : Nat) (h : s.mem.wf = true) (hc : coresLegal s.cores) :
    (State.tableRead s sel ix part).2.mem.wf = true ∧ coresLegal (State.tableRead s sel ix part).2.cores ∧ (State.tableRead s sel ix part).2.pending = s.pending := by
  unfold State.tableRead; grind
grind_pattern tableRead_keeps => State.tableRead s sel ix part

/-- See State.writeSa. -/
theorem writeSa_keeps (s : State) (ix part : Nat) (v : BitVec 128) (h : s.mem.wf = true) (hc : coresLegal s.cores) :
    (State.writeSa s ix part v).mem.wf = true ∧ coresLegal (State.writeSa s ix part v).cores ∧ (State.writeSa s ix part v).pending = s.pending := by
  grind [State.writeSa]
grind_pattern writeSa_keeps => State.writeSa s ix part v

/-- See State.tableWrite. -/
theorem tableWrite_keeps (s : State) (sel ix part : Nat) (v : BitVec 128) (h : s.mem.wf = true) (hc : coresLegal s.cores) (t : State)
    (he : s.tableWrite sel ix part v = some t) : t.mem.wf = true ∧ coresLegal t.cores ∧ t.pending = s.pending := by
  have kr := setRos_keeps s ix v h hc
  have ka := accrue_keeps s ix h hc
  have kb := accrue_keeps s (ix / 8) h hc
  unfold State.tableWrite at he
  dsimp only at he
  split at he <;> (repeat' split at he) <;> first
    | (injection he with he; subst he; exact ⟨h, hc, rfl⟩)
    | (injection he with he; subst he; exact kr)
    | (injection he with he; subst he; exact ka)
    | (injection he with he; subst he; exact kb)
    | (simp at he; done)
    | (simp only [Option.some.injEq] at he; subst he; exact writeSa_keeps s _ _ _ h hc)
grind_pattern tableWrite_keeps => s.tableWrite sel ix part v, some t

/-- See State.writeTblCmd. -/
theorem writeTblCmd_keeps (s : State) (v : Word) (h : s.mem.wf = true) (hc : coresLegal s.cores) :
    (State.writeTblCmd s v).mem.wf = true ∧ coresLegal (State.writeTblCmd s v).cores ∧ (State.writeTblCmd s v).pending = s.pending := by
  grind [State.writeTblCmd]
grind_pattern writeTblCmd_keeps => State.writeTblCmd s v

/-- See State.tableDone. -/
theorem tableDone_keeps (s : State) (v : Word) (ix : Nat) (d : List Word) (h : s.mem.wf = true) (hc : coresLegal s.cores) :
    (s.tableDone v ix d).mem.wf = true ∧ coresLegal (s.tableDone v ix d).cores ∧ (s.tableDone v ix d).pending = s.pending := by
  have done : ∀ (t : State) (e : Bool), Keeps s t → Keeps s (if e then ((t.setBit .NSW_TBL_STAT 0 15 false).setBit .NSW_TBL_STAT 0 14 true).setBit .NSW_TBL_STAT 0 13 true
      else (t.setBit .NSW_TBL_STAT 0 15 false).setBit .NSW_TBL_STAT 0 14 true) := by
    intro t e k
    have k2 : Keeps s ((t.setBit .NSW_TBL_STAT 0 15 false).setBit .NSW_TBL_STAT 0 14 true) :=
      Keeps.step (Keeps.step k fun a b => setBit_keeps _ _ _ _ _ a b) fun a b => setBit_keeps _ _ _ _ _ a b
    split
    · exact Keeps.step k2 fun a b => setBit_keeps _ _ _ _ _ a b
    · exact k2
  unfold State.tableDone
  dsimp only
  split
  · split
    · next t e => exact done t false (tableWrite_keeps s _ _ _ _ h hc t e)
    · exact done s true ⟨h, hc, rfl⟩
  · have k := tableRead_keeps s (wfld v 12 9) ix (wfld v 8 6) h hc
    split
    · next t e => rw [e] at k; exact done t true k
    · next x t e =>
      rw [e] at k
      have k2 : Keeps s ((upto 8).foldl (fun s i => s.setReg .NSW_TBL_D i (BitVec.ofNat 16 (entFld x (2 * i) 2))) t) :=
        Keeps.step k fun a b => foldl_keeps _ (upto 8) _ a b fun t p q r => setReg_keeps t _ _ _ q r
      generalize (upto 8).foldl (fun s i => s.setReg .NSW_TBL_D i (BitVec.ofNat 16 (entFld x (2 * i) 2))) t = s2 at k2 ⊢
      refine done _ false ?_
      split
      · exact ⟨k2.1, k2.2.1, k2.2.2⟩
      · exact k2
grind_pattern tableDone_keeps => s.tableDone v ix d

/-- See State.writeNswRd. -/
theorem writeNswRd_keeps (s : State) (r : Nat) (v : Word) (h : s.mem.wf = true) (hc : coresLegal s.cores) :
    (State.writeNswRd s r v).mem.wf = true ∧ coresLegal (State.writeNswRd s r v).cores ∧ (State.writeNswRd s r v).pending = s.pending := by
  grind [State.writeNswRd]
grind_pattern writeNswRd_keeps => State.writeNswRd s r v

/-- See State.writeFnetRd. -/
theorem writeFnetRd_keeps (s : State) (r : Nat) (v : Word) (h : s.mem.wf = true) (hc : coresLegal s.cores) :
    (State.writeFnetRd s r v).mem.wf = true ∧ coresLegal (State.writeFnetRd s r v).cores ∧ (State.writeFnetRd s r v).pending = s.pending := by
  grind [State.writeFnetRd]
grind_pattern writeFnetRd_keeps => State.writeFnetRd s r v

end Sys2Proof.Machine
end

