-- ==== Sys2Proof/Laws/Frame/Locks.lean ====
section
/-! SUPPORT. What the operations of Machine/Locks.lean leave: memory in canonical form and the queue of waiting commands. -/

namespace Sys2Proof.Machine

open Sys2Proof

/-- See State.setLock. -/
theorem setLock_keeps (s : State) (d : Die) (l : Option LockCmd) (h : s.mem.wf = true) (hc : coresLegal s.cores) :
    (State.setLock s d l).mem.wf = true ∧ coresLegal (State.setLock s d l).cores ∧ (State.setLock s d l).pending = s.pending := by
  unfold State.setLock; grind
grind_pattern setLock_keeps => State.setLock s d l

/-- See State.writeLkCmd. -/
theorem writeLkCmd_keeps (s : State) (d : Die) (v : Word) (h : s.mem.wf = true) (hc : coresLegal s.cores) :
    (State.writeLkCmd s d v).mem.wf = true ∧ coresLegal (State.writeLkCmd s d v).cores ∧ (State.writeLkCmd s d v).pending = s.pending := by
  unfold State.writeLkCmd; grind
grind_pattern writeLkCmd_keeps => State.writeLkCmd s d v

/-- See State.lockLeaf. -/
theorem lockLeaf_keeps (s : State) (c : CoreId) (l : LockCmd) (h : s.mem.wf = true) (hc : coresLegal s.cores) :
    (s.lockLeaf c l).2.mem.wf = true ∧ coresLegal (s.lockLeaf c l).2.cores ∧ (s.lockLeaf c l).2.pending = s.pending := by
  unfold State.lockLeaf
  have k : Keeps s (s.walk (dataPort c) (s.xlatAtb (coreDie c)) l.asid l.va.toNat).2 := walk_keeps _ _ _ _ _ h hc
  generalize s.walk (dataPort c) (s.xlatAtb (coreDie c)) l.asid l.va.toNat = r at k ⊢
  obtain ⟨r, s1⟩ := r
  cases r with
  | error e => exact k
  | ok x =>
    dsimp only at k ⊢
    split
    · exact k
    · have k2 : Keeps s (s1.casEntry (dataPort c) x (x.marked false)).2 := Keeps.step k fun a b => casEntry_keeps _ _ _ _ a b
      generalize s1.casEntry (dataPort c) x (x.marked false) = r2 at k2 ⊢
      obtain ⟨r2, s2⟩ := r2
      split <;> simp_all [Keeps]
grind_pattern lockLeaf_keeps => s.lockLeaf c l

/-- See State.writeSwi. -/
theorem writeSwi_keeps (s : State) (v : Word) (h : s.mem.wf = true) (hc : coresLegal s.cores) :
    (State.writeSwi s v).mem.wf = true ∧ coresLegal (State.writeSwi s v).cores ∧ (State.writeSwi s v).pending = s.pending := by
  grind [State.writeSwi]
grind_pattern writeSwi_keeps => State.writeSwi s v

/-- See State.writeRbCmd. -/
theorem writeRbCmd_keeps (s : State) (v : Word) (h : s.mem.wf = true) (hc : coresLegal s.cores) :
    (State.writeRbCmd s v).mem.wf = true ∧ coresLegal (State.writeRbCmd s v).cores ∧ (State.writeRbCmd s v).pending = s.pending := by
  grind [State.writeRbCmd]
grind_pattern writeRbCmd_keeps => State.writeRbCmd s v

/-- See State.writeRelayGo. -/
theorem writeRelayGo_keeps (s : State) (v : Word) (h : s.mem.wf = true) (hc : coresLegal s.cores) :
    (State.writeRelayGo s v).mem.wf = true ∧ coresLegal (State.writeRelayGo s v).cores ∧ (State.writeRelayGo s v).pending = s.pending := by
  grind [State.writeRelayGo]
grind_pattern writeRelayGo_keeps => State.writeRelayGo s v

end Sys2Proof.Machine
end

