-- ==== Sys2Proof/Laws/Frame/Regs.lean ====
section
/-! SUPPORT. What the operations of Machine/Regs.lean leave: memory in canonical form and the queue of waiting commands. -/

namespace Sys2Proof.Machine

open Sys2Proof

/-- See State.cleared. -/
theorem cleared_keeps (s : State) (k : RegKind) (i : Nat) (h : s.mem.wf = true) (hc : coresLegal s.cores) :
    (State.cleared s k i).mem.wf = true ∧ coresLegal (State.cleared s k i).cores ∧ (State.cleared s k i).pending = s.pending := by
  grind [State.cleared]
grind_pattern cleared_keeps => State.cleared s k i

/-- See State.capture. -/
theorem capture_keeps (s : State) (a : Nat) (h : s.mem.wf = true) (hc : coresLegal s.cores) :
    (State.capture s a).mem.wf = true ∧ coresLegal (State.capture s a).cores ∧ (State.capture s a).pending = s.pending := by
  grind [State.capture]
grind_pattern capture_keeps => State.capture s a

/-- See State.readLvls. -/
theorem readLvls_keeps (s : State) (g : Nat) (h : s.mem.wf = true) (hc : coresLegal s.cores) :
    (State.readLvls s g).2.mem.wf = true ∧ coresLegal (State.readLvls s g).2.cores ∧ (State.readLvls s g).2.pending = s.pending := by
  grind [State.readLvls]
grind_pattern readLvls_keeps => State.readLvls s g

/-- See State.readGps. -/
theorem readGps_keeps (s : State) (g : Nat) (h : s.mem.wf = true) (hc : coresLegal s.cores) :
    (State.readGps s g).2.mem.wf = true ∧ coresLegal (State.readGps s g).2.cores ∧ (State.readGps s g).2.pending = s.pending := by
  grind [State.readGps]
grind_pattern readGps_keeps => State.readGps s g

/-- See State.readReg. -/
theorem readReg_keeps (s : State) (k : RegKind) (i : Nat) (h : s.mem.wf = true) (hc : coresLegal s.cores) :
    (State.readReg s k i).2.mem.wf = true ∧ coresLegal (State.readReg s k i).2.cores ∧ (State.readReg s k i).2.pending = s.pending := by
  unfold State.readReg
  dsimp only
  split
  · exact ⟨h, hc, rfl⟩
  · refine ?_
    by_cases c1 : k = .RTC_SUB
    · rw [if_pos c1]; exact readRtcSub_keeps s h hc
    rw [if_neg c1]
    by_cases c2 : k = .GPTP_TIME ∧ i = 0
    · rw [if_pos c2]; exact readGptp0_keeps s h hc
    rw [if_neg c2]
    by_cases c3 : k = .OC_LVL
    · rw [if_pos c3]; exact readLvls_keeps s i h hc
    rw [if_neg c3]
    by_cases c4 : k = .GP_IN
    · rw [if_pos c4]; exact readGps_keeps s i h hc
    rw [if_neg c4]
    by_cases c5 : k = .ML_LSTAT
    · rw [if_pos c5]
      split
      · exact ⟨h, hc, rfl⟩
      · exact draw_keeps s h hc
    rw [if_neg c5]
    by_cases c6 : k = .NSW_ROSTER_EVT
    · rw [if_pos c6]; exact cleared_keeps s k i h hc
    rw [if_neg c6]
    split
    · exact capture_keeps s _ h hc
    · exact cleared_keeps s k i h hc
grind_pattern readReg_keeps => State.readReg s k i

/-- See State.plainWrite. -/
theorem plainWrite_keeps (s : State) (k : RegKind) (i : Nat) (v : Word) (h : s.mem.wf = true) (hc : coresLegal s.cores) :
    (State.plainWrite s k i v).mem.wf = true ∧ coresLegal (State.plainWrite s k i v).cores ∧ (State.plainWrite s k i v).pending = s.pending := by
  grind [State.plainWrite]
grind_pattern plainWrite_keeps => State.plainWrite s k i v

/-- See State.commitPair. -/
theorem commitPair_keeps (s : State) (k : RegKind) (i b : Nat) (v : Word) (h : s.mem.wf = true) (hc : coresLegal s.cores) :
    (State.commitPair s k i b v).mem.wf = true ∧ coresLegal (State.commitPair s k i b v).cores ∧ (State.commitPair s k i b v).pending = s.pending := by
  grind [State.commitPair]
grind_pattern commitPair_keeps => State.commitPair s k i b v

/-- See State.writeHi. -/
theorem writeHi_keeps (s : State) (k : RegKind) (i b : Nat) (v : Word) (h : s.mem.wf = true) (hc : coresLegal s.cores) :
    (State.writeHi s k i b v).mem.wf = true ∧ coresLegal (State.writeHi s k i b v).cores ∧ (State.writeHi s k i b v).pending = s.pending := by
  grind [State.writeHi]
grind_pattern writeHi_keeps => State.writeHi s k i b v

/-- See State.writeC. -/
theorem writeC_keeps (s : State) (k : RegKind) (i : Nat) (v : Word) (h : s.mem.wf = true) (hc : coresLegal s.cores) :
    (State.writeC s k i v).mem.wf = true ∧ coresLegal (State.writeC s k i v).cores ∧ (State.writeC s k i v).pending = s.pending := by
  have hr : Keeps s s := Keeps.refl h hc
  change Keeps s _
  unfold State.writeC
  refine Keeps.ite (tilePower_keeps _ _ _ _ h hc) ?_
  refine Keeps.ite (writeCctl_keeps _ _ _ h hc) ?_
  refine Keeps.ite (Keeps.ite (flush_keeps _ _ h hc) hr) ?_
  refine Keeps.ite (writeSwi_keeps _ _ h hc) ?_
  refine Keeps.ite (writeLkCmd_keeps _ _ _ h hc) ?_
  refine Keeps.ite (writeTblCmd_keeps _ _ h hc) ?_
  refine Keeps.ite (Keeps.ite hr (plainWrite_keeps _ _ _ _ h hc)) ?_
  refine Keeps.ite (writeNswRd_keeps _ _ _ h hc) ?_
  refine Keeps.ite (writePortCfg_keeps _ _ _ h hc) ?_
  refine Keeps.ite (writeLctl_keeps _ _ _ h hc) ?_
  refine Keeps.ite (writeMigCmd_keeps _ _ h hc) ?_
  exact plainWrite_keeps _ _ _ _ h hc
grind_pattern writeC_keeps => State.writeC s k i v

/-- See State.writeOut. -/
theorem writeOut_keeps (s : State) (k : RegKind) (i : Nat) (v : Word) (h : s.mem.wf = true) (hc : coresLegal s.cores) :
    (s.writeOut k i v).mem.wf = true ∧ coresLegal (s.writeOut k i v).cores ∧ (s.writeOut k i v).pending = s.pending := by
  have hr : Keeps s s := Keeps.refl h hc
  have hp : Keeps s (s.plainWrite k i v) := plainWrite_keeps s k i v h hc
  change Keeps s _
  unfold State.writeOut
  refine Keeps.ite (writeModCtrl_keeps _ _ _ h hc) ?_
  refine Keeps.ite (Keeps.step (Keeps.step hp fun a b => writtenFirst_keeps _ _ a b) fun a b => evalCell_keeps _ _ a b) ?_
  refine Keeps.ite (Keeps.step (Keeps.step hp fun a b => evalCell_keeps _ _ a b) fun a b => tripCells_keeps _ a b) ?_
  refine Keeps.ite (Keeps.step hp fun a b => evalCells_keeps _ a b) ?_
  refine Keeps.ite (writeTripped_keeps _ _ _ h hc) ?_
  refine Keeps.ite (writeOcCtrl_keeps _ _ h hc) ?_
  refine Keeps.ite (writePortCfg_keeps _ _ _ h hc) ?_
  refine Keeps.ite (writePortCfg_keeps _ _ _ h hc) ?_
  refine Keeps.ite (writePortCfg_keeps _ _ _ h hc) ?_
  refine Keeps.ite (Keeps.ite hr hp) ?_
  refine Keeps.ite (writeFnetRd_keeps _ _ _ h hc) ?_
  refine Keeps.ite (writeGptpCtl_keeps _ _ h hc) ?_
  refine Keeps.ite (writeGptpStep_keeps _ _ _ h hc) ?_
  exact hp
grind_pattern writeOut_keeps => s.writeOut k i v

/-- See State.writeCap. -/
theorem writeCap_keeps (s : State) (k : RegKind) (i : Nat) (v : Word) (h : s.mem.wf = true) (hc : coresLegal s.cores) :
    (s.writeCap k i v).mem.wf = true ∧ coresLegal (s.writeCap k i v).cores ∧ (s.writeCap k i v).pending = s.pending := by
  have hr : Keeps s s := Keeps.refl h hc
  have hp : Keeps s (s.plainWrite k i v) := plainWrite_keeps s k i v h hc
  change Keeps s _
  unfold State.writeCap
  refine Keeps.ite (writeSwtrig_keeps _ _ h hc) ?_
  refine Keeps.ite (writeDefCtrl_keeps _ _ _ h hc) ?_
  refine Keeps.ite (Keeps.ite hr hp) ?_
  refine Keeps.ite (writeFbCfg_keeps _ _ _ h hc) ?_
  refine Keeps.ite (writeFbRd_keeps _ _ _ h hc) ?_
  refine Keeps.ite (writeCrCfg_keeps _ _ _ h hc) ?_
  refine Keeps.ite (writeCrRd_keeps _ _ _ h hc) ?_
  exact writeOut_keeps _ _ _ _ h hc
grind_pattern writeCap_keeps => s.writeCap k i v

/-- See State.writeMeas. -/
theorem writeMeas_keeps (s : State) (k : RegKind) (i : Nat) (v : Word) (h : s.mem.wf = true) (hc : coresLegal s.cores) :
    (s.writeMeas k i v).mem.wf = true ∧ coresLegal (s.writeMeas k i v).cores ∧ (s.writeMeas k i v).pending = s.pending := by
  have hr : Keeps s s := Keeps.refl h hc
  have hp : Keeps s (s.plainWrite k i v) := plainWrite_keeps s k i v h hc
  change Keeps s _
  unfold State.writeMeas
  refine Keeps.ite (writeCrsCtrl_keeps _ _ _ h hc) ?_
  refine Keeps.ite (writeJntCfg_keeps _ _ _ h hc) ?_
  refine Keeps.ite (Keeps.ite hr hp) ?_
  refine Keeps.ite (writeAdcCtrl_keeps _ _ _ h hc) ?_
  refine Keeps.ite (writeSwconv_keeps _ _ h hc) ?_
  refine Keeps.ite (writeSdCfg_keeps _ _ _ h hc) ?_
  refine Keeps.ite (writeSdClk_keeps _ _ h hc) ?_
  refine Keeps.ite (writeCpCfg_keeps _ _ _ h hc) ?_
  refine Keeps.ite (writeCpDac_keeps _ _ _ h hc) ?_
  exact writeCap_keeps _ _ _ _ h hc
grind_pattern writeMeas_keeps => s.writeMeas k i v

/-- See State.writeF. -/
theorem writeF_keeps (s : State) (m : Master) (k : RegKind) (i : Nat) (v : Word) (h : s.mem.wf = true) (hc : coresLegal s.cores) :
    (s.writeF m k i v).mem.wf = true ∧ coresLegal (s.writeF m k i v).cores ∧ (s.writeF m k i v).pending = s.pending := by
  have hr : Keeps s s := Keeps.refl h hc
  have hp : Keeps s (s.plainWrite k i v) := plainWrite_keeps s k i v h hc
  have hk : Keeps s (match coreOfMaster m with
    | some c => s.kick c v
    | none => s) := by
    cases coreOfMaster m with
    | some c => exact kick_keeps s c v h hc
    | none => exact hr
  change Keeps s _
  unfold State.writeF
  refine Keeps.ite (tilePower_keeps _ _ _ _ h hc) ?_
  refine Keeps.ite (writeCctl_keeps _ _ _ h hc) ?_
  refine Keeps.ite (writeRstCmd_keeps _ _ h hc) ?_
  refine Keeps.ite (writeRail_keeps _ _ h hc) ?_
  refine Keeps.ite (writeCrun_keeps _ _ h hc) ?_
  refine Keeps.ite (writePark_keeps _ _ h hc) ?_
  refine Keeps.ite (writeWdt_keeps _ _ _ h hc) ?_
  refine Keeps.ite hk ?_
  refine Keeps.ite (writeRbCmd_keeps _ _ h hc) ?_
  refine Keeps.ite (writeRelayGo_keeps _ _ h hc) ?_
  refine Keeps.ite (writeSwi_keeps _ _ h hc) ?_
  refine Keeps.ite (writeCrst_keeps _ _ h hc) ?_
  refine Keeps.ite (writeLkCmd_keeps _ _ _ h hc) ?_
  refine Keeps.ite (writeSprReq_keeps _ _ h hc) ?_
  exact writeMeas_keeps _ _ _ _ h hc
grind_pattern writeF_keeps => s.writeF m k i v

/-- See State.writeReg. -/
theorem writeReg_keeps (s : State) (m : Master) (k : RegKind) (i : Nat) (v : Word) (h : s.mem.wf = true) (hc : coresLegal s.cores) :
    (State.writeReg s m k i v).mem.wf = true ∧ coresLegal (State.writeReg s m k i v).cores ∧ (State.writeReg s m k i v).pending = s.pending := by
  grind [State.writeReg]
grind_pattern writeReg_keeps => State.writeReg s m k i v

end Sys2Proof.Machine
end

