-- ==== Sys2Proof/Laws/Frame/Bus.lean ====
section
/-! SUPPORT. What the operations of Machine/Bus.lean leave: memory in canonical form and the queue of waiting commands. -/

namespace Sys2Proof.Machine

open Sys2Proof

/-- See State.readBus. -/
theorem readBus_keeps (s : State) (m : Master) (a n : Nat) (h : s.mem.wf = true) (hc : coresLegal s.cores) :
    (State.readBus s m a n).2.mem.wf = true ∧ coresLegal (State.readBus s m a n).2.cores ∧ (State.readBus s m a n).2.pending = s.pending := by
  grind [State.readBus]
grind_pattern readBus_keeps => State.readBus s m a n

/-- See State.writeBus. -/
theorem writeBus_keeps (s : State) (m : Master) (a : Nat) (bs : List Byte) (h : s.mem.wf = true) (hc : coresLegal s.cores) :
    (State.writeBus s m a bs).2.mem.wf = true ∧ coresLegal (State.writeBus s m a bs).2.cores ∧ (State.writeBus s m a bs).2.pending = s.pending := by
  grind [State.writeBus]
grind_pattern writeBus_keeps => State.writeBus s m a bs

/-- See State.answerRead. -/
theorem answerRead_keeps (r : Answer (List Byte) × State) (h : r.2.mem.wf = true) (hc : coresLegal r.2.cores) :
    (State.answerRead r).mem.wf = true ∧ coresLegal (State.answerRead r).cores ∧ (State.answerRead r).pending = r.2.pending :=
  answer_keeps r.2 _ h hc
grind_pattern answerRead_keeps => State.answerRead r

/-- See State.answerWrite. -/
theorem answerWrite_keeps (r : Answer Unit × State) (h : r.2.mem.wf = true) (hc : coresLegal r.2.cores) :
    (State.answerWrite r).mem.wf = true ∧ coresLegal (State.answerWrite r).cores ∧ (State.answerWrite r).pending = r.2.pending :=
  answer_keeps r.2 _ h hc
grind_pattern answerWrite_keeps => State.answerWrite r

end Sys2Proof.Machine
end

