-- ==== Sys2Proof/Laws/Frame/Start.lean ====
section
/-! SUPPORT. What the operations of Machine/Start.lean leave: memory in canonical form and the queue of waiting commands. -/

namespace Sys2Proof.Machine

open Sys2Proof

/-- See State.layParams. -/
theorem layParams_keeps (s : State) (base : Nat) (l : List Nat) (h : s.mem.wf = true) (hc : coresLegal s.cores) :
    (State.layParams s base l).mem.wf = true ∧ coresLegal (State.layParams s base l).cores ∧ (State.layParams s base l).pending = s.pending := by
  grind [State.layParams]
grind_pattern layParams_keeps => State.layParams s base l

/-- See State.layHead. -/
theorem layHead_keeps (s : State) (p : List Byte) (h : s.mem.wf = true) (hc : coresLegal s.cores) :
    (State.layHead s p).mem.wf = true ∧ coresLegal (State.layHead s p).cores ∧ (State.layHead s p).pending = s.pending := by
  grind [State.layHead]
grind_pattern layHead_keeps => State.layHead s p

/-- See State.laySign. -/
theorem laySign_keeps (s : State) (p : List Byte) (h : s.mem.wf = true) (hc : coresLegal s.cores) :
    (State.laySign s p).mem.wf = true ∧ coresLegal (State.laySign s p).cores ∧ (State.laySign s p).pending = s.pending := by
  grind [State.laySign]
grind_pattern laySign_keeps => State.laySign s p

/-- See State.laySeal. -/
theorem laySeal_keeps (s : State) (p : List Byte) (h : s.mem.wf = true) (hc : coresLegal s.cores) :
    (State.laySeal s p).mem.wf = true ∧ coresLegal (State.laySeal s p).cores ∧ (State.laySeal s p).pending = s.pending := by
  grind [State.laySeal]
grind_pattern laySeal_keeps => State.laySeal s p

/-- See State.startAttempt. -/
theorem startAttempt_keeps (s : State) (h : s.mem.wf = true) (hc : coresLegal s.cores) :
    (State.startAttempt s).mem.wf = true ∧ coresLegal (State.startAttempt s).cores ∧ (State.startAttempt s).pending = s.pending := by
  grind [State.startAttempt]
grind_pattern startAttempt_keeps => State.startAttempt s

/-- See State.startSources. -/
theorem startSources_keeps (s : State) (h : s.mem.wf = true) (hc : coresLegal s.cores) :
    (State.startSources s).mem.wf = true ∧ coresLegal (State.startSources s).cores ∧ (State.startSources s).pending = s.pending := by
  grind [State.startSources]
grind_pattern startSources_keeps => State.startSources s

/-- See State.failSource. -/
theorem failSource_keeps (s : State) (src : Source) (e : CheckErr) (h : s.mem.wf = true) (hc : coresLegal s.cores) :
    (State.failSource s src e).mem.wf = true ∧ coresLegal (State.failSource s src e).cores ∧ (State.failSource s src e).pending = s.pending := by
  grind [State.failSource]
grind_pattern failSource_keeps => State.failSource s src e

/-- See State.acceptImage. -/
theorem acceptImage_keeps (s : State) (src : Source) (l : List Section) (h : s.mem.wf = true) (hc : coresLegal s.cores) :
    (State.acceptImage s src l).mem.wf = true ∧ coresLegal (State.acceptImage s src l).cores ∧ (State.acceptImage s src l).pending = s.pending := by
  unfold State.acceptImage; grind
grind_pattern acceptImage_keeps => State.acceptImage s src l

/-- See State.tilesOn. -/
theorem tilesOn_keeps (s : State) (d : Die) (h : s.mem.wf = true) (hc : coresLegal s.cores) :
    (s.tilesOn d).mem.wf = true ∧ coresLegal (s.tilesOn d).cores ∧ (s.tilesOn d).pending = s.pending := by
  have k : Keeps s ((s.setTileMem d []).setEccTab d []) := by grind [Keeps, Tab.wf_nil]
  unfold State.tilesOn
  refine Keeps.step k fun a b => foldl_keeps _ _ _ a b ?_
  intro t x p q
  exact Keeps.step (setTile_keeps t d x {} p q) fun a b => setReg_keeps _ _ _ _ a b
grind_pattern tilesOn_keeps => s.tilesOn d

/-- See State.markRecorded. -/
theorem markRecorded_keeps (s : State) (kinds : List Nat) (h : s.mem.wf = true) (hc : coresLegal s.cores) :
    (State.markRecorded s kinds).mem.wf = true ∧ coresLegal (State.markRecorded s kinds).cores ∧ (State.markRecorded s kinds).pending = s.pending := by
  grind [State.markRecorded]
grind_pattern markRecorded_keeps => State.markRecorded s kinds

/-- See State.repairF. -/
theorem repairF_keeps (s : State) (h : s.mem.wf = true) (hc : coresLegal s.cores) :
    (State.repairF s).mem.wf = true ∧ coresLegal (State.repairF s).cores ∧ (State.repairF s).pending = s.pending := by
  grind [State.repairF]
grind_pattern repairF_keeps => State.repairF s

/-- See State.repairC. -/
theorem repairC_keeps (s : State) (h : s.mem.wf = true) (hc : coresLegal s.cores) :
    (State.repairC s).mem.wf = true ∧ coresLegal (State.repairC s).cores ∧ (State.repairC s).pending = s.pending := by
  grind [State.repairC]
grind_pattern repairC_keeps => State.repairC s

/-- See State.layMaster. -/
theorem layMaster_keeps (s : State) (d : Die) (p : List Byte) (m : Nat) (h : s.mem.wf = true) (hc : coresLegal s.cores) :
    (s.layMaster d p m).mem.wf = true ∧ coresLegal (s.layMaster d p m).cores ∧ (s.layMaster d p m).pending = s.pending := by
  unfold State.layMaster
  generalize priShape d = x
  obtain ⟨n, targets⟩ := x
  exact Keeps.step (foldl_keeps _ (upto n) s h hc fun t x p q => setReg_keeps t _ _ _ p q) fun a b => setReg_keeps _ _ _ _ a b
grind_pattern layMaster_keeps => s.layMaster d p m

/-- See State.layGroup. -/
theorem layGroup_keeps (s : State) (p : List Byte) (g : Nat) (h : s.mem.wf = true) (hc : coresLegal s.cores) :
    (s.layGroup p g).mem.wf = true ∧ coresLegal (s.layGroup p g).cores ∧ (s.layGroup p g).pending = s.pending := by
  unfold State.layGroup
  dsimp only
  split <;>
  exact Keeps.step (foldl_keeps _ (upto 16) s h hc fun t x p q => setPair_keeps t _ _ _ _ p q) fun a b => setReg_keeps _ _ _ _ a b
grind_pattern layGroup_keeps => s.layGroup p g

/-- See State.layMatrix. -/
theorem layMatrix_keeps (s : State) (d : Die) (p : List Byte) (h : s.mem.wf = true) (hc : coresLegal s.cores) :
    (s.layMatrix d p).mem.wf = true ∧ coresLegal (s.layMatrix d p).cores ∧ (s.layMatrix d p).pending = s.pending := by
  unfold State.layMatrix
  refine Keeps.step (Keeps.step (foldl_keeps _ _ s h hc fun t g x y => ?_) fun a b => foldl_keeps _ _ _ a b fun t g x y => ?_)
    fun a b => foldl_keeps _ _ _ a b fun t m x y => layMaster_keeps t d p m x y
  · exact Keeps.step (Keeps.step (layGroup_keeps t p g x y) fun a b => layParams_keeps _ _ _ a b) fun a b => layParams_keeps _ _ _ a b
  · exact Keeps.step (layParams_keeps t _ _ x y) fun a b => layParams_keeps _ _ _ a b
grind_pattern layMatrix_keeps => s.layMatrix d p

/-- See State.layTiles. -/
theorem layTiles_keeps (s : State) (d : Die) (p : List Byte) (h : s.mem.wf = true) (hc : coresLegal s.cores) :
    (State.layTiles s d p).mem.wf = true ∧ coresLegal (State.layTiles s d p).cores ∧ (State.layTiles s d p).pending = s.pending := by
  unfold State.layTiles; grind
grind_pattern layTiles_keeps => State.layTiles s d p

/-- See State.layZone. -/
theorem layZone_keeps (s : State) (p : List Byte) (z : Nat) (h : s.mem.wf = true) (hc : coresLegal s.cores) :
    (State.layZone s p z).mem.wf = true ∧ coresLegal (State.layZone s p z).cores ∧ (State.layZone s p z).pending = s.pending := by
  grind [State.layZone]
grind_pattern layZone_keeps => State.layZone s p z

/-- See State.layCourse. -/
theorem layCourse_keeps (s : State) (c : Nat) (f : List Nat) (h : s.mem.wf = true) (hc : coresLegal s.cores) :
    (State.layCourse s c f).mem.wf = true ∧ coresLegal (State.layCourse s c f).cores ∧ (State.layCourse s c f).pending = s.pending := by
  grind [State.layCourse]
grind_pattern layCourse_keeps => State.layCourse s c f

/-- See State.presetJoint. -/
theorem presetJoint_keeps (s : State) (j v : Nat) (h : s.mem.wf = true) (hc : coresLegal s.cores) :
    (State.presetJoint s j v).mem.wf = true ∧ coresLegal (State.presetJoint s j v).cores ∧ (State.presetJoint s j v).pending = s.pending := by
  grind [State.presetJoint]
grind_pattern presetJoint_keeps => State.presetJoint s j v

/-- See State.layJoint. -/
theorem layJoint_keeps (s : State) (j v : Nat) (h : s.mem.wf = true) (hc : coresLegal s.cores) :
    (State.layJoint s j v).mem.wf = true ∧ coresLegal (State.layJoint s j v).cores ∧ (State.layJoint s j v).pending = s.pending := by
  grind [State.layJoint]
grind_pattern layJoint_keeps => State.layJoint s j v

/-- See State.layCourses. -/
theorem layCourses_keeps (s : State) (p : Option (List Byte)) (h : s.mem.wf = true) (hc : coresLegal s.cores) :
    (s.layCourses p).mem.wf = true ∧ coresLegal (s.layCourses p).cores ∧ (s.layCourses p).pending = s.pending := by
  unfold State.layCourses
  refine Keeps.step (foldl_keeps _ (upto 8) s h hc fun t c x y => ?_) fun a b =>
    foldl_keeps _ (upto 128) _ a b fun t c x y => layJoint_keeps t c _ x y
  cases p with
  | none => exact layCourse_keeps t c _ x y
  | some q => exact Keeps.ite (layCourse_keeps t c _ x y) (Keeps.refl x y)
grind_pattern layCourses_keeps => s.layCourses p

/-- See State.initWrite. -/
theorem initWrite_keeps (s : State) (e : InitEntry) (h : s.mem.wf = true) (hc : coresLegal s.cores) :
    (State.initWrite s e).mem.wf = true ∧ coresLegal (State.initWrite s e).cores ∧ (State.initWrite s e).pending = s.pending := by
  grind [State.initWrite]
grind_pattern initWrite_keeps => State.initWrite s e

/-- See State.layInit. -/
theorem layInit_keeps (s : State) (d : Die) (p : Option (List Byte)) (h : s.mem.wf = true) (hc : coresLegal s.cores) :
    (State.layInit s d p).mem.wf = true ∧ coresLegal (State.layInit s d p).cores ∧ (State.layInit s d p).pending = s.pending := by
  unfold State.layInit; grind
grind_pattern layInit_keeps => State.layInit s d p

/-- See State.layInitParams. -/
theorem layInitParams_keeps (s : State) (p : Option (List Byte)) (h : s.mem.wf = true) (hc : coresLegal s.cores) :
    (State.layInitParams s p).mem.wf = true ∧ coresLegal (State.layInitParams s p).cores ∧ (State.layInitParams s p).pending = s.pending := by
  unfold State.layInitParams; grind
grind_pattern layInitParams_keeps => State.layInitParams s p

/-- See State.fPhase. -/
theorem fPhase_keeps (s : State) (l : List Section) (h : s.mem.wf = true) (hc : coresLegal s.cores) :
    (State.fPhase s l).mem.wf = true ∧ coresLegal (State.fPhase s l).cores ∧ (State.fPhase s l).pending = s.pending := by
  grind [State.fPhase]
grind_pattern fPhase_keeps => State.fPhase s l

/-- See State.showImage. -/
theorem showImage_keeps (s : State) (h : s.mem.wf = true) (hc : coresLegal s.cores) :
    (State.showImage s).mem.wf = true ∧ coresLegal (State.showImage s).cores ∧ (State.showImage s).pending = s.pending := by
  grind [State.showImage]
grind_pattern showImage_keeps => State.showImage s

/-- See State.afterField. -/
theorem afterField_keeps (s : State) (h : s.mem.wf = true) (hc : coresLegal s.cores) :
    (State.afterField s).mem.wf = true ∧ coresLegal (State.afterField s).cores ∧ (State.afterField s).pending = s.pending := by
  grind [State.afterField]
grind_pattern afterField_keeps => State.afterField s

/-- See State.layTemplate. -/
theorem layTemplate_keeps (s : State) (e : List Byte) (h : s.mem.wf = true) (hc : coresLegal s.cores) :
    (State.layTemplate s e).mem.wf = true ∧ coresLegal (State.layTemplate s e).cores ∧ (State.layTemplate s e).pending = s.pending := by
  grind [State.layTemplate]
grind_pattern layTemplate_keeps => State.layTemplate s e

/-- See State.layBonds. -/
theorem layBonds_keeps (s : State) (p : Option (List Byte)) (h : s.mem.wf = true) (hc : coresLegal s.cores) :
    (State.layBonds s p).mem.wf = true ∧ coresLegal (State.layBonds s p).cores ∧ (State.layBonds s p).pending = s.pending := by
  grind [State.layBonds]
grind_pattern layBonds_keeps => State.layBonds s p

/-- See State.layPolicy. -/
theorem layPolicy_keeps (s : State) (p : List Byte) (h : s.mem.wf = true) (hc : coresLegal s.cores) :
    (State.layPolicy s p).mem.wf = true ∧ coresLegal (State.layPolicy s p).cores ∧ (State.layPolicy s p).pending = s.pending := by
  grind [State.layPolicy]
grind_pattern layPolicy_keeps => State.layPolicy s p

/-- See State.layStatic. -/
theorem layStatic_keeps (s : State) (p : List Byte) (h : s.mem.wf = true) (hc : coresLegal s.cores) :
    (State.layStatic s p).mem.wf = true ∧ coresLegal (State.layStatic s p).cores ∧ (State.layStatic s p).pending = s.pending := by
  grind [State.layStatic]
grind_pattern layStatic_keeps => State.layStatic s p

/-- See State.layRoster. -/
theorem layRoster_keeps (s : State) (p : Option (List Byte)) (h : s.mem.wf = true) (hc : coresLegal s.cores) :
    (State.layRoster s p).mem.wf = true ∧ coresLegal (State.layRoster s p).cores ∧ (State.layRoster s p).pending = s.pending := by
  unfold State.layRoster; grind
grind_pattern layRoster_keeps => State.layRoster s p

/-- See State.newWear. -/
theorem newWear_keeps (s : State) (h : s.mem.wf = true) (hc : coresLegal s.cores) :
    (State.newWear s).mem.wf = true ∧ coresLegal (State.newWear s).cores ∧ (State.newWear s).pending = s.pending := by
  grind [State.newWear]
grind_pattern newWear_keeps => State.newWear s

/-- See State.cPhase. -/
theorem cPhase_keeps (s : State) (l : List Section) (h : s.mem.wf = true) (hc : coresLegal s.cores) :
    (s.cPhase l).mem.wf = true ∧ coresLegal (s.cPhase l).cores ∧ (s.cPhase l).pending = s.pending := by
  have k1 : Keeps s ((((s.repairC).tilesOn .c).layTiles .c (needed l 4)).layMatrix .c (needed l 5)) :=
    Keeps.step (Keeps.step (Keeps.step (repairC_keeps s h hc) fun a b => tilesOn_keeps _ _ a b) fun a b => layTiles_keeps _ _ _ a b)
      fun a b => layMatrix_keeps _ _ _ a b
  unfold State.cPhase
  generalize (((s.repairC).tilesOn .c).layTiles .c (needed l 4)).layMatrix .c (needed l 5) = s1 at k1 ⊢
  dsimp only
  have k2 : Keeps s ((upto 5).foldl (fun s z => s.layZone (needed l 8) z) s1) :=
    Keeps.step k1 fun a b => foldl_keeps _ (upto 5) _ a b fun t z x y => layZone_keeps t _ z x y
  generalize (upto 5).foldl (fun s z => s.layZone (needed l 8) z) s1 = s2 at k2 ⊢
  have k3 : Keeps s (((s2.layBonds (payloadOf l 6)).layRoster (payloadOf l 9)).layInit .c (payloadOf l 11)) :=
    Keeps.step (Keeps.step (Keeps.step k2 fun a b => layBonds_keeps _ _ a b) fun a b => layRoster_keeps _ _ a b)
      fun a b => layInit_keeps _ _ _ a b
  generalize ((s2.layBonds (payloadOf l 6)).layRoster (payloadOf l 9)).layInit .c (payloadOf l 11) = s3 at k3 ⊢
  exact ⟨k3.1, k3.2.1, k3.2.2⟩
grind_pattern cPhase_keeps => s.cPhase l

end Sys2Proof.Machine
end

