-- ==== Sys2Proof/Laws/Frame/Relay.lean ====
section
/-! SUPPORT. What the operations of Machine/Relay.lean leave: memory in canonical form and the queue of waiting commands. -/

namespace Sys2Proof.Machine

open Sys2Proof

/-- See State.holdCourse. -/
theorem holdCourse_keeps (s : State) (c : Nat) (h : s.mem.wf = true) (hc : coresLegal s.cores) :
    (State.holdCourse s c).mem.wf = true ∧ coresLegal (State.holdCourse s c).cores ∧ (State.holdCourse s c).pending = s.pending := by
  grind [State.holdCourse]
grind_pattern holdCourse_keeps => State.holdCourse s c

/-- See State.relayCourses. -/
theorem relayCourses_keeps (s : State) (p : List Byte) (h : s.mem.wf = true) (hc : coresLegal s.cores) :
    (s.relayCourses p).mem.wf = true ∧ coresLegal (s.relayCourses p).cores ∧ (s.relayCourses p).pending = s.pending := by
  unfold State.relayCourses
  refine Keeps.step (foldl_keeps _ (upto 8) s h hc fun t c x y => ?_) fun a b => foldl_keeps _ (upto 128) _ a b fun t c x y => ?_
  · exact Keeps.ite (Keeps.step (layParams_keeps t _ _ x y) fun a b => holdCourse_keeps _ c a b) (Keeps.refl x y)
  · exact Keeps.ite (presetJoint_keeps t c _ x y) (Keeps.refl x y)
grind_pattern relayCourses_keeps => s.relayCourses p

/-- See State.relayKiln. -/
theorem relayKiln_keeps (s : State) (p : List Byte) (h : s.mem.wf = true) (hc : coresLegal s.cores) :
    (State.relayKiln s p).mem.wf = true ∧ coresLegal (State.relayKiln s p).cores ∧ (State.relayKiln s p).pending = s.pending := by
  grind [State.relayKiln]
grind_pattern relayKiln_keeps => State.relayKiln s p

/-- See State.applySection. -/
theorem applySection_keeps (s : State) (x : Section) (h : s.mem.wf = true) (hc : coresLegal s.cores) :
    (State.applySection s x).mem.wf = true ∧ coresLegal (State.applySection s x).cores ∧ (State.applySection s x).pending = s.pending := by
  grind [State.applySection]
grind_pattern applySection_keeps => State.applySection s x

/-- See State.endRelay. -/
theorem endRelay_keeps (s : State) (deferred : Bool) (sect code : Nat) (h : s.mem.wf = true) (hc : coresLegal s.cores) :
    (State.endRelay s deferred sect code).mem.wf = true ∧ coresLegal (State.endRelay s deferred sect code).cores ∧ (State.endRelay s deferred sect code).pending = s.pending := by
  grind [State.endRelay]
grind_pattern endRelay_keeps => State.endRelay s deferred sect code

/-- See State.relay. -/
theorem relay_keeps (s : State) (h : s.mem.wf = true) (hc : coresLegal s.cores) :
    (State.relay s).mem.wf = true ∧ coresLegal (State.relay s).cores ∧ (State.relay s).pending = s.pending := by
  grind [State.relay]
grind_pattern relay_keeps => State.relay s

end Sys2Proof.Machine
end

