-- ==== Sys2Proof/Laws/Frame/Operands.lean ====
section
/-! SUPPORT. What the operations of Machine/Operands.lean leave: memory in canonical form and the queue of waiting commands. -/

namespace Sys2Proof.Machine

open Sys2Proof

/-- See State.wrPhys. -/
theorem wrPhys_keeps (s : State) (c : CoreId) (p : Nat) (v : Word) (h : s.mem.wf = true) (hc : coresLegal s.cores) :
    (s.wrPhys c p v).mem.wf = true ∧ coresLegal (s.wrPhys c p v).cores ∧ (s.wrPhys c p v).pending = s.pending := by
  exact modCore_keeps _ _ _ h hc (setPreg_legal _ _ _ _ (core_legal s c hc))
grind_pattern wrPhys_keeps => s.wrPhys c p v

/-- See State.wr. -/
theorem wr_keeps (s : State) (c : CoreId) (r : Reg) (v : Word) (h : s.mem.wf = true) (hc : coresLegal s.cores) :
    (State.wr s c r v).mem.wf = true ∧ coresLegal (State.wr s c r v).cores ∧ (State.wr s c r v).pending = s.pending := by
  grind [State.wr]
grind_pattern wr_keeps => State.wr s c r v

/-- See State.wrp. -/
theorem wrp_keeps (s : State) (c : CoreId) (p : PairIx) (v : W32) (h : s.mem.wf = true) (hc : coresLegal s.cores) :
    (State.wrp s c p v).mem.wf = true ∧ coresLegal (State.wrp s c p v).cores ∧ (State.wrp s c p v).pending = s.pending := by
  grind [State.wrp]
grind_pattern wrp_keeps => State.wrp s c p v

/-- See State.modSpec. -/
theorem modSpec_keeps (s : State) (c : CoreId) (f : Core → Core) (h : s.mem.wf = true) (hc : coresLegal s.cores)
    (hf : Core.legal c (f (s.core c)) = true) :
    (s.modSpec c f).mem.wf = true ∧ coresLegal (s.modSpec c f).cores ∧ (s.modSpec c f).pending = s.pending := by
  exact modCore_keeps _ _ _ h hc (spec_legal _ _ _ hf)
grind_pattern modSpec_keeps => s.modSpec c f

/-- PSW of a core of a legal state is legal. -/
theorem psw_ok (s : State) (c : CoreId) (hc : coresLegal s.cores) : pswLegal (s.psw c) = true :=
  ((Core.legal_iff c _).1 (core_legal s c hc)).2.2.1

/-- See State.setPsw. -/
theorem setPsw_keeps (s : State) (c : CoreId) (v : Word) (h : s.mem.wf = true) (hc : coresLegal s.cores) (hv : pswLegal v = true) :
    (s.setPsw c v).mem.wf = true ∧ coresLegal (s.setPsw c v).cores ∧ (s.setPsw c v).pending = s.pending := by
  exact modSpec_keeps s c _ h hc (psw_legal _ _ _ (core_legal s c hc) hv)
grind_pattern setPsw_keeps => s.setPsw c v

/-- See State.flags. -/
theorem flags_keeps (s : State) (c : CoreId) (u : Upd) (h : s.mem.wf = true) (hc : coresLegal s.cores) (hu : maskOk u.mask) :
    (s.flags c u).mem.wf = true ∧ coresLegal (s.flags c u).cores ∧ (s.flags c u).pending = s.pending := by
  unfold State.flags
  have k1 : Keeps s (s.modCore c fun k => k.younger u.mask) := modCore_keeps _ _ _ h hc (younger_legal _ _ _ (core_legal s c hc))
  exact Keeps.step k1 fun a b => setPsw_keeps _ _ _ a b (on_legal _ _ hu (psw_ok s c hc))
grind_pattern flags_keeps => s.flags c u

/-- See State.leaveLoop. -/
theorem leaveLoop_keeps (s : State) (c : CoreId) (h : s.mem.wf = true) (hc : coresLegal s.cores) :
    (s.leaveLoop c).mem.wf = true ∧ coresLegal (s.leaveLoop c).cores ∧ (s.leaveLoop c).pending = s.pending := by
  exact Keeps.step (setBit_keeps s _ _ _ _ h hc) fun a b => modCore_keeps _ _ _ a b (core_legal _ c b)
grind_pattern leaveLoop_keeps => s.leaveLoop c

/-- See seqM. -/
theorem seqM_keeps {α β : Type} (f : State → α → Res β) (l : List α) (s : State) (h : s.mem.wf = true) (hc : coresLegal s.cores)
    (hf : ∀ (t : State) (a : α), t.mem.wf = true → coresLegal t.cores → Keeps t (f t a).2) : Keeps s (seqM f l s).2 := by
  induction l generalizing s with
  | nil => exact ⟨h, hc, rfl⟩
  | cons a l ih =>
    unfold seqM
    have k := hf s a h hc
    generalize f s a = r at k ⊢
    obtain ⟨r, s1⟩ := r
    cases r with
    | error e => exact k
    | ok b =>
      dsimp only at k ⊢
      have k2 : Keeps s (seqM f l s1).2 := Keeps.step k fun x y => ih s1 x y
      generalize seqM f l s1 = r at k2 ⊢
      obtain ⟨r, s2⟩ := r
      cases r with
      | error e => exact k2
      | ok bs => exact k2

end Sys2Proof.Machine
end

