-- ==== Sys2Proof/Laws/Frame/HodMem.lean ====
section
/-! SUPPORT. What the operations of Machine/HodMem.lean leave: memory in canonical form and the queue of waiting commands. -/

namespace Sys2Proof.Machine

open Sys2Proof

/-- See State.xl. -/
theorem xl_keeps (s : State) (c : CoreId) (n : Need) (va : W32) (h : s.mem.wf = true) (hc : coresLegal s.cores) :
    (State.xl s c n va).2.mem.wf = true ∧ coresLegal (State.xl s c n va).2.cores ∧ (State.xl s c n va).2.pending = s.pending := by
  grind [State.xl]
grind_pattern xl_keeps => State.xl s c n va

/-- See State.storeCheck. -/
theorem storeCheck_keeps (s : State) (c : CoreId) (n : Need) (va : W32) (h : s.mem.wf = true) (hc : coresLegal s.cores) :
    (State.storeCheck s c n va).2.mem.wf = true ∧ coresLegal (State.storeCheck s c n va).2.cores ∧ (State.storeCheck s c n va).2.pending = s.pending := by
  grind [State.storeCheck]
grind_pattern storeCheck_keeps => State.storeCheck s c n va

/-- See State.putBus. -/
theorem putBus_keeps (s : State) (c : CoreId) (a : Nat) (bs : List Byte) (h : s.mem.wf = true) (hc : coresLegal s.cores) :
    (State.putBus s c a bs).mem.wf = true ∧ coresLegal (State.putBus s c a bs).cores ∧ (State.putBus s c a bs).pending = s.pending := by
  grind [State.putBus]
grind_pattern putBus_keeps => State.putBus s c a bs

/-- See State.putWords. -/
theorem putWords_keeps (s : State) (c : CoreId) (l : List (Nat × Word)) (h : s.mem.wf = true) (hc : coresLegal s.cores) :
    (State.putWords s c l).mem.wf = true ∧ coresLegal (State.putWords s c l).cores ∧ (State.putWords s c l).pending = s.pending := by
  grind [State.putWords]
grind_pattern putWords_keeps => State.putWords s c l

/-- See State.putEntry. -/
theorem putEntry_keeps (s : State) (c : CoreId) (e : StoreEntry) (h : s.mem.wf = true) (hc : coresLegal s.cores) :
    (State.putEntry s c e).mem.wf = true ∧ coresLegal (State.putEntry s c e).cores ∧ (State.putEntry s c e).pending = s.pending := by
  grind [State.putEntry]
grind_pattern putEntry_keeps => State.putEntry s c e

/-- See State.drainOne. -/
theorem drainOne_keeps (s : State) (c : CoreId) (h : s.mem.wf = true) (hc : coresLegal s.cores) :
    (s.drainOne c).mem.wf = true ∧ coresLegal (s.drainOne c).cores ∧ (s.drainOne c).pending = s.pending := by
  unfold State.drainOne
  split
  · exact ⟨h, hc, rfl⟩
  · next e r _ =>
    exact Keeps.step (t := s.modCore c fun k => { k with storeBuf := r }) (modCore_keeps s c _ h hc (core_legal s c hc)) fun a b => putEntry_keeps _ c e a b
grind_pattern drainOne_keeps => s.drainOne c

/-- See State.drainN. -/
theorem drainN_keeps (c : CoreId) (n : Nat) (s : State) (h : s.mem.wf = true) (hc : coresLegal s.cores) :
    (State.drainN c n s).mem.wf = true ∧ coresLegal (State.drainN c n s).cores ∧ (State.drainN c n s).pending = s.pending := by
  induction n generalizing s with
  | zero => exact ⟨h, hc, rfl⟩
  | succ n ih => exact Keeps.step (drainOne_keeps s c h hc) fun a b => ih _ a b
grind_pattern drainN_keeps => State.drainN c n s

/-- See State.drainAll. -/
theorem drainAll_keeps (s : State) (c : CoreId) (h : s.mem.wf = true) (hc : coresLegal s.cores) :
    (s.drainAll c).mem.wf = true ∧ coresLegal (s.drainAll c).cores ∧ (s.drainAll c).pending = s.pending := by
  exact drainN_keeps _ _ _ h hc
grind_pattern drainAll_keeps => s.drainAll c

/-- See State.putStore. -/
theorem putStore_keeps (s : State) (c : CoreId) (l : List (Nat × Word)) (dev : Bool) (h : s.mem.wf = true) (hc : coresLegal s.cores) :
    (s.putStore c l dev).mem.wf = true ∧ coresLegal (s.putStore c l dev).cores ∧ (s.putStore c l dev).pending = s.pending := by
  unfold State.putStore
  split
  · exact Keeps.step (drainAll_keeps s c h hc) fun a b => putWords_keeps _ _ _ a b
  · have k : Keeps s (if 8 ≤ (s.core c).storeBuf.length then s.drainOne c else s) := Keeps.ite (drainOne_keeps s c h hc) (Keeps.refl h hc)
    generalize (if 8 ≤ (s.core c).storeBuf.length then s.drainOne c else s) = s1 at k ⊢
    exact Keeps.step k fun a b => modCore_keeps _ _ _ a b (core_legal _ c b)
grind_pattern putStore_keeps => s.putStore c l dev

/-- See State.readWord1. -/
theorem readWord1_keeps (s : State) (c : CoreId) (w : W32 × Nat) (h : s.mem.wf = true) (hc : coresLegal s.cores) :
    (State.readWord1 s c w).2.mem.wf = true ∧ coresLegal (State.readWord1 s c w).2.cores ∧ (State.readWord1 s c w).2.pending = s.pending := by
  grind [State.readWord1]
grind_pattern readWord1_keeps => State.readWord1 s c w

/-- See State.readWords. -/
theorem readWords_keeps (s : State) (c : CoreId) (ws : List (W32 × Nat)) (dev : Bool) (h : s.mem.wf = true) (hc : coresLegal s.cores) :
    (s.readWords c ws dev).2.mem.wf = true ∧ coresLegal (s.readWords c ws dev).2.cores ∧ (s.readWords c ws dev).2.pending = s.pending := by
  have hs : ∀ l, Keeps s (seqM (fun s w => s.readWord1 c w) l s).2 := fun l => seqM_keeps _ l s h hc fun t a x y => readWord1_keeps t c a x y
  unfold State.readWords
  split
  · split
    · next va a _ b _ =>
      have k : Keeps s (s.readBus (dataPort c) a 4).2 := readBus_keeps _ _ _ _ h hc
      generalize s.readBus (dataPort c) a 4 = r at k ⊢
      obtain ⟨r, s1⟩ := r
      cases r <;> exact k
    · exact hs _
  · exact hs _
grind_pattern readWords_keeps => s.readWords c ws dev

/-- See State.loadWords. -/
theorem loadWords_keeps (s : State) (c : CoreId) (ws : List (W32 × Nat)) (dev : Bool) (h : s.mem.wf = true) (hc : coresLegal s.cores) :
    (s.loadWords c ws dev).2.mem.wf = true ∧ coresLegal (s.loadWords c ws dev).2.cores ∧ (s.loadWords c ws dev).2.pending = s.pending := by
  unfold State.loadWords
  split
  · exact Keeps.step (drainAll_keeps s c h hc) fun a b => readWords_keeps _ _ _ _ a b
  · split
    · exact readWords_keeps _ _ _ _ h hc
    · split
      · exact ⟨h, hc, rfl⟩
      · exact Keeps.step (drainN_keeps _ _ s h hc) fun a b => readWords_keeps _ _ _ _ a b
grind_pattern loadWords_keeps => s.loadWords c ws dev

/-- See State.load1. -/
theorem load1_keeps (s : State) (c : CoreId) (va : W32) (h : s.mem.wf = true) (hc : coresLegal s.cores) :
    (State.load1 s c va).2.mem.wf = true ∧ coresLegal (State.load1 s c va).2.cores ∧ (State.load1 s c va).2.pending = s.pending := by
  grind [State.load1]
grind_pattern load1_keeps => State.load1 s c va

/-- See State.readAll. -/
theorem readAll_keeps (s : State) (c : CoreId) (n : Need) (l : List W32) (h : s.mem.wf = true) (hc : coresLegal s.cores) :
    (s.readAll c n l).2.mem.wf = true ∧ coresLegal (s.readAll c n l).2.cores ∧ (s.readAll c n l).2.pending = s.pending := by
  have k : Keeps s (seqM (fun s a => s.xl c n a) l (s.drainAll c)).2 :=
    Keeps.step (drainAll_keeps s c h hc) fun a b => seqM_keeps _ l _ a b fun t a x y => xl_keeps t c n a x y
  unfold State.readAll
  dsimp only
  generalize seqM (fun s a => s.xl c n a) l (s.drainAll c) = r at k ⊢
  obtain ⟨r, s1⟩ := r
  cases r with
  | error e => exact k
  | ok ps => exact Keeps.step k fun a b => seqM_keeps _ _ _ a b fun t a x y => readWord1_keeps t c a x y
grind_pattern readAll_keeps => s.readAll c n l

/-- See State.checkAll. -/
theorem checkAll_keeps (s : State) (c : CoreId) (n : Need) (l : List W32) (h : s.mem.wf = true) (hc : coresLegal s.cores) :
    (s.checkAll c n l).2.mem.wf = true ∧ coresLegal (s.checkAll c n l).2.cores ∧ (s.checkAll c n l).2.pending = s.pending := by
  have k : Keeps s (seqM (fun s a => s.storeCheck c n a) l (s.drainAll c)).2 :=
    Keeps.step (drainAll_keeps s c h hc) fun a b => seqM_keeps _ l _ a b fun t a x y => storeCheck_keeps t c n a x y
  unfold State.checkAll
  generalize seqM (fun s a => s.storeCheck c n a) l (s.drainAll c) = r at k ⊢
  obtain ⟨r, s1⟩ := r
  cases r <;> exact k
grind_pattern checkAll_keeps => s.checkAll c n l

/-- The state of an answer stays. -/
theorem shadowFault_state {α : Type} (r : Res α) : (shadowFault r).2 = r.2 := by
  obtain ⟨r, s⟩ := r
  cases r <;> rfl

/-- See State.shadowRead. -/
theorem shadowRead_keeps (s : State) (c : CoreId) (a : W32) (n : Nat) (h : s.mem.wf = true) (hc : coresLegal s.cores) :
    (s.shadowRead c a n).2.mem.wf = true ∧ coresLegal (s.shadowRead c a n).2.cores ∧ (s.shadowRead c a n).2.pending = s.pending := by
  unfold State.shadowRead
  rw [shadowFault_state]
  exact readAll_keeps _ _ _ _ h hc
grind_pattern shadowRead_keeps => s.shadowRead c a n

/-- See State.tryPush. -/
theorem tryPush_keeps (s : State) (c : CoreId) (w : W32 × Nat) (h : s.mem.wf = true) (hc : coresLegal s.cores) :
    (State.tryPush s c w).2.mem.wf = true ∧ coresLegal (State.tryPush s c w).2.cores ∧ (State.tryPush s c w).2.pending = s.pending := by
  grind [State.tryPush]
grind_pattern tryPush_keeps => State.tryPush s c w

/-- See State.shadowCheck. -/
theorem shadowCheck_keeps (s : State) (c : CoreId) (a : W32) (n : Nat) (h : s.mem.wf = true) (hc : coresLegal s.cores) :
    (s.shadowCheck c a n).2.mem.wf = true ∧ coresLegal (s.shadowCheck c a n).2.cores ∧ (s.shadowCheck c a n).2.pending = s.pending := by
  have k : Keeps s (s.checkAll c .shadowPush (wordsFrom a n)).2 := checkAll_keeps _ _ _ _ h hc
  unfold State.shadowCheck
  rw [shadowFault_state]
  generalize s.checkAll c .shadowPush (wordsFrom a n) = r at k ⊢
  obtain ⟨r, s1⟩ := r
  cases r with
  | error t => exact k
  | ok ps =>
    have k2 : Keeps s (seqM (fun s w => s.tryPush c w) (List.zip (wordsFrom a n) ps) s1).2 :=
      Keeps.step k fun a' b => seqM_keeps _ _ _ a' b fun t w x y => tryPush_keeps t c w x y
    dsimp only
    generalize seqM (fun s w => s.tryPush c w) (List.zip (wordsFrom a n) ps) s1 = q at k2 ⊢
    obtain ⟨q, s2⟩ := q
    cases q <;> exact k2
grind_pattern shadowCheck_keeps => s.shadowCheck c a n

end Sys2Proof.Machine
end

