-- ==== Sys2Proof/Laws/Frame/Trap.lean ====
section
/-! SUPPORT. What the operations of Machine/Trap.lean leave: memory in canonical form and the queue of waiting commands. -/

namespace Sys2Proof.Machine

open Sys2Proof

/-- See State.completeLong. -/
theorem completeLong_keeps (s : State) (c : CoreId) (h : s.mem.wf = true) (hc : coresLegal s.cores) :
    (s.completeLong c).mem.wf = true ∧ coresLegal (s.completeLong c).cores ∧ (s.completeLong c).pending = s.pending := by
  unfold State.completeLong
  split
  · exact ⟨h, hc, rfl⟩
  · next o e =>
    refine modCore_keeps _ _ _ h hc ?_
    have hk := core_legal s c hc
    have ho : maskOk o.mask := ((Core.legal_iff c _).1 hk).2.2.2.2.2.2 o e
    have h1 : Core.legal c { s.core c with longOp := none } = true := long_legal c _ _ hk fun x e => nomatch e
    have h2 : Core.legal c (o.dests.foldl (fun k e => k.setPreg e.1 e.2) { s.core c with longOp := none }) = true :=
      foldl_legal c _ _ _ h1 fun k b x => setPreg_legal _ _ _ _ x
    have h3 := landFlags_legal c _ o h2 ho
    exact h3
grind_pattern completeLong_keeps => s.completeLong c

/-- See State.readM. -/
theorem readM_keeps (s : State) (c : CoreId) (a : W32) (h : s.mem.wf = true) (hc : coresLegal s.cores) :
    (s.readM c a).2.mem.wf = true ∧ coresLegal (s.readM c a).2.cores ∧ (s.readM c a).2.pending = s.pending := by
  have k : Keeps s (s.translate c a.toNat .load 0).2 := translate_keeps _ _ _ _ _ h hc
  unfold State.readM
  generalize s.translate c a.toNat .load 0 = r at k ⊢
  obtain ⟨r, s1⟩ := r
  cases r with
  | error e => exact k
  | ok x => exact Keeps.step k fun p q => readWord1_keeps s1 c _ p q
grind_pattern readM_keeps => s.readM c a

/-- See State.gateEntry. -/
theorem gateEntry_keeps (s : State) (c : CoreId) (n : Nat) (h : s.mem.wf = true) (hc : coresLegal s.cores) :
    (s.gateEntry c n).2.mem.wf = true ∧ coresLegal (s.gateEntry c n).2.cores ∧ (s.gateEntry c n).2.pending = s.pending := by
  have k : ∀ l, Keeps s (seqM (fun s a => s.readM c a) l (s.drainAll c)).2 := fun l =>
    Keeps.step (drainAll_keeps s c h hc) fun a b => seqM_keeps _ l _ a b fun t a x y => readM_keeps t c a x y
  unfold State.gateEntry
  generalize wordsFrom ((s.core c).gtb + BitVec.ofNat 32 (8 * n)) 8 = l
  replace k := k l
  generalize seqM (fun s a => s.readM c a) l (s.drainAll c) = r at k ⊢
  obtain ⟨r, s1⟩ := r
  cases r <;> exact k
grind_pattern gateEntry_keeps => s.gateEntry c n

/-- See State.doubleFault. -/
theorem doubleFault_keeps (s : State) (c : CoreId) (reason cause : Nat) (h : s.mem.wf = true) (hc : coresLegal s.cores) :
    (s.doubleFault c reason cause).mem.wf = true ∧ coresLegal (s.doubleFault c reason cause).cores ∧ (s.doubleFault c reason cause).pending = s.pending := by
  have k1 : Keeps s (s.modCore c fun k => { k with run := .locked }) := modCore_keeps _ _ _ h hc (core_legal s c hc)
  unfold State.doubleFault
  generalize (s.modCore c fun k => { k with run := .locked }) = s1 at k1 ⊢
  refine Keeps.step (Keeps.step (Keeps.step k1 fun a b => setReg_keeps _ _ _ _ a b) fun a b => setBit_keeps _ _ _ _ _ a b) fun a b =>
    foldl_keeps _ (upto 4) _ a b fun t i x y => ?_
  exact Keeps.ite (raise_keeps t _ _ x y) (Keeps.refl x y)
grind_pattern doubleFault_keeps => s.doubleFault c reason cause

/-- See State.checkM. -/
theorem checkM_keeps (s : State) (c : CoreId) (a : W32) (h : s.mem.wf = true) (hc : coresLegal s.cores) :
    (s.checkM c a).2.mem.wf = true ∧ coresLegal (s.checkM c a).2.cores ∧ (s.checkM c a).2.pending = s.pending := by
  have k : Keeps s (s.translate c a.toNat .store 0).2 := translate_keeps _ _ _ _ _ h hc
  unfold State.checkM
  generalize s.translate c a.toNat .store 0 = r at k ⊢
  obtain ⟨r, s1⟩ := r
  cases r with
  | error e => exact k
  | ok x => dsimp only at k ⊢; split <;> exact k
grind_pattern checkM_keeps => s.checkM c a

/-- See State.tsbCheck. -/
theorem tsbCheck_keeps (s : State) (c : CoreId) (l : List W32) (h : s.mem.wf = true) (hc : coresLegal s.cores) :
    (s.tsbCheck c l).2.mem.wf = true ∧ coresLegal (s.tsbCheck c l).2.cores ∧ (s.tsbCheck c l).2.pending = s.pending := by
  have k : Keeps s (seqM (fun s a => s.checkM c a) l s).2 := seqM_keeps _ l s h hc fun t a x y => checkM_keeps t c a x y
  unfold State.tsbCheck
  generalize seqM (fun s a => s.checkM c a) l s = r at k ⊢
  obtain ⟨r, s1⟩ := r
  cases r <;> exact k
grind_pattern tsbCheck_keeps => s.tsbCheck c l

/-- See State.tsbWrite. -/
theorem tsbWrite_keeps (c : CoreId) (l : List (Nat × Word)) (s : State) (h : s.mem.wf = true) (hc : coresLegal s.cores) :
    Keeps s (State.tsbWrite c l s).2 := by
  induction l generalizing s with
  | nil => exact ⟨h, hc, rfl⟩
  | cons e l ih =>
    obtain ⟨a, w⟩ := e
    unfold State.tsbWrite
    have k : Keeps s (s.writeBus (dataPort c) a (leBytes 2 w.toNat)).2 := writeBus_keeps _ _ _ _ h hc
    generalize s.writeBus (dataPort c) a (leBytes 2 w.toNat) = r at k ⊢
    obtain ⟨r, s1⟩ := r
    cases r with
    | error e => exact k
    | ok x => exact Keeps.step k fun p q => ih s1 p q

/-- See State.tsbEnter. -/
theorem tsbEnter_keeps (s : State) (c : CoreId) (cause : Nat) (ret xaddr : W32) (imp : Bool) (xwin : Nat) (ps : List Nat) (head : List Word) (h : s.mem.wf = true) (hc : coresLegal s.cores) :
    (s.tsbEnter c cause ret xaddr imp xwin ps head).mem.wf = true ∧ coresLegal (s.tsbEnter c cause ret xaddr imp xwin ps head).cores ∧ (s.tsbEnter c cause ret xaddr imp xwin ps head).pending = s.pending := by
  have k : Keeps s (s.gateEntry c cause).2 := gateEntry_keeps _ _ _ h hc
  unfold State.tsbEnter
  generalize s.gateEntry c cause = r at k ⊢
  obtain ⟨r, s1⟩ := r
  cases r with
  | none => exact Keeps.step k fun a b => doubleFault_keeps _ _ _ _ a b
  | some e =>
    dsimp only at k ⊢
    split
    · exact Keeps.step k fun a b => doubleFault_keeps _ _ _ _ a b
    · next hv =>
      have he : entryLvl e < 3 := by
        refine entryLvl_lt e ?_
        by_contra hx
        exact hv (by simp [hx])
      have hx := xEntry_legal c (s1.core c) .tsb cause ret xaddr imp xwin (core_legal s1 c k.2.1)
      generalize (s1.core c).xEntry .tsb cause ret xaddr imp xwin = x at hx ⊢
      have k2 : Keeps s (State.tsbWrite c (List.zip (ps.drop 2) ((s1.core c).tsbWords c x)) s1).2 :=
        Keeps.step k fun a b => tsbWrite_keeps c _ s1 a b
      generalize State.tsbWrite c (List.zip (ps.drop 2) ((s1.core c).tsbWords c x)) s1 = r at k2 ⊢
      obtain ⟨r, s2⟩ := r
      cases r with
      | false => exact Keeps.step k2 fun a b => doubleFault_keeps _ _ _ _ a b
      | true =>
        exact Keeps.step k2 fun a b => modCore_keeps _ _ _ a b
          (enterAt_legal c _ _ x e (setPreg_legal _ _ _ _ (setPreg_legal _ _ _ _ (core_legal s2 c b))) hx he)
grind_pattern tsbEnter_keeps => s.tsbEnter c cause ret xaddr imp xwin ps head

/-- See State.enterTsb. -/
theorem enterTsb_keeps (s : State) (c : CoreId) (cause : Nat) (ret xaddr : W32) (imp : Bool) (xwin : Nat) (h : s.mem.wf = true) (hc : coresLegal s.cores) :
    (s.enterTsb c cause ret xaddr imp xwin).mem.wf = true ∧ coresLegal (s.enterTsb c cause ret xaddr imp xwin).cores ∧ (s.enterTsb c cause ret xaddr imp xwin).pending = s.pending := by
  have k : Keeps s ((s.completeLong c).drainAll c) := Keeps.step (completeLong_keeps s c h hc) fun a b => drainAll_keeps _ _ a b
  unfold State.enterTsb
  generalize (s.completeLong c).drainAll c = s0 at k ⊢
  dsimp only
  split
  · exact Keeps.step k fun a b => doubleFault_keeps _ _ _ _ a b
  · have k1 : Keeps s (s0.tsbCheck c (wordsFrom (s0.core c).tsb 48)).2 := Keeps.step k fun a b => tsbCheck_keeps _ _ _ a b
    generalize (s0.core c).tsb = tsb at k1 ⊢
    generalize s0.tsbCheck c (wordsFrom tsb 48) = r at k1 ⊢
    obtain ⟨r, s1⟩ := r
    cases r with
    | none => exact Keeps.step k1 fun a b => doubleFault_keeps _ _ _ _ a b
    | some ps =>
      dsimp only at k1 ⊢
      have k2 : Keeps s (seqM (fun s (p : Nat) => s.readWord1 c (tsb, p)) (ps.take 3) s1).2 :=
        Keeps.step k1 fun a b => seqM_keeps _ _ _ a b fun t p x y => readWord1_keeps t c _ x y
      generalize seqM (fun s (p : Nat) => s.readWord1 c (tsb, p)) (ps.take 3) s1 = r at k2 ⊢
      obtain ⟨r, s2⟩ := r
      cases r with
      | error e => exact Keeps.step k2 fun a b => doubleFault_keeps _ _ _ _ a b
      | ok head =>
        dsimp only at k2 ⊢
        split
        · exact Keeps.step k2 fun a b => doubleFault_keeps _ _ _ _ a b
        · exact Keeps.step k2 fun a b => tsbEnter_keeps _ _ _ _ _ _ _ _ _ a b
grind_pattern enterTsb_keeps => s.enterTsb c cause ret xaddr imp xwin

/-- See State.enter. -/
theorem enter_keeps (s : State) (c : CoreId) (cause : Nat) (ret xaddr : W32) (imp : Bool) (xwin lvl : Nat) (h : s.mem.wf = true) (hc : coresLegal s.cores) :
    (s.enter c cause ret xaddr imp xwin lvl).mem.wf = true ∧ coresLegal (s.enter c cause ret xaddr imp xwin lvl).cores ∧ (s.enter c cause ret xaddr imp xwin lvl).pending = s.pending := by
  have k : Keeps s (s.leaveLoop c) := leaveLoop_keeps s c h hc
  unfold State.enter
  generalize s.leaveLoop c = s0 at k ⊢
  dsimp only
  generalize (s0.core c).entryPath lvl = path
  split
  · exact Keeps.step k fun a b => enterTsb_keeps _ _ _ _ _ _ _ a b
  · have k1 : Keeps s (s0.gateEntry c cause).2 := Keeps.step k fun a b => gateEntry_keeps _ _ _ a b
    generalize s0.gateEntry c cause = r at k1 ⊢
    obtain ⟨r, s1⟩ := r
    cases r with
    | none => exact Keeps.step k1 fun a b => doubleFault_keeps _ _ _ _ a b
    | some e =>
      dsimp only at k1 ⊢
      split
      · exact Keeps.step k1 fun a b => doubleFault_keeps _ _ _ _ a b
      · next hv =>
        have he : entryLvl e < 3 := by
          refine entryLvl_lt e ?_
          by_contra hx
          exact hv (by simp [hx])
        exact Keeps.step k1 fun a b => modCore_keeps _ _ _ a b
          (enterAt_legal c _ _ _ e (core_legal s1 c b) (xEntry_legal c _ _ _ _ _ _ _ (core_legal s1 c b)) he)
grind_pattern enter_keeps => s.enter c cause ret xaddr imp xwin lvl

/-- See State.enterArith. -/
theorem enterArith_keeps (s : State) (c : CoreId) (a : ArithPend) (ret : W32) (h : s.mem.wf = true) (hc : coresLegal s.cores) :
    (s.enterArith c a ret).mem.wf = true ∧ coresLegal (s.enterArith c a ret).cores ∧ (s.enterArith c a ret).pending = s.pending := by
  exact Keeps.step (modCore_keeps s c (fun k => { k with arith := k.arith.erase a }) h hc (core_legal s c hc)) fun p q => enter_keeps _ _ _ _ _ _ _ _ p q
grind_pattern enterArith_keeps => s.enterArith c a ret

/-- See State.takeTrap. -/
theorem takeTrap_keeps (s : State) (c : CoreId) (pc : W32) (t : Trap) (h : s.mem.wf = true) (hc : coresLegal s.cores) :
    (s.takeTrap c pc t).mem.wf = true ∧ coresLegal (s.takeTrap c pc t).cores ∧ (s.takeTrap c pc t).pending = s.pending := by
  have k : Keeps s (s.completeLong c) := completeLong_keeps s c h hc
  unfold State.takeTrap
  generalize s.completeLong c = s1 at k ⊢
  dsimp only
  split
  · exact Keeps.step k fun a b => enter_keeps _ _ _ _ _ _ _ _ a b
  · have k2 : Keeps s (s1.modCore c fun k => { k with pc }) := Keeps.step k fun a b => modCore_keeps _ _ _ a b (core_legal s1 c b)
    generalize (s1.modCore c fun k => { k with pc }) = s2 at k2 ⊢
    split
    · exact Keeps.step k2 fun a b => enterArith_keeps _ _ _ _ a b
    · exact Keeps.step k2 fun a b => enter_keeps _ _ _ _ _ _ _ _ a b
grind_pattern takeTrap_keeps => s.takeTrap c pc t

/-- See State.takeEvent. -/
theorem takeEvent_keeps (s : State) (c : CoreId) (t : State) (he : s.takeEvent c = some t) (h : s.mem.wf = true) (hc : coresLegal s.cores) :
    t.mem.wf = true ∧ coresLegal t.cores ∧ t.pending = s.pending := by
  unfold State.takeEvent at he
  dsimp only at he
  split at he
  · injection he with he; subst he; exact enterArith_keeps _ _ _ _ h hc
  · split at he
    · injection he with he; subst he; exact enter_keeps _ _ _ _ _ _ _ _ h hc
    · simp at he

/-- See State.pswLoaded. -/
theorem pswLoaded_keeps (s : State) (v : Word) (h : s.mem.wf = true) (hc : coresLegal s.cores) :
    Keeps s (s.pswLoaded v).2 ∧ pswLegal (s.pswLoaded v).1 = true := by
  unfold State.pswLoaded
  dsimp only
  split
  · have k : Keeps s s.draw.2 := draw_keeps s h hc
    generalize s.draw = r at k ⊢
    obtain ⟨n, s1⟩ := r
    exact ⟨k, putLvl_legal _ _ (bit0_masked v) (by omega)⟩
  · next e =>
    refine ⟨⟨h, hc, rfl⟩, ?_⟩
    have e0 := bit0_masked v
    rw [pswLegal_iff]
    rw [wfld_eq] at e
    have hw := (v &&& 0xFFFE).isLt
    dsimp only
    omega

/-- See State.rfiBlock. -/
theorem rfiBlock_keeps (s : State) (c : CoreId) (tsb : W32) (w : List Word) (h : s.mem.wf = true) (hc : coresLegal s.cores) :
    (s.rfiBlock c tsb w).2.mem.wf = true ∧ coresLegal (s.rfiBlock c tsb w).2.cores ∧ (s.rfiBlock c tsb w).2.pending = s.pending := by
  unfold State.rfiBlock
  split
  · exact ⟨h, hc, rfl⟩
  · have k : Keeps s (s.translate c (tsb + 2).toNat .store 0).2 := translate_keeps _ _ _ _ _ h hc
    generalize s.translate c (tsb + 2).toNat .store 0 = r at k ⊢
    obtain ⟨r, s1⟩ := r
    cases r with
    | error e => exact k
    | ok x =>
      dsimp only at k ⊢
      have k2 := pswLoaded_keeps s1 (w.getD 3 0) k.1 k.2.1
      generalize s1.pswLoaded (w.getD 3 0) = r at k2 ⊢
      obtain ⟨v, s2⟩ := r
      have k3 : Keeps s s2 := Keeps.step k fun _ _ => k2.1
      have k4 : ∀ (p : Path) (pc : W32), Keeps s (s2.modCore c fun k => (k.fromTsb c w).returnTo p v pc) := fun p pc =>
        Keeps.step k3 fun a b => modCore_keeps s2 c (fun k => (k.fromTsb c w).returnTo p v pc) a b
          (returnTo_legal c _ p v pc (fromTsb_legal c _ w (core_legal s2 c b)) k2.2)
      dsimp only
      generalize pathOf (wfld (w.getD 0 0) 12 11) = p
      generalize w32of (w.getD 2 0) (w.getD 1 0) = pc
      have k5 := k4 p pc
      generalize (s2.modCore c fun k => (k.fromTsb c w).returnTo p v pc) = s3 at k5 ⊢
      exact Keeps.step k5 fun a b => putWords_keeps s3 c _ a b
grind_pattern rfiBlock_keeps => s.rfiBlock c tsb w

/-- See State.rfiTsb. -/
theorem rfiTsb_keeps (s : State) (c : CoreId) (h : s.mem.wf = true) (hc : coresLegal s.cores) :
    (s.rfiTsb c).2.mem.wf = true ∧ coresLegal (s.rfiTsb c).2.cores ∧ (s.rfiTsb c).2.pending = s.pending := by
  have k : Keeps s (s.drainAll c) := drainAll_keeps s c h hc
  unfold State.rfiTsb
  generalize s.drainAll c = s0 at k ⊢
  dsimp only
  generalize (s0.core c).tsb = tsb
  have k1 : Keeps s (seqM (fun s a => s.readM c a) (wordsFrom (tsb + 3) 45) s0).2 :=
    Keeps.step k fun a b => seqM_keeps _ _ _ a b fun t a x y => readM_keeps t c a x y
  generalize seqM (fun s a => s.readM c a) (wordsFrom (tsb + 3) 45) s0 = r at k1 ⊢
  obtain ⟨r, s1⟩ := r
  cases r with
  | error e => exact k1
  | ok w => exact Keeps.step k1 fun a b => rfiBlock_keeps _ _ _ _ a b
grind_pattern rfiTsb_keeps => s.rfiTsb c

/-- See State.rfiBank. -/
theorem rfiBank_keeps (s : State) (c : CoreId) (x : XRegs) (free : Core → Core) (h : s.mem.wf = true) (hc : coresLegal s.cores)
    (hx : pswLegal x.xpsw = true) (hf : ∀ k, Core.legal c k = true → Core.legal c (free k) = true) : Keeps s (s.rfiBank c x free).2 := by
  unfold State.rfiBank
  split
  · exact ⟨h, hc, rfl⟩
  · exact Keeps.step (leaveLoop_keeps s c h hc) fun a b => modCore_keeps _ _ _ a b (returnTo_legal c _ _ _ _ (hf _ (core_legal _ c b)) hx)

/-- See State.rfi. -/
theorem rfi_keeps (s : State) (c : CoreId) (h : s.mem.wf = true) (hc : coresLegal s.cores) :
    (s.rfi c).2.mem.wf = true ∧ coresLegal (s.rfi c).2.cores ∧ (s.rfi c).2.pending = s.pending := by
  have hk := (Core.legal_iff c _).1 (core_legal s c hc)
  unfold State.rfi
  dsimp only
  split
  · exact ⟨h, hc, rfl⟩
  · split
    · exact ⟨h, hc, rfl⟩
    · exact rfiBank_keeps s c _ _ h hc hk.2.2.2.1 fun _ x => x
  · split
    · exact ⟨h, hc, rfl⟩
    · exact rfiBank_keeps s c _ _ h hc hk.2.2.2.2.1 fun _ x => x
  · split
    · exact ⟨h, hc, rfl⟩
    · exact Keeps.step (leaveLoop_keeps s c h hc) fun a b => rfiTsb_keeps _ _ a b
grind_pattern rfi_keeps => s.rfi c

end Sys2Proof.Machine
end

