-- ==== Sys2Proof/Laws/Frame/HodRun.lean ====
section
/-! SUPPORT. What the operations of Machine/HodRun.lean leave: memory in canonical form and the queue of waiting commands. -/

namespace Sys2Proof.Machine

open Sys2Proof

/-- See State.fetchWord. -/
theorem fetchWord_keeps (s : State) (c : CoreId) (a : W32) (h : s.mem.wf = true) (hc : coresLegal s.cores) :
    (State.fetchWord s c a).2.mem.wf = true ∧ coresLegal (State.fetchWord s c a).2.cores ∧ (State.fetchWord s c a).2.pending = s.pending := by
  unfold State.fetchWord
  have k : Keeps s (s.translate c a.toNat .fetch (s.level c)).2 := translate_keeps _ _ _ _ _ h hc
  generalize s.translate c a.toNat .fetch (s.level c) = r at k ⊢
  obtain ⟨r, s1⟩ := r
  cases r with
  | error e => exact k
  | ok p =>
    dsimp only
    split
    · exact k
    · have k2 : Keeps s (s1.readMem (fetchPort c) p.1 2).2 := Keeps.step k fun x y => readMem_keeps _ _ _ _ _ x y
      generalize s1.readMem (fetchPort c) p.1 2 = q at k2 ⊢
      obtain ⟨q, s2⟩ := q
      cases q with
      | error e => exact k2
      | ok b => exact Keeps.ite (Keeps.step k2 fun x y => modCore_keeps s2 c _ x y (core_legal s2 c y)) k2
grind_pattern fetchWord_keeps => State.fetchWord s c a

/-- See State.fetchAll. -/
theorem fetchAll_keeps (s : State) (c : CoreId) (len : Nat) (h : s.mem.wf = true) (hc : coresLegal s.cores) :
    (s.fetchAll c len).2.mem.wf = true ∧ coresLegal (s.fetchAll c len).2.cores ∧ (s.fetchAll c len).2.pending = s.pending := by
  unfold State.fetchAll
  split
  · exact ⟨h, hc, rfl⟩
  · exact seqM_keeps _ _ s h hc fun t a x y => fetchWord_keeps t c a x y
grind_pattern fetchAll_keeps => s.fetchAll c len

/-- See State.hodIssue. -/
theorem hodIssue_keeps (s : State) (c : CoreId) (len : Nat) (u : Uses) (h : s.mem.wf = true) (hc : coresLegal s.cores) :
    (s.hodIssue c len u).2.mem.wf = true ∧ coresLegal (s.hodIssue c len u).2.cores ∧ (s.hodIssue c len u).2.pending = s.pending := by
  unfold State.hodIssue
  dsimp only
  split
  · exact ⟨h, hc, rfl⟩
  · split
    · next t e => exact takeEvent_keeps s c t e h hc
    · have k : Keeps s (s.fetchAll c len).2 := fetchAll_keeps _ _ _ h hc
      generalize s.fetchAll c len = r at k ⊢
      obtain ⟨r, s1⟩ := r
      cases r with
      | error t => exact Keeps.step k fun a b => takeTrap_keeps _ _ _ _ a b
      | ok x =>
        dsimp only at k ⊢
        have k2 : Keeps s (if (s1.core c).mustWait c u then s1.completeLong c else s1) :=
          Keeps.ite (Keeps.step k fun a b => completeLong_keeps _ _ a b) k
        generalize (if (s1.core c).mustWait c u then s1.completeLong c else s1) = s2 at k2 ⊢
        split
        · exact Keeps.step k2 fun a b => enterArith_keeps _ _ _ _ a b
        · exact k2
grind_pattern hodIssue_keeps => s.hodIssue c len u

/-- An effect leaves a legal state with the same queue. -/
def BodyKeeps (f : State → Option Trap × State) : Prop := ∀ t : State, t.mem.wf = true → coresLegal t.cores → Keeps t (f t).2

/-- See State.hod: it keeps what its effect keeps. -/
theorem hod_keeps (s : State) (c : CoreId) (len : Nat) (u : Uses) (body : State → Option Trap × State) (h : s.mem.wf = true)
    (hc : coresLegal s.cores) (hb : BodyKeeps body) :
    (s.hod c len u body).mem.wf = true ∧ coresLegal (s.hod c len u body).cores ∧ (s.hod c len u body).pending = s.pending := by
  have k : Keeps s (s.hodIssue c len u).2 := hodIssue_keeps _ _ _ _ h hc
  unfold State.hod
  generalize s.hodIssue c len u = r at k ⊢
  obtain ⟨r, s1⟩ := r
  cases r with
  | false => exact k
  | true =>
    dsimp only at k ⊢
    have k1 : Keeps s (s1.modCore c fun k => { k with pc := k.pc + BitVec.ofNat 32 len }) :=
      Keeps.step k fun a b => modCore_keeps _ _ _ a b (core_legal s1 c b)
    generalize (s1.modCore c fun k => { k with pc := k.pc + BitVec.ofNat 32 len }) = t at k1 ⊢
    have k2 : Keeps s (body t).2 := Keeps.step k1 fun a b => hb t a b
    generalize body t = r at k2 ⊢
    obtain ⟨r, s2⟩ := r
    cases r with
    | none => exact k2
    | some t => exact Keeps.step k2 fun a b => takeTrap_keeps _ _ _ _ a b

/-- See State.jump. -/
theorem jump_keeps (s : State) (c : CoreId) (a : W32) (h : s.mem.wf = true) (hc : coresLegal s.cores) :
    (s.jump c a).mem.wf = true ∧ coresLegal (s.jump c a).cores ∧ (s.jump c a).pending = s.pending := by
  exact Keeps.step (leaveLoop_keeps s c h hc) fun x y => modCore_keeps _ _ _ x y (core_legal _ c y)
grind_pattern jump_keeps => s.jump c a

/-- See State.stay. -/
theorem stay_keeps (s : State) (c : CoreId) (len : Nat) (h : s.mem.wf = true) (hc : coresLegal s.cores) :
    (s.stay c len).mem.wf = true ∧ coresLegal (s.stay c len).cores ∧ (s.stay c len).pending = s.pending := by
  exact modCore_keeps _ _ _ h hc (core_legal _ c hc)
grind_pattern stay_keeps => s.stay c len

/-- See notOnBank. -/
theorem notOnBank_keeps (c : CoreId) (body : State → Option Trap × State) (hb : BodyKeeps body) : BodyKeeps (notOnBank c body) := by
  intro t h hc
  unfold notOnBank
  split
  · exact ⟨h, hc, rfl⟩
  · exact hb t h hc

/-- See atMS. -/
theorem atMS_keeps (c : CoreId) (body : State → Option Trap × State) (hb : BodyKeeps body) : BodyKeeps (atMS c body) := by
  intro t h hc
  unfold atMS
  split
  · exact ⟨h, hc, rfl⟩
  · exact hb t h hc

/-- See evenOnly. -/
theorem evenOnly_keeps (r : Reg) (body : State → Option Trap × State) (hb : BodyKeeps body) : BodyKeeps (evenOnly r body) := by
  intro t h hc
  unfold evenOnly
  split
  · exact ⟨h, hc, rfl⟩
  · exact hb t h hc

/-- See quiet. -/
theorem quiet_keeps (f : State → State) (hf : ∀ t : State, t.mem.wf = true → coresLegal t.cores → Keeps t (f t)) : BodyKeeps (quiet f) := hf

/-- See State.landLoad. -/
theorem landLoad_keeps (s : State) (c : CoreId) (regs : List (Option Nat)) (vals : List Word) (adv : List (Nat × Word)) (h : s.mem.wf = true) (hc : coresLegal s.cores) :
    (s.landLoad c regs vals adv).mem.wf = true ∧ coresLegal (s.landLoad c regs vals adv).cores ∧ (s.landLoad c regs vals adv).pending = s.pending := by
  unfold State.landLoad
  refine Keeps.step (foldl_keeps _ _ s h hc fun t e x y => ?_) fun a b => foldl_keeps _ _ _ a b fun t e x y => wrPhys_keeps t c _ _ x y
  split
  · exact wrPhys_keeps t c _ _ x y
  · exact ⟨x, y, rfl⟩
grind_pattern landLoad_keeps => s.landLoad c regs vals adv

/-- See State.haltCore. -/
theorem haltCore_keeps (s : State) (c : CoreId) (h : s.mem.wf = true) (hc : coresLegal s.cores) :
    (State.haltCore s c).mem.wf = true ∧ coresLegal (State.haltCore s c).cores ∧ (State.haltCore s c).pending = s.pending := by
  have k := modCore_keeps s c (fun k => { k with haltReq := false, haltedFrom := k.run, run := .halted }) h hc (core_legal s c hc)
  exact ⟨k.1, k.2.1, k.2.2⟩
grind_pattern haltCore_keeps => State.haltCore s c

/-- See State.resumeCore. -/
theorem resumeCore_keeps (s : State) (c : CoreId) (h : s.mem.wf = true) (hc : coresLegal s.cores) :
    (State.resumeCore s c).mem.wf = true ∧ coresLegal (State.resumeCore s c).cores ∧ (State.resumeCore s c).pending = s.pending := by
  have k := modCore_keeps s c (fun k => { k with run := k.haltedFrom }) h hc (core_legal s c hc)
  exact ⟨k.1, k.2.1, k.2.2⟩
grind_pattern resumeCore_keeps => State.resumeCore s c

end Sys2Proof.Machine
end

