-- ==== Sys2Proof/Laws/Frame/HodAlu.lean ====
section
/-! SUPPORT. What the operations of Machine/HodAlu.lean leave: memory in canonical form and the queue of waiting commands. -/

namespace Sys2Proof.Machine

open Sys2Proof

/-- See State.alu. -/
theorem alu_keeps (s : State) (c : CoreId) (rd : Reg) (r : Word × Upd) (h : s.mem.wf = true) (hc : coresLegal s.cores) (hr : maskOk r.2.mask) :
    (s.alu c rd r).mem.wf = true ∧ coresLegal (s.alu c rd r).cores ∧ (s.alu c rd r).pending = s.pending := by
  exact Keeps.step (wr_keeps s c rd r.1 h hc) fun a b => flags_keeps _ c _ a b hr
grind_pattern alu_keeps => s.alu c rd r

/-- See State.aluP. -/
theorem aluP_keeps (s : State) (c : CoreId) (d : PairIx) (r : W32 × Upd) (h : s.mem.wf = true) (hc : coresLegal s.cores) (hr : maskOk r.2.mask) :
    (s.aluP c d r).mem.wf = true ∧ coresLegal (s.aluP c d r).cores ∧ (s.aluP c d r).pending = s.pending := by
  exact Keeps.step (wrp_keeps s c d r.1 h hc) fun a b => flags_keeps _ c _ a b hr
grind_pattern aluP_keeps => s.aluP c d r

/-- See State.rr. -/
theorem rr_keeps (s : State) (c : CoreId) (rd rs : Reg) (f : Word → Word → Word × Upd) (h : s.mem.wf = true) (hc : coresLegal s.cores)
    (hf : ∀ a b, maskOk (f a b).2.mask) :
    (s.rr c rd rs f).mem.wf = true ∧ coresLegal (s.rr c rd rs f).cores ∧ (s.rr c rd rs f).pending = s.pending := by
  exact hod_keeps s c _ _ _ h hc (quiet_keeps _ fun t x y => alu_keeps t c rd _ x y (hf _ _))
grind_pattern rr_keeps => s.rr c rd rs f

/-- See State.ri. -/
theorem ri_keeps (s : State) (c : CoreId) (rd : Reg) (len : Nat) (f : Word → Word × Upd) (h : s.mem.wf = true) (hc : coresLegal s.cores)
    (hf : ∀ a, maskOk (f a).2.mask) :
    (s.ri c rd len f).mem.wf = true ∧ coresLegal (s.ri c rd len f).cores ∧ (s.ri c rd len f).pending = s.pending := by
  exact hod_keeps s c _ _ _ h hc (quiet_keeps _ fun t x y => alu_keeps t c rd _ x y (hf _))
grind_pattern ri_keeps => s.ri c rd len f

/-- See State.pp. -/
theorem pp_keeps (s : State) (c : CoreId) (d p : PairIx) (f : State → State) (h : s.mem.wf = true) (hc : coresLegal s.cores)
    (hf : ∀ t : State, t.mem.wf = true → coresLegal t.cores → Keeps t (f t)) :
    (s.pp c d p f).mem.wf = true ∧ coresLegal (s.pp c d p f).cores ∧ (s.pp c d p f).pending = s.pending := by
  exact hod_keeps s c _ _ _ h hc (quiet_keeps _ hf)
grind_pattern pp_keeps => s.pp c d p f

/-- See State.decimal. -/
theorem decimal_keeps (s : State) (c : CoreId) (rd rs : Reg) (sub chained : Bool) (h : s.mem.wf = true) (hc : coresLegal s.cores) :
    (s.decimal c rd rs sub chained).2.mem.wf = true ∧ coresLegal (s.decimal c rd rs sub chained).2.cores ∧ (s.decimal c rd rs sub chained).2.pending = s.pending := by
  unfold State.decimal
  dsimp only
  split
  · exact alu_keeps s c rd _ h hc (maskOk_dec _ _ _ _ _)
  · exact flags_keeps s c _ h hc (maskOk_put _ 9 _ maskOk_nil (by decide) (by decide))
grind_pattern decimal_keeps => s.decimal c rd rs sub chained

/-- See State.crcPair. -/
theorem crcPair_keeps (s : State) (c : CoreId) (rd rs : Reg) (castagnoli : Bool) (h : s.mem.wf = true) (hc : coresLegal s.cores) :
    (s.crcPair c rd rs castagnoli).mem.wf = true ∧ coresLegal (s.crcPair c rd rs castagnoli).cores ∧ (s.crcPair c rd rs castagnoli).pending = s.pending := by
  exact hod_keeps s c _ _ _ h hc (evenOnly_keeps _ _ (quiet_keeps _ fun t x y => wrp_keeps t c _ _ x y))
grind_pattern crcPair_keeps => s.crcPair c rd rs castagnoli

end Sys2Proof.Machine
end

