-- ==== Sys2Proof/Laws/Frame/HodLong.lean ====
section
/-! SUPPORT. What the operations of Machine/HodLong.lean leave: memory in canonical form and the queue of waiting commands. -/

namespace Sys2Proof.Machine

open Sys2Proof

/-- See State.enterLong. -/
theorem enterLong_keeps (s : State) (c : CoreId) (dests : List (Reg × Word)) (u : Upd) (h : s.mem.wf = true) (hc : coresLegal s.cores) (hu : maskOk u.mask) :
    (s.enterLong c dests u).mem.wf = true ∧ coresLegal (s.enterLong c dests u).cores ∧ (s.enterLong c dests u).pending = s.pending := by
  exact modCore_keeps _ _ _ h hc (long_legal c _ _ (core_legal s c hc) fun x e => by cases e; exact hu)
grind_pattern enterLong_keeps => s.enterLong c dests u

/-- See State.long1. -/
theorem long1_keeps (s : State) (c : CoreId) (rd rs : Reg) (f : Word → Word → Word × Upd) (h : s.mem.wf = true) (hc : coresLegal s.cores)
    (hf : ∀ a b, maskOk (f a b).2.mask) :
    (s.long1 c rd rs f).mem.wf = true ∧ coresLegal (s.long1 c rd rs f).cores ∧ (s.long1 c rd rs f).pending = s.pending := by
  exact hod_keeps s c _ _ _ h hc (quiet_keeps _ fun t x y => enterLong_keeps t c _ _ x y (hf _ _))
grind_pattern long1_keeps => s.long1 c rd rs f

/-- See State.longW. -/
theorem longW_keeps (s : State) (c : CoreId) (rd rs : Reg) (sgn : Bool) (h : s.mem.wf = true) (hc : coresLegal s.cores) :
    (s.longW c rd rs sgn).mem.wf = true ∧ coresLegal (s.longW c rd rs sgn).cores ∧ (s.longW c rd rs sgn).pending = s.pending := by
  exact hod_keeps s c _ _ _ h hc (evenOnly_keeps _ _ (quiet_keeps _ fun t x y => enterLong_keeps t c _ _ x y (maskOk_mulw _ _ _)))
grind_pattern longW_keeps => s.longW c rd rs sgn

/-- See State.longDiv. -/
theorem longDiv_keeps (s : State) (c : CoreId) (rd rs : Reg) (sgn wide : Bool) (h : s.mem.wf = true) (hc : coresLegal s.cores) :
    (s.longDiv c rd rs sgn wide).mem.wf = true ∧ coresLegal (s.longDiv c rd rs sgn wide).cores ∧ (s.longDiv c rd rs sgn wide).pending = s.pending := by
  exact hod_keeps s c _ _ _ h hc (evenOnly_keeps _ _ (quiet_keeps _ fun t x y => enterLong_keeps t c _ _ x y (maskOk_div _ _ _ _)))
grind_pattern longDiv_keeps => s.longDiv c rd rs sgn wide

end Sys2Proof.Machine
end

