-- ==== Sys2Proof/Laws/Frame/HodMemOps.lean ====
section
/-! SUPPORT. What the operations of Machine/HodMemOps.lean leave: memory in canonical form and the queue of waiting commands. -/

namespace Sys2Proof.Machine

open Sys2Proof

/-- See State.advanced. -/
theorem advanced_keeps (s : State) (c : CoreId) (p : PairIx) (n : Nat) (dests : List Reg) (h : s.mem.wf = true) (hc : coresLegal s.cores) :
    (s.advanced c p n dests).2.mem.wf = true ∧ coresLegal (s.advanced c p n dests).2.cores ∧ (s.advanced c p n dests).2.pending = s.pending := by
  have one : ∀ (t : State) (q : Option Nat) (b : Bool) (w : Word), Keeps s t →
      Keeps s (match q with
        | none => (([] : List (Nat × Word)), t)
        | some q => if b then let (x, s1) := t.drawWord; ([(q, x)], s1) else ([(q, w)], t)).2 := by
    intro t q b w k
    cases q with
    | none => exact k
    | some q =>
      dsimp only
      split
      · exact Keeps.step k fun a b => drawWord_keeps t a b
      · exact k
  exact one _ _ _ _ (one _ _ _ _ ⟨h, hc, rfl⟩)
grind_pattern advanced_keeps => s.advanced c p n dests

/-- See State.loadAdvance. -/
theorem loadAdvance_keeps (s : State) (c : CoreId) (dests : List Reg) (adv : Option (PairIx × Nat)) (h : s.mem.wf = true) (hc : coresLegal s.cores) :
    (s.loadAdvance c dests adv).2.mem.wf = true ∧ coresLegal (s.loadAdvance c dests adv).2.cores ∧ (s.loadAdvance c dests adv).2.pending = s.pending := by
  unfold State.loadAdvance
  split
  · exact advanced_keeps _ _ _ _ _ h hc
  · exact ⟨h, hc, rfl⟩
grind_pattern loadAdvance_keeps => s.loadAdvance c dests adv

/-- See State.loadNow. -/
theorem loadNow_keeps (s : State) (c : CoreId) (ws : List (W32 × Nat)) (regs : List (Option Nat)) (up : List (Nat × Word)) (h : s.mem.wf = true) (hc : coresLegal s.cores) :
    (s.loadNow c ws regs up).2.mem.wf = true ∧ coresLegal (s.loadNow c ws regs up).2.cores ∧ (s.loadNow c ws regs up).2.pending = s.pending := by
  have k : Keeps s (s.loadWords c ws false).2 := loadWords_keeps _ _ _ _ h hc
  unfold State.loadNow
  generalize s.loadWords c ws false = r at k ⊢
  obtain ⟨r, s1⟩ := r
  cases r with
  | error e => exact k
  | ok x => exact Keeps.step k fun a b => landLoad_keeps _ _ _ _ _ a b
grind_pattern loadNow_keeps => s.loadNow c ws regs up

/-- See State.loadDrain. -/
theorem loadDrain_keeps (s : State) (c : CoreId) (ws : List Nat) (dev : Bool) (h : s.mem.wf = true) (hc : coresLegal s.cores) :
    (s.loadDrain c ws dev).mem.wf = true ∧ coresLegal (s.loadDrain c ws dev).cores ∧ (s.loadDrain c ws dev).pending = s.pending := by
  unfold State.loadDrain
  split
  · exact drainAll_keeps s c h hc
  · split
    · exact drainN_keeps _ _ s h hc
    · exact ⟨h, hc, rfl⟩
grind_pattern loadDrain_keeps => s.loadDrain c ws dev

/-- See State.loadLater. -/
theorem loadLater_keeps (s : State) (c : CoreId) (len : Nat) (words : List (Option Nat × W32 × Nat × Bool)) (up : List (Nat × Word)) (h : s.mem.wf = true) (hc : coresLegal s.cores) :
    (s.loadLater c len words up).mem.wf = true ∧ coresLegal (s.loadLater c len words up).cores ∧ (s.loadLater c len words up).pending = s.pending := by
  have k : ∀ f : Core → Option LoadWait, Keeps s (s.modCore c fun k => { k with loadWait := f k }) := fun f =>
    modCore_keeps s c _ h hc (core_legal s c hc)
  exact Keeps.step (k _) fun a b => stay_keeps _ c len a b
grind_pattern loadLater_keeps => s.loadLater c len words up

/-- See State.loadInto. -/
theorem loadInto_keeps (s : State) (c : CoreId) (len : Nat) (dests : List Reg) (a : W32) (adv : Option (PairIx × Nat)) (h : s.mem.wf = true) (hc : coresLegal s.cores) :
    (s.loadInto c len dests a adv).2.mem.wf = true ∧ coresLegal (s.loadInto c len dests a adv).2.cores ∧ (s.loadInto c len dests a adv).2.pending = s.pending := by
  have k : Keeps s (seqM (fun s v => s.xl c .load v) (wordsFrom a dests.length) s).2 :=
    seqM_keeps _ _ s h hc fun t v x y => xl_keeps t c _ v x y
  unfold State.loadInto
  dsimp only
  generalize seqM (fun s v => s.xl c .load v) (wordsFrom a dests.length) s = r at k ⊢
  obtain ⟨r, s1⟩ := r
  cases r with
  | error t => exact k
  | ok ps =>
    dsimp only at k ⊢
    have k2 : Keeps s (s1.loadAdvance c dests adv).2 := Keeps.step k fun a b => loadAdvance_keeps _ _ _ _ a b
    generalize s1.loadAdvance c dests adv = r at k2 ⊢
    obtain ⟨up, s2⟩ := r
    dsimp only at k2 ⊢
    split
    · exact Keeps.step k2 fun a b => loadNow_keeps _ _ _ _ _ a b
    · exact Keeps.step (Keeps.step k2 fun a b => loadDrain_keeps _ _ _ _ a b) fun a b => loadLater_keeps _ _ _ _ _ a b
grind_pattern loadInto_keeps => s.loadInto c len dests a adv

/-- See State.storeFrom. -/
theorem storeFrom_keeps (s : State) (c : CoreId) (vals : List Word) (a : W32) (adv : Option (PairIx × Nat)) (h : s.mem.wf = true) (hc : coresLegal s.cores) :
    (s.storeFrom c vals a adv).2.mem.wf = true ∧ coresLegal (s.storeFrom c vals a adv).2.cores ∧ (s.storeFrom c vals a adv).2.pending = s.pending := by
  have k : Keeps s (seqM (fun s v => s.storeCheck c .store v) (wordsFrom a vals.length) s).2 :=
    seqM_keeps _ _ s h hc fun t v x y => storeCheck_keeps t c _ v x y
  unfold State.storeFrom
  generalize seqM (fun s v => s.storeCheck c .store v) (wordsFrom a vals.length) s = r at k ⊢
  obtain ⟨r, s1⟩ := r
  cases r with
  | error t => exact k
  | ok ps =>
    dsimp only at k ⊢
    cases adv with
    | none => exact Keeps.step k fun a b => putStore_keeps _ _ _ _ a b
    | some q => exact Keeps.step (Keeps.step k fun a b => wrp_keeps s1 c q.1 _ a b) fun a b => putStore_keeps _ _ _ _ a b
grind_pattern storeFrom_keeps => s.storeFrom c vals a adv

/-- See State.advance2. -/
theorem advance2_keeps (s : State) (c : CoreId) (d p : PairIx) (h : s.mem.wf = true) (hc : coresLegal s.cores) :
    (State.advance2 s c d p).mem.wf = true ∧ coresLegal (State.advance2 s c d p).cores ∧ (State.advance2 s c d p).pending = s.pending := by
  grind [State.advance2]
grind_pattern advance2_keeps => State.advance2 s c d p

/-- See State.elemMovm. -/
theorem elemMovm_keeps (s : State) (c : CoreId) (d p : PairIx) (h : s.mem.wf = true) (hc : coresLegal s.cores) :
    (State.elemMovm s c d p).2.mem.wf = true ∧ coresLegal (State.elemMovm s c d p).2.cores ∧ (State.elemMovm s c d p).2.pending = s.pending := by
  grind [State.elemMovm]
grind_pattern elemMovm_keeps => State.elemMovm s c d p

/-- See State.elemDec. -/
theorem elemDec_keeps (s : State) (c : CoreId) (d p : PairIx) (sub : Bool) (h : s.mem.wf = true) (hc : coresLegal s.cores) :
    (s.elemDec c d p sub).2.mem.wf = true ∧ coresLegal (s.elemDec c d p sub).2.cores ∧ (s.elemDec c d p sub).2.pending = s.pending := by
  have k : Keeps s (s.load1 c (s.pr c d)).2 := load1_keeps _ _ _ h hc
  unfold State.elemDec
  generalize s.load1 c (s.pr c d) = r at k ⊢
  obtain ⟨r, s1⟩ := r
  cases r with
  | error t => exact k
  | ok a =>
    dsimp only at k ⊢
    have k1 : Keeps s (s1.load1 c (s1.pr c p)).2 := Keeps.step k fun x y => load1_keeps _ _ _ x y
    generalize s1.load1 c (s1.pr c p) = r at k1 ⊢
    obtain ⟨r, s2⟩ := r
    cases r with
    | error t => exact k1
    | ok b =>
      dsimp only at k1 ⊢
      have k2 : Keeps s (s2.storeCheck c .store (s2.pr c d)).2 := Keeps.step k1 fun x y => storeCheck_keeps _ _ _ _ x y
      generalize s2.storeCheck c .store (s2.pr c d) = r at k2 ⊢
      obtain ⟨r, s3⟩ := r
      cases r with
      | error t => exact k2
      | ok q =>
        dsimp only at k2 ⊢
        have k3 : ∀ u : Upd, maskOk u.mask → Keeps s (s3.flags c u) := fun u hu => Keeps.step k2 fun x y => flags_keeps _ _ _ x y hu
        split
        · exact Keeps.step (Keeps.step (k3 _ (maskOk_dec _ _ _ _ _)) fun x y => advance2_keeps _ _ _ _ x y) fun x y => putStore_keeps _ _ _ _ x y
        · exact k3 _ (maskOk_put _ 9 _ maskOk_nil (by decide) (by decide))
grind_pattern elemDec_keeps => s.elemDec c d p sub

/-- See State.elemCrc16. -/
theorem elemCrc16_keeps (s : State) (c : CoreId) (rd : Reg) (p : PairIx) (h : s.mem.wf = true) (hc : coresLegal s.cores) :
    (State.elemCrc16 s c rd p).2.mem.wf = true ∧ coresLegal (State.elemCrc16 s c rd p).2.cores ∧ (State.elemCrc16 s c rd p).2.pending = s.pending := by
  grind [State.elemCrc16]
grind_pattern elemCrc16_keeps => State.elemCrc16 s c rd p

/-- See State.elemCrc32. -/
theorem elemCrc32_keeps (s : State) (c : CoreId) (rd : Reg) (p : PairIx) (h : s.mem.wf = true) (hc : coresLegal s.cores) :
    (State.elemCrc32 s c rd p).2.mem.wf = true ∧ coresLegal (State.elemCrc32 s c rd p).2.cores ∧ (State.elemCrc32 s c rd p).2.pending = s.pending := by
  grind [State.elemCrc32]
grind_pattern elemCrc32_keeps => State.elemCrc32 s c rd p

/-- See State.elemLoad. -/
theorem elemLoad_keeps (s : State) (c : CoreId) (dests : List Reg) (p : PairIx) (h : s.mem.wf = true) (hc : coresLegal s.cores) :
    (s.elemLoad c dests p).2.mem.wf = true ∧ coresLegal (s.elemLoad c dests p).2.cores ∧ (s.elemLoad c dests p).2.pending = s.pending := by
  have k : Keeps s (seqM (fun s v => s.xl c .load v) (wordsFrom (s.pr c p) dests.length) s).2 :=
    seqM_keeps _ _ s h hc fun t v x y => xl_keeps t c _ v x y
  unfold State.elemLoad
  dsimp only
  generalize wordsFrom (s.pr c p) dests.length = vas at k ⊢
  generalize seqM (fun s v => s.xl c .load v) vas s = r at k ⊢
  obtain ⟨r, s1⟩ := r
  cases r with
  | error t => exact k
  | ok ps =>
    dsimp only at k ⊢
    have k1 : ∀ ws dev, Keeps s (s1.loadWords c ws dev).2 := fun ws dev => Keeps.step k fun x y => loadWords_keeps _ _ _ _ x y
    replace k1 := k1 (List.zip vas (ps.map fun e => e.1)) (ps.any fun e => e.2)
    generalize s1.loadWords c (List.zip vas (ps.map fun e => e.1)) (ps.any fun e => e.2) = r at k1 ⊢
    obtain ⟨r, s2⟩ := r
    cases r with
    | error t => exact k1
    | ok l =>
      dsimp only at k1 ⊢
      have k2 : Keeps s (s2.advanced c p dests.length dests).2 := Keeps.step k1 fun x y => advanced_keeps _ _ _ _ _ x y
      generalize s2.advanced c p dests.length dests = r at k2 ⊢
      obtain ⟨up, s3⟩ := r
      exact Keeps.step k2 fun x y => landLoad_keeps _ _ _ _ _ x y
grind_pattern elemLoad_keeps => s.elemLoad c dests p

/-- See State.elemStore. -/
theorem elemStore_keeps (s : State) (c : CoreId) (vals : List Word) (p : PairIx) (h : s.mem.wf = true) (hc : coresLegal s.cores) :
    (State.elemStore s c vals p).2.mem.wf = true ∧ coresLegal (State.elemStore s c vals p).2.cores ∧ (State.elemStore s c vals p).2.pending = s.pending := by
  grind [State.elemStore]
grind_pattern elemStore_keeps => State.elemStore s c vals p

/-- The state of an element executed alone. -/
theorem single_state (s : State) (c : CoreId) (e : Elem) : (s.single c e).2 = e.2 := by
  obtain ⟨r, s1⟩ := e
  cases r with
  | none => rfl
  | some x => cases x <;> rfl

end Sys2Proof.Machine
end

