-- ==== Sys2Proof/Laws/Frame/HodMulti.lean ====
section
/-! SUPPORT. What the operations of Machine/HodMulti.lean leave: memory in canonical form and the queue of waiting commands. -/

namespace Sys2Proof.Machine

open Sys2Proof

/-- See State.repElem. -/
theorem repElem_keeps (s : State) (c : CoreId) (i : RepInstr) (h : s.mem.wf = true) (hc : coresLegal s.cores) :
    (State.repElem s c i).2.mem.wf = true ∧ coresLegal (State.repElem s c i).2.cores ∧ (State.repElem s c i).2.pending = s.pending := by
  unfold State.repElem; grind
grind_pattern repElem_keeps => State.repElem s c i

/-- See State.setRep. -/
theorem setRep_keeps (s : State) (c : CoreId) (n : Nat) (rp : Bool) (h : s.mem.wf = true) (hc : coresLegal s.cores) :
    (s.setRep c n rp).mem.wf = true ∧ coresLegal (s.setRep c n rp).cores ∧ (s.setRep c n rp).pending = s.pending := by
  refine modSpec_keeps s c _ h hc ?_
  have hk := core_legal s c hc
  have e := putBit_high (s.core c).psw 12 rp (by decide) (by decide)
  have hp := (pswLegal_iff _).1 ((Core.legal_iff c _).1 hk).2.2.1
  exact psw_legal c { s.core c with repLeft := BitVec.ofNat 16 n } _ hk ((pswLegal_iff _).2 ⟨by rw [e.1]; exact hp.1, by rw [e.2]; exact hp.2⟩)
grind_pattern setRep_keeps => s.setRep c n rp

/-- See State.repRun. -/
theorem repRun_keeps (c : CoreId) (i : RepInstr) (stop : Option Nat) (n done : Nat) (s : State) (h : s.mem.wf = true)
    (hc : coresLegal s.cores) : Keeps s (State.repRun c i stop n done s).2 := by
  induction n generalizing done s with
  | zero => exact ⟨h, hc, rfl⟩
  | succ n ih =>
    unfold State.repRun
    split
    · exact Keeps.step (setRep_keeps s c (n + 1) true h hc) fun a b => stay_keeps _ _ _ a b
    · have k : Keeps s (s.repElem c i).2 := repElem_keeps _ _ _ h hc
      generalize s.repElem c i = r at k ⊢
      obtain ⟨r, s1⟩ := r
      cases r with
      | none =>
        dsimp only at k ⊢
        split
        · exact Keeps.step k fun a b => ih _ _ a b
        · exact k
      | some e =>
        cases e with
        | trap t => exact Keeps.step k fun a b => setRep_keeps _ _ _ _ a b
        | digit => exact Keeps.step k fun a b => modSpec_keeps s1 c _ a b (core_legal s1 c b)

/-- See State.setProg. -/
theorem setProg_keeps (s : State) (c : CoreId) (i : Nat) (h : s.mem.wf = true) (hc : coresLegal s.cores) :
    (s.setProg c i).mem.wf = true ∧ coresLegal (s.setProg c i).cores ∧ (s.setProg c i).pending = s.pending := by
  exact modSpec_keeps s c _ h hc (core_legal s c hc)
grind_pattern setProg_keeps => s.setProg c i

/-- See State.endMulti. -/
theorem endMulti_keeps (s : State) (c : CoreId) (p : PairIx) (u : Bool) (mask : Word) (h : s.mem.wf = true) (hc : coresLegal s.cores) :
    (s.endMulti c p u mask).mem.wf = true ∧ coresLegal (s.endMulti c p u mask).cores ∧ (s.endMulti c p u mask).pending = s.pending := by
  have k : ∀ f : Core → Word, Keeps s (s.modSpec c fun k => { k with multiProg := f k }) := fun f => modSpec_keeps s c _ h hc (core_legal s c hc)
  unfold State.endMulti
  replace k := k fun k => putBit k.multiProg 15 false
  dsimp only at k ⊢
  generalize (s.modSpec c fun k => { k with multiProg := putBit k.multiProg 15 false }) = s1 at k ⊢
  exact Keeps.ite (Keeps.step k fun a b => wrp_keeps s1 c p _ a b) k
grind_pattern endMulti_keeps => s.endMulti c p u mask

/-- See State.stmRun. -/
theorem stmRun_keeps (c : CoreId) (p : PairIx) (half : Bool) (mask : Word) (stop : Option Nat) (fin : State → State) (l : List Nat)
    (done : Nat) (s : State) (h : s.mem.wf = true) (hc : coresLegal s.cores)
    (hf : ∀ t : State, t.mem.wf = true → coresLegal t.cores → Keeps t (fin t)) : Keeps s (State.stmRun c p half mask stop fin l done s).2 := by
  induction l generalizing done s with
  | nil => exact hf s h hc
  | cons i l ih =>
    unfold State.stmRun
    split
    · exact Keeps.step (setProg_keeps s c i h hc) fun a b => stay_keeps _ _ _ a b
    · have k : Keeps s (s.storeCheck c .store (maskAddr (s.pr c p) mask i)).2 := storeCheck_keeps _ _ _ _ h hc
      generalize s.storeCheck c .store (maskAddr (s.pr c p) mask i) = r at k ⊢
      obtain ⟨r, s1⟩ := r
      cases r with
      | error t => exact Keeps.step k fun a b => setProg_keeps _ _ _ a b
      | ok q =>
        dsimp only at k ⊢
        have k2 : Keeps s (s1.putStore c [(q.1, s1.rg c (maskReg half i))] q.2) := Keeps.step k fun a b => putStore_keeps _ _ _ _ a b
        generalize s1.putStore c [(q.1, s1.rg c (maskReg half i))] q.2 = s2 at k2 ⊢
        split
        · exact Keeps.step k2 fun a b => ih _ _ a b
        · exact k2

/-- See State.ldmRun. -/
theorem ldmRun_keeps (c : CoreId) (p : PairIx) (half : Bool) (mask : Word) (stop : Option Nat) (fin : State → State) (l : List Nat)
    (done : Nat) (held : List (Reg × Word)) (s : State) (h : s.mem.wf = true) (hc : coresLegal s.cores)
    (hf : ∀ t : State, t.mem.wf = true → coresLegal t.cores → Keeps t (fin t)) :
    Keeps s (State.ldmRun c p half mask stop fin l done held s).2 := by
  induction l generalizing done held s with
  | nil => exact Keeps.step (hf s h hc) fun a b => foldl_keeps _ held _ a b fun t e x y => wr_keeps t c _ _ x y
  | cons i l ih =>
    unfold State.ldmRun
    split
    · exact Keeps.step (setProg_keeps s c i h hc) fun a b => stay_keeps _ _ _ a b
    · have k : Keeps s (s.load1 c (maskAddr (s.pr c p) mask i)).2 := load1_keeps _ _ _ h hc
      generalize s.load1 c (maskAddr (s.pr c p) mask i) = r at k ⊢
      obtain ⟨r, s1⟩ := r
      cases r with
      | error t => exact Keeps.step k fun a b => setProg_keeps _ _ _ a b
      | ok v =>
        dsimp only at k ⊢
        split
        · exact Keeps.step k fun a b => ih _ _ _ a b
        · exact Keeps.step (Keeps.step k fun a b => wr_keeps s1 c (maskReg half i) v a b) fun a b => ih _ _ _ a b

end Sys2Proof.Machine
end

