-- ==== Sys2Proof/Laws/Frame/HodCtl.lean ====
section
/-! SUPPORT. What the operations of Machine/HodCtl.lean leave: memory in canonical form and the queue of waiting commands. -/

namespace Sys2Proof.Machine

open Sys2Proof

/-- See State.sameBody. -/
theorem sameBody_keeps (s : State) (old new : List (Option Word)) (h : s.mem.wf = true) (hc : coresLegal s.cores) :
    (State.sameBody s old new).2.mem.wf = true ∧ coresLegal (State.sameBody s old new).2.cores ∧ (State.sameBody s old new).2.pending = s.pending := by
  grind [State.sameBody]
grind_pattern sameBody_keeps => State.sameBody s old new

/-- See State.takeLoop. -/
theorem takeLoop_keeps (s : State) (c : CoreId) (a : W32) (body : List (Option Word)) (h : s.mem.wf = true) (hc : coresLegal s.cores) :
    (State.takeLoop s c a body).mem.wf = true ∧ coresLegal (State.takeLoop s c a body).cores ∧ (State.takeLoop s c a body).pending = s.pending := by
  have k : ∀ t, Keeps s t → Keeps s ((t.leaveLoop c).modCore c fun k => { k with loopAt := some (a, body) }) := fun t k =>
    Keeps.step (Keeps.step k fun x y => leaveLoop_keeps t c x y) fun x y => modCore_keeps _ c _ x y (core_legal _ c y)
  have hr : Keeps s s := Keeps.refl h hc
  change Keeps s _
  unfold State.takeLoop
  dsimp only
  split
  · exact k s hr
  · split
    · exact k s hr
    · split
      · exact hr
      · exact Keeps.ite (Keeps.step (sameBody_keeps s _ _ h hc) fun x y => setBit_keeps _ _ _ _ _ x y) (k _ (sameBody_keeps s _ _ h hc))
grind_pattern takeLoop_keeps => State.takeLoop s c a body

/-- See State.noteBranch. -/
theorem noteBranch_keeps (s : State) (c : CoreId) (a t : W32) (len : Nat) (taken : Bool) (h : s.mem.wf = true) (hc : coresLegal s.cores) :
    (s.noteBranch c a t len taken).mem.wf = true ∧ coresLegal (s.noteBranch c a t len taken).cores ∧ (s.noteBranch c a t len taken).pending = s.pending := by
  unfold State.noteBranch
  exact Keeps.ite (takeLoop_keeps _ _ _ _ h hc) (leaveLoop_keeps s c h hc)
grind_pattern noteBranch_keeps => s.noteBranch c a t len taken

/-- See State.branch. -/
theorem branch_keeps (s : State) (c : CoreId) (cond : BitVec 4) (len : Nat) (disp : W32) (h : s.mem.wf = true) (hc : coresLegal s.cores) :
    (s.branch c cond len disp).mem.wf = true ∧ coresLegal (s.branch c cond len disp).cores ∧ (s.branch c cond len disp).pending = s.pending := by
  refine hod_keeps s c _ _ _ h hc (quiet_keeps _ fun t x y => ?_)
  have k : ∀ a b n, Keeps t (t.noteBranch c a b len n) := fun a b n => noteBranch_keeps _ _ _ _ _ _ x y
  replace k := k (t.pcOf c - BitVec.ofNat 32 len) (t.pcOf c + disp) (condHolds (t.psw c) cond)
  dsimp only
  generalize t.noteBranch c (t.pcOf c - BitVec.ofNat 32 len) (t.pcOf c + disp) len (condHolds (t.psw c) cond) = s1 at k ⊢
  exact Keeps.ite (Keeps.step k fun a b => modCore_keeps s1 c _ a b (core_legal s1 c b)) k
grind_pattern branch_keeps => s.branch c cond len disp

/-- See State.callTo. -/
theorem callTo_keeps (s : State) (c : CoreId) (t : W32) (h : s.mem.wf = true) (hc : coresLegal s.cores) :
    (s.callTo c t).2.mem.wf = true ∧ coresLegal (s.callTo c t).2.cores ∧ (s.callTo c t).2.pending = s.pending := by
  have k : ∀ a, Keeps s (s.shadowCheck c a 2).2 := fun a => shadowCheck_keeps _ _ _ _ h hc
  unfold State.callTo
  dsimp only
  generalize (s.core c).ssp - 2 = ssp
  replace k := k ssp
  generalize s.shadowCheck c ssp 2 = r at k ⊢
  obtain ⟨r, s1⟩ := r
  cases r with
  | error e => exact k
  | ok ps =>
    dsimp only at k ⊢
    have k1 : Keeps s ((s1.wrp c linkPair (s1.pcOf c)).modSpec c fun k => { k with ssp := ssp }) :=
      Keeps.step (Keeps.step k fun a b => wrp_keeps s1 c linkPair _ a b) fun a b => modSpec_keeps _ c _ a b (core_legal _ c b)
    generalize (s1.wrp c linkPair (s1.pcOf c)).modSpec c (fun k => { k with ssp := ssp }) = s2 at k1 ⊢
    have k2 : Keeps s (s2.jump c t) := Keeps.step k1 fun a b => jump_keeps s2 c t a b
    generalize s2.jump c t = s3 at k2 ⊢
    exact Keeps.step k2 fun a b => putWords_keeps s3 c _ a b
grind_pattern callTo_keeps => s.callTo c t

/-- See State.openCheck. -/
theorem openCheck_keeps (s : State) (c : CoreId) (h : s.mem.wf = true) (hc : coresLegal s.cores) :
    (s.openCheck c).2.mem.wf = true ∧ coresLegal (s.openCheck c).2.cores ∧ (s.openCheck c).2.pending = s.pending := by
  unfold State.openCheck
  dsimp only
  split
  · exact ⟨h, hc, rfl⟩
  · split
    · exact ⟨h, hc, rfl⟩
    · generalize (s.core c).wsp - 16 = w
      have k : Keeps s (s.checkAll c .store (wordsFrom w 16)).2 := checkAll_keeps _ _ _ _ h hc
      generalize s.checkAll c .store (wordsFrom w 16) = r at k ⊢
      obtain ⟨r, s1⟩ := r
      cases r with
      | error t => exact k
      | ok ps =>
        dsimp only at k ⊢
        have hf : winUp c (s.core c).fence < nwin c := winUp_lt _ _
        generalize winUp c (s.core c).fence = f at hf ⊢
        have k2 : Keeps s (s1.modSpec c fun k => { k with wsp := w, fence := f }) := Keeps.step k fun a b =>
          modSpec_keeps s1 c _ a b (fence_legal c { s1.core c with wsp := w } (s1.core c).auto f (core_legal s1 c b) hf)
        generalize (s1.modSpec c fun k => { k with wsp := w, fence := f }) = s2 at k2 ⊢
        exact Keeps.step k2 fun a b => putWords_keeps s2 c _ a b
grind_pattern openCheck_keeps => s.openCheck c

/-- See State.moveUp. -/
theorem moveUp_keeps (s : State) (c : CoreId) (h : s.mem.wf = true) (hc : coresLegal s.cores) :
    (s.moveUp c).mem.wf = true ∧ coresLegal (s.moveUp c).cores ∧ (s.moveUp c).pending = s.pending := by
  exact modSpec_keeps s c _ h hc (cwp_legal c _ _ (core_legal s c hc) (winUp_lt _ _))
grind_pattern moveUp_keeps => s.moveUp c

/-- See State.closeWindow. -/
theorem closeWindow_keeps (s : State) (c : CoreId) (h : s.mem.wf = true) (hc : coresLegal s.cores) :
    (s.closeWindow c).2.mem.wf = true ∧ coresLegal (s.closeWindow c).2.cores ∧ (s.closeWindow c).2.pending = s.pending := by
  unfold State.closeWindow
  have hn : winDown c (s.core c).cwp < nwin c := winDown_lt _ _
  dsimp only
  generalize winDown c (s.core c).cwp = n at hn ⊢
  split
  · exact modSpec_keeps s c _ h hc (cwp_legal c _ _ (core_legal s c hc) hn)
  · split
    · exact ⟨h, hc, rfl⟩
    · have k : Keeps s (s.readAll c .load (wordsFrom (s.core c).wsp 16)).2 := readAll_keeps _ _ _ _ h hc
      generalize s.readAll c .load (wordsFrom (s.core c).wsp 16) = r at k ⊢
      obtain ⟨r, s1⟩ := r
      cases r with
      | error t => exact k
      | ok vals =>
        dsimp only at k ⊢
        have k2 : ∀ l : List (Nat × Word), Keeps s (l.foldl (fun s e => s.wrPhys c e.1 e.2) s1) := fun l =>
          Keeps.step k fun a b => foldl_keeps _ l _ a b fun t e x y => wrPhys_keeps t c _ _ x y
        replace k2 := k2 (List.zip (frameRegs c (s.core c).fence) vals)
        generalize (List.zip (frameRegs c (s.core c).fence) vals).foldl (fun s e => s.wrPhys c e.1 e.2) s1 = s2 at k2 ⊢
        exact Keeps.step k2 fun a b => modSpec_keeps s2 c _ a b (cwp_legal c { s2.core c with wsp := _, fence := _ } n
          (fence_legal c { s2.core c with wsp := (s2.core c).wsp + 16 } (s2.core c).auto _ (core_legal s2 c b) (winDown_lt _ _)) hn)
grind_pattern closeWindow_keeps => s.closeWindow c

/-- See State.shadowTop. -/
theorem shadowTop_keeps (s : State) (c : CoreId) (t : W32) (h : s.mem.wf = true) (hc : coresLegal s.cores) :
    (State.shadowTop s c t).2.mem.wf = true ∧ coresLegal (State.shadowTop s c t).2.cores ∧ (State.shadowTop s c t).2.pending = s.pending := by
  grind [State.shadowTop]
grind_pattern shadowTop_keeps => State.shadowTop s c t

/-- See State.popShadow. -/
theorem popShadow_keeps (s : State) (c : CoreId) (n : Nat) (h : s.mem.wf = true) (hc : coresLegal s.cores) :
    (s.popShadow c n).mem.wf = true ∧ coresLegal (s.popShadow c n).cores ∧ (s.popShadow c n).pending = s.pending := by
  exact modSpec_keeps s c _ h hc (core_legal s c hc)
grind_pattern popShadow_keeps => s.popShadow c n

/-- See State.mayAccess. -/
theorem mayAccess_keeps (s : State) (c : CoreId) (on : Bool) (n : Need) (a : W32) (h : s.mem.wf = true) (hc : coresLegal s.cores) :
    (s.mayAccess c on n a).2.mem.wf = true ∧ coresLegal (s.mayAccess c on n a).2.cores ∧ (s.mayAccess c on n a).2.pending = s.pending := by
  unfold State.mayAccess
  split
  · have k : Keeps s (s.translate c a.toNat n (s.level c)).2 := translate_keeps _ _ _ _ _ h hc
    generalize s.translate c a.toNat n (s.level c) = r at k ⊢
    obtain ⟨r, s1⟩ := r
    cases r <;> exact k
  · exact ⟨h, hc, rfl⟩
grind_pattern mayAccess_keeps => s.mayAccess c on n a

/-- See State.pointerCheck. -/
theorem pointerCheck_keeps (c : CoreId) (ptr n : Nat) (a : W32) (s : State) (h : s.mem.wf = true) (hc : coresLegal s.cores) :
    Keeps s (State.pointerCheck c ptr n a s).2 := by
  induction n generalizing a s with
  | zero => exact ⟨h, hc, rfl⟩
  | succ n ih =>
    unfold State.pointerCheck
    have k : Keeps s (s.mayAccess c (decide (ptr % 2 = 1)) .load a).2 := mayAccess_keeps _ _ _ _ _ h hc
    generalize s.mayAccess c (decide (ptr % 2 = 1)) .load a = r at k ⊢
    obtain ⟨r, s1⟩ := r
    cases r with
    | false => exact k
    | true =>
      dsimp only at k ⊢
      have k1 : Keeps s (s1.mayAccess c (decide (2 ≤ ptr)) .storeTest a).2 := Keeps.step k fun x y => mayAccess_keeps _ _ _ _ _ x y
      generalize s1.mayAccess c (decide (2 ≤ ptr)) .storeTest a = r at k1 ⊢
      obtain ⟨r, s2⟩ := r
      cases r with
      | false => exact k1
      | true => exact Keeps.step k1 fun x y => ih _ _ x y

/-- See State.gateArgs. -/
theorem gateArgs_keeps (s : State) (c : CoreId) (e : List Word) (h : s.mem.wf = true) (hc : coresLegal s.cores) :
    (s.gateArgs c e).2.mem.wf = true ∧ coresLegal (s.gateArgs c e).2.cores ∧ (s.gateArgs c e).2.pending = s.pending := by
  unfold State.gateArgs
  split
  · exact ⟨h, hc, rfl⟩
  · split
    · exact ⟨h, hc, rfl⟩
    · exact pointerCheck_keeps _ _ _ _ s h hc
grind_pattern gateArgs_keeps => s.gateArgs c e

/-- See State.gateEnter. -/
theorem gateEnter_keeps (s : State) (c : CoreId) (n : Nat) (e : List Word) (lvl : Nat) (h : s.mem.wf = true) (hc : coresLegal s.cores) (he : entryLvl e < 3) :
    (s.gateEnter c n e lvl).2.mem.wf = true ∧ coresLegal (s.gateEnter c n e lvl).2.cores ∧ (s.gateEnter c n e lvl).2.pending = s.pending := by
  have k : ∀ a, Keeps s (s.shadowCheck c a 8).2 := fun a => shadowCheck_keeps _ _ _ _ h hc
  unfold State.gateEnter
  dsimp only
  generalize (s.core c).ssp - 8 = ssp
  replace k := k ssp
  generalize s.shadowCheck c ssp 8 = r at k ⊢
  obtain ⟨r, s1⟩ := r
  cases r with
  | error e => exact k
  | ok ps =>
    dsimp only at k ⊢
    have k1 : Keeps s (s1.moveUp c) := Keeps.step k fun a b => moveUp_keeps _ _ a b
    have k2 : Keeps s ((s1.moveUp c).modSpec c fun k => { k with psw := putFld k.psw 15 14 (min (entryLvl e) lvl), ssp := ssp }) :=
      Keeps.step k1 fun a b => by
        have hk := core_legal (s1.moveUp c) c b
        have hp := (pswLegal_iff _).1 ((Core.legal_iff c _).1 hk).2.2.1
        exact modSpec_keeps _ c _ a b (psw_legal c { (s1.moveUp c).core c with ssp := ssp } _ hk
          (putLvl_legal _ _ hp.2 (by have := he; omega)))
    generalize ((s1.moveUp c).modSpec c fun k => { k with psw := putFld k.psw 15 14 (min (entryLvl e) lvl), ssp := ssp }) = s2 at k2 ⊢
    have k3 : Keeps s (if entrySp e = 0 then s2 else (s2.wrPhys c 6 (hiOf (entrySp e))).wrPhys c 7 (loOf (entrySp e))) :=
      Keeps.ite k2 (Keeps.step (Keeps.step k2 fun a b => wrPhys_keeps s2 c _ _ a b) fun a b => wrPhys_keeps _ c _ _ a b)
    generalize (if entrySp e = 0 then s2 else (s2.wrPhys c 6 (hiOf (entrySp e))).wrPhys c 7 (loOf (entrySp e))) = s3 at k3 ⊢
    have k4 : Keeps s (s3.jump c (entryTgt e)) := Keeps.step k3 fun a b => jump_keeps s3 c _ a b
    generalize s3.jump c (entryTgt e) = s4 at k4 ⊢
    exact Keeps.step k4 fun a b => putWords_keeps s4 c _ a b

/-- See State.gatePass. -/
theorem gatePass_keeps (s : State) (c : CoreId) (n : Nat) (e : List Word) (h : s.mem.wf = true) (hc : coresLegal s.cores) (he : entryLvl e < 3) :
    (s.gatePass c n e).2.mem.wf = true ∧ coresLegal (s.gatePass c n e).2.cores ∧ (s.gatePass c n e).2.pending = s.pending := by
  have k : Keeps s (s.openCheck c).2 := openCheck_keeps _ _ h hc
  unfold State.gatePass
  generalize s.openCheck c = r at k ⊢
  obtain ⟨r, s1⟩ := r
  cases r with
  | some t => exact k
  | none =>
    dsimp only at k ⊢
    split
    · exact k
    · have k1 : Keeps s (s1.gateArgs c e).2 := Keeps.step k fun a b => gateArgs_keeps _ _ _ a b
      generalize s1.gateArgs c e = r at k1 ⊢
      obtain ⟨r, s2⟩ := r
      cases r with
      | some t => exact k1
      | none => exact Keeps.step k1 fun a b => gateEnter_keeps s2 c n e _ a b he

/-- See State.gateCall. -/
theorem gateCall_keeps (s : State) (c : CoreId) (n : Nat) (h : s.mem.wf = true) (hc : coresLegal s.cores) :
    (s.gateCall c n).2.mem.wf = true ∧ coresLegal (s.gateCall c n).2.cores ∧ (s.gateCall c n).2.pending = s.pending := by
  have k : Keeps s (s.gateEntry c n).2 := gateEntry_keeps _ _ _ h hc
  unfold State.gateCall
  generalize s.gateEntry c n = r at k ⊢
  obtain ⟨r, s1⟩ := r
  cases r with
  | none => exact k
  | some e =>
    dsimp only at k ⊢
    split
    · exact k
    · next hv =>
      have he : entryLvl e < 3 := by
        refine entryLvl_lt e ?_
        by_contra hx
        exact hv (by simp [hx])
      exact Keeps.step k fun a b => gatePass_keeps s1 c n e a b he
grind_pattern gateCall_keeps => s.gateCall c n

/-- See State.gateReturn. -/
theorem gateReturn_keeps (s : State) (c : CoreId) (h : s.mem.wf = true) (hc : coresLegal s.cores) :
    (s.gateReturn c).2.mem.wf = true ∧ coresLegal (s.gateReturn c).2.cores ∧ (s.gateReturn c).2.pending = s.pending := by
  have k : ∀ a, Keeps s (s.shadowRead c a 8).2 := fun a => shadowRead_keeps _ _ _ _ h hc
  replace k := k (s.core c).ssp
  unfold State.gateReturn
  generalize s.shadowRead c (s.core c).ssp 8 = r at k ⊢
  obtain ⟨r, s1⟩ := r
  cases r with
  | error t => exact k
  | ok w =>
    dsimp only at k ⊢
    split
    · exact k
    · have k1 : Keeps s (s1.closeWindow c).2 := Keeps.step k fun a b => closeWindow_keeps _ _ a b
      generalize s1.closeWindow c = r at k1 ⊢
      obtain ⟨r, s2⟩ := r
      cases r with
      | some t => exact k1
      | none =>
        dsimp only at k1 ⊢
        have k2 := pswLoaded_keeps s2 (w.getD 4 0) k1.1 k1.2.1
        generalize s2.pswLoaded (w.getD 4 0) = r at k2 ⊢
        obtain ⟨v, s3⟩ := r
        have k3 : Keeps s s3 := Keeps.step k1 fun _ _ => k2.1
        dsimp only at k2 ⊢
        have k4 : Keeps s ((s3.wrPhys c 6 (w.getD 3 0)).wrPhys c 7 (w.getD 2 0)) :=
          Keeps.step (Keeps.step k3 fun a b => wrPhys_keeps s3 c _ _ a b) fun a b => wrPhys_keeps _ c _ _ a b
        generalize (s3.wrPhys c 6 (w.getD 3 0)).wrPhys c 7 (w.getD 2 0) = s4 at k4 ⊢
        have k5 : Keeps s (s4.modSpec c fun k => { k with psw := putBit (putBit (putFld k.psw 15 14 (wfld v 15 14)) 13 (wbit v 13)) 11 (wbit v 11) }) :=
          Keeps.step k4 fun a b => by
            have hk := core_legal s4 c b
            have hp := (pswLegal_iff _).1 ((Core.legal_iff c _).1 hk).2.2.1
            have h1 := (pswLegal_iff _).1 (putLvl_legal (s4.core c).psw (wfld v 15 14) hp.2 (level_lt v k2.2))
            have e1 := putBit_high (putFld (s4.core c).psw 15 14 (wfld v 15 14)) 13 (wbit v 13) (by decide) (by decide)
            have e2 := putBit_high (putBit (putFld (s4.core c).psw 15 14 (wfld v 15 14)) 13 (wbit v 13)) 11 (wbit v 11) (by decide) (by decide)
            exact modSpec_keeps s4 c _ a b (psw_legal c _ _ hk ((pswLegal_iff _).2 ⟨by rw [e2.1, e1.1]; exact h1.1, by rw [e2.2, e1.2]; exact h1.2⟩))
        generalize (s4.modSpec c fun k => { k with psw := putBit (putBit (putFld k.psw 15 14 (wfld v 15 14)) 13 (wbit v 13)) 11 (wbit v 11) }) = s5 at k5 ⊢
        exact Keeps.step (Keeps.step k5 fun a b => popShadow_keeps s5 c 8 a b) fun a b => jump_keeps _ c _ a b
grind_pattern gateReturn_keeps => s.gateReturn c

end Sys2Proof.Machine
end

