-- ==== Sys2Proof/Laws/Frame/HodSys.lean ====
section
/-! SUPPORT. What the operations of Machine/HodSys.lean leave: memory in canonical form and the queue of waiting commands. -/

namespace Sys2Proof.Machine

open Sys2Proof

/-- See State.saveGroups. -/
theorem saveGroups_keeps (s : State) (c : CoreId) (l : List (W32 × Word)) (d : Word) (h : s.mem.wf = true) (hc : coresLegal s.cores) :
    (s.saveGroups c l d).2.mem.wf = true ∧ coresLegal (s.saveGroups c l d).2.cores ∧ (s.saveGroups c l d).2.pending = s.pending := by
  have k : Keeps s (s.checkAll c .store (l.map fun e => e.1)).2 := checkAll_keeps _ _ _ _ h hc
  unfold State.saveGroups
  generalize s.checkAll c .store (l.map fun e => e.1) = r at k ⊢
  obtain ⟨r, s1⟩ := r
  cases r with
  | error t => exact k
  | ok ps =>
    dsimp only at k ⊢
    have k2 : Keeps s (s1.modCore c fun k => { k with dirty := k.dirty &&& ~~~d }) := Keeps.step k fun a b => modCore_keeps s1 c _ a b (core_legal s1 c b)
    generalize (s1.modCore c fun k => { k with dirty := k.dirty &&& ~~~d }) = s2 at k2 ⊢
    exact Keeps.step k2 fun a b => putWords_keeps s2 c _ a b
grind_pattern saveGroups_keeps => s.saveGroups c l d

/-- See State.ctxsLower. -/
theorem ctxsLower_keeps (s : State) (c : CoreId) (h : s.mem.wf = true) (hc : coresLegal s.cores) :
    (s.ctxsLower c).2.mem.wf = true ∧ coresLegal (s.ctxsLower c).2.cores ∧ (s.ctxsLower c).2.pending = s.pending := by
  exact saveGroups_keeps s c _ _ h hc
grind_pattern ctxsLower_keeps => s.ctxsLower c

/-- See State.linkWord. -/
theorem linkWord_keeps (s : State) (c : CoreId) (h : s.mem.wf = true) (hc : coresLegal s.cores) :
    (State.linkWord s c).2.mem.wf = true ∧ coresLegal (State.linkWord s c).2.cores ∧ (State.linkWord s c).2.pending = s.pending := by
  grind [State.linkWord]
grind_pattern linkWord_keeps => State.linkWord s c

/-- See State.ctxsUpper. -/
theorem ctxsUpper_keeps (s : State) (c : CoreId) (h : s.mem.wf = true) (hc : coresLegal s.cores) :
    (s.ctxsUpper c).2.mem.wf = true ∧ coresLegal (s.ctxsUpper c).2.cores ∧ (s.ctxsUpper c).2.pending = s.pending := by
  have k : Keeps s (s.linkWord c).2 := linkWord_keeps _ _ h hc
  unfold State.ctxsUpper
  generalize s.linkWord c = r at k ⊢
  obtain ⟨r, s1⟩ := r
  cases r with
  | error t => exact k
  | ok link =>
    dsimp only at k ⊢
    have k2 : Keeps s s1.drawBit.2 := Keeps.step k fun a b => drawBit_keeps _ a b
    generalize s1.drawBit = r at k2 ⊢
    obtain ⟨save, s2⟩ := r
    exact Keeps.step k2 fun a b => saveGroups_keeps s2 c _ _ a b
grind_pattern ctxsUpper_keeps => s.ctxsUpper c

/-- See pairZero. -/
theorem pairZero_keeps (p : PairIx) (body : State → Option Trap × State) (hb : BodyKeeps body) : BodyKeeps (pairZero p body) := by
  intro t h hc
  unfold pairZero
  split
  · exact ⟨h, hc, rfl⟩
  · exact hb t h hc

/-- See State.ctxlLower. -/
theorem ctxlLower_keeps (s : State) (c : CoreId) (p : PairIx) (h : s.mem.wf = true) (hc : coresLegal s.cores) :
    (s.ctxlLower c p).2.mem.wf = true ∧ coresLegal (s.ctxlLower c p).2.cores ∧ (s.ctxlLower c p).2.pending = s.pending := by
  unfold State.ctxlLower
  dsimp only
  generalize s.pr c p = a
  have k : Keeps s (s.readAll c .load (wordsFrom (a + 4) 20)).2 := readAll_keeps _ _ _ _ h hc
  generalize s.readAll c .load (wordsFrom (a + 4) 20) = r at k ⊢
  obtain ⟨r, s1⟩ := r
  cases r with
  | error t => exact k
  | ok w =>
    dsimp only at k ⊢
    split
    · exact k
    · have k2 := pswLoaded_keeps s1 (w.getD 7 0) k.1 k.2.1
      generalize s1.pswLoaded (w.getD 7 0) = r at k2 ⊢
      obtain ⟨v, s2⟩ := r
      have k3 : Keeps s s2 := Keeps.step k fun _ _ => k2.1
      have k4 : Keeps s (s2.modCore c fun k => (k.youngerOf k.ctxPath 0xFFFF).loadLower c w v) := Keeps.step k3 fun x y =>
        modCore_keeps s2 c _ x y (loadLower_legal c _ w v (youngerOf_legal c _ _ _ (core_legal s2 c y)) k2.2)
      exact Keeps.step k4 fun x y => modCore_keeps _ c _ x y (core_legal _ c y)
grind_pattern ctxlLower_keeps => s.ctxlLower c p

/-- See State.ctxlUpper. -/
theorem ctxlUpper_keeps (s : State) (c : CoreId) (h : s.mem.wf = true) (hc : coresLegal s.cores) :
    (s.ctxlUpper c).2.mem.wf = true ∧ coresLegal (s.ctxlUpper c).2.cores ∧ (s.ctxlUpper c).2.pending = s.pending := by
  have k : Keeps s (s.linkWord c).2 := linkWord_keeps _ _ h hc
  unfold State.ctxlUpper
  generalize s.linkWord c = r at k ⊢
  obtain ⟨r, s1⟩ := r
  cases r with
  | error t => exact k
  | ok link =>
    dsimp only at k ⊢
    have k2 : ∀ l, Keeps s (s1.readAll c .load l).2 := fun l => Keeps.step k fun a b => readAll_keeps _ _ _ _ a b
    replace k2 := k2 (wordsFrom link (16 * nwin c))
    generalize s1.readAll c .load (wordsFrom link (16 * nwin c)) = r at k2 ⊢
    obtain ⟨r, s2⟩ := r
    cases r with
    | error t => exact k2
    | ok w =>
      have k3 : Keeps s (s2.modCore c fun k => k.loadUpper c w) := Keeps.step k2 fun x y =>
        modCore_keeps s2 c _ x y (foldl_legal c _ _ _ (core_legal s2 c y) fun k e z => setPreg_legal _ _ _ _ z)
      exact Keeps.step k3 fun x y => modCore_keeps _ c _ x y (core_legal _ c y)
grind_pattern ctxlUpper_keeps => s.ctxlUpper c

/-- See State.vxRefused. -/
theorem vxRefused_keeps (s : State) (c : CoreId) (rd : Reg) (h : s.mem.wf = true) (hc : coresLegal s.cores) :
    (s.vxRefused c rd).mem.wf = true ∧ coresLegal (s.vxRefused c rd).cores ∧ (s.vxRefused c rd).pending = s.pending := by
  exact Keeps.step (wr_keeps s c rd _ h hc) fun a b => flags_keeps _ c _ a b (maskOk_put _ 10 _ maskOk_nil (by decide) (by decide))
grind_pattern vxRefused_keeps => s.vxRefused c rd

end Sys2Proof.Machine
end

