-- ==== Sys2Proof/Laws/Frame/Debug.lean ====
section
/-! SUPPORT. What the operations of Machine/Debug.lean leave: memory in canonical form and the queue of waiting commands. -/

namespace Sys2Proof.Machine

open Sys2Proof

/-- See State.dbgStatus. -/
theorem dbgStatus_keeps (s : State) (n : Nat) (h : s.mem.wf = true) (hc : coresLegal s.cores) :
    (State.dbgStatus s n).mem.wf = true ∧ coresLegal (State.dbgStatus s n).cores ∧ (State.dbgStatus s n).pending = s.pending := by
  grind [State.dbgStatus]
grind_pattern dbgStatus_keeps => State.dbgStatus s n

/-- See State.debugAnswer. -/
theorem debugAnswer_keeps (s : State) (r : Answer W64) (h : s.mem.wf = true) (hc : coresLegal s.cores) :
    (State.debugAnswer s r).mem.wf = true ∧ coresLegal (State.debugAnswer s r).cores ∧ (State.debugAnswer s r).pending = s.pending := by
  unfold State.debugAnswer; grind
grind_pattern debugAnswer_keeps => State.debugAnswer s r

/-- See State.coreWrite. -/
theorem coreWrite_keeps (s : State) (c : CoreId) (sel : Nat) (v : Word) (t : State) (he : s.coreWrite c sel v = some t)
    (h : s.mem.wf = true) (hc : coresLegal s.cores) : t.mem.wf = true ∧ coresLegal t.cores ∧ t.pending = s.pending := by
  have hk := core_legal s c hc
  have k1 := wr_keeps s c (BitVec.ofNat 5 sel) v h hc
  have k2 : ∀ w, Keeps s (s.modCore c fun k => k.debugSpecial c (sel - 32) w) := fun w =>
    modCore_keeps s c _ h hc (debugSpecial_legal c _ _ w hk)
  have k3 : ∀ w, Keeps s (s.modCore c fun k => k.setSpecial c (sel - 64) w) := fun w =>
    modCore_keeps s c _ h hc (setSpecial_legal c _ _ w hk)
  unfold State.coreWrite at he
  split at he
  · injection he with he; subst he; exact k1
  · split at he
    · injection he with he; subst he; exact k2 _
    · split at he
      · injection he with he; subst he; exact k3 _
      · simp at he

/-- See State.haltControl. -/
theorem haltControl_keeps (s : State) (c : CoreId) (v : Word) (h : s.mem.wf = true) (hc : coresLegal s.cores) :
    (s.haltControl c v).mem.wf = true ∧ coresLegal (s.haltControl c v).cores ∧ (s.haltControl c v).pending = s.pending := by
  have hk := core_legal s c hc
  have k1 : ∀ r, Keeps s (s.modCore c fun k => { k with haltReq := r }) := fun r => modCore_keeps s c _ h hc hk
  have k2 : Keeps s (s.haltCore c) := haltCore_keeps s c h hc
  have k3 : Keeps s (s.resumeCore c) := resumeCore_keeps s c h hc
  have hr : Keeps s s := Keeps.refl h hc
  unfold State.haltControl
  dsimp only
  split
  · split
    · exact hr
    · exact hr
    · exact hr
    all_goals exact Keeps.ite (k1 true) k2
  · split
    · exact Keeps.ite k3 (k1 false)
    · exact hr
grind_pattern haltControl_keeps => s.haltControl c v

/-- See State.strangeSel. -/
theorem strangeSel_keeps (s : State) (h : s.mem.wf = true) (hc : coresLegal s.cores) :
    (State.strangeSel s).mem.wf = true ∧ coresLegal (State.strangeSel s).cores ∧ (State.strangeSel s).pending = s.pending := by
  grind [State.strangeSel]
grind_pattern strangeSel_keeps => State.strangeSel s

end Sys2Proof.Machine
end

