-- ==== Sys2Proof/Laws/State.lean ====
section
/-! SUPPORT. What each named update of the state leaves as it was, field by field, and what it puts where it writes. -/

namespace Sys2Proof.Machine

open Sys2Proof

variable (s : State)

/-! ### setReg -/

@[simp] theorem setReg_pending (k : RegKind) (i : Nat) (v : Word) : (s.setReg k i v).pending = s.pending := rfl
@[simp] theorem setReg_resp (k : RegKind) (i : Nat) (v : Word) : (s.setReg k i v).resp = s.resp := rfl
@[simp] theorem setReg_fresh (k : RegKind) (i : Nat) (v : Word) : (s.setReg k i v).fresh = s.fresh := rfl
@[simp] theorem setReg_captures (k : RegKind) (i : Nat) (v : Word) : (s.setReg k i v).captures = s.captures := rfl
@[simp] theorem setReg_staging (k : RegKind) (i : Nat) (v : Word) : (s.setReg k i v).staging = s.staging := rfl
@[simp] theorem setReg_ks (k : RegKind) (i : Nat) (v : Word) : (s.setReg k i v).ks = s.ks := rfl
@[simp] theorem setReg_lay (k : RegKind) (i : Nat) (v : Word) : (s.setReg k i v).lay = s.lay := rfl
@[simp] theorem setReg_pw (k : RegKind) (i : Nat) (v : Word) : (s.setReg k i v).pw = s.pw := rfl
@[simp] theorem setReg_mem (k : RegKind) (i : Nat) (v : Word) : (s.setReg k i v).mem = s.mem := rfl
@[simp] theorem setReg_tiles (k : RegKind) (i : Nat) (v : Word) : (s.setReg k i v).tiles = s.tiles := rfl
@[simp] theorem setReg_ccnt (k : RegKind) (i : Nat) (v : Word) : (s.setReg k i v).ccnt = s.ccnt := rfl
@[simp] theorem setReg_cores (k : RegKind) (i : Nat) (v : Word) : (s.setReg k i v).cores = s.cores := rfl
@[simp] theorem setReg_queues (k : RegKind) (i : Nat) (v : Word) : (s.setReg k i v).queues = s.queues := rfl
@[simp] theorem setReg_epoch (k : RegKind) (i : Nat) (v : Word) : (s.setReg k i v).epoch = s.epoch := rfl
@[simp] theorem setReg_arrivals (k : RegKind) (i : Nat) (v : Word) : (s.setReg k i v).arrivals = s.arrivals := rfl
@[simp] theorem setReg_templates (k : RegKind) (i : Nat) (v : Word) : (s.setReg k i v).templates = s.templates := rfl
@[simp] theorem setReg_zones (k : RegKind) (i : Nat) (v : Word) : (s.setReg k i v).zones = s.zones := rfl
@[simp] theorem setReg_tripped (k : RegKind) (i : Nat) (v : Word) : (s.setReg k i v).tripped = s.tripped := rfl
@[simp] theorem setReg_clusterHold (k : RegKind) (i : Nat) (v : Word) : (s.setReg k i v).clusterHold = s.clusterHold := rfl
@[simp] theorem setReg_courses (k : RegKind) (i : Nat) (v : Word) : (s.setReg k i v).courses = s.courses := rfl
@[simp] theorem setReg_ticks (k : RegKind) (i : Nat) (v : Word) : (s.setReg k i v).ticks = s.ticks := rfl
@[simp] theorem setReg_dispTick (k : RegKind) (i : Nat) (v : Word) : (s.setReg k i v).dispTick = s.dispTick := rfl
@[simp] theorem setReg_demod (k : RegKind) (i : Nat) (v : Word) : (s.setReg k i v).demod = s.demod := rfl
@[simp] theorem setReg_resHalf (k : RegKind) (i : Nat) (v : Word) : (s.setReg k i v).resHalf = s.resHalf := rfl
@[simp] theorem setReg_gptpLast (k : RegKind) (i : Nat) (v : Word) : (s.setReg k i v).gptpLast = s.gptpLast := rfl
@[simp] theorem setReg_sinc (k : RegKind) (i : Nat) (v : Word) : (s.setReg k i v).sinc = s.sinc := rfl
@[simp] theorem setReg_sdFrom (k : RegKind) (i : Nat) (v : Word) : (s.setReg k i v).sdFrom = s.sdFrom := rfl
@[simp] theorem setReg_sentSer (k : RegKind) (i : Nat) (v : Word) : (s.setReg k i v).sentSer = s.sentSer := rfl
@[simp] theorem setReg_vio (k : RegKind) (i : Nat) (v : Word) : (s.setReg k i v).vio = s.vio := rfl
@[simp] theorem setReg_wdtFrom (k : RegKind) (i : Nat) (v : Word) : (s.setReg k i v).wdtFrom = s.wdtFrom := rfl
@[simp] theorem setReg_dispatch (k : RegKind) (i : Nat) (v : Word) : (s.setReg k i v).dispatch = s.dispatch := rfl
@[simp] theorem setReg_jfired (k : RegKind) (i : Nat) (v : Word) : (s.setReg k i v).jfired = s.jfired := rfl
@[simp] theorem setReg_crossing (k : RegKind) (i : Nat) (v : Word) : (s.setReg k i v).crossing = s.crossing := rfl
@[simp] theorem setReg_gptpNs (k : RegKind) (i : Nat) (v : Word) : (s.setReg k i v).gptpNs = s.gptpNs := rfl
@[simp] theorem setReg_gptpFrac (k : RegKind) (i : Nat) (v : Word) : (s.setReg k i v).gptpFrac = s.gptpFrac := rfl
@[simp] theorem setReg_waiting (k : RegKind) (i : Nat) (v : Word) : (s.setReg k i v).waiting = s.waiting := rfl
@[simp] theorem setReg_converting (k : RegKind) (i : Nat) (v : Word) : (s.setReg k i v).converting = s.converting := rfl
@[simp] theorem setReg_adcTrans (k : RegKind) (i : Nat) (v : Word) : (s.setReg k i v).adcTrans = s.adcTrans := rfl
@[simp] theorem setReg_cpTrans (k : RegKind) (i : Nat) (v : Word) : (s.setReg k i v).cpTrans = s.cpTrans := rfl
@[simp] theorem setReg_cpOld (k : RegKind) (i : Nat) (v : Word) : (s.setReg k i v).cpOld = s.cpOld := rfl
@[simp] theorem setReg_sdSettle (k : RegKind) (i : Nat) (v : Word) : (s.setReg k i v).sdSettle = s.sdSettle := rfl
@[simp] theorem setReg_sentCal (k : RegKind) (i : Nat) (v : Word) : (s.setReg k i v).sentCal = s.sentCal := rfl
@[simp] theorem setReg_caps (k : RegKind) (i : Nat) (v : Word) : (s.setReg k i v).caps = s.caps := rfl
@[simp] theorem setReg_ready (k : RegKind) (i : Nat) (v : Word) : (s.setReg k i v).ready = s.ready := rfl
@[simp] theorem setReg_mods (k : RegKind) (i : Nat) (v : Word) : (s.setReg k i v).mods = s.mods := rfl
@[simp] theorem setReg_cells (k : RegKind) (i : Nat) (v : Word) : (s.setReg k i v).cells = s.cells := rfl
@[simp] theorem setReg_streamTlb (k : RegKind) (i : Nat) (v : Word) : (s.setReg k i v).streamTlb = s.streamTlb := rfl
@[simp] theorem setReg_asidCache (k : RegKind) (i : Nat) (v : Word) : (s.setReg k i v).asidCache = s.asidCache := rfl
@[simp] theorem setReg_tlbis (k : RegKind) (i : Nat) (v : Word) : (s.setReg k i v).tlbis = s.tlbis := rfl
@[simp] theorem setReg_lockC (k : RegKind) (i : Nat) (v : Word) : (s.setReg k i v).lockC = s.lockC := rfl
@[simp] theorem setReg_lockF (k : RegKind) (i : Nat) (v : Word) : (s.setReg k i v).lockF = s.lockF := rfl
@[simp] theorem setReg_net (k : RegKind) (i : Nat) (v : Word) : (s.setReg k i v).net = s.net := rfl
@[simp] theorem setReg_ml (k : RegKind) (i : Nat) (v : Word) : (s.setReg k i v).ml = s.ml := rfl
@[simp] theorem setReg_spr (k : RegKind) (i : Nat) (v : Word) : (s.setReg k i v).spr = s.spr := rfl
@[simp] theorem setReg_dbg (k : RegKind) (i : Nat) (v : Word) : (s.setReg k i v).dbg = s.dbg := rfl

/-! ### setFld -/

@[simp] theorem setFld_pending (k : RegKind) (i hi lo n : Nat) : (s.setFld k i hi lo n).pending = s.pending := rfl
@[simp] theorem setFld_resp (k : RegKind) (i hi lo n : Nat) : (s.setFld k i hi lo n).resp = s.resp := rfl
@[simp] theorem setFld_fresh (k : RegKind) (i hi lo n : Nat) : (s.setFld k i hi lo n).fresh = s.fresh := rfl
@[simp] theorem setFld_captures (k : RegKind) (i hi lo n : Nat) : (s.setFld k i hi lo n).captures = s.captures := rfl
@[simp] theorem setFld_staging (k : RegKind) (i hi lo n : Nat) : (s.setFld k i hi lo n).staging = s.staging := rfl
@[simp] theorem setFld_ks (k : RegKind) (i hi lo n : Nat) : (s.setFld k i hi lo n).ks = s.ks := rfl
@[simp] theorem setFld_lay (k : RegKind) (i hi lo n : Nat) : (s.setFld k i hi lo n).lay = s.lay := rfl
@[simp] theorem setFld_pw (k : RegKind) (i hi lo n : Nat) : (s.setFld k i hi lo n).pw = s.pw := rfl
@[simp] theorem setFld_mem (k : RegKind) (i hi lo n : Nat) : (s.setFld k i hi lo n).mem = s.mem := rfl
@[simp] theorem setFld_tiles (k : RegKind) (i hi lo n : Nat) : (s.setFld k i hi lo n).tiles = s.tiles := rfl
@[simp] theorem setFld_ccnt (k : RegKind) (i hi lo n : Nat) : (s.setFld k i hi lo n).ccnt = s.ccnt := rfl
@[simp] theorem setFld_cores (k : RegKind) (i hi lo n : Nat) : (s.setFld k i hi lo n).cores = s.cores := rfl
@[simp] theorem setFld_queues (k : RegKind) (i hi lo n : Nat) : (s.setFld k i hi lo n).queues = s.queues := rfl
@[simp] theorem setFld_epoch (k : RegKind) (i hi lo n : Nat) : (s.setFld k i hi lo n).epoch = s.epoch := rfl
@[simp] theorem setFld_arrivals (k : RegKind) (i hi lo n : Nat) : (s.setFld k i hi lo n).arrivals = s.arrivals := rfl
@[simp] theorem setFld_templates (k : RegKind) (i hi lo n : Nat) : (s.setFld k i hi lo n).templates = s.templates := rfl
@[simp] theorem setFld_zones (k : RegKind) (i hi lo n : Nat) : (s.setFld k i hi lo n).zones = s.zones := rfl
@[simp] theorem setFld_tripped (k : RegKind) (i hi lo n : Nat) : (s.setFld k i hi lo n).tripped = s.tripped := rfl
@[simp] theorem setFld_clusterHold (k : RegKind) (i hi lo n : Nat) : (s.setFld k i hi lo n).clusterHold = s.clusterHold := rfl
@[simp] theorem setFld_courses (k : RegKind) (i hi lo n : Nat) : (s.setFld k i hi lo n).courses = s.courses := rfl
@[simp] theorem setFld_ticks (k : RegKind) (i hi lo n : Nat) : (s.setFld k i hi lo n).ticks = s.ticks := rfl
@[simp] theorem setFld_dispTick (k : RegKind) (i hi lo n : Nat) : (s.setFld k i hi lo n).dispTick = s.dispTick := rfl
@[simp] theorem setFld_demod (k : RegKind) (i hi lo n : Nat) : (s.setFld k i hi lo n).demod = s.demod := rfl
@[simp] theorem setFld_resHalf (k : RegKind) (i hi lo n : Nat) : (s.setFld k i hi lo n).resHalf = s.resHalf := rfl
@[simp] theorem setFld_gptpLast (k : RegKind) (i hi lo n : Nat) : (s.setFld k i hi lo n).gptpLast = s.gptpLast := rfl
@[simp] theorem setFld_sinc (k : RegKind) (i hi lo n : Nat) : (s.setFld k i hi lo n).sinc = s.sinc := rfl
@[simp] theorem setFld_sdFrom (k : RegKind) (i hi lo n : Nat) : (s.setFld k i hi lo n).sdFrom = s.sdFrom := rfl
@[simp] theorem setFld_sentSer (k : RegKind) (i hi lo n : Nat) : (s.setFld k i hi lo n).sentSer = s.sentSer := rfl
@[simp] theorem setFld_vio (k : RegKind) (i hi lo n : Nat) : (s.setFld k i hi lo n).vio = s.vio := rfl
@[simp] theorem setFld_wdtFrom (k : RegKind) (i hi lo n : Nat) : (s.setFld k i hi lo n).wdtFrom = s.wdtFrom := rfl
@[simp] theorem setFld_dispatch (k : RegKind) (i hi lo n : Nat) : (s.setFld k i hi lo n).dispatch = s.dispatch := rfl
@[simp] theorem setFld_jfired (k : RegKind) (i hi lo n : Nat) : (s.setFld k i hi lo n).jfired = s.jfired := rfl
@[simp] theorem setFld_crossing (k : RegKind) (i hi lo n : Nat) : (s.setFld k i hi lo n).crossing = s.crossing := rfl
@[simp] theorem setFld_gptpNs (k : RegKind) (i hi lo n : Nat) : (s.setFld k i hi lo n).gptpNs = s.gptpNs := rfl
@[simp] theorem setFld_gptpFrac (k : RegKind) (i hi lo n : Nat) : (s.setFld k i hi lo n).gptpFrac = s.gptpFrac := rfl
@[simp] theorem setFld_waiting (k : RegKind) (i hi lo n : Nat) : (s.setFld k i hi lo n).waiting = s.waiting := rfl
@[simp] theorem setFld_converting (k : RegKind) (i hi lo n : Nat) : (s.setFld k i hi lo n).converting = s.converting := rfl
@[simp] theorem setFld_adcTrans (k : RegKind) (i hi lo n : Nat) : (s.setFld k i hi lo n).adcTrans = s.adcTrans := rfl
@[simp] theorem setFld_cpTrans (k : RegKind) (i hi lo n : Nat) : (s.setFld k i hi lo n).cpTrans = s.cpTrans := rfl
@[simp] theorem setFld_cpOld (k : RegKind) (i hi lo n : Nat) : (s.setFld k i hi lo n).cpOld = s.cpOld := rfl
@[simp] theorem setFld_sdSettle (k : RegKind) (i hi lo n : Nat) : (s.setFld k i hi lo n).sdSettle = s.sdSettle := rfl
@[simp] theorem setFld_sentCal (k : RegKind) (i hi lo n : Nat) : (s.setFld k i hi lo n).sentCal = s.sentCal := rfl
@[simp] theorem setFld_caps (k : RegKind) (i hi lo n : Nat) : (s.setFld k i hi lo n).caps = s.caps := rfl
@[simp] theorem setFld_ready (k : RegKind) (i hi lo n : Nat) : (s.setFld k i hi lo n).ready = s.ready := rfl
@[simp] theorem setFld_mods (k : RegKind) (i hi lo n : Nat) : (s.setFld k i hi lo n).mods = s.mods := rfl
@[simp] theorem setFld_cells (k : RegKind) (i hi lo n : Nat) : (s.setFld k i hi lo n).cells = s.cells := rfl
@[simp] theorem setFld_streamTlb (k : RegKind) (i hi lo n : Nat) : (s.setFld k i hi lo n).streamTlb = s.streamTlb := rfl
@[simp] theorem setFld_asidCache (k : RegKind) (i hi lo n : Nat) : (s.setFld k i hi lo n).asidCache = s.asidCache := rfl
@[simp] theorem setFld_tlbis (k : RegKind) (i hi lo n : Nat) : (s.setFld k i hi lo n).tlbis = s.tlbis := rfl
@[simp] theorem setFld_lockC (k : RegKind) (i hi lo n : Nat) : (s.setFld k i hi lo n).lockC = s.lockC := rfl
@[simp] theorem setFld_lockF (k : RegKind) (i hi lo n : Nat) : (s.setFld k i hi lo n).lockF = s.lockF := rfl
@[simp] theorem setFld_net (k : RegKind) (i hi lo n : Nat) : (s.setFld k i hi lo n).net = s.net := rfl
@[simp] theorem setFld_ml (k : RegKind) (i hi lo n : Nat) : (s.setFld k i hi lo n).ml = s.ml := rfl
@[simp] theorem setFld_spr (k : RegKind) (i hi lo n : Nat) : (s.setFld k i hi lo n).spr = s.spr := rfl
@[simp] theorem setFld_dbg (k : RegKind) (i hi lo n : Nat) : (s.setFld k i hi lo n).dbg = s.dbg := rfl

/-! ### setBit -/

@[simp] theorem setBit_pending (k : RegKind) (i b : Nat) (v : Bool) : (s.setBit k i b v).pending = s.pending := rfl
@[simp] theorem setBit_resp (k : RegKind) (i b : Nat) (v : Bool) : (s.setBit k i b v).resp = s.resp := rfl
@[simp] theorem setBit_fresh (k : RegKind) (i b : Nat) (v : Bool) : (s.setBit k i b v).fresh = s.fresh := rfl
@[simp] theorem setBit_captures (k : RegKind) (i b : Nat) (v : Bool) : (s.setBit k i b v).captures = s.captures := rfl
@[simp] theorem setBit_staging (k : RegKind) (i b : Nat) (v : Bool) : (s.setBit k i b v).staging = s.staging := rfl
@[simp] theorem setBit_ks (k : RegKind) (i b : Nat) (v : Bool) : (s.setBit k i b v).ks = s.ks := rfl
@[simp] theorem setBit_lay (k : RegKind) (i b : Nat) (v : Bool) : (s.setBit k i b v).lay = s.lay := rfl
@[simp] theorem setBit_pw (k : RegKind) (i b : Nat) (v : Bool) : (s.setBit k i b v).pw = s.pw := rfl
@[simp] theorem setBit_mem (k : RegKind) (i b : Nat) (v : Bool) : (s.setBit k i b v).mem = s.mem := rfl
@[simp] theorem setBit_tiles (k : RegKind) (i b : Nat) (v : Bool) : (s.setBit k i b v).tiles = s.tiles := rfl
@[simp] theorem setBit_ccnt (k : RegKind) (i b : Nat) (v : Bool) : (s.setBit k i b v).ccnt = s.ccnt := rfl
@[simp] theorem setBit_cores (k : RegKind) (i b : Nat) (v : Bool) : (s.setBit k i b v).cores = s.cores := rfl
@[simp] theorem setBit_queues (k : RegKind) (i b : Nat) (v : Bool) : (s.setBit k i b v).queues = s.queues := rfl
@[simp] theorem setBit_epoch (k : RegKind) (i b : Nat) (v : Bool) : (s.setBit k i b v).epoch = s.epoch := rfl
@[simp] theorem setBit_arrivals (k : RegKind) (i b : Nat) (v : Bool) : (s.setBit k i b v).arrivals = s.arrivals := rfl
@[simp] theorem setBit_templates (k : RegKind) (i b : Nat) (v : Bool) : (s.setBit k i b v).templates = s.templates := rfl
@[simp] theorem setBit_zones (k : RegKind) (i b : Nat) (v : Bool) : (s.setBit k i b v).zones = s.zones := rfl
@[simp] theorem setBit_tripped (k : RegKind) (i b : Nat) (v : Bool) : (s.setBit k i b v).tripped = s.tripped := rfl
@[simp] theorem setBit_clusterHold (k : RegKind) (i b : Nat) (v : Bool) : (s.setBit k i b v).clusterHold = s.clusterHold := rfl
@[simp] theorem setBit_courses (k : RegKind) (i b : Nat) (v : Bool) : (s.setBit k i b v).courses = s.courses := rfl
@[simp] theorem setBit_ticks (k : RegKind) (i b : Nat) (v : Bool) : (s.setBit k i b v).ticks = s.ticks := rfl
@[simp] theorem setBit_dispTick (k : RegKind) (i b : Nat) (v : Bool) : (s.setBit k i b v).dispTick = s.dispTick := rfl
@[simp] theorem setBit_demod (k : RegKind) (i b : Nat) (v : Bool) : (s.setBit k i b v).demod = s.demod := rfl
@[simp] theorem setBit_resHalf (k : RegKind) (i b : Nat) (v : Bool) : (s.setBit k i b v).resHalf = s.resHalf := rfl
@[simp] theorem setBit_gptpLast (k : RegKind) (i b : Nat) (v : Bool) : (s.setBit k i b v).gptpLast = s.gptpLast := rfl
@[simp] theorem setBit_sinc (k : RegKind) (i b : Nat) (v : Bool) : (s.setBit k i b v).sinc = s.sinc := rfl
@[simp] theorem setBit_sdFrom (k : RegKind) (i b : Nat) (v : Bool) : (s.setBit k i b v).sdFrom = s.sdFrom := rfl
@[simp] theorem setBit_sentSer (k : RegKind) (i b : Nat) (v : Bool) : (s.setBit k i b v).sentSer = s.sentSer := rfl
@[simp] theorem setBit_vio (k : RegKind) (i b : Nat) (v : Bool) : (s.setBit k i b v).vio = s.vio := rfl
@[simp] theorem setBit_wdtFrom (k : RegKind) (i b : Nat) (v : Bool) : (s.setBit k i b v).wdtFrom = s.wdtFrom := rfl
@[simp] theorem setBit_dispatch (k : RegKind) (i b : Nat) (v : Bool) : (s.setBit k i b v).dispatch = s.dispatch := rfl
@[simp] theorem setBit_jfired (k : RegKind) (i b : Nat) (v : Bool) : (s.setBit k i b v).jfired = s.jfired := rfl
@[simp] theorem setBit_crossing (k : RegKind) (i b : Nat) (v : Bool) : (s.setBit k i b v).crossing = s.crossing := rfl
@[simp] theorem setBit_gptpNs (k : RegKind) (i b : Nat) (v : Bool) : (s.setBit k i b v).gptpNs = s.gptpNs := rfl
@[simp] theorem setBit_gptpFrac (k : RegKind) (i b : Nat) (v : Bool) : (s.setBit k i b v).gptpFrac = s.gptpFrac := rfl
@[simp] theorem setBit_waiting (k : RegKind) (i b : Nat) (v : Bool) : (s.setBit k i b v).waiting = s.waiting := rfl
@[simp] theorem setBit_converting (k : RegKind) (i b : Nat) (v : Bool) : (s.setBit k i b v).converting = s.converting := rfl
@[simp] theorem setBit_adcTrans (k : RegKind) (i b : Nat) (v : Bool) : (s.setBit k i b v).adcTrans = s.adcTrans := rfl
@[simp] theorem setBit_cpTrans (k : RegKind) (i b : Nat) (v : Bool) : (s.setBit k i b v).cpTrans = s.cpTrans := rfl
@[simp] theorem setBit_cpOld (k : RegKind) (i b : Nat) (v : Bool) : (s.setBit k i b v).cpOld = s.cpOld := rfl
@[simp] theorem setBit_sdSettle (k : RegKind) (i b : Nat) (v : Bool) : (s.setBit k i b v).sdSettle = s.sdSettle := rfl
@[simp] theorem setBit_sentCal (k : RegKind) (i b : Nat) (v : Bool) : (s.setBit k i b v).sentCal = s.sentCal := rfl
@[simp] theorem setBit_caps (k : RegKind) (i b : Nat) (v : Bool) : (s.setBit k i b v).caps = s.caps := rfl
@[simp] theorem setBit_ready (k : RegKind) (i b : Nat) (v : Bool) : (s.setBit k i b v).ready = s.ready := rfl
@[simp] theorem setBit_mods (k : RegKind) (i b : Nat) (v : Bool) : (s.setBit k i b v).mods = s.mods := rfl
@[simp] theorem setBit_cells (k : RegKind) (i b : Nat) (v : Bool) : (s.setBit k i b v).cells = s.cells := rfl
@[simp] theorem setBit_streamTlb (k : RegKind) (i b : Nat) (v : Bool) : (s.setBit k i b v).streamTlb = s.streamTlb := rfl
@[simp] theorem setBit_asidCache (k : RegKind) (i b : Nat) (v : Bool) : (s.setBit k i b v).asidCache = s.asidCache := rfl
@[simp] theorem setBit_tlbis (k : RegKind) (i b : Nat) (v : Bool) : (s.setBit k i b v).tlbis = s.tlbis := rfl
@[simp] theorem setBit_lockC (k : RegKind) (i b : Nat) (v : Bool) : (s.setBit k i b v).lockC = s.lockC := rfl
@[simp] theorem setBit_lockF (k : RegKind) (i b : Nat) (v : Bool) : (s.setBit k i b v).lockF = s.lockF := rfl
@[simp] theorem setBit_net (k : RegKind) (i b : Nat) (v : Bool) : (s.setBit k i b v).net = s.net := rfl
@[simp] theorem setBit_ml (k : RegKind) (i b : Nat) (v : Bool) : (s.setBit k i b v).ml = s.ml := rfl
@[simp] theorem setBit_spr (k : RegKind) (i b : Nat) (v : Bool) : (s.setBit k i b v).spr = s.spr := rfl
@[simp] theorem setBit_dbg (k : RegKind) (i b : Nat) (v : Bool) : (s.setBit k i b v).dbg = s.dbg := rfl

/-! ### setPair -/

@[simp] theorem setPair_pending (lo hi : RegKind) (i n : Nat) : (s.setPair lo hi i n).pending = s.pending := rfl
@[simp] theorem setPair_resp (lo hi : RegKind) (i n : Nat) : (s.setPair lo hi i n).resp = s.resp := rfl
@[simp] theorem setPair_fresh (lo hi : RegKind) (i n : Nat) : (s.setPair lo hi i n).fresh = s.fresh := rfl
@[simp] theorem setPair_captures (lo hi : RegKind) (i n : Nat) : (s.setPair lo hi i n).captures = s.captures := rfl
@[simp] theorem setPair_staging (lo hi : RegKind) (i n : Nat) : (s.setPair lo hi i n).staging = s.staging := rfl
@[simp] theorem setPair_ks (lo hi : RegKind) (i n : Nat) : (s.setPair lo hi i n).ks = s.ks := rfl
@[simp] theorem setPair_lay (lo hi : RegKind) (i n : Nat) : (s.setPair lo hi i n).lay = s.lay := rfl
@[simp] theorem setPair_pw (lo hi : RegKind) (i n : Nat) : (s.setPair lo hi i n).pw = s.pw := rfl
@[simp] theorem setPair_mem (lo hi : RegKind) (i n : Nat) : (s.setPair lo hi i n).mem = s.mem := rfl
@[simp] theorem setPair_tiles (lo hi : RegKind) (i n : Nat) : (s.setPair lo hi i n).tiles = s.tiles := rfl
@[simp] theorem setPair_ccnt (lo hi : RegKind) (i n : Nat) : (s.setPair lo hi i n).ccnt = s.ccnt := rfl
@[simp] theorem setPair_cores (lo hi : RegKind) (i n : Nat) : (s.setPair lo hi i n).cores = s.cores := rfl
@[simp] theorem setPair_queues (lo hi : RegKind) (i n : Nat) : (s.setPair lo hi i n).queues = s.queues := rfl
@[simp] theorem setPair_epoch (lo hi : RegKind) (i n : Nat) : (s.setPair lo hi i n).epoch = s.epoch := rfl
@[simp] theorem setPair_arrivals (lo hi : RegKind) (i n : Nat) : (s.setPair lo hi i n).arrivals = s.arrivals := rfl
@[simp] theorem setPair_templates (lo hi : RegKind) (i n : Nat) : (s.setPair lo hi i n).templates = s.templates := rfl
@[simp] theorem setPair_zones (lo hi : RegKind) (i n : Nat) : (s.setPair lo hi i n).zones = s.zones := rfl
@[simp] theorem setPair_tripped (lo hi : RegKind) (i n : Nat) : (s.setPair lo hi i n).tripped = s.tripped := rfl
@[simp] theorem setPair_clusterHold (lo hi : RegKind) (i n : Nat) : (s.setPair lo hi i n).clusterHold = s.clusterHold := rfl
@[simp] theorem setPair_courses (lo hi : RegKind) (i n : Nat) : (s.setPair lo hi i n).courses = s.courses := rfl
@[simp] theorem setPair_ticks (lo hi : RegKind) (i n : Nat) : (s.setPair lo hi i n).ticks = s.ticks := rfl
@[simp] theorem setPair_dispTick (lo hi : RegKind) (i n : Nat) : (s.setPair lo hi i n).dispTick = s.dispTick := rfl
@[simp] theorem setPair_demod (lo hi : RegKind) (i n : Nat) : (s.setPair lo hi i n).demod = s.demod := rfl
@[simp] theorem setPair_resHalf (lo hi : RegKind) (i n : Nat) : (s.setPair lo hi i n).resHalf = s.resHalf := rfl
@[simp] theorem setPair_gptpLast (lo hi : RegKind) (i n : Nat) : (s.setPair lo hi i n).gptpLast = s.gptpLast := rfl
@[simp] theorem setPair_sinc (lo hi : RegKind) (i n : Nat) : (s.setPair lo hi i n).sinc = s.sinc := rfl
@[simp] theorem setPair_sdFrom (lo hi : RegKind) (i n : Nat) : (s.setPair lo hi i n).sdFrom = s.sdFrom := rfl
@[simp] theorem setPair_sentSer (lo hi : RegKind) (i n : Nat) : (s.setPair lo hi i n).sentSer = s.sentSer := rfl
@[simp] theorem setPair_vio (lo hi : RegKind) (i n : Nat) : (s.setPair lo hi i n).vio = s.vio := rfl
@[simp] theorem setPair_wdtFrom (lo hi : RegKind) (i n : Nat) : (s.setPair lo hi i n).wdtFrom = s.wdtFrom := rfl
@[simp] theorem setPair_dispatch (lo hi : RegKind) (i n : Nat) : (s.setPair lo hi i n).dispatch = s.dispatch := rfl
@[simp] theorem setPair_jfired (lo hi : RegKind) (i n : Nat) : (s.setPair lo hi i n).jfired = s.jfired := rfl
@[simp] theorem setPair_crossing (lo hi : RegKind) (i n : Nat) : (s.setPair lo hi i n).crossing = s.crossing := rfl
@[simp] theorem setPair_gptpNs (lo hi : RegKind) (i n : Nat) : (s.setPair lo hi i n).gptpNs = s.gptpNs := rfl
@[simp] theorem setPair_gptpFrac (lo hi : RegKind) (i n : Nat) : (s.setPair lo hi i n).gptpFrac = s.gptpFrac := rfl
@[simp] theorem setPair_waiting (lo hi : RegKind) (i n : Nat) : (s.setPair lo hi i n).waiting = s.waiting := rfl
@[simp] theorem setPair_converting (lo hi : RegKind) (i n : Nat) : (s.setPair lo hi i n).converting = s.converting := rfl
@[simp] theorem setPair_adcTrans (lo hi : RegKind) (i n : Nat) : (s.setPair lo hi i n).adcTrans = s.adcTrans := rfl
@[simp] theorem setPair_cpTrans (lo hi : RegKind) (i n : Nat) : (s.setPair lo hi i n).cpTrans = s.cpTrans := rfl
@[simp] theorem setPair_cpOld (lo hi : RegKind) (i n : Nat) : (s.setPair lo hi i n).cpOld = s.cpOld := rfl
@[simp] theorem setPair_sdSettle (lo hi : RegKind) (i n : Nat) : (s.setPair lo hi i n).sdSettle = s.sdSettle := rfl
@[simp] theorem setPair_sentCal (lo hi : RegKind) (i n : Nat) : (s.setPair lo hi i n).sentCal = s.sentCal := rfl
@[simp] theorem setPair_caps (lo hi : RegKind) (i n : Nat) : (s.setPair lo hi i n).caps = s.caps := rfl
@[simp] theorem setPair_ready (lo hi : RegKind) (i n : Nat) : (s.setPair lo hi i n).ready = s.ready := rfl
@[simp] theorem setPair_mods (lo hi : RegKind) (i n : Nat) : (s.setPair lo hi i n).mods = s.mods := rfl
@[simp] theorem setPair_cells (lo hi : RegKind) (i n : Nat) : (s.setPair lo hi i n).cells = s.cells := rfl
@[simp] theorem setPair_streamTlb (lo hi : RegKind) (i n : Nat) : (s.setPair lo hi i n).streamTlb = s.streamTlb := rfl
@[simp] theorem setPair_asidCache (lo hi : RegKind) (i n : Nat) : (s.setPair lo hi i n).asidCache = s.asidCache := rfl
@[simp] theorem setPair_tlbis (lo hi : RegKind) (i n : Nat) : (s.setPair lo hi i n).tlbis = s.tlbis := rfl
@[simp] theorem setPair_lockC (lo hi : RegKind) (i n : Nat) : (s.setPair lo hi i n).lockC = s.lockC := rfl
@[simp] theorem setPair_lockF (lo hi : RegKind) (i n : Nat) : (s.setPair lo hi i n).lockF = s.lockF := rfl
@[simp] theorem setPair_net (lo hi : RegKind) (i n : Nat) : (s.setPair lo hi i n).net = s.net := rfl
@[simp] theorem setPair_ml (lo hi : RegKind) (i n : Nat) : (s.setPair lo hi i n).ml = s.ml := rfl
@[simp] theorem setPair_spr (lo hi : RegKind) (i n : Nat) : (s.setPair lo hi i n).spr = s.spr := rfl
@[simp] theorem setPair_dbg (lo hi : RegKind) (i n : Nat) : (s.setPair lo hi i n).dbg = s.dbg := rfl

/-! ### setCore -/

@[simp] theorem setCore_pending (c : CoreId) (k : Core) : (s.setCore c k).pending = s.pending := rfl
@[simp] theorem setCore_resp (c : CoreId) (k : Core) : (s.setCore c k).resp = s.resp := rfl
@[simp] theorem setCore_fresh (c : CoreId) (k : Core) : (s.setCore c k).fresh = s.fresh := rfl
@[simp] theorem setCore_regs (c : CoreId) (k : Core) : (s.setCore c k).regs = s.regs := rfl
@[simp] theorem setCore_captures (c : CoreId) (k : Core) : (s.setCore c k).captures = s.captures := rfl
@[simp] theorem setCore_staging (c : CoreId) (k : Core) : (s.setCore c k).staging = s.staging := rfl
@[simp] theorem setCore_ks (c : CoreId) (k : Core) : (s.setCore c k).ks = s.ks := rfl
@[simp] theorem setCore_lay (c : CoreId) (k : Core) : (s.setCore c k).lay = s.lay := rfl
@[simp] theorem setCore_pw (c : CoreId) (k : Core) : (s.setCore c k).pw = s.pw := rfl
@[simp] theorem setCore_mem (c : CoreId) (k : Core) : (s.setCore c k).mem = s.mem := rfl
@[simp] theorem setCore_tiles (c : CoreId) (k : Core) : (s.setCore c k).tiles = s.tiles := rfl
@[simp] theorem setCore_ccnt (c : CoreId) (k : Core) : (s.setCore c k).ccnt = s.ccnt := rfl
@[simp] theorem setCore_queues (c : CoreId) (k : Core) : (s.setCore c k).queues = s.queues := rfl
@[simp] theorem setCore_epoch (c : CoreId) (k : Core) : (s.setCore c k).epoch = s.epoch := rfl
@[simp] theorem setCore_arrivals (c : CoreId) (k : Core) : (s.setCore c k).arrivals = s.arrivals := rfl
@[simp] theorem setCore_templates (c : CoreId) (k : Core) : (s.setCore c k).templates = s.templates := rfl
@[simp] theorem setCore_zones (c : CoreId) (k : Core) : (s.setCore c k).zones = s.zones := rfl
@[simp] theorem setCore_tripped (c : CoreId) (k : Core) : (s.setCore c k).tripped = s.tripped := rfl
@[simp] theorem setCore_clusterHold (c : CoreId) (k : Core) : (s.setCore c k).clusterHold = s.clusterHold := rfl
@[simp] theorem setCore_courses (c : CoreId) (k : Core) : (s.setCore c k).courses = s.courses := rfl
@[simp] theorem setCore_ticks (c : CoreId) (k : Core) : (s.setCore c k).ticks = s.ticks := rfl
@[simp] theorem setCore_dispTick (c : CoreId) (k : Core) : (s.setCore c k).dispTick = s.dispTick := rfl
@[simp] theorem setCore_demod (c : CoreId) (k : Core) : (s.setCore c k).demod = s.demod := rfl
@[simp] theorem setCore_resHalf (c : CoreId) (k : Core) : (s.setCore c k).resHalf = s.resHalf := rfl
@[simp] theorem setCore_gptpLast (c : CoreId) (k : Core) : (s.setCore c k).gptpLast = s.gptpLast := rfl
@[simp] theorem setCore_sinc (c : CoreId) (k : Core) : (s.setCore c k).sinc = s.sinc := rfl
@[simp] theorem setCore_sdFrom (c : CoreId) (k : Core) : (s.setCore c k).sdFrom = s.sdFrom := rfl
@[simp] theorem setCore_sentSer (c : CoreId) (k : Core) : (s.setCore c k).sentSer = s.sentSer := rfl
@[simp] theorem setCore_vio (c : CoreId) (k : Core) : (s.setCore c k).vio = s.vio := rfl
@[simp] theorem setCore_wdtFrom (c : CoreId) (k : Core) : (s.setCore c k).wdtFrom = s.wdtFrom := rfl
@[simp] theorem setCore_dispatch (c : CoreId) (k : Core) : (s.setCore c k).dispatch = s.dispatch := rfl
@[simp] theorem setCore_jfired (c : CoreId) (k : Core) : (s.setCore c k).jfired = s.jfired := rfl
@[simp] theorem setCore_crossing (c : CoreId) (k : Core) : (s.setCore c k).crossing = s.crossing := rfl
@[simp] theorem setCore_gptpNs (c : CoreId) (k : Core) : (s.setCore c k).gptpNs = s.gptpNs := rfl
@[simp] theorem setCore_gptpFrac (c : CoreId) (k : Core) : (s.setCore c k).gptpFrac = s.gptpFrac := rfl
@[simp] theorem setCore_waiting (c : CoreId) (k : Core) : (s.setCore c k).waiting = s.waiting := rfl
@[simp] theorem setCore_converting (c : CoreId) (k : Core) : (s.setCore c k).converting = s.converting := rfl
@[simp] theorem setCore_adcTrans (c : CoreId) (k : Core) : (s.setCore c k).adcTrans = s.adcTrans := rfl
@[simp] theorem setCore_cpTrans (c : CoreId) (k : Core) : (s.setCore c k).cpTrans = s.cpTrans := rfl
@[simp] theorem setCore_cpOld (c : CoreId) (k : Core) : (s.setCore c k).cpOld = s.cpOld := rfl
@[simp] theorem setCore_sdSettle (c : CoreId) (k : Core) : (s.setCore c k).sdSettle = s.sdSettle := rfl
@[simp] theorem setCore_sentCal (c : CoreId) (k : Core) : (s.setCore c k).sentCal = s.sentCal := rfl
@[simp] theorem setCore_caps (c : CoreId) (k : Core) : (s.setCore c k).caps = s.caps := rfl
@[simp] theorem setCore_ready (c : CoreId) (k : Core) : (s.setCore c k).ready = s.ready := rfl
@[simp] theorem setCore_mods (c : CoreId) (k : Core) : (s.setCore c k).mods = s.mods := rfl
@[simp] theorem setCore_cells (c : CoreId) (k : Core) : (s.setCore c k).cells = s.cells := rfl
@[simp] theorem setCore_streamTlb (c : CoreId) (k : Core) : (s.setCore c k).streamTlb = s.streamTlb := rfl
@[simp] theorem setCore_asidCache (c : CoreId) (k : Core) : (s.setCore c k).asidCache = s.asidCache := rfl
@[simp] theorem setCore_tlbis (c : CoreId) (k : Core) : (s.setCore c k).tlbis = s.tlbis := rfl
@[simp] theorem setCore_lockC (c : CoreId) (k : Core) : (s.setCore c k).lockC = s.lockC := rfl
@[simp] theorem setCore_lockF (c : CoreId) (k : Core) : (s.setCore c k).lockF = s.lockF := rfl
@[simp] theorem setCore_net (c : CoreId) (k : Core) : (s.setCore c k).net = s.net := rfl
@[simp] theorem setCore_ml (c : CoreId) (k : Core) : (s.setCore c k).ml = s.ml := rfl
@[simp] theorem setCore_spr (c : CoreId) (k : Core) : (s.setCore c k).spr = s.spr := rfl
@[simp] theorem setCore_dbg (c : CoreId) (k : Core) : (s.setCore c k).dbg = s.dbg := rfl

/-! ### modCore -/

@[simp] theorem modCore_pending (c : CoreId) (f : Core → Core) : (s.modCore c f).pending = s.pending := rfl
@[simp] theorem modCore_resp (c : CoreId) (f : Core → Core) : (s.modCore c f).resp = s.resp := rfl
@[simp] theorem modCore_fresh (c : CoreId) (f : Core → Core) : (s.modCore c f).fresh = s.fresh := rfl
@[simp] theorem modCore_regs (c : CoreId) (f : Core → Core) : (s.modCore c f).regs = s.regs := rfl
@[simp] theorem modCore_captures (c : CoreId) (f : Core → Core) : (s.modCore c f).captures = s.captures := rfl
@[simp] theorem modCore_staging (c : CoreId) (f : Core → Core) : (s.modCore c f).staging = s.staging := rfl
@[simp] theorem modCore_ks (c : CoreId) (f : Core → Core) : (s.modCore c f).ks = s.ks := rfl
@[simp] theorem modCore_lay (c : CoreId) (f : Core → Core) : (s.modCore c f).lay = s.lay := rfl
@[simp] theorem modCore_pw (c : CoreId) (f : Core → Core) : (s.modCore c f).pw = s.pw := rfl
@[simp] theorem modCore_mem (c : CoreId) (f : Core → Core) : (s.modCore c f).mem = s.mem := rfl
@[simp] theorem modCore_tiles (c : CoreId) (f : Core → Core) : (s.modCore c f).tiles = s.tiles := rfl
@[simp] theorem modCore_ccnt (c : CoreId) (f : Core → Core) : (s.modCore c f).ccnt = s.ccnt := rfl
@[simp] theorem modCore_queues (c : CoreId) (f : Core → Core) : (s.modCore c f).queues = s.queues := rfl
@[simp] theorem modCore_epoch (c : CoreId) (f : Core → Core) : (s.modCore c f).epoch = s.epoch := rfl
@[simp] theorem modCore_arrivals (c : CoreId) (f : Core → Core) : (s.modCore c f).arrivals = s.arrivals := rfl
@[simp] theorem modCore_templates (c : CoreId) (f : Core → Core) : (s.modCore c f).templates = s.templates := rfl
@[simp] theorem modCore_zones (c : CoreId) (f : Core → Core) : (s.modCore c f).zones = s.zones := rfl
@[simp] theorem modCore_tripped (c : CoreId) (f : Core → Core) : (s.modCore c f).tripped = s.tripped := rfl
@[simp] theorem modCore_clusterHold (c : CoreId) (f : Core → Core) : (s.modCore c f).clusterHold = s.clusterHold := rfl
@[simp] theorem modCore_courses (c : CoreId) (f : Core → Core) : (s.modCore c f).courses = s.courses := rfl
@[simp] theorem modCore_ticks (c : CoreId) (f : Core → Core) : (s.modCore c f).ticks = s.ticks := rfl
@[simp] theorem modCore_dispTick (c : CoreId) (f : Core → Core) : (s.modCore c f).dispTick = s.dispTick := rfl
@[simp] theorem modCore_demod (c : CoreId) (f : Core → Core) : (s.modCore c f).demod = s.demod := rfl
@[simp] theorem modCore_resHalf (c : CoreId) (f : Core → Core) : (s.modCore c f).resHalf = s.resHalf := rfl
@[simp] theorem modCore_gptpLast (c : CoreId) (f : Core → Core) : (s.modCore c f).gptpLast = s.gptpLast := rfl
@[simp] theorem modCore_sinc (c : CoreId) (f : Core → Core) : (s.modCore c f).sinc = s.sinc := rfl
@[simp] theorem modCore_sdFrom (c : CoreId) (f : Core → Core) : (s.modCore c f).sdFrom = s.sdFrom := rfl
@[simp] theorem modCore_sentSer (c : CoreId) (f : Core → Core) : (s.modCore c f).sentSer = s.sentSer := rfl
@[simp] theorem modCore_vio (c : CoreId) (f : Core → Core) : (s.modCore c f).vio = s.vio := rfl
@[simp] theorem modCore_wdtFrom (c : CoreId) (f : Core → Core) : (s.modCore c f).wdtFrom = s.wdtFrom := rfl
@[simp] theorem modCore_dispatch (c : CoreId) (f : Core → Core) : (s.modCore c f).dispatch = s.dispatch := rfl
@[simp] theorem modCore_jfired (c : CoreId) (f : Core → Core) : (s.modCore c f).jfired = s.jfired := rfl
@[simp] theorem modCore_crossing (c : CoreId) (f : Core → Core) : (s.modCore c f).crossing = s.crossing := rfl
@[simp] theorem modCore_gptpNs (c : CoreId) (f : Core → Core) : (s.modCore c f).gptpNs = s.gptpNs := rfl
@[simp] theorem modCore_gptpFrac (c : CoreId) (f : Core → Core) : (s.modCore c f).gptpFrac = s.gptpFrac := rfl
@[simp] theorem modCore_waiting (c : CoreId) (f : Core → Core) : (s.modCore c f).waiting = s.waiting := rfl
@[simp] theorem modCore_converting (c : CoreId) (f : Core → Core) : (s.modCore c f).converting = s.converting := rfl
@[simp] theorem modCore_adcTrans (c : CoreId) (f : Core → Core) : (s.modCore c f).adcTrans = s.adcTrans := rfl
@[simp] theorem modCore_cpTrans (c : CoreId) (f : Core → Core) : (s.modCore c f).cpTrans = s.cpTrans := rfl
@[simp] theorem modCore_cpOld (c : CoreId) (f : Core → Core) : (s.modCore c f).cpOld = s.cpOld := rfl
@[simp] theorem modCore_sdSettle (c : CoreId) (f : Core → Core) : (s.modCore c f).sdSettle = s.sdSettle := rfl
@[simp] theorem modCore_sentCal (c : CoreId) (f : Core → Core) : (s.modCore c f).sentCal = s.sentCal := rfl
@[simp] theorem modCore_caps (c : CoreId) (f : Core → Core) : (s.modCore c f).caps = s.caps := rfl
@[simp] theorem modCore_ready (c : CoreId) (f : Core → Core) : (s.modCore c f).ready = s.ready := rfl
@[simp] theorem modCore_mods (c : CoreId) (f : Core → Core) : (s.modCore c f).mods = s.mods := rfl
@[simp] theorem modCore_cells (c : CoreId) (f : Core → Core) : (s.modCore c f).cells = s.cells := rfl
@[simp] theorem modCore_streamTlb (c : CoreId) (f : Core → Core) : (s.modCore c f).streamTlb = s.streamTlb := rfl
@[simp] theorem modCore_asidCache (c : CoreId) (f : Core → Core) : (s.modCore c f).asidCache = s.asidCache := rfl
@[simp] theorem modCore_tlbis (c : CoreId) (f : Core → Core) : (s.modCore c f).tlbis = s.tlbis := rfl
@[simp] theorem modCore_lockC (c : CoreId) (f : Core → Core) : (s.modCore c f).lockC = s.lockC := rfl
@[simp] theorem modCore_lockF (c : CoreId) (f : Core → Core) : (s.modCore c f).lockF = s.lockF := rfl
@[simp] theorem modCore_net (c : CoreId) (f : Core → Core) : (s.modCore c f).net = s.net := rfl
@[simp] theorem modCore_ml (c : CoreId) (f : Core → Core) : (s.modCore c f).ml = s.ml := rfl
@[simp] theorem modCore_spr (c : CoreId) (f : Core → Core) : (s.modCore c f).spr = s.spr := rfl
@[simp] theorem modCore_dbg (c : CoreId) (f : Core → Core) : (s.modCore c f).dbg = s.dbg := rfl

/-! ### draw -/

@[simp] theorem draw_pending : (s.draw.2).pending = s.pending := rfl
@[simp] theorem draw_resp : (s.draw.2).resp = s.resp := rfl
@[simp] theorem draw_regs : (s.draw.2).regs = s.regs := rfl
@[simp] theorem draw_captures : (s.draw.2).captures = s.captures := rfl
@[simp] theorem draw_staging : (s.draw.2).staging = s.staging := rfl
@[simp] theorem draw_ks : (s.draw.2).ks = s.ks := rfl
@[simp] theorem draw_lay : (s.draw.2).lay = s.lay := rfl
@[simp] theorem draw_pw : (s.draw.2).pw = s.pw := rfl
@[simp] theorem draw_mem : (s.draw.2).mem = s.mem := rfl
@[simp] theorem draw_tiles : (s.draw.2).tiles = s.tiles := rfl
@[simp] theorem draw_ccnt : (s.draw.2).ccnt = s.ccnt := rfl
@[simp] theorem draw_cores : (s.draw.2).cores = s.cores := rfl
@[simp] theorem draw_queues : (s.draw.2).queues = s.queues := rfl
@[simp] theorem draw_epoch : (s.draw.2).epoch = s.epoch := rfl
@[simp] theorem draw_arrivals : (s.draw.2).arrivals = s.arrivals := rfl
@[simp] theorem draw_templates : (s.draw.2).templates = s.templates := rfl
@[simp] theorem draw_zones : (s.draw.2).zones = s.zones := rfl
@[simp] theorem draw_tripped : (s.draw.2).tripped = s.tripped := rfl
@[simp] theorem draw_clusterHold : (s.draw.2).clusterHold = s.clusterHold := rfl
@[simp] theorem draw_courses : (s.draw.2).courses = s.courses := rfl
@[simp] theorem draw_ticks : (s.draw.2).ticks = s.ticks := rfl
@[simp] theorem draw_dispTick : (s.draw.2).dispTick = s.dispTick := rfl
@[simp] theorem draw_demod : (s.draw.2).demod = s.demod := rfl
@[simp] theorem draw_resHalf : (s.draw.2).resHalf = s.resHalf := rfl
@[simp] theorem draw_gptpLast : (s.draw.2).gptpLast = s.gptpLast := rfl
@[simp] theorem draw_sinc : (s.draw.2).sinc = s.sinc := rfl
@[simp] theorem draw_sdFrom : (s.draw.2).sdFrom = s.sdFrom := rfl
@[simp] theorem draw_sentSer : (s.draw.2).sentSer = s.sentSer := rfl
@[simp] theorem draw_vio : (s.draw.2).vio = s.vio := rfl
@[simp] theorem draw_wdtFrom : (s.draw.2).wdtFrom = s.wdtFrom := rfl
@[simp] theorem draw_dispatch : (s.draw.2).dispatch = s.dispatch := rfl
@[simp] theorem draw_jfired : (s.draw.2).jfired = s.jfired := rfl
@[simp] theorem draw_crossing : (s.draw.2).crossing = s.crossing := rfl
@[simp] theorem draw_gptpNs : (s.draw.2).gptpNs = s.gptpNs := rfl
@[simp] theorem draw_gptpFrac : (s.draw.2).gptpFrac = s.gptpFrac := rfl
@[simp] theorem draw_waiting : (s.draw.2).waiting = s.waiting := rfl
@[simp] theorem draw_converting : (s.draw.2).converting = s.converting := rfl
@[simp] theorem draw_adcTrans : (s.draw.2).adcTrans = s.adcTrans := rfl
@[simp] theorem draw_cpTrans : (s.draw.2).cpTrans = s.cpTrans := rfl
@[simp] theorem draw_cpOld : (s.draw.2).cpOld = s.cpOld := rfl
@[simp] theorem draw_sdSettle : (s.draw.2).sdSettle = s.sdSettle := rfl
@[simp] theorem draw_sentCal : (s.draw.2).sentCal = s.sentCal := rfl
@[simp] theorem draw_caps : (s.draw.2).caps = s.caps := rfl
@[simp] theorem draw_ready : (s.draw.2).ready = s.ready := rfl
@[simp] theorem draw_mods : (s.draw.2).mods = s.mods := rfl
@[simp] theorem draw_cells : (s.draw.2).cells = s.cells := rfl
@[simp] theorem draw_streamTlb : (s.draw.2).streamTlb = s.streamTlb := rfl
@[simp] theorem draw_asidCache : (s.draw.2).asidCache = s.asidCache := rfl
@[simp] theorem draw_tlbis : (s.draw.2).tlbis = s.tlbis := rfl
@[simp] theorem draw_lockC : (s.draw.2).lockC = s.lockC := rfl
@[simp] theorem draw_lockF : (s.draw.2).lockF = s.lockF := rfl
@[simp] theorem draw_net : (s.draw.2).net = s.net := rfl
@[simp] theorem draw_ml : (s.draw.2).ml = s.ml := rfl
@[simp] theorem draw_spr : (s.draw.2).spr = s.spr := rfl
@[simp] theorem draw_dbg : (s.draw.2).dbg = s.dbg := rfl

/-! ### drawBit -/

@[simp] theorem drawBit_pending : (s.drawBit.2).pending = s.pending := rfl
@[simp] theorem drawBit_resp : (s.drawBit.2).resp = s.resp := rfl
@[simp] theorem drawBit_regs : (s.drawBit.2).regs = s.regs := rfl
@[simp] theorem drawBit_captures : (s.drawBit.2).captures = s.captures := rfl
@[simp] theorem drawBit_staging : (s.drawBit.2).staging = s.staging := rfl
@[simp] theorem drawBit_ks : (s.drawBit.2).ks = s.ks := rfl
@[simp] theorem drawBit_lay : (s.drawBit.2).lay = s.lay := rfl
@[simp] theorem drawBit_pw : (s.drawBit.2).pw = s.pw := rfl
@[simp] theorem drawBit_mem : (s.drawBit.2).mem = s.mem := rfl
@[simp] theorem drawBit_tiles : (s.drawBit.2).tiles = s.tiles := rfl
@[simp] theorem drawBit_ccnt : (s.drawBit.2).ccnt = s.ccnt := rfl
@[simp] theorem drawBit_cores : (s.drawBit.2).cores = s.cores := rfl
@[simp] theorem drawBit_queues : (s.drawBit.2).queues = s.queues := rfl
@[simp] theorem drawBit_epoch : (s.drawBit.2).epoch = s.epoch := rfl
@[simp] theorem drawBit_arrivals : (s.drawBit.2).arrivals = s.arrivals := rfl
@[simp] theorem drawBit_templates : (s.drawBit.2).templates = s.templates := rfl
@[simp] theorem drawBit_zones : (s.drawBit.2).zones = s.zones := rfl
@[simp] theorem drawBit_tripped : (s.drawBit.2).tripped = s.tripped := rfl
@[simp] theorem drawBit_clusterHold : (s.drawBit.2).clusterHold = s.clusterHold := rfl
@[simp] theorem drawBit_courses : (s.drawBit.2).courses = s.courses := rfl
@[simp] theorem drawBit_ticks : (s.drawBit.2).ticks = s.ticks := rfl
@[simp] theorem drawBit_dispTick : (s.drawBit.2).dispTick = s.dispTick := rfl
@[simp] theorem drawBit_demod : (s.drawBit.2).demod = s.demod := rfl
@[simp] theorem drawBit_resHalf : (s.drawBit.2).resHalf = s.resHalf := rfl
@[simp] theorem drawBit_gptpLast : (s.drawBit.2).gptpLast = s.gptpLast := rfl
@[simp] theorem drawBit_sinc : (s.drawBit.2).sinc = s.sinc := rfl
@[simp] theorem drawBit_sdFrom : (s.drawBit.2).sdFrom = s.sdFrom := rfl
@[simp] theorem drawBit_sentSer : (s.drawBit.2).sentSer = s.sentSer := rfl
@[simp] theorem drawBit_vio : (s.drawBit.2).vio = s.vio := rfl
@[simp] theorem drawBit_wdtFrom : (s.drawBit.2).wdtFrom = s.wdtFrom := rfl
@[simp] theorem drawBit_dispatch : (s.drawBit.2).dispatch = s.dispatch := rfl
@[simp] theorem drawBit_jfired : (s.drawBit.2).jfired = s.jfired := rfl
@[simp] theorem drawBit_crossing : (s.drawBit.2).crossing = s.crossing := rfl
@[simp] theorem drawBit_gptpNs : (s.drawBit.2).gptpNs = s.gptpNs := rfl
@[simp] theorem drawBit_gptpFrac : (s.drawBit.2).gptpFrac = s.gptpFrac := rfl
@[simp] theorem drawBit_waiting : (s.drawBit.2).waiting = s.waiting := rfl
@[simp] theorem drawBit_converting : (s.drawBit.2).converting = s.converting := rfl
@[simp] theorem drawBit_adcTrans : (s.drawBit.2).adcTrans = s.adcTrans := rfl
@[simp] theorem drawBit_cpTrans : (s.drawBit.2).cpTrans = s.cpTrans := rfl
@[simp] theorem drawBit_cpOld : (s.drawBit.2).cpOld = s.cpOld := rfl
@[simp] theorem drawBit_sdSettle : (s.drawBit.2).sdSettle = s.sdSettle := rfl
@[simp] theorem drawBit_sentCal : (s.drawBit.2).sentCal = s.sentCal := rfl
@[simp] theorem drawBit_caps : (s.drawBit.2).caps = s.caps := rfl
@[simp] theorem drawBit_ready : (s.drawBit.2).ready = s.ready := rfl
@[simp] theorem drawBit_mods : (s.drawBit.2).mods = s.mods := rfl
@[simp] theorem drawBit_cells : (s.drawBit.2).cells = s.cells := rfl
@[simp] theorem drawBit_streamTlb : (s.drawBit.2).streamTlb = s.streamTlb := rfl
@[simp] theorem drawBit_asidCache : (s.drawBit.2).asidCache = s.asidCache := rfl
@[simp] theorem drawBit_tlbis : (s.drawBit.2).tlbis = s.tlbis := rfl
@[simp] theorem drawBit_lockC : (s.drawBit.2).lockC = s.lockC := rfl
@[simp] theorem drawBit_lockF : (s.drawBit.2).lockF = s.lockF := rfl
@[simp] theorem drawBit_net : (s.drawBit.2).net = s.net := rfl
@[simp] theorem drawBit_ml : (s.drawBit.2).ml = s.ml := rfl
@[simp] theorem drawBit_spr : (s.drawBit.2).spr = s.spr := rfl
@[simp] theorem drawBit_dbg : (s.drawBit.2).dbg = s.dbg := rfl

/-! ### drawWord -/

@[simp] theorem drawWord_pending : (s.drawWord.2).pending = s.pending := rfl
@[simp] theorem drawWord_resp : (s.drawWord.2).resp = s.resp := rfl
@[simp] theorem drawWord_regs : (s.drawWord.2).regs = s.regs := rfl
@[simp] theorem drawWord_captures : (s.drawWord.2).captures = s.captures := rfl
@[simp] theorem drawWord_staging : (s.drawWord.2).staging = s.staging := rfl
@[simp] theorem drawWord_ks : (s.drawWord.2).ks = s.ks := rfl
@[simp] theorem drawWord_lay : (s.drawWord.2).lay = s.lay := rfl
@[simp] theorem drawWord_pw : (s.drawWord.2).pw = s.pw := rfl
@[simp] theorem drawWord_mem : (s.drawWord.2).mem = s.mem := rfl
@[simp] theorem drawWord_tiles : (s.drawWord.2).tiles = s.tiles := rfl
@[simp] theorem drawWord_ccnt : (s.drawWord.2).ccnt = s.ccnt := rfl
@[simp] theorem drawWord_cores : (s.drawWord.2).cores = s.cores := rfl
@[simp] theorem drawWord_queues : (s.drawWord.2).queues = s.queues := rfl
@[simp] theorem drawWord_epoch : (s.drawWord.2).epoch = s.epoch := rfl
@[simp] theorem drawWord_arrivals : (s.drawWord.2).arrivals = s.arrivals := rfl
@[simp] theorem drawWord_templates : (s.drawWord.2).templates = s.templates := rfl
@[simp] theorem drawWord_zones : (s.drawWord.2).zones = s.zones := rfl
@[simp] theorem drawWord_tripped : (s.drawWord.2).tripped = s.tripped := rfl
@[simp] theorem drawWord_clusterHold : (s.drawWord.2).clusterHold = s.clusterHold := rfl
@[simp] theorem drawWord_courses : (s.drawWord.2).courses = s.courses := rfl
@[simp] theorem drawWord_ticks : (s.drawWord.2).ticks = s.ticks := rfl
@[simp] theorem drawWord_dispTick : (s.drawWord.2).dispTick = s.dispTick := rfl
@[simp] theorem drawWord_demod : (s.drawWord.2).demod = s.demod := rfl
@[simp] theorem drawWord_resHalf : (s.drawWord.2).resHalf = s.resHalf := rfl
@[simp] theorem drawWord_gptpLast : (s.drawWord.2).gptpLast = s.gptpLast := rfl
@[simp] theorem drawWord_sinc : (s.drawWord.2).sinc = s.sinc := rfl
@[simp] theorem drawWord_sdFrom : (s.drawWord.2).sdFrom = s.sdFrom := rfl
@[simp] theorem drawWord_sentSer : (s.drawWord.2).sentSer = s.sentSer := rfl
@[simp] theorem drawWord_vio : (s.drawWord.2).vio = s.vio := rfl
@[simp] theorem drawWord_wdtFrom : (s.drawWord.2).wdtFrom = s.wdtFrom := rfl
@[simp] theorem drawWord_dispatch : (s.drawWord.2).dispatch = s.dispatch := rfl
@[simp] theorem drawWord_jfired : (s.drawWord.2).jfired = s.jfired := rfl
@[simp] theorem drawWord_crossing : (s.drawWord.2).crossing = s.crossing := rfl
@[simp] theorem drawWord_gptpNs : (s.drawWord.2).gptpNs = s.gptpNs := rfl
@[simp] theorem drawWord_gptpFrac : (s.drawWord.2).gptpFrac = s.gptpFrac := rfl
@[simp] theorem drawWord_waiting : (s.drawWord.2).waiting = s.waiting := rfl
@[simp] theorem drawWord_converting : (s.drawWord.2).converting = s.converting := rfl
@[simp] theorem drawWord_adcTrans : (s.drawWord.2).adcTrans = s.adcTrans := rfl
@[simp] theorem drawWord_cpTrans : (s.drawWord.2).cpTrans = s.cpTrans := rfl
@[simp] theorem drawWord_cpOld : (s.drawWord.2).cpOld = s.cpOld := rfl
@[simp] theorem drawWord_sdSettle : (s.drawWord.2).sdSettle = s.sdSettle := rfl
@[simp] theorem drawWord_sentCal : (s.drawWord.2).sentCal = s.sentCal := rfl
@[simp] theorem drawWord_caps : (s.drawWord.2).caps = s.caps := rfl
@[simp] theorem drawWord_ready : (s.drawWord.2).ready = s.ready := rfl
@[simp] theorem drawWord_mods : (s.drawWord.2).mods = s.mods := rfl
@[simp] theorem drawWord_cells : (s.drawWord.2).cells = s.cells := rfl
@[simp] theorem drawWord_streamTlb : (s.drawWord.2).streamTlb = s.streamTlb := rfl
@[simp] theorem drawWord_asidCache : (s.drawWord.2).asidCache = s.asidCache := rfl
@[simp] theorem drawWord_tlbis : (s.drawWord.2).tlbis = s.tlbis := rfl
@[simp] theorem drawWord_lockC : (s.drawWord.2).lockC = s.lockC := rfl
@[simp] theorem drawWord_lockF : (s.drawWord.2).lockF = s.lockF := rfl
@[simp] theorem drawWord_net : (s.drawWord.2).net = s.net := rfl
@[simp] theorem drawWord_ml : (s.drawWord.2).ml = s.ml := rfl
@[simp] theorem drawWord_spr : (s.drawWord.2).spr = s.spr := rfl
@[simp] theorem drawWord_dbg : (s.drawWord.2).dbg = s.dbg := rfl

/-! ### What is written -/

/-- The word written to a register is read from it. -/
@[simp] theorem reg_setReg (k : RegKind) (i : Nat) (v : Word) : (s.setReg k i v).reg k i = v := Tab.get_set_self _ _ _ _

/-- A write to another address leaves a register. -/
theorem reg_setReg_of_ne (k l : RegKind) (i j : Nat) (v : Word) (h : l.addr j ≠ k.addr i) : (s.setReg k i v).reg l j = s.reg l j := by
  unfold State.reg State.setReg
  exact Tab.get_set_of_ne2 k.reset l.reset h v s.regs

/-- The core written is read. -/
@[simp] theorem core_setCore (c : CoreId) (k : Core) : (s.setCore c k).core c = k := by simp [State.setCore, State.core]

/-- A write to another core leaves a core. -/
theorem core_setCore_of_ne (c d : CoreId) (k : Core) (h : d ≠ c) : (s.setCore c k).core d = s.core d := by
  have h' : c.val ≠ d.val := fun e => h (Fin.ext e.symm)
  simp [State.setCore, State.core, h']

/-- A changed core is read. -/
@[simp] theorem core_modCore (c : CoreId) (f : Core → Core) : (s.modCore c f).core c = f (s.core c) := core_setCore s c _

/-- Changing another core leaves a core. -/
theorem core_modCore_of_ne (c d : CoreId) (f : Core → Core) (h : d ≠ c) : (s.modCore c f).core d = s.core d := core_setCore_of_ne s c d _ h

/-- Registers are no part of a core. -/
@[simp] theorem reg_setCore (c : CoreId) (k : Core) (l : RegKind) (j : Nat) : (s.setCore c k).reg l j = s.reg l j := rfl

@[simp] theorem reg_modCore (c : CoreId) (f : Core → Core) (l : RegKind) (j : Nat) : (s.modCore c f).reg l j = s.reg l j := rfl

@[simp] theorem core_setReg (k : RegKind) (i : Nat) (v : Word) (c : CoreId) : (s.setReg k i v).core c = s.core c := rfl

/-! ### Registers of a core -/

/-- The physical register written is read. -/
@[simp] theorem preg_setPreg (k : Core) (p : Nat) (v : Word) : (k.setPreg p v).preg p = v := Tab.get_set_self _ _ _ _

/-- A write to another physical register leaves a register. -/
theorem preg_setPreg_of_ne (k : Core) (p q : Nat) (v : Word) (h : q ≠ p) : (k.setPreg p v).preg q = k.preg q :=
  Tab.get_set_of_ne _ h _ _

/-- g0 reads 0. -/
@[simp] theorem rg_zero (c : CoreId) : s.rg c 0 = 0 := rfl

/-- A write to g0 is discarded. -/
@[simp] theorem wr_zero (c : CoreId) (v : Word) : s.wr c 0 v = s := rfl

end Sys2Proof.Machine
end

