-- ==== Sys2Proof/Tests/Slice0.lean ====
section
/-! SUPPORT. Tests of the model on small states, and for every statement with hypotheses concrete states that meet them, clause by
clause. Expected values come from the manual's tables and rules. -/

namespace Sys2Proof.Tests

open Sys2Proof Sys2Proof.Machine

set_option Elab.async false

/-- The command answers exactly the state t. -/
def answers (i : Instr) (s t : State) : Bool :=
  match exec i s with
  | .next u => decide (u = t)
  | _ => false

/-- The state that a command answers. -/
def out (i : Instr) (s : State) : State :=
  match exec i s with
  | .next u => u
  | _ => s

/-- Words stored from a word address of the near memory of HF[0]. -/
def nearWords (a : Nat) (l : List Word) : List (Nat × Byte) :=
  (l.zipIdx.flatMap fun e => [(2 * (a + e.2), BitVec.ofNat 8 e.1.toNat), (2 * (a + e.2) + 1, BitVec.ofNat 8 (e.1.toNat / 256))]).filter
    fun e => e.2 ≠ 0

/-- The word address of the near memory of HF[0]. -/
def near : W32 := 0x06000000

/-- HF[0] runs at level M without translation and fetches from its loop buffer; its tables and stacks lie in its near memory. -/
def runner : State := (State.reset.setCore 8 { State.reset.core 8 with
  run := .running, gtb := near + 0x100, ssp := near + 0x800, wsp := near + 0x900, ctxp := near + 0xA00 }).setBit (pipeCtl 8).1 (pipeCtl 8).2 12 true

/-- The same with its core changed. -/
def cpu (f : Core → Core) : State := runner.setCore 8 (f (runner.core 8))

/-- And with words in its near memory. -/
def withNear (s : State) (a : Nat) (l : List Word) : State := { s with mem := { s.mem with hfNear := nearWords a l } }

/-- What an operation answers, and whether it answers. -/
def got {α ε : Type} (d : α) (r : Except ε α × State) : α :=
  match r.1 with
  | .ok x => x
  | .error _ => d
/-- See got. -/
def fine {α ε : Type} (r : Except ε α × State) : Bool :=
  match r.1 with
  | .ok _ => true
  | .error _ => false

/-! ### Well-formedness and the decoder -/

theorem test_ill_formed : ([.netbootBlock 0 (List.replicate 1025 0), .cpgRise 0 [], .splitLoRead ⟨.c, 38⟩ 0, .splitHiRead ⟨.f, 14⟩ 0,
    .splitLoWrite ⟨.c, 38⟩ 0 0, .splitHiWrite ⟨.f, 14⟩ 0 0, .rcRead ⟨.c, 38⟩ 0 false, .registerWrite ⟨.c, 0⟩ 0 12 0 0, .registerWrite ⟨.c, 38⟩ 0 16 0 0,
    .tileBeat .c 256 [] .clean, .tileBeat .f 0 [⟨14, 0, none, 0, false, false, false⟩] .clean,
    .tileBeat .f 0 [⟨1, 0, none, 0, false, false, false⟩, ⟨1, 8, none, 0, false, false, false⟩] .clean, .eccWriteback .f 64, .scrubRead .c 256 .clean,
    .tilePowerRequest .f 64 0, .tilePowerDone .c 256, .tileIdleExpiry .f 64 0, .brickSuspend 0 0 0 [0, 0, 0, 0, 0, 0],
    .brickEnd 0 0 [0, 0, 0, 0, 0, 0], .kilnRefill [] (List.replicate 6 0), .kilnRefill (List.replicate 24 none) [], .adcConversionDone 0 5000000,
    .frameReceive 0 ⟨List.replicate 13 0, true, 0, none⟩, .canFrameReceive 0 ⟨.classical, 0, [], List.replicate 2049 0, true, 0⟩,
    .canFrameReceive 0 ⟨.xl, 0, List.replicate 9 0, [], true, 0⟩, .wearMeasurement [] [], .wearMeasurement (List.replicate 6 0) []] :
    List Instr).all (fun i => !i.wf) = true := by decide +kernel

theorem test_well_formed : ([.netbootBlock 0 (List.replicate 1024 0), .tileBeat .c 255 [⟨37, 0, none, 0, false, false, false⟩] .clean, .eccWriteback .f 63,
    .adcConversionDone 0 4999999, .registerWrite ⟨.f, 13⟩ 0 64 0 0, .add 0 1 2] : List Instr).all Instr.wf = true := by decide +kernel

theorem test_no_words : decodeTableWord 16 0 = none ∧ decodeTableWord 32 0xFFFFFFFF = none := by decide +kernel

theorem test_step_takes_front : (match step { runner with pending := [.nop 8, .nop 8] } with
    | .next t => decide (t.pending = [.nop 8] ∧ (t.core 8).pc = 1)
    | _ => false) = true := by decide +kernel

/-! ### Hod cores -/

/-- Every instruction of the runner executes: the hypothesis of the statements on instructions that complete (HodSums, HodLogic, HodMoves, HodShifts,
HodPairs, HodCrc, HodDaj, HodBranches, HodLoads, HodStores and others). -/
theorem test_runner_issues (len : Nat) (u : Uses) : runner.hodIssue 8 len u = (true, runner) := by rfl

/-- A core at an arithmetic exception, one that does not run, one with an interrupt due: HodIssues. -/
theorem test_HodIssues_witness :
    (State.reset.core 8).run ≠ .running ∧
    (let k := (cpu fun k => { k with arith := [{ cause := 0x12, addr := 0, path := .task }] }).core 8
     k.run = .running ∧ k.loadWait = none ∧ k.arithDue = some { cause := 0x12, addr := 0, path := .task }) ∧
    (let s := runner.setReg .FHINT_PEND 0 1
     (s.core 8).arithDue = none ∧ s.dueInt 8 = none ∨ (s.dueInt 8).isSome = true) ∧
    (fine (runner.fetchAll 8 1) = true ∧ (runner.core 8).longOp = none ∧ (runner.core 8).arithDue = none) ∧
    (let s := runner.setBit (pipeCtl 8).1 (pipeCtl 8).2 12 false
     s.bit (pipeCtl 8).1 (pipeCtl 8).2 12 = false ∧ fine (s.translate 8 (near.toNat) .fetch (s.level 8)) = true ∧
      fine (s.readMem (fetchPort 8) 0xC000000 2) = true) ∧
    (let s := (runner.setBit (pipeCtl 8).1 (pipeCtl 8).2 12 false).modCore 8 fun k => { k with pc := 0x20000000 }
     fine (s.fetchAll 8 1) = false) := by decide +kernel

theorem test_add : let t := out (.add 8 3 4) (cpu fun k => { k with regs := [(3, 0x7FFF), (4, 1)] })
    t.rg 8 3 = 0x8000 ∧ t.psw 8 = 0x00F8 ∧ (t.core 8).pc = 1 := by decide +kernel
theorem test_adc_keeps_z : let t := out (.adc 8 3 4) (cpu fun k => { k with regs := [(3, 0xFFFF)], psw := 0x0006 })
    t.rg 8 3 = 0 ∧ t.psw 8 = 0x00E6 := by decide +kernel
theorem test_sub_borrows : let t := out (.sub 8 3 4) (cpu fun k => { k with regs := [(3, 1), (4, 2)] })
    t.rg 8 3 = 0xFFFF ∧ t.psw 8 = 0x000A := by decide +kernel
theorem test_cmp_writes_no_register : let t := out (.cmp 8 3 4) (cpu fun k => { k with regs := [(3, 2), (4, 2)] })
    t.rg 8 3 = 2 ∧ t.psw 8 = 0x0004 := by decide +kernel
theorem test_g0_discards : (out (.movi 8 0 5) runner).rg 8 0 = 0 := by decide +kernel
theorem test_sar_past_width : let t := out (.sar 8 3 4) (cpu fun k => { k with regs := [(3, 0x8000), (4, 20)] })
    t.rg 8 3 = 0xFFFF ∧ wbit (t.psw 8) 1 = true := by decide +kernel
theorem test_addp_carries : let t := out (.addp 8 1 2) (cpu fun k => { k with regs := [(3, 0xFFFF), (5, 1)] })
    t.pr 8 1 = 0x10000 ∧ wbit (t.psw 8) 1 = false := by decide +kernel
theorem test_divide_by_zero : let s := out (.div 8 2 5) (cpu fun k => { k with regs := [(3, 0xFFFE)] })
    let t := out (.longOpComplete 8) s
    t.rg 8 3 = 0x8000 ∧ t.rg 8 2 = 0xFFFE ∧ wbit (t.psw 8) 8 = true ∧ (t.core 8).longOp = none := by decide +kernel
theorem test_divide_truncates : let t := out (.longOpComplete 8) (out (.div 8 2 5) (cpu fun k => { k with regs := [(3, 0xFFF9), (5, 2)] }))
    t.rg 8 3 = 0xFFFD ∧ t.rg 8 2 = 0xFFFF := by decide +kernel
theorem test_daj : let t := out (.daj 8 3) (out (.add 8 3 4) (cpu fun k => { k with regs := [(3, 0x0199), (4, 0x0002)] }))
    t.rg 8 3 = 0x0201 ∧ wbit (t.psw 8) 1 = false := by decide +kernel
theorem test_crc16 : (out (.crc16 8 3 4) (cpu fun k => { k with regs := [(3, 0xFFFF), (4, 0x3231)] })).rg 8 3 = 0x3DBA := by decide +kernel
theorem test_branch_taken : ((out (.brs 8 0 (-2)) (cpu fun k => { k with pc := 10, psw := 4 })).core 8).pc = 9 := by decide +kernel
theorem test_odd_register_is_illegal : let t := out (.ldp 8 3 1 false) (withNear runner (0x100 + 8) [0x8000, 0x40, 0, 0, 0, 0, 0, 0x2C28])
    (t.core 8).path = .sb1 ∨ (t.core 8).run = .locked := by decide +kernel

/-- HodLong, LongCompletion, HodDecimal: a long operation begun and completed, digits and no digits. -/
theorem test_HodLongDecimal_witness :
    (let s := out (.mul 8 3 4) runner
     ∃ o ∈ (s.core 8).longOp, o.path = (s.core 8).path ∧ (o.dests.map Prod.fst).Nodup) ∧
    (let s := cpu fun k => { k with regs := [(3, 0x9999), (4, 0x0001)] }
     bcdOk (s.rg 8 3) = true ∧ bcdOk (s.rg 8 4) = true ∧ (out (.dadd 8 3 4) s).rg 8 3 = 0) ∧
    (let s := cpu fun k => { k with regs := [(3, 0x000A)], psw := 0x0800 }
     bcdOk (s.rg 8 3) = false ∧ wbit (s.psw 8) 11 = true) ∧
    (let s := cpu fun k => { k with regs := [(3, 0x000A)] }
     bcdOk (s.rg 8 3) = false ∧ wbit (s.psw 8) 11 = false ∧ wbit ((out (.dadd 8 3 4) s).psw 8) 9 = true ∧
      (out (.dadd 8 3 4) s).rg 8 3 = 0x000A) := by decide +kernel

theorem test_DajAdjusts_witness : bcdOk 0x9999 = true ∧ bcdOk 0x0001 = true := by decide +kernel

/-- HodLoads, LoadReturns: a word of near memory at once, one of a field tile after a wait in MD. -/
theorem test_HodLoading_witness :
    (let s := withNear (cpu fun k => { k with regs := [(2, 0x0600), (3, 0x0010)] }) 0x10 [0x1234]
     let a := s.past 8 1
     fine (seqM (fun s v => s.xl 8 .load v) [s.pr 8 1] a) = true ∧ a.near 8 0xC000020 = true ∧
     fine (a.loadWords 8 [(s.pr 8 1, 0xC000020)] false) = true ∧ (out (.ld 8 4 1 true) s).rg 8 4 = 0x1234 ∧
     (out (.ld 8 4 1 true) s).pr 8 1 = 0x06000011) ∧
    (let s := cpu fun k => { k with regs := [(2, 0x0400)] }
     let t := out (.ld 8 4 1 false) s
     fine (seqM (fun s v => s.xl 8 .load v) [s.pr 8 1] (s.past 8 1)) = true ∧ s.near 8 0x8000000 = false ∧ s.forwards 8 [0x8000000] = false ∧
     (s.core 8).storeBuf = [] ∧ (t.core 8).pc = 0) ∧
    (let w : LoadWait := { words := [(some 4, (near + 1, (0xC000002, false)))], advance := [], pc := 7 }
     let s := withNear (cpu fun k => { k with loadWait := some w }) 1 [0xBEEF]
     fine ((s.setCore 8 { s.core 8 with loadWait := none }).readWords 8 [(near + 1, 0xC000002)] false) = true ∧ (s.core 8).haltReq = false ∧
     (out (.loadReturn 8) s).rg 8 4 = 0xBEEF ∧ ((out (.loadReturn 8) s).core 8).pc = 7) := by decide +kernel

/-- HodStores, StoreDrains: a buffered word, which drains to its two bytes. -/
theorem test_HodStoring_witness :
    (let s := cpu fun k => { k with regs := [(2, 0x0600), (3, 0x0010), (4, 0xABCD)] }
     fine (seqM (fun s v => s.storeCheck 8 .store v) [s.pr 8 1] (s.past 8 1)) = true ∧ (s.core 8).storeBuf.length < 8 ∧
     ((out (.st 8 4 1 false) s).core 8).storeBuf = [{ words := [(0xC000020, 0xABCD)] }]) ∧
    (let s := cpu fun k => { k with storeBuf := [{ words := [(0xC000020, 0xABCD)] }] }
     let s1 := s.setCore 8 { s.core 8 with storeBuf := [] }
     controlDie 0xC000020 = none ∧ (s1.path (dataPort 8) 0xC000020 true false).1 = .ok (.hfNear 0 0x20) ∧
     (out (.storeDrain 8) s).mem.hfNear = [(0x20, 0xCD), (0x21, 0xAB)]) ∧
    (let s := { State.reset with pw := { State.reset.pw with cReset := false } }
     (s.path (dataPort 0) 0x50000020 true false).1 = .ok (.hcNear 0 0x20)) := by decide +kernel

/-- HodMemory, HodCas. -/
theorem test_HodMemoryWork_witness :
    (let s := withNear (cpu fun k => { k with regs := [(2, 0x0600), (3, 0x0010), (4, 0x0600), (5, 0x0020)] }) 0x20 [0x0042]
     let a := s.past 8 1
     fine (a.load1 8 (s.pr 8 2)) = true ∧ got 9 (a.load1 8 (s.pr 8 2)) = 0x42 ∧ got (0, true) (a.storeCheck 8 .store (a.pr 8 1)) = (0xC000020, false) ∧
     got 9 (a.load1 8 (s.pr 8 1)) = 0 ∧ bcdOk 0x42 = true ∧ bcdOk 0xA = false ∧
     ((out (.movm 8 1 2) s).core 8).storeBuf = [{ words := [(0xC000020, 0x42)] }] ∧
     ((out (.daddm 8 1 2) s).core 8).storeBuf = [{ words := [(0xC000020, 0x42)] }] ∧
     wbit ((out (.daddm 8 1 2) (withNear s 0x20 [0x000A])).psw 8) 9 = true) ∧
    (let s := withNear (cpu fun k => { k with regs := [(2, 0x0600), (3, 0x0010), (4, 7), (5, 9)] }) 0x10 [9]
     let a := (s.past 8 2).drainAll 8
     fine (a.storeCheck 8 .store (s.pr 8 1)) = true ∧ got 0 (a.readWord1 8 (s.pr 8 1, 0xC000020)) = 9 ∧
     (out (.cas 8 4 5 1) s).rg 8 4 = 9 ∧ Tab.get 0 (out (.cas 8 4 5 1) s).mem.hfNear 0x20 = 7) := by decide +kernel

/-- The instruction of a state reaches IS and executes in that same state. -/
def issues (len : Nat) (u : Uses) (s : State) : Bool := decide (s.hodIssue 8 len u = (true, s))

/-- HodJumps: a call whose return address can be pushed. -/
theorem test_HodJumps_witness :
    let s := cpu fun k => { k with pc := 5, regs := [(5, 7)] }
    let t := out (.call 8 3) s
    fine ((s.past 8 2).shadowCheck 8 ((s.core 8).ssp - 2) 2) = true ∧ fine ((s.past 8 1).shadowCheck 8 ((s.core 8).ssp - 2) 2) = true ∧
    issues 2 { regs := pairRegs 15 } s = true ∧ issues 1 { regs := pairRegs 15 ++ pairRegs 2 } s = true ∧ (t.core 8).pc = 10 ∧ t.pr 8 15 = 7 ∧
    (t.core 8).ssp = near + 0x7FE ∧ Tab.get 0 t.mem.hfNear 0xFFC = 7 ∧ ((out (.callr 8 2) s).core 8).pc = 7 := by decide +kernel

/-- HodWindows: WOPEN into a free window, into the fence with AUTO 0 and with AUTO 1, and WCLOSE likewise. -/
theorem test_HodWindows_witness :
    (let s := cpu fun k => { k with cwp := 0, fence := 7 }
     (s.core 8).onBank = false ∧ issues 1 { pregs := (s.core 8).spillRegs 8 } s = true ∧ winUp 8 0 ≠ 7 ∧ ((out (.wopen 8) s).core 8).cwp = 1) ∧
    (let s := cpu fun k => { k with cwp := 6, fence := 7 }
     issues 1 { pregs := (s.core 8).spillRegs 8 } s = true ∧ winUp 8 6 = 7 ∧ (s.core 8).auto = false) ∧
    (let s := cpu fun k => { k with cwp := 6, fence := 7, auto := true, regs := [(16, 0x1234)] }
     let r := (s.past 8 1).checkAll 8 .store (wordsFrom ((s.core 8).wsp - 16) 16)
     issues 1 { pregs := (s.core 8).spillRegs 8 } s = true ∧ fine r = true ∧ (r.2.core 8).pc = (s.core 8).pc + 1 ∧
     (let t := out (.wopen 8) s
      (t.core 8).cwp = 7 ∧ (t.core 8).fence = 0 ∧ (t.core 8).wsp = near + 0x8F0 ∧ (t.core 8).pc = 1 ∧ Tab.get 0 t.mem.hfNear 0x11E0 = 0x34)) ∧
    (let s := cpu fun k => { k with cwp := 1, fence := 7 }
     issues 1 { pregs := (s.core 8).fillRegs 8 } s = true ∧ winDown 8 1 ≠ 7 ∧ ((out (.wclose 8) s).core 8).cwp = 0) ∧
    (let s := cpu fun k => { k with cwp := 0, fence := 7 }
     issues 1 { pregs := (s.core 8).fillRegs 8 } s = true ∧ winDown 8 0 = 7 ∧ (s.core 8).auto = false) ∧
    (let s := withNear (cpu fun k => { k with cwp := 0, fence := 7, auto := true }) 0x900 [0x1234]
     issues 1 { pregs := (s.core 8).fillRegs 8 } s = true ∧ fine ((s.past 8 1).readAll 8 .load (wordsFrom (s.core 8).wsp 16)) = true ∧
     (let t := out (.wclose 8) s
      (t.core 8).cwp = 7 ∧ (t.core 8).fence = 6 ∧ (t.core 8).wsp = near + 0x910 ∧ t.rg 8 16 = 0x1234)) := by decide +kernel

/-- A vector table of HF[0]: entry n of the runner's gate table. -/
def withEntry (n : Nat) (e : List Word) (s : State) : State :=
  { s with mem := { s.mem with hfNear := nearWords (0x100 + 8 * n) e } }

/-- A vector to near + 0x400 at level M. -/
def vector : List Word := [0x8000, 0x0400, 0x0600, 0, 0, 0, 0, 5893]
/-- A gate to near + 0x400. -/
def gate : List Word := [0x4000, 0x0400, 0x0600, 0, 0, 0, 0, 63605]
/-- One that sets the stack pointer to near + 0x800. -/
def gateSp : List Word := [0x6800, 0x0400, 0x0600, 0x0800, 0x0600, 0, 0, 32879]

/-- HodReturns and HodLeafReturns: the shadow word is the target, and is not. -/
theorem test_HodTransfers_witness :
    (let s := withNear (cpu fun k => { k with cwp := 1, fence := 7, regs := [(30, 0x0600), (31, 0x0123)] }) 0x800 [0x0123, 0x0600]
     let r := (s.past 8 1).shadowRead 8 (s.core 8).ssp 2
     got [] r = [0x0123, 0x0600] ∧ issues 1 { regs := pairRegs 7, pregs := (s.core 8).fillRegs 8 } s = true ∧ w32of 0x0600 0x0123 = s.pr 8 7 ∧
     winDown 8 (r.2.core 8).cwp ≠ (r.2.core 8).fence ∧ ((out (.ret 8) s).core 8).pc = 0x06000123 ∧ ((out (.ret 8) s).core 8).cwp = 0 ∧
     (let f := withNear s 0x800 [0x0124, 0x0600]
      w32of 0x0600 0x0124 ≠ s.pr 8 7 ∧ got [] ((f.past 8 1).shadowRead 8 (f.core 8).ssp 2) = [0x0124, 0x0600])) ∧
    (let s := withNear (cpu fun k => { k with cwp := 1, fence := 7, regs := [(46, 0x0600), (47, 0x0123)] }) 0x800 [0x0123, 0x0600]
     got [] ((s.past 8 1).shadowRead 8 (s.core 8).ssp 2) = [0x0123, 0x0600] ∧ issues 1 { regs := pairRegs 15 } s = true ∧
     w32of 0x0600 0x0123 = s.pr 8 15 ∧ ((out (.retl 8) s).core 8).pc = 0x06000123 ∧ ((out (.retl 8) s).core 8).ssp = near + 0x802) := by
  decide +kernel

/-- HodGate, HodGret: an entry that is no gate, a gate without and with a stack pointer; a gate frame, and another frame. -/
theorem test_HodGates_witness :
    (let s := withEntry 3 vector runner
     let r := (s.past 8 1).gateEntry 8 3
     issues 1 { flags := true } s = true ∧ (s.core 8).onBank = false ∧ r.1 = some vector ∧ ¬ (entryValid vector = true ∧ entryKind vector = 1)) ∧
    ([gate, gateSp].all fun e =>
      let s := withEntry 3 e runner
      let r := (s.past 8 1).gateEntry 8 3
      let a := r.2.gateArgs 8 e
      issues 1 { flags := true } s && (r.1 = some e && (entryValid e && (entryKind e = 1 &&
        (decide (r.2.level 8 ≤ entryMin e ∧ winUp 8 (r.2.core 8).cwp ≠ (r.2.core 8).fence ∧ a.1 = none) &&
        (fine (a.2.shadowCheck 8 ((a.2.core 8).ssp - 8) 8) && decide (((out (.gate 8 3) s).core 8).pc = near + 0x400))))))) = true ∧
    (out (.gate 8 3) (withEntry 3 gateSp runner)).rg 8 7 = 0x0800 ∧
    (let s := withNear (cpu fun k => { k with cwp := 1 }) 0x800 [0x0123, 0x0600, 0x0055, 0x0066, 0x8000, 3, 0x6A7E, 0]
     let r := (s.past 8 1).shadowRead 8 (s.core 8).ssp 8
     issues 1 { pregs := [6, 7] ++ (s.core 8).fillRegs 8 } s = true ∧ (got [] r).getD 6 0 = 0x6A7E ∧ r.2.level 8 ≤ wfld ((got [] r).getD 4 0) 15 14 ∧
     wfld ((got [] r).getD 4 0) 15 14 ≠ 3 ∧ winDown 8 (r.2.core 8).cwp ≠ (r.2.core 8).fence ∧
     (let t := out (.gret 8) s
      (t.core 8).pc = 0x06000123 ∧ t.rg 8 7 = 0x0055 ∧ t.rg 8 6 = 0x0066 ∧ t.level 8 = 2)) ∧
    (let s := withNear runner 0x800 [0, 0, 0, 0, 0, 0, 0x6A7F]
     (got [] ((s.past 8 1).shadowRead 8 (s.core 8).ssp 8)).getD 6 0 ≠ 0x6A7E ∧ issues 1 { pregs := [6, 7] ++ (s.core 8).fillRegs 8 } s = true) := by
  decide +kernel

/-- TrapEntry, HodRfi: an exception through a valid vector and through none; a return from SB1, from SB2, on the task path, at level U,
and to level M from level S. -/
theorem test_TrapsAndReturn_witness :
    (let s := withEntry 1 vector (cpu fun k => { k with pc := 9 })
     let s1 := (s.lbuf 8 false).setCore 8 { s.core 8 with loopAt := none, pc := 9 }
     (s.core 8).longOp = none ∧ (s.core 8).arithDue = none ∧ (s.core 8).sb1Busy = false ∧ (s1.gateEntry 8 1).1 = some vector ∧
     entryValid vector = true ∧ entryKind vector = 2 ∧
     (let t := s.takeTrap 8 9 { cause := 1 }
      (t.core 8).path = .sb1 ∧ (t.core 8).pc = near + 0x400 ∧ (t.core 8).x1 = { xpc := 9, xinfo := 0x2001 })) ∧
    ((runner.lbuf 8 false).gateEntry 8 1).1 = some [0, 0, 0, 0, 0, 0, 0, 0] ∧ ¬ entryKind [0, 0, 0, 0, 0, 0, 0, 0] = 2 ∧
    ((runner.takeTrap 8 0 { cause := 1 }).core 8).run = .locked ∧
    (let x : XRegs := { xpc := 77, xpsw := 0x4002, xinfo := 0x2000 }
     let on (p : Path) (psw : Word) : State := cpu fun k => { k with path := p, psw, x1 := x, x2 := x, sb1Busy := true, sb2Busy := true }
     issues 1 { all := false } (on .sb1 0) = true ∧ (on .sb1 0).level 8 ≠ 2 ∧ ((out (.rfi 8) (on .sb1 0)).core 8).pc = 77 ∧
     ((out (.rfi 8) (on .sb1 0)).core 8).path = .task ∧ issues 1 { all := false } (on .sb2 0) = true ∧
     ((out (.rfi 8) (on .sb2 0)).core 8).sb2Busy = false ∧ issues 1 { all := false } (on .task 0) = true ∧
     issues 1 { all := false } (on .sb1 0x8000) = true ∧ (on .sb1 0x8000).level 8 = 2 ∧
     (let s := cpu fun k => { k with path := .sb1, psw := 0x4000, sb1Busy := true }
      issues 1 { all := false } s = true ∧ s.level 8 = 1 ∧ wfld (s.core 8).x1.xpsw 15 14 = 0)) := by decide +kernel

/-- InterruptEntry, InterruptChoice, ArithmeticEntry: interrupt 0 at level 1 and at level 2, and a pending arithmetic exception. -/
theorem test_Interrupts_witness :
    ([1, 2].all fun l =>
      let s := withEntry 0x20 vector ((runner.setReg .FHINT_PEND 0 1).setReg .FHINT_LVL_LO 0 (BitVec.ofNat 16 l))
      let r := ((s.lbuf 8 false).setCore 8 { s.core 8 with loopAt := none }).gateEntry 8 0x20
      s.dueInt 8 = some (0, l) && (r.1 = some vector &&
        decide ((s.core 8).run = .running ∧ (s.core 8).loadWait = none ∧ (s.core 8).arithDue = none ∧
          ((out (.interruptEntry 8) s).core 8).pc = near + 0x400))) = true ∧
    (let a : ArithPend := { cause := 0x12, addr := 3, path := .task }
     let s := withEntry 0x12 vector (cpu fun k => { k with arith := [a] })
     (s.core 8).arithDue = some a ∧
     (((s.lbuf 8 false).setCore 8 { s.core 8 with loopAt := none, arith := (s.core 8).arith.erase a }).gateEntry 8 0x12).1 = some vector ∧
     ((out (.arithmeticException 8) s).core 8).x1.xaddr = 3) := by decide +kernel

/-- HodMfs, HodMts: an arithmetic word at each level, a trap of each kind. -/
theorem test_HodSpecials_witness :
    (let at' (l : Nat) : State := cpu fun k => { k with psw := BitVec.ofNat 16 (l * 0x4000), regs := [(3, 9)] }
     ([0, 1, 2].all fun l => issues 1 { regs := [3], flags := true } (at' l) && (issues 1 { regs := [3] } (at' l) && (issues 1 { regs := pairRegs 1 } (at' l) &&
       decide ((at' l).level 8 = l)))) = true ∧
     ((out (.mts 8 1 3) (at' 1)).core 8).cwp = 0) ∧
    (let t := out (.mts 8 0 3) (cpu fun k => { k with psw := 0x4000, regs := [(3, 0x8003)] })
     t.psw 8 = 0x4002) ∧
    (let t := out (.mts 8 1 3) (cpu fun k => { k with regs := [(3, 5)], dirty := 0 })
     (t.core 8).cwp = 5 ∧ (t.core 8).dirty = 0x4000) ∧
    (out (.mfs 8 3 6) runner).rg 8 3 = 0x8000 ∧ (out (.mfs 8 2 8) runner).pr 8 1 = near + 0x800 ∧
    ((BitVec.ofNat 5 16).toNat ≥ 16 ∧ specWide 8 = true ∧ (3 : Reg).getLsbD 0 = true) := by decide +kernel

/-- HodCtxs, HodCtxsUpper, HodCtxl: a dirty lower half, dirty and clean windows, a load at level S and at level M. -/
theorem test_HodContexts_witness :
    (let s := cpu fun k => { k with regs := [(1, 0x1111)], dirty := 0x8000 }
     let l := offsets (s.core 8).ctxp ([2, 3] ++ List.range' 4 7)
     issues 1 { flags := true } s = true ∧ s.level 8 ≤ 1 ∧ fine ((s.past 8 1).checkAll 8 .store l) = true ∧
     (let t := out (.ctxs 8 0 false) s
      (t.core 8).dirty = 0 ∧ Tab.get 0 t.mem.hfNear 0x1408 = 0x11 ∧ Tab.get 0 t.mem.hfNear 0x1405 = 0x80)) ∧
    (let s := withNear (cpu fun k => { k with regs := [(16, 0x2222)], dirty := 0x0001 }) 0xA00 [0x0B00, 0x0600]
     let r := (s.past 8 1).linkWord 8
     issues 1 { pregs := (upto (nwin 8)).flatMap windowRegs } s = true ∧ got 0 r = near + 0xB00 ∧
     fine (r.2.checkAll 8 .store (offsets (near + 0xB00) (List.range' 0 16))) = true ∧
     fine (r.2.checkAll 8 .store ([near + 0xA02] ++ offsets (near + 0xB00) (List.range' 0 16))) = true) ∧
    (let s := withNear (cpu fun k => { k with regs := [(4, 0x0600), (5, 0x0A00)], psw := 0x4000 }) 0xA04 [0x1111, 0, 0, 0, 0, 0, 0, 0x8002, 3, 0x8005]
     let r := (s.past 8 1).readAll 8 .load (offsets (s.pr 8 2 + 4) (upto 20))
     issues 1 { flags := true, regs := pairRegs 2 } s = true ∧ s.level 8 = 1 ∧ fine r = true ∧ r.2.level 8 = 1 ∧ wfld ((got [] r).getD 7 0) 15 14 = 2 ∧
     (r.2.core 8).onBank = false ∧ wfld ((got [] r).getD 8 0) 3 0 < nwin 8 ∧ wfld ((got [] r).getD 9 0) 3 0 < nwin 8 ∧
     (let t := out (.ctxl 8 2 false) s
      t.rg 8 1 = 0x1111 ∧ t.psw 8 = 0x8002 ∧ (t.core 8).cwp = 3 ∧ (t.core 8).auto = true ∧ (t.core 8).fence = 5 ∧ (t.core 8).ctxp = near + 0xA00)) ∧
    (let s := withNear (cpu fun k => { k with regs := [(4, 0x0600), (5, 0x0A00)], psw := 0x4000 }) 0xA04 [0x1111]
     let r := (s.past 8 1).readAll 8 .load (offsets (s.pr 8 2 + 4) (upto 20))
     issues 1 { flags := true, regs := pairRegs 2 } s = true ∧ s.level 8 = 1 ∧ fine r = true ∧ wfld ((got [] r).getD 7 0) 15 14 = 0) ∧
    (let s := withNear runner 0xA00 [0x0B00, 0x0600]
     let r := (s.past 8 1).linkWord 8
     fine (r.2.readAll 8 .load (offsets (near + 0xB00) (upto (16 * nwin 8)))) = true ∧ issues 1 { pregs := (upto (nwin 8)).flatMap windowRegs } s = true) := by
  decide +kernel

/-- HodTlbi: a request goes out, is received, is acknowledged, and a core waits for it. -/
theorem test_HodTlbi_witness :
    (let q (r a : List Receiver) : TlbiReq := { issuer := 8, scope := 3, va := 0, asid := 0, toReceive := r, toAck := a }
     let s := { runner with tlbis := [q [.core 9] []] }
     let w := { cpu (fun k => { k with run := .waitTlb, pc := 6 }) with tlbis := [q [] [.core 9]] }
     issues 2 { regs := pairRegs 1 } runner = true ∧ runner.level 8 ≤ 1 ∧ (out (.tlbi 8 1 3) runner).tlbis = [q ((runner.receivers 8)) []] ∧
     Receiver.core 9 ∈ runner.receivers 8 ∧ issues 1 {} s = true ∧ ((out (.tlbsync 8) s).core 8).run = .waitTlb ∧
     ((out (.tlbsync 8) runner).core 8).pc = 1 ∧
     (out (.tlbiReceive (.core 9)) s).tlbis = [q [] [.core 9]] ∧ (s.core 9).loadWait = none ∧ (s.core 9).storeBuf = [] ∧
     (out (.tlbiAck (.core 9)) w).tlbis = [] ∧ ((out (.tlbiAck (.core 9)) w).core 8).pc = 7 ∧
     (let v := { runner with tlbis := [q [.stream] []] }
      (out (.tlbiReceive .stream) v).tlbis = [q [] [.stream]])) := by decide +kernel

/-- A leaf is removed, and the other one stays (R324). -/
theorem test_tlbi_removes :
    let l (a : Nat) (f : Word) : Leaf := { vbase := a, size := 0x100, pbase := 0, flags := f, asid := 2, loc := 0, raw := 0 }
    (((runner.setCore 8 { runner.core 8 with tlb := [l 0 0, l 0x100 0, l 0x200 0x80] }).tlbiCore 8 1 0 2).core 8).tlb = [l 0x200 0x80] := by
  decide +kernel

/-- HodRep: two elements, a break after the first, and the resumed rest. -/
theorem test_HodRep_witness :
    (let s := withNear (cpu fun k => { k with regs := [(1, 2), (2, 0x0600), (3, 0x20), (4, 0xABCD)] }) 0x100 []
     let i : RepInstr := .st 4 1
     let u0 := s.past 8 2
     let u1 := (u0.repElem 8 i).2
     let u2 := (u1.repElem 8 i).2
     issues 2 { regs := 1 :: repRegs i, flags := true } s = true ∧ repAllowed i = true ∧ s.rg 8 1 = 2 ∧ wbit (s.psw 8) 12 = false ∧
     (u0.repElem 8 i).1 = none ∧ (u1.repElem 8 i).1 = none ∧ ([u1, u2].all fun u => (u.core 8).run = .running && ((u.core 8).pc = 2 && u.dueInt 8 = none)) = true ∧
     answers (.rep 8 1 i none) s u2 = true ∧ u2.pr 8 1 = 0x06000022 ∧
     (let t := out (.rep 8 1 i (some 1)) s
      (t.core 8).repLeft = 1 ∧ wbit (t.psw 8) 12 = true ∧ (t.core 8).pc = 0 ∧ t.pr 8 1 = 0x06000021 ∧
      issues 2 { regs := 1 :: repRegs i, flags := true } t = true ∧ (out (.rep 8 1 i none) t).pr 8 1 = 0x06000022)) ∧
    repAllowed .other = false := by decide +kernel

/-- HodMulti: two registers stored, a break between them, two loaded. -/
theorem test_HodMulti_witness :
    (let s := cpu fun k => { k with regs := [(2, 0x0600), (3, 0x20), (4, 0xABCD), (5, 0x1234)] }
     let b (t : State) : List StoreEntry := (t.core 8).storeBuf
     issues 2 { regs := pairRegs 1 ++ (multiBits 0x30 0).map (multiReg false) } s = true ∧ multiBits 0x30 0 = [4, 5] ∧
     multiAddr (s.pr 8 1) 0x30 5 = 0x06000021 ∧
     got (0, true) ((s.past 8 2).storeCheck 8 .store 0x06000020) = (0xC000040, false) ∧
     got (0, true) (((s.past 8 2).buffered 8 [(0xC000040, 0xABCD)]).storeCheck 8 .store 0x06000021) = (0xC000042, false) ∧
     b (out (.stm 8 1 false true 0x30 none) s) = [{ words := [(0xC000040, 0xABCD)] }, { words := [(0xC000042, 0x1234)] }] ∧
     (out (.stm 8 1 false true 0x30 none) s).pr 8 1 = 0x06000022 ∧
     (let t := out (.stm 8 1 false true 0x30 (some 1)) s
      b t = [{ words := [(0xC000040, 0xABCD)] }] ∧ (t.core 8).multiProg = 0x8005 ∧ (t.core 8).pc = 0)) ∧
    (let s := withNear (cpu fun k => { k with regs := [(2, 0x0600), (3, 0x20)] }) 0x20 [0xABCD, 0x1234]
     (∀ i ∈ multiBits 0x30 0, multiReg false i ∉ pairRegs 1) ∧ fine ((s.past 8 2).load1 8 0x06000020) = true ∧
     fine (((s.past 8 2).wr 8 4 0xABCD).load1 8 0x06000021) = true ∧
     (let t := out (.ldm 8 1 false false 0x30 none) s
      t.rg 8 4 = 0xABCD ∧ t.rg 8 5 = 0x1234 ∧ t.pr 8 1 = 0x06000020) ∧
     ((out (.ldm 8 1 false false 0x30 (some 1)) s).core 8).multiProg = 0x8005) := by decide +kernel

/-- HodBarriers, HodIllegal: an empty and a filled store buffer, level U, a reserved word and an odd register. -/
theorem test_HodBarriers_witness :
    issues 1 { all := true } runner = true ∧ (runner.core 8).storeBuf = [] ∧ runner.level 8 ≤ 1 ∧
    (let s := cpu fun k => { k with psw := 0x8000 }
     issues 1 {} s = true ∧ issues 2 { regs := pairRegs 1 } s = true ∧ s.level 8 = 2) ∧
    wfld (0xFC00 : Word) 15 10 = 0x3F ∧ (3 : Reg).getLsbD 0 = true ∧
    (let s := cpu fun k => { k with path := .sb1, sb1Busy := true }
     issues 1 { pregs := (s.core 8).spillRegs 8 } s = true ∧ issues 1 { pregs := (s.core 8).fillRegs 8 } s = true ∧
     issues 1 { regs := pairRegs 7, pregs := (s.core 8).fillRegs 8 } s = true ∧ issues 1 { flags := true } s = true ∧
     issues 1 { pregs := [6, 7] ++ (s.core 8).fillRegs 8 } s = true) := by decide +kernel

/-- The C-die runs and its link is UP; C tile 0 is on. -/
def up (s : State) : State :=
  { s with
    regs := Tab.set 0 (RegKind.SYS_STAT.addr 0) 0x4000 (Tab.set 0 (RegKind.ML_STAT.addr 0) 0x6000 (Tab.set 0 (RegKind.TILE_PWR.addr 0) 0 s.regs))
    pw := { s.pw with cReset := false } }

/-- HodVx: compute-ready cleared, a privileged queue, an unaligned descriptor, one outside the C tiles, an accepted and a refused brick, a
ticket of another epoch and one of a brick that has not ended. -/
theorem test_HodVx_witness :
    (let on (s : State) : State := s.setReg .VX_QCFG 2 0xC000
     let s := cpu fun k => { k with regs := [(2, 0x0600), (3, 0x20)] }
     let d := on (up (cpu fun k => { k with regs := [(2, 0x2000), (3, 0x20)] }))
     let u : Uses := { regs := 1 :: pairRegs 1 }
     issues 2 u s = true ∧ s.bit .SYS_STAT 0 14 = false ∧ (out (.vx 8 1 1 2) s).rg 8 1 = 0xFFFF ∧ (up s).bit .SYS_STAT 0 14 = true ∧
     issues 2 u (up s) = true ∧
     (let x := (up s).setCore 8 { s.core 8 with psw := 0x8000 }
      issues 2 u x = true ∧ x.level 8 = 2 ∧ wfld (x.reg .VX_QCFG 2) 14 13 = 1) ∧
     ((up s).pr 8 1).toNat % 32 = 0 ∧ got (0, true) (((up s).past 8 2).xl 8 .load 0x06000020) = (0xC000040, false) ∧
     issues 2 u d = true ∧ got (0, true) ((d.past 8 2).xl 8 .load 0x20000020) = (0x40000040, true) ∧
     fine ((d.past 8 2).readMem (dataPort 8) 0x40000040 64) = true ∧ d.bit .VX_QCFG 2 15 = true ∧ (d.queues[2]).entries.length < 64 ∧
     (let t := out (.vx 8 1 1 2) d
      t.rg 8 1 = 0x2000 ∧ (t.queues[2]).entries.length = 1 ∧ (t.queues[2]).nextSeq = 1) ∧
     (let x := d.setReg .VX_QCFG 2 0
      issues 2 u x = true ∧ (out (.vx 8 1 1 2) x).rg 8 1 = 0xFFFF ∧ wbit ((out (.vx 8 1 1 2) x).psw 8) 10 = true)) := by decide +kernel

/-- HodVwait. -/
theorem test_HodVwait_witness :
    (let s := up (cpu fun k => { k with regs := [(2, 0x2000)] })
     let b : Brick := { desc := [], seq := 0, ticket := 0x2000, joint := false, lvl := 0, arrival := 0 }
     let q := { s with queues := s.queues.set 2 { entries := [b] } }
     let w (s : State) : State := s.setCore 8 { s.core 8 with run := .waitBrick 1 0x2000 }
     issues 1 { regs := [1, 2] } s = true ∧ waitRule s 0x2000 = some 0x80FE ∧ (out (.vwait 8 1 2) s).rg 8 1 = 0x80FE ∧
     issues 1 { regs := [1, 2] } q = true ∧ waitRule q 0x2000 = none ∧ ((out (.vwait 8 1 2) q).core 8).run = .waitBrick 1 0x2000 ∧
     waitRule (w s) 0x2000 = some 0x80FE ∧ (out (.vwaitWake 8) (w s)).rg 8 1 = 0x80FE ∧ waitRule (w q) 0x2000 = none ∧
     waitRule runner 0x2000 = some 0x00FF) := by decide +kernel

/-! ### Start-up, power and boot -/

/-- Released: nothing is being reset, the F-die runs. -/
def live : State := (({ State.reset with lay := { State.reset.lay with params := setParam [] 7 3 } }.power fun p =>
  { p with resetting := none, good := true }).setReg .SYS_STAT 0 0x8004).setReg .BIMG_STATUS 0 0x1000

/-- And the C-die's rails are up and it has reached compute-ready. -/
def cLive : State := (((live.setReg .SYS_RAIL 0 0xCFF0).setReg .SYS_STAT 0 0xC00A).setReg .ML_STAT 0 0x6000).power fun p =>
  { p with cReset := false, cClock := true, computeSeen := true }

/-- Resets: each kind on a running device, and while a power-on reset has not reached its restart point. -/
theorem test_Resets_witness : ([
    cLive.bit .SYS_STAT 0 12 = false, cLive.pw.good, cLive.pw.parked = false, cLive.pw.resetting = none, cLive.bit .SYS_RAIL 0 14,
    answers .powerGood live live, answers .powerGood State.reset ((State.reset.power fun p => { p with good := true }).setFld .SYS_STAT 0 3 0 2),
    answers .brownOut cLive (((cLive.power fun p => { p with good := false }).recorded' 12).restarted .warm false),
    answers .rstNAssert cLive ((cLive.recorded' 14).restarted .warm true), answers .sysRstCmdWarm cLive ((cLive.recorded' 13).restarted .warm true),
    answers .sysRstCmdField cLive ((cLive.recorded' 11).restarted .field true), answers .sysRstCmdCDie cLive (cLive.recorded' 10).cRestarted,
    answers .rstNAssert State.reset (State.reset.recorded' 14), answers .sysRstCmdCDie State.reset (State.reset.recorded' 10),
    answers (.powerOnReset true) cLive (({ State.reset with gptpLast := 0 }).setBit .SYS_CLK 0 15 true)
    ] : List Bool).all id = true := by decide +kernel

/-- CoreResets: released, held and reset cores; a watchdog of one millisecond with each of its effects. -/
theorem test_CoreResets_witness :
    let w (cfg : Word) (c : CoreId) : State := ({ cLive with ticks := 800000 }.setReg .SYS_WDT_CFG c.val cfg).setCore c { State.reset.core 8 with run := .running }
    ([cLive.pw.resetting = none, cLive.pw.cReset = false,
      answers (.coreResetRequest 0x0100) cLive (cLive.coreReset 8), answers (.coreResetRequest 0x0001) live live,
      ((cLive.setReg .SYS_CRUN 0 0x0100).core 8).run = .held, ((out (.sysCrunWrite 0x0101) (cLive.setReg .SYS_CRUN 0 0)).core 8).run = .running,
      ((out (.sysCrunWrite 0x0101) (cLive.setReg .SYS_CRUN 0 0)).core 0).run = .running, ((out (.sysCrunWrite 0x0101) (live.setReg .SYS_CRUN 0 0)).core 0).run = .held,
      ((out (.sysCrunWrite 0) (out (.sysCrunWrite 0x0100) (cLive.setReg .SYS_CRUN 0 0))).core 8).run = .held,
      answers (.watchdogExpiry 8) cLive cLive,
      answers (.watchdogExpiry 8) (w 0x0001 8) (((w 0x0001 8).recorded' 9).setFld .SYS_RST_CAUSE 0 7 4 8 |>.coreReset 8),
      answers (.watchdogExpiry 1) (w 0x4001 1) (((w 0x4001 1).recorded' 9).setFld .SYS_RST_CAUSE 0 7 4 1).cRestarted,
      answers (.watchdogExpiry 8) (w 0x4001 8) ((((w 0x4001 8).recorded' 9).setFld .SYS_RST_CAUSE 0 7 4 8).restarted .field true),
      answers (.watchdogExpiry 8) (w 0xC001 8) ((((w 0xC001 8).recorded' 9).setFld .SYS_RST_CAUSE 0 7 4 8).restarted .warm true),
      answers (.watchdogExpiry 8) (w 0x0002 8) (w 0x0002 8), answers (.watchdogKick 8 0x5AA5) (w 1 8) { w 1 8 with wdtFrom := [(8, 800000)] },
      answers (.watchdogKick 8 0x5AA4) (w 1 8) (w 1 8)] : List Bool).all id = true := by decide +kernel

/-- CDieLoss: an HF core that waited for a C-die receiver goes on, one that waits for another HF core does not. -/
theorem test_CDieLoss_witness :
    let q (r : Receiver) : TlbiReq := { issuer := 8, scope := 3, va := 0, asid := 0, toReceive := [], toAck := [r] }
    let s (r : Receiver) : State := { cLive.setCore 8 { State.reset.core 8 with run := .waitTlb, pc := 6 } with tlbis := [q r] }
    ([((s (.core 0)).cLost.core 8).run = .running, ((s (.core 0)).cLost.core 8).pc = 7, ((s (.core 9)).cLost.core 8).run = .waitTlb,
      (s (.core 9)).cLost.tlbis = [q (.core 9)], cLive.pw.computeSeen, (cLive.endCompute 6).bit .SYS_STAT 0 13,
      live.pw.computeSeen = false] : List Bool).all id = true := by decide +kernel

/-- Rails: raising step by step, a timeout, removal. -/
theorem test_Rails_witness :
    let r (v : Word) (q : RailSeq) : State := (live.setReg .SYS_RAIL 0 v).power fun p => { p with seq := q }
    let temps : List (Option Word) := List.replicate 24 (some 25)
    ([live.cWanted, live.pw.seq = .idle, live.railsRaised = 0, (r 0xA010 .raising).railsRaised = 1,
      (r 0xA7F0 .raising).railsRaised = 4, (r 0xA7F0 .raising).cWanted, answers (.railRequest 0x8000) live (r 0xA010 .raising |>.setFld .SYS_STAT 0 3 0 5),
      answers (.cpgRise 0 temps) (r 0xA010 .raising) (r 0xA130 .raising), answers (.cpgRise 3 temps) live (live.setReg .SYS_RAIL 0 0x8800),
      (out (.cpgRise 3 temps) (r 0xA7F0 .raising)).reg .SYS_RAIL 0 = 0xCFF0, (out (.cpgRise 3 temps) (r 0xA7F0 .raising)).fld .SYS_STAT 0 3 0 = 6,
      answers (.cpgFall 3) (r 0x2F70 .removing) (r 0x2730 .removing), (r 0x2FF0 .removing).railsRaised = 4,
      answers .railOffStep (r 0x2110 .removing) ((r 0x0100 .idle)),
      (out .railFaultTimeout (r 0xA010 .raising)).bit .SYS_STAT 0 11, answers (.railRequest 0) live (live.setReg .SYS_RAIL 0 0),
      (out (.railRequest 0) cLive).pw.seq = .removing, (out (.railRequest 0) cLive).fld .SYS_STAT 0 6 4 = 2,
      ((live.setFld .SYS_STAT 0 3 0 6).power fun p => { p with cReset := false }).pw.cClock = false] : List Bool).all id = true := by decide +kernel

/-- Trips: a sensor that has not tripped, with the C-die up and down; one that has. -/
theorem test_Trips_witness :
    ([Tab.get false cLive.tripped 1 = false, cLive.bit .SYS_RAIL 0 14, cLive.railsRaised = 4, live.railsRaised = 0, cLive.pw.seq = .idle,
      (out (.thermalTrip 0 1) cLive).reg .FKILN_STAT 0 = 0xC001, (out (.thermalTrip 0 1) cLive).pw.coolWait, (out (.thermalTrip 5 1) live).reg .FKILN_STAT 0 = 1,
      answers (.thermalTrip 0 1) (out (.thermalTrip 0 1) cLive) (out (.thermalTrip 0 1) cLive), (out (.tripRearm 0 1) (out (.thermalTrip 0 1) cLive)).tripped = [],
      (out .coolWaitExpiry (out (.thermalTrip 0 1) cLive)).reg .FKILN_STAT 0 = 0x8001] : List Bool).all id = true := by decide +kernel

/-- ClocksAndParking: a clock failure, a second with and without an alarm, parking, a wake pin before, during and after it. -/
theorem test_ClocksAndParking_witness :
    let p := out (.park 0x9A6E) (live.setReg .SYS_WAKE_CFG 0 0x0101)
    let q := out .parkComplete p
    ([(out .clockFailure cLive).bit .SYS_STAT 0 12, (live.setReg .RTC_CTL 0 0x4000).bit .RTC_CTL 0 14,
      (out .rtcSecond (live.setReg .RTC_CTL 0 0x4000)).reg .RTC_SEC_LO 0 = 1, (out .rtcSecond ((live.setReg .RTC_CTL 0 0x4000).setReg .RTC_SEC_LO 0 0xFFFF)).reg .RTC_SEC_HI 0 = 1,
      p.pw.parking, p.pw.wakeLatched = none, answers (.park 0) live live, q.pw.parked, q.bit .SYS_STAT 0 12 = false, (out (.wakePin 0 true) q).fld .SYS_WAKE_SRC 0 7 0 = 1,
      (out (.wakePin 0 true) p).pw.wakeLatched = some 0, answers (.wakePin 0 true) (live.setReg .SYS_WAKE_CFG 0 0x0101) (live.setReg .SYS_WAKE_CFG 0 0x0101),
      (live.setReg .SYS_WAKE_CFG 0 0x0101).bit .SYS_WAKE_CFG 0 8, (live.setReg .SYS_WAKE_CFG 0 0x0101).bit .SYS_WAKE_CFG 0 0] : List Bool).all id = true := by decide +kernel

/-- Boot: the sequence starts, a slot is refused, network blocks arrive, the rollback count and the mirror advance. -/
theorem test_Boot_witness :
    let s := (State.reset.power fun p => { p with good := true })
    let a := out .bootRomStart s
    let b := out (.imageCheck .slotA) a
    let c := out (.imageCheck .slotB) b
    let n (st : Word) : State := { live.setReg .ML_STAT 0 st with lay := { live.lay with order := [.net] } }
    let g := out (.netbootBlock 1024 (List.replicate 1024 7)) (n 0x6000)
    let f : State := { (live.setReg .BIMG_STATUS 0 0x0400).setReg .BIMG_RB 0 0x0200 with lay := { live.lay with params := live.lay.params } }
    let m : State := { live.setReg .BIMG_STATUS 0 0x0800 with lay := { live.lay with mirrorDue := true } }
    ([s.pw.good, s.pw.resetting ≠ none, a.lay.order = [.slotA, .slotB], a.lay.order.head? = some .slotA, (match s.checkImage .slotA with | .error e => decide (e.code = 1) | .ok _ => false),
      b.reg .BIMG_ERR_A 0 = 0x1001 ∨ b.reg .BIMG_ERR_A 0 = 1, b.lay.order = [.slotB], c.lay.order = [], c.bit .BIMG_STATUS 0 8, c.pw.netRaised = false,
      answers (.imageCheck .slotB) a a, (out .imageRetry c).lay.order = [.slotA, .slotB],
      (n 0x6000).linkUp, (n 0).linkUp = false, (n 0).railsRaised = 0, ((out .netbootRequest (n 0x6000)).net.sent.map fun e => e.2.take 6) = [[0x03, 0x44, 0x48, 0, 0, 0xB1]],
      (out .netbootRequest (n 0)).pw.netRaised, g.lay.netGot = [1],
      answers (.netbootBlock 0 [1]) (n 0x6000) (n 0x6000), (n 0).lay.order = [.net], (out .netbootTimeout (n 0)).reg .BIMG_ERR_N 0 = 14,
      answers (.rollbackAdvance 0) f f, f.ks.count < f.fld .BIMG_RB 0 14 8, f.lay.fuseTarget = none,
      (out .fuseBlowDone { f with lay := { f.lay with fuseTarget := some 2 } }).lay.fuseTarget = some 2,
      answers .repairMirrorWrite live live, m.fld .BIMG_STATUS 0 11 10 = 2, (out .repairMirrorWrite m).lay.mirrorDue = false] : List Bool).all id = true := by decide +kernel

/-- Phases: after the F-die's test, with the image accepted, and in the two steps of the C-die. -/
theorem test_Phases_witness :
    let f := (live.setFld .SYS_STAT 0 3 0 3).setFld .BIMG_STATUS 0 3 0 3
    let c := (cLive.setFld .SYS_STAT 0 3 0 8).setBit .BIMG_STATUS 0 12 true
    let d := out (.cDieBist []) c
    ([f.fld .SYS_STAT 0 3 0 = 3, f.fld .BIMG_STATUS 0 3 0 = 3, (out (.fDieBist [⟨5, 0⟩]) f).pw.bootCoreBad, (out .fDiePhase f).bit .SYS_STAT 0 15,
      (out .fDiePhase f).lay.sealedF, c.linkUp, c.fld .SYS_STAT 0 3 0 = 8, d.fld .SYS_STAT 0 3 0 = 9, d.pw.cBist, d.linkUp, d.fld .BIMG_STATUS 0 3 0 = 5] : List Bool).all id = true := by decide +kernel

/-- Relaying: GO with and without the bit, during a relay; an unaligned capsule, and one whose first bytes are no section. -/
theorem test_Relaying_witness :
    let g := out (.relayGo 1) live
    ([answers (.relayGo 0) live live, live.bit .BIMG_RELAY_STAT 0 15 = false, g.bit .BIMG_RELAY_STAT 0 15, g.fld .BIMG_STATUS 0 3 0 ≠ 5,
      (out (.relayGo 1) g).bit .BIMG_RELAY_STAT 0 13, (out .relayApply (g.setReg .BIMG_RELAY_ADDR_LO 0 4)).reg .BIMG_RELAY_STAT 0 = 0x4021,
      wfld ((out .relayApply (g.setReg .BIMG_RELAY_ADDR_HI 0 0x4000)).reg .BIMG_RELAY_STAT 0) 15 14 = 1] : List Bool).all id = true := by decide +kernel

/-- RegisterAccesses: a _LO read that captures, the _HI read that follows, a clear-on-read counter with and without its event. -/
theorem test_RegisterAccesses_witness :
    let m : Master := ⟨.f, 12⟩
    let at' (k : RegKind) (i : Nat) : PAddr := BitVec.ofNat _ (k.addr i)
    let ok (k : RegKind) (i : Nat) (w : Bool) (s : State) : Bool :=
      (m.wf && decide (controlDie (at' k i).toNat ≠ none) && fine (s.path m (at' k i).toNat w false) && decide (regAt (at' k i).toNat = some (k, i)))
    let a := out (.splitLoRead m (at' .SYS_RVEC_C_LO 0)) cLive
    ([ok .SYS_RVEC_C_LO 0 false cLive, ok .SYS_RVEC_C_HI 0 false cLive, RegKind.SYS_RVEC_C_LO.pair = some (false, RegKind.SYS_RVEC_C_HI.base) || RegKind.SYS_RVEC_C_LO.pair.isSome,
      a.resp.data = 0, Tab.get none a.captures (RegKind.SYS_RVEC_C_HI.addr 0) = some 0x2000, (out (.splitHiRead m (at' .SYS_RVEC_C_HI 0)) a).resp.data = 0x2000,
      (out (.splitHiRead m (at' .SYS_RVEC_C_HI 0)) cLive).resp.data = 0x2000] : List Bool).all id = true := by decide +kernel

/-- RegisterWrites: a write-one-to-clear bit with and without its event, a staged half that commits, refused widths. -/
theorem test_RegisterWrites_witness :
    let m : Master := ⟨.f, 12⟩
    let at' (k : RegKind) (i : Nat) : PAddr := BitVec.ofNat _ (k.addr i)
    let s := cLive.setReg .SYS_RST_CAUSE 0 0xC000
    let a := out (.splitLoWrite m (at' .SYS_RVEC_F_LO 0) 0x1234) cLive
    ([fine (s.path m (at' .SYS_RST_CAUSE 0).toNat true false), regAt (at' .SYS_RST_CAUSE 0).toNat = some (.SYS_RST_CAUSE, 0), RegKind.SYS_RST_CAUSE.pair = none,
      (out (.registerWrite m (at' .SYS_RST_CAUSE 0) 16 0xC000 0) s).reg .SYS_RST_CAUSE 0 = 0,
      (out (.registerWrite m (at' .SYS_RST_CAUSE 0) 16 0xC000 0x4000) s).reg .SYS_RST_CAUSE 0 = 0x4000,
      (out (.registerWrite m (at' .SYS_RST_CAUSE 0) 16 0x4000 0x8000) s).reg .SYS_RST_CAUSE 0 = 0x8000,
      (out (.registerWrite m (at' .SYS_RST_CAUSE 0) 8 0xFFFF 0) s).resp.ok = false, (out (.registerWrite m (at' .SYS_RST_CAUSE 0) 32 0xFFFF 0) s).resp.cause = 6,
      a.reg .SYS_RVEC_F_LO 0 = 0, (out (.splitHiWrite m (at' .SYS_RVEC_F_HI 0) 0x56) a).reg .SYS_RVEC_F_LO 0 = 0x1234,
      (out (.splitHiWrite m (at' .SYS_RVEC_F_HI 0) 0x56) a).reg .SYS_RVEC_F_HI 0 = 0x56, Tab.get none cLive.captures (RegKind.RTC_SUB.addr 0) = none] :
      List Bool).all id = true := by decide +kernel

/-! ### Tiles, the kiln and bricks -/

/-- C tile 3 and F tile 2 are on. -/
def tiled : State := ((cLive.setReg .TILE_PWR 3 0).setReg .FTILE_PWR 2 0).setReg .TILE_CTRL 0 0x8064

/-- A beat that reads or writes a word of C tile 3. -/
def beatOf (m off : Nat) (w : Option (W64 × Byte)) (waited : Nat) : Beat :=
  { master := m, addr := BitVec.ofNat _ (0x40000000 + 192 + off), wr := w, waited, stream := false, rt := false, counted := false }

/-- TileGrant: with the pointer at 2, master 5 before master 1; an aged beat first. -/
theorem test_TileGrant_witness :
    let s := tiled.setTile .c 3 { tiled.tile .c 3 with rr := 2 }
    let l := [beatOf 1 0 none 0, beatOf 5 0 none 0]
    ([l ≠ [], (s.grant .c 3 l).map (·.master) = some 5, (s.grant .c 3 [beatOf 1 0 none 5000, beatOf 5 0 none 0]).map (·.master) = some 1,
      (tiled.grant .c 3 l).map (·.master) = some 1] : List Bool).all id = true := by decide +kernel

/-- TileBeats: a read, a whole and a narrow write with the cycle after it, a tile in RET, and one in transition. -/
theorem test_TileBeats_witness :
    let r := [beatOf 1 8 none 0]
    let w (be : Byte) := [beatOf 1 8 (some (0x1122334455667788, be)) 0]
    let a := out (.tileBeat .c 3 (w 0xFF) .clean) tiled
    let b := out (.tileBeat .c 3 (w 0x01) .clean) tiled
    let ret := tiled.setReg .TILE_PWR 3 0x0100
    ([tileWf .c 3, (tiled.tile .c 3).busy = false, (tiled.tile .c 3).trans = none, wfld (tiled.reg .TILE_PWR 3) 9 8 = 0, tiled.spr.mig = none,
      (tiled.grant .c 3 r).isSome, tiled.tileOf .c (0x40000000 + 192 + 8) = some (3, 8), fine (tiled.path ⟨.c, 1⟩ (0x40000000 + 192 + 8) false false),
      (out (.tileBeat .c 3 r .clean) a).resp.data = 0x1122334455667788, a.resp.ok, (a.tile .c 3).busy = false, (b.tile .c 3).busy, (a.tile .c 3).rr = 2,
      (out (.tileBeat .c 3 r .clean) b).ccnt = [(16, 1)], ((out (.tileBeat .c 3 r .clean) b).tile .c 3).busy = false,
      (out (.tileBeat .c 3 r .clean) (out (.tileBeat .c 3 r .clean) b)).resp.data = 0x88,
      ((out (.tileBeat .c 3 r .clean) ret).tile .c 3).trans = some 0, (out (.tileBeat .c 3 r .clean) (out (.tileBeat .c 3 r .clean) ret)).ccnt = [(16, 2)]] :
      List Bool).all id = true := by decide +kernel

/-- TileUpkeep: a queued write-back of a word that is single or clean, a scrubbed line, power requests, idleness, cleared counters. -/
theorem test_TileUpkeep_witness :
    let e (x : Ecc) : State := (tiled.setTile .c 3 { tiled.tile .c 3 with writeback := [1, 7] }).setEcc .c 3 8 x
    ([answers (.eccWriteback .c 3) tiled tiled, ((out (.eccWriteback .c 3) (e .single)).tile .c 3).writeback = [7], (out (.eccWriteback .c 3) (e .single)).eccAt .c 3 8 = .clean,
      ((out (.eccWriteback .c 3) (e .double)).tile .c 3).writeback = [7], (out (.eccWriteback .c 3) (e .double)).eccAt .c 3 8 = .double, tiled.bit .TILE_CTRL 0 15,
      ((out (.scrubRead .c 3 .clean) tiled).tile .c 3).scrub = 1, ((out (.scrubRead .c 3 .clean) (e .double)).tile .c 3).scrub = 1,
      (tiled.migrating .c 3) = false, ((out (.tilePowerRequest .c 3 1) tiled).tile .c 3).trans = some 1, (out (.tilePowerRequest .c 3 1) tiled).bit .TILE_PWR 3 15,
      (out (.tilePowerDone .c 3) (out (.tilePowerRequest .c 3 1) tiled)).reg .TILE_PWR 3 = 0x0101,
      ((out (.tilePowerRequest .f 2 0) tiled).tile .f 2).trans = none, tiled.fld .TILE_CTRL 0 11 0 = 100,
      ((out (.tileIdleExpiry .c 3 6400) (tiled.setReg .TILE_PWR 3 3)).tile .c 3).trans = some 1, answers (.tileIdleExpiry .c 3 6399) (tiled.setReg .TILE_PWR 3 3) (tiled.setReg .TILE_PWR 3 3),
      (out (.xbarCounterClear .c 3) ({ tiled with ccnt := [(16, 1), (1024, 2)] })).ccnt = [(1024, 2)]] : List Bool).all id = true := by decide +kernel

/-- LocksAndSoftware: a load and a release given to each die, the release done, a software interrupt. -/
theorem test_LocksAndSoftware_witness :
    let r := out (.tlbLockRelease .c 0xC102) cLive
    ([cLive.lockC = none, cLive.pw.cReset = false, (out (.tlbLockLoad .f 0x8103) live).lockF.map (fun l => (l.core, l.slot, l.load)) = some (9, 3, true),
      r.lockC.map (fun l => (l.core, l.slot, l.load)) = some (1, 2, false), r.bit .XLAT_LK_STAT 0 15, (out (.tlbLockDone .c) r).lockC = none,
      (out (.tlbLockDone .c) r).bit .XLAT_LK_STAT 0 14, answers (.tlbLockLoad .c 0x8000) r r, (out (.softwareInterrupt .c 0x8008) cLive).bit .FHINT_PEND 0 10,
      (out (.softwareInterrupt .c 0x8001) cLive).bit .HINT_PEND 1 10, answers (.softwareInterrupt .c 0x0001) cLive cLive] : List Bool).all id = true := by decide +kernel

/-- A brick of queue 2, and the template it runs. -/
def brk (st : BState) : Brick := { desc := List.replicate 32 0, seq := 5, ticket := 0x2005, joint := false, lvl := 0, arrival := 0, st }
/-- An empty template. -/
def tpl : Template := { header := 0, ecoef := 0, acc0 := 0, acc1 := 0, acc2 := 0, accD := 0, stages := [], shapePar := 0, palPar := 0 }
/-- Queue 2 holds brick b, slot 0 the template. -/
def bricked (b : Brick) : State := { cLive with
  queues := cLive.queues.set 2 { entries := [b] }, templates := [(0, some tpl)] }

/-- BrickQueues: a joint's submission shed, accepted and lost; a flush; an expiry. -/
theorem test_BrickQueues_witness :
    let on : State := tiled.setReg .VX_QCFG 2 0x8700
    let a := out (.jointBrickSubmission 2 0x3000) on
    let old := { (bricked { brk .queued with remain := some (some (-1)) }) with crossing := [] }
    ([on.bit .SYS_STAT 0 14, on.bit .VX_QCFG 2 15, on.bit .VX_QCFG 2 10, fine (on.readMem ⟨.c, 34⟩ (0x40000000 + 64 * 0x3000) 64), (a.queues[2]).entries.map (·.joint) = [true],
      (a.queues[2]).entries.map (·.lvl) = [3], (out (.jointBrickSubmission 2 0) cLive).reg .KILN_QJSH 2 = 1, (out (.jointBrickSubmission 2 0) live).queues = live.queues,
      ((out (.queueFlush 2) (bricked (brk .queued))).queues[2]).entries.map (·.st) = [.ending 9],
      ((out (.queueFlush 2) (bricked (brk .run))).queues[2]).entries.map (·.st) = [.run],
      old.brick 2 5 = some { brk .queued with remain := some (some (-1)) }, answers (.brickExpiry 2 5) (bricked (brk .queued)) (bricked (brk .queued)),
      (bricked (brk .queued)).deadlinePassed (brk .queued) = false] : List Bool).all id = true := by decide +kernel

/-- BrickWork: a brick in each state, one whose suspension is due, and one without a request. -/
theorem test_BrickWork_witness :
    let h (b : Brick) : Bool := decide ((bricked b).brick 2 b.seq = some b) && decide (Tab.get none (bricked b).templates (wfld (b.w 0) 15 10) = some tpl)
    ([h (brk .setout), h (brk .probe), h (brk .run), h { brk .run with suspendReq := true }, (brk .setout).st = .setout,
      answers (.brickSuspend 2 5 0 []) (bricked (brk .run)) (bricked (brk .run)), (brk .run).k ≥ (brk .run).limit] : List Bool).all id = true := by decide +kernel

/-- BrickEnd: a brick that ends. -/
theorem test_BrickEnd_witness :
    let b := brk (.ending 9)
    let t := out (.brickEnd 2 5 []) (bricked b)
    ([(bricked b).brick 2 5 = some b, b.st = .ending 9, (t.queues[2]).entries = [], (t.queues[2]).ended.map (·.1) = [some 0x2005]] : List Bool).all id = true := by
  decide +kernel

/-- Admission: an eligible brick of length 0, the order of class, remaining time and arrival. -/
theorem test_Admission_witness :
    let b := brk .queued
    let s := bricked b
    let x := { b with remain := some (some 5) }
    ([s.pruneHolds.computeReady, live.pruneHolds.computeReady = false, b.len = 0, s.ranked.map (·.1) = [2], ((out .kilnAdmission s).queues[2]).entries.map (·.st) ≠ [.queued],
      before x { b with remain := some (some 6) }, before x b, before b { b with arrival := 1 }, { b with desc := 0 :: 1 :: List.replicate 30 0 }.cls = b.cls] :
      List Bool).all id = true := by decide +kernel

/-- KilnRefill: a zone with a good sensor and one without. -/
theorem test_KilnRefill_witness :
    let s := { cLive with lay := { cLive.lay with params := setParam (setParam cLive.lay.params (1274 + 10) 1) (1274 + 6) 60 } }.setReg .BIMG_STATUS 0 0x3000
    let temps : List (Option Word) := (some 50) :: List.replicate 23 none
    ([(s.kp 0 10).testBit 0, readingAt temps 0 0 = some 50, s.bit .BIMG_STATUS 0 13, (s.zone 0).blind = false, ((s.refillZone temps [] 0).zone 0).temp = 50, s.pw.cReset = false] :
      List Bool).all id = true := by decide +kernel

/-- Vid: a request goes out, waits and is answered. -/
theorem test_Vid_witness :
    let w := cLive.setReg .KILN_VID_ACT 0 0x8000
    ([cLive.pw.cReset = false, live.pw.cReset, answers .vidRecalc live live, w.bit .KILN_VID_ACT 0 15, (out .vidAck w).bit .KILN_VID_ACT 0 15 = false,
      (out .vidTimeout w).bit .KILN_INT_STAT 0 5] : List Bool).all id = true := by decide +kernel

/-! ### Courses, joints, modulators and cells -/

/-- A parameter of the running image. -/
def param' (s : State) (l : List (Nat × Nat)) : State :=
  { s with lay := { s.lay with params := l.foldl (fun t e => setParam t e.1 e.2) s.lay.params } }

/-- Course 0 runs with edges of kind 6 on its first line, in a state. -/
def coursed (st : CState) (kind : Nat) : State :=
  ((param' live [(1034, kind), (1035, 0xFFFFFF40), (1036, 60), (1041, 0x00010010)]).setBit .CRS_CTRL 0 15 true).setCourse 0
    { running := true, state := st, s := 2 ^ 30, p := 5 * 2 ^ 20, vis := 5, lastSlot := some 0, lastGap := some 80 }

/-- An edge of the first line. -/
def edge0 (line : Fin 3) (rising : Bool) : EdgeInfo := { line, rising, a := rising, b := false, c := false, cam := false, width := 1, slot := 800, held := 5 }

/-- CourseTick: courses that move within and beyond a limit, that are lost, held by a relay, to be started and to be stopped. -/
theorem test_CourseTick_witness :
    let x := (coursed .locked 6).course 0
    let fast := param' (coursed .locked 6) [(1043, 2 ^ 29)]
    ([live.bit .GPTP_CTL 0 15 = false, (live.setReg .GPTP_CTL 0 0x8000).bit .GPTP_CTL 0 15, (coursed .locked 6).param 1034 % 8 = 6, x.relayHold = false, x.running,
      (coursed .locked 6).bit .CRS_CTRL 0 15, x.state = .locked, x.lastS = none, (coursed .lost 6).bit .CRS_CTRL 0 15 = true, x.ticked.p = 5 * 2 ^ 20 + 2 ^ 30,
      fast.param (1034 + 9) < x.ticked.s.natAbs, { x with lastS := some 0 }.lastS ≠ none, ({ x with relayHold := true, state := .search }).relayHold,
      live.bit .CRS_CTRL 0 15 = false, (live.course 0).running = false] : List Bool).all id = true := by decide +kernel

/-- CourseEdges: an input that is seen and one that is not, a first edge in SEARCH, a counted one, an ignored one, a LOST course, a sample. -/
theorem test_CourseEdges_witness :
    let s := (coursed .search 6).setReg .CP_OUT 0 1
    let l := (coursed .locked 5).setReg .CP_OUT 0 1
    let q (k : Nat) (old : Nat) (f : EdgeInfo) : EdgeRes := (param' s [(1034, k)]).classify 0 { (coursed .locked 6).course 0 with lines := old } f
    let e := edge0 0 true
    ([(s.edgeSeen 0 e).map (·.slot) = some 800, ((coursed .search 6).edgeSeen 0 e).isNone, (s.edgeSeen 0 (edge0 1 true)).isNone, s.classify 0 (s.course 0) e = .reference 0,
      ((out (.courseEdge 0 e) s).course 0).state = .sync, (out (.courseEdge 0 e) s).reg .CRS_EDGES 0 = 1, (match l.classify 0 (l.course 0) e with | .edge _ _ => true | _ => false),
      answers (.courseEdge 0 (edge0 1 true)) s s, (coursed .lost 6).course 0 |>.running, q 2 0 { e with a := true } = .edge 1 1, q 4 5 { e with a := true } = .edge 1 1,
      s.classify 0 (s.course 0) { e with rising := false, a := false } = .ignored,
      (((coursed .search 3).takeSample (0, 3, 4, 0)).course 0).state = .sync, ((param' (coursed .search 3) [(1044, 26)]).takeSample (0, 3, 4, 0)).course 0 = (coursed .search 3).course 0,
      (((coursed .sync 6).badEdge 0 true false).course 0).state = .search, (((coursed .locked 6).badEdge 0 true false).course 0).state = .lost] :
      List Bool).all id = true := by decide +kernel

/-- CourseControl: an overdue edge, the coast limit, RUN, resynchronisation. -/
theorem test_CourseControl_witness :
    let late : State := { coursed .locked 6 with ticks := 2 ^ 44 }
    let far := (coursed .coast 6).setCourse 0 { (coursed .coast 6).course 0 with coastAdv := 2 ^ 40 }
    ([late.overdue 0, (coursed .locked 6).overdue 0 = false, ((out (.coastTimeout 0) late).course 0).state = .coast, answers (.coastTimeout 0) (coursed .locked 6) (coursed .locked 6),
      ((out (.coastLimit 0) far).course 0).state = .lost, ((out (.coastLimit 0) far).course 0).vis = 5, answers (.coastLimit 0) (coursed .locked 6) (coursed .locked 6),
      (out (.courseRunRequest 0 0x8000) live).reg .CRS_CTRL 0 = 0x8000, ((out (.courseResync 0) (coursed .lost 6)).course 0).state = .search,
      answers (.courseResync 0) (coursed .sync 6) (coursed .sync 6), (Tab.get [] (out .coursePositionSend (coursed .sync 6)).ml.fc.queues 0).length = 1] :
      List Bool).all id = true := by decide +kernel

/-- Joints: armed ahead, behind with and without DROP; fired into the dispatch queue, which gives up one action of each kind. -/
theorem test_Joints_witness :
    let s := (coursed .locked 6).setReg .JNT_CFG 3 0x0800
    let d (act : Nat) (tgt : Word) : State := { cLive with dispatch := [(3, act, tgt, 7, 0)], ticks := 9 }
    let a := out (.jointArm 3 0) (s.setReg .JNT_CFG 3 0x0840)
    ([((out (.jointArm 3 0) s).bit .JNT_CFG 3 15) = false ∨ (out (.jointArm 3 0) s).dispatch ≠ [], s.jbehind 3 5, s.jmay 3, a.bit .JNT_DROP 0 3,
      (out (.jointDisarm 3) s).bit .JNT_CFG 3 15 = false, (s.jfire 3 0).dispatch = [(3, 4, 0, 0, 0)], (s.jfire 3 0).bit .JNT_FIRED 0 3,
      (State.jfire { s with dispatch := [(5, 4, 0, 0, 0)] } 3 0).dispatch.map (·.1) = [3, 5], s.jinc 3 = 0,
      (s.setReg .JNT_POS_LO 3 10 |>.setBit .JNT_CFG 3 15 true).crossing? 3 8 12 = some 4,
      answers .jointDispatch live live, (out .jointDispatch (d 5 0x3002)).crossing = [(2, 0x30007)], (out .jointDispatch (d 6 2)).dispatch = [],
      (out .jointDispatch { (d 5 2).setReg .SYS_STAT 0 0x8004 with crossing := [] }).reg .JNT_XSHED 0 = 1, (out .jointDispatch (d 4 0)).dispatch = [],
      (out .jointDispatch (d 7 0)).dispatch = [], answers .jointDispatch { d 4 0 with dispTick := 10 } { d 4 0 with dispTick := 10 }] : List Bool).all id = true := by decide +kernel

/-- Modulators: a start at once and by SYNC, a stop at the period boundary, the raw levels and the dead time. -/
theorem test_Modulators_witness :
    let s := ((live.setReg .MOD_PER_LO 2 100).setReg .MOD_DUTY_LO 2 40)
    let r := out (.modEnableRequest 2 0x8000) s
    let w := out (.modEnableRequest 2 0x8200) s
    let h := (r.setBit .MOD_CTRL 2 14 true)
    ([s.reg .MOD_STAT 2 = 0, r.bit .MOD_STAT 2 15, w.bit .MOD_STAT 2 13, (out (.modSync 0) { w with staging := [(RegKind.MOD_SYNC_LO.addr 0, 4)] }).bit .MOD_STAT 2 15,
      (out (.modEnableRequest 2 0) r).bit .MOD_STAT 2 14, (out (.modPeriodBoundary 2) (out (.modEnableRequest 2 0) r)).bit .MOD_STAT 2 15 = false,
      (Tab.get ({} : Modulator) r.mods 2).per = 100, (h.modPrep 2 0).bit .MOD_STAT 2 12, ((h.setCourse 0 { running := true, state := .locked }).modPrep 2 0).bit .MOD_STAT 2 12 = false,
      (out (.modCheckerMismatch 2) (r.setReg .OC_CFG 7 0x2200)).bit .MOD_STAT 2 11, modHigh false 100 40 39, modHigh true 100 40 30, modHigh true 100 40 70 = false] :
      List Bool).all id = true := by decide +kernel

/-- OutputCells: safe and field-alone causes, a pulse's end, a lasting mismatch, a safe exit with and without a modulator, RESUME, a lost bank. -/
theorem test_OutputCells_witness :
    let tr := live.setReg .OC_TRIPPED 0 4
    let al := (live.setReg .OC_CTRL 0 0x2000).setReg .OC_SAFE 2 0x2000
    let pu := live.setCell 2 { pulse := some 3 }
    let safe := live.setCell 2 { state := 2 }
    let md := (safe.setReg .OC_CFG 2 0x2000).setMod 0 { bound := some 0 }
    ([tr.cellCause 2 = 2, al.cellCause 2 = 1, live.cellCause 2 = 0, ((tr.evalCell 2).cell 2).state = 2, live.bit .OC_CFG 2 3 = false, ((out (.pinPulseEnd 2) pu).cell 2).pulse = none,
      answers (.pinPulseEnd 2) live live, (out (.ocReadbackFault 2 256) (live.setReg .OC_CFG 2 0x0010)).bit .OC_FLT 0 2, answers (.ocReadbackFault 2 5) live live,
      ((out (.ocSafeExit 2) safe).cell 2).state = 0, ((out (.ocSafeExit 2) md).cell 2).state = 0, answers (.ocSafeExit 2) { md with ticks := 2 } { md with ticks := 2 },
      ((out (.ocSafeExit 2) tr).cell 2).state = (tr.cell 2).state, (out (.ocResume 0x4000) (cLive.setReg .OC_CTRL 0 0x2000)).bit .OC_CTRL 0 13 = false,
      (out (.vioBankChange 0 1000) live).ballDrive 5 = .z, ((out (.vioBankChange 0 1000) live).ballLevel 5).1 = false,
      (out (.bankLossThreshold 0 1000) (param' live [(341, 1500)])).bit .GP_BANK 0 14, answers (.bankLossThreshold 0 1500) (param' live [(341, 1500)]) (param' live [(341, 1500)])] :
      List Bool).all id = true := by decide +kernel

/-! ### Measurement -/

/-- The F-die runs; field tiles 0 to 9 are on; carve-out 0 is field buffer 0, carve-out 1 capture ring 0. -/
def meas : State :=
  let s := param' live [(718, 4), (719, 2), (720, 2 + 65536 * 4), (721, 1)]
  (upto 10).foldl (fun s t => s.setReg .FTILE_PWR t 0) s

/-- Converters: one that is OFF, ON and in transition, a software conversion, two halves of a resolver sample, a frame's conversion. -/
theorem test_Converters_witness :
    let on := live.setReg .ADC_STAT 0 0x8000
    let up := out (.adcPowerRequest 0 0x8000) live
    let w := out (.adcSwconv 0x8002) on
    let b := out (.adcConversionStart 0) w
    let r (cosine : Bool) : Conv := { input := if cosine then 12 else 0, st := 0, level := 0, trig := 0, slot := none, res := some (1, cosine) }
    let two := { on.setReg .ADC_STAT 1 0x8000 with waiting := [r false, r true] }
    let half := on.setConv 0 (some (r false))
    let both := { half with resHalf := [(3, some 5)] }
    let fr := on.setConv 0 (some { r false with res := none, slot := some (4, 2) })
    ([on.adOn 0, live.adOn 0 = false, live.absentConv 0 = false, up.adcTrans = [(0, some true)], (out (.adcPowerDone 0) up).adOn 0,
      w.waiting.length = 1, w.waiting.map (·.level) = [3], (out (.adcSwconv 0x8002) live).bit .ADC_STAT 0 13, w.waitingGroups 0 = [], w.conv 0 = none,
      b.waiting = [], (b.conv 0).isSome, (w.dropWaiting 0).bit .ADC_STAT 0 13, (w.dropWaiting 0).waiting = [],
      (out (.adcConversionStart 0) two).waiting = [], (two.conv 1) = none, Tab.get none (half.resHalf) 3 = none, half.conv 0 = some (r false), both.demod = [],
      fr.conv 0 = some { r false with res := none, slot := some (4, 2) }, (out (.adcPowerRequest 0 0) on).adcTrans = [(0, some false)],
      answers (.adcPowerRequest 0 0) live live] : List Bool).all id = true := by decide +kernel

/-- Inputs: a filter with and without an output, a comparator that moves, SENT frames of six nibbles: good, of a wrong length, nibble and CRC. -/
theorem test_Inputs_witness :
    let sd := live.setReg .SD_CFG 0 0xC010
    let full : State := { sd with sinc := [(0, { count := 15 })] }
    let cp := (live.setReg .CP_ON 0 1).setReg .CP_CFG 0 0x8000
    let se := (live.setReg .SE_CFG 0 0xE000).setReg .SE_TICK 0 3
    let nibs : List Nat := [0, 1, 2, 3, 4, 5, 6]
    let f (l : List Nat) : SentRx := { calNs := 42000, pulses := l.map fun n => 750 * (n + 12) }
    let crc := sentCrc false [1, 2, 3, 4, 5, 6]
    let good := out (.sentFrame 0 (f (nibs ++ [crc]))) se
    ([wbit (sd.reg .SD_CFG 0) 15, wbit (sd.reg .SD_CFG 0) 14, answers (.sdResult 0 [(true, true)]) live live, (out (.sdResult 0 [(true, true)]) sd).sinc = [(0, { i1 := 1, i2 := 1, i3 := 1, count := 1 })],
      (out (.sdResult 0 [(true, true)]) full).bit .SD_NEW 0 0, (wbit ((sd.setReg .SD_CFG 0 0x8010).reg .SD_CFG 0) 14) = false,
      (cp.bit .CP_ON 0 0), (out (.cpPowerRequest 0 0x8000) live).cpTrans = [(0, some true)],
      (out (.cpPowerRequest 0 0) cp).bit .CP_ON 0 0 = false, (out (.cpPowerDone 0) (out (.cpPowerRequest 0 0x8000) live)).bit .CP_ON 0 0,
      se.calOk 0 42000, se.calOk 0 60000 = false, good.reg .SE_FAST_LO 0 = 0x3456, good.reg .SE_FAST_HI 0 = 0x0012, good.bit .SE_STAT 0 15,
      (out (.sentFrame 0 (f nibs)) se).bit .SE_STAT 0 10, (out (.sentFrame 0 (f (0 :: 1 :: 2 :: 3 :: 4 :: 5 :: 17 :: [crc]))) se).bit .SE_STAT 0 11,
      (out (.sentFrame 0 (f (nibs ++ [(crc + 1) % 16]))) se).bit .SE_STAT 0 13, (out (.sentFrame 0 { f [] with calNs := 60000 }) se).bit .SE_STAT 0 12,
      se.serialMessage 0 = none] : List Bool).all id = true := by decide +kernel

/-- Captures: a trigger that starts and one that is lost, an enable that passes its check and one that fails, list entries of each source. -/
theorem test_Captures_witness :
    let s := ((meas.setReg .CAP_DEF_CTRL 0 0x4000).setReg .CAP_DEF_PER 0 1).setReg .CAP_DEF_CTRL 1 0x6000
    let t (w : Word) : State := { (out (.capSwtrig 0x8000) s).setReg .CAP_LIST 0 w with ticks := 5 }
    let c (w : Word) : CapRun := (out (.listEntryStart 0) (t w)).cap 0
    let adc := (t 0x0100).setReg .ADC_STAT 0 0x8000
    let e := out (.capDefEnable 2 0x8000) meas
    let bad := out (.capDefEnable 2 0x8000) live
    ([meas.fbSlots 0 = some (0x8000000, 64, 4096), s.fbUsed 0 4096 = 0, (out (.capSwtrig 0x8000) s).bit .CAP_DEF_CTRL 0 13,
      (out (.capPeriodicTrigger 0) s).bit .CAP_DEF_CTRL 0 13, (out (.capPeriodicTrigger 0) (out (.capPeriodicTrigger 0) s)).reg .CAP_OVR 0 = 1,
      e.bit .CAP_DEF_CTRL 2 14 || e.bit .CAP_DEF_CTRL 2 12, bad.bit .CAP_DEF_CTRL 2 12, (t 0x0100).entryDue 0, (out (.capSwtrig 0x8000) s).entryDue 0 = false,
      (t 0x0100).group 0 0 = [0x0100], (t 0x0100).groupFirst 0, (c 0x0100).err, (c 0x2000).words = 1, (c 0x6000).words = 1, (c 0xA000).notBefore = 13, (c 0xA000).words = 0,
      ((out (.listEntryStart 0) adc).conv 0).isSome, adc.conv 0 = none, (adc.capCount 0 = 1), ({ adc with converting := [(0, some { input := 1, st := 0, level := 2, trig := 0, slot := none })] }.conv 0).isSome,
      s.capCheck 2 = false || s.capCheck 2, (s.setReg .CAP_DEF_REP 0 1).capRep 0 = 2] : List Bool).all id = true := by decide +kernel

/-- CaptureFrames: a complete frame, its move, a read index within and beyond the filled range. -/
theorem test_CaptureFrames_witness :
    let s := (meas.setReg .CAP_DEF_CTRL 0 0x6000).setCap 0 { entry := 1, words := 1, results := [(0, 9)] }
    let r := { cLive with lay := meas.lay, ready := [{ fb := 0, slot := 0, ring := 0, words := 1 }] }
    let k := r.setReg .CAP_CR_WR 0 3
    ([s.capCount 0 = 1, s.capRep 0 = 1, (s.cap 0).outstanding = 0, s.bit .CAP_FB_CFG 0 14 = false, (s.frame 0).length = 32, (s.frame 0).getD 0 0 = 9, (s.frame 0).getD 1 0 = 0x8000,
      r.fbSlots 0 = some (0x8000000, 64, 4096), (r.crSlots 0).isSome, r.computeReady, meas.computeReady = false, (answers .frameMove { meas with ready := r.ready } { meas with ready := r.ready }),
      (out (.slotRdWrite (.captureRing 0) 2) k).reg .CAP_CR_RD 0 = 2, (out (.slotRdWrite (.captureRing 0) 4) k).reg .CAP_CR_RD 0 = 0] : List Bool).all id = true := by
  decide +kernel

/-! ### The network -/

/-- The switch forwards, the link is UP. -/
def net : State := cLive.setReg .NSW_STAT 0 0x8000

/-- A frame of 60 bytes without FCS, from an unknown source to an unknown destination. -/
def frame : List Byte := [2, 0, 0, 0, 0, 1, 2, 0, 0, 0, 0, 2, 0x88, 0xB6] ++ List.replicate 46 0
/-- It as received. -/
def rx (b : List Byte) (ok : Bool) : RxFrame := { bytes := b, fcsOk := ok, age := 0, node := none }

/-- Ports: requests of each kind of port, the end of a start and of a stop, the loss of a link. -/
theorem test_Ports_witness :
    let act (p v : Nat) (s : State) : State := s.setAct p v
    ([net.switchLive, net.computeReady, (out (.portEnableRequest 0 0x8000) net).portAct 0 = 1, (out (.portEnableRequest 4 0x8000) net).portAct 4 = 1,
      (out (.portEnableRequest 9 0x8000) net).portAct 9 = 1, (out (.portEnableRequest 14 0x8000) net).portAct 14 = 1, (out (.portEnableRequest 14 0) (act 14 2 net)).portAct 14 = 3,
      (out (.portEnableRequest 8 0) (act 8 2 net)).portAct 8 = 3, (out (.portEnableRequest 4 0x8000) live).portAct 4 = 0,
      (out (.portStartDone 8 true 0) (out (.portEnableRequest 8 0xC000) net)).portAct 8 = 2, (out (.portStartDone 8 true 0) (out (.portEnableRequest 8 0xC000) net)).bit .TS_STAT 0 13,
      (out (.portStartDone 14 true 0) (out (.portEnableRequest 14 0x8000) net)).portAct 14 = 2, (out (.portStartDone 4 true 0) (out (.portEnableRequest 4 0x8000) net)).portAct 4 = 2,
      answers (.portStartDone 4 false 0) (out (.portEnableRequest 4 0x8000) net) (out (.portEnableRequest 4 0x8000) net), (out (.portStopDone 8) (act 8 3 net)).portAct 8 = 0,
      (out (.portStopDone 14) (act 14 3 net)).portAct 14 = 0, (out (.mtLinkLoss 1) (act 5 2 net)).portAct 5 = 1] : List Bool).all id = true := by decide +kernel

/-- Links: a backbone port in each stage, a training frame, codewords, superframe slots. -/
theorem test_Links_witness :
    let st (n : Nat) : State := (net.setReg .BPHY_PCFG 0 0xC0FF).setFld .BPHY_PSTAT 0 13 11 n
    let one (n : Nat) : State := (net.setReg .BPHY_PCFG 0 0x8000).setFld .BPHY_PSTAT 0 13 11 n
    let rdy := ((one 2).setBit .BPHY_LSTAT 0 14 true).setLane 0 { (one 2).lane 0 with peerReady := true }
    let f : TrainFrame := { laneNo := 0, rate14 := false, pre := .hold, main := .inc, post := .hold, precode := false, rxReady := true, crcOk := true, errs := 5 }
    let snd (t : Nat) : State := { (st 4).setLane 0 { (st 4).lane 0 with sendFrom := some 0 } with ticks := t }
    ([(out (.bpLinkEvent 0 .signal) (st 1)).bpLink 0 = 2, (out (.bpLinkEvent 0 .ready) rdy).bpLink 0 = 3, answers (.bpLinkEvent 0 .ready) (st 2) (st 2),
      (out (.bpLinkEvent 0 .aligned) (st 3)).bpLink 0 = 4, ((st 4).setBit .BPHY_PSTAT 0 10 true).bit .BPHY_PSTAT 0 10,
      (out (.bpLinkEvent 0 .lost) ((st 4).setBit .BPHY_PSTAT 0 10 true)).bpLink 0 = 2, (out (.bpTrainTimeout 0) ((st 2).setBit .BPHY_PCFG 0 13 true)).bit .BPHY_PSTAT 0 10,
      (out (.bpTrainTimeout 0) (one 2)).bpLink 0 = 1, (out (.bpAlignTimeout 0) (st 3)).bpLink 0 = 2, 0 ∈ (st 2).usable 0, (st 2).bit .BPHY_LCTL 0 14 = false,
      (out (.bpTrainingFrame 0 f) (st 2)).bit .BPHY_LSTAT 0 14, ((out (.bpTrainingFrame 0 f) (st 2)).lane 0).main.steps = 1,
      answers (.bpTrainingFrame 0 { f with crcOk := false }) (st 2) (st 2), ((out (.codewordReceive 0 3 0 (.align 0 7)) (st 4)).lane 0).align = some (0, 7),
      ((out (.codewordReceive 0 3 0 (.status 1 false 1)) (st 4)).lane 0).status = some (1, false, 1), Tab.get 0 (out (.codewordReceive 0 16 2 .fill) (st 4)).net.spoilt 0 = 2,
      (snd 0).laneSends 0 = some (.align 0 0), (snd 100).laneSends 0 = some (.data 0), (((snd 33120).laneSends 0).any fun c => match c with | .status _ _ _ => true | _ => false),
      (snd 34000).laneSends 0 = some .fill] : List Bool).all id = true := by decide +kernel

/-- QueueAdmission: a frame within the reserved cells, one within the shared ones, one that fits neither. -/
theorem test_QueueAdmission_witness :
    let q (lo hi : Nat) : State := { net.setAct 8 2 with net := { net.net with qTab := Tab.set 0 64 (BitVec.ofNat 128 (lo + 2 ^ 32 * hi)) net.net.qTab } }
    let f : SwFrame := { bytes := frame, port := 0, cls := 0, stamp := 0 }
    ([(q 5 5).portAct 8 = 2, 1 ≤ (q 5 5).freeCells, (q 5 5).idleSlope 64 = 0, (q 0 0).net.store = [], (q 5 5).qMin 64 = 5, (q 5 9).qMax 64 = 9,
      ((q 5 5).enterQueues f [8]).swQueue 64 = [0], ((q 0 9).enterQueues f [8]).swQueue 64 = [0], ((q 0 0).enterQueues f [8]).swQueue 64 = [],
      Tab.get 0 ((q 0 0).enterQueues f [8]).net.counters (32 * 8 + 10) = 1] : List Bool).all id = true := by decide +kernel

/-- FrameReception: ports in each state, frames good and bad, the link up and down, the four policies. -/
theorem test_FrameReception_witness :
    let s := net.setAct 8 2
    let u (n : Nat) : State := s.setFld .NSW_PCTL 8 13 12 n
    let dn := s.setReg .ML_STAT 0 0x1000
    let alone := live.setAct 8 2
    ([s.switchReady, (s.maxLen 8) ≥ 64, (out (.frameReceive 8 (rx frame true)) (net.setAct 8 3)).net.counters = (net.portTally 8 3).net.counters,
      (out (.frameReceive 8 (rx frame false)) s).net.counters = (s.portTally 8 2).net.counters,
      (out (.frameReceive 8 (rx frame true)) { s with net := { s.net with spoilt := [(8, 2)] } }).net.spoilt = [(8, 1)],
      etherType frame ≠ 0x8808, (out (.frameReceive 8 (rx (frame.set 12 0x88 |>.set 13 0x08) true)) s).net.counters = ((s.received 8 64).portTally 8 7).net.counters,
      (Tab.get [] (out (.frameReceive 8 (rx frame true)) dn).net.rxHeld 8).length = 1, dn.linkUp = false, alone.computeReady = false,
      s.linkUp, s.macsecOn 8 = false, (net.setAct 0 2).macsecOn 0 = false, s.macEntry (bytesAt frame 6 6) (vidOf frame) = none, s.macEntry (bytesAt frame 0 6) (vidOf frame) = none,
      1 ≤ s.freeCells, (u 1).fld .NSW_PCTL 8 13 12 = 1, answers (.frameReceive 8 (rx frame true)) (u 2) ((u 2).received 8 64),
      answers (.frameReceive 8 (rx frame true)) (u 3) (((u 3).received 8 64).dropTally 8 4), s.bit .NSW_CTRL 0 15 = false,
      ((s.setReg .NSW_PCTL 9 0x8000).bit .NSW_PCTL 9 15)] : List Bool).all id = true := by decide +kernel

/-- FrameTransmission: a port with a frame in its queue: of each kind, with and without beacons; a transmit ring with a slot. -/
theorem test_FrameTransmission_witness :
    let f : SwFrame := { id := 3, bytes := frame, port := 0, cls := 0, stamp := 0 }
    let w (p : Nat) : State := { net.setAct p 2 with net := { net.net with store := [f], queues := [(8 * p, [3])] } }
    let co : State := ((w 9).setReg .TS_CFG 1 0xC000).setBit .TS_STAT 1 13 true
    ([(w 0).switchReady, (w 0).portAct 0 = 2, (w 0).idleSlope 5 = 0, (w 0).idleSlope 6 = 0, entFld ((w 0).portEnt 0) 2 1 % 2 = 0, (w 0).swQueue 0 = [3], (w 0).swFrame 3 = some f,
      (out (.frameTransmit 0) (w 0)).net.sent.map (·.1) = [0], (out (.frameTransmit 9) ((w 9).setReg .TS_CFG 1 0xC000)).net.sent.map (·.1) = [9], co.plcaTurn 1 = some 0,
      (out (.frameTransmit 9) co).net.sent.map (·.1) = [9], answers (.frameTransmit 9) { co with ticks := 3000 } { co with ticks := 3000 },
      answers (.frameTransmit 9) ((w 9).setReg .ML_STAT 0 0x1000) ((w 9).setReg .ML_STAT 0 0x1000), ((w 22).setReg .NSW_RING_CFG 0 0x803F).rxFree 22, (w 22).rxFree 22 = false,
      answers (.frameTransmit 22) (w 22) (w 22), ((w 14).setReg .CN_STAT 0 0x8000).fld .CN_STAT 0 13 12 < 2, (w 14).bit .CN_CFG 0 7 = false,
      ((net.setReg .NSW_RING_CFG 1 0x8000).setReg .NSW_RING_WR 1 1 |>.txRing .ic).2.2.1 = 1] : List Bool).all id = true := by decide +kernel

/-- CanFrames: a port off duty, a bad frame, no entry with each policy, an entry with each action, a batch, a recovery. -/
theorem test_CanFrames_witness :
    let s := net.setAct 14 2
    let f : CanFrame := { fmt := .classical, ident := 5, xlHead := [], data := [1, 2], ok := true }
    let u (n : Nat) : State := s.setFld .NSW_PCTL 14 13 12 n
    ([(out (.canFrameReceive 0 f) (net.setAct 14 3)).net.counters = (net.portTally 14 3).net.counters, Tab.get 0 (out (.canFrameReceive 0 { f with ok := false }) s).net.canRec 0 = 1,
      Tab.get 0 (s.canGotEvent 0 true).net.canAcks 0 = 1, (s.canEntry 0 5) = none, 1 ≤ s.fld .CN_CFG 0 14 13, s.linkUp, s.computeReady,
      (out (.canFrameReceive 0 f) (u 3)).net.counters ≠ (out (.canFrameReceive 0 f) (u 2)).net.counters,
      (Tab.get [] (out (.canFrameReceive 0 f) (s.setReg .ML_STAT 0 0x1000)).net.rxHeld 14).length = 1,
      (out (.canBusOffRecovery 0) ((net.setReg .CN_CFG 0 0x0800).setFld .CN_STAT 0 13 12 2)).fld .CN_STAT 0 13 12 = 0,
      (out (.acfBatchExpiry 0 7) { s with net := { s.net with acf := [(7, [[1, 2, 3, 4]])] } }).net.acf = []] : List Bool).all id = true := by decide +kernel

/-- NetworkTime: a step, a capture, holdover, gate lists, ages. -/
theorem test_NetworkTime_witness :
    let e : BitVec 128 := BitVec.ofNat 128 (2 ^ 64)
    ([(out (.gptpStepApply 0) { live with staging := [(RegKind.GPTP_STEP.addr 0, 7)] }).gptpNs = 7, (out .gptpTimeCapture { live with gptpNs := 0x1234567 }).resp.data = 0x4567,
      ({ live.setReg .GPTP_CTL 0 0x8001 with ticks := 800000 }).fld .GPTP_CTL 0 11 0 = 1, (out .gptpHoldover { live.setReg .GPTP_CTL 0 0x8001 with ticks := 800000 }).fld .GPTP_STAT 0 15 14 = 3,
      answers .gptpHoldover (live.setReg .GPTP_CTL 0 0x8001) (live.setReg .GPTP_CTL 0 0x8001), net.switchLive, (net.gateOf 3).entry = 0,
      net.gateCount 3 false = 0 || net.gateCount 3 false ≠ 0, rosStatic e = false || rosStatic e] : List Bool).all id = true := by decide +kernel

/-- SwitchTables: an access given, one done, one refused. -/
theorem test_SwitchTables_witness :
    let g := out (.nswTableRead 0x8000) net
    let k := out (.nswTableWrite 0xC000) ((net.setReg .NSW_TBL_IDX 0 2000))
    ([net.net.access = none, g.net.access = some 0x8000, g.net.accessData.length = 9, g.bit .NSW_TBL_STAT 0 15, (out .nswTableDone g).bit .NSW_TBL_STAT 0 14,
      (out .nswTableDone k).bit .NSW_TBL_STAT 0 13, (net.tableRead 0 1024 0).1 = none, net.tableWrite 8 0 0 0 = none, (net.tableWrite 0 3 0 0).isSome,
      (net.tableRead 8 3 0).1.isSome, (net.tableWrite 2 3 0 5).isSome] : List Bool).all id = true := by decide +kernel

/-! ### The Mortar link, spares and debug -/

/-- A flit of type 3 with a sequence number. -/
def flit (n : Nat) : Flit := { ty := 3, ch := 0, payload := BitVec.ofNat 256 (n + 9), seq := BitVec.ofNat 8 n }

/-- The CRC of flits, with its register computed at each bit. -/
def crcFold : List Bool → Nat → Nat
  | [], c => c
  | b :: l, 0 => crcFold l (crcBit 0 b)
  | b :: l, c + 1 => crcFold l (crcBit (c + 1) b)

theorem foldl_crcBit_eq (f : Nat → Bool) (l : List Nat) (c : Nat) : l.foldl (fun c i => crcBit c (f i)) c = crcFold (l.map f) c := by
  induction l generalizing c with
  | nil => rfl
  | cons a l ih => cases c <;> exact ih _

theorem flitCrc_eq (v : BitVec 272) : flitCrc v = crcFold ((upto 272).map v.getLsbD) 0xFFFF := foldl_crcBit_eq _ _ _

/-- FlitCoding, Flits: a flit, a LINK flit that acknowledges and one that reports a failure come back as they were sent; with one wrong bit a flit
does not. -/
theorem test_FlitCoding_witness : (flit 5).ty.toNat ≤ 6 ∧ Flit.decode (flit 5).encode = some (flit 5) ∧
    Flit.decode { ty := 2, ch := 0, payload := 0x104 : Flit }.encode = some { ty := 2, ch := 0, payload := 0x104 } ∧
    Flit.decode ((flit 5).encode ^^^ (1 : BitVec 288) <<< 280) = none := by
  simp only [Flit.encode, Flit.decode, flitCrc_eq]
  decide +kernel

/-- Flits: a report before anything else, a replay, a new flit, an owed acknowledgement, idle, a CHECK flit; a flit with a wrong CRC. -/
theorem test_Flits_witness :
    let d (f : LinkDir → LinkDir) : State := cLive.setLink .fc (f (cLive.link .fc))
    ([cLive.linkUp, (cLive.link .fc).slots % 4096 ≠ 4095, (d fun l => { l with slots := 4095 }).linkUp, (cLive.link .cf).report = false, (cLive.link .cf).owed = false,
      (cLive.link .fc).resend = [], (cLive.link .fc).replay.length < 128, (d fun l => { l with queues := [(0, [flit 0])] }).link .fc |>.ready 0,
      ((out (.flitSend .fc) (d fun l => { l with queues := [(0, [flit 0])] })).link .fc).replay = [flit 0],
      ((out (.flitSend .fc) (d fun l => { l with resend := [flit 7] })).link .fc).resend = [], (cLive.link .fc).expect = (flit 0).seq, (flit 5).seq ≠ (cLive.link .fc).expect] :
      List Bool).all id = true := by decide +kernel

/-- LinkStates: the stages, the time limits, a lane that fails in use and as a spare, a window with and without failures. -/
theorem test_LinkStates_witness :
    let st (n : Nat) : State := cLive.setFld .ML_STAT 0 15 12 n
    let ln (k : Fin 18) : LaneRef := ⟨.fc, k⟩
    let go (s : State) : Nat := s.fld .ML_STAT 0 15 12
    ([go (out (.mlTrainingStageDone []) (st 1)) = 2, go (out (.mlTrainingStageDone []) (st 3)) = 4, go (out (.mlTrainingStageDone []) (st 5)) = 6, (st 5).ml.failed = [],
      go (out .mlTrainingTimeout (st 2)) = 9, go (out .mlNoFlitTimeout (st 6)) = 9, go (out .mlShiftDone (st 7)) = 6, go (out .mlRetrainDone (st 8)) = 6,
      go (out (.laneShift .fc 0) (st 6)) = 7, go (out (.laneShift .fc 17) (st 6)) = 6, ((st 6).lanePos .fc 17).isNone,
      go (out (.laneShift .fc 2) { st 6 with ml := { (st 6).ml with failed := [ln 0, ln 1] } }) = 9, (out .mlLaneErrorWindow { st 6 with ml := { (st 6).ml with crcWindow := 1 } }).ml.crcWindow = 0,
      go (out .mlLaneErrorWindow { st 6 with ml := { (st 6).ml with crcWindow := 300 } }) = 8, (st 6).railsRaised = 4, go (st 6).retrain = 8,
      go (State.retrain { st 6 with ml := { (st 6).ml with retrainAt := [0, 0] } }) = 9, (out .lossWaitExpiry (live.power fun p => { p with lossWait := true })).pw.lossWait = false] :
      List Bool).all id = true := by decide +kernel

/-- Wear: a measurement, a window, a request, an entry that is new and one that is known. -/
theorem test_Wear_witness :
    let e : RecEvent := { unit := ⟨1, 5⟩, live := true, sw := false, source := 2 }
    let s : State := { cLive with spr := { cLive.spr with toAdd := [e] } }
    ([cLive.bit .SYS_RAIL 0 14, (out (.repairRequest 0x8002) cLive).spr.toAdd.map (·.source) = [5], answers (.repairRequest 2) cLive cLive,
      (out .repairRecordAdd s).spr.record = [0x2000001000501], (out .repairRecordAdd s).spr.toAdd = [],
      (out .repairRecordAdd { s with spr := { s.spr with record := [0x501] } }).spr.record = [0x501],
      (out .ceWindowExpiry { cLive with tiles := [(3, { ceWindow := 4 })] }).tiles = []] : List Bool).all id = true := by decide +kernel

/-- Migrations: a tile queued, its migration started, with and without a spare; a line, and the switch. -/
theorem test_Migrations_witness :
    let q : State := { tiled with spr := { tiled.spr with queue := [(3, 5)] } }
    let m : Migration := { w := 3, f := 3, sp := 256, line := 0, written := [], copying := false, source := 5 }
    let g (n : Nat) : State := { tiled with spr := { tiled.spr with mig := some { m with line := n } } }
    ([(out (.migrationQueue 0x8003) tiled).spr.queue = [(3, 5)], (out (.migrationQueue 0x8003) q).spr.queue = [(3, 5)], q.computeReady, q.spr.mig = none, q.fld .TILE_PWR 3 1 0 = 0,
      (out .migrationStart q).spr.mig.map (·.sp) = some 256, (out .migrationCopyLine (g 0)).reg .MIG_PROG 0 = 1, m.f ≠ m.sp, (out .migrationSwitch (g 4096)).spr.mig = none,
      Tab.get none (out .migrationSwitch (g 4096)).spr.bindC 3 = some 256] : List Bool).all id = true := by decide +kernel

/-- Unlocking: each instruction of the chain, a challenge, responses with and without one. -/
theorem test_Unlocking_witness :
    let s : State := { live with ks := { live.ks with debugPolicy := 1 } }
    let dr (n : Nat) : BitVec 1608 := BitVec.ofNat 1608 n
    let one := out (.dbgChainUpdate (dr 1)) s
    ([s.dbgLevel = 1, (out (.dbgChainUpdate (dr 0)) one).dbg.chain = [], one.dbg.chain.length = 1, (out (.dbgChainUpdate (dr 2)) one).dbg.chain.length = 2,
      (out (.dbgChainUpdate (dr 3)) (out (.dbgChainUpdate (dr 2)) one)).dbg.chain.length = 3, s.dbg.nonceRead = false, (out .dbgChalRead s).dbg.nonceRead,
      s.fld .SYS_DBG 0 1 0 = 0, (out (.dbgRespUpdate 0) s).dbg.response = some (0, none),
      answers (.dbgRespUpdate 0) (s.setReg .SYS_DBG 0 3) (s.setReg .SYS_DBG 0 3), (out .debugUnlockCheck (out (.dbgRespUpdate 0) s)).fld .SYS_DBG 0 1 0 = 1,
      { live with ks := { live.ks with debugPolicy := 2 } }.dbgLevel = 2, (out (.dbgRespUpdate 0) (out .dbgChalRead s)).dbg.response.isSome] :
      List Bool).all id = true := by decide +kernel

/-- DebugAccesses: refused and answered; a core halted, waiting for a load, read, written and resumed. -/
theorem test_DebugAccesses_witness :
    let no : State := { runner with ks := { runner.ks with debugPolicy := 2 } }
    let h := out (.debugHalt 8 1) runner
    ([runner.dbgLevel = 0, answers (.debugHalt 8 1) no { no with dbg := { no.dbg with status := 2 } }, (h.core 8).run = .halted, (runner.core 8).loadWait = none,
      (out (.debugCoreAccess 8 1 true 0x55) h).rg 8 1 = 0x55, ((out (.debugCoreAccess 8 0xFF true 0) h).core 8).run = .running, (h.core 8).haltedFrom = .running,
      (out (.debugCoreAccess 8 40 false 0) h).resp.data = (0x0800 : W64), (out (.debugCoreAccess 8 72 false 0) h).resp.data = 0x0600, specWide 8,
      (out (.debugCoreAccess 8 1 false 0) runner).dbg.status = 2, (out (.debugPhysicalAccess 0xC000020 true 0x1234) runner).resp.ok,
      (out (.debugPhysicalAccess 0xC000020 false 0) (out (.debugPhysicalAccess 0xC000020 true 0x1234) runner)).resp.data = 0x1234,
      (out (.debugPhysicalAccess 0xF0000000 false 0) runner).resp.ok = false] : List Bool).all id = true := by decide +kernel

/-! ### The whole machine -/

/-- Registers: a core on its task path, in a window that exists. -/
theorem test_Registers_witness : ([(runner.core 8).path = .task, (runner.core 8).cwp < nwin 8, (runner.wr 8 9 7).rg 8 9 = 7,
    ((runner.wr 8 25 7).modCore 8 fun k => { k with cwp := 1 }).rg 8 9 = 7] : List Bool).all id = true := by decide +kernel

/-- StepKeepsLegal, StepRunsFront, ResetIsLegal, ResetValues: a legal state with a command in front, whose step answers a legal state. -/
theorem test_StepKeepsLegal_witness :
    let ok (s : State) : Bool := s.mem.wf && (List.finRange 12).all fun c => Core.legal c (s.core c)
    let s : State := { runner with pending := [.movi 8 3 5] }
    (ok s && match step s with
      | .next t => ok t && decide (t.pending = []) && decide (t.rg 8 3 = 5)
      | _ => false) = true := by decide +kernel

/-- QuietCommands: two of its commands answer next states. -/
theorem test_QuietCommands_witness : (out .ceWindowExpiry { cLive with tiles := [(3, { ceWindow := 4 })] }).tiles = [] ∧
    (match exec (.listEntryStart 3) live with
      | .next _ => true
      | _ => false) = true := by decide +kernel

/-! ### Words of the hod opcode map (R253 to R256, R266), written out from the formats -/

/-- OP 0x04 to 0x2F: RR, RI, M and MM; an odd register where an even one is required spells nothing. -/
theorem test_hod_words_low : decodeHod 8 0x1064 0 = some (.add 8 3 4) ∧ decodeHod 8 0x587F 0 = some (.movi 8 3 31) ∧
    decodeHod 8 0x7485 0 = some (.mulw 8 4 5) ∧ decodeHod 8 0x7465 0 = none ∧ decodeHod 8 0xAC65 0 = some (.ld 8 3 2 true) ∧
    decodeHod 8 0xBC8C 0 = some (.movm 8 2 3) ∧ decodeHod 8 0xBC8F 0 = none ∧ decodeHod 8 0x0405 0 = some (.gate 8 5) ∧
    decodeHod 8 0x0861 0 = some (.mfs 8 3 1) ∧ decodeHod 8 0x0C23 0 = some (.mts 8 1 3) := by decide +kernel

/-- OP 0x31 to 0x3F: displacements, IMM16, B, J, VX, VWAIT and CAS; a reserved field that is not 0 spells nothing. -/
theorem test_hod_words_high : decodeHod 8 0xC464 0xFFFE = some (.ldd 8 3 2 0xFFFE) ∧ decodeHod 8 0xD860 0x1234 = some (.movw 8 3 0x1234) ∧
    decodeHod 8 0xDC8C 0 = some (.addp 8 2 3) ∧ decodeHod 8 0xE07F 0 = some (.brs 8 1 63) ∧ decodeHod 8 0xE440 7 = some (.br 8 1 7) ∧
    decodeHod 8 0xE441 7 = none ∧ decodeHod 8 0xE801 2 = some (.jmp 8 0x10002) ∧ decodeHod 8 0xF064 7 = some (.vx 8 3 2 7) ∧
    decodeHod 8 0xF064 16 = none ∧ decodeHod 8 0xF464 0 = some (.vwait 8 3 4) ∧ decodeHod 8 0xF864 6 = some (.cas 8 3 6 2) ∧
    decodeHod 8 0xFC00 0 = none := by decide +kernel

/-- The SYS group: NOP, JMPR, TLBI, RFI and a repeated load. -/
theorem test_hod_words_sys : decodeHod 8 0 0 = some (.nop 8) ∧ decodeHod 8 1 0 = none ∧ decodeHod 8 0x0224 0 = some (.jmpr 8 2) ∧
    decodeHod 8 0x0284 1 = some (.tlbi 8 2 1) ∧ decodeHod 8 0x0284 4 = none ∧ decodeHod 8 0x0140 0 = some (.rfi 8) ∧
    decodeHod 8 0x0203 0xAC85 = some (.rep 8 3 (.ld 4 2) none) := by decide +kernel

end Sys2Proof.Tests
end

section
/-! SUPPORT. Reasoning rules for the instructions of a hod core: the core written and read, the registers that a list of writes
leaves, the flags that a list of bits sets, and how an instruction that issues completes. -/

namespace Sys2Proof.Machine

open Sys2Proof

/-! ### Bits of a word -/

/-- A number with its bit b replaced by n, split at bit b. -/
theorem replaceBit_eq (x b n : Nat) :
    x - x / 2 ^ b % 2 * 2 ^ b + n * 2 ^ b = 2 ^ b * (2 * (x / 2 ^ b / 2) + n) + x % 2 ^ b := by
  have hx := Nat.div_add_mod x (2 ^ b)
  have hq := Nat.div_add_mod (x / 2 ^ b) 2
  generalize x / 2 ^ b % 2 = r at *
  have hx' : x = 2 ^ b * (2 * (x / 2 ^ b / 2)) + r * 2 ^ b + x % 2 ^ b := by
    conv_lhs => rw [← hx, ← hq]
    ring
  rw [mul_add, mul_comm n]
  omega

/-- A bit put into a word is read there, and every other bit is as before. -/
theorem getLsbD_putBit (w : Word) (b i : Nat) (v : Bool) (hb : b < 16) :
    (putBit w b v).getLsbD i = if i = b then v else w.getLsbD i := by
  have hlow : w.toNat % 2 ^ b < 2 ^ b := Nat.mod_lt _ (by positivity)
  have hw : w.toNat = 2 ^ b * (w.toNat / 2 ^ b) + w.toNat % 2 ^ b := (Nat.div_add_mod _ _).symm
  have hput : (putBit w b v).toNat = (2 ^ b * (2 * (w.toNat / 2 ^ b / 2) + b2n v) + w.toNat % 2 ^ b) % 2 ^ 16 := by
    rw [putBit, putFld_toNat, Nat.add_sub_cancel_left, ← replaceBit_eq]
    cases v <;> rfl
  rw [BitVec.getLsbD, BitVec.getLsbD, hput, Nat.testBit_mod_two_pow, Nat.testBit_two_pow_mul_add _ hlow]
  rcases Nat.lt_trichotomy i b with h | h | h
  · rw [hw, Nat.testBit_two_pow_mul_add _ hlow]
    have h16 : i < 16 := by omega
    simp [h, h16, h.ne]
  · cases v <;> simp [h, hb, b2n]
  · rw [if_neg h.not_gt, if_neg h.ne']
    obtain ⟨j, rfl⟩ := Nat.exists_eq_add_of_lt h
    have hj : b + j + 1 - b = j + 1 := by omega
    have hdiv : (2 * (w.toNat / 2 ^ b / 2) + b2n v) / 2 = w.toNat / 2 ^ b / 2 := by cases v <;> simp [b2n]; omega
    rw [hj, Nat.testBit_succ, hdiv, ← Nat.testBit_succ, Nat.testBit_div_two_pow]
    by_cases h16 : b + j + 1 < 16
    · rw [decide_eq_true h16, Bool.true_and, Nat.succ_eq_add_one, Nat.add_comm, ← Nat.add_assoc]
    · have hz : w.toNat.testBit (b + j + 1) = false :=
        Nat.testBit_lt_two_pow (lt_of_lt_of_le w.isLt (Nat.pow_le_pow_right (by decide) (by omega)))
      simp [h16, hz]

/-- Bit i of a status word after flags are written. -/
theorem wbit_putBit (w : Word) (b i : Nat) (v : Bool) (hb : b < 16) : wbit (putBit w b v) i = if i = b then v else wbit w i :=
  getLsbD_putBit w b i v hb

/-! ### Flags (R251, R258) -/

/-- The update of PSW that writes the flags of a list. -/
def updOf (fl : List (Nat × Bool)) : Upd := { mask := flagMask fl, val := flagged 0 fl }

/-- One flag more. -/
theorem put_on (u : Upd) (w : Word) (b : Nat) (v : Bool) (hb : b < 16) : (u.put b v).on w = putBit (u.on w) b v := by
  apply BitVec.eq_of_getLsbD_eq
  intro i hi
  simp only [Upd.on, Upd.put, BitVec.getLsbD_or, BitVec.getLsbD_and, BitVec.getLsbD_not, getLsbD_putBit _ _ _ _ hb, hi]
  by_cases h : i = b <;> simp [h]

/-- A word masked with the complement of 0. -/
theorem and_not_zero (w : Word) : w &&& ~~~0 = w := BitVec.and_allOnes

/-- The empty update leaves PSW. -/
theorem nil_on (w : Word) : ({} : Upd).on w = w := by
  show (w &&& ~~~0) ||| (0 &&& 0) = w
  rw [and_not_zero]
  exact BitVec.or_zero

/-- The update of a list one flag longer. -/
theorem updOf_append (fl : List (Nat × Bool)) (b : Nat) (v : Bool) : updOf (fl ++ [(b, v)]) = (updOf fl).put b v := by
  simp [updOf, flagMask, flagged, Upd.put]

/-- The update of a list of flags sets them one after the other. -/
theorem updOf_on (w : Word) (fl : List (Nat × Bool)) (h : ∀ e ∈ fl, e.1 < 16) : (updOf fl).on w = flagged w fl := by
  induction fl using List.reverseRecOn with
  | nil => exact nil_on w
  | append_singleton fl e ih =>
    obtain ⟨b, v⟩ := e
    have hb : b < 16 := h (b, v) (by simp)
    rw [updOf_append, put_on _ _ _ _ hb, ih fun e he => h e (by simp [he])]
    simp [flagged]

/-! ### The state with a core replaced -/

/-- The last replacement of a core holds. -/
@[simp] theorem setCore_setCore (s : State) (c : CoreId) (k l : Core) : (s.setCore c k).setCore c l = s.setCore c l := by
  simp [State.setCore]

/-- A core replaced by itself. -/
@[simp] theorem setCore_core (s : State) (c : CoreId) : s.setCore c (s.core c) = s := by
  simp [State.setCore, State.core]

/-- One change of a core after another. -/
theorem modCore_modCore (s : State) (c : CoreId) (f g : Core → Core) : (s.modCore c f).modCore c g = s.modCore c fun k => g (f k) := by
  simp [State.modCore]

/-- A change that leaves the core. -/
theorem modCore_eq_self (s : State) (c : CoreId) {f : Core → Core} (h : f (s.core c) = s.core c) : s.modCore c f = s := by
  rw [State.modCore, h, setCore_core]

/-- Equal cores, equal states. -/
theorem modCore_congr (s : State) (c : CoreId) {f g : Core → Core} (h : f (s.core c) = g (s.core c)) : s.modCore c f = s.modCore c g := by
  simp [State.modCore, h]

@[simp] theorem core_past (s : State) (c : CoreId) (n : Nat) :
    (s.past c n).core c = { s.core c with pc := (s.core c).pc + BitVec.ofNat 32 n } := core_setCore s c _

/-! ### Physical registers (R246, R247) -/

/-- Every register but g0 has a physical register. -/
theorem phys_isSome (k : Core) (c : CoreId) (r : Reg) (h : r ≠ 0) : ∃ p, k.phys c r.toNat = some p := by
  have h0 : r.toNat ≠ 0 := fun e => h (BitVec.eq_of_toNat_eq e)
  unfold Core.phys
  rw [if_neg h0]
  repeat' split
  all_goals exact ⟨_, rfl⟩

/-- A register reads its physical register. -/
theorem rg_of_phys (s : State) (c : CoreId) (r : Reg) (p : Nat) (h : (s.core c).phys c r.toNat = some p) :
    s.rg c r = (s.core c).preg p := by
  unfold State.rg
  rw [h]

/-- The core with a list of physical registers written, in order. -/
def Core.setPregs (k : Core) (l : List (Nat × Word)) : Core := l.foldl (fun k e => k.setPreg e.1 e.2) k

/-- Writes of physical registers change the registers and DIRTY alone. -/
theorem setPregs_eq (k : Core) (l : List (Nat × Word)) :
    k.setPregs l = { k with
      regs := l.foldl (fun t e => Tab.set 0 e.1 e.2 t) k.regs, dirty := l.foldl (fun d e => dirtyOn d e.1) k.dirty } := by
  induction l generalizing k with
  | nil => rfl
  | cons e l ih => exact ih (k.setPreg e.1 e.2)

/-- A physical register that the list does not name keeps its value. -/
theorem preg_setPregs_of_not_mem (k : Core) (l : List (Nat × Word)) (q : Nat) (h : q ∉ l.map Prod.fst) :
    (k.setPregs l).preg q = k.preg q := by
  induction l generalizing k with
  | nil => rfl
  | cons e l ih =>
    rw [List.map_cons, List.mem_cons, not_or] at h
    obtain ⟨hq, hl⟩ := h
    exact (ih (k.setPreg e.1 e.2) hl).trans (preg_setPreg_of_ne k e.1 q e.2 hq)

/-- A physical register that the list names once holds the value written. -/
theorem preg_setPregs_of_mem (k : Core) (l : List (Nat × Word)) (hl : (l.map Prod.fst).Nodup) (e : Nat × Word) (he : e ∈ l) :
    (k.setPregs l).preg e.1 = e.2 := by
  induction l generalizing k with
  | nil => cases he
  | cons a l ih =>
    rw [List.map_cons, List.nodup_cons] at hl
    obtain ⟨ha, hl⟩ := hl
    rcases List.mem_cons.1 he with rfl | he
    · exact (preg_setPregs_of_not_mem (k.setPreg e.1 e.2) l e.1 ha).trans (preg_setPreg k e.1 e.2)
    · exact ih (k.setPreg a.1 a.2) hl he

/-! ### Lists of register writes -/

/-- The physical writes that writes of registers as core c names them stand for; a write of g0 stands for none. -/
def Core.named (k : Core) (c : CoreId) (l : List (Reg × Word)) : List (Nat × Word) :=
  l.filterMap fun e => (k.phys c e.1.toNat).map fun p => (p, e.2)

/-- A list of registers written, in order. -/
def State.wrs (s : State) (c : CoreId) (l : List (Reg × Word)) : State := l.foldl (fun s e => s.wr c e.1 e.2) s

/-- A register written is its physical register written. -/
theorem wr_eq_setPregs (s : State) (c : CoreId) (r : Reg) (v : Word) :
    s.wr c r v = s.modCore c fun k => k.setPregs ((s.core c).named c [(r, v)]) := by
  unfold State.wr Core.named
  cases h : (s.core c).phys c r.toNat with
  | none => simp [h, State.modCore, Core.setPregs]
  | some p => simp [h, State.wrPhys, Core.setPregs]

/-- Writes of physical registers leave the naming of registers. -/
@[simp] theorem phys_setPregs (k : Core) (l : List (Nat × Word)) (c : CoreId) (r : Nat) : (k.setPregs l).phys c r = k.phys c r := by
  rw [setPregs_eq]; rfl

@[simp] theorem named_setPregs (k : Core) (m : List (Nat × Word)) (c : CoreId) (l : List (Reg × Word)) :
    (k.setPregs m).named c l = k.named c l := by simp [Core.named]

/-- A list of registers written is the list of their physical registers written. -/
theorem wrs_eq_setPregs (s : State) (c : CoreId) (l : List (Reg × Word)) :
    s.wrs c l = s.modCore c fun k => k.setPregs ((s.core c).named c l) := by
  induction l generalizing s with
  | nil => simp [State.wrs, Core.named, Core.setPregs, State.modCore]
  | cons e l ih =>
    have happ : (s.core c).named c (e :: l) = (s.core c).named c [e] ++ (s.core c).named c l :=
      List.filterMap_append (l := [e]) (l' := l)
    calc s.wrs c (e :: l) = (s.wr c e.1 e.2).wrs c l := rfl
      _ = _ := by
        rw [ih, wr_eq_setPregs, modCore_modCore, core_modCore, named_setPregs, happ]
        simp [Core.setPregs]

/-- DIRTY after a list of registers and a status word are written, by the physical registers of the list. -/
theorem dirtyAfter_eq (k : Core) (c : CoreId) (l : List (Reg × Word)) (w : Word) :
    dirtyAfter k c (l.map Prod.fst) w =
      if w = k.psw then (k.named c l).foldl (fun d e => dirtyOn d e.1) k.dirty
      else putBit ((k.named c l).foldl (fun d e => dirtyOn d e.1) k.dirty) 14 true := by
  have hfold : (k.named c l).foldl (fun d e => dirtyOn d e.1) k.dirty =
      (l.map Prod.fst).foldl (fun d r => match k.phys c r.toNat with
        | some p => dirtyOn d p
        | none => d) k.dirty := by
    generalize k.dirty = d
    induction l generalizing d with
    | nil => rfl
    | cons e l ih =>
      cases h : k.phys c e.1.toNat with
      | none => simpa [Core.named, h] using ih d
      | some p => simpa [Core.named, h] using ih (dirtyOn d p)
  rw [hfold]
  rfl

/-! ### Flags of a core -/

/-- PSW replaced sets DIRTY.S where it changes, and nothing else. -/
theorem spec_psw (k : Core) (f : Core → Word) :
    k.spec (fun k => { k with psw := f k }) =
      { k with psw := f k, dirty := if f k = k.psw then k.dirty else putBit k.dirty 14 true } := by
  unfold Core.spec
  by_cases h : f k = k.psw <;> simp [h]

/-- A younger instruction's flags change the long operation in flight alone. -/
theorem younger_eq (k : Core) (m : Word) : k.younger m = { k with longOp := (k.younger m).longOp } := by
  unfold Core.younger Core.youngerOf
  repeat' split
  all_goals rfl

/-- What a younger instruction leaves of the long operation in flight follows from that operation and the running path. -/
theorem younger_longOp_congr (k l : Core) (m : Word) (ho : k.longOp = l.longOp) (hp : k.path = l.path) :
    (k.younger m).longOp = (l.younger m).longOp := by
  unfold Core.younger Core.youngerOf
  rw [ho, hp]
  cases h : l.longOp with
  | none => exact ho
  | some o => by_cases hop : o.path = l.path <;> simp [hop, ho]

/-- A younger instruction that writes no flag leaves the long operation in flight. -/
theorem younger_zero (k : Core) : k.younger 0 = k := by
  unfold Core.younger Core.youngerOf
  split
  · next o ho => rw [and_not_zero, ← ho, ite_self]
  · rfl

/-- What flags written change of a core. -/
theorem flags_eq (s : State) (c : CoreId) (u : Upd) :
    s.flags c u = s.modCore c fun k =>
      { k with longOp := (k.younger u.mask).longOp, psw := u.on k.psw
               dirty := if u.on k.psw = k.psw then k.dirty else putBit k.dirty 14 true } := by
  unfold State.flags State.setPsw State.modSpec State.psw
  rw [modCore_modCore]
  apply modCore_congr
  rw [spec_psw, younger_eq]

/-- No flags written leave the state. -/
theorem flags_nil (s : State) (c : CoreId) : s.flags c {} = s := by
  rw [flags_eq]
  apply modCore_eq_self
  rw [nil_on, show ({} : Upd).mask = 0 from rfl, younger_zero, if_pos rfl]

/-! ### What an instruction writes -/

/-- The physical registers named by writes of an instruction are those of its registers. -/
theorem mem_named (k : Core) (c : CoreId) (l : List (Reg × Word)) (p : Nat) (v : Word) :
    (p, v) ∈ k.named c l ↔ ∃ r, (r, v) ∈ l ∧ k.phys c r.toNat = some p := by
  simp [Core.named]

/-- A core after an instruction of n words that writes registers and flags. -/
def Core.ran (k : Core) (c : CoreId) (n : Nat) (l : List (Reg × Word)) (fl : List (Nat × Bool)) : Core :=
  { k with
    regs := (k.setPregs (k.named c l)).regs, dirty := dirtyAfter k c (l.map Prod.fst) (flagged k.psw fl)
    longOp := (k.younger (flagMask fl)).longOp, psw := flagged k.psw fl, pc := k.pc + BitVec.ofNat 32 n }

/-- What an instruction that moves the pc, writes registers and then flags changes of a core. -/
theorem past_wrs_flags_eq (s : State) (c : CoreId) (n : Nat) (l : List (Reg × Word)) (fl : List (Nat × Bool)) (hfl : ∀ e ∈ fl, e.1 < 16) :
    ((s.past c n).wrs c l).flags c (updOf fl) = s.setCore c ((s.core c).ran c n l fl) := by
  let k := (s.past c n).core c
  have hop : (k.setPregs (k.named c l)).longOp = (s.core c).longOp := by simp only [k, setPregs_eq, core_past]
  have hpath : (k.setPregs (k.named c l)).path = (s.core c).path := by simp only [k, setPregs_eq, core_past]
  have hlong := younger_longOp_congr _ (s.core c) (flagMask fl) hop hpath
  rw [flags_eq, wrs_eq_setPregs, modCore_modCore]
  dsimp only [State.modCore]
  rw [updOf_on _ _ hfl, show (updOf fl).mask = flagMask fl from rfl, hlong, setPregs_eq, core_past, State.past, setCore_setCore,
    Core.ran, dirtyAfter_eq, setPregs_eq]
  rfl

/-- An instruction that moves the pc, writes registers with distinct physical numbers and then flags, does what Ran says. -/
theorem ran_wrs_flags (s : State) (c : CoreId) (n : Nat) (l : List (Reg × Word)) (fl : List (Nat × Bool))
    (hl : (((s.core c).named c l).map Prod.fst).Nodup) (hfl : ∀ e ∈ fl, e.1 < 16) :
    Ran s (((s.past c n).wrs c l).flags c (updOf fl)) c n l fl := by
  rw [past_wrs_flags_eq s c n l fl hfl]
  refine ⟨fun e he => ?_, fun q hq => ?_, by rw [core_setCore]; rfl⟩
  · obtain ⟨r, v⟩ := e
    by_cases hr : r = 0
    · subst hr
      exact (rg_zero _ c).trans (if_pos rfl).symm
    · obtain ⟨p, hp⟩ := phys_isSome (s.core c) c r hr
      have hphys : ((s.setCore c ((s.core c).ran c n l fl)).core c).phys c r.toNat = some p := by
        rw [core_setCore]
        exact hp
      rw [if_neg hr, rg_of_phys _ c r p hphys, core_setCore]
      exact preg_setPregs_of_mem (s.core c) _ hl (p, v) ((mem_named (s.core c) c l p v).2 ⟨r, he, hp⟩)
  · rw [core_setCore]
    refine preg_setPregs_of_not_mem (s.core c) _ q fun hm => ?_
    obtain ⟨⟨p, v⟩, hmem, rfl⟩ := List.mem_map.1 hm
    obtain ⟨r, hr, hp⟩ := (mem_named (s.core c) c l p v).1 hmem
    exact hq (r, v) hr hp

/-- The same for an instruction that writes registers alone. -/
theorem ran_wrs (s : State) (c : CoreId) (n : Nat) (l : List (Reg × Word)) (hl : (((s.core c).named c l).map Prod.fst).Nodup) :
    Ran s ((s.past c n).wrs c l) c n l [] := by
  have h := ran_wrs_flags s c n l [] hl (by simp)
  rwa [show updOf [] = {} from rfl, flags_nil] at h

/-- The same for one register and flags. -/
theorem ran_alu (s : State) (c : CoreId) (n : Nat) (rd : Reg) (r : Word) (fl : List (Nat × Bool)) (hfl : ∀ e ∈ fl, e.1 < 16) :
    Ran s ((s.past c n).alu c rd (r, updOf fl)) c n [(rd, r)] fl := by
  refine ran_wrs_flags s c n [(rd, r)] fl ?_ hfl
  cases h : (s.core c).phys c rd.toNat <;> simp [Core.named, h]

/-- The same for flags alone. -/
theorem ran_flags (s : State) (c : CoreId) (n : Nat) (fl : List (Nat × Bool)) (hfl : ∀ e ∈ fl, e.1 < 16) :
    Ran s ((s.past c n).flags c (updOf fl)) c n [] fl := ran_wrs_flags s c n [] fl List.nodup_nil hfl

/-! ### Pairs (R246, R249) -/

/-- A physical register is odd where the number that names it is: windows and banks begin at even numbers. -/
theorem phys_parity (k : Core) (c : CoreId) (r p : Nat) (h : k.phys c r = some p) : p % 2 = r % 2 := by
  unfold Core.phys localReg argReg at h
  split at h
  · cases h
  · split at h
    · split at h <;> cases h
      · next hw =>
        have h16 : 16 ≤ r := of_decide_eq_true (Bool.and_eq_true_iff.1 hw).2
        split <;> omega
      · omega
    · cases h
      omega
    all_goals
      cases h
      (repeat' split) <;> omega

/-- The registers of a pair have distinct physical registers. -/
theorem phys_pair_ne (k : Core) (c : CoreId) (p : PairIx) (a b : Nat) (ha : k.phys c (evenReg p).toNat = some a)
    (hb : k.phys c (oddReg p).toNat = some b) : a ≠ b := by
  have hp := p.isLt
  have he : (evenReg p).toNat = 2 * p.toNat := by simp [evenReg]; omega
  have ho : (oddReg p).toNat = 2 * p.toNat + 1 := by simp [oddReg]; omega
  have hea := phys_parity k c _ a ha
  have hob := phys_parity k c _ b hb
  omega

/-- The physical registers of a pair are listed once. -/
theorem named_pair_nodup (k : Core) (c : CoreId) (p : PairIx) (v w : Word) :
    ((k.named c [(evenReg p, v), (oddReg p, w)]).map Prod.fst).Nodup := by
  have hne := phys_pair_ne k c p
  cases ha : k.phys c (evenReg p).toNat <;> cases hb : k.phys c (oddReg p).toNat <;> simp [Core.named, ha, hb]
  exact hne _ _ ha hb

/-- An instruction that writes a pair alone does what Ran says. -/
theorem ran_wrp (s : State) (c : CoreId) (n : Nat) (p : PairIx) (v : W32) :
    Ran s ((s.past c n).wrp c p v) c n (pairWrite p v) [] := ran_wrs s c n (pairWrite p v) (named_pair_nodup _ c p _ _)

/-- The pair of an even register. -/
@[simp] theorem pairAt_evenReg (p : PairIx) : pairAt (evenReg p) = p := by
  have hp := p.isLt
  apply BitVec.eq_of_toNat_eq
  simp [pairAt, evenReg]
  omega

/-- An even register is one. -/
theorem evenOnly_evenReg (p : PairIx) (body : State → Option Trap × State) : evenOnly (evenReg p) body = body := by
  have h : (evenReg p).getLsbD 0 = false := by simp [evenReg, BitVec.getLsbD]
  funext s
  rw [evenOnly, h]
  rfl

/-! ### Operands read behind the pc -/

@[simp] theorem rg_past (s : State) (c : CoreId) (n : Nat) (r : Reg) : (s.past c n).rg c r = s.rg c r := by
  unfold State.rg
  rw [core_past]
  rfl

@[simp] theorem pr_past (s : State) (c : CoreId) (n : Nat) (p : PairIx) : (s.past c n).pr c p = s.pr c p := by simp [State.pr]

@[simp] theorem psw_past (s : State) (c : CoreId) (n : Nat) : (s.past c n).psw c = s.psw c := by
  unfold State.psw
  rw [core_past]

@[simp] theorem cFlag_past (s : State) (c : CoreId) (n : Nat) : (s.past c n).cFlag c = wbit (s.psw c) 1 := by simp [State.cFlag]

/-! ### Instructions that issue -/

/-- An instruction that has issued and does not trap leaves what its effect leaves. -/
theorem hod_of_issue {s s1 t : State} {c : CoreId} {len : Nat} {u : Uses} {body : State → Option Trap × State}
    (hi : s.hodIssue c len u = (true, s1)) (hb : body (s1.past c len) = (none, t)) : s.hod c len u body = t := by
  unfold State.past at hb
  simp only [State.hod, hi, State.modCore, hb]

/-- An instruction that has issued and traps takes the trap at its own address. -/
theorem hod_of_trap {s s1 t : State} {c : CoreId} {len : Nat} {u : Uses} {body : State → Option Trap × State} {e : Trap}
    (hi : s.hodIssue c len u = (true, s1)) (hb : body (s1.past c len) = (some e, t)) :
    s.hod c len u body = t.takeTrap c (s1.core c).pc e := by
  unfold State.past at hb
  simp only [State.hod, hi, State.modCore, hb]

/-- An instruction that never traps completes with its effect behind the pc. -/
theorem does_of_quiet {i : Instr} {c : CoreId} {len : Nat} {u : Uses} {f : State → State} {post : State → State → Prop}
    (hexec : ∀ s, exec i s = .next (s.hod c len u (quiet f))) (hpost : ∀ s, post s (f (s.past c len))) : Does i c len u post :=
  fun s s1 hi => ⟨f (s1.past c len), (hexec s).trans (congrArg _ (hod_of_issue (body := quiet f) hi rfl)), hpost s1⟩

end Sys2Proof.Machine
end

section
/-! SUPPORT. DAJ, digit by digit (R263). -/

namespace Sys2Proof.Machine

open Sys2Proof

/-- The internal carry into digit i of DAJ and the word so far. -/
def dajAt (w psw : Word) (i : Nat) : Bool × Nat := (upto i).foldl (dajDigit w psw) (false, 0)

/-- Digit i of DAJ before its reduction modulo 16. -/
def dajSum (w psw : Word) (i : Nat) : Nat :=
  let t := digit w i + b2n (dajAt w psw i).1
  if (if i < 3 then wbit psw (5 + i) else wbit psw 1) || 9 < t then t + 6 else t

/-- One digit more. -/
theorem dajAt_succ (w psw : Word) (i : Nat) :
    dajAt w psw (i + 1) =
      (!(if i < 3 then wbit psw (5 + i) else wbit psw 1) && decide (15 < dajSum w psw i),
        (dajAt w psw i).2 + dajSum w psw i % 16 * 16 ^ i) := by
  simp only [dajAt, upto, List.range_succ, List.foldl_append]
  rfl

/-- The word so far has i digits. -/
theorem dajAt_lt (w psw : Word) (i : Nat) : (dajAt w psw i).2 < 16 ^ i := by
  induction i with
  | zero => exact Nat.one_pos
  | succ i ih =>
    have hd : dajSum w psw i % 16 < 16 := Nat.mod_lt _ (by decide)
    rw [dajAt_succ, pow_succ]
    dsimp only
    have hm : dajSum w psw i % 16 * 16 ^ i ≤ 15 * 16 ^ i := Nat.mul_le_mul_right _ (by omega)
    omega

/-- Digit i of the word so far is the sum of that digit modulo 16. -/
theorem dajAt_digit (w psw : Word) (n i : Nat) (hi : i < n) : (dajAt w psw n).2 / 16 ^ i % 16 = dajSum w psw i % 16 := by
  induction n with
  | zero => omega
  | succ n ih =>
    rw [dajAt_succ]
    dsimp only
    rcases Nat.lt_succ_iff_lt_or_eq.1 hi with h | rfl
    · rw [← ih h]
      obtain ⟨j, rfl⟩ := Nat.exists_eq_add_of_lt h
      have hpow : 16 ^ (i + j + 1) = 16 ^ i * (16 * 16 ^ j) := by ring
      rw [hpow, mul_left_comm, Nat.add_mul_div_left _ _ (by positivity), mul_left_comm, Nat.add_mul_mod_self_left]
    · rw [Nat.add_mul_div_right _ _ (by positivity), Nat.div_eq_of_lt (dajAt_lt w psw i)]
      omega

/-- The digits of the result of DAJ. -/
theorem digit_dajOf (w psw : Word) (i : Nat) (hi : i < 4) : digit (dajOf w psw).1 i = dajSum w psw i % 16 := by
  have hlt : (dajAt w psw 4).2 < 2 ^ 16 := dajAt_lt w psw 4
  have hr : (dajOf w psw).1.toNat = (dajAt w psw 4).2 := (BitVec.toNat_ofNat _ _).trans (Nat.mod_eq_of_lt hlt)
  rw [digit, hr, dajAt_digit w psw 4 i hi]

/-- Settles O1: the carry k i is the one that the fold of dajOf holds before digit i. -/
theorem hodDaj : Obligations.HodDaj := by
  intro c rd
  refine does_of_quiet (fun _ => rfl) fun s => ?_
  rw [rg_past, psw_past]
  refine ⟨fun i => (dajAt (s.rg c rd) (s.psw c) i).1, (dajOf (s.rg c rd) (s.psw c)).1, rfl, fun i hi => ?_, ?_⟩
  · dsimp only
    rw [digit_dajOf _ _ i hi, dajAt_succ]
    simp only [dajSum, Bool.or_eq_true, decide_eq_true_eq, and_self]
  · exact ran_alu s c 1 rd _ [(1, _), (2, _)] (by simp)

end Sys2Proof.Machine
end

section
/-! SUPPORT. Multiply and divide enter the long unit (R258, R261, R278). -/

namespace Sys2Proof.Machine

open Sys2Proof

/-- What enters the long unit behind the pc is what Issued says. -/
theorem issued_enterLong (s : State) (c : CoreId) (l : List (Reg × Word)) (fl : List (Nat × Bool)) :
    Issued s ((s.past c 1).enterLong c l (updOf fl)) c l fl := by
  have hpc : (s.core c).pc + 1#32 - 1 = (s.core c).pc := BitVec.add_sub_cancel _ _
  unfold Issued State.enterLong State.modCore
  rw [core_past, State.past, setCore_setCore]
  dsimp only
  rw [hpc]
  rfl

/-- A long operation of one destination. -/
theorem does_long1 {i : Instr} {c : CoreId} {rd rs : Reg} {f : Word → Word → Word × Upd} {r : State → Word}
    {fl : State → List (Nat × Bool)} (hexec : ∀ s, exec i s = .next (s.long1 c rd rs f))
    (hf : ∀ s, f (s.rg c rd) (s.rg c rs) = (r s, updOf (fl s))) :
    Does i c 1 { regs := [rd, rs], all := true } fun s t => Issued s t c [(rd, r s)] (fl s) := by
  refine does_of_quiet hexec fun s => ?_
  rw [rg_past, rg_past, hf]
  exact issued_enterLong s c _ _

/-- A long operation of a pair. -/
theorem does_longW {i : Instr} {c : CoreId} {p : PairIx} {rs : Reg} {sgn : Bool} {m : State → W32}
    (hexec : ∀ s, exec i s = .next (s.longW c (evenReg p) rs sgn))
    (hf : ∀ s, (mulwOf sgn (s.rg c (oddReg p)) (s.rg c rs)).1 = m s) :
    Does i c 1 { regs := rs :: pairRegs p, all := true } fun s t =>
      Issued s t c (pairWrite p (m s)) [(2, decide (m s = 0)), (3, (m s).msb), (4, false)] := by
  refine does_of_quiet (fun s => by rw [hexec, State.longW, evenOnly_evenReg, pairAt_evenReg]) fun s => ?_
  dsimp only
  rw [rg_past, rg_past, ← hf]
  exact issued_enterLong s c (pairWrite p _) [(2, _), (3, _), (4, _)]

/-- Quotient, remainder and flags of the model's division are those of R261. -/
theorem divOf_eq (sgn : Bool) (n d : Int) (low : Word) : divOf sgn n d low = ((divRule sgn n d low).1, updOf (divRule sgn n d low).2) := by
  unfold divOf divRule outOf16
  rw [Int.tmod_def]
  dsimp only
  split
  · rfl
  · cases sgn
    · cases (decide (65535 < n.tdiv d)) <;> rfl
    · cases (decide (n.tdiv d < -32768) || decide (32767 < n.tdiv d)) <;> rfl

/-- A division. -/
theorem does_longDiv {i : Instr} {c : CoreId} {p : PairIx} {rs : Reg} {sgn wide : Bool} {n d : State → Int}
    (hexec : ∀ s, exec i s = .next (s.longDiv c (evenReg p) rs sgn wide))
    (hn : ∀ s, n s = if wide then (if sgn then (s.pr c p).toInt else (s.pr c p).toNat)
      else (if sgn then (s.rg c (oddReg p)).toInt else (s.rg c (oddReg p)).toNat))
    (hd : ∀ s, d s = if sgn then (s.rg c rs).toInt else (s.rg c rs).toNat) :
    Does i c 1 { regs := rs :: pairRegs p, all := true } fun s t =>
      let r := divRule sgn (n s) (d s) (s.rg c (oddReg p))
      Issued s t c [(oddReg p, r.1.1), (evenReg p, r.1.2)] r.2 := by
  refine does_of_quiet (fun s => by rw [hexec, State.longDiv, evenOnly_evenReg, pairAt_evenReg]) fun s => ?_
  dsimp only
  rw [rg_past, rg_past, pr_past, hn, hd, divOf_eq]
  exact issued_enterLong s c _ _

/-- A product of signed words as a product of words. -/
theorem ofInt_toInt_mul (n : Nat) (a b : BitVec n) : BitVec.ofInt n (a.toInt * b.toInt) = a * b := by
  rw [BitVec.ofInt_mul, BitVec.ofInt_toInt, BitVec.ofInt_toInt]

/-- MUL, MULH, MULHU, MULW, MULWU and the divisions. -/
theorem hodLong : Sys2Proof.Rules.HodLong := by
  intro c rd rs p
  refine ⟨?_, ?_, ?_, ?_, ?_, ?_, ?_, ?_, ?_⟩
  · exact does_long1 (fun _ => rfl) fun s => by rw [mulOf, ofInt_toInt_mul]; rfl
  · exact does_long1 (fun _ => rfl) fun s => rfl
  · exact does_long1 (fun _ => rfl) fun s => rfl
  · exact does_longW (fun _ => rfl) fun s => by simp [mulwOf, BitVec.ofInt_mul, BitVec.signExtend]
  · exact does_longW (fun _ => rfl) fun s => BitVec.eq_of_toNat_eq (by simp [mulwOf])
  · exact does_longDiv (wide := false) (fun _ => rfl) (fun _ => rfl) fun _ => rfl
  · exact does_longDiv (wide := false) (fun _ => rfl) (fun _ => rfl) fun _ => rfl
  · exact does_longDiv (wide := true) (fun _ => rfl) (fun _ => rfl) fun _ => rfl
  · exact does_longDiv (wide := true) (fun _ => rfl) (fun _ => rfl) fun _ => rfl

end Sys2Proof.Machine
end

section
/-! SUPPORT. Completion of a long operation (R275, R278, R280). -/

namespace Sys2Proof.Machine

open Sys2Proof

/-- On its own path a completed long operation leaves its registers, its flags, and an arithmetic exception if it raises one. -/
theorem completeLong_eq (s : State) (c : CoreId) (o : LongOp) (ho : (s.core c).longOp = some o) (hp : o.path = (s.core c).path) :
    let k := s.core c
    let psw := (k.psw &&& ~~~o.mask) ||| (o.val &&& o.mask)
    s.completeLong c = s.setCore c { k with
      regs := (k.setPregs o.dests).regs, longOp := none, psw := psw
      dirty := (let d := o.dests.foldl (fun d e => dirtyOn d e.1) k.dirty
                if psw = k.psw then d else putBit d 14 true)
      arith := k.arith ++ ((s.longCause c o).map fun x => ({ cause := x, addr := o.addr, path := o.path } : ArithPend)).toList } := by
  intro k psw
  let k1 : Core := ({ k with longOp := none } : Core).setPregs o.dests
  have hk1 : k1 = { k with
      regs := (k.setPregs o.dests).regs, longOp := none, dirty := o.dests.foldl (fun d e => dirtyOn d e.1) k.dirty } := by
    simp only [k1, setPregs_eq]
  have hland : k1.landFlags o =
      { k1 with psw := psw, dirty := if psw = k.psw then k1.dirty else putBit k1.dirty 14 true } := by
    have hpath : k1.path = o.path := by rw [hk1, hp]
    rw [Core.landFlags, if_pos hpath, spec_psw, hk1]
    rfl
  unfold State.completeLong State.modCore
  rw [ho]
  show s.setCore c { k1.landFlags o with arith := (k1.landFlags o).arith ++ _ } = _
  rw [hland, hk1]
  cases s.longCause c o <;> rfl

/-- The exception of a completed long operation: divide by zero before overflow, each where it is enabled (R280). -/
theorem longPend_eq (s : State) (c : CoreId) (o : LongOp) :
    ((s.longCause c o).map fun x => ({ cause := x, addr := o.addr, path := o.path } : ArithPend)).toList =
    if wbit o.val 8 ∧ s.bit (pipeCtl c).1 (pipeCtl c).2 15 then [{ cause := 0x12, addr := o.addr, path := o.path }]
    else if wbit o.val 4 ∧ s.bit (pipeCtl c).1 (pipeCtl c).2 14 then [{ cause := 0x13, addr := o.addr, path := o.path }]
    else [] := by
  unfold State.longCause State.bit
  by_cases h8 : wbit o.val 8 = true ∧ wbit (s.reg (pipeCtl c).1 (pipeCtl c).2) 15 = true
  · simp [h8]
  · by_cases h4 : wbit o.val 4 = true ∧ wbit (s.reg (pipeCtl c).1 (pipeCtl c).2) 14 = true
    · simp [h8, h4]
    · simp [h8, h4]

/-- LONG_OP_COMPLETE on the path that issued the operation. -/
theorem longCompletion : Sys2Proof.Rules.LongCompletion := by
  intro s c o ho hp hnodup psw
  refine ⟨s.completeLong c, rfl, ?_⟩
  rw [completeLong_eq s c o ho hp, longPend_eq, core_setCore]
  refine ⟨fun e he => ?_, fun q hq => ?_, rfl⟩
  · exact preg_setPregs_of_mem (s.core c) o.dests hnodup e he
  · exact preg_setPregs_of_not_mem (s.core c) o.dests q hq

end Sys2Proof.Machine
end

section
/-! SUPPORT. Packed decimal (R262). -/

namespace Sys2Proof.Machine

open Sys2Proof

/-- The number of four digits, written out. -/
theorem bcdNat_eq (w : Word) : bcdNat w = digit w 0 + digit w 1 * 10 + digit w 2 * 100 + digit w 3 * 1000 := by
  simp [bcdNat, upto, List.range_succ]

/-- Valid digits, one by one. -/
theorem bcdOk_iff (w : Word) : bcdOk w = true ↔ ∀ i < 4, digit w i ≤ 9 := by simp [bcdOk, upto]

/-- Four valid digits spell a number below 10,000. -/
theorem bcdNat_lt (w : Word) (h : bcdOk w = true) : bcdNat w < 10000 := by
  rw [bcdOk_iff] at h
  have h0 := h 0 (by decide)
  have h1 := h 1 (by decide)
  have h2 := h 2 (by decide)
  have h3 := h 3 (by decide)
  rw [bcdNat_eq]
  omega

/-- A word written as four nibbles has them as digits. -/
theorem digits_of_toNat (w : Word) (a b c d : Nat) (ha : a < 16) (hb : b < 16) (hc : c < 16)
    (hw : w.toNat = a + b * 16 + c * 256 + d * 4096) : digit w 0 = a ∧ digit w 1 = b ∧ digit w 2 = c ∧ digit w 3 = d := by
  have hlt := w.isLt
  simp only [digit, hw, pow_zero, pow_one, Nat.reducePow]
  omega

/-- The digits of the word that spells a number. -/
theorem digit_bcdWord (n i : Nat) (hi : i < 4) : digit (bcdWord n) i = n / 10 ^ i % 10 := by
  have hw : (bcdWord n).toNat = n % 10 + n / 10 % 10 * 16 + n / 100 % 10 * 256 + n / 1000 % 10 * 4096 := by
    simp [bcdWord, upto, List.range_succ]
    omega
  obtain ⟨h0, h1, h2, h3⟩ := digits_of_toNat (bcdWord n) _ _ _ _ (by omega) (by omega) (by omega) hw
  interval_cases i
  · simpa using h0
  · simpa using h1
  · exact h2
  · exact h3

/-- The word that spells a number has valid digits. -/
theorem bcdOk_bcdWord (n : Nat) : bcdOk (bcdWord n) = true := by
  rw [bcdOk_iff]
  intro i hi
  rw [digit_bcdWord n i hi]
  omega

/-- The word that spells a number below 10,000 spells it. -/
theorem bcdNat_bcdWord (n : Nat) (h : n < 10000) : bcdNat (bcdWord n) = n := by
  rw [bcdNat_eq, digit_bcdWord, digit_bcdWord, digit_bcdWord, digit_bcdWord] <;> omega

/-- Z of a result, chained or not, after other flags. -/
theorem updOf_z (fl : List (Nat × Bool)) (chained : Bool) (r : Word) : (updOf fl).z chained r = updOf (fl ++ zFlag chained r) := by
  cases chained
  · exact (updOf_append fl 2 _).symm
  · by_cases h : r = 0
    · simp [Upd.z, Upd.zChain, zFlag, h]
    · simp only [Upd.z, Upd.zChain, zFlag, h, if_true, if_false, updOf_append]

/-- Z is a bit of PSW. -/
theorem zFlag_lt (chained : Bool) (r : Word) : ∀ e ∈ zFlag chained r, e.1 < 16 := by
  unfold zFlag
  split_ifs <;> simp

/-- The sum or difference of decimal numbers x and y, as R262 has it. -/
def decNum (sub : Bool) (x y : Nat) : Int := if sub then (x : Int) - y else x + y

/-- A decimal result and its flags: the word that spells m, carry c, and Z. -/
def decResult (m : Nat) (c chained : Bool) : Word × Upd := (bcdWord m, updOf ([(1, c)] ++ zFlag chained (bcdWord m)))

/-- A decimal sum. -/
theorem decOf_add (a b : Word) (cin chained : Bool) : decOf false a b cin chained =
    decResult ((bcdNat a + (bcdNat b + b2n cin)) % 10000) (10000 ≤ bcdNat a + (bcdNat b + b2n cin)) chained := by
  rw [decResult, ← updOf_z]
  rfl

/-- A decimal difference. -/
theorem decOf_sub (a b : Word) (cin chained : Bool) : decOf true a b cin chained =
    decResult ((bcdNat a + 20000 - (bcdNat b + b2n cin)) % 10000) (bcdNat a < bcdNat b + b2n cin) chained := by
  rw [decResult, ← updOf_z]
  rfl

/-- The decimal sum or difference of valid operands is a valid word that spells it modulo 10,000, with the carry or borrow (R262). -/
theorem decOf_spec (sub : Bool) (a b : Word) (cin chained : Bool) (ha : bcdOk a = true) (hb : bcdOk b = true) :
    let n := decNum sub (bcdNat a) (bcdNat b + b2n cin)
    ∃ m : Nat, (m : Int) = n % 10000 ∧ m < 10000 ∧ decOf sub a b cin chained = decResult m (decide (n < 0 ∨ 10000 ≤ n)) chained := by
  have hx := bcdNat_lt a ha
  have hy := bcdNat_lt b hb
  have hc : b2n cin ≤ 1 := by cases cin <;> decide
  cases sub
  · refine ⟨(bcdNat a + (bcdNat b + b2n cin)) % 10000, ?_, by omega, ?_⟩
    · simp only [decNum, Bool.false_eq_true, if_false]
      omega
    · rw [decOf_add]
      congr 1
      simp only [decNum, Bool.false_eq_true, if_false, decide_eq_decide]
      omega
  · refine ⟨(bcdNat a + 20000 - (bcdNat b + b2n cin)) % 10000, ?_, by omega, ?_⟩
    · simp only [decNum, if_true]
      omega
    · rw [decOf_sub]
      congr 1
      simp only [decNum, if_true, decide_eq_decide]
      omega

/-- A decimal operation of valid operands writes its result and flags. -/
theorem decimal_valid (s : State) (c : CoreId) (rd rs : Reg) (sub chained : Bool) (ha : bcdOk (s.rg c rd) = true)
    (hb : bcdOk (s.rg c rs) = true) :
    s.decimal c rd rs sub chained =
      (none, s.alu c rd (decOf sub (s.rg c rd) (s.rg c rs) (chained && s.cFlag c) chained)) := by
  simp [State.decimal, ha, hb]

/-- A decimal operation that meets an invalid digit writes D alone, and traps where DTE is 1. -/
theorem decimal_invalid (s : State) (c : CoreId) (rd rs : Reg) (sub chained : Bool)
    (h : ¬ (bcdOk (s.rg c rd) = true ∧ bcdOk (s.rg c rs) = true)) :
    s.decimal c rd rs sub chained = (if s.dte c then some digitTrap else none, s.flags c (updOf [(9, true)])) := by
  rw [← Bool.and_eq_true] at h
  rw [State.decimal, if_neg h]
  rfl

/-- DADD, DADC, DSUB, DSBC. -/
theorem hodDecimal : Sys2Proof.Rules.HodDecimal := by
  intro c rd rs dec
  have key (i : Instr) (fl sub chained : Bool) (hexec : ∀ s, exec i s =
      .next (s.hod c 1 { regs := [rd, rs], flags := fl } fun s => s.decimal c rd rs sub chained)) : dec i fl sub chained := by
    intro s s1 hi a b x y n
    have hrd : (s1.past c 1).rg c rd = a := rg_past s1 c 1 rd
    have hrs : (s1.past c 1).rg c rs = b := rg_past s1 c 1 rs
    have hdte : (s1.past c 1).dte c = wbit (s1.psw c) 11 := congrArg (wbit · 11) (psw_past s1 c 1)
    split_ifs with hok htrap
    · obtain ⟨ha, hb⟩ := hok
      have hbody := decimal_valid (s1.past c 1) c rd rs sub chained (hrd ▸ ha) (hrs ▸ hb)
      obtain ⟨m, hm, hlt, hdec⟩ := decOf_spec sub a b (chained && wbit (s1.psw c) 1) chained ha hb
      rw [hrd, hrs, cFlag_past, hdec] at hbody
      refine ⟨_, bcdWord m, (hexec s).trans (congrArg _ (hod_of_issue hi hbody)), bcdOk_bcdWord m, ?_, ?_⟩
      · rw [bcdNat_bcdWord m hlt]
        exact hm
      · exact ran_alu s1 c 1 rd (bcdWord m) _ (List.forall_mem_cons.2 ⟨Nat.le_of_ble_eq_true rfl, zFlag_lt chained (bcdWord m)⟩)
    · have hbody := decimal_invalid (s1.past c 1) c rd rs sub chained (by rwa [hrd, hrs])
      rw [hdte, if_pos htrap] at hbody
      exact ⟨_, ran_flags s1 c 1 [(9, true)] (by simp), (hexec s).trans (congrArg _ (hod_of_trap hi hbody))⟩
    · have hbody := decimal_invalid (s1.past c 1) c rd rs sub chained (by rwa [hrd, hrs])
      rw [hdte, if_neg htrap] at hbody
      exact ⟨_, (hexec s).trans (congrArg _ (hod_of_issue hi hbody)), ran_flags s1 c 1 [(9, true)] (by simp)⟩
  exact ⟨key _ _ _ _ fun _ => rfl, key _ _ _ _ fun _ => rfl, key _ _ _ _ fun _ => rfl, key _ _ _ _ fun _ => rfl⟩

end Sys2Proof.Machine
end

section
/-! SUPPORT. CRC steps (R264): a byte XORed into the register at once is its bits entering one by one. -/

namespace Sys2Proof.Machine

open Sys2Proof

/-- Where one step h takes the front bit's weight to g with that bit and moves the weight of the rest, steps of h on a register
with all bits XORed in are steps of g with one bit each. -/
theorem foldl_bits (h : Nat → Nat) (g : Nat → Bool → Nat) (w : List Bool → Nat) (N : Nat) (h0 : w [] = 0)
    (hstep : ∀ x d ds, ds.length < N → h (x ^^^ w (d :: ds)) = g x d ^^^ w ds) :
    ∀ (ds : List Bool) (l : List Nat) (x : Nat), ds.length ≤ N → l.length = ds.length →
      l.foldl (fun c _ => h c) (x ^^^ w ds) = ds.foldl g x := by
  intro ds
  induction ds with
  | nil =>
    intro l x _ hl
    rw [List.length_eq_zero_iff.1 hl, h0]
    exact Nat.xor_zero x
  | cons d ds ih =>
    intro l x hN hl
    obtain ⟨a, l, rfl⟩ := List.exists_cons_of_length_eq_add_one hl
    rw [List.length_cons] at hN hl
    rw [List.foldl_cons, List.foldl_cons, hstep x d ds (by omega)]
    exact ih l (g x d) (by omega) (by simpa using hl)

/-! ### Reflected, least significant bit first -/

/-- The number that bits spell, least significant first. -/
def lsbWeight : List Bool → Nat
  | [] => 0
  | d :: ds => b2n d + 2 * lsbWeight ds

/-- One reflected step takes the lowest bit in and halves the rest. -/
theorem crcBitR_xor (p x : Nat) (d : Bool) (ds : List Bool) : crcBitR p (x ^^^ lsbWeight (d :: ds)) = crcLsb p x d ^^^ lsbWeight ds := by
  have hdiv : (x ^^^ lsbWeight (d :: ds)) / 2 = x / 2 ^^^ lsbWeight ds := by
    rw [Nat.xor_div_two, lsbWeight]
    congr 1
    cases d
    · simp [b2n]
    · simp only [b2n, if_true]
      omega
  have hmod : (x ^^^ lsbWeight (d :: ds)) % 2 = 1 ↔ (x % 2 = 1) ≠ (d = true) := by
    rw [Nat.xor_mod_two_eq, lsbWeight]
    cases d
    · simp [b2n]
    · simp only [b2n, if_true, ne_eq, eq_iff_iff, iff_true]
      omega
  unfold crcBitR crcLsb
  rw [hdiv]
  by_cases hx : (x % 2 = 1) ≠ (d = true)
  · rw [if_pos (hmod.2 hx), if_pos hx, Nat.xor_right_comm]
  · rw [if_neg (fun e => hx (hmod.1 e)), if_neg hx, Nat.xor_zero]

/-! ### Most significant bit first -/

/-- The number that bits spell, most significant first. -/
def msbVal : List Bool → Nat
  | [] => 0
  | d :: ds => b2n d * 2 ^ ds.length + msbVal ds

theorem msbVal_lt (ds : List Bool) : msbVal ds < 2 ^ ds.length := by
  induction ds with
  | nil => decide
  | cons d ds ih =>
    have hd : b2n d * 2 ^ ds.length ≤ 2 ^ ds.length := by cases d <;> simp [b2n]
    rw [msbVal, List.length_cons, pow_succ]
    omega

/-- Up to 16 bits as the upper bits of 16. -/
def msbWeight (ds : List Bool) : Nat := msbVal ds * 2 ^ (16 - ds.length)

/-- One step of a CRC-16 register. -/
def crc16Shift (c : Nat) : Nat := if c.testBit 15 then (2 * c % 65536) ^^^ 0x1021 else 2 * c % 65536

/-- A data bit enters a CRC register of 16 bits. -/
theorem crcMsb16 (p x : Nat) (d : Bool) :
    crcMsb 16 p x d = 2 * x % 65536 ^^^ (if (x / 2 ^ 15 % 2 = 1) ≠ (d = true) then p else 0) := rfl

/-- One step takes the highest bit in and doubles the rest. -/
theorem crc16Shift_xor (x : Nat) (d : Bool) (ds : List Bool) (hds : ds.length < 16) :
    crc16Shift (x ^^^ msbWeight (d :: ds)) = crcMsb 16 0x1021 x d ^^^ msbWeight ds := by
  obtain ⟨w, hw⟩ : ∃ w, w = msbVal ds * 2 ^ (15 - ds.length) := ⟨_, rfl⟩
  have hlow : msbWeight ds = 2 * w := by
    rw [hw, msbWeight, Nat.succ_sub (Nat.le_of_lt_succ hds), pow_succ]
    ring
  have hpow : 2 ^ ds.length * 2 ^ (15 - ds.length) = 2 ^ 15 := by rw [← pow_add, Nat.add_sub_cancel' (Nat.le_of_lt_succ hds)]
  have hlt : w < 2 ^ 15 := by
    rw [hw, ← hpow]
    exact Nat.mul_lt_mul_of_pos_right (msbVal_lt ds) (by positivity)
  have htop : msbWeight (d :: ds) = b2n d * 2 ^ 15 + w := by
    rw [msbWeight, msbVal, List.length_cons, Nat.succ_sub_succ, add_mul, mul_assoc, hpow, hw]
  have hdouble : 2 * (x ^^^ msbWeight (d :: ds)) % 65536 = 2 * x % 65536 ^^^ msbWeight ds := by
    have hy : 2 * msbWeight (d :: ds) % 65536 = msbWeight ds := by
      rw [htop, hlow]
      cases d <;> simp only [b2n] <;> omega
    rw [← hy]
    have hmul : 2 * (x ^^^ msbWeight (d :: ds)) = 2 * x ^^^ 2 * msbWeight (d :: ds) := by
      have hshift := Nat.shiftLeft_xor_distrib (a := x) (b := msbWeight (d :: ds)) (i := 1)
      simpa [Nat.shiftLeft_eq, mul_comm] using hshift
    rw [hmul]
    exact Nat.xor_mod_two_pow (n := 16)
  have hbit : (x ^^^ msbWeight (d :: ds)).testBit 15 = true ↔ (x / 2 ^ 15 % 2 = 1) ≠ (d = true) := by
    have hd : (msbWeight (d :: ds)).testBit 15 = d := by
      rw [htop, Nat.testBit_eq_decide_div_mod_eq]
      cases d <;> simp [b2n] <;> omega
    rw [Nat.testBit_xor, hd, Nat.testBit_eq_decide_div_mod_eq]
    cases d <;> simp
  rw [crc16Shift, crcMsb16, hdouble]
  by_cases hx : (x / 2 ^ 15 % 2 = 1) ≠ (d = true)
  · rw [if_pos (hbit.2 hx), if_pos hx, Nat.xor_right_comm]
  · rw [if_neg (fun e => hx (hbit.1 e)), if_neg hx, Nat.xor_zero]

/-! ### Bytes and words -/

/-- The bits of byte b of a word, from its most or its least significant bit. -/
def byteBits (msbFirst : Bool) (w : Word) (b : Nat) : List Bool := (upto 8).map fun i => w.getLsbD (8 * b + if msbFirst then 7 - i else i)

/-- A bit as a number. -/
theorem b2n_testBit (y i : Nat) : b2n (y.testBit i) = y / 2 ^ i % 2 := by
  rw [Nat.testBit_eq_decide_div_mod_eq, b2n]
  split <;> simp_all

/-- The lower n bits of a number, least significant first, spell it modulo 2 ^ n. -/
theorem lsbWeight_testBit (n y : Nat) : lsbWeight ((List.range n).map y.testBit) = y % 2 ^ n := by
  induction n generalizing y with
  | zero => simp [lsbWeight, Nat.mod_one]
  | succ n ih =>
    have htail : (List.range n).map (y.testBit ∘ Nat.succ) = (List.range n).map (y / 2).testBit :=
      List.map_congr_left fun i _ => Nat.testBit_succ y i
    rw [List.range_succ_eq_map, List.map_cons, List.map_map, htail, lsbWeight, ih, b2n_testBit, pow_succ', Nat.mod_mul]
    simp

/-- The lower n bits of a number, most significant first, spell it modulo 2 ^ n. -/
theorem msbVal_testBit (n y : Nat) : msbVal ((List.range n).map fun i => y.testBit (n - 1 - i)) = y % 2 ^ n := by
  induction n with
  | zero => simp [msbVal, Nat.mod_one]
  | succ n ih =>
    have htail : (List.range n).map ((fun i => y.testBit (n + 1 - 1 - i)) ∘ Nat.succ) = (List.range n).map fun i => y.testBit (n - 1 - i) :=
      List.map_congr_left fun i _ => congrArg y.testBit (by simp only [Nat.succ_eq_add_one]; omega)
    rw [List.range_succ_eq_map, List.map_cons, List.map_map, htail, msbVal, ih, b2n_testBit, Nat.mod_pow_succ]
    simp only [List.length_map, List.length_range, Nat.add_sub_cancel, Nat.sub_zero]
    ring

/-- A bit of byte b of a word. -/
theorem getLsbD_byte (w : Word) (b i : Nat) : w.getLsbD (8 * b + i) = (w.toNat / 256 ^ b).testBit i := by
  rw [show 256 ^ b = 2 ^ (8 * b) by rw [pow_mul]; rfl, Nat.testBit_div_two_pow, Nat.add_comm]
  rfl

theorem lsbWeight_byteBits (w : Word) (b : Nat) : lsbWeight (byteBits false w b) = w.toNat / 256 ^ b % 256 := by
  have hbits : byteBits false w b = (List.range 8).map (w.toNat / 256 ^ b).testBit := List.map_congr_left fun i _ => getLsbD_byte w b i
  exact hbits ▸ lsbWeight_testBit 8 _

theorem msbWeight_byteBits (w : Word) (b : Nat) : msbWeight (byteBits true w b) = w.toNat / 256 ^ b % 256 * 256 := by
  have hbits : byteBits true w b = (List.range 8).map fun i => (w.toNat / 256 ^ b).testBit (8 - 1 - i) :=
    List.map_congr_left fun i _ => getLsbD_byte w b (7 - i)
  rw [msbWeight, hbits, msbVal_testBit]
  simp

@[simp] theorem length_byteBits (msbFirst : Bool) (w : Word) (b : Nat) : (byteBits msbFirst w b).length = 8 := by simp [byteBits, upto]

/-- A byte of a CRC-32 register enters bit by bit. -/
theorem crcByteR_eq (p x : Nat) (w : Word) (b : Nat) :
    crcByteR p x (w.toNat / 256 ^ b % 256) = (byteBits false w b).foldl (crcLsb p) x := by
  rw [← lsbWeight_byteBits]
  exact foldl_bits (crcBitR p) (crcLsb p) lsbWeight 8 rfl (fun x d ds _ => crcBitR_xor p x d ds) _ _ x (by simp) (by simp [upto])

/-- A byte of a CRC-16 register enters bit by bit. -/
theorem crc16Byte_eq (x : Nat) (w : Word) (b : Nat) :
    crc16Byte x (w.toNat / 256 ^ b % 256) = (byteBits true w b).foldl (crcMsb 16 0x1021) x := by
  rw [crc16Byte, ← msbWeight_byteBits]
  exact foldl_bits crc16Shift (crcMsb 16 0x1021) msbWeight 16 rfl crc16Shift_xor _ _ x (by simp) (by simp [upto])

/-- The bits of a word are those of its lower byte, then those of its upper byte. -/
theorem crcBits_eq (msbFirst : Bool) (w : Word) : crcBits msbFirst w = byteBits msbFirst w 0 ++ byteBits msbFirst w 1 := by
  simp [crcBits, byteBits, upto, List.range_succ]

/-- The two bytes of a word. -/
theorem word_bytes (w : Word) : w.toNat % 256 = w.toNat / 256 ^ 0 % 256 ∧ w.toNat / 256 = w.toNat / 256 ^ 1 % 256 := by
  have hw := w.isLt
  omega

/-- A CRC-32 step. -/
theorem crc32Step_eq (castagnoli : Bool) (r : W32) (d : Word) :
    crc32Step castagnoli r d = crc32Rule (if castagnoli then 0x82F63B78 else 0xEDB88320) r d := by
  obtain ⟨hlo, hhi⟩ := word_bytes d
  rw [crc32Step, crc32Rule, crcBits_eq, List.foldl_append, hhi, hlo, crcByteR_eq, crcByteR_eq]

/-- A CRC-16 step. -/
theorem crc16Step_eq (r d : Word) : crc16Step r d = crc16Rule r d := by
  obtain ⟨hlo, hhi⟩ := word_bytes d
  rw [crc16Step, crc16Rule, crcBits_eq, List.foldl_append, hhi, hlo, crc16Byte_eq, crc16Byte_eq]

/-- A CRC-32 instruction. -/
theorem does_crcPair {i : Instr} {c : CoreId} {d : PairIx} {rs : Reg} {castagnoli : Bool}
    (hexec : ∀ s, exec i s = .next (s.crcPair c (evenReg d) rs castagnoli)) :
    Does i c 1 { regs := rs :: pairRegs d } fun s t =>
      Ran s t c 1 (pairWrite d (crc32Rule (if castagnoli then 0x82F63B78 else 0xEDB88320) (s.pr c d) (s.rg c rs))) [] := by
  refine does_of_quiet (fun s => by rw [hexec, State.crcPair, evenOnly_evenReg, pairAt_evenReg]) fun s => ?_
  rw [pr_past, rg_past, crc32Step_eq]
  exact ran_wrp s c 1 d _

/-- CRC16, CRC32 and CRC32C. -/
theorem hodCrc : Sys2Proof.Rules.HodCrc := by
  intro c rd rs d
  refine ⟨does_of_quiet (fun _ => rfl) fun s => ?_, does_crcPair (castagnoli := false) fun _ => rfl,
    does_crcPair (castagnoli := true) fun _ => rfl⟩
  dsimp only
  rw [rg_past, rg_past, crc16Step_eq]
  exact ran_alu s c 1 rd _ [] (by simp)

/-- Settles O4: the long unit, its completion, packed decimal and the CRC steps. -/
theorem hodLongDecimal : Obligations.HodLongDecimal := ⟨hodLong, longCompletion, hodDecimal, hodCrc⟩

end Sys2Proof.Machine
end

section
/-! SUPPORT. Branches (R253, R257, R277). -/

namespace Sys2Proof.Machine

open Sys2Proof

/-- The model's conditions are those of the table of R257. -/
theorem condHolds_eq (w : Word) (cond : BitVec 4) : condHolds w cond = condRule w cond.toNat := by
  have hc := cond.isLt
  unfold condHolds condRule
  generalize cond.toNat = code at hc
  generalize wbit w 1 = c, wbit w 2 = z, wbit w 3 = n, wbit w 4 = v, wbit w 10 = q
  interval_cases code <;> revert c z n v q <;> decide

/-- A core written does not touch the loop buffer's bit. -/
theorem lbuf_setCore (s : State) (c : CoreId) (k : Core) (b : Bool) : (s.setCore c k).lbuf c b = (s.lbuf c b).setCore c k := rfl

/-- The core behind the loop buffer's bit. -/
@[simp] theorem core_lbuf (s : State) (c : CoreId) (b : Bool) : (s.lbuf c b).core c = s.core c := rfl

/-- The core leaves the loop buffer. -/
theorem leaveLoop_eq (s : State) (c : CoreId) : s.leaveLoop c = (s.lbuf c false).setCore c { s.core c with loopAt := none } := rfl

/-- Whether a body is the one captured draws at most one free bit. -/
theorem sameBody_snd (s : State) (old new : List (Option Word)) : ∃ f, (s.sameBody old new).2 = { s with fresh := f } := by
  unfold State.sameBody
  split
  · exact ⟨s.fresh, rfl⟩
  · exact ⟨s.fresh + 1, rfl⟩

/-- The loop buffer's bit, the capture and the count of free values replaced. -/
def State.looped (s : State) (c : CoreId) (b : Bool) (l : Option (W32 × List (Option Word))) (f : Nat) : State :=
  { (s.lbuf c b).setCore c { s.core c with loopAt := l } with fresh := f }

/-- A taken closing branch changes the loop buffer, its capture and the count of free values at most; a core that fetches from the
buffer goes on. -/
theorem takeLoop_cases (s : State) (c : CoreId) (a : W32) (body : List (Option Word)) :
    (∃ b l f, s.takeLoop c a body = s.looped c b l f) ∨
      (s.bit (pipeCtl c).1 (pipeCtl c).2 12 = true ∧ s.takeLoop c a body = s) := by
  have hcapture (f : Nat) : (({ s with fresh := f } : State).leaveLoop c).modCore c (fun k => { k with loopAt := some (a, body) }) =
      s.looped c false (some (a, body)) f := by
    rw [leaveLoop_eq, State.modCore, core_setCore, setCore_setCore]
    rfl
  unfold State.takeLoop
  split
  · exact .inl ⟨_, _, _, hcapture s.fresh⟩
  · next b old _ =>
    by_cases hb : b = a
    · by_cases h12 : s.bit (pipeCtl c).1 (pipeCtl c).2 12 = true
      · exact .inr ⟨h12, by simp [hb, h12]⟩
      · obtain ⟨f, hf⟩ := sameBody_snd s old body
        rw [if_neg (not_not.2 hb), if_neg h12]
        dsimp only
        rw [hf]
        split
        · exact .inl ⟨true, (s.core c).loopAt, f, by
            rw [State.looped, ← core_lbuf s c true]
            exact congrArg (fun u : State => { u with fresh := f }) (setCore_core (s.lbuf c true) c).symm⟩
        · exact .inl ⟨_, _, _, hcapture f⟩
    · rw [if_pos hb]
      exact .inl ⟨_, _, _, hcapture s.fresh⟩

/-- What a branch does to the loop buffer: one that is not taken leaves it. -/
theorem noteBranch_cases (s : State) (c : CoreId) (a t : W32) (len : Nat) (taken : Bool) :
    (∃ b l f, (taken = false → b = false ∧ l = none ∧ f = s.fresh) ∧ s.noteBranch c a t len taken = s.looped c b l f) ∨
      (taken = true ∧ s.bit (pipeCtl c).1 (pipeCtl c).2 12 = true ∧ s.noteBranch c a t len taken = s) := by
  unfold State.noteBranch
  split
  · next h =>
    have ht : taken = true := h.1
    rcases takeLoop_cases s c a ((wordsFrom t (a.toNat + len - t.toNat)).map fun w => s.peekWord c w) with ⟨b, l, f, e⟩ | ⟨h12, e⟩
    · exact .inl ⟨b, l, f, fun h => absurd ht (by simp [h]), e⟩
    · exact .inr ⟨ht, h12, e⟩
  · exact .inl ⟨false, none, s.fresh, fun _ => ⟨rfl, rfl, rfl⟩, rfl⟩

/-- The pc and the loop buffer of a branch, as one replacement of the core. -/
theorem looped_past (s : State) (c : CoreId) (len : Nat) (b : Bool) (l : Option (W32 × List (Option Word))) (f : Nat) :
    (s.past c len).looped c b l f =
      { (s.lbuf c b).setCore c { s.core c with loopAt := l, pc := (s.core c).pc + BitVec.ofNat 32 len } with fresh := f } := by
  rw [State.looped, core_past, State.past, lbuf_setCore, setCore_setCore]

/-- A branch taken to its target. -/
theorem looped_past_jump (s : State) (c : CoreId) (len : Nat) (b : Bool) (l : Option (W32 × List (Option Word))) (f : Nat) (a : W32) :
    ((s.past c len).looped c b l f).modCore c (fun k => { k with pc := a }) =
      { (s.lbuf c b).setCore c { s.core c with loopAt := l, pc := a } with fresh := f } := by
  rw [looped_past]
  let k : Core := { s.core c with loopAt := l, pc := (s.core c).pc + BitVec.ofNat 32 len }
  show { ((s.lbuf c b).setCore c k).modCore c (fun k => { k with pc := a }) with fresh := f } = _
  rw [State.modCore, core_setCore, setCore_setCore]

/-- A branch follows its condition. -/
theorem does_branch {i : Instr} {c : CoreId} {cond : BitVec 4} {len : Nat} {disp : W32}
    (hexec : ∀ s, exec i s = .next (s.branch c cond len disp)) :
    Does i c len { flags := cond.toNat < 14 || cond.toNat = 15 } fun s t =>
      let next := (s.core c).pc + BitVec.ofNat 32 len
      let taken := condRule (s.psw c) cond.toNat
      (∃ b l f, (taken = false → b = false ∧ l = none ∧ f = s.fresh) ∧
        t = { (s.lbuf c b).setCore c { s.core c with loopAt := l, pc := if taken then next + disp else next } with fresh := f }) ∨
      (taken = true ∧ s.bit (pipeCtl c).1 (pipeCtl c).2 12 = true ∧ t = s.setCore c { s.core c with pc := next + disp }) := by
  refine does_of_quiet hexec fun s => ?_
  intro next taken
  have hpc : (s.past c len).pcOf c = next := by rw [State.pcOf, core_past]
  have htaken : condHolds ((s.past c len).psw c) cond = taken := by rw [psw_past, condHolds_eq]
  dsimp only
  rw [hpc, htaken]
  rcases noteBranch_cases (s.past c len) c (next - BitVec.ofNat 32 len) (next + disp) len taken with ⟨b, l, f, hf, e⟩ | ⟨ht, h12, e⟩
  · refine .inl ⟨b, l, f, hf, ?_⟩
    rw [e]
    cases taken
    · exact looped_past s c len b l f
    · exact looped_past_jump s c len b l f (next + disp)
  · refine .inr ⟨ht, h12, ?_⟩
    rw [e, if_pos ht, State.modCore, core_past, State.past, setCore_setCore]

/-- C after the flags of a difference is its borrow. -/
theorem subOf_carry (a b w : Word) : wbit ((subOf a b false false).2.on w) 1 = decide (a.toNat < b.toNat) := by
  have hu : (subOf a b false false).2 = updOf [(1, a.toNat < b.toNat + b2n false), (3, (subOf a b false false).1.msb),
    (4, a.msb ≠ b.msb && (subOf a b false false).1.msb ≠ a.msb), (2, (subOf a b false false).1 = 0)] := rfl
  rw [hu, updOf_on _ _ (by simp)]
  simp [flagged, wbit_putBit, b2n]

/-- PSW after flags are written. -/
theorem psw_flags (s : State) (c : CoreId) (u : Upd) : (s.flags c u).psw c = u.on (s.psw c) := by
  rw [State.psw, flags_eq, core_modCore]
  rfl

/-- Settles O8: the branches and C after SUB and CMP. -/
theorem hodBranches : Obligations.HodBranches := by
  intro c cond d6 d16
  refine ⟨does_branch fun _ => rfl, does_branch fun _ => rfl, fun rd rs => ⟨does_of_quiet (fun _ => rfl) fun s => ?_,
    does_of_quiet (fun _ => rfl) fun s => ?_⟩⟩
  · rw [State.alu, psw_flags, subOf_carry, rg_past, rg_past]
  · rw [psw_flags, subOf_carry, rg_past, rg_past]

end Sys2Proof.Machine
end

section
/-! SUPPORT. Registers, pairs and windows (R246, R247, R249). -/

namespace Sys2Proof.Machine

open Sys2Proof

/-- On the task and TSB paths a register has the physical register that the window gives it. -/
theorem phys_task (k : Core) (c : CoreId) (r : Nat) (hpath : k.path = .task ∨ k.path = .tsb) (hr : r ≠ 0) :
    k.phys c r = some (if r < 8 then r
      else if r < 16 then argReg (winDown c k.cwp) (r - 8)
      else if r < 24 then localReg k.cwp (r - 16)
      else argReg k.cwp (r - 24)) := by
  unfold Core.phys
  rw [if_neg hr]
  rcases hpath with h | h <;> rw [h]

/-- The globals g1 to g7. -/
theorem phys_global (k : Core) (c : CoreId) (r : Nat) (hpath : k.path = .task ∨ k.path = .tsb) (hr : r ≠ 0) (h8 : r < 8) :
    k.phys c r = some r := by rw [phys_task k c r hpath hr, if_pos h8]

/-- The parameters of a frame lie in the window below. -/
theorem phys_param (k : Core) (c : CoreId) (i : Nat) (hpath : k.path = .task ∨ k.path = .tsb) (hi : i < 8) :
    k.phys c (8 + i) = some (argReg (winDown c k.cwp) i) := by
  rw [phys_task k c _ hpath (by omega), if_neg (by omega), if_pos (by omega), Nat.add_sub_cancel_left]

/-- The locals of a frame. -/
theorem phys_local (k : Core) (c : CoreId) (r : Nat) (hpath : k.path = .task ∨ k.path = .tsb) (h16 : 16 ≤ r) (h24 : r < 24) :
    k.phys c r = some (localReg k.cwp (r - 16)) := by
  rw [phys_task k c _ hpath (by omega), if_neg (by omega), if_neg (by omega), if_pos h24]

/-- The arguments of a frame. -/
theorem phys_arg (k : Core) (c : CoreId) (i : Nat) (hpath : k.path = .task ∨ k.path = .tsb) :
    k.phys c (24 + i) = some (argReg k.cwp i) := by
  rw [phys_task k c _ hpath (by omega), if_neg (by omega), if_neg (by omega), if_neg (by omega), Nat.add_sub_cancel_left]

/-- The window below the one above. -/
theorem winDown_winUp (c : CoreId) (w : Nat) (hw : w < nwin c) : winDown c (winUp c w) = w := by
  unfold winDown winUp nwin at *
  split at hw <;> split <;> omega

/-- The window below is another one. -/
theorem winDown_ne (c : CoreId) (w : Nat) : winDown c w ≠ w := by
  unfold winDown nwin
  split <;> omega

/-- The window above is another one. -/
theorem winUp_ne (c : CoreId) (w : Nat) : winUp c w ≠ w := by
  unfold winUp nwin
  split <;> omega

/-- On the task and TSB paths registers with the same physical register are the same. -/
theorem phys_injective (k : Core) (c : CoreId) (r q : Reg) (p : Nat) (hpath : k.path = .task ∨ k.path = .tsb)
    (hr : k.phys c r.toNat = some p) (hq : k.phys c q.toNat = some p) : q = r := by
  have hdown := winDown_ne c k.cwp
  have hlr := r.isLt
  have hlq := q.isLt
  have hr0 : r.toNat ≠ 0 := fun e => by rw [e] at hr; cases hr
  have hq0 : q.toNat ≠ 0 := fun e => by rw [e] at hq; cases hq
  rw [phys_task k c _ hpath hr0, Option.some_inj] at hr
  rw [phys_task k c _ hpath hq0, ← hr, Option.some_inj] at hq
  apply BitVec.eq_of_toNat_eq
  unfold localReg argReg at hq
  split_ifs at hq <;> omega

/-- A register written reads the value. -/
theorem rg_wr_self (s : State) (c : CoreId) (r : Reg) (v : Word) (hr : r ≠ 0) : (s.wr c r v).rg c r = v := by
  obtain ⟨p, hp⟩ := phys_isSome (s.core c) c r hr
  have hwr : s.wr c r v = s.wrPhys c p v := by rw [State.wr, hp]
  rw [hwr, State.wrPhys, rg_of_phys _ c r p (by rw [core_modCore]; exact hp), core_modCore, preg_setPreg]

/-- A write leaves a register that has another physical register. -/
theorem rg_wr_of_ne (s : State) (c : CoreId) (r q : Reg) (v : Word)
    (h : ∀ p, (s.core c).phys c r.toNat = some p → (s.core c).phys c q.toNat ≠ some p) : (s.wr c r v).rg c q = s.rg c q := by
  unfold State.wr
  cases hr : (s.core c).phys c r.toNat with
  | none => rfl
  | some p =>
    dsimp only
    have hphys : ((s.wrPhys c p v).core c).phys c q.toNat = (s.core c).phys c q.toNat := by
      rw [State.wrPhys, core_modCore]
      rfl
    cases hq : (s.core c).phys c q.toNat with
    | none => rw [State.rg, State.rg, hphys, hq]
    | some p' =>
      have hne : p' ≠ p := fun e => h p hr (by rw [hq, e])
      rw [rg_of_phys _ c q p' (hphys.trans hq), rg_of_phys s c q p' hq, State.wrPhys, core_modCore, preg_setPreg_of_ne _ _ _ _ hne]

/-- Registers that share a physical register read the same. -/
theorem rg_congr (s t : State) (c : CoreId) (r q : Reg) (hphys : (t.core c).phys c q.toNat = (s.core c).phys c r.toNat)
    (hregs : (t.core c).regs = (s.core c).regs) : t.rg c q = s.rg c r := by
  unfold State.rg Core.preg
  rw [hphys, hregs]

/-- The core in the frame above. -/
def Core.windowUp (k : Core) (c : CoreId) : Core := { k with cwp := winUp c k.cwp }

/-- Core c in the frame above. -/
def State.windowUp (s : State) (c : CoreId) : State := s.modCore c fun k => k.windowUp c

@[simp] theorem core_windowUp (s : State) (c : CoreId) : (s.windowUp c).core c = (s.core c).windowUp c := core_modCore s c _

/-- The parameters of a frame are the arguments of the frame below (R247). -/
theorem rg_windowUp_param (s : State) (c : CoreId) (i : Fin 8) (hpath : (s.core c).path = .task ∨ (s.core c).path = .tsb)
    (hw : (s.core c).cwp < nwin c) : (s.windowUp c).rg c (BitVec.ofNat 5 (8 + i)) = s.rg c (BitVec.ofNat 5 (24 + i)) := by
  have hi := i.isLt
  have h8 : (BitVec.ofNat 5 (8 + i)).toNat = 8 + i := Nat.mod_eq_of_lt (by omega)
  have h24 : (BitVec.ofNat 5 (24 + i)).toNat = 24 + i := Nat.mod_eq_of_lt (by omega)
  refine rg_congr s _ c _ _ ?_ (by rw [core_windowUp]; rfl)
  rw [core_windowUp, h8, h24, phys_param ((s.core c).windowUp c) c i hpath hi, phys_arg _ c i hpath]
  exact congrArg (fun w => some (argReg w i)) (winDown_winUp c _ hw)

/-- The globals are common to all frames (R247). -/
theorem rg_windowUp_global (s : State) (c : CoreId) (i : Fin 8) (hpath : (s.core c).path = .task ∨ (s.core c).path = .tsb) :
    (s.windowUp c).rg c (BitVec.ofNat 5 i) = s.rg c (BitVec.ofNat 5 i) := by
  have hi := i.isLt
  have h5 : (BitVec.ofNat 5 i).toNat = i := Nat.mod_eq_of_lt (by omega)
  refine rg_congr s _ c _ _ ?_ (by rw [core_windowUp]; rfl)
  rw [core_windowUp, h5]
  by_cases h0 : (i : Nat) = 0
  · rw [h0]
    rfl
  · rw [phys_global ((s.core c).windowUp c) c i hpath h0 hi, phys_global (s.core c) c i hpath h0 hi]

/-- A local register of the frame above. -/
theorem rg_windowUp_of_local (s : State) (c : CoreId) (r : Reg) (hpath : (s.core c).path = .task ∨ (s.core c).path = .tsb)
    (h16 : 16 ≤ r.toNat) (h24 : r.toNat < 24) :
    (s.windowUp c).rg c r = (s.core c).preg (localReg (winUp c (s.core c).cwp) (r.toNat - 16)) := by
  have hphys := phys_local ((s.core c).windowUp c) c r.toNat hpath h16 h24
  rw [← core_windowUp s c] at hphys
  rw [rg_of_phys _ c r _ hphys, core_windowUp]
  rfl

/-- The locals of a frame are its own: a write in another frame leaves them (R247). -/
theorem rg_windowUp_local (s : State) (c : CoreId) (r : Reg) (v : Word) (hpath : (s.core c).path = .task ∨ (s.core c).path = .tsb)
    (h16 : 16 ≤ r.toNat) (h24 : r.toNat < 24) : ((s.wr c r v).windowUp c).rg c r = (s.windowUp c).rg c r := by
  have hne : localReg (winUp c (s.core c).cwp) (r.toNat - 16) ≠ localReg (s.core c).cwp (r.toNat - 16) := by
    have hup := winUp_ne c (s.core c).cwp
    unfold localReg
    omega
  have hcore : (s.wr c r v).core c = (s.core c).setPreg (localReg (s.core c).cwp (r.toNat - 16)) v := by
    rw [State.wr, phys_local (s.core c) c r.toNat hpath h16 h24]
    exact core_modCore s c _
  rw [rg_windowUp_of_local s c r hpath h16 h24, rg_windowUp_of_local _ c r (by rwa [hcore]) h16 h24, hcore]
  exact preg_setPreg_of_ne _ _ _ v hne

/-- A pair is its two registers. -/
theorem pr_eq_append (s : State) (c : CoreId) (p : PairIx) : s.pr c p = s.rg c (evenReg p) ++ s.rg c (oddReg p) := by
  apply BitVec.eq_of_toNat_eq
  have hlo := (s.rg c (oddReg p)).isLt
  have hhi := (s.rg c (evenReg p)).isLt
  rw [State.pr, w32of, BitVec.toNat_append, ← Nat.shiftLeft_add_eq_or_of_lt hlo, Nat.shiftLeft_eq, BitVec.toNat_ofNat]
  omega

/-- Settles O58: g0, reads after writes, the windows' overlap and pairs. -/
theorem registers : Obligations.Registers := by
  intro s c r q p v i k up
  refine ⟨rg_zero s c, wr_zero s c v, fun hpath hw => ⟨rg_wr_self s c r v, fun hne => ?_, ?_, ?_, fun h16 h24 => ?_⟩, pr_eq_append s c p⟩
  · exact rg_wr_of_ne s c r q v fun p hr hq => hne (phys_injective k c r q p hpath hr hq)
  · exact rg_windowUp_param s c i hpath hw
  · exact rg_windowUp_global s c i hpath
  · exact rg_windowUp_local s c r v hpath h16 h24

end Sys2Proof.Machine
end

section
/-! SUPPORT. Coding of flits (R368). -/

namespace Sys2Proof.Machine

open Sys2Proof

/-! ### The flit CRC -/

/-- The CRC register stays 16 bits wide. -/
theorem crcBit_lt (c : Nat) (b : Bool) : crcBit c b < 2 ^ 16 := by
  have hd : c * 2 % 65536 < 2 ^ 16 := Nat.mod_lt _ (by decide)
  unfold crcBit
  dsimp only
  split
  · exact Nat.xor_lt_two_pow hd (by decide)
  · exact hd

/-- The lowest bit of the CRC register is the bit fed back. -/
theorem crcBit_testBit_zero (c : Nat) (b : Bool) : (crcBit c b).testBit 0 = (c.testBit 15 ^^ b) := by
  have he : (c * 2 % 65536).testBit 0 = false := by
    rw [Nat.testBit_zero]
    simp only [decide_eq_false_iff_not]
    omega
  unfold crcBit
  dsimp only
  split
  · next h => rw [Nat.testBit_xor, he, h]; rfl
  · next h => rw [he]; simpa using h

/-- The register is doubled, and the polynomial enters where the bit fed back is 1. -/
theorem crcBit_eq_xor (c : Nat) (b : Bool) :
    crcBit c b = (c * 2 % 65536) ^^^ (if (crcBit c b).testBit 0 = true then 0x1021 else 0) := by
  rw [crcBit_testBit_zero]
  unfold crcBit
  dsimp only
  split
  · rfl
  · exact (Nat.xor_zero _).symm

/-- One bit enters different registers differently. -/
theorem crcBit_injective {c d : Nat} {b : Bool} (hc : c < 2 ^ 16) (hd : d < 2 ^ 16) (h : crcBit c b = crcBit d b) : c = d := by
  have htop : c.testBit 15 = d.testBit 15 := by
    have h0 := congrArg (fun x => x.testBit 0) h
    simpa only [crcBit_testBit_zero, Bool.xor_left_inj] using h0
  have hlow : c * 2 % 65536 = d * 2 % 65536 := by
    have hc' := crcBit_eq_xor c b
    rw [h] at hc'
    exact Nat.xor_left_inj.1 (hc'.symm.trans (crcBit_eq_xor d b))
  rw [Nat.testBit_eq_decide_div_mod_eq, Nat.testBit_eq_decide_div_mod_eq, decide_eq_decide] at htop
  omega

/-- Different bits leave different registers. -/
theorem crcBit_ne_of_bit_ne (c : Nat) {a b : Bool} (h : a ≠ b) : crcBit c a ≠ crcBit c b := by
  intro e
  have h0 := congrArg (fun x => x.testBit 0) e
  simp only [crcBit_testBit_zero, Bool.xor_right_inj] at h0
  exact h h0

/-- The register after the first n bits of a word. -/
def crcPrefix (n : Nat) (f : Nat → Bool) : Nat := (upto n).foldl (fun c i => crcBit c (f i)) 0xFFFF

theorem crcPrefix_succ (n : Nat) (f : Nat → Bool) : crcPrefix (n + 1) f = crcBit (crcPrefix n f) (f n) := by
  simp only [crcPrefix, upto, List.range_succ, List.foldl_append, List.foldl_cons, List.foldl_nil]

theorem crcPrefix_lt (n : Nat) (f : Nat → Bool) : crcPrefix n f < 2 ^ 16 := by
  cases n with
  | zero => exact (by decide : 0xFFFF < 2 ^ 16)
  | succ n => rw [crcPrefix_succ]; exact crcBit_lt _ _

/-- The register depends on the bits that have entered alone. -/
theorem crcPrefix_congr {n : Nat} {f g : Nat → Bool} (h : ∀ i < n, f i = g i) : crcPrefix n f = crcPrefix n g := by
  induction n with
  | zero => rfl
  | succ n ih => rw [crcPrefix_succ, crcPrefix_succ, ih fun i hi => h i (by omega), h n (by omega)]

/-- One wrong bit leaves another register, whatever follows it. -/
theorem crcPrefix_ne {n k : Nat} {f g : Nat → Bool} (hk : k < n) (hne : f k ≠ g k) (h : ∀ i, i ≠ k → f i = g i) :
    crcPrefix n f ≠ crcPrefix n g := by
  induction n with
  | zero => omega
  | succ n ih =>
    rw [crcPrefix_succ, crcPrefix_succ]
    rcases Nat.lt_succ_iff_lt_or_eq.1 hk with hlt | rfl
    · rw [h n (by omega)]
      exact fun e => ih hlt (crcBit_injective (crcPrefix_lt n f) (crcPrefix_lt n g) e)
    · rw [crcPrefix_congr fun i hi => h i (by omega)]
      exact crcBit_ne_of_bit_ne _ hne

theorem flitCrc_eq (v : BitVec 272) : flitCrc v = crcPrefix 272 v.getLsbD := rfl

/-! ### The fields of a flit -/

/-- The fields of a flit above its payload, and its CRC, as one number. -/
def Flit.head (f : Flit) (crc : Nat) : Nat := f.ty.toNat + 16 * f.ch.toNat + 256 * f.seq.toNat + 65536 * crc

/-- The bits of a flit that its CRC covers. -/
def Flit.body (f : Flit) : BitVec 272 := BitVec.ofNat 272 (f.payload.toNat + 2 ^ 256 * f.head 0)

/-- Numbers above the 256 bits of a payload. -/
theorem pow_above_payload (x : Nat) : x * 2 ^ 260 = 2 ^ 256 * (16 * x) ∧ x * 2 ^ 264 = 2 ^ 256 * (256 * x) ∧
    x * 2 ^ 272 = 2 ^ 256 * (65536 * x) := by
  have h260 : (2 : Nat) ^ 260 = 2 ^ 256 * 2 ^ 4 := pow_add 2 256 4
  have h264 : (2 : Nat) ^ 264 = 2 ^ 256 * 2 ^ 8 := pow_add 2 256 8
  have h272 : (2 : Nat) ^ 272 = 2 ^ 256 * 2 ^ 16 := pow_add 2 256 16
  rw [h260, h264, h272]
  generalize (2 : Nat) ^ 256 = p
  refine ⟨?_, ?_, ?_⟩ <;> ring

/-- The fields of a flit in their places. -/
theorem Flit.fields_eq (f : Flit) (crc : Nat) :
    f.payload.toNat + f.ty.toNat * 2 ^ 256 + f.ch.toNat * 2 ^ 260 + f.seq.toNat * 2 ^ 264 + crc * 2 ^ 272 =
      f.payload.toNat + 2 ^ 256 * f.head crc := by
  obtain ⟨hch, -, -⟩ := pow_above_payload f.ch.toNat
  obtain ⟨-, hseq, -⟩ := pow_above_payload f.seq.toNat
  obtain ⟨-, -, hcrc⟩ := pow_above_payload crc
  rw [hch, hseq, hcrc, Flit.head]
  generalize (2 : Nat) ^ 256 = p
  ring

theorem Flit.encode_toNat (f : Flit) : f.encode.toNat = f.payload.toNat + 2 ^ 256 * f.head (flitCrc f.body) := by
  have hp := f.payload.isLt
  have ht := f.ty.isLt
  have hch := f.ch.isLt
  have hs := f.seq.isLt
  have hcrc : flitCrc f.body < 2 ^ 16 := crcPrefix_lt _ _
  have hhead : f.head (flitCrc f.body) < 2 ^ 32 := by unfold Flit.head; omega
  have hlt : f.payload.toNat + 2 ^ 256 * f.head (flitCrc f.body) < 2 ^ 288 := by
    have h288 : (2 : Nat) ^ 288 = 2 ^ 256 * 2 ^ 32 := pow_add 2 256 32
    have hm : 2 ^ 256 * f.head (flitCrc f.body) + 2 ^ 256 ≤ 2 ^ 256 * 2 ^ 32 := Nat.mul_le_mul_left (2 ^ 256) hhead
    rw [h288]
    exact lt_of_lt_of_le (by omega) hm
  have hbody : f.payload.toNat + f.ty.toNat * 2 ^ 256 + f.ch.toNat * 2 ^ 260 + f.seq.toNat * 2 ^ 264 =
      f.payload.toNat + 2 ^ 256 * f.head 0 := by
    have h := f.fields_eq 0
    rwa [Nat.zero_mul, Nat.add_zero] at h
  have hcrcs : flitCrc (BitVec.ofNat 272 (f.payload.toNat + f.ty.toNat * 2 ^ 256 + f.ch.toNat * 2 ^ 260 + f.seq.toNat * 2 ^ 264)) =
      flitCrc f.body := by rw [hbody, Flit.body]
  unfold Flit.encode
  dsimp only
  rw [hcrcs, f.fields_eq, BitVec.toNat_ofNat, Nat.mod_eq_of_lt hlt]

/-- What stands above the payload. -/
theorem Flit.encode_div (f : Flit) (k : Nat) : f.encode.toNat / 2 ^ (256 + k) = f.head (flitCrc f.body) / 2 ^ k := by
  rw [Flit.encode_toNat, pow_add, ← Nat.div_div_eq_div_mul, Nat.add_mul_div_left _ _ (by positivity), Nat.div_eq_of_lt f.payload.isLt,
    Nat.zero_add]

/-- The covered bits of a flit as sent. -/
theorem Flit.encode_body (f : Flit) : f.encode.setWidth 272 = f.body := by
  apply BitVec.eq_of_toNat_eq
  have hall : f.payload.toNat + 2 ^ 256 * f.head (flitCrc f.body) =
      f.payload.toNat + 2 ^ 256 * f.head 0 + 2 ^ 272 * flitCrc f.body := by
    rw [← f.fields_eq, ← f.fields_eq, Nat.zero_mul, Nat.add_zero, Nat.mul_comm (2 ^ 272)]
  rw [BitVec.toNat_setWidth, Flit.encode_toNat, hall, Nat.add_mul_mod_self_left, Flit.body, BitVec.toNat_ofNat]

/-- The CRC of a flit as sent. -/
theorem Flit.encode_crc (f : Flit) : (f.encode >>> 272).toNat = flitCrc (f.encode.setWidth 272) := by
  have ht := f.ty.isLt
  have hch := f.ch.isLt
  have hs := f.seq.isLt
  rw [BitVec.toNat_ushiftRight, Nat.shiftRight_eq_div_pow, Flit.encode_body, show 272 = 256 + 16 from rfl, Flit.encode_div, Flit.head]
  omega

/-- A flit as sent decodes. -/
theorem Flit.decode_encode (f : Flit) (h : f.ty.toNat ≤ 6) : Flit.decode f.encode = some f := by
  have ht := f.ty.isLt
  have hch := f.ch.isLt
  have hs := f.seq.isLt
  have hp : f.encode.setWidth 256 = f.payload := by
    apply BitVec.eq_of_toNat_eq
    rw [BitVec.toNat_setWidth, Flit.encode_toNat, Nat.add_mul_mod_self_left, Nat.mod_eq_of_lt f.payload.isLt]
  have hty : (f.encode >>> 256).setWidth 4 = f.ty := by
    apply BitVec.eq_of_toNat_eq
    rw [BitVec.toNat_setWidth, BitVec.toNat_ushiftRight, Nat.shiftRight_eq_div_pow, show 256 = 256 + 0 from rfl, Flit.encode_div, Flit.head]
    omega
  have hc : (f.encode >>> 260).setWidth 2 = f.ch := by
    apply BitVec.eq_of_toNat_eq
    rw [BitVec.toNat_setWidth, BitVec.toNat_ushiftRight, Nat.shiftRight_eq_div_pow, show 260 = 256 + 4 from rfl, Flit.encode_div, Flit.head]
    omega
  have hseq : (f.encode >>> 264).setWidth 8 = f.seq := by
    apply BitVec.eq_of_toNat_eq
    rw [BitVec.toNat_setWidth, BitVec.toNat_ushiftRight, Nat.shiftRight_eq_div_pow, show 264 = 256 + 8 from rfl, Flit.encode_div, Flit.head]
    omega
  unfold Flit.decode
  rw [hp, hty, hc, hseq]
  exact if_pos ⟨f.encode_crc.symm, h⟩

/-- A flit whose CRC is another one is refused. -/
theorem Flit.decode_of_crc_ne (raw : BitVec 288) (h : flitCrc (raw.setWidth 272) ≠ (raw >>> 272).toNat) : Flit.decode raw = none :=
  if_neg fun e => h e.1

/-! ### A single wrong bit -/

/-- Which bits of a word with one bit flipped are wrong. -/
theorem getLsbD_flip (v : BitVec 288) (k i : Nat) (hk : k < 288) :
    (v ^^^ (1 : BitVec 288) <<< k).getLsbD i = (v.getLsbD i ^^ decide (i = k)) := by
  rw [BitVec.getLsbD_xor, BitVec.getLsbD_shiftLeft]
  congr 1
  by_cases hi : i < 288
  · by_cases h : i = k
    · simp [h, hk]
    · by_cases hlt : i < k
      · simp [h, hlt]
      · have : i - k ≠ 0 := by omega
        simp [h, this]
  · have : i ≠ k := by omega
    simp [hi, this]

/-- A wrong bit in the CRC leaves the covered bits. -/
theorem flip_crc_ne (v : BitVec 288) (k : Nat) (h272 : 272 ≤ k) (hk : k < 288)
    (hv : (v >>> 272).toNat = flitCrc (v.setWidth 272)) :
    flitCrc ((v ^^^ (1 : BitVec 288) <<< k).setWidth 272) ≠ ((v ^^^ (1 : BitVec 288) <<< k) >>> 272).toNat := by
  have hbody : (v ^^^ (1 : BitVec 288) <<< k).setWidth 272 = v.setWidth 272 := by
    apply BitVec.eq_of_getLsbD_eq
    intro i hi
    have hne : i ≠ k := by omega
    rw [BitVec.getLsbD_setWidth, BitVec.getLsbD_setWidth, getLsbD_flip v k i hk]
    simp [hne]
  rw [hbody, ← hv]
  intro e
  have hbit := congrArg (fun x : BitVec 288 => x.getLsbD (k - 272)) (BitVec.eq_of_toNat_eq e)
  simp only [BitVec.getLsbD_ushiftRight, Nat.add_sub_of_le h272, getLsbD_flip v k k hk] at hbit
  simp at hbit

/-- A wrong bit under the CRC leaves the CRC sent. -/
theorem flip_body_ne (v : BitVec 288) (k : Nat) (hk : k < 272) (hv : (v >>> 272).toNat = flitCrc (v.setWidth 272)) :
    flitCrc ((v ^^^ (1 : BitVec 288) <<< k).setWidth 272) ≠ ((v ^^^ (1 : BitVec 288) <<< k) >>> 272).toNat := by
  have hcrc : (v ^^^ (1 : BitVec 288) <<< k) >>> 272 = v >>> 272 := by
    apply BitVec.eq_of_getLsbD_eq
    intro i hi
    have hne : 272 + i ≠ k := by omega
    rw [BitVec.getLsbD_ushiftRight, BitVec.getLsbD_ushiftRight, getLsbD_flip v k _ (by omega)]
    simp [hne]
  rw [hcrc, hv, flitCrc_eq, flitCrc_eq]
  refine crcPrefix_ne hk ?_ fun i hi => ?_
  · rw [BitVec.getLsbD_setWidth, BitVec.getLsbD_setWidth, getLsbD_flip v k k (by omega)]
    simp [hk]
  · rw [BitVec.getLsbD_setWidth, BitVec.getLsbD_setWidth, getLsbD_flip v k i (by omega)]
    simp [hi]

/-- Settles O49: the CRC tells the flit sent from every one that differs from it in one bit. -/
theorem flitCoding : Obligations.FlitCoding := by
  intro f hty
  refine ⟨f.decode_encode hty, fun k hk => Flit.decode_of_crc_ne _ ?_⟩
  rcases Nat.lt_or_ge k 272 with h | h
  · exact flip_body_ne f.encode k h f.encode_crc
  · exact flip_crc_ne f.encode k h hk f.encode_crc

end Sys2Proof.Machine
end

section
/-! SUPPORT. Sums, differences, logic, moves, shifts and pair operations (R255, R256, R258). -/

namespace Sys2Proof.Machine

open Sys2Proof

/-! ### The rules of R258 as results and updates -/

/-- A result and its list of flags, as the model holds them. -/
def asUpd (r : Word × List (Nat × Bool)) : Word × Upd := (r.1, updOf r.2)

/-- Overflow of a signed sum of words. -/
theorem outOf16_add (a b : Word) (n : Nat) (hn : n ≤ 1) :
    (decide (a.msb = b.msb) && decide ((BitVec.ofNat 16 (a.toNat + b.toNat + n)).msb ≠ a.msb)) = outOf16 (a.toInt + b.toInt + n) := by
  have ha := a.isLt
  have hb := b.isLt
  rw [outOf16, Bool.eq_iff_iff]
  simp only [BitVec.msb_eq_decide, BitVec.toInt_eq_toNat_cond, BitVec.toNat_ofNat, Bool.and_eq_true, Bool.or_eq_true, decide_eq_true_eq,
    decide_eq_decide, ne_eq]
  generalize a.toNat = x at *
  generalize b.toNat = y at *
  norm_num only at *
  split_ifs <;> omega

/-- Overflow of a signed difference of words. -/
theorem outOf16_sub (a b : Word) (n : Nat) (hn : n ≤ 1) :
    (decide (a.msb ≠ b.msb) && decide ((BitVec.ofInt 16 ((a.toNat : Int) - b.toNat - n)).msb ≠ a.msb)) = outOf16 (a.toInt - b.toInt - n) := by
  have ha := a.isLt
  have hb := b.isLt
  rw [outOf16, Bool.eq_iff_iff]
  simp only [BitVec.msb_eq_decide, BitVec.toInt_eq_toNat_cond, BitVec.toNat_ofInt, Bool.and_eq_true, Bool.or_eq_true, decide_eq_true_eq,
    decide_eq_decide, ne_eq]
  generalize a.toNat = x at *
  generalize b.toNat = y at *
  norm_num only at *
  split_ifs <;> omega

theorem b2n_le_one (b : Bool) : b2n b ≤ 1 := by cases b <;> decide

/-- The update of a list that goes on. -/
theorem updOf_append_list (fl gl : List (Nat × Bool)) : updOf (fl ++ gl) = gl.foldl (fun u e => u.put e.1 e.2) (updOf fl) := by
  induction gl generalizing fl with
  | nil => rw [List.append_nil]; rfl
  | cons e gl ih => rw [List.append_cons, ih, updOf_append, List.foldl_cons]

/-- Sums follow R258. -/
theorem addOf_eq (a b : Word) (cin chained : Bool) : addOf a b cin chained = asUpd (sumRule chained a b cin) := by
  have hr : BitVec.ofNat 16 (a.toNat + b.toNat + b2n cin) = a + b + BitVec.ofNat 16 (b2n cin) := by
    simp [BitVec.ofNat_add]
  have hv := outOf16_add a b (b2n cin) (b2n_le_one cin)
  rw [hr] at hv
  unfold addOf sumRule asUpd
  dsimp only
  rw [hr, hv, updOf_append_list, ← updOf_z]
  rfl

/-- Differences follow R258. -/
theorem subOf_eq (a b : Word) (bin chained : Bool) : subOf a b bin chained = asUpd (diffRule chained a b bin) := by
  have hr : BitVec.ofInt 16 ((a.toNat : Int) - b.toNat - b2n bin) = a - b - BitVec.ofNat 16 (b2n bin) := by
    apply BitVec.eq_of_toNat_eq
    have ha := a.isLt
    have hb := b.isLt
    have hn := b2n_le_one bin
    simp only [BitVec.toNat_ofInt, BitVec.toNat_sub, BitVec.toNat_ofNat]
    omega
  have hv := outOf16_sub a b (b2n bin) (b2n_le_one bin)
  rw [hr] at hv
  unfold subOf diffRule asUpd
  dsimp only
  rw [hr, hv, ← updOf_z]
  rfl

/-- Logic follows R258. -/
theorem logicOf_eq (r : Word) : logicOf r = asUpd (r, logicFlags r) := rfl

/-- A result without flags. -/
theorem asUpd_nil (r : Word) : ((r, {}) : Word × Upd) = asUpd (r, []) := rfl

/-- A rotation by less than the width: the bits that stay and those that come round. -/
theorem rotate_toNat (x m : Nat) (hx : x < 2 ^ 16) (hm : m < 16) :
    (2 ^ m * x % 2 ^ 16 ||| x / 2 ^ (16 - m)) = (2 ^ m * x + x / 2 ^ (16 - m)) % 2 ^ 16 := by
  have h16 : (2 : Nat) ^ 16 = 2 ^ m * 2 ^ (16 - m) := by rw [← pow_add, Nat.add_sub_of_le (by omega)]
  have hy : x / 2 ^ (16 - m) < 2 ^ m := Nat.div_lt_of_lt_mul (by rwa [Nat.mul_comm, ← h16])
  have hlow : 2 ^ m * x % 2 ^ 16 = 2 ^ m * (x % 2 ^ (16 - m)) := by rw [h16, Nat.mul_mod_mul_left]
  have hr : x % 2 ^ (16 - m) < 2 ^ (16 - m) := Nat.mod_lt _ (by positivity)
  have hlt : 2 ^ m * (x % 2 ^ (16 - m)) + x / 2 ^ (16 - m) < 2 ^ 16 := by
    have hle : 2 ^ m * (x % 2 ^ (16 - m)) + 2 ^ m ≤ 2 ^ m * 2 ^ (16 - m) := Nat.mul_le_mul_left (2 ^ m) hr
    rw [h16]
    omega
  rw [Nat.add_mod, hlow, ← Nat.two_pow_add_eq_or_of_lt hy, Nat.mod_eq_of_lt (lt_trans hy (Nat.pow_lt_pow_right (by decide) hm)),
    Nat.mod_eq_of_lt hlt]

/-- The results of shifts as R258 gives them. -/
theorem shiftVal_eq (k : ShiftKind) (a : Word) (n : Nat) : shiftVal k a n = (shiftRule k a n).1 := by
  have ha := a.isLt
  cases k with
  | shl => exact BitVec.eq_of_toNat_eq (by simp [shiftVal, shiftRule, Nat.shiftLeft_eq])
  | shr =>
    have hlt : a.toNat / 2 ^ n < 2 ^ 16 := lt_of_le_of_lt (Nat.div_le_self _ _) ha
    exact BitVec.eq_of_toNat_eq (by simpa [shiftVal, shiftRule, Nat.shiftRight_eq_div_pow] using (Nat.mod_eq_of_lt hlt).symm)
  | sar =>
    have h : (a.sshiftRight n).toInt = a.toInt >>> n := BitVec.toInt_sshiftRight
    rw [shiftVal, shiftRule, ← BitVec.ofInt_toInt (x := a.sshiftRight n), h, Int.shiftRight_eq_div_pow]
    rfl
  | rol =>
    have hm : n % 16 < 16 := Nat.mod_lt _ (by decide)
    apply BitVec.eq_of_toNat_eq
    rw [shiftVal, shiftRule, BitVec.rotateLeft_def, Nat.mod_eq_of_lt hm, BitVec.toNat_or, BitVec.toNat_shiftLeft, BitVec.toNat_ushiftRight,
      Nat.shiftLeft_eq, Nat.shiftRight_eq_div_pow, BitVec.toNat_ofNat, Nat.mul_comm, rotate_toNat _ _ ha hm]

/-- Shifts follow R258. -/
theorem shiftOf_eq (k : ShiftKind) (a : Word) (n : Nat) : shiftOf k a n = asUpd (shiftRule k a n) := by
  have hr := shiftVal_eq k a n
  have hout : shiftOut .rol a n = (shiftRule .rol a n).1.getLsbD 0 := congrArg (BitVec.getLsbD · 0) (shiftVal_eq .rol a n)
  have hz (r : Word) : znOf r = updOf [(2, decide (r = 0)), (3, r.msb)] := rfl
  have hp (r : Word) (x : Bool) : (znOf r).put 1 x = updOf ([(2, decide (r = 0)), (3, r.msb)] ++ [(1, x)]) := rfl
  unfold shiftOf
  dsimp only
  rw [hr, hp, hz]
  cases k with
  | shl => by_cases h : n = 0 <;> simp [shiftRule, shiftOut, asUpd, h]
  | shr => by_cases h : n = 0 <;> simp [shiftRule, shiftOut, asUpd, h]
  | sar => by_cases h : n = 0 <;> simp [shiftRule, shiftOut, asUpd, h]
  | rol => by_cases h : n % 16 = 0 <;> simp [hout, shiftRule, asUpd, h]

/-- Sums and differences of pairs follow R258. -/
theorem addPOf_eq (a b : W32) :
    addPOf a b = (a + b, updOf (pairFlags (2 ^ 32 ≤ a.toNat + b.toNat) (a + b) (a.toInt + b.toInt))) := by
  have ha := a.isLt
  have hb := b.isLt
  have hv : (decide (a.msb = b.msb) && decide ((a + b).msb ≠ a.msb)) = outOf32 (a.toInt + b.toInt) := by
    rw [outOf32, Bool.eq_iff_iff]
    simp only [BitVec.msb_eq_decide, BitVec.toInt_eq_toNat_cond, BitVec.toNat_add, Bool.and_eq_true, Bool.or_eq_true, decide_eq_true_eq,
      decide_eq_decide, ne_eq]
    generalize a.toNat = x at *
    generalize b.toNat = y at *
    norm_num only at *
    split_ifs <;> omega
  unfold addPOf pairFlags
  dsimp only
  rw [hv]
  rfl

theorem subPOf_eq (a b : W32) :
    subPOf a b = (a - b, updOf (pairFlags (a.toNat < b.toNat) (a - b) (a.toInt - b.toInt))) := by
  have ha := a.isLt
  have hb := b.isLt
  have hv : (decide (a.msb ≠ b.msb) && decide ((a - b).msb ≠ a.msb)) = outOf32 (a.toInt - b.toInt) := by
    rw [outOf32, Bool.eq_iff_iff]
    simp only [BitVec.msb_eq_decide, BitVec.toInt_eq_toNat_cond, BitVec.toNat_sub, Bool.and_eq_true, Bool.or_eq_true, decide_eq_true_eq,
      decide_eq_decide, ne_eq]
    generalize a.toNat = x at *
    generalize b.toNat = y at *
    norm_num only at *
    split_ifs <;> omega
  unfold subPOf pairFlags
  dsimp only
  rw [hv]
  rfl

/-! ### Instructions that write a result and its flags -/

/-- A rule whose flags are bits of PSW. -/
def bitsOk (f : State → Word × List (Nat × Bool)) : Prop := ∀ s, ∀ e ∈ (f s).2, e.1 < 16

/-- An instruction over rd and rs. -/
theorem gives_rr {i : Instr} {c : CoreId} {rd rs : Reg} {g : Word → Word → Word × Upd} {f : State → Word × List (Nat × Bool)}
    (hexec : ∀ s, exec i s = .next (s.rr c rd rs g)) (hg : ∀ s, g (s.rg c rd) (s.rg c rs) = asUpd (f s)) (hf : bitsOk f) :
    Gives i c 1 { regs := [rd, rs] } rd f := by
  refine does_of_quiet hexec fun s => ?_
  rw [rg_past, rg_past, hg]
  exact ran_alu s c 1 rd _ _ (hf s)

/-- An instruction over rd and a constant. -/
theorem gives_ri {i : Instr} {c : CoreId} {rd : Reg} {len : Nat} {g : Word → Word × Upd} {f : State → Word × List (Nat × Bool)}
    (hexec : ∀ s, exec i s = .next (s.ri c rd len g)) (hg : ∀ s, g (s.rg c rd) = asUpd (f s)) (hf : bitsOk f) :
    Gives i c len { regs := [rd] } rd f := by
  refine does_of_quiet hexec fun s => ?_
  rw [rg_past, hg]
  exact ran_alu s c len rd _ _ (hf s)

/-- A comparison. -/
theorem compares_of {i : Instr} {c : CoreId} {len : Nat} {u : Uses} {g : State → Word × Upd} {f : State → Word × List (Nat × Bool)}
    (hexec : ∀ s, exec i s = .next (s.hod c len u (quiet fun s => s.flags c (g s).2))) (hg : ∀ s, g (s.past c len) = asUpd (f s))
    (hf : bitsOk f) : Compares i c len u f := by
  refine does_of_quiet hexec fun s => ?_
  rw [hg]
  exact ran_flags s c len _ (hf s)

theorem sumRule_bits (ch : Bool) (a b : Word) (cin : Bool) : ∀ e ∈ (sumRule ch a b cin).2, e.1 < 16 := by
  intro e he
  simp only [sumRule, List.mem_append] at he
  rcases he with (he | he) | he
  · revert e; simp
  · exact zFlag_lt _ _ e he
  · revert e; simp

theorem diffRule_bits (ch : Bool) (a b : Word) (bin : Bool) : ∀ e ∈ (diffRule ch a b bin).2, e.1 < 16 := by
  intro e he
  simp only [diffRule, List.mem_append] at he
  rcases he with he | he
  · revert e; simp
  · exact zFlag_lt _ _ e he

theorem logicFlags_bits (r : Word) : ∀ e ∈ logicFlags r, e.1 < 16 := by simp [logicFlags]

theorem shiftRule_bits (k : ShiftKind) (a : Word) (n : Nat) : ∀ e ∈ (shiftRule k a n).2, e.1 < 16 := by
  intro e he
  simp only [shiftRule, List.mem_append] at he
  rcases he with he | he
  · revert e; simp
  · split at he
    · cases he
    · rw [List.mem_singleton.1 he]
      exact Nat.le_of_ble_eq_true rfl

theorem pairFlags_bits (x : Bool) (r : W32) (i : Int) : ∀ e ∈ pairFlags x r i, e.1 < 16 := by simp [pairFlags]

/-- Sums and differences. -/
theorem hodSums : Sys2Proof.Rules.HodSums := by
  intro c rd rs i w
  refine ⟨gives_rr (fun _ => rfl) (fun s => addOf_eq _ _ _ _) fun s => sumRule_bits _ _ _ _,
    does_of_quiet (fun _ => rfl) fun s => ?_,
    gives_rr (fun _ => rfl) (fun s => subOf_eq _ _ _ _) fun s => diffRule_bits _ _ _ _,
    does_of_quiet (fun _ => rfl) fun s => ?_,
    gives_rr (fun _ => rfl) (fun s => subOf_eq _ _ _ _) fun s => diffRule_bits _ _ _ _,
    gives_ri (fun _ => rfl) (fun s => addOf_eq _ _ _ _) fun s => sumRule_bits _ _ _ _,
    gives_ri (fun _ => rfl) (fun s => addOf_eq _ _ _ _) fun s => sumRule_bits _ _ _ _,
    compares_of (fun _ => rfl) (fun s => by rw [rg_past, rg_past]; exact subOf_eq _ _ _ _) fun s => diffRule_bits _ _ _ _,
    compares_of (fun _ => rfl) (fun s => by rw [rg_past]; exact subOf_eq _ _ _ _) fun s => diffRule_bits _ _ _ _,
    compares_of (fun _ => rfl) (fun s => by rw [rg_past]; exact subOf_eq _ _ _ _) fun s => diffRule_bits _ _ _ _⟩
  · dsimp only
    rw [rg_past, rg_past, cFlag_past, addOf_eq]
    exact ran_alu s c 1 rd _ _ (sumRule_bits _ _ _ _)
  · dsimp only
    rw [rg_past, rg_past, cFlag_past, subOf_eq]
    exact ran_alu s c 1 rd _ _ (diffRule_bits _ _ _ _)

/-- Logic. -/
theorem hodLogic : Sys2Proof.Rules.HodLogic := by
  intro c rd rs w f h
  exact ⟨gives_rr (fun _ => rfl) (fun _ => rfl) fun s => logicFlags_bits _, gives_rr (fun _ => rfl) (fun _ => rfl) fun s => logicFlags_bits _,
    gives_rr (fun _ => rfl) (fun _ => rfl) fun s => logicFlags_bits _, gives_rr (fun _ => rfl) (fun _ => rfl) fun s => logicFlags_bits _,
    gives_rr (fun _ => rfl) (fun _ => rfl) fun s => logicFlags_bits _, gives_ri (fun _ => rfl) (fun _ => rfl) fun s => logicFlags_bits _,
    gives_ri (fun _ => rfl) (fun _ => rfl) fun s => logicFlags_bits _, gives_ri (fun _ => rfl) (fun _ => rfl) fun s => logicFlags_bits _⟩

/-- Moves and NOP. -/
theorem hodMoves : Sys2Proof.Rules.HodMoves := by
  intro c rd rs i w d p
  refine ⟨gives_rr (fun _ => rfl) (fun _ => rfl) fun s => by simp, gives_ri (fun _ => rfl) (fun _ => rfl) fun s => by simp,
    gives_ri (fun _ => rfl) (fun _ => rfl) fun s => by simp, does_of_quiet (fun _ => rfl) fun s => ?_,
    does_of_quiet (fun s => by
      show execMovpw c (evenReg d) w s = Host.Outcome.next _
      rw [execMovpw, evenOnly_evenReg, pairAt_evenReg]) fun s => ?_,
    does_of_quiet (fun _ => rfl) fun s => ran_wrs s c 1 [] List.nodup_nil⟩
  · rw [pr_past]
    exact ran_wrp s c 1 d _
  · exact ran_wrp s c 2 d _

/-- Shifts. -/
theorem hodShifts : Sys2Proof.Rules.HodShifts := by
  intro c rd rs i f g
  exact ⟨gives_rr (fun _ => rfl) (fun s => shiftOf_eq _ _ _) fun s => shiftRule_bits _ _ _,
    gives_rr (fun _ => rfl) (fun s => shiftOf_eq _ _ _) fun s => shiftRule_bits _ _ _,
    gives_rr (fun _ => rfl) (fun s => shiftOf_eq _ _ _) fun s => shiftRule_bits _ _ _,
    gives_rr (fun _ => rfl) (fun s => shiftOf_eq _ _ _) fun s => shiftRule_bits _ _ _,
    gives_ri (fun _ => rfl) (fun s => shiftOf_eq _ _ _) fun s => shiftRule_bits _ _ _,
    gives_ri (fun _ => rfl) (fun s => shiftOf_eq _ _ _) fun s => shiftRule_bits _ _ _,
    gives_ri (fun _ => rfl) (fun s => shiftOf_eq _ _ _) fun s => shiftRule_bits _ _ _⟩

/-- An instruction that moves the pc and writes a pair and its flags does what Ran says. -/
theorem ran_aluP (s : State) (c : CoreId) (n : Nat) (d : PairIx) (r : W32) (fl : List (Nat × Bool)) (hfl : ∀ e ∈ fl, e.1 < 16) :
    Ran s ((s.past c n).aluP c d (r, updOf fl)) c n (pairWrite d r) fl :=
  ran_wrs_flags s c n (pairWrite d r) fl (named_pair_nodup _ c d _ _) hfl

/-- 32-bit operations on pairs. -/
theorem hodPairs : Sys2Proof.Rules.HodPairs := by
  intro c d p w u
  refine ⟨does_of_quiet (fun _ => rfl) fun s => ?_, does_of_quiet (fun _ => rfl) fun s => ?_, does_of_quiet (fun _ => rfl) fun s => ?_,
    does_of_quiet (fun s => by
      show execAddpw c (evenReg d) w s = Host.Outcome.next _
      rw [execAddpw, evenOnly_evenReg, pairAt_evenReg]) fun s => ?_⟩
  · dsimp only
    rw [pr_past, pr_past, addPOf_eq]
    exact ran_aluP s c 1 d _ _ (pairFlags_bits _ _ _)
  · dsimp only
    rw [pr_past, pr_past, subPOf_eq]
    exact ran_aluP s c 1 d _ _ (pairFlags_bits _ _ _)
  · dsimp only
    rw [pr_past, pr_past, subPOf_eq]
    exact ran_flags s c 1 _ (pairFlags_bits _ _ _)
  · dsimp only
    rw [pr_past, addPOf_eq]
    exact ran_aluP s c 2 d _ _ (pairFlags_bits _ _ _)

/-- Settles O3: sums, logic, moves, shifts and pairs. -/
theorem hodArithmetic : Obligations.HodArithmetic := ⟨hodSums, hodLogic, hodMoves, hodShifts, hodPairs⟩

end Sys2Proof.Machine
end

section
/-! SUPPORT. DAJ after a binary sum of decimal words (R258, R263). -/

namespace Sys2Proof.Machine

open Sys2Proof

/-- The carry of a binary sum into digit i. -/
def nibbleCarry (a b : Word) (cin : Bool) (i : Nat) : Bool := 16 ^ i ≤ a.toNat % 16 ^ i + b.toNat % 16 ^ i + b2n cin

/-- A digit enters below the next power of 16. -/
theorem mod_pow_succ_digit (w : Word) (i : Nat) : w.toNat % 16 ^ (i + 1) = w.toNat % 16 ^ i + 16 ^ i * digit w i := by
  rw [pow_succ, Nat.mod_mul]
  rfl

/-- The carry into digit 0 is the one that ADC takes. -/
theorem nibbleCarry_zero (a b : Word) (cin : Bool) : nibbleCarry a b cin 0 = cin := by
  cases cin <;> simp [nibbleCarry, Nat.mod_one, b2n]

/-- A carry leaves digit i where its two digits and the carry into it reach 16. -/
theorem nibbleCarry_succ (a b : Word) (cin : Bool) (i : Nat) :
    nibbleCarry a b cin (i + 1) = decide (16 ≤ digit a i + digit b i + b2n (nibbleCarry a b cin i)) := by
  have hp : 0 < 16 ^ i := by positivity
  have ha := Nat.mod_lt a.toNat hp
  have hb := Nat.mod_lt b.toNat hp
  have hn := b2n_le_one cin
  unfold nibbleCarry
  rw [mod_pow_succ_digit, mod_pow_succ_digit, pow_succ, decide_eq_decide]
  have hsplit : a.toNat % 16 ^ i + 16 ^ i * digit a i + (b.toNat % 16 ^ i + 16 ^ i * digit b i) + b2n cin =
      (a.toNat % 16 ^ i + b.toNat % 16 ^ i + b2n cin) + 16 ^ i * (digit a i + digit b i) := by ring
  rw [hsplit]
  by_cases h : 16 ^ i ≤ a.toNat % 16 ^ i + b.toNat % 16 ^ i + b2n cin
  · rw [decide_eq_true h]
    show _ ↔ 16 ≤ digit a i + digit b i + 1
    constructor
    · intro h16
      by_contra hlt
      have : 16 ^ i * (digit a i + digit b i) ≤ 16 ^ i * 14 := Nat.mul_le_mul_left _ (by omega)
      omega
    · intro h16
      have : 16 ^ i * 15 ≤ 16 ^ i * (digit a i + digit b i) := Nat.mul_le_mul_left _ (by omega)
      omega
  · rw [decide_eq_false h]
    show _ ↔ 16 ≤ digit a i + digit b i + 0
    constructor
    · intro h16
      by_contra hlt
      have : 16 ^ i * (digit a i + digit b i) ≤ 16 ^ i * 15 := Nat.mul_le_mul_left _ (by omega)
      omega
    · intro h16
      have : 16 ^ i * 16 ≤ 16 ^ i * (digit a i + digit b i) := Nat.mul_le_mul_left _ (by omega)
      omega

/-- A digit of a binary sum. -/
theorem digit_add (a b : Word) (cin : Bool) (i : Nat) (hi : i < 4) :
    digit (a + b + BitVec.ofNat 16 (b2n cin)) i = (digit a i + digit b i + b2n (nibbleCarry a b cin i)) % 16 := by
  have ha := a.isLt
  have hb := b.isLt
  have hn := b2n_le_one cin
  have hsum : (a + b + BitVec.ofNat 16 (b2n cin)).toNat = (a.toNat + b.toNat + b2n cin) % 65536 := by simp [BitVec.toNat_add]
  unfold digit nibbleCarry
  rw [hsum]
  generalize a.toNat = x at *
  generalize b.toNat = y at *
  generalize b2n cin = n at *
  by_cases h : 16 ^ i ≤ x % 16 ^ i + y % 16 ^ i + n
  · rw [decide_eq_true h]
    simp only [b2n, if_true]
    interval_cases i <;> simp only [Nat.reducePow] at h ⊢ <;> omega
  · rw [decide_eq_false h]
    simp only [b2n, Bool.false_eq_true, if_false]
    interval_cases i <;> simp only [Nat.reducePow] at h ⊢ <;> omega

/-- The half carries and C after ADD or ADC hold the carries out of the four digits. -/
theorem sumRule_carries (a b psw : Word) (cin ch : Bool) (i : Nat) (hi : i < 4) :
    (if i < 3 then wbit (flagged psw (sumRule ch a b cin).2) (5 + i) else wbit (flagged psw (sumRule ch a b cin).2) 1) =
      nibbleCarry a b cin (i + 1) := by
  have hz : ∀ w : Word, ∀ b : Nat, b ≠ 2 → ∀ r : Word, wbit ((zFlag ch r).foldl (fun w e => putBit w e.1 e.2) w) b = wbit w b := by
    intro w b hb r
    unfold zFlag
    split_ifs <;> simp [wbit_putBit, hb]
  unfold sumRule flagged
  interval_cases i <;> simp [List.foldl_append, wbit_putBit, hz, nibbleCarry]

/-- One digit of DAJ after the binary sum of two digits: with binary carry c and internal carry k into it, of which one at most is
set, it leaves the decimal digit, and one of the carries out of it is set where the decimal sum has one. -/
theorem dajDigit_decimal (x y c k : Nat) (hx : x ≤ 9) (hy : y ≤ 9) (hck : c + k ≤ 1) (cc : Bool) (hcc : cc = decide (16 ≤ x + y + c))
    (t : Nat) (ht : t = if (cc || decide (9 < (x + y + c) % 16 + k)) = true then (x + y + c) % 16 + k + 6 else (x + y + c) % 16 + k) :
    t % 16 = (x + y + (c + k)) % 10 ∧ b2n cc + b2n (!cc && decide (15 < t)) = (x + y + (c + k)) / 10 := by
  subst hcc
  by_cases h : 16 ≤ x + y + c
  · simp [h, b2n] at ht ⊢
    omega
  · simp only [h, decide_false, Bool.false_or, decide_eq_true_eq, Bool.not_false, Bool.true_and, b2n] at ht ⊢
    by_cases h15 : 15 < t
    · simp only [h15, if_true, Bool.false_eq_true, if_false]
      split_ifs at ht <;> omega
    · simp only [h15, Bool.false_eq_true, if_false]
      split_ifs at ht <;> omega

/-- The decimal carry into digit i: its binary carry or DAJ's internal one. -/
def decCarry (a b psw : Word) (cin ch : Bool) (i : Nat) : Nat :=
  b2n (nibbleCarry a b cin i) + b2n (dajAt (sumRule ch a b cin).1 (flagged psw (sumRule ch a b cin).2) i).1

/-- Digit by digit, DAJ after a sum adds decimally. -/
theorem daj_step (a b psw : Word) (cin ch : Bool) (ha : bcdOk a = true) (hb : bcdOk b = true) (i : Nat) (hi : i < 4)
    (hc : decCarry a b psw cin ch i ≤ 1) :
    digit (dajOf (sumRule ch a b cin).1 (flagged psw (sumRule ch a b cin).2)).1 i =
        (digit a i + digit b i + decCarry a b psw cin ch i) % 10 ∧
      decCarry a b psw cin ch (i + 1) = (digit a i + digit b i + decCarry a b psw cin ch i) / 10 := by
  have hcc := sumRule_carries a b psw cin ch i hi
  have hd : digit (sumRule ch a b cin).1 i = _ := digit_add a b cin i hi
  rw [digit_dajOf _ _ i hi]
  unfold decCarry
  rw [dajAt_succ]
  dsimp only
  rw [hcc]
  refine dajDigit_decimal (digit a i) (digit b i) _ _ ((bcdOk_iff a).1 ha i hi) ((bcdOk_iff b).1 hb i hi) hc _
    (nibbleCarry_succ a b cin i) _ ?_
  unfold dajSum
  dsimp only
  rw [hcc, hd]

/-- The decimal carry into digit 0. -/
theorem decCarry_zero (a b psw : Word) (cin ch : Bool) : decCarry a b psw cin ch 0 = b2n cin := by
  rw [decCarry, nibbleCarry_zero]
  rfl

/-- The decimal carry is one bit. -/
theorem decCarry_le_one (a b psw : Word) (cin ch : Bool) (ha : bcdOk a = true) (hb : bcdOk b = true) (i : Nat) (hi : i ≤ 4) :
    decCarry a b psw cin ch i ≤ 1 := by
  induction i with
  | zero => exact (decCarry_zero a b psw cin ch).trans_le (b2n_le_one cin)
  | succ i ih =>
    have hprev := ih (by omega)
    have hx := (bcdOk_iff a).1 ha i hi
    have hy := (bcdOk_iff b).1 hb i hi
    rw [(daj_step a b psw cin ch ha hb i hi hprev).2]
    omega

/-- C after DAJ. -/
theorem dajOf_carry (w psw : Word) : wbit ((dajOf w psw).2.on psw) 1 = (wbit psw 1 || (dajAt w psw 4).1) := by
  have hu : (dajOf w psw).2 = updOf [(1, wbit psw 1 || (dajAt w psw 4).1), (2, (dajOf w psw).1 = 0)] := rfl
  rw [hu, updOf_on _ _ (by simp)]
  simp [flagged, wbit_putBit]

/-- Settles O2: each digit of DAJ is the decimal digit of the sum, with its carry in the half carries or in DAJ. -/
theorem dajAdjusts : Obligations.DajAdjusts := by
  intro a b psw cin ch ha hb r j n
  have hr : r = asUpd (sumRule ch a b cin) := addOf_eq a b cin ch
  have hpsw : r.2.on psw = flagged psw (sumRule ch a b cin).2 := by
    rw [hr]
    exact updOf_on _ _ (sumRule_bits ch a b cin)
  have hj : j = dajOf (sumRule ch a b cin).1 (flagged psw (sumRule ch a b cin).2) := by
    show dajOf r.1 (r.2.on psw) = _
    rw [hpsw, hr]
    rfl
  have hc0 := decCarry_zero a b psw cin ch
  have hle := decCarry_le_one a b psw cin ch ha hb
  have hA := (bcdOk_iff a).1 ha
  have hB := (bcdOk_iff b).1 hb
  have a0 := hA 0 (by decide); have a1 := hA 1 (by decide); have a2 := hA 2 (by decide); have a3 := hA 3 (by decide)
  have b0 := hB 0 (by decide); have b1 := hB 1 (by decide); have b2 := hB 2 (by decide); have b3 := hB 3 (by decide)
  obtain ⟨d0, c1⟩ := daj_step a b psw cin ch ha hb 0 (by decide) (hle 0 (by decide))
  obtain ⟨d1, c2⟩ := daj_step a b psw cin ch ha hb 1 (by decide) (hle 1 (by decide))
  obtain ⟨d2, c3⟩ := daj_step a b psw cin ch ha hb 2 (by decide) (hle 2 (by decide))
  obtain ⟨d3, c4⟩ := daj_step a b psw cin ch ha hb 3 (by decide) (hle 3 (by decide))
  simp only [Nat.reduceAdd] at c1 c2 c3 c4
  rw [← hj] at d0 d1 d2 d3
  refine ⟨?_, ?_, ?_⟩
  · rw [bcdOk_iff]
    intro i hi
    interval_cases i <;> omega
  · show bcdNat j.1 = (bcdNat a + bcdNat b + b2n cin) % 10000
    rw [bcdNat_eq, bcdNat_eq a, bcdNat_eq b]
    omega
  · have hc : wbit (j.2.on (r.2.on psw)) 1 = decide (1 ≤ decCarry a b psw cin ch 4) := by
      have h3 := sumRule_carries a b psw cin ch 3 (by decide)
      simp only [show ¬ 3 < 3 by decide, if_false, Nat.reduceAdd] at h3
      rw [hpsw, hj, dajOf_carry, h3, decCarry]
      generalize nibbleCarry a b cin 4 = x
      generalize (dajAt _ _ 4).1 = y
      revert x y
      decide
    rw [hc, decide_eq_decide]
    show _ ↔ 10000 ≤ bcdNat a + bcdNat b + b2n cin
    rw [bcdNat_eq a, bcdNat_eq b]
    omega

end Sys2Proof.Machine
end

section
/-! SUPPORT. Every command leaves a legal state legal and the queue of waiting commands as it is: the instructions of the hod cores. -/

namespace Sys2Proof.Machine

open Sys2Proof

/-- What a command answers from s, if it is a next state, is legal and has the queue of s. -/
def NextKeeps (s : State) (o : Host.Outcome State Fault Refusal) : Prop := ∀ t, o = .next t → Keeps s t

/-- A next state that is legal and has the queue of s. -/
theorem Keeps.next {s t : State} (h : Keeps s t) : NextKeeps s (.next t) := by
  intro u e
  cases e
  exact h

variable {s : State} (h : s.mem.wf = true) (hc : coresLegal s.cores)

/-- The state part of an answer. -/
theorem Keeps.of_eq {α : Type} {s t : State} {r : α × State} {a : α} (k : Keeps s r.2) (e : r = (a, t)) : Keeps s t := by
  rw [e] at k
  exact k

/-- A core changed into a legal one. -/
theorem Keeps.modCore {s t : State} (k : Keeps s t) (c : CoreId) (f : Core → Core) (hf : ∀ k, Core.legal c k = true → Core.legal c (f k) = true) :
    Keeps s (t.modCore c f) := Keeps.step k fun a b => modCore_keeps t c f a b (hf _ (core_legal t c b))

/-! ### Instructions by their effects -/

include h hc in
/-- An instruction whose effect keeps. -/
theorem next_hod (c : CoreId) (len : Nat) (u : Uses) {body : State → Option Trap × State} (hb : BodyKeeps body) :
    NextKeeps s (.next (s.hod c len u body)) := Keeps.next (hod_keeps s c len u body h hc hb)

/-- A change of a core that leaves it legal. -/
theorem quiet_modCore (c : CoreId) (f : Core → Core) (hf : ∀ k, Core.legal c k = true → Core.legal c (f k) = true) :
    BodyKeeps (quiet fun s => s.modCore c f) :=
  quiet_keeps _ fun t a b => modCore_keeps t c f a b (hf _ (core_legal t c b))

/-- Flags that a status word may hold. -/
theorem quiet_flags (c : CoreId) (u : State → Upd) (hu : ∀ t, maskOk (u t).mask) : BodyKeeps (quiet fun s => s.flags c (u s)) :=
  quiet_keeps _ fun t a b => flags_keeps t c _ a b (hu t)

/-- A result and its flags. -/
theorem quiet_alu (c : CoreId) (rd : Reg) (r : State → Word × Upd) (hr : ∀ t, maskOk (r t).2.mask) :
    BodyKeeps (quiet fun s => s.alu c rd (r s)) :=
  quiet_keeps _ fun t a b => alu_keeps t c rd _ a b (hr t)

/-- A jump. -/
theorem quiet_jump (c : CoreId) (a : State → W32) : BodyKeeps (quiet fun s => s.jump c (a s)) :=
  quiet_keeps _ fun t x y => jump_keeps t c _ x y

/-- An instruction of one word in memory, from its element. -/
theorem single_bodyKeeps (c : CoreId) {e : State → Elem} (he : ∀ t : State, t.mem.wf = true → coresLegal t.cores → Keeps t (e t).2) :
    BodyKeeps fun s => s.single c (e s) := by
  intro t a b
  have k := he t a b
  dsimp only
  generalize e t = x at k ⊢
  obtain ⟨o, s1⟩ := x
  rcases o with - | (_ | _) <;> exact k

/-- No flags are flags that a status word may hold. -/
theorem maskOk_none : maskOk ({} : Upd).mask := maskOk_nil

/-- A flag in the middle of the status word. -/
theorem maskOk_one (b : Nat) (v : Bool) (h0 : 0 < b) (hb : b < 14) : maskOk (({} : Upd).put b v).mask := maskOk_put _ b v maskOk_nil h0 hb

/-! ### Windows, returns and gates -/

include h hc in
theorem execWopen_keeps (c : CoreId) : NextKeeps s (execWopen c s) := by
  refine next_hod h hc _ _ _ (notOnBank_keeps c _ fun t a b => ?_)
  have k : Keeps t (t.openCheck c).2 := openCheck_keeps t c a b
  dsimp only
  generalize t.openCheck c = r at k ⊢
  obtain ⟨_ | e, s1⟩ := r
  · exact Keeps.ite (Keeps.step k fun x y => moveUp_keeps s1 c x y) k
  · exact k

include h hc in
theorem execRet_keeps (c : CoreId) : NextKeeps s (execRet c s) := by
  refine next_hod h hc _ _ _ (notOnBank_keeps c _ fun t a b => ?_)
  have k : Keeps t (t.shadowTop c (t.pr c 7)).2 := shadowTop_keeps t c _ a b
  dsimp only
  generalize t.shadowTop c (t.pr c 7) = r at k ⊢
  obtain ⟨_ | e, s1⟩ := r
  · have k2 : Keeps t (s1.closeWindow c).2 := Keeps.step k fun x y => closeWindow_keeps s1 c x y
    dsimp only
    generalize s1.closeWindow c = r at k2 ⊢
    obtain ⟨_ | e, s2⟩ := r
    · exact Keeps.step (Keeps.step k2 fun x y => popShadow_keeps s2 c 2 x y) fun x y => jump_keeps _ c _ x y
    · exact k2
  · exact k

include h hc in
theorem execRetl_keeps (c : CoreId) : NextKeeps s (execRetl c s) := by
  refine next_hod h hc _ _ _ fun t a b => ?_
  have k : Keeps t (t.shadowTop c (t.pr c linkPair)).2 := shadowTop_keeps t c _ a b
  dsimp only
  generalize t.shadowTop c (t.pr c linkPair) = r at k ⊢
  obtain ⟨_ | e, s1⟩ := r
  · exact Keeps.step (Keeps.step k fun x y => popShadow_keeps s1 c 2 x y) fun x y => jump_keeps _ c _ x y
  · exact k

/-! ### Memory -/

include h hc in
theorem execCas_keeps (c : CoreId) (rd rc : Reg) (p : PairIx) : NextKeeps s (execCas c rd rc p s) := by
  refine next_hod h hc _ _ _ fun t a b => ?_
  have k : Keeps t ((t.drainAll c).storeCheck c .store (t.pr c p)).2 :=
    Keeps.step (drainAll_keeps t c a b) fun x y => storeCheck_keeps _ c _ _ x y
  dsimp only
  generalize (t.drainAll c).storeCheck c .store (t.pr c p) = r at k ⊢
  obtain ⟨e | ⟨pa, _⟩, s1⟩ := r
  · exact k
  · have k2 : Keeps t (s1.readWord1 c (t.pr c p, pa)).2 := Keeps.step k fun x y => readWord1_keeps s1 c _ x y
    dsimp only
    generalize s1.readWord1 c (t.pr c p, pa) = r at k2 ⊢
    obtain ⟨e | old, s2⟩ := r
    · exact k2
    · have k3 : Keeps t ((s2.wr c rd old).flags c (({} : Upd).put 2 (old = s2.rg c rc))) :=
        Keeps.step (Keeps.step k2 fun x y => wr_keeps s2 c rd old x y) fun x y =>
          flags_keeps _ c _ x y (maskOk_one 2 _ (by decide) (by decide))
      exact Keeps.ite (Keeps.step k3 fun x y => putWords_keeps _ c _ x y) k3

include h hc in
theorem execRep_keeps (c : CoreId) (rs : Reg) (inner : RepInstr) (stop : Option Nat) : NextKeeps s (execRep c rs inner stop s) := by
  refine next_hod h hc _ _ _ fun t a b => ?_
  have hp := ((Core.legal_iff c _).1 (core_legal t c b)).2.2.1
  obtain ⟨hhi, hlo⟩ := putBit_high (t.psw c) 12 false (by decide) (by decide)
  have hp' : pswLegal (putBit (t.psw c) 12 false) = true := by
    rw [pswLegal_iff, hhi, hlo]
    exact (pswLegal_iff _).1 hp
  dsimp only
  split
  · exact Keeps.refl a b
  · exact Keeps.step (Keeps.ite (setPsw_keeps t c _ a b hp') (Keeps.refl a b)) fun x y => repRun_keeps c inner stop _ 0 _ x y

include h hc in
theorem execStm_keeps (c : CoreId) (p : PairIx) (half u : Bool) (mask : Word) (stop : Option Nat) :
    NextKeeps s (execStm c p half u mask stop s) :=
  next_hod h hc _ _ _ fun t a b => stmRun_keeps c p half mask stop _ _ 0 t a b fun _ x y => endMulti_keeps _ c p u mask x y

include h hc in
theorem execLdm_keeps (c : CoreId) (p : PairIx) (half u : Bool) (mask : Word) (stop : Option Nat) :
    NextKeeps s (execLdm c p half u mask stop s) := by
  refine next_hod h hc _ _ _ fun t a b => ?_
  have k : ∀ l, Keeps t (seqM (fun s i => s.load1 c (maskAddr (s.pr c p) mask i)) l t).2 := fun l =>
    seqM_keeps _ l t a b fun u i x y => load1_keeps u c _ x y
  dsimp only
  split
  next e s1 he => exact (k _).of_eq he
  next vs s1 he =>
    exact Keeps.step ((k _).of_eq he) fun x y => ldmRun_keeps c p half mask stop _ _ 0 _ s1 x y fun _ x y => endMulti_keeps _ c p u mask x y

/-! ### System instructions -/

include h hc in
theorem execIsync_keeps (c : CoreId) : NextKeeps s (execIsync c s) :=
  next_hod h hc _ _ _ (quiet_keeps _ fun t a b =>
    Keeps.step (leaveLoop_keeps t c a b) fun x y => modCore_keeps _ c _ x y (core_legal _ c y))

include h hc in
theorem execIcinv_keeps (c : CoreId) (p : PairIx) (rc : Reg) : NextKeeps s (execIcinv c p rc s) :=
  next_hod h hc _ _ _ (quiet_keeps _ fun t a b =>
    Keeps.step (Keeps.step (leaveLoop_keeps t c a b) fun x y => drainAll_keeps _ c x y) fun x y =>
      modCore_keeps _ c _ x y (core_legal _ c y))

include h hc in
theorem execTlbi_keeps (c : CoreId) (p : PairIx) (scope : BitVec 2) : NextKeeps s (execTlbi c p scope s) :=
  next_hod h hc _ _ _ (atMS_keeps c _ (quiet_keeps _ fun t a b =>
    Keeps.step (drainAll_keeps t c a b) fun x y => tlbiCore_keeps _ c _ _ _ x y))

include h hc in
theorem execTlbsync_keeps (c : CoreId) : NextKeeps s (execTlbsync c s) :=
  next_hod h hc _ _ _ (atMS_keeps c _ (quiet_keeps _ fun t a b =>
    Keeps.ite (Keeps.step (stay_keeps t c 1 a b) fun x y => modCore_keeps _ c _ x y (core_legal _ c y)) (Keeps.refl a b)))

include h hc in
theorem execCtxs_keeps (c : CoreId) (p : PairIx) (half : Bool) : NextKeeps s (execCtxs c p half s) := by
  refine next_hod h hc _ _ _ (pairZero_keeps p _ (atMS_keeps c _ fun t a b => ?_))
  cases half
  · exact ctxsLower_keeps t c a b
  · exact ctxsUpper_keeps t c a b

include h hc in
theorem execCtxl_keeps (c : CoreId) (p : PairIx) (half : Bool) : NextKeeps s (execCtxl c p half s) := by
  cases half
  · exact next_hod h hc _ _ _ (atMS_keeps c _ fun t a b => ctxlLower_keeps t c p a b)
  · exact next_hod h hc _ _ _ (pairZero_keeps p _ (atMS_keeps c _ fun t a b => ctxlUpper_keeps t c a b))

include h hc in
theorem execMfs_keeps (c : CoreId) (rd : Reg) (sr : BitVec 5) : NextKeeps s (execMfs c rd sr s) := by
  refine next_hod h hc _ _ _ fun t a b => ?_
  dsimp only
  split
  · exact Keeps.refl a b
  · exact Keeps.ite (wrp_keeps t c _ _ a b) (wr_keeps t c rd _ a b)

include h hc in
theorem execMts_keeps (c : CoreId) (sr : BitVec 5) (rs : Reg) : NextKeeps s (execMts c sr rs s) := by
  refine next_hod h hc _ _ _ fun t a b => ?_
  dsimp only
  split
  · exact Keeps.refl a b
  · split
    · exact Keeps.refl a b
    · exact modCore_keeps t c _ a b (mts_legal c _ _ _ (core_legal t c b))

/-! ### Bricks -/

include h hc in
theorem execVx_keeps (c : CoreId) (rd : Reg) (p : PairIx) (q : BitVec 4) : NextKeeps s (execVx c rd p q s) := by
  refine next_hod h hc _ _ _ fun t0 a0 b0 => ?_
  have k0 : Keeps t0 (t0.drainAll c) := drainAll_keeps t0 c a0 b0
  dsimp only
  generalize t0.drainAll c = t at k0 ⊢
  split
  · exact Keeps.step k0 fun x y => vxRefused_keeps t c rd x y
  split
  · exact k0
  split
  · exact k0
  have k : Keeps t0 (t.xl c .load (t.pr c p)).2 := Keeps.step k0 fun x y => xl_keeps t c _ _ x y
  generalize t.xl c .load (t.pr c p) = r at k ⊢
  obtain ⟨e | ⟨pa, _⟩, s1⟩ := r
  · exact k
  dsimp only
  split
  · exact k
  have k2 : Keeps t0 (s1.readMem (dataPort c) pa 64).2 := Keeps.step k fun x y => readMem_keeps s1 _ _ _ _ x y
  generalize s1.readMem (dataPort c) pa 64 = r at k2 ⊢
  obtain ⟨e | l, s2⟩ := r
  · exact k2
  dsimp only
  split
  · exact Keeps.step (Keeps.step k2 fun x y => shed_keeps s2 _ _ x y) fun x y => vxRefused_keeps _ c rd x y
  · exact Keeps.step (Keeps.step (Keeps.step k2 fun x y => accept_keeps s2 _ _ _ _ x y) fun x y => wr_keeps _ c rd _ x y) fun x y =>
      flags_keeps _ c _ x y (maskOk_one 10 _ (by decide) (by decide))

include h hc in
theorem execVwait_keeps (c : CoreId) (rd rs : Reg) : NextKeeps s (execVwait c rd rs s) := by
  refine next_hod h hc _ _ _ (quiet_keeps _ fun t a b => ?_)
  dsimp only
  split
  · exact wr_keeps t c rd _ a b
  · exact Keeps.step (stay_keeps t c 1 a b) fun x y => modCore_keeps _ c _ x y (core_legal _ c y)

include h hc in
theorem execVwaitWake_keeps (c : CoreId) : NextKeeps s (execVwaitWake c s) := by
  refine Keeps.next ?_
  split
  · split
    · have k : Keeps s (s.modCore c fun k => { k with run := .running, pc := k.pc + 1 }) := modCore_keeps s c _ h hc (core_legal s c hc)
      exact Keeps.step k fun x y => wr_keeps _ c _ _ x y
    · exact Keeps.refl h hc
  all_goals exact Keeps.refl h hc

/-! ### The pipeline -/

include h hc in
theorem execInterruptEntry_keeps (c : CoreId) : NextKeeps s (execInterruptEntry c s) := by
  refine Keeps.next (Keeps.ite ?_ (Keeps.refl h hc))
  cases e : s.takeEvent c with
  | none => exact Keeps.refl h hc
  | some t => exact takeEvent_keeps s c t e h hc

/-- A halt that waited is taken, or not. -/
theorem haltIf_keeps {t : State} (c : CoreId) (k : Keeps s t) :
    Keeps s (if (t.core c).haltReq && (t.core c).run = .running then t.haltCore c else t) :=
  Keeps.ite (Keeps.step k fun x y => haltCore_keeps t c x y) k

include h hc in
theorem execLoadReturn_keeps (c : CoreId) : NextKeeps s (execLoadReturn c s) := by
  refine Keeps.next ?_
  split
  · exact Keeps.refl h hc
  next w _ =>
    have k0 : Keeps s (s.modCore c fun k => { k with loadWait := none }) := modCore_keeps s c _ h hc (core_legal s c hc)
    refine haltIf_keeps c ?_
    have k1 := fun ws dev => Keeps.step k0 fun x y => readWords_keeps _ c ws dev x y
    split
    next e s1 he => exact Keeps.step ((k1 _ _).of_eq he) fun x y => takeTrap_keeps s1 c _ e x y
    next l s1 he =>
      exact Keeps.step (Keeps.step ((k1 _ _).of_eq he) fun x y => landLoad_keeps s1 c _ _ _ x y) fun x y =>
        modCore_keeps _ c _ x y (core_legal _ c y)

include h hc in
theorem execIllegalOpcode_keeps (c : CoreId) (w1 w2 : Word) : NextKeeps s (execIllegalOpcode c w1 w2 s) :=
  Keeps.next (Keeps.ite (Keeps.refl h hc) (hod_keeps s c _ _ _ h hc fun _ a b => Keeps.refl a b))

end Sys2Proof.Machine
end

section
/-! SUPPORT. Every command leaves a legal state legal and the queue of waiting commands as it is: commands of several operations. -/

namespace Sys2Proof.Machine

open Sys2Proof

variable {s : State} (h : s.mem.wf = true) (hc : coresLegal s.cores)

include h hc in
theorem execScrubRead_keeps (d : Die) (t : Nat) (upset : Ecc) : NextKeeps s (execScrubRead d t upset s) := by
  unfold execScrubRead
  dsimp only
  split
  · have k1 : Keeps s (if upset ≠ .clean ∧ s.eccAt d t ((s.tile d t).scrub * 64) ≠ .double then
        s.setEcc d t ((s.tile d t).scrub * 64) upset else s) := Keeps.ite (setEcc_keeps s d t _ upset h hc) (Keeps.refl h hc)
    refine Keeps.next (Keeps.step (Keeps.step k1 fun x y => foldl_keeps _ _ _ x y fun u i x y => ?_) fun x y => setTile_keeps _ d t _ x y)
    exact scrubWord_keeps u d t _ x y
  · exact Keeps.next (Keeps.refl h hc)

include h hc in
theorem execKilnRefill_keeps (temps : List (Option Word)) (drawn : List Nat) : NextKeeps s (execKilnRefill temps drawn s) := by
  have k1 : Keeps s (s.takeKiln.showSensors temps) := Keeps.step (takeKiln_keeps s h hc) fun x y => showSensors_keeps _ temps x y
  have k2 : Keeps s ((upto 6).foldl (fun s z => s.refillZone temps drawn z) (s.takeKiln.showSensors temps)) :=
    Keeps.step k1 fun x y => foldl_keeps _ _ _ x y fun t z x y => refillZone_keeps t temps drawn z x y
  have k3 := Keeps.step k2 fun x y => showKilnStat_keeps _ x y
  have k4 := Keeps.step k3 fun x y => foldl_keeps (fun s n => s.stepCluster n) (upto 4) _ x y fun t n x y => stepCluster_keeps t n x y
  exact Keeps.next (Keeps.step k4 fun x y => recomputeRemain_keeps _ x y)

include h hc in
theorem execSlotRdWrite_keeps (r : SlotReg) (v : Word) : NextKeeps s (execSlotRdWrite r v s) := by
  refine Keeps.next ?_
  cases r with
  | fieldBuffer b => exact writeFbRd_keeps s b v h hc
  | captureRing r => exact writeCrRd_keeps s r v h hc
  | nswRing r => exact Keeps.ite (writeNswRd_keeps s r v h hc) (Keeps.refl h hc)
  | fnetRing r => exact writeFnetRd_keeps s r v h hc

include h hc in
theorem execTlbLockDone_keeps (die : Die) : NextKeeps s (execTlbLockDone die s) := by
  have done (t : State) (k : Keeps s t) (st : RegKind) (n : Nat) :
      Keeps s (((t.setBit st 0 15 false).setBit st 0 14 true).setFld st 0 5 0 n) :=
    Keeps.step (Keeps.step (Keeps.step k fun x y => setBit_keeps t st 0 15 false x y) fun x y => setBit_keeps _ st 0 14 true x y) fun x y =>
      setFld_keeps _ st 0 5 0 n x y
  refine Keeps.next ?_
  split
  · exact Keeps.refl h hc
  next l _ =>
    have k1 : Keeps s (s.setLock die none) := setLock_keeps s die none h hc
    have put (t : State) (k : Keeps s t) (c : CoreId) (kind : RegKind) (i : Nat) (x : Option Leaf) :
        Keeps s ((t.modCore c fun k => { k with locked := Tab.set none l.slot x k.locked }).setBit kind i l.slot x.isSome) :=
      Keeps.step (k.modCore c (fun k => { k with locked := Tab.set none l.slot x k.locked }) fun _ hk => hk) fun a b => setBit_keeps _ kind i l.slot _ a b
    dsimp only
    split
    · exact done _ k1 _ _
    next c _ =>
      split
      · exact done _ (put _ k1 c _ _ none) _ _
      have k2 : Keeps s ((s.setLock die none).lockLeaf c l).2 := Keeps.step k1 fun x y => lockLeaf_keeps _ c l x y
      split
      next x s2 he => exact done _ (put _ (k2.of_eq he) c _ _ (some x)) _ _
      next e s2 he => exact done _ (k2.of_eq he) _ _

include h hc in
theorem execBpLinkEvent_keeps (port : Fin 4) (e : BpEvent) : NextKeeps s (execBpLinkEvent port e s) := by
  refine Keeps.next (Keeps.ite (Keeps.refl h hc) ?_)
  split
  · refine Keeps.ite (Keeps.refl h hc) ?_
    have k1 : Keeps s ((s.setBit .BPHY_PSTAT port 10 false).bpTrain port) :=
      Keeps.step (setBit_keeps s _ _ _ _ h hc) fun x y => bpTrain_keeps _ _ x y
    exact Keeps.step k1 fun x y => foldl_keeps _ _ _ x y fun t l x y => setBit_keeps t _ _ _ _ x y
  · exact Keeps.ite (Keeps.refl h hc) (bpAlign_keeps s _ _ h hc)
  · exact Keeps.step (Keeps.step (Keeps.step (setFld_keeps s _ _ _ _ _ h hc) fun x y => setAct_keeps _ _ _ x y) fun x y =>
      setUp_keeps _ _ _ _ x y) fun x y => portSync_keeps _ _ x y
  · exact leaveUp_keeps s _ h hc
  · exact Keeps.refl h hc

include h hc in
theorem execMlTrainingStageDone_keeps (failed : List LaneRef) : NextKeeps s (execMlTrainingStageDone failed s) := by
  have k1 : ∀ (live : Bool) (src : Nat), Keeps s (failed.foldl (fun s l => s.markLane l live src) s) := fun live src =>
    foldl_keeps _ failed s h hc fun t l x y => markLane_keeps t l live src x y
  have k2 : Keeps s (if s.mlState = 1 ∨ s.mlState = 2 ∨ s.mlState = 4 ∨ s.mlState = 8 then
      failed.foldl (fun s' l => s'.markLane l (s.mlState = 8) (if s.mlState = 4 then 0 else 4)) s else s) :=
    Keeps.ite (k1 _ _) (Keeps.refl h hc)
  refine Keeps.next (Keeps.ite k2 (Keeps.ite (Keeps.refl h hc) (Keeps.ite ?_ (Keeps.ite ?_ ?_))))
  · exact Keeps.step k2 fun x y => setFld_keeps _ _ _ _ _ _ x y
  · exact Keeps.step k2 fun x y => linkDown_keeps _ x y
  · exact Keeps.step k2 fun x y => linkUpNow_keeps _ x y

include h hc in
theorem execMlLaneErrorWindow_keeps : NextKeeps s (execMlLaneErrorWindow s) := by
  have k : Keeps s { s with ml := { s.ml with laneErr := [], crcWindow := 0 } } := ⟨h, hc, rfl⟩
  refine Keeps.next (Keeps.ite k (Keeps.ite ?_ (Keeps.ite ?_ k)))
  · exact Keeps.step k fun x y => foldl_keeps _ _ _ x y fun t l x y => laneFault_keeps t l x y
  · exact Keeps.step k fun x y => retrain_keeps _ x y

include h hc in
theorem execWearMeasurement_keeps (slacks : List Nat) (rosc : List Word) : NextKeeps s (execWearMeasurement slacks rosc s) := by
  have k1 (zs : List Nat) : Keeps s (zs.foldl (fun s z => (s.setFld .WEAR_ZSTAT z 9 0 (min 1023 (slacks.getD z 0))).setReg .WEAR_ROSC z (rosc.getD z 0)) s) :=
    foldl_keeps _ zs s h hc fun t z x y => Keeps.step (setFld_keeps t _ _ _ _ _ x y) fun x y => setReg_keeps _ _ _ _ x y
  refine Keeps.next (Keeps.step (Keeps.ite (Keeps.step (k1 _) fun x y => setWear_keeps _ _ x y) (k1 _)) fun x y =>
    foldl_keeps _ _ _ x y fun t z x y => Keeps.ite (wearAlarm_keeps t z x y) (Keeps.refl x y))

include h hc in
theorem execMigrationCopyLine_keeps : NextKeeps s (execMigrationCopyLine s) := by
  refine Keeps.next ?_
  split
  · exact Keeps.refl h hc
  next g _ =>
    refine Keeps.ite (Keeps.refl h hc) ?_
    have k1 : Keeps s ((upto 8).foldl (fun s i => s.copyWord g i) s) :=
      foldl_keeps _ _ s h hc fun t i x y => copyWord_keeps t g i x y
    dsimp only
    generalize (upto 8).foldl (fun s i => s.copyWord g i) s = s1 at k1 ⊢
    exact Keeps.step (Keeps.step (t := { s1 with spr := { s1.spr with mig := some { g with line := g.line + 1, copying := true } } }) k1
      fun x y => setReg_keeps _ _ _ _ x y) fun x y => setFld_keeps _ _ _ _ _ _ x y

/-- A port has sent a frame of its ring or of its CAN channel. -/
theorem portSent_keeps {t : State} (p n : Nat) (k : Keeps s t) : Keeps s ((t.portTally p 8).portTally p 9 n) :=
  Keeps.step (Keeps.step k fun x y => portTally_keeps t p 8 1 x y) fun x y => portTally_keeps _ p 9 n x y

include h hc in
theorem execFrameTransmit_keeps (port : Fin 25) : NextKeeps s (execFrameTransmit port s) := by
  have k0 : Keeps s (s.accrue port) := accrue_keeps s _ h hc
  have k1 : Keeps s ((s.accrue port).gates port).2 := Keeps.step k0 fun x y => gates_keeps _ _ x y
  unfold execFrameTransmit
  dsimp only
  generalize (s.accrue port).gates port = r at k1 ⊢
  obtain ⟨g, s1⟩ := r
  dsimp only at k1 ⊢
  refine Keeps.next (Keeps.ite (Keeps.refl h hc) ?_)
  split
  · exact k1
  split
  · exact k1
  split
  · exact Keeps.step k1 fun x y => popFrame_keeps s1 _ _ _ x y
  next c _ _ id _ _ f _ =>
    refine Keeps.ite (Keeps.ite k1 (portSent_keeps _ _ ?_)) (Keeps.ite (Keeps.ite k1 ?_) (Keeps.step k1 fun x y => sendEth_keeps s1 _ _ _ _ x y))
    · exact Keeps.step (Keeps.step k1 fun x y => popFrame_keeps s1 _ _ _ x y) fun x y => ringPut_keeps _ _ _ x y
    · have k2 : Keeps s (s1.canSend (port - 14) (f.can.getD (Config.canOfBytes f.bytes))).2 := Keeps.step k1 fun x y => canSend_keeps s1 _ _ x y
      split
      next s2 he => exact portSent_keeps _ _ (Keeps.step (k2.of_eq he) fun x y => popFrame_keeps s2 _ _ _ x y)
      next s2 he => exact k2.of_eq he

include h hc in
theorem execTransmitSlot_keeps (r : TxRing) : NextKeeps s (execTransmitSlot r s) := by
  have tally {t : State} (k : Keeps s t) (p n m : Nat) : Keeps s (t.portTally p n m) := Keeps.step k fun x y => portTally_keeps t p n m x y
  have done {t : State} (k : Keeps s t) (a w0 rd n : Nat) : Keeps s (t.slotDone r a w0 rd n) := Keeps.step k fun x y => slotDone_keeps t r a w0 rd n x y
  have read {t : State} (k : Keeps s t) (m : Master) (a n : Nat) : Keeps s (t.readMem m a n).2 := Keeps.step k fun x y => readMem_keeps t m a n _ x y
  have k0 : Keeps s s := Keeps.refl h hc
  unfold execTransmitSlot
  obtain ⟨g, p, wr, rd⟩ := s.txRing r
  refine Keeps.next (Keeps.ite k0 ?_)
  split
  next e s1 he => exact done (tally ((read k0 _ _ _).of_eq he) _ _ _) _ _ _ _
  next hd s1 he =>
    have k1 := (read k0 _ _ _).of_eq he
    refine Keeps.ite (done (tally k1 _ _ _) _ _ _ _) (Keeps.ite k1 ?_)
    split
    next e s2 he => exact done (tally ((read k1 _ _ _).of_eq he) _ _ _) _ _ _ _
    next b s2 he =>
      have k2 := (read k1 _ _ _).of_eq he
      have k3 := tally (tally k2 p 0 1) p 1 (leAt hd 2 2 + 4)
      refine Keeps.ite ?_ (Keeps.ite ?_ ?_)
      · split
        next s4 he => exact done ((Keeps.step k3 fun x y => fieldSend_keeps _ _ _ x y).of_eq he) _ _ _ _
        next s4 he => exact (Keeps.step k3 fun x y => fieldSend_keeps _ _ _ x y).of_eq he
      · exact Keeps.step (done k3 _ _ _ _) fun x y => enterQueues_keeps _ _ _ x y
      · exact Keeps.step (done k3 _ _ _ _) fun x y => ingress_keeps _ _ _ _ _ _ x y

end Sys2Proof.Machine
end

section
/-! SUPPORT. Every command leaves a legal state legal and the queue of waiting commands as it is: commands of a few operations each. -/

namespace Sys2Proof.Machine

open Sys2Proof

variable {s : State} (h : s.mem.wf = true) (hc : coresLegal s.cores)

include h hc in
theorem execDebugCoreAccess_keeps (c : CoreId) (sel : Byte) (wr : Bool) (data : Word) :
    NextKeeps s (execDebugCoreAccess c sel wr data s) := by
  refine Keeps.next (Keeps.ite (dbgStatus_keeps s _ h hc) (Keeps.ite ?_ (Keeps.ite (dbgStatus_keeps s _ h hc) (Keeps.ite ?_ ?_))))
  · exact Keeps.step (haltControl_keeps s c data h hc) fun x y => dbgStatus_keeps _ _ x y
  · split
    next t e => exact Keeps.step (coreWrite_keeps s c _ data t e h hc) fun x y => debugAnswer_keeps t _ x y
    · exact strangeSel_keeps s h hc
  · split
    · exact debugAnswer_keeps s _ h hc
    · exact strangeSel_keeps s h hc

include h in
theorem execPowerOnReset_keeps (clksel : Bool) : NextKeeps s (execPowerOnReset clksel s) := Keeps.next (by grind [Keeps])

include h hc in
theorem execPowerGood_keeps : NextKeeps s (execPowerGood s) := Keeps.next (by grind [Keeps])

include h hc in
theorem execBrownOut_keeps : NextKeeps s (execBrownOut s) := Keeps.next (by grind [Keeps])

include h hc in
theorem execRstNAssert_keeps : NextKeeps s (execRstNAssert s) := Keeps.next (by grind [Keeps])

include h hc in
theorem execBootRomStart_keeps : NextKeeps s (execBootRomStart s) := Keeps.next (by grind [Keeps])

include h hc in
theorem execImageCheck_keeps (src : Source) : NextKeeps s (execImageCheck src s) := Keeps.next (by grind [Keeps])

include h hc in
theorem execImageRetry_keeps : NextKeeps s (execImageRetry s) := Keeps.next (by grind [Keeps])

include h hc in
theorem execNetbootRequest_keeps : NextKeeps s (execNetbootRequest s) := Keeps.next (by grind [Keeps])

include h hc in
theorem execNetbootBlock_keeps (offset : BitVec 32) (data : List Byte) : NextKeeps s (execNetbootBlock offset data s) := Keeps.next (by grind [Keeps])

include h hc in
theorem execNetbootTimeout_keeps : NextKeeps s (execNetbootTimeout s) := Keeps.next (by grind [Keeps])

include h hc in
theorem execFDieBist_keeps (fails : List UnitRef) : NextKeeps s (execFDieBist fails s) := Keeps.next (by grind [Keeps])

include h hc in
theorem execFDiePhase_keeps : NextKeeps s (execFDiePhase s) := Keeps.next (by grind [Keeps])

include h hc in
theorem execCpgRise_keeps (rail : Fin 4) (temps : List (Option Word)) : NextKeeps s (execCpgRise rail temps s) := Keeps.next (by grind [Keeps])

include h hc in
theorem execCpgFall_keeps (rail : Fin 4) : NextKeeps s (execCpgFall rail s) := Keeps.next (by grind [Keeps])

include h hc in
theorem execRailOffStep_keeps : NextKeeps s (execRailOffStep s) := Keeps.next (by grind [Keeps])

include h hc in
theorem execRailFaultTimeout_keeps : NextKeeps s (execRailFaultTimeout s) := Keeps.next (by grind [Keeps])

include h hc in
theorem execCDieBist_keeps (fails : List UnitRef) : NextKeeps s (execCDieBist fails s) := Keeps.next (by grind [Keeps])

include h hc in
theorem execCDiePhase_keeps : NextKeeps s (execCDiePhase s) := Keeps.next (by grind [Keeps])

include h hc in
theorem execFuseBlowDone_keeps : NextKeeps s (execFuseBlowDone s) := Keeps.next (by grind [Keeps])

include h hc in
theorem execRelayApply_keeps : NextKeeps s (execRelayApply s) := Keeps.next (by grind [Keeps])

include h hc in
theorem execRepairMirrorWrite_keeps : NextKeeps s (execRepairMirrorWrite s) := Keeps.next (by grind [Keeps])

include h hc in
theorem execSplitLoRead_keeps (m : Master) (addr : PAddr) : NextKeeps s (execSplitLoRead m addr s) := Keeps.next (by grind [Keeps])

include h hc in
theorem execSplitHiRead_keeps (m : Master) (addr : PAddr) : NextKeeps s (execSplitHiRead m addr s) := Keeps.next (by grind [Keeps])

include h hc in
theorem execSplitLoWrite_keeps (m : Master) (addr : PAddr) (v : Word) : NextKeeps s (execSplitLoWrite m addr v s) := Keeps.next (by grind [Keeps])

include h hc in
theorem execSplitHiWrite_keeps (m : Master) (addr : PAddr) (v : Word) : NextKeeps s (execSplitHiWrite m addr v s) := Keeps.next (by grind [Keeps])

include h hc in
theorem execRcRead_keeps (m : Master) (addr : PAddr) (event : Bool) : NextKeeps s (execRcRead m addr event s) := Keeps.next (by grind [Keeps])

include h hc in
theorem execRegisterWrite_keeps (m : Master) (addr : PAddr) (bits : Nat) (v : Word) (events : Word := 0) : NextKeeps s (execRegisterWrite m addr bits v s events) := Keeps.next (by grind [Keeps])

include h hc in
theorem execTileBeat_keeps (die : Die) (tile : Nat) (beats : List Beat) (upset : Ecc) : NextKeeps s (execTileBeat die tile beats upset s) := Keeps.next (by grind [Keeps])

include h hc in
theorem execEccWriteback_keeps (die : Die) (tile : Nat) : NextKeeps s (execEccWriteback die tile s) := Keeps.next (by grind [Keeps])

include h hc in
theorem execTilePowerRequest_keeps (die : Die) (tile : Nat) (v : Word) : NextKeeps s (execTilePowerRequest die tile v s) := Keeps.next (by grind [Keeps])

include h hc in
theorem execTilePowerDone_keeps (die : Die) (tile : Nat) : NextKeeps s (execTilePowerDone die tile s) := Keeps.next (by grind [Keeps])

include h hc in
theorem execTileIdleExpiry_keeps (die : Die) (tile : Nat) (idle : Nat) : NextKeeps s (execTileIdleExpiry die tile idle s) := Keeps.next (by grind [Keeps])

include h hc in
theorem execJointBrickSubmission_keeps (q : BitVec 4) (line : BitVec 20) : NextKeeps s (execJointBrickSubmission q line s) := Keeps.next (by grind [Keeps])

include h hc in
theorem execKilnAdmission_keeps : NextKeeps s (execKilnAdmission s) := Keeps.next (by grind [Keeps])

include h hc in
theorem execBrickSetout_keeps (q : BitVec 4) (seq : Nat) : NextKeeps s (execBrickSetout q seq s) := Keeps.next (by grind [Keeps])

include h hc in
theorem execBrickProbe_keeps (q : BitVec 4) (seq : Nat) : NextKeeps s (execBrickProbe q seq s) := Keeps.next (by grind [Keeps])

include h hc in
theorem execBrickBlockDone_keeps (q : BitVec 4) (seq : Nat) (mismatch : Option Nat) : NextKeeps s (execBrickBlockDone q seq mismatch s) := Keeps.next (by grind [Keeps])

include h hc in
theorem execBrickSuspend_keeps (q : BitVec 4) (seq : Nat) (k : Nat) (metered : List Nat) : NextKeeps s (execBrickSuspend q seq k metered s) := Keeps.next (by grind [Keeps])

include h hc in
theorem execBrickEnd_keeps (q : BitVec 4) (seq : Nat) (metered : List Nat) : NextKeeps s (execBrickEnd q seq metered s) := Keeps.next (by grind [Keeps])

include h hc in
theorem execBrickExpiry_keeps (q : BitVec 4) (seq : Nat) : NextKeeps s (execBrickExpiry q seq s) := Keeps.next (by grind [Keeps])

include h hc in
theorem execVidRecalc_keeps : NextKeeps s (execVidRecalc s) := Keeps.next (by grind [Keeps])

include h hc in
theorem execVidAck_keeps : NextKeeps s (execVidAck s) := Keeps.next (by grind [Keeps])

include h hc in
theorem execVidTimeout_keeps : NextKeeps s (execVidTimeout s) := Keeps.next (by grind [Keeps])

include h hc in
theorem execCoolWaitExpiry_keeps : NextKeeps s (execCoolWaitExpiry s) := Keeps.next (by grind [Keeps])

include h hc in
theorem execCourseTick_keeps : NextKeeps s (execCourseTick s) := Keeps.next (by grind [Keeps])

include h hc in
theorem execPinPulseEnd_keeps (cell : Fin 64) : NextKeeps s (execPinPulseEnd cell s) := Keeps.next (by grind [Keeps])

include h hc in
theorem execCourseEdge_keeps (cs : Fin 8) (e : EdgeInfo) : NextKeeps s (execCourseEdge cs e s) := Keeps.next (by grind [Keeps])

include h hc in
theorem execCoastTimeout_keeps (cs : Fin 8) : NextKeeps s (execCoastTimeout cs s) := Keeps.next (by grind [Keeps])

include h hc in
theorem execCoastLimit_keeps (cs : Fin 8) : NextKeeps s (execCoastLimit cs s) := Keeps.next (by grind [Keeps])

include h hc in
theorem execCoursePositionSend_keeps : NextKeeps s (execCoursePositionSend s) := Keeps.next (by grind [Keeps])

include h hc in
theorem execJointDispatch_keeps : NextKeeps s (execJointDispatch s) := Keeps.next (by grind [Keeps])

include h hc in
theorem execAdcConversionStart_keeps (n : Fin 4) : NextKeeps s (execAdcConversionStart n s) := Keeps.next (by grind [Keeps])

include h hc in
theorem execAdcConversionDone_keeps (n : Fin 4) (microvolts : Nat) : NextKeeps s (execAdcConversionDone n microvolts s) := Keeps.next (by grind [Keeps])

include h hc in
theorem execAdcPowerDone_keeps (n : Fin 4) : NextKeeps s (execAdcPowerDone n s) := Keeps.next (by grind [Keeps])

include h hc in
theorem execSdResult_keeps (n : Fin 8) (clocks : List (Bool × Bool)) : NextKeeps s (execSdResult n clocks s) := Keeps.next (by grind [Keeps])

include h hc in
theorem execComparatorChange_keeps (n : Fin 16) (microvolts : Nat) (settling : Bool) : NextKeeps s (execComparatorChange n microvolts settling s) := Keeps.next (by grind [Keeps])

include h hc in
theorem execCpPowerDone_keeps (n : Fin 16) : NextKeeps s (execCpPowerDone n s) := Keeps.next (by grind [Keeps])

include h hc in
theorem execSentFrame_keeps (n : Fin 12) (f : SentRx) : NextKeeps s (execSentFrame n f s) := Keeps.next (by grind [Keeps])

include h hc in
theorem execCapPeriodicTrigger_keeps (d : Fin 64) : NextKeeps s (execCapPeriodicTrigger d s) := Keeps.next (by grind [Keeps])

include h hc in
theorem execListEntryStart_keeps (d : Fin 64) : NextKeeps s (execListEntryStart d s) := Keeps.next (by grind [Keeps])

include h hc in
theorem execPassStart_keeps (d : Fin 64) : NextKeeps s (execPassStart d s) := Keeps.next (by grind [Keeps])

include h hc in
theorem execFrameComplete_keeps (d : Fin 64) : NextKeeps s (execFrameComplete d s) := Keeps.next (by grind [Keeps])

include h hc in
theorem execFrameMove_keeps : NextKeeps s (execFrameMove s) := Keeps.next (by grind [Keeps])

include h hc in
theorem execModPeriodBoundary_keeps (m : Fin 32) : NextKeeps s (execModPeriodBoundary m s) := Keeps.next (by grind [Keeps])

include h hc in
theorem execModCheckerMismatch_keeps (m : Fin 32) : NextKeeps s (execModCheckerMismatch m s) := Keeps.next (by grind [Keeps])

include h hc in
theorem execOcReadbackFault_keeps (cell : Fin 64) (lasted : Nat := 256) : NextKeeps s (execOcReadbackFault cell s lasted) := Keeps.next (by grind [Keeps])

include h hc in
theorem execOcSafeExit_keeps (cell : Fin 64) : NextKeeps s (execOcSafeExit cell s) := Keeps.next (by grind [Keeps])

include h hc in
theorem execArithmeticException_keeps (c : CoreId) : NextKeeps s (execArithmeticException c s) := Keeps.next (by grind [Keeps])

include h hc in
theorem execTlbiReceive_keeps (r : Receiver) : NextKeeps s (execTlbiReceive r s) := Keeps.next (by grind [Keeps])

include h hc in
theorem execTlbiAck_keeps (r : Receiver) : NextKeeps s (execTlbiAck r s) := Keeps.next (by grind [Keeps])

include h hc in
theorem execMovp_keeps (c : CoreId) (d : PairIx) (p : PairIx) : NextKeeps s (execMovp c d p s) := Keeps.next (by grind [Keeps])

include h hc in
theorem execSoftwareInterrupt_keeps (die : Die) (v : Word) : NextKeeps s (execSoftwareInterrupt die v s) := Keeps.next (by grind [Keeps])

include h hc in
theorem execWatchdogExpiry_keeps (c : CoreId) : NextKeeps s (execWatchdogExpiry c s) := Keeps.next (by grind [Keeps])

include h hc in
theorem execFrameReceive_keeps (port : Fin 25) (f : RxFrame) : NextKeeps s (execFrameReceive port f s) := Keeps.next (by grind [Keeps])

include h hc in
theorem execCanFrameReceive_keeps (ch : Fin 8) (f : CanFrame) : NextKeeps s (execCanFrameReceive ch f s) := Keeps.next (by grind [Keeps])

include h hc in
theorem execAcfBatchExpiry_keeps (ch : Fin 8) (link : BitVec 11) : NextKeeps s (execAcfBatchExpiry ch link s) := Keeps.next (by grind [Keeps])

include h hc in
theorem execCanBusOffRecovery_keeps (ch : Fin 8) : NextKeeps s (execCanBusOffRecovery ch s) := Keeps.next (by grind [Keeps])

include h hc in
theorem execBpTrainingFrame_keeps (lane : Fin 8) (f : TrainFrame) : NextKeeps s (execBpTrainingFrame lane f s) := Keeps.next (by grind [Keeps])

include h hc in
theorem execBpTrainTimeout_keeps (port : Fin 4) : NextKeeps s (execBpTrainTimeout port s) := Keeps.next (by grind [Keeps])

include h hc in
theorem execBpAlignTimeout_keeps (port : Fin 4) : NextKeeps s (execBpAlignTimeout port s) := Keeps.next (by grind [Keeps])

include h hc in
theorem execPortEnableRequest_keeps (port : Fin 25) (v : Word) : NextKeeps s (execPortEnableRequest port v s) := Keeps.next (by grind [Keeps])

include h hc in
theorem execPortStartDone_keeps (port : Fin 25) (ok : Bool) (speed : BitVec 3) : NextKeeps s (execPortStartDone port ok speed s) := Keeps.next (by grind [Keeps])

include h hc in
theorem execPortStopDone_keeps (port : Fin 25) : NextKeeps s (execPortStopDone port s) := Keeps.next (by grind [Keeps])

include h hc in
theorem execGptpTimeCapture_keeps : NextKeeps s (execGptpTimeCapture s) := Keeps.next (by grind [Keeps])

include h hc in
theorem execGptpHoldover_keeps : NextKeeps s (execGptpHoldover s) := Keeps.next (by grind [Keeps])

include h hc in
theorem execGateCycleStart_keeps : NextKeeps s (execGateCycleStart s) := Keeps.next (by grind [Keeps])

include h hc in
theorem execGateEntryExpiry_keeps (port : Fin 25) : NextKeeps s (execGateEntryExpiry port s) := Keeps.next (by grind [Keeps])

include h hc in
theorem execRosterAgeExpiry_keeps (ix : BitVec 10) : NextKeeps s (execRosterAgeExpiry ix s) := Keeps.next (by grind [Keeps])

include h hc in
theorem execFrerResetExpiry_keeps (g : BitVec 7) : NextKeeps s (execFrerResetExpiry g s) := Keeps.next (by grind [Keeps])

include h hc in
theorem execNswTableDone_keeps : NextKeeps s (execNswTableDone s) := Keeps.next (by grind [Keeps])

include h hc in
theorem execFlitSend_keeps (dir : Dir) : NextKeeps s (execFlitSend dir s) := Keeps.next (by grind [Keeps])

include h hc in
theorem execCheckFlitSend_keeps (dir : Dir) : NextKeeps s (execCheckFlitSend dir s) := Keeps.next (by grind [Keeps])

include h hc in
theorem execFlitReceive_keeps (dir : Dir) (raw : BitVec 288) (laneErrs : List Nat) : NextKeeps s (execFlitReceive dir raw laneErrs s) := Keeps.next (by grind [Keeps])

include h hc in
theorem execMlTrainingTimeout_keeps : NextKeeps s (execMlTrainingTimeout s) := Keeps.next (by grind [Keeps])

include h hc in
theorem execLaneShift_keeps (dir : Dir) (lane : Fin 18) : NextKeeps s (execLaneShift dir lane s) := Keeps.next (by grind [Keeps])

include h hc in
theorem execMlShiftDone_keeps : NextKeeps s (execMlShiftDone s) := Keeps.next (by grind [Keeps])

include h hc in
theorem execMlRetrainDone_keeps : NextKeeps s (execMlRetrainDone s) := Keeps.next (by grind [Keeps])

include h hc in
theorem execMlNoFlitTimeout_keeps : NextKeeps s (execMlNoFlitTimeout s) := Keeps.next (by grind [Keeps])

include h hc in
theorem execLossWaitExpiry_keeps : NextKeeps s (execLossWaitExpiry s) := Keeps.next (by grind [Keeps])

include h hc in
theorem execCeWindowExpiry_keeps : NextKeeps s (execCeWindowExpiry s) := Keeps.next (by grind [Keeps])

include h hc in
theorem execMigrationStart_keeps : NextKeeps s (execMigrationStart s) := Keeps.next (by grind [Keeps])

include h hc in
theorem execMigrationSwitch_keeps : NextKeeps s (execMigrationSwitch s) := Keeps.next (by grind [Keeps])

include h hc in
theorem execRepairRecordAdd_keeps : NextKeeps s (execRepairRecordAdd s) := Keeps.next (by grind [Keeps])

include h hc in
theorem execClockFailure_keeps : NextKeeps s (execClockFailure s) := Keeps.next (by grind [Keeps])

include h hc in
theorem execRtcSecond_keeps : NextKeeps s (execRtcSecond s) := Keeps.next (by grind [Keeps])

include h hc in
theorem execRtcSubCapture_keeps : NextKeeps s (execRtcSubCapture s) := Keeps.next (by grind [Keeps])

include h hc in
theorem execRtcSecCommit_keeps (v : Word) : NextKeeps s (execRtcSecCommit v s) := Keeps.next (by grind [Keeps])

include h hc in
theorem execRtcOscFail_keeps : NextKeeps s (execRtcOscFail s) := Keeps.next (by grind [Keeps])

include h hc in
theorem execParkComplete_keeps : NextKeeps s (execParkComplete s) := Keeps.next (by grind [Keeps])

include h hc in
theorem execWakePin_keeps (pin : Fin 8) (level : Bool) : NextKeeps s (execWakePin pin level s) := Keeps.next (by grind [Keeps])

include h hc in
theorem execDbgChainUpdate_keeps (dr : BitVec 1608) : NextKeeps s (execDbgChainUpdate dr s) := Keeps.next (by grind [Keeps])

include h hc in
theorem execDbgChalRead_keeps : NextKeeps s (execDbgChalRead s) := Keeps.next (by grind [Keeps])

include h hc in
theorem execDbgRespUpdate_keeps (sig : BitVec 768) : NextKeeps s (execDbgRespUpdate sig s) := Keeps.next (by grind [Keeps])

include h hc in
theorem execDebugUnlockCheck_keeps : NextKeeps s (execDebugUnlockCheck s) := Keeps.next (by grind [Keeps])

include h hc in
theorem execDebugPhysicalAccess_keeps (addr : PAddr) (wr : Bool) (data : Word) : NextKeeps s (execDebugPhysicalAccess addr wr data s) := Keeps.next (by grind [Keeps])

include h hc in
theorem execDebugHalt_keeps (c : CoreId) (v : Word) : NextKeeps s (execDebugHalt c v s) := Keeps.next (by grind [Keeps])

include h hc in
theorem execTripRearm_keeps (zone : Fin 6) (sensor : Fin 4) : NextKeeps s (execTripRearm zone sensor s) := Keeps.next (by grind [Keeps])

include h hc in
theorem execBankLossThreshold_keeps (k : Fin 10) (mv : BitVec 12) : NextKeeps s (execBankLossThreshold k mv s) := Keeps.next (by grind [Keeps])

include h hc in
theorem execCDieClockLock_keeps : NextKeeps s (execCDieClockLock s) := Keeps.next (by grind [Keeps])

include h hc in
theorem execCodewordReceive_keeps (lane : Fin 8) (errors : Nat) (frames : Nat := 0) (cw : Codeword := .fill) : NextKeeps s (execCodewordReceive lane errors s frames cw) := Keeps.next (by grind [Keeps])

include h hc in
theorem execMtLinkLoss_keeps (m : Fin 4) : NextKeeps s (execMtLinkLoss m s) := Keeps.next (by grind [Keeps])

/-- Every command leaves a legal state legal, with the same queue. -/
theorem exec_keeps {s : State} (h : s.mem.wf = true) (hc : coresLegal s.cores) (i : Instr) : NextKeeps s (exec i s) := by
  cases i with
  | powerOnReset clksel => exact execPowerOnReset_keeps h clksel
  | powerGood => exact execPowerGood_keeps h hc
  | brownOut => exact execBrownOut_keeps h hc
  | rstNAssert => exact execRstNAssert_keeps h hc
  | sysRstCmdWarm => exact Keeps.next (writeRstCmd_keeps (h := h) (hc := hc) ..)
  | sysRstCmdField => exact Keeps.next (writeRstCmd_keeps (h := h) (hc := hc) ..)
  | sysRstCmdCDie => exact Keeps.next (writeRstCmd_keeps (h := h) (hc := hc) ..)
  | bootRomStart => exact execBootRomStart_keeps h hc
  | imageCheck src => exact execImageCheck_keeps h hc src
  | imageRetry => exact execImageRetry_keeps h hc
  | netbootRequest => exact execNetbootRequest_keeps h hc
  | netbootBlock offset data => exact execNetbootBlock_keeps h hc offset data
  | netbootTimeout => exact execNetbootTimeout_keeps h hc
  | fDieBist fails => exact execFDieBist_keeps h hc fails
  | fDiePhase => exact execFDiePhase_keeps h hc
  | cpgRise rail temps => exact execCpgRise_keeps h hc rail temps
  | cpgFall rail => exact execCpgFall_keeps h hc rail
  | railOffStep => exact execRailOffStep_keeps h hc
  | railFaultTimeout => exact execRailFaultTimeout_keeps h hc
  | cDieBist fails => exact execCDieBist_keeps h hc fails
  | cDiePhase => exact execCDiePhase_keeps h hc
  | railRequest _ => exact Keeps.next (writeRail_keeps (h := h) (hc := hc) ..)
  | rollbackAdvance _ => exact Keeps.next (writeRbCmd_keeps (h := h) (hc := hc) ..)
  | fuseBlowDone => exact execFuseBlowDone_keeps h hc
  | relayGo _ => exact Keeps.next (writeRelayGo_keeps (h := h) (hc := hc) ..)
  | relayApply => exact execRelayApply_keeps h hc
  | repairMirrorWrite => exact execRepairMirrorWrite_keeps h hc
  | splitLoRead m addr => exact execSplitLoRead_keeps h hc m addr
  | splitHiRead m addr => exact execSplitHiRead_keeps h hc m addr
  | splitLoWrite m addr v => exact execSplitLoWrite_keeps h hc m addr v
  | splitHiWrite m addr v => exact execSplitHiWrite_keeps h hc m addr v
  | rcRead m addr event => exact execRcRead_keeps h hc m addr event
  | registerWrite m addr bits v events => exact execRegisterWrite_keeps h hc m addr bits v events
  | tileBeat die tile beats upset => exact execTileBeat_keeps h hc die tile beats upset
  | eccWriteback die tile => exact execEccWriteback_keeps h hc die tile
  | scrubRead die tile upset => exact execScrubRead_keeps h hc die tile upset
  | tilePowerRequest die tile v => exact execTilePowerRequest_keeps h hc die tile v
  | tilePowerDone die tile => exact execTilePowerDone_keeps h hc die tile
  | tileIdleExpiry die tile idle => exact execTileIdleExpiry_keeps h hc die tile idle
  | xbarCounterClear _ _ => exact Keeps.next (writeCctl_keeps (h := h) (hc := hc) ..)
  | vx c rd p q => exact execVx_keeps h hc c rd p q
  | vwait c rd rs => exact execVwait_keeps h hc c rd rs
  | vwaitWake c => exact execVwaitWake_keeps h hc c
  | jointBrickSubmission q line => exact execJointBrickSubmission_keeps h hc q line
  | queueFlush _ => exact Keeps.next (flush_keeps (h := h) (hc := hc) ..)
  | kilnAdmission => exact execKilnAdmission_keeps h hc
  | brickSetout q seq => exact execBrickSetout_keeps h hc q seq
  | brickProbe q seq => exact execBrickProbe_keeps h hc q seq
  | brickBlockDone q seq mismatch => exact execBrickBlockDone_keeps h hc q seq mismatch
  | brickSuspend q seq k metered => exact execBrickSuspend_keeps h hc q seq k metered
  | brickEnd q seq metered => exact execBrickEnd_keeps h hc q seq metered
  | brickExpiry q seq => exact execBrickExpiry_keeps h hc q seq
  | kilnRefill temps drawn => exact execKilnRefill_keeps h hc temps drawn
  | vidRecalc => exact execVidRecalc_keeps h hc
  | vidAck => exact execVidAck_keeps h hc
  | vidTimeout => exact execVidTimeout_keeps h hc
  | thermalTrip _ _ => exact Keeps.next (trip_keeps (h := h) (hc := hc) ..)
  | coolWaitExpiry => exact execCoolWaitExpiry_keeps h hc
  | courseTick => exact execCourseTick_keeps h hc
  | pinPulseEnd cell => exact execPinPulseEnd_keeps h hc cell
  | courseEdge cs e => exact execCourseEdge_keeps h hc cs e
  | coastTimeout cs => exact execCoastTimeout_keeps h hc cs
  | coastLimit cs => exact execCoastLimit_keeps h hc cs
  | courseRunRequest _ _ => exact Keeps.next (writeCrsCtrl_keeps (h := h) (hc := hc) ..)
  | courseResync _ => exact Keeps.next (resync_keeps (h := h) (hc := hc) ..)
  | coursePositionSend => exact execCoursePositionSend_keeps h hc
  | jointArm _ _ => exact Keeps.next (jarm_keeps (h := h) (hc := hc) ..)
  | jointDisarm _ => exact Keeps.next (setBit_keeps (h := h) (hc := hc) ..)
  | jointDispatch => exact execJointDispatch_keeps h hc
  | adcConversionStart n => exact execAdcConversionStart_keeps h hc n
  | adcConversionDone n microvolts => exact execAdcConversionDone_keeps h hc n microvolts
  | adcSwconv _ => exact Keeps.next (writeSwconv_keeps (h := h) (hc := hc) ..)
  | adcPowerRequest _ _ => exact Keeps.next (writeAdcCtrl_keeps (h := h) (hc := hc) ..)
  | adcPowerDone n => exact execAdcPowerDone_keeps h hc n
  | sdResult n clocks => exact execSdResult_keeps h hc n clocks
  | comparatorChange n microvolts settling => exact execComparatorChange_keeps h hc n microvolts settling
  | cpPowerRequest _ _ => exact Keeps.next (writeCpCfg_keeps (h := h) (hc := hc) ..)
  | cpPowerDone n => exact execCpPowerDone_keeps h hc n
  | sentFrame n f => exact execSentFrame_keeps h hc n f
  | capSwtrig _ => exact Keeps.next (writeSwtrig_keeps (h := h) (hc := hc) ..)
  | capPeriodicTrigger d => exact execCapPeriodicTrigger_keeps h hc d
  | listEntryStart d => exact execListEntryStart_keeps h hc d
  | passStart d => exact execPassStart_keeps h hc d
  | frameComplete d => exact execFrameComplete_keeps h hc d
  | frameMove => exact execFrameMove_keeps h hc
  | capDefEnable _ _ => exact Keeps.next (writeDefCtrl_keeps (h := h) (hc := hc) ..)
  | slotRdWrite r v => exact execSlotRdWrite_keeps h hc r v
  | modPeriodBoundary m => exact execModPeriodBoundary_keeps h hc m
  | modEnableRequest _ _ => exact Keeps.next (writeModCtrl_keeps (h := h) (hc := hc) ..)
  | modSync _ => exact Keeps.next (writeModSync_keeps (h := h) (hc := hc) ..)
  | modCheckerMismatch m => exact execModCheckerMismatch_keeps h hc m
  | ocReadbackFault cell lasted => exact execOcReadbackFault_keeps h hc cell lasted
  | ocSafeExit cell => exact execOcSafeExit_keeps h hc cell
  | ocResume _ => exact Keeps.next (writeOcCtrl_keeps (h := h) (hc := hc) ..)
  | vioBankChange _ _ => exact Keeps.next (bankChange_keeps (h := h) (hc := hc) ..)
  | interruptEntry c => exact execInterruptEntry_keeps h hc c
  | longOpComplete _ => exact Keeps.next (completeLong_keeps (h := h) (hc := hc) ..)
  | arithmeticException c => exact execArithmeticException_keeps h hc c
  | loadReturn c => exact execLoadReturn_keeps h hc c
  | storeDrain _ => exact Keeps.next (drainOne_keeps (h := h) (hc := hc) ..)
  | illegalOpcode c w1 w2 => exact execIllegalOpcode_keeps h hc c w1 w2
  | nop _ => exact next_hod h hc _ _ _ (quiet_keeps _ fun _ a b => Keeps.refl a b)
  | barrier _ => exact next_hod h hc _ _ _ (quiet_keeps _ fun t a b => drainAll_keeps t _ a b)
  | isync c => exact execIsync_keeps h hc c
  | tlbsync c => exact execTlbsync_keeps h hc c
  | wfi _ => exact next_hod h hc _ _ _ (atMS_keeps _ _ (quiet_modCore _ _ fun _ hk => hk))
  | wopen c => exact execWopen_keeps h hc c
  | wclose _ => exact next_hod h hc _ _ _ (notOnBank_keeps _ _ fun t a b => closeWindow_keeps t _ a b)
  | ret c => exact execRet_keeps h hc c
  | retl c => exact execRetl_keeps h hc c
  | gret _ => exact next_hod h hc _ _ _ (notOnBank_keeps _ _ fun t a b => gateReturn_keeps t _ a b)
  | rfi _ => exact next_hod h hc _ _ _ (fun t a b => rfi_keeps t _ a b)
  | rep c rs inner stop => exact execRep_keeps h hc c rs inner stop
  | jmpr _ _ => exact next_hod h hc _ _ _ (quiet_jump _ _)
  | callr _ _ => exact next_hod h hc _ _ _ (fun t a b => callTo_keeps t _ _ a b)
  | icinv c p rc => exact execIcinv_keeps h hc c p rc
  | tlbi c p scope => exact execTlbi_keeps h hc c p scope
  | tlbiReceive r => exact execTlbiReceive_keeps h hc r
  | tlbiAck r => exact execTlbiAck_keeps h hc r
  | ctxs c p half => exact execCtxs_keeps h hc c p half
  | ctxl c p half => exact execCtxl_keeps h hc c p half
  | gate _ _ => exact next_hod h hc _ _ _ (notOnBank_keeps _ _ fun t a b => gateCall_keeps t _ _ a b)
  | mfs c rd sr => exact execMfs_keeps h hc c rd sr
  | mts c sr rs => exact execMts_keeps h hc c sr rs
  | add _ _ _ => exact Keeps.next (rr_keeps s _ _ _ _ h hc fun _ _ => maskOk_add _ _ _ _)
  | adc _ _ _ => exact next_hod h hc _ _ _ (quiet_alu _ _ _ fun _ => maskOk_add _ _ _ _)
  | sub _ _ _ => exact Keeps.next (rr_keeps s _ _ _ _ h hc fun _ _ => maskOk_sub _ _ _ _)
  | sbc _ _ _ => exact next_hod h hc _ _ _ (quiet_alu _ _ _ fun _ => maskOk_sub _ _ _ _)
  | cmp _ _ _ => exact next_hod h hc _ _ _ (quiet_flags _ _ fun _ => maskOk_sub _ _ _ _)
  | and _ _ _ => exact Keeps.next (rr_keeps s _ _ _ _ h hc fun _ _ => maskOk_logic _)
  | or _ _ _ => exact Keeps.next (rr_keeps s _ _ _ _ h hc fun _ _ => maskOk_logic _)
  | xor _ _ _ => exact Keeps.next (rr_keeps s _ _ _ _ h hc fun _ _ => maskOk_logic _)
  | andn _ _ _ => exact Keeps.next (rr_keeps s _ _ _ _ h hc fun _ _ => maskOk_logic _)
  | mov _ _ _ => exact Keeps.next (rr_keeps s _ _ _ _ h hc fun _ _ => maskOk_nil)
  | neg _ _ _ => exact Keeps.next (rr_keeps s _ _ _ _ h hc fun _ _ => maskOk_sub _ _ _ _)
  | not _ _ _ => exact Keeps.next (rr_keeps s _ _ _ _ h hc fun _ _ => maskOk_logic _)
  | shl _ _ _ => exact Keeps.next (rr_keeps s _ _ _ _ h hc fun _ _ => maskOk_shift _ _ _)
  | shr _ _ _ => exact Keeps.next (rr_keeps s _ _ _ _ h hc fun _ _ => maskOk_shift _ _ _)
  | sar _ _ _ => exact Keeps.next (rr_keeps s _ _ _ _ h hc fun _ _ => maskOk_shift _ _ _)
  | rol _ _ _ => exact Keeps.next (rr_keeps s _ _ _ _ h hc fun _ _ => maskOk_shift _ _ _)
  | addi _ _ _ => exact Keeps.next (ri_keeps s _ _ _ _ h hc fun _ => maskOk_add _ _ _ _)
  | cmpi _ _ _ => exact next_hod h hc _ _ _ (quiet_flags _ _ fun _ => maskOk_sub _ _ _ _)
  | movi _ _ _ => exact Keeps.next (ri_keeps s _ _ _ _ h hc fun _ => maskOk_nil)
  | shli _ _ _ => exact Keeps.next (ri_keeps s _ _ _ _ h hc fun _ => maskOk_shift _ _ _)
  | shri _ _ _ => exact Keeps.next (ri_keeps s _ _ _ _ h hc fun _ => maskOk_shift _ _ _)
  | sari _ _ _ => exact Keeps.next (ri_keeps s _ _ _ _ h hc fun _ => maskOk_shift _ _ _)
  | mul _ _ _ => exact Keeps.next (long1_keeps s _ _ _ _ h hc fun _ _ => maskOk_mul _ _)
  | mulh _ _ _ => exact Keeps.next (long1_keeps s _ _ _ _ h hc fun _ _ => maskOk_mulh _ _ _)
  | mulhu _ _ _ => exact Keeps.next (long1_keeps s _ _ _ _ h hc fun _ _ => maskOk_mulh _ _ _)
  | mulw _ _ _ => exact Keeps.next (longW_keeps (h := h) (hc := hc) ..)
  | mulwu _ _ _ => exact Keeps.next (longW_keeps (h := h) (hc := hc) ..)
  | div _ _ _ => exact Keeps.next (longDiv_keeps (h := h) (hc := hc) ..)
  | divu _ _ _ => exact Keeps.next (longDiv_keeps (h := h) (hc := hc) ..)
  | divl _ _ _ => exact Keeps.next (longDiv_keeps (h := h) (hc := hc) ..)
  | divlu _ _ _ => exact Keeps.next (longDiv_keeps (h := h) (hc := hc) ..)
  | dadd _ _ _ => exact next_hod h hc _ _ _ (fun t a b => decimal_keeps t _ _ _ _ _ a b)
  | dadc _ _ _ => exact next_hod h hc _ _ _ (fun t a b => decimal_keeps t _ _ _ _ _ a b)
  | dsub _ _ _ => exact next_hod h hc _ _ _ (fun t a b => decimal_keeps t _ _ _ _ _ a b)
  | dsbc _ _ _ => exact next_hod h hc _ _ _ (fun t a b => decimal_keeps t _ _ _ _ _ a b)
  | daj _ _ => exact next_hod h hc _ _ _ (quiet_alu _ _ _ fun _ => maskOk_daj _ _)
  | crc16 _ _ _ => exact Keeps.next (rr_keeps s _ _ _ _ h hc fun _ _ => maskOk_nil)
  | crc32 _ _ _ => exact Keeps.next (crcPair_keeps (h := h) (hc := hc) ..)
  | crc32c _ _ _ => exact Keeps.next (crcPair_keeps (h := h) (hc := hc) ..)
  | ld _ _ _ _ => exact next_hod h hc _ _ _ (fun t a b => loadInto_keeps t _ _ _ _ _ a b)
  | st _ _ _ _ => exact next_hod h hc _ _ _ (fun t a b => storeFrom_keeps t _ _ _ _ a b)
  | ldp _ _ _ _ => exact next_hod h hc _ _ _ (evenOnly_keeps _ _ fun t a b => loadInto_keeps t _ _ _ _ _ a b)
  | stp _ _ _ _ => exact next_hod h hc _ _ _ (evenOnly_keeps _ _ fun t a b => storeFrom_keeps t _ _ _ _ a b)
  | movm _ _ _ => exact next_hod h hc _ _ _ (single_bodyKeeps _ fun t a b => elemMovm_keeps t _ _ _ a b)
  | daddm _ _ _ => exact next_hod h hc _ _ _ (single_bodyKeeps _ fun t a b => elemDec_keeps t _ _ _ _ a b)
  | dsubm _ _ _ => exact next_hod h hc _ _ _ (single_bodyKeeps _ fun t a b => elemDec_keeps t _ _ _ _ a b)
  | crcm16 _ _ _ => exact next_hod h hc _ _ _ (single_bodyKeeps _ fun t a b => elemCrc16_keeps t _ _ _ a b)
  | crcm32 _ _ _ => exact next_hod h hc _ _ _ (evenOnly_keeps _ _ (single_bodyKeeps _ fun t a b => elemCrc32_keeps t _ _ _ a b))
  | ldd _ _ _ _ => exact next_hod h hc _ _ _ (fun t a b => loadInto_keeps t _ _ _ _ _ a b)
  | std _ _ _ _ => exact next_hod h hc _ _ _ (fun t a b => storeFrom_keeps t _ _ _ _ a b)
  | lddp _ _ _ _ => exact next_hod h hc _ _ _ (evenOnly_keeps _ _ fun t a b => loadInto_keeps t _ _ _ _ _ a b)
  | stdp _ _ _ _ => exact next_hod h hc _ _ _ (evenOnly_keeps _ _ fun t a b => storeFrom_keeps t _ _ _ _ a b)
  | stm c p half u mask stop => exact execStm_keeps h hc c p half u mask stop
  | ldm c p half u mask stop => exact execLdm_keeps h hc c p half u mask stop
  | movw _ _ _ => exact Keeps.next (ri_keeps s _ _ _ _ h hc fun _ => maskOk_nil)
  | addw _ _ _ => exact Keeps.next (ri_keeps s _ _ _ _ h hc fun _ => maskOk_add _ _ _ _)
  | cmpw _ _ _ => exact next_hod h hc _ _ _ (quiet_flags _ _ fun _ => maskOk_sub _ _ _ _)
  | andw _ _ _ => exact Keeps.next (ri_keeps s _ _ _ _ h hc fun _ => maskOk_logic _)
  | orw _ _ _ => exact Keeps.next (ri_keeps s _ _ _ _ h hc fun _ => maskOk_logic _)
  | xorw _ _ _ => exact Keeps.next (ri_keeps s _ _ _ _ h hc fun _ => maskOk_logic _)
  | addpw _ _ _ => exact next_hod h hc _ _ _ (evenOnly_keeps _ _ (quiet_keeps _ fun t a b => aluP_keeps t _ _ _ a b (maskOk_addP _ _)))
  | movpw _ _ _ => exact next_hod h hc _ _ _ (evenOnly_keeps _ _ (quiet_keeps _ fun t a b => wrp_keeps t _ _ _ a b))
  | addp _ _ _ => exact Keeps.next (pp_keeps s _ _ _ _ h hc fun t a b => aluP_keeps t _ _ _ a b (maskOk_addP _ _))
  | subp _ _ _ => exact Keeps.next (pp_keeps s _ _ _ _ h hc fun t a b => aluP_keeps t _ _ _ a b (maskOk_subP _ _))
  | cmpp _ _ _ => exact Keeps.next (pp_keeps s _ _ _ _ h hc fun t a b => flags_keeps t _ _ a b (maskOk_subP _ _))
  | movp c d p => exact execMovp_keeps h hc c d p
  | brs _ _ _ => exact Keeps.next (branch_keeps (h := h) (hc := hc) ..)
  | br _ _ _ => exact Keeps.next (branch_keeps (h := h) (hc := hc) ..)
  | jmp _ _ => exact next_hod h hc _ _ _ (quiet_jump _ _)
  | call _ _ => exact next_hod h hc _ _ _ (fun t a b => callTo_keeps t _ _ a b)
  | cas c rd rc p => exact execCas_keeps h hc c rd rc p
  | softwareInterrupt die v => exact execSoftwareInterrupt_keeps h hc die v
  | coreResetRequest _ => exact Keeps.next (writeCrst_keeps (h := h) (hc := hc) ..)
  | sysCrunWrite _ => exact Keeps.next (writeCrun_keeps (h := h) (hc := hc) ..)
  | watchdogExpiry c => exact execWatchdogExpiry_keeps h hc c
  | watchdogKick _ _ => exact Keeps.next (kick_keeps (h := h) (hc := hc) ..)
  | tlbLockLoad _ _ => exact Keeps.next (writeLkCmd_keeps (h := h) (hc := hc) ..)
  | tlbLockRelease _ _ => exact Keeps.next (writeLkCmd_keeps (h := h) (hc := hc) ..)
  | tlbLockDone die => exact execTlbLockDone_keeps h hc die
  | frameReceive port f => exact execFrameReceive_keeps h hc port f
  | frameTransmit port => exact execFrameTransmit_keeps h hc port
  | transmitSlot r => exact execTransmitSlot_keeps h hc r
  | canFrameReceive ch f => exact execCanFrameReceive_keeps h hc ch f
  | acfBatchExpiry ch link => exact execAcfBatchExpiry_keeps h hc ch link
  | canBusOffRecovery ch => exact execCanBusOffRecovery_keeps h hc ch
  | bpTrainingFrame lane f => exact execBpTrainingFrame_keeps h hc lane f
  | bpLinkEvent port e => exact execBpLinkEvent_keeps h hc port e
  | bpTrainTimeout port => exact execBpTrainTimeout_keeps h hc port
  | bpAlignTimeout port => exact execBpAlignTimeout_keeps h hc port
  | portEnableRequest port v => exact execPortEnableRequest_keeps h hc port v
  | portStartDone port ok speed => exact execPortStartDone_keeps h hc port ok speed
  | portStopDone port => exact execPortStopDone_keeps h hc port
  | gptpStepApply _ => exact Keeps.next (writeGptpStep_keeps (h := h) (hc := hc) ..)
  | gptpTimeCapture => exact execGptpTimeCapture_keeps h hc
  | gptpHoldover => exact execGptpHoldover_keeps h hc
  | gateCycleStart => exact execGateCycleStart_keeps h hc
  | gateEntryExpiry port => exact execGateEntryExpiry_keeps h hc port
  | rosterAgeExpiry ix => exact execRosterAgeExpiry_keeps h hc ix
  | frerResetExpiry g => exact execFrerResetExpiry_keeps h hc g
  | nswTableRead _ => exact Keeps.next (writeTblCmd_keeps (h := h) (hc := hc) ..)
  | nswTableWrite _ => exact Keeps.next (writeTblCmd_keeps (h := h) (hc := hc) ..)
  | nswCounterClear _ => exact Keeps.next (writeTblCmd_keeps (h := h) (hc := hc) ..)
  | nswTableDone => exact execNswTableDone_keeps h hc
  | flitSend dir => exact execFlitSend_keeps h hc dir
  | checkFlitSend dir => exact execCheckFlitSend_keeps h hc dir
  | flitReceive dir raw laneErrs => exact execFlitReceive_keeps h hc dir raw laneErrs
  | mlTrainingStageDone failed => exact execMlTrainingStageDone_keeps h hc failed
  | mlTrainingTimeout => exact execMlTrainingTimeout_keeps h hc
  | mlLaneErrorWindow => exact execMlLaneErrorWindow_keeps h hc
  | laneShift dir lane => exact execLaneShift_keeps h hc dir lane
  | mlShiftDone => exact execMlShiftDone_keeps h hc
  | mlRetrainDone => exact execMlRetrainDone_keeps h hc
  | mlNoFlitTimeout => exact execMlNoFlitTimeout_keeps h hc
  | lossWaitExpiry => exact execLossWaitExpiry_keeps h hc
  | wearMeasurement slacks rosc => exact execWearMeasurement_keeps h hc slacks rosc
  | ceWindowExpiry => exact execCeWindowExpiry_keeps h hc
  | migrationQueue _ => exact Keeps.next (writeMigCmd_keeps (h := h) (hc := hc) ..)
  | migrationStart => exact execMigrationStart_keeps h hc
  | migrationCopyLine => exact execMigrationCopyLine_keeps h hc
  | migrationSwitch => exact execMigrationSwitch_keeps h hc
  | repairRequest _ => exact Keeps.next (writeSprReq_keeps (h := h) (hc := hc) ..)
  | repairRecordAdd => exact execRepairRecordAdd_keeps h hc
  | clockFailure => exact execClockFailure_keeps h hc
  | rtcSecond => exact execRtcSecond_keeps h hc
  | rtcSubCapture => exact execRtcSubCapture_keeps h hc
  | rtcSecCommit v => exact execRtcSecCommit_keeps h hc v
  | rtcOscFail => exact execRtcOscFail_keeps h hc
  | park _ => exact Keeps.next (writePark_keeps (h := h) (hc := hc) ..)
  | parkComplete => exact execParkComplete_keeps h hc
  | wakePin pin level => exact execWakePin_keeps h hc pin level
  | dbgChainUpdate dr => exact execDbgChainUpdate_keeps h hc dr
  | dbgChalRead => exact execDbgChalRead_keeps h hc
  | dbgRespUpdate sig => exact execDbgRespUpdate_keeps h hc sig
  | debugUnlockCheck => exact execDebugUnlockCheck_keeps h hc
  | debugPhysicalAccess addr wr data => exact execDebugPhysicalAccess_keeps h hc addr wr data
  | debugCoreAccess c sel wr data => exact execDebugCoreAccess_keeps h hc c sel wr data
  | debugHalt c v => exact execDebugHalt_keeps h hc c v
  | tripRearm zone sensor => exact execTripRearm_keeps h hc zone sensor
  | bankLossThreshold k mv => exact execBankLossThreshold_keeps h hc k mv
  | rtcOscRestart => exact Keeps.next (setBit_keeps (h := h) (hc := hc) ..)
  | cDieClockLock => exact execCDieClockLock_keeps h hc
  | codewordReceive lane errors frames cw => exact execCodewordReceive_keeps h hc lane errors frames cw
  | mtLinkLoss m => exact execMtLinkLoss_keeps h hc m

/-- Settles O56: the front command leaves a legal state, and the queue's rest. -/
theorem stepKeepsLegal : Obligations.StepKeepsLegal := by
  intro s t ⟨hm, hc⟩ hs
  unfold step at hs
  split at hs
  next hp =>
    cases hs
    exact ⟨⟨hm, hc⟩, by rw [hp]; rfl⟩
  next c rest hp =>
    obtain ⟨hm', hc', hq⟩ := exec_keeps (s := { s with pending := rest }) hm hc c t hs
    exact ⟨⟨hm', hc'⟩, by rw [hq, hp]; rfl⟩

end Sys2Proof.Machine
end

section
/-! SUPPORT. A step runs the front command; the state after reset. -/

namespace Sys2Proof.Machine

open Sys2Proof

/-- SCRUB_READ answers a next state, whether the tile may be scrubbed or not. -/
theorem execScrubRead_next (d : Die) (t : Nat) (upset : Ecc) (s : State) : ∃ u, execScrubRead d t upset s = .next u := by
  unfold execScrubRead
  dsimp only
  split
  · exact ⟨_, rfl⟩
  · exact ⟨_, rfl⟩

/-- Every command answers a next state. -/
theorem exec_next (c : Instr) (s : State) : ∃ t, exec c s = .next t := by
  cases c with
  | scrubRead d t upset => exact execScrubRead_next d t upset s
  | _ => exact ⟨_, rfl⟩

/-- Settles O54: the front command runs, and each command has a next state. -/
theorem stepRunsFront : Obligations.StepRunsFront := fun c _ s => ⟨rfl, rfl, exec_next c s⟩

/-- Settles O55: no memory word is marked or written at reset, and every core is fresh. -/
theorem resetIsLegal : Obligations.ResetIsLegal := ⟨rfl, reset_cores⟩

/-- A core at reset. -/
theorem core_reset (c : CoreId) : State.reset.core c = freshCore c := by
  revert c
  decide

/-- Settles O57: no register is written at reset, and every core is fresh. -/
theorem resetValues : Obligations.ResetValues := by
  refine ⟨rfl, rfl, fun _ _ => rfl, fun _ _ => rfl, rfl, rfl, fun c => ?_⟩
  dsimp only
  rw [core_reset]
  revert c
  decide

/-! ### The way of an instruction up to IS -/

/-- A core that does not run, or whose load waits, is at no boundary. -/
theorem atBoundary_iff (k : Core) : k.atBoundary = true ↔ k.run = .running ∧ k.loadWait = none := by
  simp [Core.atBoundary]

/-- Away from a boundary nothing issues. -/
theorem hodIssue_of_not_boundary (s : State) (c : CoreId) (len : Nat) (u : Uses) (h : (s.core c).atBoundary = false) :
    s.hodIssue c len u = (false, s) := by simp [State.hodIssue, h]

/-- An event that is due is taken in the instruction's place. -/
theorem hodIssue_of_event (s t : State) (c : CoreId) (len : Nat) (u : Uses) (h : (s.core c).atBoundary = true)
    (he : s.takeEvent c = some t) : s.hodIssue c len u = (false, t) := by simp [State.hodIssue, h, he]

/-- A fetch that faults traps. -/
theorem hodIssue_of_fetch_error (s s1 : State) (c : CoreId) (len : Nat) (u : Uses) (t : Trap) (h : (s.core c).atBoundary = true)
    (he : s.takeEvent c = none) (hf : s.fetchAll c len = (.error t, s1)) :
    s.hodIssue c len u = (false, s1.takeTrap c (s.core c).pc t) := by simp [State.hodIssue, h, he, hf]

/-- With no long operation in flight and no exception due, an instruction whose words are fetched issues. -/
theorem hodIssue_of_fetched (s s1 : State) (c : CoreId) (len : Nat) (u : Uses) (l : List Unit) (h : (s.core c).atBoundary = true)
    (he : s.takeEvent c = none) (hf : s.fetchAll c len = (.ok l, s1)) (hl : (s1.core c).longOp = none) (ha : (s1.core c).arithDue = none) :
    s.hodIssue c len u = (true, s1) := by
  have hw : (s1.core c).mustWait c u = false := by rw [Core.mustWait, hl]
  simp [State.hodIssue, h, he, hf, hw, ha]

/-- One word is fetched as a list of one. -/
theorem fetchAll_one (s t : State) (c : CoreId) (hb : s.bit (pipeCtl c).1 (pipeCtl c).2 12 = false)
    (hw : s.fetchWord c (s.core c).pc = (.ok (), t)) : s.fetchAll c 1 = (.ok [()], t) := by
  have hwords : wordsFrom (s.core c).pc 1 = [(s.core c).pc] := by
    simp [wordsFrom, upto]
  rw [State.fetchAll, hb, hwords]
  simp only [Bool.false_eq_true, if_false, seqM, hw]

/-- Settles O59: what is taken at a boundary, and from where a word is fetched. -/
theorem hodIssues : Obligations.HodIssues := by
  intro s s1 c len u k
  refine ⟨fun hn => ?_, fun hrun hload => ?_⟩
  · refine hodIssue_of_not_boundary s c len u (Bool.eq_false_iff.2 fun hb => ?_)
    obtain ⟨hr, hl⟩ := (atBoundary_iff _).1 hb
    rcases hn with hn | hn
    · exact hn hr
    · exact hn hl
  have hb : (s.core c).atBoundary = true := (atBoundary_iff _).2 ⟨hrun, hload⟩
  refine ⟨fun a ha => hodIssue_of_event s _ c len u hb ?_, fun src lvl ha hi => hodIssue_of_event s _ c len u hb ?_, fun ha hi => ?_⟩
  · rw [State.takeEvent, ha]
  · rw [State.takeEvent, ha, hi]
  have he : s.takeEvent c = none := by rw [State.takeEvent, ha, hi]
  refine ⟨fun t hf => hodIssue_of_fetch_error s s1 c len u t hb he hf, fun l hf hl hd => hodIssue_of_fetched s s1 c len u l hb he hf hl hd,
    fun h12 => by rw [State.fetchAll, if_pos h12], fun h12 hlen pa x s2 l ht => ?_⟩
  subst hlen
  refine ⟨fun hc hin => fetchAll_one s _ c h12 ?_, fun hout hr => fetchAll_one s _ c h12 ?_⟩
  · have hhit : c.val < 8 ∧ (s2.core c).icLines.contains (pa / 64) = true := ⟨hc, List.contains_iff_mem.2 hin⟩
    rw [State.fetchWord, ht]
    exact if_pos hhit
  · have hmiss : ¬ (c.val < 8 ∧ (s2.core c).icLines.contains (pa / 64) = true) := fun h => hout ⟨h.1, List.contains_iff_mem.1 h.2⟩
    rw [State.fetchWord, ht]
    dsimp only
    rw [if_neg hmiss, hr]

end Sys2Proof.Machine
end

section
/-! SUPPORT. Loads of a hod core, and the load that returns (R255, R259, R273, R285). -/

namespace Sys2Proof.Machine

open Sys2Proof

/-! ### Registers have physical registers of their own -/

theorem xwinOf_lt (c : CoreId) (info : Word) : xwinOf c info < nwin c := by
  unfold xwinOf
  dsimp only
  split
  · assumption
  · exact Nat.mod_lt _ (nwin_pos c)

theorem nwin_le (c : CoreId) : nwin c ≤ 12 := by unfold nwin; split <;> decide

/-- On every path different registers have different physical registers. -/
theorem phys_inj (k : Core) (c : CoreId) (r q : Reg) (p : Nat) (hr : k.phys c r.toNat = some p) (hq : k.phys c q.toNat = some p) : q = r := by
  have hlr := r.isLt
  have hlq := q.isLt
  cases hpath : k.path with
  | task => exact phys_injective k c r q p (.inl hpath) hr hq
  | tsb => exact phys_injective k c r q p (.inr hpath) hr hq
  | sb2 =>
    unfold Core.phys at hr hq
    rw [hpath] at hr hq
    apply BitVec.eq_of_toNat_eq
    split at hr
    · cases hr
    split at hq
    · cases hq
    simp only [Option.some.injEq] at hr hq
    omega
  | sb1 =>
    have hw := xwinOf_lt c k.x1.xinfo
    have hn := nwin_le c
    have hup := winUp_lt c (xwinOf c k.x1.xinfo)
    unfold Core.phys localReg argReg at hr hq
    rw [hpath] at hr hq
    apply BitVec.eq_of_toNat_eq
    split at hr
    · cases hr
    split at hq
    · cases hq
    dsimp only at hr hq
    by_cases hv : wbit k.x1.xinfo 15 = true
    · simp only [hv, Bool.true_and, decide_eq_true_eq] at hr hq
      split_ifs at hr hq <;> simp only [Option.some.injEq] at hr hq <;> omega
    · simp only [hv, Bool.false_and, Bool.false_eq_true, if_false, Option.some.injEq] at hr hq
      omega

/-- Writes of different registers are writes of different physical registers. -/
theorem named_nodup (k : Core) (c : CoreId) (l : List (Reg × Word)) (hl : (l.map Prod.fst).Nodup) : ((k.named c l).map Prod.fst).Nodup := by
  induction l with
  | nil => exact List.nodup_nil
  | cons e l ih =>
    rw [List.map_cons, List.nodup_cons] at hl
    obtain ⟨he, hl⟩ := hl
    cases hp : k.phys c e.1.toNat with
    | none => simpa [Core.named, hp] using ih hl
    | some p =>
      have hcons : k.named c (e :: l) = (p, e.2) :: k.named c l := by simp [Core.named, hp]
      rw [hcons, List.map_cons, List.nodup_cons]
      refine ⟨fun hm => ?_, ih hl⟩
      obtain ⟨⟨q, v⟩, hmem, rfl⟩ := List.mem_map.1 hm
      obtain ⟨r, hr, hq⟩ := (mem_named k c l q v).1 hmem
      have : r = e.1 := phys_inj k c e.1 r q hp hq
      exact he (List.mem_map.2 ⟨(r, v), hr, this⟩)

/-- The registers of a pair are two. -/
theorem evenReg_ne_oddReg (p : PairIx) : evenReg p ≠ oddReg p := by
  have hp := p.isLt
  intro h
  have hn := congrArg BitVec.toNat h
  simp only [evenReg, oddReg, BitVec.toNat_ofNat] at hn
  omega

/-- Different pairs share no register. -/
theorem pairReg_inj {d p : PairIx} {r : Reg} (hd : r ∈ pairRegs d) (hp : r ∈ pairRegs p) : d = p := by
  have hld := d.isLt
  have hlp := p.isLt
  simp only [pairRegs, List.mem_cons, List.not_mem_nil, or_false] at hd hp
  apply BitVec.eq_of_toNat_eq
  rcases hd with rfl | rfl <;> rcases hp with h | h <;>
    (have hn := congrArg BitVec.toNat h
     simp only [evenReg, oddReg, BitVec.toNat_ofNat] at hn
     omega)

/-! ### Nothing but registers written -/

/-- The pc moved by no word. -/
theorem past_zero (s : State) (c : CoreId) : s.past c 0 = s := by
  have h : (s.core c).pc + BitVec.ofNat 32 0 = (s.core c).pc := BitVec.add_zero _
  rw [State.past, h]
  exact setCore_core s c

/-- Different registers written, and nothing else. -/
theorem ran_wrs_zero (s : State) (c : CoreId) (l : List (Reg × Word)) (hl : (l.map Prod.fst).Nodup) : Ran s (s.wrs c l) c 0 l [] := by
  have h := ran_wrs s c 0 l (named_nodup _ c l hl)
  rwa [past_zero] at h

/-! ### Loads -/

/-- The physical writes of words landing in registers. -/
def landed (regs : List (Option Nat)) (vals : List Word) : List (Nat × Word) :=
  (List.zip regs vals).filterMap fun e => e.1.map fun p => (p, e.2)

theorem setPregs_append (k : Core) (l m : List (Nat × Word)) : k.setPregs (l ++ m) = (k.setPregs l).setPregs m := by simp [Core.setPregs]

/-- Physical registers written one after the other. -/
theorem foldl_wrPhys (s : State) (c : CoreId) (l : List (Nat × Word)) :
    l.foldl (fun s e => s.wrPhys c e.1 e.2) s = s.modCore c fun k => k.setPregs l := by
  induction l generalizing s with
  | nil => simp [Core.setPregs, State.modCore]
  | cons e l ih =>
    rw [List.foldl_cons, ih, State.wrPhys, modCore_modCore]
    rfl

/-- Writes of registers that have a physical number. -/
theorem foldl_landed (s : State) (c : CoreId) (l : List (Option Nat × Word)) :
    l.foldl (fun s e => match e.1 with
      | some p => s.wrPhys c p e.2
      | none => s) s = s.modCore c fun k => k.setPregs (l.filterMap fun e => e.1.map fun p => (p, e.2)) := by
  rw [← foldl_wrPhys]
  induction l generalizing s with
  | nil => rfl
  | cons e l ih =>
    obtain ⟨_ | p, v⟩ := e
    · exact ih s
    · exact ih (s.wrPhys c p v)

/-- A load that lands writes registers alone. -/
theorem landLoad_eq (s : State) (c : CoreId) (regs : List (Option Nat)) (vals : List Word) (adv : List (Nat × Word)) :
    s.landLoad c regs vals adv = s.modCore c fun k => k.setPregs (landed regs vals ++ adv) := by
  rw [State.landLoad, foldl_wrPhys]
  have h := foldl_landed s c (List.zip regs vals)
  refine (congrArg (fun t : State => t.modCore c fun k => k.setPregs adv) (h : _)).trans ?_
  rw [modCore_modCore]
  exact modCore_congr s c (setPregs_append _ _ _).symm

/-- Registers named, then written: the physical writes of a list of registers. -/
theorem landed_map (k : Core) (c : CoreId) (rs : List Reg) (vals : List Word) :
    landed (rs.map fun r => k.phys c r.toNat) vals = k.named c (List.zip rs vals) := by
  induction rs generalizing vals with
  | nil => rfl
  | cons r rs ih =>
    cases vals with
    | nil => rfl
    | cons v vals =>
      have h := ih vals
      simp only [landed, Core.named, List.map_cons, List.zip_cons_cons, List.filterMap_cons] at h ⊢
      rw [h]

theorem named_append (k : Core) (c : CoreId) (l m : List (Reg × Word)) : k.named c (l ++ m) = k.named c l ++ k.named c m :=
  List.filterMap_append

/-- The advance of a pair whose registers the instruction does not load. -/
theorem loadAdvance_eq (s : State) (c : CoreId) (dests : List Reg) (adv : Option (PairIx × Nat))
    (h : ∀ e, adv = some e → ∀ r ∈ pairRegs e.1, r ∉ dests) : s.loadAdvance c dests adv = ((s.core c).named c (advWrites s c adv), s) := by
  cases adv with
  | none => rfl
  | some e =>
    obtain ⟨p, n⟩ := e
    have he : dests.contains (evenReg p) = false := by
      simpa using h _ rfl (evenReg p) (by simp [pairRegs])
    have ho : dests.contains (oddReg p) = false := by
      simpa using h _ rfl (oddReg p) (by simp [pairRegs])
    simp only [State.loadAdvance, State.advanced, he, ho, advWrites, pairWrite, Core.named, List.filterMap_cons, List.filterMap_nil,
      Bool.false_eq_true, if_false]
    cases (s.core c).phys c (evenReg p).toNat <;> cases (s.core c).phys c (oddReg p).toNat <;> rfl

/-- With an empty store buffer nothing has to drain. -/
theorem drainAll_of_empty (s : State) (c : CoreId) (h : (s.core c).storeBuf = []) : s.drainAll c = s := by
  rw [State.drainAll, h]
  rfl

theorem loadDrain_of_empty (s : State) (c : CoreId) (ws : List Nat) (dev : Bool) (h : (s.core c).storeBuf = []) : s.loadDrain c ws dev = s := by
  have ho : (s.core c).overlapping ws = none := by
    rw [Core.overlapping, h]
    rfl
  rw [State.loadDrain, ho, drainAll_of_empty s c h]
  exact ite_self s

/-- The registers written by an advance. -/
theorem advWrites_regs (s : State) (c : CoreId) (adv : Option (PairIx × Nat)) :
    (advWrites s c adv).map Prod.fst = match adv with
      | some (p, _) => pairRegs p
      | none => [] := by
  cases adv <;> rfl

theorem pairRegs_nodup (p : PairIx) : (pairRegs p).Nodup := by
  simp [pairRegs, evenReg_ne_oddReg]

theorem nodup_fst_zip {α β : Type} (l : List α) (m : List β) (h : l.Nodup) : ((List.zip l m).map Prod.fst).Nodup := by
  induction l generalizing m with
  | nil => exact List.nodup_nil
  | cons a l ih =>
    cases m with
    | nil => exact List.nodup_nil
    | cons b m =>
      obtain ⟨ha, hl⟩ := List.nodup_cons.mp h
      refine List.nodup_cons.mpr ⟨fun hm => ha ?_, ih m hl⟩
      obtain ⟨e, he, rfl⟩ := List.mem_map.mp hm
      exact (List.of_mem_zip he).1

/-- The registers that a load writes are different ones. -/
theorem loadWrites_nodup (s : State) (c : CoreId) (dests : List Reg) (l : List Word) (adv : Option (PairIx × Nat)) (hd : dests.Nodup)
    (h : ∀ e, adv = some e → ∀ r ∈ pairRegs e.1, r ∉ dests) : ((List.zip dests l ++ advWrites s c adv).map Prod.fst).Nodup := by
  rw [List.map_append, advWrites_regs]
  refine List.Nodup.append (nodup_fst_zip dests l hd) ?_ ?_
  · cases adv with
    | none => exact List.nodup_nil
    | some e => exact pairRegs_nodup e.1
  · intro r hr hr'
    cases adv with
    | none => cases hr'
    | some e =>
      obtain ⟨⟨r', v⟩, hm, rfl⟩ := List.mem_map.mp hr
      exact h e rfl _ hr' (List.of_mem_zip hm).1

/-- A load instruction: how its words, once translated, complete or wait. -/
theorem loads_of {i : Instr} {c : CoreId} {len : Nat} {u : Uses} {dests : List Reg} {addr : State → W32} {adv : Option (PairIx × Nat)}
    (hexec : ∀ s, exec i s = .next (s.hod c len u fun s => s.loadInto c len dests (addr s) adv)) (haddr : ∀ s, addr (s.past c len) = addr s)
    (hd : dests.Nodup) : Loads i c len u dests addr adv := by
  intro s s1 ps s2 hi hadv vas hx pas dev now
  have hup := loadAdvance_eq s2 c dests adv hadv
  have hbody : (s1.past c len).loadInto c len dests (addr (s1.past c len)) adv =
      if now = true then s2.loadNow c (List.zip vas pas) (dests.map fun r => (s2.core c).phys c r.toNat) ((s2.core c).named c (advWrites s2 c adv))
      else (none, (s2.loadDrain c pas dev).loadLater c len (List.zip (dests.map fun r => (s2.core c).phys c r.toNat) (List.zip vas ps))
        ((s2.core c).named c (advWrites s2 c adv))) := by
    unfold State.loadInto
    rw [haddr]
    dsimp only
    rw [hx]
    dsimp only
    rw [hup]
  refine ⟨fun l hnow hl => ?_, fun hnow hempty => ?_⟩
  · refine ⟨s2.wrs c (List.zip dests l ++ advWrites s2 c adv), (hexec s).trans (congrArg _ (hod_of_issue hi ?_)),
      ran_wrs_zero s2 c _ (loadWrites_nodup s2 c dests l adv hd hadv)⟩
    rw [hbody, if_pos hnow, State.loadNow, hl]
    dsimp only
    rw [landLoad_eq, wrs_eq_setPregs, landed_map, named_append]
  · refine ⟨_, (hexec s).trans (congrArg _ (hod_of_issue hi (hbody.trans (if_neg (by simp [hnow]))))), ?_⟩
    rw [loadDrain_of_empty s2 c pas dev hempty, State.loadLater, State.stay, modCore_modCore]
    rfl

/-- LD, LDP, LDD, LDDP. -/
theorem hodLoads : Sys2Proof.Rules.HodLoads := by
  intro c rd d p inc w a
  have two : ([oddReg d, evenReg d] : List Reg).Nodup := by simp [(evenReg_ne_oddReg d).symm]
  refine ⟨loads_of (fun _ => rfl) (fun s => pr_past s c 1 p) (List.nodup_singleton rd),
    loads_of (fun s => ?_) (fun s => pr_past s c 1 p) two,
    loads_of (fun _ => rfl) (fun s => congrArg (· + _) (pr_past s c 2 p)) (List.nodup_singleton rd),
    loads_of (fun s => ?_) (fun s => congrArg (· + _) (pr_past s c 2 p)) two⟩
  · show execLdp c (evenReg d) p inc s = _
    rw [execLdp, evenOnly_evenReg, pairAt_evenReg]
    rfl
  · show execLddp c (evenReg d) p w s = _
    rw [execLddp, evenOnly_evenReg, pairAt_evenReg]

theorem not_halts {k : Core} {b : Bool} (h : k.haltReq = false) : ¬ (k.haltReq && b) = true := by simp [h]

/-- LOAD_RETURN of a load that reads its words. -/
theorem execLoadReturn_ok (s s2 : State) (c : CoreId) (w : LoadWait) (l : List Word) (hw : (s.core c).loadWait = some w)
    (hr : (s.setCore c { s.core c with loadWait := none }).readWords c (w.words.map fun e => (e.2.1, e.2.2.1)) (w.words.any fun e => e.2.2.2) =
      (.ok l, s2)) (hh : (s2.core c).haltReq = false) :
    execLoadReturn c s = .next (s2.setCore c { (s2.core c).setPregs (landed (w.words.map fun e => e.1) l ++ w.advance) with pc := w.pc }) := by
  have hland : (s2.landLoad c (w.words.map fun e => e.1) l w.advance).modCore c (fun k => { k with pc := w.pc }) =
      s2.setCore c { (s2.core c).setPregs (landed (w.words.map fun e => e.1) l ++ w.advance) with pc := w.pc } := by
    rw [landLoad_eq, modCore_modCore]
    rfl
  have hreq : ((s2.setCore c { (s2.core c).setPregs (landed (w.words.map fun e => e.1) l ++ w.advance) with pc := w.pc }).core c).haltReq = false := by
    rw [core_setCore, setPregs_eq]
    exact hh
  unfold execLoadReturn
  rw [hw]
  dsimp only [State.modCore] at hr hland ⊢
  rw [hr]
  dsimp only
  rw [← hland] at hreq
  exact congrArg _ ((if_neg (not_halts hreq)).trans hland)

/-- The load that waits in MD. -/
theorem loadReturns : Sys2Proof.Rules.LoadReturns := by
  intro s c w l s2 hw hr hh writes hnodup
  refine ⟨_, execLoadReturn_ok s s2 c w l hw hr hh, fun e he => ?_, fun q hq => ?_, ?_⟩
  · rw [core_setCore]
    exact preg_setPregs_of_mem (s2.core c) _ hnodup e he
  · rw [core_setCore]
    exact preg_setPregs_of_not_mem (s2.core c) _ q hq
  · rw [core_setCore, setPregs_eq]
    rfl

/-- Settles O5: loads, and the load that returns. -/
theorem hodLoading : Obligations.HodLoading := ⟨hodLoads, loadReturns⟩

end Sys2Proof.Machine
end

section
/-! SUPPORT. Stores of a hod core, and the store buffer (R255, R259, R284, R286). -/

namespace Sys2Proof.Machine

open Sys2Proof

/-! ### Stores -/

theorem advWrites_nodup (s : State) (c : CoreId) (adv : Option (PairIx × Nat)) : ((advWrites s c adv).map Prod.fst).Nodup := by
  rw [advWrites_regs]
  cases adv with
  | none => exact List.nodup_nil
  | some e => exact pairRegs_nodup e.1

/-- A write of registers leaves the store buffer. -/
theorem storeBuf_wrs (s : State) (c : CoreId) (l : List (Reg × Word)) : ((s.wrs c l).core c).storeBuf = (s.core c).storeBuf := by
  rw [wrs_eq_setPregs, State.modCore, core_setCore, setPregs_eq]

/-- A store whose words pass their checks, outside the device regions and with room in the buffer. -/
theorem putStore_buffered (s : State) (c : CoreId) (l : List (Nat × Word)) (h : (s.core c).storeBuf.length < 8) :
    s.putStore c l false = s.buffered c l := by
  simp only [State.putStore, Bool.false_eq_true, if_false, if_neg (Nat.not_le.mpr h)]
  rfl

/-- A store instruction: its words, once checked, enter the buffer or are written. -/
theorem stores_of {i : Instr} {c : CoreId} {len : Nat} {u : Uses} {vals : State → List Word} {addr : State → W32} {adv : Option (PairIx × Nat)}
    (hexec : ∀ s, exec i s = .next (s.hod c len u fun s => s.storeFrom c (vals s) (addr s) adv))
    (haddr : ∀ s, addr (s.past c len) = addr s) (hvals : ∀ s, vals (s.past c len) = vals s) : Stores i c len u vals addr adv := by
  intro s s1 ps s2 hi hx ws
  have hbody : (s1.past c len).storeFrom c (vals (s1.past c len)) (addr (s1.past c len)) adv =
      (none, (s2.wrs c (advWrites s2 c adv)).putStore c ws (ps.any fun e => e.2)) := by
    rw [haddr, hvals, State.storeFrom, hx]
    cases adv <;> rfl
  refine ⟨s2.wrs c (advWrites s2 c adv), ran_wrs_zero s2 c _ (advWrites_nodup s2 c adv), fun hdev hroom => ?_, fun hdev => ?_⟩
  · rw [hdev, putStore_buffered _ _ _ (by rwa [storeBuf_wrs])] at hbody
    exact (hexec s).trans (congrArg _ (hod_of_issue hi hbody))
  · rw [hdev] at hbody
    exact (hexec s).trans (congrArg _ (hod_of_issue hi hbody))

/-- ST, STP, STD, STDP. -/
theorem hodStores : Sys2Proof.Rules.HodStores := by
  intro c rs d p inc w
  refine ⟨stores_of (fun _ => rfl) (fun s => pr_past s c 1 p) fun s => by rw [rg_past],
    stores_of (fun s => ?_) (fun s => pr_past s c 1 p) fun s => by rw [rg_past, rg_past],
    stores_of (fun _ => rfl) (fun s => congrArg (· + _) (pr_past s c 2 p)) fun s => by rw [rg_past],
    stores_of (fun s => ?_) (fun s => congrArg (· + _) (pr_past s c 2 p)) fun s => by rw [rg_past, rg_past]⟩
  · show execStp c (evenReg d) p inc s = _
    simp only [execStp, evenOnly_evenReg, pairAt_evenReg, State.pairWords]
    rfl
  · show execStdp c (evenReg d) p w s = _
    simp only [execStdp, evenOnly_evenReg, pairAt_evenReg, State.pairWords]

/-! ### The store buffer drains (R284, R428) -/

/-- Two bytes at an even address are one beat. -/
theorem pieces_word (a : Nat) (h : a % 2 = 0) : pieces 3 a 2 = [(a, 2)] := by
  have hk : min 2 (8 - a % 8) = 2 := by omega
  simp [pieces, hk]

/-- A word written at an even address, where no register stands. -/
theorem writeBus_word (s : State) (m : Master) (a : Nat) (v : Word) (h : a % 2 = 0) (hc : controlDie a = none) :
    s.writeBus m a (leBytes 2 v.toNat) = s.writeBeat m a (leBytes 2 v.toNat) false := by
  have hlen : (leBytes 2 v.toNat).length = 2 := rfl
  rw [State.writeBus, hc]
  show s.writeMem m a _ = _
  rw [State.writeMem, hlen, pieces_word a h, State.writePieces]
  simp only [List.take_of_length_le (Nat.le_of_eq hlen)]
  split
  · next e => exact e.symm
  · next e => exact e.symm

/-- What a word of two bytes leaves in a memory. -/
theorem get_writeBytes_word (t : Tab Byte) (k : Nat) (v : Nat) (a : Nat) :
    Tab.get 0 (writeBytes 0 t k (leBytes 2 v)) a =
      if a = k then BitVec.ofNat 8 v else if a = k + 1 then BitVec.ofNat 8 (v / 256) else Tab.get 0 t a := by
  show Tab.get 0 (Tab.set 0 (k + 1) _ (Tab.set 0 k _ t)) a = _
  by_cases h0 : a = k
  · rw [if_pos h0, Tab.get_set_of_ne _ (by omega), h0, Tab.get_set_self]
  · rw [if_neg h0]
    by_cases h1 : a = k + 1
    · rw [if_pos h1, h1, Tab.get_set_self]
    · rw [if_neg h1, Tab.get_set_of_ne _ h1, Tab.get_set_of_ne _ h0]

/-- A word marked clean that was clean. -/
theorem get_set_clean (t : Tab Ecc) (k a : Nat) (h : Tab.get .clean t k = .clean) : Tab.get .clean (Tab.set .clean k .clean t) a = Tab.get .clean t a := by
  by_cases hk : a = k
  · rw [hk, Tab.get_set_self, h]
  · exact Tab.get_set_of_ne _ hk _ _

/-- A narrow write of a near memory's clean word. -/
theorem writeNear_clean (s : State) (d : Die) (p off : Nat) (bs : List Byte) (hl : bs.length ≠ 8)
    (h : Tab.get .clean (s.nearEcc d) (nearAt d p off / 8) = .clean) : s.writeNear d p off bs = (.ok (), s.putNear d (nearAt d p off) bs) := by
  rw [State.writeNear, if_neg hl, h]

/-- The oldest entry, of one word, drains. -/
theorem drainOne_word (s : State) (c : CoreId) (a : Nat) (v : Word) (r : List StoreEntry) (h : (s.core c).storeBuf = { words := [(a, v)] } :: r) :
    s.drainOne c = (s.setCore c { s.core c with storeBuf := r }).putBus c a (leBytes 2 v.toNat) := by
  rw [State.drainOne, h]
  rfl

/-- A word put to a near memory. -/
theorem putBus_near (s : State) (c : CoreId) (d : Die) (a : Nat) (v : Word) (n off : Nat) (ha : a % 2 = 0) (hc : controlDie a = none)
    (hpath : s.path (dataPort c) a true false = (.ok (match d with
      | .c => .hcNear n off
      | .f => .hfNear n off), s))
    (hclean : Tab.get .clean (s.nearEcc d) (nearAt d n off / 8) = .clean) :
    s.putBus c a (leBytes 2 v.toNat) = s.putNear d (nearAt d n off) (leBytes 2 v.toNat) := by
  have hw := writeNear_clean s d n off (leBytes 2 v.toNat) (Nat.ne_of_beq_eq_false rfl) hclean
  rw [State.putBus, writeBus_word s _ a v ha hc, State.writeBeat, hpath]
  cases d <;> dsimp only <;> rw [hw]

/-- STORE_DRAIN of a word for a near memory. -/
theorem storeDrains : Sys2Proof.Rules.StoreDrains := by
  intro s c pa v r n off hbuf ha hc s1 stored
  have hexec : exec (.storeDrain c) s = .next (s1.putBus c pa.toNat (leBytes 2 v.toNat)) :=
    congrArg Host.Outcome.next (drainOne_word s c pa.toNat v r hbuf)
  refine ⟨fun hpath hclean => ?_, fun hpath hclean => ?_⟩
  · exact ⟨_, _, hexec.trans (congrArg _ (putBus_near s1 c .c _ v n off ha hc hpath hclean)),
      get_writeBytes_word _ _ _, fun a => get_set_clean _ _ a hclean⟩
  · exact ⟨_, _, hexec.trans (congrArg _ (putBus_near s1 c .f _ v n off ha hc hpath hclean)),
      get_writeBytes_word _ _ _, fun a => get_set_clean _ _ a hclean⟩

/-- Settles O6: stores, and the drain of the store buffer. -/
theorem hodStoring : Obligations.HodStoring := ⟨hodStores, storeDrains⟩

end Sys2Proof.Machine
end

section
/-! SUPPORT. A decimal instruction whose first load resets its own core (R262, R284, R306). -/

namespace Sys2Proof.Machine

open Sys2Proof

/-- HF[0] at level M with DTE set and in its loop buffer. The oldest entry of its store buffer holds the word 0x000F for the address that
the first operand names, and the word that makes FHINT_CRST reset HF[0] itself. -/
def selfReset : State :=
  let k : Core := { State.reset.core 8 with
    run := .running, psw := 0x0800, regs := [(2, 0x0600), (3, 0x10)], storeBuf := [{ words := [(0xC000020, 0x000F), (0x90009024, 0x0100)] }] }
  let s := (State.reset.setCore 8 k).setBit (pipeCtl 8).1 (pipeCtl 8).2 12 true
  { s with pw := { s.pw with resetting := none } }

/-- DADDM has issued. -/
def selfReset1 : State := (selfReset.hodIssue 8 1 { regs := pairRegs 1 ++ pairRegs 2, flags := true }).2

/-- Its first word is loaded: the overlapping entry has drained, and the core is reset. -/
def selfReset2 : State := ((selfReset1.past 8 1).load1 8 (selfReset1.pr 8 1)).2

/-- Its second word is loaded. -/
def selfReset3 : State := (selfReset2.load1 8 (selfReset2.pr 8 2)).2

/-- Its store has passed the checks. -/
def selfReset4 : State := (selfReset3.storeCheck 8 .store (selfReset3.pr 8 1)).2

theorem selfReset_issues : selfReset.hodIssue 8 1 { regs := pairRegs 1 ++ pairRegs 2, flags := true } = (true, selfReset1) :=
  Prod.ext (by decide +kernel) rfl

theorem selfReset_loads : (selfReset1.past 8 1).load1 8 (selfReset1.pr 8 1) = (.ok 0x000F, selfReset2) :=
  Prod.ext (by decide +kernel) rfl

/-- The second word lies in the boot ROM, whose bytes are a free value. -/
theorem selfReset_loads_again : ∃ y, selfReset2.load1 8 (selfReset2.pr 8 2) = (.ok y, selfReset3) := by
  have hok : (selfReset2.load1 8 (selfReset2.pr 8 2)).1.toOption.isSome = true := by decide +kernel
  cases hy : (selfReset2.load1 8 (selfReset2.pr 8 2)).1 with
  | error e => rw [hy] at hok; exact absurd hok Bool.false_ne_true
  | ok y => exact ⟨y, Prod.ext hy rfl⟩

theorem selfReset_checks : selfReset3.storeCheck 8 .store (selfReset3.pr 8 1) = (.ok (0, false), selfReset4) :=
  Prod.ext (by decide +kernel) rfl

/-- The core has lost DTE with its reset, and is held. -/
theorem selfReset4_held : wbit (selfReset4.psw 8) 11 = false ∧ (selfReset4.core 8).run = .held := by decide +kernel

/-! ### A core that enters an exception is not held -/

theorem cores_raise (s : State) (core src : Nat) : (s.raise core src).cores = s.cores := by
  unfold State.raise
  split_ifs <;> simp

/-- A double fault locks the core, and changes no other. -/
theorem run_doubleFault (s : State) (c : CoreId) (reason cause : Nat) : ((s.doubleFault c reason cause).core c).run = .locked := by
  have hraised (l : List Nat) (t : State) : (l.foldl (fun s i => if s.bit .FHINT_WATCH 0 i && !(s.bit .FHINT_LOCK 0 (8 + i)) then
      s.raise (8 + i) 11 else s) t).cores = t.cores := by
    induction l generalizing t with
    | nil => rfl
    | cons i l ih =>
      rw [List.foldl_cons, ih]
      split_ifs
      · exact cores_raise _ _ _
      · rfl
  rw [State.core, State.doubleFault, hraised]
  simp only [setBit_cores, setReg_cores]
  exact congrArg Core.run (core_modCore _ _ _)

/-- An entry on a bank leaves the core running or locked. -/
theorem run_enter_ne_held (s : State) (c : CoreId) (cause : Nat) (ret xaddr : W32) (imp : Bool) (xwin lvl : Nat)
    (h : ((s.leaveLoop c).core c).entryPath lvl ≠ .tsb) : ((s.enter c cause ret xaddr imp xwin lvl).core c).run ≠ .held := by
  have hlocked (u : State) : ((u.doubleFault c 5 cause).core c).run ≠ .held := by simp [run_doubleFault]
  unfold State.enter
  dsimp only
  rw [if_neg h]
  split
  · exact hlocked _
  · split
    · exact hlocked _
    · rw [core_modCore]
      exact RunState.noConfusion

/-- A trap that returns behind its instruction. -/
theorem takeTrap_after (s : State) (c : CoreId) (pc : W32) (t : Trap) (h : t.after = true) :
    s.takeTrap c pc t = (s.completeLong c).enter c t.cause ((s.completeLong c).core c).pc t.xaddr false t.xwin 0 := by
  rw [State.takeTrap, if_pos h]

/-- DTE was 1 when DADDM began, so that it traps. -/
theorem selfReset_traps : exec (.daddm 8 1 2) selfReset =
    .next ((selfReset4.flags 8 (({} : Upd).put 9 true)).takeTrap 8 (selfReset1.core 8).pc digitTrap) := by
  obtain ⟨y, hy⟩ := selfReset_loads_again
  have hdte : (selfReset1.past 8 1).dte 8 = true := by decide +kernel
  have hx : (bcdOk 0x000F && bcdOk y) = false := congrArg (· && bcdOk y) (show bcdOk 0x000F = false by decide)
  refine congrArg Host.Outcome.next (hod_of_trap selfReset_issues ?_)
  rw [State.elemDec, pr_past, selfReset_loads]
  dsimp only
  rw [hy]
  dsimp only
  rw [selfReset_checks]
  dsimp only
  rw [hx, if_neg Bool.false_ne_true]
  exact Prod.ext (if_pos (e := none) hdte) rfl

/-- The core that reset itself takes the trap on SB1, and is held no more. -/
theorem selfReset_not_held (pc : W32) :
    (((selfReset4.flags 8 (({} : Upd).put 9 true)).takeTrap 8 pc digitTrap).core 8).run ≠ .held := by
  rw [takeTrap_after _ _ _ _ rfl]
  exact run_enter_ne_held _ _ _ _ _ _ _ _ (by decide +kernel)

/-- What Ran relates runs on alike. -/
theorem run_of_ran {s t : State} {c : CoreId} {n : Nat} {rs : List (Reg × Word)} {fl : List (Nat × Bool)} (h : Ran s t c n rs fl) :
    (t.core c).run = (s.core c).run := by
  obtain ⟨-, -, ht⟩ := h
  rw [ht, core_setCore]

/-- Refutes O7: the digit trap is decided by DTE as it was before the operands were loaded, and the drain of a store that overlaps the
first operand may reset the core and with it DTE; the statement asks for DTE behind the loads. -/
theorem not_hodMemoryWork : ¬ Obligations.HodMemoryWork := by
  rintro ⟨h, -⟩
  obtain ⟨-, hdec, -⟩ := h 8 0 1 2 0 selfReset selfReset1
  obtain ⟨y, hy⟩ := selfReset_loads_again
  obtain ⟨-, hbad⟩ := hdec false _ y _ _ _ _ (by decide) selfReset_issues selfReset_loads hy selfReset_checks
  obtain ⟨hdte, hheld⟩ := selfReset4_held
  obtain ⟨t, ht, hran⟩ := hbad (fun hok => absurd hok.1 (by decide)) hdte
  have hnext := Host.Outcome.next.inj (selfReset_traps.symm.trans ht)
  exact selfReset_not_held _ (hnext ▸ (run_of_ran hran).trans hheld)

end Sys2Proof.Machine
end

section
/-! SUPPORT. Commands that leave cores, memories, brick queues, the bond image, keys, power and spares alone. -/

namespace Sys2Proof.Machine

open Sys2Proof

/-- The part of the state that the quiet commands leave: cores, memories, brick queues, the bond image as laid out, keys, power, spares. -/
def State.calm (s : State) := (s.cores, s.mem, s.queues, s.lay, s.ks, s.pw, s.spr)

/-- A fold of steps that leave it leaves it. -/
theorem calm_foldl {β : Type} (f : State → β → State) (l : List β) (s : State) (hf : ∀ t b, (f t b).calm = t.calm) : (l.foldl f s).calm = s.calm := by
  induction l generalizing s with
  | nil => rfl
  | cons b l ih => exact (ih _).trans (hf s b)

/-! ### Registers, free values, and parts of the state replaced -/

section
variable (s : State)

@[simp] theorem calm_setReg (k : RegKind) (i : Nat) (v : Word) : (s.setReg k i v).calm = s.calm := rfl
@[simp] theorem calm_setFld (k : RegKind) (i hi lo n : Nat) : (s.setFld k i hi lo n).calm = s.calm := rfl
@[simp] theorem calm_setBit (k : RegKind) (i b : Nat) (v : Bool) : (s.setBit k i b v).calm = s.calm := rfl
@[simp] theorem calm_setPair (k l : RegKind) (i n : Nat) : (s.setPair k l i n).calm = s.calm := rfl
@[simp] theorem calm_draw : s.draw.2.calm = s.calm := rfl
@[simp] theorem calm_drawWord : s.drawWord.2.calm = s.calm := rfl
@[simp] theorem calm_setMod (m : Nat) (v : Modulator) : (s.setMod m v).calm = s.calm := rfl
@[simp] theorem calm_setCell (c : Nat) (v : Cell) : (s.setCell c v).calm = s.calm := rfl
@[simp] theorem calm_setConv (n : Nat) (c : Option Conv) : (s.setConv n c).calm = s.calm := rfl
@[simp] theorem calm_setCap (d : Nat) (c : CapRun) : (s.setCap d c).calm = s.calm := rfl
@[simp] theorem calm_setRos (i : Nat) (e : BitVec 128) : (s.setRos i e).calm = s.calm := rfl
@[simp] theorem calm_setGate (p : Nat) (g : Gate) : (s.setGate p g).calm = s.calm := rfl
@[simp] theorem calm_setFrer (g : Nat) (x : Frer) : (s.setFrer g x).calm = s.calm := rfl
@[simp] theorem calm_net (x : Net) : ({ s with net := x } : State).calm = s.calm := rfl

@[simp] theorem calm_gptpNs (t : W64) : ({ s with gptpNs := t } : State).calm = s.calm := rfl

@[simp] theorem calm_answer (r : Answer W64) : (s.answer r).calm = s.calm := by cases r <;> rfl

@[simp] theorem calm_setCourse (c : Nat) (x : Course) : (s.setCourse c x).calm = s.calm := by
  unfold State.setCourse
  split <;> rfl

@[simp] theorem calm_raise (core src : Nat) : (s.raise core src).calm = s.calm := by
  unfold State.raise
  split_ifs <;> rfl

@[simp] theorem calm_raiseStat (stat en : RegKind) (b core src : Nat) : (s.raiseStat stat en b core src).calm = s.calm := by
  unfold State.raiseStat
  dsimp only
  split_ifs <;> simp

@[simp] theorem calm_netInt (b : Nat) : (s.netInt b).calm = s.calm := by
  unfold State.netInt
  split_ifs <;> simp

@[simp] theorem calm_sprInt (b : Nat) : (s.sprInt b).calm = s.calm := calm_raiseStat s _ _ _ _ _

/-! ### Modulators and output cells -/

@[simp] theorem calm_modLoad (m : Nat) : (s.modLoad m).calm = s.calm := rfl

@[simp] theorem calm_modStart (m : Nat) : (s.modStart m).calm = s.calm := by simp [State.modStart]

@[simp] theorem calm_modEnable (m : Nat) : (s.modEnable m).calm = s.calm := by
  unfold State.modEnable
  split_ifs <;> simp

@[simp] theorem calm_modBoundary (m slot : Nat) : (s.modBoundary m slot).calm = s.calm := by
  unfold State.modBoundary
  dsimp only
  split_ifs <;> simp

@[simp] theorem calm_driveCell (c slot : Nat) : (s.driveCell c slot).calm = s.calm := by
  unfold State.driveCell
  dsimp only
  generalize (if s.pw.parking = true then Lvl.z else s.levelIn c (s.cell c).state) = l
  generalize (if l = .high ∧ (s.cell c).level ≠ .high ∧ slot < (s.cell c).rise then (if (s.cell c).level = .z then Lvl.low else (s.cell c).level)
    else l) = l'
  split_ifs <;> simp

@[simp] theorem calm_driveJump (m : Nat) : (s.driveJump m).calm = s.calm := by
  refine calm_foldl _ _ _ fun t c => ?_
  dsimp only
  split
  · exact calm_driveCell _ _ _
  · rfl

@[simp] theorem calm_skipPulse (m : Nat) (p1 p2 : W32) : (s.skipPulse m p1 p2).calm = s.calm := by
  unfold State.skipPulse
  dsimp only
  split_ifs <;> simp

@[simp] theorem calm_jumpBoundary (m : Nat) (p1 p2 : W32) : (s.jumpBoundary m p1 p2).calm = s.calm := by
  unfold State.jumpBoundary
  dsimp only
  split_ifs <;> simp

@[simp] theorem calm_landMod (m : Nat) (p2 : W32) : (s.landMod m p2).calm = s.calm := by
  unfold State.landMod
  dsimp only
  split_ifs <;> simp

@[simp] theorem calm_modJump (c : Nat) (p1 p2 : W32) : (s.modJump c p1 p2).calm = s.calm := by
  unfold State.modJump
  split
  · rfl
  · refine calm_foldl _ _ _ fun t m => ?_
    split_ifs <;> simp

/-! ### Joints and courses -/

@[simp] theorem calm_applyActs (c : Nat) (a : Acted) : (s.applyActs c a).calm = s.calm := by simp [State.applyActs]

@[simp] theorem calm_pinAction (j c act : Nat) (arg : Word) (slot : Nat) : (s.pinAction j c act arg slot).calm = s.calm := by
  unfold State.pinAction
  dsimp only
  split_ifs <;> simp

@[simp] theorem calm_courseEvt (c b : Nat) : (s.courseEvt c b).calm = s.calm := by
  unfold State.courseEvt
  dsimp only
  split_ifs <;> simp

@[simp] theorem calm_jmark (k : RegKind) (j : Nat) : (s.jmark k j).calm = s.calm := rfl

@[simp] theorem calm_jqueue (e : Nat × Nat × Word × Word × Nat) : (s.jqueue e).calm = s.calm := by
  unfold State.jqueue
  dsimp only
  split_ifs
  · rfl
  · split <;> rfl

@[simp] theorem calm_jfire (j slot : Nat) : (s.jfire j slot).calm = s.calm := by
  unfold State.jfire State.jact
  dsimp only
  split_ifs
  · exact calm_pinAction _ _ _ _ _ _
  · exact calm_jqueue _ _

@[simp] theorem calm_jadvance (j : Nat) (p : W32) : (s.jadvance j p).calm = s.calm := by
  unfold State.jadvance
  extract_lets inc rev m d s1
  have h1 : s1.calm = s.calm := calm_setPair _ _ _ _ _
  split
  · rfl
  · split
    · exact h1
    · exact h1

@[simp] theorem calm_jlate (j : Nat) (p : W32) : (s.jlate j p).calm = s.calm := by
  unfold State.jlate
  split_ifs <;> simp

@[simp] theorem calm_skipJoints (c : Nat) (p1 p2 : W32) : (s.skipJoints c p1 p2).calm = s.calm := by
  unfold State.skipJoints
  refine (calm_foldl _ _ _ fun t j => calm_jlate t j p2).trans ?_
  split_ifs <;> simp

@[simp] theorem calm_correct (c np : Nat) (f : Course → Course) : (s.correct c np f).calm = s.calm := by
  unfold State.correct
  dsimp only
  split_ifs <;> simp

@[simp] theorem calm_gptpStepCourses : s.gptpStepCourses.calm = s.calm := by
  refine calm_foldl _ _ _ fun t c => ?_
  dsimp only
  split_ifs <;> simp

/-! ### Captures -/

@[simp] theorem calm_putResult (d : Nat) (v : Word) : (s.putResult d v).calm = s.calm := rfl

@[simp] theorem calm_putFree (d : Nat) : (s.putFree d).calm = s.calm := rfl

@[simp] theorem calm_occupy (n : Nat) (c : Conv) : (s.occupy n c).calm = s.calm := by
  refine calm_foldl _ _ _ fun t d => ?_
  split_ifs <;> simp

@[simp] theorem calm_startEntry (d : Nat) (w : Word) : (s.startEntry d w).calm = s.calm := by
  unfold State.startEntry
  dsimp only
  split
  · split_ifs <;> simp
  · split_ifs <;> simp
  · split_ifs <;> simp
  · simp
  · split_ifs <;> simp
  · rfl
  · rfl

@[simp] theorem calm_startGroup (d : Nat) : (s.startGroup d).calm = s.calm := calm_foldl _ _ _ fun t w => calm_startEntry t d w

/-! ### Gate lists, partners and the tables of the switch -/

@[simp] theorem calm_gates (p : Nat) : (s.gates p).2.calm = s.calm := by
  unfold State.gates
  dsimp only
  split_ifs <;> rfl

@[simp] theorem calm_accrue (p : Nat) : (s.accrue p).calm = s.calm := by
  unfold State.accrue
  dsimp only
  refine (calm_foldl _ _ _ fun t c => ?_).trans ?_
  · split_ifs <;> rfl
  · split_ifs <;> simp

@[simp] theorem calm_swapList (p : Nat) : (s.swapList p).calm = s.calm := by simp [State.swapList]

@[simp] theorem calm_jumpLists (p q : Nat) : (s.jumpLists p q).calm = s.calm := by
  refine calm_foldl _ _ _ fun t m => ?_
  dsimp only
  split_ifs <;> simp

@[simp] theorem calm_gptpUpdate : s.gptpUpdate.calm = s.calm := rfl

@[simp] theorem calm_writeGptpStep (i : Nat) (v : Word) : (s.writeGptpStep i v).calm = s.calm := by
  unfold State.writeGptpStep
  dsimp only
  split
  · rfl
  · rw [calm_jumpLists, calm_gptpStepCourses, calm_gptpUpdate, calm_gptpNs]

@[simp] theorem calm_readGptp0 : s.readGptp0.2.calm = s.calm := calm_foldl _ _ _ fun _ _ => rfl

@[simp] theorem calm_rosEvent (kind ix port : Nat) : (s.rosEvent kind ix port).calm = s.calm := by
  unfold State.rosEvent
  split_ifs <;> simp

@[simp] theorem calm_writeSa (ix part : Nat) (v : BitVec 128) : (s.writeSa ix part v).calm = s.calm := by
  unfold State.writeSa
  dsimp only
  split <;> rfl

/-- A read that may be refused changes nothing. -/
theorem calm_of_read {p : Prop} [Decidable p] (o : Option (BitVec 128)) : (if p then ((none : Option (BitVec 128)), s) else (o, s)).2.calm = s.calm := by
  split_ifs <;> rfl

@[simp] theorem calm_tableRead (sel ix part : Nat) : (s.tableRead sel ix part).2.calm = s.calm := by
  unfold State.tableRead
  split
  · extract_lets
    split_ifs <;> rfl
  · exact calm_of_read s _
  · exact calm_of_read s _
  · exact calm_of_read s _
  · exact calm_of_read s _
  · exact calm_of_read s _
  · exact calm_of_read s _
  · exact calm_of_read s _
  · exact calm_of_read s _
  · rfl

/-- What a write that may be refused leaves, where it is not. -/
theorem calm_of_guarded {p : Prop} [Decidable p] {u t : State} (h : (if p then none else some u) = some t) (hu : u.calm = s.calm) : t.calm = s.calm := by
  split_ifs at h
  cases h
  exact hu

/-- An entry of a table written. -/
theorem calm_tableWrite (sel ix part : Nat) (v : BitVec 128) (t : State) (h : s.tableWrite sel ix part v = some t) : t.calm = s.calm := by
  unfold State.tableWrite at h
  split at h
  · exact calm_of_guarded s h (by simp)
  · exact calm_of_guarded s h (by split_ifs <;> simp)
  · exact calm_of_guarded s h (by simp)
  · exact calm_of_guarded s h (by simp)
  · exact calm_of_guarded s h (by simp)
  · exact calm_of_guarded s h (by simp)
  · exact calm_of_guarded s h (by split_ifs <;> simp)
  · exact calm_of_guarded s h (by simp)
  · cases h

/-- The end of a table access that changes the state to u. -/
theorem calm_tableDone (v : Word) (ix : Nat) (d : List Word) : (s.tableDone v ix d).calm = s.calm := by
  unfold State.tableDone
  extract_lets sel part done
  have hdone (u : State) (err : Bool) : (done u err).calm = u.calm := by
    cases err <;> rfl
  split
  · split
    · next t h => exact (hdone t false).trans (calm_tableWrite s _ _ _ _ t h)
    · exact hdone s true
  · have hread := calm_tableRead s sel ix part
    split
    · next t h =>
      rw [h] at hread
      exact (hdone t true).trans hread
    · next e t h =>
      rw [h] at hread
      extract_lets s2 _ s3
      have h2 : s2.calm = s.calm := (calm_foldl (fun u i => u.setReg .NSW_TBL_D i (BitVec.ofNat 16 (entFld e (2 * i) 2))) (upto 8) t
        fun _ _ => rfl).trans hread
      refine (hdone s3 false).trans ?_
      by_cases hc : wbit v 13 = true ∧ sel = 8
      · exact (congrArg State.calm (if_pos hc)).trans ((calm_net s2 _).trans h2)
      · exact (congrArg State.calm (if_neg hc)).trans h2

/-! ### The commands -/

@[simp] theorem calm_setWear (n : Nat) : (s.setWear n).calm = s.calm := calm_foldl _ _ _ fun _ _ => rfl

@[simp] theorem calm_wearAlarm (z : Nat) : (s.wearAlarm z).calm = s.calm := by
  unfold State.wearAlarm
  split_ifs <;> simp

variable {s} {t : State}

theorem calm_wear {slacks : List Nat} {rosc : List Word} (h : execWearMeasurement slacks rosc s = .next t) : t.calm = s.calm := by
  rw [← Host.Outcome.next.inj h]
  refine (calm_foldl _ _ _ fun u z => ?_).trans ?_
  · split_ifs <;> simp
  · have h1 (l : List Nat) : (l.foldl (fun s z =>
      (s.setFld .WEAR_ZSTAT z 9 0 (min 1023 (slacks.getD z 0))).setReg .WEAR_ROSC z (rosc.getD z 0)) s).calm = s.calm :=
      calm_foldl _ _ _ fun _ _ => rfl
    split
    · exact (calm_setWear _ _).trans (h1 _)
    · exact h1 _

theorem calm_listEntryStart {d : Fin 64} (h : execListEntryStart d s = .next t) : t.calm = s.calm := by
  rw [← Host.Outcome.next.inj h]
  split_ifs <;> simp

theorem calm_gptpTimeCapture (h : execGptpTimeCapture s = .next t) : t.calm = s.calm := by
  rw [← Host.Outcome.next.inj h]
  exact (calm_answer _ _).trans (calm_readGptp0 s)

theorem calm_gateCycleStart (h : execGateCycleStart s = .next t) : t.calm = s.calm := by
  rw [← Host.Outcome.next.inj h]
  split
  · rfl
  · refine calm_foldl _ _ _ fun u p => ?_
    dsimp only
    split_ifs <;> simp

theorem calm_gateEntryExpiry {p : Fin 25} (h : execGateEntryExpiry p s = .next t) : t.calm = s.calm := by
  rw [← Host.Outcome.next.inj h]
  split_ifs <;> simp

theorem calm_rosterAgeExpiry {ix : BitVec 10} (h : execRosterAgeExpiry ix s = .next t) : t.calm = s.calm := by
  rw [← Host.Outcome.next.inj h]
  split_ifs <;> simp

theorem calm_frerResetExpiry {g : BitVec 7} (h : execFrerResetExpiry g s = .next t) : t.calm = s.calm := by
  rw [← Host.Outcome.next.inj h]
  split_ifs <;> simp

theorem calm_nswTableDone (h : execNswTableDone s = .next t) : t.calm = s.calm := by
  rw [← Host.Outcome.next.inj h]
  split
  · rfl
  · exact calm_tableDone _ _ _ _

theorem calm_ceWindowExpiry (h : execCeWindowExpiry s = .next t) : t.calm = s.calm := by
  rw [← Host.Outcome.next.inj h]
  exact calm_foldl _ _ _ fun _ _ => rfl

end

/-- Settles O60: each of the commands leaves the calm part. -/
theorem quietCommands : Obligations.QuietCommands := by
  intro s t i d p ix g v slacks rosc hi h
  have hcalm : t.calm = s.calm := by
    simp only [List.mem_cons, List.not_mem_nil, or_false] at hi
    rcases hi with rfl | rfl | rfl | rfl | rfl | rfl | rfl | rfl | rfl | rfl
    · exact calm_listEntryStart h
    · exact Host.Outcome.next.inj h ▸ calm_writeGptpStep s 3 v
    · exact calm_gptpTimeCapture h
    · exact calm_gateCycleStart h
    · exact calm_gateEntryExpiry h
    · exact calm_rosterAgeExpiry h
    · exact calm_frerResetExpiry h
    · exact calm_nswTableDone h
    · exact calm_wear h
    · exact calm_ceWindowExpiry h
  simpa only [State.calm, Prod.mk.injEq] using hcalm

end Sys2Proof.Machine
end

section
/-! SUPPORT. WOPEN and WCLOSE (R248). -/

namespace Sys2Proof.Machine

open Sys2Proof

/-! ### The window check -/

/-- CWP moved is a change of the specials. -/
theorem spec_cwp (k : Core) (f : Core → Nat) (h : f k ≠ k.cwp) : k.spec (fun k => { k with cwp := f k }) = { k with cwp := f k }.sDirty := by
  unfold Core.spec
  rw [if_neg fun e => h e.2.1]
  rfl

theorem openCheck_of_room (s : State) (c : CoreId) (h : winUp c (s.core c).cwp ≠ (s.core c).fence) : s.openCheck c = (none, s) := if_pos h

theorem openCheck_of_manual (s : State) (c : CoreId) (h : winUp c (s.core c).cwp = (s.core c).fence) (ha : (s.core c).auto = false) :
    s.openCheck c = (some ((s.core c).overflow 0), s) := by
  rw [State.openCheck, if_neg (not_not.mpr h), if_pos (by simp [ha])]

/-- With AUTO 1 the oldest frame is spilled where its words pass their checks. -/
theorem openCheck_of_auto (s s1 : State) (c : CoreId) (ps : List Nat) (h : winUp c (s.core c).cwp = (s.core c).fence)
    (ha : (s.core c).auto = true) (hp : s.checkAll c .store (wordsFrom ((s.core c).wsp - 16) 16) = (.ok ps, s1)) :
    s.openCheck c = (none, (s1.modSpec c fun k => { k with wsp := (s.core c).wsp - 16, fence := winUp c (s.core c).fence }).putWords c
      (List.zip ps ((frameOf c (winUp c (s.core c).fence)).map fun p => (s1.core c).preg p))) := by
  rw [State.openCheck, if_neg (not_not.mpr h), if_neg (by simp [ha])]
  dsimp only
  rw [hp]
  rfl

theorem closeWindow_of_resident (s : State) (c : CoreId) (h : winDown c (s.core c).cwp ≠ (s.core c).fence) :
    s.closeWindow c = (none, s.modSpec c fun k => { k with cwp := winDown c (s.core c).cwp }) := if_pos h

theorem closeWindow_of_manual (s : State) (c : CoreId) (h : winDown c (s.core c).cwp = (s.core c).fence) (ha : (s.core c).auto = false) :
    s.closeWindow c = (some ((s.core c).underflow c 0), s) := by
  rw [State.closeWindow, if_neg (not_not.mpr h), if_pos (by simp [ha])]

/-- With AUTO 1 the frame to return to is filled where its words can be read. -/
theorem closeWindow_of_auto (s s1 : State) (c : CoreId) (vals : List Word) (h : winDown c (s.core c).cwp = (s.core c).fence)
    (ha : (s.core c).auto = true) (hp : s.readAll c .load (wordsFrom (s.core c).wsp 16) = (.ok vals, s1)) :
    s.closeWindow c = (none, (s1.modCore c fun k => k.setPregs (List.zip (frameOf c (s.core c).fence) vals)).modSpec c
      fun k => { k with wsp := k.wsp + 16, fence := winDown c k.fence, cwp := winDown c (s.core c).cwp }) := by
  rw [State.closeWindow, if_neg (not_not.mpr h), if_neg (by simp [ha])]
  dsimp only
  rw [hp]
  dsimp only
  rw [foldl_wrPhys]
  rfl

/-- The registers of a frame are different ones. -/
theorem frameOf_nodup (c : CoreId) (w : Nat) : (frameOf c w).Nodup := by
  have hinj (b : Nat) : ((upto 8).map fun i => b + i).Nodup := List.nodup_range.map fun i j h => by simpa using h
  refine List.Nodup.append (hinj _) (hinj _) fun q hq hq' => ?_
  obtain ⟨i, hi, rfl⟩ := List.mem_map.1 hq
  obtain ⟨j, hj, he⟩ := List.mem_map.1 hq'
  have hi' : i < 8 := List.mem_range.1 hi
  have hj' : j < 8 := List.mem_range.1 hj
  unfold localReg argReg at he
  omega

/-! ### The instructions -/

/-- The core behind an instruction of one word. -/
theorem core_past_one (s : State) (c : CoreId) : (s.past c 1).core c = { s.core c with pc := (s.core c).pc + 1 } := core_past s c 1

theorem notOnBank_of (s : State) (c : CoreId) (body : State → Option Trap × State) (h : (s.core c).onBank = false) :
    notOnBank c body s = body s := if_neg (by simp [h])

/-- CWP moved behind an instruction of one word. -/
theorem moveCwp_past (s : State) (c : CoreId) (f : Core → Nat) (h : f { s.core c with pc := (s.core c).pc + 1 } ≠ (s.core c).cwp) :
    (s.past c 1).modSpec c (fun k => { k with cwp := f k }) =
      s.setCore c { s.core c with cwp := f { s.core c with pc := (s.core c).pc + 1 }, pc := (s.core c).pc + 1 }.sDirty := by
  rw [State.modSpec, State.modCore, core_past_one, spec_cwp _ f h, State.past, setCore_setCore]

/-- WOPEN behind the pc. -/
theorem wopen_body (s : State) (c : CoreId) (s1 : State) (hc : s.openCheck c = (none, s1)) (hpc : (s1.core c).pc = (s.core c).pc) :
    (match s.openCheck c with
      | (some t, s1) => (some t, s1)
      | (none, s1) => (none, if s1.pcOf c = s.pcOf c then s1.moveUp c else s1)) = ((none : Option Trap), s1.moveUp c) := by
  rw [hc]
  exact congrArg (Prod.mk none) (if_pos hpc)

theorem wopen_rules (c : CoreId) (s s1 : State) (hbank : (s1.core c).onBank = false)
    (hi : s.hodIssue c 1 { pregs := (s.core c).spillRegs c } = (true, s1)) :
    let k := s1.core c
    let f := winUp c k.fence
    (winUp c k.cwp ≠ k.fence → exec (.wopen c) s = .next (s1.setCore c { k with cwp := winUp c k.cwp, pc := k.pc + 1 }.sDirty)) ∧
    (winUp c k.cwp = k.fence → k.auto = false →
      exec (.wopen c) s = .next ((s1.past c 1).takeTrap c k.pc { cause := 0x0F, xwin := k.fence })) ∧
    (∀ ps s2, winUp c k.cwp = k.fence → k.auto = true → (s1.past c 1).checkAll c .store (wordsFrom (k.wsp - 16) 16) = (.ok ps, s2) →
      let s3 := (s2.modSpec c fun x => { x with wsp := k.wsp - 16, fence := f }).putWords c
        (List.zip ps ((frameOf c f).map fun p => (s2.core c).preg p))
      (s3.core c).pc = k.pc + 1 →
      exec (.wopen c) s = .next (s3.modSpec c fun x => { x with cwp := winUp c x.cwp })) := by
  intro k f
  have hpast := core_past_one s1 c
  have hbank' : ((s1.past c 1).core c).onBank = false := by rw [hpast]; exact hbank
  have hdone (s3 : State) (hc : (s1.past c 1).openCheck c = (none, s3)) (hpc : (s3.core c).pc = k.pc + 1) :
      exec (.wopen c) s = .next (s3.moveUp c) := by
    refine congrArg Host.Outcome.next (hod_of_issue hi ?_)
    rw [notOnBank_of _ c _ hbank']
    exact wopen_body _ c s3 hc (by rw [hpc, hpast])
  refine ⟨fun hroom => ?_, fun hfull hauto => ?_, fun ps s2 hfull hauto hp => ?_⟩
  · rw [hdone (s1.past c 1) (openCheck_of_room _ c (by rw [hpast]; exact hroom)) (by rw [hpast])]
    exact congrArg _ (moveCwp_past s1 c (fun k => winUp c k.cwp) (winUp_ne c k.cwp))
  · refine congrArg Host.Outcome.next (hod_of_trap hi ?_)
    rw [notOnBank_of _ c _ hbank']
    dsimp only
    rw [openCheck_of_manual _ c (by rw [hpast]; exact hfull) (by rw [hpast]; exact hauto), hpast]
    rfl
  · intro s3 hpc
    refine hdone s3 ?_ hpc
    have hopen := openCheck_of_auto (s1.past c 1) s2 c ps (by rw [hpast]; exact hfull) (by rw [hpast]; exact hauto) (by rw [hpast]; exact hp)
    rwa [hpast] at hopen

theorem wclose_rules (c : CoreId) (s s1 : State) (hbank : (s1.core c).onBank = false)
    (hi : s.hodIssue c 1 { pregs := (s.core c).fillRegs c } = (true, s1)) :
    let k := s1.core c
    let down := winDown c k.cwp
    (down ≠ k.fence → exec (.wclose c) s = .next (s1.setCore c { k with cwp := down, pc := k.pc + 1 }.sDirty)) ∧
    (down = k.fence → k.auto = false →
      exec (.wclose c) s = .next ((s1.past c 1).takeTrap c k.pc { cause := 0x10, xwin := winDown c k.fence })) ∧
    (∀ vals s2, down = k.fence → k.auto = true → (s1.past c 1).readAll c .load (wordsFrom k.wsp 16) = (.ok vals, s2) →
      ∃ a, (∀ e ∈ List.zip (frameOf c k.fence) vals, (a.core c).preg e.1 = e.2) ∧
        (∀ q, q ∉ frameOf c k.fence → (a.core c).preg q = (s2.core c).preg q) ∧
        a = s2.setCore c { s2.core c with
          regs := (a.core c).regs
          dirty := (List.zip (frameOf c k.fence) vals).foldl (fun d e => dirtyOn d e.1) (s2.core c).dirty } ∧
        exec (.wclose c) s = .next (a.modSpec c fun x => { x with wsp := x.wsp + 16, fence := winDown c x.fence, cwp := down })) := by
  intro k down
  have hpast := core_past_one s1 c
  have hbank' : ((s1.past c 1).core c).onBank = false := by rw [hpast]; exact hbank
  have hdone (s3 : State) (hc : (s1.past c 1).closeWindow c = (none, s3)) : exec (.wclose c) s = .next s3 :=
    congrArg Host.Outcome.next (hod_of_issue hi ((notOnBank_of _ c _ hbank').trans hc))
  refine ⟨fun hroom => ?_, fun hfull hauto => ?_, fun vals s2 hfull hauto hp => ?_⟩
  · rw [hdone _ (closeWindow_of_resident _ c (by rw [hpast]; exact hroom)), hpast]
    exact congrArg _ (moveCwp_past s1 c (fun _ => winDown c k.cwp) (winDown_ne c k.cwp))
  · refine congrArg Host.Outcome.next (hod_of_trap hi ((notOnBank_of _ c _ hbank').trans ?_))
    rw [closeWindow_of_manual _ c (by rw [hpast]; exact hfull) (by rw [hpast]; exact hauto), hpast]
    rfl
  · have hclose := closeWindow_of_auto (s1.past c 1) s2 c vals (by rw [hpast]; exact hfull) (by rw [hpast]; exact hauto)
      (by rw [hpast]; exact hp)
    rw [hpast] at hclose
    refine ⟨_, fun e he => ?_, fun q hq => ?_, ?_, hdone _ hclose⟩
    · rw [core_modCore]
      exact preg_setPregs_of_mem _ _ (nodup_fst_zip _ vals (frameOf_nodup c _)) e he
    · rw [core_modCore]
      refine preg_setPregs_of_not_mem _ _ q fun hm => hq ?_
      obtain ⟨e, he, rfl⟩ := List.mem_map.1 hm
      exact (List.of_mem_zip he).1
    · rw [core_modCore, State.modCore, setPregs_eq]

/-- Settles O9: WOPEN and WCLOSE, by what the window check answers. -/
theorem hodWindows : Obligations.HodWindows := by
  intro c s s1 k up down f hbank
  exact ⟨wopen_rules c s s1 hbank, wclose_rules c s s1 hbank⟩

end Sys2Proof.Machine
end

section
/-! SUPPORT. Jumps, calls and returns (R260, R300, R301). -/

namespace Sys2Proof.Machine

open Sys2Proof

/-! ### Specials changed, and DIRTY.S -/

@[simp] theorem putBit_putBit_self (w : Word) (b : Nat) (hb : b < 16) : putBit (putBit w b true) b true = putBit w b true := by
  apply BitVec.eq_of_getLsbD_eq
  intro i hi
  simp only [getLsbD_putBit _ _ _ _ hb]
  split <;> rfl

theorem putBit_comm (w : Word) (a b : Nat) (ha : a < 16) (hb : b < 16) :
    putBit (putBit w a true) b true = putBit (putBit w b true) a true := by
  apply BitVec.eq_of_getLsbD_eq
  intro i hi
  simp only [getLsbD_putBit _ _ _ _ hb, getLsbD_putBit _ _ _ _ ha]
  split <;> split <;> rfl

theorem modSpec_setCore (s : State) (c : CoreId) (k : Core) (f : Core → Core) : (s.setCore c k).modSpec c f = s.setCore c (k.spec f) := by
  rw [State.modSpec, State.modCore, core_setCore, setCore_setCore]

theorem modSpec_eq (s : State) (c : CoreId) (f : Core → Core) : s.modSpec c f = s.setCore c ((s.core c).spec f) := rfl

/-- SSP changed. -/
theorem spec_ssp (k : Core) (f : Core → W32) (h : f k ≠ k.ssp) : k.spec (fun k => { k with ssp := f k }) = { k with ssp := f k }.sDirty := by
  unfold Core.spec
  rw [if_neg fun e => h e.2.2.2.2.2.2.1]
  rfl

theorem add_ne_self (a d : W32) (h : d ≠ 0) : a + d ≠ a := by
  simpa using h

/-- A jump, as one change of the core. -/
theorem jump_eq_goto (s : State) (c : CoreId) (a : W32) : s.jump c a = s.goto c a := by
  rw [State.jump, leaveLoop_eq, State.modCore, core_setCore, setCore_setCore]
  rfl

theorem goto_setCore (s : State) (c : CoreId) (k : Core) (a : W32) :
    (s.setCore c k).goto c a = (s.lbuf c false).setCore c { k with pc := a, loopAt := none } := by
  rw [State.goto, core_setCore, lbuf_setCore, setCore_setCore]

theorem goto_past (s : State) (c : CoreId) (n : Nat) (a : W32) : (s.past c n).goto c a = s.goto c a := goto_setCore s c _ a

/-- Jumps, calls. -/
theorem pcOf_past (s : State) (c : CoreId) (n : Nat) : (s.past c n).pcOf c = (s.core c).pc + BitVec.ofNat 32 n := by
  rw [State.pcOf, core_past]

/-- A call whose push passes its checks. -/
theorem callTo_of_push (s s2 : State) (c : CoreId) (t : W32) (ps : List Nat) (hp : s.shadowCheck c ((s.core c).ssp - 2) 2 = (.ok ps, s2)) :
    ∃ a, Ran s2 a c 0 (pairWrite 15 (s2.core c).pc) [] ∧
      s.callTo c t = (none, (((a.setCore c { (a.core c).spec fun k => { k with ssp := (s.core c).ssp - 2 } with pc := t, loopAt := none }).lbuf
        c false).putWords c (List.zip ps [loOf (s2.core c).pc, hiOf (s2.core c).pc]))) := by
  refine ⟨s2.wrp c 15 (s2.core c).pc, ?_, ?_⟩
  · exact ran_wrs_zero s2 c (pairWrite 15 (s2.core c).pc) (pairRegs_nodup 15)
  · rw [State.callTo, hp]
    dsimp only
    rw [jump_eq_goto, modSpec_eq, goto_setCore, lbuf_setCore]
    rfl

/-- A call instruction. -/
theorem call_of {i : Instr} {c : CoreId} {len : Nat} {u : Uses} {target : State → W32} {s s1 s2 : State} {ps : List Nat}
    (hexec : exec i s = .next (s.hod c len u fun s => s.callTo c (target s)))
    (hp : (s1.past c len).shadowCheck c ((s1.core c).ssp - 2) 2 = (.ok ps, s2)) (hi : s.hodIssue c len u = (true, s1)) :
    ∃ a, Ran s2 a c 0 (pairWrite 15 (s2.core c).pc) [] ∧
      exec i s = .next (((a.setCore c { (a.core c).spec fun k => { k with ssp := (s1.core c).ssp - 2 } with
        pc := target (s1.past c len), loopAt := none }).lbuf c false).putWords c (List.zip ps [loOf (s2.core c).pc, hiOf (s2.core c).pc])) := by
  have hssp : ((s1.past c len).core c).ssp = (s1.core c).ssp := by rw [core_past]
  rw [← hssp] at hp ⊢
  obtain ⟨a, hran, hcall⟩ := callTo_of_push _ s2 c (target (s1.past c len)) ps hp
  exact ⟨a, hran, hexec.trans (congrArg _ (hod_of_issue hi hcall))⟩

theorem hodJumps : Sys2Proof.Rules.HodJumps := by
  intro c disp p
  refine ⟨does_of_quiet (fun _ => rfl) fun s => ?_, does_of_quiet (fun _ => rfl) fun s => ?_, fun s s1 s2 ps hp hi => ?_,
    fun s s1 s2 ps hp hi => ?_⟩
  · rw [jump_eq_goto, goto_past, pcOf_past]
    rfl
  · rw [jump_eq_goto, goto_past, pr_past]
  · have h := call_of (i := .call c disp) rfl hp hi
    rwa [pcOf_past] at h
  · have h := call_of (i := .callr c p) rfl hp hi
    rwa [pr_past] at h

/-! ### Returns -/

/-- The top of the shadow stack, read. -/
theorem shadowTop_eq (s s2 : State) (c : CoreId) (t : W32) (lo hi : Word) (h : s.shadowRead c (s.core c).ssp 2 = (.ok [lo, hi], s2)) :
    s.shadowTop c t = (if w32of hi lo = t then none else some { cause := 0x0B, xaddr := t }, s2) := by
  rw [State.shadowTop, h]
  dsimp only
  by_cases ht : w32of hi lo = t
  · rw [if_pos ht]; exact if_pos ht
  · rw [if_neg ht]; exact if_neg ht

/-- SSP popped and control moved. -/
theorem pop_jump (s : State) (c : CoreId) (k : Core) (n : Nat) (t : W32) (hn : BitVec.ofNat 32 n ≠ 0) :
    ((s.setCore c k).popShadow c n).jump c t =
      (s.lbuf c false).setCore c { k with ssp := k.ssp + BitVec.ofNat 32 n, pc := t, loopAt := none }.sDirty := by
  rw [State.popShadow, modSpec_setCore, jump_eq_goto, goto_setCore]
  rw [spec_ssp k (fun k => k.ssp + BitVec.ofNat 32 n) (add_ne_self _ _ hn)]
  rfl

theorem hodReturns : Sys2Proof.Rules.HodReturns := by
  intro c s s1 s2 lo hi hread k hbank hissue
  have hpast := core_past_one s1 c
  have hbank' : ((s1.past c 1).core c).onBank = false := by rw [hpast]; exact hbank
  have htop := shadowTop_eq (s1.past c 1) s2 c (s1.pr c 7) lo hi (by rw [hpast]; exact hread)
  refine ⟨fun heq hres => congrArg Host.Outcome.next (hod_of_issue hissue ?_), fun hne => congrArg Host.Outcome.next (hod_of_trap hissue ?_)⟩
  · rw [notOnBank_of _ c _ hbank', pr_past]
    dsimp only
    rw [htop, if_pos heq]
    dsimp only
    rw [closeWindow_of_resident s2 c hres]
    dsimp only
    rw [modSpec_eq, spec_cwp _ (fun _ => winDown c k.cwp) (winDown_ne c k.cwp), pop_jump _ _ _ _ _ (by decide)]
    simp only [Core.sDirty, putBit_putBit_self _ 14 (by decide)]
    rfl
  · rw [notOnBank_of _ c _ hbank', pr_past]
    dsimp only
    rw [htop, if_neg hne]

theorem hodLeafReturns : Sys2Proof.Rules.HodLeafReturns := by
  intro c s s1 s2 lo hi hread hissue k
  have htop := shadowTop_eq (s1.past c 1) s2 c (s1.pr c 15) lo hi (by rw [core_past_one]; exact hread)
  refine ⟨fun heq => congrArg Host.Outcome.next (hod_of_issue hissue ?_), fun hne => congrArg Host.Outcome.next (hod_of_trap hissue ?_)⟩
  · have hpop := pop_jump s2 c (s2.core c) 2 (s1.pr c 15) (by decide)
    rw [setCore_core] at hpop
    dsimp only [linkPair]
    rw [pr_past, htop, if_pos heq]
    exact congrArg _ hpop
  · dsimp only [linkPair]
    rw [pr_past, htop, if_neg hne]

/-- Settles O11: jumps, calls, returns. -/
theorem hodTransfers : Obligations.HodTransfers := ⟨hodJumps, hodReturns, hodLeafReturns⟩

end Sys2Proof.Machine
end

section
/-! SUPPORT. GATE and GRET (R297 to R299). -/

namespace Sys2Proof.Machine

open Sys2Proof

/-! ### A core whose specials have changed before -/

/-- With DIRTY.S set, a further change of the specials changes nothing else. -/
theorem spec_of_sDirty (k : Core) (f : Core → Core) (h : (f k.sDirty).dirty = putBit k.dirty 14 true) : k.sDirty.spec f = f k.sDirty := by
  have hd : putBit (f k.sDirty).dirty 14 true = (f k.sDirty).dirty := by rw [h, putBit_putBit_self _ _ (by decide)]
  unfold Core.spec
  dsimp only
  rw [hd]
  exact ite_self _

theorem modSpec_cwp (s : State) (c : CoreId) (f : Core → Nat) (h : f (s.core c) ≠ (s.core c).cwp) :
    s.modSpec c (fun k => { k with cwp := f k }) = s.setCore c { s.core c with cwp := f (s.core c) }.sDirty :=
  congrArg (s.setCore c) (spec_cwp _ f h)

/-- CWP moved up. -/
theorem moveUp_eq (s : State) (c : CoreId) : s.moveUp c = s.setCore c { s.core c with cwp := winUp c (s.core c).cwp }.sDirty :=
  modSpec_cwp s c (fun k => winUp c k.cwp) (winUp_ne c _)

/-- CWP moved up, then PSW and SSP changed. -/
theorem moveUp_modSpec (s : State) (c : CoreId) (w : Word → Word) (a : W32) :
    (s.moveUp c).modSpec c (fun k => { k with psw := w k.psw, ssp := a }) =
      s.setCore c { s.core c with cwp := winUp c (s.core c).cwp, psw := w (s.core c).psw, ssp := a }.sDirty := by
  rw [moveUp_eq, modSpec_setCore]
  exact congrArg (s.setCore c) (spec_of_sDirty { s.core c with cwp := winUp c (s.core c).cwp } (fun k => { k with psw := w k.psw, ssp := a }) rfl)

/-- A6 and a7 are globals: written, they set DIRTY.G. -/
theorem setCore_wrPhys_sp (s : State) (c : CoreId) (k : Core) (v w : Word) :
    ((s.setCore c k).wrPhys c 6 v).wrPhys c 7 w =
      s.setCore c { k with regs := Tab.set 0 7 w (Tab.set 0 6 v k.regs), dirty := putBit k.dirty 15 true } := by
  have h : dirtyOn (dirtyOn k.dirty 6) 7 = putBit k.dirty 15 true := putBit_putBit_self k.dirty 15 (by decide)
  rw [State.wrPhys, State.wrPhys, modCore_modCore, State.modCore, core_setCore, setCore_setCore, ← h]
  rfl

theorem get_sp (t : Tab Word) (v w : Word) :
    Tab.get 0 (Tab.set 0 7 w (Tab.set 0 6 v t)) 6 = v ∧ Tab.get 0 (Tab.set 0 7 w (Tab.set 0 6 v t)) 7 = w ∧
      ∀ q, q ≠ 6 → q ≠ 7 → Tab.get 0 (Tab.set 0 7 w (Tab.set 0 6 v t)) q = Tab.get 0 t q := by
  refine ⟨?_, Tab.get_set_self _ _ _ _, fun q h6 h7 => ?_⟩
  · rw [Tab.get_set_of_ne _ (by decide), Tab.get_set_self]
  · rw [Tab.get_set_of_ne _ h7, Tab.get_set_of_ne _ h6]

/-! ### GATE -/

/-- The registers that a gate's SP leaves. -/
def gateRegs (k : Core) (e : List Word) : Tab Word :=
  if entrySp e = 0 then k.regs else Tab.set 0 7 (loOf (entrySp e)) (Tab.set 0 6 (hiOf (entrySp e)) k.regs)

/-- The entry through a gate whose frame can be pushed. -/
theorem gateEnter_of_push (s s1 : State) (c : CoreId) (n lvl : Nat) (e : List Word) (ps : List Nat)
    (hp : s.shadowCheck c ((s.core c).ssp - 8) 8 = (.ok ps, s1)) :
    let k := s1.core c
    s.gateEnter c n e lvl = (none, ((s1.lbuf c false).setCore c { k with
        regs := gateRegs k e
        dirty := if entrySp e = 0 then putBit k.dirty 14 true else putBit (putBit k.dirty 14 true) 15 true
        cwp := winUp c k.cwp, ssp := (s.core c).ssp - 8, pc := entryTgt e, loopAt := none
        psw := putFld k.psw 15 14 (min (entryLvl e) lvl) }).putWords c (List.zip ps (s1.gateFrame c n))) := by
  intro k
  rw [State.gateEnter, hp]
  dsimp only
  rw [moveUp_modSpec s1 c (fun v => putFld v 15 14 (min (entryLvl e) lvl)), gateRegs]
  by_cases h : entrySp e = 0
  · rw [if_pos h, if_pos h, if_pos h, jump_eq_goto, goto_setCore]
    rfl
  · rw [if_neg h, if_neg h, if_neg h, setCore_wrPhys_sp, jump_eq_goto, goto_setCore]
    rfl

theorem hodGate : Sys2Proof.Rules.HodGate := by
  intro c n s s1 s2 s3 s4 e ps hissue hbank hentry
  have hbank' : ((s1.past c 1).core c).onBank = false := by rw [core_past_one]; exact hbank
  have hbody : notOnBank c (fun s => s.gateCall c n.toNat) (s1.past c 1) =
      if ¬ (entryValid e && entryKind e = 1) ∨ entryMin e < s2.level c then (some gateFault, s2) else s2.gatePass c n.toNat e := by
    rw [notOnBank_of _ c _ hbank', State.gateCall, hentry]
  refine ⟨fun hbad => congrArg Host.Outcome.next (hod_of_trap hissue (hbody.trans (if_pos (by simpa using hbad)))),
    fun hvalid hkind hmin hroom hargs hpush => ?_⟩
  intro k d
  refine ⟨gateRegs k e, fun hsp => ?_, fun q hq => ?_, ?_⟩
  · obtain ⟨h6, h7, -⟩ := get_sp k.regs (hiOf (entrySp e)) (loOf (entrySp e))
    rw [gateRegs, if_neg hsp]
    exact ⟨h6, h7⟩
  · unfold gateRegs
    split
    · rfl
    · next hsp =>
      obtain ⟨h6, h7⟩ := hq.resolve_left hsp
      exact (get_sp k.regs _ _).2.2 q h6 h7
  · refine congrArg Host.Outcome.next (hod_of_issue hissue (hbody.trans ((if_neg ?_).trans ?_)))
    · simp [hvalid, hkind, Nat.not_lt.mpr hmin]
    · rw [State.gatePass, openCheck_of_room s2 c hroom]
      dsimp only
      rw [if_neg (not_not.mpr rfl), hargs]
      exact gateEnter_of_push s3 s4 c n.toNat (s2.level c) e ps hpush

/-! ### GRET -/

/-- Bit 0 cleared leaves what lies above it. -/
theorem and_FFFE_div (v : Word) (k : Nat) (hk : 0 < k) : (v &&& 0xFFFE).toNat / 2 ^ k = v.toNat / 2 ^ k := by
  apply Nat.eq_of_testBit_eq
  intro i
  rw [Nat.testBit_div_two_pow, Nat.testBit_div_two_pow, BitVec.testBit_toNat, BitVec.testBit_toNat, BitVec.getLsbD_and]
  by_cases hj : i + k < 16
  · have hm : (0xFFFE : Word).getLsbD (i + k) = true := by
      obtain ⟨j, hi⟩ : ∃ j, i + k = j := ⟨_, rfl⟩
      rw [hi] at hj ⊢
      have h0 : j ≠ 0 := by omega
      interval_cases j
      · exact absurd rfl h0
      all_goals rfl
    rw [hm, Bool.and_true]
  · rw [BitVec.getLsbD_of_ge v _ (by omega), Bool.false_and]

theorem wfld_and_FFFE (v : Word) (hi lo : Nat) (h : 0 < lo) : wfld (v &&& 0xFFFE) hi lo = wfld v hi lo := by
  rw [wfld_eq, wfld_eq, and_FFFE_div v lo h]

theorem wbit_and_FFFE (v : Word) (b : Nat) (h : 0 < b) : wbit (v &&& 0xFFFE) b = wbit v b := by
  rw [wbit_eq, wbit_eq, and_FFFE_div v b h]

/-- A saved status word with a level that exists is loaded as it is. -/
theorem pswLoaded_of_level (s : State) (v : Word) (h : wfld v 15 14 ≠ 3) : s.pswLoaded v = (v &&& 0xFFFE, s) :=
  if_neg (by rw [wfld_and_FFFE v 15 14 (by decide)]; exact h)

/-- PSW behind a GRET whose frame holds the status word f. -/
def gretPsw (psw f : Word) : Word := putBit (putBit (putFld psw 15 14 (wfld f 15 14)) 13 (wbit f 13)) 11 (wbit f 11)

theorem gretPsw_and_FFFE (psw f : Word) : gretPsw psw (f &&& 0xFFFE) = gretPsw psw f := by
  rw [gretPsw, wfld_and_FFFE _ _ _ (by decide), wbit_and_FFFE _ _ (by decide), wbit_and_FFFE _ _ (by decide), gretPsw]

/-- The return through a gate frame with the mark and a level that exists, into a resident window. -/
theorem gateReturn_of_frame (s s1 : State) (c : CoreId) (w : List Word) (hread : s.shadowRead c (s.core c).ssp 8 = (.ok w, s1))
    (hmark : w.getD 6 0 = 0x6A7E) (hlvl : s1.level c ≤ wfld (w.getD 4 0) 15 14) (h3 : wfld (w.getD 4 0) 15 14 ≠ 3)
    (hres : winDown c (s1.core c).cwp ≠ (s1.core c).fence) :
    let k := s1.core c
    s.gateReturn c = (none, (s1.lbuf c false).setCore c { k with
      regs := Tab.set 0 7 (w.getD 2 0) (Tab.set 0 6 (w.getD 3 0) k.regs), dirty := putBit (putBit k.dirty 14 true) 15 true
      cwp := winDown c k.cwp, ssp := k.ssp + 8, pc := w32of (w.getD 1 0) (w.getD 0 0), loopAt := none, psw := gretPsw k.psw (w.getD 4 0) }) := by
  intro k
  let kw : Core := { k with
    regs := Tab.set 0 7 (w.getD 2 0) (Tab.set 0 6 (w.getD 3 0) k.regs), dirty := putBit k.dirty 15 true, cwp := winDown c k.cwp }
  have hwin : ((s1.setCore c { k with cwp := winDown c k.cwp }.sDirty).wrPhys c 6 (w.getD 3 0)).wrPhys c 7 (w.getD 2 0) =
      s1.setCore c kw.sDirty := by
    rw [setCore_wrPhys_sp, Core.sDirty, Core.sDirty, putBit_comm _ 14 15 (by decide) (by decide)]
  have hd : putBit (putBit (putBit k.dirty 15 true) 14 true) 14 true = putBit (putBit k.dirty 14 true) 15 true := by
    rw [putBit_putBit_self _ 14 (by decide), putBit_comm _ 15 14 (by decide) (by decide)]
  have hpsw := spec_of_sDirty kw (fun k => { k with psw := gretPsw k.psw (w.getD 4 0 &&& 0xFFFE) }) rfl
  rw [State.gateReturn, hread]
  dsimp only
  rw [if_neg (not_or.mpr ⟨not_not.mpr hmark, Nat.not_lt.mpr hlvl⟩), closeWindow_of_resident s1 c hres]
  dsimp only
  rw [pswLoaded_of_level _ _ h3]
  dsimp only
  rw [modSpec_cwp s1 c (fun _ => winDown c (s1.core c).cwp) (winDown_ne c _)]
  dsimp only
  rw [hwin, modSpec_setCore]
  refine congrArg (Prod.mk none) (Eq.trans (congrArg (fun m : Core => ((s1.setCore c m).popShadow c 8).jump c (w32of (w.getD 1 0) (w.getD 0 0))) hpsw) ?_)
  rw [pop_jump _ _ _ _ _ (by decide), gretPsw_and_FFFE, ← hd]
  rfl

theorem hodGret : Sys2Proof.Rules.HodGret := by
  intro c s s1 s2 w hissue hbank hread k f
  have hpast := core_past_one s1 c
  have hbank' : ((s1.past c 1).core c).onBank = false := by rw [hpast]; exact hbank
  have hread' : (s1.past c 1).shadowRead c ((s1.past c 1).core c).ssp 8 = (.ok w, s2) := by rw [hpast]; exact hread
  refine ⟨fun hbad => congrArg Host.Outcome.next (hod_of_trap hissue ?_), fun hmark hlvl h3 hres => ?_⟩
  · rw [notOnBank_of _ c _ hbank', State.gateReturn, hread']
    exact if_pos hbad
  · obtain ⟨h6, h7, hother⟩ := get_sp k.regs (w.getD 3 0) (w.getD 2 0)
    refine ⟨_, h6, h7, hother, congrArg Host.Outcome.next (hod_of_issue hissue ?_)⟩
    rw [notOnBank_of _ c _ hbank']
    exact gateReturn_of_frame _ s2 c w hread' hmark hlvl h3 hres

/-- Settles O12: GATE and GRET. -/
theorem hodGates : Obligations.HodGates := ⟨hodGate, hodGret⟩

end Sys2Proof.Machine
end

section
/-! SUPPORT. Entry of exceptions and interrupts on a shadow bank, lock-up, and RFI (R280, R295, R296, R302 to R308). -/

namespace Sys2Proof.Machine

open Sys2Proof

/-! ### Entry on a bank -/

/-- XINFO by its fields. -/
theorem infoOf_eq (path prev : Path) (imp : Bool) (xwin cause : Nat) (hx : xwin < 16) (hc : cause < 64) :
    infoOf path prev imp xwin cause =
      xinfoOf (b2n (decide (cause = 0x0F ∨ cause = 0x10))) (pathCode path) (pathCode prev) (b2n imp) xwin cause := by
  rw [infoOf, xinfoOf, Nat.mod_eq_of_lt hx, Nat.mod_eq_of_lt hc, Bool.decide_or]
  rfl

/-- A core enters SB1. -/
theorem enterAt_sb1 (k : Core) (x : XRegs) (e : List Word) :
    k.enterAt .sb1 x e =
      let w : Word := BitVec.ofNat 16 (entryLvl e * 2 ^ 14)
      { k with path := .sb1, sb1Busy := true, run := .running, pc := entryTgt e, psw := w, x1 := x
               dirty := if w = k.psw then k.dirty else putBit k.dirty 14 true } := by
  rw [Core.enterAt, spec_psw]
  simp

/-- A core enters SB2. -/
theorem enterAt_sb2 (k : Core) (x : XRegs) (e : List Word) :
    k.enterAt .sb2 x e =
      let w : Word := BitVec.ofNat 16 (entryLvl e * 2 ^ 14)
      { k with path := .sb2, sb2Busy := true, run := .running, pc := entryTgt e, psw := w, x2 := x
               dirty := if w = k.psw then k.dirty else putBit k.dirty 14 true } := by
  rw [Core.enterAt, spec_psw]
  simp

section
variable {s s1 : State} {c : CoreId} {cause lvl : Nat} {path : Path} {e : List Word}

/-- Entry on a bank through a valid vector. -/
theorem enter_of_vector (ret xaddr : W32) (imp : Bool) (xwin : Nat) (hpath : (s.core c).entryPath lvl = path) (htsb : path ≠ .tsb)
    (hg : ((s.lbuf c false).setCore c { s.core c with loopAt := none }).gateEntry c cause = (some e, s1))
    (hv : entryValid e = true) (hk : entryKind e = 2) :
    s.enter c cause ret xaddr imp xwin lvl = s1.modCore c fun k => k.enterAt path (k.xEntry path cause ret xaddr imp xwin) e := by
  have hp : ((s.leaveLoop c).core c).entryPath lvl = path := by
    rw [leaveLoop_eq, core_setCore]
    exact hpath
  rw [State.enter, hp, if_neg htsb, leaveLoop_eq, hg]
  exact if_neg (by simp [hv, hk])

/-- Entry on a bank through a vector that is not valid. -/
theorem enter_of_no_vector (ret xaddr : W32) (imp : Bool) (xwin : Nat) (htsb : (s.core c).entryPath lvl ≠ .tsb)
    (hg : ((s.lbuf c false).setCore c { s.core c with loopAt := none }).gateEntry c cause = (some e, s1))
    (hv : ¬ (entryValid e = true ∧ entryKind e = 2)) :
    s.enter c cause ret xaddr imp xwin lvl = s1.doubleFault c 5 cause := by
  have hp : ((s.leaveLoop c).core c).entryPath lvl ≠ .tsb := by
    rw [leaveLoop_eq, core_setCore]
    exact htsb
  rw [State.enter, if_neg hp, leaveLoop_eq, hg]
  exact if_pos (by simpa using hv)

end

/-- With SB1 free an exception enters there. -/
theorem entryPath_sb1 (k : Core) (lvl : Nat) (hl : lvl ≤ 1) (h : k.sb1Busy = false) : k.entryPath lvl = .sb1 := by
  rw [Core.entryPath, if_pos hl, h]
  rfl

theorem entryPath_sb2 (k : Core) (h : k.sb2Busy = false) : k.entryPath 2 = .sb2 := by
  rw [Core.entryPath, h]
  rfl

/-! ### Lock-up (R306) -/

/-- The lockup interrupt changes FHINT_PEND alone. -/
theorem reg_raise_field (s : State) (i src : Nat) (k : RegKind) (j : Nat) (hi : i < 4) (h : ∀ i < 4, k.addr j ≠ RegKind.FHINT_PEND.addr i) :
    (s.raise (8 + i) src).reg k j = s.reg k j := by
  rw [State.raise, if_neg (by omega), if_pos (by omega)]
  exact reg_setReg_of_ne s _ _ _ _ _ (h _ (by omega))

/-- A double fault leaves its record and the lock bit. -/
theorem reg_doubleFault (s : State) (c : CoreId) (reason cause : Nat) :
    (s.doubleFault c reason cause).reg (dfReg c).1 (dfReg c).2 = BitVec.ofNat 16 (reason * 256 + cause) ∧
      (s.doubleFault c reason cause).bit .FHINT_LOCK 0 c.val = true := by
  have hpend (k : RegKind) (j : Nat) (hk : ∀ i < 4, k.addr j ≠ RegKind.FHINT_PEND.addr i) (l : List Nat) (hl : ∀ i ∈ l, i < 4) (t : State) :
      (l.foldl (fun s i => if s.bit .FHINT_WATCH 0 i && !(s.bit .FHINT_LOCK 0 (8 + i)) then s.raise (8 + i) 11 else s) t).reg k j = t.reg k j := by
    induction l generalizing t with
    | nil => rfl
    | cons i l ih =>
      rw [List.foldl_cons, ih fun i hi => hl i (List.mem_cons_of_mem _ hi)]
      split_ifs
      · exact reg_raise_field t i 11 k j (hl i List.mem_cons_self) hk
      · rfl
  have hrange : ∀ i ∈ upto 4, i < 4 := fun i hi => List.mem_range.1 hi
  have hdf : ∀ c : CoreId, (∀ i < 4, (dfReg c).1.addr (dfReg c).2 ≠ RegKind.FHINT_PEND.addr i) ∧
      (dfReg c).1.addr (dfReg c).2 ≠ RegKind.FHINT_LOCK.addr 0 := by decide +kernel
  have hlock : ∀ i < 4, RegKind.FHINT_LOCK.addr 0 ≠ RegKind.FHINT_PEND.addr i := by decide +kernel
  obtain ⟨hp, hl⟩ := hdf c
  constructor
  · rw [State.doubleFault, hpend _ _ hp _ hrange]
    exact (reg_setReg_of_ne _ _ _ _ _ _ hl).trans (reg_setReg _ _ _ _)
  · have hc : c.val < 16 := by omega
    rw [State.bit, State.doubleFault, hpend _ _ hlock _ hrange]
    exact (congrArg (wbit · c.val) (reg_setReg _ _ _ _)).trans ((wbit_putBit _ _ _ _ hc).trans (if_pos rfl))

/-- A double fault locks its core and changes nothing else of it. -/
theorem core_doubleFault (s : State) (c : CoreId) (reason cause : Nat) :
    (s.doubleFault c reason cause).core c = { s.core c with run := .locked } := by
  have hraised (l : List Nat) (t : State) : (l.foldl (fun s i => if s.bit .FHINT_WATCH 0 i && !(s.bit .FHINT_LOCK 0 (8 + i)) then
      s.raise (8 + i) 11 else s) t).cores = t.cores := by
    induction l generalizing t with
    | nil => rfl
    | cons i l ih =>
      rw [List.foldl_cons, ih]
      split_ifs
      · exact cores_raise _ _ _
      · rfl
  rw [State.core, State.doubleFault, hraised]
  simp only [setBit_cores, setReg_cores]
  exact core_modCore _ _ _

/-! ### Exceptions -/

/-- The core when a trap is taken, with no long operation in flight and no arithmetic exception pending. -/
theorem takeTrap_eq_enter (s : State) (c : CoreId) (pc : W32) (t : Trap) (hlong : (s.core c).longOp = none) (harith : (s.core c).arithDue = none) :
    s.takeTrap c pc t = (s.modCore c fun k => { k with pc := if t.after then k.pc else pc }).enter c t.cause
      (if t.after then (s.core c).pc else pc) t.xaddr false t.xwin 0 := by
  have hc : s.completeLong c = s := by rw [State.completeLong, hlong]
  rw [State.takeTrap, hc]
  cases ha : t.after with
  | true =>
    rw [modCore_eq_self s c (f := fun k => { k with pc := if true then k.pc else pc }) rfl]
    rfl
  | false =>
    have hd : ((s.modCore c fun k => { k with pc }).core c).arithDue = none := by rw [core_modCore]; exact harith
    rw [if_neg Bool.false_ne_true]
    dsimp only
    rw [hd]
    rfl

theorem trapEntry : Sys2Proof.Rules.TrapEntry := by
  intro s s2 c pc t e hlong harith hbusy hcause hwin s1 hentry k
  let u := s.modCore c fun k => { k with pc := if t.after then k.pc else pc }
  have hu : u.core c = { s.core c with pc := if t.after then (s.core c).pc else pc } := core_modCore _ _ _
  have hpath : (u.core c).entryPath 0 = .sb1 := entryPath_sb1 _ _ (by decide) (by rw [hu]; exact hbusy)
  have hs1 : (u.lbuf c false).setCore c { u.core c with loopAt := none } = s1 := by
    rw [hu]
    show ((s.setCore c _).lbuf c false).setCore c _ = s1
    rw [lbuf_setCore, setCore_setCore]
  rw [← hs1] at hentry
  have htrap := takeTrap_eq_enter s c pc t hlong harith
  refine ⟨fun hv hk => ?_, fun hbad => ?_⟩
  · rw [htrap, enter_of_vector _ _ _ _ hpath (by decide) hentry hv hk, State.modCore, enterAt_sb1, Core.xEntry,
      infoOf_eq _ _ _ _ _ hwin hcause]
    rfl
  · have hr : s.takeTrap c pc t = s2.doubleFault c 5 t.cause :=
      htrap.trans (enter_of_no_vector _ _ _ _ (by rw [hpath]; decide) hentry hbad)
    obtain ⟨hrec, hlock⟩ := reg_doubleFault s2 c 5 t.cause
    rw [hr]
    dsimp only
    rw [core_doubleFault]
    exact ⟨rfl, rfl, hrec, hlock⟩

/-! ### RFI -/

/-- What a return leaves of the core. -/
theorem returnTo_eq (k : Core) (path : Path) (psw : Word) (pc : W32) :
    k.returnTo path psw pc = { k with
      path, psw, pc, dirty := if psw = k.psw then k.dirty else putBit k.dirty 14 true
      longOp := k.longOp.map fun o => if o.path = k.path then { o with mask := 0 } else o } := by
  rcases ho : k.longOp with _ | o
  · have hk : k.returnTo path psw pc = { k.spec fun k => { k with psw } with path, pc } := by rw [Core.returnTo, ho]
    rw [hk, spec_psw k fun _ => psw]
    simp [ho]
  · by_cases hp : o.path = k.path
    · have hk : k.returnTo path psw pc =
          { ({ k with longOp := some { o with mask := 0 } } : Core).spec fun k => { k with psw } with path, pc } := by
        rw [Core.returnTo, ho]
        dsimp only
        rw [if_pos hp]
      rw [hk, spec_psw _ fun _ => psw]
      simp [hp]
    · have hk : k.returnTo path psw pc = { k.spec fun k => { k with psw } with path, pc } := by
        rw [Core.returnTo, ho]
        dsimp only
        rw [if_neg hp]
      rw [hk, spec_psw k fun _ => psw]
      simp [ho, hp]

/-- A bank freed, and the core returned. -/
theorem rfiBank_of (s : State) (c : CoreId) (x : XRegs) (free : Core → Core) (h : ¬ (s.level c = 1 ∧ wfld x.xpsw 15 14 = 0)) :
    s.rfiBank c x free = (none, (s.lbuf c false).setCore c ((free { s.core c with loopAt := none }).returnTo x.prev x.xpsw x.xpc)) := by
  rw [State.rfiBank, if_neg h, leaveLoop_eq, State.modCore, core_setCore, setCore_setCore]

/-- A core that jumps and is changed. -/
theorem back_eq (s : State) (c : CoreId) (a : W32) (f : Core → Core) {k : Core} (h : k = f { s.core c with pc := a, loopAt := none }) :
    ((s.past c 1).lbuf c false).setCore c k = (s.goto c a).modCore c f := by
  rw [State.past, lbuf_setCore, setCore_setCore, State.goto, State.modCore, core_setCore, setCore_setCore, h]

theorem hodRfi : Sys2Proof.Rules.HodRfi := by
  intro c s s1 hissue k back
  have hpast := core_past_one s1 c
  have hpath : ((s1.past c 1).core c).path = k.path := by rw [hpast]
  have hlevel : (s1.past c 1).level c = s1.level c := by rw [State.level, psw_past]; rfl
  have hdone {t : State} (h : (s1.past c 1).rfi c = (none, t)) : exec (.rfi c) s = .next t := congrArg Host.Outcome.next (hod_of_issue hissue h)
  have htrap {t : Trap} (h : (s1.past c 1).rfi c = (some t, s1.past c 1)) : exec (.rfi c) s = .next ((s1.past c 1).takeTrap c k.pc t) :=
    congrArg Host.Outcome.next (hod_of_trap hissue h)
  refine ⟨fun hp hl hm => ?_, fun hp hl hm => ?_, fun hp => ?_, fun hp hl => ?_, fun hp hl hm => ?_⟩
  · refine hdone ?_
    rw [State.rfi, hpath, hp]
    dsimp only
    rw [hlevel, if_neg hl, hpast, rfiBank_of _ _ _ _ (by rw [hlevel]; exact hm), returnTo_eq, hpast]
    exact congrArg (Prod.mk none) (back_eq s1 c _ _ rfl)
  · refine hdone ?_
    rw [State.rfi, hpath, hp]
    dsimp only
    rw [hlevel, if_neg hl, hpast, rfiBank_of _ _ _ _ (by rw [hlevel]; exact hm), returnTo_eq, hpast]
    exact congrArg (Prod.mk none) (back_eq s1 c _ _ rfl)
  · refine htrap ?_
    rw [State.rfi, hpath, hp]
    rfl
  · refine htrap ?_
    cases hq : k.path with
    | task => exact absurd hq hp
    | sb1 | sb2 | tsb =>
      rw [State.rfi, hpath, hq]
      exact if_pos (hlevel.trans hl)
  · refine htrap ?_
    rw [State.rfi, hpath, hp]
    dsimp only
    rw [hlevel, if_neg (by rw [hl]; decide), hpast]
    exact if_pos ⟨hlevel.trans hl, hm⟩

/-- Settles O13: entry on SB1, lock-up, RFI. -/
theorem trapsAndReturn : Obligations.TrapsAndReturn := ⟨trapEntry, hodRfi⟩

end Sys2Proof.Machine
end

section
/-! SUPPORT. Interrupts and arithmetic exceptions taken at an instruction boundary (R280, R302, R303, R308). -/

namespace Sys2Proof.Machine

open Sys2Proof

/-- The source that is due is one of twelve. -/
theorem dueInt_src_lt {s : State} {c : CoreId} {src lvl : Nat} (h : s.dueInt c = some (src, lvl)) : src < 12 := by
  have hcand (p : Prop) [Decidable p] (f : Nat → Bool) (l : Nat)
      (hc : (if p then none else ((upto 12).find? f).map fun i => (i, l)) = some (src, lvl)) : src < 12 := by
    split at hc
    · cases hc
    · obtain ⟨i, hi, he⟩ := Option.map_eq_some_iff.1 hc
      cases he
      exact List.mem_range.1 (List.mem_of_find?_eq_some hi)
  unfold State.dueInt at h
  dsimp only at h
  split at h
  · next h3 => exact hcand _ _ _ (h3.trans h)
  · split at h
    · next h2 => exact hcand _ _ _ (h2.trans h)
    · exact hcand _ _ _ h

/-- A running core in which no load waits may enter. -/
theorem mayEnter_of_running {k : Core} (hr : k.run = .running) (hl : k.loadWait = none) : k.mayEnter = true := by
  rw [Core.mayEnter, hr, hl]
  rfl

theorem interruptEntry : Sys2Proof.Rules.InterruptEntry := by
  intro s s2 c src lvl e hrun hload harith hdue hfree hentry hv hk k x w d
  have hsrc := dueInt_src_lt hdue
  have hexec : exec (.interruptEntry c) s = .next (s.enter c (0x20 + src) (s.core c).pc 0 false 0 lvl) := by
    show execInterruptEntry c s = _
    rw [execInterruptEntry, if_pos (mayEnter_of_running hrun hload), State.takeEvent]
    rw [harith, hdue]
    rfl
  have hno : (decide (0x20 + src = 0x0F ∨ 0x20 + src = 0x10)) = false := decide_eq_false (by omega)
  rcases hfree with ⟨rfl, hbusy⟩ | ⟨rfl, hbusy⟩
  · rw [hexec, enter_of_vector _ _ _ _ (entryPath_sb1 _ _ (by decide) hbusy) (by decide) hentry hv hk, State.modCore, enterAt_sb1, Core.xEntry,
      infoOf_eq _ _ _ _ _ (by decide) (by omega), hno]
    rfl
  · rw [hexec, enter_of_vector _ _ _ _ (entryPath_sb2 _ hbusy) (by decide) hentry hv hk, State.modCore, enterAt_sb2, Core.xEntry,
      infoOf_eq _ _ _ _ _ (by decide) (by omega), hno]
    rfl

theorem arithmeticEntry : Sys2Proof.Rules.ArithmeticEntry := by
  intro s s2 c a e hrun hload hdue hbusy hcause hentry hv hk h15 h16 k w
  let u := s.modCore c fun k => { k with arith := k.arith.erase a }
  have hu : u.core c = { s.core c with arith := (s.core c).arith.erase a } := core_modCore _ _ _
  have hpath : (u.core c).entryPath 0 = .sb1 := entryPath_sb1 _ _ (by decide) (by rw [hu]; exact hbusy)
  have hstate : (u.lbuf c false).setCore c { u.core c with loopAt := none } =
      (s.lbuf c false).setCore c { s.core c with loopAt := none, arith := (s.core c).arith.erase a } := by
    rw [hu]
    show ((s.setCore c _).lbuf c false).setCore c _ = _
    rw [lbuf_setCore, setCore_setCore]
  have hexec : exec (.arithmeticException c) s = .next (u.enter c a.cause (s.core c).pc a.addr (!wbit (s.psw c) 13) 0 0) := by
    show execArithmeticException c s = _
    rw [execArithmeticException, if_neg (by simp [mayEnter_of_running hrun hload]), hdue]
    rfl
  have hno : (decide (a.cause = 0x0F ∨ a.cause = 0x10)) = false := decide_eq_false (not_or.mpr ⟨h15, h16⟩)
  rw [← hstate] at hentry
  rw [hexec, enter_of_vector _ _ _ _ hpath (by decide) hentry hv hk, State.modCore, enterAt_sb1, Core.xEntry,
    infoOf_eq _ _ _ _ _ (by decide) hcause, hno]
  rfl

/-- Settles O14: interrupt and arithmetic exception entry. -/
theorem interrupts : Obligations.Interrupts := ⟨interruptEntry, arithmeticEntry⟩

end Sys2Proof.Machine
end

section
/-! SUPPORT. Contexts: CTXS and CTXL (R269). -/

namespace Sys2Proof.Machine

open Sys2Proof

/-! ### DIRTY under a mask -/

/-- A bit set outside a mask. -/
theorem putBit_and_of_out (w m : Word) (b : Nat) (hb : b < 16) (h : m.getLsbD b = false) : putBit w b true &&& m = w &&& m := by
  apply BitVec.eq_of_getLsbD_eq
  intro i hi
  rw [BitVec.getLsbD_and, BitVec.getLsbD_and, getLsbD_putBit _ _ _ _ hb]
  split
  · next e => rw [e, h, Bool.and_false, Bool.and_false]
  · rfl

/-- Registers written whose group lies outside a mask. -/
theorem foldl_dirtyOn_and (l : List (Nat × Word)) (d m : Word) (h : ∀ e ∈ l, ∀ d, dirtyOn d e.1 &&& m = d &&& m) :
    l.foldl (fun d e => dirtyOn d e.1) d &&& m = d &&& m := by
  induction l generalizing d with
  | nil => rfl
  | cons e l ih =>
    rw [List.foldl_cons, ih _ fun e he => h e (List.mem_cons_of_mem _ he), h e List.mem_cons_self]

theorem dirtyOn_global (d : Word) (p : Nat) (h : p < 8) : dirtyOn d p = putBit d 15 true := if_pos h

theorem dirtyOn_window (d : Word) (p : Nat) (h16 : 16 ≤ p) (h : p < 208) : dirtyOn d p = putBit d ((p - 16) / 16) true := by
  rw [dirtyOn, if_neg (by omega), if_pos h]

/-- The core with the DIRTY bits of G and S cleared. -/
def Core.cleaned (k : Core) : Core := { k with dirty := k.dirty &&& 0x3FFF }

/-- A change of the specials sets no other bit of DIRTY. -/
theorem cleaned_spec (k : Core) (f : Core → Core) : (k.spec f).cleaned = (f k).cleaned := by
  unfold Core.spec
  dsimp only
  split
  · rfl
  · exact congrArg (fun d => { f k with dirty := d }) (putBit_and_of_out _ 0x3FFF 14 (by decide) rfl)

/-! ### Instructions of levels M and S -/

theorem atMS_of (s : State) (c : CoreId) (body : State → Option Trap × State) (h : s.level c ≤ 1) : atMS c body s = body s :=
  if_neg (by omega)

@[simp] theorem level_past (s : State) (c : CoreId) (n : Nat) : (s.past c n).level c = s.level c := by rw [State.level, psw_past]; rfl

theorem context_body (s : State) (c : CoreId) (body : State → Option Trap × State) (h : s.level c ≤ 1) :
    pairZero 0 (atMS c body) s = body s := (if_neg (not_not.mpr rfl)).trans (atMS_of s c body h)

/-! ### CTXS -/

/-- Words saved once all of them have passed their checks. -/
theorem saveGroups_of (s s1 : State) (c : CoreId) (l : List (W32 × Word)) (d : Word) (ps : List Nat)
    (h : s.checkAll c .store (l.map fun e => e.1) = (.ok ps, s1)) :
    s.saveGroups c l d = (none, (s1.setCore c { s1.core c with dirty := (s1.core c).dirty &&& ~~~d }).putWords c
      (List.zip ps (l.map fun e => e.2))) := by
  rw [State.saveGroups, h]
  rfl

/-- The words of the lower area are 4 to 23, those of group G before those of group S. -/
theorem lower_part (k : Core) (a : W32) (g x : Bool) :
    (((List.zip (upto 20) k.lowerWords).filter fun e => if e.1 < 7 then g else x).map fun e => (a + BitVec.ofNat 32 (4 + e.1), e.2)) =
      ((if g then List.range' 4 7 else []) ++ (if x then List.range' 11 13 else [])).map fun i =>
        (a + BitVec.ofNat 32 i, k.lowerWords.getD (i - 4) 0) := by
  cases g <;> cases x <;> rfl

/-- The words of the lower area, with PSW as the context holds it. -/
theorem lowerWords_eq (k : Core) (pc : W32) : ({ k with pc } : Core).lowerWords = lowerOf k (match k.path with
    | .sb1 => k.x1.xpsw
    | .sb2 => k.x2.xpsw
    | .task | .tsb => k.psw) := by
  cases k.path <;> simp [Core.lowerWords, lowerOf, Core.ctxPsw, Core.onBank, Core.xregs, Core.preg, Core.wim, upto, List.range_succ]

theorem wbit_and_C000 (w : Word) (b : Nat) (h : b = 14 ∨ b = 15) : wbit (w &&& 0xC000) b = wbit w b := by
  have hm : (0xC000 : Word).getLsbD b = true := by rcases h with rfl | rfl <;> rfl
  rw [wbit, BitVec.getLsbD_and, hm, Bool.and_true, wbit]

/-- CTXS 0, its words passed. -/
theorem ctxsLower_of (s s2 : State) (c : CoreId) (ps : List Nat) (g x : List Nat)
    (hg : g = if wbit (s.core c).dirty 15 then List.range' 4 7 else []) (hx : x = if wbit (s.core c).dirty 14 then List.range' 11 13 else [])
    (h : s.checkAll c .store (offsets (s.core c).ctxp ([2, 3] ++ g ++ x)) = (.ok ps, s2)) :
    s.ctxsLower c = (none, (s2.setCore c { s2.core c with dirty := (s2.core c).dirty &&& 0x3FFF }).putWords c
      (List.zip ps ([(s.core c).dirty &&& 0xC000, 0] ++ (g ++ x).map fun i => (s.core c).lowerWords.getD (i - 4) 0))) := by
  have hpart := lower_part (s.core c) (s.core c).ctxp (wbit ((s.core c).dirty &&& 0xC000) 15) (wbit ((s.core c).dirty &&& 0xC000) 14)
  rw [wbit_and_C000 _ 15 (.inr rfl), wbit_and_C000 _ 14 (.inl rfl), ← hg, ← hx] at hpart
  rw [State.ctxsLower]
  dsimp only
  rw [wbit_and_C000 _ 15 (.inr rfl), wbit_and_C000 _ 14 (.inl rfl), hpart, saveGroups_of _ s2 c _ _ ps]
  · rw [List.map_append, List.map_map]
    rfl
  · rw [← h, offsets, List.append_assoc, List.map_append, List.map_append (l₁ := [2, 3]), List.map_map]
    rfl

theorem hodCtxs : Sys2Proof.Rules.HodCtxs := by
  intro c s s1 s2 ps hissue hlevel k g x psw hcheck
  have hpast := core_past_one s1 c
  have hlower := ctxsLower_of (s1.past c 1) s2 c ps g x (by rw [hpast]) (by rw [hpast]) (by rw [hpast]; exact hcheck)
  refine congrArg Host.Outcome.next (hod_of_issue hissue ?_)
  refine (context_body (s1.past c 1) c _ (by rw [level_past]; exact hlevel)).trans (hlower.trans ?_)
  rw [hpast, lowerWords_eq] <;> rfl

/-! ### CTXS of the upper half -/

theorem windowRegs_eq (w : Nat) : windowRegs w = (upto 16).map fun i => 16 + 16 * w + i := by
  simp [windowRegs, upto, List.range_succ, localReg, argReg]
  omega

/-- The words of one window. -/
theorem window_words (k : Core) (link : W32) (w : Nat) :
    ((List.zip (upto 16) (windowRegs w)).map fun e => (link + BitVec.ofNat 32 (16 * w + e.1), k.preg e.2)) =
      (upto 16).map fun i => (link + BitVec.ofNat 32 (16 * w + i), k.preg (16 + 16 * w + i)) := by
  rw [windowRegs_eq, ← List.map_prod_left_eq_zip, List.map_map]
  rfl

theorem offsets_window (link : W32) (w : Nat) : offsets link (List.range' (16 * w) 16) = (upto 16).map fun i => link + BitVec.ofNat 32 (16 * w + i) := by
  rw [List.range'_eq_map_range, offsets, List.map_map]
  rfl

/-- A window's bit below the mask of all windows. -/
theorem wbit_and_windows (d : Word) (n w : Nat) (hn : n ≤ 16) (h : w < n) : wbit (d &&& BitVec.ofNat 16 (2 ^ n - 1)) w = wbit d w := by
  have hm : (BitVec.ofNat 16 (2 ^ n - 1)).getLsbD w = true := by
    rw [BitVec.getLsbD_ofNat, Nat.testBit_two_pow_sub_one]
    simp
    omega
  rw [wbit, BitVec.getLsbD_and, hm, Bool.and_true, wbit]

theorem windowWords_eq (k : Core) (c : CoreId) (link : W32) :
    k.windowWords c link (k.dirty &&& BitVec.ofNat 16 (2 ^ nwin c - 1)) =
      ((upto (nwin c)).filter fun w => wbit k.dirty w).flatMap fun w =>
        (upto 16).map fun i => (link + BitVec.ofNat 32 (16 * w + i), k.preg (16 + 16 * w + i)) := by
  have hn := nwin_le c
  have hfilter : ((upto (nwin c)).filter fun w => wbit (k.dirty &&& BitVec.ofNat 16 (2 ^ nwin c - 1)) w) = (upto (nwin c)).filter fun w => wbit k.dirty w :=
    List.filter_congr fun w hw => wbit_and_windows _ _ _ (by omega) (List.mem_range.1 hw)
  rw [Core.windowWords, hfilter]
  exact congrArg (List.flatMap · _) (funext fun w => window_words k link w)

theorem hodCtxsUpper : Sys2Proof.Rules.HodCtxsUpper := by
  intro c s s1 s2 s3 link ps hissue hlevel hlink k saves d ws hcheck
  refine congrArg Host.Outcome.next (hod_of_issue hissue ?_)
  refine (context_body (s1.past c 1) c _ (by rw [level_past]; exact hlevel)).trans ?_
  show State.ctxsUpper _ c = _
  have hwords := windowWords_eq k c link
  have haddr : ((if saves then [(k.ctxp + 2, d)] else []) ++ k.windowWords c link d).map Prod.fst =
      (if saves then [k.ctxp + 2] else []) ++ ws.flatMap fun w => offsets link (List.range' (16 * w) 16) := by
    rw [hwords, List.map_append, List.map_flatMap]
    refine congrArg₂ (· ++ ·) ?_ (congrArg (List.flatMap · ws) (funext fun w => ?_))
    · cases saves <;> rfl
    · rw [offsets_window, List.map_map]
      rfl
  have hval : ((if saves then [(k.ctxp + 2, d)] else []) ++ k.windowWords c link d).map Prod.snd =
      (if saves then [d] else []) ++ ws.flatMap fun w => (upto 16).map fun i => k.preg (16 + 16 * w + i) := by
    rw [hwords, List.map_append, List.map_flatMap]
    refine congrArg₂ (· ++ ·) ?_ (congrArg (List.flatMap · ws) (funext fun w => ?_))
    · cases saves <;> rfl
    · rw [List.map_map]
      rfl
  rw [State.ctxsUpper, hlink]
  refine (saveGroups_of _ s3 c _ d ps ((congrArg _ haddr).trans hcheck)).trans ?_
  exact congrArg (fun l => (none, (s3.setCore c { s3.core c with dirty := (s3.core c).dirty &&& ~~~d }).putWords c (List.zip ps l))) hval

/-! ### CTXL 0 -/

theorem loOf_zeroExtend (v : Word) : loOf (v.zeroExtend 32) = v := by
  have hv := v.isLt
  apply BitVec.eq_of_toNat_eq
  simp [loOf]
  omega

section
variable (k : Core) (c : CoreId) (v : Word)

theorem cleaned_of_dirty (d : Word) (h : d &&& 0x3FFF = k.dirty &&& 0x3FFF) : ({ k with dirty := d } : Core).cleaned = k.cleaned :=
  congrArg (fun d => { k with dirty := d }) h

theorem cleaned_ctxp (a : W32) : { k with ctxp := a, dirty := k.dirty &&& 0x3FFF } = { k.cleaned with ctxp := a } := rfl

theorem cleaned_cwp (h : wfld v 3 0 < nwin c) : (k.setSpecial c 1 (v.zeroExtend 32)).cleaned = { k.cleaned with cwp := wfld v 3 0 } := by
  rw [Core.setSpecial, loOf_zeroExtend]
  dsimp only
  rw [if_pos h]
  exact cleaned_spec k fun k => { k with cwp := wfld v 3 0 }

theorem cleaned_wim (h : wfld v 3 0 < nwin c) :
    (k.setSpecial c 2 (v.zeroExtend 32)).cleaned = { k.cleaned with auto := wbit v 15, fence := wfld v 3 0 } := by
  rw [Core.setSpecial, loOf_zeroExtend]
  simp only [if_pos h]
  exact cleaned_spec k fun k => { k with auto := wbit v 15, fence := wfld v 3 0 }

theorem cleaned_repLeft : (k.setSpecial c 4 (v.zeroExtend 32)).cleaned = { k.cleaned with repLeft := v } := by
  rw [Core.setSpecial, loOf_zeroExtend]
  exact cleaned_spec k fun k => { k with repLeft := v }

theorem cleaned_multiProg : (k.setSpecial c 5 (v.zeroExtend 32)).cleaned = { k.cleaned with multiProg := v &&& 0x800F } := by
  rw [Core.setSpecial, loOf_zeroExtend]
  exact cleaned_spec k fun k => { k with multiProg := v &&& 0x800F }

/-- Registers of group G written, under a mask that leaves out G. -/
theorem cleaned_setPregs (l : List (Nat × Word)) (h : ∀ e ∈ l, e.1 < 8) :
    (k.setPregs l).cleaned = { k.cleaned with regs := (k.setPregs l).regs } := by
  have hd := foldl_dirtyOn_and l k.dirty 0x3FFF fun e he d => by
    rw [dirtyOn_global d e.1 (h e he), putBit_and_of_out _ _ 15 (by decide) rfl]
  rw [setPregs_eq]
  exact cleaned_of_dirty { k with regs := l.foldl (fun t e => Tab.set 0 e.1 e.2 t) k.regs } _ hd

end

/-- The writes of g1 to g7 by a context load. -/
def contextGlobals (w : List Word) : List (Nat × Word) := (upto 7).map fun i => (1 + i, w.getD i 0)

/-- A lower area loaded by a core that runs on no bank. -/
theorem cleaned_loadLower (k : Core) (c : CoreId) (w : List Word) (psw : Word) (hbank : k.onBank = false) (hcwp : wfld (w.getD 8 0) 3 0 < nwin c)
    (hwim : wfld (w.getD 9 0) 3 0 < nwin c) :
    (k.loadLower c w psw).cleaned = { k.cleaned with
      regs := (k.setPregs (contextGlobals w)).regs, psw, cwp := wfld (w.getD 8 0) 3 0
      auto := wbit (w.getD 9 0) 15, fence := wfld (w.getD 9 0) 3 0, repLeft := w.getD 10 0, multiProg := w.getD 11 0 &&& 0x800F
      ssp := w32of (w.getD 13 0) (w.getD 12 0), tsb := w32of (w.getD 15 0) (w.getD 14 0)
      gtb := w32of (w.getD 17 0) (w.getD 16 0), wsp := w32of (w.getD 19 0) (w.getD 18 0) } := by
  have hglobals : (upto 7).foldl (fun k i => k.setPreg (1 + i) (w.getD (4 + i - 4) 0)) k = k.setPregs (contextGlobals w) := by
    simp [contextGlobals, Core.setPregs, List.foldl_map]
  have hb : (k.setPregs (contextGlobals w)).onBank = false := by rw [setPregs_eq]; exact hbank
  have hpsw : ((k.setPregs (contextGlobals w)).loadPsw psw).cleaned = { (k.setPregs (contextGlobals w)).cleaned with psw } := by
    rw [Core.loadPsw, hb]
    rfl
  have hg := cleaned_setPregs k (contextGlobals w) fun e he => by
    obtain ⟨i, hi, rfl⟩ := List.mem_map.1 he
    have := List.mem_range.1 hi
    dsimp only
    omega
  have hpoint (m : Core) (g : Nat → Word) : (m.loadPointers g).cleaned = m.cleaned.loadPointers g := rfl
  rw [Core.loadLower]
  dsimp only
  rw [hglobals, hpoint, cleaned_multiProg, cleaned_repLeft, cleaned_wim _ _ _ hwim, cleaned_cwp _ _ _ hcwp, hpsw, hg]
  rfl

theorem youngerOf_all (k : Core) (p : Path) :
    k.youngerOf p 0xFFFF = { k with longOp := k.longOp.map fun o => if o.path = p then { o with mask := 0 } else o } := by
  unfold Core.youngerOf
  rcases h : k.longOp with _ | o
  · cases k
    cases h
    rfl
  · by_cases hp : o.path = p
    · simp [hp]
    · cases k
      cases h
      simp [hp]

/-- The core behind a CTXL 0 with the words w of the lower area, from a. -/
def Core.contextOf (k : Core) (w : List Word) (a : W32) : Core := { k with
  regs := (k.setPregs (contextGlobals w)).regs, psw := w.getD 7 0 &&& 0xFFFE, cwp := wfld (w.getD 8 0) 3 0
  auto := wbit (w.getD 9 0) 15, fence := wfld (w.getD 9 0) 3 0, repLeft := w.getD 10 0, multiProg := w.getD 11 0 &&& 0x800F
  ssp := w32of (w.getD 13 0) (w.getD 12 0), tsb := w32of (w.getD 15 0) (w.getD 14 0)
  gtb := w32of (w.getD 17 0) (w.getD 16 0), wsp := w32of (w.getD 19 0) (w.getD 18 0), ctxp := a, dirty := k.dirty &&& 0x3FFF
  longOp := k.longOp.map fun o => if o.path = k.path then { o with mask := 0 } else o }

theorem contextOf_eq (k : Core) (c : CoreId) (w : List Word) (a : W32) (hbank : k.onBank = false) (hcwp : wfld (w.getD 8 0) 3 0 < nwin c)
    (hwim : wfld (w.getD 9 0) 3 0 < nwin c) :
    { ((k.youngerOf k.path 0xFFFF).loadLower c w (w.getD 7 0 &&& 0xFFFE)).cleaned with ctxp := a } = k.contextOf w a := by
  have hb : (k.youngerOf k.path 0xFFFF).onBank = false := by rw [youngerOf_all]; exact hbank
  rw [cleaned_loadLower _ _ _ _ hb hcwp hwim, youngerOf_all, setPregs_eq, Core.contextOf, setPregs_eq]
  rfl

/-- The registers behind a CTXL 0. -/
theorem preg_contextOf (k : Core) (w : List Word) (a : W32) :
    (∀ i < 7, (k.contextOf w a).preg (1 + i) = w.getD i 0) ∧ ∀ q, (q < 1 ∨ 7 < q) → (k.contextOf w a).preg q = k.preg q := by
  have hfst : (contextGlobals w).map Prod.fst = (upto 7).map fun i => 1 + i := by rw [contextGlobals, List.map_map]; rfl
  have hnodup : ((contextGlobals w).map Prod.fst).Nodup := by rw [hfst]; decide
  refine ⟨fun i hi => ?_, fun q hq => ?_⟩
  · exact preg_setPregs_of_mem k _ hnodup (1 + i, w.getD i 0) (List.mem_map.2 ⟨i, List.mem_range.2 hi, rfl⟩)
  · refine preg_setPregs_of_not_mem k _ q fun hm => ?_
    rw [hfst] at hm
    obtain ⟨i, hi, rfl⟩ := List.mem_map.1 hm
    have := List.mem_range.1 hi
    omega

theorem ctxlLower_rule (c : CoreId) (p : PairIx) (s s1 s2 : State) (w : List Word)
    (hissue : s.hodIssue c 1 { regs := pairRegs p, pregs := (upto 7).map fun i => 1 + i } = (true, s1)) (hlevel : s1.level c ≤ 1)
    (hread : (s1.past c 1).readAll c .load (offsets (s1.pr c p + 4) (upto 20)) = (.ok w, s2)) (hsame : s2.level c = s1.level c) :
    (s1.level c = 1 → wfld (w.getD 7 0) 15 14 = 0 → exec (.ctxl c p false) s = .next (s2.takeTrap c (s1.core c).pc { cause := 2 })) ∧
    (¬ (s1.level c = 1 ∧ wfld (w.getD 7 0) 15 14 = 0) → wfld (w.getD 7 0) 15 14 ≠ 3 → (s2.core c).onBank = false →
      wfld (w.getD 8 0) 3 0 < nwin c → wfld (w.getD 9 0) 3 0 < nwin c →
      exec (.ctxl c p false) s = .next (s2.setCore c ((s2.core c).contextOf w (s1.pr c p)))) := by
  have hbody : atMS c (fun s => s.ctxlLower c p) (s1.past c 1) =
      if s2.level c = 1 ∧ wfld (w.getD 7 0) 15 14 = 0 then (some privilege, s2)
      else (none, ((s2.pswLoaded (w.getD 7 0)).2.modCore c fun k => (k.youngerOf k.ctxPath 0xFFFF).loadLower c w (s2.pswLoaded (w.getD 7 0)).1).modCore c
        fun k => { k with ctxp := s1.pr c p, dirty := k.dirty &&& 0x3FFF }) := by
    rw [atMS_of (s1.past c 1) c _ (by rw [level_past]; exact hlevel), State.ctxlLower, pr_past]
    dsimp only
    rw [show (s1.past c 1).readAll c .load (wordsFrom (s1.pr c p + 4) 20) = (.ok w, s2) from hread]
  rw [hsame] at hbody
  refine ⟨fun h1 h0 => congrArg Host.Outcome.next (hod_of_trap hissue (hbody.trans (if_pos ⟨h1, h0⟩))), fun hok h3 hbank hcwp hwim => ?_⟩
  refine congrArg Host.Outcome.next (hod_of_issue hissue (hbody.trans ((if_neg hok).trans ?_)))
  have hpath : (s2.core c).ctxPath = (s2.core c).path := by rw [Core.ctxPath, hbank]; rfl
  rw [pswLoaded_of_level _ _ h3, modCore_modCore, State.modCore, hpath]
  exact congrArg (fun k => (none, s2.setCore c k)) ((cleaned_ctxp _ _).trans (contextOf_eq _ c w _ hbank hcwp hwim))

/-! ### CTXL 1 -/

/-- The registers of all windows, in order. -/
theorem windows_eq (c : CoreId) : (upto (nwin c)).flatMap windowRegs = (upto (16 * nwin c)).map fun i => 16 + i := by
  unfold nwin
  split <;> rfl

/-- A word of the upper area goes to its register. -/
theorem get_windows (k : Core) (c : CoreId) (w : List Word) (hw : w.length = 16 * nwin c) :
    (∀ i, i < 16 * nwin c → (k.loadUpper c w).preg (16 + i) = w.getD i 0) ∧
      (∀ q, (q < 16 ∨ 16 + 16 * nwin c ≤ q) → (k.loadUpper c w).preg q = k.preg q) := by
  have hl : k.loadUpper c w = k.setPregs (List.zip ((upto (16 * nwin c)).map fun i => 16 + i) w) := by
    rw [Core.loadUpper, windows_eq]
    rfl
  have hnodup : ((upto (16 * nwin c)).map fun i => 16 + i).Nodup := List.nodup_range.map fun i j h => by simpa using h
  refine ⟨fun i hi => ?_, fun q hq => ?_⟩
  · rw [hl]
    refine preg_setPregs_of_mem k _ (nodup_fst_zip _ w hnodup) (16 + i, w.getD i 0) ?_
    rw [List.mem_iff_getElem]
    refine ⟨i, by simpa [upto, hw] using hi, ?_⟩
    simp [upto, List.getD_eq_getElem?_getD, List.getElem?_eq_getElem (show i < w.length by omega)]
  · rw [hl]
    refine preg_setPregs_of_not_mem k _ q fun hm => ?_
    obtain ⟨e, he, rfl⟩ := List.mem_map.1 hm
    obtain ⟨i, hi, he'⟩ := List.mem_map.1 (List.of_mem_zip he).1
    have := List.mem_range.1 hi
    omega

/-- Windows loaded set no bit of DIRTY but those of the windows. -/
theorem dirty_loadUpper (k : Core) (c : CoreId) (w : List Word) :
    { k.loadUpper c w with dirty := (k.loadUpper c w).dirty &&& 0xC000 } =
      { k with regs := (k.loadUpper c w).regs, dirty := k.dirty &&& 0xC000 } := by
  have hn := nwin_le c
  have hd := foldl_dirtyOn_and (List.zip ((upto (nwin c)).flatMap windowRegs) w) k.dirty 0xC000 fun e he d => by
    rw [windows_eq] at he
    obtain ⟨i, hi, he'⟩ := List.mem_map.1 (List.of_mem_zip he).1
    have hi' := List.mem_range.1 hi
    rw [← he', dirtyOn_window _ _ (by omega) (by omega)]
    refine putBit_and_of_out _ _ _ (by omega) ?_
    obtain ⟨b, hb⟩ : ∃ b, (16 + i - 16) / 16 = b := ⟨_, rfl⟩
    have hb12 : b < 12 := by omega
    rw [hb]
    interval_cases b <;> rfl
  rw [Core.loadUpper]
  change ({ k.setPregs _ with dirty := (k.setPregs _).dirty &&& 0xC000 } : Core) = { k with regs := (k.setPregs _).regs, dirty := _ }
  rw [setPregs_eq]
  exact congrArg (fun d => { k with
    regs := (List.zip ((upto (nwin c)).flatMap windowRegs) w).foldl (fun (t : Tab Word) (e : Nat × Word) => Tab.set 0 e.1 e.2 t) k.regs, dirty := d }) hd

theorem ctxlUpper_rule (c : CoreId) (s s1 s2 s3 : State) (w : List Word) (link : W32)
    (hissue : s.hodIssue c 1 { pregs := (upto (nwin c)).flatMap windowRegs } = (true, s1)) (hlevel : s1.level c ≤ 1)
    (hlink : (s1.past c 1).linkWord c = (.ok link, s2)) (hread : s2.readAll c .load (offsets link (upto (16 * nwin c))) = (.ok w, s3)) :
    exec (.ctxl c 0 true) s = .next (s3.setCore c { s3.core c with
      regs := ((s3.core c).loadUpper c w).regs, dirty := (s3.core c).dirty &&& 0xC000 }) := by
  refine congrArg Host.Outcome.next (hod_of_issue hissue ?_)
  refine (context_body (s1.past c 1) c (fun s => s.ctxlUpper c) (by rw [level_past]; exact hlevel)).trans ?_
  rw [State.ctxlUpper, hlink]
  dsimp only
  rw [show s2.readAll c .load (wordsFrom link (16 * nwin c)) = (.ok w, s3) from hread]
  dsimp only
  rw [modCore_modCore, State.modCore, dirty_loadUpper]

theorem hodCtxl : Sys2Proof.Rules.HodCtxl := by
  intro c p s s1 s2 w
  refine ⟨fun hissue hlevel hread hsame => ?_, fun link s3 hissue hlevel hlink hread hw => ?_⟩
  · obtain ⟨htrap, hload⟩ := ctxlLower_rule c p s s1 s2 w hissue hlevel hread hsame
    obtain ⟨hin, hout⟩ := preg_contextOf (s2.core c) w (s1.pr c p)
    refine ⟨htrap, fun hok h3 hbank hcwp hwim => ⟨_, hload hok h3 hbank hcwp hwim, fun i hi => ?_, fun q hq => ?_, ?_⟩⟩
    · rw [core_setCore]
      exact hin i hi
    · rw [core_setCore]
      exact hout q hq
    · rw [core_setCore]
      rfl
  · obtain ⟨hin, hout⟩ := get_windows (s3.core c) c w hw
    refine ⟨_, ctxlUpper_rule c s s1 s2 s3 w link hissue hlevel hlink hread, fun i hi => ?_, fun q hq => ?_, ?_⟩
    · rw [core_setCore]
      exact hin i hi
    · rw [core_setCore]
      exact hout q hq
    · rw [core_setCore]

/-- Settles O16: CTXS and CTXL. -/
theorem hodContexts : Obligations.HodContexts := ⟨hodCtxs, hodCtxsUpper, hodCtxl⟩

end Sys2Proof.Machine
end

section
/-! SUPPORT. VX and VWAIT (R84 to R87). -/

namespace Sys2Proof.Machine

open Sys2Proof

/-! ### A register and a flag written -/

/-- One register and flags written where the pc stays. -/
theorem ran_wr_flags_zero (s : State) (c : CoreId) (rd : Reg) (v : Word) (fl : List (Nat × Bool)) (hfl : ∀ e ∈ fl, e.1 < 16) :
    Ran s ((s.wr c rd v).flags c (updOf fl)) c 0 [(rd, v)] fl := by
  have h := ran_alu s c 0 rd v fl hfl
  rwa [past_zero] at h

/-- One register written behind the pc. -/
theorem ran_wr_past (s : State) (c : CoreId) (n : Nat) (rd : Reg) (v : Word) : Ran s ((s.past c n).wr c rd v) c n [(rd, v)] [] :=
  ran_wrs s c n [(rd, v)] (named_nodup _ c _ (List.nodup_singleton rd))

/-! ### VX -/

/-- The little-endian number of two bytes, those beyond the list's end being zero. -/
theorem leNat_take_two (l : List Byte) (n : Nat) : leNat ((l.drop n).take 2) = leAt l n 2 := by
  have h0 : l.getD n 0 = (l.drop n).getD 0 0 := by simp [List.getD_eq_getElem?_getD]
  have h1 : l.getD (n + 1) 0 = (l.drop n).getD 1 0 := by simp [List.getD_eq_getElem?_getD]
  have hat : leAt l n 2 = leNat [l.getD n 0, l.getD (n + 1) 0] := rfl
  rw [hat, h0, h1]
  rcases l.drop n with _ | ⟨a, _ | ⟨b, r⟩⟩ <;> simp [leNat]

theorem wordsOf_eq (l : List Byte) : (upto 32).map (fun i => BitVec.ofNat 16 (leNat ((l.drop (2 * i)).take 2))) = wordsOf l :=
  List.map_congr_left fun i _ => by rw [leNat_take_two]

theorem queue_eq (s : State) (q : BitVec 4) : s.queue q.toNat = s.queues[q.toNat] := dif_pos q.isLt

/-- When a queue takes one more brick. -/
theorem queueRefuses_iff (s : State) (q : BitVec 4) :
    s.queueRefuses q.toNat = false ↔ s.bit .VX_QCFG q.toNat 15 = true ∧ s.queues[q.toNat].entries.length < 64 ∧
      ∀ b ∈ s.queues[q.toNat].entries, b.seq ≠ s.queues[q.toNat].nextSeq := by
  simp [State.queueRefuses, queue_eq, and_assoc]

/-- An accepted brick enters the queue with the next ticket. -/
theorem accept_eq (s : State) (q : BitVec 4) (desc : List Word) (joint : Bool) (lvl : Nat) :
    let u := s.queues[q.toNat]
    ∃ rem, s.accept q.toNat desc joint lvl = { s with
      arrivals := s.arrivals + 1
      queues := s.queues.set q.toNat { u with
        nextSeq := if u.nextSeq = 1022 then 0 else u.nextSeq + 1
        entries := u.entries ++ [{ desc, seq := u.nextSeq, ticket := s.ticket q.toNat u.nextSeq, joint, lvl := BitVec.ofNat 2 lvl
                                   arrival := s.arrivals, remain := rem, was := some s.mem }] } } := by
  intro u
  have hset (v : Queue) : s.setQueue q.toNat v = { s with queues := s.queues.set q.toNat v } := dif_pos q.isLt
  refine ⟨s.remaining { desc, seq := u.nextSeq, ticket := s.ticket q.toNat u.nextSeq, joint, lvl := BitVec.ofNat 2 lvl
                        arrival := s.arrivals, was := some s.mem }, ?_⟩
  rw [State.accept, queue_eq]
  dsimp only
  rw [hset]

theorem vxPriv_iff (s : State) (q lvl : Nat) :
    s.vxPriv q lvl = true ↔ ¬ lvl ≤ if wfld (s.reg .VX_QCFG q) 14 13 = 3 then 0 else wfld (s.reg .VX_QCFG q) 14 13 := by
  rw [not_le]
  exact decide_eq_true_iff

theorem hodVx : Sys2Proof.Rules.HodVx := by
  intro c rd p q s s1 hissue d va m allowed bad
  have hpriv := vxPriv_iff d q.toNat (d.level c)
  have hgo (hr : c.val < 8 ∨ d.bit .SYS_STAT 0 14 = true) : ¬ (8 ≤ c.val ∧ ¬ d.computeReady = true) := fun h => by
    rcases hr with hr | hr
    · omega
    · exact h.2 hr
  refine ⟨fun h8 hready => ⟨_, congrArg Host.Outcome.next (hod_of_issue hissue (if_pos ⟨h8, by rw [State.computeReady, hready]; decide⟩)),
    ran_wr_flags_zero d c rd 0xFFFF [(10, true)] (by decide)⟩, fun hready => ?_⟩
  refine ⟨fun hno => ?_, fun hall halign => ?_, fun pa dev s2 hall halign hxl => ?_⟩
  · exact congrArg Host.Outcome.next (hod_of_trap hissue ((if_neg (hgo hready)).trans (if_pos (hpriv.2 hno))))
  · exact congrArg Host.Outcome.next (hod_of_trap hissue ((if_neg (hgo hready)).trans
      ((if_neg fun h => hpriv.1 h hall).trans (if_pos halign))))
  · obtain ⟨body, hexec, hbody⟩ : ∃ body, exec (.vx c rd p q) s = .next (s.hod c 2 { regs := rd :: pairRegs p } body) ∧
        body (s1.past c 2) = if ¬ (0x40000000 ≤ pa ∧ pa < 0x44000000) then (some { cause := 9, xaddr := va }, s2)
          else match s2.readMem (dataPort c) pa 64 with
            | (.error _, s3) => (some { cause := 9, xaddr := va }, s3)
            | (.ok l, s3) =>
              if s3.queueRefuses q.toNat then (none, (s3.shed .KILN_QREF q.toNat).vxRefused c rd)
              else (none, ((s3.accept q.toNat (wordsOf l) false (s3.level c)).wr c rd
                (s3.ticket q.toNat (s3.queue q.toNat).nextSeq)).flags c (({} : Upd).put 10 false)) := by
      refine ⟨_, rfl, (if_neg (hgo hready)).trans ((if_neg fun h => hpriv.1 h hall).trans ((if_neg (not_not.mpr halign)).trans ?_))⟩
      rw [hxl] <;> rfl
    rw [hexec]
    refine ⟨fun hpa => ?_, fun l s3 hlo hhi hread => ?_⟩
    · exact congrArg Host.Outcome.next (hod_of_trap hissue (hbody.trans (if_pos (by omega))))
    · rw [if_neg (not_not.mpr ⟨hlo, hhi⟩), hread] at hbody
      have hiff := queueRefuses_iff s3 q
      refine ⟨fun hfree => ?_, fun hfull => ?_⟩
      · obtain ⟨rem, haccept⟩ := accept_eq s3 q (wordsOf l) false (s3.level c)
        refine ⟨_, rem, congrArg Host.Outcome.next (hod_of_issue hissue (hbody.trans (if_neg (by rw [hiff.2 hfree]; decide)))), ?_⟩
        rw [haccept, queue_eq, wordsOf_eq]
        exact ran_wr_flags_zero _ c rd _ [(10, false)] (by decide)
      · refine ⟨_, congrArg Host.Outcome.next (hod_of_issue hissue (hbody.trans (if_pos ?_))), ran_wr_flags_zero _ c rd 0xFFFF [(10, true)] (by decide)⟩
        exact Bool.not_eq_false _ ▸ fun h => hfull (hiff.1 h)

/-! ### VWAIT -/

theorem waitResult_eq (s : State) (t : Word) : s.waitResult t = waitRule s t := by
  have h1 : wfld t 15 12 = t.toNat / 4096 := by
    have := t.isLt
    rw [wfld_eq]
    omega
  have h2 : wfld t 11 10 = t.toNat / 1024 % 4 := wfld_eq t 11 10
  rw [State.waitResult, waitRule, h1, h2, State.computeReady]
  refine if_congr (by simp) rfl (if_congr Iff.rfl rfl ?_)
  cases (s.queue (t.toNat / 4096)).ended.find? fun e => decide (e.1 = some t) <;> rfl

theorem waitRule_past (s : State) (c : CoreId) (n : Nat) (t : Word) : waitRule (s.past c n) t = waitRule s t := rfl

theorem hodVwait : Sys2Proof.Rules.HodVwait := by
  intro c rd rs s s1 t v
  refine ⟨fun hissue ht => ?_, fun hrun => ?_⟩
  · have hres : (s1.past c 1).waitResult ((s1.past c 1).rg c rs) = waitRule s1 t := by rw [rg_past, ← ht, waitResult_eq, waitRule_past]
    have hexec {u : State} (h : (match (s1.past c 1).waitResult ((s1.past c 1).rg c rs) with
        | some v => (s1.past c 1).wr c rd v
        | none => ((s1.past c 1).stay c 1).modCore c fun k => { k with run := .waitBrick rd ((s1.past c 1).rg c rs) }) = u) :
        exec (.vwait c rd rs) s = .next u := congrArg Host.Outcome.next (hod_of_issue hissue (congrArg (Prod.mk none) h))
    refine ⟨fun hend => ⟨_, hexec (by rw [hres, hend]), ran_wr_past s1 c 1 rd v⟩, fun hwait => hexec ?_⟩
    have hpc : (s1.core c).pc + 1 - 1 = (s1.core c).pc := BitVec.add_sub_cancel _ _
    rw [hres, hwait, rg_past, ← ht, State.stay, modCore_modCore, State.modCore, core_past_one, State.past, setCore_setCore]
    dsimp only
    rw [show (BitVec.ofNat 32 1) = 1 from rfl, hpc]
  · rw [← waitResult_eq]
    have hexec {u : State} (h : (match s.waitResult t with
        | some v => (s.modCore c fun k => { k with run := .running, pc := k.pc + 1 }).wr c rd v
        | none => s) = u) : exec (.vwaitWake c) s = .next u := by
      show execVwaitWake c s = _
      rw [execVwaitWake, hrun, ← h] <;> rfl
    refine ⟨fun hend => ⟨_, hexec (by rw [hend]), ?_⟩, fun hwait => hexec (by rw [hwait])⟩
    have h := ran_wr_past (s.setCore c { s.core c with run := .running }) c 1 rd v
    rw [State.past, core_setCore, setCore_setCore] at h
    exact h

/-- Settles O19: VX, VWAIT and VWAIT_WAKE. -/
theorem hodVector : Obligations.HodVector := ⟨hodVx, hodVwait⟩

end Sys2Proof.Machine
end

section
/-! SUPPORT. Barriers, WFI, and what is illegal or needs a privilege (R254, R282, R289, R290, R294, R305). -/

namespace Sys2Proof.Machine

open Sys2Proof

/-! ### Barriers -/

/-- The lines that a range of words names. -/
theorem mem_icRange (s : State) (c : CoreId) (va : W32) (n l : Nat) :
    l ∈ s.icRange c va n ↔ ∃ j, va.toNat / 32 ≤ j ∧ j ≤ (va.toNat + n - 1) / 32 ∧ s.icPlace c (32 * j % 2 ^ 32) = some l := by
  rw [State.icRange, List.mem_filterMap]
  constructor
  · rintro ⟨i, hi, hl⟩
    have hi' := List.mem_range.1 hi
    exact ⟨va.toNat / 32 + i, by omega, by omega, by rwa [BitVec.toNat_ofNat] at hl⟩
  · rintro ⟨j, hlo, hhi, hl⟩
    refine ⟨j - va.toNat / 32, List.mem_range.2 (by omega), ?_⟩
    rwa [Nat.add_sub_cancel' hlo, BitVec.toNat_ofNat]

/-- The core has left the loop buffer behind an instruction. -/
theorem leaveLoop_past (s : State) (c : CoreId) (n : Nat) :
    (s.past c n).leaveLoop c = (s.lbuf c false).setCore c { s.core c with pc := (s.core c).pc + BitVec.ofNat 32 n, loopAt := none } := by
  rw [leaveLoop_eq, core_past, State.past, lbuf_setCore, setCore_setCore]

theorem atMS_trap (s : State) (c : CoreId) (body : State → Option Trap × State) (h : s.level c = 2) : atMS c body s = (some privilege, s) := if_pos h

/-- An instruction that raises a trap and does nothing else. -/
theorem traps_of {i : Instr} {c : CoreId} {len : Nat} {u : Uses} {body : State → Option Trap × State} {ok : State → Prop} {t : Trap}
    (hexec : ∀ s, exec i s = .next (s.hod c len u body)) (hbody : ∀ s, ok s → body (s.past c len) = (some t, s.past c len)) :
    Traps i c len u ok fun _ => t :=
  fun s s1 hissue hok => (hexec s).trans (congrArg _ (hod_of_trap hissue (hbody s1 hok)))

theorem hodBarriers : Sys2Proof.Rules.HodBarriers := by
  intro c p rc
  refine ⟨does_of_quiet (fun _ => rfl) fun s => ⟨rfl, fun hempty => ?_⟩, does_of_quiet (fun _ => rfl) fun s => ?_,
    does_of_quiet (fun _ => rfl) fun s => ?_, fun s s1 hissue hlevel => ?_, traps_of (fun _ => rfl) fun s hlevel => ?_⟩
  · exact drainAll_of_empty _ c (by rw [core_past_one]; exact hempty)
  · intro a va n
    have hdrain : ((s.past c 2).leaveLoop c).drainAll c = a := by rw [leaveLoop_past]; rfl
    have hn : (if (s.rg c rc).toNat = 0 then 65536 else (s.rg c rc).toNat) = n :=
      if_congr ⟨fun h => BitVec.eq_of_toNat_eq h, fun h => congrArg BitVec.toNat h⟩ rfl rfl
    rw [rg_past, hdrain]
    dsimp only
    rw [hn, core_modCore]
    refine ⟨rfl, fun l => ?_⟩
    rw [List.mem_filter, ← mem_icRange]
    simp
  · rw [leaveLoop_past, State.modCore, core_setCore, setCore_setCore]
    rfl
  · have hbody : atMS c (quiet fun s => s.modCore c fun k => { k with run := .waitInt }) (s1.past c 1) =
        (none, s1.setCore c { s1.core c with pc := (s1.core c).pc + 1, run := .waitInt }) := by
      rw [atMS_of (s1.past c 1) c _ (by rw [level_past]; exact hlevel), quiet, State.modCore, core_past_one, State.past, setCore_setCore]
    exact congrArg Host.Outcome.next (hod_of_issue hissue hbody)
  · exact atMS_trap _ c _ (by rw [level_past]; exact hlevel)

/-! ### Encodings that are not listed (R254) -/

theorem given_false (b : Bool) (i : Instr) (h : b = false) : given b i = none := by
  rw [h]
  rfl

/-- The fields of a first word as numbers. -/
theorem extract_toNat (w : Word) : (w.extractLsb' 10 6).toNat = wfld w 15 10 ∧ (w.extractLsb' 5 5).toNat = wfld w 9 5 ∧
    (w.extractLsb' 0 5).toNat = wfld w 4 0 := by
  simp [wfld_eq, BitVec.extractLsb'_toNat, Nat.shiftRight_eq_div_pow]

/-- Functions of the system group that are not listed. -/
theorem decodeSys_of_unlisted (c : CoreId) (f b : Reg) (w2 : Word) (h : 10 < f.toNat ∧ f.toNat < 16 ∨ 22 < f.toNat) :
    decodeSys c f b w2 = none := by
  unfold decodeSys
  generalize f.toNat = m at h
  rcases h with ⟨hlo, hhi⟩ | h
  · interval_cases m <;> rfl
  · obtain ⟨n, rfl⟩ := Nat.exists_eq_add_of_le h
    rw [Nat.add_comm]
    rfl

/-- Functions of the system group without an operand have none. -/
theorem decodeSys_of_operand (c : CoreId) (f b : Reg) (w2 : Word) (hf : f.toNat ≤ 10) (hb : b ≠ 0) : decodeSys c f b w2 = none := by
  have hno (i : Instr) : given (b = 0) i = none := given_false _ i (decide_eq_false hb)
  unfold decodeSys
  generalize f.toNat = m at hf
  interval_cases m <;> exact hno _

theorem specFits_of_large (n r : Reg) (h : 16 ≤ n.toNat) : specFits n r = false := by
  have hn : (n < 16) = False := eq_false fun hlt => absurd (BitVec.lt_def.1 hlt) (Nat.not_lt.2 h)
  simp only [specFits, hn, decide_false, Bool.false_and]

/-- The encodings that are not listed spell no instruction. -/
theorem decodeHod_unlisted (c : CoreId) (w1 w2 : Word)
    (h : wfld w1 15 10 = 0x3F ∨ (wfld w1 15 10 = 0 ∧ (10 < wfld w1 9 5 ∧ wfld w1 9 5 < 16 ∨ 22 < wfld w1 9 5)) ∨
      (wfld w1 15 10 = 0 ∧ wfld w1 9 5 ≤ 10 ∧ wfld w1 4 0 ≠ 0) ∨ (wfld w1 15 10 = 2 ∧ 16 ≤ wfld w1 4 0) ∨
      (wfld w1 15 10 = 3 ∧ 16 ≤ wfld w1 9 5) ∨ (wfld w1 15 10 = 0x27 ∧ wfld w1 4 0 ≠ 0)) : decodeHod c w1 w2 = none := by
  obtain ⟨hop, ha, hb⟩ := extract_toNat w1
  rw [← hop, ← ha, ← hb] at h
  have hb0 (hne : (w1.extractLsb' 0 5).toNat ≠ 0) : w1.extractLsb' 0 5 ≠ 0 := fun e => hne (congrArg BitVec.toNat e)
  unfold decodeHod
  generalize (w1.extractLsb' 10 6).toNat = op at h
  dsimp only
  rcases h with rfl | ⟨rfl, h⟩ | ⟨rfl, h, hne⟩ | ⟨rfl, h⟩ | ⟨rfl, h⟩ | ⟨rfl, hne⟩
  · rfl
  · exact decodeSys_of_unlisted c _ _ w2 h
  · exact decodeSys_of_operand c _ _ w2 h (hb0 hne)
  · exact given_false _ _ (specFits_of_large _ _ h)
  · exact given_false _ _ (specFits_of_large _ _ h)
  · exact given_false _ _ (decide_eq_false (hb0 hne))

theorem evenOnly_trap (r : Reg) (body : State → Option Trap × State) (s : State) (h : r.getLsbD 0 = true) : evenOnly r body s = (some illegal, s) :=
  if_pos h

theorem notOnBank_trap (s : State) (c : CoreId) (body : State → Option Trap × State) (h : (s.core c).path = .sb1 ∨ (s.core c).path = .sb2) :
    notOnBank c body s = (some illegal, s) := by
  refine if_pos ?_
  rw [Core.onBank]
  rcases h with h | h <;> rw [h]

theorem hodIllegal : Sys2Proof.Rules.HodIllegal := by
  intro c w1 w2 imm r rs p inc n bad op a b
  refine ⟨fun h => ?_, fun hodd => ?_, fun s s1 hbank => ?_, fun scope => ?_, ?_⟩
  · have hexec (s : State) : exec (.illegalOpcode c w1 w2) s = .next (s.hod c 1 {} fun s => (some illegal, s)) := by
      refine congrArg Host.Outcome.next (if_neg ?_)
      rw [decodeHod_unlisted c w1 w2 h]
      decide
    exact traps_of hexec fun s _ => rfl
  · intro u2 u1 ul
    refine ⟨fun e he => ?_, fun e he => ?_, fun e he => ?_, fun e he => ?_, fun e he => ?_⟩ <;>
      simp only [List.mem_cons, List.not_mem_nil, or_false] at he
    · rcases he with rfl | rfl | rfl <;> exact traps_of (fun _ => rfl) fun s _ => evenOnly_trap r _ _ hodd
    · rcases he with rfl | rfl <;> exact traps_of (fun _ => rfl) fun s _ => evenOnly_trap r _ _ hodd
    · rcases he with rfl | rfl <;> exact traps_of (fun _ => rfl) fun s _ => evenOnly_trap r _ _ hodd
    · rcases he with rfl | rfl | rfl | rfl | rfl | rfl <;> exact traps_of (fun _ => rfl) fun s _ => evenOnly_trap r _ _ hodd
    · rcases he with rfl | rfl <;> exact traps_of (fun _ => rfl) fun s _ => evenOnly_trap r _ _ hodd
  · have hbank' : ((s1.past c 1).core c).path = .sb1 ∨ ((s1.past c 1).core c).path = .sb2 := by rw [core_past_one]; exact hbank
    intro ill
    have hill {u : Uses} {i : Instr} {body : State → Option Trap × State} (hexec : exec i s = .next (s.hod c 1 u (notOnBank c body))) : ill i u :=
      fun hissue => hexec.trans (congrArg _ (hod_of_trap hissue (notOnBank_trap _ c _ hbank')))
    exact ⟨hill rfl, hill rfl, hill rfl, hill rfl, hill rfl⟩
  · exact traps_of (fun _ => rfl) fun s hlevel => atMS_trap _ c _ (by rw [level_past]; exact hlevel)
  · exact traps_of (fun _ => rfl) fun s hlevel => atMS_trap _ c _ (by rw [level_past]; exact hlevel)

/-- Settles O20: barriers, WFI, illegal encodings and uses. -/
theorem hodBarriersAndIllegal : Obligations.HodBarriersAndIllegal := ⟨hodBarriers, hodIllegal⟩

end Sys2Proof.Machine
end

section
/-! SUPPORT. A TLBI whose store buffer resets its own core before the request is made (R284, R306, R324). -/

namespace Sys2Proof.Machine

open Sys2Proof

/-- HF[0] at level M; the one entry of its store buffer holds the word that makes FHINT_CRST reset HF[0] itself. Its pair 1 names
address 0x10. -/
def tlbiReset : State :=
  let k : Core := { State.reset.core 8 with
    run := .running, regs := [(3, 0x10)], storeBuf := [{ words := [(0x90009024, 0x0100)] }] }
  let s := State.reset.setCore 8 k
  { s with pw := { s.pw with resetting := none } }

/-- TLBI has issued. -/
def tlbiReset1 : State := (tlbiReset.hodIssue 8 2 { regs := pairRegs 1 }).2

theorem tlbiReset_issues : tlbiReset.hodIssue 8 2 { regs := pairRegs 1 } = (true, tlbiReset1) :=
  Prod.ext (by decide +kernel) rfl

theorem tlbiReset_level : tlbiReset1.level 8 ≤ 1 := by decide +kernel

/-- The drain has reset the core, and its registers with it. -/
theorem tlbiReset_drained : (((tlbiReset1.past 8 2).drainAll 8).pr 8 1) = 0 ∧ ((tlbiReset1.past 8 2).drainAll 8).tlbis = [] := by
  decide +kernel

/-- The request that the command makes carries the address that the pair held before the drain. -/
theorem tlbiReset_request : ∃ t, exec (.tlbi 8 1 0) tlbiReset = .next t ∧ t.tlbis.map (fun q => q.va) = [0x10] :=
  ⟨_, rfl, by decide +kernel⟩

end Sys2Proof.Machine

namespace Sys2Proof

open Sys2Proof.Machine

/-- Refutes O17: where the drain that precedes TLBI resets the issuing core, the request made is for the address that the pair held
before the drain, while the pair reads 0 after it. -/
theorem not_hodTlbi : ¬ Obligations.HodTlbi := by
  intro h
  obtain ⟨hmake, -⟩ := h 8 1 0 tlbiReset tlbiReset1
  obtain ⟨t, ht, -, q, hq, -, -, hva, -⟩ := hmake tlbiReset_issues tlbiReset_level
  obtain ⟨u, hu, hvas⟩ := tlbiReset_request
  obtain ⟨hzero, hnone⟩ := tlbiReset_drained
  rw [← Host.Outcome.next.inj (ht.symm.trans hu), hq, hnone] at hvas
  rw [hzero] at hva
  simp [hva] at hvas

end Sys2Proof
end

section
/-! SUPPORT. REP, STM and LDM: runs of elements and transfers, whole and broken off (R266 to R268). -/

namespace Sys2Proof.Machine

open Sys2Proof

/-- No break comes between the first m elements of u. -/
def Undisturbed (c : CoreId) (u : Nat → State) (stop : Option Nat) (m : Nat) : Prop :=
  (∀ j, stop = some j → j = 0 ∨ m ≤ j) ∧ ∀ j < m, 0 < j → (u j).dueInt c = none

theorem Undisturbed.not_between {c : CoreId} {u : Nat → State} {stop : Option Nat} {m j : Nat} (h : Undisturbed c u stop m) (hj : j < m) :
    ¬ (0 < j ∧ (u j).between c j stop = true) := by
  rintro ⟨h0, hb⟩
  obtain ⟨hstop, hdue⟩ := h
  rw [State.between, hdue j hj h0, Option.isSome_none, Bool.or_false, decide_eq_true_eq] at hb
  have := hstop j hb
  omega

/-- The break of a run after m elements. -/
theorem between_of_break {c : CoreId} {s : State} {stop : Option Nat} {m : Nat} (h : stop = some m ∨ s.dueInt c ≠ none) :
    s.between c m stop = true := by
  rw [State.between, Bool.or_eq_true, decide_eq_true_eq, Option.isSome_iff_ne_none]
  exact h

theorem Undisturbed.mono {c : CoreId} {u : Nat → State} {stop : Option Nat} {m n : Nat} (h : Undisturbed c u stop n) (hmn : m ≤ n) :
    Undisturbed c u stop m :=
  ⟨fun j hj => (h.1 j hj).imp_right hmn.trans, fun j hj => h.2 j (Nat.lt_of_lt_of_le hj hmn)⟩

/-! ### REP -/

/-- The first m elements of a REP. -/
theorem repRun_elements {c : CoreId} {i : RepInstr} {u : Nat → State} {stop : Option Nat} {m n : Nat} (hmn : m ≤ n)
    (he : Elements c i u m) (hopen : Undisturbed c u stop m) : State.repRun c i stop n 0 (u 0) = State.repRun c i stop (n - m) m (u m) := by
  induction m with
  | zero => rfl
  | succ m ih =>
    obtain ⟨helem, hrun, hpc, -⟩ := he m (Nat.lt_succ_self m)
    have hleft : n - m = n - (m + 1) + 1 := by omega
    rw [ih (by omega) (fun j hj => he j (by omega)) (hopen.mono (Nat.le_succ m)), hleft, State.repRun, if_neg (hopen.not_between (Nat.lt_succ_self m)),
      helem]
    exact if_pos ⟨hrun, hpc⟩

/-- A change of the specials leaves pc. -/
theorem pc_spec (k : Core) (f : Core → Core) (h : (f k).pc = k.pc) : (k.spec f).pc = k.pc := by
  unfold Core.spec
  dsimp only
  split_ifs <;> exact h

theorem pc_repAt (k : Core) (n : Nat) : (k.repAt n).pc = k.pc := pc_spec k (fun k => { k with repLeft := BitVec.ofNat 16 n, psw := putBit k.psw 12 true }) rfl

theorem pc_progAt (k : Core) (i : Nat) : (k.progAt i).pc = k.pc := pc_spec k (fun k => { k with multiProg := BitVec.ofNat 16 (32768 + i) }) rfl

/-- The state in which a REP is broken off with n elements left. -/
theorem setRep_stay (s : State) (c : CoreId) (n : Nat) :
    (s.setRep c n true).stay c 2 = s.setCore c { (s.core c).repAt n with pc := (s.core c).pc - 2 } := by
  rw [State.setRep, State.modSpec, State.stay, modCore_modCore]
  refine congrArg (s.setCore c) ?_
  exact congrArg (fun x => { (s.core c).repAt n with pc := x - 2 }) (pc_repAt (s.core c) n)

/-- The count that a REP begins with. -/
theorem rep_count {c : CoreId} {rs : Reg} {s1 : State} {n : Nat}
    (hn : n = if wbit (s1.psw c) 12 then (s1.core c).repLeft.toNat else (s1.rg c rs).toNat) :
    (if wbit ((s1.past c 2).psw c) 12 then ((s1.past c 2).core c).repLeft.toNat else ((s1.past c 2).rg c rs).toNat) = n := by
  rw [hn, psw_past, rg_past, core_past]

/-- A REP runs its elements from the state that takes over the count. -/
theorem rep_exec {c : CoreId} {rs : Reg} {i : RepInstr} {stop : Option Nat} {s s1 u t : State} {n : Nat}
    (hi : s.hodIssue c 2 { regs := rs :: repRegs i, flags := repFlags i } = (true, s1)) (hok : repAllowed i = true)
    (hn : n = if wbit (s1.psw c) 12 then (s1.core c).repLeft.toNat else (s1.rg c rs).toNat)
    (hfresh : wbit (s1.psw c) 12 = false → u = s1.past c 2)
    (hagain : wbit (s1.psw c) 12 = true →
      u = (s1.past c 2).setCore c (((s1.past c 2).core c).spec fun k => { k with psw := putBit k.psw 12 false }))
    (hrun : State.repRun c i stop n 0 u = (none, t)) : exec (.rep c rs i stop) s = .next t := by
  refine congrArg Host.Outcome.next (hod_of_issue hi ?_)
  dsimp only
  rw [if_neg (by simp [hok]), rep_count hn]
  have hstart : (if wbit ((s1.past c 2).psw c) 12 then (s1.past c 2).setPsw c (putBit ((s1.past c 2).psw c) 12 false) else s1.past c 2) = u := by
    rw [psw_past]
    split
    · next h => rw [hagain h, State.setPsw, modSpec_eq, spec_psw, spec_psw, core_past]; rfl
    · next h => exact (hfresh (by simpa using h)).symm
  rw [hstart]
  exact hrun

/-! ### An element is the instruction alone -/

theorem storeFrom_of_elemStore {s t : State} {c : CoreId} {vals : List Word} {p : PairIx} (h : s.elemStore c vals p = (none, t)) :
    s.storeFrom c vals (s.pr c p) (some (p, vals.length)) = (none, t) := by
  rw [State.elemStore] at h
  split at h
  · next heq => simp at h
  · next heq => exact heq.trans (Prod.ext rfl (Prod.mk.inj h).2)

theorem evenOnly_of (r : Reg) (body : State → Option Trap × State) (s : State) (h : r.getLsbD 0 = false) : evenOnly r body s = body s :=
  if_neg (ne_true_of_eq_false h)

theorem single_none (s t : State) (c : CoreId) : s.single c (none, t) = (none, t) := rfl

theorem alone_exec {c : CoreId} {i : RepInstr} {e : Instr} {v : Uses} {a b t : State} (he : aloneOf i c = some (e, v)) (hok : repAllowed i = true)
    (hi : a.hodIssue c 1 v = (true, b)) (ht : (b.past c 1).repElem c i = (none, t)) : exec e a = .next t := by
  cases i with
  | ld r p => simp [aloneOf] at he
  | ldp r p => simp [aloneOf] at he
  | other => simp [aloneOf] at he
  | st r p =>
    obtain ⟨rfl, rfl⟩ := Prod.mk.inj (Option.some.inj he)
    exact congrArg Host.Outcome.next (hod_of_issue hi (storeFrom_of_elemStore ht))
  | stp r p =>
    obtain ⟨rfl, rfl⟩ := Prod.mk.inj (Option.some.inj he)
    exact congrArg Host.Outcome.next (hod_of_issue hi ((evenOnly_of r _ _ (by simpa [repAllowed] using hok)).trans (storeFrom_of_elemStore ht)))
  | movm d p =>
    obtain ⟨rfl, rfl⟩ := Prod.mk.inj (Option.some.inj he)
    exact congrArg Host.Outcome.next (hod_of_issue hi (congrArg _ ht))
  | daddm d p =>
    obtain ⟨rfl, rfl⟩ := Prod.mk.inj (Option.some.inj he)
    exact congrArg Host.Outcome.next (hod_of_issue hi (congrArg _ ht))
  | dsubm d p =>
    obtain ⟨rfl, rfl⟩ := Prod.mk.inj (Option.some.inj he)
    exact congrArg Host.Outcome.next (hod_of_issue hi (congrArg _ ht))
  | crcm16 r p =>
    obtain ⟨rfl, rfl⟩ := Prod.mk.inj (Option.some.inj he)
    exact congrArg Host.Outcome.next (hod_of_issue hi (congrArg _ ht))
  | crcm32 r p =>
    obtain ⟨rfl, rfl⟩ := Prod.mk.inj (Option.some.inj he)
    exact congrArg Host.Outcome.next (hod_of_issue hi ((evenOnly_of r _ _ (by simpa [repAllowed] using hok)).trans (congrArg _ ht)))

theorem hodRep : Rules.HodRep := by
  intro c rs i stop s s1 u n m hi
  refine ⟨fun hbad => ?_, fun hok hn hfresh hagain => ⟨fun he hstop => ?_, fun he hm hmn hstop hbreak => ?_⟩, fun e v a b he hok hi t ht => alone_exec he hok hi ht⟩
  · exact congrArg Host.Outcome.next (hod_of_trap hi (if_pos (by simp [hbad])))
  · refine rep_exec hi hok hn hfresh hagain ?_
    rw [repRun_elements le_rfl he ⟨hstop, fun j hj => (he j hj).2.2.2⟩, Nat.sub_self]
    rfl
  · refine rep_exec hi hok hn hfresh hagain ?_
    obtain ⟨k, hk⟩ : ∃ k, n - m = k + 1 := ⟨n - m - 1, by omega⟩
    rw [repRun_elements hmn.le he ⟨hstop, fun j hj => (he j hj).2.2.2⟩, hk, State.repRun, if_pos ⟨hm, between_of_break hbreak⟩, setRep_stay]

/-! ### STM and LDM -/

theorem maskBits_eq (mask : Word) (lo : Nat) : maskBits mask lo 16 = multiBits mask lo := by
  refine List.filter_congr fun i hi => ?_
  have : i < 16 := List.mem_range.mp hi
  simp [this]

theorem mem_multiBits {mask : Word} {lo i : Nat} (h : i ∈ multiBits mask lo) : i < 16 := List.mem_range.mp (List.mem_filter.mp h).1

theorem maskReg_eq (half : Bool) (i : Nat) : maskReg half i = multiReg half i := by
  cases half <;> simp [maskReg, multiReg, b2n]

/-- The bits set below bit i. -/
theorem maskBits_below (mask : Word) {i : Nat} (hi : i < 16) : maskBits mask 0 i = (upto i).filter fun j => wbit mask j := by
  have hsplit : upto 16 = upto i ++ (upto (16 - i)).map (i + ·) := by
    rw [upto, upto, upto, ← List.range_add]
    congr 1
    omega
  have hrest : ((upto (16 - i)).map (i + ·)).filter (fun j => wbit mask j && decide (0 ≤ j) && decide (j < i)) = [] := by
    simp [List.filter_eq_nil_iff]
  rw [maskBits, hsplit, List.filter_append, hrest, List.append_nil]
  refine List.filter_congr fun j hj => ?_
  have : j < i := List.mem_range.mp hj
  simp [this]

theorem maskAddr_eq (a : W32) (mask : Word) {i : Nat} (hi : i < 16) : maskAddr a mask i = multiAddr a mask i := by
  rw [maskAddr, multiAddr, maskBits_below mask hi]

/-- The bits of a transfer, from the first of this execution on. -/
theorem transfer_bits (mask : Word) (s : State) (c : CoreId) :
    maskBits mask ((s.past c 2).core c).startBit 16 =
      multiBits mask (if wbit (s.core c).multiProg 15 then wfld (s.core c).multiProg 3 0 else 0) := by
  rw [maskBits_eq, Core.startBit, core_past]

theorem drop_getD (l : List Nat) {m : Nat} (h : m < l.length) : l.drop m = l.getD m 0 :: l.drop (m + 1) := by
  rw [List.drop_eq_getElem_cons h, List.getD_eq_getElem _ _ h]

/-- MULTI_PROG where a transfer is broken off. -/
theorem setProg_stay (s : State) (c : CoreId) (i : Nat) :
    (s.setProg c i).stay c 2 = s.setCore c { (s.core c).progAt i with pc := (s.core c).pc - 2 } := by
  rw [State.setProg, State.modSpec, State.stay, modCore_modCore]
  refine congrArg (s.setCore c) ?_
  exact congrArg (fun x => { (s.core c).progAt i with pc := x - 2 }) (pc_progAt (s.core c) i)

/-- The end of an STM or LDM. -/
theorem endMulti_multiEnd (s : State) (c : CoreId) (p : PairIx) (u : Bool) (mask : Word) : multiEnd s (s.endMulti c p u mask) c p u mask := by
  have hbits : maskBits mask 0 16 = multiBits mask 0 := maskBits_eq mask 0
  unfold multiEnd State.endMulti
  rw [hbits]
  cases u with
  | false => exact ran_wrs_zero _ c [] List.nodup_nil
  | true =>
    have h := ran_wrp (s.modSpec c fun k => { k with multiProg := putBit k.multiProg 15 false }) c 0 p
      (State.pr (s.modSpec c fun k => { k with multiProg := putBit k.multiProg 15 false }) c p + BitVec.ofNat 32 (multiBits mask 0).length)
    rwa [past_zero] at h

/-- Word j of an STM enters the store buffer. -/
def Buffers (c : CoreId) (p : PairIx) (half : Bool) (mask : Word) (l : List Nat) (u v : Nat → State) (pa : Nat → Nat) (n : Nat) : Prop :=
  ∀ j < n, (u j).storeCheck c .store (multiAddr ((u j).pr c p) mask (l.getD j 0)) = (.ok (pa j, false), v j) ∧
    ((v j).core c).storeBuf.length < 8 ∧ u (j + 1) = (v j).buffered c [(pa j, (v j).rg c (multiReg half (l.getD j 0)))]

theorem sameCore_buffered (s : State) (c : CoreId) (l : List (Nat × Word)) : sameCore s (s.buffered c l) c = true := by
  simp [sameCore, State.buffered]

/-- The first m words of an STM. -/
theorem stmRun_stores {c : CoreId} {p : PairIx} {half : Bool} {mask : Word} {l : List Nat} {u v : Nat → State} {pa : Nat → Nat} {m : Nat}
    {stop : Option Nat} {fin : State → State} (hl : ∀ i ∈ l, i < 16) (hm : m ≤ l.length) (hs : Buffers c p half mask l u v pa m)
    (hopen : Undisturbed c u stop m) :
    State.stmRun c p half mask stop fin l 0 (u 0) = State.stmRun c p half mask stop fin (l.drop m) m (u m) := by
  induction m with
  | zero => rfl
  | succ m ih =>
    obtain ⟨hcheck, hroom, hnext⟩ := hs m (Nat.lt_succ_self m)
    have hbit : l.getD m 0 < 16 := by
      rw [List.getD_eq_getElem _ _ hm]
      exact hl _ (List.getElem_mem _)
    rw [ih (by omega) (fun j hj => hs j (by omega)) (hopen.mono (Nat.le_succ m)), drop_getD l hm, State.stmRun,
      if_neg (hopen.not_between (Nat.lt_succ_self m)), maskAddr_eq _ _ hbit, hcheck]
    dsimp only
    rw [putStore_buffered _ c _ hroom, maskReg_eq, ← hnext, if_pos (hnext ▸ sameCore_buffered _ c _)]

/-- Word j of an LDM lands in its register. -/
def Lands (c : CoreId) (p : PairIx) (half : Bool) (mask : Word) (l : List Nat) (u v : Nat → State) (w : Nat → Word) (n : Nat) : Prop :=
  ∀ j < n, (u j).load1 c (multiAddr ((u j).pr c p) mask (l.getD j 0)) = (.ok (w j), v j) ∧ u (j + 1) = (v j).wr c (multiReg half (l.getD j 0)) (w j)

/-- The first m words of an LDM that loads no register of its pair. -/
theorem ldmRun_loads {c : CoreId} {p : PairIx} {half : Bool} {mask : Word} {l : List Nat} {u v : Nat → State} {w : Nat → Word} {m : Nat}
    {stop : Option Nat} {fin : State → State} (hl : ∀ i ∈ l, i < 16) (hregs : ∀ i ∈ l, multiReg half i ∉ pairRegs p) (hm : m ≤ l.length)
    (hs : Lands c p half mask l u v w m) (hopen : Undisturbed c u stop m) :
    State.ldmRun c p half mask stop fin l 0 [] (u 0) = State.ldmRun c p half mask stop fin (l.drop m) m [] (u m) := by
  induction m with
  | zero => rfl
  | succ m ih =>
    obtain ⟨hload, hnext⟩ := hs m (Nat.lt_succ_self m)
    have hmem : l.getD m 0 ∈ l := by
      rw [List.getD_eq_getElem _ _ hm]
      exact List.getElem_mem _
    rw [ih (by omega) (fun j hj => hs j (by omega)) (hopen.mono (Nat.le_succ m)), drop_getD l hm, State.ldmRun,
      if_neg (hopen.not_between (Nat.lt_succ_self m)), maskAddr_eq _ _ (hl _ hmem), hload]
    dsimp only
    rw [maskReg_eq, if_neg (by simpa using hregs _ hmem), ← hnext]

/-- STM behind its issue. -/
theorem stm_exec {c : CoreId} {p : PairIx} {half up : Bool} {mask : Word} {stop : Option Nat} {s s1 t : State}
    (hi : s.hodIssue c 2 { regs := pairRegs p ++ (multiBits mask 0).map (multiReg half) } = (true, s1))
    (hrun : State.stmRun c p half mask stop (fun s => s.endMulti c p up mask)
      (multiBits mask (if wbit (s1.core c).multiProg 15 then wfld (s1.core c).multiProg 3 0 else 0)) 0 (s1.past c 2) = (none, t)) :
    exec (.stm c p half up mask stop) s = .next t := by
  refine congrArg Host.Outcome.next (hod_of_issue (s1 := s1) ?_ ?_)
  · rw [maskBits_eq, funext (maskReg_eq half)]
    exact hi
  · rw [transfer_bits]
    exact hrun

/-- LDM behind its issue, where no register of the mask is one of the pair. -/
theorem ldm_exec {c : CoreId} {p : PairIx} {half up : Bool} {mask : Word} {stop : Option Nat} {s s1 t : State}
    (hi : s.hodIssue c 2 { regs := pairRegs p ++ (multiBits mask 0).map (multiReg half) } = (true, s1))
    (hregs : ∀ i ∈ multiBits mask 0, multiReg half i ∉ pairRegs p)
    (hrun : State.ldmRun c p half mask stop (fun s => s.endMulti c p up mask)
      (multiBits mask (if wbit (s1.core c).multiProg 15 then wfld (s1.core c).multiProg 3 0 else 0)) 0 [] (s1.past c 2) = (none, t)) :
    exec (.ldm c p half up mask stop) s = .next t := by
  have hagain (k : Nat) : ((maskBits mask 0 k).filter fun i => (pairRegs p).contains (maskReg half i)) = [] := by
    refine List.filter_eq_nil_iff.mpr fun i hi => ?_
    obtain ⟨hmem, hset⟩ := List.mem_filter.mp hi
    rw [maskReg_eq, List.contains_iff_mem]
    refine hregs i (List.mem_filter.mpr ⟨hmem, ?_⟩)
    simp only [Bool.and_eq_true] at hset ⊢
    exact ⟨hset.1.1, by simp⟩
  refine congrArg Host.Outcome.next (hod_of_issue (s1 := s1) ?_ ?_)
  · rw [maskBits_eq, funext (maskReg_eq half)]
    exact hi
  · dsimp only
    rw [hagain, transfer_bits]
    exact hrun

theorem mem_multiBits_zero {mask : Word} {lo i : Nat} (h : i ∈ multiBits mask lo) : i ∈ multiBits mask 0 := by
  obtain ⟨hmem, hset⟩ := List.mem_filter.mp h
  refine List.mem_filter.mpr ⟨hmem, ?_⟩
  simp only [Bool.and_eq_true] at hset ⊢
  exact ⟨hset.1, by simp⟩

theorem hodMulti : Rules.HodMulti := by
  intro c p half up mask stop s s1 u v pa w m hi l bit reg open' broken stores loads h0
  have hl : ∀ i ∈ l, i < 16 := fun i => mem_multiBits
  refine ⟨fun hs hopen => ⟨_, stm_exec hi ?_, endMulti_multiEnd _ c p up mask⟩, fun hs hopen hm hml hbreak => stm_exec hi ?_,
    fun hregs => ⟨fun hs hopen => ⟨_, ldm_exec hi hregs ?_, endMulti_multiEnd _ c p up mask⟩, fun hs hopen hm hml hbreak => ldm_exec hi hregs ?_⟩⟩
  · rw [← h0, stmRun_stores hl le_rfl hs hopen, List.drop_length]
    rfl
  · rw [← h0, stmRun_stores hl hml.le hs hopen, drop_getD _ hml, State.stmRun, if_pos ⟨hm, between_of_break hbreak⟩, setProg_stay]
  · rw [← h0, ldmRun_loads hl (fun i hi => hregs i (mem_multiBits_zero hi)) le_rfl hs hopen, List.drop_length]
    rfl
  · rw [← h0, ldmRun_loads hl (fun i hi => hregs i (mem_multiBits_zero hi)) hml.le hs hopen, drop_getD _ hml, State.ldmRun,
      if_pos ⟨hm, between_of_break hbreak⟩, setProg_stay]

end Sys2Proof.Machine

namespace Sys2Proof

/-- Settles O18: by induction on the elements that have completed, then the end or the break. -/
theorem hodRepeats : Obligations.HodRepeats := ⟨Machine.hodRep, Machine.hodMulti⟩

end Sys2Proof
end

section
/-! SUPPORT. Thermal trips (R171, R172), and the grant of a tile port (R65). -/

namespace Sys2Proof.Machine

open Sys2Proof

/-! ### Trips -/

/-- A sensor that may trip: its zone's number and its own. -/
theorem trip_of_armed (s : State) (z k : Nat) (harmed : Tab.get false s.tripped (4 * z + k) = false)
    (hzone : 5 ≤ z ∨ s.bit .SYS_RAIL 0 14 = true) : ¬ (Tab.get false s.tripped (4 * z + k) = true ∨ (z < 5 ∧ ¬ s.bit .SYS_RAIL 0 14 = true)) := by
  rintro (h | ⟨hz, hrail⟩)
  · rw [harmed] at h
    exact absurd h Bool.false_ne_true
  · rcases hzone with h | h
    · omega
    · exact hrail h

/-! ### The grant -/

theorem foldl_max_init (f : Beat → Nat) (l : List Beat) (m : Nat) : l.foldl (fun m b => max m (f b)) m = max m (l.foldl (fun m b => max m (f b)) 0) := by
  induction l generalizing m with
  | nil => simp
  | cons a l ih =>
    rw [List.foldl_cons, List.foldl_cons, ih (max m (f a)), ih (max 0 (f a))]
    omega

/-- The fold finds a largest value of f. -/
theorem foldl_max_spec (f : Beat → Nat) (l : List Beat) :
    (∀ x ∈ l, f x ≤ l.foldl (fun m b => max m (f b)) 0) ∧ (l ≠ [] → ∃ x ∈ l, f x = l.foldl (fun m b => max m (f b)) 0) := by
  induction l with
  | nil => simp
  | cons a l ih =>
    obtain ⟨hle, hex⟩ := ih
    rw [List.foldl_cons, foldl_max_init, Nat.zero_max]
    refine ⟨fun x hx => ?_, fun _ => ?_⟩
    · rcases List.mem_cons.mp hx with rfl | hx
      · exact Nat.le_max_left _ _
      · exact (hle x hx).trans (Nat.le_max_right _ _)
    · by_cases hl : l = []
      · exact ⟨a, List.mem_cons_self, by simp [hl]⟩
      · obtain ⟨x, hx, heq⟩ := hex hl
        rcases Nat.le_total (l.foldl (fun m b => max m (f b)) 0) (f a) with h | h
        · exact ⟨a, List.mem_cons_self, by omega⟩
        · exact ⟨x, List.mem_cons_of_mem _ hx, by omega⟩

theorem mem_maxima {f : Beat → Nat} {l : List Beat} {b : Beat} : b ∈ maxima f l ↔ b ∈ l ∧ ∀ x ∈ l, f x ≤ f b := by
  obtain ⟨hle, hex⟩ := foldl_max_spec f l
  simp only [maxima, List.mem_filter, decide_eq_true_eq]
  refine and_congr_right fun hb => ⟨fun h => h ▸ hle, fun h => ?_⟩
  obtain ⟨x, hx, heq⟩ := hex (List.ne_nil_of_mem hb)
  exact Nat.le_antisymm (hle b hb) (heq ▸ h x hx)

theorem maxima_ne_nil {f : Beat → Nat} {l : List Beat} (h : l ≠ []) : maxima f l ≠ [] := by
  obtain ⟨x, hx, heq⟩ := (foldl_max_spec f l).2 h
  exact List.ne_nil_of_mem (mem_maxima.mpr ⟨hx, fun y hy => heq ▸ (foldl_max_spec f l).1 y hy⟩)

theorem maxima_waited (l : List Beat) : maxima (·.waited) l = l.filter fun b => l.all fun x => x.waited ≤ b.waited := by
  refine List.filter_congr fun b hb => ?_
  have h := mem_maxima (f := (·.waited)) (l := l) (b := b)
  simp only [maxima, List.mem_filter, hb, true_and, decide_eq_true_eq] at h
  rw [Bool.eq_iff_iff, decide_eq_true_eq, h]
  simp

/-- The contenders of R65 as the largest waits among the real-time or the aged beats. -/
theorem contenders_eq (s : State) (d : Die) (t : Nat) (l : List Beat) :
    let rt := l.filter fun b => b.rt && b.stream && decide (d = .c) && s.rtMask.testBit (t / 16)
    let aged := l.filter fun b => s.ageWait d b.master < b.waited
    contenders s d t l = if rt ≠ [] then maxima (·.waited) rt else if aged ≠ [] then maxima (·.waited) aged else l := by
  intro rt aged
  rw [maxima_waited, maxima_waited]
  cases d <;> rfl

/-- The beats among which priority decides are those of R65. -/
theorem grant_eq (s : State) (d : Die) (t : Nat) (l : List Beat) :
    s.grant d t l = s.byPriority d (t / 16) (s.tile d t).rr (contenders s d t l) := by
  have hrt : (if d = .c ∧ s.rtMask.testBit (tileGroup t) = true then l.filter (fun b => b.rt && b.stream) else []) =
      l.filter fun b => b.rt && b.stream && decide (d = .c) && s.rtMask.testBit (t / 16) := by
    unfold tileGroup
    split_ifs with h
    · simp [h]
    · refine (List.filter_eq_nil_iff.mpr fun b _ hb => h ?_).symm
      simp only [Bool.and_eq_true, decide_eq_true_eq] at hb
      exact ⟨hb.1.2, hb.2⟩
  rw [contenders_eq]
  unfold State.grant
  dsimp only
  rw [hrt]
  split_ifs <;> rfl

theorem contenders_ne_nil (s : State) (d : Die) (t : Nat) {l : List Beat} (h : l ≠ []) : contenders s d t l ≠ [] := by
  rw [contenders_eq]
  split_ifs with hrt haged
  · exact maxima_ne_nil hrt
  · exact maxima_ne_nil haged
  · exact h

theorem byPriority_dist (d : Die) (rr m : Nat) : masters d - (m + masters d - rr) % masters d = masters d - rrDistance d rr m := by
  cases d <;> rfl

theorem rrDistance_lt (d : Die) (rr m : Nat) : rrDistance d rr m < masters d := by
  cases d
  · exact Nat.mod_lt _ (by decide)
  · exact Nat.mod_lt _ (by decide)

end Sys2Proof.Machine

namespace Sys2Proof

open Sys2Proof.Machine

/-- Settles O21. -/
theorem trips : Obligations.Trips := by
  intro s z k key n max
  refine ⟨fun harmed hzone => ?_, fun htripped => congrArg Host.Outcome.next (if_pos (Or.inl htripped)), rfl, fun hwait => ?_⟩
  · have hgo := trip_of_armed s z k harmed (hzone.imp_left Eq.ge)
    exact ⟨fun hdown => congrArg Host.Outcome.next ((if_neg hgo).trans (if_pos (Or.inl hdown))),
      fun hup hseq => congrArg Host.Outcome.next ((if_neg hgo).trans (if_neg (not_or.mpr ⟨hup, hseq⟩)))⟩
  · exact congrArg Host.Outcome.next (if_pos hwait)

/-- Settles O28: the beats among which priority decides are the contenders, and each choice keeps the largest of a measure. -/
theorem tileGrant : Obligations.TileGrant := by
  intro s d t l hl prio dist
  rw [grant_eq, State.byPriority]
  set top := maxima (fun b => s.priority d b.master (t / 16)) (contenders s d t l) with htop
  have hne : maxima (fun b => masters d - (b.master + masters d - (s.tile d t).rr) % masters d) top ≠ [] :=
    maxima_ne_nil (maxima_ne_nil (contenders_ne_nil s d t hl))
  obtain ⟨b, rest, hb⟩ := List.exists_cons_of_ne_nil hne
  obtain ⟨hbtop, hnear⟩ := mem_maxima.mp (hb ▸ List.mem_cons_self : b ∈ maxima _ top)
  obtain ⟨hbl, hprio⟩ := mem_maxima.mp hbtop
  refine ⟨b, by rw [hb]; rfl, hbl, fun x hx => (Nat.lt_or_eq_of_le (hprio x hx)).imp_right fun heq => ⟨heq, ?_⟩⟩
  have hxtop : x ∈ top := mem_maxima.mpr ⟨hx, fun y hy => (hprio y hy).trans heq.ge⟩
  have hfar := hnear x hxtop
  rw [byPriority_dist, byPriority_dist] at hfar
  have hxlt := rrDistance_lt d (s.tile d t).rr x.master
  have hblt := rrDistance_lt d (s.tile d t).rr b.master
  show rrDistance d (s.tile d t).rr b.master ≤ rrDistance d (s.tile d t).rr x.master
  omega

end Sys2Proof
end

section
/-! SUPPORT. Warm resets, parking and wake (R392, R398 to R401). -/

namespace Sys2Proof.Machine

open Sys2Proof

/-- A key that no entry has. -/
theorem Tab.get_of_not_mem {α : Type} (d : α) (t : Tab α) (n : Nat) (h : ∀ e ∈ t, e.1 ≠ n) : Tab.get d t n = d := by
  induction t with
  | nil => rfl
  | cons e t ih =>
    obtain ⟨k, v⟩ := e
    have hk : n ≠ k := fun he => h _ List.mem_cons_self he.symm
    simp only [Tab.get, if_neg hk, ih fun e he => h e (List.mem_cons_of_mem _ he), ite_self]

theorem alwaysOn_contains (e : Nat × Word) : alwaysOn.contains e.1 = keptOn.any fun k => e.1 = k.addr 0 := by
  simp [alwaysOn, keptOn]

/-- A warm or field reset while the reference runs. -/
theorem warmReset_eq (s : State) (kind : ResetKind) (near : Bool) (h : s.bit .SYS_STAT 0 12 = false) :
    s.warmReset kind near = s.restarted kind near := by
  unfold State.warmReset State.restarted
  simp only [h, Bool.false_eq_true, if_false, alwaysOn_contains]
  rcases kind with _ | _ | _ | _ | _ <;> rfl

theorem bit_setReg_of_ne {s : State} (k l : RegKind) (i j b : Nat) (v : Word) (h : l.addr j ≠ k.addr i) : (s.setReg k i v).bit l j b = s.bit l j b := by
  exact congrArg (wbit · b) (reg_setReg_of_ne s k l i j v h)

/-- A bit of another register set. -/
theorem bit_setBit_of_ne {s : State} (k l : RegKind) (i j b n : Nat) (v : Bool) (h : l.addr j ≠ k.addr i) : (s.setBit k i n v).bit l j b = s.bit l j b :=
  bit_setReg_of_ne k l i j b _ h

/-- A start-up step set in SYS_STAT as it resets. -/
theorem clockBit_of_started (s : State) (h : s.reg .SYS_STAT 0 = RegKind.SYS_STAT.reset) : (s.setFld .SYS_STAT 0 3 0 2).bit .SYS_STAT 0 12 = false := by
  rw [State.bit, State.setFld, reg_setReg, h]
  decide

/-- No reset leaves the bit of a lost reference, where it runs. -/
theorem restarted_clockBit (s : State) (near : Bool) : (s.restarted .warm near).bit .SYS_STAT 0 12 = false := by
  have hkept (t : State) (ht : t.regs = s.regs.filter fun e => keptOn.any fun k => e.1 = k.addr 0) : t.reg .SYS_STAT 0 = RegKind.SYS_STAT.reset := by
    rw [State.reg, ht]
    refine Tab.get_of_not_mem _ _ _ fun e he hne => ?_
    have hany := (List.mem_filter.mp he).2
    rw [hne] at hany
    exact absurd hany (by decide)
  exact clockBit_of_started _ ((reg_setReg_of_ne _ _ _ _ _ _ (by decide)).trans (hkept _ rfl))

theorem wake_eq (s : State) (src : Nat) (h : s.bit .SYS_STAT 0 12 = false) :
    s.wake src = ((((s.recorded' 8).setReg .SYS_WAKE_SRC 0 (BitVec.ofNat 16 (2 ^ src))).power
      fun p => { p with parked := false, good := false }).restarted .warm false).power fun p => { p with fen := true } := by
  unfold State.wake
  dsimp only
  rw [warmReset_eq]
  · rfl
  · exact (bit_setReg_of_ne _ _ _ _ _ _ (by decide)).trans ((bit_setBit_of_ne _ _ _ _ _ _ _ (by decide)).trans h)

/-! ### What the loss of the C-die leaves of the power domain -/

theorem pw_of_calm {s t : State} (h : t.calm = s.calm) : t.pw = s.pw := congrArg (fun x => x.2.2.2.2.2.1) h

@[simp] theorem calm_evalCell (s : State) (c : Nat) : (s.evalCell c).calm = s.calm := by
  unfold State.evalCell
  dsimp only
  split_ifs <;> simp

@[simp] theorem calm_evalCells (s : State) : s.evalCells.calm = s.calm := calm_foldl _ _ _ fun t c => calm_evalCell t c

@[simp] theorem calm_enterAlone (s : State) (cause : Nat) : (s.enterAlone cause).calm = s.calm := by
  unfold State.enterAlone State.cellsAlone
  dsimp only
  split_ifs <;> simp

/-- A core that waits in TLBSYNC changes nothing but itself by going on. -/
theorem wakeTlb_eq (s : State) (c : CoreId) : s.wakeTlb c = { s with cores := (s.wakeTlb c).cores } := by
  unfold State.wakeTlb
  split_ifs <;> rfl

theorem wakeAll_eq (s : State) : s.wakeAll = { s with cores := s.wakeAll.cores } := by
  unfold State.wakeAll
  induction List.finRange 12 generalizing s with
  | nil => rfl
  | cons c l ih =>
    rw [List.foldl_cons, ih (s.wakeTlb c), wakeTlb_eq s c]

@[simp] theorem pw_setReg (s : State) (k : RegKind) (i : Nat) (v : Word) : (s.setReg k i v).pw = s.pw := rfl
@[simp] theorem pw_setFld (s : State) (k : RegKind) (i hi lo n : Nat) : (s.setFld k i hi lo n).pw = s.pw := rfl
@[simp] theorem pw_setBit (s : State) (k : RegKind) (i b : Nat) (v : Bool) : (s.setBit k i b v).pw = s.pw := rfl

@[simp] theorem pw_foldl_setReg (k : RegKind) (l : List Nat) (v : Word) (s : State) : (l.foldl (fun s m => s.setReg k m v) s).pw = s.pw := by
  induction l generalizing s with
  | nil => rfl
  | cons b l ih => exact ih _

theorem pw_cGone (s : State) : s.loseBricks.cGone.pw = { s.pw with cClock := false, cBist := false, cReset := true, fromShadow := s.lay.haveShadow } := rfl

theorem pw_cLost (s : State) : s.cLost.pw = { s.pw with cClock := false, cBist := false, cReset := true, fromShadow := s.lay.haveShadow } := by
  unfold State.cLost
  extract_lets s2 s3 s4
  rw [pw_setBit, pw_foldl_setReg, pw_setFld, pw_setBit, pw_setBit, pw_setFld, pw_setReg]
  exact (congrArg State.pw (wakeAll_eq _)).trans (pw_cGone s)

theorem parking_endCompute (s : State) (cause : Nat) : (s.endCompute cause).pw.parking = s.pw.parking := by
  unfold State.endCompute
  dsimp only
  split_ifs
  · rw [pw_of_calm (calm_enterAlone _ _), pw_cLost]
  · rw [pw_cLost]

theorem parking_tryRaise (s : State) : s.tryRaise.pw.parking = s.pw.parking := by
  unfold State.tryRaise
  split_ifs <;> rfl

theorem parking_railOff (s : State) : s.railOff.pw.parking = s.pw.parking := by
  unfold State.railOff
  dsimp only
  split_ifs
  · exact parking_tryRaise _
  · exact parking_tryRaise _
  · rfl
  · rfl

theorem parking_dropC (s : State) (cause : Nat) : (s.dropC cause).pw.parking = s.pw.parking := by
  unfold State.dropC
  dsimp only
  split_ifs
  · rfl
  · exact (parking_railOff _).trans ((congrArg Power.parking (pw_of_calm (calm_enterAlone _ _))).trans (parking_endCompute s cause))
  · exact (parking_railOff _).trans (parking_endCompute s cause)

/-- Output cells set back. -/
theorem cells_foldl_setCell (l : List Nat) (s : State) (n : Nat) (h : n ∈ l ∨ Tab.get {} s.cells n = ({} : Cell)) :
    Tab.get {} (l.foldl (fun s c => s.setCell c {}) s).cells n = ({} : Cell) := by
  induction l generalizing s with
  | nil => simpa using h
  | cons a l ih =>
    refine ih _ ?_
    by_cases ha : n = a
    · exact Or.inr (ha ▸ Tab.get_set_self _ _ _ _)
    · refine h.imp (fun hm => (List.mem_cons.mp hm).resolve_left ha) fun hg => ?_
      exact (Tab.get_set_of_ne _ ha _ _).trans hg

theorem foldl_setCell_eq (l : List Nat) (s : State) :
    l.foldl (fun s c => s.setCell c {}) s = { s with cells := (l.foldl (fun s c => s.setCell c {}) s).cells } := by
  induction l generalizing s with
  | nil => rfl
  | cons a l ih => exact ih (s.setCell a {})

theorem pw_foldl_setCell (l : List Nat) (s : State) : (l.foldl (fun s c => s.setCell c {}) s).pw = s.pw := by
  induction l generalizing s with
  | nil => rfl
  | cons a l ih => exact ih (s.setCell a {})

/-- Park entry begins. -/
theorem park_exec {s : State} {v : Word} (hv : v = 0x9A6E) (hpark : s.pw.parking = false) :
    exec (.park v) s = .next ((upto 64).foldl (fun s c => s.setCell c {}) ((s.power fun p => { p with parking := true }).dropC 2)) := by
  have hgo : ¬ (v ≠ 0x9A6E ∨ s.pw.parking = true) := not_or.mpr ⟨not_not.mpr hv, ne_true_of_eq_false hpark⟩
  exact congrArg Host.Outcome.next (if_neg hgo)

end Sys2Proof.Machine

namespace Sys2Proof

open Sys2Proof.Machine

/-- Settles O22. -/
theorem clocksAndParking : Obligations.ClocksAndParking := by
  intro s v pin lvl woken
  refine ⟨rfl, ?_, rfl, rfl, fun hv hpark => ?_, fun hv => congrArg Host.Outcome.next (if_pos (Or.inl hv)), ?_, fun hen hlvl => ?_⟩
  · intro n hrun hquiet
    refine congrArg Host.Outcome.next ((if_neg (not_not.mpr hrun)).trans ?_)
    dsimp only
    split
    · next h =>
      obtain ⟨halarm, heq⟩ := h
      obtain ⟨hparked, hparking⟩ := (hquiet.resolve_left (by simp [halarm])).resolve_left (not_not.mpr heq)
      refine (if_neg ?_).trans (if_neg ?_)
      · exact ne_true_of_eq_false hparked
      · exact fun h => absurd (h.1.symm.trans hparking) Bool.noConfusion
    · rfl
  · have hgo := park_exec hv hpark
    have hu : ((s.power fun p => { p with parking := true }).dropC 2).pw.parking = true := parking_dropC _ _
    generalize (s.power fun p => { p with parking := true }).dropC 2 = u at hgo hu
    exact ⟨_, hgo, (pw_foldl_setCell _ u).symm ▸ hu, fun n hn => cells_foldl_setCell _ _ n (Or.inl (List.mem_range.mpr hn)), foldl_setCell_eq _ _⟩
  · intro off hparking hclock
    have hoff : s.warmReset .warm false = s.restarted .warm false := warmReset_eq s .warm false hclock
    refine ⟨fun hlatch => congrArg Host.Outcome.next ((if_neg (not_not.mpr hparking)).trans ?_),
      fun src hlatch => congrArg Host.Outcome.next ((if_neg (not_not.mpr hparking)).trans ?_)⟩
    · rw [hoff, hlatch]
      rfl
    · rw [hoff, hlatch]
      exact wake_eq off src (restarted_clockBit s false)
  · have hon : s.bit .SYS_WAKE_CFG 0 (8 + pin) = true ∧ s.bit .SYS_WAKE_CFG 0 pin = lvl := ⟨hen, hlvl⟩
    refine ⟨fun hparked hclock => congrArg Host.Outcome.next ((if_pos hon).trans ((if_pos hparked).trans (wake_eq s _ hclock))),
      fun hparked hparking hlatch => congrArg Host.Outcome.next ((if_pos hon).trans ((if_neg (ne_true_of_eq_false hparked)).trans (if_pos ⟨hparking, hlatch⟩))),
      fun hparked hparking => congrArg Host.Outcome.next ((if_pos hon).trans ((if_neg (ne_true_of_eq_false hparked)).trans (if_neg ?_)))⟩
    exact fun h => absurd (h.1.symm.trans hparking) Bool.noConfusion

end Sys2Proof
end

section
/-! SUPPORT. The rail sequencer and the loss of the C-die (R114, R172, R173, R386, R389, R391, R392). -/

namespace Sys2Proof.Machine

open Sys2Proof

/-! ### Fields of a register word -/

/-- A word with a field replaced: the parts above, in and below the field. -/
theorem putFld_parts (w : Word) (hi lo n : Nat) (hlo : lo ≤ hi) (hhi : hi < 16) :
    (putFld w hi lo n).toNat =
      2 ^ lo * (2 ^ (hi + 1 - lo) * (w.toNat / 2 ^ lo / 2 ^ (hi + 1 - lo)) + n % 2 ^ (hi + 1 - lo)) + w.toNat % 2 ^ lo := by
  have hw := w.isLt
  have hx : w.toNat = 2 ^ lo * (w.toNat / 2 ^ lo) + w.toNat % 2 ^ lo := (Nat.div_add_mod _ _).symm
  have hq : w.toNat / 2 ^ lo = 2 ^ (hi + 1 - lo) * (w.toNat / 2 ^ lo / 2 ^ (hi + 1 - lo)) + w.toNat / 2 ^ lo % 2 ^ (hi + 1 - lo) :=
    (Nat.div_add_mod _ _).symm
  have hn : n % 2 ^ (hi + 1 - lo) < 2 ^ (hi + 1 - lo) := Nat.mod_lt _ (by positivity)
  have hr : w.toNat % 2 ^ lo < 2 ^ lo := Nat.mod_lt _ (by positivity)
  have hpow : 2 ^ lo * (2 ^ (hi + 1 - lo) * 2 ^ (15 - hi)) = 65536 := by
    rw [← pow_add, ← pow_add, show lo + (hi + 1 - lo + (15 - hi)) = 16 by omega]
    rfl
  rw [putFld_toNat]
  set q := w.toNat / 2 ^ lo
  set r := w.toNat % 2 ^ lo
  set a := q / 2 ^ (hi + 1 - lo)
  set f := q % 2 ^ (hi + 1 - lo)
  set m := n % 2 ^ (hi + 1 - lo)
  have ha : a < 2 ^ (15 - hi) := by
    rw [Nat.div_lt_iff_lt_mul (by positivity), Nat.div_lt_iff_lt_mul (by positivity)]
    calc w.toNat < 65536 := hw
      _ = 2 ^ (15 - hi) * 2 ^ (hi + 1 - lo) * 2 ^ lo := by rw [← hpow]; ring
  have hsub : w.toNat - f * 2 ^ lo + m * 2 ^ lo = 2 ^ lo * (2 ^ (hi + 1 - lo) * a + m) + r := by
    have : w.toNat = 2 ^ lo * (2 ^ (hi + 1 - lo) * a) + f * 2 ^ lo + r := by
      conv_lhs => rw [hx, hq]
      ring
    have hm : 2 ^ lo * (2 ^ (hi + 1 - lo) * a + m) = 2 ^ lo * (2 ^ (hi + 1 - lo) * a) + m * 2 ^ lo := by ring
    omega
  rw [hsub]
  refine Nat.mod_eq_of_lt ?_
  calc 2 ^ lo * (2 ^ (hi + 1 - lo) * a + m) + r < 2 ^ lo * (2 ^ (hi + 1 - lo) * a + m) + 2 ^ lo := by omega
    _ = 2 ^ lo * (2 ^ (hi + 1 - lo) * a + (m + 1)) := by ring
    _ ≤ 2 ^ lo * (2 ^ (hi + 1 - lo) * a + 2 ^ (hi + 1 - lo)) := by gcongr; omega
    _ = 2 ^ lo * (2 ^ (hi + 1 - lo) * (a + 1)) := by ring
    _ ≤ 2 ^ lo * (2 ^ (hi + 1 - lo) * 2 ^ (15 - hi)) := by gcongr; omega
    _ = 65536 := hpow

/-- The bits of a word with a field replaced. -/
theorem wbit_putFld (w : Word) (hi lo n b : Nat) (hlo : lo ≤ hi) (hhi : hi < 16) :
    wbit (putFld w hi lo n) b = if lo ≤ b ∧ b ≤ hi then n.testBit (b - lo) else wbit w b := by
  have hr : w.toNat % 2 ^ lo < 2 ^ lo := Nat.mod_lt _ (by positivity)
  have hn : n % 2 ^ (hi + 1 - lo) < 2 ^ (hi + 1 - lo) := Nat.mod_lt _ (by positivity)
  rw [wbit, wbit, BitVec.getLsbD, BitVec.getLsbD, putFld_parts w hi lo n hlo hhi, Nat.testBit_two_pow_mul_add _ hr, Nat.testBit_two_pow_mul_add _ hn]
  by_cases hb : b < lo
  · rw [if_pos hb, if_neg (by omega), Nat.testBit_mod_two_pow]
    simp [hb]
  · rw [if_neg hb]
    by_cases hb' : b - lo < hi + 1 - lo
    · rw [if_pos hb', if_pos (by omega), Nat.testBit_mod_two_pow]
      simp [hb']
    · rw [if_neg hb', if_neg (by omega), Nat.testBit_div_two_pow, Nat.testBit_div_two_pow]
      congr 1
      omega

/-- A field read back. -/
theorem wfld_putFld (w : Word) (hi lo n : Nat) (hlo : lo ≤ hi) (hhi : hi < 16) : wfld (putFld w hi lo n) hi lo = n % 2 ^ (hi + 1 - lo) := by
  have hr : w.toNat % 2 ^ lo < 2 ^ lo := Nat.mod_lt _ (by positivity)
  rw [wfld_eq, putFld_parts w hi lo n hlo hhi, Nat.mul_add_div (by positivity), Nat.div_eq_of_lt hr, Nat.add_zero, Nat.mul_add_mod, Nat.mod_mod]

/-- A field away from the one replaced. -/
theorem wfld_putFld_of_disjoint (w : Word) (hi lo n hi' lo' : Nat) (hlo : lo ≤ hi) (hhi : hi < 16) (h : hi' < lo ∨ hi < lo') :
    wfld (putFld w hi lo n) hi' lo' = wfld w hi' lo' := by
  refine Nat.eq_of_testBit_eq fun j => ?_
  have hbit := wbit_putFld w hi lo n (lo' + j) hlo hhi
  rw [wbit, wbit, BitVec.getLsbD, BitVec.getLsbD] at hbit
  rw [wfld_eq, wfld_eq, Nat.testBit_mod_two_pow, Nat.testBit_mod_two_pow, Nat.testBit_div_two_pow, Nat.testBit_div_two_pow, Nat.add_comm j lo', hbit]
  by_cases hj : j < hi' + 1 - lo'
  · rw [if_neg (by omega)]
  · simp [hj]

/-! ### What the loss of the C-die leaves and changes -/

/-- Only registers differ. -/
def RegsOnly (s t : State) : Prop := ∃ r, t = { s with regs := r }

theorem RegsOnly.eq {s t : State} (h : RegsOnly s t) : t = { s with regs := t.regs } := by
  obtain ⟨r, rfl⟩ := h
  rfl

theorem RegsOnly.refl (s : State) : RegsOnly s s := ⟨s.regs, rfl⟩

theorem RegsOnly.setReg {s t : State} (h : RegsOnly s t) (k : RegKind) (i : Nat) (v : Word) : RegsOnly s (t.setReg k i v) := by
  obtain ⟨r, rfl⟩ := h
  exact ⟨_, rfl⟩

theorem RegsOnly.setBit {s t : State} (h : RegsOnly s t) (k : RegKind) (i b : Nat) (v : Bool) : RegsOnly s (t.setBit k i b v) := h.setReg k i _

theorem RegsOnly.setFld {s t : State} (h : RegsOnly s t) (k : RegKind) (i hi lo n : Nat) : RegsOnly s (t.setFld k i hi lo n) := h.setReg k i _

theorem RegsOnly.foldl {β : Type} {s t : State} (f : State → β → State) (l : List β) (hf : ∀ u b, RegsOnly s u → RegsOnly s (f u b)) (h : RegsOnly s t) :
    RegsOnly s (l.foldl f t) := by
  induction l generalizing t with
  | nil => exact h
  | cons b l ih => exact ih (hf t b h)

theorem reg_foldl_setReg_of_ne (k m : RegKind) (l : List Nat) (v : Word) (s : State) (j : Nat) (h : ∀ i ∈ l, m.addr j ≠ k.addr i) :
    (l.foldl (fun s m => s.setReg k m v) s).reg m j = s.reg m j := by
  induction l generalizing s with
  | nil => rfl
  | cons b l ih => exact (ih _ fun i hi => h i (List.mem_cons_of_mem _ hi)).trans (reg_setReg_of_ne s k m b j v (h b List.mem_cons_self))

/-- Past the loss of what the C-die held, only registers change. -/
theorem cLost_regsOnly (s : State) : RegsOnly s.loseBricks.cGone.wakeAll s.cLost :=
  (RegsOnly.foldl (fun (s : State) m => s.setReg .MT_STAT m 0) (upto 4) (fun _ _ h => h.setReg _ _ _)
    (((((RegsOnly.refl _).setReg _ _ _).setFld _ _ _ _ _).setBit _ _ _ _ |>.setBit _ _ _ _).setFld _ _ _ _ _)).setBit _ _ _ _

theorem RegsOnly.eq_of_cores {a b t : State} (h : RegsOnly b t) {x : Vector Core 12} (hb : b = { a with cores := x }) :
    t = { a with regs := t.regs, cores := x } := by
  subst hb
  exact h.eq

theorem cLost_eq (s : State) : s.cLost = { s.loseBricks.cGone with regs := s.cLost.regs, cores := s.loseBricks.cGone.wakeAll.cores } :=
  (cLost_regsOnly s).eq_of_cores (wakeAll_eq _)

/-- A core as it is once it may go on behind its TLBSYNC. -/
def State.woken (s : State) (e : CoreId) : Core :=
  if (s.core e).run = .waitTlb ∧ ¬ s.tlbiOpen e = true then { s.core e with run := .running, pc := (s.core e).pc + 1 } else s.core e

theorem core_wakeTlb_self (s : State) (c : CoreId) : (s.wakeTlb c).core c = s.woken c := by
  unfold State.wakeTlb State.woken
  split_ifs
  · exact core_setCore s c _
  · rfl

theorem core_wakeTlb_of_ne (s : State) {c e : CoreId} (h : e ≠ c) : (s.wakeTlb c).core e = s.core e := by
  unfold State.wakeTlb
  split_ifs
  · exact core_modCore_of_ne s c e _ h
  · rfl

theorem woken_wakeTlb_of_ne (s : State) {c e : CoreId} (h : e ≠ c) : (s.wakeTlb c).woken e = s.woken e := by
  have hopen : (s.wakeTlb c).tlbiOpen e = s.tlbiOpen e := by rw [wakeTlb_eq]; rfl
  unfold State.woken
  rw [core_wakeTlb_of_ne s h, hopen]

theorem core_foldl_wakeTlb (l : List CoreId) (s : State) (e : CoreId) (hl : l.Nodup) :
    (l.foldl (fun s c => s.wakeTlb c) s).core e = if e ∈ l then s.woken e else s.core e := by
  induction l generalizing s with
  | nil => simp
  | cons c l ih =>
    obtain ⟨hc, hl⟩ := List.nodup_cons.mp hl
    rw [List.foldl_cons, ih (s.wakeTlb c) hl]
    by_cases he : e = c
    · rw [he, if_neg hc, if_pos List.mem_cons_self, core_wakeTlb_self]
    · rw [woken_wakeTlb_of_ne s he, core_wakeTlb_of_ne s he]
      simp [he]

theorem core_wakeAll (s : State) (e : CoreId) : s.wakeAll.core e = s.woken e := by
  rw [State.wakeAll, core_foldl_wakeTlb _ _ _ (List.nodup_finRange 12), if_pos (List.mem_finRange e)]

theorem tlbiOpen_iff (s : State) (e : CoreId) :
    s.tlbiOpen e = true ↔ ∃ q ∈ s.tlbis, q.issuer = e.val ∧ ¬ (q.toReceive = [] ∧ q.toAck = []) := by
  simp only [State.tlbiOpen, List.any_eq_true, Bool.and_eq_true, decide_eq_true_eq, Bool.not_eq_true', Bool.and_eq_false_iff,
    List.isEmpty_eq_false_iff, not_and_or, ne_eq]

theorem core_cGone (s : State) (c : CoreId) : s.loseBricks.cGone.core c = if c.val < 8 then freshCore c else s.core c := Vector.getElem_ofFn _

theorem core_congr {s t : State} (h : s.cores = t.cores) (c : CoreId) : s.core c = t.core c := by rw [State.core, State.core, h]

theorem tlbiOpen_congr {s t : State} (h : s.tlbis = t.tlbis) (c : CoreId) : s.tlbiOpen c = t.tlbiOpen c := by rw [State.tlbiOpen, State.tlbiOpen, h]

/-- What a core is after the loss of the C-die. -/
theorem core_cLost (s : State) (c : CoreId) : s.cLost.core c = if c.val < 8 then freshCore c
    else if (s.core c).run = .waitTlb ∧ ¬ s.cLost.tlbiOpen c = true then { s.core c with run := .running, pc := (s.core c).pc + 1 } else s.core c := by
  have hcores : s.cLost.cores = s.loseBricks.cGone.wakeAll.cores := by rw [cLost_eq]
  have htlbis : s.cLost.tlbis = s.loseBricks.cGone.tlbis := by rw [cLost_eq]
  rw [core_congr hcores, tlbiOpen_congr htlbis, core_wakeAll, State.woken, core_cGone]
  by_cases hc : c.val < 8
  · rw [if_pos hc, if_pos hc]
    exact if_neg fun h => absurd h.1 (by simp [freshCore])
  · rw [if_neg hc, if_neg hc]

/-- The requests that outlive the C-die are the F-die's, and go to the F-die only. -/
theorem tlbis_cLost (s : State) (q : TlbiReq) (hq : q ∈ s.cLost.tlbis) :
    8 ≤ q.issuer ∧ Receiver.stream ∉ q.toReceive ++ q.toAck ∧ ∀ c : CoreId, c.val < 8 → Receiver.core c ∉ q.toReceive ++ q.toAck := by
  have htlbis : s.cLost.tlbis = s.loseBricks.cGone.tlbis := by rw [cLost_eq]
  rw [htlbis] at hq
  obtain ⟨hq, -⟩ := List.mem_filter.mp hq
  obtain ⟨r, hr, rfl⟩ := List.mem_map.mp hq
  have hissuer := (List.mem_filter.mp hr).2
  refine ⟨of_decide_eq_true hissuer, ?_, fun c hc => ?_⟩
  · simp [receiverF]
  · simp [receiverF, hc]

theorem bit_congr {s t : State} (h : s.regs = t.regs) (k : RegKind) (i b : Nat) : s.bit k i b = t.bit k i b := by
  rw [State.bit, State.bit, State.reg, State.reg, h]

theorem bit_setBit_self (s : State) (k : RegKind) (i b : Nat) (v : Bool) (hb : b < 16) : (s.setBit k i b v).bit k i b = v := by
  rw [State.bit, State.setBit, reg_setReg, wbit_putBit _ _ _ _ hb, if_pos rfl]

theorem bit_setBit_of_ne_bit (s : State) (k : RegKind) (i b n : Nat) (v : Bool) (hn : n < 16) (h : b ≠ n) : (s.setBit k i n v).bit k i b = s.bit k i b := by
  rw [State.bit, State.setBit, reg_setReg, wbit_putBit _ _ _ _ hn, if_neg h]
  rfl

theorem bit_setFld_of_not_mem (s : State) (k : RegKind) (i hi lo n b : Nat) (hlo : lo ≤ hi) (hhi : hi < 16) (h : ¬ (lo ≤ b ∧ b ≤ hi)) :
    (s.setFld k i hi lo n).bit k i b = s.bit k i b := by
  rw [State.bit, State.setFld, reg_setReg, wbit_putFld _ _ _ _ _ hlo hhi, if_neg h]
  rfl

/-- The C-die is no longer laid out (R392). -/
theorem cLost_notLaid (s : State) : s.cLost.bit .BIMG_STATUS 0 13 = false := by
  unfold State.cLost
  extract_lets s2 s3 s4
  have hfar : ∀ i ∈ upto 4, RegKind.BIMG_STATUS.addr 0 ≠ RegKind.MT_STAT.addr i := by decide
  rw [bit_setBit_of_ne _ _ _ _ _ _ _ (by decide), State.bit, reg_foldl_setReg_of_ne _ _ _ _ _ _ hfar]
  exact (bit_setFld_of_not_mem _ _ _ _ _ _ _ (by decide) (by decide) (by decide)).trans
    ((bit_setBit_of_ne_bit _ _ _ _ _ _ (by decide) (by decide)).trans (bit_setBit_self _ _ _ _ _ (by decide)))

theorem regs_driveCell (s : State) (c slot : Nat) : (s.driveCell c slot).regs = s.regs := by
  unfold State.driveCell
  extract_lets x l l'
  split_ifs <;> rfl

/-- The cells act on field-alone mode, and no register with them. -/
theorem regs_evalCells (s : State) : s.evalCells.regs = s.regs := by
  unfold State.evalCells
  induction upto 64 generalizing s with
  | nil => rfl
  | cons c l ih =>
    refine (ih _).trans ((regs_driveCell _ _ _).trans ?_)
    split_ifs <;> rfl

theorem enterAlone_alone (s : State) (cause : Nat) : (s.enterAlone cause).bit .SYS_STAT 0 13 = true := by
  have hset : ((s.setFld .SYS_STAT 0 6 4 cause).setBit .SYS_STAT 0 13 true).bit .SYS_STAT 0 13 = true := bit_setBit_self _ _ _ _ _ (by decide)
  unfold State.enterAlone
  dsimp only
  split_ifs
  · exact hset
  · rw [State.cellsAlone, State.bit, State.reg, regs_evalCells]
    exact (bit_setBit_of_ne _ _ _ _ _ _ _ (by decide)).trans hset

theorem cDieLoss : Rules.CDieLoss := by
  intro s t
  have ht : t = { s.loseBricks.cGone with regs := t.regs, cores := s.loseBricks.cGone.wakeAll.cores } := cLost_eq s
  refine ⟨fun c => ?_, tlbis_cLost s, ?_⟩
  · rw [core_cLost, core_reset]
    simp only [tlbiOpen_iff]
    rfl
  · have hend : s.pw.computeSeen = false → s.endCompute 6 = t := fun h => if_neg (ne_true_of_eq_false h)
    have halone (cause : Nat) (h : s.pw.computeSeen = true) : (s.endCompute cause).bit .SYS_STAT 0 13 = true :=
      (congrArg (fun u : State => u.bit .SYS_STAT 0 13) (if_pos h)).trans (enterAlone_alone _ _)
    have hready : t.bit .SYS_STAT 0 14 = false := bit_setBit_self _ _ _ _ _ (by decide)
    have hlaid : t.bit .BIMG_STATUS 0 13 = false := cLost_notLaid s
    generalize s.loseBricks.cGone.wakeAll.cores = x at ht
    generalize t.regs = r at ht
    clear_value t
    subst ht
    exact ⟨rfl, rfl, rfl, rfl, rfl, rfl, rfl, rfl, rfl, rfl, rfl, rfl, rfl, rfl, rfl, rfl, rfl, rfl, rfl, rfl, rfl, hready, hlaid, hend, halone⟩

/-! ### The rail sequencer -/

/-- A write of SYS_RAIL takes bit 15 alone. -/
theorem writtenWord_rail (sealed : Bool) (old v : Word) : writtenWord .SYS_RAIL sealed old v = (old &&& 0x7FFF) ||| (v &&& 0x8000) := by
  have hrw : RegKind.SYS_RAIL.rw = 0x8000 := rfl
  have hrwl : RegKind.SYS_RAIL.rwl = 0 := rfl
  have hw1c : RegKind.SYS_RAIL.w1c = 0 := rfl
  have hones (x : Word) : x &&& ~~~(0 &&& v) = x := by
    rw [show (0 &&& v : Word) = 0#16 from BitVec.zero_and, BitVec.not_zero, BitVec.and_allOnes]
  rw [writtenWord, hrw, hrwl, hw1c, hones]
  cases sealed <;> simp

theorem railRequest_exec (s : State) (v : Word) :
    let a := s.setReg .SYS_RAIL 0 ((s.reg .SYS_RAIL 0 &&& 0x7FFF) ||| (v &&& 0x8000))
    exec (.railRequest v) s = .next (if v.getLsbD 15 then a.tryRaise else if s.pw.seq = .idle then a.dropC 2 else a) := by
  intro a
  refine congrArg Host.Outcome.next ?_
  rw [State.writeRail, writtenWord_rail]
  rfl

theorem tripBit_railDone (s : State) : ((s.setBit .SYS_RAIL 0 14 true).setBit .SYS_RAIL 0 13 false).bit .FKILN_STAT 0 15 = s.bit .FKILN_STAT 0 15 :=
  (bit_setBit_of_ne _ _ _ _ _ _ _ (by decide)).trans (bit_setBit_of_ne _ _ _ _ _ _ _ (by decide))

/-- The last rail is up: the near memories hold zeros, the sequencer rests. -/
def State.railsDone (s : State) : State :=
  ({ s with mem := { s.mem with hcNear := [], eccHc := [] }, pw := { s.pw with seq := .idle } }.setBit .SYS_RAIL 0 14 true).setBit .SYS_RAIL 0 13 false

theorem tripBit_railsDone (s : State) : s.railsDone.bit .FKILN_STAT 0 15 = s.bit .FKILN_STAT 0 15 :=
  tripBit_railDone { s with mem := { s.mem with hcNear := [], eccHc := [] }, pw := { s.pw with seq := .idle } }

/-- The last rail up, while the C-die is wanted and no trip is remembered. -/
theorem railsUp_of_wanted (s : State) (temps : List (Option Word)) (hw : s.railsDone.cWanted = true) (htrip : s.bit .FKILN_STAT 0 15 = false) :
    s.railsUp temps = ((s.railsDone.setBit .FKILN_STAT 0 15 false).setFld .SYS_STAT 0 3 0 6).power fun p => { p with cReset := false } := by
  have hcold : ¬ (s.railsDone.bit .FKILN_STAT 0 15 = true ∧ s.railsDone.tooHot temps = true) := by simp [tripBit_railsDone, htrip]
  exact (if_neg fun h => h.1 hw).trans (if_neg hcold)

theorem dropC_of_idle (s : State) (cause : Nat) (h : s.pw.seq = .idle) :
    s.dropC cause = if s.railsRaised = 0 then s
      else if s.pw.computeSeen = false ∧ s.bit .SYS_STAT 0 15 = true then ((s.endCompute cause).enterAlone cause).removeRails
      else (s.endCompute cause).removeRails := by
  have hseq : s.pw.seq ≠ .removing := by simp [h]
  unfold State.dropC
  simp only [hseq, or_false, Bool.not_eq_true]
  split_ifs <;> rfl

theorem rails : Rules.Rails := by
  intro s r v temps up down off
  refine ⟨fun h => ?_, fun h1 h2 h3 => ?_, ?_, fun h => ?_, fun h1 h2 => ?_, fun h => ?_, fun h => ?_, ?_, fun h1 h2 h3 => ?_⟩
  · exact congrArg Host.Outcome.next (if_neg fun hc => h hc.1)
  · exact congrArg Host.Outcome.next ((if_pos ⟨h1, h2⟩).trans (if_pos h3))
  · intro a h1 h2 hw htrip
    refine congrArg Host.Outcome.next ((if_pos ⟨h1, h2⟩).trans ((if_neg (by decide)).trans ?_))
    exact railsUp_of_wanted (s.setBit .SYS_RAIL 0 11 true) temps hw ((bit_setBit_of_ne _ _ _ _ _ _ _ (by decide)).trans htrip)
  · exact congrArg Host.Outcome.next (if_neg fun hc => h hc.1)
  · exact congrArg Host.Outcome.next (if_pos ⟨h1, h2⟩)
  · exact congrArg Host.Outcome.next (if_pos h)
  · exact congrArg Host.Outcome.next (if_neg (not_not.mpr h))
  · intro a
    have hexec := railRequest_exec s v
    refine ⟨fun hv hw hseq hn => hexec.trans (congrArg Host.Outcome.next ((if_pos hv).trans (if_pos ⟨hseq, hn, hw⟩))),
      fun hv hno => hexec.trans (congrArg Host.Outcome.next ((if_pos hv).trans (if_neg ?_))),
      fun hv hseq => hexec.trans (congrArg Host.Outcome.next ((if_neg (ne_true_of_eq_false hv)).trans ((if_pos hseq).trans ?_))),
      fun hv hseq => hexec.trans (congrArg Host.Outcome.next ((if_neg (ne_true_of_eq_false hv)).trans (if_neg hseq)))⟩
    · rintro ⟨h1, h2, h3⟩
      rcases hno with h | h | h
      · exact h h1
      · exact h h2
      · exact absurd (h3.symm.trans h) Bool.noConfusion
    · have hseq' : a.pw.seq = .idle := hseq
      have hstat : a.bit .SYS_STAT 0 15 = s.bit .SYS_STAT 0 15 := bit_setReg_of_ne _ _ _ _ _ _ (by decide)
      have hseen : a.pw.computeSeen = s.pw.computeSeen := rfl
      rw [dropC_of_idle a 2 hseq', hstat, hseen]
  · exact congrArg Host.Outcome.next (if_pos ⟨h1, ne_true_of_eq_false h2, ne_true_of_eq_false h3⟩)

end Sys2Proof.Machine

namespace Sys2Proof

/-- Settles O25. -/
theorem railsAndLoss : Obligations.RailsAndLoss := ⟨Machine.rails, Machine.cDieLoss⟩

end Sys2Proof
end

section
/-! SUPPORT. Resets of the device, of the C-die and of single cores; watchdogs (R306, R378, R389, R392 to R395). -/

namespace Sys2Proof.Machine

open Sys2Proof

/-! ### Resets of the whole device -/

/-- No reset is in progress that a request of kind k yields to. -/
theorem request_of_free {s : State} {k : ResetKind} {f : State → State} (h : ∀ r, s.pw.resetting = some r → r.rank ≤ k.rank) : s.request k f = f s := by
  unfold State.request
  split
  · next r hr => exact if_pos (h r hr)
  · rfl

theorem request_of_powerOn {s : State} {k : ResetKind} {f : State → State} (h : s.pw.resetting = some .powerOn) (hk : k.rank < 4) :
    s.request k f = s := by
  rw [State.request, h]
  exact if_neg (Nat.not_le.mpr hk)

/-- A reset cause leaves the bit of a lost reference. -/
theorem clockBit_recorded (s : State) (b : Nat) : (s.recorded' b).bit .SYS_STAT 0 12 = s.bit .SYS_STAT 0 12 := bit_setBit_of_ne _ _ _ _ _ _ _ (by decide)

theorem warmRequest_of_free {s : State} {k : ResetKind} {near : Bool} (hpark : s.pw.parked = false) (hclock : s.bit .SYS_STAT 0 12 = false)
    (h : ∀ r, s.pw.resetting = some r → r.rank ≤ k.rank) : s.warmRequest k near = s.restarted k near :=
  (if_neg (ne_true_of_eq_false hpark)).trans ((request_of_free h).trans (warmReset_eq s k near hclock))

theorem warmRequest_of_powerOn {s : State} {k : ResetKind} {near : Bool} (hpark : s.pw.parked = false) (h : s.pw.resetting = some .powerOn)
    (hk : k.rank < 4) : s.warmRequest k near = s :=
  (if_neg (ne_true_of_eq_false hpark)).trans (request_of_powerOn h hk)

theorem cDieReset_of_free {s : State} (h : ∀ r, s.pw.resetting = some r → r.rank ≤ 1) (hrail : s.bit .SYS_RAIL 0 14 = true) :
    s.cDieReset = s.cRestarted := by
  refine (request_of_free h).trans ((if_neg (not_not.mpr hrail)).trans ?_)
  rw [State.relayoutEn, State.cRestarted]
  by_cases hp : s.param 1430 = 1
  · exact (if_pos (decide_eq_true hp)).trans (if_pos hp).symm
  · exact (if_neg fun h => hp (of_decide_eq_true h)).trans (if_neg hp).symm

theorem rank_of_mem {l : List ResetKind} {n : Nat} (hl : ∀ r ∈ l, r.rank ≤ n) {x : Option ResetKind} (h : ∀ r, x = some r → r ∈ l) :
    ∀ r, x = some r → r.rank ≤ n := fun r hr => hl r (h r hr)

theorem resets : Rules.Resets := by
  intro s sel free warm field die clocked
  have hwarm (h : warm) : ∀ r, s.pw.resetting = some r → r.rank ≤ ResetKind.warm.rank := rank_of_mem (by decide) h
  have hfield (h : field) : ∀ r, s.pw.resetting = some r → r.rank ≤ ResetKind.field.rank := rank_of_mem (by decide) h
  have hdie (h : die) : ∀ r, s.pw.resetting = some r → r.rank ≤ 1 := rank_of_mem (by decide) h
  refine ⟨rfl, fun hpark => ⟨?_, fun hc hg hw => ?_, fun hc hw => ?_, fun hc hw => ?_, fun hc hf => ?_⟩, fun hd hrail => ?_,
    fun hon hpark => ⟨?_, ?_, ?_, ?_⟩⟩
  · exact congrArg Host.Outcome.next (if_neg (ne_true_of_eq_false hpark))
  · have hclock : ((s.power fun p => { p with good := false }).recorded' 12).bit .SYS_STAT 0 12 = false := (clockBit_recorded _ _).trans hc
    exact congrArg Host.Outcome.next ((if_neg (not_not.mpr hg)).trans
      (warmRequest_of_free (s := (s.power fun p => { p with good := false }).recorded' 12) hpark hclock (hwarm hw)))
  · exact congrArg Host.Outcome.next (warmRequest_of_free (s := s.recorded' 14) hpark ((clockBit_recorded _ _).trans hc) (hwarm hw))
  · exact congrArg Host.Outcome.next (warmRequest_of_free (s := s.recorded' 13) hpark ((clockBit_recorded _ _).trans hc) (hwarm hw))
  · exact congrArg Host.Outcome.next (warmRequest_of_free (s := s.recorded' 11) hpark ((clockBit_recorded _ _).trans hc) (hfield hf))
  · exact congrArg Host.Outcome.next (cDieReset_of_free (s := s.recorded' 10) (hdie hd) ((bit_setBit_of_ne _ _ _ _ _ _ _ (by decide)).trans hrail))
  · exact congrArg Host.Outcome.next (warmRequest_of_powerOn (s := s.recorded' 14) hpark hon (by decide))
  · exact congrArg Host.Outcome.next (warmRequest_of_powerOn (s := s.recorded' 13) hpark hon (by decide))
  · exact congrArg Host.Outcome.next (warmRequest_of_powerOn (s := s.recorded' 11) hpark hon (by decide))
  · have hheld : (s.recorded' 10).cDieReset = s.recorded' 10 := request_of_powerOn (s := s.recorded' 10) (k := .cDie) hon (by decide)
    exact congrArg Host.Outcome.next hheld

/-! ### Resets of single cores -/

theorem coreOf_val (c : CoreId) : coreOf c.val = some c := dif_pos c.isLt

/-- Cores taken in order. -/
theorem foldl_cores_eq (f : State → Nat → State) (s : State) (u : Nat → State) (h0 : u 0 = s) (h : ∀ d : CoreId, u (d.val + 1) = f (u d.val) d.val) :
    (upto 12).foldl f s = u 12 := by
  have hn (n : Nat) (hn : n ≤ 12) : (upto n).foldl f s = u n := by
    induction n with
    | zero => exact h0.symm
    | succ n ih =>
      rw [upto, List.range_succ, List.foldl_append, show (List.range n).foldl f s = u n from ih (by omega)]
      exact (h ⟨n, by omega⟩).symm
  exact hn 12 le_rfl

theorem coreDieReset_iff (s : State) (c : CoreId) : s.coreDieReset c = true ↔ s.pw.resetting.isSome = true ∨ (c.val < 8 ∧ s.pw.cReset = true) := by
  simp [State.coreDieReset]

theorem mayRun_iff (s : State) (c : CoreId) : (s.crun c && s.dieReady c && ¬ s.absentCore c) = true ↔ s.mayRun c := by
  unfold State.mayRun State.crun State.dieReady
  by_cases hc : c.val < 8 <;> simp [hc, and_assoc]

/-- The reset vector of a core. -/
def State.resetVector (s : State) (c : CoreId) : Nat :=
  if c.val < 8 then s.pair .SYS_RVEC_C_LO .SYS_RVEC_C_HI 0 else s.pair .SYS_RVEC_F_LO .SYS_RVEC_F_HI 0

theorem startCore_of_mayRun {s : State} {c : CoreId} (h : s.mayRun c) : s.startCore c = { s.setCore c
    { freshCore c with pc := BitVec.ofNat 32 (s.resetVector c), run := .running, locked := (s.core c).locked } with
      wdtFrom := Tab.set 0 c.val s.ticks s.wdtFrom } := if_pos ((mayRun_iff s c).mpr h)

theorem startCore_of_not {s : State} {c : CoreId} (h : ¬ s.mayRun c) : s.startCore c = s := if_neg fun hc => h ((mayRun_iff s c).mp hc)

/-- The registers that a core's reset writes. -/
def State.coreRegs (s : State) (c : CoreId) : State :=
  let (x, l, i) : RegKind × RegKind × Nat := if c.val < 8 then (.XLAT_CTL, .XLAT_LKVALID, c.val) else (.FXLAT_CTL, .FXLAT_LKVALID, c.val - 8)
  (((s.setReg x i x.reset).setReg l i l.reset).setBit .FHINT_LOCK 0 c.val false).setBit (pipeCtl c).1 (pipeCtl c).2 12 false

theorem coreReset_eq (s : State) (c : CoreId) :
    s.coreReset c = State.startCore { (s.coreRegs c).setCore c (freshCore c) with wdtFrom := Tab.set 0 c.val s.ticks s.wdtFrom } c := by
  unfold State.coreReset State.coreRegs lkValid
  by_cases hc : c.val < 8
  · simp only [hc, if_true]
    rfl
  · simp only [hc, if_false]
    rfl

/-- The addresses of the registers that a core's reset writes. -/
def coreAddrs (c : CoreId) : List Nat :=
  (if c.val < 8 then [RegKind.XLAT_CTL.addr c.val, RegKind.XLAT_LKVALID.addr c.val]
    else [RegKind.FXLAT_CTL.addr (c.val - 8), RegKind.FXLAT_LKVALID.addr (c.val - 8)]) ++
  [RegKind.FHINT_LOCK.addr 0, (pipeCtl c).1.addr (pipeCtl c).2]

theorem reg_coreRegs (s : State) (c : CoreId) (k : RegKind) (j : Nat) (h : k.addr j ∉ coreAddrs c) : (s.coreRegs c).reg k j = s.reg k j := by
  unfold coreAddrs at h
  unfold State.coreRegs
  by_cases hc : c.val < 8
  · simp only [hc, if_true, List.cons_append, List.nil_append, List.mem_cons, List.not_mem_nil, or_false, not_or] at h ⊢
    obtain ⟨hx, hl, hlock, hpipe⟩ := h
    exact (reg_setReg_of_ne _ _ _ _ _ _ hpipe).trans ((reg_setReg_of_ne _ _ _ _ _ _ hlock).trans
      ((reg_setReg_of_ne _ _ _ _ _ _ hl).trans (reg_setReg_of_ne _ _ _ _ _ _ hx)))
  · simp only [hc, if_false, List.cons_append, List.nil_append, List.mem_cons, List.not_mem_nil, or_false, not_or] at h ⊢
    obtain ⟨hx, hl, hlock, hpipe⟩ := h
    exact (reg_setReg_of_ne _ _ _ _ _ _ hpipe).trans ((reg_setReg_of_ne _ _ _ _ _ _ hlock).trans
      ((reg_setReg_of_ne _ _ _ _ _ _ hl).trans (reg_setReg_of_ne _ _ _ _ _ _ hx)))

/-- Whether a core may run rests on SYS_CRUN, SYS_STAT and the repair record. -/
theorem mayRun_congr {s t : State} {c : CoreId} (hrun : t.reg .SYS_CRUN 0 = s.reg .SYS_CRUN 0) (hstat : t.reg .SYS_STAT 0 = s.reg .SYS_STAT 0)
    (hspr : t.spr = s.spr) : t.mayRun c ↔ s.mayRun c := by
  unfold State.mayRun State.bit State.absentCore
  rw [hrun, hstat, hspr]

theorem resetVector_coreRegs (s : State) (c : CoreId) : (s.coreRegs c).resetVector c = s.resetVector c := by
  have hfar : ∀ k ∈ [RegKind.SYS_RVEC_C_LO, .SYS_RVEC_C_HI, .SYS_RVEC_F_LO, .SYS_RVEC_F_HI], k.addr 0 ∉ coreAddrs c := by
    revert c
    decide
  unfold State.resetVector State.pair
  rw [reg_coreRegs s c .SYS_RVEC_C_LO 0 (hfar _ (by decide)), reg_coreRegs s c .SYS_RVEC_C_HI 0 (hfar _ (by decide)),
    reg_coreRegs s c .SYS_RVEC_F_LO 0 (hfar _ (by decide)), reg_coreRegs s c .SYS_RVEC_F_HI 0 (hfar _ (by decide))]

theorem spr_coreRegs (s : State) (c : CoreId) : (s.coreRegs c).spr = s.spr := by
  unfold State.coreRegs
  by_cases hc : c.val < 8 <;> simp only [hc, if_true, if_false] <;> rfl

/-- The registers written and the core fresh, its watchdog restarted. -/
def State.coreCleared (s : State) (c : CoreId) : State :=
  { (s.coreRegs c).setCore c (freshCore c) with wdtFrom := Tab.set 0 c.val s.ticks s.wdtFrom }

theorem mayRun_coreCleared (s : State) (c : CoreId) : (s.coreCleared c).mayRun c ↔ s.mayRun c := by
  have hrun : RegKind.SYS_CRUN.addr 0 ∉ coreAddrs c := by
    revert c
    decide
  have hstat : RegKind.SYS_STAT.addr 0 ∉ coreAddrs c := by
    revert c
    decide
  exact mayRun_congr (reg_coreRegs s c _ _ hrun) (reg_coreRegs s c _ _ hstat) (spr_coreRegs s c)

theorem ticks_coreRegs (s : State) (c : CoreId) : (s.coreRegs c).ticks = s.ticks := by
  unfold State.coreRegs
  by_cases hc : c.val < 8 <;> simp only [hc, if_true, if_false] <;> rfl

theorem coreReset_of_mayRun {s : State} {c : CoreId} (h : s.mayRun c) : s.coreReset c =
    { (s.coreRegs c).setCore c { freshCore c with pc := BitVec.ofNat 32 (s.resetVector c), run := .running } with
      wdtFrom := Tab.set 0 c.val s.ticks (Tab.set 0 c.val s.ticks s.wdtFrom) } := by
  have hcore : ((s.coreCleared c).core c).locked = [] := congrArg Core.locked (core_setCore (s.coreRegs c) c (freshCore c))
  have hvec : (s.coreCleared c).resetVector c = s.resetVector c := resetVector_coreRegs s c
  have hticks : (s.coreCleared c).ticks = s.ticks := ticks_coreRegs s c
  rw [coreReset_eq]
  refine (startCore_of_mayRun (s := s.coreCleared c) ((mayRun_coreCleared s c).mpr h)).trans ?_
  rw [hcore, hvec, hticks]
  have hset := setCore_setCore (s.coreRegs c) c (freshCore c) { freshCore c with pc := BitVec.ofNat 32 (s.resetVector c), run := .running }
  exact congrArg (fun t : State => { t with wdtFrom := Tab.set 0 c.val s.ticks (Tab.set 0 c.val s.ticks s.wdtFrom) }) hset

theorem coreReset_of_not {s : State} {c : CoreId} (h : ¬ s.mayRun c) : s.coreReset c = s.coreCleared c :=
  (coreReset_eq s c).trans (startCore_of_not (s := s.coreCleared c) fun hc => h ((mayRun_coreCleared s c).mp hc))

theorem resetOf_coreReset (s : State) (c : CoreId) : ResetOf s (s.coreReset c) c := by
  by_cases h : s.mayRun c
  · rw [coreReset_of_mayRun h]
    refine ⟨fun _ => ?_, fun hn => absurd h hn, Tab.get_set_self _ _ _ _⟩
    rw [core_reset]
    rfl
  · rw [coreReset_of_not h]
    refine ⟨fun hy => absurd hy h, fun _ => ?_, Tab.get_set_self _ _ _ _⟩
    rw [core_reset]
    rfl

/-- A write of SYS_CRUN takes bits 11 to 0. -/
theorem writtenWord_crun (sealed : Bool) (old v : Word) : writtenWord .SYS_CRUN sealed old v = (old &&& 0xF000) ||| (v &&& 0x0FFF) := by
  have hrw : RegKind.SYS_CRUN.rw = 0x0FFF := rfl
  have hrwl : RegKind.SYS_CRUN.rwl = 0 := rfl
  have hw1c : RegKind.SYS_CRUN.w1c = 0 := rfl
  have hones (x : Word) : x &&& ~~~(0 &&& v) = x := by
    rw [show (0 &&& v : Word) = 0#16 from BitVec.zero_and, BitVec.not_zero, BitVec.and_allOnes]
  rw [writtenWord, hrw, hrwl, hw1c, hones]
  cases sealed <;> simp

/-- A core's request for a reset (R306, R393). -/
theorem coreRequest_of_held {s : State} {c : CoreId} (h : s.pw.resetting.isSome = true ∨ (c.val < 8 ∧ s.pw.cReset = true)) : s.coreRequest c = s :=
  if_pos ((coreDieReset_iff s c).mpr h)

theorem coreRequest_of_free {s : State} {c : CoreId} (h : ¬ (s.pw.resetting.isSome = true ∨ (c.val < 8 ∧ s.pw.cReset = true))) :
    s.coreRequest c = s.coreReset c := if_neg fun hc => h ((coreDieReset_iff s c).mp hc)

/-- What a write of FHINT_CRST does at one core. -/
theorem crst_step (s : State) (v : Word) (d : CoreId) : (match coreOf d.val with
    | some c => if wbit v d.val then s.coreRequest c else s
    | none => s) = if v.getLsbD d.val then s.coreRequest d else s := by
  rw [coreOf_val] <;> rfl

/-- What a write of SYS_CRUN does at one core. -/
theorem crun_step (s : State) (old v : Word) (d : CoreId) : (match coreOf d.val with
    | some c => if wbit v d.val && ¬ wbit old d.val then s.startCore c else if wbit old d.val && ¬ wbit v d.val then s.coreRequest c else s
    | none => s) = match old.getLsbD d.val, v.getLsbD d.val with
      | false, true => s.startCore d
      | true, false => s.coreRequest d
      | _, _ => s := by
  rw [coreOf_val]
  unfold wbit
  cases old.getLsbD d.val <;> cases v.getLsbD d.val <;> rfl

theorem watchdog_exec_due {s : State} {c : CoreId} (hper : wfld (s.reg .SYS_WDT_CFG c.val) 11 0 ≠ 0) (hheld : (s.core c).run ≠ .held)
    (hhalt : (s.core c).run ≠ .halted) (hdue : Tab.get 0 s.wdtFrom c.val + 800000 * wfld (s.reg .SYS_WDT_CFG c.val) 11 0 ≤ s.ticks) :
    exec (.watchdogExpiry c) s = .next (
      let a := (s.recorded' 9).setFld .SYS_RST_CAUSE 0 7 4 c.val
      match wfld (s.reg .SYS_WDT_CFG c.val) 15 14 with
      | 0 => a.coreRequest c
      | 1 => if c.val < 8 then a.cDieReset else a.warmRequest .field true
      | 2 => a.warmRequest .field true
      | _ => a.warmRequest .warm true) :=
  congrArg Host.Outcome.next (if_neg (not_or.mpr ⟨hper, not_or.mpr ⟨hheld, not_or.mpr ⟨hhalt, Nat.not_lt.mpr hdue⟩⟩⟩))

theorem coreResets : Rules.CoreResets := by
  intro s v c held
  refine ⟨fun u h0 hu => ?_, fun _ => resetOf_coreReset s c, fun u h0 hu => ?_, ?_, rfl⟩
  · refine congrArg Host.Outcome.next (foldl_cores_eq _ s u h0 fun d => ?_)
    refine Eq.trans ?_ (crst_step (u d.val) v d).symm
    obtain ⟨hreset, hkeep⟩ := hu d
    by_cases hv : v.getLsbD d.val = true
    · rw [if_pos hv]
      by_cases hh : held (u d.val) d
      · rw [hkeep (Or.inr hh), coreRequest_of_held hh]
      · rw [hreset hv hh, coreRequest_of_free hh]
    · rw [if_neg hv]
      exact hkeep (Or.inl (Bool.eq_false_iff.mpr hv))
  · refine congrArg Host.Outcome.next ?_
    rw [State.writeCrun]
    refine foldl_cores_eq _ _ u (h0.trans (by rw [writtenWord_crun])) fun d => ?_
    refine Eq.trans ?_ (crun_step (u d.val) _ v d).symm
    obtain ⟨hstart, hwait, hreset, hkeep⟩ := hu d
    cases hold : (s.reg .SYS_CRUN 0).getLsbD d.val <;> cases hv : v.getLsbD d.val
    · exact hkeep (Or.inl (hold.trans hv.symm))
    · by_cases hm : (u d.val).mayRun d
      · obtain ⟨hcore, hnext⟩ := hstart hold hv hm
        refine hnext.trans ((startCore_of_mayRun hm).trans ?_).symm
        rw [hcore, core_reset]
        rfl
      · exact (hwait hold hv hm).trans (startCore_of_not hm).symm
    · by_cases hh : held (u d.val) d
      · exact (hkeep (Or.inr ⟨hold, hh⟩)).trans (coreRequest_of_held hh).symm
      · exact (hreset hold hv hh).trans (coreRequest_of_free hh).symm
    · exact hkeep (Or.inl (hold.trans hv.symm))
  · intro cfg a due
    refine ⟨fun hno => ?_, fun hper hdue hheld hhalt hfree hpark hclock => ?_⟩
    · refine congrArg Host.Outcome.next (if_pos ?_)
      exact hno.imp_right fun h => h.imp_right fun h => h.imp_right fun h => Nat.not_le.mp h
    · have hexec := watchdog_exec_due hper hheld hhalt hdue
      have hnone (n : Nat) (r : ResetKind) (hr : a.pw.resetting = some r) : r.rank ≤ n :=
        absurd (hr.symm.trans hfree) (Option.some_ne_none r)
      have hstat : a.bit .SYS_STAT 0 12 = false :=
        (bit_setReg_of_ne _ _ _ _ _ _ (by decide)).trans ((clockBit_recorded s 9).trans hclock)
      refine ⟨fun hact hdie => ?_, fun hact hc hrail => ?_, fun hact => ?_, fun hact => ?_⟩
      · have hgo : ¬ (a.pw.resetting.isSome = true ∨ (c.val < 8 ∧ a.pw.cReset = true)) := by
          rintro (h | ⟨hlt, hres⟩)
          · have : a.pw.resetting = none := hfree
            simp [this] at h
          · rcases hdie with h | h
            · omega
            · exact absurd (hres.symm.trans h) Bool.noConfusion
        rw [show wfld (s.reg .SYS_WDT_CFG c.val) 15 14 = 0 from hact] at hexec
        exact hexec.trans (congrArg Host.Outcome.next (coreRequest_of_free hgo))
      · have hup : a.bit .SYS_RAIL 0 14 = true :=
          (bit_setReg_of_ne _ _ _ _ _ _ (by decide)).trans ((bit_setBit_of_ne _ _ _ _ _ _ _ (by decide)).trans hrail)
        rw [show wfld (s.reg .SYS_WDT_CFG c.val) 15 14 = 1 from hact] at hexec
        exact hexec.trans (congrArg Host.Outcome.next ((if_pos hc).trans (cDieReset_of_free (hnone 1) hup)))
      · have hfield : a.warmRequest .field true = a.restarted .field true := warmRequest_of_free hpark hstat (hnone _)
        rcases hact with hact | ⟨hact, hc⟩
        · rw [show wfld (s.reg .SYS_WDT_CFG c.val) 15 14 = 2 from hact] at hexec
          exact hexec.trans (congrArg Host.Outcome.next hfield)
        · rw [show wfld (s.reg .SYS_WDT_CFG c.val) 15 14 = 1 from hact] at hexec
          exact hexec.trans (congrArg Host.Outcome.next ((if_neg (Nat.not_lt.mpr hc)).trans hfield))
      · rw [show wfld (s.reg .SYS_WDT_CFG c.val) 15 14 = 3 from hact] at hexec
        exact hexec.trans (congrArg Host.Outcome.next (warmRequest_of_free hpark hstat (hnone _)))

end Sys2Proof.Machine

namespace Sys2Proof

/-- Settles O24. -/
theorem resetKinds : Obligations.ResetKinds := ⟨Machine.resets, Machine.coreResets⟩

end Sys2Proof
end

section
/-! SUPPORT. The boot ROM's sequence, network boot, the rollback count and the repair mirror (R11 to R14, R29, R30, R37, R39, R44). -/

namespace Sys2Proof.Machine

open Sys2Proof

/-- A byte table read where bytes have been written. -/
theorem get_writeBytes_of_in (d : Byte) (l : List Byte) (t : Tab Byte) (a i : Nat) (h : i < l.length) :
    Tab.get d (writeBytes d t a l) (a + i) = l.getD i 0 := by
  induction l generalizing t a i with
  | nil => exact absurd h (Nat.not_lt_zero i)
  | cons b l ih =>
    rw [writeBytes]
    cases i with
    | zero => rw [get_writeBytes_of_out d l _ (a + 1) (a + 0) (by omega)]; exact Tab.get_set_self _ _ _ _
    | succ i =>
      rw [show a + (i + 1) = a + 1 + i by omega, ih _ _ _ (Nat.lt_of_succ_lt_succ h)]
      rfl

/-! ### The source sequence -/

/-- The sources that are tried, in order (R11 to R13). -/
def State.bootOrder (s : State) : List Source :=
  (if (s.reg .BIMG_BOOTSEL 0).getLsbD 0 then [.slotB, .slotA] else [.slotA, .slotB]) ++
    (if s.ks.netboot = true ∧ (s.reg .BIMG_BOOTSEL 0).getLsbD 3 = false then [.net] else [])

theorem startAttempt_of_head {s : State} {src : Source} (h : s.lay.order.head? = some src) : s.startAttempt = s.setReg (errReg src) 0 0 := by
  obtain ⟨l, hl⟩ := List.head?_eq_some_iff.mp h
  rw [State.startAttempt, hl]

theorem startSources_eq (s : State) {w : Word} {order : List Source} (hw : s.reg .BIMG_BOOTSEL 0 = w) (ho : s.bootOrder = order) :
    s.startSources = State.setReg
      (let a := (s.setReg .BIMG_BOOTSEL 0 (if w.getLsbD 2 then putBit (putBit w 2 false) 0 (!w.getLsbD 0) else w)).setFld .BIMG_STATUS 0 3 0 1
       { a with lay := { a.lay with order := order, netImage := [], netGot := [], netRequests := 0 } })
      (if w.getLsbD 0 then .BIMG_ERR_B else .BIMG_ERR_A) 0 0 := by
  subst hw ho
  have horder : (if wbit (s.reg .BIMG_BOOTSEL 0) 0 then [Source.slotA, .slotB].reverse else [.slotA, .slotB]) ++
      (if (s.ks.netboot && !wbit (s.reg .BIMG_BOOTSEL 0) 3) = true then [Source.net] else []) = s.bootOrder := by
    simp [State.bootOrder, wbit]
  have hhead : s.bootOrder.head? = some (if (s.reg .BIMG_BOOTSEL 0).getLsbD 0 then .slotB else .slotA) := by
    unfold State.bootOrder
    split_ifs <;> rfl
  unfold State.startSources
  dsimp only
  rw [horder, startAttempt_of_head hhead]
  by_cases h0 : (s.reg .BIMG_BOOTSEL 0).getLsbD 0 = true
  · rw [if_pos h0, if_pos h0]
    rfl
  · rw [if_neg h0, if_neg h0]
    rfl

theorem imageCheck_exec {s : State} {src : Source} (hhead : s.lay.order.head? = some src) (hnet : src = .net → s.netMissing = []) :
    exec (.imageCheck src) s = .next (match s.checkImage src with
      | .ok l => s.acceptImage src l
      | .error e => s.failSource src e) := by
  have hgo : ¬ (s.lay.order.head? ≠ some src ∨ (src = .net ∧ s.netMissing ≠ [])) := by
    rintro (h | ⟨h1, h2⟩)
    · exact h hhead
    · exact h2 (hnet h1)
  exact congrArg Host.Outcome.next (if_neg hgo)

/-- A source that fails while another follows. -/
theorem failSource_of_head {s : State} {src n : Source} {e : CheckErr} (h : (s.lay.order.drop 1).head? = some n) :
    s.failSource src e =
      State.setReg (let a := s.setReg (errReg src) 0 (BitVec.ofNat 16 (e.sect * 4096 + e.code))
        { a with lay := { a.lay with order := a.lay.order.drop 1 } }) (errReg n) 0 0 := by
  have hne : ¬ (s.lay.order.drop 1).isEmpty = true := by
    intro he
    rw [List.isEmpty_iff.mp he] at h
    exact absurd h (by simp)
  exact (if_neg hne).trans (startAttempt_of_head h)

/-- The last source fails, and network boot has not raised the C-die. -/
theorem failSource_of_last {s : State} {src : Source} {e : CheckErr} {l : List Source} (hl : s.lay.order.drop 1 = l) (h : l = [])
    (hnet : s.pw.netRaised = false) :
    s.failSource src e =
      State.setFld (State.setBit (let a := s.setReg (errReg src) 0 (BitVec.ofNat 16 (e.sect * 4096 + e.code))
        { a with lay := { a.lay with order := l } }) .BIMG_STATUS 0 8 true) .BIMG_STATUS 0 3 0 0 := by
  subst hl
  exact (if_pos (List.isEmpty_iff.mpr h)).trans (if_neg (ne_true_of_eq_false hnet))

theorem mem_netMissing {s : State} (hgot : s.lay.netGot.contains 0 = true) {total : Nat} (hok : checkHead (readBytes 0 s.lay.netImage 0 80) = .ok total)
    (off : Nat) : off ∈ s.netMissing ↔ off % 1024 = 0 ∧ off < total ∧ off / 1024 ∉ s.lay.netGot := by
  have hmiss : s.netMissing = ((upto ((total + 1023) / 1024)).filter fun b => !s.lay.netGot.contains b).map (1024 * ·) := by
    rw [State.netMissing, if_neg (not_not.mpr hgot), hok]
  rw [hmiss, List.mem_map]
  simp only [List.mem_filter, upto, List.mem_range, Bool.not_eq_true', List.contains_eq_mem, decide_eq_false_iff_not]
  constructor
  · rintro ⟨b, ⟨hb, hgot⟩, rfl⟩
    refine ⟨Nat.mul_mod_right 1024 b, by omega, ?_⟩
    rwa [Nat.mul_div_cancel_left b (by decide)]
  · rintro ⟨hmod, hlt, hgot⟩
    exact ⟨off / 1024, ⟨by omega, hgot⟩, by omega⟩

/-! ### Network boot -/

theorem length_nswMac (s : State) : s.nswMac.length = 6 := rfl

/-- The request frame's addresses and EtherType. -/
theorem requestFrame_head (s : State) : s.requestFrame.take 6 = [0x03, 0x44, 0x48, 0x00, 0x00, 0xB1] ∧ (s.requestFrame.drop 12).take 2 = [0x88, 0xB5] :=
  ⟨rfl, rfl⟩

/-- The rails are raised for network boot. -/
theorem raiseRails_net (s : State) : { s.raiseRails with pw := { s.raiseRails.pw with netRaised := true } } =
    (((s.setBit .SYS_RAIL 0 4 true).setBit .SYS_RAIL 0 13 true).setFld .SYS_STAT 0 3 0 5).power fun p => { p with seq := .raising, netRaised := true } := by
  unfold State.raiseRails
  generalize ((s.setBit .SYS_RAIL 0 4 true).setBit .SYS_RAIL 0 13 true).setFld .SYS_STAT 0 3 0 5 = t
  rfl

theorem netbootBlock_exec {s : State} {off : BitVec 32} {data : List Byte} (hhead : s.lay.order.head? = some .net) (hup : s.linkUp = true)
    (hlen : data.length = 1024) (hoff : off.toNat % 1024 = 0) (hend : off.toNat + 1024 ≤ 4194304) :
    exec (.netbootBlock off data) s = .next { s with lay := { s.lay with
      netImage := writeBytes 0 s.lay.netImage off.toNat data
      netGot := if s.lay.netGot.contains (off.toNat / 1024) then s.lay.netGot else off.toNat / 1024 :: s.lay.netGot } } :=
  congrArg Host.Outcome.next (if_pos ⟨hhead, hup, hlen, hoff, by rw [hlen]; exact hend⟩)

/-! ### The repair mirror -/

theorem mirrorNext_eq (a b : Mirror) : mirrorNext a b =
    ((if (if a.valid then a.seq else 0) ≤ (if b.valid then b.seq else 0) then (if b.valid then b.seq else 0) else (if a.valid then a.seq else 0)) + 1) %
      2 ^ 32 :=
  congrArg (fun n => (n + 1) % 2 ^ 32) Nat.max_def

theorem mirrorTarget_eq (a b : Mirror) :
    mirrorTarget a b = if a.valid = false then 0 else if b.valid = false then 1 else if a.seq ≤ b.seq then 0 else 1 := by
  unfold mirrorTarget
  simp only [Bool.not_eq_true]

/-- The flash with the mirror of a slot renewed. -/
def State.mirrorFlash (s : State) (slot : Nat) : Tab Byte :=
  let a := s.mirrorCopy slot 0
  let b := s.mirrorCopy slot 1
  writeBytes 0xFF s.mem.flash (mirrorBase slot (mirrorTarget a b)) (mirrorSection (mirrorNext a b) s.spr.record)

theorem repairMirrorWrite_exec {s : State} {slot : Nat} (hslot : slot < 2) (hsrc : s.fld .BIMG_STATUS 0 11 10 = slot + 1) (hdue : s.lay.mirrorDue = true) :
    exec .repairMirrorWrite s = .next { s with
      mem := { s.mem with flash := s.mirrorFlash slot }, lay := { s.lay with mirrorDue := false } } := by
  show execRepairMirrorWrite s = _
  unfold execRepairMirrorWrite
  dsimp only
  rw [hsrc, if_pos ⟨hdue, by omega⟩, Nat.add_sub_cancel]
  rfl

end Sys2Proof.Machine

namespace Sys2Proof

open Sys2Proof.Machine

/-- Settles O23. -/
theorem boot : Obligations.Boot := by
  intro s src off data v boot order start errOf stale
  have herr (x : Source) : errOf x = errReg x := by cases x <;> rfl
  refine ⟨fun hgood hpark hres => ?_, fun hhead hnet => ?_, fun h => congrArg Host.Outcome.next (if_pos h), fun hgot total hok off => mem_netMissing hgot hok off,
    fun hstat horder => ?_, fun hhead => ⟨fun hup => ⟨_, (requestFrame_head s).1, (requestFrame_head s).2, congrArg Host.Outcome.next ((if_neg (not_not.mpr hhead)).trans (if_pos hup))⟩,
      fun hdown hseq hrails => ?_, fun hup hlen hoff hend => ?_, fun hbad => ?_, fun honly hnet => ?_⟩, ?_, fun t ht => ?_, fun hdue => ?_, ?_⟩
  · refine congrArg Host.Outcome.next ((if_neg ?_).trans ?_)
    · simp [hgood, hpark, hres]
    · have hboot : ((s.count .SYS_KEYON 0).setFld .SYS_STAT 0 3 0 3).reg .BIMG_BOOTSEL 0 = boot :=
        (reg_setReg_of_ne _ _ _ _ _ _ (by decide)).trans (reg_setReg_of_ne _ _ _ _ _ _ (by decide))
      have horder : ((s.count .SYS_KEYON 0).setFld .SYS_STAT 0 3 0 3).bootOrder = order := by
        rw [State.bootOrder, hboot]
        rfl
      exact startSources_eq (((s.count .SYS_KEYON 0).setFld .SYS_STAT 0 3 0 3).power fun p => { p with resetting := none, bootOnSpare := p.bootCoreBad })
        hboot horder
  · have hexec := imageCheck_exec hhead hnet
    generalize s.checkImage src = r at hexec
    cases r with
    | ok l => cases src <;> exact hexec
    | error e =>
      refine ⟨fun n hn => ?_, fun hlast hraised => ?_⟩
      · rw [herr, herr]
        exact hexec.trans (congrArg Host.Outcome.next (failSource_of_head hn))
      · rw [herr]
        exact hexec.trans (congrArg Host.Outcome.next (failSource_of_last rfl hlast hraised))
  · exact congrArg Host.Outcome.next ((if_pos ⟨hstat, horder⟩).trans (startSources_eq s rfl rfl))
  · have hlink : ¬ s.linkUp = true := ne_true_of_eq_false hdown
    exact congrArg Host.Outcome.next ((if_neg (not_not.mpr hhead)).trans ((if_neg hlink).trans ((if_pos ⟨hseq, hrails⟩).trans (raiseRails_net s))))
  · refine ⟨_, netbootBlock_exec hhead hup hlen hoff hend, rfl, fun b => ?_, fun i hi => ?_, fun a ha => ?_⟩
    · dsimp only
      split
      · next h => exact ⟨Or.inr, fun hb => hb.elim (fun hb => hb ▸ List.contains_iff_mem.mp h) id⟩
      · exact List.mem_cons
    · have hi' : i < data.length := Nat.lt_of_lt_of_eq hi hlen.symm
      exact get_writeBytes_of_in 0 data s.lay.netImage off.toNat i hi'
    · refine get_writeBytes_of_out 0 data s.lay.netImage off.toNat a ?_
      rw [hlen]
      exact ha
  · refine congrArg Host.Outcome.next (if_neg ?_)
    rintro ⟨-, -, hlen, hoff, -⟩
    exact hbad.elim (fun h => h hlen) (fun h => h hoff)
  · have hhead' : s.lay.order.head? = some .net := hhead
    exact congrArg Host.Outcome.next ((if_pos hhead').trans (failSource_of_last (src := .net) (e := ⟨14, 0⟩) (l := []) (by rw [honly] <;> rfl) rfl hnet))
  · intro t
    refine ⟨fun h1 h2 h3 h4 h5 => congrArg Host.Outcome.next (if_pos ⟨h1, h2, h3, h4, h5⟩), fun h => congrArg Host.Outcome.next (if_neg fun hc => h hc.1)⟩
  · show execFuseBlowDone s = _
    rw [execFuseBlowDone, ht]
  · exact congrArg Host.Outcome.next (if_neg fun h => absurd (h.1.symm.trans hdue) Bool.noConfusion)
  · intro slot hslot hsrc hdue a b n k x base
    have hk : mirrorTarget a b = k := mirrorTarget_eq a b
    have hx : mirrorSection (mirrorNext a b) s.spr.record = x := congrArg (mirrorSection · s.spr.record) (mirrorNext_eq a b)
    have hflash : s.mirrorFlash slot = writeBytes 0xFF s.mem.flash base x := by
      rw [← hx, ← show mirrorBase slot (mirrorTarget a b) = base by rw [hk]; rfl]
      rfl
    refine ⟨_, repairMirrorWrite_exec hslot hsrc hdue, fun i hi => ?_, fun i hi => ?_⟩
    · rw [hflash, get_writeBytes_of_in _ _ _ _ _ hi]
    · rw [hflash, get_writeBytes_of_out _ _ _ _ _ hi]

end Sys2Proof
end

section
/-! SUPPORT. BIST, the two phases of laying-out, and relaying (R31, R32, R35 to R37, R47, R49, R389 to R391). -/

namespace Sys2Proof.Machine

open Sys2Proof

theorem phases : Rules.Phases := by
  intro s fails
  refine ⟨fun h => ?_, fun h => ?_, fun hup hstat hlaid => ?_, fun hup hbist hstat => ?_⟩
  · exact congrArg Host.Outcome.next (if_neg (not_not.mpr h))
  · exact ⟨congrArg Host.Outcome.next (if_neg (not_not.mpr h)), rfl, rfl, rfl, rfl⟩
  · refine congrArg Host.Outcome.next (if_neg ?_)
    simp [hup, hstat, hlaid]
  · refine ⟨congrArg Host.Outcome.next (if_neg ?_), rfl⟩
    simp [hup, hbist, hstat]

/-- STAT at the end of a relay (R49). -/
theorem endRelay_eq (s : State) (deferred : Bool) (sect code : Nat) : s.endRelay deferred sect code =
    let a := s.setReg .BIMG_RELAY_STAT 0 ((s.reg .BIMG_RELAY_STAT 0 &&& 0x2000) |||
      BitVec.ofNat 16 (0x4000 + (if deferred then 0x1000 else 0) + sect * 256 + code))
    { a with lay := { a.lay with relayWaiting := false } } := by
  cases deferred <;> rfl

theorem relaying : Rules.Relaying := by
  intro s v
  refine ⟨fun h => ?_, fun h hbusy => ?_, fun h hfree => ?_, fun hbusy hphase => ?_⟩
  · exact congrArg Host.Outcome.next (if_pos (ne_true_of_eq_false h))
  · exact congrArg Host.Outcome.next ((if_neg (not_not.mpr h)).trans (if_pos hbusy))
  · exact congrArg Host.Outcome.next ((if_neg (not_not.mpr h)).trans (if_neg (ne_true_of_eq_false hfree)))
  · intro addr ends laid read
    have hgo : ¬ (¬ s.bit .BIMG_RELAY_STAT 0 15 = true ∨ s.fld .BIMG_STATUS 0 3 0 = 5) := by simp [hbusy, hphase]
    have hexec : exec .relayApply s = .next s.relay := congrArg Host.Outcome.next (if_neg hgo)
    have hends (t : State) (d : Bool) (sect code : Nat) : ends t d sect code = t.endRelay d sect code := (endRelay_eq t d sect code).symm
    refine ⟨fun halign => ?_, fun halign => ?_⟩
    · rw [hends]
      exact hexec.trans (congrArg Host.Outcome.next (if_pos halign))
    · have hrelay : exec .relayApply s = .next (match s.checkRelay read with
          | .error e => s.endRelay false (relayTy read) e.code
          | .ok x => State.endRelay (if x.ty = 7 then s.applySection x
              else { s.applySection x with lay := { (s.applySection x).lay with shadow := mergeShadow (s.applySection x).lay.shadow x } })
                (s.deferred x) x.ty 0) := hexec.trans (congrArg Host.Outcome.next (if_neg (not_not.mpr halign)))
      generalize s.checkRelay read = r at hrelay
      cases r with
      | error e => exact hrelay.trans (congrArg Host.Outcome.next (hends _ _ _ _).symm)
      | ok x => exact hrelay.trans (congrArg Host.Outcome.next (hends _ _ _ _).symm)

end Sys2Proof.Machine

namespace Sys2Proof

/-- Settles O26. -/
theorem phasesAndRelaying : Obligations.PhasesAndRelaying := ⟨Machine.phases, Machine.relaying⟩

end Sys2Proof
end

section
/-! SUPPORT. Register reads and writes of masters over the crossbar (R6 to R10, R399). -/

namespace Sys2Proof.Machine

open Sys2Proof

theorem length_leBytes (n v : Nat) : (leBytes n v).length = n := by
  induction n generalizing v with
  | zero => rfl
  | succ n ih => rw [leBytes, List.length_cons, ih]

theorem leNat_leBytes_two (v : Nat) (h : v < 65536) : leNat (leBytes 2 v) = v := by
  simp only [leBytes, leNat, BitVec.toNat_ofNat]
  omega

/-- The word that two bytes of a write spell. -/
theorem wordOf_leBytes (v : Word) : BitVec.ofNat 16 (leNat (leBytes 2 v.toNat)) = v := by
  rw [leNat_leBytes_two _ v.isLt, BitVec.ofNat_toNat, BitVec.setWidth_eq]

/-- The data of the answer to a read of a register. -/
theorem answerRead_word (s : State) (w : Word) : State.answerRead (.ok (leBytes 2 w.toNat), s) = s.answer (.ok (w.setWidth 64)) := by
  unfold State.answerRead
  dsimp only
  rw [leNat_leBytes_two _ w.isLt, BitVec.ofNat_toNat]

/-! ### Reads -/

/-- A read of a register that a master reaches. -/
theorem readBus_of_reg {m : Master} {a : Nat} {s s1 : State} {k : RegKind} {i : Nat}
    (hpath : ∃ d x, controlDie a = some d ∧ s.path m a false false = (.ok x, s1)) (halign : a % 2 = 0) (hreg : regAt a = some (k, i)) :
    s.readBus m a 2 = (.ok (leBytes 2 (s1.readReg k i).1.toNat), (s1.readReg k i).2) := by
  obtain ⟨d, x, hdie, hpath⟩ := hpath
  have haccess : regAccess a 2 = .ok (k, i) := by
    rw [regAccess, if_neg (by omega), hreg]
  rw [State.readBus, hdie]
  dsimp only
  rw [hpath]
  dsimp only
  rw [haccess]

theorem readReg_of_held {s : State} {k : RegKind} {i : Nat} {w : Word} (h : Tab.get none s.captures (k.addr i) = some w) :
    s.readReg k i = (w, { s with captures := Tab.set none (k.addr i) none s.captures }) := by
  rw [State.readReg, h]

/-- The kinds whose reads have an effect or a value of their own. -/
def RegKind.plainRead (k : RegKind) : Prop :=
  k ≠ .RTC_SUB ∧ k ≠ .GPTP_TIME ∧ k ≠ .OC_LVL ∧ k ≠ .GP_IN ∧ k ≠ .ML_LSTAT ∧ k ≠ .NSW_ROSTER_EVT

/-- Those kinds have no other half. -/
theorem plainRead_of_pair {k : RegKind} {x : Bool × Nat} (h : k.pair = some x) : k.plainRead := by
  have hne {l : RegKind} (hl : l.pair = none) : k ≠ l := by
    rintro rfl
    exact absurd (hl.symm.trans h) (Option.some_ne_none x).symm
  exact ⟨hne rfl, hne rfl, hne rfl, hne rfl, hne rfl, hne rfl⟩

theorem readReg_of_plain {s : State} {k : RegKind} {i : Nat} (hheld : Tab.get none s.captures (k.addr i) = none) (hk : k.plainRead) :
    s.readReg k i = match k.pair with
      | some (false, b) => (s.shown k i, s.capture (b + k.stride * i))
      | _ => (s.shown k i, s.cleared k i) := by
  obtain ⟨h1, h2, h3, h4, h5, h6⟩ := hk
  unfold State.readReg
  simp only [hheld, h1, h2, h3, h4, h5, h6, false_and, if_false] <;> rfl

theorem cleared_of_plain {s : State} {k : RegKind} {i : Nat} (hk : k.plainRead) :
    s.cleared k i = if k.rc = 0 then s else s.setReg k i (s.reg k i &&& ~~~k.rc) := if_neg hk.2.2.2.2.2

theorem rcRead_exec {m : Master} {a : PAddr} {ev : Bool} {s t : State} {k : RegKind} {i : Nat} {l : List Byte} (hm : m.wf = true)
    (hread : s.readBus m a.toNat 2 = (.ok l, t)) (hreg : regAt a.toNat = some (k, i)) :
    exec (.rcRead m a ev) s = .next (State.answerRead (if ev = true ∧ k.rc = 0xFFFF then (.ok l, t.count k i) else (.ok l, t))) := by
  show execRcRead m a ev s = _
  unfold execRcRead
  dsimp only
  rw [hread, hreg, if_neg (not_not.mpr hm)]

theorem registerAccesses : Rules.RegisterAccesses := by
  intro m a s s1 k i ok held hm hpath halign hreg haddr
  have hread := readBus_of_reg hpath halign hreg
  have hone {t : State} {w : Word} (h : s1.readReg k i = (w, t)) : State.answerRead (s.readBus m a.toNat 2) = ok t w := by
    rw [hread, h]
    exact answerRead_word t w
  refine ⟨fun w hw => ?_, fun hnone => ⟨fun b hpair hrc => ?_, fun b hk hi hpair h1 h2 h3 h4 h5 h6 hhi => ?_, fun hpair hrc h1 h2 h3 h4 h5 h6 => ?_⟩⟩
  · refine congrArg Host.Outcome.next ((if_pos hm).trans (hone ?_))
    rw [readReg_of_held (w := w) (haddr.symm ▸ hw), haddr]
  · have hplain := plainRead_of_pair hpair
    refine congrArg Host.Outcome.next ((if_pos hm).trans (hone ?_))
    rw [readReg_of_plain (haddr.symm ▸ hnone) hplain, hpair, cleared_of_plain hplain, if_pos hrc]
  · have hplain : k.plainRead := ⟨h1, h2, h3, h4, h5, h6⟩
    refine congrArg Host.Outcome.next ((if_pos hm).trans (hone ?_))
    rw [readReg_of_plain (haddr.symm ▸ hnone) hplain, hpair]
    dsimp only
    rw [State.capture, hhi]
  · intro t
    have hplain : k.plainRead := ⟨h1, h2, h3, h4, h5, h6⟩
    have hzero : ~~~k.rc = 0 := by rw [hrc]; rfl
    have hclear : s1.readReg k i = (s1.shown k i, t) := by
      rw [readReg_of_plain (haddr.symm ▸ hnone) hplain, hpair]
      dsimp only
      rw [cleared_of_plain hplain, if_neg (by rw [hrc]; decide), hzero]
    have hbus : s.readBus m a.toNat 2 = (.ok (leBytes 2 (s1.shown k i).toNat), t) := by rw [hread, hclear]
    refine ⟨(rcRead_exec hm hbus hreg).trans (congrArg Host.Outcome.next ?_), (rcRead_exec hm hbus hreg).trans (congrArg Host.Outcome.next ?_)⟩
    · rw [if_neg fun h => absurd h.1 Bool.false_ne_true]
      exact answerRead_word t _
    · rw [if_pos ⟨rfl, hrc⟩]
      exact answerRead_word (t.count k i) _

/-! ### Writes -/

theorem writeBus_of_reg {m : Master} {a : Nat} {s s1 : State} {k : RegKind} {i : Nat} {v : Word}
    (hpath : ∃ d x, controlDie a = some d ∧ s.path m a true false = (.ok x, s1)) (halign : a % 2 = 0) (hreg : regAt a = some (k, i)) :
    s.writeBus m a (leBytes 2 v.toNat) = (.ok (), s1.writeReg m k i v) := by
  obtain ⟨d, x, hdie, hpath⟩ := hpath
  have haccess : regAccess a (leBytes 2 v.toNat).length = .ok (k, i) := by
    rw [length_leBytes, regAccess, if_neg (by omega), hreg]
  rw [State.writeBus, hdie]
  dsimp only
  rw [hpath]
  dsimp only
  rw [haccess]
  dsimp only
  rw [wordOf_leBytes]

/-- A write of a register of another width than 16 bits (R6). -/
theorem writeBus_of_width {m : Master} {a n v : Nat} {s s1 : State} {d : Die} (hdie : controlDie a = some d)
    (hpath : ∃ d x, controlDie a = some d ∧ s.path m a true false = (.ok x, s1)) (hn : n ≠ 2) :
    s.writeBus m a (leBytes n v) = (.error 6, s1.logError (presenting m d) 6 true a) := by
  obtain ⟨-, x, -, hpath⟩ := hpath
  have haccess : regAccess a (leBytes n v).length = .error 6 := by
    rw [length_leBytes, regAccess, if_pos (Or.inl hn)]
  rw [State.writeBus, hdie]
  dsimp only
  rw [hpath]
  dsimp only
  rw [haccess]
  rfl

theorem registerWrite_exec {m : Master} {a : PAddr} {v ev : Word} {bits : Nat} {s t : State} {k : RegKind} {i : Nat} (hm : m.wf = true)
    (hwrite : s.writeBus m a.toNat (leBytes (bits / 8) v.toNat) = (.ok (), t)) (hreg : regAt a.toNat = some (k, i)) :
    exec (.registerWrite m a bits v ev) s = .next ((t.setReg k i (t.reg k i ||| (ev &&& v &&& k.w1c))).answer (.ok 0)) := by
  show execRegisterWrite m a bits v s ev = _
  unfold execRegisterWrite
  dsimp only
  rw [hwrite, hreg, if_neg (not_not.mpr hm)]
  rfl

theorem registerWrite_exec_error {m : Master} {a : PAddr} {v ev : Word} {bits : Nat} {s t : State} {c : BitVec 3} (hm : m.wf = true)
    (hwrite : s.writeBus m a.toNat (leBytes (bits / 8) v.toNat) = (.error c, t)) :
    exec (.registerWrite m a bits v ev) s = .next (t.answer (.error c)) := by
  show execRegisterWrite m a bits v s ev = _
  unfold execRegisterWrite
  dsimp only
  rw [hwrite, if_neg (not_not.mpr hm)]
  rfl

/-- The pairs whose commit has an effect of its own. -/
theorem writeReg_hi {s : State} {m : Master} {k lk : RegKind} {i li b : Nat} {v : Word} (hpair : k.pair = some (true, b))
    (hk : k ∉ [RegKind.JNT_POS_HI, .JNT_INC_HI, .MOD_SYNC_HI, .RTC_SEC_HI, .GPTP_RATE_HI]) (hlo : regAt (b + k.stride * i) = some (lk, li)) :
    s.writeReg m k i v = (s.plainWrite lk li (Tab.get 0 s.staging (b + k.stride * i))).plainWrite k i v := by
  simp only [List.mem_cons, List.not_mem_nil, or_false, not_or] at hk
  obtain ⟨h1, h2, h3, h4, h5⟩ := hk
  rw [State.writeReg, hpair]
  dsimp only
  rw [State.writeHi, if_neg h1, if_neg h2, if_neg h3, if_neg h4, if_neg h5, State.commitPair]
  rw [hlo]

/-- A register of a kind whose bits software writes as it likes. -/
theorem plainWrite_of_rw {s : State} {k : RegKind} {i : Nat} {v : Word} (hrw : k.rw = 0xFFFF) (hw1c : k.w1c = 0) (hbits : k.bitsOf i = 0xFFFF) :
    s.plainWrite k i v = s.setReg k i v := by
  have hall (x : Word) : x &&& 0xFFFF = x := BitVec.and_allOnes
  have hnone (x : Word) : x &&& ~~~0xFFFF = 0 := BitVec.and_zero
  have hmask (sealed : Bool) : (if sealed then k.rw else k.rw ||| k.rwl) = 0xFFFF := by
    rw [hrw]
    split_ifs
    · rfl
    · exact BitVec.allOnes_or
  have hones (x : Word) : x &&& ~~~(0 &&& v) = x := by
    rw [show (0 &&& v : Word) = 0#16 from BitVec.zero_and, BitVec.not_zero, BitVec.and_allOnes]
  rw [State.plainWrite, writtenWord, hbits, hall, hw1c, hones, hmask, hnone, hall]
  exact congrArg (s.setReg k i) BitVec.zero_or

theorem rtcSecCommit_eq (s : State) (m : Master) (v : Word) : s.writeReg m .RTC_SEC_HI 0 v =
    ((s.setReg .RTC_SEC_LO 0 (Tab.get 0 s.staging (RegKind.RTC_SEC_LO.addr 0))).setReg .RTC_SEC_HI 0 v).setReg .RTC_SUB 0 0 := by
  have hlo : regAt (RegKind.RTC_SEC_LO.addr 0) = some (.RTC_SEC_LO, 0) := by decide +kernel
  have hcommit : s.writeReg m .RTC_SEC_HI 0 v = (s.commitPair .RTC_SEC_HI 0 (RegKind.RTC_SEC_LO.addr 0) v).setReg .RTC_SUB 0 0 := rfl
  rw [hcommit, State.commitPair]
  rw [show RegKind.RTC_SEC_LO.addr 0 + RegKind.RTC_SEC_HI.stride * 0 = RegKind.RTC_SEC_LO.addr 0 from rfl, hlo]
  dsimp only
  rw [plainWrite_of_rw (k := .RTC_SEC_LO) rfl rfl rfl, plainWrite_of_rw (k := .RTC_SEC_HI) rfl rfl rfl]

theorem registerWrites : Rules.RegisterWrites := by
  intro m a bits v s s1 k i done put hm hpath halign hreg
  have hwrite := writeBus_of_reg (v := v) hpath halign hreg
  refine ⟨fun _ ev => registerWrite_exec (bits := 16) hm hwrite hreg, fun b hpair hfree => ?_, fun b lk li hpair hk hlo => ?_, fun d ev hdie hbits => ?_,
    fun hnone => ?_, rfl, rfl, rfl, rfl, rfl, rfl, congrArg Host.Outcome.next (rtcSecCommit_eq s _ v)⟩
  · refine congrArg Host.Outcome.next ((if_pos hm).trans ?_)
    rw [hwrite, State.writeReg, hpair]
    dsimp only
    rw [if_neg hfree]
    rfl
  · refine congrArg Host.Outcome.next ((if_pos hm).trans ?_)
    rw [hwrite, writeReg_hi hpair hk hlo]
    rfl
  · exact registerWrite_exec_error hm (writeBus_of_width hdie hpath (by omega))
  · refine ⟨Config.freeWord s.fresh &&& 0x7FFF, by simp, ?_⟩
    intro cap
    have hread : s.readReg .RTC_SUB 0 = s.readRtcSub := by
      rw [State.readReg, hnone]
      exact if_pos rfl
    show Host.Outcome.next ((s.readReg .RTC_SUB 0).2.answer (.ok ((s.readReg .RTC_SUB 0).1.setWidth 64))) = _
    rw [hread]
    rfl

end Sys2Proof.Machine

namespace Sys2Proof

/-- Settles O27. -/
theorem registry : Obligations.Registry := ⟨Machine.registerAccesses, Machine.registerWrites⟩

end Sys2Proof
end

section
/-! SUPPORT. TLB lock commands and software interrupts (R302, R309, R320, R330). -/

namespace Sys2Proof.Machine

open Sys2Proof

theorem wfld_low (w : Word) (hi : Nat) : wfld w hi 0 = w.toNat % 2 ^ (hi + 1) := by simp [wfld_eq]

/-- The command that a write of a lock register starts. -/
def State.lockCmd (s : State) (d : Die) (v : Word) (load : Bool) : LockCmd where
  core := match d with
    | .c => wfld v 10 8
    | .f => 8 + wfld v 9 8
  slot := wfld v 2 0
  load := load
  va := w32of (s.reg (lockRegs d).2.1 0) (s.reg (lockRegs d).1 0)
  asid := BitVec.ofNat 8 (s.reg (lockRegs d).2.2.1 0).toNat

theorem lockVa_eq (hi lo : Word) : BitVec.ofNat 32 (lo.toNat + hi.toNat * 65536) = w32of hi lo := by rw [w32of, Nat.add_comm]

theorem asid_eq (w : Word) : BitVec.ofNat 8 (wfld w 7 0) = BitVec.ofNat 8 w.toNat := by
  rw [wfld_low]
  exact BitVec.eq_of_toNat_eq (by simp)

/-- A lock command starts where none is in progress. -/
theorem writeLkCmd_of_idle {s : State} {d : Die} {v : Word} (hlock : s.lock d = none) (hdie : d = .f ∨ s.pw.cReset = false) (hgo : v.getLsbD 15 = true) :
    s.writeLkCmd d v = (s.setLock d (some (s.lockCmd d v (!v.getLsbD 14)))).setBit (lockRegs d).2.2.2 0 15 true := by
  have hfree : ¬ (¬ wbit v 15 = true ∨ (s.lock d).isSome = true ∨ (d = .c ∧ s.pw.cReset = true)) := by
    rintro (h | h | ⟨h1, h2⟩)
    · exact h hgo
    · simp [hlock] at h
    · rcases hdie with h | h
      · exact absurd (h1.symm.trans h) Die.noConfusion
      · exact absurd (h2.symm.trans h) Bool.noConfusion
  have hload : (decide (¬ wbit v 14 = true)) = !v.getLsbD 14 := by simp [wbit]
  unfold State.writeLkCmd
  cases d <;> exact (if_neg hfree).trans (by rw [State.fld, asid_eq, State.pair, lockVa_eq, hload] <;> rfl)

theorem writeLkCmd_of_busy {s : State} {d : Die} {v : Word} (h : s.lock d ≠ none ∨ v.getLsbD 15 = false) : s.writeLkCmd d v = s := by
  refine if_pos ?_
  rcases h with h | h
  · exact Or.inr (Or.inl (Option.isSome_iff_ne_none.mpr h))
  · exact Or.inl (ne_true_of_eq_false h)

/-- The end of a lock command, with its cause. -/
def State.lockDone (s : State) (d : Die) (cause : Nat) : State :=
  ((s.setBit (lockRegs d).2.2.2 0 15 false).setBit (lockRegs d).2.2.2 0 14 true).setFld (lockRegs d).2.2.2 0 5 0 cause

/-- A slot of a core's locked entries filled or emptied. -/
def State.placeLocked (s : State) (c : CoreId) (slot : Nat) (x : Option Leaf) : State :=
  (s.setCore c { s.core c with locked := Tab.set none slot x (s.core c).locked }).setBit (lkValid c).1 (lkValid c).2 slot x.isSome

theorem tlbLockDone_exec {s : State} {d : Die} {l : LockCmd} {c : CoreId} (hlock : s.lock d = some l) (hc : l.core = c.val) :
    exec (.tlbLockDone d) s = .next (if ¬ l.load then ((s.setLock d none).placeLocked c l.slot none).lockDone d 0
      else match (s.setLock d none).lockLeaf c l with
        | (.ok x, s2) => (s2.placeLocked c l.slot (some x)).lockDone d 0
        | (.error e, s2) => s2.lockDone d (e.cause false)) := by
  have hcore : coreOf l.core = some c := hc ▸ coreOf_val c
  show execTlbLockDone d s = _
  unfold execTlbLockDone
  dsimp only
  rw [hlock]
  dsimp only
  rw [hcore] <;> rfl

/-- Lock commands of a die, from their start to their end. -/
theorem lockCommands (s : State) (d : Die) (v : Word) (l : LockCmd) (c : CoreId) :
    (s.lock d = none ∧ (d = .f ∨ s.pw.cReset = false) → v.getLsbD 15 = true → v.getLsbD 14 = false →
      exec (.tlbLockLoad d v) s = .next ((s.setLock d (some (s.lockCmd d v true))).setBit (lockRegs d).2.2.2 0 15 true)) ∧
    (s.lock d = none ∧ (d = .f ∨ s.pw.cReset = false) → v.getLsbD 15 = true → v.getLsbD 14 = true →
      exec (.tlbLockRelease d v) s = .next ((s.setLock d (some (s.lockCmd d v false))).setBit (lockRegs d).2.2.2 0 15 true)) ∧
    (s.lock d ≠ none ∨ v.getLsbD 15 = false → exec (.tlbLockLoad d v) s = .next s ∧ exec (.tlbLockRelease d v) s = .next s) ∧
    (s.lock d = some l → l.core = c.val →
      (l.load = false → exec (.tlbLockDone d) s = .next (((s.setLock d none).placeLocked c l.slot none).lockDone d 0)) ∧
      (l.load = true → match (s.setLock d none).lockLeaf c l with
        | (.ok x, s1) => exec (.tlbLockDone d) s = .next ((s1.placeLocked c l.slot (some x)).lockDone d 0)
        | (.error e, s1) => exec (.tlbLockDone d) s = .next (s1.lockDone d (e.cause false)))) := by
  refine ⟨fun hidle hgo hload => ?_, fun hidle hgo hload => ?_, fun h => ?_, fun hlock hc => ⟨fun hload => ?_, fun hload => ?_⟩⟩
  · exact congrArg Host.Outcome.next ((writeLkCmd_of_idle hidle.1 hidle.2 hgo).trans (by rw [hload] <;> rfl))
  · exact congrArg Host.Outcome.next ((writeLkCmd_of_idle hidle.1 hidle.2 hgo).trans (by rw [hload] <;> rfl))
  · exact ⟨congrArg Host.Outcome.next (writeLkCmd_of_busy h), congrArg Host.Outcome.next (writeLkCmd_of_busy h)⟩
  · exact (tlbLockDone_exec hlock hc).trans (congrArg Host.Outcome.next (if_pos (ne_true_of_eq_false hload)))
  · have hexec := (tlbLockDone_exec hlock hc).trans (congrArg Host.Outcome.next (if_neg (not_not.mpr hload)))
    generalize (s.setLock d none).lockLeaf c l = r at hexec
    obtain ⟨x | e, s1⟩ := r <;> exact hexec

/-- A software interrupt (R309). -/
theorem softwareInterrupt_exec (s : State) (d : Die) (v : Word) :
    exec (.softwareInterrupt d v) s = .next (if v.getLsbD 15 = false ∨ 12 ≤ v.toNat % 16 ∨ (d = .c ∧ s.pw.cReset = true) then s
      else if v.toNat % 16 < 8 then (if s.pw.cReset then s else s.setBit .HINT_PEND (v.toNat % 16) 10 true)
      else s.setBit .FHINT_PEND (v.toNat % 16 - 8) 10 true) := by
  refine congrArg Host.Outcome.next ?_
  have hn : wfld v 3 0 = v.toNat % 16 := wfld_low v 3
  rw [State.writeSwi, hn]
  unfold State.raise wbit
  generalize v.toNat % 16 = n
  by_cases hlost : d = .c ∧ s.pw.cReset = true
  · rw [if_pos hlost, if_pos (Or.inr (Or.inr hlost))]
  · rw [if_neg hlost]
    cases hgo : v.getLsbD 15
    · simp
    · by_cases hn : 12 ≤ n
      · simp [hn, show ¬ n < 8 by omega, show ¬ n < 12 by omega]
      · simp [hn, hlost, show n < 12 by omega]

end Sys2Proof.Machine

namespace Sys2Proof

open Sys2Proof.Machine

/-- Settles O29. -/
theorem locksAndSoftware : Obligations.LocksAndSoftware := by
  intro s d v l c
  obtain ⟨hload, hrelease, hbusy, hdone⟩ := lockCommands s d v l c
  cases d
  · exact ⟨hload, hrelease, hbusy, hdone, softwareInterrupt_exec s .c v⟩
  · exact ⟨hload, hrelease, hbusy, hdone, softwareInterrupt_exec s .f v⟩

end Sys2Proof
end

section
/-! SUPPORT. Tile ports cycle by cycle, and what happens to tiles between (R55 to R60, R65, R66, R75). -/

namespace Sys2Proof.Machine

open Sys2Proof

/-! ### The beats of a cycle -/

theorem foldl_oneEach (l acc : List Beat) (h : ((acc ++ l).map (·.master)).Nodup) :
    l.foldl (fun acc b => if acc.any (fun x => x.master = b.master) then acc else acc ++ [b]) acc = acc ++ l := by
  induction l generalizing acc with
  | nil => simp
  | cons b l ih =>
    have hnew : (acc.any fun x => decide (x.master = b.master)) = false := by
      rw [List.any_eq_false]
      intro x hx
      rw [List.map_append, List.nodup_append] at h
      simpa using h.2.2 x.master (List.mem_map_of_mem hx) b.master (List.mem_map_of_mem List.mem_cons_self)
    rw [List.foldl_cons, hnew, if_neg Bool.false_ne_true, ih _ (by simpa using h)]
    simp

theorem oneEach_of_nodup {l : List Beat} (h : (l.map (·.master)).Nodup) : oneEach l = l := foldl_oneEach l [] h

/-- Beats that pass their checks are ready. -/
theorem readyBeats_of_ok {s : State} {d : Die} {t : Nat} {l : List Beat} (h : ∀ b ∈ l, ∃ off x, s.tileOf d b.addr.toNat = some (t, off) ∧
    s.path ⟨d, b.master⟩ b.addr.toNat b.wr.isSome b.stream = (.ok x, s)) : s.readyBeats d t l = (l, s) := by
  induction l with
  | nil => rfl
  | cons b l ih =>
    obtain ⟨off, x, hof, hpath⟩ := h b List.mem_cons_self
    rw [State.readyBeats, hof]
    dsimp only
    rw [if_neg (not_not.mpr rfl), hpath]
    dsimp only
    rw [ih fun y hy => h y (List.mem_cons_of_mem _ hy)]

/-! ### Conflict counters -/

theorem conflict_eq (s : State) (d : Die) (g : Nat) (b : Beat) : s.conflict d g b = { s with ccnt := (s.conflict d g b).ccnt } := by
  unfold State.conflict
  split_ifs <;> rfl

theorem foldl_conflict (s : State) (d : Die) (g : Nat) (l : List Beat) : ∃ c, l.foldl (fun s b => s.conflict d g b) s = { s with ccnt := c } := by
  induction l generalizing s with
  | nil => exact ⟨s.ccnt, rfl⟩
  | cons b l ih =>
    obtain ⟨c, hc⟩ := ih (s.conflict d g b)
    refine ⟨c, hc.trans ?_⟩
    rw [conflict_eq s d g b]

/-- What a conflict counts. -/
theorem conflict_spec (s : State) (d : Die) (g : Nat) (b : Beat) :
    (∀ k, k ≠ ccntKey d b.master g → Tab.get 0 (s.conflict d g b).ccnt k = Tab.get 0 s.ccnt k) ∧
    Tab.get 0 (s.conflict d g b).ccnt (ccntKey d b.master g) =
      if s.bit (cctl d) 0 1 ∨ b.counted then Tab.get (0 : W32) s.ccnt (ccntKey d b.master g)
      else if Tab.get (0 : W32) s.ccnt (ccntKey d b.master g) = 0xFFFFFFFF then Tab.get 0 s.ccnt (ccntKey d b.master g)
      else Tab.get 0 s.ccnt (ccntKey d b.master g) + 1 := by
  unfold State.conflict
  split_ifs with h hmax
  · exact ⟨fun _ _ => rfl, rfl⟩
  · exact ⟨fun k hk => Tab.get_set_of_ne _ hk _ _, (Tab.get_set_self _ _ _ _).trans (if_pos hmax)⟩
  · exact ⟨fun k hk => Tab.get_set_of_ne _ hk _ _, (Tab.get_set_self _ _ _ _).trans (if_neg hmax)⟩

/-! ### The granted beat -/

/-- A read of a word without an error. -/
theorem readWord_clean {s : State} {d : Die} {t off n : Nat} (h : s.eccAt d t off = .clean) :
    s.readWord d t off n = (.ok (readBytes 0 (s.tileMem d) (s.tileAddr d t off) n), s) := by
  rw [State.readWord, h]

theorem readBytes_eq (d : Byte) (m : Tab Byte) (a n : Nat) : readBytes d m a n = (upto n).map fun i => Tab.get d m (a + i) := by
  induction n generalizing a with
  | zero => rfl
  | succ n ih =>
    rw [readBytes, ih, upto, upto, List.range_succ_eq_map, List.map_cons, List.map_map]
    refine congrArg₂ _ rfl (List.map_congr_left fun i _ => ?_)
    rw [Function.comp, Nat.succ_eq_add_one, show a + 1 + i = a + (i + 1) by omega]

/-- The word of a tile stored, while no migration is in progress. -/
theorem writeWord_clean {s : State} {d : Die} {t w : Nat} {bs : List Byte} {full : Bool} (h : s.eccAt d t (w * 8) = .clean) (hmig : s.spr.mig = none) :
    s.writeWord d t (w * 8) bs full = (.ok (),
      let put := (s.setTileMem d (writeBytes 0 (s.tileMem d) (s.tileAddr d t (w * 8)) bs)).setEccTab d
        (Tab.set .clean (s.tileAddr d t (w * 8) / 8) .clean (s.eccTab d))
      put.setTile d t { put.tile d t with writeback := (put.tile d t).writeback.filter (· ≠ w) }) := by
  have hw : w * 8 / 8 = w := Nat.mul_div_cancel w (by decide)
  have hmirror (u : State) (hu : u.spr = s.spr) (off : Nat) (l : List Byte) (e : Ecc) : u.mirror d t off l e = u := by
    unfold State.mirror
    rw [hu, hmig]
    cases d <;> rfl
  unfold State.writeWord
  dsimp only
  rw [h, hw, hmirror _ (by cases d <;> rfl)]
  cases d <;> cases full <;> rfl

theorem mergeBytes_getD (old : List Byte) (v : W64) (be : Byte) {i : Nat} (hi : i < 8) :
    (mergeBytes old v be).getD i 0 = if be.getLsbD i then BitVec.ofNat 8 (v.toNat / 256 ^ i) else old.getD i 0 := by
  have hlen : i < (mergeBytes old v be).length := by simpa [mergeBytes, upto] using hi
  rw [List.getD_eq_getElem _ _ hlen]
  simp [mergeBytes, upto]

theorem length_mergeBytes (old : List Byte) (v : W64) (be : Byte) : (mergeBytes old v be).length = 8 := by simp [mergeBytes, upto]

/-- A granted read. -/
theorem serve_read {s : State} {d : Die} {t x off : Nat} {b : Beat} (hb : b.wr = none) (hof : s.tileOf d b.addr.toNat = some (x, off))
    (hclean : s.eccAt d t (off / 8 * 8) = .clean) :
    s.serve d t b .clean =
      s.answer (.ok (BitVec.ofNat 64 (leNat ((upto 8).map fun i => Tab.get 0 (s.tileMem d) (s.tileAddr d t (off / 8 * 8) + i))))) := by
  unfold State.serve
  dsimp only
  rw [hof, hb]
  dsimp only
  rw [if_neg fun h => h.1 rfl, readWord_clean hclean, readBytes_eq]

/-- A granted write. -/
theorem serve_write {s : State} {d : Die} {t x off : Nat} {b : Beat} {v : W64} {be : Byte} (hb : b.wr = some (v, be))
    (hof : s.tileOf d b.addr.toNat = some (x, off)) (hclean : s.eccAt d t (off / 8 * 8) = .clean) (hmig : s.spr.mig = none) :
    s.serve d t b .clean =
      let a := s.tileAddr d t (off / 8 * 8)
      let put := (s.setTileMem d (writeBytes 0 (s.tileMem d) a (mergeBytes (readBytes 0 (s.tileMem d) a 8) v be))).setEccTab d
        (Tab.set .clean (a / 8) .clean (s.eccTab d))
      (put.setTile d t { put.tile d t with writeback := (put.tile d t).writeback.filter (· ≠ off / 8) }).answer (.ok 0) := by
  unfold State.serve
  dsimp only
  rw [hof, hb]
  dsimp only
  rw [if_neg fun h => h.1 rfl, writeWord_clean hclean hmig]

/-! ### A cycle -/

/-- The parts of the state on which the choice of a cycle rests are no counters. -/
theorem tileBeat_exec {s : State} {d : Die} {t : Nat} {beats : List Beat} (hne : beats ≠ []) (hwf : tileWf d t = true)
    (hone : (beats.map (·.master)).Nodup)
    (hok : ∀ b ∈ beats, ∃ off x, s.tileOf d b.addr.toNat = some (t, off) ∧ s.path ⟨d, b.master⟩ b.addr.toNat b.wr.isSome b.stream = (.ok x, s)) :
    exec (.tileBeat d t beats .clean) s = .next (
      if (s.tile d t).busy then s.portBusy d t beats
      else if wfld (s.reg (pwrReg d) t) 9 8 ≠ 0 ∨ (s.tile d t).trans.isSome then s.portAsleep d t beats
      else match s.grant d t beats with
        | none => s
        | some b => s.portServe d t beats b .clean) := by
  have hready : s.readyBeats d t (oneEach beats) = (beats, s) := by rw [oneEach_of_nodup hone, readyBeats_of_ok hok]
  refine congrArg Host.Outcome.next ((if_pos hwf).trans ?_)
  unfold State.portCycle
  rw [hready]
  dsimp only
  rw [if_neg hne] <;> rfl

/-- A tile that is not ON: all wait, and one in RET wakes (R59). -/
theorem portAsleep_eq (s : State) (d : Die) (t : Nat) (l : List Beat) : s.portAsleep d t l =
    let a := l.foldl (fun s b => s.conflict d (t / 16) b) s
    if wfld (s.reg (pwrReg d) t) 9 8 = 1 ∧ (s.tile d t).trans = none then a.moving d t 0 else a := by
  unfold State.portAsleep State.moving tileGroup
  obtain ⟨c, hc⟩ := foldl_conflict s d (t / 16) l
  have htile : (l.foldl (fun s b => s.conflict d (t / 16) b) s).tile d t = s.tile d t := by rw [hc]; rfl
  dsimp only
  rw [htile]
  simp only [Option.isNone_iff_eq_none, and_comm]

/-- The state in which the granted beat is served. -/
def State.granted (s : State) (d : Die) (t : Nat) (beats : List Beat) (b : Beat) : State :=
  ((beats.filter fun y => y ≠ b).foldl (fun s b => s.conflict d (t / 16) b) s).moveRr d t b.master

/-- It differs from the state before in counters and tiles only. -/
theorem granted_eq (s : State) (d : Die) (t : Nat) (beats : List Beat) (b : Beat) :
    ∃ c x, s.granted d t beats b = { s with ccnt := c, tiles := x } := by
  obtain ⟨c, hc⟩ := foldl_conflict s d (t / 16) (beats.filter fun y => y ≠ b)
  exact ⟨c, _, by rw [State.granted, hc]; rfl⟩

/-- A write narrower than a word holds the port for the next cycle too (R55). -/
theorem portServe_write {s u : State} {d : Die} {t : Nat} {beats : List Beat} {b : Beat} {v : W64} {be : Byte} (hb : b.wr = some (v, be))
    (hwrite : (s.granted d t beats b).serve d t b .clean = u) :
    s.portServe d t beats b .clean = if be = 0xFF then u else u.setTile d t { u.tile d t with busy := true } := by
  unfold State.portServe
  rw [hb, ← hwrite]
  rfl

theorem tileBeats : Rules.TileBeats := by
  intro s d t beats hne hwf hone hok act conflicts busy
  have hexec := tileBeat_exec hne hwf hone hok
  refine ⟨fun hbusy => hexec.trans (congrArg Host.Outcome.next (if_pos hbusy)), fun hbusy hoff => ?_, ?_, fun b g => ?_⟩
  · have hasleep : wfld (s.reg (pwrReg d) t) 9 8 ≠ 0 ∨ (s.tile d t).trans.isSome = true := hoff.imp_right Option.isSome_iff_ne_none.mpr
    exact hexec.trans (congrArg Host.Outcome.next ((if_neg (ne_true_of_eq_false hbusy)).trans ((if_pos hasleep).trans (portAsleep_eq s d t beats))))
  · intro b x off hbusy hact htrans hgrant hof hmig hclean a r at' old
    have hserve : exec (.tileBeat d t beats .clean) s = .next (s.portServe d t beats b .clean) := by
      rw [hexec, if_neg (ne_true_of_eq_false hbusy), if_neg (by simp [htrans, show wfld (s.reg (pwrReg d) t) 9 8 = 0 from hact]), hgrant]
    have hr : s.granted d t beats b = r := by cases d <;> rfl
    have hat : s.tileAddr d t (off / 8 * 8) = at' := by cases d <;> rfl
    obtain ⟨c, y, heq⟩ := granted_eq s d t beats b
    have hof' : (s.granted d t beats b).tileOf d b.addr.toNat = some (x, off) := by rw [heq]; exact hof
    have hclean' : (s.granted d t beats b).eccAt d t (off / 8 * 8) = .clean := by rw [heq]; exact hclean
    have hmem : (s.granted d t beats b).tileMem d = s.tileMem d := by rw [heq]; cases d <;> rfl
    have haddr : (s.granted d t beats b).tileAddr d t (off / 8 * 8) = at' := by rw [heq]; exact hat
    refine ⟨fun hwr => ?_, fun v be hwr => ?_⟩
    · refine hserve.trans (congrArg Host.Outcome.next ?_)
      have hread := serve_read hwr hof' hclean'
      rw [hmem, haddr, hr] at hread
      unfold State.portServe
      rw [hwr]
      exact hread
    · have hwrite := serve_write hwr hof' hclean' (by rw [heq]; exact hmig)
      have hecc : (s.granted d t beats b).eccTab d = s.eccTab d := by rw [heq]; cases d <;> rfl
      rw [hmem, haddr, hecc, hr] at hwrite
      have hkey : Tab.get .clean (s.eccTab d) (at' / 8) = .clean := by rw [← hat]; exact hclean
      have hlen := length_mergeBytes (readBytes 0 (s.tileMem d) at' 8) v be
      refine ⟨writeBytes 0 (s.tileMem d) at' (mergeBytes (readBytes 0 (s.tileMem d) at' 8) v be), Tab.set .clean (at' / 8) .clean (s.eccTab d),
        hserve.trans (congrArg Host.Outcome.next ?_), fun i hi => ?_, fun k hk => get_writeBytes_of_out _ _ _ _ _ (by omega),
        fun k => get_set_clean _ _ _ hkey⟩
      · refine (portServe_write hwr (hwrite := (congrArg (fun r => State.serve r d t b .clean) hr).trans hwrite)).trans ?_
        split_ifs <;> rfl
      · have hi' : i < (readBytes 0 (s.tileMem d) at' 8).length := by simpa [readBytes_eq, upto] using hi
        rw [get_writeBytes_of_in _ _ _ _ _ (by omega), mergeBytes_getD _ _ _ hi, List.getD_eq_getElem _ _ hi']
        simp [readBytes_eq, upto, old]
  · intro n key was
    obtain ⟨hother, hself⟩ := conflict_spec s d g b
    cases d
    · exact ⟨conflict_eq s .c g b, hother, hself⟩
    · exact ⟨conflict_eq s .f g b, hother, hself⟩

/-! ### Between beats -/

theorem powerGoal_eq {act req : Nat} (ha : act < 4) (hr : req < 4) : powerGoal act req = goalRule act req := by
  have hall : ∀ act < 4, ∀ req < 4, powerGoal act req = goalRule act req := by decide
  exact hall act ha req hr

theorem wfld_lt (w : Word) (hi lo : Nat) : wfld w hi lo < 2 ^ (hi + 1 - lo) := by
  rw [wfld_eq]
  exact Nat.mod_lt _ (by positivity)

/-- A transition starts where none is in progress and the tile is not under migration. -/
theorem startTile_of_free {s : State} {d : Die} {t : Nat} (htrans : (s.tile d t).trans = none) (hmig : s.migrating d t = false) :
    s.startTile d t = match goalRule (wfld (s.reg (pwrReg d) t) 9 8) (wfld (s.reg (pwrReg d) t) 1 0) with
      | some g => s.moving d t g
      | none => s := by
  unfold State.startTile State.moving
  dsimp only
  rw [if_neg (by simp [htrans, hmig]), powerGoal_eq (wfld_lt _ _ _) (wfld_lt _ _ _)]
  cases goalRule (wfld (s.reg (pwrReg d) t) 9 8) (wfld (s.reg (pwrReg d) t) 1 0) <;> rfl

theorem startTile_of_held {s : State} {d : Die} {t : Nat} (h : (s.tile d t).trans ≠ none ∨ s.migrating d t = true) : s.startTile d t = s := by
  refine if_pos ?_
  rw [Bool.or_eq_true, Option.isSome_iff_ne_none]
  exact h

theorem tilePower_eq (s : State) (d : Die) (t : Nat) (v : Word) :
    s.tilePower d t v = (s.setReg (pwrReg d) t (putFld (s.reg (pwrReg d) t) 1 0 (wfld v 1 0))).startTile d t := rfl

/-- A word that scrubbing reads without an error changes nothing. -/
theorem scrubWord_clean {s : State} {d : Die} {t off : Nat} (h : s.eccAt d t off = .clean) : s.scrubWord d t off = s := by
  rw [State.scrubWord, h]

theorem foldl_scrub_clean (s : State) (d : Die) (t line : Nat) (l : List Nat) (h : ∀ i ∈ l, s.eccAt d t (line * 64 + 8 * i) = .clean) :
    l.foldl (fun s i => s.scrubWord d t (line * 64 + 8 * i)) s = s := by
  induction l with
  | nil => rfl
  | cons i l ih =>
    rw [List.foldl_cons, scrubWord_clean (h i List.mem_cons_self)]
    exact ih fun j hj => h j (List.mem_cons_of_mem _ hj)

theorem corrected_eq (x : Tile) (w : Nat) : x.corrected w = if w ∈ x.writeback then x else { x with writeback := x.writeback ++ [w] } := by
  simp [Tile.corrected]

theorem eccWriteback_exec (s : State) (d : Die) (t : Nat) : exec (.eccWriteback d t) s = .next (match (s.tile d t).writeback with
    | [] => s
    | w :: rest =>
      let a := s.setTile d t { s.tile d t with writeback := rest }
      if a.eccAt d t (8 * w) = .single then a.setEcc d t (8 * w) .clean else a) := rfl

theorem tileUpkeep : Rules.TileUpkeep := by
  intro s d t idle w ws v g hwf x p
  refine ⟨fun h => ?_, fun h => ?_, fun hen hon htrans => ?_, fun off => ⟨fun h => ?_, fun h => ?_⟩, ?_, fun htrans => ?_, ?_, ?_⟩
  · exact (eccWriteback_exec s d t).trans (congrArg Host.Outcome.next (by rw [show (s.tile d t).writeback = [] from h]))
  · intro a
    have hexec : exec (.eccWriteback d t) s = .next (if a.eccAt d t (8 * w) = .single then a.setEcc d t (8 * w) .clean else a) :=
      (eccWriteback_exec s d t).trans (congrArg Host.Outcome.next (by rw [show (s.tile d t).writeback = w :: ws from h]))
    have hecc : a.eccAt d t (8 * w) = s.eccAt d t (8 * w) := by cases d <;> rfl
    rw [hecc] at hexec
    exact ⟨fun hs => hexec.trans (congrArg Host.Outcome.next (if_pos hs)), fun hs => hexec.trans (congrArg Host.Outcome.next (if_neg hs))⟩
  · intro scan
    refine ⟨?_, fun hclean => foldl_scrub_clean s d t _ _ fun i hi => hclean i (List.mem_range.mp hi)⟩
    have hgo : tileWf d t = true ∧ s.bit (tileCtrl d) 0 15 = true ∧ wfld (s.reg (pwrReg d) t) 9 8 = 0 ∧ (s.tile d t).trans.isNone = true :=
      ⟨hwf, hen, hon, Option.isNone_iff_eq_none.mpr htrans⟩
    refine (if_pos hgo).trans ?_
    cases d <;> rfl
  · rw [State.scrubWord, h]
    dsimp only
    rw [corrected_eq]
  · rw [State.scrubWord, h]
  · intro a
    have hexec : exec (.tilePowerRequest d t v) s = .next (a.startTile d t) := congrArg Host.Outcome.next ((if_pos hwf).trans (tilePower_eq s d t v))
    have hmig : a.migrating d t = s.migrating d t := by cases d <;> rfl
    have hreg : a.reg (pwrReg d) t = putFld p 1 0 (wfld v 1 0) := reg_setReg s _ _ _
    refine ⟨fun hheld => hexec.trans (congrArg Host.Outcome.next (startTile_of_held (hheld.imp_right hmig.trans))), fun htrans hfree => ?_⟩
    refine hexec.trans (congrArg Host.Outcome.next ((startTile_of_free (s := a) htrans (hmig.trans hfree)).trans ?_))
    have hact : wfld (putFld p 1 0 (wfld v 1 0)) 9 8 = wfld p 9 8 := wfld_putFld_of_disjoint _ _ _ _ _ _ (by decide) (by decide) (by decide)
    have hreq : wfld (putFld p 1 0 (wfld v 1 0)) 1 0 = wfld v 1 0 :=
      (wfld_putFld _ _ _ _ (by decide) (by decide)).trans (Nat.mod_eq_of_lt (wfld_lt v 1 0))
    rw [hreg, hact, hreq] <;> rfl
  · intro z
    refine congrArg Host.Outcome.next ((if_pos hwf).trans ?_)
    unfold State.endTile
    dsimp only
    rw [show (s.tile d t).trans = some g from htrans] <;> rfl
  · intro n zone limit reserved
    have hlimit : s.idleLimit d t = if n = 0 then none else some limit := by cases d <;> rfl
    have hexec : exec (.tileIdleExpiry d t idle) s = .next (if n = 0 then s
        else if tileWf d t = true ∧ wfld p 1 0 = 3 ∧ wfld p 9 8 = 0 ∧ x.trans.isNone = true ∧ limit ≤ idle ∧ ¬ reserved then s.moving d t 1 else s) := by
      show execTileIdleExpiry d t idle s = _
      unfold execTileIdleExpiry
      dsimp only
      rw [hlimit]
      by_cases hn : n = 0
      · rw [if_pos hn, if_pos hn]
      · rw [if_neg hn, if_neg hn] <;> rfl
    refine ⟨fun hn hreq hact htrans hidle hres => ?_, fun h => ?_⟩
    · exact hexec.trans (congrArg Host.Outcome.next ((if_neg hn).trans (if_pos ⟨hwf, hreq, hact, Option.isNone_iff_eq_none.mpr htrans, hidle, hres⟩)))
    · refine hexec.trans (congrArg Host.Outcome.next ?_)
      by_cases hn : n = 0
      · exact if_pos hn
      · refine (if_neg hn).trans (if_neg ?_)
        rintro ⟨-, hreq, hact, -, hidle, hres⟩
        rcases h with h | h | h | h | h
        · exact hn h
        · exact h hreq
        · exact h hact
        · omega
        · exact hres h
  · intro a
    cases d <;> rfl

end Sys2Proof.Machine

namespace Sys2Proof

/-- Settles O30. -/
theorem tiles : Obligations.Tiles := ⟨Machine.tileBeats, Machine.tileUpkeep⟩

end Sys2Proof
end

section
/-! SUPPORT. Brick queues: a joint's submission, the flush, expiry (R87 to R89, R120, R167, R174). -/

namespace Sys2Proof.Machine

open Sys2Proof

theorem setQueue_eq (s : State) (q : BitVec 4) (v : Queue) : s.setQueue q.toNat v = { s with queues := s.queues.set q.toNat v } := dif_pos q.isLt

theorem modBrick_eq (s : State) (q : BitVec 4) (seq : Nat) (f : Brick → Brick) : s.modBrick q.toNat seq f = s.entry q seq f := by
  rw [State.modBrick, queue_eq]
  exact setQueue_eq s q _

theorem putBrick_eq (s : State) (q : BitVec 4) (b : Brick) : s.putBrick q.toNat b = s.entry q b.seq fun _ => b := modBrick_eq s q _ _

theorem brickExpiry_exec {s : State} {q : BitVec 4} {seq : Nat} {b : Brick} (hb : s.brick q.toNat seq = some b) :
    exec (.brickExpiry q seq) s =
      .next (if b.st = .queued ∧ s.deadlinePassed b = true then (s.putBrick q.toNat (b.finish 3)).shed .KILN_QEXP q.toNat else s) := by
  show execBrickExpiry q seq s = _
  unfold execBrickExpiry
  rw [hb]

end Sys2Proof.Machine

namespace Sys2Proof

open Sys2Proof.Machine

/-- Settles O31. -/
theorem brickQueues : Obligations.BrickQueues := by
  intro s q line b arrived ready shed open'
  refine ⟨fun h => ?_, fun hready hno => ?_, fun l s1 hready hopen hjoint hread => ?_, ?_, fun hb => ⟨fun hst hdl => ?_, fun h => ?_⟩⟩
  · exact congrArg Host.Outcome.next (if_neg h)
  · have hshed : (arrived.queueRefuses q.toNat || !(arrived.bit .VX_QCFG q.toNat 10)) = true := by
      rw [Bool.or_eq_true, Bool.not_eq_true']
      refine hno.imp_left fun h => ?_
      rw [← Bool.not_eq_false]
      exact fun hf => h ((queueRefuses_iff arrived q).mp hf)
    exact congrArg Host.Outcome.next ((if_pos hready).trans (if_pos hshed))
  · intro u
    have htake : ¬ (arrived.queueRefuses q.toNat || !(arrived.bit .VX_QCFG q.toNat 10)) = true := by
      rw [(queueRefuses_iff arrived q).mpr hopen, show arrived.bit .VX_QCFG q.toNat 10 = true from hjoint]
      exact Bool.false_ne_true
    obtain ⟨rem, haccept⟩ := accept_eq s1 q (wordsOf l) true (s1.fld .VX_QCFG q.toNat 9 8)
    refine ⟨rem, congrArg Host.Outcome.next ((if_pos hready).trans ((if_neg htake).trans ?_))⟩
    rw [hread, wordsOf_eq]
    exact haccept
  · intro u
    refine congrArg Host.Outcome.next ?_
    rw [State.flush, queue_eq]
    exact setQueue_eq s q _
  · have hexec := brickExpiry_exec hb
    refine hexec.trans (congrArg Host.Outcome.next ((if_pos ⟨hst, hdl⟩).trans ?_))
    rw [putBrick_eq]
    rfl
  · have hexec := brickExpiry_exec hb
    refine hexec.trans (congrArg Host.Outcome.next (if_neg ?_))
    rintro ⟨hst, hdl⟩
    rcases h with h | h
    · exact h hst
    · exact absurd (hdl.symm.trans h) Bool.noConfusion

end Sys2Proof
end

section
/-! SUPPORT. One walk of the kiln over the eligible bricks (R161 to R165). -/

namespace Sys2Proof.Machine

open Sys2Proof

/-- t is s but for buckets, bricks and held clusters: what admission works on. -/
def OfAdmission (s t : State) : Prop := t = { s with zones := t.zones, queues := t.queues, clusterHold := t.clusterHold }

theorem OfAdmission.refl (s : State) : OfAdmission s s := rfl

theorem OfAdmission.trans {s t u : State} (hst : OfAdmission s t) (htu : OfAdmission t u) : OfAdmission s u := by
  unfold OfAdmission at *
  rw [htu, hst]

theorem OfAdmission.foldl {α : Type} {f : State → α → State} (hf : ∀ s a, OfAdmission s (f s a)) (l : List α) (s : State) :
    OfAdmission s (l.foldl f s) := by
  induction l generalizing s with
  | nil => exact .refl s
  | cons a l ih => exact (hf s a).trans (ih (f s a))

theorem OfAdmission.modBrick (s : State) (q seq : Nat) (f : Brick → Brick) : OfAdmission s (s.modBrick q seq f) := by
  unfold State.modBrick State.setQueue
  split
  · rfl
  · exact .refl s

theorem OfAdmission.pay (s : State) (z : Nat) (p : Int × Int) : OfAdmission s (s.pay z p) := rfl

theorem OfAdmission.hold (s : State) (f : State → List (Nat × Option (Nat × Nat))) : OfAdmission s { s with clusterHold := f s } := rfl

theorem OfAdmission.give (s : State) (q : Nat) (b : Brick) (l : List Nat) : OfAdmission s (s.give q b l) :=
  ((OfAdmission.foldl (fun s _ => OfAdmission.pay s _ _) _ s).trans (OfAdmission.modBrick _ q b.seq _)).trans
    (OfAdmission.hold _ fun s => s.clusterHold.filter fun e => e.2 ≠ some (q, b.seq))

theorem OfAdmission.overtake (s : State) (passed : List (Nat × Brick)) : OfAdmission s (s.overtake passed) :=
  OfAdmission.foldl (fun s _ => OfAdmission.modBrick s _ _ _) passed s

theorem OfAdmission.preempt (s : State) (q : Nat) (b : Brick) (v : Nat × Brick) : OfAdmission s (s.preempt q b v) :=
  (OfAdmission.modBrick s v.1 v.2.seq _).trans (OfAdmission.hold _ fun s => Tab.set none v.2.topCluster (some (q, b.seq)) s.clusterHold)

theorem admitWalk_cons (s : State) (q : Nat) (b : Brick) (rest passed : List (Nat × Brick)) :
    s.admitWalk ((q, b) :: rest) passed =
      if b.len = 0 then (s.give q b []).overtake passed
      else match s.clustersFor q b with
        | some l => (s.give q b l).overtake passed
        | none => match s.victimFor q b with
          | some v => s.preempt q b v
          | none => if s.fld .KILN_CTRL 0 7 3 ≠ 0 ∧ s.fld .KILN_CTRL 0 7 3 ≤ b.overtaken then s else s.admitWalk rest (passed ++ [(q, b)]) := rfl

theorem OfAdmission.admitWalk (s : State) (l passed : List (Nat × Brick)) : OfAdmission s (s.admitWalk l passed) := by
  induction l generalizing passed with
  | nil => exact .refl s
  | cons e rest ih =>
    obtain ⟨q, b⟩ := e
    rw [admitWalk_cons]
    have hgiven (l : List Nat) : OfAdmission s ((s.give q b l).overtake passed) := (OfAdmission.give s q b l).trans (.overtake _ passed)
    split
    · exact hgiven []
    · split
      · exact hgiven _
      · split
        · exact .preempt s q b _
        · split
          · exact .refl s
          · exact ih _

theorem OfAdmission.pruneHolds (s : State) : OfAdmission s s.pruneHolds := rfl

theorem mem_insertBrick (e x : Nat × Brick) (l : List (Nat × Brick)) : e ∈ insertBrick x l ↔ e = x ∨ e ∈ l := by
  induction l with
  | nil => simp [insertBrick]
  | cons y l ih =>
    rw [insertBrick]
    split
    · simp
    · simp only [List.mem_cons, ih]
      tauto

theorem mem_foldr_insertBrick (e : Nat × Brick) (l : List (Nat × Brick)) : e ∈ l.foldr insertBrick [] ↔ e ∈ l := by
  induction l with
  | nil => rfl
  | cons y l ih => rw [List.foldr_cons, mem_insertBrick, ih, List.mem_cons]

theorem mem_ranked (s : State) (e : Nat × Brick) : e ∈ s.ranked ↔ e ∈ s.bricks ∧ s.eligible e.1 e.2 = true := by
  rw [State.ranked, mem_foldr_insertBrick, List.mem_filter]

theorem before_eq (a b : Brick) : before a b =
    if a.cls ≠ b.cls then decide (a.cls < b.cls)
    else if (remainKey a.remain).1 ≠ (remainKey b.remain).1 then decide ((remainKey a.remain).1 < (remainKey b.remain).1)
    else if (remainKey a.remain).2 ≠ (remainKey b.remain).2 then decide ((remainKey a.remain).2 < (remainKey b.remain).2)
    else decide (a.arrival < b.arrival) := rfl

theorem before_of_cls_lt {x y : Brick} (h : x.cls < y.cls) : before x y = true ∧ before y x = false := by
  rw [before_eq, before_eq, if_pos (Nat.ne_of_lt h), if_pos (Nat.ne_of_gt h)]
  exact ⟨decide_eq_true h, decide_eq_false (Nat.not_lt_of_gt h)⟩

theorem before_of_remain_lt {x y : Brick} {m : Int} (hcls : x.cls = y.cls) (hx : x.remain = some (some m))
    (hy : ∀ n, y.remain = some (some n) → m < n) : before x y = true ∧ before y x = false := by
  rw [before_eq, before_eq, if_neg (not_not.mpr hcls), if_neg (not_not.mpr hcls.symm), hx]
  rcases hr : y.remain with _ | _ | n
  · exact ⟨rfl, rfl⟩
  · exact ⟨rfl, rfl⟩
  · have hlt := hy n hr
    have hne : m ≠ n := Int.ne_of_lt hlt
    simp only [remainKey, ne_eq, not_true_eq_false, if_false, hne, hne.symm, not_false_eq_true, if_true]
    exact ⟨decide_eq_true hlt, decide_eq_false (lt_asymm hlt)⟩

theorem before_of_same_remain {x y : Brick} (hcls : x.cls = y.cls) (hr : x.remain = y.remain) : before x y = decide (x.arrival < y.arrival) := by
  rw [before_eq, if_neg (not_not.mpr hcls), hr, if_neg (not_not.mpr rfl), if_neg (not_not.mpr rfl)]

end Sys2Proof.Machine

namespace Sys2Proof

open Sys2Proof.Machine

/-- Settles O32. -/
theorem admission : Obligations.Admission := by
  intro s q b rest passed x y a
  have hexec : exec .kilnAdmission s = .next (if a.computeReady then a.admitWalk a.ranked [] else a) := rfl
  refine ⟨⟨_, hexec, ?_⟩, fun h => ?_, fun h => ?_, ?_, mem_ranked s, before_of_cls_lt, fun m => before_of_remain_lt, before_of_same_remain⟩
  · show OfAdmission s _
    split
    · exact (OfAdmission.pruneHolds s).trans (.admitWalk _ _ _)
    · exact .pruneHolds s
  · refine hexec.trans (congrArg Host.Outcome.next (if_neg ?_))
    rw [h]
    exact Bool.false_ne_true
  · exact hexec.trans (congrArg Host.Outcome.next (if_pos h))
  · intro walk lim
    have hwalk := admitWalk_cons s q b rest passed
    refine ⟨rfl, fun hlen => ?_, fun l hlen hl => ?_, fun v hlen hl hv => ?_, fun hlen hl hv => ?_⟩
    · exact hwalk.trans (if_pos hlen)
    · exact hwalk.trans ((if_neg hlen).trans (by rw [hl]))
    · exact hwalk.trans ((if_neg hlen).trans (by rw [hl, hv]; rfl))
    · exact hwalk.trans ((if_neg hlen).trans (by rw [hl, hv]))

end Sys2Proof
end

section
/-! SUPPORT. The life of a brick: setting-out, probe, blocks, suspension, end (R93 to R116, R159, R160). -/

namespace Sys2Proof.Machine

open Sys2Proof

/-- A brick that stands in its queue with its template is run by f where its state allows it. -/
theorem withBrick_of_ok {s s1 : State} {q : BitVec 4} {b b1 : Brick} {t : Template} {ok : Brick → Bool}
    {f : Brick → Template → Brick × State} (hb : s.holds q b t) (hok : ok b = true) (hf : f b t = (b1, s1)) :
    s.withBrick q.toNat b.seq ok f = s1.entry q b1.seq fun _ => b1 := by
  obtain ⟨hbrick, htemplate⟩ := hb
  unfold State.withBrick
  rw [hbrick]
  dsimp only
  rw [if_neg (not_not.mpr hok), show s.templateOf b = some t from htemplate]
  dsimp only
  rw [hf]
  exact putBrick_eq s1 q b1

theorem withBrick_of_not {s : State} {q : BitVec 4} {b : Brick} {t : Template} {ok : Brick → Bool}
    {f : Brick → Template → Brick × State} (hb : s.holds q b t) (hok : ok b = false) : s.withBrick q.toNat b.seq ok f = s := by
  unfold State.withBrick
  rw [hb.1]
  dsimp only
  exact if_pos (by rw [hok]; exact Bool.false_ne_true)

theorem foldl_add_eq_sum (f : Nat → Nat) (l : List Nat) (n : Nat) : l.foldl (fun n z => n + f z) n = n + (l.map f).sum := by
  induction l generalizing n with
  | nil => rfl
  | cons z l ih => rw [List.foldl_cons, ih, List.map_cons, List.sum_cons, Nat.add_assoc]

theorem meteredOf_eq_sum (s : State) (b : Brick) (metered : List Nat) :
    s.meteredOf b metered = (b.clusters.map fun z => metered.getD z 0 - (s.zone z).idle * (s.ticks - b.since) / 800).sum :=
  (foldl_add_eq_sum _ b.clusters 0).trans (Nat.zero_add _)

/-- What a block whose outputs differ first at element e comes to (R109). -/
theorem blockDone_of_mismatch {s s1 : State} {q : BitVec 4} {b b1 : Brick} {t : Template} {e : Nat} (hb : s.holds q b t) (hst : b.st = .run)
    (hpaired : b.paired = true) (hfrom : max b.k b.seen ≤ e) (hend : e < b.blockEnd)
    (hrun : (if b.k < b.seen then s.runTo t b b.seen true else (b, s)) = (b1, s1)) :
    exec (.brickBlockDone q b.seq (some e)) s =
      .next (s1.entry q b1.seq fun _ => if b1.st = .run then { b1.ends 7 with report := some (e, 0, 0) } else b1) := by
  refine congrArg Host.Outcome.next ?_
  by_cases hrunning : b1.st = .run
  · rw [if_pos hrunning]
    refine withBrick_of_ok (b1 := { b1.ends 7 with report := some (e, 0, 0) }) hb (decide_eq_true hst) ?_
    dsimp only
    rw [if_pos ⟨hpaired, hfrom, hend⟩, hrun]
    exact if_pos hrunning
  · rw [if_neg hrunning]
    refine withBrick_of_ok hb (decide_eq_true hst) ?_
    dsimp only
    rw [if_pos ⟨hpaired, hfrom, hend⟩, hrun]
    exact if_neg hrunning

/-- A suspension reaches an element boundary: b1 and s1 are the brick and the state there (R106). -/
def Suspending (s : State) (t : Template) (b : Brick) (e : Nat) (b1 : Brick) (s1 : State) : Prop :=
  (b.st = .probe ∧ s.probeTo t b e = (b1, s1)) ∨
  (b.st = .run ∧ b.k < min e b.limit ∧ s.runTo t b (min e b.limit) true = (b1, s1)) ∨
  (b.st = .run ∧ min e b.limit ≤ b.k ∧ b1 = b ∧ s1 = s)

theorem Suspending.running {s s1 : State} {t : Template} {b b1 : Brick} {e : Nat} (h : Suspending s t b e b1 s1) : b.running = true := by
  rcases h with ⟨hst, -⟩ | ⟨hst, -⟩ | ⟨hst, -⟩ <;> simp [Brick.running, hst]

theorem suspend_exec {s s1 u : State} {q : BitVec 4} {b b1 y : Brick} {t : Template} {e : Nat} {metered : List Nat} (hb : s.holds q b t)
    (hreq : b.suspendReq = true) (h : Suspending s t b e b1 s1)
    (hy : (if b1.running then s1.suspended b1 metered else ({ b1 with suspendReq := false }, s1)) = (y, u)) :
    exec (.brickSuspend q b.seq e metered) s = .next (u.entry q y.seq fun _ => y) := by
  refine congrArg Host.Outcome.next (withBrick_of_ok hb (by rw [h.running, hreq]; rfl) ?_)
  rcases h with ⟨hst, hprobe⟩ | ⟨hst, hlt, hrun⟩ | ⟨hst, hle, rfl, rfl⟩
  · rw [hst, hprobe]
    exact hy
  · rw [hst]
    dsimp only
    rw [if_pos hlt, hrun]
    exact hy
  · rw [hst]
    dsimp only
    rw [if_neg (Nat.not_lt.mpr hle)]
    exact hy

theorem running_of {b : Brick} (h : b.st = .probe ∨ b.st = .run) : b.running = true := by
  rcases h with h | h <;> simp [Brick.running, h]

theorem brickWork : Rules.BrickWork := by
  intro s s1 s2 q b b1 t e metered hb
  refine ⟨fun hst hrun => ?_, fun hst hrun => ?_, ?_, ?_, fun hreq => ?_⟩
  · exact congrArg Host.Outcome.next (withBrick_of_ok hb (decide_eq_true hst) hrun)
  · exact congrArg Host.Outcome.next (withBrick_of_ok hb (decide_eq_true hst) hrun)
  · intro from' blockEnd hst
    refine ⟨fun hrun => ?_, fun hpaired hfrom hend => ⟨fun hseen => ?_, fun hseen hrun => ?_⟩⟩
    · exact congrArg Host.Outcome.next (withBrick_of_ok hb (decide_eq_true hst) hrun)
    · refine (blockDone_of_mismatch hb hst hpaired hfrom hend (if_neg (Nat.not_lt.mpr hseen))).trans ?_
      rw [if_pos hst]
    · exact blockDone_of_mismatch hb hst hpaired hfrom hend ((if_pos hseen).trans hrun)
  · intro x net reached hreq hreached
    refine ⟨fun hprobe hrun => ?_, fun hst hw => ?_, fun hst hw => ?_⟩
    · refine suspend_exec (y := { b1 with suspendReq := false }) hb hreq hreached (if_neg ?_)
      simp [Brick.running, hprobe, hrun]
    · refine suspend_exec (y := { x with
        st := if b1.st = .probe then .suspProbe else .suspRun
        seen := 0, suspendReq := false, clusters := [], charges := [], energy := b1.energy + (b1.clusters.map net).sum })
        hb hreq hreached ((if_pos (running_of hst)).trans ?_)
      unfold State.suspended
      dsimp only
      rw [hw, meteredOf_eq_sum]
      rfl
    · refine suspend_exec (y := { b1.ends 0x17 with statusOk := false, suspendReq := false }) hb hreq hreached
        ((if_pos (running_of hst)).trans ?_)
      unfold State.suspended
      dsimp only
      rw [hw]
      rfl
  · refine congrArg Host.Outcome.next (withBrick_of_not hb ?_)
    rw [hreq, Bool.and_false]

theorem brickEnd : Rules.BrickEnd := by
  intro s s1 q b code c metered hbrick hst net b1 a l hstatus sig logged told r u
  have hend : exec (.brickEnd q b.seq metered) s = .next (s.endBrick q.toNat b code metered) := by
    show execBrickEnd q b.seq metered s = _
    unfold execBrickEnd
    rw [hbrick]
    dsimp only
    rw [hst]
  refine hend.trans (congrArg Host.Outcome.next ?_)
  have henergy : { b with energy := b.energy + s.meteredOf b metered } = b1 := by rw [meteredOf_eq_sum]
  have hlogged : (if c = 0x10 ∨ c = 0x17 then s1.logQueueError q.toNat b c else s1) = logged := by
    by_cases hc : c = 0x10 ∨ c = 0x17
    · exact (if_pos hc).trans (if_neg (by tauto)).symm
    · exact (if_neg hc).trans (if_pos (by tauto)).symm
  have htold : logged.signal b c = r := by
    unfold State.signal
    dsimp only
    refine if_congr ?_ rfl rfl
    simp
  unfold State.endBrick
  dsimp only
  rw [henergy]
  change (match l.endStatus b1 code with | (code', s3) => _) = _
  rw [hstatus]
  dsimp only
  rw [hlogged, htold, queue_eq, setQueue_eq]
  rfl

end Sys2Proof.Machine

namespace Sys2Proof

open Sys2Proof.Machine

/-- Settles O33. -/
theorem brickLife : Obligations.BrickLife := ⟨brickWork, brickEnd⟩

end Sys2Proof
end

section
/-! SUPPORT. The kiln's zones: the refill of a microsecond (R152 to R154, R159, R176, R177), and VID (R169, R388). -/

namespace Sys2Proof.Machine

open Sys2Proof

theorem upto_succ (n : Nat) : upto (n + 1) = upto n ++ [n] := List.range_succ

/-- A property that one step of a fold brings about, and every step keeps, holds of its result. -/
theorem foldl_reaches {α β : Type} {P Q : α → Prop} {f : α → β → α} {l : List β} {b : β} (hP : ∀ s, ∀ x ∈ l, P s → P (f s x))
    (hQ : ∀ s, ∀ x ∈ l, Q s → Q (f s x)) (hb : ∀ s, Q s → P (f s b)) (hl : b ∈ l) {s : α} (h : Q s) : P (l.foldl f s) := by
  obtain ⟨l₁, l₂, rfl⟩ := List.append_of_mem hl
  rw [List.foldl_append, List.foldl_cons]
  have hbefore : Q (l₁.foldl f s) := List.foldlRecOn l₁ f h fun s hs x hx => hQ s x (List.mem_append_left _ hx) hs
  exact List.foldlRecOn l₂ f (hb _ hbefore) fun s hs x hx => hP s x (List.mem_append_right _ (List.mem_cons_of_mem _ hx)) hs

/-! ### Interrupts of the kiln -/

theorem bit_raise (s : State) (core src : Nat) (l : RegKind) (j b : Nat) (hh : ∀ i < 8, l.addr j ≠ RegKind.HINT_PEND.addr i)
    (hf : ∀ i < 4, l.addr j ≠ RegKind.FHINT_PEND.addr i) : (s.raise core src).bit l j b = s.bit l j b := by
  unfold State.raise
  split
  · split
    · rfl
    · exact bit_setBit_of_ne _ _ _ _ _ _ _ (hh core ‹_›)
  · split
    · exact bit_setBit_of_ne _ _ _ _ _ _ _ (hf (core - 8) (by omega))
    · rfl

@[simp] theorem calm_kilnInt (s : State) (i : Nat) : (s.kilnInt i).calm = s.calm := by
  unfold State.kilnInt
  split
  · rfl
  · exact calm_raiseStat s _ _ _ _ _

theorem zones_raise (s : State) (core src : Nat) : (s.raise core src).zones = s.zones := by
  unfold State.raise
  split_ifs <;> rfl

theorem zones_kilnInt (s : State) (i : Nat) : (s.kilnInt i).zones = s.zones := by
  unfold State.kilnInt State.raiseStat
  dsimp only
  split_ifs
  · rfl
  · exact zones_raise _ _ _
  · rfl

theorem bit_kilnInt_eq {s : State} {i j : Nat} (hc : s.pw.cReset = false) :
    (s.kilnInt i).bit .KILN_INT_STAT 0 j = (s.setBit .KILN_INT_STAT 0 i true).bit .KILN_INT_STAT 0 j := by
  unfold State.kilnInt State.raiseStat
  rw [hc]
  dsimp only
  rw [if_neg Bool.false_ne_true]
  split
  · exact bit_raise _ _ _ _ _ _ (by decide) (by decide)
  · rfl

theorem bit_kilnInt_self {s : State} {i : Nat} (hi : i < 16) (hc : s.pw.cReset = false) : (s.kilnInt i).bit .KILN_INT_STAT 0 i = true := by
  rw [bit_kilnInt_eq hc, bit_setBit_self _ _ _ _ _ hi]

theorem bit_kilnInt_of_set {s : State} {i j : Nat} (hi : i < 16) (h : s.bit .KILN_INT_STAT 0 j = true) : (s.kilnInt i).bit .KILN_INT_STAT 0 j = true := by
  cases hc : s.pw.cReset with
  | true =>
    unfold State.kilnInt
    rw [hc]
    exact h
  | false =>
    by_cases hij : j = i
    · subst hij
      exact bit_kilnInt_self hi hc
    · rw [bit_kilnInt_eq hc, bit_setBit_of_ne_bit _ _ _ _ _ _ hi hij]
      exact h

theorem cReset_kilnInt (s : State) (i : Nat) : (s.kilnInt i).pw.cReset = s.pw.cReset := congrArg Power.cReset (pw_of_calm (calm_kilnInt s i))

/-! ### The region that a zone enters -/

/-- The interrupt bits of the regions entered going up. -/
def State.regionsUp (s : State) (old new : Nat) : State :=
  (upto 3).foldl (fun s i => if old < i + 1 ∧ i + 1 ≤ new then s.kilnInt i else s) s

/-- The interrupt bit of a zone that is cool again. -/
def State.coolAgain (s : State) (old new : Nat) : State := if new = 0 ∧ old ≠ 0 then s.kilnInt 6 else s

/-- What asking for suspensions leaves: all but the brick queues. -/
theorem askSuspend_queuesOnly (s : State) (f : Brick → Bool) : ∃ u, s.askSuspend f = { s with queues := u } := by
  unfold State.askSuspend
  refine List.foldlRecOn (motive := fun t : State => ∃ u, t = { s with queues := u }) (upto 16) _ ⟨s.queues, rfl⟩ fun t ht q _ => ?_
  obtain ⟨u, rfl⟩ := ht
  dsimp only
  unfold State.setQueue
  split
  · exact ⟨_, rfl⟩
  · exact ⟨u, rfl⟩

theorem enterRegion_queuesOnly (s : State) (z old new : Nat) :
    ∃ u, s.enterRegion z old new = { (s.regionsUp old new).coolAgain old new with queues := u } := by
  unfold State.enterRegion
  change ∃ u, (if new = 3 ∧ old ≠ 3 ∧ ((s.regionsUp old new).coolAgain old new).bit .KILN_CTRL 0 13 = true then
    ((s.regionsUp old new).coolAgain old new).askSuspend _ else (s.regionsUp old new).coolAgain old new) = _
  split
  · exact askSuspend_queuesOnly _ _
  · exact ⟨_, rfl⟩

theorem bit_enterRegion (s : State) (z old new : Nat) (k : RegKind) (i b : Nat) :
    (s.enterRegion z old new).bit k i b = ((s.regionsUp old new).coolAgain old new).bit k i b := by
  obtain ⟨u, hu⟩ := enterRegion_queuesOnly s z old new
  rw [hu]
  rfl

theorem zones_enterRegion (s : State) (z old new : Nat) : (s.enterRegion z old new).zones = s.zones := by
  have hup : (s.regionsUp old new).zones = s.zones := by
    refine List.foldlRecOn (motive := fun t : State => t.zones = s.zones) (upto 3) _ rfl fun t ht i _ => ?_
    split
    · exact (zones_kilnInt t i).trans ht
    · exact ht
  obtain ⟨u, hu⟩ := enterRegion_queuesOnly s z old new
  rw [hu]
  show ((s.regionsUp old new).coolAgain old new).zones = _
  unfold State.coolAgain
  split
  · exact (zones_kilnInt _ _).trans hup
  · exact hup

theorem cReset_regionsUp (s : State) (old new : Nat) : (s.regionsUp old new).pw.cReset = s.pw.cReset := by
  refine List.foldlRecOn (motive := fun t : State => t.pw.cReset = s.pw.cReset) (upto 3) _ rfl fun t ht i _ => ?_
  split
  · exact (cReset_kilnInt t i).trans ht
  · exact ht

theorem bit_coolAgain_of_set {s : State} {j : Nat} (old new : Nat) (h : s.bit .KILN_INT_STAT 0 j = true) :
    (s.coolAgain old new).bit .KILN_INT_STAT 0 j = true := by
  unfold State.coolAgain
  split
  · exact bit_kilnInt_of_set (by decide) h
  · exact h

theorem bit_regionsUp_of_set {s : State} {j : Nat} (old new : Nat) (h : s.bit .KILN_INT_STAT 0 j = true) :
    (s.regionsUp old new).bit .KILN_INT_STAT 0 j = true := by
  refine List.foldlRecOn (motive := fun t : State => t.bit .KILN_INT_STAT 0 j = true) (upto 3) _ h fun t ht i hi => ?_
  have hi3 : i < 3 := List.mem_range.mp hi
  split
  · exact bit_kilnInt_of_set (by omega) ht
  · exact ht

theorem bit_regionsUp_of_entered {s : State} {old new i : Nat} (hc : s.pw.cReset = false) (hi : i < 3) (hold : old ≤ i) (hnew : i < new) :
    (s.regionsUp old new).bit .KILN_INT_STAT 0 i = true := by
  refine foldl_reaches (P := fun t : State => t.bit .KILN_INT_STAT 0 i = true) (Q := fun t : State => t.pw.cReset = false) (b := i)
    (fun t k hk ht => ?_) (fun t k _ ht => ?_) (fun t ht => ?_) (List.mem_range.mpr hi) hc
  · have hk3 : k < 3 := List.mem_range.mp hk
    split
    · exact bit_kilnInt_of_set (by omega) ht
    · exact ht
  · split
    · exact (cReset_kilnInt t k).trans ht
    · exact ht
  · rw [if_pos ⟨by omega, by omega⟩]
    exact bit_kilnInt_self (by omega) ht

theorem bit_coolAgain_of_cool {s : State} {old new : Nat} (hc : s.pw.cReset = false) (hnew : new = 0) (hold : old ≠ 0) :
    (s.coolAgain old new).bit .KILN_INT_STAT 0 6 = true := by
  unfold State.coolAgain
  rw [if_pos ⟨hnew, hold⟩]
  exact bit_kilnInt_self (by decide) hc

/-! ### The refill of a zone -/

theorem maxInt_eq_some {l : List Int} {t : Int} (hmem : t ∈ l) (hmax : ∀ y ∈ l, y ≤ t) : maxInt l = some t := by
  induction l with
  | nil => exact absurd hmem (by simp)
  | cons x l ih =>
    have hx := hmax x (by simp)
    have hl : ∀ y ∈ l, y ≤ t := fun y hy => hmax y (by simp [hy])
    by_cases ht : t ∈ l
    · simp only [maxInt, ih ht hl]
      split
      · rfl
      · congr 1
        omega
    · obtain rfl : t = x := by simpa [ht] using hmem
      unfold maxInt
      cases hm : maxInt l with
      | none => rfl
      | some y =>
        have hy : y ≤ t := by
          clear ih ht hmem hmax hx
          induction l generalizing y with
          | nil => exact absurd hm (by simp [maxInt])
          | cons a l ih =>
            have ha := hl a (by simp)
            cases hm' : maxInt l with
            | none =>
              simp only [maxInt, hm', Option.some.injEq] at hm
              omega
            | some b =>
              have hb := ih (fun y hy => hl y (by simp [hy])) b hm'
              simp only [maxInt, hm', Option.some.injEq] at hm
              split at hm <;> omega
        simp only [Option.some.injEq]
        split
        · omega
        · rfl

/-- The region rule as the model computes it: up at once, down step by step. -/
theorem regionRule_eq (warn hot crit hyst t : Int) (c : Nat) : regionRule warn hot crit hyst t c =
    if c < regionOf warn hot crit t then regionOf warn hot crit t
    else coolTo [warn, hot, crit] hyst t (regionOf warn hot crit t) c := by
  induction c with
  | zero =>
    have hrule : regionRule warn hot crit hyst t 0 = regionOf warn hot crit t := rfl
    rw [hrule]
    split
    · rfl
    · simp only [coolTo]
      omega
  | succ c ih =>
    have hrule : regionRule warn hot crit hyst t (c + 1) =
      if c + 1 ≤ regionOf warn hot crit t then regionOf warn hot crit t
      else if t < [warn, hot, crit].getD c 0 - hyst then regionRule warn hot crit hyst t c else c + 1 := rfl
    rw [hrule, ih, coolTo]
    split_ifs <;> omega

/-- The sensors of a zone that are enabled and give a good reading. -/
def State.goodSensors (s : State) (temps : List (Option Word)) (z : Nat) : List Nat :=
  ((upto 4).filter fun k => (s.kp z 10 % 16).testBit k).filter fun k => (readingAt temps z k).isSome

/-- The reading of sensor k of a zone, if it is enabled and good. -/
def State.sensor (s : State) (temps : List (Option Word)) (z k : Nat) : Option Int := if (s.kp z 10).testBit k then readingAt temps z k else none

theorem mem_goodSensors {s : State} {temps : List (Option Word)} {z k : Nat} {y : Int} :
    k ∈ s.goodSensors temps z ∧ readingAt temps z k = some y ↔ k < 4 ∧ s.sensor temps z k = some y := by
  unfold State.goodSensors State.sensor
  rw [List.mem_filter, List.mem_filter, show (16 : Nat) = 2 ^ 4 from rfl, Nat.testBit_mod_two_pow]
  simp only [upto, List.mem_range, Bool.and_eq_true, decide_eq_true_eq]
  constructor
  · rintro ⟨⟨⟨hk, -, hen⟩, -⟩, hy⟩
    exact ⟨hk, (if_pos hen).trans hy⟩
  · rintro ⟨hk, hy⟩
    split at hy
    · next hen => exact ⟨⟨⟨hk, hk, hen⟩, by rw [hy]; rfl⟩, hy⟩
    · exact absurd hy (by simp)

theorem maxInt_goodSensors {s : State} {temps : List (Option Word)} {z : Nat} {t : Int} (hex : ∃ k < 4, s.sensor temps z k = some t)
    (hmax : ∀ k < 4, ∀ y, s.sensor temps z k = some y → y ≤ t) :
    maxInt ((s.goodSensors temps z).filterMap fun k => readingAt temps z k) = some t := by
  refine maxInt_eq_some (List.mem_filterMap.mpr ?_) fun y hy => ?_
  · obtain ⟨k, hk⟩ := hex
    exact ⟨k, mem_goodSensors.mpr hk⟩
  · obtain ⟨k, hk⟩ := List.mem_filterMap.mp hy
    have hsensor := mem_goodSensors.mp hk
    exact hmax k hsensor.1 y hsensor.2

theorem goodSensors_not_empty {s : State} {temps : List (Option Word)} {z : Nat} {t : Int} (hex : ∃ k < 4, s.sensor temps z k = some t) :
    (s.goodSensors temps z).isEmpty = false := by
  obtain ⟨k, hk⟩ := hex
  exact List.isEmpty_eq_false_iff.mpr (List.ne_nil_of_mem (mem_goodSensors.mpr hk).1)

/-- What KZ[4] and KZ[5] have left of GEN when they have paid what their sensors metered (R176). -/
def State.genPaid (s : State) (drawn : List Nat) (z : Nat) : Int :=
  if 4 ≤ z then bucketFloor (s.kp z 4) ((s.zone z).gen - (drawn.getD z 0 : Nat)) else (s.zone z).gen

/-- The interrupt of a zone whose GEN that payment has made negative. -/
def State.overdrawn (s : State) (drawn : List Nat) (z : Nat) : State :=
  if 4 ≤ z ∧ s.genPaid drawn z < 0 ∧ 0 ≤ (s.zone z).gen then s.kilnInt 3 else s

/-- The refill rate of a zone at a temperature (R154). -/
def State.rateAt (s : State) (z : Nat) (t : Int) : Int :=
  rateOf (s.kp z 0 % 65536) (s.kp z 1 % 65536) (s.kp z 2 % 65536) (s.kt z 6) (s.kt z 7) (s.kt z 8) t

/-- The region of a zone at a temperature (R153). -/
def State.regionAt (s : State) (z : Nat) (t : Int) : Nat :=
  regionRule (s.kt z 6) (s.kt z 7) (s.kt z 8) (s.kp z 9 % 65536 : Nat) t (s.zone z).region

/-- A zone after a refill with a good reading t. -/
def State.refilled (s : State) (temps : List (Option Word)) (drawn : List Nat) (z : Nat) (t : Int) : Zone :=
  { s.zone z with
    gen := bucketFloor (s.kp z 4) (min (s.genPaid drawn z + s.rateAt z t - (s.kp z 3 % 65536 : Nat)) (s.kp z 4 : Nat))
    rtb := bucketFloor (s.kp z 5) (min ((s.zone z).rtb + (s.kp z 3 % 65536 : Nat)) (s.kp z 5 : Nat))
    region := s.regionAt z t, temp := t
    sensOk := BitVec.ofNat 4 ((s.goodSensors temps z).foldl (fun m k => m + 2 ^ k) 0)
    sensErr := (s.zone z).sensErr || (s.goodSensors temps z).length < ((upto 4).filter fun k => (s.kp z 10 % 16).testBit k).length
    blind := false, rate := (s.rateAt z t).toNat
    idle := if z < 4 ∧ s.clusterIdle z then drawn.getD z 0 else (s.zone z).idle }

theorem refillZone_of_reading {s : State} {temps : List (Option Word)} {drawn : List Nat} {z : Nat} {t : Int} (hon : s.zoneOn z = true)
    (hblind : (s.zone z).blind = false) (hex : ∃ k < 4, s.sensor temps z k = some t)
    (hmax : ∀ k < 4, ∀ y, s.sensor temps z k = some y → y ≤ t) :
    s.refillZone temps drawn z = ((s.overdrawn drawn z).setZone z (s.refilled temps drawn z t)).enterRegion z (s.zone z).region (s.regionAt z t) := by
  have htop := maxInt_goodSensors hex hmax
  have hseen : ((s.zone z).blind || (s.goodSensors temps z).isEmpty) = false := by rw [hblind, goodSensors_not_empty hex]; rfl
  unfold State.refillZone
  rw [if_neg (not_not.mpr hon)]
  unfold State.refilled State.regionAt
  rw [regionRule_eq]
  unfold State.goodSensors at htop hseen ⊢
  dsimp only
  rw [htop, hseen]
  rfl

theorem zone_setZone (s : State) (z : Nat) (x : Zone) : (s.setZone z x).zone z = x := Tab.get_set_self _ _ _ _

theorem zone_refillZone {s : State} {temps : List (Option Word)} {drawn : List Nat} {z : Nat} {t : Int} (hon : s.zoneOn z = true)
    (hblind : (s.zone z).blind = false) (hex : ∃ k < 4, s.sensor temps z k = some t)
    (hmax : ∀ k < 4, ∀ y, s.sensor temps z k = some y → y ≤ t) :
    (s.refillZone temps drawn z).zone z = s.refilled temps drawn z t := by
  rw [refillZone_of_reading hon hblind hex hmax, State.zone, zones_enterRegion]
  exact zone_setZone _ z _

theorem clusterIdle_iff (s : State) (z : Nat) : s.clusterIdle z = true ↔ ∀ e ∈ s.bricks, z ∉ e.2.clusters := by
  simp [State.clusterIdle]

theorem bit_overdrawn {s : State} {drawn : List Nat} {z : Nat} (hc : s.pw.cReset = false) (hz : 4 ≤ z) (hneg : s.genPaid drawn z < 0)
    (hpos : 0 ≤ (s.zone z).gen) : (s.overdrawn drawn z).bit .KILN_INT_STAT 0 3 = true := by
  unfold State.overdrawn
  rw [if_pos ⟨hz, hneg, hpos⟩]
  exact bit_kilnInt_self (by decide) hc

theorem cReset_overdrawn (s : State) (drawn : List Nat) (z : Nat) : (s.overdrawn drawn z).pw.cReset = s.pw.cReset := by
  unfold State.overdrawn
  split
  · exact cReset_kilnInt s 3
  · rfl

theorem genPaid_eq (s : State) (drawn : List Nat) (z : Nat) : s.genPaid drawn z =
    if z < 4 then (s.zone z).gen else max ((s.zone z).gen - (drawn.getD z 0 : Nat)) (-(s.kp z 4 : Nat)) := by
  unfold State.genPaid bucketFloor
  split_ifs <;> omega

/-- The first n zones refilled. -/
def State.refills (s : State) (temps : List (Option Word)) (drawn : List Nat) (n : Nat) : State :=
  (upto n).foldl (fun s z => s.refillZone temps drawn z) s

/-- The first n clusters' steps taken. -/
def State.stepsTaken (s : State) (n : Nat) : State := (upto n).foldl (fun s n => s.stepCluster n) s

theorem refills_zero (s : State) (temps : List (Option Word)) (drawn : List Nat) : s.refills temps drawn 0 = s := rfl

theorem stepsTaken_zero (s : State) : s.stepsTaken 0 = s := rfl

theorem refills_succ (s : State) (temps : List (Option Word)) (drawn : List Nat) (n : Nat) :
    s.refills temps drawn (n + 1) = (s.refills temps drawn n).refillZone temps drawn n := by
  rw [State.refills, upto_succ, List.foldl_append]
  rfl

theorem stepsTaken_succ (s : State) (n : Nat) : s.stepsTaken (n + 1) = (s.stepsTaken n).stepCluster n := by
  rw [State.stepsTaken, upto_succ, List.foldl_append]
  rfl

theorem kilnRefill_exec (s : State) (temps : List (Option Word)) (drawn : List Nat) : exec (.kilnRefill temps drawn) s =
    .next ((((s.takeKiln.showSensors temps).refills temps drawn 6).showKilnStat.stepsTaken 4).recomputeRemain) := by
  show execKilnRefill temps drawn s = _
  unfold execKilnRefill State.refills State.stepsTaken
  dsimp only

theorem kilnRefill : Rules.KilnRefill := by
  intro s temps drawn z t
  refine ⟨⟨(s.takeKiln.showSensors temps).refills temps drawn, ((s.takeKiln.showSensors temps).refills temps drawn 6).showKilnStat.stepsTaken,
    refills_zero _ _ _, fun z _ => refills_succ _ _ _ _, stepsTaken_zero _, fun n _ => stepsTaken_succ _ _, kilnRefill_exec s temps drawn⟩, ?_⟩
  · intro x good kt kw hz hlaid hblind hex hmax a n low g rate cap
    have hon : s.zoneOn z = true := by
      unfold State.zoneOn
      split at hlaid
      · next h5 => rw [if_pos h5]; exact hlaid
      · next h5 => rw [if_neg h5]; exact hlaid
    have hn : n = s.refilled temps drawn z t := zone_refillZone hon hblind hex hmax
    have hg : s.genPaid drawn z = g := genPaid_eq s drawn z
    have hcap (v : Int) (c : Nat) : bucketFloor (s.kp z c) (min v (s.kp z c : Nat)) = cap v c := rfl
    have ha : a = ((s.overdrawn drawn z).setZone z (s.refilled temps drawn z t)).enterRegion z x.region n.region := by
      rw [hn]
      exact refillZone_of_reading hon hblind hex hmax
    refine ⟨congrArg Zone.temp hn, congrArg Zone.region hn, ?_, congrArg Zone.rtb hn, congrArg Zone.rate hn, congrArg Zone.blind hn, ?_, fun hc => ?_⟩
    · refine (congrArg Zone.gen hn).trans ?_
      unfold State.refilled
      dsimp only
      rw [hg]
      rfl
    · refine (congrArg Zone.idle hn).trans (if_congr ?_ rfl rfl)
      rw [clusterIdle_iff]
    · have hcz : ((s.overdrawn drawn z).setZone z (s.refilled temps drawn z t)).pw.cReset = false := (cReset_overdrawn s drawn z).trans hc
      refine ⟨fun h4 hneg hpos => ?_, fun i hi hold hnew => ?_, fun hcool hwas => ?_⟩
      · rw [ha, bit_enterRegion]
        exact bit_coolAgain_of_set _ _ (bit_regionsUp_of_set _ _ (bit_overdrawn hc h4 (by rw [hg]; exact hneg) hpos))
      · rw [ha, bit_enterRegion]
        exact bit_coolAgain_of_set _ _ (bit_regionsUp_of_entered hcz hi hold hnew)
      · rw [ha, bit_enterRegion]
        exact bit_coolAgain_of_cool ((cReset_regionsUp _ _ _).trans hcz) hcool hwas

/-! ### VID -/

theorem anyBelowZero_iff (s : State) : s.anyBelowZero = true ↔ ∃ i < 20, s.reg .CSENS_T i ≠ 0x8000 ∧ (s.reg .CSENS_T i).msb = true := by
  simp [State.anyBelowZero, upto, BitVec.msb_eq_getLsbD_last, wbit]

/-- The 14 bits of a VID request between its start bit and its parity. -/
def vidBody (addr mv : Nat) : Nat := addr * 1024 + mv % 1024

/-- The parity of those bits. -/
def vidParity (body : Nat) : Nat := ((upto 14).filter fun i => body.testBit i).length % 2

/-- The frame of those bits (R388). -/
def vidWord (body : Nat) : Word := BitVec.ofNat 16 (body * 2 + vidParity body)

theorem vidWord_toNat {body : Nat} (h : body < 2 ^ 14) : (vidWord body).toNat = body * 2 + vidParity body := by
  have hp : vidParity body < 2 := Nat.mod_lt _ (by decide)
  rw [vidWord, BitVec.toNat_ofNat]
  omega

theorem testBit_vidWord_zero {body : Nat} (h : body < 2 ^ 14) : (vidWord body).getLsbD 0 = decide (vidParity body = 1) := by
  have hp : vidParity body < 2 := Nat.mod_lt _ (by decide)
  rw [BitVec.getLsbD, vidWord_toNat h, Nat.testBit_zero]
  exact decide_eq_decide.mpr (by omega)

theorem testBit_vidWord_succ {body : Nat} (h : body < 2 ^ 14) (i : Nat) : (vidWord body).getLsbD (i + 1) = body.testBit i := by
  have hp : vidParity body < 2 := Nat.mod_lt _ (by decide)
  rw [BitVec.getLsbD, vidWord_toNat h, Nat.testBit_succ]
  congr 1
  omega

theorem vidWord_even {body : Nat} (h : body < 2 ^ 14) : ((upto 16).filter fun i => (vidWord body).getLsbD i).length % 2 = 0 := by
  have hp : vidParity body < 2 := Nat.mod_lt _ (by decide)
  have hrange : upto 16 = 0 :: (upto 15).map Nat.succ := List.range_succ_eq_map
  have htop : body.testBit 14 = false := Nat.testBit_lt_two_pow h
  have hbits : (((upto 15).map Nat.succ).filter fun i => (vidWord body).getLsbD i).length = ((upto 14).filter fun i => body.testBit i).length := by
    rw [List.filter_map, List.length_map, upto_succ, List.filter_append]
    simp [Function.comp_def, testBit_vidWord_succ h, htop]
  rw [hrange, List.filter_cons, testBit_vidWord_zero h]
  by_cases hodd : vidParity body = 1
  · rw [if_pos (decide_eq_true hodd), List.length_cons, hbits]
    unfold vidParity at hodd
    omega
  · rw [if_neg (by simpa using hodd), hbits]
    unfold vidParity at hodd hp
    omega

theorem wfld_vidWord_level {addr mv : Nat} (haddr : addr < 16) (hmv : mv < 1024) : wfld (vidWord (vidBody addr mv)) 10 1 = mv := by
  have hbody : vidBody addr mv < 2 ^ 14 := by unfold vidBody; omega
  have hp : vidParity (vidBody addr mv) < 2 := Nat.mod_lt _ (by decide)
  rw [wfld_eq, vidWord_toNat hbody]
  unfold vidBody at *
  omega

theorem wfld_vidWord_addr {addr mv : Nat} (haddr : addr < 16) : wfld (vidWord (vidBody addr mv)) 14 11 = addr := by
  have hbody : vidBody addr mv < 2 ^ 14 := by unfold vidBody; omega
  have hp : vidParity (vidBody addr mv) < 2 := Nat.mod_lt _ (by decide)
  rw [wfld_eq, vidWord_toNat hbody]
  unfold vidBody at *
  omega

theorem msb_vidWord {addr mv : Nat} (haddr : addr < 16) : (vidWord (vidBody addr mv)).msb = false := by
  have hbody : vidBody addr mv < 2 ^ 14 := by unfold vidBody; omega
  have hp : vidParity (vidBody addr mv) < 2 := Nat.mod_lt _ (by decide)
  rw [BitVec.msb_eq_false_iff_two_mul_lt, vidWord_toNat hbody]
  omega

theorem fld_setFld_of_ne (s : State) (k l : RegKind) (i j hi lo n p q : Nat) (h : l.addr j ≠ k.addr i) :
    (s.setFld k i hi lo n).fld l j p q = s.fld l j p q :=
  congrArg (fun w => wfld w p q) (reg_setReg_of_ne s k l i j _ h)

/-- The level of a millisecond (R169). -/
def State.vidLevel (s : State) : Nat :=
  max 650 (min 850 (Config.vidTrim + 5 * (upto 5).foldl (fun m z => max m (s.fld .WEAR_ZSTAT z 14 11)) 0 + if s.anyBelowZero then 10 else 0))

theorem vidRecalc_exec (s : State) : exec .vidRecalc s = .next (if s.pw.cReset then s
    else if s.vidLevel ≠ s.fld .KILN_VID_ACT 0 9 0 ∨ s.bit .KILN_VID_ACT 0 15 then
      { ((s.setFld .KILN_VID_TGT 0 9 0 s.vidLevel).setBit .KILN_VID_ACT 0 15 true).slowClusters with
        pw := { s.pw with vidFrame := some ((s.setFld .KILN_VID_TGT 0 9 0 s.vidLevel).vidRequest s.vidLevel) } }
      else s.setFld .KILN_VID_TGT 0 9 0 s.vidLevel) := rfl

theorem vid : Rules.Vid := by
  intro s off cold waits
  refine ⟨fun hc => (vidRecalc_exec s).trans (congrArg Host.Outcome.next (if_pos hc)), fun v hc hcold hwarm => ?_, fun h => ⟨?_, congrArg Host.Outcome.next (if_pos h)⟩⟩
  · intro a asked
    have hlevel : s.vidLevel = v := by
      unfold State.vidLevel
      by_cases h : cold
      · rw [if_pos ((anyBelowZero_iff s).mpr h)]
        exact (hcold h).symm
      · rw [if_neg fun hb => h ((anyBelowZero_iff s).mp hb), Nat.add_zero]
        exact (hwarm h).symm
    have hv : v < 1024 := by
      rw [← hlevel, State.vidLevel]
      omega
    have hexec := vidRecalc_exec s
    rw [if_neg (by rw [hc]; exact Bool.false_ne_true), hlevel] at hexec
    refine ⟨fun hact hno => ?_, fun h => ⟨_, hexec.trans (congrArg Host.Outcome.next (if_pos h)), ?_⟩⟩
    · refine hexec.trans (congrArg Host.Outcome.next (if_neg ?_))
      rintro (h | h)
      · exact h hact
      · exact hno h
    · have haddr : (s.setFld .KILN_VID_TGT 0 9 0 v).fld .SYS_VID 0 15 12 = s.fld .SYS_VID 0 15 12 := fld_setFld_of_ne _ _ _ _ _ _ _ _ _ _ (by decide)
      have hframe : (s.setFld .KILN_VID_TGT 0 9 0 v).vidRequest v = vidWord (vidBody (s.fld .SYS_VID 0 15 12) v) := by
        rw [← haddr]
        rfl
      have hlt : s.fld .SYS_VID 0 15 12 < 16 := wfld_lt _ _ _
      rw [hframe]
      exact ⟨msb_vidWord hlt, wfld_vidWord_addr hlt, wfld_vidWord_level hlt hv, vidWord_even (by unfold vidBody; omega)⟩
  · exact congrArg Host.Outcome.next (if_pos h)

end Sys2Proof.Machine

namespace Sys2Proof

open Sys2Proof.Machine

/-- Settles O34. -/
theorem kilnZones : Obligations.KilnZones := ⟨kilnRefill, vid⟩

end Sys2Proof
end

section
/-! SUPPORT. What accesses to memory and the network leave: the clocks and the courses. -/

namespace Sys2Proof.Machine

open Sys2Proof

/-- The part of the state that only the F-die's tick and the courses' own commands change: the tick count, gPTP time, samples that wait, courses. -/
def State.clock (s : State) := (s.ticks, s.gptpNs, s.gptpFrac, s.demod, s.courses)

/-- A fold of steps that leave it leaves it. -/
theorem clock_foldl {β : Type} (f : State → β → State) (l : List β) (s : State) (hf : ∀ t b, (f t b).clock = t.clock) : (l.foldl f s).clock = s.clock :=
  List.foldlRecOn (motive := fun t : State => t.clock = s.clock) l f rfl fun t ht b _ => (hf t b).trans ht

section
variable (s : State)

/-! ### Registers and counters -/

@[simp] theorem clock_setReg (k : RegKind) (i : Nat) (v : Word) : (s.setReg k i v).clock = s.clock := rfl
@[simp] theorem clock_setBit (k : RegKind) (i b : Nat) (v : Bool) : (s.setBit k i b v).clock = s.clock := rfl
@[simp] theorem clock_setPair (k l : RegKind) (i n : Nat) : (s.setPair k l i n).clock = s.clock := rfl
@[simp] theorem clock_count (k : RegKind) (i : Nat) : (s.count k i).clock = s.clock := rfl
@[simp] theorem clock_draw : s.draw.2.clock = s.clock := rfl
@[simp] theorem clock_net (x : Net) : ({ s with net := x } : State).clock = s.clock := rfl
@[simp] theorem clock_mem (x : Mem) : ({ s with mem := x } : State).clock = s.clock := rfl

@[simp] theorem clock_raise (core src : Nat) : (s.raise core src).clock = s.clock := by
  unfold State.raise
  split_ifs <;> rfl

@[simp] theorem clock_raiseStat (stat en : RegKind) (b core src : Nat) : (s.raiseStat stat en b core src).clock = s.clock := by
  unfold State.raiseStat
  dsimp only
  split_ifs <;> simp

/-! ### Accesses to memory -/

@[simp] theorem clock_violation (m : Master) : (s.violation m).clock = s.clock := by
  unfold State.violation
  dsimp only
  split
  · split
    · simp
    · split_ifs <;> simp
  · rfl

@[simp] theorem clock_logError (m : Master) (cause : Nat) (write : Bool) (a : Nat) : (s.logError m cause write a).clock = s.clock := by
  unfold State.logError
  split
  dsimp only
  split_ifs <;> simp

@[simp] theorem clock_path (m : Master) (a : Nat) (write stream : Bool) : (s.path m a write stream).2.clock = s.clock := by
  unfold State.path
  dsimp only
  split
  · simp
  · split
    · simp
    · split
      · simp
      · split
        · simp
        · split_ifs <;> simp
        · split_ifs <;> simp
        · split_ifs <;> simp
        · split_ifs <;> simp
        · rfl
        · rfl
        · rfl
        · rfl

@[simp] theorem clock_setTile (d : Die) (t : Nat) (x : Tile) : (s.setTile d t x).clock = s.clock := by cases d <;> rfl

@[simp] theorem clock_setTileMem (d : Die) (t : Tab Byte) : (s.setTileMem d t).clock = s.clock := by cases d <;> rfl

@[simp] theorem clock_setEccTab (d : Die) (t : Tab Ecc) : (s.setEccTab d t).clock = s.clock := by cases d <;> rfl

@[simp] theorem clock_setEcc (d : Die) (t off : Nat) (e : Ecc) : (s.setEcc d t off e).clock = s.clock := clock_setEccTab _ _ _

@[simp] theorem clock_moveRr (d : Die) (t n : Nat) : (s.moveRr d t n).clock = s.clock := clock_setTile _ _ _ _

@[simp] theorem clock_zeroTile (d : Die) (t : Nat) : (s.zeroTile d t).clock = s.clock := by
  unfold State.zeroTile
  split
  · simp [State.zeroFill]
  · rfl

@[simp] theorem clock_startTile (d : Die) (t : Nat) : (s.startTile d t).clock = s.clock := by
  unfold State.startTile
  dsimp only
  split_ifs
  · rfl
  · split <;> simp

@[simp] theorem clock_endTile (d : Die) (t : Nat) : (s.endTile d t).clock = s.clock := by
  unfold State.endTile
  dsimp only
  split
  · rfl
  · split_ifs <;> simp

@[simp] theorem clock_awaitOn (d : Die) (t : Nat) : (s.awaitOn d t).clock = s.clock := by
  unfold State.awaitOn
  dsimp only
  split_ifs <;> simp

@[simp] theorem clock_candidate (d : Die) (t src : Nat) : (s.candidate d t src).clock = s.clock := by
  cases d with
  | c =>
    unfold State.candidate State.queueTile
    dsimp only
    split_ifs <;> rfl
  | f =>
    unfold State.candidate
    dsimp only
    split <;> rfl

@[simp] theorem clock_countCe (d : Die) (t : Nat) : (s.countCe d t).clock = s.clock := by
  unfold State.countCe
  dsimp only
  split_ifs <;> simp

@[simp] theorem clock_countUe (d : Die) (t : Nat) : (s.countUe d t).clock = s.clock := by simp [State.countUe]

@[simp] theorem clock_mirror (d : Die) (t off : Nat) (bs : List Byte) (e : Ecc) : (s.mirror d t off bs e).clock = s.clock := by
  unfold State.mirror
  split
  · split_ifs <;> rfl
  · rfl

@[simp] theorem clock_readWord (d : Die) (t off n : Nat) : (s.readWord d t off n).2.clock = s.clock := by
  unfold State.readWord
  split <;> simp

@[simp] theorem clock_writeWord (d : Die) (t off : Nat) (bs : List Byte) (full : Bool) : (s.writeWord d t off bs full).2.clock = s.clock := by
  unfold State.writeWord
  dsimp only
  split_ifs
  · simp
  · split <;> simp

@[simp] theorem clock_nearCount (d : Die) (p : Nat) (ue : Bool) : (s.nearCount d p ue).clock = s.clock := clock_count _ _ _

@[simp] theorem clock_putNear (d : Die) (k : Nat) (bs : List Byte) : (s.putNear d k bs).clock = s.clock := by cases d <;> rfl

@[simp] theorem clock_readNear (d : Die) (p off n : Nat) : (s.readNear d p off n).2.clock = s.clock := by
  unfold State.readNear
  dsimp only
  split <;> simp

@[simp] theorem clock_writeNear (d : Die) (p off : Nat) (bs : List Byte) : (s.writeNear d p off bs).2.clock = s.clock := by
  unfold State.writeNear
  dsimp only
  split_ifs
  · simp
  · split <;> simp

/-- The state of a pair known to leave it. -/
theorem clock_of_eq {α : Type} {p : α × State} {a : α} {s t : State} (h : p = (a, t)) (hp : p.2.clock = s.clock) : t.clock = s.clock := by
  rw [h] at hp
  exact hp

@[simp] theorem clock_readBeat (m : Master) (a n : Nat) (stream : Bool) : (s.readBeat m a n stream).2.clock = s.clock := by
  unfold State.readBeat
  have hpath := clock_path s m a false stream
  split
  · next h => exact clock_of_eq h hpath
  · next t s1 h =>
    have h1 := clock_of_eq h hpath
    have htile (d : Die) (w off : Nat) : (((s1.awaitOn d w).moveRr d w (presenting m d).num).readWord d w off n).2.clock = s.clock := by simp [h1]
    have hnear (d : Die) (p off : Nat) : (s1.readNear d p off n).2.clock = s.clock := by simp [h1]
    dsimp only
    split
    · split
      · next h2 => exact (clock_logError _ _ _ _ _).trans (clock_of_eq h2 (htile _ _ _))
      · exact htile _ _ _
    · split
      · next h2 => exact (clock_logError _ _ _ _ _).trans (clock_of_eq h2 (htile _ _ _))
      · exact htile _ _ _
    · exact h1
    · split
      · next h2 => exact (clock_logError _ _ _ _ _).trans (clock_of_eq h2 (hnear _ _ _))
      · exact hnear _ _ _
    · split
      · next h2 => exact (clock_logError _ _ _ _ _).trans (clock_of_eq h2 (hnear _ _ _))
      · exact hnear _ _ _
    · exact h1
    · exact h1
    · exact (clock_logError _ _ _ _ _).trans h1
    · exact h1

@[simp] theorem clock_writeBeat (m : Master) (a : Nat) (bs : List Byte) (stream : Bool) : (s.writeBeat m a bs stream).2.clock = s.clock := by
  unfold State.writeBeat
  have hpath := clock_path s m a true stream
  split
  · next h => exact clock_of_eq h hpath
  · next t s1 h =>
    have h1 := clock_of_eq h hpath
    have htile (d : Die) (w off : Nat) (full : Bool) :
        (((s1.awaitOn d w).moveRr d w (presenting m d).num).writeWord d w off bs full).2.clock = s.clock := by simp [h1]
    have hnear (d : Die) (p off : Nat) : (s1.writeNear d p off bs).2.clock = s.clock := by simp [h1]
    dsimp only
    split
    · split
      · next h2 => exact (clock_logError _ _ _ _ _).trans (clock_of_eq h2 (htile _ _ _ _))
      · exact htile _ _ _ _
    · split
      · next h2 => exact (clock_logError _ _ _ _ _).trans (clock_of_eq h2 (htile _ _ _ _))
      · exact htile _ _ _ _
    · split
      · next h2 => exact (clock_logError _ _ _ _ _).trans (clock_of_eq h2 (hnear _ _ _))
      · exact hnear _ _ _
    · split
      · next h2 => exact (clock_logError _ _ _ _ _).trans (clock_of_eq h2 (hnear _ _ _))
      · exact hnear _ _ _
    · exact h1
    · exact (clock_logError _ _ _ _ _).trans h1
    all_goals exact h1

end

theorem clock_readPieces (m : Master) (stream : Bool) (l : List (Nat × Nat)) (s : State) : (s.readPieces m stream l).2.clock = s.clock := by
  induction l generalizing s with
  | nil => rfl
  | cons e l ih =>
    obtain ⟨a, n⟩ := e
    have hbeat := clock_readBeat s m a n stream
    unfold State.readPieces
    split
    · next h => exact clock_of_eq h hbeat
    · next h =>
      have h1 := clock_of_eq h hbeat
      split
      · next h2 => exact clock_of_eq h2 ((ih _).trans h1)
      · next h2 => exact clock_of_eq h2 ((ih _).trans h1)

theorem clock_writePieces (m : Master) (stream : Bool) (l : List (Nat × Nat)) (bs : List Byte) (s : State) :
    (s.writePieces m stream l bs).2.clock = s.clock := by
  induction l generalizing s bs with
  | nil => rfl
  | cons e l ih =>
    obtain ⟨a, n⟩ := e
    have hbeat := clock_writeBeat s m a (bs.take n) stream
    unfold State.writePieces
    split
    · next h => exact clock_of_eq h hbeat
    · next h => exact (ih _ _).trans (clock_of_eq h hbeat)

section
variable (s : State)

@[simp] theorem clock_readMem (m : Master) (a n : Nat) (stream : Bool) : (s.readMem m a n stream).2.clock = s.clock := clock_readPieces _ _ _ _

@[simp] theorem clock_writeMem (m : Master) (a : Nat) (bs : List Byte) (stream : Bool) : (s.writeMem m a bs stream).2.clock = s.clock :=
  clock_writePieces _ _ _ _ _

@[simp] theorem clock_dmaWrite (m : Master) (a : Nat) (l : List Byte) : (s.dmaWrite m a l).clock = s.clock := clock_writeMem _ _ _ _ _

/-! ### The brick that a joint or a frame submits -/

@[simp] theorem clock_shed (k : RegKind) (q : Nat) : (s.shed k q).clock = s.clock := by simp [State.shed]

@[simp] theorem clock_accept (q : Nat) (desc : List Word) (joint : Bool) (lvl : Nat) : (s.accept q desc joint lvl).clock = s.clock := by
  unfold State.accept State.setQueue
  dsimp only
  split_ifs <;> rfl

@[simp] theorem clock_jointSubmit (q line : Nat) : (s.jointSubmit q line).clock = s.clock := by
  unfold State.jointSubmit
  split
  · simp
  · have hread := clock_readMem s ⟨.c, 34⟩ (0x40000000 + 64 * line) 64 false
    split
    · next h => exact (clock_shed _ _ _).trans (clock_of_eq h hread)
    · next h => exact (clock_accept _ _ _ _ _).trans (clock_of_eq h hread)

/-! ### The switch -/

@[simp] theorem clock_netInt (b : Nat) : (s.netInt b).clock = s.clock := by
  unfold State.netInt
  split_ifs <;> simp

@[simp] theorem clock_fnetInt (b : Nat) : (s.fnetInt b).clock = s.clock := by simp [State.fnetInt]

@[simp] theorem clock_portTally (p n k : Nat) : (s.portTally p n k).clock = s.clock := rfl

@[simp] theorem clock_dropTally (p n : Nat) : (s.dropTally p n).clock = s.clock := by
  unfold State.dropTally
  dsimp only
  split_ifs <;> simp

@[simp] theorem clock_rosEvent (kind ix port : Nat) : (s.rosEvent kind ix port).clock = s.clock := by
  unfold State.rosEvent
  split_ifs <;> simp

@[simp] theorem clock_setRos (i : Nat) (e : BitVec 128) : (s.setRos i e).clock = s.clock := rfl

@[simp] theorem clock_learnPartner (p : Nat) (e : BitVec 128) : (s.learnPartner p e).2.clock = s.clock := by
  unfold State.learnPartner
  dsimp only
  split_ifs <;> simp

@[simp] theorem clock_gates (p : Nat) : (s.gates p).2.clock = s.clock := by
  unfold State.gates
  dsimp only
  split_ifs <;> rfl

@[simp] theorem clock_accrue (p : Nat) : (s.accrue p).clock = s.clock := by
  unfold State.accrue
  dsimp only
  refine (clock_foldl _ _ _ fun t c => ?_).trans ?_
  · split_ifs <;> rfl
  · split_ifs <;> simp

@[simp] theorem clock_admitPort (id c cls p : Nat) : (s.admitPort id c cls p).clock = s.clock := by
  unfold State.admitPort State.setSwQueue
  dsimp only
  split_ifs <;> simp

@[simp] theorem clock_freeFrame (id : Nat) : (s.freeFrame id).clock = s.clock := by
  unfold State.freeFrame
  split_ifs <;> rfl

@[simp] theorem clock_enterQueues (f : SwFrame) (ports : List Nat) : (s.enterQueues f ports).clock = s.clock := by
  unfold State.enterQueues
  dsimp only
  split_ifs
  · simp
  · exact (clock_freeFrame _ _).trans ((clock_foldl _ _ _ fun t p => clock_admitPort t _ _ _ p).trans rfl)

@[simp] theorem clock_filtTally (f k : Nat) : (s.filtTally f k).clock = s.clock := rfl

@[simp] theorem clock_frerTally (g k n : Nat) : (s.frerTally g k n).clock = s.clock := rfl

@[simp] theorem clock_metered (m n : Nat) : (s.metered m n).2.clock = s.clock := by
  unfold State.metered
  dsimp only
  split_ifs <;> rfl

@[simp] theorem clock_police (dest : Option Nat) (f : SwFrame) : (s.police dest f).2.clock = s.clock := by
  unfold State.police
  split
  · rfl
  · dsimp only
    split_ifs <;> simp

@[simp] theorem clock_setFrer (g : Nat) (x : Frer) : (s.setFrer g x).clock = s.clock := rfl

@[simp] theorem clock_recover (g h : Nat) (q : Word) : (s.recover g h q).2.clock = s.clock := by
  unfold State.recover
  dsimp only
  split_ifs <;> simp

@[simp] theorem clock_sequence (filt : Option (Nat × BitVec 128)) (f : SwFrame) : (s.sequence filt f).2.clock = s.clock := by
  unfold State.sequence
  split
  · rfl
  · dsimp only
    split_ifs
    · rfl
    · rfl
    · rfl
    · split
      · next h => exact clock_of_eq h (clock_recover _ _ _ _)
      · next h => exact clock_of_eq h (clock_recover _ _ _ _)

@[simp] theorem clock_toCan (f : SwFrame) : (s.toCan f).clock = s.clock := by
  unfold State.toCan
  split
  · rfl
  · dsimp only
    split
    · rfl
    · refine clock_foldl _ _ _ fun t m => ?_
      unfold State.toCan1
      dsimp only
      split
      · simp
      · split_ifs <;> simp

@[simp] theorem clock_forward (f : SwFrame) (only : Option Nat) : (s.forward f only).clock = s.clock := by
  unfold State.forward
  dsimp only
  split
  · next h => exact clock_of_eq h (clock_police _ _ _)
  · next h =>
    have h1 := clock_of_eq h (clock_police _ _ _)
    split
    · next h2 => exact (clock_of_eq h2 (clock_sequence _ _ _)).trans h1
    · next h2 =>
      have h3 := (clock_of_eq h2 (clock_sequence _ _ _)).trans h1
      split_ifs <;> simp [h3]

@[simp] theorem clock_source (p : Nat) (b : List Byte) (node : Option (BitVec 4)) : (s.source p b node).2.clock = s.clock := by
  unfold State.source
  extract_lets mac mayLearn
  split
  next h =>
    have h1 := clock_of_eq (s := s) h (by
      split
      · dsimp only
        split_ifs <;> simp
      · split
        · split
          · next hl => exact clock_of_eq hl (clock_learnPartner _ _ _)
          · next hl => exact (clock_portTally _ _ _ _).trans (clock_of_eq hl (clock_learnPartner _ _ _))
        · rfl)
    split
    · dsimp only
      split
      · exact h1
      · dsimp only
        rw [clock_learnPartner]
        exact h1
    · exact h1

@[simp] theorem clock_ingress (p : Nat) (b : List Byte) (stamp : W64) (node : Option (BitVec 4)) (slot : Option (Master × Nat)) :
    (s.ingress p b stamp node slot).clock = s.clock := by
  unfold State.ingress
  split
  · simp
  · have hsource := clock_source s p b node
    dsimp only
    split
    · simp
    · split <;> simp

@[simp] theorem clock_macsecIn (p : Nat) (b : List Byte) : (s.macsecIn p b).2.clock = s.clock := by
  unfold State.macsecIn
  split
  · rfl
  · split
    · simp
    · dsimp only
      split_ifs
      · simp
      · rfl

@[simp] theorem clock_ringPut (p : Nat) (f : SwFrame) : (s.ringPut p f).clock = s.clock := by
  unfold State.ringPut
  dsimp only
  split_ifs <;> simp

@[simp] theorem clock_toIf (f : SwFrame) : (s.toIf f).clock = s.clock := by
  unfold State.toIf
  split_ifs <;> simp

@[simp] theorem clock_takeEth (p : Nat) (b : List Byte) (stamp : W64) (node : Option (BitVec 4)) : (s.takeEth p b stamp node).clock = s.clock := by
  unfold State.takeEth
  split
  · simp
  · split
    · next h => exact clock_of_eq h (clock_macsecIn _ _ _)
    · next h => exact (clock_ingress _ _ _ _ _ _).trans (clock_of_eq h (clock_macsecIn _ _ _))

@[simp] theorem clock_acfFlush (ch link : Nat) (src : Option Nat) : (s.acfFlush ch link src).clock = s.clock := by
  unfold State.acfFlush
  dsimp only
  split_ifs <;> simp

@[simp] theorem clock_acfAdd (ch link i : Nat) (f : CanFrame) : (s.acfAdd ch link i f).clock = s.clock := by
  unfold State.acfAdd
  dsimp only
  split_ifs <;> simp

@[simp] theorem clock_canPolicy (ch : Nat) (f : SwFrame) : (s.canPolicy ch f).clock = s.clock := by
  unfold State.canPolicy
  split <;> simp

@[simp] theorem clock_takeCan (ch : Nat) (f : CanFrame) (stamp : W64) : (s.takeCan ch f stamp).clock = s.clock := by
  unfold State.takeCan
  extract_lets p raw
  split
  · simp
  · split
    · simp
    · dsimp only
      split_ifs <;> simp

@[simp] theorem clock_crossPort (p : Nat) : (s.crossPort p).clock = s.clock := by
  unfold State.crossPort
  dsimp only
  split
  · rfl
  · refine (clock_foldl _ _ _ fun t h => ?_).trans rfl
    cases h <;> simp

end

end Sys2Proof.Machine
end

section
/-! SUPPORT. One tick of the clock and of the courses (R179, R185, R188, R190, R349). -/

namespace Sys2Proof.Machine

open Sys2Proof

/-! ### What a tick's joints, modulators and cells, and the other courses, leave of a course -/

/-- What a course's tick depends on: time, gPTP time, the bond image, the requests in CRS_CTRL, the samples that wait (where d), the courses
except o. -/
def State.view (o : Option Nat) (d : Bool) (s : State) :=
  (s.ticks, s.gptpNs, s.gptpFrac, s.lay, (fun c : Fin 8 => s.reg .CRS_CTRL c), (if d then s.demod else []),
    fun c : Nat => if o = some c then ({} : Course) else s.course c)

/-- The register is not CRS_CTRL. -/
def RegKind.away (k : RegKind) (i : Nat) : Prop := ∀ c : Fin 8, RegKind.CRS_CTRL.addr c ≠ k.addr i

theorem away_of_above {k : RegKind} (h : RegKind.CRS_CTRL.addr 8 ≤ k.base) (i : Nat) : k.away i := by
  intro c
  have hc := c.isLt
  have hbase : 0x9000F000 + 0x20 * 8 ≤ k.base := h
  show 0x9000F000 + 0x20 * c.val ≠ k.base + k.stride * i
  have hi := Nat.zero_le (k.stride * i)
  omega

@[simp] theorem away_CRS_EVT (i : Nat) : RegKind.CRS_EVT.away i := by
  intro c
  show 0x9000F000 + 0x20 * c.val ≠ 0x9000F004 + 0x20 * i
  omega

@[simp] theorem away_CRS_EDGES (i : Nat) : RegKind.CRS_EDGES.away i := by
  intro c
  show 0x9000F000 + 0x20 * c.val ≠ 0x9000F012 + 0x20 * i
  omega

@[simp] theorem away_JNT_CFG (i : Nat) : RegKind.JNT_CFG.away i := away_of_above (by decide) i
@[simp] theorem away_JNT_POS_LO (i : Nat) : RegKind.JNT_POS_LO.away i := away_of_above (by decide) i
@[simp] theorem away_JNT_POS_HI (i : Nat) : RegKind.JNT_POS_HI.away i := away_of_above (by decide) i
@[simp] theorem away_JNT_FIRED (i : Nat) : RegKind.JNT_FIRED.away i := away_of_above (by decide) i
@[simp] theorem away_JNT_LATE (i : Nat) : RegKind.JNT_LATE.away i := away_of_above (by decide) i
@[simp] theorem away_JNT_DROP (i : Nat) : RegKind.JNT_DROP.away i := away_of_above (by decide) i
@[simp] theorem away_MOD_STAT (i : Nat) : RegKind.MOD_STAT.away i := away_of_above (by decide) i
@[simp] theorem away_OC_CFG (i : Nat) : RegKind.OC_CFG.away i := away_of_above (by decide) i

theorem away_HINT_PEND {i : Nat} (h : i < 8) : RegKind.HINT_PEND.away i := by
  intro c
  show 0x9000F000 + 0x20 * c.val ≠ 0x80007000 + 2 * i
  omega

theorem away_FHINT_PEND {i : Nat} (h : i < 4) : RegKind.FHINT_PEND.away i := by
  intro c
  show 0x9000F000 + 0x20 * c.val ≠ 0x90009000 + 2 * i
  omega

/-- A fold of steps that leave it leaves it. -/
theorem view_foldl {β : Type} {o : Option Nat} {d : Bool} (f : State → β → State) (l : List β) (s : State)
    (hf : ∀ t b, (f t b).view o d = t.view o d) : (l.foldl f s).view o d = s.view o d :=
  List.foldlRecOn (motive := fun t : State => t.view o d = s.view o d) l f rfl fun t ht b _ => (hf t b).trans ht

section
variable (o : Option Nat) (d : Bool) (s : State)

@[simp] theorem view_setReg {k : RegKind} {i : Nat} (h : k.away i) (v : Word) : (s.setReg k i v).view o d = s.view o d := by
  have hreg : (fun c : Fin 8 => (s.setReg k i v).reg .CRS_CTRL c) = fun c : Fin 8 => s.reg .CRS_CTRL c :=
    funext fun c => reg_setReg_of_ne s k .CRS_CTRL i c v (h c)
  unfold State.view
  rw [hreg]
  rfl

@[simp] theorem view_setBit {k : RegKind} {i : Nat} (h : k.away i) (b : Nat) (v : Bool) : (s.setBit k i b v).view o d = s.view o d :=
  view_setReg o d s h _

@[simp] theorem view_setPair {k l : RegKind} {i : Nat} (hk : k.away i) (hl : l.away i) (n : Nat) : (s.setPair k l i n).view o d = s.view o d :=
  (view_setReg o d _ hl _).trans (view_setReg o d s hk _)

@[simp] theorem view_setMod (m : Nat) (v : Modulator) : (s.setMod m v).view o d = s.view o d := rfl
@[simp] theorem view_setCell (c : Nat) (v : Cell) : (s.setCell c v).view o d = s.view o d := rfl
@[simp] theorem view_fresh (n : Nat) : ({ s with fresh := n } : State).view o d = s.view o d := rfl
@[simp] theorem view_addConv (c : Conv) : (s.addConv c).view o d = s.view o d := rfl
@[simp] theorem view_demod (l : List (Nat × Int × Int × Nat)) : ({ s with demod := l } : State).view o false = s.view o false := rfl

theorem course_setCourse_of_ne {c c' : Nat} (x : Course) (h : c' ≠ c) : (s.setCourse c x).course c' = s.course c' := by
  unfold State.setCourse State.course
  split
  · split
    · exact Vector.getElem_set_ne ‹c < 8› _ (fun hc => h hc.symm)
    · rfl
  · rfl

theorem course_setCourse {c : Nat} (x : Course) (hc : c < 8) : (s.setCourse c x).course c = x := by
  unfold State.setCourse State.course
  rw [dif_pos hc, dif_pos hc]
  exact Vector.getElem_set_self _

@[simp] theorem view_setCourse (c : Nat) (x : Course) : (s.setCourse c x).view (some c) d = s.view (some c) d := by
  have hcourse : (fun c' : Nat => if some c = some c' then ({} : Course) else (s.setCourse c x).course c') =
      fun c' : Nat => if some c = some c' then ({} : Course) else s.course c' := by
    funext c'
    split
    · rfl
    · next h => exact course_setCourse_of_ne s x fun hc => h (by rw [hc])
  have hrest : ∃ u, s.setCourse c x = { s with courses := u } := by
    unfold State.setCourse
    split
    · exact ⟨_, rfl⟩
    · exact ⟨s.courses, rfl⟩
  unfold State.view
  rw [hcourse]
  obtain ⟨u, hu⟩ := hrest
  rw [hu]
  rfl

@[simp] theorem view_raise (core src : Nat) : (s.raise core src).view o d = s.view o d := by
  unfold State.raise
  split
  · next h =>
    split
    · rfl
    · exact view_setBit o d s (away_HINT_PEND h) _ _
  · split
    · exact view_setBit o d s (away_FHINT_PEND (by omega)) _ _
    · rfl

/-! ### Modulators and output cells -/

@[simp] theorem view_modLoad (m : Nat) : (s.modLoad m).view o d = s.view o d := rfl

@[simp] theorem view_modStart (m : Nat) : (s.modStart m).view o d = s.view o d := by simp [State.modStart]

@[simp] theorem view_modEnable (m : Nat) : (s.modEnable m).view o d = s.view o d := by
  unfold State.modEnable
  split_ifs <;> simp

@[simp] theorem view_modBoundary (m slot : Nat) : (s.modBoundary m slot).view o d = s.view o d := by
  unfold State.modBoundary
  dsimp only
  split_ifs <;> simp

@[simp] theorem view_driveCell (c slot : Nat) : (s.driveCell c slot).view o d = s.view o d := by
  unfold State.driveCell
  extract_lets x l l'
  split <;> rfl

@[simp] theorem view_evalCell (c : Nat) : (s.evalCell c).view o d = s.view o d := by
  unfold State.evalCell
  dsimp only
  rw [view_driveCell]
  split <;> rfl

@[simp] theorem view_cellTick (c : Nat) : (s.cellTick c).view o d = s.view o d := by
  unfold State.cellTick
  dsimp only
  rw [view_evalCell]
  split_ifs <;> simp

@[simp] theorem view_driveJump (m : Nat) : (s.driveJump m).view o d = s.view o d := by
  refine view_foldl _ _ _ fun t c => ?_
  dsimp only
  split
  · exact view_driveCell _ _ _ _ _
  · rfl

@[simp] theorem view_skipPulse (m : Nat) (p1 p2 : W32) : (s.skipPulse m p1 p2).view o d = s.view o d := by
  unfold State.skipPulse
  dsimp only
  split_ifs <;> simp

@[simp] theorem view_jumpBoundary (m : Nat) (p1 p2 : W32) : (s.jumpBoundary m p1 p2).view o d = s.view o d := by
  unfold State.jumpBoundary
  dsimp only
  split_ifs <;> simp

@[simp] theorem view_landMod (m : Nat) (p2 : W32) : (s.landMod m p2).view o d = s.view o d := by
  unfold State.landMod
  dsimp only
  split_ifs <;> simp

@[simp] theorem view_modJump (c : Nat) (p1 p2 : W32) : (s.modJump c p1 p2).view o d = s.view o d := by
  unfold State.modJump
  split
  · rfl
  · refine view_foldl _ _ _ fun t m => ?_
    split_ifs <;> simp

@[simp] theorem view_resolverSample (m slot : Nat) : (s.resolverSample m slot).view o false = s.view o false := by
  refine view_foldl _ _ _ fun t c => ?_
  dsimp only
  split_ifs <;> simp

@[simp] theorem view_modHold (m pos : Nat) : (s.modHold m pos).view o d = s.view o d := by simp [State.modHold]

@[simp] theorem view_modPrep (m pos : Nat) : (s.modPrep m pos).view o d = s.view o d := by
  unfold State.modPrep
  dsimp only
  split_ifs <;> simp

@[simp] theorem view_modSlot (m pos slot : Nat) : (s.modSlot m pos slot).view o false = s.view o false := by
  unfold State.modSlot
  extract_lets x course edge s1 x1 c centre peak atPeak s2 x2 s3
  have h1 : s1.view o false = s.view o false := by
    show (if edge then s.modBoundary m slot else s).view o false = _
    split <;> simp
  have h2 : s2.view o false = s1.view o false := by
    show (if atPeak = true then s1.resolverSample m slot else s1).view o false = _
    split <;> simp
  have h3 : s3.view o false = s.view o false := h2.trans h1
  split
  · exact h1
  · split
    · exact h3
    · exact h3

@[simp] theorem view_modStep (m pos slot : Nat) : (s.modStep m pos slot).view o false = s.view o false := by
  unfold State.modStep
  split_ifs <;> simp

@[simp] theorem view_modsTick (p0 p1 : List W32) : (s.modsTick p0 p1).view o false = s.view o false := by
  unfold State.modsTick
  split
  · rfl
  · refine (view_foldl _ _ _ fun t j => ?_).trans (view_foldl _ _ _ fun t m => view_modPrep _ _ _ _ _)
    unfold State.modsSlot
    exact (view_foldl _ _ _ fun t c => view_driveCell _ _ _ _ _).trans (view_foldl _ _ _ fun t m => view_modStep _ _ _ _ _)

/-! ### Joints -/

@[simp] theorem view_applyActs (c : Nat) (a : Acted) : (s.applyActs c a).view o d = s.view o d := by simp [State.applyActs]

@[simp] theorem view_pinAction (j c act : Nat) (arg : Word) (slot : Nat) : (s.pinAction j c act arg slot).view o d = s.view o d := by
  unfold State.pinAction
  dsimp only
  split_ifs <;> simp

@[simp] theorem view_jmark {k : RegKind} (hk : ∀ i, k.away i) (j : Nat) : (s.jmark k j).view o d = s.view o d := view_setBit o d s (hk _) _ _

@[simp] theorem view_jqueue (e : Nat × Nat × Word × Word × Nat) : (s.jqueue e).view o d = s.view o d := by
  unfold State.jqueue
  dsimp only
  split_ifs
  · rfl
  · split
    · exact view_jmark o d { s with dispatch := _ } away_JNT_DROP _
    · rfl

@[simp] theorem view_jfire (j slot : Nat) : (s.jfire j slot).view o d = s.view o d := by
  have h1 : (({ s with jfired := Tab.set 0 j (s.ticks + 1) s.jfired } : State).jmark .JNT_FIRED j).view o d = s.view o d :=
    view_jmark o d { s with jfired := _ } away_JNT_FIRED j
  unfold State.jfire State.jact
  dsimp only
  split_ifs
  · exact (view_pinAction _ _ _ _ _ _ _ _).trans h1
  · exact (view_jqueue _ _ _ _).trans h1

@[simp] theorem view_jadvance (j : Nat) (p : W32) : (s.jadvance j p).view o d = s.view o d := by
  unfold State.jadvance
  extract_lets inc rev m dd s1
  have h1 : s1.view o d = s.view o d := view_setPair o d s (away_JNT_POS_LO j) (away_JNT_POS_HI j) _
  split
  · simp
  · split
    · exact (view_jmark o d s1 away_JNT_DROP j).trans h1
    · exact h1

@[simp] theorem view_jlate (j : Nat) (p : W32) : (s.jlate j p).view o d = s.view o d := by
  unfold State.jlate
  split_ifs <;> simp

@[simp] theorem view_skipJoints_tail (p2 : W32) (l : List Nat) : (l.foldl (fun s j => s.jlate j p2) s).view o d = s.view o d :=
  view_foldl _ _ _ fun t j => view_jlate _ _ t j p2

@[simp] theorem view_courseEvt (c b : Nat) : (s.courseEvt c b).view o d = s.view o d := by
  unfold State.courseEvt
  dsimp only
  split_ifs <;> simp

@[simp] theorem view_catchUp (c : Nat) : (s.catchUp c).view o d = s.view o d := by
  refine view_foldl _ _ _ fun t j => ?_
  dsimp only
  split_ifs <;> simp

@[simp] theorem view_jointTick (p0 p1 : List W32) : (s.jointTick p0 p1).view o d = s.view o d := by
  refine view_foldl _ _ _ fun t j => ?_
  dsimp only
  split
  · rfl
  · rw [view_jadvance]
    split <;> simp

/-! ### Course c: the others are left -/

variable (c : Nat)

@[simp] theorem view_skipJoints (p1 p2 : W32) : (s.skipJoints c p1 p2).view o d = s.view o d := by
  unfold State.skipJoints
  refine (view_skipJoints_tail _ _ _ _ _).trans ?_
  split_ifs <;> simp

@[simp] theorem view_toLost (byRun : Bool) : (s.toLost c byRun).view (some c) d = s.view (some c) d := by
  unfold State.toLost
  dsimp only
  split_ifs <;> simp

@[simp] theorem view_toSearch : (s.toSearch c).view (some c) d = s.view (some c) d := view_setCourse _ _ _ _

@[simp] theorem view_badEdge (pat sp : Bool) : (s.badEdge c pat sp).view (some c) d = s.view (some c) d := by
  unfold State.badEdge
  dsimp only
  split_ifs <;> simp

@[simp] theorem view_toLocked : (s.toLocked c).view (some c) d = s.view (some c) d := by simp [State.toLocked]

@[simp] theorem view_goodEdge : (s.goodEdge c).view (some c) d = s.view (some c) d := by
  unfold State.goodEdge
  dsimp only
  split
  · split_ifs <;> simp
  · simp
  · rfl

@[simp] theorem view_correct (np : Nat) (f : Course → Course) : (s.correct c np f).view (some c) d = s.view (some c) d := by
  unfold State.correct
  dsimp only
  split_ifs <;> simp

@[simp] theorem view_edgeEnd (x1 slot : Nat) (sp ac e : Int) (bad pat fast : Bool) :
    (s.edgeEnd c x1 slot sp ac e bad pat fast).view (some c) d = s.view (some c) d := by
  unfold State.edgeEnd
  dsimp only
  split_ifs <;> simp

@[simp] theorem view_trackEdge (x1 slot : Nat) (sp ac : Int) (f : Course → Course) :
    (s.trackEdge c x1 slot sp ac f).view (some c) d = s.view (some c) d := by
  unfold State.trackEdge
  dsimp only
  rw [view_edgeEnd]
  split_ifs <;> simp

@[simp] theorem view_reversal (old new : Bool) : (s.reversal c old new).view o d = s.view o d := by
  unfold State.reversal
  split_ifs <;> simp

@[simp] theorem view_resolverEdge (x : Course) (sn cs : Int) (e : EdgeInfo) : (s.resolverEdge c x sn cs e).view (some c) d = s.view (some c) d := by
  unfold State.resolverEdge
  dsimp only
  split_ifs <;> simp

@[simp] theorem view_count_edges (i : Nat) : (s.count .CRS_EDGES i).view o d = s.view o d := view_setReg o d s (away_CRS_EDGES i) _

@[simp] theorem view_speedTick : (s.speedTick c).view (some c) d = s.view (some c) d := by
  unfold State.speedTick
  dsimp only
  split_ifs <;> simp

@[simp] theorem view_advance : (s.advance c).view (some c) d = s.view (some c) d := by
  unfold State.advance
  dsimp only
  split
  · rfl
  · rfl
  · split_ifs <;> simp

@[simp] theorem view_gptpFollow : (s.gptpFollow c).view (some c) d = s.view (some c) d := by
  unfold State.gptpFollow
  dsimp only
  split_ifs
  · rfl
  · rfl
  · split <;> simp
  · split <;> simp

@[simp] theorem view_runTick : (s.runTick c).view (some c) d = s.view (some c) d := by
  unfold State.runTick
  dsimp only
  split_ifs <;> simp

end

theorem view_takeSample (d : Bool) (s : State) (e : Nat × Int × Int × Nat) : (s.takeSample e).view (some e.1) d = s.view (some e.1) d := by
  unfold State.takeSample
  dsimp only
  split_ifs <;> simp

/-! ### One course in a tick -/

/-- What the tick of course c depends on: the bond image, its request, the course. -/
def State.tracker (c : Nat) (s : State) := (s.lay, s.bit .CRS_CTRL c 15, s.course c)

theorem tracker_parts {t : State} {c : Nat} {l : Laying} {b : Bool} {x : Course} (h : t.tracker c = (l, b, x)) :
    t.lay = l ∧ t.bit .CRS_CTRL c 15 = b ∧ t.course c = x := by
  unfold State.tracker at h
  simpa only [Prod.mk.injEq] using h

theorem tracker_of_view {o : Option Nat} {d : Bool} {c : Nat} (hc : c < 8) (ho : o ≠ some c) {s t : State} (h : t.view o d = s.view o d) :
    t.tracker c = s.tracker c := by
  unfold State.view at h
  simp only [Prod.mk.injEq] at h
  obtain ⟨-, -, -, hlay, hreg, -, hcourse⟩ := h
  have hreg' : t.reg .CRS_CTRL c = s.reg .CRS_CTRL c := congrFun hreg ⟨c, hc⟩
  have hcourse' := congrFun hcourse c
  rw [if_neg ho, if_neg ho] at hcourse'
  unfold State.tracker State.bit
  rw [hlay, hreg', hcourse']

/-- A fold over the courses whose steps act on their own course: what it makes of course c. -/
theorem tracker_foldl {f : State → Nat → State} {c : Nat} {y : Course} (hc : c < 8) {s : State}
    (hself : ∀ t : State, t.tracker c = s.tracker c → (f t c).tracker c = (s.lay, s.bit .CRS_CTRL c 15, y))
    (hother : ∀ (t : State) (k : Nat), k ≠ c → (f t k).tracker c = t.tracker c) :
    ((upto 8).foldl f s).tracker c = (s.lay, s.bit .CRS_CTRL c 15, y) := by
  obtain ⟨l₁, l₂, hl⟩ := List.append_of_mem (List.mem_range.mpr hc)
  have hnodup : (l₁ ++ c :: l₂).Nodup := hl ▸ List.nodup_range
  have hleft : ∀ k ∈ l₁, k ≠ c := fun k hk he => by
    rw [List.nodup_append] at hnodup
    exact hnodup.2.2 k hk c (by simp) he
  have hright : ∀ k ∈ l₂, k ≠ c := fun k hk he => by
    rw [List.nodup_append, List.nodup_cons] at hnodup
    exact hnodup.2.1.1 (he ▸ hk)
  have hbefore : (l₁.foldl f s).tracker c = s.tracker c :=
    List.foldlRecOn (motive := fun t : State => t.tracker c = s.tracker c) l₁ f rfl fun t ht k hk => (hother t k (hleft k hk)).trans ht
  rw [upto, hl, List.foldl_append, List.foldl_cons]
  exact List.foldlRecOn (motive := fun t : State => t.tracker c = _) l₂ f (hself _ hbefore) fun t ht k hk => (hother t k (hright k hk)).trans ht

/-- A course as it goes to LOST or, again, to SEARCH (R185). -/
def Course.dropped (x : Course) (again : Bool) : Course :=
  { x.frozen with state := if again then .search else .lost, lastSlot := none, lastGap := none, lastS := none, camOk := false }

/-- A course whose RUN request takes effect (R188). -/
def Course.requested (x : Course) (run : Bool) : Course :=
  if x.relayHold then { x with relayHold := false }
  else if run = x.running then x
  else if run then { x with running := true, state := .search }
  else { x with running := false }.dropped false

/-- A course one tick on, where it follows edges. -/
def Course.extrapolated (x : Course) : Course :=
  if x.state = .search ∨ x.state = .lost then x
  else { x with p := wrapP (x.p + x.s), s := clamp32 (x.s + x.a.tdiv (2 ^ 24)), coastAdv := x.coastAdv + x.s.natAbs }.show

/-- A course whose speed may be beyond a limit (R185). -/
def Course.limited (x : Course) (fast again : Bool) : Course :=
  if (x.state = .sync ∨ x.state = .locked) ∧ x.lastS.isSome ∧ fast = true then
    (if x.state = .sync then { x.frozen with state := .search, camOk := false } else x.dropped again)
  else x

theorem tracker_courseEvt (s : State) (c b : Nat) {k : Nat} (hk : k < 8) : (s.courseEvt c b).tracker k = s.tracker k :=
  tracker_of_view hk (by simp) (view_courseEvt none true s c b)

theorem tracker_setCourse (s : State) {c : Nat} (hc : c < 8) (x : Course) : (s.setCourse c x).tracker c = (s.lay, s.bit .CRS_CTRL c 15, x) := by
  unfold State.tracker
  rw [course_setCourse s x hc]
  unfold State.setCourse
  rw [dif_pos hc]
  rfl

theorem tracker_toLost (s : State) {c : Nat} (hc : c < 8) (byRun : Bool) :
    (s.toLost c byRun).tracker c =
      (s.lay, s.bit .CRS_CTRL c 15, (s.course c).dropped (!byRun && s.bit .CRS_CTRL c 15 && s.cMode c 7)) := by
  have hset := tracker_setCourse s hc ((s.course c).dropped (!byRun && s.bit .CRS_CTRL c 15 && s.cMode c 7))
  unfold State.toLost
  cases byRun with
  | false => exact (tracker_courseEvt _ c 5 hc).trans hset
  | true => exact hset

theorem tracker_runTick (s : State) {c : Nat} (hc : c < 8) :
    (s.runTick c).tracker c = (s.lay, s.bit .CRS_CTRL c 15, (s.course c).requested (s.bit .CRS_CTRL c 15)) := by
  unfold State.runTick Course.requested
  dsimp only
  split
  · exact tracker_setCourse s hc _
  · split
    · rfl
    · split
      · exact tracker_setCourse s hc _
      · have hset := tracker_setCourse s hc { s.course c with running := false }
        rw [tracker_toLost _ hc]
        obtain ⟨hlay, hbit, hcourse⟩ := tracker_parts hset
        rw [hlay, hbit, hcourse]
        rfl

theorem tracker_gptpFollow (s : State) {c k : Nat} (hc : c < 8) (hk : s.cKind c ≠ 7) : (s.gptpFollow k).tracker c = s.tracker c := by
  by_cases h : k = c
  · subst h
    unfold State.gptpFollow
    dsimp only
    rw [if_pos (Or.inl hk)]
  · exact tracker_of_view hc (fun he => h (Option.some.inj he)) (view_gptpFollow true s k)

theorem tracker_advance (s : State) {c : Nat} (hc : c < 8) (hk : s.cKind c ≠ 7) :
    (s.advance c).tracker c = (s.lay, s.bit .CRS_CTRL c 15, (s.course c).extrapolated) := by
  unfold State.advance Course.extrapolated
  dsimp only
  split
  · next h =>
    rw [if_pos (Or.inl h)]
    rfl
  · next h =>
    rw [if_pos (Or.inr h)]
    rfl
  · next hsearch hlost =>
    rw [if_neg hk, if_neg (not_or.mpr ⟨hsearch, hlost⟩)]
    exact tracker_setCourse s hc _

theorem tracker_speedTick (s : State) {c : Nat} (hc : c < 8) (hk : s.cKind c ≠ 7) :
    (s.speedTick c).tracker c = (s.lay, s.bit .CRS_CTRL c 15,
      (s.course c).limited (s.overspeed c (s.course c).s) (s.bit .CRS_CTRL c 15 && s.cMode c 7)) := by
  unfold State.speedTick Course.limited
  dsimp only
  by_cases hfast : ((s.course c).state = .sync ∨ (s.course c).state = .locked) ∧ (s.course c).lastS.isSome = true ∧
      s.overspeed c (s.course c).s = true
  · rw [if_pos hfast, if_pos ⟨hfast.1, Or.inl hfast.2.1, hfast.2.2⟩]
    have hevt := tracker_courseEvt s c 8 hc
    have hbad : s.badEdge c false true =
        if (s.course c).state = .sync then (s.courseEvt c 8).toSearch c else (s.courseEvt c 8).toLost c false := rfl
    rw [hbad]
    obtain ⟨hlay, hbit, hcourse⟩ := tracker_parts hevt
    split
    · unfold State.toSearch
      rw [tracker_setCourse _ hc, hlay, hbit, hcourse]
    · have hmode : (s.courseEvt c 8).cMode c 7 = s.cMode c 7 := by
        unfold State.cMode State.cp State.param
        rw [hlay]
      rw [tracker_toLost _ hc, hlay, hbit, hcourse, hmode]
      rfl
  · rw [if_neg hfast, if_neg fun h => hfast ⟨h.1, h.2.1.resolve_right hk, h.2.2⟩]
    rfl

/-! ### The whole tick -/

theorem tracker_takeSamples (s : State) {c : Nat} (hc : c < 8) (hk : s.cKind c ≠ 3) : s.takeSamples.tracker c = s.tracker c := by
  refine List.foldlRecOn (motive := fun t : State => t.tracker c = s.tracker c) s.demod _ rfl fun t ht e _ => ?_
  refine Eq.trans ?_ ht
  by_cases h : e.1 = c
  · have hkind : t.cKind c ≠ 3 := by
      have hlay : t.lay = s.lay := congrArg Prod.fst ht
      unfold State.cKind State.cp State.param at hk ⊢
      rw [hlay]
      exact hk
    unfold State.takeSample
    dsimp only
    rw [h, if_pos (Or.inr hkind)]
  · exact tracker_of_view hc (fun he => h (Option.some.inj he)) (view_takeSample true t e)

theorem tracker_tickMiddle (s : State) (p0 p1 : List W32) {c : Nat} (hc : c < 8) :
    ((upto 64).foldl (fun s k => s.cellTick k) ((s.jointTick p0 p1).modsTick p0 p1)).tracker c = s.tracker c := by
  refine tracker_of_view (o := none) (d := false) hc (by simp) ?_
  exact (view_foldl _ _ _ fun t k => view_cellTick _ _ _ _).trans ((view_modsTick _ _ _ _).trans (view_jointTick _ _ _ _ _))

/-- The time of the tick, with gPTP time. -/
def State.tickStart (s : State) : State := { s with ticks := s.ticks + 1 }.gptpTick

/-- The requests, and the courses that follow gPTP time. -/
def State.tickRequests (s : State) : State := (upto 8).foldl (fun s c => (s.runTick c).gptpFollow c) s

/-- The courses move. -/
def State.tickAdvance (s : State) : State := (upto 8).foldl (fun s c => s.advance c) s

/-- The joints, the modulators, the cells. -/
def State.tickActs (s : State) (p0 p1 : List W32) : State :=
  (upto 64).foldl (fun s k => s.cellTick k) ((s.jointTick p0 p1).modsTick p0 p1)

/-- The speed limits. -/
def State.tickSpeeds (s : State) : State := (upto 8).foldl (fun s c => s.speedTick c) s

/-- The courses' positions. -/
def State.positions (s : State) : List W32 := (upto 8).map fun c => (s.course c).vis

theorem courseTick_eq (s : State) : s.courseTick =
    (s.tickStart.tickRequests.tickAdvance.tickActs s.tickStart.tickRequests.positions
      s.tickStart.tickRequests.tickAdvance.positions).tickSpeeds.takeSamples := rfl

theorem tracker_tickStart (s : State) (c : Nat) : s.tickStart.tracker c = s.tracker c := by
  unfold State.tickStart State.gptpTick
  split <;> rfl

theorem kind_of_tracker {s t : State} {c : Nat} (h : t.lay = s.lay) : t.cKind c = s.cKind c := by
  unfold State.cKind State.cp State.param
  rw [h]

theorem mode_of_lay {s t : State} {c b : Nat} (h : t.lay = s.lay) : t.cMode c b = s.cMode c b := by
  unfold State.cMode State.cp State.param
  rw [h]

theorem overspeed_of_lay {s t : State} {c : Nat} (h : t.lay = s.lay) (v : Int) : t.overspeed c v = s.overspeed c v := by
  unfold State.overspeed State.cp State.param
  rw [h]

theorem tracker_tickRequests (s : State) {c : Nat} (hc : c < 8) (hk : s.cKind c ≠ 7) :
    s.tickRequests.tracker c = (s.lay, s.bit .CRS_CTRL c 15, (s.course c).requested (s.bit .CRS_CTRL c 15)) := by
  refine tracker_foldl hc (fun t ht => ?_) fun t k hkc => ?_
  · have hrun := tracker_runTick t hc
    obtain ⟨hlay, hbit, hcourse⟩ := tracker_parts ht
    rw [hlay, hbit, hcourse] at hrun
    have hlay' : (t.runTick c).lay = s.lay := congrArg Prod.fst hrun
    exact (tracker_gptpFollow _ hc (by rw [kind_of_tracker hlay']; exact hk)).trans hrun
  · have hne : some k ≠ some c := fun he => hkc (Option.some.inj he)
    exact (tracker_of_view hc hne (view_gptpFollow true _ k)).trans (tracker_of_view hc hne (view_runTick true t k))

theorem tracker_tickAdvance (s : State) {c : Nat} (hc : c < 8) (hk : s.cKind c ≠ 7) :
    s.tickAdvance.tracker c = (s.lay, s.bit .CRS_CTRL c 15, (s.course c).extrapolated) := by
  refine tracker_foldl hc (fun t ht => ?_) fun t k hkc => ?_
  · obtain ⟨hlay, hbit, hcourse⟩ := tracker_parts ht
    rw [tracker_advance t hc (by rw [kind_of_tracker hlay]; exact hk), hlay, hbit, hcourse]
  · exact tracker_of_view hc (fun he => hkc (Option.some.inj he)) (view_advance true t k)

theorem tracker_tickSpeeds (s : State) {c : Nat} (hc : c < 8) (hk : s.cKind c ≠ 7) :
    s.tickSpeeds.tracker c = (s.lay, s.bit .CRS_CTRL c 15,
      (s.course c).limited (s.overspeed c (s.course c).s) (s.bit .CRS_CTRL c 15 && s.cMode c 7)) := by
  refine tracker_foldl hc (fun t ht => ?_) fun t k hkc => ?_
  · obtain ⟨hlay, hbit, hcourse⟩ := tracker_parts ht
    rw [tracker_speedTick t hc (by rw [kind_of_tracker hlay]; exact hk), hlay, hbit, hcourse, mode_of_lay hlay, overspeed_of_lay hlay]
  · exact tracker_of_view hc (fun he => hkc (Option.some.inj he)) (view_speedTick true t k)

/-- A course that follows edges after a tick. -/
theorem course_courseTick (s : State) {c : Nat} (hc : c < 8) (h3 : s.cKind c ≠ 3) (h7 : s.cKind c ≠ 7) :
    let z := ((s.course c).requested (s.bit .CRS_CTRL c 15)).extrapolated
    s.courseTick.course c = z.limited (s.overspeed c z.s) (s.bit .CRS_CTRL c 15 && s.cMode c 7) := by
  intro z
  have h0 := tracker_tickStart s c
  obtain ⟨hlay0, hbit0, hcourse0⟩ := tracker_parts h0
  have h1 := tracker_tickRequests s.tickStart hc (by rw [kind_of_tracker hlay0]; exact h7)
  rw [hlay0, hbit0, hcourse0] at h1
  obtain ⟨hlay1, hbit1, hcourse1⟩ := tracker_parts h1
  have h2 := tracker_tickAdvance s.tickStart.tickRequests hc (by rw [kind_of_tracker hlay1]; exact h7)
  rw [hlay1, hbit1, hcourse1] at h2
  have h3' := (tracker_tickMiddle s.tickStart.tickRequests.tickAdvance s.tickStart.tickRequests.positions
    s.tickStart.tickRequests.tickAdvance.positions hc).trans h2
  change (s.tickStart.tickRequests.tickAdvance.tickActs _ _).tracker c = _ at h3'
  rw [courseTick_eq]
  generalize s.tickStart.tickRequests.tickAdvance.tickActs s.tickStart.tickRequests.positions
    s.tickStart.tickRequests.tickAdvance.positions = t at h3' ⊢
  obtain ⟨hlay, hbit, hcourse⟩ := tracker_parts h3'
  change t.course c = z at hcourse
  have h4 := tracker_tickSpeeds t hc (by rw [kind_of_tracker hlay]; exact h7)
  have hlay4 : t.tickSpeeds.lay = t.lay := (tracker_parts h4).1
  have h5 := (tracker_takeSamples t.tickSpeeds hc (by rw [kind_of_tracker (hlay4.trans hlay)]; exact h3)).trans h4
  rw [hbit, hcourse, mode_of_lay hlay, overspeed_of_lay hlay] at h5
  exact (tracker_parts h5).2.2

/-- A part of the view that every stage of the tick after its start keeps. -/
theorem view_courseTick (s : State) {α : Type} (f : State → α) (hf : ∀ {o : Option Nat} {t u : State}, t.view o false = u.view o false → f t = f u) :
    f s.courseTick = f s.tickStart := by
  have hfold {g : State → Nat → State} (l : List Nat) (t : State) (hg : ∀ u k, f (g u k) = f u) : f (l.foldl g t) = f t :=
    List.foldlRecOn (motive := fun u : State => f u = f t) l g rfl fun u hu k _ => (hg u k).trans hu
  have hrequests (t : State) : f t.tickRequests = f t :=
    hfold _ t fun u k => (hf (view_gptpFollow false _ k)).trans (hf (view_runTick false u k))
  have hadvance (t : State) : f t.tickAdvance = f t := hfold _ t fun u k => hf (view_advance false u k)
  have hacts (t : State) (p0 p1 : List W32) : f (t.tickActs p0 p1) = f t :=
    hf (o := none) ((view_foldl _ _ _ fun t k => view_cellTick _ _ _ _).trans ((view_modsTick _ _ _ _).trans (view_jointTick _ _ _ _ _)))
  have hspeeds (t : State) : f t.tickSpeeds = f t := hfold _ t fun u k => hf (view_speedTick false u k)
  have hsamples (t : State) : f t.takeSamples = f t :=
    List.foldlRecOn (motive := fun u : State => f u = f t) t.demod _ (hf (view_demod none t [])) fun u hu e _ => (hf (view_takeSample false u e)).trans hu
  rw [courseTick_eq, hsamples, hspeeds, hacts, hadvance, hrequests]

theorem demod_courseTick (s : State) : s.courseTick.demod = [] := by
  rw [courseTick_eq]
  unfold State.takeSamples
  refine List.foldlRecOn (motive := fun u : State => u.demod = []) _ _ rfl fun u hu e _ => ?_
  exact (congrArg (fun x => x.2.2.2.2.2.1) (view_takeSample true u e)).trans hu

theorem courseTick_exec (s : State) : exec .courseTick s =
    .next ((upto 18).foldl (fun s i => s.crossPort (4 + i)) s.accruePorts.courseTick) := rfl

/-! ### The course's own tick in the terms of the rules -/

theorem clamp32_eq_sat32 (v : Int) : clamp32 v = sat32 v := rfl

theorem wrapP_eq (v : Int) : wrapP v = (v % 2 ^ 52).toNat := rfl

/-- The tick of a course that moves. -/
theorem extrapolated_eq_ticked {x : Course} (h : x.state = .sync ∨ x.state = .locked ∨ x.state = .coast) : x.extrapolated = x.ticked := by
  have hno : ¬ (x.state = .search ∨ x.state = .lost) := by
    rcases h with h | h | h <;> rw [h] <;> decide
  unfold Course.extrapolated Course.show Course.ticked visOf
  rw [if_neg hno, wrapP_eq, clamp32_eq_sat32]
  dsimp only
  split
  · next hhold =>
    have hheld : x.holding = true := by
      rw [Bool.and_eq_true, Bool.and_eq_true] at hhold
      exact hhold.1.1
    rw [hhold, hheld]
  · next hhold =>
    rw [Bool.eq_false_of_not_eq_true hhold]

theorem extrapolated_of_still {x : Course} (h : x.state = .search ∨ x.state = .lost) : x.extrapolated = x := if_pos h

theorem limited_of_still {x : Course} (h : x.state = .search ∨ x.state = .lost) (fast again : Bool) : x.limited fast again = x := by
  refine if_neg fun hmoves => ?_
  rcases h with h | h <;> rw [h] at hmoves <;> exact absurd hmoves.1 (by decide)

theorem accrue_only (s : State) (p : Nat) : ∃ n f, s.accrue p = { s with net := n, fresh := f } := by
  unfold State.accrue State.gates
  dsimp only
  refine List.foldlRecOn (motive := fun t : State => ∃ n f, t = { s with net := n, fresh := f }) [5, 6] _ ?_ fun t ht c _ => ?_
  · split_ifs <;> exact ⟨_, _, rfl⟩
  · obtain ⟨n, f, rfl⟩ := ht
    split_ifs <;> exact ⟨_, _, rfl⟩

/-- The shapers' credits lie in the network's state; only free numbers are drawn beside. -/
theorem accruePorts_only (s : State) : ∃ n f, s.accruePorts = { s with net := n, fresh := f } := by
  refine List.foldlRecOn (motive := fun t : State => ∃ n f, t = { s with net := n, fresh := f }) (upto 14) _ ⟨s.net, s.fresh, rfl⟩ fun t ht p _ => ?_
  obtain ⟨n, f, rfl⟩ := ht
  obtain ⟨n', f', h⟩ := accrue_only { s with net := n, fresh := f } p
  exact ⟨n', f', h⟩

theorem clock_parts {s t : State} (h : t.clock = s.clock) :
    t.ticks = s.ticks ∧ t.gptpNs = s.gptpNs ∧ t.gptpFrac = s.gptpFrac ∧ t.demod = s.demod ∧ ∀ c, t.course c = s.course c := by
  unfold State.clock at h
  simp only [Prod.mk.injEq] at h
  obtain ⟨hticks, hns, hfrac, hdemod, hcourses⟩ := h
  refine ⟨hticks, hns, hfrac, hdemod, fun c => ?_⟩
  unfold State.course
  rw [hcourses]

/-- The state that the tick leaves has the clocks and courses of State.courseTick, on a state that differs in the network alone. -/
theorem courseTick_next (s : State) : ∃ n f t, exec .courseTick s = .next t ∧ t.clock = ({ s with net := n, fresh := f } : State).courseTick.clock := by
  obtain ⟨n, f, h⟩ := accruePorts_only s
  refine ⟨n, f, _, courseTick_exec s, ?_⟩
  rw [h]
  exact clock_foldl _ _ _ fun t i => clock_crossPort t _

theorem ticks_courseTick (s : State) : s.courseTick.ticks = s.ticks + 1 := by
  refine (view_courseTick s State.ticks fun h => congrArg Prod.fst h).trans ?_
  unfold State.tickStart State.gptpTick
  split <;> rfl

theorem gptpNs_courseTick (s : State) : s.courseTick.gptpNs = s.tickStart.gptpNs := view_courseTick s State.gptpNs fun h => congrArg (fun x => x.2.1) h

theorem gptpFrac_courseTick (s : State) : s.courseTick.gptpFrac = s.tickStart.gptpFrac :=
  view_courseTick s State.gptpFrac fun h => congrArg (fun x => x.2.2.1) h

theorem tickStart_of_off {s : State} (h : s.bit .GPTP_CTL 0 15 = false) : s.tickStart.gptpNs = s.gptpNs ∧ s.tickStart.gptpFrac = s.gptpFrac := by
  unfold State.tickStart State.gptpTick
  rw [if_pos (by rw [show ({ s with ticks := s.ticks + 1 } : State).bit .GPTP_CTL 0 15 = false from h]; exact Bool.false_ne_true)]
  exact ⟨rfl, rfl⟩

theorem tickStart_of_on {s : State} (h : s.bit .GPTP_CTL 0 15 = true) :
    let f : Int := s.gptpFrac + 5 * (2 ^ 40 + signed 32 ((s.reg .GPTP_RATE_LO 0).toNat + (s.reg .GPTP_RATE_HI 0).toNat * 65536))
    s.tickStart.gptpNs = s.gptpNs + BitVec.ofInt 64 (f / 2 ^ 42) ∧ (s.tickStart.gptpFrac : Int) = f % 2 ^ 42 := by
  intro f
  unfold State.tickStart State.gptpTick
  rw [if_neg (not_not.mpr (show ({ s with ticks := s.ticks + 1 } : State).bit .GPTP_CTL 0 15 = true from h))]
  exact ⟨rfl, Int.toNat_of_nonneg (Int.emod_nonneg _ (by decide))⟩

theorem overspeed_iff (s : State) (c : Nat) (v : Int) : s.overspeed c v = true ↔
    (s.param (1034 + 14 * c + 8) ≠ 0 ∧ v.natAbs < s.param (1034 + 14 * c + 8)) ∨
      (s.param (1034 + 14 * c + 9) ≠ 0 ∧ s.param (1034 + 14 * c + 9) < v.natAbs) := by
  simp only [State.overspeed, State.cp, Bool.or_eq_true, Bool.and_eq_true]
  exact or_congr (and_congr decide_eq_true_iff decide_eq_true_iff) (and_congr decide_eq_true_iff decide_eq_true_iff)

end Sys2Proof.Machine

namespace Sys2Proof

open Sys2Proof.Machine

/-- Settles O35: each stage of the tick acts on course c by a function of the course alone. -/
theorem courseTick : Obligations.CourseTick := by
  intro s
  obtain ⟨n, f, t, hexec, hclock⟩ := courseTick_next s
  obtain ⟨hticks, hns, hfrac, hdemod, hcourse⟩ := clock_parts hclock
  refine ⟨t, hexec, hticks.trans (ticks_courseTick _), fun hoff => ?_, fun hon => ?_, hdemod.trans (demod_courseTick _), fun c hc h3 h7 => ?_⟩
  · obtain ⟨h1, h2⟩ := tickStart_of_off (s := { s with net := n, fresh := f }) hoff
    exact ⟨(hns.trans (gptpNs_courseTick _)).trans h1, (hfrac.trans (gptpFrac_courseTick _)).trans h2⟩
  · obtain ⟨h1, h2⟩ := tickStart_of_on (s := { s with net := n, fresh := f }) hon
    exact ⟨(hns.trans (gptpNs_courseTick _)).trans h1, (congrArg Int.ofNat (hfrac.trans (gptpFrac_courseTick _))).trans h2⟩
  · intro x y run z lo hi wrong moves
    have hy : y = ((x.requested run).extrapolated).limited (s.overspeed c (x.requested run).extrapolated.s) (run && s.cMode c 7) :=
      (hcourse c).trans (course_courseTick { s with net := n, fresh := f } hc h3 h7)
    have hplain (hhold : x.relayHold = false) (hrun : run = x.running) : x.requested run = x := by
      unfold Course.requested
      rw [hhold, if_neg Bool.false_ne_true, if_pos hrun]
    have hstill {w : Course} (hw : x.requested run = w) (hst : w.state = .search ∨ w.state = .lost) : y = w := by
      rw [hy, hw, extrapolated_of_still hst, limited_of_still hst]
    have hmoving (hhold : x.relayHold = false) (hrun : run = x.running) (hmoves : moves) : y = z.limited (s.overspeed c z.s) (run && s.cMode c 7) := by
      rw [hy, hplain hhold hrun, extrapolated_eq_ticked hmoves]
    refine ⟨fun hhold hst => ?_, fun hhold hrun hst => ?_, fun hhold hrun hmoves hok => ?_, fun hhold hrun hmoves hwrong => ?_,
      fun hhold hrun hrunning => ?_, fun hhold hrun hrunning => ?_⟩
    · exact hstill (if_pos hhold) hst
    · exact hstill (hplain hhold hrun) hst
    · refine (hmoving hhold hrun hmoves).trans (if_neg ?_)
      rintro ⟨hst, hlast, hfast⟩
      refine hok ⟨fun hcoast => ?_, Option.isSome_iff_ne_none.mp hlast, (overspeed_iff s c z.s).mp hfast⟩
      rw [show z.state = .coast from hcoast] at hst
      exact absurd hst (by decide)
    · have hfast : s.overspeed c z.s = true := (overspeed_iff s c z.s).mpr hwrong.2.2
      have hlast : z.lastS.isSome = true := Option.isSome_iff_ne_none.mpr hwrong.2.1
      have hst : z.state = .sync ∨ z.state = .locked := by
        rcases hmoves with h | h | h
        · exact Or.inl h
        · exact Or.inr h
        · exact absurd h hwrong.1
      have hlim : y = if z.state = .sync then { z.frozen with state := .search, camOk := false } else z.dropped (run && s.cMode c 7) :=
        (hmoving hhold hrun hmoves).trans (if_pos ⟨hst, hlast, hfast⟩)
      rw [hlim]
      rcases hst with hst | hst
      · have hx : x.state = .sync := hst
        rw [if_pos hst, hx, if_neg (fun h => absurd h.1 (by decide))]
        exact ⟨rfl, rfl, rfl, rfl⟩
      · have hx : x.state = .locked := hst
        rw [if_neg (by rw [hst]; decide), hx]
        refine ⟨rfl, rfl, rfl, ?_⟩
        have hagain : (run && s.cMode c 7) = true ↔ run = true ∧ (s.param (1034 + 14 * c)).testBit 7 = true := by
          rw [Bool.and_eq_true]
          rfl
        show (if (run && s.cMode c 7) = true then CState.search else CState.lost) = _
        by_cases hmay : run = true ∧ (s.param (1034 + 14 * c)).testBit 7 = true
        · rw [if_pos (hagain.mpr hmay), if_neg fun h => h.2 hmay]
        · rw [if_neg fun h => hmay (hagain.mp h), if_pos ⟨rfl, hmay⟩]
    · refine hstill ?_ (Or.inl rfl)
      unfold Course.requested
      rw [hhold, hrun, hrunning, if_neg Bool.false_ne_true, if_neg Bool.true_eq_false_eq_False, if_pos rfl]
    · have hw : x.requested run = { x with running := false }.dropped false := by
        unfold Course.requested
        rw [hhold, hrun, hrunning, if_neg Bool.false_ne_true, if_neg Bool.false_ne_true, if_neg Bool.false_ne_true]
      rw [hstill hw (Or.inr rfl)]
      exact ⟨rfl, rfl, rfl, rfl, rfl⟩

end Sys2Proof
end

section
/-! SUPPORT. Joints: arming, firing, moving on, and the dispatch of actions (R178, R189 to R197). -/

namespace Sys2Proof.Machine

open Sys2Proof

theorem jarm_eq (s : State) (j : Nat) (v : Word) :
    let armed := ((s.setReg .JNT_POS_LO j (Tab.get 0 s.staging (RegKind.JNT_POS_LO.addr j))).setReg .JNT_POS_HI j v).setBit .JNT_CFG j 15 true
    s.jarm j v = if (armed.jmay j || armed.bit .JNT_CFG j 6) && armed.jbehind j (armed.course (armed.jcourse j)).vis then
      armed.jlate j (armed.course (armed.jcourse j)).vis else armed := rfl

theorem jmay_iff (s : State) (j : Nat) : s.jmay j = true ↔ s.mayFire j := by
  unfold State.jmay State.mayFire
  split
  · next h => simp [h]
  · next h => simp [h]
  · next hl hc => exact iff_of_false Bool.false_ne_true (not_or.mpr ⟨hl, fun h => hc h.1⟩)

theorem jbehind_forward {s : State} {j : Nat} (h : s.fld .JNT_CFG j 8 7 = 0) (q : W32) : s.jbehind j q = true ↔ distV q (s.jpos j) ≤ 0 := by
  unfold State.jbehind State.jdir
  rw [h]
  simp [aheadF]

theorem jbehind_reverse {s : State} {j : Nat} (h : s.fld .JNT_CFG j 8 7 = 1) (q : W32) : s.jbehind j q = true ↔ distV (s.jpos j) q ≤ 0 := by
  unfold State.jbehind State.jdir
  rw [h]
  simp [aheadR]

/-! ### The dispatch queue -/

/-- An action that stands behind e in the dispatch queue: of the same tick, of a higher joint. -/
def dispatchedLater (e x : Nat × Nat × Word × Word × Nat) : Prop := x.2.2.2.2 = e.2.2.2.2 ∧ e.1 < x.1

theorem dispatchInsert_split {e x : Nat × Nat × Word × Word × Nat} {l r : List (Nat × Nat × Word × Word × Nat)}
    (hl : ∀ y ∈ l, ¬ dispatchedLater e y) (hx : dispatchedLater e x) : dispatchInsert e (l ++ x :: r) = l ++ e :: x :: r := by
  induction l with
  | nil => exact if_pos hx
  | cons y l ih =>
    have hy : dispatchInsert e (y :: (l ++ x :: r)) = y :: dispatchInsert e (l ++ x :: r) := if_neg (hl y (by simp))
    rw [List.cons_append, hy, ih fun z hz => hl z (by simp [hz])]
    rfl

theorem dispatchInsert_end {e : Nat × Nat × Word × Word × Nat} {l : List (Nat × Nat × Word × Word × Nat)} (hl : ∀ y ∈ l, ¬ dispatchedLater e y) :
    dispatchInsert e l = l ++ [e] := by
  induction l with
  | nil => rfl
  | cons y l ih =>
    have hy : dispatchInsert e (y :: l) = y :: dispatchInsert e l := if_neg (hl y (by simp))
    rw [hy, ih fun z hz => hl z (by simp [hz])]
    rfl

theorem length_dispatchInsert (e : Nat × Nat × Word × Word × Nat) (l : List (Nat × Nat × Word × Word × Nat)) :
    (dispatchInsert e l).length = l.length + 1 := by
  induction l with
  | nil => rfl
  | cons y l ih =>
    unfold dispatchInsert
    split
    · rfl
    · rw [List.length_cons, ih]
      rfl

theorem jqueue_of_room {s : State} {e : Nat × Nat × Word × Word × Nat} (h : s.dispatch.length < 256) :
    s.jqueue e = { s with dispatch := dispatchInsert e s.dispatch } :=
  if_pos (by rw [length_dispatchInsert]; omega)

/-- An action that finds the queue full behind all that it holds is not made. -/
theorem jqueue_of_full {s : State} {e : Nat × Nat × Word × Word × Nat} (h : s.dispatch.length = 256) (hl : ∀ y ∈ s.dispatch, ¬ dispatchedLater e y) :
    s.jqueue e = s.jmark .JNT_DROP e.1 := by
  unfold State.jqueue
  dsimp only
  rw [if_neg (by rw [length_dispatchInsert]; omega), dispatchInsert_end hl, List.getLast?_append_of_ne_nil _ (by simp)]
  simp

/-- The joint's own mark that it has fired. -/
def State.firedMark (s : State) (j : Nat) : State := { s with jfired := Tab.set 0 j (s.ticks + 1) s.jfired }.jmark .JNT_FIRED j

theorem addr_JNT_FIRED_ne {j : Nat} (hj : j < 128) : RegKind.JNT_CFG.addr j ≠ RegKind.JNT_FIRED.addr (j / 16) ∧
    RegKind.JNT_TGT.addr j ≠ RegKind.JNT_FIRED.addr (j / 16) ∧ RegKind.JNT_ARG.addr j ≠ RegKind.JNT_FIRED.addr (j / 16) := by
  refine ⟨?_, ?_, ?_⟩
  · show 2415984640 + 2 * j ≠ 2415986432 + 2 * (j / 16)
    omega
  · show 2415984896 + 2 * j ≠ 2415986432 + 2 * (j / 16)
    omega
  · show 2415985152 + 2 * j ≠ 2415986432 + 2 * (j / 16)
    omega

theorem jfire_of_dispatched {s : State} {j slot : Nat} (hj : j < 128) (h : 4 ≤ s.fld .JNT_CFG j 11 9) :
    s.jfire j slot = (s.firedMark j).jqueue (j, s.fld .JNT_CFG j 11 9, s.reg .JNT_TGT j, s.reg .JNT_ARG j, s.ticks) := by
  obtain ⟨hcfg, htgt, harg⟩ := addr_JNT_FIRED_ne hj
  have hfld : (s.firedMark j).fld .JNT_CFG j 11 9 = s.fld .JNT_CFG j 11 9 :=
    congrArg (fun w => wfld w 11 9) (reg_setReg_of_ne { s with jfired := Tab.set 0 j (s.ticks + 1) s.jfired } _ _ _ _ _ hcfg)
  have hregT : (s.firedMark j).reg .JNT_TGT j = s.reg .JNT_TGT j := reg_setReg_of_ne { s with jfired := Tab.set 0 j (s.ticks + 1) s.jfired } _ _ _ _ _ htgt
  have hregA : (s.firedMark j).reg .JNT_ARG j = s.reg .JNT_ARG j := reg_setReg_of_ne { s with jfired := Tab.set 0 j (s.ticks + 1) s.jfired } _ _ _ _ _ harg
  show (s.firedMark j).jact j slot = _
  unfold State.jact
  dsimp only
  rw [hfld, if_neg (Nat.not_lt.mpr h), hregT, hregA]
  rfl

/-! ### Moving on -/

theorem jlate_of_dropped {s : State} {j : Nat} (h : Tab.get 0 s.jfired j = s.ticks + 1 ∨ s.bit .JNT_CFG j 6 = true) (q : W32) :
    s.jlate j q = (s.jmark .JNT_DROP j).jadvance j q := by
  have hdrop : (s.bit .JNT_CFG j 6 || s.jhasFired j) = true := by
    rw [Bool.or_eq_true]
    exact h.symm.imp_right fun hf => decide_eq_true hf
  unfold State.jlate
  rw [if_pos hdrop]

/-- The distance between two positions as a number of steps forward. -/
theorem distV_nonpos_iff (a b : W32) : distV a b ≤ 0 ↔ (a - b).toNat ≤ 2 ^ 31 := by
  have ha := a.isLt
  have hb := b.isLt
  unfold distV signed
  rw [BitVec.toNat_sub]
  split <;> omega

theorem distV_pos_iff (a b : W32) : 0 < distV a b ↔ 0 < (b - a).toNat ∧ (b - a).toNat < 2 ^ 31 := by
  have ha := a.isLt
  have hb := b.isLt
  unfold distV signed
  rw [BitVec.toNat_sub]
  split <;> omega

/-- One step of INC puts the joint ahead. -/
theorem steps_eq_one {q p : W32} {inc : Nat} (hinc : inc < 2 ^ 31) (hbehind : distV q p ≤ 0) (hahead : 0 < distV q (p + BitVec.ofNat 32 inc)) :
    steps false q p inc = 1 := by
  rw [distV_nonpos_iff] at hbehind
  rw [distV_pos_iff] at hahead
  have hq := q.isLt
  have hp := p.isLt
  have hlt : (q - p).toNat < inc := by
    rw [BitVec.toNat_sub] at hbehind hahead ⊢
    rw [BitVec.toNat_add, BitVec.toNat_ofNat] at hahead
    omega
  unfold steps
  rw [if_neg Bool.false_ne_true]
  dsimp only
  rw [if_pos hbehind, Nat.div_eq_of_lt hlt]

theorem jadvance_one {s : State} {j : Nat} {q : W32} (hpos : 0 < s.jinc j) (hdir : s.fld .JNT_CFG j 8 7 = 0) (hbehind : distV q (s.jpos j) ≤ 0)
    (hahead : 0 < distV q (s.jpos j + BitVec.ofNat 32 (s.jinc j))) (hinc : s.jinc j < 2 ^ 31) :
    s.jadvance j q = s.setPair .JNT_POS_LO .JNT_POS_HI j (s.jpos j + BitVec.ofNat 32 (s.jinc j)).toNat := by
  have hrev : decide (s.jdir j = 1) = false := decide_eq_false (by unfold State.jdir; omega)
  unfold State.jadvance
  dsimp only
  rw [if_neg (Nat.ne_of_gt hpos), hrev, steps_eq_one hinc hbehind hahead, if_neg (Nat.lt_irrefl 1), if_neg Bool.false_ne_true, Nat.one_mul]

/-- The slot of a crossing is the first at which the course has covered the distance (R193). -/
theorem crossing_slot {s : State} {j : Nat} {p0 p1 : W32} (harmed : s.armed j = true) (hmay : s.mayFire j) (hdir : s.fld .JNT_CFG j 8 7 ≠ 1)
    (hq : 0 < distV p0 (s.jpos j)) (hd : distV p0 (s.jpos j) ≤ distV p0 p1) :
    ∃ k : Nat, s.crossing? j p0 p1 = some k ∧ 8 * distV p0 (s.jpos j) ≤ k * distV p0 p1 ∧ (k - 1) * distV p0 p1 < 8 * distV p0 (s.jpos j) := by
  obtain ⟨q, hqn⟩ := Int.eq_ofNat_of_zero_le hq.le
  obtain ⟨d, hdn⟩ := Int.eq_ofNat_of_zero_le (hq.le.trans hd)
  rw [hqn] at hq hd
  rw [hdn] at hd
  have hdpos : 0 < d := by omega
  have hcross : s.crossing? j p0 p1 = some ((8 * q + d - 1) / d) := by
    have hfwd : (decide (0 < (q : Int)) && decide ((q : Int) ≤ d) && decide (s.jdir j ≠ 1)) = true := by
      rw [decide_eq_true hq, decide_eq_true hd, decide_eq_true (show s.jdir j ≠ 1 from hdir)]
      rfl
    unfold State.crossing?
    dsimp only
    rw [hqn, hdn, harmed, (jmay_iff s j).mpr hmay, hfwd, Bool.true_or]
    exact if_pos rfl
  have hmod := Nat.mod_lt (8 * q + d - 1) hdpos
  have hdiv := Nat.div_add_mod (8 * q + d - 1) d
  have hcomm := Nat.mul_comm d ((8 * q + d - 1) / d)
  refine ⟨_, hcross, ?_, ?_⟩
  · rw [hqn, hdn]
    exact_mod_cast (by omega : 8 * q ≤ (8 * q + d - 1) / d * d)
  · rw [hqn, hdn, Int.sub_mul, Int.one_mul]
    have hlt : (8 * q + d - 1) / d * d < 8 * q + d := by omega
    have hlt' : (((8 * q + d - 1) / d : Nat) : Int) * (d : Int) < 8 * (q : Int) + (d : Int) := by exact_mod_cast hlt
    omega

/-! ### Dispatch -/

/-- What the action of joint i makes of the state a that has taken it off the queue (R194, R196, R197); s is the state before. -/
def State.dispatched (s a : State) (i act : Nat) (tgt arg : Word) : State :=
  if act = 4 then a.captureStart (wfld tgt 5 0)
  else if act = 5 then
    (if ¬ s.computeReady then a.jshed i
      else { a with crossing := a.crossing ++ [(wfld tgt 3 0, wfld tgt 15 12 * 65536 + arg.toNat)] }.putFlit .fc 0 5)
  else if act = 6 then
    (if wfld tgt 3 0 < 8 then (if ¬ s.computeReady then a.jshed i else (a.putFlit .fc 0 5).raise (wfld tgt 3 0) 1)
      else a.raise (wfld tgt 3 0) 1)
  else a.modJoint (wfld tgt 4 0)

theorem jointDispatch_exec {s : State} {i act : Nat} {tgt arg : Word} {tick : Nat} {rest : List (Nat × Nat × Word × Word × Nat)}
    (htick : s.dispTick ≠ s.ticks + 1) (hq : s.dispatch = (i, act, tgt, arg, tick) :: rest) :
    exec .jointDispatch s = .next (s.dispatched { s with dispatch := rest, dispTick := s.ticks + 1 } i act tgt arg) := by
  show execJointDispatch s = _
  unfold execJointDispatch
  rw [if_neg htick, hq]
  refine congrArg Host.Outcome.next ?_
  unfold State.dispatched
  dsimp only
  split
  · rfl
  · rfl
  · rfl
  · next h4 h5 h6 => rw [if_neg h4, if_neg h5, if_neg h6]

theorem jointDispatch_idle {s : State} (h : s.dispTick = s.ticks + 1 ∨ s.dispatch = []) : exec .jointDispatch s = .next s := by
  show execJointDispatch s = _
  unfold execJointDispatch
  by_cases htick : s.dispTick = s.ticks + 1
  · rw [if_pos htick]
  · rw [if_neg htick, h.resolve_left htick]

end Sys2Proof.Machine

namespace Sys2Proof

open Sys2Proof.Machine

/-- Settles O36. -/
theorem joints : Obligations.Joints := by
  intro s j v armed p mark drops
  have harm : exec (.jointArm j v) s = .next (if (armed.jmay j || armed.bit .JNT_CFG j 6) && armed.jbehind j p then armed.jlate j p else armed) := rfl
  refine ⟨fun h => ?_, fun hmay hbehind => ?_, rfl, jmay_iff s j, fun q hdir => jbehind_forward hdir q, fun q hdir => jbehind_reverse hdir q, ?_,
    fun q h => jlate_of_dropped h q, fun q h => if_pos h, fun q hpos hdir hbehind hahead hinc => jadvance_one hpos hdir hbehind hahead hinc,
    ?_, jointDispatch_idle, ?_⟩
  · refine harm.trans (congrArg Host.Outcome.next (if_neg ?_))
    rw [Bool.and_eq_true, Bool.or_eq_true]
    rintro ⟨hmay, hbehind⟩
    rcases h with ⟨hno, hkeep⟩ | hno
    · rcases hmay with hmay | hmay
      · exact absurd (hmay.symm.trans hno) (by decide)
      · exact hkeep hmay
    · exact absurd (hbehind.symm.trans hno) (by decide)
  · refine harm.trans (congrArg Host.Outcome.next (if_pos ?_))
    rw [Bool.and_eq_true, Bool.or_eq_true]
    exact ⟨hmay, hbehind⟩
  · intro fired entry later slot hact
    have hfire : s.jfire j slot = fired.jqueue entry := jfire_of_dispatched j.isLt hact
    refine ⟨fun hall => ⟨fun hroom => ?_, fun hfull => ?_⟩, fun l x r hq hl hx hroom => ?_⟩
    · rw [hfire, jqueue_of_room (s := fired) hroom]
      exact congrArg (fun q => { fired with dispatch := q }) (dispatchInsert_end (e := entry) (l := s.dispatch) hall)
    · rw [hfire, jqueue_of_full (s := fired) (e := entry) hfull hall]
      rfl
    · rw [hfire, jqueue_of_room (s := fired) hroom]
      refine congrArg (fun q => { fired with dispatch := q }) ?_
      show dispatchInsert entry s.dispatch = _
      rw [hq]
      exact dispatchInsert_split hl hx
  · intro p0 p1 harmed hmay hdir d q hq hd
    exact crossing_slot harmed hmay hdir hq hd
  · intro i act tgt arg tick rest htick hq a shed ready
    have hexec := jointDispatch_exec htick hq
    refine ⟨?_, ?_, ?_, ?_, ?_, ?_⟩
    · rintro rfl
      exact hexec
    · rintro rfl
      exact hexec
    · rintro rfl hf
      exact hexec.trans (congrArg Host.Outcome.next (if_neg (Nat.not_lt.mpr hf)))
    · intro h hready
      have hnot : ¬ s.computeReady = true := by
        rw [show s.computeReady = false from hready]
        exact Bool.false_ne_true
      rcases h with rfl | ⟨rfl, hc⟩
      · exact hexec.trans (congrArg Host.Outcome.next (if_pos hnot))
      · exact hexec.trans (congrArg Host.Outcome.next ((if_pos hc).trans (if_pos hnot)))
    · rintro rfl hready
      exact hexec.trans (congrArg Host.Outcome.next (if_neg (not_not.mpr hready)))
    · rintro rfl hc hready
      exact hexec.trans (congrArg Host.Outcome.next ((if_pos hc).trans (if_neg (not_not.mpr hready))))

end Sys2Proof
end

section
/-! SUPPORT. Course edges, coasting, the RUN request, resynchronisation, positions sent (R180 to R188, R200, R369). -/

namespace Sys2Proof.Machine

open Sys2Proof

/-! ### What a tracker sees of an edge -/

theorem cInput_line (s : State) (c : Nat) (l : Fin 3) : s.cInput c l = s.param (1034 + 14 * c + 1) / 256 ^ l.val % 256 := if_pos l.isLt

theorem edgeSeen_none_of_filter {s : State} {c : Nat} {f : EdgeInfo}
    (h : s.param (1034 + 14 * c + 1) / 256 ^ f.line.val % 256 = 0xFF ∨ f.held < s.param (1034 + 14 * c + 4) % 4096) : s.edgeSeen c f = none := by
  rw [← cInput_line] at h
  exact if_pos (h.imp_right Or.inr)

theorem edgeSeen_none_of_comparator {s : State} {c : Nat} {f : EdgeInfo} (hlo : 0x40 ≤ s.param (1034 + 14 * c + 1) / 256 ^ f.line.val % 256)
    (hhi : s.param (1034 + 14 * c + 1) / 256 ^ f.line.val % 256 < 0x50)
    (h : s.bit .CP_OUT 0 (s.param (1034 + 14 * c + 1) / 256 ^ f.line.val % 256 - 0x40) ≠ f.rising) : s.edgeSeen c f = none := by
  rw [← cInput_line] at hlo hhi h
  refine if_pos (Or.inr (Or.inl ?_))
  rw [show s.inputLevel (s.cInput c f.line) f.rising = s.bit .CP_OUT 0 (s.cInput c f.line - 0x40) from if_pos ⟨hlo, hhi⟩]
  exact h

theorem edgeSeen_some {s : State} {c : Nat} {f e : EdgeInfo} (h : s.edgeSeen c f = some e) :
    e.line = f.line ∧ e.rising = f.rising ∧ e.slot = f.slot - 8 * (s.param (1034 + 14 * c + 4) % 4096) := by
  unfold State.edgeSeen at h
  dsimp only at h
  split at h
  · exact absurd h (by simp)
  · cases h
    exact ⟨rfl, rfl, rfl⟩

/-! ### What the edge is judged to be decides what happens -/

theorem edgeKind_iff (k : Nat) (h : k < 8) : edgeKind k = true ↔ k ∉ [0, 3, 7] := by
  unfold edgeKind
  interval_cases k <;> decide

theorem kind_lt (s : State) (c : Nat) : s.cKind c < 8 := Nat.mod_lt _ (by decide)

theorem courseEdge_exec_of_seen {s : State} {c : Fin 8} {f e : EdgeInfo} (hrun : (s.course c).running = true)
    (hkind : s.cKind c ∉ [0, 3, 7]) (hseen : s.edgeSeen c f = some e) : exec (.courseEdge c f) s = .next (s.courseEdge c e) := by
  show execCourseEdge c f s = _
  unfold execCourseEdge
  rw [if_pos ⟨hrun, (edgeKind_iff _ (kind_lt s c)).mpr hkind⟩, hseen]

theorem courseEdge_exec_of_not {s : State} {c : Fin 8} {f : EdgeInfo}
    (h : (s.course c).running = false ∨ s.cKind c ∈ [0, 3, 7] ∨ s.edgeSeen c f = none) : exec (.courseEdge c f) s = .next s := by
  show execCourseEdge c f s = _
  unfold execCourseEdge
  split
  · next hrun =>
    have hnot := (edgeKind_iff _ (kind_lt s c)).mp hrun.2
    rcases h with h | h | h
    · exact absurd (hrun.1.symm.trans h) (by decide)
    · exact absurd h hnot
    · rw [h]
  · rfl

theorem courseEdge_ignored {s : State} {c : Nat} {e : EdgeInfo} (hr : s.classify c (s.course c) e = .ignored) (hst : (s.course c).state ≠ .search) :
    s.courseEdge c e = s.setCourse c { s.course c with lines := edgeCode e } := by
  unfold State.courseEdge
  dsimp only
  rw [hr]
  exact if_pos ⟨by simp [hst], hst⟩

theorem courseEdge_lost {s : State} {c : Nat} {e : EdgeInfo} (hr : s.classify c (s.course c) e ≠ .ignored) (hst : (s.course c).state = .lost) :
    s.courseEdge c e = s.count .CRS_EDGES c := by
  unfold State.courseEdge
  dsimp only
  rw [decide_eq_true hr, Bool.true_or, if_neg (fun h => absurd rfl h.1), if_pos rfl, if_pos hst]

theorem courseEdge_reference {s : State} {c : Nat} {e : EdgeInfo} {k : Int} (hr : s.classify c (s.course c) e = .reference k)
    (hst : (s.course c).state ≠ .lost) :
    s.courseEdge c e = (s.count .CRS_EDGES c).toSync c (s.course c) k (s.edgeRev c (s.course c) e (.reference k)) e := by
  unfold State.courseEdge
  dsimp only
  rw [hr, decide_eq_true (show EdgeRes.reference k ≠ .ignored by simp), Bool.true_or, if_neg (fun h => absurd rfl h.1), if_pos rfl, if_neg hst]

theorem courseEdge_pattern {s : State} {c : Nat} {e : EdgeInfo} (hr : s.classify c (s.course c) e = .pattern) (hst : (s.course c).state ≠ .lost) :
    s.courseEdge c e = ((s.count .CRS_EDGES c).setCourse c ((s.course c).after e none)).badEdge c true false := by
  unfold State.courseEdge
  dsimp only
  rw [hr, decide_eq_true (show EdgeRes.pattern ≠ .ignored by simp), Bool.true_or, if_neg (fun h => absurd rfl h.1), if_pos rfl, if_neg hst]

theorem courseEdge_edge {s : State} {c : Nat} {e : EdgeInfo} {k n : Int} (hr : s.classify c (s.course c) e = .edge k n)
    (hst : (s.course c).state ≠ .lost) :
    s.courseEdge c e = (s.count .CRS_EDGES c).countedEdge c (s.course c) k n (s.edgeRev c (s.course c) e (.edge k n)) e := by
  unfold State.courseEdge
  dsimp only
  rw [hr, decide_eq_true (show EdgeRes.edge k n ≠ .ignored by simp), Bool.true_or, if_neg (fun h => absurd rfl h.1), if_pos rfl, if_neg hst]

/-! ### The kinds' judgements (R183) -/

theorem classify_pulse {s : State} {c : Nat} {e : EdgeInfo} (hkind : s.cKind c = 6) (hline : e.line = 0)
    (hedge : e.rising ≠ (s.param (1034 + 14 * c)).testBit 3) :
    ((s.course c).state = .search → s.classify c (s.course c) e = .reference 0) ∧
    ((s.course c).state ≠ .search → (s.course c).lastGap = none →
      s.classify c (s.course c) e = .edge ((s.course c).edge + 1) ((s.course c).edge + 1)) := by
  have hclass : s.classify c (s.course c) e = s.pulseEdge c (s.course c) e := by
    unfold State.classify
    rw [hkind] <;> rfl
  have hseen : ¬ (e.line ≠ 0 ∨ e.rising = s.cMode c 3) := not_or.mpr ⟨not_not.mpr hline, hedge⟩
  rw [hclass]
  unfold State.pulseEdge
  rw [if_neg hseen]
  refine ⟨fun hst => if_pos hst, fun hst hgap => ?_⟩
  have hratio (n : Nat) : (s.course c).ratio e n true = false := by
    unfold Course.ratio
    rw [hgap]
    cases (s.course c).gapTo e <;> rfl
  rw [if_neg hst, hratio, if_neg Bool.false_ne_true]

theorem classify_mains {s : State} {c : Nat} {e : EdgeInfo} (hkind : s.cKind c = 5) (hline : e.line = 0) (hst : (s.course c).state ≠ .search) :
    let k := if ((s.course c).edge + 1) % 2 = 0 ↔ e.rising = true then (s.course c).edge + 1 else (s.course c).edge + 2
    s.classify c (s.course c) e = .edge k k := by
  intro k
  have hclass : s.classify c (s.course c) e = mainsEdge (s.course c) e := by
    unfold State.classify
    rw [hkind] <;> rfl
  rw [hclass]
  unfold mainsEdge
  rw [if_neg (not_not.mpr hline), if_neg hst]
  have hk : (if (((s.course c).edge + 1) % 2 = 0) = e.rising then (s.course c).edge + 1 else (s.course c).edge + 1 + 1) = k := by
    refine if_congr eq_iff_iff rfl ?_
    omega
  dsimp only
  rw [hk]

theorem oldCode_of_seen {x : Course} (h : x.lastSlot ≠ none) (e : EdgeInfo) : x.oldCode e = x.lines := if_pos (Option.isSome_iff_ne_none.mpr h)

theorem edgeCode_lt (e : EdgeInfo) : edgeCode e < 8 := by
  unfold edgeCode b2n
  split_ifs <;> decide

theorem phaseStep_forward {x : Course} {n old new : Nat} (h : (new + n - old) % n = 1) : phaseStep x n old new = .edge (x.edge + 1) (x.edge + 1) := by
  unfold phaseStep
  dsimp only
  rw [h, if_neg (by decide), if_pos rfl]

theorem classify_quadrature {s : State} {c : Nat} {e : EdgeInfo} (hkind : s.cKind c = 2) (hline : e.line ≠ 2) (hst : (s.course c).state ≠ .search)
    (hseen : (s.course c).lastSlot ≠ none) (h : ((s.course c).lines % 4, edgeCode e % 4) ∈ [(0, 1), (1, 3), (3, 2), (2, 0)]) :
    s.classify c (s.course c) e = .edge ((s.course c).edge + 1) ((s.course c).edge + 1) := by
  have hclass : s.classify c (s.course c) e = s.quadEdge c (s.course c) e := by
    unfold State.classify
    rw [hkind] <;> rfl
  rw [hclass]
  unfold State.quadEdge
  dsimp only
  rw [if_neg hline, if_neg hst, oldCode_of_seen hseen]
  refine phaseStep_forward ?_
  simp only [List.mem_cons, List.not_mem_nil, or_false, Prod.mk.injEq] at h
  rcases h with ⟨ho, hn⟩ | ⟨ho, hn⟩ | ⟨ho, hn⟩ | ⟨ho, hn⟩ <;> rw [ho, hn] <;> rfl

theorem classify_hall {s : State} {c : Nat} {e : EdgeInfo} (hkind : s.cKind c = 4) (hst : (s.course c).state ≠ .search)
    (hseen : (s.course c).lastSlot ≠ none)
    (h : ((s.course c).lines % 8, edgeCode e) ∈ [(5, 1), (1, 3), (3, 2), (2, 6), (6, 4), (4, 5)]) :
    s.classify c (s.course c) e = .edge ((s.course c).edge + 1) ((s.course c).edge + 1) := by
  have hclass : s.classify c (s.course c) e = hallEdge (s.course c) e := by
    unfold State.classify
    rw [hkind] <;> rfl
  have hix {o n : Nat} (ho : hallIx (s.course c).lines = some o) (hn : hallIx (edgeCode e) = some n) (hstep : (n + 6 - o) % 6 = 1) :
      hallEdge (s.course c) e = .edge ((s.course c).edge + 1) ((s.course c).edge + 1) := by
    unfold hallEdge
    rw [oldCode_of_seen hseen, ho, hn]
    dsimp only
    rw [if_neg hst]
    exact phaseStep_forward hstep
  rw [hclass]
  simp only [List.mem_cons, List.not_mem_nil, or_false, Prod.mk.injEq] at h
  have hold {k o : Nat} (hk : (s.course c).lines % 8 = k) (ho : hallIx k = some o) (hlt : k < 8) : hallIx (s.course c).lines = some o := by
    unfold hallIx at ho ⊢
    rw [hk]
    rw [Nat.mod_eq_of_lt hlt] at ho
    exact ho
  rcases h with ⟨ho, hn⟩ | ⟨ho, hn⟩ | ⟨ho, hn⟩ | ⟨ho, hn⟩ | ⟨ho, hn⟩ | ⟨ho, hn⟩
  · exact hix (hold ho (o := 0) rfl (by decide)) (by rw [hn]; rfl) (n := 1) rfl
  · exact hix (hold ho (o := 1) rfl (by decide)) (by rw [hn]; rfl) (n := 2) rfl
  · exact hix (hold ho (o := 2) rfl (by decide)) (by rw [hn]; rfl) (n := 3) rfl
  · exact hix (hold ho (o := 3) rfl (by decide)) (by rw [hn]; rfl) (n := 4) rfl
  · exact hix (hold ho (o := 4) rfl (by decide)) (by rw [hn]; rfl) (n := 5) rfl
  · exact hix (hold ho (o := 5) rfl (by decide)) (by rw [hn]; rfl) (n := 0) rfl

/-! ### Lock states -/

theorem takeSample_search {s : State} {c : Nat} (hc : c < 8) (hrun : (s.course c).running = true) (hkind : s.cKind c = 3)
    (hst : (s.course c).state = .search) (sn cs : Int) (slot : Nat) :
    let b := s.takeSample (c, sn, cs, slot)
    let a := s.count .CRS_EDGES c
    let lim : Int := (s.param (1034 + 14 * c + 10) % 65536 : Nat)
    (sn * sn + cs * cs < lim → b = a) ∧
    (lim ≤ sn * sn + cs * cs → (b.course c).state = .sync ∧ (b.course c).held = ((s.course c).held + 1) % 4096 ∧ (b.course c).s = 0 ∧
      (b.course c).syncCount = 0 ∧ b = a.setCourse c (b.course c)) := by
  intro b a lim
  have hb (e : EdgeInfo) (he : b = a.resolverEdge c (s.course c) sn cs e) : b = if lim ≤ sn * sn + cs * cs then
      a.setCourse c { (s.course c).after e none with
        state := .sync, held := ((s.course c).held + 1) % 4096, s := 0, a := 0
        p := ((s.course c).held + 1) % 4096 * 2 ^ 40 + unsigned 40 ((s.cp c 3 * 2 ^ 20 : Nat) + Config.resolverError sn cs 0)
        vis := visOf (((s.course c).held + 1) % 4096 * 2 ^ 40 + unsigned 40 ((s.cp c 3 * 2 ^ 20 : Nat) + Config.resolverError sn cs 0))
        syncCount := 0, tolCount := 0 } else a := by
    rw [he]
    unfold State.resolverEdge
    rw [if_pos hst]
    rfl
  have hedge : b = a.resolverEdge c (s.course c) sn cs
      { line := 0, rising := true, a := false, b := false, c := false, cam := false, width := 0, slot, held := 0 } := by
    show s.takeSample (c, sn, cs, slot) = _
    unfold State.takeSample
    dsimp only
    rw [if_neg (by rw [hrun, hkind]; decide), if_neg (by rw [hst]; decide)]
  have hif := hb _ hedge
  refine ⟨fun hlt => hif.trans (if_neg (Int.not_le.mpr hlt)), fun hle => ?_⟩
  rw [if_pos hle] at hif
  rw [hif, course_setCourse _ _ hc]
  exact ⟨rfl, rfl, rfl, rfl, rfl⟩

theorem course_toSync (s : State) {c : Nat} (hc : c < 8) (x : Course) (k : Int) (rev : Bool) (e : EdgeInfo) :
    ((s.toSync c x k rev e).course c).state = .sync ∧ ((s.toSync c x k rev e).course c).held = (x.held + 1) % 4096 ∧
      ((s.toSync c x k rev e).course c).syncCount = 0 := by
  unfold State.toSync
  dsimp only
  rw [course_setCourse _ _ hc]
  exact ⟨rfl, rfl, rfl⟩

theorem badEdge_of_sync {s : State} {c : Nat} (hc : c < 8) (h : (s.course c).state = .sync) : ((s.badEdge c true false).course c).state = .search := by
  have hbad : s.badEdge c true false = (s.courseEvt c 3).toSearch c := if_pos h
  rw [hbad]
  unfold State.toSearch
  rw [course_setCourse _ _ hc]

theorem badEdge_of_moving {s : State} {c : Nat} (hc : c < 8) (h : (s.course c).state = .locked ∨ (s.course c).state = .coast)
    (hresync : s.cMode c 7 = false) : ((s.badEdge c true false).course c).state = .lost := by
  have hne : (s.course c).state ≠ .sync := by
    rcases h with h | h <;> rw [h] <;> decide
  have hbad : s.badEdge c true false = (s.courseEvt c 3).toLost c false := if_neg hne
  have hmode : (s.courseEvt c 3).cMode c 7 = false :=
    (mode_of_lay (tracker_parts (tracker_courseEvt s c 3 hc : _ = (s.lay, s.bit .CRS_CTRL c 15, s.course c))).1).trans hresync
  rw [hbad, (tracker_parts (tracker_toLost _ hc false)).2.2, hmode, Bool.and_false]
  rfl

theorem courseEdges : Rules.CourseEdges := by
  intro s c f e k n x kind a r code falling input filter
  have hkind : s.cKind c = kind := rfl
  refine ⟨edgeSeen_none_of_filter, edgeSeen_none_of_comparator, edgeSeen_some, courseEdge_exec_of_not, fun hrun hk hseen => ?_,
    fun sn cs slot hrun hk hst => takeSample_search c.isLt hrun hk hst sn cs slot, fun hk hline hedge => classify_pulse hk hline hedge,
    fun hk hline hst => classify_mains hk hline hst, fun hk hline hst hseen h => classify_quadrature hk hline hst hseen h,
    fun hk hst hseen h => classify_hall hk hst hseen h, course_toSync s c.isLt x 0 false e, badEdge_of_sync c.isLt,
    fun hst _ hresync => badEdge_of_moving c.isLt hst hresync⟩
  have hexec := courseEdge_exec_of_seen hrun hk hseen
  refine ⟨fun hr hst => ?_, fun hr hst => ?_, fun hst => ⟨fun hr => ?_, fun hr => ?_, fun hr => ?_⟩⟩
  · exact hexec.trans (congrArg Host.Outcome.next (courseEdge_lost hr hst))
  · exact hexec.trans (congrArg Host.Outcome.next (courseEdge_ignored hr hst))
  · rw [hr]
    exact hexec.trans (congrArg Host.Outcome.next (courseEdge_reference hr hst))
  · exact hexec.trans (congrArg Host.Outcome.next (courseEdge_pattern hr hst))
  · rw [hr]
    exact hexec.trans (congrArg Host.Outcome.next (courseEdge_edge hr hst))

/-! ### Coasting and control -/

theorem overdue_pulse {s : State} {c l : Nat} (hkind : s.cKind c = 6) (hseen : (s.course c).lastSlot = some l) :
    s.overdue c = true ↔ s.param (1034 + 14 * c + 7) % 256 * (2 ^ 40 * 8) ≤
      16 * (8 * s.ticks - l) * (s.course c).s.natAbs * max 1 (s.param (1034 + 14 * c + 2) % 65536) := by
  have hpos : s.ePos c = max 1 (s.param (1034 + 14 * c + 2) % 65536) := by
    unfold State.ePos
    rw [hkind]
    rfl
  have hstep : s.nextStep c (s.course c) = 1 := by
    unfold State.nextStep
    dsimp only
    rw [if_neg (fun h => absurd (hkind.symm.trans h.1) (by decide))]
  unfold State.overdue
  dsimp only
  rw [hseen]
  dsimp only
  rw [hkind, if_neg (by decide), hpos, hstep, Nat.one_mul]
  exact decide_eq_true_iff

theorem writtenWord_crsCtrl (sealed : Bool) (old v : Word) : writtenWord .CRS_CTRL sealed old v = (old &&& 0x7E00) ||| (v &&& 0x81FF) := by
  have hrw : (if sealed then RegKind.CRS_CTRL.rw else RegKind.CRS_CTRL.rw ||| RegKind.CRS_CTRL.rwl) = 0x81FF := by
    cases sealed <;> rfl
  have hw1c : RegKind.CRS_CTRL.w1c = 0 := rfl
  unfold writtenWord
  dsimp only
  have hkeep : ~~~((0 : Word) &&& v) = BitVec.allOnes 16 := by simp
  rw [hrw, hw1c, hkeep, BitVec.and_allOnes]
  rfl

/-! ### Positions sent -/

theorem Tab.get_upd_self {α : Type} [DecidableEq α] (d : α) (n : Nat) (f : α → α) (t : Tab α) : Tab.get d (Tab.upd d n f t) n = f (Tab.get d t n) :=
  Tab.get_set_self _ _ _ _

theorem Tab.get_upd_of_ne {α : Type} [DecidableEq α] (d : α) {n m : Nat} (f : α → α) (t : Tab α) (h : m ≠ n) :
    Tab.get d (Tab.upd d n f t) m = Tab.get d t m := Tab.get_set_of_ne2 d d h _ t

/-- t is s after n EVENT flits have been put on channel 0 of the direction to the C-die. -/
def EventsSent (s t : State) (n : Nat) : Prop := ∃ l : List Flit, Tab.get [] t.ml.fc.queues 0 = Tab.get [] s.ml.fc.queues 0 ++ l ∧
  (∀ f ∈ l, f.ty = 5 ∧ f.ch = 0) ∧ l.length = n ∧ (∀ ch, ch ≠ 0 → Tab.get [] t.ml.fc.queues ch = Tab.get [] s.ml.fc.queues ch) ∧
  t = { s with fresh := s.fresh + l.length, ml := { s.ml with fc := { s.ml.fc with queues := t.ml.fc.queues } } }

theorem EventsSent.refl (s : State) : EventsSent s s 0 := ⟨[], by simp, by simp, rfl, fun _ _ => rfl, rfl⟩

theorem EventsSent.putFlit {s t : State} {n : Nat} (h : EventsSent s t n) : EventsSent s (t.putFlit .fc 0 5) (n + 1) := by
  obtain ⟨l, hq, hl, hn, hother, ht⟩ := h
  let f : Flit := { ty := 5, ch := 0, payload := BitVec.ofNat 256 t.draw.1 }
  have hput : (t.putFlit .fc 0 5).ml.fc.queues = Tab.upd [] 0 (fun q => q ++ [f]) t.ml.fc.queues := rfl
  refine ⟨l ++ [f], ?_, fun g hg => ?_, by rw [List.length_append, hn]; rfl, fun ch hch => ?_, ?_⟩
  · rw [hput, Tab.get_upd_self, hq, List.append_assoc]
  · rcases List.mem_append.mp hg with hg | hg
    · exact hl g hg
    · rw [List.mem_singleton.mp hg]
      exact ⟨rfl, rfl⟩
  · rw [hput, Tab.get_upd_of_ne [] _ _ hch, hother ch hch]
  · rw [List.length_append, ← Nat.add_assoc]
    exact congrArg (fun u : State =>
      { u with fresh := u.fresh + 1, ml := { u.ml with fc := { u.ml.fc with queues := (t.putFlit .fc 0 5).ml.fc.queues } } }) ht

theorem EventsSent.courses {s t : State} {n : Nat} (h : EventsSent s t n) (c : Nat) : t.course c = s.course c := by
  obtain ⟨l, -, -, -, -, ht⟩ := h
  rw [ht]
  rfl

theorem positionsSent (s : State) (l : List Nat) {t : State} {n : Nat} (h : EventsSent s t n) :
    EventsSent s (l.foldl (fun t c => if (t.course c).running then t.putFlit .fc 0 5 else t) t)
      (n + (l.filter fun c => (s.course c).running).length) := by
  induction l generalizing t n with
  | nil => exact h
  | cons c l ih =>
    rw [List.foldl_cons, h.courses c, List.filter_cons]
    split
    · rw [List.length_cons, Nat.add_comm _ 1, ← Nat.add_assoc]
      exact ih h.putFlit
    · exact ih h

theorem courseControl : Rules.CourseControl := by
  intro s c v x evt kind lim frozen cto
  have hevt (t : State) (b : Nat) : evt t b = t.courseEvt c b := rfl
  refine ⟨fun h => ?_, fun l hk hseen => overdue_pulse hk hseen, fun hst hk hover => ?_, fun h => ?_, fun hst hpos hle => ?_, fun h => ?_, ?_,
    fun hst hrun hreq => ?_, fun h => ?_, ?_⟩
  · unfold State.overdue
    dsimp only
    rw [show (s.course c).lastSlot = none from h]
  · exact congrArg Host.Outcome.next (if_pos ⟨hst, hk, hover⟩)
  · refine congrArg Host.Outcome.next (if_neg ?_)
    rintro ⟨hst, hk, hover⟩
    rcases h with h | h | h
    · exact h hst
    · exact hk h
    · exact absurd (hover.symm.trans h) (by decide)
  · have hexec : exec (.coastLimit c) s = .next (s.toLost c false) := congrArg Host.Outcome.next (if_pos ⟨hst, hpos, hle⟩)
    refine ⟨x.dropped (!false && s.bit .CRS_CTRL c 15 && s.cMode c 7), ⟨rfl, rfl, rfl, rfl⟩, ?_, hexec⟩
    refine if_congr ?_ rfl rfl
    rw [Bool.not_false, Bool.true_and, Bool.and_eq_true]
    exact Iff.rfl
  · refine congrArg Host.Outcome.next (if_neg ?_)
    rintro ⟨hst, hpos, hle⟩
    rcases h with h | h | h
    · exact h hst
    · exact absurd h (Nat.ne_of_gt hpos)
    · exact absurd hle (Nat.not_le.mpr h)
  · intro a hv
    have hexec : exec (.courseRunRequest c v) s = .next (s.writeCrsCtrl c v) := rfl
    refine hexec.trans (congrArg Host.Outcome.next ?_)
    unfold State.writeCrsCtrl
    dsimp only
    rw [if_neg (by rw [show wbit v 14 = false from hv]; exact Bool.false_ne_true), writtenWord_crsCtrl]
  · exact congrArg Host.Outcome.next (if_pos ⟨hst, hrun, hreq⟩)
  · refine congrArg Host.Outcome.next (if_neg ?_)
    rintro ⟨hst, hrun, hreq⟩
    rcases h with h | h | h
    · exact h hst
    · exact absurd (hrun.symm.trans h) (by decide)
    · exact absurd (hreq.symm.trans h) (by decide)
  · obtain ⟨l, hq, hl, hn, hother, ht⟩ := positionsSent s (upto 8) (EventsSent.refl s)
    exact ⟨_, l, rfl, hq, hl, hn.trans (Nat.zero_add _), hother, ht⟩

end Sys2Proof.Machine

namespace Sys2Proof

open Sys2Proof.Machine

/-- Settles O37. -/
theorem courses : Obligations.Courses := ⟨courseEdges, courseControl⟩

end Sys2Proof
end

section
/-! SUPPORT. Modulators and output cells (R194, R230 to R242, R387, R413). -/

namespace Sys2Proof.Machine

open Sys2Proof

/-! ### Modulators -/

theorem modu_setMod (s : State) (m : Nat) (x : Modulator) : (s.setMod m x).modu m = x := Tab.get_set_self _ _ _ _

theorem modLoad_eq (s : State) (m : Nat) : s.modLoad m = s.setMod m { s.modu m with
    per := w32of (s.reg .MOD_PER_HI m) (s.reg .MOD_PER_LO m), duty := w32of (s.reg .MOD_DUTY_HI m) (s.reg .MOD_DUTY_LO m)
    phase := w32of (s.reg .MOD_PHASE_HI m) (s.reg .MOD_PHASE_LO m) } := by
  unfold State.modLoad State.pair
  rw [lockVa_eq, lockVa_eq, lockVa_eq]

theorem modStart_eq (s : State) (m : Nat) : s.modStart m = s.started m := by
  unfold State.modStart State.started
  dsimp only
  rw [modLoad_eq, modu_setMod]
  rfl

theorem modEnable_eq (s : State) (m : Nat) : s.modEnable m = s.enabled m := by
  unfold State.modEnable State.enabled
  rw [modStart_eq]
  refine if_congr (Bool.not_eq_true _).to_iff rfl (if_congr (and_congr Iff.rfl (Bool.not_eq_true _).to_iff) rfl rfl)

theorem addr_MOD_STAT_ne (i j : Nat) : RegKind.MOD_STAT.addr j ≠ RegKind.MOD_CTRL.addr i := by
  show 2416009218 + 32 * j ≠ 2416009216 + 32 * i
  omega

theorem modEnableRequest_exec (s : State) (m : Fin 32) (v : Word) :
    let ctrl := s.setReg .MOD_CTRL m (writtenWord .MOD_CTRL (s.sealed .f) (s.reg .MOD_CTRL m) v)
    let st := s.reg .MOD_STAT m
    exec (.modEnableRequest m v) s = .next (
      if st.getLsbD 15 = true then (if ctrl.bit .MOD_CTRL m 15 = true ∨ st.getLsbD 14 = true then ctrl else ctrl.setBit .MOD_STAT m 14 true)
      else if st.getLsbD 13 = true then (if ctrl.bit .MOD_CTRL m 15 = true then ctrl else ctrl.setBit .MOD_STAT m 13 false)
      else ctrl.enabled m) := by
  intro ctrl st
  have hst : ctrl.reg .MOD_STAT m = st := reg_setReg_of_ne s _ _ _ _ _ (addr_MOD_STAT_ne m m)
  refine congrArg Host.Outcome.next ?_
  show ctrl.modRequest m = _
  unfold State.modRequest
  dsimp only
  rw [hst, modEnable_eq]
  rfl

theorem getLsbD_w32of (hi lo : Word) (i : Nat) (h : i < 32) : (lo.toNat + hi.toNat * 65536).testBit i = (w32of hi lo).getLsbD i := by
  rw [← lockVa_eq, BitVec.getLsbD_ofNat, decide_eq_true h, Bool.true_and]

/-- The first n modulators have met a commit of MOD_SYNC. -/
def State.syncedTo (s : State) (mask n : Nat) : State :=
  (upto n).foldl (fun s m => if mask.testBit m && s.bit .MOD_STAT m 13 then s.modStart m else s) s

theorem syncedTo_zero (s : State) (mask : Nat) : s.syncedTo mask 0 = s := rfl

theorem syncedTo_succ (s : State) (mask n : Nat) : s.syncedTo mask (n + 1) =
    if mask.testBit n && (s.syncedTo mask n).bit .MOD_STAT n 13 then (s.syncedTo mask n).started n else s.syncedTo mask n := by
  rw [State.syncedTo, upto_succ, List.foldl_append, ← modStart_eq]
  rfl

theorem modPeriodBoundary_exec {s : State} {m : Fin 32} (hper : (s.modu m).per ≠ 0) :
    exec (.modPeriodBoundary m) s = .next (
      if s.bit .MOD_STAT m 15 = true ∧ (if s.bit .MOD_CTRL m 14 then
          ((s.course (s.fld .MOD_CTRL m 13 11)).vis.toNat + 2 ^ 32 - (s.modu m).phase.toNat) % 2 ^ 32 % (s.modu m).per.toNat
        else ((s.modu m).t + (s.modu m).phase.toNat) % (s.modu m).per.toNat) = 0
      then s.modBoundary m (8 * s.ticks) else s) := by
  show execModPeriodBoundary m s = _
  unfold execModPeriodBoundary State.carrier
  dsimp only
  rw [if_neg hper]
  refine congrArg Host.Outcome.next (if_congr ?_ rfl rfl)
  rw [Bool.and_eq_true, decide_eq_true_iff]

theorem modBoundary_of_running {s : State} {m slot : Nat} (h : s.bit .MOD_STAT m 14 = false) :
    s.modBoundary m slot = (s.setMod m { s.modu m with bound := some slot }).setMod m { s.modu m with
      bound := some slot
      per := w32of (s.reg .MOD_PER_HI m) (s.reg .MOD_PER_LO m), duty := w32of (s.reg .MOD_DUTY_HI m) (s.reg .MOD_DUTY_LO m)
      phase := w32of (s.reg .MOD_PHASE_HI m) (s.reg .MOD_PHASE_LO m) } := by
  unfold State.modBoundary
  dsimp only
  rw [if_neg (by rw [h]; exact Bool.false_ne_true), modLoad_eq, modu_setMod]
  rfl

theorem modBoundary_of_stopping {s : State} {m slot : Nat} (h : s.bit .MOD_STAT m 14 = true) :
    s.modBoundary m slot = State.enabled ((((s.setMod m { s.modu m with
        aRaw := false, bRaw := false, aFor := 0, bFor := 0, a := false, b := false, bound := some slot }).setBit .MOD_STAT m 15
        false).setBit .MOD_STAT m 14 false).setBit .MOD_STAT m 12 false) m := by
  unfold State.modBoundary
  dsimp only
  rw [if_pos h, modEnable_eq]

theorem modPrep_of_following {s : State} {m pos : Nat} (hrun : s.bit .MOD_STAT m 15 = true) (hmode : s.bit .MOD_CTRL m 14 = true)
    (hcourse : (s.course (s.fld .MOD_CTRL m 13 11)).state = .locked ∨ (s.course (s.fld .MOD_CTRL m 13 11)).state = .coast) :
    (s.modPrep m pos).bit .MOD_STAT m 12 = false := by
  have hprep : s.modPrep m pos = (if s.bit .MOD_CTRL m 8 then s.modLoad m else s).setBit .MOD_STAT m 12 false := by
    unfold State.modPrep
    dsimp only
    rw [if_neg (not_not.mpr hrun), if_neg (not_not.mpr hmode), if_pos hcourse]
  rw [hprep, bit_setBit_self _ _ _ _ _ (by decide)]

theorem modPrep_of_held {s : State} {m pos : Nat} (hrun : s.bit .MOD_STAT m 15 = true) (hstay : s.bit .MOD_STAT m 14 = false)
    (hmode : s.bit .MOD_CTRL m 14 = true) (hl : (s.course (s.fld .MOD_CTRL m 13 11)).state ≠ .locked)
    (hc : (s.course (s.fld .MOD_CTRL m 13 11)).state ≠ .coast) :
    (s.modPrep m pos).bit .MOD_STAT m 12 = true ∧ ((s.modPrep m pos).modu m).a = false ∧ ((s.modPrep m pos).modu m).b = false := by
  have hprep (t : State) (ht : t.reg .MOD_STAT m = s.reg .MOD_STAT m) :
      (if (t.modHold m pos).bit .MOD_STAT m 14 then (t.modHold m pos).modBoundary m (8 * ((t.modHold m pos).ticks - 1)) else t.modHold m pos) =
        t.modHold m pos := by
    refine if_neg ?_
    unfold State.modHold
    rw [bit_setBit_of_ne_bit _ _ _ _ _ _ (by decide) (by decide), show (t.setMod m _).bit .MOD_STAT m 14 = s.bit .MOD_STAT m 14 from congrArg (wbit · 14) ht, hstay]
    exact Bool.false_ne_true
  have hheld (t : State) : (t.modHold m pos).bit .MOD_STAT m 12 = true ∧ ((t.modHold m pos).modu m).a = false ∧ ((t.modHold m pos).modu m).b = false := by
    have hmodu : (t.modHold m pos).modu m = { t.modu m with
        aRaw := false, bRaw := false, aFor := 0, bFor := 0, a := false, b := false, lastP := BitVec.ofNat 32 pos } := Tab.get_set_self _ _ _ _
    rw [hmodu]
    exact ⟨bit_setBit_self _ _ _ _ _ (by decide), rfl, rfl⟩
  have hp : s.modPrep m pos = (if s.bit .MOD_CTRL m 8 then s.modLoad m else s).modHold m pos := by
    unfold State.modPrep
    dsimp only
    rw [if_neg (not_not.mpr hrun), if_neg (not_not.mpr hmode), if_neg (not_or.mpr ⟨hl, hc⟩)]
    refine hprep _ ?_
    split <;> rfl
  rw [hp]
  exact hheld _

/-- The first n cells have been judged for a mismatch of modulator m. -/
def State.mismatchedTo (s : State) (m n : Nat) : State :=
  (upto n).foldl (fun s c =>
    let src := s.fld .OC_CFG c 15 13
    if ((src = 1 ∨ src = 2) ∧ s.fld .OC_CFG c 12 8 = m) ∨ s.fld .OC_SAFE c 6 2 = m then s.cellFault c else s) s

theorem mismatchedTo_zero (s : State) (m : Nat) : s.mismatchedTo m 0 = s := rfl

theorem mismatchedTo_succ (s : State) (m n : Nat) : s.mismatchedTo m (n + 1) =
    if (((s.mismatchedTo m n).fld .OC_CFG n 15 13 = 1 ∨ (s.mismatchedTo m n).fld .OC_CFG n 15 13 = 2) ∧
      (s.mismatchedTo m n).fld .OC_CFG n 12 8 = m) ∨ (s.mismatchedTo m n).fld .OC_SAFE n 6 2 = m
    then (s.mismatchedTo m n).faulty n else s.mismatchedTo m n := by
  rw [State.mismatchedTo, upto_succ, List.foldl_append]
  rfl

theorem modHigh_edge {per duty c : Nat} (hpos : 0 < duty) (hlt : duty < per) : modHigh false per duty c = true ↔ c < duty := by
  unfold modHigh
  rw [if_neg (Nat.ne_of_gt hpos), if_neg (Nat.not_le.mpr hlt), if_neg Bool.false_ne_true]
  exact decide_eq_true_iff

theorem modHigh_centre {per duty c : Nat} (hpos : 0 < duty) (hlt : duty < per) :
    modHigh true per duty c = true ↔ (per - duty) / 2 ≤ c ∧ c < (per + duty) / 2 := by
  unfold modHigh
  rw [if_neg (Nat.ne_of_gt hpos), if_neg (Nat.not_le.mpr hlt), if_pos rfl, Bool.and_eq_true, decide_eq_true_iff, decide_eq_true_iff]

theorem levels_a (x : Modulator) (dt : Nat) (r : Bool) :
    (x.levels dt r).a = (r && decide (dt ≤ if r && x.aRaw then x.aFor + 1 else 0)) := rfl

theorem levels_b (x : Modulator) (dt : Nat) (r : Bool) :
    (x.levels dt r).b = (!r && decide (dt ≤ if !r && x.bRaw then x.bFor + 1 else 0)) := rfl

theorem modulators : Rules.Modulators := by
  intro s m v ctrl st
  have hreq := modEnableRequest_exec s m v
  have h0 {w : Word} {i : Nat} (h : w.getLsbD i = false) : ¬ w.getLsbD i = true := by rw [h]; exact Bool.false_ne_true
  refine ⟨fun h15 => ?_, fun h15 h13 => ?_, fun h15 h13 => ?_, ?_, ?_, ?_, ?_, fun per duty c hpos hlt => ⟨modHigh_edge hpos hlt, modHigh_centre hpos hlt⟩,
    fun c => ⟨rfl, rfl⟩, ?_⟩
  · exact hreq.trans (congrArg Host.Outcome.next (if_pos h15))
  · exact hreq.trans (congrArg Host.Outcome.next ((if_neg (h0 h15)).trans (if_pos h13)))
  · exact hreq.trans (congrArg Host.Outcome.next ((if_neg (h0 h15)).trans (if_neg (h0 h13))))
  · intro lo mask
    refine ⟨s.syncedTo (lo.toNat + v.toNat * 65536), syncedTo_zero _ _, rfl, fun i hi => ⟨fun h => ?_, fun h => ?_⟩⟩
    · exact (syncedTo_succ _ _ _).trans (if_pos (by rw [getLsbD_w32of v lo i hi, Bool.and_eq_true]; exact h))
    · exact (syncedTo_succ _ _ _).trans (if_neg (by rw [getLsbD_w32of v lo i hi, Bool.and_eq_true]; exact h))
  · intro x pos carrier hper h15
    have hexec : exec (.modPeriodBoundary m) s = .next (if st.getLsbD 15 = true ∧ carrier = 0 then s.modBoundary m (8 * s.ticks) else s) :=
      modPeriodBoundary_exec hper
    refine ⟨fun hno => ?_, fun hzero h14 => ?_, fun hzero h14 => ?_⟩
    · exact hexec.trans (congrArg Host.Outcome.next (if_neg fun h => hno h.2))
    · exact hexec.trans (congrArg Host.Outcome.next ((if_pos ⟨h15, hzero⟩).trans (modBoundary_of_running h14)))
    · exact hexec.trans (congrArg Host.Outcome.next ((if_pos ⟨h15, hzero⟩).trans (modBoundary_of_stopping h14)))
  · intro pos cs p y h15 h14 hmode
    exact ⟨modPrep_of_following h15 hmode, modPrep_of_held h15 h14 hmode⟩
  · refine ⟨(s.setBit .MOD_STAT m 11 true).mismatchedTo m, mismatchedTo_zero _ _, rfl, fun c _ => ?_⟩
    intro src named
    exact ⟨fun h => (mismatchedTo_succ _ _ _).trans (if_pos h), fun h => (mismatchedTo_succ _ _ _).trans (if_neg h)⟩
  · intro x dt r y
    have ha : y.a = (r && decide (dt ≤ if r && x.aRaw then x.aFor + 1 else 0)) := levels_a x dt r
    have hb : y.b = (!r && decide (dt ≤ if !r && x.bRaw then x.bFor + 1 else 0)) := levels_b x dt r
    rw [ha, hb]
    refine ⟨?_, ?_, ?_, ?_, ?_⟩
    · cases r <;> simp
    · cases r <;> simp
    · cases r <;> simp
    · rintro rfl hraw hdt
      simp [hraw, hdt.ne']
    · rintro rfl hraw hdt
      simp [hraw, hdt.ne']

/-! ### Output cells -/

/-- A cause calls for SAFE (R238 to R241). -/
def State.safeCause (s : State) (c : Nat) : Prop :=
  s.bit .OC_TRIPPED (c / 16) (c % 16) = true ∨ (s.bit .OC_FLT (c / 16) (c % 16) = true ∧ s.bit .OC_CFG c 5 = true) ∨ s.bit .OC_CTRL 0 15 = true ∨
    (s.bit .OC_CTRL 0 13 = true ∧ (s.fld .OC_SAFE c 13 12 = 1 ∨ s.fld .OC_SAFE c 13 12 = 3))

theorem safeCause_iff (s : State) (c : Nat) : (s.bit .OC_TRIPPED (c / 16) (c % 16) || (s.bit .OC_FLT (c / 16) (c % 16) && s.bit .OC_CFG c 5) ||
    s.bit .OC_CTRL 0 15 || (s.bit .OC_CTRL 0 13 && (decide (s.fld .OC_SAFE c 13 12 = 1) || decide (s.fld .OC_SAFE c 13 12 = 3)))) = true ↔
    s.safeCause c := by
  unfold State.safeCause
  simp only [Bool.or_eq_true, Bool.and_eq_true, decide_eq_true_eq, or_assoc]

theorem cellCause_of_safe {s : State} {c : Nat} (h : s.safeCause c) : s.cellCause c = 2 := if_pos ((safeCause_iff s c).mpr h)

theorem cellCause_of_limp {s : State} {c : Nat} (h : ¬ s.safeCause c) (hlimp : s.bit .OC_CTRL 0 13 = true ∧ s.fld .OC_SAFE c 13 12 = 2) :
    s.cellCause c = 1 :=
  (if_neg fun hb => h ((safeCause_iff s c).mp hb)).trans (if_pos (by rw [Bool.and_eq_true, decide_eq_true_eq]; exact hlimp))

theorem cellCause_of_none {s : State} {c : Nat} (h : ¬ s.safeCause c) (hlimp : ¬ (s.bit .OC_CTRL 0 13 = true ∧ s.fld .OC_SAFE c 13 12 = 2)) :
    s.cellCause c = 0 :=
  (if_neg fun hb => h ((safeCause_iff s c).mp hb)).trans (if_neg (by rw [Bool.and_eq_true, decide_eq_true_eq]; exact hlimp))

theorem cell_setCell (s : State) (c : Nat) (x : Cell) : (s.setCell c x).cell c = x := Tab.get_set_self _ _ _ _

theorem cell_setCell_of_ne (s : State) {c i : Nat} (x : Cell) (h : i ≠ c) : (s.setCell c x).cell i = s.cell i := Tab.get_set_of_ne2 _ _ h _ _

theorem driveCell_state (s : State) (c slot : Nat) : ((s.driveCell c slot).cell c).state = (s.cell c).state := by
  unfold State.driveCell
  extract_lets x l l'
  split
  · rfl
  · rw [cell_setCell]

theorem driveCell_cell_of_ne (s : State) {c i : Nat} (slot : Nat) (h : i ≠ c) : (s.driveCell c slot).cell i = s.cell i := by
  unfold State.driveCell
  extract_lets x l l'
  split
  · rfl
  · exact cell_setCell_of_ne s _ h

/-- A cell whose cause calls for it enters SAFE or LIMP at once, and no other cell changes (R238). -/
theorem evalCell_of_cause {s : State} {c w : Nat} (h : s.cellCause c = w) (hw : w ≠ 0) :
    ((s.evalCell c).cell c).state = w ∧ ∀ i, i ≠ c → (s.evalCell c).cell i = s.cell i := by
  have heval : s.evalCell c = (s.setCell c { s.cell c with state := w, rise := 0 }).driveCell c (8 * s.ticks) := by
    unfold State.evalCell
    dsimp only
    rw [h, if_pos hw]
  rw [heval]
  refine ⟨?_, fun i hi => ?_⟩
  · rw [driveCell_state, cell_setCell]
  · rw [driveCell_cell_of_ne _ _ hi, cell_setCell_of_ne _ _ hi]

theorem levelIn_safe (s : State) (c : Nat) :
    s.levelIn c 2 = if s.fld .OC_SAFE c 15 14 = 0 then Lvl.low else if s.fld .OC_SAFE c 15 14 = 1 then .high else .z := by
  unfold State.levelIn
  dsimp only
  rw [if_pos rfl]
  change (match s.fld .OC_SAFE c 15 14 with
    | 0 => Lvl.low
    | 1 => .high
    | _ => .z) = _
  split
  · next h => rw [if_pos h]
  · next h => rw [if_neg (by omega), if_pos h]
  · next h0 h1 => rw [if_neg h0, if_neg h1]

theorem levelIn_normal_of_off {s : State} {c : Nat} (h : s.bit .OC_CFG c 3 = false) : s.levelIn c 0 = .z :=
  if_pos (by rw [h]; exact Bool.false_ne_true)

theorem pinPulseEnd_of_pulse {s : State} {c : Fin 64} {e : Nat} (h : (s.cell c).pulse = some e) :
    exec (.pinPulseEnd c) s = .next (((s.setBit .OC_CFG c 6 false).setCell c { s.cell c with pulse := none, acted := none }).driveCell c e) := by
  show execPinPulseEnd c s = _
  unfold execPinPulseEnd
  dsimp only
  rw [h]

theorem pinPulseEnd_of_none {s : State} {c : Fin 64} (h : (s.cell c).pulse = none) : exec (.pinPulseEnd c) s = .next s := by
  show execPinPulseEnd c s = _
  unfold execPinPulseEnd
  dsimp only
  rw [h]

/-- OC_CTRL as a write leaves it, RESUME apart. -/
def State.ocWritten (s : State) (v : Word) : State := s.setReg .OC_CTRL 0 (writtenWord .OC_CTRL (s.sealed .f) (s.reg .OC_CTRL 0) v)

theorem ocResume_exec (s : State) (v : Word) : exec (.ocResume v) s =
    .next (State.evalCells (if wbit v 14 && s.computeReady then (s.ocWritten v).setBit .OC_CTRL 0 13 false else s.ocWritten v)) := by
  show execOcResume v s = _
  unfold execOcResume State.writeOcCtrl State.ocWritten
  dsimp only

theorem readback_long_iff {a n q : Nat} : a < min n (q - 64) ↔ a + 1 ≤ min n (q - 64) := Nat.lt_iff_add_one_le

theorem cellMod_of_source {s : State} {c : Nat} (h : s.fld .OC_CFG c 15 13 = 1 ∨ s.fld .OC_CFG c 15 13 = 2) : s.cellMod c = some (s.fld .OC_CFG c 12 8) :=
  if_pos h

theorem cellMod_of_other {s : State} {c : Nat} (h1 : s.fld .OC_CFG c 15 13 ≠ 1) (h2 : s.fld .OC_CFG c 15 13 ≠ 2) : s.cellMod c = none :=
  if_neg (not_or.mpr ⟨h1, h2⟩)

/-- A cell that no longer has a cause returns at slot b (R242). -/
theorem ocSafeExit_returns {s : State} {c : Fin 64} (hst : (s.cell c).state ≠ 0) (hcause : s.cellCause c = 0) :
    (s.cellMod c = none → exec (.ocSafeExit c) s = .next (s.cellReturn c (8 * s.ticks) 0)) ∧
    (∀ m, s.cellMod c = some m →
      (∀ b, (s.modu m).bound = some b → exec (.ocSafeExit c) s = .next (if 8 * s.ticks ≤ b + 8 then s.cellReturn c b (s.fld .MOD_DT m 11 0) else s)) ∧
      ((s.modu m).bound = none → exec (.ocSafeExit c) s = .next s)) := by
  have hno : ¬ ((s.cell c).state = 0 ∨ s.cellCause c ≠ 0) := not_or.mpr ⟨hst, not_not.mpr hcause⟩
  have hexec : exec (.ocSafeExit c) s = execOcSafeExit c s := rfl
  rw [hexec]
  unfold execOcSafeExit
  rw [if_neg hno]
  refine ⟨fun hm => ?_, fun m hm => ⟨fun b hb => ?_, fun hb => ?_⟩⟩
  · rw [hm]
  · rw [hm]
    dsimp only
    rw [hb]
  · rw [hm]
    dsimp only
    rw [hb]

theorem ocSafeExit_held {s : State} {c : Fin 64} (hcause : s.cellCause c ≠ 0) : exec (.ocSafeExit c) s = .next s :=
  congrArg Host.Outcome.next (if_pos (Or.inr hcause))

/-! ### Banks -/

theorem bankOn_bankChange_of_ne (s : State) {k i : Nat} (mv : Nat) (h : i ≠ k) : (s.bankChange k mv).bankOn i = s.bankOn i := by
  unfold State.bankOn
  rw [show Tab.get 0 (s.bankChange k mv).vio i = Tab.get 0 s.vio i from Tab.get_set_of_ne2 _ _ h _ _]

theorem bankOn_bankChange_low (s : State) {k mv : Nat} (h : mv < 1700) : (s.bankChange k mv).bankOn k = false := by
  unfold State.bankOn
  rw [show Tab.get 0 (s.bankChange k mv).vio k = mv from Tab.get_set_self _ _ _ _]
  exact decide_eq_false (Nat.not_le.mpr h)

theorem ballDrive_bankChange_of_ne (s : State) {k g : Nat} (mv : Nat) (h : g / 32 ≠ k) : (s.bankChange k mv).ballDrive g = s.ballDrive g := by
  unfold State.ballDrive
  rw [bankOn_bankChange_of_ne s mv h]
  rfl

theorem ballDrive_off {s : State} {g : Nat} (h : s.bankOn (g / 32) = false) : s.ballDrive g = .z :=
  if_pos (Or.inl (by rw [h]; exact Bool.false_ne_true))

theorem ballLevel_off {s : State} {g : Nat} (h : s.bankOn (g / 32) = false) : s.ballLevel g = (false, s) :=
  if_pos (by rw [h]; exact Bool.false_ne_true)

theorem outputCells : Rules.OutputCells := by
  intro s c k mv v x fa alone safe
  refine ⟨cellCause_of_safe, cellCause_of_limp, cellCause_of_none, fun h => evalCell_of_cause (cellCause_of_safe h) (by decide), levelIn_safe s c,
    levelIn_normal_of_off, fun e hp => pinPulseEnd_of_pulse hp, pinPulseEnd_of_none, ?_, ?_, fun h => ocSafeExit_held (by rw [cellCause_of_safe h]; decide), ?_, ⟨rfl, fun g => ⟨fun hg => ?_, ?_⟩⟩,
    fun h => congrArg Host.Outcome.next (if_pos h), fun h => congrArg Host.Outcome.next (if_neg (Nat.not_lt.mpr h))⟩
  · intro n long
    refine ⟨fun hen hlong => congrArg Host.Outcome.next (if_pos ⟨hen, readback_long_iff.mpr hlong⟩), fun h => congrArg Host.Outcome.next (if_neg ?_)⟩
    rintro ⟨hen, hlt⟩
    rcases h with h | h
    · exact absurd (hen.symm.trans h) (by decide)
    · exact h (readback_long_iff.mp hlt)
  · intro src m dt bound hst hsafe hlimp
    obtain ⟨hnone, hsome⟩ := ocSafeExit_returns hst (cellCause_of_none hsafe hlimp)
    refine ⟨fun h1 h2 => ?_, fun hsrc => ⟨fun b hb hrecent => ?_, fun h => ?_⟩⟩
    · refine (hnone (cellMod_of_other h1 h2)).trans (congrArg Host.Outcome.next ?_)
      exact if_neg (Nat.lt_irrefl _)
    · exact ((hsome m (cellMod_of_source hsrc)).1 b hb).trans (congrArg Host.Outcome.next (if_pos hrecent))
    · rcases h with h | ⟨b, hb, hold⟩
      · exact (hsome m (cellMod_of_source hsrc)).2 h
      · exact ((hsome m (cellMod_of_source hsrc)).1 b hb).trans (congrArg Host.Outcome.next (if_neg (Nat.not_le.mpr hold)))
  · intro a
    refine (ocResume_exec s v).trans (congrArg Host.Outcome.next (congrArg State.evalCells (if_congr ?_ rfl rfl)))
    have hready : (s.ocWritten v).bit .SYS_STAT 0 14 = s.computeReady := bit_setReg_of_ne _ _ _ _ _ _ (by decide)
    rw [Bool.and_eq_true, ← hready]
    exact Iff.rfl
  · exact ballDrive_bankChange_of_ne s _ hg
  · intro hg hlow
    have hoff : (s.bankChange k mv.toNat).bankOn (g / 32) = false := by
      rw [hg]
      exact bankOn_bankChange_low s hlow
    exact ⟨ballDrive_off hoff, ballLevel_off hoff⟩

end Sys2Proof.Machine

namespace Sys2Proof

open Sys2Proof.Machine

/-- Settles O38. -/
theorem pulses : Obligations.Pulses := ⟨modulators, outputCells⟩

end Sys2Proof
end

section
/-! SUPPORT. Captures: starts, groups, passes, enables (R217 to R220). -/

namespace Sys2Proof.Machine

open Sys2Proof

theorem cap_setCap (s : State) (d : Nat) (c : CapRun) : (s.setCap d c).cap d = c := Tab.get_set_self _ _ _ _

theorem conv_setCap (s : State) (d : Nat) (c : CapRun) (n : Nat) : (s.setCap d c).conv n = s.conv n := rfl

theorem conv_setConv (s : State) (n : Nat) (c : Option Conv) : (s.setConv n c).conv n = c := Tab.get_set_self _ _ _ _

/-! ### Starts and enables -/

/-- A start that finds a slot (R219). -/
theorem captureStart_of_room {s : State} {d base size n : Nat} (hon : s.bit .CAP_DEF_CTRL d 14 = true) (hbusy : s.bit .CAP_DEF_CTRL d 13 = false)
    (hslots : s.fbSlots (s.capFb d) = some (base, size, n)) (hroom : s.fbUsed (s.capFb d) n + s.capRunning (s.capFb d) + 1 < n) :
    s.captureStart d = (s.setBit .CAP_DEF_CTRL d 13 true).setCap d
      { seq := (s.cap d).seq, lost := (s.cap d).lost, trigTick := s.ticks, passTick := s.ticks, entryTick := s.ticks, resultTick := s.ticks } := by
  have hfree : ¬ n ≤ s.fbUsed (s.capFb d) n + s.capRunning (s.capFb d) + 1 := Nat.not_le.mpr hroom
  unfold State.captureStart
  rw [if_neg (not_not.mpr hon), if_neg (by rw [hbusy]; exact Bool.false_ne_true)]
  dsimp only
  rw [hslots]
  simp [hfree]

theorem captureStart_of_busy {s : State} {d : Nat} (hon : s.bit .CAP_DEF_CTRL d 14 = true) (hbusy : s.bit .CAP_DEF_CTRL d 13 = true) :
    s.captureStart d = s.capLost d := (if_neg (not_not.mpr hon)).trans (if_pos hbusy)

theorem capPeriodicTrigger_exec {s : State} {d : Fin 64} (h : s.fld .CAP_DEF_PER d 14 0 ≠ 0) :
    exec (.capPeriodicTrigger d) s = .next (s.captureStart d) := congrArg Host.Outcome.next (if_neg h)

/-- A write of CAP_DEF_CTRL with EN 1 to a definition at rest (R220). -/
theorem writeDefCtrl_of_rest {s : State} {d : Nat} {v : Word} (hon : s.bit .CAP_DEF_CTRL d 14 = false) (hbusy : s.bit .CAP_DEF_CTRL d 13 = false)
    (hen : wbit v 15 = true) : s.writeDefCtrl d v = (s.wrote .CAP_DEF_CTRL d v).capActivate d := by
  have h14 : ¬ wbit (s.reg .CAP_DEF_CTRL d) 14 = true := by
    rw [show wbit (s.reg .CAP_DEF_CTRL d) 14 = false from hon]
    exact Bool.false_ne_true
  have h13 : ¬ wbit (s.reg .CAP_DEF_CTRL d) 13 = true := by
    rw [show wbit (s.reg .CAP_DEF_CTRL d) 13 = false from hbusy]
    exact Bool.false_ne_true
  unfold State.writeDefCtrl
  dsimp only
  rw [if_neg (not_or.mpr ⟨h14, h13⟩), if_neg (not_not.mpr hen), if_neg h14, if_neg h13]
  rfl

/-! ### A group starts -/

theorem entryDue_iff (s : State) (d : Nat) : s.entryDue d = true ↔ (s.cap d).notBefore ≤ s.ticks ∧
    ((s.cap d).begun = false → (s.cap d).trigTick < s.ticks) ∧ ((s.cap d).begun = true → (s.cap d).entry = 0 → (s.cap d).passTick ≤ s.ticks) ∧
    ((s.cap d).begun = true → (s.cap d).entry ≠ 0 → (s.cap d).entryTick < s.ticks) := by
  unfold State.entryDue
  dsimp only
  rw [Bool.and_eq_true, decide_eq_true_iff]
  refine and_congr_right fun _ => ?_
  cases hbegun : (s.cap d).begun with
  | false => simp
  | true =>
    by_cases hentry : (s.cap d).entry = 0
    · simp [hentry]
    · simp [hentry]

theorem listEntryStart_starts {s : State} {d : Fin 64} (hbusy : s.bit .CAP_DEF_CTRL d 13 = true) (hdue : s.entryDue d = true)
    (hentry : (s.cap d).entry < s.capCount d) (hfree : s.groupFree d = true) (hfirst : s.groupFirst d = true) :
    exec (.listEntryStart d) s = .next (s.startGroup d) := by
  refine congrArg Host.Outcome.next ((if_neg ?_).trans (if_pos ⟨hfree, hfirst⟩))
  rintro (h | h | h)
  · exact h hbusy
  · exact absurd hentry (Nat.not_lt.mpr h)
  · exact h hdue

theorem listEntryStart_waits {s : State} {d : Fin 64} (hbusy : s.bit .CAP_DEF_CTRL d 13 = true) (hdue : s.entryDue d = true)
    (hentry : (s.cap d).entry < s.capCount d) (hfree : s.groupFree d = false) :
    exec (.listEntryStart d) s = .next (s.setCap d { s.cap d with
      waits := true
      late := (s.cap d).late || (groupConverters (s.group d (s.cap d).entry)).any fun n => (s.conv n).any fun x => x.foreign d }) := by
  refine congrArg Host.Outcome.next ((if_neg ?_).trans (if_neg ?_))
  · rintro (h | h | h)
    · exact h hbusy
    · exact absurd hentry (Nat.not_lt.mpr h)
    · exact h hdue
  · rw [hfree]
    exact fun h => absurd h.1 Bool.false_ne_true

theorem groupConverters_sar {w : Word} (h : wfld w 15 13 = 0) : groupConverters [w] = [wfld w 12 7 / 12] := by
  unfold groupConverters
  simp [h, adOf]

theorem groupConverters_other {w : Word} (h : wfld w 15 13 ≠ 0) : groupConverters [w] = [] := by
  unfold groupConverters
  simp [h]

theorem groupFree_of_group {s : State} {d : Nat} {w : Word} (hg : s.group d (s.cap d).entry = [w]) :
    (wfld w 15 13 ≠ 0 → s.groupFree d = true) ∧
    (wfld w 15 13 = 0 → s.groupFree d = (!s.adOn (wfld w 12 7 / 12) || (s.conv (wfld w 12 7 / 12)).isNone)) := by
  unfold State.groupFree
  rw [hg]
  refine ⟨fun h => ?_, fun h => ?_⟩
  · rw [groupConverters_other h]
    rfl
  · rw [groupConverters_sar h]
    simp

/-- The definition's run as its next group starts, with the stamps of R221. -/
def State.capBegun (s : State) (d : Nat) (g : List Word) : CapRun :=
  let c := s.cap d
  let x := s.stampCourse d
  let lk : Bool := x.state = .locked
  let c1 : CapRun := { c with stamp2 := x.vis, lock2 := lk, entry := c.entry + g.length, entryTick := s.ticks, waits := false }
  if c.begun then c1 else { c1 with begun := true, stamp1 := x.vis, lock1 := lk, resultTick := s.ticks }

theorem startGroup_of_group {s : State} {d : Nat} {w : Word} (hg : s.group d (s.cap d).entry = [w]) :
    s.startGroup d = (s.setCap d (s.capBegun d [w])).startEntry d w := by
  unfold State.startGroup
  dsimp only
  rw [hg]
  rfl

theorem capBegun_entry (s : State) (d : Nat) (w : Word) : (s.capBegun d [w]).entry = (s.cap d).entry + 1 := by
  unfold State.capBegun
  dsimp only
  split <;> rfl

theorem capBegun_words (s : State) (d : Nat) (g : List Word) : (s.capBegun d g).words = (s.cap d).words := by
  unfold State.capBegun
  dsimp only
  split <;> rfl

theorem capBegun_outstanding (s : State) (d : Nat) (g : List Word) : (s.capBegun d g).outstanding = (s.cap d).outstanding := by
  unfold State.capBegun
  dsimp only
  split <;> rfl

theorem capBegun_trigTick (s : State) (d : Nat) (g : List Word) : (s.capBegun d g).trigTick = (s.cap d).trigTick := by
  unfold State.capBegun
  dsimp only
  split <;> rfl

theorem capBegun_results (s : State) (d : Nat) (g : List Word) : (s.capBegun d g).results = (s.cap d).results := by
  unfold State.capBegun
  dsimp only
  split <;> rfl

theorem capBegun_stamps (s : State) (d : Nat) (g : List Word) :
    (s.capBegun d g).stamp2 = (s.stampCourse d).vis ∧ (s.capBegun d g).lock2 = decide ((s.stampCourse d).state = .locked) ∧
    (s.capBegun d g).stamp1 = (if (s.cap d).begun then (s.cap d).stamp1 else (s.stampCourse d).vis) ∧
    (s.capBegun d g).lock1 = (if (s.cap d).begun then (s.cap d).lock1 else decide ((s.stampCourse d).state = .locked)) := by
  unfold State.capBegun
  dsimp only
  cases (s.cap d).begun <;> exact ⟨rfl, rfl, rfl, rfl⟩

theorem conv_occupy (s : State) (n : Nat) (c : Conv) : (s.occupy n c).conv n = some { c with began := s.ticks } := by
  refine List.foldlRecOn (motive := fun t : State => t.conv n = some { c with began := s.ticks }) (upto 64) _ (conv_setConv s n _) fun t ht e _ => ?_
  split
  · exact ht
  · exact ht

/-- A SAR entry whose converter is free starts a conversion (R203, R216). -/
theorem startEntry_converts {s : State} {d : Nat} {w : Word} (hsrc : wfld w 15 13 = 0) (hon : s.adOn (wfld w 12 7 / 12) = true)
    (hfree : s.conv (wfld w 12 7 / 12) = none) :
    (s.startEntry d w).conv (wfld w 12 7 / 12) = some
      { input := wfld w 12 7, st := wfld w 5 4, level := (s.capRank d).1, trig := (s.cap d).trigTick, slot := some (d, (s.cap d).words),
        began := s.ticks } ∧
    (s.startEntry d w).cap d = { s.cap d with words := (s.cap d).words + 1, outstanding := (s.cap d).outstanding + 1 } := by
  have hstart : s.startEntry d w = (s.occupy (wfld w 12 7 / 12)
      { input := wfld w 12 7, st := wfld w 5 4, level := (s.capRank d).1, trig := (s.cap d).trigTick, slot := some (d, (s.cap d).words) }).setCap d
      { s.cap d with words := (s.cap d).words + 1, outstanding := (s.cap d).outstanding + 1 } := by
    unfold State.startEntry
    dsimp only
    rw [hsrc]
    exact if_pos ⟨hon, by rw [show adOf (wfld w 12 7) = wfld w 12 7 / 12 from rfl, hfree]; rfl⟩
  rw [hstart]
  exact ⟨(conv_setCap _ _ _ _).trans (conv_occupy _ _ _), cap_setCap _ _ _⟩

theorem cap_putResult (s : State) (d : Nat) (v : Word) : (s.putResult d v).cap d =
    { s.cap d with results := Tab.set 0 (s.cap d).words v (s.cap d).results, words := (s.cap d).words + 1, resultTick := s.ticks } := cap_setCap _ _ _

theorem startEntry_missing {s : State} {d : Nat} {w : Word} (hsrc : wfld w 15 13 = 0) (hoff : s.adOn (wfld w 12 7 / 12) = false) :
    s.startEntry d w = (s.putResult d 0).setCap d { (s.putResult d 0).cap d with err := true } := by
  unfold State.startEntry
  dsimp only
  rw [hsrc]
  exact if_neg fun h => absurd (h.1.symm.trans hoff) (by decide)

theorem startEntry_filter {s : State} {d : Nat} {w : Word} (hsrc : wfld w 15 13 = 1) (hi : wfld w 12 7 < 8) :
    s.startEntry d w = s.putResult d (s.reg .SD_DATA (wfld w 12 7)) := by
  unfold State.startEntry
  dsimp only
  rw [hsrc]
  exact if_pos hi

theorem startEntry_comparators {s : State} {d : Nat} {w : Word} (hsrc : wfld w 15 13 = 3) : s.startEntry d w = s.putResult d (s.reg .CP_OUT 0) := by
  unfold State.startEntry
  dsimp only
  rw [hsrc]
  rfl

theorem startEntry_wait {s : State} {d : Nat} {w : Word} (hsrc : wfld w 15 13 = 5) :
    s.startEntry d w = s.setCap d { s.cap d with notBefore := s.ticks + 8 * (wfld w 12 7 + 1) } := by
  unfold State.startEntry
  dsimp only
  rw [hsrc]
  rfl

end Sys2Proof.Machine

namespace Sys2Proof

open Sys2Proof.Machine

/-- Settles O39. -/
theorem captures : Obligations.Captures := by
  intro s d v c busy b running started lost on iv x lk
  refine ⟨fun base size n hon hbusy hslots hroom => ?_, fun hon hbusy hper => ?_, fun hon hbusy hen => ?_, fun hdue => ?_, entryDue_iff s d, ?_, ?_,
    fun hbusy hentry hpass => congrArg Host.Outcome.next (if_pos ⟨hbusy, hentry, hpass⟩)⟩
  · have hstart : s.captureStart d = started := captureStart_of_room hon hbusy hslots hroom
    refine ⟨fun hv hd => ?_, fun hper => (capPeriodicTrigger_exec hper).trans (congrArg Host.Outcome.next hstart)⟩
    refine congrArg Host.Outcome.next ((if_pos hv).trans ?_)
    rw [hd]
    exact hstart
  · exact (capPeriodicTrigger_exec hper).trans (congrArg Host.Outcome.next (captureStart_of_busy hon hbusy))
  · intro a
    have hexec : exec (.capDefEnable d v) s = .next (a.capActivate d) := congrArg Host.Outcome.next (writeDefCtrl_of_rest hon hbusy hen)
    refine ⟨fun hok => hexec.trans (congrArg Host.Outcome.next (if_pos hok)), fun hno => hexec.trans (congrArg Host.Outcome.next (if_neg ?_))⟩
    rw [hno]
    exact Bool.false_ne_true
  · refine congrArg Host.Outcome.next (if_pos (Or.inr (Or.inr ?_)))
    rw [hdue]
    exact Bool.false_ne_true
  · intro w hbusy hdue hentry hgroup hfirst
    have hfree := groupFree_of_group hgroup
    have hstart (h : s.groupFree d = true) : exec (.listEntryStart d) s = .next ((s.setCap d (s.capBegun d [w])).startEntry d w) :=
      (listEntryStart_starts hbusy hdue hentry h hfirst).trans (congrArg Host.Outcome.next (startGroup_of_group hgroup))
    have hcap : (s.setCap d (s.capBegun d [w])).cap d = s.capBegun d [w] := cap_setCap _ _ _
    refine ⟨fun i hsrc hi _ hon hconv => ⟨_, hstart ?_, ?_⟩, fun i hsrc hi _ hoff => ⟨_, hstart ?_, ?_⟩, fun i hsrc hi hlt => ⟨_, hstart ?_, ?_⟩,
      fun hsrc => ⟨_, hstart ?_, ?_⟩, fun hsrc => ⟨_, hstart ?_, ?_⟩⟩
    · rw [hfree.2 hsrc, hi, hconv]
      simp
    · subst hi
      obtain ⟨hc, hrun⟩ := startEntry_converts (s := s.setCap d (s.capBegun d [w])) (d := d) hsrc hon hconv
      rw [hc, hrun, hcap, capBegun_trigTick, capBegun_words]
      exact ⟨rfl, rfl, congrArg (· + 1) (capBegun_outstanding _ _ _), capBegun_entry _ _ _, capBegun_stamps _ _ _⟩
    · rw [hfree.2 hsrc, hi, hoff]
      rfl
    · subst hi
      rw [startEntry_missing (s := s.setCap d (s.capBegun d [w])) hsrc hoff, cap_setCap, cap_putResult, hcap, capBegun_words]
      exact ⟨Tab.get_set_self _ _ _ _, rfl, rfl⟩
    · exact hfree.1 (by omega)
    · subst hi
      rw [startEntry_filter hsrc hlt, cap_putResult, hcap, capBegun_words]
      exact ⟨Tab.get_set_self _ _ _ _, rfl⟩
    · exact hfree.1 (by omega)
    · rw [startEntry_comparators hsrc, cap_putResult, hcap, capBegun_words]
      exact ⟨Tab.get_set_self _ _ _ _, rfl⟩
    · exact hfree.1 (by omega)
    · rw [startEntry_wait hsrc, cap_setCap, hcap]
      exact ⟨rfl, capBegun_words s d [w]⟩
  · intro n w hbusy hdue hentry hgroup hsrc hn hon hconv
    have hfree : s.groupFree d = false := by
      rw [(groupFree_of_group hgroup).2 hsrc, hn, hon]
      cases h : s.conv n with
      | none => exact absurd h hconv
      | some y => rfl
    refine ⟨_, listEntryStart_waits hbusy hdue hentry hfree, ?_⟩
    rw [hgroup, groupConverters_sar hsrc, hn, List.any_cons, List.any_nil, Bool.or_false]
    rfl

end Sys2Proof
end

section
/-! SUPPORT. Frames of results and their move to a ring (R221 to R224), read indices (R222). -/

namespace Sys2Proof.Machine

open Sys2Proof

/-! ### The words of a frame -/

theorem length_trailer (s : State) (d : Nat) : (s.trailer d).length = 8 := rfl

/-- The result words of a frame. -/
def State.resultWords (s : State) (d : Nat) : List Word := (upto (s.cap d).words).map fun i => Tab.get 0 (s.cap d).results i

theorem length_resultWords (s : State) (d : Nat) : (s.resultWords d).length = (s.cap d).words := by
  unfold State.resultWords
  rw [List.length_map, upto, List.length_range]

theorem frame_eq (s : State) (d : Nat) : s.frame d = s.resultWords d ++ (s.trailer d ++
    List.replicate (frameLines (s.cap d).words * 32 - ((s.cap d).words + 8)) 0) := by
  have hlen : (s.resultWords d ++ s.trailer d).length = (s.cap d).words + 8 := by
    rw [List.length_append, length_resultWords, length_trailer]
  rw [← List.append_assoc, ← hlen]
  rfl

theorem frame_result (s : State) (d : Nat) {j : Nat} (h : j < (s.cap d).words) : (s.frame d).getD j 0 = Tab.get 0 (s.cap d).results j := by
  rw [frame_eq, List.getD_append _ _ _ _ (by rw [length_resultWords]; exact h)]
  unfold State.resultWords
  rw [List.getD_eq_getElem?_getD, List.getElem?_map, upto, List.getElem?_range h]
  rfl

theorem frame_trailer (s : State) (d : Nat) : (s.frame d).drop (s.cap d).words = s.trailer d ++
    List.replicate (frameLines (s.cap d).words * 32 - ((s.cap d).words + 8)) 0 := by
  rw [frame_eq, List.drop_left' (length_resultWords s d)]

theorem length_frame (s : State) (d : Nat) : (s.frame d).length = 32 * frameLines (s.cap d).words := by
  have hroom : (s.cap d).words + 8 ≤ frameLines (s.cap d).words * 32 := by
    unfold frameLines
    omega
  rw [frame_eq, List.length_append, List.length_append, length_resultWords, length_trailer, List.length_replicate]
  omega

/-! ### Beats -/

theorem unpackWords_eq (l : List W64) : unpackWords l =
    l.flatMap fun (q : W64) => [q.setWidth 16, (q >>> 16).setWidth 16, (q >>> 32).setWidth 16, (q >>> 48).setWidth 16] := by
  have hword (q : W64) (i : Nat) : BitVec.ofNat 16 (q.toNat / 65536 ^ i) = (q >>> (16 * i)).setWidth 16 := by
    refine BitVec.eq_of_toNat_eq ?_
    rw [BitVec.toNat_ofNat, BitVec.toNat_setWidth, BitVec.toNat_ushiftRight, Nat.shiftRight_eq_div_pow, Nat.pow_mul]
  have hbeat (q : W64) : ((upto 4).map fun i => BitVec.ofNat 16 (q.toNat / 65536 ^ i)) =
      [q.setWidth 16, (q >>> 16).setWidth 16, (q >>> 32).setWidth 16, (q >>> 48).setWidth 16] := by
    show [BitVec.ofNat 16 (q.toNat / 65536 ^ 0), BitVec.ofNat 16 (q.toNat / 65536 ^ 1), BitVec.ofNat 16 (q.toNat / 65536 ^ 2),
      BitVec.ofNat 16 (q.toNat / 65536 ^ 3)] = _
    rw [hword q 0, hword q 1, hword q 2, hword q 3]
    simp
  exact congrArg l.flatMap (funext hbeat)

/-- The beat that holds word m of a frame, that word being 0 in it, whatever it was. -/
theorem markedBeat_eq (l : List Word) (m : Nat) (v : Word) :
    ((upto 4).map fun i => if i = m % 4 then 0 else (l.set m v).getD (m / 4 * 4 + i) 0) =
      (upto 4).map fun i => (l.set m 0).getD (m / 4 * 4 + i) 0 := by
  refine List.map_congr_left fun i hi => ?_
  rw [upto, List.mem_range] at hi
  by_cases h : i = m % 4
  · have hm : m / 4 * 4 + i = m := by omega
    rw [if_pos h, hm, List.getD_eq_getElem?_getD, List.getElem?_set_self']
    cases l[m]? <;> rfl
  · have hm : m ≠ m / 4 * 4 + i := by omega
    rw [if_neg h, List.getD_eq_getElem?_getD, List.getD_eq_getElem?_getD, List.getElem?_set_ne hm, List.getElem?_set_ne hm]

/-! ### Read indices -/

theorem rdWrite_in {n wr rd v : Nat} (hrd : rd < n) (hv : v < n) (h : (v + n - rd) % n ≤ (wr + n - rd) % n) : rdWrite n wr rd v = v := by
  unfold rdWrite
  rw [Nat.mod_eq_of_lt hrd]
  exact if_pos ⟨hv, h⟩

theorem rdWrite_out {n wr rd v : Nat} (hrd : rd < n) (h : n ≤ v ∨ (wr + n - rd) % n < (v + n - rd) % n) : rdWrite n wr rd v = rd := by
  unfold rdWrite
  rw [Nat.mod_eq_of_lt hrd]
  exact if_neg fun hin => h.elim (fun h => absurd hin.1 (Nat.not_lt.mpr h)) fun h => absurd hin.2 (Nat.not_le.mpr h)

theorem slotRdWrite_ring {s : State} {k : Fin 8} {v : Word} {base size n : Nat} (hslots : s.crSlots k = some (base, size, n)) (hn : 0 < n) :
    exec (.slotRdWrite (.captureRing k) v) s = .next (s.setFld .CAP_CR_RD k 11 0
      (rdWrite n (s.fld .CAP_CR_WR k 11 0) (s.fld .CAP_CR_RD k 11 0) (wfld v 11 0))) := by
  refine congrArg Host.Outcome.next (?_ : s.writeCrRd k v = _)
  unfold State.writeCrRd
  rw [hslots]
  exact if_neg (Nat.ne_of_gt hn)

/-! ### The frame's end and its move -/

theorem frameComplete_exec {s : State} {d : Fin 64} {base size n : Nat} (hbusy : s.bit .CAP_DEF_CTRL d 13 = true)
    (hentry : s.capCount d ≤ (s.cap d).entry) (hpass : s.capRep d ≤ (s.cap d).pass + 1) (hout : (s.cap d).outstanding = 0)
    (hslots : s.fbSlots (s.capFb d) = some (base, size, n)) (hint : s.bit .CAP_FB_CFG (s.capFb d) 14 = false) (hen : (s.cap d).enPending = false) :
    exec (.frameComplete d) s = .next
      (let wr := s.fld .CAP_FB_WR (s.capFb d) 11 0
       let a := (s.writeWords64 ⟨.f, 10⟩ (base + size * wr) (packWords (s.frame d))).setFld .CAP_FB_WR (s.capFb d) 11 0 ((wr + 1) % n)
       let r : State := if s.capCr d < 8 then
         { a with ready := a.ready ++ [{ fb := s.capFb d, slot := wr, ring := s.capCr d, words := (s.cap d).words }] } else a
       (r.setBit .CAP_DEF_CTRL d 13 false).setCap d { seq := ((s.cap d).seq + 1) % 65536 }) := by
  show execFrameComplete d s = _
  unfold execFrameComplete
  dsimp only
  rw [if_neg ?_, hslots, hen, hint]
  · rfl
  · simp only [hbusy, not_true_eq_false, false_or]
    omega

theorem frameMove_exec {s : State} {r : Ready} {rest : List Ready} {fb fs fn rb rs rn : Nat} (hready : s.ready = r :: rest)
    (hfb : s.fbSlots r.fb = some (fb, fs, fn)) (hcr : s.crSlots r.ring = some (rb, rs, rn)) :
    (s.computeReady = false ∨ ((s.fld .CAP_CR_WR r.ring 11 0 + 1) % rn = s.fld .CAP_CR_RD r.ring 11 0 ∧ s.bit .CAP_CR_CFG r.ring 15 = false) →
      exec .frameMove s = .next s) ∧
    (s.computeReady = true → (s.fld .CAP_CR_WR r.ring 11 0 + 1) % rn ≠ s.fld .CAP_CR_RD r.ring 11 0 ∨ s.bit .CAP_CR_CFG r.ring 15 = true →
      s.bit .CAP_CR_CFG r.ring 14 = false → exec .frameMove s = .next
        (let w := s.fld .CAP_CR_WR r.ring 11 0
         let dst := rb + rs * w
         let p := s.readWords64 ⟨.f, 9⟩ (fb + fs * r.slot) (8 * frameLines r.words)
         let l := unpackWords p.1
         let mark := dst + r.words / 4 * 8
         let m := (((p.2.writeWords64 ⟨.f, 9⟩ mark (packWords ((upto 4).map fun i => (l.set r.words 0).getD (r.words / 4 * 4 + i) 0))).writeWords64
           ⟨.f, 9⟩ dst (packWords (l.set r.words (l.getD r.words 0 &&& 0x7FFF)))).writeWords64 ⟨.f, 9⟩ mark
             (packWords ((upto 4).map fun i => l.getD (r.words / 4 * 4 + i) 0)))
         { ((m.setFld .CAP_CR_WR r.ring 11 0 ((w + 1) % rn)).setFld .CAP_FB_RD r.fb 11 0 ((r.slot + 1) % fn)) with ready := rest })) := by
  have hexec : exec .frameMove s = execFrameMove s := rfl
  rw [hexec]
  unfold execFrameMove
  rw [hready]
  dsimp only
  rw [hfb, hcr]
  dsimp only
  refine ⟨fun h => ?_, fun hcomp hroom hint => ?_⟩
  · refine congrArg Host.Outcome.next (if_pos ?_)
    unfold nextSlot
    simpa using h
  · refine congrArg Host.Outcome.next ((if_neg ?_).trans ?_)
    · unfold nextSlot
      simp only [hcomp, decide_eq_true_iff]
      grind
    · rw [hint, if_neg Bool.false_ne_true, markedBeat_eq, Nat.mul_comm (frameLines r.words) 8]
      rfl

end Sys2Proof.Machine

namespace Sys2Proof

open Sys2Proof.Machine

/-- Settles O40. -/
theorem captureFrames : Obligations.CaptureFrames := by
  intro s d v k c b fr wr
  have hdrop := frame_trailer s d
  have htail : (fr.getD c.words 0) = (s.trailer d).getD 0 0 := by
    rw [List.getD_eq_getElem?_getD, ← Nat.add_zero c.words, ← List.getElem?_drop]
    rw [show fr.drop c.words = _ from hdrop]
    rfl
  refine ⟨fun j hj => frame_result s d hj, ?_, ?_, ?_, fun base size n hbusy hentry hpass hout hslots hint hen =>
    frameComplete_exec hbusy hentry hpass hout hslots hint hen, fun r rest fb fs fn rb rs rn hready hfb hcr => ?_,
    fun base size n hslots hn => ?_⟩
  · rw [htail]
    show (BitVec.ofNat 16 (32768 + b2n c.err * 16384 + b2n c.late * 8192 + b2n (c.lock1 && c.lock2) * 4096 + d % 64 * 64)).toNat = _
    rw [BitVec.toNat_ofNat]
    unfold b2n
    split_ifs <;> omega
  · rw [← List.drop_drop, show fr.drop c.words = _ from hdrop]
    rfl
  · rw [length_frame]
    rfl
  · obtain ⟨hstay, hmove⟩ := frameMove_exec hready hfb hcr
    intro w dst
    refine ⟨fun hcomp hroom hint => ?_, hstay⟩
    intro p l beat mark m
    refine (hmove hcomp hroom hint).trans ?_
    dsimp only
    rw [unpackWords_eq]
  · intro w q x hw hq
    have hexec := slotRdWrite_ring (v := v) hslots hn
    refine ⟨fun hx hin => ?_, fun hout => ?_⟩
    · rw [rdWrite_in hq hx hin] at hexec
      exact hexec
    · rw [rdWrite_out hq hout] at hexec
      exact hexec

end Sys2Proof
end

section
/-! SUPPORT. The SAR converters (R202 to R207). -/

namespace Sys2Proof.Machine

open Sys2Proof

/-! ### Power -/

theorem adOn_iff (s : State) (n : Fin 4) : s.adOn n = true ↔ s.bit .ADC_STAT n 15 = true ∧ ¬ s.absentConv n = true := by
  unfold State.adOn
  simp

theorem adStart_moves {s : State} {n : Nat} (htrans : Tab.get none s.adcTrans n = none) (habs : ¬ s.absentConv n = true)
    (hreq : s.bit .ADC_CTRL n 15 ≠ s.bit .ADC_STAT n 15) : s.adStart n = s.adMoving n (s.bit .ADC_CTRL n 15) := by
  refine if_neg ?_
  rintro (h | h | h)
  · rw [htrans] at h
    exact absurd h (by decide)
  · exact hreq h
  · exact habs h

theorem adStart_stays {s : State} {n : Nat} (h : Tab.get none s.adcTrans n ≠ none ∨ s.absentConv n = true ∨ s.bit .ADC_CTRL n 15 = s.bit .ADC_STAT n 15) :
    s.adStart n = s := by
  refine if_pos ?_
  rcases h with h | h | h
  · exact Or.inl (Option.isSome_iff_ne_none.mpr h)
  · exact Or.inr (Or.inr h)
  · exact Or.inr (Or.inl h)

theorem mates_of_plain {s : State} {c : Conv} (h : c.res = none) : s.mates c = [c] := by
  unfold State.mates
  rw [h]

theorem dropWaiting_of_plain {s : State} {n : Nat} (h : ∀ c ∈ s.waiting, c.res = none) : s.dropWaiting n =
    (let a := { s with waiting := s.waiting.filter fun c => adOf c.input ≠ n }
     if ∃ c ∈ s.waiting, c.level = 3 ∧ adOf c.input = n then a.setBit .ADC_STAT n 13 true else a) := by
  have hfilter : (s.waiting.filter fun c => (s.mates c).all fun m => adOf m.input ≠ n) = s.waiting.filter fun c => adOf c.input ≠ n := by
    refine List.filter_congr fun c hc => ?_
    rw [mates_of_plain (h c hc), List.all_cons, List.all_nil, Bool.and_true]
  unfold State.dropWaiting
  dsimp only
  rw [hfilter]
  simp only [List.any_eq_true, Bool.and_eq_true, decide_eq_true_iff]

theorem addr_ADC_CTRL_ne (n : Fin 4) : RegKind.ADC_CTRL.addr n ≠ RegKind.ADC_STAT.addr n := by
  revert n
  decide

/-- What a converter's power-down leaves of its own register and of the transitions. -/
theorem dropWaiting_only (s : State) (n : Fin 4) : (s.dropWaiting n).adcTrans = s.adcTrans ∧ (s.dropWaiting n).spr = s.spr ∧
    (s.dropWaiting n).bit .ADC_STAT n 15 = s.bit .ADC_STAT n 15 ∧ (s.dropWaiting n).reg .ADC_CTRL n = s.reg .ADC_CTRL n := by
  unfold State.dropWaiting
  dsimp only
  split
  · exact ⟨rfl, rfl, bit_setBit_of_ne_bit _ _ _ _ _ _ (by decide) (by decide), reg_setReg_of_ne _ _ _ _ _ _ (addr_ADC_CTRL_ne n)⟩
  · exact ⟨rfl, rfl, rfl, rfl⟩

/-- The converter as its transition to g ends, before it serves REQ again (R206). -/
def State.adEnded (s : State) (n : Nat) (g : Bool) : State :=
  let still := (({ s with adcTrans := Tab.set none n none s.adcTrans }).setBit .ADC_STAT n 15 g).setBit .ADC_STAT n 14 false
  if g then still else still.dropWaiting n

theorem adcPowerDone_exec {s : State} {n : Fin 4} {g : Bool} (h : Tab.get none s.adcTrans n = some g) :
    exec (.adcPowerDone n) s = .next ((s.adEnded n g).adStart n) := by
  show execAdcPowerDone n s = _
  unfold execAdcPowerDone
  rw [h]
  rfl

theorem adEnded_keeps (s : State) (n : Fin 4) (g : Bool) : Tab.get none (s.adEnded n g).adcTrans n = none ∧
    (s.adEnded n g).absentConv n = s.absentConv n ∧ (s.adEnded n g).bit .ADC_STAT n 15 = g ∧
    (s.adEnded n g).bit .ADC_CTRL n 15 = s.bit .ADC_CTRL n 15 := by
  have hctrl (a : State) (b : Nat) (v : Bool) : (a.setBit .ADC_STAT n b v).bit .ADC_CTRL n 15 = a.bit .ADC_CTRL n 15 :=
    bit_setBit_of_ne _ _ _ _ _ _ _ (addr_ADC_CTRL_ne n)
  have hstill : ∀ still, still = (({ s with adcTrans := Tab.set none n none s.adcTrans }).setBit .ADC_STAT n 15 g).setBit .ADC_STAT n 14 false →
      Tab.get none still.adcTrans n = none ∧ still.spr = s.spr ∧ still.bit .ADC_STAT n 15 = g ∧ still.bit .ADC_CTRL n 15 = s.bit .ADC_CTRL n 15 := by
    rintro still rfl
    refine ⟨Tab.get_set_self _ _ _ _, rfl, ?_, (hctrl _ _ _).trans (hctrl _ _ _)⟩
    rw [bit_setBit_of_ne_bit _ _ _ _ _ _ (by decide) (by decide), bit_setBit_self _ _ _ _ _ (by decide)]
  obtain ⟨htrans, hspr, hstat, hctrl⟩ := hstill _ rfl
  unfold State.adEnded
  dsimp only
  split
  · exact ⟨htrans, rfl, hstat, hctrl⟩
  · obtain ⟨dtrans, dspr, dstat, dctrl⟩ := dropWaiting_only ((({ s with adcTrans := Tab.set none n none s.adcTrans }).setBit .ADC_STAT n 15 g).setBit
      .ADC_STAT n 14 false) n
    refine ⟨(congrArg (Tab.get none · n.val) dtrans).trans htrans, ?_, dstat.trans hstat, (congrArg (wbit · 15) dctrl).trans hctrl⟩
    unfold State.absentConv
    rw [dspr]
    rfl

/-! ### Which conversion starts -/

theorem rank_of_plain {c : Conv} (h : c.res = none) : c.rank = (c.level, c.trig, 0) := by
  unfold Conv.rank
  rw [h]
  rfl

theorem rankBefore_eq_false {a b c d e : Nat} : rankBefore (a, b, e) (c, d, e) = false ↔ c < a ∨ (c = a ∧ d ≤ b) := by
  unfold rankBefore
  dsimp only
  split_ifs <;> simp only [decide_eq_false_iff_not] <;> omega

theorem rankBefore_of_level {a b : Nat × Nat × Nat} (h : a.1 < b.1) : rankBefore a b = true ∧ rankBefore b a = false := by
  unfold rankBefore
  rw [if_pos (Nat.ne_of_lt h), if_pos (Nat.ne_of_gt h)]
  exact ⟨decide_eq_true h, decide_eq_false (Nat.lt_asymm h)⟩

theorem capRank_level_pos (s : State) (d : Nat) : 0 < (s.capRank d).1 := by
  unfold State.capRank
  dsimp only
  split <;> decide

/-- A conversion of no frame and no resolver sample makes nothing late. -/
theorem occupy_of_own {s : State} {n : Nat} {c : Conv} (hslot : c.slot = none) (hlevel : c.level ≠ 0) :
    s.occupy n c = s.setConv n (some { c with began := s.ticks }) := by
  have hforeign (d : Nat) : c.foreign d = false := by
    unfold Conv.foreign
    rw [hslot]
    exact decide_eq_false hlevel
  refine List.foldl_fixed' (fun d => if_neg ?_) _
  rw [hforeign]
  simp

theorem occupy_parts (s : State) (n : Nat) (c : Conv) : (s.occupy n c).converting = (s.setConv n (some { c with began := s.ticks })).converting ∧
    (s.occupy n c).waiting = s.waiting ∧ (s.occupy n c).ticks = s.ticks := by
  refine List.foldlRecOn (motive := fun t : State => t.converting = (s.setConv n (some { c with began := s.ticks })).converting ∧
    t.waiting = s.waiting ∧ t.ticks = s.ticks) (upto 64) _ ⟨rfl, rfl, rfl⟩ fun t ht d _ => ?_
  split
  · exact ht
  · exact ht

/-- The waiting conversion that starts on a free converter where no group does (R204). -/
theorem adcConversionStart_exec {s : State} {n : Fin 4} (hon : s.adOn n = true) (hfree : s.conv n = none)
    (hgroup : (s.waitingGroups n).find? s.groupFirst = none) :
    exec (.adcConversionStart n) s = .next (match s.waiting.find? fun c => adOf c.input = n.val && s.convFree c && s.convFirst c with
      | some c => s.startConv c
      | none => s) := by
  have hstay : ¬ (¬ s.adOn n = true ∨ (s.conv n).isSome = true) := by
    rw [hon, hfree]
    decide
  refine congrArg Host.Outcome.next ((if_neg hstay).trans ?_)
  rw [hgroup] <;> rfl

/-- Of the conversions that wait for a converter one is of the least rank. -/
theorem exists_first {l : List Conv} {p : Conv → Prop} {c : Conv} (hc : c ∈ l) (hp : p c) :
    ∃ x ∈ l, p x ∧ ∀ y ∈ l, p y → x.level < y.level ∨ (x.level = y.level ∧ x.trig ≤ y.trig) := by
  classical
  have hmem : c ∈ (l.toFinset.filter p) := Finset.mem_filter.mpr ⟨List.mem_toFinset.mpr hc, hp⟩
  obtain ⟨x, hx, hmin⟩ := Finset.exists_min_image (l.toFinset.filter p) (fun y => toLex (y.level, y.trig)) ⟨c, hmem⟩
  obtain ⟨hxl, hxp⟩ := Finset.mem_filter.mp hx
  refine ⟨x, List.mem_toFinset.mp hxl, hxp, fun y hy hyp => ?_⟩
  exact Prod.Lex.toLex_le_toLex.mp (hmin y (Finset.mem_filter.mpr ⟨List.mem_toFinset.mpr hy, hyp⟩))

/-- Of conversions that are no resolver sample's the first in the order of R204 starts. -/
theorem conversionStart_plain {s : State} {n : Fin 4} {c : Conv} (hon : s.adOn n = true) (hfree : s.conv n = none) (hgroups : s.waitingGroups n = [])
    (hc : c ∈ s.waiting) (hcn : adOf c.input = n)
    (hplain : ∀ y ∈ s.waiting, adOf y.input = n → y.res = none ∧ y.slot = none ∧ y.level ≠ 0) : ∃ x ∈ s.waiting, adOf x.input = n ∧
    (∀ y ∈ s.waiting, adOf y.input = n → x.level < y.level ∨ (x.level = y.level ∧ x.trig ≤ y.trig)) ∧
    exec (.adcConversionStart n) s = .next ({ s with waiting := s.waiting.erase x }.setConv n (some { x with began := s.ticks })) := by
  have hfirst (x : Conv) (hx : x ∈ s.waiting) (hxn : adOf x.input = n) : s.convFirst x = true ↔
      ∀ y ∈ s.waiting, adOf y.input = n → x.level < y.level ∨ (x.level = y.level ∧ x.trig ≤ y.trig) := by
    obtain ⟨hxr, -, -⟩ := hplain x hx hxn
    have hahead : s.ahead n x.rank = false ↔ ∀ y ∈ s.waiting, adOf y.input = n → x.level < y.level ∨ (x.level = y.level ∧ x.trig ≤ y.trig) := by
      unfold State.ahead
      rw [hgroups, List.any_nil, Bool.or_false, List.any_eq_false]
      refine forall₂_congr fun y hy => ?_
      refine ⟨fun h hyn => ?_, fun h hno => ?_⟩
      · obtain ⟨hyr, -, -⟩ := hplain y hy hyn
        have hyfree : s.convFree y = true := by
          unfold State.convFree
          rw [mates_of_plain hyr, List.all_cons, hyn, hfree]
          rfl
        rw [hyfree, rank_of_plain hyr, rank_of_plain hxr] at h
        refine (rankBefore_eq_false (e := 0)).mp (Bool.eq_false_of_not_eq_true fun hb => h ?_)
        rw [hb, decide_eq_true hyn]
        rfl
      · simp only [Bool.and_eq_true, decide_eq_true_iff] at hno
        obtain ⟨⟨hyn, -⟩, hbefore⟩ := hno
        obtain ⟨hyr, -, -⟩ := hplain y hy hyn
        rw [rank_of_plain hyr, rank_of_plain hxr, rankBefore_eq_false.mpr (h hyn)] at hbefore
        exact absurd hbefore (by decide)
    rw [← hahead]
    unfold State.convFirst
    rw [mates_of_plain hxr, List.all_cons, List.all_nil, hxn, Bool.and_true]
    simp
  have hall (x : Conv) (hx : x ∈ s.waiting) : (adOf x.input = n.val && s.convFree x && s.convFirst x) = true ↔
      adOf x.input = n ∧ ∀ y ∈ s.waiting, adOf y.input = n → x.level < y.level ∨ (x.level = y.level ∧ x.trig ≤ y.trig) := by
    simp only [Bool.and_eq_true, decide_eq_true_iff]
    refine ⟨fun h => ⟨h.1.1, (hfirst x hx h.1.1).mp h.2⟩, fun h => ⟨⟨h.1, ?_⟩, (hfirst x hx h.1).mpr h.2⟩⟩
    unfold State.convFree
    rw [mates_of_plain (hplain x hx h.1).1, List.all_cons, h.1, hfree]
    rfl
  obtain ⟨m, hm, hmn, hmin⟩ := exists_first (p := fun x => adOf x.input = n) hc hcn
  have hsome : (s.waiting.find? fun c => adOf c.input = n.val && s.convFree c && s.convFirst c).isSome = true :=
    List.find?_isSome.mpr ⟨m, hm, (hall m hm).mpr ⟨hmn, hmin⟩⟩
  obtain ⟨x, hx⟩ := Option.isSome_iff_exists.mp hsome
  have hxw : x ∈ s.waiting := List.mem_of_find?_eq_some hx
  obtain ⟨hxn, hxmin⟩ := (hall x hxw).mp (List.find?_some (p := fun c => adOf c.input = n.val && s.convFree c && s.convFirst c) hx)
  obtain ⟨hxr, hxs, hxl⟩ := hplain x hxw hxn
  refine ⟨x, hxw, hxn, hxmin, ?_⟩
  rw [adcConversionStart_exec hon hfree (by rw [hgroups]; rfl), hx]
  refine congrArg Host.Outcome.next ?_
  show s.startConv x = _
  unfold State.startConv
  rw [mates_of_plain hxr]
  show ({ s with waiting := s.waiting.erase x } : State).occupy (adOf x.input) x = _
  rw [occupy_of_own hxs hxl, hxn]

/-- Both halves of a resolver sample start at one instant, before anything else (R208). -/
theorem conversionStart_pair {s : State} {n : Fin 4} {c y : Conv} {k : Nat} (hon : s.adOn n = true) (hw : s.waiting = [c, y])
    (hcr : c.res = some (k, false)) (hyr : y.res = some (k, true)) (hcl : c.level = 0) (hyl : y.level = 0) (htrig : c.trig = y.trig)
    (hcn : adOf c.input = n) (hyn : adOf y.input ≠ n) (hfree : s.conv n = none) (hyfree : s.conv (adOf y.input) = none) :
    ∃ t, exec (.adcConversionStart n) s = .next t ∧ t.waiting = [] ∧ t.conv n = some { c with began := s.ticks } ∧
      t.conv (adOf y.input) = some { y with began := s.ticks } := by
  have hmates : s.mates c = [c, y] := by
    unfold State.mates
    rw [hcr, hw]
    simp [hcr, hyr, htrig]
  have hcfree : s.convFree c = true := by
    unfold State.convFree
    rw [hmates, List.all_cons, List.all_cons, hcn, hfree, hyfree]
    rfl
  have hcrank : c.rank = (0, c.trig, k) := by
    unfold Conv.rank
    rw [hcl, hcr]
    rfl
  have hyrank : y.rank = (0, c.trig, k) := by
    unfold Conv.rank
    rw [hyl, hyr, htrig]
    rfl
  have hbefore (d : Nat) : rankBefore c.rank (s.capRank d) = true ∧ rankBefore (s.capRank d) c.rank = false := by
    rw [hcrank]
    exact rankBefore_of_level (capRank_level_pos s d)
  have hlast (m : Nat) : s.ahead m c.rank = false := by
    have hself : rankBefore c.rank c.rank = false := by
      rw [hcrank]
      exact rankBefore_eq_false.mpr (Or.inr ⟨rfl, le_refl _⟩)
    have hgroup (d : Nat) : rankBefore (s.capRank d) c.rank = false := (hbefore d).2
    unfold State.ahead
    rw [hw, List.any_cons, List.any_cons, hyrank, ← hcrank, hself]
    simp [hgroup]
  have hcfirst : s.convFirst c = true := by
    unfold State.convFirst
    rw [hmates]
    simp [hlast]
  have hnogroup : (s.waitingGroups n).find? s.groupFirst = none := by
    refine List.find?_eq_none.mpr fun d hd hfirst => ?_
    have huses : n.val ∈ groupConverters (s.group d (s.cap d).entry) := by
      unfold State.waitingGroups at hd
      simp only [List.mem_filter, Bool.and_eq_true, List.contains_iff_mem] at hd
      exact hd.2.2
    have hahead : s.ahead n (s.capRank d) = true := by
      unfold State.ahead
      rw [hw, List.any_cons, hcfree, (hbefore d).1, decide_eq_true hcn]
      rfl
    unfold State.groupFirst at hfirst
    have := List.all_eq_true.mp hfirst n.val huses
    rw [hon, hahead] at this
    exact absurd this (by decide)
  have hne : ¬ (c == y) = true := by
    rw [beq_iff_eq]
    rintro rfl
    rw [hcr] at hyr
    exact absurd hyr (by simp)
  refine ⟨s.startConv c, ?_, ?_⟩
  · rw [adcConversionStart_exec hon hfree hnogroup, hw, List.find?_cons_of_pos (by rw [hcfree, hcfirst, decide_eq_true hcn]; rfl)]
  · obtain ⟨oconv, owait, oticks⟩ := occupy_parts { s with waiting := s.waiting.erase c } (adOf c.input) c
    generalize hone : ({ s with waiting := s.waiting.erase c } : State).occupy (adOf c.input) c = one at oconv owait oticks
    have hstart : s.startConv c = State.occupy { one with waiting := one.waiting.erase y } (adOf y.input) y := by
      unfold State.startConv
      rw [hmates, List.foldl_cons, List.foldl_cons, List.foldl_nil, hone]
    obtain ⟨tconv, twait, -⟩ := occupy_parts { one with waiting := one.waiting.erase y } (adOf y.input) y
    rw [hstart]
    refine ⟨?_, ?_, ?_⟩
    · rw [twait]
      show one.waiting.erase y = []
      rw [owait, show ({ s with waiting := s.waiting.erase c } : State).waiting = s.waiting.erase c from rfl, hw, List.erase_cons_head,
        List.erase_cons_head]
    · rw [State.conv, tconv]
      refine (Tab.get_set_of_ne _ hyn.symm _ _).trans ?_
      show Tab.get none one.converting n = _
      rw [oconv, ← hcn]
      exact Tab.get_set_self _ _ _ _
    · rw [State.conv, tconv]
      refine (Tab.get_set_self _ _ _ _).trans ?_
      exact congrArg (fun t => some { y with began := t }) oticks

/-! ### The end of a conversion -/

theorem adcConversionDone_plain {s : State} {n : Fin 4} {uv : Nat} {c : Conv} (hc : s.conv n = some c) (hslot : c.slot = none) :
    exec (.adcConversionDone n uv) s = .next (((s.setConv n none).setReg .ADC_LAST c.input (adCode uv)).resolverHalf c (adCode uv)) := by
  show execAdcConversionDone n uv s = _
  unfold execAdcConversionDone
  rw [hc]
  dsimp only
  rw [hslot]

theorem adcConversionDone_frame {s : State} {n : Fin 4} {uv : Nat} {c : Conv} {d w : Nat} (hc : s.conv n = some c) (hslot : c.slot = some (d, w)) :
    exec (.adcConversionDone n uv) s = .next (((s.setConv n none).setReg .ADC_LAST c.input (adCode uv)).setCap d
      { s.cap d with results := Tab.set 0 w (adCode uv) (s.cap d).results, outstanding := (s.cap d).outstanding - 1, resultTick := s.ticks }) := by
  show execAdcConversionDone n uv s = _
  unfold execAdcConversionDone
  rw [hc]
  dsimp only
  rw [hslot]
  rfl

theorem writeSwconv_of_go {s : State} {v : Word} (hgo : wbit v 15 = true) (hi : wfld v 5 0 < 48) : exec (.adcSwconv v) s = .next
    (let s1 := { s with waiting := s.waiting.filter fun c => c.level ≠ 3 }
     if s1.adOn (adOf (wfld v 5 0)) then s1.addConv { input := wfld v 5 0, st := 0, level := 3, trig := s.ticks, slot := none }
     else s1.setBit .ADC_STAT (adOf (wfld v 5 0)) 13 true) :=
  congrArg Host.Outcome.next (if_neg (not_or.mpr ⟨not_not.mpr hgo, Nat.not_le.mpr hi⟩))

theorem converters : Sys2Proof.Rules.Converters := by
  intro s n uv v g c on absent trans w still ended i free code
  refine ⟨adOn_iff s n, dropWaiting_of_plain, fun htrans habs hreq => congrArg Host.Outcome.next (adStart_moves htrans habs hreq), ?_, ?_, ?_, ?_, ?_,
    fun hon hfree hgroups hc hcn hplain => conversionStart_plain hon hfree hgroups hc hcn hplain,
    fun k y hon hw hcr hyr hcl hyl htrig hcn hyn hfree hyfree => conversionStart_pair hon hw hcr hyr hcl hyl htrig hcn hyn hfree hyfree, ?_, ?_,
    fun d w hc hslot => adcConversionDone_frame hc hslot⟩
  · exact fun h => congrArg Host.Outcome.next (adStart_stays h)
  · obtain ⟨etrans, eabs, estat, ectrl⟩ := adEnded_keeps s n g
    refine fun htrans h => (adcPowerDone_exec htrans).trans (congrArg Host.Outcome.next (adStart_stays (Or.inr ?_)))
    rw [eabs, estat, ectrl]
    exact h
  · obtain ⟨etrans, eabs, estat, ectrl⟩ := adEnded_keeps s n g
    refine fun htrans habs hreq => (adcPowerDone_exec htrans).trans (congrArg Host.Outcome.next ?_)
    rw [adStart_moves etrans (by rw [eabs]; exact habs) (by rw [estat, ectrl]; exact hreq), ectrl, Bool.eq_not_of_ne hreq]
    rfl
  · exact fun hgo hi hon => (writeSwconv_of_go hgo hi).trans (congrArg Host.Outcome.next (if_pos hon))
  · exact fun hgo hi hoff => (writeSwconv_of_go hgo hi).trans (congrArg Host.Outcome.next (if_neg (by
      rw [show free.adOn (adOf i) = false from hoff]
      exact Bool.false_ne_true)))
  · intro hc hslot hres
    rw [Goes, adcConversionDone_plain hc hslot]
    unfold State.resolverHalf
    rw [hres]
    rfl
  · intro k cosine hc hslot hres a x key
    have hexec := adcConversionDone_plain (uv := uv) hc hslot
    refine ⟨fun hnone => hexec.trans (congrArg Host.Outcome.next ?_), fun y hy => hexec.trans (congrArg Host.Outcome.next ?_)⟩
    · unfold State.resolverHalf
      rw [hres]
      dsimp only
      rw [show Tab.get none ((s.setConv n none).setReg .ADC_LAST c.input (adCode uv)).resHalf (2 * k + b2n (!cosine)) = none from hnone]
      rfl
    · unfold State.resolverHalf
      rw [hres]
      dsimp only
      rw [show Tab.get none ((s.setConv n none).setReg .ADC_LAST c.input (adCode uv)).resHalf (2 * k + b2n (!cosine)) = some y from hy]
      rfl

end Sys2Proof.Machine
end

section
/-! SUPPORT. Sigma-delta inputs, comparators and SENT receivers (R209 to R215). -/

namespace Sys2Proof.Machine

open Sys2Proof

/-! ### Sigma-delta inputs -/

theorem clampI_eq {lo hi : Int} (h : lo ≤ hi) (v : Int) : clampI lo hi v = max lo (min hi v) := by
  unfold clampI
  split_ifs <;> omega

theorem sinc_clock (x : Sinc) (b : Bool) :
    let i1 := x.i1 + (if b then 1 else 0)
    let i2 := x.i2 + i1
    x.clock b = { x with i1, i2, i3 := x.i3 + i2, count := x.count + 1 } := by
  cases b <;> rfl

theorem sdClock_between {s : State} {n : Nat} {k : Bool × Bool}
    (h : ((Tab.get {} s.sinc n).clock (if s.bit .SD_CFG n 13 then k.2 else k.1)).count < osrOf (s.reg .SD_CFG n)) :
    s.sdClock n k = { s with sinc := Tab.set {} n ((Tab.get {} s.sinc n).clock (if s.bit .SD_CFG n 13 then k.2 else k.1)) s.sinc } :=
  if_neg (Nat.not_le.mpr h)

theorem sdClock_result {s : State} {n : Nat} {k : Bool × Bool}
    (h : osrOf (s.reg .SD_CFG n) ≤ ((Tab.get {} s.sinc n).clock (if s.bit .SD_CFG n 13 then k.2 else k.1)).count) :
    s.sdClock n k =
      (let x := (Tab.get {} s.sinc n).clock (if s.bit .SD_CFG n 13 then k.2 else k.1)
       ({ s with sinc := Tab.set {} n x.output s.sinc } : State).sdOutput n x.sum) := if_pos h

theorem sdOutput_settling {s : State} {n : Nat} (sum : Int) (h : 0 < Tab.get 0 s.sdSettle n) :
    s.sdOutput n sum = { s with sdSettle := Tab.set 0 n (Tab.get 0 s.sdSettle n - 1) s.sdSettle } := if_pos h

theorem sdOutput_settled {s : State} {n : Nat} (sum : Int) (h : Tab.get 0 s.sdSettle n = 0) :
    s.sdOutput n sum = (s.setReg .SD_DATA n (BitVec.ofInt 16 (max (-32768) (min 32767
      ((sum - (osrOf (s.reg .SD_CFG n) ^ 3 / 2 : Nat)) / (2 ^ wfld (s.reg .SD_CFG n) 12 9 : Nat)))))).setBit .SD_NEW 0 n true := by
  unfold State.sdOutput
  dsimp only
  rw [if_neg (by rw [h]; decide), clampI_eq (by decide)]

/-! ### Comparators -/

theorem hystOf_eq {n : Nat} (h : n < 4) : hystOf n = if n = 0 then 0 else 5000 * 2 ^ (n - 1) := by
  interval_cases n <;> rfl

theorem cpLevel_eq (cp : Word) (ref uv : Nat) (now : Bool) :
    let thr := ref * Config.vrefa
    let hyst := (if wfld cp 7 6 = 0 then 0 else 5000 * 2 ^ (wfld cp 7 6 - 1)) * 1024
    cpLevel cp ref uv now =
      if wbit cp 8 then decide (uv * 1024 < (if now then thr + hyst else thr)) else decide (thr < uv * 1024 + (if now then hyst else 0)) := by
  intro thr hyst
  unfold cpLevel
  dsimp only
  rw [hystOf_eq (wfld_lt cp 7 6)]
  cases now <;> simp [thr, hyst]

theorem setCp_eq (s : State) (n : Nat) (v : Bool) : s.setCp n v = State.tripCells
    (if v && !s.bit .CP_OUT 0 n then
      (let a := (s.setBit .CP_OUT 0 n true).setBit .CP_EVT 0 n true
       if s.bit .CP_IEN 0 n then a.raise (s.fld .CAP_CTRL 0 3 0) 3 else a)
    else s.setBit .CP_OUT 0 n v) := by
  have hcore : ((s.setBit .CP_OUT 0 n true).setBit .CP_EVT 0 n true).fld .CAP_CTRL 0 3 0 = s.fld .CAP_CTRL 0 3 0 :=
    congrArg (wfld · 3 0) ((reg_setReg_of_ne _ .CP_EVT .CAP_CTRL 0 0 _ (by decide)).trans (reg_setReg_of_ne _ .CP_OUT .CAP_CTRL 0 0 _ (by decide)))
  have hrise (v : Bool) : (v && decide ¬ s.bit .CP_OUT 0 n = true) = (v && !s.bit .CP_OUT 0 n) := by
    cases v <;> cases s.bit .CP_OUT 0 n <;> rfl
  unfold State.setCp
  dsimp only
  rw [hrise v]
  cases v with
  | false => rw [Bool.false_and, if_neg Bool.false_ne_true, if_neg Bool.false_ne_true]
  | true =>
    unfold State.measureInt
    rw [hcore]

theorem addr_CP_CFG_ne (m : Fin 16) : RegKind.CP_CFG.addr m ≠ RegKind.CP_ON.addr 0 := by
  revert m
  decide

theorem setCp_false (s : State) (n : Nat) : s.setCp n false = (s.setBit .CP_OUT 0 n false).tripCells := setCp_eq s n false

/-! ### SENT frames -/

theorem sentFrame_uncalibrated {s : State} {n : Fin 12} {f : SentRx} (hen : wbit (s.reg .SE_CFG n) 15 = true) (hcal : s.calOk n f.calNs = false) :
    exec (.sentFrame n f) s = .next (s.sentBad n [12]) :=
  congrArg Host.Outcome.next ((if_neg (not_not.mpr hen)).trans (if_pos (by rw [hcal]; exact Bool.false_ne_true)))

/-- A SENT receiver that has accepted a calibration pulse. -/
def State.sentHeard (s : State) (n : Nat) (f : SentRx) : State := { s with sentCal := Tab.set 0 n f.calNs s.sentCal }

/-- What a receiver makes of the pulses of a frame after its calibration pulse (R214, R215). -/
def State.sentPulses (s : State) (n : Nat) (f : SentRx) (cfg : Word) : State :=
  let want := nibblesOf cfg
  let nibs := (f.pulses.take (want + 2)).map (nibbleOf f.calNs)
  let data := (nibs.drop 1).take want
  let nib := nibs.any fun x => 15 < x
  let len : Bool := f.pulses.length ≠ want + 2 + b2n (wbit cfg 11)
  if nib || len then s.sentBad n ((if nib then [11] else []) ++ (if len then [10] else []))
  else if sentCrc (wbit cfg 10) data ≠ nibs.getD (want + 1) 0 then s.sentBad n [13]
  else
    let v := nibbleValue data
    let s2 := (s.setReg .SE_FAST_LO n (BitVec.ofNat 16 v)).setReg .SE_FAST_HI n
      (BitVec.ofNat 16 (nibs.getD 0 0 * 4096 + v / 65536 % 256))
    let s3 := (s2.setBit .SE_STAT n 15 true).sentSerial n (nibs.getD 0 0)
    if wbit cfg 7 then s3.measureInt else s3

theorem sentFrame_calibrated {s : State} {n : Fin 12} {f : SentRx} (hen : wbit (s.reg .SE_CFG n) 15 = true) (hcal : s.calOk n f.calNs = true) :
    exec (.sentFrame n f) s = .next ((s.sentHeard n f).sentPulses n f (s.reg .SE_CFG n)) :=
  congrArg Host.Outcome.next ((if_neg (not_not.mpr hen)).trans (if_neg (not_not.mpr hcal)))

/-- The length is not that of a frame. -/
def wrongLength (f : SentRx) (cfg : Word) : Prop := f.pulses.length ≠ nibblesOf cfg + 2 + (if wbit cfg 11 then 1 else 0)

/-- A pulse is no nibble. -/
def wrongNibble (f : SentRx) (cfg : Word) : Prop := ∃ p ∈ f.pulses.take (nibblesOf cfg + 2), 15 < nibbleOf f.calNs p

theorem any_nibble_iff (f : SentRx) (cfg : Word) :
    (((f.pulses.take (nibblesOf cfg + 2)).map (nibbleOf f.calNs)).any fun x => 15 < x) = true ↔ wrongNibble f cfg := by
  unfold wrongNibble
  simp only [List.any_eq_true, List.mem_map, decide_eq_true_iff, exists_exists_and_eq_and]

theorem sentPulses_wrong {s : State} {n : Nat} {f : SentRx} {cfg : Word} :
    (wrongLength f cfg → ¬ wrongNibble f cfg → s.sentPulses n f cfg = s.sentBad n [10]) ∧
    (¬ wrongLength f cfg → wrongNibble f cfg → s.sentPulses n f cfg = s.sentBad n [11]) ∧
    (wrongLength f cfg → wrongNibble f cfg → s.sentPulses n f cfg = s.sentBad n [11, 10]) := by
  have hwrong (h : wrongLength f cfg) : decide (f.pulses.length ≠ nibblesOf cfg + 2 + b2n (wbit cfg 11)) = true := decide_eq_true h
  have hright (h : ¬ wrongLength f cfg) : decide (f.pulses.length ≠ nibblesOf cfg + 2 + b2n (wbit cfg 11)) = false := decide_eq_false h
  unfold State.sentPulses
  dsimp only
  refine ⟨fun hl hn => ?_, fun hl hn => ?_, fun hl hn => ?_⟩
  · rw [Bool.eq_false_of_not_eq_true (fun h => hn ((any_nibble_iff f cfg).mp h)), hwrong hl]
    rfl
  · rw [(any_nibble_iff f cfg).mpr hn, hright hl]
    rfl
  · rw [(any_nibble_iff f cfg).mpr hn, hwrong hl]
    rfl

/-- The nibble of a pulse within half a tick of its length (R215). -/
theorem nibbleOf_eq {cal p x : Nat} (hlo : cal * (2 * (x + 12) - 1) ≤ 112 * p) (hhi : 112 * p < cal * (2 * (x + 12) + 1)) : nibbleOf cal p = x := by
  have hpos : 0 < cal := Nat.pos_of_ne_zero fun h => by
    rw [h, Nat.zero_mul] at hhi
    exact absurd hhi (Nat.not_lt_zero _)
  have hdiv : (2 * 56 * p + cal) / (2 * cal) = x + 12 := by
    refine (Nat.div_eq_iff (by omega)).mpr ?_
    have hlo' : cal * (2 * (x + 12) - 1) + cal = (x + 12) * (2 * cal) := by
      rw [show 2 * (x + 12) - 1 = 2 * x + 23 from by omega]
      ring
    have hhi' : cal * (2 * (x + 12) + 1) + cal = (x + 12) * (2 * cal) + 2 * cal := by ring
    omega
  unfold nibbleOf
  dsimp only
  rw [hdiv, if_neg (by omega), Nat.add_sub_cancel]

/-- The nibbles that the pulses of a frame of the right length spell. -/
theorem nibbles_eq {f : SentRx} {cfg : Word} {nibs : List Nat} (hlen : ¬ wrongLength f cfg) (hnibs : nibs.length = nibblesOf cfg + 2)
    (h : ∀ i < nibblesOf cfg + 2, nibs.getD i 0 ≤ 15 ∧ f.calNs * (2 * (nibs.getD i 0 + 12) - 1) ≤ 112 * f.pulses.getD i 0 ∧
      112 * f.pulses.getD i 0 < f.calNs * (2 * (nibs.getD i 0 + 12) + 1)) :
    (f.pulses.take (nibblesOf cfg + 2)).map (nibbleOf f.calNs) = nibs := by
  have hpulses : nibblesOf cfg + 2 ≤ f.pulses.length := by
    unfold wrongLength at hlen
    push Not at hlen
    split at hlen <;> omega
  refine List.ext_getElem ?_ fun i hi hj => ?_
  · rw [List.length_map, List.length_take, hnibs, Nat.min_eq_left hpulses]
  · have hlt : i < nibblesOf cfg + 2 := hnibs ▸ hj
    obtain ⟨-, hlo, hhi⟩ := h i hlt
    rw [List.getD_eq_getElem _ _ hj, List.getD_eq_getElem _ _ (Nat.lt_of_lt_of_le hlt hpulses)] at hlo hhi
    rw [List.getElem_map, List.getElem_take]
    exact nibbleOf_eq hlo hhi

theorem not_wrongNibble {cfg : Word} {nibs : List Nat} (hnibs : nibs.length = nibblesOf cfg + 2) (h : ∀ i < nibblesOf cfg + 2, nibs.getD i 0 ≤ 15) : (nibs.any fun x => 15 < x) = false := by
  refine List.any_eq_false.mpr fun x hx => ?_
  obtain ⟨i, hi, rfl⟩ := List.getElem_of_mem hx
  have := h i (hnibs ▸ hi)
  rw [List.getD_eq_getElem _ _ hi] at this
  simpa using this

theorem sentPulses_of_nibbles {s : State} {n : Nat} {f : SentRx} {cfg : Word} {nibs : List Nat} (hlen : ¬ wrongLength f cfg)
    (hspell : (f.pulses.take (nibblesOf cfg + 2)).map (nibbleOf f.calNs) = nibs) (hnib : (nibs.any fun x => 15 < x) = false) :
    let data := (nibs.drop 1).take (nibblesOf cfg)
    let v := nibbleValue data
    let s3 := (((s.setReg .SE_FAST_LO n (BitVec.ofNat 16 v)).setReg .SE_FAST_HI n
      (BitVec.ofNat 16 (nibs.getD 0 0 * 4096 + v / 65536 % 256))).setBit .SE_STAT n 15 true).sentSerial n (nibs.getD 0 0)
    (sentCrc (wbit cfg 10) data ≠ nibs.getD (nibblesOf cfg + 1) 0 → s.sentPulses n f cfg = s.sentBad n [13]) ∧
    (sentCrc (wbit cfg 10) data = nibs.getD (nibblesOf cfg + 1) 0 → s.sentPulses n f cfg = if wbit cfg 7 then s3.measureInt else s3) := by
  have hlen' : decide (f.pulses.length ≠ nibblesOf cfg + 2 + b2n (wbit cfg 11)) = false := decide_eq_false hlen
  intro data v s3
  unfold State.sentPulses
  dsimp only
  rw [hspell, hnib, hlen', Bool.false_or, if_neg Bool.false_ne_true]
  exact ⟨fun h => if_pos h, fun h => if_neg (not_not.mpr h)⟩

theorem serialMessage_of_off {s : State} {n : Nat} (h : s.fld .SE_CFG n 9 8 = 0 ∨ s.fld .SE_CFG n 9 8 = 3) : s.serialMessage n = none := by
  unfold State.serialMessage
  dsimp only
  rcases h with h | h
  · rw [h]
    rfl
  · rw [h]
    rfl

theorem inputs : Sys2Proof.Rules.Inputs := by
  intro s n m r uv v f clocks k cfg osr left cp thr hyst now out moved se want cal bad wrongLen wrongNib x i1 i2 i3 div from'
  have hclock : x.clock (if wbit cfg 13 then k.2 else k.1) = { x with i1, i2, i3, count := x.count + 1 } := sinc_clock _ _
  refine ⟨fun h => congrArg Host.Outcome.next ?_, fun hen hext => congrArg Host.Outcome.next ((if_neg (not_not.mpr hen)).trans (if_pos hext)),
    fun hen hint hclk => congrArg Host.Outcome.next ((if_neg (not_not.mpr hen)).trans ((if_neg ?_).trans (if_pos hclk))), fun h => ?_, fun h => ?_,
    fun hon => ?_, ?_, fun htrans hen => ?_, fun hen => ?_, serialMessage_of_off⟩
  · rcases h with hen | ⟨hint, hclk⟩
    · exact if_pos (by rw [show s.bit .SD_CFG n 15 = false from hen]; exact Bool.false_ne_true)
    · split
      · rfl
      · refine (if_neg ?_).trans (if_neg ?_)
        · rw [show s.bit .SD_CFG n 14 = false from hint]
          exact Bool.false_ne_true
        · rw [hclk]
          exact Bool.false_ne_true
  · rw [show s.bit .SD_CFG n 14 = false from hint]
    exact Bool.false_ne_true
  · refine (sdClock_between ?_).trans ?_
    · show (x.clock (if wbit cfg 13 then k.2 else k.1)).count < osr
      rw [hclock]
      exact h
    · show ({ s with sinc := Tab.set {} n.val (x.clock (if wbit cfg 13 then k.2 else k.1)) s.sinc } : State) = _
      rw [hclock]
  · intro sum a
    have hres : s.sdClock n k = a.sdOutput n sum := by
      refine (sdClock_result ?_).trans ?_
      · show osr ≤ (x.clock (if wbit cfg 13 then k.2 else k.1)).count
        rw [hclock]
        exact h
      · show State.sdOutput { s with sinc := Tab.set {} n.val (x.clock (if wbit cfg 13 then k.2 else k.1)).output s.sinc } n
          (x.clock (if wbit cfg 13 then k.2 else k.1)).sum = _
        rw [hclock]
        rfl
    exact ⟨fun hleft => hres.trans (sdOutput_settling sum hleft), fun hleft => hres.trans (sdOutput_settled sum hleft)⟩
  · refine congrArg Host.Outcome.next ((if_neg (not_not.mpr hon)).trans ?_)
    have hlevel : cpLevel (s.reg .CP_CFG m) (s.fld .CP_DAC m 9 0) uv (s.bit .CP_OUT 0 m) = out := cpLevel_eq _ _ _ _
    show s.setCp m (cpLevel (s.reg .CP_CFG m) (s.fld .CP_DAC m 9 0) uv (s.bit .CP_OUT 0 m)) = _
    rw [hlevel]
    exact setCp_eq s m out
  · intro a htrans
    have hfree : ¬ (Tab.get none a.cpTrans m).isSome = true := by
      rw [show Tab.get none a.cpTrans m = none from htrans]
      decide
    refine ⟨fun hen hoff => congrArg Host.Outcome.next ((if_neg hfree).trans ((if_pos hen).trans (if_neg ?_))),
      fun hen => congrArg Host.Outcome.next ((if_neg hfree).trans ((if_neg ?_).trans (setCp_false _ _)))⟩
    · exact fun h => absurd (hoff.symm.trans h) (by decide)
    · exact fun h => absurd (hen.symm.trans h) (by decide)
  · show execCpPowerDone m s = _
    unfold execCpPowerDone
    obtain ⟨g, hg⟩ := Option.ne_none_iff_exists'.mp htrans
    rw [hg]
    refine congrArg Host.Outcome.next ((if_neg ?_).trans ((if_pos ?_).trans (if_pos ?_)))
    · rw [setBit_cpTrans, Tab.get_set_self]
      decide
    · refine (bit_setBit_of_ne .CP_ON .CP_CFG 0 m 15 m true (addr_CP_CFG_ne m)).trans hen
    · exact bit_setBit_self _ _ _ _ _ m.isLt
  · refine ⟨fun hcal => sentFrame_uncalibrated hen hcal, fun hcal => ?_⟩
    have hexec := sentFrame_calibrated hen hcal
    obtain ⟨hlen, hnib, hboth⟩ := sentPulses_wrong (s := s.sentHeard r f) (n := r) (f := f) (cfg := se)
    refine ⟨fun h1 h2 => hexec.trans (congrArg Host.Outcome.next (hlen h1 h2)), fun h1 h2 => hexec.trans (congrArg Host.Outcome.next (hnib h1 h2)),
      fun h1 h2 => hexec.trans (congrArg Host.Outcome.next (hboth h1 h2)), fun nibs hl hnibs hspell => ?_⟩
    have heq := nibbles_eq hl hnibs hspell
    obtain ⟨hbad, hgood⟩ := sentPulses_of_nibbles (s := s.sentHeard r f) (n := r) hl heq (not_wrongNibble hnibs fun i hi => (hspell i hi).1)
    intro data status value good kept told
    refine ⟨fun hcrc => hexec.trans (congrArg Host.Outcome.next (hbad hcrc)), fun hcrc => hexec.trans (congrArg Host.Outcome.next ((hgood hcrc).trans ?_))⟩
    rfl

end Sys2Proof.Machine

namespace Sys2Proof

open Sys2Proof.Machine

/-- Settles O41. -/
theorem measuring : Obligations.Measuring := ⟨converters, inputs⟩

end Sys2Proof
end

section
/-! SUPPORT. Admission of a frame to an egress queue (R335). -/

namespace Sys2Proof.Machine

open Sys2Proof

/-! ### Interrupts and counters, and the part of the state that is the network's -/

theorem net_raise (s : State) (core src : Nat) : (s.raise core src).net = s.net := by
  unfold State.raise
  split_ifs <;> rfl

theorem net_raiseStat (s : State) (stat en : RegKind) (b core src : Nat) : (s.raiseStat stat en b core src).net = s.net := by
  unfold State.raiseStat
  dsimp only
  split
  · exact net_raise _ _ _
  · rfl

theorem net_netInt (s : State) (b : Nat) : (s.netInt b).net = s.net := by
  unfold State.netInt
  split
  · exact net_raiseStat _ _ _ _ _ _
  · rfl

theorem net_fnetInt (s : State) (b : Nat) : (s.fnetInt b).net = s.net := net_raiseStat _ _ _ _ _ _

theorem net_dropTally (s : State) (p n : Nat) : (s.dropTally p n).net = (s.portTally p n).net := by
  unfold State.dropTally
  dsimp only
  split
  · rw [net_fnetInt, net_netInt]
  · rw [net_netInt]

theorem counter_portTally (s : State) (p n k : Nat) : Tab.get 0 (s.portTally p n k).net.counters (32 * p + n) =
    Tab.get 0 s.net.counters (32 * p + n) + BitVec.ofNat 64 k := by
  exact Tab.get_upd_self 0 (32 * p + n) (fun c : W64 => c + BitVec.ofNat 64 k) s.net.counters

/-! ### Queues -/

/-- A key's value is the table's default or an entry of it. -/
theorem Tab.get_eq_or_mem {α : Type} (d : α) (t : Tab α) (n : Nat) : Tab.get d t n = d ∨ (n, Tab.get d t n) ∈ t := by
  induction t with
  | nil => exact Or.inl rfl
  | cons e t ih =>
    obtain ⟨k, v⟩ := e
    rw [Tab.get]
    split_ifs with hlt heq
    · exact Or.inl rfl
    · exact Or.inr (by rw [heq]; exact List.mem_cons_self)
    · exact ih.imp id (List.mem_cons_of_mem _)

theorem mem_swQueue {s : State} {q id : Nat} (h : id ∈ s.swQueue q) : ∃ e ∈ s.net.queues, id ∈ e.2 := by
  rcases Tab.get_eq_or_mem [] s.net.queues q with hd | hm
  · rw [State.swQueue, hd] at h
    exact absurd h List.not_mem_nil
  · exact ⟨_, hm, h⟩

theorem swQueue_setSwQueue (s : State) (q : Nat) (l : List Nat) : (s.setSwQueue q l).swQueue q = l := Tab.get_set_self _ _ _ _

theorem swQueue_setSwQueue_of_ne (s : State) {q k : Nat} (l : List Nat) (h : k ≠ q) : (s.setSwQueue q l).swQueue k = s.swQueue k :=
  Tab.get_set_of_ne _ h _ _

theorem freeFrame_of_held {s : State} {q id : Nat} (h : id ∈ s.swQueue q) : s.freeFrame id = s := by
  obtain ⟨e, he, hid⟩ := mem_swQueue h
  exact if_pos (List.any_eq_true.mpr ⟨e, he, by simpa using hid⟩)

theorem freeFrame_of_unheld {s : State} {id : Nat} (h : ∀ e ∈ s.net.queues, id ∉ e.2) :
    s.freeFrame id = { s with net := { s.net with store := s.net.store.filter fun f => f.id ≠ id } } :=
  if_neg fun hany => by
    obtain ⟨e, he, hid⟩ := List.any_eq_true.mp hany
    exact h e he (List.contains_iff_mem.mp hid)

theorem accrue_of_unshaped {s : State} {p : Nat} (h5 : s.idleSlope (8 * p + 5) = 0) (h6 : s.idleSlope (8 * p + 6) = 0) : s.accrue p = s := by
  simp [State.accrue, h5, h6]

/-! ### A frame in the buffer -/

/-- A frame in the buffer, in no queue yet (R332). -/
def State.inBuffer (s : State) (f : SwFrame) : State :=
  { s with net := { s.net with store := s.net.store ++ [{ f with id := s.net.nextId }], nextId := s.net.nextId + 1 } }

theorem enterQueues_of_room {s : State} {f : SwFrame} (ports : List Nat) (h : cellsOf f.bytes ≤ s.freeCells) :
    s.enterQueues f ports = (ports.foldl (fun t p => t.admitPort s.net.nextId (cellsOf f.bytes) f.cls p) (s.inBuffer f)).freeFrame s.net.nextId :=
  if_neg (Nat.not_lt.mpr h)

theorem swFrame_inBuffer_new {s : State} (f : SwFrame) (h : ∀ x ∈ s.net.store, x.id ≠ s.net.nextId) :
    (s.inBuffer f).swFrame s.net.nextId = some { f with id := s.net.nextId } := by
  refine (List.find?_append).trans ?_
  rw [List.find?_eq_none.mpr fun x hx => by rw [decide_eq_true_iff]; exact h x hx]
  simp

theorem swFrame_inBuffer_old {s : State} (f : SwFrame) {id : Nat} (h : id ≠ s.net.nextId) : (s.inBuffer f).swFrame id = s.swFrame id := by
  refine (List.find?_append).trans ?_
  rw [List.find?_cons_of_neg (by rw [decide_eq_true_iff]; exact h.symm), List.find?_nil, Option.or_none]
  rfl

/-- The cells that a frame of the buffer takes. -/
def State.cellsIn (s : State) (id : Nat) : Nat :=
  match s.swFrame id with
  | some f => cellsOf f.bytes
  | none => 0

theorem occ_eq (s : State) (q : Nat) : s.occ q = ((s.swQueue q).map s.cellsIn).sum :=
  (foldl_add_eq_sum _ _ _).trans (Nat.zero_add _)

theorem occ_inBuffer {s : State} (f : SwFrame) (q : Nat) (h : s.net.nextId ∉ s.swQueue q) : (s.inBuffer f).occ q = s.occ q := by
  rw [occ_eq, occ_eq]
  refine congrArg List.sum (List.map_congr_left fun id hid => ?_)
  unfold State.cellsIn
  rw [swFrame_inBuffer_old f fun he => h (he ▸ hid)]

theorem cellsIn_inBuffer_new {s : State} (f : SwFrame) (h : ∀ x ∈ s.net.store, x.id ≠ s.net.nextId) :
    (s.inBuffer f).cellsIn s.net.nextId = cellsOf f.bytes := by
  unfold State.cellsIn
  rw [swFrame_inBuffer_new f h]

theorem freeCells_inBuffer (s : State) (f : SwFrame) : (s.inBuffer f).freeCells = s.freeCells - cellsOf f.bytes := by
  have hstore : (s.net.store ++ [{ f with id := s.net.nextId }]).foldl (fun n (f : SwFrame) => n + cellsOf f.bytes) 0 =
      s.net.store.foldl (fun n (f : SwFrame) => n + cellsOf f.bytes) 0 + cellsOf f.bytes := by
    rw [List.foldl_append, List.foldl_cons, List.foldl_nil]
  unfold State.freeCells
  rw [Nat.sub_sub]
  rw [← hstore]
  rfl

theorem sharedFree_inBuffer {s : State} (f : SwFrame) (h : ∀ q, s.net.nextId ∉ s.swQueue q) : (s.inBuffer f).sharedFree =
    ((s.freeCells - cellsOf f.bytes : Nat) : Int) - (((upto 200).map fun q => s.qMin q - s.occ q).sum : Nat) := by
  unfold State.sharedFree
  rw [freeCells_inBuffer, foldl_add_eq_sum, Nat.zero_add]
  refine congrArg (fun n : Nat => ((s.freeCells - cellsOf f.bytes : Nat) : Int) - n) (congrArg List.sum (List.map_congr_left fun q _ => ?_))
  rw [occ_inBuffer f q (h q)]
  rfl

end Sys2Proof.Machine

namespace Sys2Proof

open Sys2Proof.Machine

/-- Settles O42. -/
theorem queueAdmission : Obligations.QueueAdmission := by
  intro s f p c q id occ free owed spare hp hcls hon hroom hstore hqueues hflat t
  have hunheld (k : Nat) : id ∉ s.swQueue k := fun h => by
    obtain ⟨e, he, hid⟩ := mem_swQueue h
    exact hqueues e he hid
  let b := s.inBuffer f
  have hocc : b.occ q = occ := occ_inBuffer f q (hunheld q)
  have hshared : b.sharedFree = spare := sharedFree_inBuffer f hunheld
  have haccrue : b.accrue p = b := accrue_of_unshaped (hflat _) (hflat _)
  have hadmit : b.admitPort id c f.cls p = if occ + c ≤ s.qMin q ∨ (occ + c ≤ s.qMax q ∧ (c : Int) ≤ spare) then
      b.setSwQueue q (s.swQueue q ++ [id]) else b.dropTally p (10 + f.cls) := by
    rw [← hocc, ← hshared]
    refine (if_neg (not_not.mpr hon)).trans ?_
    dsimp only
    rw [haccrue]
    rfl
  have ht : t = (b.admitPort id c f.cls p).freeFrame id := enterQueues_of_room [p] hroom
  rw [hadmit] at ht
  by_cases hadm : occ + c ≤ s.qMin q ∨ (occ + c ≤ s.qMax q ∧ (c : Int) ≤ spare)
  · have hqueue : (b.setSwQueue q (s.swQueue q ++ [id])).swQueue q = s.swQueue q ++ [id] := swQueue_setSwQueue _ _ _
    rw [if_pos hadm, freeFrame_of_held (q := q) (by rw [hqueue]; exact List.mem_append_right _ (List.mem_singleton.mpr rfl))] at ht
    rw [ht]
    refine ⟨fun _ => ⟨hqueue, swFrame_inBuffer_new f hstore, ?_, rfl⟩, fun h => absurd hadm h, fun k hk => swQueue_setSwQueue_of_ne b _ hk⟩
    rw [occ_eq, hqueue, List.map_append, List.sum_append]
    refine congrArg₂ (· + ·) ((occ_eq b q).symm.trans hocc) ?_
    show b.cellsIn id + 0 = c
    rw [Nat.add_zero]
    exact cellsIn_inBuffer_new f hstore
  · have hnet : (b.dropTally p (10 + f.cls)).net = (b.portTally p (10 + f.cls)).net := net_dropTally _ _ _
    have hfilter : (b.portTally p (10 + f.cls)).net.store.filter (fun x => x.id ≠ id) = s.net.store := by
      show (s.net.store ++ [{ f with id }]).filter _ = _
      rw [List.filter_append, List.filter_eq_self.mpr fun x hx => decide_eq_true (hstore x hx)]
      simp
    have htnet : t.net = { (b.portTally p (10 + f.cls)).net with store := s.net.store } := by
      rw [ht, if_neg hadm, freeFrame_of_unheld (by rw [hnet]; exact hqueues), ← hfilter]
      show ({ (b.dropTally p (10 + f.cls)).net with store := (b.dropTally p (10 + f.cls)).net.store.filter fun x => x.id ≠ id } : Net) = _
      rw [hnet]
    have hqueue (k : Nat) : t.swQueue k = s.swQueue k := by
      rw [State.swQueue, htnet]
      rfl
    refine ⟨fun h => absurd h hadm, fun _ => ⟨hqueue q, by rw [htnet], ?_⟩, fun k _ => hqueue k⟩
    rw [htnet]
    show Tab.get 0 (b.portTally p (10 + f.cls)).net.counters (32 * p + 10 + f.cls) = _
    rw [Nat.add_assoc]
    exact counter_portTally b p (10 + f.cls) 1

end Sys2Proof
end

section
/-! SUPPORT. Frames received at a port (R331 to R333, R337, R357, R360). -/

namespace Sys2Proof.Machine

open Sys2Proof

/-! ### Addresses -/

theorem bytesAt_zero_succ (l : List Byte) (n : Nat) : bytesAt l 0 (n + 1) = l.getD 0 0 :: bytesAt (l.drop 1) 0 n := by
  unfold bytesAt upto
  rw [List.range_succ_eq_map, List.map_cons, List.map_map]
  refine congrArg₂ List.cons rfl (List.map_congr_left fun j _ => ?_)
  rw [Function.comp_apply, List.getD_eq_getElem?_getD, List.getD_eq_getElem?_getD, List.getElem?_drop, Nat.zero_add, Nat.zero_add, Nat.add_comm]

/-- Bytes beyond the end of a list count as 0. -/
theorem leNat_bytesAt_zero (l : List Byte) (n : Nat) : leNat (bytesAt l 0 n) = leNat (l.take n) := by
  induction n generalizing l with
  | zero => rfl
  | succ n ih =>
    rw [bytesAt_zero_succ, leNat, ih]
    cases l with
    | nil => simp [leNat]
    | cons b l => rfl

theorem macEntry_bytesAt (s : State) (b : List Byte) (vid : Nat) : s.macEntry (b.take 6) vid = s.macEntry (bytesAt b 0 6) vid := by
  unfold State.macEntry
  rw [leNat_bytesAt_zero]

/-! ### A frame in the switch (R333) -/

theorem ingress_full {s : State} {p : Nat} {b : List Byte} {stamp : W64} {node : Option (BitVec 4)} {slot : Option (Master × Nat)}
    (h : s.freeCells < cellsOf b) : s.ingress p b stamp node slot = s.dropTally p 5 := if_pos h

theorem source_unknown {s : State} {p : Nat} {b : List Byte} (hsrc : s.macEntry (bytesAt b 6 6) (vidOf b) = none)
    (hlearn : s.bit .NSW_PCTL p 14 = false) : s.source p b none = (none, s) := by
  unfold State.source
  dsimp only
  rw [hsrc, hlearn]
  rfl

/-- What the policy for unknown partners makes of a frame whose source is unknown and not learned (R357). -/
theorem ingress_unknown {s : State} {p : Nat} {b : List Byte} {stamp : W64} {slot : Option (Master × Nat)} (hroom : cellsOf b ≤ s.freeCells)
    (hsrc : s.macEntry (bytesAt b 6 6) (vidOf b) = none) (hlearn : s.bit .NSW_PCTL p 14 = false) :
    s.ingress p b stamp none slot = match s.fld .NSW_PCTL p 13 12 with
      | 0 => s.forward { bytes := b, port := p, cls := pcpOf b, stamp, slot }
      | 1 => s.forward { bytes := b, port := p, cls := pcpOf b, stamp, slot } (some (copyPort p))
      | 2 => s
      | _ => s.dropTally p 4 := by
  refine (if_neg (Nat.not_lt.mpr hroom)).trans ?_
  rw [source_unknown hsrc hlearn] <;> rfl

/-- A frame whose destination the roster does not hold meets no filter, and carries nothing for CAN without a known source. -/
theorem forward_unknown {s : State} {f : SwFrame} {only : Option Nat} (hdest : s.macEntry (f.bytes.take 6) (vidOf f.bytes) = none) (hsrc : f.src = none) :
    s.forward f only =
      (let ports := match only with
         | some p => [p]
         | none => s.egress f none
       if ports.isEmpty then s else s.enterQueues { f with filt := 0x3FF } ports) := by
  have hcan (g : SwFrame) (h : g.src = none) : s.toCan g = s := by
    unfold State.toCan
    rw [h]
  unfold State.forward State.police State.filterOf State.sequence
  rw [hdest]
  dsimp only
  rw [hcan _ (by split <;> exact hsrc)] <;> rfl

theorem egress_flood {s : State} {f : SwFrame} (h : s.bit .NSW_CTRL 0 15 = false ∨ (f.bytes.getD 0 0).getLsbD 0 = true) :
    s.egress f none = ((upto 25).filter fun k => s.bit .NSW_PCTL k 15).filter fun k => k ≠ f.port := by
  refine if_neg fun hic => ?_
  rcases h with h | h
  · rw [h] at hic
    exact Bool.false_ne_true hic.2
  · refine hic.1 ?_
    rw [BitVec.getLsbD, Nat.testBit_zero, decide_eq_true_iff] at h
    exact h

/-! ### A frame at its port -/

/-- A good frame counted, and its PLCA transmit opportunity noted (R332, R346). -/
def State.noted (s : State) (p n : Nat) (node : Option (BitVec 4)) : State :=
  match node with
  | some k => (s.received p n).plcaNext (p - 8) k.toNat
  | none => s.received p n

/-- The parts of the state that the further way of a received frame depends on. -/
theorem noted_parts (s : State) (p n : Nat) (node : Option (BitVec 4)) : (s.noted p n node).regs = s.regs ∧ (s.noted p n node).net.rxHeld = s.net.rxHeld ∧
    (s.noted p n node).net.secTab = s.net.secTab ∧ (s.noted p n node).gptpNs = s.gptpNs ∧ (s.noted p n node).fresh = s.fresh := by
  unfold State.noted State.plcaNext State.received State.portTally State.tally
  cases node <;> simp only [and_self]

theorem macsecOn_of_parts {s t : State} (p : Nat) (hregs : t.regs = s.regs) (hsec : t.net.secTab = s.net.secTab) : t.macsecOn p = s.macsecOn p := by
  unfold State.macsecOn State.sa State.bit State.reg
  rw [hregs, hsec]

theorem takeEth_off {s : State} {p : Nat} {b : List Byte} {stamp : W64} {node : Option (BitVec 4)} (h : s.computeReady = false) :
    s.takeEth p b stamp node = s.toIf { bytes := b, port := p, cls := pcpOf b, stamp } := if_pos (by rw [h]; exact Bool.false_ne_true)

theorem takeEth_clear {s : State} {p : Nat} {b : List Byte} {stamp : W64} {node : Option (BitVec 4)} (h : s.computeReady = true)
    (hsec : s.macsecOn p = false) : s.takeEth p b stamp node = s.ingress p b stamp node none := by
  refine (if_neg (not_not.mpr h)).trans ?_
  unfold State.macsecIn
  rw [if_pos (Or.inl (by rw [hsec]; exact Bool.false_ne_true))]

section
variable {s : State} {p : Fin 25} {f : RxFrame} (hp : p.val < 14) (hlive : 4 ≤ p.val ∨ s.switchReady = true)
include hp hlive

theorem frameReceive_stopping (hact : s.portAct p = 3) : exec (.frameReceive p f) s = .next (s.portTally p 3) :=
  congrArg Host.Outcome.next ((if_neg (by grind)).trans (if_pos hact))

/-- A frame at a port that is ON (R332, R338). -/
theorem frameReceive_on (hact : s.portAct p = 2) : exec (.frameReceive p f) s = .next
    (if s.spoiltNext p then State.portTally { s with net := { s.net with spoilt := Tab.upd 0 p.val (· - 1) s.net.spoilt } } p 2
     else if ¬ f.fcsOk ∨ frameLen f.bytes < 64 ∨ s.maxLen p < frameLen f.bytes then s.portTally p 2
     else if etherType f.bytes = 0x8808 then (s.received p (frameLen f.bytes)).portTally p 7
     else
       (let r := (s.noted p (frameLen f.bytes) (s.nodeOf p f.node)).rxStamp p f.age
        if r.2.mustHold p then r.2.hold p (.eth f.bytes r.1 (s.nodeOf p f.node)) else r.2.takeEth p f.bytes r.1 (s.nodeOf p f.node))) := by
  refine congrArg Host.Outcome.next ((if_neg (by grind)).trans ((if_neg (by rw [hact]; decide)).trans ((if_neg (not_not.mpr hact)).trans ?_)))
  rfl

end

theorem nodeOf_eq {s : State} {p : Fin 25} (hp : p.val < 14) (node : Option (BitVec 4)) : s.nodeOf p node =
    if 8 ≤ p.val ∧ s.bit .TS_CFG (p - 8) 14 = true ∧ s.bit .TS_STAT (p - 8) 13 = true then node else none := by
  unfold State.nodeOf State.plcaOn
  simp only [hp, true_and, Bool.and_eq_true]

theorem rxStamp_far {s : State} {p : Nat} (age : Nat) (h : 4 ≤ p) : s.rxStamp p age = (s.gptpNs - BitVec.ofNat 64 age, s) := if_neg (Nat.not_lt.mpr h)

end Sys2Proof.Machine

namespace Sys2Proof

open Sys2Proof.Machine

/-- Settles O43. -/
theorem frameReception : Obligations.FrameReception := by
  intro s p f hp hlive n good spoilt t0 node a held
  have hnode : s.nodeOf p f.node = node := nodeOf_eq hp f.node
  have ha : s.noted p n node = a := rfl
  obtain ⟨aregs, aheld, asec, agptp, afresh⟩ := noted_parts s p n node
  rw [ha] at aregs aheld asec agptp afresh
  have hready : a.computeReady = s.computeReady := by
    unfold State.computeReady State.bit State.reg
    rw [aregs]
  have hup : a.linkUp = s.linkUp := by
    unfold State.linkUp State.fld State.reg
    rw [aregs]
  have hsec : a.macsecOn p = s.macsecOn p := macsecOn_of_parts p aregs asec
  have hspoilt (h : spoilt = 0) : ¬ s.spoiltNext p = true := fun hs => absurd h (of_decide_eq_true hs)
  have hbad (h : ¬ good) : ¬ f.fcsOk = true ∨ frameLen f.bytes < 64 ∨ s.maxLen p < frameLen f.bytes := by
    by_contra hno
    push Not at hno
    exact h hno
  have hgood (h : good) : ¬ (¬ f.fcsOk = true ∨ frameLen f.bytes < 64 ∨ s.maxLen p < frameLen f.bytes) := by
    obtain ⟨hfcs, hmin, hmax⟩ := h
    rintro (h | h | h)
    · exact h hfcs
    · exact absurd h (Nat.not_lt.mpr hmin)
    · exact absurd h (Nat.not_lt.mpr hmax)
  refine ⟨fun hact => frameReceive_stopping hp hlive hact, fun hact hs => ?_, fun hact hs hg => ?_, fun hact hs hg hty => ?_, fun hact hs hg hty => ?_,
    fun hfull => ingress_full hfull, fun hsrc hlearn hn hroom => ?_⟩
  · exact (frameReceive_on hp hlive hact).trans (congrArg Host.Outcome.next (if_pos (decide_eq_true hs)))
  · exact (frameReceive_on hp hlive hact).trans (congrArg Host.Outcome.next ((if_neg (hspoilt hs)).trans (if_pos (hbad hg))))
  · exact (frameReceive_on hp hlive hact).trans (congrArg Host.Outcome.next ((if_neg (hspoilt hs)).trans ((if_neg (hgood hg)).trans (if_pos hty))))
  · have hexec : exec (.frameReceive p f) s = .next
        (if (a.rxStamp p f.age).2.mustHold p then (a.rxStamp p f.age).2.hold p (.eth f.bytes (a.rxStamp p f.age).1 node)
         else (a.rxStamp p f.age).2.takeEth p f.bytes (a.rxStamp p f.age).1 node) := by
      rw [frameReceive_on hp hlive hact, if_neg (hspoilt hs), if_neg (hgood hg), if_neg hty, hnode, ← ha]
      rfl
    have hfar (h4 : 4 ≤ p.val) : a.rxStamp p f.age = (t0, a) := by
      rw [rxStamp_far _ h4, agptp]
    have hhold (h4 : 4 ≤ p.val) : a.mustHold p = (s.computeReady && !s.linkUp) := by
      unfold State.mustHold
      rw [hready, hup, decide_eq_true h4, decide_eq_true (show p.val < 22 by omega)]
      rfl
    have hwait (h4 : 4 ≤ p.val) (hc : s.computeReady = true) (hl : s.linkUp = false) : exec (.frameReceive p f) s = .next (a.hold p (.eth f.bytes t0 node)) := by
      rw [hexec, hfar h4]
      exact congrArg Host.Outcome.next (if_pos (by rw [hhold h4, hc, hl]; rfl))
    refine ⟨fun h4 hc => ?_, fun h4 hc hl hm => ?_, fun h4 hc hl hfit => (hwait h4 hc hl).trans ?_, fun h4 hc hl hfull => (hwait h4 hc hl).trans ?_,
      fun h4 hc hm => ?_⟩
    · rw [Goes, hexec, hfar h4]
      exact congrArg Host.Outcome.next ((if_neg (by rw [hhold h4, hc]; exact Bool.false_ne_true)).trans (takeEth_off (hready.trans hc)))
    · rw [Goes, hexec, hfar h4]
      exact congrArg Host.Outcome.next ((if_neg (by rw [hhold h4, hc, hl]; exact Bool.false_ne_true)).trans
        (takeEth_clear (hready.trans hc) (hsec.trans hm)))
    · unfold State.hold
      dsimp only
      rw [aheld]
      exact congrArg Host.Outcome.next (if_neg (Nat.not_lt.mpr hfit))
    · unfold State.hold
      dsimp only
      rw [aheld]
      exact congrArg Host.Outcome.next (if_pos hfull)
    · have hnear : node = none := if_neg fun h => absurd h.1 (by omega)
      refine ⟨Config.freeNat s.fresh % 3, Nat.mod_lt _ (by decide), ?_⟩
      have hstamp : a.rxStamp p f.age = (t0 + BitVec.ofNat 64 (Config.freeNat s.fresh % 3) - 1, { a with fresh := s.fresh + 1 }) := by
        unfold State.rxStamp State.draw
        rw [if_pos h4, agptp, afresh]
      rw [Goes, hexec, hstamp, hnear]
      refine congrArg Host.Outcome.next ((if_neg ?_).trans (takeEth_clear (hready.trans hc) ?_))
      · unfold State.mustHold
        rw [decide_eq_false (Nat.not_le.mpr h4)]
        exact Bool.false_ne_true
      · exact (macsecOn_of_parts (s := s) p aregs asec).trans hm
  · intro x unknown copy
    have hdest (h : unknown) : s.macEntry (f.bytes.take 6) (vidOf f.bytes) = none := (macEntry_bytesAt _ _ _).trans h
    have hin := ingress_unknown (stamp := t0) (slot := none) hroom hsrc hlearn
    rw [hn]
    refine ⟨fun hpol hunk _ hgroup => ?_, fun hpol hunk => ?_, fun hpol => ?_, fun hpol => ?_⟩
    · intro ports hports
      rw [hin, hpol]
      refine (forward_unknown (hdest hunk) rfl).trans ?_
      dsimp only
      rw [egress_flood hgroup]
      exact if_neg fun h => hports (List.isEmpty_iff.mp h)
    · have hcopy : copyPort p = copy := if_congr (and_iff_left (by omega)) rfl rfl
      rw [hin, hpol, ← hcopy]
      exact forward_unknown (hdest hunk) rfl
    · rw [hin, hpol]
      rfl
    · rw [hin, hpol]
      rfl

end Sys2Proof
end

section
/-! SUPPORT. What a port of a segment under PLCA sends (R346, R361): a state in which the egress time that is written back reaches a register. -/

namespace Sys2Proof.Machine

open Sys2Proof

/-- The number of the word from TILE_PWR on at which TS_PLCA of segment 0 lies. -/
def plcaAsTile : Nat := (RegKind.TS_PLCA.addr 0 - RegKind.TILE_PWR.addr 0) / 2

/-- A frame that asks for its egress time in the C tiles. -/
def strayFrame : SwFrame := { id := 3, bytes := [], port := 0, cls := 0, stamp := 0, slot := some (⟨.c, 0⟩, 0x40000000) }

/-- A port of a segment under PLCA as node 8, with that frame to send, where the parameters bind the first line of the C tiles
to a tile whose TILE_PWR is the node's TS_PLCA. -/
def strayTime : State :=
  let regs := ((((((({} : State).setReg .NSW_STAT 0 0x8000).setReg .ML_STAT 0 0x6000).setReg .TS_STAT 0 0xA000).setReg .TS_CFG 0 0xC000).setReg
    .TS_PLCA 0 0x8100).setReg .XBAR_GDEF 0 1)
  { regs with
    pw := { regs.pw with cReset := false }
    lay := { regs.lay with params := setParam regs.lay.params 398 plcaAsTile }
    net := { regs.net with
      store := [strayFrame]
      queues := [(64, [3])] } }

/-- The node that a port's segment counts from, after a command. -/
def nodeAfter (o : Host.Outcome State Fault Refusal) : Option Nat :=
  match o with
  | .next t => some (Tab.get (0, 0) t.net.plca 0).1
  | _ => none

/-- The write of the egress time takes the tile out of its power state, which clears bit 15 of TS_PLCA: node 8 has become node 0. -/
theorem strayTime_counts_from : nodeAfter (exec (.frameTransmit 8) strayTime) = some 1 := by decide +kernel

theorem strayTime_plain : strayTime.plainPort (8 : Fin 25) := by
  unfold State.plainPort
  decide +kernel

end Sys2Proof.Machine

namespace Sys2Proof

open Sys2Proof.Machine

/-- Refutes O44: the egress time of a frame is written back before the transmit opportunity is noted, and where the parameters bind a line
to a tile that does not exist that write reaches TS_PLCA: the opportunity noted is that of the node then named, not of the one that sent. -/
theorem not_frameTransmission : ¬ Obligations.FrameTransmission := by
  intro h
  obtain ⟨hsends, -⟩ := h strayTime 8 0 3 [] strayFrame .ic
  obtain ⟨⟨-, hsegment⟩, -⟩ := hsends strayTime_plain (by decide +kernel) (by decide +kernel) (by decide +kernel)
  obtain ⟨-, hnode, -⟩ := hsegment (by decide) (by decide) (by decide +kernel) (by decide +kernel)
  have hcounts := hnode (by decide +kernel) (Or.inl (by decide +kernel))
  have hnine : nodeAfter (exec (.frameTransmit 8) strayTime) = some (strayTime.fld .TS_PLCA 0 15 12 + 1) := by
    rw [show exec (.frameTransmit 8) strayTime = _ from hcounts]
    exact congrArg (fun x : Nat × Nat => some x.1) (Tab.get_set_self _ _ _ _)
  rw [strayTime_counts_from] at hnine
  exact absurd hnine (by decide +kernel)

end Sys2Proof
end

section
/-! SUPPORT. CAN frames, ACF batches, bus-off recovery (R347, R348, R357). -/

namespace Sys2Proof.Machine

open Sys2Proof

/-! ### The channel's counters and what a received frame leaves -/

theorem reg_raise (s : State) (core src : Nat) (l : RegKind) (j : Nat) (hh : ∀ i < 8, l.addr j ≠ RegKind.HINT_PEND.addr i)
    (hf : ∀ i < 4, l.addr j ≠ RegKind.FHINT_PEND.addr i) : (s.raise core src).reg l j = s.reg l j := by
  unfold State.raise
  split_ifs with hc hr hc2
  · rfl
  · exact reg_setReg_of_ne _ _ _ _ _ _ (hh core hc)
  · exact reg_setReg_of_ne _ _ _ _ _ _ (hf (core - 8) (by omega))
  · rfl

/-- The registers that a CAN channel's state and the F-die network interrupt leave. -/
def CanLeaves (l : RegKind) (j : Nat) : Prop := l.addr j ≠ RegKind.FNET_INT_STAT.addr 0 ∧ (∀ c < 8, l.addr j ≠ RegKind.CN_STAT.addr c) ∧
  (∀ i < 8, l.addr j ≠ RegKind.HINT_PEND.addr i) ∧ ∀ i < 4, l.addr j ≠ RegKind.FHINT_PEND.addr i

theorem reg_fnetInt (s : State) (b : Nat) {l : RegKind} {j : Nat} (h : CanLeaves l j) : (s.fnetInt b).reg l j = s.reg l j := by
  obtain ⟨hstat, -, hh, hf⟩ := h
  unfold State.fnetInt State.raiseStat
  dsimp only
  split
  · exact (reg_raise _ _ _ _ _ hh hf).trans (reg_setReg_of_ne _ _ _ _ _ _ hstat)
  · exact reg_setReg_of_ne _ _ _ _ _ _ hstat

theorem reg_canBus (s : State) (ch : Fin 8) (tec : Nat) {l : RegKind} {j : Nat} (h : CanLeaves l j) : (s.canBus ch tec).reg l j = s.reg l j := by
  have hne := h.2.1 ch ch.isLt
  have hset (n m : Nat) : ((s.setFld .CN_STAT ch 7 0 n).setFld .CN_STAT ch 13 12 m).reg l j = s.reg l j :=
    (reg_setReg_of_ne _ _ _ _ _ _ hne).trans (reg_setReg_of_ne _ _ _ _ _ _ hne)
  unfold State.canBus
  dsimp only
  rw [apply_ite (State.reg · l j), reg_fnetInt _ _ h, hset, ite_self]

theorem net_canBus (s : State) (ch tec : Nat) : (s.canBus ch tec).net = s.net := by
  unfold State.canBus
  dsimp only
  rw [apply_ite State.net, net_fnetInt]
  exact ite_self _

theorem reg_canGotEvent (s : State) (ch : Fin 8) (ok : Bool) {l : RegKind} {j : Nat} (h : CanLeaves l j) :
    (s.canGotEvent ch ok).reg l j = s.reg l j := by
  unfold State.canGotEvent
  dsimp only
  rw [apply_ite (State.reg · l j), reg_canBus _ _ _ h, ite_self]
  split <;> rfl

/-- The receive error count after a frame (ISO 11898-1). -/
def recAfter (ok : Bool) (r : Nat) : Nat := if ok then (if 127 < r then 127 else r - 1) else min 255 (r + 1)

theorem net_canGotEvent (s : State) (ch : Nat) (ok : Bool) : (s.canGotEvent ch ok).net =
    (let n := { s.net with canRec := Tab.set 0 ch (recAfter ok (Tab.get 0 s.net.canRec ch)) s.net.canRec }
     if ok ∧ ¬ s.bit .CN_CFG ch 7 then { n with canAcks := Tab.upd 0 ch (· + 1) n.canAcks } else n) := by
  unfold State.canGotEvent
  dsimp only
  rw [apply_ite State.net, net_canBus, ite_self, apply_ite State.net]
  rfl

theorem clock_canGotEvent (s : State) (ch : Nat) (ok : Bool) : (s.canGotEvent ch ok).clock = s.clock := by
  have hbus (t : State) (n : Nat) : (t.canBus ch n).clock = t.clock := by
    unfold State.canBus
    dsimp only
    rw [apply_ite State.clock, clock_fnetInt, ite_self]
    rfl
  unfold State.canGotEvent
  dsimp only
  rw [apply_ite State.clock, hbus, ite_self]
  split <;> rfl

theorem canAcks_heard (s : State) (ch : Nat) : Tab.get 0 (s.canGotEvent ch true).net.canAcks ch =
    Tab.get 0 s.net.canAcks ch + (if s.bit .CN_CFG ch 7 then 0 else 1) := by
  rw [net_canGotEvent]
  dsimp only
  cases h : s.bit .CN_CFG ch 7 with
  | true => rfl
  | false => exact Tab.get_upd_self _ _ _ _

theorem canRec_got (s : State) (ch : Nat) (ok : Bool) : Tab.get 0 (s.canGotEvent ch ok).net.canRec ch = recAfter ok (Tab.get 0 s.net.canRec ch) := by
  have hrec : (s.canGotEvent ch ok).net.canRec = Tab.set 0 ch (recAfter ok (Tab.get 0 s.net.canRec ch)) s.net.canRec := by
    rw [net_canGotEvent]
    dsimp only
    split <;> rfl
  rw [hrec, Tab.get_set_self]

/-! ### A received frame -/

theorem reg_received (s : State) (p n : Nat) (l : RegKind) (j : Nat) : (s.received p n).reg l j = s.reg l j := rfl

theorem gptpNs_received (s : State) (p n : Nat) : (s.received p n).gptpNs = s.gptpNs := rfl

section
variable {s : State} {ch : Fin 8} {f : CanFrame}

theorem canFrameReceive_bad (hact : s.portAct (14 + ch.val) = 2) (h : (f.ok && s.canFits ch f) = false) :
    exec (.canFrameReceive ch f) s = .next ((s.canGotEvent ch false).portTally (14 + ch.val) 2) := by
  show execCanFrameReceive ch f s = _
  unfold execCanFrameReceive
  dsimp only
  rw [if_neg (by rw [hact]; decide), if_neg (not_not.mpr hact), h, if_pos Bool.false_ne_true]

theorem canFrameReceive_good (hact : s.portAct (14 + ch.val) = 2) (h : (f.ok && s.canFits ch f) = true) :
    exec (.canFrameReceive ch f) s = .next
      (let a := (s.canGotEvent ch true).received (14 + ch.val) f.data.length
       if a.mustHold (14 + ch.val) then a.hold (14 + ch.val) (.can f a.gptpNs) else a.takeCan ch f a.gptpNs) := by
  show execCanFrameReceive ch f s = _
  unfold execCanFrameReceive
  dsimp only
  rw [if_neg (by rw [hact]; decide), if_neg (not_not.mpr hact), h, if_neg (not_not.mpr rfl)]
  rfl

end

/-- A CAN frame as it lies in a queue. -/
def rawCan (s : State) (ch : Nat) (f : CanFrame) (stamp : W64) : SwFrame :=
  { bytes := Config.canBytes f, port := 14 + ch, cls := s.fld .CN_CFG ch 10 8, stamp, can := some f }

theorem takeCan_off {s : State} {ch : Nat} {f : CanFrame} {stamp : W64} (h : s.computeReady = false) :
    s.takeCan ch f stamp = s.toIf (rawCan s ch f stamp) := if_pos (by rw [h]; exact Bool.false_ne_true)

theorem takeCan_stray {s : State} {ch : Nat} {f : CanFrame} {stamp : W64} (h : s.computeReady = true) (hentry : s.canEntry ch f.ident.toNat = none) :
    s.takeCan ch f stamp = s.canPolicy ch (rawCan s ch f stamp) := by
  refine (if_neg (not_not.mpr h)).trans ?_
  rw [hentry]
  rfl

theorem takeCan_bridged {s : State} {ch i : Nat} {f : CanFrame} {stamp : W64} (h : s.computeReady = true)
    (hentry : s.canEntry ch f.ident.toNat = some i) (hpresent : Tab.get false s.net.present i = true) (hlink : rosLink (s.ros i) ≠ 0x7FF) :
    s.takeCan ch f stamp = if rosAction (s.ros i) = 2 then s else
      (if rosAction (s.ros i) = 1 then s.enterQueues { rawCan s ch f stamp with src := some i } [23] else s).acfAdd ch (rosLink (s.ros i)) i f := by
  refine (if_neg (not_not.mpr h)).trans ?_
  rw [hentry]
  dsimp only
  rw [if_pos hpresent, if_neg hlink]
  rfl

/-- What the policy for unknown partners makes of a CAN frame (R357). -/
theorem canPolicy_eq (s : State) (ch : Nat) (f : SwFrame) : s.canPolicy ch f = match s.fld .NSW_PCTL (14 + ch) 13 12 with
    | 0 => s.enterQueues f (if s.bit .NSW_CTRL 0 15 then [22] else ((upto 25).filter fun k => s.bit .NSW_PCTL k 15).filter fun k => k ≠ f.port)
    | 1 => s.enterQueues f [23]
    | 3 => s.dropTally (14 + ch) 4
    | _ => s := by
  have hflood : s.egress { f with bytes := [] } none =
      if s.bit .NSW_CTRL 0 15 then [22] else ((upto 25).filter fun k => s.bit .NSW_PCTL k 15).filter fun k => k ≠ f.port :=
    by
    refine if_congr (and_iff_right ?_) rfl rfl
    rw [List.getD_nil]
    decide
  unfold State.canPolicy
  rw [hflood] <;> rfl

theorem canLeaves_NSW_PCTL (k : Fin 25) : CanLeaves .NSW_PCTL k := by
  unfold CanLeaves
  revert k
  decide

theorem canLeaves_CN_CFG (ch : Fin 8) : CanLeaves .CN_CFG ch := by
  unfold CanLeaves
  revert ch
  decide

theorem canLeaves_NSW_CTRL : CanLeaves .NSW_CTRL 0 := by
  unfold CanLeaves
  decide

theorem canLeaves_SYS_STAT : CanLeaves .SYS_STAT 0 := by
  unfold CanLeaves
  decide

theorem canLeaves_ML_STAT : CanLeaves .ML_STAT 0 := by
  unfold CanLeaves
  decide

/-! ### Batches (R348) -/

/-- The messages collected for a destination go out in one frame. -/
def State.acfSent (s : State) (ch link : Nat) : State :=
  { s with net := { s.net with acf := Tab.set [] (2048 * ch + link) [] s.net.acf, acfSeq := Tab.upd 0 ch (fun q : Byte => q + 1) s.net.acfSeq } }

theorem acfFlush_eq {s : State} {ch link : Nat} {src : Option Nat} (h : s.acfOf ch link ≠ []) : s.acfFlush ch link src =
    (let b := s.ntscf ch link (s.acfOf ch link)
     if s.freeCells < cellsOf b then (s.acfSent ch link).dropTally (14 + ch) 5
     else (s.acfSent ch link).forward { bytes := b, port := 14 + ch, cls := s.fld .CN_CFG ch 10 8, stamp := s.gptpNs, src }) :=
  if_neg fun he => h (List.isEmpty_iff.mp he)

end Sys2Proof.Machine

namespace Sys2Proof

open Sys2Proof.Machine

/-- Settles O45. -/
theorem canFrames : Obligations.CanFrames := by
  intro s ch f link i p fits good heard a rec' raw flood e msgs
  have hfits : s.canFits ch f = true ↔ fits := by
    show State.canFits s ch f = true ↔ match f.fmt with
      | .classical => True
      | .fd => 1 ≤ s.fld .CN_CFG ch 14 13
      | .xl => 2 ≤ s.fld .CN_CFG ch 14 13
    unfold State.canFits
    cases f.fmt <;> simp
  have hgood : (f.ok && s.canFits ch f) = true ↔ good := (Bool.and_eq_true _ _).to_iff.trans (and_congr_right fun _ => hfits)
  have hreg {l : RegKind} {j : Nat} (h : CanLeaves l j) : a.reg l j = s.reg l j :=
    (reg_received heard p _ l j).trans (reg_canGotEvent s ch true h)
  have hready : a.computeReady = s.computeReady := congrArg (wbit · 14) (hreg canLeaves_SYS_STAT)
  have hup : a.linkUp = s.linkUp := congrArg (fun w => decide (wfld w 15 12 = 6)) (hreg canLeaves_ML_STAT)
  have hpctl (k : Fin 25) : a.reg .NSW_PCTL k = s.reg .NSW_PCTL k := hreg (canLeaves_NSW_PCTL k)
  have hpolicy : a.fld .NSW_PCTL p 13 12 = s.fld .NSW_PCTL p 13 12 := congrArg (wfld · 13 12) (hpctl ⟨14 + ch.val, by omega⟩)
  have hnet : a.net = (heard.received p f.data.length).net := rfl
  have hgptp : a.gptpNs = s.gptpNs :=
    (gptpNs_received heard p _).trans (congrArg (fun c => c.2.1) (clock_canGotEvent s ch true))
  have hraw : rawCan a ch f a.gptpNs = raw := by
    unfold rawCan
    rw [hgptp, show a.fld .CN_CFG ch 10 8 = s.fld .CN_CFG ch 10 8 from congrArg (wfld · 10 8) (hreg (canLeaves_CN_CFG ch))]
  have hroster : a.net.roster = s.net.roster ∧ a.net.present = s.net.present ∧ a.net.rxHeld = s.net.rxHeld := by
    show (s.canGotEvent ch true).net.roster = _ ∧ (s.canGotEvent ch true).net.present = _ ∧ (s.canGotEvent ch true).net.rxHeld = _
    rw [net_canGotEvent]
    dsimp only
    split <;> exact ⟨rfl, rfl, rfl⟩
  have hflood : (if a.bit .NSW_CTRL 0 15 then [22] else ((upto 25).filter fun k => a.bit .NSW_PCTL k 15).filter fun k => k ≠ raw.port) = flood := by
    have hports : ((upto 25).filter fun k => a.bit .NSW_PCTL k 15) = (upto 25).filter fun k => s.bit .NSW_PCTL k 15 :=
      List.filter_congr fun k hk => congrArg (wbit · 15) (hpctl ⟨k, List.mem_range.mp hk⟩)
    rw [hports, show a.bit .NSW_CTRL 0 15 = s.bit .NSW_CTRL 0 15 from congrArg (wbit · 15) (hreg canLeaves_NSW_CTRL)]
  have hmust : a.mustHold p = (s.computeReady && !s.linkUp) := by
    unfold State.mustHold
    rw [hready, hup, decide_eq_true (show 4 ≤ p by omega), decide_eq_true (show p < 22 by omega)]
    rfl
  refine ⟨fun hact => congrArg Host.Outcome.next (if_pos hact), fun hact hbad => canFrameReceive_bad hact (Bool.eq_false_of_not_eq_true fun h => hbad (hgood.mp h)),
    ⟨canRec_got s ch true, canRec_got s ch false, canAcks_heard s ch⟩, fun hact hg hc hl => ?_, fun hact hg hgo => ?_, fun hlive hmsgs => ?_,
    fun hbus hauto => congrArg Host.Outcome.next (if_pos ⟨hbus, hauto⟩)⟩
  · refine (canFrameReceive_good hact (hgood.mpr hg)).trans (congrArg Host.Outcome.next ((if_pos ?_).trans ?_))
    · rw [hmust, hc, hl]
      rfl
    · rw [hgptp]
  · have htake : exec (.canFrameReceive ch f) s = .next (a.takeCan ch f a.gptpNs) := by
      refine (canFrameReceive_good hact (hgood.mpr hg)).trans (congrArg Host.Outcome.next (if_neg ?_))
      rw [hmust]
      rcases hgo with h | h <;> simp [h]
    refine ⟨fun hc => ?_, fun hc hentry => ?_, fun hc hentry hpresent hlink => ?_⟩
    · rw [Goes, htake, takeCan_off (hready.trans hc), hraw]
    · have hstray : exec (.canFrameReceive ch f) s = .next (a.canPolicy ch raw) := by
        rw [htake, takeCan_stray (hready.trans hc) (by rw [← hentry]; unfold State.canEntry State.rosFind; rw [hroster.1]), hraw]
      rw [canPolicy_eq, hflood, hpolicy] at hstray
      refine ⟨fun hpol => ?_, fun hpol => ?_, fun hpol => ?_, fun hpol => ?_⟩
      all_goals
        rw [hpol] at hstray
        exact hstray
    · have hros : a.ros i = e := by
        unfold State.ros
        rw [hroster.1]
        rfl
      have hbridge : exec (.canFrameReceive ch f) s = .next (if rosAction e = 2 then a else
          (if rosAction e = 1 then a.enterQueues { raw with src := some i } [23] else a).acfAdd ch (rosLink e) i f) := by
        rw [htake, takeCan_bridged (i := i) (hready.trans hc) (by rw [← hentry]; unfold State.canEntry State.rosFind; rw [hroster.1])
          (by rw [hroster.2.1]; exact hpresent) (by rw [hros]; exact hlink), hros, hraw]
      refine ⟨fun hact => ?_, fun hact => ?_, fun hact => ?_⟩
      all_goals
        rw [hact] at hbridge
        exact hbridge
  · intro b bytes
    have hflush : exec (.acfBatchExpiry ch link) s = .next (s.acfFlush ch link.toNat none) := congrArg Host.Outcome.next (if_pos hlive)
    rw [acfFlush_eq hmsgs] at hflush
    exact ⟨fun hfull => hflush.trans (congrArg Host.Outcome.next (if_pos hfull)),
      fun hroom => hflush.trans (congrArg Host.Outcome.next (if_neg (Nat.not_lt.mpr hroom)))⟩

end Sys2Proof
end

section
/-! SUPPORT. A step of the clock whose correction drops an action of a joint that does not exist (R187, R191, R196, R349). -/

namespace Sys2Proof.Machine

open Sys2Proof

/-- The joint whose bit of JNT_DROP would be bit 15 of GPTP_STAT. -/
def strayJoint : Nat := (RegKind.GPTP_STAT.addr 0 - RegKind.JNT_DROP.addr 0) / 2 * 16 + 15

/-- A kind 7 course follows the clock, one of its joints lies ahead of it, and the dispatch queue is full of that joint's actions of this tick. -/
def strayDrop : State :=
  let regs := (({} : State).setReg .JNT_CFG 0 0x8800).setReg .JNT_POS_LO 0 1
  let followed := regs.setCourse 0 { regs.course 0 with running := true, state := .locked }
  { followed with
    lay := { followed.lay with params := setParam followed.lay.params 1034 7 }
    staging := Tab.set 0 (RegKind.GPTP_STEP.addr 0) 1 followed.staging
    dispatch := List.replicate 256 (strayJoint, 4, 0, 0, 0) }

/-- GPTP_STAT.STATE after a command. -/
def clockStateAfter (o : Host.Outcome State Fault Refusal) : Option Nat :=
  match o with
  | .next t => some (t.fld .GPTP_STAT 0 15 14)
  | _ => none

/-- The correction fires the joint, the full queue drops its last entry, and the mark of that entry's joint falls on GPTP_STAT. -/
theorem strayDrop_clockState : clockStateAfter (exec (.gptpStepApply 0) strayDrop) = some 2 := by decide +kernel

end Sys2Proof.Machine

namespace Sys2Proof

open Sys2Proof.Machine

/-- Refutes O46: a step of the clock corrects the kind 7 courses, which can fire a joint into a full dispatch queue; where the entry that
is dropped names a joint that does not exist its mark in JNT_DROP falls on GPTP_STAT, and the state shown is not the one that GPTP_CTL asks for. -/
theorem not_networkTime : ¬ Obligations.NetworkTime := by
  intro h
  obtain ⟨⟨t, hstep, -, hstate⟩, -⟩ := h strayDrop 0 0 0 0
  have hasked : clockStateAfter (exec (.gptpStepApply 0) strayDrop) =
      some (if strayDrop.fld .GPTP_CTL 0 14 13 = 3 then 0 else strayDrop.fld .GPTP_CTL 0 14 13) := by
    rw [show exec (.gptpStepApply 0) strayDrop = _ from hstep]
    exact congrArg some hstate
  rw [strayDrop_clockState] at hasked
  exact absurd hasked (by decide +kernel)

end Sys2Proof
end

section
/-! SUPPORT. Accesses to the tables of the switch (R355, R363). -/

namespace Sys2Proof.Machine

open Sys2Proof

/-! ### Words of an entry -/

/-- One more word above those of a number. -/
theorem or_word {n k : Nat} {x y : BitVec 128} (w : Word) (hx : x.toNat = n) (hn : n < 2 ^ k) (hk : k + 16 ≤ 128) (hy : y = w.setWidth 128 <<< k) :
    (x ||| y).toNat = n + 2 ^ k * w.toNat := by
  have hword : y.toNat = 2 ^ k * w.toNat := by
    have hlt : w.toNat < 2 ^ 128 := Nat.lt_trans w.isLt (by decide)
    have hsh : w.toNat * 2 ^ k < 2 ^ 128 := by
      calc w.toNat * 2 ^ k < 2 ^ 16 * 2 ^ k := Nat.mul_lt_mul_of_pos_right w.isLt (Nat.two_pow_pos k)
        _ = 2 ^ (k + 16) := by rw [Nat.pow_add, Nat.mul_comm]
        _ ≤ 2 ^ 128 := Nat.pow_le_pow_right (by decide) hk
    rw [hy, BitVec.toNat_shiftLeft, BitVec.toNat_setWidth, Nat.mod_eq_of_lt hlt, Nat.shiftLeft_eq, Nat.mod_eq_of_lt hsh, Nat.mul_comm]
  rw [BitVec.toNat_or, hx, hword, Nat.or_comm, ← Nat.two_pow_add_eq_or_of_lt hn, Nat.add_comm]

theorem dataEntry_eq (a b c d e f g h : Word) : dataEntry [a, b, c, d, e, f, g, h] =
    a.setWidth 128 ||| b.setWidth 128 <<< 16 ||| c.setWidth 128 <<< 32 ||| d.setWidth 128 <<< 48 ||| e.setWidth 128 <<< 64 ||| f.setWidth 128 <<< 80 |||
      g.setWidth 128 <<< 96 ||| h.setWidth 128 <<< 112 := by
  have h1 : (a.setWidth 128).toNat = a.toNat := by
    rw [BitVec.toNat_setWidth]
    exact Nat.mod_eq_of_lt (Nat.lt_trans a.isLt (by decide))
  have h2 := or_word b h1 a.isLt (by decide) rfl
  have h3 := or_word c h2 (k := 32) (by omega) (by decide) rfl
  have h4 := or_word d h3 (k := 48) (by omega) (by decide) rfl
  have h5 := or_word e h4 (k := 64) (by omega) (by decide) rfl
  have h6 := or_word f h5 (k := 80) (by omega) (by decide) rfl
  have h7 := or_word g h6 (k := 96) (by omega) (by decide) rfl
  have h8 := or_word h h7 (k := 112) (by omega) (by decide) rfl
  refine BitVec.eq_of_toNat_eq ?_
  rw [h8]
  unfold dataEntry
  simp only [List.foldr_cons, List.foldr_nil]
  rw [BitVec.toNat_ofNat]
  omega

theorem dataEntry_drop {l : List Word} (h : l.length = 9) : dataEntry (l.drop 1) =
    (l.getD 1 0).setWidth 128 ||| (l.getD 2 0).setWidth 128 <<< 16 ||| (l.getD 3 0).setWidth 128 <<< 32 ||| (l.getD 4 0).setWidth 128 <<< 48 |||
      (l.getD 5 0).setWidth 128 <<< 64 ||| (l.getD 6 0).setWidth 128 <<< 80 ||| (l.getD 7 0).setWidth 128 <<< 96 ||| (l.getD 8 0).setWidth 128 <<< 112 := by
  match l, h with
  | [_, a, b, c, d, e, f, g, k], _ => exact dataEntry_eq a b c d e f g k

theorem entWord_eq (e : BitVec 128) (i : Nat) : BitVec.ofNat 16 (entFld e (2 * i) 2) = (e >>> (16 * i)).setWidth 16 := by
  refine BitVec.eq_of_toNat_eq ?_
  rw [BitVec.toNat_ofNat, BitVec.toNat_setWidth, BitVec.toNat_ushiftRight]
  unfold entFld
  rw [show 8 * (2 * i) = 16 * i by omega]
  exact Nat.mod_mod _ _

/-- A masked entry holds no more in a field than its mask. -/
theorem entFld_and_le (e m : BitVec 128) (i n : Nat) : entFld (e &&& m) i n ≤ entFld m i n := by
  unfold entFld
  rw [BitVec.toNat_and, Nat.shiftRight_and_distrib, Nat.and_mod_two_pow]
  exact Nat.and_le_right

/-- Bytes cleared from byte 8 on leave those below. -/
theorem entPut_zero_low (e : BitVec 128) {i n : Nat} (hi : 8 ≤ i) : (entPut e i n 0).toNat % 2 ^ 64 = e.toNat % 2 ^ 64 := by
  have hpow : 2 ^ (8 * i) = 2 ^ (8 * (i - 8)) * 2 ^ 64 := by
    rw [← Nat.pow_add]
    exact congrArg (2 ^ ·) (by omega)
  have hle : entFld e i n * 2 ^ (8 * i) ≤ e.toNat := by
    unfold entFld
    rw [Nat.shiftRight_eq_div_pow]
    exact Nat.le_trans (Nat.mul_le_mul_right _ (Nat.mod_le _ _)) (Nat.div_mul_le_self _ _)
  unfold entPut
  rw [Nat.zero_mod, Nat.zero_mul, Nat.add_zero, BitVec.toNat_ofNat, Nat.mod_mod_of_dvd _ (by exact ⟨2 ^ 64, by decide⟩)]
  rw [hpow, ← Nat.mul_assoc] at hle ⊢
  rw [Nat.mul_comm _ (2 ^ 64)] at hle ⊢
  exact Nat.sub_mul_mod hle

theorem entFld_of_low {e e' : BitVec 128} (h : e.toNat % 2 ^ 64 = e'.toNat % 2 ^ 64) : entFld e 0 4 = entFld e' 0 4 ∧ entFld e 4 4 = entFld e' 4 4 := by
  unfold entFld
  rw [Nat.shiftRight_eq_div_pow, Nat.shiftRight_eq_div_pow, Nat.shiftRight_eq_div_pow, Nat.shiftRight_eq_div_pow]
  constructor <;> omega

/-! ### The end of an access -/

/-- NSW_TBL_STAT after an access that was served. -/
def State.accessDone (s : State) : State := (s.setBit .NSW_TBL_STAT 0 15 false).setBit .NSW_TBL_STAT 0 14 true

theorem nswTableDone_exec {s : State} {v : Word} (h : s.net.access = some v) : exec .nswTableDone s = .next
    (State.tableDone { s with net := { s.net with access := none, accessData := [] } } v ((s.net.accessData.getD 0 0).toNat % 4096)
      (s.net.accessData.drop 1)) := by
  show execNswTableDone s = _
  unfold execNswTableDone
  rw [h]

theorem tableDone_write {s : State} {v : Word} {ix : Nat} {d : List Word} (h : wbit v 14 = true) : s.tableDone v ix d =
    match s.tableWrite (wfld v 12 9) ix (wfld v 8 6) (dataEntry d) with
    | some t => t.accessDone
    | none => s.accessDone.setBit .NSW_TBL_STAT 0 13 true := by
  refine (if_pos h).trans ?_
  cases s.tableWrite (wfld v 12 9) ix (wfld v 8 6) (dataEntry d) <;> rfl

/-- The data words of an entry that was read. -/
def State.putData (s : State) (e : BitVec 128) : State :=
  (upto 8).foldl (fun s i => s.setReg .NSW_TBL_D i (BitVec.ofNat 16 (entFld e (2 * i) 2))) s

theorem tableDone_read {s : State} {v : Word} {ix : Nat} {d : List Word} (h : wbit v 14 = false) : s.tableDone v ix d =
    match s.tableRead (wfld v 12 9) ix (wfld v 8 6) with
    | (none, t) => t.accessDone.setBit .NSW_TBL_STAT 0 13 true
    | (some e, t) =>
      let u := t.putData e
      State.accessDone (if wbit v 13 ∧ wfld v 12 9 = 8 then { u with net := { u.net with counters := Tab.set 0 ix 0 u.net.counters } } else u) := by
  refine (if_neg (by rw [h]; exact Bool.false_ne_true)).trans ?_
  rcases s.tableRead (wfld v 12 9) ix (wfld v 8 6) with ⟨_ | e, t⟩ <;> rfl

/-- A read leaves all but the free values. -/
theorem tableRead_only (s : State) (sel ix part : Nat) : (s.tableRead sel ix part).2 = s ∨
    ((s.tableRead sel ix part).1 ≠ none ∧ (s.tableRead sel ix part).2 = { s with fresh := s.fresh + 1 }) := by
  unfold State.tableRead
  split
  · split_ifs
    · exact Or.inl rfl
    · dsimp only
      split
      · exact Or.inl rfl
      · exact Or.inr ⟨Option.some_ne_none _, rfl⟩
  case h_10 => exact Or.inl rfl
  all_goals
    split_ifs <;> exact Or.inl rfl

theorem tableRead_net (s : State) (sel ix part : Nat) : (s.tableRead sel ix part).2.net = s.net := by
  rcases tableRead_only s sel ix part with h | ⟨-, h⟩
  · rw [h]
  · rw [h]

theorem addr_NSW_TBL_D_ne : ∀ i < 8, RegKind.NSW_TBL_D.addr i ≠ RegKind.NSW_TBL_STAT.addr 0 := by decide

theorem addr_NSW_TBL_D_inj {i j : Nat} (h : i ≠ j) : RegKind.NSW_TBL_D.addr i ≠ RegKind.NSW_TBL_D.addr j := by
  unfold RegKind.addr
  have hstride : RegKind.NSW_TBL_D.stride = 2 := rfl
  rw [hstride]
  omega

theorem reg_putData (s : State) (e : BitVec 128) {i : Nat} (hi : i < 8) : (s.putData e).reg .NSW_TBL_D i = (e >>> (16 * i)).setWidth 16 := by
  have hfold : ∀ n ≤ 8, i < n →
      ((upto n).foldl (fun (s : State) i => s.setReg .NSW_TBL_D i (BitVec.ofNat 16 (entFld e (2 * i) 2))) s).reg .NSW_TBL_D i = (e >>> (16 * i)).setWidth 16 := by
    intro n hn
    induction n with
    | zero => exact fun h => absurd h (Nat.not_lt_zero _)
    | succ n ih =>
      intro hin
      rw [upto_succ, List.foldl_append, List.foldl_cons, List.foldl_nil]
      by_cases h : i = n
      · rw [h, reg_setReg, entWord_eq]
      · rw [reg_setReg_of_ne _ _ _ _ _ _ (addr_NSW_TBL_D_inj h)]
        exact ih (by omega) (by omega)
  exact hfold 8 (le_refl 8) hi

theorem putData_net (s : State) (e : BitVec 128) : (s.putData e).net = s.net := by
  refine List.foldlRecOn (motive := fun t : State => t.net = s.net) (upto 8) _ rfl fun t ht i _ => ?_
  exact ht

theorem accessDone_parts (s : State) : s.accessDone.net = s.net ∧ s.accessDone.bit .NSW_TBL_STAT 0 14 = true ∧ s.accessDone.bit .NSW_TBL_STAT 0 15 = false ∧
    ∀ i < 8, s.accessDone.reg .NSW_TBL_D i = s.reg .NSW_TBL_D i := by
  refine ⟨rfl, bit_setBit_self _ _ _ _ _ (by decide), ?_, fun i hi => ?_⟩
  · exact (bit_setBit_of_ne_bit _ _ _ _ _ _ (by decide) (by decide)).trans (bit_setBit_self _ _ _ _ _ (by decide))
  · exact (reg_setReg_of_ne _ _ _ _ _ _ (addr_NSW_TBL_D_ne i hi)).trans (reg_setReg_of_ne _ _ _ _ _ _ (addr_NSW_TBL_D_ne i hi))

/-! ### What the tables refuse and take -/

theorem table_beyond {sel ix : Nat} (h : tableSizes.getD sel 0 ≤ ix) (s : State) (part : Nat) (d : BitVec 128) :
    (s.tableRead sel ix part).1 = none ∧ s.tableWrite sel ix part d = none := by
  unfold State.tableRead State.tableWrite
  match sel, h with
  | 0, h | 1, h | 2, h | 3, h | 4, h | 5, h | 6, h | 7, h | 8, h =>
    simp only [tableSizes, List.getD_cons_zero, List.getD_cons_succ] at h
    simp [h]
  | n + 9, _ => exact ⟨rfl, rfl⟩

theorem rosterMask_fields (d : BitVec 128) (part : Nat) : entFld (tableMask 0 part d) 10 4 / 2 ^ 27 = 0 := by
  unfold tableMask
  split_ifs <;> decide

theorem tableWrite_roster {s t : State} {ix part : Nat} {d : BitVec 128} (h : s.tableWrite 0 ix part d = some t) :
    t.ros ix = d &&& tableMask 0 part d ∧ (∀ k, k ≠ ix → t.ros k = s.ros k) ∧ rosKind d ≤ 3 ∧ rosAction d ≠ 3 := by
  have hwrite : s.tableWrite 0 ix part d = if 1024 ≤ ix ∨ ¬ rosterOk d = true then none else
      some { s.setRos ix (d &&& tableMask 0 part d) with
        net := { (s.setRos ix (d &&& tableMask 0 part d)).net with present := Tab.set false ix false s.net.present } } := rfl
  rw [hwrite] at h
  split at h
  · exact absurd h (by simp)
  · next hno =>
    push Not at hno
    obtain ⟨-, hok⟩ := hno
    unfold rosterOk at hok
    simp only [Bool.and_eq_true, decide_eq_true_iff] at hok
    obtain ⟨⟨⟨hkind, haction⟩, -⟩, -⟩ := hok
    rw [← Option.some.inj h]
    exact ⟨Tab.get_set_self _ _ _ _, fun k hk => Tab.get_set_of_ne _ hk _ _, hkind, haction⟩

theorem tableWrite_queue {s t : State} {ix part : Nat} {d : BitVec 128} (h : s.tableWrite 2 ix part d = some t) :
    t.qMin ix = entFld d 0 4 ∧ t.qMax ix = entFld d 4 4 := by
  simp only [State.tableWrite] at h
  split at h
  · exact absurd h (by simp)
  · rw [← Option.some.inj h]
    unfold State.qMin State.qMax
    rw [Tab.get_set_self]
    refine entFld_of_low ((entPut_zero_low _ (by decide)).trans ?_)
    split
    · rfl
    · exact entPut_zero_low _ (by decide)

theorem tableRead_counter {s : State} {ix part : Nat} (hix : ix < 3360) : (s.tableRead 8 ix part).1 = some ((Tab.get 0 s.net.counters ix).setWidth 128) := by
  have hread : s.tableRead 8 ix part = if 3360 ≤ ix then (none, s) else (some ((Tab.get 0 s.net.counters ix).setWidth 128), s) := rfl
  rw [hread, if_neg (Nat.not_le.mpr hix)]

end Sys2Proof.Machine

namespace Sys2Proof

open Sys2Proof.Machine

/-- Settles O47. -/
theorem switchTables : Obligations.SwitchTables := by
  intro s v sel ix part d l data begun sel' part' ended ok at' word entry
  refine ⟨fun hgo hfree hlive => ?_, fun hacc hdata hlen => ?_, fun h => table_beyond h s part d, fun _ t h => ?_, fun _ t h => tableWrite_queue h, ?_, ?_⟩
  · have hbegin : s.writeTblCmd v = begun := by
      refine if_neg ?_
      rw [hgo, hfree, hlive]
      decide
    exact ⟨congrArg Host.Outcome.next hbegin, congrArg Host.Outcome.next hbegin, congrArg Host.Outcome.next hbegin⟩
  · have hexec : exec .nswTableDone s = .next (ended.tableDone v at' (l.drop 1)) := by
      rw [nswTableDone_exec hacc, hdata]
    have hentry : dataEntry (l.drop 1) = entry := dataEntry_drop hlen
    refine ⟨fun hw hno => hexec.trans (congrArg Host.Outcome.next ?_), fun t hw hyes => hexec.trans (congrArg Host.Outcome.next ?_),
      fun hr hno => hexec.trans (congrArg Host.Outcome.next ?_), fun x hr hyes => ⟨_, hexec, ?_⟩⟩
    · rw [tableDone_write hw, hentry, show ended.tableWrite (wfld v 12 9) at' (wfld v 8 6) entry = none from hno] <;> rfl
    · rw [tableDone_write hw, hentry, show ended.tableWrite (wfld v 12 9) at' (wfld v 8 6) entry = some t from hyes] <;> rfl
    · have hread : ended.tableRead sel' at' part' = (none, ended) := by
        rcases tableRead_only ended sel' at' part' with h | ⟨h, -⟩
        · exact Prod.ext hno h
        · exact absurd hno h
      rw [tableDone_read hr, show ended.tableRead (wfld v 12 9) at' (wfld v 8 6) = (none, ended) from hread] <;> rfl
    · have hread : ended.tableRead (wfld v 12 9) at' (wfld v 8 6) = (some x, (ended.tableRead sel' at' part').2) := Prod.ext hyes rfl
      rw [tableDone_read hr, hread]
      dsimp only
      generalize hu : (ended.tableRead sel' at' part').2 = t
      have hnet : (t.putData x).net = ended.net := by
        rw [putData_net, ← hu]
        exact tableRead_net _ _ _ _
      have hroster : (t.putData x).net.roster = s.net.roster := by rw [hnet]
      have hcounters : (t.putData x).net.counters = s.net.counters := by rw [hnet]
      have hdata' (y : State) (hy : y.regs = (t.putData x).regs) : ∀ i < 8, y.reg .NSW_TBL_D i = (x >>> (16 * i)).setWidth 16 := by
        intro i hi
        rw [← reg_putData t x hi, State.reg, State.reg, hy]
      generalize hy : (if wbit v 13 = true ∧ wfld v 12 9 = 8 then
        ({ t.putData x with net := { (t.putData x).net with counters := Tab.set 0 at' 0 (t.putData x).net.counters } } : State) else t.putData x) = y
      obtain ⟨dnet, ddone, dbusy, dword⟩ := accessDone_parts y
      have hyregs : y.regs = (t.putData x).regs := by
        rw [← hy]
        split <;> rfl
      have hynet : y.net.roster = s.net.roster ∧
          y.net.counters = if wbit v 13 = true ∧ sel' = 8 then Tab.set 0 at' 0 s.net.counters else s.net.counters := by
        rw [← hy]
        split_ifs with hclear
        · exact ⟨hroster, congrArg (Tab.set 0 at' 0) hcounters⟩
        · exact ⟨hroster, hcounters⟩
      exact ⟨fun i hi => (dword i hi).trans (hdata' y hyregs i hi), ddone, dbusy, dnet ▸ hynet.1, dnet ▸ hynet.2⟩
  · obtain ⟨hros, hother, hkind, haction⟩ := tableWrite_roster h
    refine ⟨hros, ?_, hother, hkind, haction⟩
    rw [hros]
    refine Nat.le_zero.mp (le_trans (Nat.div_le_div_right (entFld_and_le _ _ _ _)) ?_)
    rw [rosterMask_fields d part]
  · rintro rfl
    rfl
  · intro x hix hread
    exact (Option.some.inj ((tableRead_counter hix).symm.trans hread)).symm

end Sys2Proof
end

section
/-! SUPPORT. Port states (R173, R359, R360). -/

namespace Sys2Proof.Machine

open Sys2Proof

theorem reg_freeFrame (s : State) (id : Nat) (l : RegKind) (j : Nat) : (s.freeFrame id).reg l j = s.reg l j := by
  unfold State.freeFrame
  split <;> rfl

/-! ### What the network's interrupts leave -/

/-- The registers that port states, links and their interrupts do not share: neither NSW_PSTAT nor an interrupt register. -/
def NetLeaves (l : RegKind) (j : Nat) : Prop := (∀ p < 25, l.addr j ≠ RegKind.NSW_PSTAT.addr p) ∧ l.addr j ≠ RegKind.NSW_INT_STAT.addr 0 ∧
  l.addr j ≠ RegKind.FNET_INT_STAT.addr 0 ∧ (∀ i < 8, l.addr j ≠ RegKind.HINT_PEND.addr i) ∧ ∀ i < 4, l.addr j ≠ RegKind.FHINT_PEND.addr i

section
variable {l : RegKind} {j : Nat} (h : NetLeaves l j)
include h

theorem NetLeaves.raise (s : State) (core src : Nat) : (s.raise core src).reg l j = s.reg l j := reg_raise s core src l j h.2.2.2.1 h.2.2.2.2

theorem NetLeaves.netInt (s : State) (b : Nat) : (s.netInt b).reg l j = s.reg l j := by
  obtain ⟨-, hstat, -⟩ := id h
  unfold State.netInt State.raiseStat
  dsimp only
  split_ifs
  · exact (h.raise _ _ _).trans (reg_setReg_of_ne _ _ _ _ _ _ hstat)
  · exact reg_setReg_of_ne _ _ _ _ _ _ hstat
  · rfl

theorem NetLeaves.fnetInt (s : State) (b : Nat) : (s.fnetInt b).reg l j = s.reg l j := by
  obtain ⟨-, -, hstat, -⟩ := id h
  unfold State.fnetInt State.raiseStat
  dsimp only
  split_ifs
  · exact (h.raise _ _ _).trans (reg_setReg_of_ne _ _ _ _ _ _ hstat)
  · exact reg_setReg_of_ne _ _ _ _ _ _ hstat

theorem NetLeaves.dropTally (s : State) (p n : Nat) : (s.dropTally p n).reg l j = s.reg l j := by
  unfold State.dropTally
  dsimp only
  split
  · exact (h.fnetInt _ _).trans (h.netInt _ _)
  · exact h.netInt _ _

theorem NetLeaves.setUp (s : State) {p : Nat} (hp : p < 25) (up : Bool) (speed : Nat) : (s.setUp p up speed).reg l j = s.reg l j := by
  have hstat : (if s.switchLive then (s.setBit .NSW_PSTAT p 15 up).setFld .NSW_PSTAT p 14 12 speed else s).reg l j = s.reg l j := by
    split
    · exact (reg_setReg_of_ne _ _ _ _ _ _ (h.1 p hp)).trans (reg_setReg_of_ne _ _ _ _ _ _ (h.1 p hp))
    · rfl
  unfold State.setUp
  dsimp only
  rw [apply_ite (State.reg · l j), h.fnetInt, ite_self, apply_ite (State.reg · l j), h.netInt, ite_self]
  exact hstat

theorem NetLeaves.flushPort (s : State) (p : Nat) : (s.flushPort p).reg l j = s.reg l j := by
  refine List.foldlRecOn (motive := fun t : State => t.reg l j = s.reg l j) (upto 8) _ rfl fun t ht k _ => ?_
  refine List.foldlRecOn (motive := fun u : State => u.reg l j = s.reg l j) (t.swQueue (8 * p + k)) _ ht fun u hu id _ => ?_
  exact (reg_freeFrame _ _ _ _).trans ((h.dropTally _ _ _).trans hu)

end

/-! ### The registers of a port -/

/-- The status register of a port with a request (R359). -/
def portStat (p : Nat) : RegKind × Nat :=
  if p < 4 then (.BPHY_PSTAT, p) else if p < 8 then (.MT_STAT, p - 4) else if p < 14 then (.TS_STAT, p - 8) else (.CN_STAT, p - 14)

theorem portAct_eq {p : Nat} (hp : p < 22) (s : State) : s.portAct p = s.fld (portStat p).1 (portStat p).2 15 14 := by
  unfold State.portAct portStat
  split_ifs <;> rfl

theorem setAct_eq {p : Nat} (hp : p < 22) (s : State) (v : Nat) : s.setAct p v = s.setFld (portStat p).1 (portStat p).2 15 14 v := by
  unfold State.setAct portStat
  split_ifs <;> rfl

theorem portReq_eq {p : Nat} (hp : p < 22) (s : State) : s.portReq p = s.bit (portCfg p).1 (portCfg p).2 15 := by
  unfold State.portReq portCfg
  split_ifs <;> rfl

theorem netLeaves_portStat : ∀ p < 22, NetLeaves (portStat p).1 (portStat p).2 := by
  unfold NetLeaves
  decide +kernel

theorem netLeaves_portCfg : ∀ p < 22, NetLeaves (portCfg p).1 (portCfg p).2 := by
  unfold NetLeaves
  decide +kernel

theorem addr_portCfg_ne : ∀ p < 22, (portCfg p).1.addr (portCfg p).2 ≠ (portStat p).1.addr (portStat p).2 := by decide +kernel

/-! ### Transitions -/

section
variable {s : State} {p : Nat}

theorem portSync_starts (hact : s.portAct p = 0) (hreq : s.portReq p = true) (hready : p < 4 ∨ 8 ≤ p ∨ s.computeReady = true) :
    s.portSync p = if p < 4 then ((s.setAct p 1).setFld .BPHY_PSTAT p 13 11 1).setBit .BPHY_PSTAT p 10 false else s.setAct p 1 := by
  unfold State.portSync
  rw [hact, hreq]
  refine if_neg ?_
  rintro ⟨h4, h8, hno⟩
  rcases hready with h | h | h
  · omega
  · omega
  · exact hno h

theorem portSync_stops (hact : s.portAct p = 2) (hreq : s.portReq p = false) : s.portSync p =
    (let s1 := ((s.setAct p 3).setUp p false 0).flushPort p
     if p < 4 then s1.setFld .BPHY_PSTAT p 13 8 0
     else if p < 8 then s1.setFld .MT_STAT (p - 4) 13 10 0
     else if p < 14 then s1.setBit .TS_STAT (p - 8) 13 false
     else s1) := by
  unfold State.portSync
  rw [hact, hreq] <;> rfl

theorem portSync_of_on (hact : s.portAct p = 2) (hreq : s.portReq p = true) : s.portSync p = s := by
  unfold State.portSync
  rw [hact, hreq] <;> rfl

theorem portSync_of_off (hact : s.portAct p = 0) (hreq : s.portReq p = false) : s.portSync p = s := by
  unfold State.portSync
  rw [hact, hreq] <;> rfl

theorem portSync_of_moving (hact : s.portAct p = 1 ∨ s.portAct p = 3) : s.portSync p = s := by
  unfold State.portSync
  rcases hact with h | h
  · rw [h] <;> rfl
  · rw [h] <;> rfl

theorem portSync_of_unready (hact : s.portAct p = 0) (h4 : 4 ≤ p) (h8 : p < 8) (hready : s.computeReady = false) : s.portSync p = s := by
  cases hreq : s.portReq p with
  | false => exact portSync_of_off hact hreq
  | true =>
    unfold State.portSync
    rw [hact, hreq]
    exact if_pos ⟨h4, h8, by rw [hready]; exact Bool.false_ne_true⟩

end

/-- A write of a port's configuration register. -/
theorem portEnableRequest_exec {s : State} {p : Fin 25} (hp : p.val < 22) (hlive : 4 ≤ p.val ∨ s.switchLive = true) (v : Word) :
    exec (.portEnableRequest p v) s = .next ((s.wrote (portCfg p).1 (portCfg p).2 v).portSync p) := by
  refine congrArg Host.Outcome.next ((if_neg fun h => hlive.elim (fun h4 => absurd h.1 (Nat.not_lt.mpr h4)) h.2).trans ?_)
  unfold State.writePortCfg portCfg
  split_ifs <;> rfl

/-! ### What a transition leaves of its port's registers -/

theorem wfld_putBit_of_out (w : Word) (b : Nat) (v : Bool) {hi lo : Nat} (hb : b < 16) (h : b < lo ∨ hi < b) : wfld (putBit w b v) hi lo = wfld w hi lo := by
  refine Nat.eq_of_testBit_eq fun j => ?_
  have hbit := wbit_putBit w b (lo + j) v hb
  rw [wbit, wbit, BitVec.getLsbD, BitVec.getLsbD] at hbit
  rw [wfld_eq, wfld_eq, Nat.testBit_mod_two_pow, Nat.testBit_mod_two_pow, Nat.testBit_div_two_pow, Nat.testBit_div_two_pow, Nat.add_comm j lo, hbit]
  by_cases hj : j < hi + 1 - lo
  · rw [if_neg (by omega)]
  · simp [hj]

section
variable {p : Nat} (hp : p < 22)
include hp

theorem portAct_setAct (s : State) {v : Nat} (hv : v < 4) : (s.setAct p v).portAct p = v := by
  rw [portAct_eq hp, setAct_eq hp, State.fld, State.setFld, reg_setReg, wfld_putFld _ _ _ _ (by decide) (by decide)]
  exact Nat.mod_eq_of_lt hv

theorem portReq_setAct (s : State) (v : Nat) : (s.setAct p v).portReq p = s.portReq p := by
  rw [portReq_eq hp, portReq_eq hp, setAct_eq hp]
  exact bit_setReg_of_ne _ _ _ _ _ _ (addr_portCfg_ne p hp)

theorem portAct_setFld_low (s : State) {k : RegKind} {i hi : Nat} (hk : portStat p = (k, i)) (lo n : Nat) (hlo : lo ≤ hi) (hhi : hi < 14) :
    (s.setFld k i hi lo n).portAct p = s.portAct p := by
  rw [portAct_eq hp, portAct_eq hp, hk, State.fld, State.setFld, reg_setReg, wfld_putFld_of_disjoint _ _ _ _ _ _ hlo (by omega) (Or.inr hhi)] <;> rfl

theorem portAct_setBit_low (s : State) {k : RegKind} {i b : Nat} (hk : portStat p = (k, i)) (v : Bool) (hb : b < 14) :
    (s.setBit k i b v).portAct p = s.portAct p := by
  rw [portAct_eq hp, portAct_eq hp, hk, State.fld, State.setBit, reg_setReg, wfld_putBit_of_out _ _ _ (by omega) (Or.inl hb)] <;> rfl

theorem portReq_setReg_stat (s : State) {k : RegKind} {i : Nat} (hk : portStat p = (k, i)) (v : Word) : (s.setReg k i v).portReq p = s.portReq p := by
  rw [portReq_eq hp, portReq_eq hp]
  refine bit_setReg_of_ne _ _ _ _ _ _ ?_
  have hne := addr_portCfg_ne p hp
  rw [hk] at hne
  exact hne

theorem portAct_of_reg {s t : State} (h : t.reg (portStat p).1 (portStat p).2 = s.reg (portStat p).1 (portStat p).2) : t.portAct p = s.portAct p := by
  rw [portAct_eq hp, portAct_eq hp, State.fld, State.fld, h]

theorem portReq_of_reg {s t : State} (h : t.reg (portCfg p).1 (portCfg p).2 = s.reg (portCfg p).1 (portCfg p).2) : t.portReq p = s.portReq p := by
  rw [portReq_eq hp, portReq_eq hp, State.bit, State.bit, h]

theorem portAct_setUp (s : State) (up : Bool) (speed : Nat) : (s.setUp p up speed).portAct p = s.portAct p :=
  portAct_of_reg hp ((netLeaves_portStat p hp).setUp s (by omega) up speed)

theorem portReq_setUp (s : State) (up : Bool) (speed : Nat) : (s.setUp p up speed).portReq p = s.portReq p :=
  portReq_of_reg hp ((netLeaves_portCfg p hp).setUp s (by omega) up speed)

theorem portAct_fnetInt (s : State) (b : Nat) : (s.fnetInt b).portAct p = s.portAct p := portAct_of_reg hp ((netLeaves_portStat p hp).fnetInt s b)

theorem portReq_fnetInt (s : State) (b : Nat) : (s.fnetInt b).portReq p = s.portReq p := portReq_of_reg hp ((netLeaves_portCfg p hp).fnetInt s b)

theorem portAct_flushPort (s : State) (q : Nat) : (s.flushPort q).portAct p = s.portAct p := portAct_of_reg hp ((netLeaves_portStat p hp).flushPort s q)

theorem portReq_flushPort (s : State) (q : Nat) : (s.flushPort q).portReq p = s.portReq p := portReq_of_reg hp ((netLeaves_portCfg p hp).flushPort s q)

end

/-! ### The end of a start and of a stop -/

section
variable {s : State} {p : Fin 25} (hact : s.portAct p = 1) (hreq : s.portReq p = true)
include hact hreq

theorem portStartDone_ts (h8 : 8 ≤ p.val) (h14 : p.val < 14) (ok : Bool) (sp : BitVec 3) :
    let on := (s.setAct p 2).setBit .TS_STAT (p - 8) 13 (s.bit .TS_CFG (p - 8) 14 && (ok || s.fld .TS_PLCA (p - 8) 15 12 = 0))
    exec (.portStartDone p ok sp) s =
      .next (State.setUp { on with net := { on.net with plca := Tab.set (0, 0) (p - 8) (0, s.ticks) s.net.plca } } p true 1) := by
  intro on
  have hp : p.val < 22 := by omega
  have hk : portStat p = (.TS_STAT, p.val - 8) := by
    unfold portStat
    rw [if_neg (by omega), if_neg (by omega), if_pos h14]
  have hset := setAct_eq hp s 2
  have hticks : on.ticks = s.ticks := by
    show (s.setAct p 2).ticks = s.ticks
    rw [hset] <;> rfl
  have hplca : on.net.plca = s.net.plca := by
    show (s.setAct p 2).net.plca = s.net.plca
    rw [hset] <;> rfl
  have hon : (State.setUp { on with net := { on.net with plca := Tab.set (0, 0) (p - 8) (0, s.ticks) s.net.plca } } p true 1).portAct p = 2 := by
    rw [portAct_setUp hp]
    refine (portAct_of_reg (s := on) hp ?_).trans ((portAct_setBit_low (b := 13) hp _ hk _ (by decide)).trans (portAct_setAct hp s (by decide)))
    rfl
  have hstill : (State.setUp { on with net := { on.net with plca := Tab.set (0, 0) (p - 8) (0, s.ticks) s.net.plca } } p true 1).portReq p = true := by
    rw [portReq_setUp hp]
    refine (portReq_of_reg (s := on) hp ?_).trans ((portReq_setReg_stat hp _ hk _).trans ((portReq_setAct hp s 2).trans hreq))
    rfl
  refine congrArg Host.Outcome.next ((if_neg (not_or.mpr ⟨not_not.mpr hact, by omega⟩)).trans ((if_pos ⟨h8, h14⟩).trans ?_))
  refine Eq.trans ?_ (portSync_of_on hon hstill)
  show (State.setUp { on with net := { on.net with plca := Tab.set (0, 0) (p.val - 8) (0, on.ticks) on.net.plca } } p true 1).portSync p = _
  rw [hticks, hplca]

theorem portStartDone_can (h14 : 14 ≤ p.val) (hp : p.val < 22) (sp : BitVec 3) :
    exec (.portStartDone p true sp) s = .next ((((s.setAct p 2).setFld .CN_STAT (p - 14) 13 12 0).setUp p true 0).fnetInt 3) := by
  have hk : portStat p = (.CN_STAT, p.val - 14) := by
    unfold portStat
    rw [if_neg (by omega), if_neg (by omega), if_neg (by omega)]
  have hon : ((((s.setAct p 2).setFld .CN_STAT (p - 14) 13 12 0).setUp p true 0).fnetInt 3).portAct p = 2 := by
    rw [portAct_fnetInt hp, portAct_setUp hp, portAct_setFld_low hp _ hk _ _ (by decide) (by decide), portAct_setAct hp _ (by decide)]
  have hstill : ((((s.setAct p 2).setFld .CN_STAT (p - 14) 13 12 0).setUp p true 0).fnetInt 3).portReq p = true := by
    rw [portReq_fnetInt hp, portReq_setUp hp]
    exact (portReq_setReg_stat hp _ hk _).trans ((portReq_setAct hp s 2).trans hreq)
  refine congrArg Host.Outcome.next ((if_neg (not_or.mpr ⟨not_not.mpr hact, by omega⟩)).trans ((if_neg (by omega)).trans ((if_neg ?_).trans
    ((if_neg (by omega)).trans (portSync_of_on hon hstill)))))
  exact not_or.mpr ⟨not_not.mpr rfl, by omega⟩

theorem portStartDone_mt (h4 : 4 ≤ p.val) (h8 : p.val < 8) (sp : BitVec 3) :
    let r := s.fld .MT_CFG (p - 4) 14 13
    let rate := if r = 3 then min 2 (sp.toNat - 2) else r
    exec (.portStartDone p true sp) s = .next (((((s.setAct p 2).setBit .MT_STAT (p - 4) 13 true).setFld .MT_STAT (p - 4) 12 11 rate).setBit .MT_STAT
      (p - 4) 10 (s.bit .MT_CFG (p - 4) 12)).setUp p true (rate + 2)) := by
  intro r rate
  have hp : p.val < 22 := by omega
  have hk : portStat p = (.MT_STAT, p.val - 4) := by
    unfold portStat
    rw [if_neg (by omega), if_pos h8]
  have hr : r < 4 := wfld_lt _ 14 13
  have hrate : (if r < 3 then r else min 2 (sp.toNat - 2)) = rate := by
    show _ = if r = 3 then min 2 (sp.toNat - 2) else r
    split_ifs <;> omega
  have hon : (((((s.setAct p 2).setBit .MT_STAT (p - 4) 13 true).setFld .MT_STAT (p - 4) 12 11 rate).setBit .MT_STAT
      (p - 4) 10 (s.bit .MT_CFG (p - 4) 12)).setUp p true (rate + 2)).portAct p = 2 := by
    rw [portAct_setUp hp, portAct_setBit_low hp _ hk _ (by decide), portAct_setFld_low hp _ hk _ _ (by decide) (by decide),
      portAct_setBit_low hp _ hk _ (by decide), portAct_setAct hp _ (by decide)]
  have hstill : (((((s.setAct p 2).setBit .MT_STAT (p - 4) 13 true).setFld .MT_STAT (p - 4) 12 11 rate).setBit .MT_STAT
      (p - 4) 10 (s.bit .MT_CFG (p - 4) 12)).setUp p true (rate + 2)).portReq p = true := by
    rw [portReq_setUp hp]
    exact (portReq_setReg_stat hp _ hk _).trans ((portReq_setReg_stat hp _ hk _).trans ((portReq_setReg_stat hp _ hk _).trans
      ((portReq_setAct hp s 2).trans hreq)))
  refine congrArg Host.Outcome.next ((if_neg (not_or.mpr ⟨not_not.mpr hact, by omega⟩)).trans ((if_neg (by omega)).trans ((if_neg ?_).trans
    ((if_pos h8).trans ?_))))
  · exact not_or.mpr ⟨not_not.mpr rfl, by omega⟩
  · dsimp only
    rw [show (if s.fld .MT_CFG (p.val - 4) 14 13 < 3 then s.fld .MT_CFG (p.val - 4) 14 13 else min 2 (sp.toNat - 2)) = rate from hrate]
    exact portSync_of_on hon hstill

theorem portStartDone_fails (hp : p.val < 22) (h : p.val < 8 ∨ 14 ≤ p.val) (sp : BitVec 3) : exec (.portStartDone p false sp) s = .next s :=
  congrArg Host.Outcome.next ((if_neg (not_or.mpr ⟨not_not.mpr hact, by omega⟩)).trans ((if_neg (by omega)).trans
    ((if_pos (Or.inl Bool.false_ne_true)).trans (if_pos hreq))))

end

section
variable {s : State} {p : Fin 25} (hact : s.portAct p = 3) (hreq : s.portReq p = false)
include hact hreq

theorem portStopDone_frames (h14 : p.val < 14) : exec (.portStopDone p) s = .next ((s.setAct p 0).flushPort p) := by
  have hp : p.val < 22 := by omega
  have hoff : ((s.setAct p 0).flushPort p).portAct p = 0 := by rw [portAct_flushPort hp, portAct_setAct hp _ (by decide)]
  have hstill : ((s.setAct p 0).flushPort p).portReq p = false := by rw [portReq_flushPort hp, portReq_setAct hp, hreq]
  refine congrArg Host.Outcome.next ((if_neg (not_not.mpr hact)).trans ?_)
  dsimp only
  rw [if_neg (show ¬ (14 ≤ p.val ∧ p.val < 22) by omega)]
  exact portSync_of_off hoff hstill

theorem portStopDone_can (h14 : 14 ≤ p.val) (hp : p.val < 22) :
    exec (.portStopDone p) s = .next (((s.setAct p 0).flushPort p).setFld .CN_STAT (p - 14) 13 0 0x3000) := by
  have hk : portStat p = (.CN_STAT, p.val - 14) := by
    unfold portStat
    rw [if_neg (by omega), if_neg (by omega), if_neg (by omega)]
  have hoff : (((s.setAct p 0).flushPort p).setFld .CN_STAT (p - 14) 13 0 0x3000).portAct p = 0 := by
    rw [portAct_setFld_low hp _ hk _ _ (by decide) (by decide), portAct_flushPort hp, portAct_setAct hp _ (by decide)]
  have hstill : (((s.setAct p 0).flushPort p).setFld .CN_STAT (p - 14) 13 0 0x3000).portReq p = false := by
    refine (portReq_setReg_stat hp _ hk _).trans ?_
    rw [portReq_flushPort hp, portReq_setAct hp, hreq]
  refine congrArg Host.Outcome.next ((if_neg (not_not.mpr hact)).trans ?_)
  dsimp only
  rw [if_pos (show 14 ≤ p.val ∧ p.val < 22 from ⟨h14, hp⟩)]
  exact portSync_of_off hoff hstill

end

theorem ports : Sys2Proof.Rules.Ports := by
  intro s p ok sp v m hp a req
  refine ⟨fun hlive hact hreq hready => (portEnableRequest_exec hp hlive v).trans (congrArg Host.Outcome.next (portSync_starts hact hreq hready)),
    fun hlive h => (portEnableRequest_exec hp hlive v).trans (congrArg Host.Outcome.next ?_), fun hact hreq h14 => ?_, fun hact hreq h8 h14 => ?_,
    fun hact hreq => ⟨fun h8 h14 => portStartDone_ts hact hreq h8 h14 ok sp, fun h14 => portStartDone_can hact hreq h14 hp sp,
      fun h4 h8 => portStartDone_mt hact hreq h4 h8 sp, fun h => portStartDone_fails hact hreq hp h sp⟩,
    fun hact hreq h14 => portStopDone_frames hact hreq h14, fun hact hreq h14 => portStopDone_can hact hreq h14 hp,
    fun hact => congrArg Host.Outcome.next (if_pos hact)⟩
  · rcases h with ⟨hact, hreq⟩ | ⟨hact, hreq⟩ | hact | hact | ⟨hact, h4, h8, hready⟩
    · exact portSync_of_on hact hreq
    · exact portSync_of_off hact hreq
    · exact portSync_of_moving (Or.inl hact)
    · exact portSync_of_moving (Or.inr hact)
    · exact portSync_of_unready hact h4 h8 hready
  · refine (portEnableRequest_exec hp (Or.inl (by omega)) v).trans (congrArg Host.Outcome.next ((portSync_stops hact hreq).trans ?_))
    exact (if_neg (by omega)).trans ((if_neg (by omega)).trans (if_neg (by omega)))
  · refine (portEnableRequest_exec hp (Or.inl (by omega)) v).trans (congrArg Host.Outcome.next ((portSync_stops hact hreq).trans ?_))
    exact (if_neg (by omega)).trans ((if_neg (by omega)).trans (if_pos h14))

end Sys2Proof.Machine
end

section
/-! SUPPORT. Backbone links (R338 to R343). -/

namespace Sys2Proof.Machine

open Sys2Proof

theorem lane_setLane (s : State) (l : Nat) (x : Lane) : (s.setLane l x).lane l = x := Tab.get_set_self _ _ _ _

/-! ### Training begins -/

/-- The taps of a lane at its first preset (R365). -/
def State.firstTap (s : State) (l : Nat) : Tap := { preset := max 1 (s.fld .BPHY_LCTL l 13 12) }

/-- Training begins with the taps that another state of the registers gives. -/
def State.trained (u s : State) (p : Nat) : State := [2 * p, 2 * p + 1].foldl (fun s l =>
  (s.setBit .BPHY_LSTAT l 14 false).setLane l { pre := u.firstTap l, main := u.firstTap l, post := u.firstTap l }) (s.setFld .BPHY_PSTAT p 13 11 2)

theorem netLeaves_LCTL : ∀ l < 8, NetLeaves .BPHY_LCTL l := by
  unfold NetLeaves
  decide

theorem addr_LCTL_ne : ∀ l < 8, (∀ m < 8, RegKind.BPHY_LCTL.addr l ≠ RegKind.BPHY_LSTAT.addr m) ∧
    ∀ p < 4, RegKind.BPHY_LCTL.addr l ≠ RegKind.BPHY_PSTAT.addr p := by decide

theorem bpTrain_eq {u s : State} {p : Nat} (hp : p < 4) (h : ∀ l < 8, s.reg .BPHY_LCTL l = u.reg .BPHY_LCTL l) : s.bpTrain p = u.trained s p := by
  have hstat (t : State) {l : Nat} (hl : l < 8) (n : Nat) : (t.setFld .BPHY_PSTAT p 13 11 n).reg .BPHY_LCTL l = t.reg .BPHY_LCTL l :=
    reg_setReg_of_ne _ _ _ _ _ _ ((addr_LCTL_ne l hl).2 p hp)
  have hlane (t : State) {l m : Nat} (hl : l < 8) (hm : m < 8) (x : Lane) : ((t.setBit .BPHY_LSTAT m 14 false).setLane m x).reg .BPHY_LCTL l = t.reg .BPHY_LCTL l :=
    reg_setReg_of_ne _ _ _ _ _ _ ((addr_LCTL_ne l hl).1 m hm)
  have htap (t : State) {l : Nat} (hl : l < 8) (ht : t.reg .BPHY_LCTL l = u.reg .BPHY_LCTL l) : ({ preset := t.firstPreset l } : Tap) = u.firstTap l := by
    unfold State.firstPreset State.firstTap State.fld
    rw [ht]
  unfold State.bpTrain State.trained
  simp only [List.foldl_cons, List.foldl_nil]
  rw [htap _ (by omega) ((hstat s (by omega) 2).trans (h (2 * p) (by omega)))]
  rw [htap _ (by omega) ((hlane _ (by omega) (by omega) _).trans ((hstat s (by omega) 2).trans (h (2 * p + 1) (by omega))))]

/-! ### Lanes -/

theorem usable_two {s : State} {p : Nat} (htwo : s.bit .BPHY_PCFG p 14 = true) (h0 : s.bit .BPHY_LCTL (2 * p) 15 = false)
    (h1 : s.bit .BPHY_LCTL (2 * p + 1) 15 = false) : s.usable p = [2 * p, 2 * p + 1] := by
  unfold State.usable
  rw [if_pos htwo]
  simp [h0, h1]

theorem usable_one {s : State} {p : Nat} (hone : s.bit .BPHY_PCFG p 14 = false) (h0 : s.bit .BPHY_LCTL (2 * p) 15 = false) : s.usable p = [2 * p] := by
  unfold State.usable
  rw [if_neg (by rw [hone]; exact Bool.false_ne_true)]
  simp [h0]

theorem laneReady_iff (s : State) (l : Nat) : s.laneReady l = true ↔ s.bit .BPHY_LSTAT l 14 = true ∧ (s.lane l).peerReady = true := by
  unfold State.laneReady
  exact (Bool.and_eq_true _ _).to_iff

theorem noneReady {s : State} {p : Nat} (h : ∀ l ∈ s.usable p, ¬ (s.bit .BPHY_LSTAT l 14 = true ∧ (s.lane l).peerReady = true)) :
    (s.usable p).filter s.laneReady = [] :=
  List.filter_eq_nil_iff.mpr fun l hl hr => h l hl ((laneReady_iff s l).mp hr)

/-! ### The events of a link -/

section
variable {s : State} {p : Fin 4} (hlive : s.switchLive = true)
include hlive

theorem bpSignal_exec (hst : s.bpLink p = 1) (hl : s.usable p ≠ []) : exec (.bpLinkEvent p .signal) s =
    .next ((s.usable p).foldl (fun s l => s.setBit .BPHY_LSTAT l 15 true) ((s.setBit .BPHY_PSTAT p 10 false).bpTrain p)) := by
  refine congrArg Host.Outcome.next ((if_neg (not_not.mpr hlive)).trans ?_)
  rw [hst]
  exact if_neg fun h => hl (List.isEmpty_iff.mp h)

theorem bpReady_exec (hst : s.bpLink p = 2) : exec (.bpLinkEvent p .ready) s =
    .next (if (s.usable p).isEmpty ∨ ¬ (s.usable p).all s.laneReady then s else s.bpAlign p (s.usable p)) := by
  refine congrArg Host.Outcome.next ((if_neg (not_not.mpr hlive)).trans ?_)
  rw [hst] <;> rfl

theorem bpAligned_exec (hst : s.bpLink p = 3) (hreq : s.bit .BPHY_PCFG p 15 = true) : exec (.bpLinkEvent p .aligned) s =
    .next (((s.setFld .BPHY_PSTAT p 13 11 4).setAct p 2).setUp p true (s.bpSpeed p)) := by
  have hp : p.val < 22 := by omega
  have hk : portStat p = (.BPHY_PSTAT, p.val) := if_pos p.isLt
  have hon : (((s.setFld .BPHY_PSTAT p 13 11 4).setAct p 2).setUp p true (s.bpSpeed p)).portAct p = 2 := by
    rw [portAct_setUp hp, portAct_setAct hp _ (by decide)]
  have hstill : (((s.setFld .BPHY_PSTAT p 13 11 4).setAct p 2).setUp p true (s.bpSpeed p)).portReq p = true := by
    rw [portReq_setUp hp, portReq_setAct hp]
    refine (portReq_setReg_stat hp _ hk _).trans ?_
    rw [portReq_eq hp, show portCfg p = (.BPHY_PCFG, p.val) from if_pos p.isLt]
    exact hreq
  refine congrArg Host.Outcome.next ((if_neg (not_not.mpr hlive)).trans ?_)
  rw [hst]
  exact portSync_of_on hon hstill

theorem bpLost_slow (hst : s.bpLink p = 4) (hslow : s.bit .BPHY_PSTAT p 10 = true) : exec (.bpLinkEvent p .lost) s =
    .next ((((s.portTally p 22).setAct p 1).setUp p false 0).bpTrain p) := by
  refine congrArg Host.Outcome.next ((if_neg (not_not.mpr hlive)).trans ?_)
  rw [hst]
  exact if_pos hslow

theorem bpTrainTimeout_exec (hst : s.bpLink p = 2) (hready : (s.usable p).filter s.laneReady = []) : exec (.bpTrainTimeout p) s =
    .next (if ¬ s.bit .BPHY_PSTAT p 10 ∧ s.bit .BPHY_PCFG p 13 then (s.degrade p).bpTrain p
      else ((s.setFld .BPHY_PSTAT p 13 11 1).portTally p 23).netInt 6) := by
  refine congrArg Host.Outcome.next ((if_neg (not_or.mpr ⟨not_not.mpr hlive, not_not.mpr hst⟩)).trans (if_neg ?_))
  exact not_not.mpr hready

end

theorem frameSeen_of_own {s : State} {l : Nat} {f : TrainFrame} (h : s.bit .BPHY_LCTL l 14 = false) : s.frameSeen l f = f :=
  if_neg (by rw [show s.laneLoop l = false from h]; exact Bool.false_ne_true)

/-! ### Codewords -/

section
variable {s : State} {lane : Fin 8} {errs frames : Nat} {cw : Codeword} (hlive : s.switchLive = true)
  (hst : 3 ≤ s.fld .BPHY_PSTAT (lane.val / 2) 13 11)
include hlive hst

theorem codewordReceive_corrected (hloop : s.bit .BPHY_LCTL lane 14 = false) (herrs : errs ≤ 15) : exec (.codewordReceive lane errs frames cw) s =
    .next ((s.portTally (lane.val / 2) 19 errs).laneTakes lane cw) := by
  refine congrArg Host.Outcome.next ((if_neg (not_or.mpr ⟨not_not.mpr hlive, Nat.not_lt.mpr hst⟩)).trans ((if_pos herrs).trans ?_))
  rw [show s.laneLoop lane = false from hloop] <;> rfl

theorem codewordReceive_spoilt (herrs : 15 < errs)
    (hfew : s.fld .BPHY_PSTAT (lane.val / 2) 13 11 ≠ 4 ∨ (s.uncNow (lane.val / 2)).length < s.fld .BPHY_PCFG (lane.val / 2) 7 0) :
    exec (.codewordReceive lane errs frames cw) s = .next
      (let a := State.portTally { s with net := { s.net with spoilt := Tab.upd 0 (lane.val / 2) (max frames) s.net.spoilt } } (lane.val / 2) 20
       { a with net := { a.net with unc := Tab.set [] (lane.val / 2) (s.ticks :: s.uncNow (lane.val / 2)) a.net.unc } }) := by
  refine congrArg Host.Outcome.next ((if_neg (not_or.mpr ⟨not_not.mpr hlive, Nat.not_lt.mpr hst⟩)).trans ((if_neg (Nat.not_le.mpr herrs)).trans (if_neg ?_)))
  rintro ⟨hup, hmany⟩
  rcases hfew with h | h
  · exact h hup
  · rw [List.length_cons] at hmany
    omega

end

theorem laneSends_eq {s : State} {l t0 : Nat} (h : (s.lane l).sendFrom = some t0) : s.laneSends l = some
    (if (s.sfSlot l t0).1 = 0 then .align (BitVec.ofNat 3 l) (BitVec.ofNat 16 (s.sfSlot l t0).2)
     else if (s.sfSlot l t0).1 ≤ 425 then
       .data (if Tab.get 0 s.net.laneMap (l / 2) = 3 then 2 * (425 * (s.sfSlot l t0).2 + (s.sfSlot l t0).1 - 1) + l % 2
         else 425 * (s.sfSlot l t0).2 + (s.sfSlot l t0).1 - 1)
     else if (s.sfSlot l t0).1 ≤ 427 then
       .status (BitVec.ofNat 16 (s.uncNow (l / 2)).length) (s.bit .BPHY_PSTAT (l / 2) 10) (Tab.get 0 s.net.laneMap (l / 2))
     else .fill) := by
  unfold State.laneSends
  rw [h] <;> rfl

theorem links : Sys2Proof.Rules.Links := by
  intro s p lane f errs frames cw hlive st two first fallen ready slow mayDegrade lp recent gone
  have hfallen (t : State) (h : ∀ l < 8, t.reg .BPHY_LCTL l = s.reg .BPHY_LCTL l) : t.bpTrain p = fallen t p := bpTrain_eq p.isLt h
  have hpstat (t : State) (v : Word) : ∀ l < 8, (t.setReg .BPHY_PSTAT p v).reg .BPHY_LCTL l = t.reg .BPHY_LCTL l :=
    fun l hl => reg_setReg_of_ne _ _ _ _ _ _ ((addr_LCTL_ne l hl).2 p p.isLt)
  refine ⟨fun hst htwo h0 h1 => ?_, fun hst hone h0 hr => ?_, fun hst htwo h0 h1 hno => ?_, fun hst hreq => ?_, fun hst hslow => ?_,
    fun hst hno hslow hdeg => ?_, fun hst hno hor => ?_, fun hst => ?_, ?_, fun hst hloop => ⟨fun herrs => ?_, fun herrs hfew => ?_⟩, fun t0 hfrom => ?_⟩
  · have hus := usable_two htwo h0 h1
    rw [Goes, bpSignal_exec hlive hst (by rw [hus]; exact List.cons_ne_nil _ _), hus, hfallen (s.setBit .BPHY_PSTAT p 10 false) (hpstat s _)] <;> rfl
  · have hus := usable_one hone h0
    refine ⟨s.draw.1, (bpReady_exec hlive hst).trans (congrArg Host.Outcome.next ?_)⟩
    rw [hus, if_neg (by simp [(laneReady_iff s (2 * p)).mpr hr])]
    have hmap : mapOf p [2 * p.val] = 1 := by
      unfold mapOf
      simp [b2n]
    unfold State.bpAlign
    rw [hmap] <;> rfl
  · refine (bpReady_exec hlive hst).trans (congrArg Host.Outcome.next (if_pos (Or.inr fun hall => ?_)))
    rw [usable_two htwo h0 h1, List.all_cons, List.all_cons, List.all_nil, Bool.and_true, Bool.and_eq_true] at hall
    exact hno.elim (fun h => h ((laneReady_iff s _).mp hall.1)) fun h => h ((laneReady_iff s _).mp hall.2)
  · refine (bpAligned_exec hlive hst hreq).trans (congrArg (fun n => Host.Outcome.next (((s.setFld .BPHY_PSTAT p 13 11 4).setAct p 2).setUp p true n)) ?_)
    unfold State.bpSpeed
    dsimp only
    split <;> exact Nat.add_comm _ _
  · refine (bpLost_slow hlive hst hslow).trans (congrArg Host.Outcome.next (hfallen _ fun l hl => ?_))
    rw [(netLeaves_LCTL l hl).setUp _ (by omega), setAct_eq (by omega), show portStat p = (.BPHY_PSTAT, p.val) from if_pos p.isLt]
    exact hpstat _ _ l hl
  · refine (bpTrainTimeout_exec hlive hst (noneReady hno)).trans (congrArg Host.Outcome.next ((if_pos ⟨?_, hdeg⟩).trans (hfallen _ ?_)))
    · intro l hl
      exact ((netLeaves_LCTL l hl).netInt _ _).trans (hpstat _ _ l hl)
    · rw [show s.bit .BPHY_PSTAT p 10 = false from hslow]
      exact Bool.false_ne_true
  · refine (bpTrainTimeout_exec hlive hst (noneReady hno)).trans (congrArg Host.Outcome.next (if_neg ?_))
    rintro ⟨hfast, hdeg⟩
    rcases hor with h | h
    · exact hfast h
    · rw [show s.bit .BPHY_PCFG p 13 = false from h] at hdeg
      exact Bool.false_ne_true hdeg
  · refine congrArg Host.Outcome.next ((if_pos ⟨hlive, hst⟩).trans ?_)
    rw [hfallen s fun _ _ => rfl]
  · intro rate x ask hst hmem hloop
    have hcont : (s.usable lp).contains lane.val = true := List.contains_iff_mem.mpr hmem
    have hseen : s.frameSeen lane f = f := frameSeen_of_own hloop
    refine ⟨fun hbad => congrArg Host.Outcome.next (if_pos ?_), fun hcrc hrate => congrArg Host.Outcome.next ((if_neg ?_).trans ?_)⟩
    · rw [hseen]
      rcases hbad with h | h
      · exact Or.inr (Or.inr (Or.inl (by rw [h]; exact Bool.false_ne_true)))
      · exact Or.inr (Or.inr (Or.inr (Or.inr h)))
    · rw [hseen]
      rintro (h | h | h | h | h)
      · exact h hlive
      · exact h hst
      · exact h hcrc
      · exact h hcont
      · exact h hrate
    · have hask (t : Tap) (r : TapReq) : t.asked r = ask t r := by
        cases r <;> rfl
      dsimp only
      rw [hseen, hask, hask, hask]
  · refine ⟨fun n c hcw => ?_, fun h d m hcw => ?_, fun hcw => ?_⟩
    · rw [Goes, codewordReceive_corrected hlive hst hloop herrs, hcw] <;> rfl
    · rw [Goes, codewordReceive_corrected hlive hst hloop herrs, hcw] <;> rfl
    · rw [Goes, codewordReceive_corrected hlive hst hloop herrs]
      rcases hcw with h | ⟨n, h⟩ <;> rw [h] <;> rfl
  · exact codewordReceive_spoilt hlive hst herrs hfew
  · intro n slot d lanes
    have hslot : s.sfSlot lane t0 = (slot, n / 448) := rfl
    have hsends := laneSends_eq hfrom
    rw [hslot] at hsends
    dsimp only at hsends
    refine ⟨fun h => ?_, fun h0 h => ?_, fun h => ⟨BitVec.ofNat 16 (s.uncNow (lane.val / 2)).length, s.bit .BPHY_PSTAT (lane.val / 2) 10, ?_⟩, fun h => ?_⟩
    · rw [hsends, if_pos h]
    · rw [hsends, if_neg (by omega), if_pos (by omega)]
    · rw [hsends, if_neg (by omega), if_neg (by omega), if_pos (by omega)]
    · rw [hsends, if_neg (by omega), if_neg (by omega), if_neg (by omega)]

end Sys2Proof.Machine

namespace Sys2Proof

open Sys2Proof.Machine

/-- Settles O48. -/
theorem portsAndLinks : Obligations.PortsAndLinks := ⟨ports, links⟩

end Sys2Proof
end

section
/-! SUPPORT. Flits of the Mortar link (R368 to R373): what a slot carries, and what a received flit does. -/

namespace Sys2Proof.Machine

open Sys2Proof

theorem link_setLink (s : State) (d : Dir) (l : LinkDir) : (s.setLink d l).link d = l := by
  cases d <;> rfl

theorem link_setLink_other (s : State) (d : Dir) (l : LinkDir) : (s.setLink (otherDir d) l).link d = s.link d := by
  cases d <;> rfl

theorem moves_of_up {s : State} (d : Dir) (h : s.linkUp = true) : s.moves d = true := by
  unfold State.moves
  rw [h, Bool.true_or]

theorem checkSlot_iff (l : LinkDir) : l.checkSlot = true ↔ l.slots % 4096 = 4095 := decide_eq_true_iff

theorem ready_iff (l : LinkDir) (c : Nat) : l.ready c = true ↔ Tab.get [] l.queues c ≠ [] ∧ 0 < Tab.get 32 l.credits c := by
  simp [LinkDir.ready]

/-! ### The payload of a LINK flit (log entry 54) -/

theorem foldl_four (g : Nat → Nat) : (upto 4).foldl (fun a c => a + g c) 0 = g 0 + g 1 + g 2 + g 3 := by
  rw [show upto 4 = [0, 1, 2, 3] from rfl]
  simp only [List.foldl_cons, List.foldl_nil, Nat.zero_add]

theorem given_sum (r : LinkDir) : (upto 4).foldl (fun a c => a + (Tab.get 0 r.given c).toNat * 2 ^ (16 + 8 * c)) 0 =
    (Tab.get 0 r.given 0).toNat * 2 ^ (16 + 8 * 0) + (Tab.get 0 r.given 1).toNat * 2 ^ (16 + 8 * 1) +
      (Tab.get 0 r.given 2).toNat * 2 ^ (16 + 8 * 2) + (Tab.get 0 r.given 3).toNat * 2 ^ (16 + 8 * 3) := foldl_four _

theorem linkPayload_toNat (r : LinkDir) : r.linkPayload.toNat = (r.expect - 1).toNat + 2 ^ 8 * (b2n r.report + 2 ^ 8 * ((Tab.get 0 r.given 0).toNat +
    2 ^ 8 * ((Tab.get 0 r.given 1).toNat + 2 ^ 8 * ((Tab.get 0 r.given 2).toNat + 2 ^ 8 * (Tab.get 0 r.given 3).toNat)))) := by
  have hreport : b2n r.report ≤ 1 := by cases r.report <;> decide
  have hnested (x b g0 g1 g2 g3 : Nat) : x + b * 2 ^ 8 + (g0 * 2 ^ (16 + 8 * 0) + g1 * 2 ^ (16 + 8 * 1) + g2 * 2 ^ (16 + 8 * 2) +
      g3 * 2 ^ (16 + 8 * 3)) = x + 2 ^ 8 * (b + 2 ^ 8 * (g0 + 2 ^ 8 * (g1 + 2 ^ 8 * (g2 + 2 ^ 8 * g3)))) := by ring
  have hx := (r.expect - 1).isLt
  have h0 := (Tab.get 0 r.given 0).isLt
  have h1 := (Tab.get 0 r.given 1).isLt
  have h2 := (Tab.get 0 r.given 2).isLt
  have h3 := (Tab.get 0 r.given 3).isLt
  rw [LinkDir.linkPayload, given_sum, hnested, BitVec.toNat_ofNat, Nat.mod_eq_of_lt]
  exact Nat.lt_of_lt_of_le (m := 2 ^ 48) (by omega) (Nat.pow_le_pow_right (by decide) (by decide))

/-- A LINK flit tells the last good sequence number, whether a failure is reported, and what each channel gave back. -/
theorem linkPayload_says (r : LinkDir) : r.linkPayload.setWidth 8 = r.expect - 1 ∧ r.linkPayload.getLsbD 8 = r.report ∧
    ∀ c < 4, (r.linkPayload >>> (16 + 8 * c)).setWidth 8 = Tab.get (0 : Byte) r.given c := by
  have hx := (r.expect - 1).isLt
  have h0 := (Tab.get 0 r.given 0).isLt
  have h1 := (Tab.get 0 r.given 1).isLt
  have h2 := (Tab.get 0 r.given 2).isLt
  have h3 := (Tab.get 0 r.given 3).isLt
  refine ⟨?_, ?_, ?_⟩
  · apply BitVec.eq_of_toNat_eq
    rw [BitVec.toNat_setWidth, linkPayload_toNat, Nat.add_mul_mod_self_left, Nat.mod_eq_of_lt hx]
  · rw [BitVec.getLsbD, Nat.testBit_eq_decide_div_mod_eq, linkPayload_toNat, Nat.add_mul_div_left _ _ (by decide), Nat.div_eq_of_lt hx]
    cases r.report <;> simp [b2n] <;> omega
  · have hreport : b2n r.report ≤ 1 := by cases r.report <;> decide
    have hbyte (c : Nat) : ((r.linkPayload >>> (16 + 8 * c)).setWidth 8).toNat = r.linkPayload.toNat / 2 ^ (16 + 8 * c) % 2 ^ 8 := by
      rw [BitVec.toNat_setWidth, BitVec.toNat_ushiftRight, Nat.shiftRight_eq_div_pow]
    intro c hc
    apply BitVec.eq_of_toNat_eq
    rw [hbyte, linkPayload_toNat]
    match c, hc with
    | 0, _ => omega
    | 1, _ => omega
    | 2, _ => omega
    | 3, _ => omega

/-! ### What a slot carries (R369, R371) -/

theorem sendLink_eq (s : State) (d : Dir) : s.sendLink d =
    (s.setLink (otherDir d) { s.link (otherDir d) with report := false, owed := false }).setLink d
      ({ s.link d with wire := some (Flit.encode { ty := 2, ch := 0, payload := (s.link (otherDir d)).linkPayload }) }.slot none) := by
  unfold State.sendLink
  dsimp only
  rw [link_setLink_other]

/-- A slot that is not one of the CHECK flits, while flits move and no failure is to be reported. -/
theorem flitSend_quiet {s : State} {d : Dir} (hm : s.moves d = true) (hslot : (s.link d).slots % 4096 ≠ 4095)
    (hreport : (s.link (otherDir d)).report = false) :
    exec (.flitSend d) s = .next (match (s.link d).resend with
      | f :: rest => s.setLink d ({ s.link d with resend := rest, wire := some f.encode }.slot none)
      | [] => match (s.link d).pick with
        | some ch => s.setLink d (((s.link d).sendNew ch).slot (some ch))
        | none =>
          if (s.link (otherDir d)).owed then s.sendLink d
          else s.setLink d ({ s.link d with wire := some (Flit.encode { ty := 0, ch := 0, payload := 0 }) }.slot none)) := by
  have hgo : ¬ (¬ s.moves d = true ∨ (s.link d).checkSlot = true) := fun h => h.elim (fun h => h hm) fun h => hslot ((checkSlot_iff _).mp h)
  refine congrArg Host.Outcome.next ((if_neg hgo).trans ((if_neg ?_).trans rfl))
  rw [hreport]
  exact Bool.false_ne_true

/-- A failure is reported before anything else is sent. -/
theorem flitSend_report {s : State} {d : Dir} (hm : s.moves d = true) (hslot : (s.link d).slots % 4096 ≠ 4095)
    (hreport : (s.link (otherDir d)).report = true) : exec (.flitSend d) s = .next (s.sendLink d) := by
  have hgo : ¬ (¬ s.moves d = true ∨ (s.link d).checkSlot = true) := fun h => h.elim (fun h => h hm) fun h => hslot ((checkSlot_iff _).mp h)
  exact congrArg Host.Outcome.next ((if_neg hgo).trans (if_pos hreport))

/-- No channel sends while the replay buffer is full or none is ready. -/
theorem pick_idle {l : LinkDir} (h : 128 ≤ l.replay.length ∨ ∀ c < 4, ¬ l.ready c = true) : l.pick = none := by
  unfold LinkDir.pick
  by_cases hfull : 128 ≤ l.replay.length
  · exact if_pos hfull
  · have hnone : ∀ c < 4, l.ready c = false := fun c hc => Bool.eq_false_iff.mpr (h.resolve_left hfull c hc)
    rw [if_neg hfull, hnone 2 (by decide), hnone 3 (by decide)]
    refine List.find?_eq_none.mpr fun c hc => ?_
    rw [hnone c (List.mem_range.mp hc)]
    exact Bool.false_ne_true

/-- Channel 2 sends when it has waited seven slots. -/
theorem pick_second {l : LinkDir} (hroom : l.replay.length < 128) (h : l.ready 2 = true) (hwait : 7 ≤ l.starve2) : l.pick = some 2 := by
  unfold LinkDir.pick
  rw [if_neg (Nat.not_le.mpr hroom), if_pos (by rw [h, decide_eq_true hwait]; rfl)]

/-- Channel 3 sends when it has waited seven slots and channel 2 has not. -/
theorem pick_third {l : LinkDir} (hroom : l.replay.length < 128) (h : l.ready 3 = true) (hwait : 7 ≤ l.starve3)
    (hno : ¬ (l.ready 2 = true ∧ 7 ≤ l.starve2)) : l.pick = some 3 := by
  unfold LinkDir.pick
  rw [if_neg (Nat.not_le.mpr hroom), if_neg (by rwa [Bool.and_eq_true, decide_eq_true_iff]), if_pos (by rw [h, decide_eq_true hwait]; rfl)]

theorem sendNew_cons {l : LinkDir} {ch : Nat} {f : Flit} {rest : List Flit} (h : Tab.get [] l.queues ch = f :: rest) : l.sendNew ch =
    { l with
      queues := Tab.set [] ch rest l.queues, credits := Tab.upd 32 ch (fun n => n - 1) l.credits
      replay := l.replay ++ [{ f with seq := l.nextSeq }], nextSeq := l.nextSeq + 1, wire := some { f with seq := l.nextSeq }.encode } := by
  unfold LinkDir.sendNew
  rw [h]

/-- Otherwise the lowest channel that is ready sends. -/
theorem pick_lowest {l : LinkDir} {ch : Nat} (hch : ch < 4) (hroom : l.replay.length < 128) (h : l.ready ch = true)
    (hlow : ∀ c < ch, ¬ l.ready c = true) (hno : ¬ (l.ready 2 = true ∧ 7 ≤ l.starve2)) (hno' : ¬ (l.ready 3 = true ∧ 7 ≤ l.starve3)) :
    l.pick = some ch := by
  unfold LinkDir.pick
  rw [if_neg (Nat.not_le.mpr hroom), if_neg (by rwa [Bool.and_eq_true, decide_eq_true_iff]),
    if_neg (by rwa [Bool.and_eq_true, decide_eq_true_iff])]
  exact List.find?_range_eq_some.mpr ⟨h, List.mem_range.mpr hch, fun c hc => by rw [Bool.eq_false_iff.mpr (hlow c hc)]; rfl⟩

/-! ### What a received flit does (R371) -/

/-- A flit that arrives while flits move. -/
theorem flitReceive_eq {s : State} {d : Dir} (raw : BitVec 288) (errs : List Nat) (hm : s.moves d = true) :
    exec (.flitReceive d raw errs) s = .next (match Flit.decode raw with
      | none => s.crcFail d
      | some f =>
        if f.ty = 1 then s.laneErrors d errs
        else if f.ty = 2 then s.linkFlit d f.payload
        else if f.ty = 0 ∨ f.seq ≠ (s.link d).expect then s
        else s.setLink d ((s.link d).accept f)) :=
  congrArg Host.Outcome.next (if_neg (not_not_intro hm))

/-- What is acknowledged leaves the replay buffer, up to the flit of that number. -/
theorem unacked_of_mem {q : Byte} {pre post : List Flit} {g : Flit} (hpre : ∀ y ∈ pre, y.seq ≠ q) (hg : g.seq = q) :
    unacked q (pre ++ g :: post) = post := by
  have hany : ((pre ++ g :: post).any fun y => y.seq = q) = true :=
    List.any_eq_true.mpr ⟨g, List.mem_append_right _ List.mem_cons_self, decide_eq_true hg⟩
  have hdrop : ((pre ++ g :: post).dropWhile fun y => y.seq ≠ q) = g :: post := by
    rw [List.dropWhile_append_of_pos fun y hy => decide_eq_true (hpre y hy)]
    exact List.dropWhile_cons_of_neg (by simpa using hg)
  rw [unacked, if_pos hany, hdrop]
  rfl

theorem unacked_of_not_mem {q : Byte} {l : List Flit} (h : ∀ y ∈ l, y.seq ≠ q) : unacked q l = l :=
  if_neg fun hany => by
    obtain ⟨y, hy, hq⟩ := List.any_eq_true.mp hany
    exact h y hy (of_decide_eq_true hq)

/-- Each channel is updated once, from what the table held before. -/
theorem get_foldl_four {α : Type} [DecidableEq α] (d : α) (g : Nat → α → α) (t : Tab α) {c : Nat} (hc : c < 4) :
    Tab.get d ((upto 4).foldl (fun t c => Tab.upd d c (g c) t) t) c = g c (Tab.get d t c) := by
  rw [show upto 4 = [0, 1, 2, 3] from rfl]
  simp only [List.foldl_cons, List.foldl_nil]
  match c, hc with
  | 0, _ => rw [Tab.get_upd_of_ne _ _ _ (by decide), Tab.get_upd_of_ne _ _ _ (by decide), Tab.get_upd_of_ne _ _ _ (by decide), Tab.get_upd_self]
  | 1, _ => rw [Tab.get_upd_of_ne _ _ _ (by decide), Tab.get_upd_of_ne _ _ _ (by decide), Tab.get_upd_self, Tab.get_upd_of_ne _ _ _ (by decide)]
  | 2, _ => rw [Tab.get_upd_of_ne _ _ _ (by decide), Tab.get_upd_self, Tab.get_upd_of_ne _ _ _ (by decide), Tab.get_upd_of_ne _ _ _ (by decide)]
  | 3, _ => rw [Tab.get_upd_self, Tab.get_upd_of_ne _ _ _ (by decide), Tab.get_upd_of_ne _ _ _ (by decide), Tab.get_upd_of_ne _ _ _ (by decide)]

/-- The credits that a LINK flit returns to a channel, and what the sender then knows of it. -/
theorem learns_channel (l : LinkDir) (p : BitVec 256) {c : Nat} (hc : c < 4) :
    let now : Byte := (p >>> (16 + 8 * c)).setWidth 8
    Tab.get 32 (l.learns p).credits c = min 32 (Tab.get 32 l.credits c + (now - Tab.get 0 l.known c).toNat) ∧
      Tab.get 0 (l.learns p).known c = now :=
  ⟨get_foldl_four 32 (fun c k => min 32 (k + ((p >>> (16 + 8 * c)).setWidth 8 - Tab.get 0 l.known c : Byte).toNat)) l.credits hc,
    get_foldl_four 0 (fun c _ => ((p >>> (16 + 8 * c)).setWidth 8 : Byte)) l.known hc⟩

theorem linkFlit_good {s : State} {d : Dir} {p : BitVec 256} (h : p.getLsbD 8 = false) :
    s.linkFlit d p = s.setLink (otherDir d) ((s.link (otherDir d)).learns p) :=
  if_pos (by rw [h]; exact Bool.false_ne_true)

/-- A LINK flit that reports a failure: this end owes its own again, and the sender replays what is left. -/
theorem linkFlit_bad {s : State} {d : Dir} {p : BitVec 256} (h : p.getLsbD 8 = true) :
    s.linkFlit d p =
      let l := (s.link (otherDir d)).learns p
      let t := (s.setLink (otherDir d) l).setLink d { s.link d with owed := true, report := (s.link d).discarding }
      if l.resend.isEmpty then t
      else if 8 ≤ l.replays then (t.count .ML_REPLAY 0).retrain else t.count .ML_REPLAY 0 := by
  refine (if_neg (not_not_intro h)).trans ?_
  rw [link_setLink_other]

theorem learns_resend {l : LinkDir} {p : BitVec 256} (h : p.getLsbD 8 = true) : (l.learns p).resend = (l.learns p).replay := if_pos h

theorem learns_replays (l : LinkDir) (p : BitVec 256) : (l.learns p).replays =
    (if (l.learns p).replay.length = l.replay.length then l.replays else 0) +
      (if p.getLsbD 8 = true ∧ (l.learns p).replay ≠ [] then 1 else 0) := by
  have hreplays : (l.learns p).replays =
      let n := if (l.learns p).replay.length ≠ l.replay.length then 0 else l.replays
      if (p.getLsbD 8 && !(l.learns p).replay.isEmpty) = true then n + 1 else n := rfl
  have hbad : (p.getLsbD 8 && !(l.learns p).replay.isEmpty) = true ↔ p.getLsbD 8 = true ∧ (l.learns p).replay ≠ [] := by simp
  rw [hreplays, ite_not]
  dsimp only
  by_cases h : p.getLsbD 8 = true ∧ (l.learns p).replay ≠ []
  · rw [if_pos (hbad.mpr h), if_pos h]
  · rw [if_neg (mt hbad.mp h), if_neg h, Nat.add_zero]

end Sys2Proof.Machine

namespace Sys2Proof

open Sys2Proof.Machine

/-- Settles O50: each clause follows the branches of FLIT_SEND, CHECK_FLIT_SEND and FLIT_RECEIVE on a link that is UP. -/
theorem flits : Obligations.Flits := by
  unfold Obligations.Flits
  intro s d f rest ch raw errs l o r ready gone reports idle hup
  have hm : s.moves d = true := moves_of_up d hup
  have hready (c : Nat) : ready c ↔ l.ready c = true := (ready_iff l c).symm
  have hsends (h : exec (.flitSend d) s = .next (s.sendLink d)) : reports := by
    obtain ⟨hseq, hreport, hgiven⟩ := linkPayload_says r
    exact ⟨r.linkPayload, hseq, hreport, hgiven, h.trans (congrArg Host.Outcome.next (sendLink_eq s d))⟩
  refine ⟨fun hslot => ⟨fun hrep => hsends (flitSend_report hm hslot hrep), fun hrep => ?_⟩, fun hslot => ⟨BitVec.ofNat 256 s.draw.1, ?_⟩,
    fun hdec => ?_, fun hdec => ?_⟩
  · have hquiet := flitSend_quiet hm hslot hrep
    refine ⟨fun hresend => ?_, fun hresend hroom hch hqueue hturn => ?_, fun ⟨hresend, hnone⟩ howed => hsends ?_, fun ⟨hresend, hnone⟩ howed => ?_⟩
    · refine hquiet.trans ?_
      rw [show (s.link d).resend = f :: rest from hresend] <;> rfl
    · have hpick : (s.link d).pick = some ch.val := by
        simp only [hready] at hch hturn
        rcases hturn with ⟨h2, hwait⟩ | ⟨h3, hwait, hno⟩ | ⟨hlow, hno, hno'⟩
        · rw [h2] at hch ⊢
          exact pick_second hroom hch hwait
        · rw [h3] at hch ⊢
          exact pick_third hroom hch hwait hno
        · exact pick_lowest ch.isLt hroom hch hlow hno hno'
      rw [show (s.link d).resend = [] from hresend, hpick] at hquiet
      exact hquiet.trans (congrArg (fun l : LinkDir => Host.Outcome.next (s.setLink d (l.slot (some ch)))) (sendNew_cons hqueue))
    all_goals
      have hpick : (s.link d).pick = none := pick_idle (hnone.imp id fun h c hc => mt (hready c).mpr (h c hc))
      rw [show (s.link d).resend = [] from hresend, hpick] at hquiet
      refine hquiet.trans (congrArg Host.Outcome.next ?_)
    · exact if_pos howed
    · exact if_neg (ne_true_of_eq_false howed)
  · exact congrArg Host.Outcome.next (if_pos ⟨hm, (checkSlot_iff _).mpr hslot⟩)
  · refine (flitReceive_eq raw errs hm).trans (congrArg Host.Outcome.next ?_)
    rw [hdec] <;> rfl
  · have hflit := (flitReceive_eq raw errs hm).trans (congrArg Host.Outcome.next (by rw [hdec]))
    dsimp only at hflit
    have hdata (hty : 3 ≤ f.ty.toNat) {n : BitVec 4} (hn : n.toNat < 3) : f.ty ≠ n := fun h => by
      rw [h] at hty
      omega
    have hlink (hty : f.ty = 2) : exec (.flitReceive d raw errs) s = .next (s.linkFlit d f.payload) :=
      hflit.trans (congrArg Host.Outcome.next ((if_neg (by rw [hty]; decide)).trans (if_pos hty)))
    refine ⟨fun hty => hflit.trans (congrArg Host.Outcome.next (if_pos hty)), fun hty => ?_, fun hty hseq => ?_, fun hty hseq => ?_, fun hty => ?_⟩
    · exact hflit.trans (congrArg Host.Outcome.next ((if_neg (by rw [hty]; decide)).trans ((if_neg (by rw [hty]; decide)).trans (if_pos (Or.inl hty)))))
    · exact hflit.trans (congrArg Host.Outcome.next
        ((if_neg (hdata hty (by decide))).trans ((if_neg (hdata hty (by decide))).trans (if_pos (Or.inr hseq)))))
    · exact hflit.trans (congrArg Host.Outcome.next ((if_neg (hdata hty (by decide))).trans ((if_neg (hdata hty (by decide))).trans
        (if_neg (not_or_intro (hdata hty (by decide)) (not_not_intro hseq))))))
    · have hresend (hbad : f.payload.getLsbD 8 = true) : (r.learns f.payload).resend = (r.learns f.payload).replay := learns_resend hbad
      have hreplayed (hbad : f.payload.getLsbD 8 = true) (hleft : (r.learns f.payload).replay ≠ []) :
          ¬ (r.learns f.payload).resend.isEmpty = true := by
        rwa [hresend hbad, List.isEmpty_iff]
      refine ⟨r.learns f.payload, rfl, fun pre g post hsplit hpre hg => ?_, fun hpre => unacked_of_not_mem hpre, hresend,
        fun c hc => learns_channel r f.payload hc, learns_replays r f.payload,
        fun hgood => (hlink hty).trans (congrArg Host.Outcome.next (linkFlit_good hgood)), fun hbad hleft => ?_, fun hbad hleft hfew => ?_,
        fun hbad hleft hmany => ?_⟩
      · exact (congrArg (unacked _) hsplit).trans (unacked_of_mem hpre hg)
      all_goals
        refine (hlink hty).trans (congrArg Host.Outcome.next ((linkFlit_bad hbad).trans ?_))
      · exact if_pos (by rw [show s.link (otherDir d) = r from rfl, hresend hbad, hleft]; rfl)
      · exact (if_neg (hreplayed hbad hleft)).trans (if_neg (Nat.not_le.mpr hfew))
      · exact (if_neg (hreplayed hbad hleft)).trans (if_pos hmany)

end Sys2Proof
end

section
/-! SUPPORT. The states of the Mortar link (R373 to R375): stages, lane faults, retrains, and the link's loss. -/

namespace Sys2Proof.Machine

open Sys2Proof

/-! ### Registers that the link's loss leaves -/

/-- The registers that a Mortar interrupt leaves. -/
def LinkLeaves (l : RegKind) (j : Nat) : Prop := l.addr j ≠ RegKind.ML_INT_STAT.addr 0 ∧ (∀ i < 8, l.addr j ≠ RegKind.HINT_PEND.addr i) ∧
  ∀ i < 4, l.addr j ≠ RegKind.FHINT_PEND.addr i

theorem LinkLeaves.mlInt {l : RegKind} {j : Nat} (h : LinkLeaves l j) (s : State) (b : Nat) : (s.mlInt b).reg l j = s.reg l j := by
  obtain ⟨hstat, hh, hf⟩ := h
  unfold State.mlInt State.raiseStat
  dsimp only
  split_ifs
  · exact (reg_raise _ _ _ _ _ hh hf).trans (reg_setReg_of_ne _ _ _ _ _ _ hstat)
  · exact reg_setReg_of_ne _ _ _ _ _ _ hstat

theorem linkLeaves_ML_STAT : LinkLeaves .ML_STAT 0 := by unfold LinkLeaves; decide

theorem linkLeaves_SYS_RAIL : LinkLeaves .SYS_RAIL 0 := by unfold LinkLeaves; decide

theorem ml_mlInt (s : State) (b : Nat) : (s.mlInt b).ml = s.ml := by
  unfold State.mlInt State.raiseStat State.raise
  dsimp only
  split_ifs <;> rfl

/-- Entries removed below a key do not change what it reads. -/
theorem Tab.get_filter_of_below {α : Type} (d : α) (t : Tab α) (n : Nat) (p : Nat × α → Bool) (h : ∀ e ∈ t, p e = false → e.1 < n) :
    Tab.get d (t.filter p) n = Tab.get d t n := by
  induction t with
  | nil => rfl
  | cons e t ih =>
    obtain ⟨k, v⟩ := e
    have ih := ih fun e he => h e (List.mem_cons_of_mem _ he)
    by_cases hp : p (k, v) = true
    · rw [List.filter_cons_of_pos hp, Tab.get, Tab.get, ih]
    · have hk : k < n := h _ List.mem_cons_self (Bool.eq_false_iff.mpr hp)
      rw [List.filter_cons_of_neg hp, ih, Tab.get, if_neg (by omega), if_neg (by omega)]

theorem reg_cGone (s : State) {l : RegKind} {j : Nat} (h : 0x8000F000 ≤ l.addr j) : s.cGone.reg l j = s.reg l j := by
  refine Tab.get_filter_of_below _ _ _ _ fun e _ he => ?_
  have hc : inControlC e.1 = true := by simpa using he
  have hlt : e.1 < 0x8000F000 := of_decide_eq_true (Bool.and_eq_true _ _ ▸ hc).2
  omega

theorem reg_withCores (s : State) (x : Vector Core 12) (l : RegKind) (j : Nat) : ({ s with cores := x } : State).reg l j = s.reg l j := rfl

theorem reg_wakeAll (s : State) (l : RegKind) (j : Nat) : s.wakeAll.reg l j = s.reg l j :=
  (congrArg (State.reg · l j) (wakeAll_eq s)).trans (reg_withCores s _ l j)

theorem reg_loseBricks (s : State) (l : RegKind) (j : Nat) : s.loseBricks.reg l j = s.reg l j := rfl

theorem reg_power (s : State) (f : Power → Power) (l : RegKind) (j : Nat) : (s.power f).reg l j = s.reg l j := rfl

theorem reg_lost (s : State) {l : RegKind} {j : Nat} (h : 0x8000F000 ≤ l.addr j) : s.loseBricks.cGone.wakeAll.reg l j = s.reg l j :=
  by
  rw [reg_wakeAll, reg_cGone _ h, reg_loseBricks]

/-- The rails and their requests outlive the C-die. -/
theorem rail_cLost (s : State) : s.cLost.reg .SYS_RAIL 0 = s.reg .SYS_RAIL 0 := by
  have hfar : ∀ i ∈ upto 4, RegKind.SYS_RAIL.addr 0 ≠ RegKind.MT_STAT.addr i := by decide
  have hbase : s.loseBricks.cGone.wakeAll.reg .SYS_RAIL 0 = s.reg .SYS_RAIL 0 := reg_lost s (by decide)
  unfold State.cLost
  refine (reg_setReg_of_ne _ _ _ _ _ _ (by decide)).trans ((reg_foldl_setReg_of_ne _ _ _ _ _ _ hfar).trans ?_)
  refine (reg_setReg_of_ne _ _ _ _ _ _ (by decide)).trans ((reg_setReg_of_ne _ _ _ _ _ _ (by decide)).trans
    ((reg_setReg_of_ne _ _ _ _ _ _ (by decide)).trans ?_))
  exact (reg_setReg_of_ne _ _ _ _ _ _ (by decide)).trans ((reg_setReg_of_ne _ _ _ _ _ _ (by decide)).trans hbase)

/-- The link is OFF once the C-die is lost; the rest of its status stays. -/
theorem link_cLost (s : State) : s.cLost.reg .ML_STAT 0 = putFld (s.reg .ML_STAT 0) 15 12 0 := by
  have hfar : ∀ i ∈ upto 4, RegKind.ML_STAT.addr 0 ≠ RegKind.MT_STAT.addr i := by decide
  have hbase : s.loseBricks.cGone.wakeAll.reg .ML_STAT 0 = s.reg .ML_STAT 0 := reg_lost s (by decide)
  unfold State.cLost
  refine (reg_setReg_of_ne _ _ _ _ _ _ (by decide)).trans ((reg_foldl_setReg_of_ne _ _ _ _ _ _ hfar).trans ?_)
  refine (reg_setReg_of_ne _ _ _ _ _ _ (by decide)).trans ((reg_setReg_of_ne _ _ _ _ _ _ (by decide)).trans
    ((reg_setReg_of_ne _ _ _ _ _ _ (by decide)).trans ?_))
  refine (reg_setReg _ _ _ _).trans (congrArg (putFld · 15 12 0) ?_)
  exact (reg_setReg_of_ne _ _ _ _ _ _ (by decide)).trans hbase

theorem notReady_cLost (s : State) : s.cLost.bit .SYS_STAT 0 14 = false := bit_setBit_self _ _ _ _ _ (by decide)

/-- Entry to field-alone mode writes the status of the system, and the cells act. -/
theorem reg_enterAlone_of_ne (s : State) (cause : Nat) {l : RegKind} {j : Nat} (hs : l.addr j ≠ RegKind.SYS_STAT.addr 0)
    (ho : l.addr j ≠ RegKind.OC_CTRL.addr 0) : (s.enterAlone cause).reg l j = s.reg l j := by
  unfold State.enterAlone
  dsimp only
  split_ifs
  · exact (reg_setReg_of_ne _ _ _ _ _ _ hs).trans (reg_setReg_of_ne _ _ _ _ _ _ hs)
  · rw [State.cellsAlone, State.reg, regs_evalCells]
    exact (reg_setReg_of_ne _ _ _ _ _ _ ho).trans ((reg_setReg_of_ne _ _ _ _ _ _ hs).trans (reg_setReg_of_ne _ _ _ _ _ _ hs))

theorem status_enterAlone (s : State) (cause : Nat) : (s.enterAlone cause).reg .SYS_STAT 0 = putBit (putFld (s.reg .SYS_STAT 0) 6 4 cause) 13 true := by
  have hset : ((s.setFld .SYS_STAT 0 6 4 cause).setBit .SYS_STAT 0 13 true).reg .SYS_STAT 0 = putBit (putFld (s.reg .SYS_STAT 0) 6 4 cause) 13 true := by
    rw [State.setBit, reg_setReg, State.setFld, reg_setReg]
  unfold State.enterAlone
  dsimp only
  split_ifs
  · exact hset
  · rw [State.cellsAlone, State.reg, regs_evalCells]
    exact (reg_setReg_of_ne _ _ _ _ _ _ (by decide)).trans hset

/-! ### Rails on their way down -/

theorem railsRaised_congr {s t : State} (h : ∀ k < 4, s.bit .SYS_RAIL 0 (4 + k) = t.bit .SYS_RAIL 0 (4 + k)) : s.railsRaised = t.railsRaised := by
  refine congrArg List.length (List.filter_congr fun k hk => ?_)
  rw [h k (List.mem_range.mp hk)]

theorem railsRaised_le (s : State) : s.railsRaised ≤ 4 := List.length_filter_le _ _

/-- The sequencer removes the rails; the near memories of the C-die lose their contents. -/
def State.railsGoing (s : State) : State :=
  ({ s with
    mem := { s.mem with hcNear := [], eccHc := [] }
    pw := { s.pw with seq := .removing, cReset := true, hold := s.pw.hold || (s.lay.haveShadow && ¬ s.relayoutEn) } }.setBit
      .SYS_RAIL 0 14 false).setBit .SYS_RAIL 0 13 true

theorem railsRaised_railsGoing (s : State) : s.railsGoing.railsRaised = s.railsRaised :=
  railsRaised_congr fun k hk => (bit_setBit_of_ne_bit _ _ _ _ _ _ (by decide) (by omega)).trans
    (bit_setBit_of_ne_bit _ _ _ _ _ _ (by decide) (by omega))

/-- While two rails or more are up, their removal begins with the last one. -/
theorem removeRails_eq {s : State} (h : 2 ≤ s.railsRaised) : s.removeRails = s.railsGoing.setBit .SYS_RAIL 0 (3 + s.railsRaised) false := by
  have hoff : s.removeRails = s.railsGoing.railOff := rfl
  rw [hoff, State.railOff]
  dsimp only
  rw [railsRaised_railsGoing, if_neg (by omega), if_pos (by omega)]

theorem reg_removeRails_of_ne {s : State} (h : 2 ≤ s.railsRaised) {l : RegKind} {j : Nat} (hne : l.addr j ≠ RegKind.SYS_RAIL.addr 0) :
    s.removeRails.reg l j = s.reg l j := by
  rw [removeRails_eq h]
  exact (reg_setReg_of_ne _ _ _ _ _ _ hne).trans ((reg_setReg_of_ne _ _ _ _ _ _ hne).trans (reg_setReg_of_ne _ _ _ _ _ _ hne))

theorem powerGood_removeRails {s : State} (h : 2 ≤ s.railsRaised) : s.removeRails.bit .SYS_RAIL 0 14 = false := by
  have hle := railsRaised_le s
  have hgoing : s.railsGoing.bit .SYS_RAIL 0 14 = false :=
    (bit_setBit_of_ne_bit _ _ _ _ _ _ (by decide) (by decide)).trans (bit_setBit_self _ _ _ _ _ (by decide))
  rw [removeRails_eq h, bit_setBit_of_ne_bit _ _ _ _ _ _ (by omega) (by omega), hgoing]

theorem pw_removeRails {s : State} (h : 2 ≤ s.railsRaised) : s.removeRails.pw =
    { s.pw with seq := .removing, cReset := true, hold := s.pw.hold || (s.lay.haveShadow && ¬ s.relayoutEn) } := by
  rw [removeRails_eq h]
  rfl

/-! ### The link goes DOWN (R375) -/

/-- The loss counted, with LOSS_MAX reached where it is. -/
def State.lossCounted (s : State) : State :=
  let n := min 15 (s.fld .ML_STAT 0 7 4 + 1)
  let m := s.fld .ML_CTRL 0 11 8
  let s1 := (s.setFld .ML_STAT 0 7 4 n).mlInt 3
  if m ≠ 0 ∧ m ≤ n then s1.setBit .ML_STAT 0 3 true else s1

/-- The C-die lost to its link, before its rails go. -/
def State.linkLost (s : State) : State :=
  ((s.lossCounted.cLost.power fun p => { p with lossWait := true }).enterAlone 5).setFld .ML_STAT 0 15 12 9

theorem linkDown_eq (s : State) : s.linkDown = s.linkLost.removeRails := by
  unfold State.linkDown State.linkLost
  extract_lets n m s1 counted lost p alone
  have hcounted : counted = s.lossCounted := rfl
  have halone : alone = (counted.cLost.power fun p => { p with lossWait := true }).enterAlone 5 := rfl
  rw [halone, hcounted]

theorem lossCounted_eq (s : State) : s.lossCounted =
    let n := min 15 (s.fld .ML_STAT 0 7 4 + 1)
    if s.fld .ML_CTRL 0 11 8 ≠ 0 ∧ s.fld .ML_CTRL 0 11 8 ≤ n then ((s.setFld .ML_STAT 0 7 4 n).mlInt 3).setBit .ML_STAT 0 3 true
    else (s.setFld .ML_STAT 0 7 4 n).mlInt 3 := rfl

theorem rail_lossCounted (s : State) : s.lossCounted.reg .SYS_RAIL 0 = s.reg .SYS_RAIL 0 := by
  have hint (n : Nat) : ((s.setFld .ML_STAT 0 7 4 n).mlInt 3).reg .SYS_RAIL 0 = s.reg .SYS_RAIL 0 :=
    (linkLeaves_SYS_RAIL.mlInt _ _).trans (reg_setReg_of_ne _ _ _ _ _ _ (by decide))
  rw [lossCounted_eq]
  dsimp only
  split_ifs
  · exact (reg_setReg_of_ne _ _ _ _ _ _ (by decide)).trans (hint _)
  · exact hint _

theorem rail_linkLost (s : State) : s.linkLost.reg .SYS_RAIL 0 = s.reg .SYS_RAIL 0 := by
  rw [State.linkLost, State.setFld, reg_setReg_of_ne _ _ _ _ _ _ (by decide), reg_enterAlone_of_ne _ _ (by decide) (by decide), reg_power, rail_cLost,
    rail_lossCounted]

theorem railsRaised_linkLost (s : State) : s.linkLost.railsRaised = s.railsRaised :=
  railsRaised_congr fun k _ => congrArg (wbit · (4 + k)) (rail_linkLost s)

theorem status_lossCounted (s : State) :
    let n := min 15 (s.fld .ML_STAT 0 7 4 + 1)
    let m := s.fld .ML_CTRL 0 11 8
    s.lossCounted.reg .ML_STAT 0 = if m ≠ 0 ∧ m ≤ n then putBit (putFld (s.reg .ML_STAT 0) 7 4 n) 3 true else putFld (s.reg .ML_STAT 0) 7 4 n := by
  intro n m
  have hint : ((s.setFld .ML_STAT 0 7 4 n).mlInt 3).reg .ML_STAT 0 = putFld (s.reg .ML_STAT 0) 7 4 n :=
    (linkLeaves_ML_STAT.mlInt _ _).trans (reg_setReg _ _ _ _)
  rw [lossCounted_eq]
  dsimp only
  split_ifs
  · rw [State.setBit, reg_setReg, hint]
  · exact hint

theorem status_linkLost (s : State) : s.linkLost.reg .ML_STAT 0 = putFld (putFld (s.lossCounted.reg .ML_STAT 0) 15 12 0) 15 12 9 := by
  rw [State.linkLost, State.setFld, reg_setReg, reg_enterAlone_of_ne _ _ (by decide) (by decide), reg_power, link_cLost]

theorem systemStatus_linkLost (s : State) :
    s.linkLost.reg .SYS_STAT 0 = putBit (putFld (s.lossCounted.cLost.reg .SYS_STAT 0) 6 4 5) 13 true := by
  rw [State.linkLost, State.setFld, reg_setReg_of_ne _ _ _ _ _ _ (by decide), status_enterAlone, reg_power]

theorem lossWait_linkLost (s : State) : s.linkLost.pw.lossWait = true := by
  have hpower (u : State) : (u.power fun p => { p with lossWait := true }).pw.lossWait = true := rfl
  have hfld (u : State) : (u.setFld .ML_STAT 0 15 12 9).pw = u.pw := rfl
  rw [State.linkLost, hfld, pw_of_calm (calm_enterAlone _ _), hpower]

/-- What the loss of the link leaves in its status, the power state and the state of the system. -/
theorem linkDown_says {s : State} (h : 2 ≤ s.railsRaised) :
    let t := s.linkDown
    let n := min 15 (s.fld .ML_STAT 0 7 4 + 1)
    t.fld .ML_STAT 0 15 12 = 9 ∧ t.fld .ML_STAT 0 7 4 = n ∧ t.pw.lossWait = true ∧ t.pw.cReset = true ∧ t.bit .SYS_STAT 0 14 = false ∧
    t.fld .SYS_STAT 0 6 4 = 5 ∧ t.bit .SYS_STAT 0 13 = true ∧ t.bit .SYS_RAIL 0 14 = false ∧
    t.bit .ML_STAT 0 3 = (s.bit .ML_STAT 0 3 || (s.fld .ML_CTRL 0 11 8 ≠ 0 && s.fld .ML_CTRL 0 11 8 ≤ n)) := by
  rw [linkDown_eq]
  intro t n
  have hup : 2 ≤ s.linkLost.railsRaised := by rwa [railsRaised_linkLost]
  have hn : n < 16 := by omega
  have hlink : t.reg .ML_STAT 0 = putFld (putFld (s.lossCounted.reg .ML_STAT 0) 15 12 0) 15 12 9 :=
    (reg_removeRails_of_ne hup (by decide)).trans (status_linkLost s)
  have hsys : t.reg .SYS_STAT 0 = putBit (putFld (s.lossCounted.cLost.reg .SYS_STAT 0) 6 4 5) 13 true :=
    (reg_removeRails_of_ne hup (by decide)).trans (systemStatus_linkLost s)
  have hpw : t.pw = { s.linkLost.pw with
      seq := .removing, cReset := true, hold := s.linkLost.pw.hold || (s.linkLost.lay.haveShadow && ¬ s.linkLost.relayoutEn) } := pw_removeRails hup
  refine ⟨?_, ?_, ?_, ?_, ?_, ?_, ?_, powerGood_removeRails hup, ?_⟩
  · rw [State.fld, hlink, wfld_putFld _ _ _ _ (by decide) (by decide)]
    rfl
  · rw [State.fld, hlink, wfld_putFld_of_disjoint _ _ _ _ _ _ (by decide) (by decide) (by decide),
      wfld_putFld_of_disjoint _ _ _ _ _ _ (by decide) (by decide) (by decide), status_lossCounted]
    have hfld : wfld (putFld (s.reg .ML_STAT 0) 7 4 n) 7 4 = n := (wfld_putFld _ _ _ _ (by decide) (by decide)).trans (Nat.mod_eq_of_lt hn)
    split_ifs
    · rw [wfld_putBit_of_out _ _ _ (by decide) (by decide)]
      exact hfld
    · exact hfld
  · rw [hpw]
    exact lossWait_linkLost s
  · rw [hpw]
  · rw [State.bit, hsys, wbit_putBit _ _ _ _ (by decide), if_neg (by decide), wbit_putFld _ _ _ _ _ (by decide) (by decide), if_neg (by decide)]
    exact notReady_cLost _
  · rw [State.fld, hsys, wfld_putBit_of_out _ _ _ (by decide) (by decide), wfld_putFld _ _ _ _ (by decide) (by decide)]
    rfl
  · rw [State.bit, hsys, wbit_putBit _ _ _ _ (by decide), if_pos rfl]
  · rw [State.bit, hlink, wbit_putFld _ _ _ _ _ (by decide) (by decide), if_neg (by decide), wbit_putFld _ _ _ _ _ (by decide) (by decide),
      if_neg (by decide), status_lossCounted]
    have hbit : wbit (putFld (s.reg .ML_STAT 0) 7 4 n) 3 = s.bit .ML_STAT 0 3 :=
      (wbit_putFld _ _ _ _ _ (by decide) (by decide)).trans (if_neg (by decide))
    rw [← Bool.decide_and]
    by_cases hmax : s.fld .ML_CTRL 0 11 8 ≠ 0 ∧ s.fld .ML_CTRL 0 11 8 ≤ n
    · rw [decide_eq_true hmax, Bool.or_true]
      exact (congrArg (wbit · 3) (if_pos hmax)).trans ((wbit_putBit _ _ _ _ (by decide)).trans (if_pos rfl))
    · rw [decide_eq_false hmax, Bool.or_false]
      exact (congrArg (wbit · 3) (if_neg hmax)).trans hbit

/-! ### Retrains and lanes (R373, R374) -/

/-- The retrains of the last second, with the one that begins. -/
def State.retrained (s : State) : Mortar :=
  { s.ml with
    retrainAt := s.ticks :: s.ml.retrainAt.filter fun t => s.ticks < t + 800000000
    fc := { s.ml.fc with replays := 0 }, cf := { s.ml.cf with replays := 0 } }

/-- The link in RETRAIN. -/
def State.retraining (s : State) : State := (({ s with ml := s.retrained }.count .ML_RETRAIN 0).mlInt 2).setFld .ML_STAT 0 15 12 8

theorem retrain_eq (s : State) : s.retrain =
    if 3 ≤ (s.ticks :: s.ml.retrainAt.filter fun t => s.ticks < t + 800000000).length then s.retraining.linkDown else s.retraining := rfl

theorem ml_retraining (s : State) : s.retraining.ml = s.retrained := by
  have hcount (u : State) : (u.count .ML_RETRAIN 0).ml = u.ml := rfl
  have hfld (u : State) : (u.setFld .ML_STAT 0 15 12 8).ml = u.ml := rfl
  rw [State.retraining, hfld, ml_mlInt, hcount]

theorem state_retraining (s : State) : s.retraining.fld .ML_STAT 0 15 12 = 8 := by
  rw [State.retraining, State.fld, State.setFld, reg_setReg, wfld_putFld _ _ _ _ (by decide) (by decide)]
  rfl

theorem railsRaised_retraining (s : State) : s.retraining.railsRaised = s.railsRaised := by
  have hml (u : Mortar) : ({ s with ml := u } : State).reg .SYS_RAIL 0 = s.reg .SYS_RAIL 0 := rfl
  refine railsRaised_congr fun k _ => congrArg (wbit · (4 + k)) ?_
  rw [State.retraining, State.setFld, reg_setReg_of_ne _ _ _ _ _ _ (by decide), linkLeaves_SYS_RAIL.mlInt, State.count,
    reg_setReg_of_ne _ _ _ _ _ _ (by decide), hml]

theorem failedLanes_length (s : State) (d : Dir) : (s.failedLanes d).length = (s.ml.failed.filter fun l => l.dir = d).length := List.length_map _

theorem lanesGone_iff (s : State) : s.lanesGone = true ↔
    3 ≤ (s.ml.failed.filter fun l => l.dir = .fc).length ∨ 3 ≤ (s.ml.failed.filter fun l => l.dir = .cf).length := by
  rw [State.lanesGone, failedLanes_length, failedLanes_length, Bool.or_eq_true, decide_eq_true_iff, decide_eq_true_iff]

theorem not_lanesGone {s : State} (hfc : (s.ml.failed.filter fun l => l.dir = .fc).length ≤ 2)
    (hcf : (s.ml.failed.filter fun l => l.dir = .cf).length ≤ 2) : ¬ s.lanesGone = true := fun h => by
  rcases (lanesGone_iff s).mp h with h | h
  · omega
  · omega

/-- A lane marked failed, for its entry of the record. -/
def State.laneMarked (s : State) (l : LaneRef) : State :=
  { s with ml := { s.ml with failed := s.ml.failed ++ [l] } }.addEvent 7 (l.lane + match l.dir with
    | .fc => 0
    | .cf => 18) true false 4

theorem markLane_new {s : State} {l : LaneRef} (h : l ∉ s.ml.failed) : s.markLane l true 4 = s.laneMarked l := by
  have hunit : laneIndex l = l.lane + match l.dir with
    | .fc => 0
    | .cf => 18 := Nat.add_comm _ _
  refine (if_neg fun hc => h (List.contains_iff_mem.mp hc)).trans ?_
  rw [hunit] <;> rfl

theorem gone_laneMarked (s : State) (l : LaneRef) (e : Dir) : ((s.laneMarked l).ml.failed.filter fun x => x.dir = e).length =
    (s.ml.failed.filter fun x => x.dir = e).length + if l.dir = e then 1 else 0 := by
  have hfailed : (s.laneMarked l).ml.failed = s.ml.failed ++ [l] := rfl
  rw [hfailed, List.filter_append, List.length_append]
  by_cases h : l.dir = e
  · simp [h]
  · simp [h]

/-- A lane that fails on a link that is UP or shifts another. -/
theorem laneFault_new {s : State} {l : LaneRef} (hst : s.mlState = 6 ∨ s.mlState = 7) (h : l ∉ s.ml.failed) :
    s.laneFault l = if (s.laneMarked l).lanesGone then (s.laneMarked l).linkDown
      else if (s.lanePos l.dir l.lane).isNone then (s.laneMarked l).mlInt 0
      else (((s.laneMarked l).setBit .ML_MAP (match l.dir with
        | .fc => 0
        | .cf => 1) 15 true).mlInt 1).setFld .ML_STAT 0 15 12 7 := by
  have hgo : ¬ ((s.mlState ≠ 6 ∧ s.mlState ≠ 7) ∨ s.ml.failed.contains l = true) := by
    rintro (⟨h6, h7⟩ | hc)
    · exact hst.elim h6 h7
    · exact h (List.contains_iff_mem.mp hc)
  refine (if_neg hgo).trans ?_
  dsimp only
  rw [markLane_new h] <;> rfl

/-- No lane over its threshold is faulty. -/
theorem lanes_quiet {s : State} {th : Nat} (h : ∀ k < 36, Tab.get 0 s.ml.laneErr k ≤ th) : ∀ l : LaneRef,
    ¬ (th < Tab.get 0 s.ml.laneErr (laneIndex l) ∧ ¬ s.ml.failed.contains l = true) := by
  rintro ⟨d, lane⟩ ⟨hover, -⟩
  have hlt : laneIndex ⟨d, lane⟩ < 36 := by
    have hlane := lane.isLt
    cases d
    · exact (show 0 + lane.val < 36 by omega)
    · exact (show 18 + lane.val < 36 by omega)
  exact Nat.not_lt.mpr (h _ hlt) hover

/-- The counts of a window are cleared. -/
def State.windowCleared (s : State) : State := { s with ml := { s.ml with laneErr := [], crcWindow := 0 } }

/-- The window ends with no lane over its threshold. -/
theorem laneErrorWindow_quiet {s : State} (h : ∀ k < 36, Tab.get 0 s.ml.laneErr k ≤ s.fld .ML_THR 0 15 8) : exec .mlLaneErrorWindow s =
    .next (if ¬ s.linkUp = true then s.windowCleared
      else if s.fld .ML_THR 0 15 8 < s.ml.crcWindow then s.windowCleared.retrain else s.windowCleared) := by
  have hnone (l : List LaneRef) : (l.filter fun l => s.fld .ML_THR 0 15 8 < Tab.get 0 s.ml.laneErr (laneIndex l) ∧
      ¬ s.ml.failed.contains l) = [] :=
    List.filter_eq_nil_iff.mpr fun l _ hl => lanes_quiet h l (of_decide_eq_true hl)
  have hexec : exec .mlLaneErrorWindow s = execMlLaneErrorWindow s := rfl
  rw [hexec, execMlLaneErrorWindow]
  dsimp only
  rw [hnone] <;> rfl

end Sys2Proof.Machine

namespace Sys2Proof

open Sys2Proof.Machine

/-- Settles O51: each clause follows the branches of its command; what the loss of the link leaves is linkDown_says. -/
theorem linkStates : Obligations.LinkStates := by
  unfold Obligations.LinkStates
  intro s d lane failed st moved gone x marked cleared n
  have hgone (e : Dir) : ((s.laneMarked x).ml.failed.filter fun l => l.dir = e).length = gone e + if d = e then 1 else 0 := gone_laneMarked s x e
  have hstage (k : Nat) (hk : st = k) (hmark : ¬ (k = 1 ∨ k = 2 ∨ k = 4 ∨ k = 8)) (hlow : ¬ (k = 0 ∨ 5 < k)) :
      exec (.mlTrainingStageDone failed) s = .next (if k < 5 then moved (k + 1) s else if s.lanesGone then s.linkDown else s.linkUpNow) := by
    have hst : s.mlState = k := hk
    have h8 : k ≠ 8 := fun h => hmark (Or.inr (Or.inr (Or.inr h)))
    refine congrArg Host.Outcome.next ?_
    rw [hst, if_neg h8, if_neg hlow, if_neg hmark]
  have hmarks (k : Nat) (hk : st = k) (hmark : k = 1 ∨ k = 2 ∨ k = 4) :
      exec (.mlTrainingStageDone failed) s = .next (moved (k + 1) (failed.foldl (fun s l => s.markLane l false (if k = 4 then 0 else 4)) s)) := by
    have hst : s.mlState = k := hk
    have h8 : k ≠ 8 := by omega
    refine congrArg Host.Outcome.next ?_
    rw [hst, if_neg h8, if_neg (by omega), if_pos (by omega), if_pos (by omega), decide_eq_false h8]
  refine ⟨fun hst => hstage 3 hst (by decide) (by decide), fun hst => ?_, fun hst => ?_, fun hst hfc hcf => ?_, fun hst hmany => ?_, fun hlo hhi => ?_,
    fun hst => ?_, fun hst => ?_, fun hst hfc hcf => ?_, fun hst hnew hfew => ?_, fun hst hnew htwo => ?_, fun hlanes hcrc => ?_,
    fun hst hlanes hcrc => ?_, fun hwait => congrArg Host.Outcome.next (if_pos hwait), ?_, fun hup => linkDown_says hup⟩
  · exact hmarks st rfl hst
  · have hst' : s.mlState = 8 := hst
    refine congrArg Host.Outcome.next ?_
    rw [hst'] <;> rfl
  · exact (hstage 5 hst (by decide) (by decide)).trans (congrArg Host.Outcome.next (if_neg (not_lanesGone hfc hcf)))
  · exact (hstage 5 hst (by decide) (by decide)).trans (congrArg Host.Outcome.next (if_pos ((lanesGone_iff s).mpr hmany)))
  · exact congrArg Host.Outcome.next (if_pos (hhi.imp (fun h => ⟨hlo, h⟩) id))
  · exact congrArg Host.Outcome.next (if_pos hst)
  · exact congrArg Host.Outcome.next (if_pos hst)
  · exact congrArg Host.Outcome.next ((if_neg (not_not_intro hst)).trans (if_neg (not_lanesGone hfc hcf)))
  · obtain ⟨hone, hothers⟩ := hfew
    have hfew' : ¬ (s.laneMarked x).lanesGone = true := by
      have hle (e : Dir) : gone e + (if d = e then 1 else 0) ≤ 2 := by
        split_ifs with h
        · rw [← h]
          omega
        · exact hothers e (Ne.symm h)
      exact not_lanesGone ((hgone .fc).trans_le (hle .fc)) ((hgone .cf).trans_le (hle .cf))
    have hfault := (laneFault_new hst hnew).trans (if_neg hfew')
    refine ⟨fun hspare => congrArg Host.Outcome.next (hfault.trans (if_pos ?_)), fun hdata => congrArg Host.Outcome.next (hfault.trans (if_neg ?_))⟩
    · exact Option.isNone_iff_eq_none.mpr hspare
    · exact fun h => hdata (Option.isNone_iff_eq_none.mp h)
  · refine congrArg Host.Outcome.next ((laneFault_new hst hnew).trans (if_pos ((lanesGone_iff _).mpr ?_)))
    have hthree : gone d + (if d = d then 1 else 0) = 3 := by rw [htwo, if_pos rfl]
    rw [hgone .fc, hgone .cf]
    cases d
    · exact Or.inl hthree.ge
    · exact Or.inr hthree.ge
  · refine (laneErrorWindow_quiet hlanes).trans (congrArg Host.Outcome.next ?_)
    rw [if_neg (Nat.not_lt.mpr hcrc), ite_self] <;> rfl
  · exact (laneErrorWindow_quiet hlanes).trans (congrArg Host.Outcome.next
      ((if_neg (not_not_intro (decide_eq_true hst))).trans (if_pos hcrc)))
  · have hlen : (s.ticks :: s.ml.retrainAt.filter fun t => s.ticks < t + 800000000).length =
      (s.ml.retrainAt.filter fun t => s.ticks < t + 800000000).length + 1 := List.length_cons
    refine ⟨fun hfew => ?_, fun hup hmany => ?_⟩
    · rw [retrain_eq, if_neg (by rw [hlen]; omega)]
      exact ⟨state_retraining s, ml_retraining s⟩
    · rw [retrain_eq, if_pos (by rw [hlen]; omega)]
      exact (linkDown_says (by rwa [railsRaised_retraining])).1

end Sys2Proof
end

section
/-! SUPPORT. The debug port: unlocking and accesses (R403 to R405). -/

namespace Sys2Proof.Machine

open Sys2Proof

/-! ### Unlocking (R403, R404) -/

/-- A byte of the certificate in a DBG_CHAIN register is cut out of it. -/
theorem chainByte_eq (dr : BitVec 1608) (b : Nat) : chainByte dr b = (dr >>> (8 * b + 8)).setWidth 8 := by
  apply BitVec.eq_of_toNat_eq
  rw [chainByte, BitVec.toNat_ofNat, BitVec.toNat_setWidth, BitVec.toNat_ushiftRight, Nat.shiftRight_eq_div_pow]

/-- The certificate that a DBG_CHAIN register holds. -/
def certIn (dr : BitVec 1608) : List Byte := (upto 200).map fun b => (dr >>> (8 * b + 8)).setWidth 8

theorem certIn_eq (dr : BitVec 1608) : (upto 200).map (chainByte dr) = certIn dr := List.map_congr_left fun b _ => chainByte_eq dr b

/-- The debug port with a chain of certificates. -/
def State.chained (s : State) (l : List (List Byte)) : State := { s with dbg := { s.dbg with chain := l } }

theorem dbgChainUpdate_exec {s : State} {dr : BitVec 1608} {ix : Nat} (h : s.dbgLevel < 2) (hix : dr.toNat % 4 = ix) : exec (.dbgChainUpdate dr) s =
    .next (if ix = 0 then s.chained []
      else if ix = 1 then { s with dbg := { s.dbg with chain := [certIn dr], rootSlot := dr.toNat / 4 % 4 } }
      else s.chained ((upto (max ix s.dbg.chain.length)).map fun i => if i + 1 = ix then certIn dr else s.dbg.chain.getD i [])) := by
  have hexec : exec (.dbgChainUpdate dr) s = execDbgChainUpdate dr s := rfl
  have husable : s.unlockUsable = true := decide_eq_true h
  rw [hexec, execDbgChainUpdate, certIn_eq, hix, if_neg (not_not_intro husable)]
  match ix with
  | 0 => rfl
  | 1 => rfl
  | n + 2 => rfl

/-- A certificate of the next index lengthens the chain. -/
theorem chain_next {α : Type} (d x : α) (l : List α) :
    (upto (max (l.length + 1) l.length)).map (fun i => if i + 1 = l.length + 1 then x else l.getD i d) = l ++ [x] := by
  refine List.ext_getElem (by simp [upto]) fun i h1 h2 => ?_
  have hlen : i < l.length + 1 := by simpa using h2
  simp only [upto, List.getElem_map, List.getElem_range]
  by_cases hi : i < l.length
  · rw [if_neg (by omega), List.getElem_append_left hi, List.getD_eq_getElem _ _ hi]
  · rw [if_pos (by omega), List.getElem_append_right (by omega)]
    simp

theorem unlock_refused {s : State} (h : 2 ≤ s.dbgLevel) : ¬ s.unlockUsable = true := fun hu => Nat.not_lt.mpr h (of_decide_eq_true hu)

theorem failCount (n : Nat) : min 3 (n + 1) = if n < 3 then n + 1 else 3 := by
  split_ifs
  · omega
  · omega

/-- The response is checked: a right one unlocks, a wrong one counts. -/
theorem debugUnlockCheck_exec {s : State} {sig : BitVec 768} {n : Option (BitVec 384)} (h : s.dbg.response = some (sig, n)) :
    exec .debugUnlockCheck s = .next (if (match n with
        | some nonce => s.responseOk sig nonce
        | none => false) = true then { s with dbg := { s.dbg with response := none } }.setBit .SYS_DBG 0 15 true
      else { s with dbg := { s.dbg with response := none } }.setFld .SYS_DBG 0 1 0
        (if s.fld .SYS_DBG 0 1 0 < 3 then s.fld .SYS_DBG 0 1 0 + 1 else 3)) := by
  have hexec : exec .debugUnlockCheck s = execDebugUnlockCheck s := rfl
  rw [hexec, execDebugUnlockCheck]
  split
  · next hnone => exact absurd (h.symm.trans hnone) (by simp)
  · next sig' n' hsome =>
    cases h.symm.trans hsome
    cases n
    all_goals
      dsimp only
      rw [failCount] <;> rfl

theorem unlocking : Rules.Unlocking := by
  intro s dr sig nonce cert with' done fails
  have hfails : fails < 4 := Nat.mod_lt _ (by decide)
  refine ⟨fun hlevel => ?_, fun hlevel => ?_, fun hresp => debugUnlockCheck_exec hresp, fun hresp => (debugUnlockCheck_exec hresp).trans ?_⟩
  · have husable : s.unlockUsable = true := decide_eq_true hlevel
    have hlonger (k : Nat) (hk : k ≠ 0) (hix : dr.toNat % 4 = k + 1) (hlen : s.dbg.chain.length = k) :
        exec (.dbgChainUpdate dr) s = .next (s.chained (s.dbg.chain ++ [cert])) := by
      rw [dbgChainUpdate_exec hlevel hix, if_neg (by omega), if_neg (by omega), ← hlen, chain_next] <;> rfl
    refine ⟨fun hix => dbgChainUpdate_exec hlevel hix, fun hix => dbgChainUpdate_exec hlevel hix, hlonger 1 (by decide), hlonger 2 (by decide),
      fun hread => ?_, fun hread => ?_, fun hfew => ?_, fun hmany => ?_⟩
    · exact congrArg Host.Outcome.next (if_neg (not_or_intro (not_not_intro husable) (ne_true_of_eq_false hread)))
    · exact congrArg Host.Outcome.next (if_pos (Or.inr hread))
    · exact congrArg Host.Outcome.next (if_neg (not_or_intro (not_not_intro husable) (Nat.not_le.mpr hfew)))
    · exact congrArg Host.Outcome.next (if_pos (Or.inr hmany.ge))
  · have hno := unlock_refused hlevel
    exact ⟨congrArg Host.Outcome.next (if_pos hno), congrArg Host.Outcome.next (if_pos (Or.inl hno)), congrArg Host.Outcome.next (if_pos (Or.inl hno))⟩
  · exact congrArg Host.Outcome.next (if_neg Bool.false_ne_true)

/-! ### Accesses (R405) -/

theorem debugUsable_iff (s : State) : s.debugUsable = true ↔ s.dbgLevel = 0 ∨ (s.dbgLevel = 1 ∧ s.bit .SYS_DBG 0 15 = true) := by
  rw [State.debugUsable, Bool.or_eq_true, Bool.and_eq_true, decide_eq_true_iff, decide_eq_true_iff]

theorem debuggable_iff (k : Core) : k.debuggable = true ↔ k.run = .halted ∨ k.run = .locked := by
  rw [Core.debuggable, Bool.or_eq_true, decide_eq_true_iff, decide_eq_true_iff]

theorem debugAnswer_ok (s : State) (v : W64) : s.debugAnswer (.ok v) = s.debugged true v 0 0 := rfl

theorem debugAnswer_error (s : State) (e : BitVec 3) : s.debugAnswer (.error e) = s.debugged false 0 e 1 := rfl

/-- A word read byte by byte. -/
theorem wordRead_eq (b0 b1 : Byte) : BitVec.ofNat 64 (leNat [b0, b1]) = (b1 ++ b0 : Word).setWidth 64 := by
  have h0 := b0.isLt
  have h1 := b1.isLt
  have hle : leNat [b0, b1] = b0.toNat + 256 * b1.toNat := rfl
  apply BitVec.eq_of_toNat_eq
  rw [BitVec.toNat_ofNat, BitVec.toNat_setWidth, BitVec.toNat_append, hle, ← Nat.shiftLeft_add_eq_or_of_lt h0, Nat.shiftLeft_eq]
  omega

theorem setWidth_loOf (v : W32) : v.setWidth 16 = loOf v := BitVec.eq_of_toNat_eq (by rw [loOf, BitVec.toNat_setWidth, BitVec.toNat_ofNat])

theorem setWidth_hiOf (v : W32) : (v >>> 16).setWidth 16 = hiOf v := by
  apply BitVec.eq_of_toNat_eq
  rw [hiOf, BitVec.toNat_setWidth, BitVec.toNat_ushiftRight, BitVec.toNat_ofNat, Nat.shiftRight_eq_div_pow]

/-- A special register with its low half replaced. -/
theorem w32of_low (old : W32) (v : Word) : w32of (hiOf old) v = old / 0x10000 * 0x10000 + v.setWidth 32 := by
  have hold := old.isLt
  have hv := v.isLt
  apply BitVec.eq_of_toNat_eq
  rw [w32of, hiOf, BitVec.toNat_ofNat, BitVec.toNat_ofNat, BitVec.toNat_add, BitVec.toNat_mul, BitVec.toNat_udiv, BitVec.toNat_setWidth,
    show (0x10000 : W32).toNat = 65536 from rfl]
  omega

/-- A special register with its high half replaced. -/
theorem w32of_high (old : W32) (v : Word) : w32of v (loOf old) = (v ++ old.setWidth 16 : BitVec 32) := by
  have hv := v.isLt
  have hlow : (loOf old).toNat = (old.setWidth 16).toNat := by rw [setWidth_loOf]
  have hlt := (old.setWidth 16).isLt
  apply BitVec.eq_of_toNat_eq
  rw [w32of, BitVec.toNat_ofNat, BitVec.toNat_append, hlow, ← Nat.shiftLeft_add_eq_or_of_lt hlt, Nat.shiftLeft_eq]
  omega

/-- Halting a core that has reached a boundary. -/
theorem haltControl_halts {s : State} {c : CoreId} (hrun : (s.core c).run = .running ∨ (s.core c).run = .waitInt ∨ (s.core c).run = .waitTlb)
    (hload : (s.core c).loadWait = none) : s.haltControl c 1 = s.haltCore c := by
  have hnone : ¬ (s.core c).loadWait.isSome = true := by
    rw [hload]
    exact Bool.false_ne_true
  unfold State.haltControl
  dsimp only
  rw [if_pos rfl]
  rcases hrun with h | h | h
  all_goals
    rw [h]
    exact if_neg hnone

/-- Halting waits for a load in MD. -/
theorem haltControl_waits {s : State} {c : CoreId} (hrun : (s.core c).run = .running) (hload : (s.core c).loadWait ≠ none) :
    s.haltControl c 1 = s.modCore c fun k => { k with haltReq := true } := by
  unfold State.haltControl
  dsimp only
  rw [if_pos rfl, hrun]
  exact if_pos (Option.isSome_iff_ne_none.mpr hload)

/-- A halted core goes on. -/
theorem haltControl_resumes {s : State} {c : CoreId} (hrun : (s.core c).run = .halted) : s.haltControl c 0 = s.resumeCore c := by
  unfold State.haltControl
  dsimp only
  rw [if_neg (show ¬ (0 : Word) = 1 by decide), if_pos rfl, if_pos hrun]

section
variable {s : State} {c : CoreId} (hu : s.debugUsable = true)
include hu

theorem debugHalt_exec (v : Word) : exec (.debugHalt c v) s = .next ((s.haltControl c v).dbgStatus 0) :=
  congrArg Host.Outcome.next (if_neg (not_not_intro hu))

theorem debugCoreHalt_exec (v : Word) : exec (.debugCoreAccess c 0xFF true v) s = .next ((s.haltControl c v).dbgStatus 0) :=
  congrArg Host.Outcome.next ((if_neg (not_not_intro hu)).trans (if_pos ⟨rfl, rfl⟩))

theorem debugPhysicalWrite_exec (a : PAddr) (v : Word) : exec (.debugPhysicalAccess a true v) s =
    .next (match s.writeBus (s.debugMaster a.toNat) a.toNat (leBytes 2 v.toNat) with
      | (.ok _, t) => t.debugged true 0 0 0
      | (.error e, t) => t.debugged false 0 e 1) :=
  congrArg Host.Outcome.next ((if_neg (not_not_intro hu)).trans rfl)

theorem debugPhysicalRead_exec (a : PAddr) (v : Word) : exec (.debugPhysicalAccess a false v) s =
    .next (match s.readBus (s.debugMaster a.toNat) a.toNat 2 with
      | (.ok l, t) => t.debugged true (BitVec.ofNat 64 (leNat l)) 0 0
      | (.error e, t) => t.debugged false 0 e 1) :=
  congrArg Host.Outcome.next ((if_neg (not_not_intro hu)).trans rfl)

theorem debugCoreAccess_running {sel : Byte} {wr : Bool} {v : Word} (hsel : sel ≠ 0xFF) (hrun : ¬ (s.core c).debuggable = true) :
    exec (.debugCoreAccess c sel wr v) s = .next (s.dbgStatus 2) :=
  congrArg Host.Outcome.next ((if_neg (not_not_intro hu)).trans ((if_neg fun h => hsel h.1).trans (if_pos hrun)))

variable (hstop : (s.core c).debuggable = true)
include hstop

theorem debugCoreRead_exec {sel : Byte} {v w : Word} (h : s.coreRead c sel.toNat = some w) :
    exec (.debugCoreAccess c sel false v) s = .next (s.debugged true (w.setWidth 64) 0 0) := by
  refine congrArg Host.Outcome.next ((if_neg (not_not_intro hu)).trans ((if_neg fun h => Bool.false_ne_true h.2).trans
    ((if_neg (not_not_intro hstop)).trans ((if_neg Bool.false_ne_true).trans ?_))))
  rw [h] <;> rfl

theorem debugCoreWrite_exec {sel : Byte} {v : Word} {t : State} (hsel : sel ≠ 0xFF) (h : s.coreWrite c sel.toNat v = some t) :
    exec (.debugCoreAccess c sel true v) s = .next (t.debugged true 0 0 0) := by
  refine congrArg Host.Outcome.next ((if_neg (not_not_intro hu)).trans ((if_neg fun h => hsel h.1).trans
    ((if_neg (not_not_intro hstop)).trans ((if_pos rfl).trans ?_))))
  rw [h] <;> rfl

end

/-! The selectors of R405: a register, a special register, and the high half of a wide one. -/

theorem sel_toNat {n : Nat} (h : n < 256) : (BitVec.ofNat 8 n).toNat = n := by rw [BitVec.toNat_ofNat]; exact Nat.mod_eq_of_lt h

theorem sel_ne_halt {n : Nat} (h : n < 255) : BitVec.ofNat 8 n ≠ 0xFF := fun he => by
  have hn : (BitVec.ofNat 8 n).toNat = 255 := congrArg BitVec.toNat he
  rw [sel_toNat (by omega)] at hn
  omega

section
variable (s : State) (c : CoreId) (v : Word)

theorem coreRead_register {n : Nat} (h : n < 32) : s.coreRead c n = some (s.rg c (BitVec.ofNat 5 n)) := if_pos h

theorem coreWrite_register {n : Nat} (h : n < 32) : s.coreWrite c n v = some (s.wr c (BitVec.ofNat 5 n) v) := if_pos h

theorem coreRead_special {k : Nat} (h : k < 16) : s.coreRead c (32 + k) = some (((s.core c).special c k).setWidth 16) := by
  rw [setWidth_loOf, State.coreRead, if_neg (by omega), if_pos (by omega), Nat.add_sub_cancel_left]

theorem coreWrite_special {k : Nat} (h : k < 16) (h0 : k ≠ 0) : s.coreWrite c (32 + k) v =
    some (s.modCore c fun y => y.setSpecial c k ((s.core c).special c k / 0x10000 * 0x10000 + v.setWidth 32)) := by
  rw [State.coreWrite, if_neg (by omega), if_pos (by omega), Nat.add_sub_cancel_left]
  dsimp only
  rw [w32of_low]
  exact congrArg (fun f => some (s.modCore c f)) (funext fun y => if_neg h0)

theorem coreRead_high {k : Nat} (h : k < 16) (hw : specWide k = true) :
    s.coreRead c (64 + k) = some (((s.core c).special c k >>> 16).setWidth 16) := by
  rw [setWidth_hiOf, State.coreRead, if_neg (by omega), if_neg (by omega), Nat.add_sub_cancel_left, if_pos ⟨by omega, by omega, hw⟩]

theorem coreWrite_high {k : Nat} (h : k < 16) (hw : specWide k = true) : s.coreWrite c (64 + k) v =
    some (s.modCore c fun y => y.setSpecial c k (v ++ ((s.core c).special c k).setWidth 16 : BitVec 32)) := by
  rw [State.coreWrite, if_neg (by omega), if_neg (by omega), Nat.add_sub_cancel_left, if_pos ⟨by omega, by omega, hw⟩]
  dsimp only
  rw [w32of_high]

end

theorem debugAccesses : Rules.DebugAccesses := by
  intro s c a wr sel v n k usable refused fine x m stopped ok put timed halts resumes
  refine ⟨fun hno => ?_, fun hyes => ?_⟩
  · have hno' : ¬ s.debugUsable = true := mt (debugUsable_iff s).mp hno
    exact ⟨congrArg Host.Outcome.next (if_pos hno'), congrArg Host.Outcome.next (if_pos hno'), congrArg Host.Outcome.next (if_pos hno')⟩
  · have hu : s.debugUsable = true := (debugUsable_iff s).mpr hyes
    refine ⟨fun t h => ?_, fun e t h => ?_, fun b0 b1 t h => ?_, fun e t h => ?_, fun hstop => ?_, fun hstop hsel => ?_, fun hrun hload => ?_,
      fun hrun hload => ?_, fun hrun => ?_⟩
    · exact (debugPhysicalWrite_exec hu a v).trans (by rw [h] <;> rfl)
    · exact (debugPhysicalWrite_exec hu a v).trans (by rw [h])
    · refine (debugPhysicalRead_exec hu a v).trans ?_
      rw [h]
      dsimp only
      rw [wordRead_eq]
    · exact (debugPhysicalRead_exec hu a v).trans (by rw [h])
    · have hstop' : (s.core c).debuggable = true := (debuggable_iff _).mpr hstop
      have hn := n.isLt
      have hk := k.isLt
      have hsel {j : Nat} (h : j < 256) : (BitVec.ofNat 8 j).toNat = j := sel_toNat h
      refine ⟨?_, ?_, ?_, fun hw => ?_, fun h0 => ?_, fun hw => ?_⟩
      · exact debugCoreRead_exec hu hstop' (by rw [hsel (by omega)]; exact coreRead_register s c hn)
      · exact debugCoreWrite_exec hu hstop' (sel_ne_halt (by omega)) (by rw [hsel (by omega)]; exact coreWrite_register s c v hn)
      · exact debugCoreRead_exec hu hstop' (by rw [hsel (by omega)]; exact coreRead_special s c hk)
      · exact debugCoreRead_exec hu hstop' (by rw [hsel (by omega)]; exact coreRead_high s c hk hw)
      · exact debugCoreWrite_exec hu hstop' (sel_ne_halt (by omega))
          (by rw [hsel (by omega)]; exact coreWrite_special s c v hk fun h => h0 (Fin.ext h))
      · exact debugCoreWrite_exec hu hstop' (sel_ne_halt (by omega)) (by rw [hsel (by omega)]; exact coreWrite_high s c v hk hw)
    · exact debugCoreAccess_running hu hsel (mt (debuggable_iff _).mp hstop)
    · have hhalts : (s.haltControl c 1).dbgStatus 0 = halts := congrArg (State.dbgStatus · 0) (haltControl_halts hrun hload)
      exact ⟨(debugHalt_exec hu 1).trans (congrArg Host.Outcome.next hhalts), (debugCoreHalt_exec hu 1).trans (congrArg Host.Outcome.next hhalts)⟩
    · exact (debugHalt_exec hu 1).trans (congrArg (fun t => Host.Outcome.next (State.dbgStatus t 0)) (haltControl_waits hrun hload))
    · have hresumes : (s.haltControl c 0).dbgStatus 0 = resumes := congrArg (State.dbgStatus · 0) (haltControl_resumes hrun)
      exact ⟨(debugHalt_exec hu 0).trans (congrArg Host.Outcome.next hresumes), (debugCoreHalt_exec hu 0).trans (congrArg Host.Outcome.next hresumes)⟩

end Sys2Proof.Machine

namespace Sys2Proof

/-- Settles O53. -/
theorem debugPort : Obligations.DebugPort := ⟨Machine.unlocking, Machine.debugAccesses⟩

end Sys2Proof
end

section
/-! SUPPORT. Wear, the windows of corrected errors, and the repair record (R376, R377, R382). -/

namespace Sys2Proof.Machine

open Sys2Proof

/-! ### The interrupt of the spares, and what it leaves -/

/-- The registers that a spares interrupt leaves. -/
def SpareLeaves (l : RegKind) (j : Nat) : Prop := l.addr j ≠ RegKind.SPR_INT_STAT.addr 0 ∧ (∀ i < 8, l.addr j ≠ RegKind.HINT_PEND.addr i) ∧
  ∀ i < 4, l.addr j ≠ RegKind.FHINT_PEND.addr i

theorem SpareLeaves.sprInt {l : RegKind} {j : Nat} (h : SpareLeaves l j) (s : State) (b : Nat) : (s.sprInt b).reg l j = s.reg l j := by
  obtain ⟨hstat, hh, hf⟩ := h
  unfold State.sprInt State.raiseStat
  dsimp only
  split_ifs
  · exact (reg_raise _ _ _ _ _ hh hf).trans (reg_setReg_of_ne _ _ _ _ _ _ hstat)
  · exact reg_setReg_of_ne _ _ _ _ _ _ hstat

theorem spareLeaves_WEAR_ZSTAT : ∀ z < 6, SpareLeaves .WEAR_ZSTAT z := by unfold SpareLeaves; decide

theorem spareLeaves_WEAR_ROSC : ∀ z < 6, SpareLeaves .WEAR_ROSC z := by unfold SpareLeaves; decide

theorem ml_sprInt (s : State) (b : Nat) : (s.sprInt b).ml = s.ml := by
  unfold State.sprInt State.raiseStat State.raise
  dsimp only
  split_ifs <;> rfl

theorem spr_sprInt (s : State) (b : Nat) : (s.sprInt b).spr = s.spr := by
  unfold State.sprInt State.raiseStat State.raise
  dsimp only
  split_ifs <;> rfl

/-! ### A wear measurement (R376) -/

section
variable (slacks : List Nat) (rosc : List Word) (s : State)

/-- The readings of a zone noted. -/
def State.slackNoted (s : State) (z : Nat) : State :=
  (s.setFld .WEAR_ZSTAT z 9 0 (min 1023 (slacks.getD z 0))).setReg .WEAR_ROSC z (rosc.getD z 0)

/-- The zones below their minimum. -/
def lowZones : List Nat := (upto 6).filter fun z => slacks.getD z 0 < Config.slackMin z

/-- The readings of every zone noted, and the offset raised where that is due. -/
def State.wearRaised : State :=
  let s1 := (upto 6).foldl (fun s z => s.slackNoted slacks rosc z) s
  if ((lowZones slacks).any fun z => z < 5) ∧ s.wearOffset < 10 then s1.setWear (s.wearOffset + 1) else s1

/-- The alarm of a zone below its minimum. -/
def State.alarmed (off : Nat) (s : State) (z : Nat) : State := if z = 5 ∨ off = 10 then s.wearAlarm z else s

variable {s} in
theorem wearMeasurement_exec (h : s.bit .SYS_RAIL 0 14 = true) : exec (.wearMeasurement slacks rosc) s =
    .next ((lowZones slacks).foldl (State.alarmed s.wearOffset) (s.wearRaised slacks rosc)) := by
  have hzones : ((upto 6).filter fun z => z = 5 || s.bit .SYS_RAIL 0 14) = upto 6 :=
    List.filter_eq_self.mpr fun z _ => by rw [h, Bool.or_true]
  have hexec : exec (.wearMeasurement slacks rosc) s = execWearMeasurement slacks rosc s := rfl
  rw [hexec, execWearMeasurement, hzones] <;> rfl

end

/-- A fold over numbers, each of which changes what is seen at itself alone. -/
theorem foldl_seen {β : Type} (seen : State → Nat → β) (f : State → Nat → State) (F : Nat → β → β) (n : Nat)
    (hself : ∀ s, ∀ z < n, seen (f s z) z = F z (seen s z)) (hother : ∀ s, ∀ z < n, ∀ y < n, y ≠ z → seen (f s z) y = seen s y) {z : Nat} (hz : z < n)
    (l : List Nat) (s : State) (hl : l.Nodup) (hlt : ∀ y ∈ l, y < n) : seen (l.foldl f s) z = if z ∈ l then F z (seen s z) else seen s z := by
  induction l generalizing s with
  | nil => rfl
  | cons y l ih =>
    obtain ⟨hy, hl⟩ := List.nodup_cons.mp hl
    have hyn : y < n := hlt y List.mem_cons_self
    rw [List.foldl_cons, ih (f s y) hl fun x hx => hlt x (List.mem_cons_of_mem _ hx)]
    by_cases h : z = y
    · rw [h, if_neg hy, if_pos List.mem_cons_self, hself s y hyn]
    · rw [hother s y hyn z hz h]
      simp only [List.mem_cons, h, false_or]

theorem foldl_ml (f : State → Nat → State) (hf : ∀ s z, (f s z).ml = s.ml) (l : List Nat) (s : State) : (l.foldl f s).ml = s.ml :=
  List.foldlRecOn (motive := fun t => t.ml = s.ml) l f rfl fun t ht z _ => (hf t z).trans ht

theorem addr_ZSTAT_ne : ∀ z < 6, ∀ y < 6, y ≠ z → RegKind.WEAR_ZSTAT.addr y ≠ RegKind.WEAR_ZSTAT.addr z := by decide

theorem addr_ROSC_ne : ∀ z < 6, ∀ y < 6, y ≠ z → RegKind.WEAR_ROSC.addr y ≠ RegKind.WEAR_ROSC.addr z := by decide

theorem addr_ZSTAT_ne_ROSC : ∀ z < 6, ∀ y < 6, RegKind.WEAR_ZSTAT.addr y ≠ RegKind.WEAR_ROSC.addr z := by decide

/-- The status of a zone with its ALARM set. -/
def alarmSet (w : Word) : Word := if wbit w 15 = true then w else putBit w 15 true

section
variable (slacks : List Nat) (rosc : List Word) (s : State) {z : Nat} (hz : z < 6)
include hz

theorem zstat_slackNoted_self : (s.slackNoted slacks rosc z).reg .WEAR_ZSTAT z = putFld (s.reg .WEAR_ZSTAT z) 9 0 (min 1023 (slacks.getD z 0)) := by
  rw [State.slackNoted, reg_setReg_of_ne _ _ _ _ _ _ (addr_ZSTAT_ne_ROSC z hz z hz), State.setFld, reg_setReg]

theorem zstat_slackNoted_of_ne {y : Nat} (hy : y < 6) (h : y ≠ z) : (s.slackNoted slacks rosc z).reg .WEAR_ZSTAT y = s.reg .WEAR_ZSTAT y := by
  rw [State.slackNoted, reg_setReg_of_ne _ _ _ _ _ _ (addr_ZSTAT_ne_ROSC z hz y hy), State.setFld,
    reg_setReg_of_ne _ _ _ _ _ _ (addr_ZSTAT_ne z hz y hy h)]

theorem rosc_slackNoted_of_ne {y : Nat} (hy : y < 6) (h : y ≠ z) : (s.slackNoted slacks rosc z).reg .WEAR_ROSC y = s.reg .WEAR_ROSC y := by
  rw [State.slackNoted, reg_setReg_of_ne _ _ _ _ _ _ (addr_ROSC_ne z hz y hy h), State.setFld,
    reg_setReg_of_ne _ _ _ _ _ _ (addr_ZSTAT_ne_ROSC y hy z hz).symm]

theorem zstat_alarmed_self (off : Nat) : (s.alarmed off z).reg .WEAR_ZSTAT z =
    if z = 5 ∨ off = 10 then alarmSet (s.reg .WEAR_ZSTAT z) else s.reg .WEAR_ZSTAT z := by
  unfold State.alarmed State.wearAlarm alarmSet
  rw [State.bit]
  split_ifs
  · rfl
  · rw [(spareLeaves_WEAR_ZSTAT z hz).sprInt, State.setBit, reg_setReg]
  · rfl

end

/-- An alarm leaves every other register of wear. -/
theorem reg_alarmed_of_ne (s : State) (z off : Nat) {l : RegKind} {y : Nat} (hl : SpareLeaves l y) (h : l.addr y ≠ RegKind.WEAR_ZSTAT.addr z) :
    (s.alarmed off z).reg l y = s.reg l y := by
  unfold State.alarmed State.wearAlarm
  split_ifs
  · rfl
  · rw [hl.sprInt, State.setBit, reg_setReg_of_ne _ _ _ _ _ _ h]
  · rfl

section
variable (slacks : List Nat) (rosc : List Word) (s : State)

theorem nodup_lowZones : (lowZones slacks).Nodup := (List.nodup_range (n := 6)).filter _

theorem mem_lowZones {z : Nat} : z ∈ lowZones slacks ↔ z < 6 ∧ slacks.getD z 0 < Config.slackMin z := by
  rw [lowZones, List.mem_filter, decide_eq_true_iff, upto, List.mem_range]

/-- A zone of the C-die is below its minimum, and the offset can still rise. -/
abbrev State.wearDue : Prop := ((lowZones slacks).any fun z => z < 5) ∧ s.wearOffset < 10

theorem zstat_noted {z : Nat} (hz : z < 6) : ((upto 6).foldl (fun s z => s.slackNoted slacks rosc z) s).reg .WEAR_ZSTAT z =
    putFld (s.reg .WEAR_ZSTAT z) 9 0 (min 1023 (slacks.getD z 0)) :=
  (foldl_seen (fun s z => s.reg .WEAR_ZSTAT z) _ (fun z w => putFld w 9 0 (min 1023 (slacks.getD z 0))) 6
    (fun s _ hz => zstat_slackNoted_self slacks rosc s hz) (fun s _ hz _ hy h => zstat_slackNoted_of_ne slacks rosc s hz hy h) hz (upto 6) s
    List.nodup_range fun _ h => List.mem_range.mp h).trans (if_pos (List.mem_range.mpr hz))

theorem rosc_noted {z : Nat} (hz : z < 6) : ((upto 6).foldl (fun s z => s.slackNoted slacks rosc z) s).reg .WEAR_ROSC z = rosc.getD z 0 :=
  (foldl_seen (fun s z => s.reg .WEAR_ROSC z) _ (fun z _ => rosc.getD z 0) 6 (fun _ _ _ => reg_setReg _ _ _ _)
    (fun s _ hz _ hy h => rosc_slackNoted_of_ne slacks rosc s hz hy h) hz (upto 6) s
    List.nodup_range fun _ h => List.mem_range.mp h).trans (if_pos (List.mem_range.mpr hz))

theorem zstat_setWear (n : Nat) {z : Nat} (hz : z < 6) : (s.setWear n).reg .WEAR_ZSTAT z =
    if z < 5 then putFld (s.reg .WEAR_ZSTAT z) 14 11 n else s.reg .WEAR_ZSTAT z := by
  refine (foldl_seen (fun s z => s.reg .WEAR_ZSTAT z) (fun s z => s.setFld .WEAR_ZSTAT z 14 11 n) (fun _ w => putFld w 14 11 n) 6
    (fun _ _ _ => reg_setReg _ _ _ _) (fun _ z hz y hy h => reg_setReg_of_ne _ _ _ _ _ _ (addr_ZSTAT_ne z hz y hy h)) hz (upto 5) s
    List.nodup_range fun y h => Nat.lt_succ_of_lt (List.mem_range.mp h)).trans ?_
  simp only [upto, List.mem_range]

theorem rosc_setWear (n : Nat) {z : Nat} (hz : z < 6) : (s.setWear n).reg .WEAR_ROSC z = s.reg .WEAR_ROSC z :=
  List.foldlRecOn (motive := fun t : State => t.reg .WEAR_ROSC z = s.reg .WEAR_ROSC z) (upto 5) (fun (s : State) z => s.setFld .WEAR_ZSTAT z 14 11 n) rfl
    fun _ ht y hy => (reg_setReg_of_ne _ _ _ _ _ _ (addr_ZSTAT_ne_ROSC z hz y (Nat.lt_succ_of_lt (List.mem_range.mp hy))).symm).trans ht

/-- The status of a zone once its readings are noted and the offset has risen where that is due. -/
theorem zstat_wearRaised {z : Nat} (hz : z < 6) : (s.wearRaised slacks rosc).reg .WEAR_ZSTAT z =
    let w := putFld (s.reg .WEAR_ZSTAT z) 9 0 (min 1023 (slacks.getD z 0))
    if s.wearDue slacks ∧ z < 5 then putFld w 14 11 (s.wearOffset + 1) else w := by
  have hnoted := zstat_noted slacks rosc s hz
  unfold State.wearRaised
  dsimp only
  by_cases hdue : s.wearDue slacks
  · rw [if_pos hdue, zstat_setWear _ _ hz, hnoted]
    exact if_congr (and_iff_right hdue).symm rfl rfl
  · rw [if_neg hdue, hnoted, if_neg fun h => hdue h.1]

theorem rosc_wearRaised {z : Nat} (hz : z < 6) : (s.wearRaised slacks rosc).reg .WEAR_ROSC z = rosc.getD z 0 := by
  unfold State.wearRaised
  dsimp only
  split_ifs
  · rw [rosc_setWear _ _ hz, rosc_noted _ _ _ hz]
  · exact rosc_noted _ _ _ hz

/-- The state after a wear measurement. -/
def State.wearMeasured : State := (lowZones slacks).foldl (State.alarmed s.wearOffset) (s.wearRaised slacks rosc)

theorem zstat_wearMeasured {z : Nat} (hz : z < 6) : (s.wearMeasured slacks rosc).reg .WEAR_ZSTAT z =
    if slacks.getD z 0 < Config.slackMin z ∧ (z = 5 ∨ s.wearOffset = 10) then alarmSet ((s.wearRaised slacks rosc).reg .WEAR_ZSTAT z)
    else (s.wearRaised slacks rosc).reg .WEAR_ZSTAT z := by
  have hseen := foldl_seen (fun s z => s.reg .WEAR_ZSTAT z) (State.alarmed s.wearOffset) (fun z w => if z = 5 ∨ s.wearOffset = 10 then alarmSet w else w) 6
    (fun t _ hz => zstat_alarmed_self t hz _)
    (fun t z hz y hy h => reg_alarmed_of_ne t z _ (spareLeaves_WEAR_ZSTAT y hy) (addr_ZSTAT_ne z hz y hy h)) hz (lowZones slacks)
    (s.wearRaised slacks rosc) (nodup_lowZones slacks) fun _ h => ((mem_lowZones slacks).mp h).1
  refine hseen.trans ?_
  simp only [mem_lowZones, hz, true_and, ite_and]

theorem rosc_wearMeasured {z : Nat} (hz : z < 6) : (s.wearMeasured slacks rosc).reg .WEAR_ROSC z = rosc.getD z 0 :=
  List.foldlRecOn (motive := fun t : State => t.reg .WEAR_ROSC z = rosc.getD z 0) (lowZones slacks) (State.alarmed s.wearOffset) (rosc_wearRaised slacks rosc s hz)
    fun t ht y hy => (reg_alarmed_of_ne t y _ (spareLeaves_WEAR_ROSC z hz)
      (addr_ZSTAT_ne_ROSC z hz y ((mem_lowZones slacks).mp hy).1).symm).trans ht

theorem ml_wearAlarm (z : Nat) : (s.wearAlarm z).ml = s.ml := by
  unfold State.wearAlarm
  split_ifs
  · rfl
  · exact ml_sprInt _ _

theorem ml_setWear (n : Nat) : (s.setWear n).ml = s.ml := foldl_ml (fun (s : State) z => s.setFld .WEAR_ZSTAT z 14 11 n) (fun _ _ => rfl) (upto 5) s

theorem ml_wearMeasured : (s.wearMeasured slacks rosc).ml = s.ml := by
  have halarmed (t : State) (z : Nat) : (t.alarmed s.wearOffset z).ml = t.ml := by
    unfold State.alarmed
    split_ifs
    · exact ml_wearAlarm t z
    · rfl
  have hnoted : ((upto 6).foldl (fun s z => s.slackNoted slacks rosc z) s).ml = s.ml :=
    foldl_ml (State.slackNoted slacks rosc) (fun _ _ => rfl) _ _
  refine (foldl_ml _ halarmed _ _).trans ?_
  unfold State.wearRaised
  dsimp only
  split_ifs
  · rw [ml_setWear, hnoted]
  · exact hnoted

end

theorem wfld_alarmSet (w : Word) {hi lo : Nat} (h : hi < 15) : wfld (alarmSet w) hi lo = wfld w hi lo := by
  unfold alarmSet
  split_ifs
  · rfl
  · exact wfld_putBit_of_out _ _ _ (by decide) (Or.inr h)

theorem wbit_alarmSet (w : Word) : wbit (alarmSet w) 15 = true := by
  unfold alarmSet
  split_ifs with h
  · exact h
  · exact (wbit_putBit _ _ _ _ (by decide)).trans (if_pos rfl)

section
variable (slacks : List Nat) (rosc : List Word) (s : State) {z : Nat}

/-- An alarm changes no field of a zone's status. -/
theorem fld_wearMeasured (hz : z < 6) {hi lo : Nat} (h : hi < 15) :
    (s.wearMeasured slacks rosc).fld .WEAR_ZSTAT z hi lo = (s.wearRaised slacks rosc).fld .WEAR_ZSTAT z hi lo := by
  rw [State.fld, zstat_wearMeasured _ _ _ hz, State.fld]
  split_ifs
  · exact wfld_alarmSet _ h
  · rfl

theorem slack_wearRaised (hz : z < 6) : (s.wearRaised slacks rosc).fld .WEAR_ZSTAT z 9 0 = min 1023 (slacks.getD z 0) := by
  have hnoted : wfld (putFld (s.reg .WEAR_ZSTAT z) 9 0 (min 1023 (slacks.getD z 0))) 9 0 = min 1023 (slacks.getD z 0) :=
    (wfld_putFld _ _ _ _ (by decide) (by decide)).trans (Nat.mod_eq_of_lt (by omega))
  rw [State.fld, zstat_wearRaised _ _ _ hz]
  dsimp only
  split_ifs
  · exact (wfld_putFld_of_disjoint _ _ _ _ _ _ (by decide) (by decide) (by decide)).trans hnoted
  · exact hnoted

theorem offset_wearRaised (hz : z < 5) : (s.wearRaised slacks rosc).fld .WEAR_ZSTAT z 14 11 =
    if s.wearDue slacks then s.wearOffset + 1 else s.fld .WEAR_ZSTAT z 14 11 := by
  rw [State.fld, zstat_wearRaised _ _ _ (Nat.lt_succ_of_lt hz)]
  dsimp only
  by_cases hdue : s.wearDue slacks
  · rw [if_pos ⟨hdue, hz⟩, if_pos hdue, wfld_putFld _ _ _ _ (by decide) (by decide)]
    exact Nat.mod_eq_of_lt (by have := hdue.2; omega)
  · rw [if_neg fun h => hdue h.1, if_neg hdue]
    exact wfld_putFld_of_disjoint _ _ _ _ _ _ (by decide) (by decide) (by decide)

/-- ALARM of a zone below its minimum, where no step of the offset is left for it. -/
theorem alarm_wearMeasured (hz : z < 6) : (s.wearMeasured slacks rosc).bit .WEAR_ZSTAT z 15 =
    (s.bit .WEAR_ZSTAT z 15 || (decide (slacks.getD z 0 < Config.slackMin z) && (decide (z = 5) || decide (s.wearOffset = 10)))) := by
  have hraised : wbit ((s.wearRaised slacks rosc).reg .WEAR_ZSTAT z) 15 = s.bit .WEAR_ZSTAT z 15 := by
    rw [zstat_wearRaised _ _ _ hz]
    dsimp only
    split_ifs
    · exact ((wbit_putFld _ _ _ _ _ (by decide) (by decide)).trans (if_neg (by decide))).trans
        ((wbit_putFld _ _ _ _ _ (by decide) (by decide)).trans (if_neg (by decide)))
    · exact (wbit_putFld _ _ _ _ _ (by decide) (by decide)).trans (if_neg (by decide))
  rw [State.bit, zstat_wearMeasured _ _ _ hz, ← Bool.decide_or, ← Bool.decide_and]
  split_ifs with h
  · rw [wbit_alarmSet, decide_eq_true h, Bool.or_true]
  · rw [hraised, decide_eq_false h, Bool.or_false]

end

/-! ### The windows of corrected errors (R377) -/

/-- A tile whose window has ended. -/
def windowEnded (t : Tile) : Tile := { t with ceWindow := 0 }

theorem tiles_foldl_windows (l : List Nat) (s : State) (k : Nat) :
    Tab.get {} (l.foldl (fun s k => { s with tiles := Tab.upd {} k windowEnded s.tiles }) s).tiles k =
      if k ∈ l then windowEnded (Tab.get {} s.tiles k) else Tab.get {} s.tiles k := by
  induction l generalizing s with
  | nil => rfl
  | cons j l ih =>
    rw [List.foldl_cons, ih]
    dsimp only
    by_cases h : k = j
    · rw [← h, Tab.get_upd_self, if_pos List.mem_cons_self]
      exact ite_self _
    · rw [Tab.get_upd_of_ne _ _ _ h]
      simp only [List.mem_cons, h, false_or]

/-- The end of the window clears the count of every tile. -/
theorem tiles_ceWindowExpiry (s : State) (k : Nat) :
    Tab.get {} ((s.tiles.map Prod.fst).foldl (fun s k => { s with tiles := Tab.upd {} k windowEnded s.tiles }) s).tiles k =
      windowEnded (Tab.get {} s.tiles k) := by
  rw [tiles_foldl_windows]
  split_ifs with h
  · rfl
  · rw [Tab.get_of_not_mem _ _ _ fun e he hk => h (List.mem_map.mpr ⟨e, he, hk⟩)]
    rfl

/-! ### The repair record (R382) -/

/-- Two units are the same where kind and number are. -/
theorem recUnit_eq_iff (w : W64) (u : UnitRef) : recUnit w = u ↔ w.toNat % 2 ^ 17 = u.kind.toNat + u.unit.toNat * 2 ^ 8 := by
  have hkind := u.kind.isLt
  have hunit := u.unit.isLt
  have hk : (recUnit w).kind.toNat = w.toNat % 2 ^ 8 := BitVec.toNat_setWidth _ _
  have hu : (recUnit w).unit.toNat = w.toNat / 2 ^ 8 % 2 ^ 9 := by
    rw [recUnit, BitVec.toNat_setWidth, BitVec.toNat_ushiftRight, Nat.shiftRight_eq_div_pow]
  refine ⟨fun h => ?_, fun h => ?_⟩
  · rw [h] at hk hu
    omega
  · have hkind' : (recUnit w).kind = u.kind := BitVec.eq_of_toNat_eq (by omega)
    have hunit' : (recUnit w).unit = u.unit := BitVec.eq_of_toNat_eq (by omega)
    cases u
    cases hkind'
    cases hunit'
    rfl

theorem recEntry_eq (e : RecEvent) (keyon : Nat) : recEntry e keyon = BitVec.ofNat 64 (e.unit.kind.toNat + e.unit.unit.toNat * 2 ^ 8 +
    (if e.live then 2 ^ 24 else 0) + (if e.sw then 2 ^ 25 else 0) + keyon * 2 ^ 32 + e.source.toNat * 2 ^ 48) := by
  have hflags : ∀ a b : Bool, (b2n a + 2 * b2n b) * 2 ^ 24 = (if a then 2 ^ 24 else 0) + (if b then 2 ^ 25 else 0) := by decide
  rw [recEntry, hflags, ← Nat.add_assoc (e.unit.kind.toNat + e.unit.unit.toNat * 2 ^ 8)]

/-- The state with an event's entry added to the record. -/
def State.entered (s : State) (e : RecEvent) : State :=
  State.sprInt { s with
    spr := { s.spr with record := s.spr.record ++ [recEntry e (s.reg .SYS_KEYON 0).toNat] }
    lay := { s.lay with mirrorDue := true } } 3

theorem record_entered (s : State) (e : RecEvent) : (s.entered e).spr.record.length = s.spr.record.length + 1 := by
  rw [State.entered, spr_sprInt]
  exact List.length_append

/-- A recorded unit is not recorded again, nor is any once the record is full. -/
theorem record_refused {s : State} {e : RecEvent} (h : (∃ w ∈ s.spr.record, recUnit w = e.unit) ∨ 256 ≤ s.spr.record.length) : s.record e = s :=
  if_pos (h.imp (fun ⟨w, hw, he⟩ => List.any_eq_true.mpr ⟨w, hw, decide_eq_true he⟩) id)

theorem record_added {s : State} {e : RecEvent} (hnew : ¬ ∃ w ∈ s.spr.record, recUnit w = e.unit) (hroom : s.spr.record.length < 256) :
    s.record e = if s.spr.record.length = 255 then (s.entered e).sprInt 1 else s.entered e := by
  have hgo : ¬ ((s.spr.record.any fun w => recUnit w = e.unit) = true ∨ 256 ≤ s.spr.record.length) := by
    rintro (h | h)
    · obtain ⟨w, hw, he⟩ := List.any_eq_true.mp h
      exact hnew ⟨w, hw, of_decide_eq_true he⟩
    · omega
  have hrecord : s.record e = if (s.entered e).spr.record.length = 256 then (s.entered e).sprInt 1 else s.entered e := if_neg hgo
  rw [hrecord, record_entered]
  exact if_congr (by omega) rfl rfl

theorem repairRecordAdd_exec {s : State} {e : RecEvent} {rest : List RecEvent} (h : s.spr.toAdd = e :: rest) :
    exec .repairRecordAdd s = .next (State.record { s with spr := { s.spr with toAdd := rest } } e) := by
  have hexec : exec .repairRecordAdd s = execRepairRecordAdd s := rfl
  rw [hexec, execRepairRecordAdd]
  split
  · next hnone => exact absurd (h.symm.trans hnone) (List.cons_ne_nil _ _)
  · next e' rest' hsome =>
    cases h.symm.trans hsome
    rfl

theorem wear : Rules.Wear := by
  intro s slacks rosc v e rest off low kind unit entry taken
  refine ⟨fun hrails => ?_, ⟨_, rfl, fun k => tiles_ceWindowExpiry s k⟩, fun hgo hlo hhi => congrArg Host.Outcome.next (if_pos ⟨hgo, hlo, hhi⟩),
    fun hadd => ⟨fun hno => ?_, fun hnew hroom => ?_⟩⟩
  · have hdue : s.wearDue slacks ↔ (upto 5).any low = true ∧ off < 10 := by
      refine and_congr_left' (List.any_eq_true.trans (Iff.trans ?_ List.any_eq_true.symm))
      constructor
      · rintro ⟨z, hz, h5⟩
        exact ⟨z, List.mem_range.mpr (of_decide_eq_true h5), decide_eq_true ((mem_lowZones slacks).mp hz).2⟩
      · rintro ⟨z, hz, hlow⟩
        have h5 : z < 5 := List.mem_range.mp hz
        exact ⟨z, (mem_lowZones slacks).mpr ⟨by omega, of_decide_eq_true hlow⟩, decide_eq_true h5⟩
    refine ⟨s.wearMeasured slacks rosc, wearMeasurement_exec slacks rosc hrails, ml_wearMeasured slacks rosc s, fun z hz => ⟨?_, rosc_wearMeasured slacks rosc s hz⟩,
      fun z hz => ?_, fun z hz => ?_⟩
    · rw [fld_wearMeasured slacks rosc s hz (by decide)]
      exact slack_wearRaised slacks rosc s hz
    · rw [fld_wearMeasured slacks rosc s (by omega) (by decide), offset_wearRaised slacks rosc s hz]
      exact if_congr hdue rfl rfl
    · exact alarm_wearMeasured slacks rosc s hz
  · refine (repairRecordAdd_exec hadd).trans (congrArg Host.Outcome.next (record_refused (hno.imp ?_ id)))
    exact fun ⟨w, hw, he⟩ => ⟨w, hw, (recUnit_eq_iff w e.unit).mpr he⟩
  · have hnew' : ¬ ∃ w ∈ taken.spr.record, recUnit w = e.unit := fun ⟨w, hw, he⟩ => hnew ⟨w, hw, (recUnit_eq_iff w e.unit).mp he⟩
    have hentered : taken.entered e = State.sprInt { taken with
        spr := { taken.spr with record := s.spr.record ++ [entry] }, lay := { s.lay with mirrorDue := true } } 3 := by
      rw [State.entered, recEntry_eq] <;> rfl
    intro a
    refine (repairRecordAdd_exec hadd).trans (congrArg Host.Outcome.next ((record_added hnew' hroom).trans ?_))
    rw [hentered]

end Sys2Proof.Machine
end

section
/-! SUPPORT. Tile migration: the queue, the start, the copy and the switch (R379 to R381). -/

namespace Sys2Proof.Machine

open Sys2Proof

/-- A spare that is neither failed nor bound. -/
def State.spareFree (s : State) (p : Nat) : Prop := (⟨1, BitVec.ofNat 9 p⟩ : UnitRef) ∉ s.spr.failed ∧ ∀ e ∈ s.spr.bindC, e.2 ≠ some p

theorem spareFree_iff (s : State) (p : Nat) :
    (decide (¬ s.spr.failed.contains ⟨1, BitVec.ofNat 9 p⟩) && s.spr.bindC.all fun e => e.2 ≠ some p) = true ↔ s.spareFree p := by
  rw [Bool.and_eq_true, decide_eq_true_iff, List.all_eq_true, State.spareFree, List.contains_iff_mem]
  exact and_congr_right' (forall₂_congr fun _ _ => decide_eq_true_iff)

/-- The lowest spare that is free is chosen. -/
theorem freeSpare_some {s : State} {p : Nat} (hlo : 256 ≤ p) (hhi : p < 272) (h : s.spareFree p) (hlow : ∀ q, 256 ≤ q → q < p → ¬ s.spareFree q) :
    s.freeSpare = some p := by
  have hp : 256 + (p - 256) = p := by omega
  have hfind : ((List.range 16).find? fun k => decide (¬ s.spr.failed.contains ⟨1, BitVec.ofNat 9 (256 + k)⟩) &&
      s.spr.bindC.all fun e => e.2 ≠ some (256 + k)) = some (p - 256) := by
    refine List.find?_range_eq_some.mpr ⟨?_, List.mem_range.mpr (by omega), fun k hk => ?_⟩
    · rw [hp]
      exact (spareFree_iff s p).mpr h
    · rw [Bool.not_eq_true']
      exact Bool.eq_false_iff.mpr fun hf => hlow (256 + k) (by omega) (by omega) ((spareFree_iff s _).mp hf)
  unfold State.freeSpare upto
  rw [List.find?_map]
  exact (congrArg (Option.map (256 + ·)) hfind).trans (congrArg some hp)

theorem freeSpare_none {s : State} (h : ∀ p, 256 ≤ p → p < 272 → ¬ s.spareFree p) : s.freeSpare = none := by
  refine List.find?_eq_none.mpr fun p hp hf => ?_
  obtain ⟨k, hk, rfl⟩ := List.mem_map.mp hp
  have hk16 : k < 16 := List.mem_range.mp hk
  exact h (256 + k) (by omega) (by omega) ((spareFree_iff s _).mp hf)

/-! ### The start (R380) -/

/-- The migration of a tile to a spare, as it begins. -/
def State.migStarted (s : State) (w f sp : Nat) (src : Byte) (rest : List (Nat × Byte)) : State :=
  let s1 := ((({ s with spr := { s.spr with queue := rest } }.setFld .MIG_STAT 0 7 0 w).setBit .MIG_STAT 0 15 true).setFld
    .MIG_STAT 0 14 13 1).setReg .MIG_PROG 0 0
  { s1.zeroFill .c sp with spr := { s1.spr with mig := some { w, f, sp, line := 0, written := [], copying := false, source := src } } }

section
variable {s : State} {w : Nat} {src : Byte} {rest : List (Nat × Byte)} (hready : s.computeReady = true) (hidle : s.spr.mig = none)
  (hqueue : s.spr.queue = (w, src) :: rest) (hreq : s.fld .TILE_PWR w 1 0 ≠ 1)
include hready hidle hqueue hreq

theorem migrationStart_exec : exec .migrationStart s = .next (
    let s1 := { s with spr := { s.spr with queue := rest } }
    match s.freeSpare with
    | none => (s1.setBit .MIG_STAT 0 12 true).sprInt 2
    | some sp => if s.fld .TILE_PWR w 1 0 = 2 then (s1.setFld .MIG_STAT 0 7 0 w).bindTile w ((s.physTile .c w).getD w) sp src
      else s.migStarted w ((s.physTile .c w).getD w) sp src rest) := by
  have hgo : ¬ (¬ s.computeReady = true ∨ s.spr.mig.isSome = true) := by
    rw [hidle]
    exact not_or_intro (not_not_intro hready) Bool.false_ne_true
  have hfind : (s.spr.queue.find? fun e => s.fld .TILE_PWR e.1 1 0 ≠ 1) = some (w, src) := by
    rw [hqueue]
    exact List.find?_cons_of_pos (decide_eq_true hreq)
  have herase : s.spr.queue.erase (w, src) = rest := by rw [hqueue, List.erase_cons_head]
  refine congrArg Host.Outcome.next ((if_neg hgo).trans ?_)
  rw [hfind]
  dsimp only
  rw [herase] <;> rfl

end

theorem migrationStart_none {s : State} {w : Nat} {src : Byte} {rest : List (Nat × Byte)} (hready : s.computeReady = true) (hidle : s.spr.mig = none)
    (hqueue : s.spr.queue = (w, src) :: rest) (hreq : s.fld .TILE_PWR w 1 0 ≠ 1) (h : s.freeSpare = none) :
    exec .migrationStart s = .next (({ s with spr := { s.spr with queue := rest } }.setBit .MIG_STAT 0 12 true).sprInt 2) := by
  rw [migrationStart_exec hready hidle hqueue hreq, h]

theorem migrationStart_some {s : State} {w sp : Nat} {src : Byte} {rest : List (Nat × Byte)} (hready : s.computeReady = true)
    (hidle : s.spr.mig = none) (hqueue : s.spr.queue = (w, src) :: rest) (hreq : s.fld .TILE_PWR w 1 0 ≠ 1) (hon : s.fld .TILE_PWR w 1 0 ≠ 2)
    (h : s.freeSpare = some sp) : exec .migrationStart s = .next (s.migStarted w ((s.physTile .c w).getD w) sp src rest) := by
  rw [migrationStart_exec hready hidle hqueue hreq, h]
  exact congrArg Host.Outcome.next (if_neg hon)

/-- A tile filled with zeros reads zero throughout. -/
theorem ctile_zeroFill (s : State) (p a : Nat) (h : a / 262144 = p) : Tab.get 0 (s.zeroFill .c p).mem.ctile a = 0 := by
  refine Tab.get_of_not_mem _ _ _ fun e he hk => ?_
  have hne : e.1 / 262144 ≠ p := of_decide_eq_true (List.mem_filter.mp he).2
  rw [hk] at hne
  exact hne h

theorem zero_migStarted (s : State) (w f : Nat) {sp a : Nat} (src : Byte) (rest : List (Nat × Byte)) (h : a / 262144 = sp) :
    Tab.get 0 (s.migStarted w f sp src rest).mem.ctile a = 0 := by
  unfold State.migStarted
  extract_lets _ s1
  exact ctile_zeroFill s1 sp a h

theorem reg_migStarted (s : State) (w f sp : Nat) (src : Byte) (rest : List (Nat × Byte)) (l : RegKind) (j : Nat) :
    (s.migStarted w f sp src rest).reg l j =
      (((({ s with spr := { s.spr with queue := rest } }.setFld .MIG_STAT 0 7 0 w).setBit .MIG_STAT 0 15 true).setFld
        .MIG_STAT 0 14 13 1).setReg .MIG_PROG 0 0).reg l j := rfl

theorem busy_migStarted (s : State) (w f sp : Nat) (src : Byte) (rest : List (Nat × Byte)) :
    (s.migStarted w f sp src rest).bit .MIG_STAT 0 15 = true := by
  rw [State.bit, reg_migStarted, reg_setReg_of_ne _ _ _ _ _ _ (by decide)]
  exact (bit_setFld_of_not_mem _ _ _ _ _ _ _ (by decide) (by decide) (by decide)).trans (bit_setBit_self _ _ _ _ _ (by decide))

theorem phase_migStarted (s : State) (w f sp : Nat) (src : Byte) (rest : List (Nat × Byte)) :
    (s.migStarted w f sp src rest).fld .MIG_STAT 0 14 13 = 1 := by
  rw [State.fld, reg_migStarted, reg_setReg_of_ne _ _ _ _ _ _ (by decide), State.setFld, reg_setReg, wfld_putFld _ _ _ _ (by decide) (by decide)]
  rfl

theorem progress_migStarted (s : State) (w f sp : Nat) (src : Byte) (rest : List (Nat × Byte)) :
    (s.migStarted w f sp src rest).reg .MIG_PROG 0 = 0 := by
  rw [reg_migStarted, reg_setReg]

/-! ### The copy of a line (R380) -/

/-- Word i of the line of a migration. -/
def Migration.word (g : Migration) (i : Nat) : Nat := g.line * 8 + i

/-- The bytes of the spare that the copy of word i writes. -/
def Migration.writes (g : Migration) (i a : Nat) : Prop := g.word i ∉ g.written ∧ ∃ k < 8, a = g.sp * 262144 + 8 * g.word i + k

/-- A word that has been written since is not copied. -/
theorem copyWord_dropped {s : State} {g : Migration} {i : Nat} (h : g.word i ∈ g.written) : s.copyWord g i = s :=
  if_pos (List.contains_iff_mem.mpr h)

/-- What a copied word leaves in the tiles. -/
theorem ctile_copyWord (s : State) (g : Migration) (i : Nat) : (s.copyWord g i).mem.ctile =
    if g.word i ∈ g.written then s.mem.ctile
    else writeBytes 0 s.mem.ctile (g.sp * 262144 + 8 * g.word i) (readBytes 0 s.mem.ctile (g.f * 262144 + 8 * g.word i) 8) := by
  by_cases h : g.word i ∈ g.written
  · rw [copyWord_dropped h, if_pos h]
  · rw [if_neg h]
    refine (congrArg (fun t : State => t.mem.ctile) (if_neg fun hc => h (List.contains_iff_mem.mp hc))).trans ?_
    dsimp only
    split_ifs <;> rfl

theorem spr_copyWord (s : State) (g : Migration) (i : Nat) : (s.copyWord g i).spr = s.spr := by
  unfold State.copyWord
  dsimp only
  split_ifs <;> rfl

/-- A byte that the copy of a word does not write. -/
theorem copyWord_out {s : State} {g : Migration} {i a : Nat} (h : ¬ g.writes i a) : Tab.get 0 (s.copyWord g i).mem.ctile a = Tab.get 0 s.mem.ctile a := by
  rw [ctile_copyWord]
  split_ifs with hw
  · rfl
  · refine get_writeBytes_of_out _ _ _ _ _ ?_
    rw [readBytes_eq, List.length_map, upto, List.length_range]
    by_contra hin
    exact h ⟨hw, a - (g.sp * 262144 + 8 * g.word i), by omega, by omega⟩

/-- A byte that it writes. -/
theorem copyWord_in {s : State} {g : Migration} {i k : Nat} (hw : g.word i ∉ g.written) (hk : k < 8) :
    Tab.get 0 (s.copyWord g i).mem.ctile (g.sp * 262144 + 8 * g.word i + k) = Tab.get 0 s.mem.ctile (g.f * 262144 + 8 * g.word i + k) := by
  have hlen : k < (readBytes 0 s.mem.ctile (g.f * 262144 + 8 * g.word i) 8).length := by
    rw [readBytes_eq, List.length_map, upto, List.length_range]
    exact hk
  rw [ctile_copyWord, if_neg hw, get_writeBytes_of_in _ _ _ _ _ hlen, List.getD_eq_getElem _ _ hlen]
  simp only [readBytes_eq, List.getElem_map, upto, List.getElem_range]

/-- The state once the first n words of the line are copied. -/
def State.copied (s : State) (g : Migration) (n : Nat) : State := (upto n).foldl (fun s i => s.copyWord g i) s

theorem copied_succ (s : State) (g : Migration) (n : Nat) : s.copied g (n + 1) = (s.copied g n).copyWord g n := by
  rw [State.copied, upto_succ, List.foldl_append] <;> rfl

theorem spr_copied (s : State) (g : Migration) (n : Nat) : (s.copied g n).spr = s.spr :=
  List.foldlRecOn (motive := fun t : State => t.spr = s.spr) (upto n) (fun s i => s.copyWord g i) rfl fun t ht i _ => (spr_copyWord t g i).trans ht

theorem copied_out {s : State} {g : Migration} {n a : Nat} (h : ∀ i < n, ¬ g.writes i a) :
    Tab.get 0 (s.copied g n).mem.ctile a = Tab.get 0 s.mem.ctile a := by
  induction n with
  | zero => rfl
  | succ n ih =>
    rw [copied_succ, copyWord_out (h n (Nat.lt_succ_self n))]
    exact ih fun i hi => h i (Nat.lt_succ_of_lt hi)

/-- The old tile is not written: it is not the spare. -/
theorem not_writes_old {g : Migration} (hne : g.f ≠ g.sp) (_ : g.line < 4096) {i j k : Nat} (hi : i < 8) (hj : j < 8) (hk : k < 8) :
    ¬ g.writes i (g.f * 262144 + 8 * g.word j + k) := by
  rintro ⟨-, m, hm, he⟩
  unfold Migration.word at he
  omega

theorem copied_in {s : State} {g : Migration} (hne : g.f ≠ g.sp) (hline : g.line < 4096) {n i k : Nat} (hn : n ≤ 8) (hi : i < n)
    (hw : g.word i ∉ g.written) (hk : k < 8) :
    Tab.get 0 (s.copied g n).mem.ctile (g.sp * 262144 + 8 * g.word i + k) = Tab.get 0 s.mem.ctile (g.f * 262144 + 8 * g.word i + k) := by
  induction n with
  | zero => exact absurd hi (Nat.not_lt_zero i)
  | succ n ih =>
    rw [copied_succ]
    by_cases h : i = n
    · rw [h] at hw ⊢
      rw [copyWord_in hw hk]
      exact copied_out fun j hj => not_writes_old hne hline (by omega) (by omega) hk
    · have hother : ¬ g.writes n (g.sp * 262144 + 8 * g.word i + k) := by
        rintro ⟨-, m, hm, he⟩
        unfold Migration.word at he
        omega
      rw [copyWord_out hother]
      exact ih (by omega) (by omega)

/-- The state after a line is copied. -/
def State.lineCopied (s : State) (g : Migration) : State :=
  let s1 := s.copied g 8
  (({ s1 with spr := { s1.spr with mig := some { g with line := g.line + 1, copying := true } } } : State).setReg
    .MIG_PROG 0 (BitVec.ofNat 16 (g.line + 1))).setFld .MIG_STAT 0 14 13 2

theorem migrationCopyLine_exec {s : State} {g : Migration} (hmig : s.spr.mig = some g) (hline : g.line < 4096) :
    exec .migrationCopyLine s = .next (s.lineCopied g) := by
  have hexec : exec .migrationCopyLine s = execMigrationCopyLine s := rfl
  rw [hexec, execMigrationCopyLine]
  split
  · next hnone => exact absurd (hmig.symm.trans hnone) (by simp)
  · next g' hsome =>
    cases hmig.symm.trans hsome
    exact congrArg Host.Outcome.next (if_neg (Nat.not_le.mpr hline))

theorem ctile_lineCopied (s : State) (g : Migration) : (s.lineCopied g).mem.ctile = (s.copied g 8).mem.ctile := rfl

theorem mig_lineCopied (s : State) (g : Migration) : (s.lineCopied g).spr.mig = some { g with line := g.line + 1, copying := true } := rfl

theorem progress_lineCopied (s : State) (g : Migration) : (s.lineCopied g).reg .MIG_PROG 0 = BitVec.ofNat 16 (g.line + 1) := by
  unfold State.lineCopied
  dsimp only
  rw [State.setFld, reg_setReg_of_ne _ _ _ _ _ _ (by decide), reg_setReg]

theorem phase_lineCopied (s : State) (g : Migration) : (s.lineCopied g).fld .MIG_STAT 0 14 13 = 2 := by
  unfold State.lineCopied
  dsimp only
  rw [State.fld, State.setFld, reg_setReg, wfld_putFld _ _ _ _ (by decide) (by decide)]
  rfl

/-! ### The switch (R380, R381) -/

theorem spr_startTile (s : State) (d : Die) (t : Nat) : (s.startTile d t).spr = s.spr := by
  unfold State.startTile
  dsimp only
  split_ifs
  · rfl
  · split
    · rfl
    · cases d <;> rfl

theorem reg_startTile (s : State) (t : Nat) {l : RegKind} {j : Nat} (h : l.addr j ≠ RegKind.TILE_PWR.addr t) :
    (s.startTile .c t).reg l j = s.reg l j := by
  unfold State.startTile
  dsimp only
  split_ifs
  · rfl
  · split
    · rfl
    · exact reg_setReg_of_ne _ _ _ _ _ _ h

theorem migrationSwitch_exec {s : State} {g : Migration} (hmig : s.spr.mig = some g) (hline : 4096 ≤ g.line) :
    exec .migrationSwitch s = .next ((((State.bindTile { s with spr := { s.spr with mig := none } } g.w g.f g.sp g.source).setBit
      .MIG_STAT 0 15 false).setFld .MIG_STAT 0 14 13 0).startTile .c g.w) := by
  have hexec : exec .migrationSwitch s = execMigrationSwitch s := rfl
  rw [hexec, execMigrationSwitch]
  split
  · next hnone => exact absurd (hmig.symm.trans hnone) (by simp)
  · next g' hsome =>
    cases hmig.symm.trans hsome
    exact congrArg Host.Outcome.next (if_neg (Nat.not_lt.mpr hline))

/-- The spares after a tile is bound to one. -/
theorem spr_bindTile (s : State) (w f sp : Nat) (src : Byte) : (s.bindTile w f sp src).spr = { s.spr with
    bindC := Tab.set (some w) w (some sp) s.spr.bindC, failed := ⟨1, BitVec.ofNat 9 f⟩ :: s.spr.failed
    toAdd := s.spr.toAdd ++ [{ unit := ⟨1, BitVec.ofNat 9 f⟩, live := true, sw := src = 5, source := src }] } := by
  have hsrc : BitVec.ofNat 8 src.toNat = src := by rw [BitVec.ofNat_toNat, BitVec.setWidth_eq]
  unfold State.bindTile State.addEvent
  rw [hsrc] <;> rfl

theorem ecc_bindTile (s : State) (w f sp : Nat) (src : Byte) : (s.bindTile w f sp src).reg .TILE_ECC w = 0 := reg_setReg _ _ _ _

theorem addr_TILE_ECC_ne {w : Nat} (h : w < 256) :
    RegKind.TILE_ECC.addr w ≠ RegKind.MIG_STAT.addr 0 ∧ RegKind.TILE_ECC.addr w ≠ RegKind.TILE_PWR.addr w := by
  have hecc : RegKind.TILE_ECC.addr w = RegKind.TILE_ECC.base + RegKind.TILE_ECC.stride * w := rfl
  have hpwr : RegKind.TILE_PWR.addr w = RegKind.TILE_PWR.base + RegKind.TILE_PWR.stride * w := rfl
  have hlow : RegKind.TILE_ECC.base + RegKind.TILE_ECC.stride * 255 < RegKind.MIG_STAT.addr 0 := by decide
  have hbase : RegKind.TILE_ECC.base ≠ RegKind.TILE_PWR.base ∧ RegKind.TILE_ECC.stride = 2 ∧ RegKind.TILE_PWR.stride = 2 := by decide
  obtain ⟨hne, hs, hs'⟩ := hbase
  rw [hs] at hecc hlow
  rw [hs'] at hpwr
  exact ⟨by omega, by omega⟩

theorem addr_MIG_STAT_ne {w : Nat} (h : w < 256) : RegKind.MIG_STAT.addr 0 ≠ RegKind.TILE_PWR.addr w := by
  have hpwr : RegKind.TILE_PWR.addr w = RegKind.TILE_PWR.base + RegKind.TILE_PWR.stride * w := rfl
  have hlow : RegKind.TILE_PWR.base + RegKind.TILE_PWR.stride * 255 < RegKind.MIG_STAT.addr 0 ∧ RegKind.TILE_PWR.stride = 2 := by decide
  obtain ⟨hlow, hs⟩ := hlow
  rw [hs] at hpwr hlow
  omega

theorem migrations : Rules.Migrations := by
  intro s v g w phys usable
  refine ⟨fun hgo hnew hroom => ?_, fun w src rest hready hidle hqueue hreq => ⟨fun p hlo hhi hfree hlow hon => ?_, fun hnone => ?_⟩,
    fun hmig hw hline hne => ?_, fun hmig hw hline => ?_⟩
  · have hqueue : ¬ ((s.spr.queue.any fun e => e.1 = w) || decide (16 ≤ s.spr.queue.length)) = true := by
      rw [Bool.or_eq_true, List.any_eq_true, decide_eq_true_iff]
      rintro (⟨e, he, hew⟩ | hfull)
      · exact hnew e he (of_decide_eq_true hew)
      · exact Nat.not_le.mpr hroom hfull
    exact congrArg Host.Outcome.next ((if_pos hgo).trans (if_neg hqueue))
  · exact ⟨_, migrationStart_some hready hidle hqueue hreq hon (freeSpare_some hlo hhi hfree hlow), rfl, rfl, busy_migStarted s w _ p src rest,
      phase_migStarted s w _ p src rest, progress_migStarted s w _ p src rest, fun a ha => zero_migStarted s w _ src rest ha⟩
  · exact migrationStart_none hready hidle hqueue hreq (freeSpare_none hnone)
  · refine ⟨s.lineCopied g, migrationCopyLine_exec hmig hline, mig_lineCopied s g, progress_lineCopied s g, phase_lineCopied s g, fun j hj hw => ?_,
      fun a ha => ?_⟩
    · have hsplit (x : Nat) : x * 262144 + 64 * g.line + j = x * 262144 + 8 * g.word (j / 8) + j % 8 := by
        unfold Migration.word
        omega
      rw [ctile_lineCopied, hsplit, hsplit]
      exact copied_in hne hline (Nat.le_refl 8) (by omega) hw (Nat.mod_lt _ (by decide))
    · rw [ctile_lineCopied]
      refine copied_out fun i hi => ?_
      rintro ⟨hw, k, hk, he⟩
      have hword : (8 * i + k) / 8 = i := by omega
      refine ha (8 * i + k) (by omega) (by rw [hword]; exact hw) ?_
      rw [he]
      unfold Migration.word
      omega
  · obtain ⟨hstat, hpwr⟩ := addr_TILE_ECC_ne hw
    let u := State.bindTile { s with spr := { s.spr with mig := none } } g.w g.f g.sp g.source
    let t := ((u.setBit .MIG_STAT 0 15 false).setFld .MIG_STAT 0 14 13 0).startTile .c g.w
    have hspr : t.spr = u.spr := spr_startTile _ _ _
    have hu : u.spr = { s.spr with
        mig := none, bindC := Tab.set (some g.w) g.w (some g.sp) s.spr.bindC, failed := ⟨1, BitVec.ofNat 9 g.f⟩ :: s.spr.failed
        toAdd := s.spr.toAdd ++ [{ unit := ⟨1, BitVec.ofNat 9 g.f⟩, live := true, sw := g.source = 5, source := g.source }] } := spr_bindTile _ _ _ _ _
    have hbind : Tab.get (some g.w) t.spr.bindC g.w = some g.sp := by
      rw [hspr, hu]
      exact Tab.get_set_self _ _ _ _
    refine ⟨t, migrationSwitch_exec hmig hline, by rw [hspr, hu], congrArg (fun o : Option Nat => o.getD g.w) hbind, by rw [hspr, hu], ?_, ?_, ?_,
      by rw [hspr, hu]⟩
    · refine (reg_startTile _ _ hpwr).trans ((reg_setReg_of_ne _ _ _ _ _ _ hstat).trans ((reg_setReg_of_ne _ _ _ _ _ _ hstat).trans ?_))
      exact ecc_bindTile _ _ _ _ _
    · refine (congrArg (wbit · 15) (reg_startTile _ _ (addr_MIG_STAT_ne hw))).trans ?_
      exact (bit_setFld_of_not_mem _ _ _ _ _ _ _ (by decide) (by decide) (by decide)).trans (bit_setBit_self _ _ _ _ _ (by decide))
    · refine (congrArg (wfld · 14 13) (reg_startTile _ _ (addr_MIG_STAT_ne hw))).trans ?_
      rw [State.setFld, reg_setReg, wfld_putFld _ _ _ _ (by decide) (by decide)]
      rfl

end Sys2Proof.Machine

namespace Sys2Proof

/-- Settles O52. -/
theorem spares : Obligations.Spares := ⟨Machine.wear, Machine.migrations⟩

end Sys2Proof
end
